-- ==== Sys2Proof/Word.lean ====
section
/-!
DEFINITION. The word types of the device (R2, R3) and their plainest readings.
-/

namespace Sys2Proof

/-- A byte is 8 bits (R2). -/
abbrev Byte := BitVec 8

/-- A half is 16 bits (R2). -/
abbrev Half := BitVec 16

/-- A word is 32 bits (R2). -/
abbrev Word := BitVec 32

/-- A dword is 64 bits (R2). -/
abbrev Dword := BitVec 64

/-- A device virtual address is 48 bits (R58, R135). -/
abbrev Addr := BitVec 48

/-- Bits `[lo + n - 1 : lo]` of a number, as a number (R3). -/
def field (x lo n : Nat) : Nat := x / 2 ^ lo % 2 ^ n

end Sys2Proof
end

