-- ==== Sys2Proof/Syntax.lean ====
section
/-!
DEFINITION. The instructions and the device steps of the opcode table, one constructor a row.

The first 176 constructors are the Hemrod instruction words (R61 to R75): their arguments are the fields
of the word, as the table places them.  A one-bit field is a Bool; a register field keeps its seven bits
(R41) and `Machine/Operands.lean` says which register it names.  The last 74 constructors are the steps that
the units of the device take on their own: their arguments name the unit, or carry the record that the unit
reads.
-/

namespace Sys2Proof

/-- Fields of ILLEGAL (R62). -/
structure ShIllegal where
  x : BitVec 25
  deriving DecidableEq, Repr

/-- Fields of BRA, BRP_ALL, BRP_ANY (R62). -/
structure ShBranch where
  p : BitVec 3
  s : Bool
  o : BitVec 20
  deriving DecidableEq, Repr

/-- Fields of CALL (R62). -/
structure ShCall where
  o : BitVec 20
  deriving DecidableEq, Repr

/-- Fields of CALL_REG, VOTE_EQ, RODRED_IADD, RODRED_SMIN and others (R62). -/
structure ShDA where
  d : BitVec 7
  a : BitVec 7
  deriving DecidableEq, Repr

/-- Fields of CONT, RET, SUMFREE, SETFMT and others (R62). -/
structure ShA where
  a : BitVec 7
  deriving DecidableEq, Repr

/-- Fields of BRK, LIVE (R62). -/
structure ShCode where
  i : BitVec 17
  deriving DecidableEq, Repr

/-- Fields of TRAP (R62). -/
structure ShUCode where
  u : Bool
  i : BitVec 17
  deriving DecidableEq, Repr

/-- Fields of UPCALL (R62). -/
structure ShUpcall where
  u : Bool
  d : BitVec 7
  a : BitVec 7
  i : BitVec 7
  deriving DecidableEq, Repr

/-- Fields of IADD, ISUB, IMUL, IMAD (R62). -/
structure ShInt where
  u : Bool
  s : Bool
  n : Bool
  w : Bool
  d : BitVec 7
  a : BitVec 7
  b : BitVec 7
  deriving DecidableEq, Repr

/-- Fields of IADD_IMM, IMUL_IMM (R62). -/
structure ShIntImm where
  u : Bool
  s : Bool
  n : Bool
  w : Bool
  d : BitVec 7
  a : BitVec 7
  i : BitVec 7
  deriving DecidableEq, Repr

/-- Fields of IMULHI, IDIV, IREM, IMIN and others (R62). -/
structure ShIntNW where
  u : Bool
  n : Bool
  w : Bool
  d : BitVec 7
  a : BitVec 7
  b : BitVec 7
  deriving DecidableEq, Repr

/-- Fields of ICMP_S, ICMP_N (R62). -/
structure ShIcmp where
  c : BitVec 3
  w : Bool
  p : BitVec 3
  a : BitVec 7
  b : BitVec 7
  deriving DecidableEq, Repr

/-- Fields of IDOT4 (R62). -/
structure ShDot where
  u : Bool
  s : Bool
  n : Bool
  d : BitVec 7
  a : BitVec 7
  b : BitVec 7
  deriving DecidableEq, Repr

/-- Fields of IABS, INEG (R62). -/
structure ShIntUn where
  u : Bool
  s : Bool
  w : Bool
  d : BitVec 7
  a : BitVec 7
  deriving DecidableEq, Repr

/-- Fields of ITOF, FTOI (R62). -/
structure ShConv where
  u : Bool
  r : BitVec 3
  d : BitVec 7
  a : BitVec 7
  f : BitVec 2
  i : BitVec 2
  deriving DecidableEq, Repr

/-- Fields of AND, ANDN, OR, XOR and others (R62). -/
structure ShBit where
  u : Bool
  w : Bool
  d : BitVec 7
  a : BitVec 7
  b : BitVec 7
  deriving DecidableEq, Repr

/-- Fields of AND_IMM, OR_IMM, XOR_IMM, SHL_IMM and others (R62). -/
structure ShBitImm where
  u : Bool
  w : Bool
  d : BitVec 7
  a : BitVec 7
  i : BitVec 7
  deriving DecidableEq, Repr

/-- Fields of SHADD (R62). -/
structure ShShadd where
  u : Bool
  k : BitVec 3
  d : BitVec 7
  a : BitVec 7
  b : BitVec 7
  deriving DecidableEq, Repr

/-- Fields of SEL (R62). -/
structure ShSel where
  u : Bool
  p : BitVec 3
  d : BitVec 7
  a : BitVec 7
  b : BitVec 7
  deriving DecidableEq, Repr

/-- Fields of MOV, CLZ, POPC, BREV (R62). -/
structure ShBitUn where
  u : Bool
  w : Bool
  d : BitVec 7
  a : BitVec 7
  deriving DecidableEq, Repr

/-- Fields of MOVI, MOVHI (R62). -/
structure ShMovi where
  u : Bool
  d : BitVec 7
  i : BitVec 17
  deriving DecidableEq, Repr

/-- Fields of ILV, DILV (R62). -/
structure ShIlv where
  u : Bool
  t : Bool
  d : BitVec 7
  a : BitVec 7
  b : BitVec 7
  deriving DecidableEq, Repr

/-- Fields of UNPK3, INFER (R62). -/
structure ShUDAB where
  u : Bool
  d : BitVec 7
  a : BitVec 7
  b : BitVec 7
  deriving DecidableEq, Repr

/-- Fields of TACC (R62). -/
structure ShTacc where
  u : Bool
  s : Bool
  d : BitVec 7
  a : BitVec 7
  b : BitVec 7
  deriving DecidableEq, Repr

/-- Fields of PLOG (R62). -/
structure ShPlog where
  c : BitVec 3
  d : BitVec 3
  a : BitVec 3
  b : BitVec 3
  deriving DecidableEq, Repr

/-- Fields of FADD_F32, FADD_F16, FADD_BF16, FSUB and others (R62). -/
structure ShFlt where
  u : Bool
  r : BitVec 3
  d : BitVec 7
  a : BitVec 7
  b : BitVec 7
  deriving DecidableEq, Repr

/-- Fields of FMIN, FMAX (R62). -/
structure ShFminmax where
  u : Bool
  n : Bool
  d : BitVec 7
  a : BitVec 7
  b : BitVec 7
  deriving DecidableEq, Repr

/-- Fields of FCMP (R62). -/
structure ShFcmp where
  c : BitVec 3
  p : BitVec 3
  a : BitVec 7
  b : BitVec 7
  deriving DecidableEq, Repr

/-- Fields of LD, ST (R62). -/
structure ShMem where
  u : Bool
  w : BitVec 3
  d : BitVec 7
  c : BitVec 4
  o : BitVec 2
  x : Bool
  f : BitVec 7
  deriving DecidableEq, Repr

/-- Fields of STN, AMAX64 (R62). -/
structure ShMemNW where
  u : Bool
  d : BitVec 7
  c : BitVec 4
  o : BitVec 2
  x : Bool
  f : BitVec 7
  deriving DecidableEq, Repr

/-- Fields of LDL_S, LDL_W, LDL_A, LDL_C (R62). -/
structure ShLdl where
  u : Bool
  w : BitVec 3
  d : BitVec 7
  q : BitVec 2
  f : BitVec 7
  deriving DecidableEq, Repr

/-- Fields of STL_S, STL_A, STL_C (R62). -/
structure ShStl where
  u : Bool
  w : BitVec 3
  d : BitVec 7
  f : BitVec 7
  deriving DecidableEq, Repr

/-- Fields of ACAS (R62). -/
structure ShAcas where
  u : Bool
  w : Bool
  d : BitVec 7
  c : BitVec 4
  o : BitVec 2
  x : Bool
  f : BitVec 7
  deriving DecidableEq, Repr

/-- Fields of ATOM_S32, ATOM_N32, ATOM_S64, ATOM_N64 (R62). -/
structure ShAtom where
  u : Bool
  p : BitVec 3
  d : BitVec 7
  c : BitVec 4
  o : BitVec 2
  x : Bool
  f : BitVec 7
  deriving DecidableEq, Repr

/-- Fields of TEX (R62). -/
structure ShTex where
  c : BitVec 3
  d : BitVec 7
  a : BitVec 7
  b : BitVec 7
  deriving DecidableEq, Repr

/-- Fields of TRACE (R62). -/
structure ShTrace where
  c : Bool
  d : BitVec 7
  a : BitVec 7
  b : BitVec 7
  deriving DecidableEq, Repr

/-- Fields of VMARCH, LAUNCH (R62). -/
structure ShDAB where
  d : BitVec 7
  a : BitVec 7
  b : BitVec 7
  deriving DecidableEq, Repr

/-- Fields of TTASK, WTOUCH, WDROP (R62). -/
structure ShUA where
  u : Bool
  a : BitVec 7
  deriving DecidableEq, Repr

/-- Fields of SUMSET (R62). -/
structure ShSumset where
  f : Bool
  d : BitVec 7
  a : BitVec 7
  b : BitVec 7
  deriving DecidableEq, Repr

/-- Fields of SUMSEND, FCLASS, CHADV, EDGEGET and others (R62). -/
structure ShUDA where
  u : Bool
  d : BitVec 7
  a : BitVec 7
  deriving DecidableEq, Repr

/-- Fields of WBIND, WCSR (R62). -/
structure ShWbind where
  u : Bool
  c : BitVec 4
  a : BitVec 7
  b : BitVec 7
  deriving DecidableEq, Repr

/-- Fields of RAND (R62). -/
structure ShRand where
  u : Bool
  c : Bool
  d : BitVec 7
  a : BitVec 7
  b : BitVec 7
  deriving DecidableEq, Repr

/-- Fields of CAPLD (R62). -/
structure ShCapld where
  d : BitVec 4
  a : BitVec 7
  deriving DecidableEq, Repr

/-- Fields of CAPNAR (R62). -/
structure ShCapnar where
  d : BitVec 4
  s : BitVec 4
  b : BitVec 7
  deriving DecidableEq, Repr

/-- Fields of FDIV, FSQRT, FRCP_F32, FRCP_F16 and others (R62). -/
structure ShFltUn where
  u : Bool
  r : BitVec 3
  d : BitVec 7
  a : BitVec 7
  deriving DecidableEq, Repr

/-- Fields of VOTE_ANY, VOTE_ALL, VOTE_BALLOT (R62). -/
structure ShVote where
  d : BitVec 7
  p : BitVec 3
  deriving DecidableEq, Repr

/-- Fields of RODRED_FADD, RODSCAN_FADD_INC, RODSCAN_FADD_EXC, QBLK and others (R62). -/
structure ShRDA where
  r : BitVec 3
  d : BitVec 7
  a : BitVec 7
  deriving DecidableEq, Repr

/-- Fields of PMOV_REG (R62). -/
structure ShPmovReg where
  d : BitVec 3
  a : BitVec 7
  deriving DecidableEq, Repr

/-- Fields of PMOV_PRED (R62). -/
structure ShPmovPred where
  d : BitVec 3
  a : BitVec 3
  deriving DecidableEq, Repr

/-- Fields of PXOUT (R62). -/
structure ShD where
  d : BitVec 7
  deriving DecidableEq, Repr

/-- Fields of GETS (R62). -/
structure ShGets where
  d : BitVec 7
  n : BitVec 7
  deriving DecidableEq, Repr

/-- Fields of SETS (R62). -/
structure ShSets where
  n : BitVec 7
  a : BitVec 7
  deriving DecidableEq, Repr

/-- Fields of RDCLK (R62). -/
structure ShUD where
  u : Bool
  d : BitVec 7
  deriving DecidableEq, Repr

/-- Fields of SETMODE (R62). -/
structure ShSetmode where
  c : BitVec 3
  a : BitVec 7
  deriving DecidableEq, Repr

/-- Fields of WBASE (R62). -/
structure ShWbase where
  b : BitVec 3
  deriving DecidableEq, Repr

/-- Fields of SEGLD (R62). -/
structure ShSegld where
  k : BitVec 2
  a : BitVec 7
  deriving DecidableEq, Repr

/-- Fields of CAPRD (R62). -/
structure ShCaprd where
  c : BitVec 2
  d : BitVec 7
  k : BitVec 4
  deriving DecidableEq, Repr

/-- Fields of FENCE_ACQ, FENCE_REL, FENCE_ACQREL, FENCE_SC and others (R62). -/
structure ShScope where
  s : BitVec 3
  deriving DecidableEq, Repr

/-- Fields of XFENCE (R62). -/
structure ShXfence where
  s : BitVec 3
  f : BitVec 3
  t : BitVec 3
  deriving DecidableEq, Repr

/-- Fields of BAR (R62). -/
structure ShBar where
  c : Bool
  n : BitVec 4
  deriving DecidableEq, Repr

/-- Fields of WAITV, WAITV_S64 (R62). -/
structure ShWaitv where
  u : Bool
  c : BitVec 3
  d : BitVec 7
  a : BitVec 7
  deriving DecidableEq, Repr

/-- Fields of PREF (R62). -/
structure ShPref where
  u : Bool
  c : BitVec 3
  a : BitVec 7
  deriving DecidableEq, Repr

/-- The operation of a RISC-V atomic memory operation (R158). -/
inductive AmoOp where
  | swap | add | xor | and | or | min | max | minu | maxu
  deriving DecidableEq, Repr

/-- A RISC-V fence by the sets before and after it: RW,RW, R,RW and RW,W (R158). -/
inductive ReckonerFence where
  | full | acquire | release
  deriving DecidableEq, Repr

/-- What a Reckoner core does at device memory (R158): a load or a store of 1, 2, 4 or 8 bytes, an AMO, LR or SC of
4 or 8 bytes with its aq and rl bits, or a fence. -/
inductive ReckonerOp where
  | load (bytes : Nat)
  | store (bytes : Nat)
  | amo (op : AmoOp) (dword aq rl : Bool)
  | lr (dword aq rl : Bool)
  | sc (dword aq rl : Bool)
  | fence (k : ReckonerFence)
  deriving DecidableEq, Repr

/-- A Reckoner core and what it does (R158). -/
structure ReckonerReq where
  core : Nat
  op : ReckonerOp
  deriving DecidableEq, Repr

/-- A step of an update (R320): one of a kind arrives, or the management core ends the one in progress. -/
inductive UpdateStep where
  | arrives (kind : Nat)
  | ends
  deriving DecidableEq, Repr

/-- A request for a measurement (R318): the SPDM version as one byte, the index, and whether a signature is wanted. -/
structure SpdmReq where
  version : Nat
  index : Nat
  signed : Bool
  deriving DecidableEq, Repr

/-- What the sensors of a die read (R321): temperature in degrees, core voltage in mV, input current in mA. -/
structure DieReading where
  degrees : Nat
  millivolts : Nat
  milliamps : Nat
  deriving DecidableEq, Repr

/-- Whose access has stalled (R313): a rod, by its name; a waiting engine request or a committed line, by its place in
the list. -/
inductive StallAgent where
  | rod (uid : Nat)
  | request (index : Nat)
  | line (index : Nat)
  deriving DecidableEq, Repr

/-- The instructions and the device steps of the opcode table. -/
inductive Instr where
  /-- ILLEGAL (R377). -/
  | illegal (f : ShIllegal)
  /-- BRA (R337). -/
  | bra (f : ShBranch)
  /-- BRP_ALL (R340). -/
  | brpAll (f : ShBranch)
  /-- BRP_ANY (R340). -/
  | brpAny (f : ShBranch)
  /-- CALL (R342). -/
  | call (f : ShCall)
  /-- CALL_REG (R342). -/
  | callReg (f : ShDA)
  /-- CONT (R349). -/
  | cont (f : ShA)
  /-- RET (R403). -/
  | ret (f : ShA)
  /-- BRK (R339). -/
  | brk (f : ShCode)
  /-- TRAP (R426). -/
  | trap (f : ShUCode)
  /-- UPCALL (R292). -/
  | upcall (f : ShUpcall)
  /-- LIVE (R386). -/
  | live (f : ShCode)
  /-- IADD (R372). -/
  | iadd (f : ShInt)
  /-- IADD_IMM (R372). -/
  | iaddImm (f : ShIntImm)
  /-- ISUB (R372). -/
  | isub (f : ShInt)
  /-- IMUL (R372). -/
  | imul (f : ShInt)
  /-- IMUL_IMM (R372). -/
  | imulImm (f : ShIntImm)
  /-- IMULHI (R372). -/
  | imulhi (f : ShIntNW)
  /-- IMAD (R372). -/
  | imad (f : ShInt)
  /-- IDIV (R375). -/
  | idiv (f : ShIntNW)
  /-- IREM (R375). -/
  | irem (f : ShIntNW)
  /-- IMIN (R373). -/
  | imin (f : ShIntNW)
  /-- IMAX (R373). -/
  | imax (f : ShIntNW)
  /-- ICLAMP (R373). -/
  | iclamp (f : ShIntNW)
  /-- ICMP_S (R374). -/
  | icmpS (f : ShIcmp)
  /-- ICMP_N (R374). -/
  | icmpN (f : ShIcmp)
  /-- ISAD (R379). -/
  | isad (f : ShIntNW)
  /-- IDOT4 (R376). -/
  | idot4 (f : ShDot)
  /-- IABS (R371). -/
  | iabs (f : ShIntUn)
  /-- INEG (R371). -/
  | ineg (f : ShIntUn)
  /-- ITOF (R380). -/
  | itof (f : ShConv)
  /-- FTOI (R368). -/
  | ftoi (f : ShConv)
  /-- AND (R331). -/
  | and (f : ShBit)
  /-- AND_IMM (R331). -/
  | andImm (f : ShBitImm)
  /-- ANDN (R331). -/
  | andn (f : ShBit)
  /-- OR (R391). -/
  | or (f : ShBit)
  /-- OR_IMM (R391). -/
  | orImm (f : ShBitImm)
  /-- XOR (R437). -/
  | xor (f : ShBit)
  /-- XOR_IMM (R437). -/
  | xorImm (f : ShBitImm)
  /-- SHL (R414). -/
  | shl (f : ShBit)
  /-- SHL_IMM (R414). -/
  | shlImm (f : ShBitImm)
  /-- SHR (R414). -/
  | shr (f : ShBit)
  /-- SHR_IMM (R414). -/
  | shrImm (f : ShBitImm)
  /-- SRA (R414). -/
  | sra (f : ShBit)
  /-- SRA_IMM (R414). -/
  | sraImm (f : ShBitImm)
  /-- SHADD (R412). -/
  | shadd (f : ShShadd)
  /-- SEL (R408). -/
  | sel (f : ShSel)
  /-- MOV (R387). -/
  | mov (f : ShBitUn)
  /-- MOVI (R388). -/
  | movi (f : ShMovi)
  /-- MOVHI (R389). -/
  | movhi (f : ShMovi)
  /-- CLZ (R348). -/
  | clz (f : ShBitUn)
  /-- POPC (R394). -/
  | popc (f : ShBitUn)
  /-- BREV (R338). -/
  | brev (f : ShBitUn)
  /-- BFX (R336). -/
  | bfx (f : ShBit)
  /-- BFI (R336). -/
  | bfi (f : ShBit)
  /-- ILV (R352). -/
  | ilv (f : ShIlv)
  /-- DILV (R352). -/
  | dilv (f : ShIlv)
  /-- UNPK3 (R428). -/
  | unpk3 (f : ShUDAB)
  /-- TACC (R422). -/
  | tacc (f : ShTacc)
  /-- PLOG (R392). -/
  | plog (f : ShPlog)
  /-- FADD_F32 (R358). -/
  | faddF32 (f : ShFlt)
  /-- FADD_F16 (R358). -/
  | faddF16 (f : ShFlt)
  /-- FADD_BF16 (R358). -/
  | faddBf16 (f : ShFlt)
  /-- FSUB (R358). -/
  | fsub (f : ShFlt)
  /-- FMUL_F32 (R358). -/
  | fmulF32 (f : ShFlt)
  /-- FMUL_F16 (R358). -/
  | fmulF16 (f : ShFlt)
  /-- FMUL_BF16 (R358). -/
  | fmulBf16 (f : ShFlt)
  /-- FMA_F32 (R358). -/
  | fmaF32 (f : ShFlt)
  /-- FMA_F16 (R358). -/
  | fmaF16 (f : ShFlt)
  /-- FMA_BF16 (R358). -/
  | fmaBf16 (f : ShFlt)
  /-- HFMA2_F16 (R370). -/
  | hfma2F16 (f : ShFlt)
  /-- HFMA2_BF16 (R370). -/
  | hfma2Bf16 (f : ShFlt)
  /-- FMIN (R366). -/
  | fmin (f : ShFminmax)
  /-- FMAX (R366). -/
  | fmax (f : ShFminmax)
  /-- FCMP (R360). -/
  | fcmp (f : ShFcmp)
  /-- FCVT (R361). -/
  | fcvt (f : ShFlt)
  /-- LD (R383). -/
  | ld (f : ShMem)
  /-- ST (R415). -/
  | st (f : ShMem)
  /-- STN (R419). -/
  | stn (f : ShMemNW)
  /-- LDL_S (R385). -/
  | ldlS (f : ShLdl)
  /-- LDL_W (R385). -/
  | ldlW (f : ShLdl)
  /-- LDL_A (R385). -/
  | ldlA (f : ShLdl)
  /-- LDL_C (R385). -/
  | ldlC (f : ShLdl)
  /-- STL_S (R417). -/
  | stlS (f : ShStl)
  /-- STL_A (R417). -/
  | stlA (f : ShStl)
  /-- STL_C (R417). -/
  | stlC (f : ShStl)
  /-- ACAS (R329). -/
  | acas (f : ShAcas)
  /-- AMAX64 (R330). -/
  | amax64 (f : ShMemNW)
  /-- ATOM_S32 (R332). -/
  | atomS32 (f : ShAtom)
  /-- ATOM_N32 (R332). -/
  | atomN32 (f : ShAtom)
  /-- ATOM_S64 (R332). -/
  | atomS64 (f : ShAtom)
  /-- ATOM_N64 (R332). -/
  | atomN64 (f : ShAtom)
  /-- TEX (R424). -/
  | tex (f : ShTex)
  /-- TRACE (R425). -/
  | trace (f : ShTrace)
  /-- VMARCH (R430). -/
  | vmarch (f : ShDAB)
  /-- TTASK (R427). -/
  | ttask (f : ShUA)
  /-- INFER (R378). -/
  | infer (f : ShUDAB)
  /-- SUMSET (R223). -/
  | sumset (f : ShSumset)
  /-- SUMSEND (R226). -/
  | sumsend (f : ShUDA)
  /-- SUMFREE (R229). -/
  | sumfree (f : ShA)
  /-- WBIND (R177). -/
  | wbind (f : ShWbind)
  /-- WCSR (R185). -/
  | wcsr (f : ShWbind)
  /-- WTOUCH (R179). -/
  | wtouch (f : ShUA)
  /-- WDROP (R182). -/
  | wdrop (f : ShUA)
  /-- RAND (R400). -/
  | rand (f : ShRand)
  /-- CAPLD (R344). -/
  | capld (f : ShCapld)
  /-- CAPNAR (R345). -/
  | capnar (f : ShCapnar)
  /-- LAUNCH (R283). -/
  | launch (f : ShDAB)
  /-- FDIV (R362). -/
  | fdiv (f : ShFltUn)
  /-- FSQRT (R362). -/
  | fsqrt (f : ShFltUn)
  /-- FRCP_F32 (R362). -/
  | frcpF32 (f : ShFltUn)
  /-- FRCP_F16 (R362). -/
  | frcpF16 (f : ShFltUn)
  /-- FRSQ_F32 (R362). -/
  | frsqF32 (f : ShFltUn)
  /-- FRSQ_F16 (R362). -/
  | frsqF16 (f : ShFltUn)
  /-- FEXP2_F32 (R362). -/
  | fexp2F32 (f : ShFltUn)
  /-- FEXP2_F16 (R362). -/
  | fexp2F16 (f : ShFltUn)
  /-- FLOG2_F32 (R362). -/
  | flog2F32 (f : ShFltUn)
  /-- FLOG2_F16 (R362). -/
  | flog2F16 (f : ShFltUn)
  /-- FRND (R367). -/
  | frnd (f : ShFltUn)
  /-- FCLASS (R359). -/
  | fclass (f : ShUDA)
  /-- VOTE_ANY (R431). -/
  | voteAny (f : ShVote)
  /-- VOTE_ALL (R431). -/
  | voteAll (f : ShVote)
  /-- VOTE_BALLOT (R431). -/
  | voteBallot (f : ShVote)
  /-- VOTE_EQ (R431). -/
  | voteEq (f : ShDA)
  /-- RODRED_IADD (R404). -/
  | rodredIadd (f : ShDA)
  /-- RODRED_FADD (R405). -/
  | rodredFadd (f : ShRDA)
  /-- RODRED_SMIN (R404). -/
  | rodredSmin (f : ShDA)
  /-- RODRED_SMAX (R404). -/
  | rodredSmax (f : ShDA)
  /-- RODRED_NMIN (R404). -/
  | rodredNmin (f : ShDA)
  /-- RODRED_NMAX (R404). -/
  | rodredNmax (f : ShDA)
  /-- RODRED_AND (R404). -/
  | rodredAnd (f : ShDA)
  /-- RODRED_OR (R404). -/
  | rodredOr (f : ShDA)
  /-- RODSCAN_IADD_INC (R404). -/
  | rodscanIaddInc (f : ShDA)
  /-- RODSCAN_IADD_EXC (R404). -/
  | rodscanIaddExc (f : ShDA)
  /-- RODSCAN_FADD_INC (R405). -/
  | rodscanFaddInc (f : ShRDA)
  /-- RODSCAN_FADD_EXC (R405). -/
  | rodscanFaddExc (f : ShRDA)
  /-- SHFL_IDX (R413). -/
  | shflIdx (f : ShDA)
  /-- SHFL_UP (R413). -/
  | shflUp (f : ShDA)
  /-- SHFL_DOWN (R413). -/
  | shflDown (f : ShDA)
  /-- SHFL_XOR (R413). -/
  | shflXor (f : ShDA)
  /-- PMOV_REG (R393). -/
  | pmovReg (f : ShPmovReg)
  /-- PMOV_PRED (R393). -/
  | pmovPred (f : ShPmovPred)
  /-- PXOUT (R396). -/
  | pxout (f : ShD)
  /-- GETS (R369). -/
  | gets (f : ShGets)
  /-- SETS (R411). -/
  | sets (f : ShSets)
  /-- RDCLK (R401). -/
  | rdclk (f : ShUD)
  /-- SETFMT (R409). -/
  | setfmt (f : ShA)
  /-- SETMODE (R410). -/
  | setmode (f : ShSetmode)
  /-- WBASE (R433). -/
  | wbase (f : ShWbase)
  /-- SEGLD (R407). -/
  | segld (f : ShSegld)
  /-- CAPRD (R346). -/
  | caprd (f : ShCaprd)
  /-- FENCE_ACQ (R364). -/
  | fenceAcq (f : ShScope)
  /-- FENCE_REL (R364). -/
  | fenceRel (f : ShScope)
  /-- FENCE_ACQREL (R364). -/
  | fenceAcqrel (f : ShScope)
  /-- FENCE_SC (R364). -/
  | fenceSc (f : ShScope)
  /-- XFENCE (R436). -/
  | xfence (f : ShXfence)
  /-- FLUSH (R365). -/
  | flush (f : ShScope)
  /-- FLUSH_INV (R365). -/
  | flushInv (f : ShScope)
  /-- BAR (R333). -/
  | bar (f : ShBar)
  /-- WAITV (R432). -/
  | waitv (f : ShWaitv)
  /-- WAITV_S64 (R432). -/
  | waitvS64 (f : ShWaitv)
  /-- PREF (R395). -/
  | pref (f : ShPref)
  /-- BURST (R215). -/
  | burst (f : ShA)
  /-- CHADV (R190). -/
  | chadv (f : ShUDA)
  /-- EDGEGET (R355). -/
  | edgeget (f : ShUDA)
  /-- EDGEPUT (R355). -/
  | edgeput (f : ShUDA)
  /-- QPOP (R399). -/
  | qpop (f : ShUDA)
  /-- QPUSH (R399). -/
  | qpush (f : ShUDA)
  /-- QBLK (R398). -/
  | qblk (f : ShRDA)
  /-- DQBLK (R354). -/
  | dqblk (f : ShRDA)
  /-- SCOREBOARD_WRITEBACK (R21). -/
  | scoreboardWriteback (rod : Nat)
  /-- TIMER_EXPIRY (R55). -/
  | timerExpiry (rod : Nat)
  /-- YIELD_HOLD_END (R438). -/
  | yieldHoldEnd (rod : Nat)
  /-- WAITV_MONITOR_WAKE (R172). -/
  | waitvMonitorWake (rod : Nat)
  /-- WAITV_SLEEP_TIMEOUT (R172). -/
  | waitvSleepTimeout (rod : Nat)
  /-- FRAME_RETIRE (R38). -/
  | frameRetire (frame : Nat)
  /-- ENGINE_HALT_STOP (R293). -/
  | engineHaltStop (asid : Nat)
  /-- HALT_RECORD_WRITE (R295). -/
  | haltRecordWrite (asid : Nat)
  /-- ABORT_TOKEN_RECEIVE (R298). -/
  | abortTokenReceive (asid group : Nat) (step : BitVec 64) (origin : BitVec 19)
  /-- DIE_UPDATE_APPLY (R165). -/
  | dieUpdateApply (src dst : Nat)
  /-- DIE_STAMP_TOKEN (R165). -/
  | dieStampToken (src dst : Nat)
  /-- FLUSH_WALK_COMPLETE (R173). -/
  | flushWalkComplete (rod : Nat)
  /-- SHOOTDOWN (R144). -/
  | shootdown (rec : BitVec 128)
  /-- RESOLVE (R154). -/
  | resolve (rec : BitVec 256)
  /-- DELIVER (R287). -/
  | deliver (rec : BitVec 256)
  /-- ASSIGN_ENGINE (R187). -/
  | assignEngine (rec : BitVec 256)
  /-- RELEASE_ENGINE (R308). -/
  | releaseEngine (rec : BitVec 256)
  /-- SET_GROUP (R297). -/
  | setGroup (rec : BitVec 256)
  /-- SAVE_REQUEST (R301). -/
  | saveRequest (rec : BitVec 256)
  /-- RESTORE_REQUEST (R303). -/
  | restoreRequest (rec : BitVec 256)
  /-- UPCALL_REPLY (R292). -/
  | upcallReply (msg : BitVec 4096)
  /-- COPY_CELL_LAND (R180). -/
  | copyCellLand (frame win : Nat)
  /-- WDROP_COMPLETE (R182). -/
  | wdropComplete (frame win : Nat)
  /-- GATHER_ELEMENT_LAND (R186). -/
  | gatherElementLand (frame win : Nat)
  /-- CHAIN_ENTRY_START (R188). -/
  | chainEntryStart (engine : Nat)
  /-- CHAIN_ENTRY_COMPLETE (R189). -/
  | chainEntryComplete (engine : Nat)
  /-- TASK_PICK (R202). -/
  | taskPick (core : Nat)
  /-- GOVERNOR_GRANT (R213). -/
  | governorGrant (board : Nat)
  /-- RAMP_UP_COMPLETE (R214). -/
  | rampUpComplete (core eng : Nat)
  /-- TASK_UNIT_COMPLETE (R203). -/
  | taskUnitComplete (core eng : Nat)
  /-- TASK_DONE_WRITE (R204). -/
  | taskDoneWrite (core eng : Nat)
  /-- GRANT_RETURN (R214). -/
  | grantReturn (core eng : Nat)
  /-- BURST_END (R215). -/
  | burstEnd (core : Nat)
  /-- INFER_COMPLETE (R212). -/
  | inferComplete (core eng : Nat)
  /-- SLOT_RESERVE_REQUEST (R223). -/
  | slotReserveRequest (rod : Nat)
  /-- RESERVATION_REPLY (R223). -/
  | reservationReply (rod : Nat)
  /-- SLOT_OPEN (R223). -/
  | slotOpen (rod : Nat)
  /-- CREDIT_REQUEST (R226). -/
  | creditRequest (rod : Nat)
  /-- CREDIT_REPLY (R226). -/
  | creditReply (rod : Nat)
  /-- TRANSFER_APPLY (R227). -/
  | transferApply (core slot : Nat)
  /-- SLOT_WAKE (R233). -/
  | slotWake (core dst slot : Nat)
  /-- TRIANGLE_ENTRY (R243). -/
  | triangleEntry (board : Nat)
  /-- TEXTURE_RESULT (R251). -/
  | textureResult (record : Nat)
  /-- TRACE_RESULT (R262). -/
  | traceResult (record : Nat)
  /-- MARCH_RESULT (R267). -/
  | marchResult (record : Nat)
  /-- CONT_GATHER_TIMEOUT (R255). -/
  | contGatherTimeout (record : Nat)
  /-- DISPATCH_LOOP (R278). -/
  | dispatchLoop (table : Nat)
  /-- QUEUE_CLAIM (R279). -/
  | queueClaim (table asid queue : Nat) (h : BitVec 64)
  /-- QUEUE_RELEASE (R279). -/
  | queueRelease (table asid queue : Nat) (h : BitVec 64) (first : Nat)
  /-- QUEUE_BOUND (R279). -/
  | queueBound (asid queue : Nat) (h : BitVec 64)
  /-- QUEUE_PASS (R279). -/
  | queuePass (asid queue : Nat) (h : BitVec 64)
  /-- BIND_RECORD (R275). -/
  | bindRecord (core : Nat) (rec : BitVec 512)
  /-- BOARD_RESERVATION (R281). -/
  | boardReservation (table : Nat)
  /-- LAUNCH_FABRIC_DELIVERY (R283). -/
  | launchFabricDelivery (dev asid queue : Nat) (rec : BitVec 2048)
  /-- HOST_ACCESS (R310). -/
  | hostAccess (write : Bool) (addr : BitVec 38) (bytes : List (BitVec 8))
  /-- DIRECTORY_RECALL (R312). -/
  | directoryRecall (page : Nat)
  /-- STALL_TIMEOUT (R313). -/
  | stallTimeout (agent : StallAgent)
  /-- SYSTEM_BLOCK_ADDRESS (R306). -/
  | systemBlockAddress (addr : BitVec 52)
  /-- FIRMWARE_UPDATE (R320). -/
  | firmwareUpdate (part : UpdateStep) (image : List (BitVec 8))
  /-- SPDM_REQUEST (R318). -/
  | spdmRequest (request : SpdmReq)
  /-- SENSOR_SAMPLE (R321). -/
  | sensorSample (die : List DieReading) (stack : List Nat) (millivolts milliamps : Nat)
  /-- GRANT_COUNT_ADJUST (R322). -/
  | grantCountAdjust (board : Nat)
  /-- ALARM (R326). -/
  | alarm (code : Nat)
  /-- RESERVED_OPCODE (R76). -/
  | reservedOpcode (word : BitVec 32)
  /-- RECKONER_ACCESS (R158). -/
  | reckonerAccess (request : ReckonerReq) (addr : BitVec 52) (data : BitVec 64)
  /-- HOME_PERFORM (R160). -/
  | homePerform (index : Nat)
  /-- INSTRUCTION_CACHE_FILL (R23). -/
  | instructionCacheFill (rod : Nat)
  /-- NOP (R390). -/
  | nop
  /-- JOIN (R28). -/
  | join
  /-- EXIT (R357). -/
  | exit
  /-- REGION (R402). -/
  | region
  /-- ERET (R290). -/
  | eret
  /-- YIELD (R438). -/
  | yield
  /-- PAGE_WALK_COMPLETE (R141). -/
  | pageWalkComplete
  /-- FAULT_RECORD_WRITE (R153). -/
  | faultRecordWrite
  /-- PORT_REVOKED_FAULT (R121). -/
  | portRevokedFault
  /-- READ_EXCLUSIVE_UPGRADE (R174). -/
  | readExclusiveUpgrade
  /-- PAGE_GRANT (R311). -/
  | pageGrant
  /-- POWER_ON (R316). -/
  | powerOn
  /-- THERMAL_TRIP (R323). -/
  | thermalTrip
  deriving DecidableEq, Repr

end Sys2Proof
end

