-- ==== Sys2Proof/Machine/Legal.lean ====
section
/-!
DEFINITION. When an instruction word is an illegal encoding (R76): the checks on register kinds and
parities (R42, R43, R70 and the entries), and the field values that no table assigns (R65 to R75).
-/

namespace Sys2Proof

/-- The causes of the illegal-encoding fault, class 9 (R76, R286). -/
inductive IllegalCause where
  | illegalWord | reservedOpcode | operandKind | reservedField | reconvergenceMismatch
  deriving DecidableEq, Repr

/-- The cause codes of class 9 (R286). -/
def IllegalCause.code : IllegalCause → Nat
  | .illegalWord => 1
  | .reservedOpcode => 2
  | .operandKind => 3
  | .reservedField => 4
  | .reconvergenceMismatch => 5

/-- A 7-bit register field from 96 up names an s register (R41). -/
def isS (r : BitVec 7) : Bool := decide (96 ≤ r.toNat)

/-- A 7-bit register field below 96 names a v register (R41). -/
def isV (r : BitVec 7) : Bool := decide (r.toNat < 96)

/-- The field's number is a multiple of `n`; the s registers start at field 96, a multiple of 8. -/
def multOf (n : Nat) (r : BitVec 7) : Bool := decide (r.toNat % n = 0)

/-- A destination field: an s register when U = 1, else a v register, aligned to `align` registers (R42, R43). -/
def okDst (u : Bool) (align : Nat) (r : BitVec 7) : Bool :=
  if u then isS r else isV r && multOf align r

/-- A source field: an s register when U = 1, else any s register or an aligned v register (R42, R43). -/
def okSrc (u : Bool) (align : Nat) (r : BitVec 7) : Bool :=
  if u then isS r else isS r || multOf align r

/-- A field that must follow its U form: s when U = 1, an aligned v register when U = 0. -/
def okForm (u : Bool) (align : Nat) (r : BitVec 7) : Bool :=
  if u then isS r else isV r && multOf align r

/-- The alignment of a 32-bit or, with D = 1, a 64-bit operand (R42, R67). -/
def al (w : Bool) : Nat := if w then 2 else 1

/-- The data register of a Form M load (R70). -/
def okLoadData (u : Bool) (width : BitVec 3) (r : BitVec 7) : Bool :=
  match width.toNat with
  | 5 => okDst u 2 r
  | 6 => if u then isS r && multOf 2 r else isV r && multOf 4 r
  | _ => okDst u 1 r

/-- The data register of a Form M store (R70). -/
def okStoreData (u : Bool) (width : BitVec 3) (r : BitVec 7) : Bool :=
  match width.toNat with
  | 5 => okSrc u 2 r
  | 6 => if u then isS r && multOf 2 r else (isS r && multOf 2 r) || (isV r && multOf 4 r)
  | _ => okSrc u 1 r

/-- The three operands of an integer or bitwise Form A word. -/
def ok3 (u w : Bool) (d a b : BitVec 7) : Bool :=
  okDst u (al w) d && okSrc u (al w) a && okSrc u (al w) b

/-- The two operands of a word with one source. -/
def ok2 (u w : Bool) (d a : BitVec 7) : Bool := okDst u (al w) d && okSrc u (al w) a

/-- Groups of registers that start at `x` and `y` with `n` and `m` registers do not overlap. -/
def apart (x n y m : Nat) : Bool := decide (x + n ≤ y ∨ y + m ≤ x)

/-- A register target of CALL, CONT and RET: an s register or an even v pair (R343). -/
def okTarget (r : BitVec 7) : Bool := isS r || multOf 2 r

/-- The word keeps the rules on U, register kind and register parity (R42, R43, R69, R70 and the entries).  For a SEGLD
whose a field names a v register R407 lists the cause reserved field, and R74 with R76 give operand kind: the model takes
operand kind (DESIGN CHOICE, assumption 61). -/
def operandKindOk : Instr → Bool
  | .callReg f => isS f.d && okTarget f.a
  | .cont f | .ret f => okTarget f.a
  | .upcall f =>
    if f.u then isS f.d && isS f.a && multOf 2 f.d && multOf 2 f.a
    else isV f.d && isV f.a && multOf 4 f.d && multOf 4 f.a
  | .iadd f | .isub f | .imul f | .imad f => ok3 f.u f.w f.d f.a f.b
  | .iaddImm f | .imulImm f => ok2 f.u f.w f.d f.a
  | .imulhi f | .idiv f | .irem f | .imin f | .imax f | .iclamp f | .isad f => ok3 f.u f.w f.d f.a f.b
  | .icmpS f | .icmpN f => okSrc false (al f.w) f.a && okSrc false (al f.w) f.b
  | .idot4 f => ok3 f.u false f.d f.a f.b
  | .iabs f | .ineg f => ok2 f.u f.w f.d f.a
  | .itof f => okDst f.u 1 f.d && okSrc f.u (if 2 ≤ f.i.toNat then 2 else 1) f.a
  | .ftoi f => okDst f.u (if 2 ≤ f.i.toNat then 2 else 1) f.d && okSrc f.u 1 f.a
  | .and f | .andn f | .or f | .xor f | .shl f | .shr f | .sra f | .bfx f | .bfi f => ok3 f.u f.w f.d f.a f.b
  | .andImm f | .orImm f | .xorImm f | .shlImm f | .shrImm f | .sraImm f => ok2 f.u f.w f.d f.a
  | .shadd f => ok3 f.u false f.d f.a f.b
  | .sel f => ok3 f.u false f.d f.a f.b
  | .mov f | .clz f | .popc f | .brev f => ok2 f.u f.w f.d f.a
  | .movi f | .movhi f => okDst f.u 1 f.d
  | .ilv f | .dilv f => ok3 f.u false f.d f.a f.b
  | .unpk3 f => ok3 f.u false f.d f.a f.b
  | .tacc f => ok3 f.u false f.d f.a f.b
  | .faddF32 f | .faddF16 f | .faddBf16 f | .fsub f | .fmulF32 f | .fmulF16 f | .fmulBf16 f
  | .fmaF32 f | .fmaF16 f | .fmaBf16 f | .hfma2F16 f | .hfma2Bf16 f => ok3 f.u false f.d f.a f.b
  | .fcvt f => ok2 f.u false f.d f.a
  | .fmin f | .fmax f => ok3 f.u false f.d f.a f.b
  | .fcmp _ => true
  | .ld f => okLoadData f.u f.w f.d && okSrc f.u (al f.x) f.f
  | .st f => okStoreData f.u f.w f.d && okSrc f.u (al f.x) f.f
  | .stn f => okSrc f.u 1 f.d && okSrc f.u (al f.x) f.f
  | .ldlS f | .ldlW f | .ldlA f | .ldlC f => okLoadData f.u f.w f.d && okSrc f.u 1 f.f
  | .stlS f | .stlA f | .stlC f => okStoreData f.u f.w f.d && okSrc f.u 1 f.f
  | .acas f =>
    (if f.u then isS f.d && multOf 2 f.d else isV f.d && multOf (if f.w then 4 else 2) f.d)
      && okSrc f.u (al f.x) f.f
  | .amax64 f => okSrc f.u 2 f.d && okSrc f.u (al f.x) f.f
  | .atomS32 f | .atomN32 f => okDst f.u 1 f.d && okSrc f.u (al f.x) f.f
  | .atomS64 f | .atomN64 f => okDst f.u 2 f.d && okSrc f.u (al f.x) f.f
  | .tex f => isV f.d && multOf 4 f.d && isS f.b
  | .trace f => isV f.d && multOf 8 f.d && isV f.a && multOf 8 f.a && isS f.b
  | .vmarch f =>
    isV f.d && multOf 8 f.d && isV f.a && multOf 4 f.a && decide (f.a.toNat + 11 ≤ 95) && isS f.b
  | .ttask f => if f.u then isS f.a && multOf 4 f.a else isV f.a && multOf 8 f.a
  | .infer f => okForm f.u 1 f.d && isS f.a && okForm f.u 1 f.b
  | .sumset f => isS f.d && isS f.a && isS f.b
  | .sumsend f => okForm f.u 1 f.d && okForm f.u 1 f.a
  | .sumfree f => isS f.a
  | .wbind f | .wcsr f =>
    if f.u then isS f.a && multOf 2 f.a && isS f.b else isV f.a && multOf 4 f.a && isV f.b && multOf 2 f.b
  | .wtouch f | .wdrop f => okForm f.u 1 f.a
  | .rand f => okDst f.u 1 f.d && okSrc f.u 2 f.a && okSrc f.u 2 f.b
  | .capld f => isS f.a
  | .capnar f => isS f.b && multOf 2 f.b
  | .launch f => isS f.d && isS f.a && isS f.b
  | .fdiv f | .fsqrt f | .frcpF32 f | .frcpF16 f | .frsqF32 f | .frsqF16 f | .fexp2F32 f | .fexp2F16 f
  | .flog2F32 f | .flog2F16 f | .frnd f => ok2 f.u false f.d f.a
  | .fclass f => ok2 f.u false f.d f.a
  | .voteAny f | .voteAll f | .voteBallot f => isS f.d
  | .voteEq f => isS f.d && isV f.a
  | .rodredIadd f | .rodredSmin f | .rodredSmax f | .rodredNmin f | .rodredNmax f | .rodredAnd f
  | .rodredOr f => isS f.d && isV f.a
  | .rodredFadd f => isS f.d && isV f.a
  | .rodscanIaddInc f | .rodscanIaddExc f => isV f.d && isV f.a
  | .rodscanFaddInc f | .rodscanFaddExc f => isV f.d && isV f.a
  | .shflIdx f | .shflUp f | .shflDown f | .shflXor f => isV f.d && isV f.a
  | .pxout f => isV f.d
  | .gets f => if f.n.toNat = 3 then isV f.d else isS f.d || multOf 2 f.d
  | .sets f => isS f.a
  | .rdclk f => okDst f.u 2 f.d
  | .setfmt f => isS f.a
  | .setmode f => decide (f.c.toNat ≠ 0) || isS f.a
  | .segld f => isS f.a
  | .caprd f => isS f.d
  | .waitv f => okForm f.u 1 f.d && okForm f.u 1 f.a
  | .waitvS64 f => okForm f.u 2 f.d && okForm f.u 1 f.a
  | .pref f => okSrc f.u 1 f.a
  | .burst f => isS f.a
  | .chadv f => isS f.d && isS f.a
  | .edgeget f => okDst f.u 2 f.d && isS f.a
  | .edgeput f => okSrc f.u 2 f.d && isS f.a
  | .qpop f | .qpush f => okForm f.u 4 f.d && isS f.a
  | .qblk f =>
    isV f.d && isV f.a && multOf 4 f.d && multOf 8 f.a && decide (f.d.toNat + 8 ≤ 95) &&
      decide (f.a.toNat + 31 ≤ 95) && apart f.d.toNat 9 f.a.toNat 32
  | .dqblk f =>
    isV f.d && isV f.a && multOf 8 f.d && multOf 4 f.a && decide (f.d.toNat + 31 ≤ 95) &&
      decide (f.a.toNat + 8 ≤ 95) && apart f.d.toNat 32 f.a.toNat 9
  | _ => true

/-- A store width: stores take no signedness and 111 is reserved (R70). -/
def okStoreWidth (w : BitVec 3) : Bool := decide (w.toNat ≠ 1 ∧ w.toNat ≠ 3 ∧ w.toNat ≠ 7)

/-- Every field holds a value that a table or an entry assigns (R63 to R75, R49). -/
def reservedFieldOk : Instr → Bool
  | .bra f | .brpAll f | .brpAny f => !(decide (f.p.toNat = 0) && f.s)
  | .icmpS f | .icmpN f => decide (f.c.toNat < 6)
  | .itof f | .ftoi f => decide (f.f.toNat < 3)
  | .fcvt f => decide (f.b.toNat < 100 ∧ f.b.toNat / 10 ≠ f.b.toNat % 10)
  | .ld f => decide (f.w.toNat ≠ 7 ∧ f.o.toNat ≠ 3)
  | .st f => okStoreWidth f.w && decide (f.o.toNat ≠ 2)
  | .stn f => decide (f.o.toNat ≠ 2)
  | .ldlS f | .ldlW f | .ldlA f | .ldlC f => decide (f.w.toNat ≠ 7 ∧ f.q.toNat ≠ 3)
  | .stlS f | .stlA f | .stlC f => okStoreWidth f.w
  | .atomS32 f | .atomN32 f | .atomS64 f | .atomN64 f => decide (f.p.toNat ≠ 7)
  | .tex f => decide (f.c.toNat < 5)
  | .gets f => decide (f.n.toNat ≤ 16)
  | .sets f => decide (f.n.toNat ≤ 12)
  | .setmode f => decide (f.c.toNat = 0) || decide (f.a.toNat = 0)
  | .fenceAcq f | .fenceRel f | .fenceAcqrel f | .fenceSc f => decide (f.s.toNat ≠ 7)
  | .xfence f => decide (f.s.toNat ≠ 7 ∧ f.f.toNat ≠ 7 ∧ f.t.toNat ≠ 7 ∧ f.f ≠ f.t)
  | .flush f | .flushInv f => decide (2 ≤ f.s.toNat ∧ f.s.toNat ≠ 7)
  | _ => true

/-- The cause that an instruction's own fields give, if they make it an illegal encoding; the first cause
of R76's list that applies. -/
def Instr.illegal? (i : Instr) : Option IllegalCause :=
  match i with
  | .illegal _ => some .illegalWord
  | _ =>
    if !operandKindOk i then some .operandKind
    else if !reservedFieldOk i then some .reservedField
    else none

end Sys2Proof
end

