-- ==== Sys2Proof/Config.lean ====
section
/-!
DEFINITION. What the M960 fixes (R8, R9, R10), and the values that the manual leaves open.
An `opaque` constant has no body: no proof can see its value, so a statement that mentions one holds whatever it is.
-/

namespace Sys2Proof.Config

/-- Compute cores in the package (R8). -/
def cores : Nat := 256
/-- Boards in the package (R8). -/
def boards : Nat := 64
/-- Tables in the package (R8). -/
def tables : Nat := 16
/-- Compute dies in the package (R8). -/
def dies : Nat := 4
/-- Lanes of a core (R10). -/
def lanes : Nat := 128
/-- Rod slots of a lane (R10, R23). -/
def slots : Nat := 8
/-- Words of a lane's register file (R10, R44). -/
def laneWords : Nat := 4096
/-- Tentative lines that one rod may hold (R148). -/
def rodLines : Nat := 32
/-- Tentative lines that a core's L1 may hold (R148). -/
def coreLines : Nat := 768
/-- Entries of a reconvergence stack (R26). -/
def stackDepth : Nat := 32
/-- Entries of a core's frame table (R275). -/
def frameTable : Nat := 64
/-- Entries of a core's window table (R175). -/
def windows : Nat := 32
/-- Entries of a core's task queue (R201). -/
def taskQueue : Nat := 64
/-- Monitors of a core (R172). -/
def monitors : Nat := 128
/-- Records of a die's fault queue (R153). -/
def faultRing : Nat := 4096
/-- Package copy engines (R8). -/
def copyEngines : Nat := 24
/-- Entries of a core's first-level TLB (R10, R140). -/
def coreTlb : Nat := 1024
/-- Slices of the second-level TLB (R140). -/
def tlbSlices : Nat := 256
/-- Entries of one slice of the second-level TLB: the 256 slices hold 1,048,576 (R12, R140). -/
def sliceTlb : Nat := 4096
/-- Walk requests that a home slice holds (R141). -/
def sliceWalks : Nat := 64
/-- Walkers of a table (R8, R141). -/
def walkers : Nat := 32
/-- Entries of a core's object cache (R136). -/
def objectCache : Nat := 64
/-- Lines of a core's instruction cache: 64 KiB (R10). -/
def codeLines : Nat := 512
/-- Lines of an L2 slice: 4 MiB (R8, R173). -/
def sliceLines : Nat := 32768
/-- Reckoner cores (R8). -/
def reckoners : Nat := 32
/-- Cycles after which every reader sees a write (R162). -/
def staleLimit : Nat := 131072

/-- Contexts that may share one core (R282). -/
def contextsPerCore : Nat := 4
/-- Entries of the event log (R324). -/
def logEntries : Nat := 4096

/-- FREE VALUE. Where the manual gives no order between two agents of the device, the agent that moves next is
this number, reduced modulo the number of agents that can move (assumption 1). -/
opaque freeChoice : Nat → Nat

/-- Whether an SLH-DSA-SHA2-128s signature verifies: key, message, signature (FIPS 205, R317, R319). The manual
names the function and does not give it, so it is uninterpreted (assumption 2). -/
opaque slhDsaVerify : List Byte → List Byte → List Byte → Bool

/-- The SHA-256 digest (R316, R317). The manual names the function and does not give it (assumption 2). -/
opaque sha256 : List Byte → List Byte

/-- The root public key in the boot ROM (R317). The manual gives no value (assumption 2). -/
opaque rootKey : List Byte

/-- The signature that the management core returns over a measurement (R318). The manual names ECDSA on P-384 and
gives neither the function nor the key (assumption 2). -/
opaque spdmSign : List Byte → List Byte

/-- The boot ROM's contents and stored digest (R316, R318); the manual gives no value (assumption 2). -/
opaque rom : List Byte
/-- The digest stored with the boot ROM (R316, assumption 2). -/
opaque romDigest : List Byte

/-- The fields of a firmware image's 64-byte header (R317), whose layout the manual does not give, and the owner key
that a management image carries (R319), whose place it does not give (assumption 17). -/
opaque imageKind : List Byte → Nat
/-- VERSION of a firmware image (assumption 17). -/
opaque imageVersion : List Byte → Nat
/-- LEN of a firmware image (assumption 17). -/
opaque imageLen : List Byte → Nat
/-- The digest in a firmware image's header (assumption 17). -/
opaque imageDigest : List Byte → List Byte
/-- The owner key that a management firmware image carries (assumption 17). -/
opaque ownerKey : List Byte → List Byte

/-- FREE VALUE. A byte of a persistent expander whose last write was not yet persistent when power went (R313,
assumption 66). -/
opaque lostByte : Nat → Nat → BitVec 8

/-- FREE VALUE. Whether the ROM's self-test succeeds, and whether the HBM4E stacks train, at a boot (R316,
assumption 67). -/
opaque selfTest : Nat → Bool
/-- Whether the HBM4E stacks train at a boot (R316, assumption 67). -/
opaque hbmTrains : Nat → Bool

/-- FREE VALUE. A measurement of which the device holds no object: of a record where the defaults apply, of an image that
did not boot (R318, assumption 68). -/
opaque noMeasurement : Nat → List Byte

/-- FREE VALUE. The hash of a physical line address that selects its home slice (R131, assumption 5). -/
opaque homeSlice : Nat → Nat

/-- FREE VALUE. The slice of the second-level TLB, 0 to 255, that is the home of a translation, by ASID, log2 of the
page size and page number: a hash that is fixed and not architected (R140, assumption 5). -/
opaque tlbSlice : Nat → Nat → Nat → Nat

/-- FREE VALUE. A move of the device that stays possible is passed over at most this often (R33, assumption 49). -/
opaque patience : Nat

/-- FREE VALUE. Whether a number names an endpoint of this house (R310); the manual does not fix the house's
membership (assumption 6). -/
opaque endpoint : Nat → Bool

/-- FREE VALUE. How many pages the switch directory holds: the manual says what it does when it is full, and gives no
number (R311, assumption 70). -/
opaque directoryPages : Nat

/-- FREE VALUE. The device whose queue received a launch record that spans devices and was not posted by a LAUNCH on this
one: the record has no field for it (R273, R283, assumption 13). -/
opaque firstDevice : Nat → Nat → Nat → Nat

/-- FREE VALUE. The derivative of a texture coordinate of which a neighbour is infinite, in units of 2^-149: the manual
states none (R249, assumption 14). -/
opaque freeDerivative : BitVec 32 → BitVec 32 → Int

/-- FREE VALUE. The integer that a NaN bias or level operand of TEX gives: the manual states none (R249,
assumption 14). -/
opaque freeLod : BitVec 32 → Int

/-- FREE VALUE. A result word of a TEX whose page fault was resolved with FAIL: the manual states none (R423,
assumption 14). -/
opaque freeTexel : Nat → BitVec 32

/-- FREE VALUE. The BEADID that the stochastic draw of a uniform instruction takes, by the rod's active beads: the
manual states none (R100, assumption 19). -/
opaque uniformBead : BitVec 16 → Nat

/-- FREE VALUE. The management core's microseconds at an event before the release of the compute dies, by the number of
events before it (R315, R324, assumption 44). -/
opaque earlyTime : Nat → BitVec 63

/-- FREE VALUE. Of two zeros of opposite sign, whether the least or greatest of the two is the first, by their codes: the
manual states none (R265, assumption 15). -/
opaque tiedZero : Nat → Nat → Bool

end Sys2Proof.Config
end

