-- ==== Sys2Proof/Machine/State.lean ====
section
/-!
DEFINITION. The state of the device: plain data, holding every piece of state that the manual names.

Tables of the hardware that are mostly empty are lists: either of the entries in use, or of pairs of a key and a
value, the keys strictly rising and no value the default one (`Sparse` in `Machine/Sparse.lean`).
-/

namespace Sys2Proof.Machine

/-- What the machine does in one step: a rod issues its next instruction, a rod that a cell holds gives way (R21, R32), a
unit of the device takes a step, or the world outside acts. -/
inductive Move where
  | issue (uid : Nat)
  | hold (uid : Nat)
  | unit_ (i : Instr)
  | input
  deriving DecidableEq, Repr

/-- What the world outside the device does: an access, a message, a measurement or an alarm, which is a row of the
opcode table; the data that a line of memory stores becomes uncorrectable (R286, class 10 cause 1); a CXL expander
ceases to answer or answers again (R313); or another endpoint asks the switch directory for an export page, to own it or
not (R311). -/
inductive Input where
  | act (i : Instr)
  | request (ep page : Nat) (own : Bool)
  | corrupt (line : Nat)
  | port (port : Nat) (answers : Bool)
  deriving DecidableEq, Repr

/-! ### What agents have seen of memory (R155 to R170) -/

/-- For each of the four dies, one more than the number of a write performed at its homes; the writes of that die with
lower numbers are meant, and 0 means none (assumption 48). -/
structure Marks where
  d0 : Nat
  d1 : Nat
  d2 : Nat
  d3 : Nat
  deriving DecidableEq, Repr

/-- No write. -/
def Marks.none : Marks := ⟨0, 0, 0, 0⟩

/-- Who performs an access, as far as a scope tells agents apart (R156): a rod of a frame on a core, an engine of a core,
an agent of the device that belongs to no core, or an agent outside the device. -/
inductive Agent where
  | core (rod frame core : Nat)
  | engine (core : Nat)
  | device
  | outside
  deriving DecidableEq, Repr

/-- An XFENCE (R170): the writer's path and the reader's path that it names, its scope and issuer, and the writes that it
makes visible. -/
structure Cross where
  first : Nat
  second : Nat
  scope : Nat
  agent : Agent
  marks : Marks
  deriving DecidableEq, Repr

/-- What comes before an access (R162, R169): the writes that happen before it, and the XFENCEs on the way. -/
structure Seen where
  hb : Marks
  ord : List Cross
  deriving DecidableEq, Repr

/-- Nothing. -/
def Seen.none : Seen := ⟨Marks.none, []⟩

/-- A release (R163): its issuer and scope, the writes that happen before it, and the XFENCEs before it (R169, R170). -/
structure Stamp where
  agent : Agent
  scope : Nat
  hb : Marks
  ord : List Cross
  deriving DecidableEq, Repr

/-- What a rod must see of other agents' writes (R162, R163): the writes that happen before its next access, its own
performed writes, the writes that its loads returned (R166), the XFENCEs before it, the releases that FENCEs of its own
put before its next stores, and the releases whose writes its loads returned, for a FENCE that follows. -/
structure View where
  hb : Marks
  own : Marks
  read : Marks
  ord : List Cross
  rel : List Stamp
  got : List Stamp
  deriving DecidableEq, Repr

/-- The view of a rod that has seen nothing. -/
def View.none : View := ⟨Marks.none, Marks.none, Marks.none, [], [], []⟩

/-- A write performed at its home in the last 131,072 cycles (R161, R162): its number in the order of performing, path
(R155), agent, cycle, its bytes with the values they replaced, and the releases that an acquire returning it
synchronises with. -/
structure WriteRec where
  seq : Nat
  path : Nat
  agent : Agent
  clk : Nat
  old : List (Nat × Byte)
  stamps : List Stamp
  deriving DecidableEq, Repr

/-! ### Rods (R41 to R59) -/

/-- A capability register, 128 bits (R48); the reserved bits [121:120] read zero. -/
structure Cap where
  v : Bool
  x : Bool
  e : Bool
  a : Bool
  w : Bool
  rd : Bool
  handle : BitVec 24
  lo : BitVec 48
  hi : BitVec 48
  deriving DecidableEq, Repr

/-- The register with every bit zero: V = 0 (R57). -/
def Cap.empty : Cap := ⟨false, false, false, false, false, false, 0, 0, 0⟩

/-- One entry of a reconvergence stack (R26). -/
structure StackEntry where
  ba : Addr
  f : BitVec 16
  w : BitVec 16
  j : Option Addr
  pv : Bool
  ppc : Addr
  pm : BitVec 16
  pr : BitVec 4
  pfmt : BitVec 16
  pmode : BitVec 16
  sfmt : BitVec 16
  smode : BitVec 16
  deriving DecidableEq, Repr

/-- A bead's kind at one barrier (R333). -/
inductive BarKind where
  | idle | waiting | arrived
  deriving DecidableEq, Repr

/-- A bead's arrival at one barrier: its kind and phase bit AP (R333). -/
structure BarArrival where
  kind : BarKind
  ap : Bool
  deriving DecidableEq, Repr

/-- One bead: its copy of the v registers by physical index (R41, R44), its predicates p0 to p7 (R47), and its
arrival at the sixteen barriers of its frame (R333). -/
structure Bead where
  v : List Word
  p : BitVec 8
  bar : List BarArrival
  deriving DecidableEq, Repr

/-- The control state that the device records at a restart address (R146). -/
structure Ctl where
  active : BitVec 16
  stack : List StackEntry
  fmt : BitVec 16
  mode : BitVec 16
  base : BitVec 3
  deriving DecidableEq, Repr

/-- The fault frame of a rod in handler mode (R289). -/
structure FaultFrame where
  sregs : List Dword
  epc : Addr
  act : BitVec 16
  modec : BitVec 16
  fmt : BitVec 16
  base : BitVec 3
  depth : Nat
  bead : Nat
  cls : Nat
  cause : Nat
  deriving DecidableEq, Repr

/-- What a bead that waits at a cell does there when it is served (R128, R129): an LDL with its qualifier, its U bit,
data register, width code and byte offset in the cell, or a peek of the whole cell for an instruction that reads
several. -/
inductive CellWait where
  | ldl (take u : Bool) (d : BitVec 7) (w : BitVec 3) (sub : Nat)
  | peek
  deriving DecidableEq, Repr

/-- What a sleeping or waiting rod waits for (R25). -/
inductive Sleep where
  /-- a cell of core, buffer and physical cell number (R129) -/
  | cell (core buf cell : Nat) (acc : CellWait)
  /-- a write to an armed line; `hit` once one was made, `full` when the monitor table was full (R172) -/
  | waitv (lines : List Nat) (hit full : Bool)
  /-- the phase of a barrier (R333) -/
  | barrier (n : Nat)
  /-- HEAD of the queue whose header lies at this physical address (R284, R309) -/
  | queue (header : Nat)
  /-- the walk of a FLUSH: scope code and the invalidating form (R365) -/
  | flush (scope : Nat) (inv : Bool)
  /-- the end of a WDROP of a window (R182) -/
  | wdrop (win : Nat)
  /-- the credit reply of a SUMSEND bead (R226, R421) -/
  | credit
  /-- an entry of the core's task queue (R201) -/
  | taskQueue
  /-- a place in the carry port's send buffer (R226) -/
  | sendBuffer
  /-- granted transfers of a chain that SUMFREE frees (R229) -/
  | sumfree
  /-- the walk of an address in a bead: for a read, a write or a fetch, by the KIND that R153 gives its fault (R141) -/
  | walk (va kind bead : Nat)
  /-- a page of another device's export space, for an address, in a bead (R311, R313) -/
  | fabric (page va bead : Nat)
  /-- a CXL port that does not answer, for an address, in a bead, with the limit of the stall (R313) -/
  | tier (port va bead limit : Nat)
  /-- the reply of the memory port to an access that it rejects (R121, R136) -/
  | port
  deriving DecidableEq, Repr

/-- An UPCALL that waits for its reply (R292): core and slot-table index at the call, the result field and U. -/
structure Call where
  core : Nat
  slot : Nat
  d : BitVec 7
  u : Bool
  deriving DecidableEq, Repr

/-- A parked rod's fault (R287): class, cause, the bead that gives the resume position, none for a uniform instruction
(R34), INFO and, for class 1, the fault record. -/
structure Park where
  cls : Nat
  cause : Nat
  bead : Option Nat
  info : Dword
  /-- class 1: die and RECID of the rod's record, once it is written -/
  record : Option (Nat × Nat)
  /-- class 4: the call -/
  call : Option Call
  deriving DecidableEq, Repr

/-- The state of a bound rod (R25); Saved and Retired rods are not in the list of rods. -/
inductive RodStatus where
  | ready
  /-- Waiting until this cycle (R438) -/
  | held (until_ : Nat)
  /-- Sleeping, or Waiting for a queue place: the ticket that gives its place among waiters, and the cycle it began -/
  | asleep (why : Sleep) (ticket began : Nat)
  | parked (p : Park)
  deriving DecidableEq, Repr

/-- Where the bytes of a tentative or committed line came from (R144, R150, R313): the physical line, its device virtual line
address, the handle of the object, and MT of the page. -/
structure LineTag where
  line : Nat
  va : Nat
  handle : Nat
  mt : Nat
  deriving DecidableEq, Repr

/-- A scoreboard entry whose value an engine delivers later (R20, R21, R220): the uniform register SUMSET writes. -/
structure Pending where
  sreg : Nat
  value : Option Dword
  deriving DecidableEq, Repr

/-- A bound rod (R58). -/
structure Rod where
  /-- the model's own name of the rod -/
  uid : Nat
  asid : Nat
  /-- name of its frame -/
  frame : Nat
  core : Nat
  lane : Nat
  slot : Nat
  /-- identity registers (R54) -/
  rodid : BitVec 10
  frameid : BitVec 32
  boardid : BitVec 6
  tableid : BitVec 4
  devid : BitVec 19
  /-- bead count, 1 to 16 -/
  nbeads : Nat
  /-- ALLOC, 32 to 256 registers (R44) -/
  alloc : Nat
  beads : List Bead
  s : List Dword
  c : List Cap
  pc : Addr
  /-- resume position (R34) -/
  resume : Nat
  active : BitVec 16
  /-- beads that have not ended (R29, R333) -/
  alive : BitVec 16
  mode : BitVec 32
  fmt : BitVec 16
  /-- WBASE.BASE (R53) -/
  base : BitVec 3
  rodcyc : Dword
  timerEn : Bool
  timerCount : BitVec 63
  /-- TIMER has expired and its fault is still to be taken (R55) -/
  timerDue : Bool
  stack : List StackEntry
  /-- the liveness descriptor of the most recent LIVE (R386) -/
  live : Option Addr
  /-- the rod has just completed a LIVE (R300) -/
  atLive : Bool
  /-- restart address and control state of the open region (R146) -/
  restart : Addr
  restartCtl : Ctl
  /-- bytes of the rod's tentative lines, by physical address (R148) -/
  tent : List (Nat × Byte)
  /-- where those lines came from -/
  tags : List LineTag
  scoreboard : List Pending
  /-- cells that the waiting bead of an instruction has read so far (R128, R222, R226) -/
  peeked : List (BitVec 128)
  status : RodStatus
  handler : Option FaultFrame
  /-- formed from continuation records (R255, R303) -/
  continued : Bool
  /-- what the rod has seen of memory (R162, R163) -/
  view : View
  deriving DecidableEq, Repr

/-! ### Frames (R56, R60, R175, R276, R333) -/

/-- A segment register (R56). -/
structure Seg where
  limit : BitVec 20
  base : BitVec 20
  deriving DecidableEq, Repr

/-- The states of a window entry (R178); `draining` is Copying after a WDROP (R182). -/
inductive WinState where
  | free | bound | copying | filled | stopped | draining
  deriving DecidableEq, Repr

/-- What a walk has read of its object (R186): n, m and status, the offsets of the column indices and the values, and
p0. -/
structure GatherPlan where
  n : Nat
  m : Nat
  status : Nat
  ci : Nat
  va : Nat
  p0 : Nat
  deriving DecidableEq, Repr

/-- The walk of a WCSR (R184 to R186), held in both of its window entries: the other window, value width in bytes,
NMAX, the rows, what it has read of the object, the elements landed, and the words and bytes of the cells being
filled. -/
structure Gather where
  index : Bool
  partner : Nat
  vw : Nat
  nmax : Nat
  r0 : Nat
  r1 : Nat
  plan : Option GatherPlan
  done : Nat
  words : List Word
  bytes : List Byte
  deriving DecidableEq, Repr

/-- A window entry of a frame (R175 to R178). -/
structure Window where
  st : WinState
  buf : Nat
  /-- first cell, relative to the segment -/
  cell : Nat
  rows : Nat
  rowc : Nat
  stride : Nat
  cap : Cap
  off : Nat
  /-- cells landed -/
  landed : Nat
  gather : Option Gather
  /-- the copy waits on a fault record of this die and number (R192) -/
  fault : Option (Option (Nat × Nat))
  /-- what comes before the copy's accesses: its binding and its touch (R169, R170) -/
  seen : Seen
  /-- the rods that sleep on an absent cell of the window, or have consumed one, while its copy waits on a fault record (R192) -/
  tags : List Nat
  deriving DecidableEq, Repr

/-- A bound frame: its frame-table entry with the launch state of R276, its segment registers, windows and barriers. -/
structure Frame where
  uid : Nat
  asid : Nat
  frameid : BitVec 32
  core : Nat
  launch : Nat
  kpc : Addr
  rodsM1 : Nat
  beadsM1 : Nat
  alloc : Nat
  l0 : Nat
  w0 : Nat
  mode : BitVec 16
  fmt : BitVec 16
  devid : BitVec 19
  boardid : BitVec 6
  tableid : BitVec 4
  caps : List Cap
  args : List Dword
  segS : Seg
  segW : Seg
  segA : Seg
  segC : Seg
  windows : List Window
  /-- phase bits GP of barriers 0 to 15 (R333) -/
  phases : BitVec 16
  /-- one of a group of four (R280, R303) -/
  gang : Bool
  /-- its entry of the core's frame table, 0 to 63 (R275, R277) -/
  ft : Nat
  /-- what the arrivals at each barrier released, by barrier (R164) -/
  barriers : List (Nat × List Stamp)
  deriving DecidableEq, Repr

/-- A launch with frames not yet retired on this device (R272): the address of its record, its first frames' place,
the frames still to bind and still to retire, and the completion word. -/
structure Launch where
  uid : Nat
  asid : Nat
  lrec : Nat
  unbound : Nat
  left : Nat
  dw : Bool
  doneh : Nat
  doneoff : Nat
  deriving DecidableEq, Repr

/-! ### Local memory (R122 to R130) -/

/-- A 16-byte cell and its presence bit (R125, R126). -/
structure Cell where
  data : BitVec 128
  present : Bool
  deriving DecidableEq, Repr

/-! ### Matrix engines (R196 to R216) -/

/-- Cells of one buffer of one core, by physical number. -/
structure Range where
  core : Nat
  buf : Nat
  first : Nat
  len : Nat
  deriving DecidableEq, Repr

/-- What a queue entry asks for: a tile task with its record and classes (R196, R198), or an INFER row (R211). -/
inductive TaskKind where
  | tile (record : BitVec 256) (af bf : Nat)
  /-- future, descriptor and input cells of S, and the NW(L) and INW found at issue (R211) -/
  | infer (future desc input nw inw : Nat)
  deriving DecidableEq, Repr

/-- Where a queue entry stands (R202, R203). -/
inductive TaskPhase where
  | queued
  /-- computing: units done -/
  | running (eng unit : Nat)
  /-- the C range is being written: cells written; the done cell is last -/
  | writing (eng cells : Nat)
  deriving DecidableEq, Repr

/-- A task-queue entry (R201). -/
structure Task where
  uid : Nat
  core : Nat
  frame : Nat
  rod : Nat
  asid : Nat
  kind : TaskKind
  phase : TaskPhase
  /-- where A and B of a running tile task lie (R203, R207) -/
  src : List Range
  /-- accumulators of a running task, tile by tile (R203, R111) -/
  acc : List (BitVec 40)
  /-- conditions raised, in the order of MODE[22:16] (R204) -/
  flags : BitVec 7
  /-- what comes before the task's requests (R170) -/
  seen : Seen
  deriving DecidableEq, Repr

/-- The power state of an engine (R213, R214). -/
inductive EngineMode where
  /-- no grant -/
  | idle
  /-- ramping up until this cycle -/
  | ramp (until_ : Nat)
  /-- holding its grant, ramp ended -/
  | granted
  /-- ramping down until this cycle -/
  | down (until_ : Nat)
  deriving DecidableEq, Repr

/-- A board's governor: how far its dynamic grant count stands below GB for its die's temperature, for its stack's and for
power, with the cycles of the last changes for heat and for power (R213, R322), and the engines that wait for a grant, in
order. -/
structure Governor where
  dieHot : Nat
  stackHot : Nat
  capped : Nat
  hotAt : Nat
  cappedAt : Nat
  waiting : List Nat
  deriving DecidableEq, Repr

/-- A declared burst as one engine of its core keeps it (R215): engine, context, length, and the cycle at which it ends,
none until the engine's ramp has ended. -/
structure Burst where
  core : Nat
  eng : Nat
  asid : Nat
  len : Nat
  until_ : Option Nat
  deriving DecidableEq, Repr

/-! ### Carry network (R217 to R236) -/

/-- The states of a carry slot (R218). -/
inductive SlotState where
  | free | held | open_ | complete | away | dead
  deriving DecidableEq, Repr

/-- A slot-table entry (R217, R218, R236). -/
structure Slot where
  st : SlotState
  asid : Nat
  /-- core and index of the owning chain -/
  owner : Nat
  chain : Nat
  /-- the rod that issued the SUMSET -/
  rod : Nat
  /-- destination frame -/
  frame : Nat
  cell : Nat
  size : Nat
  count : Nat
  remain : Nat
  fixed : Bool
  x : Int
  /-- the 16 guard bits of each word of a fixed slot -/
  guard : List (BitVec 16)
  flags : BitVec 7
  /-- wait set -/
  wait : List Nat
  applied : Nat
  discarded : Nat
  deriving DecidableEq, Repr

/-- A free slot-table entry. -/
def Slot.empty : Slot :=
  ⟨.free, 0, 0, 0, 0, 0, 0, 0, 0, 0, false, 0, [], 0, [], 0, 0⟩

/-- A chain-table entry: core, index, owner, and the slots as (core, slot) (R217). -/
structure Chain where
  core : Nat
  index : Nat
  asid : Nat
  frame : Nat
  slots : List (Nat × Nat)
  deriving DecidableEq, Repr

/-- A slot spec as SUMSET reads it (R222). -/
structure Spec where
  core : Nat
  slot : Nat
  cell : Nat
  size : Nat
  count : Nat
  deriving DecidableEq, Repr

/-- The stage of a reservation (R223): a request is on its way for spec `next`, a reply has come, or the slots open. -/
inductive ResvStage where
  | request
  /-- waiting at the port for a Held entry, since this ticket -/
  | waiting (ticket : Nat)
  | reply (code : Nat)
  | opening
  deriving DecidableEq, Repr

/-- A SUMSET whose reservation is under way (R223). -/
structure Resv where
  rod : Nat
  core : Nat
  asid : Nat
  frame : Nat
  launch : Nat
  dreg : Nat
  fixed : Bool
  x : Int
  chain : Nat
  specs : List Spec
  next : Nat
  stage : ResvStage
  deriving DecidableEq, Repr

/-- The reply to a credit request (R226). -/
inductive CreditReply where
  | granted | away | refused
  deriving DecidableEq, Repr

/-- A credit request of one bead, with the copy of its tile in the send buffer (R226). -/
structure Credit where
  rod : Nat
  frame : Nat
  asid : Nat
  core : Nat
  /-- none for a uniform SUMSEND -/
  bead : Option Nat
  dst : Nat
  slot : Nat
  size : Nat
  words : List Dword
  reply : Option CreditReply
  deriving DecidableEq, Repr

/-- A granted tile on the data channel (R226, R227). -/
structure Transfer where
  core : Nat
  frame : Nat
  dst : Nat
  slot : Nat
  words : List Dword
  deriving DecidableEq, Repr

/-! ### Copy engines (R187 to R194) -/

/-- The entry a package copy engine is running (R188). -/
structure ChainEntry where
  off : Nat
  next : Nat
  len : Nat
  fill : Option (BitVec 48)
  src : Cap
  soff : Nat
  dst : Cap
  doff : Nat
  /-- 16-byte units written -/
  units : Nat
  deriving DecidableEq, Repr

/-- A package copy engine assigned to a context (R187, R188). -/
structure CopyEngine where
  engine : Nat
  asid : Nat
  cap : Cap
  cur : Nat
  tail : Nat
  seq : Dword
  running : Option ChainEntry
  stopped : Bool
  /-- the writes that it has performed (R170) -/
  own : Marks
  /-- what comes before its accesses: the CHADVs that moved TAIL (R170, R190) -/
  seen : Seen
  /-- waits on a fault record (R192) -/
  fault : Option (Option (Nat × Nat))
  /-- op 4 waits for the running entry (R308) -/
  releasing : Bool
  deriving DecidableEq, Repr

/-! ### Continuations, sampling and rays (R248 to R268) -/

/-- The request a bead handed to a unit (R252, R257). -/
inductive UnitReq where
  /-- ctl, capability, image and sampler cells, operands, and (u, v) of the four beads of the quad that are active -/
  | tex (ctl : Nat) (cap : Cap) (image sampler : BitVec 128) (ops : List Word) (member : Nat)
      (quad : List (Option (Word × Word)))
  /-- any hit, capability, root offset, ray words -/
  | trace (any : Bool) (cap : Cap) (root : Nat) (ray : List Word)
  /-- capability, grid descriptor, ray words with seed, stream and index -/
  | march (cap : Cap) (desc : BitVec 512) (ray : List Word)
  deriving DecidableEq, Repr

/-- Where a march stands when a read of it waits on a page (R265, R268): steps left, ta, draw index, cell and tnext by
axis, whether a density exceeded its majorant, and inside a cell its majorant and tb; distances and values as f32. -/
structure MarchPoint where
  left : Nat
  ta : Nat
  idx : Nat
  c : List Nat
  tnext : List Nat
  exceeded : Bool
  inside : Option (Nat × Nat)
  deriving DecidableEq, Repr

/-- A vector of exact values. -/
structure V3 where
  x : Rat
  y : Rat
  z : Rat
  deriving DecidableEq, Repr

/-- A ray in the space of one tree: origin, direction, the instance it entered, and whether the tree is the top
level (R260). -/
structure Ray where
  o : V3
  d : V3
  inst : Nat
  top : Bool
  deriving DecidableEq, Repr

/-- A hit: t, instance, primitive and barycentric coordinates (R260). -/
structure Hit where
  t : Rat
  inst : Nat
  prim : Nat
  b1 : Rat
  b2 : Rat
  deriving DecidableEq, Repr

/-- What is still to be visited: a node, an instance record, or a leaf of consecutive triangle records (R259). -/
inductive Pend where
  | node (off : Nat)
  | inst (off : Nat)
  | leaf (count off : Nat)
  deriving DecidableEq, Repr

/-- Where a trace stands when a read of it waits (R261, R268): the traversal stack, its top first, the closest hit so far,
and the visits, that of the top among them. -/
structure TracePoint where
  todo : List (Pend × Ray)
  best : Option Hit
  visits : Nat
  deriving DecidableEq, Repr

/-- A continuation record (R253, R254). -/
structure ContRec where
  uid : Nat
  asid : Nat
  frame : Nat
  core : Nat
  /-- first cell of the record in the core's part of the area, and its length -/
  cell : Nat
  len : Nat
  origin : Nat
  dreg : Nat
  pred : BitVec 8
  mode : BitVec 16
  fmt : BitVec 16
  cpc : Addr
  live : Addr
  /-- live v registers by physical index -/
  regs : List (Nat × Word)
  req : UnitReq
  /-- result words, once written, and the cycle at which the record became ready -/
  result : Option (List Word × Nat)
  /-- the unit waits on a fault record (R268) -/
  fault : Option (Option (Nat × Nat))
  point : Option MarchPoint
  /-- where a trace that waits stands (R268) -/
  trace : Option TracePoint
  /-- the release of the bead that ended (R256) -/
  rel : Stamp
  deriving DecidableEq, Repr

/-- A board's rasteriser, of which a board has one (R8): the draw queue and the draw-state object that Penram assigned to it
(R238, R285), the entry that it has popped and works on, and the pixel rods formed for it (R247). -/
structure Raster where
  board : Nat
  asid : Nat
  queue : Cap
  qoff : Nat
  draw : Cap
  entry : Option (BitVec 384)
  formed : Nat
  fault : Option (Option (Nat × Nat))
  /-- what comes before the reads for the entry: the releases of its push (R285) -/
  seen : Seen
  deriving DecidableEq, Repr

/-! ### Translation and faults (R135 to R154) -/

/-- A cached translation (R138, R140): the core whose first-level TLB holds it, or none in the home slice of the
second-level TLB; ASID, page number in units of its size, log2 of the page size, physical page base, writes permitted,
dirty bit already set. -/
structure TlbEntry where
  core : Option Nat
  asid : Nat
  vpn : Nat
  bits : Nat
  phys : Nat
  /-- MT of the leaf (R138, R313) -/
  mt : Nat
  wr : Bool
  dirty : Bool
  deriving DecidableEq, Repr

/-- A cached object-table entry (R136). -/
structure ObjEntry where
  core : Nat
  asid : Nat
  handle : Nat
  len : Nat
  base : Nat
  deriving DecidableEq, Repr

/-- Who waits for a walk or a fault record (R141, R153, R192, R268). -/
inductive Walker where
  | rod (uid : Nat)
  | window (frame win : Nat)
  | engine (e : Nat)
  | unit_ (record : Nat)
  | raster (board : Nat)
  deriving DecidableEq, Repr

/-- What an engine request waits for: the walk of a page (R141), an export page of another device (R311), or a CXL port
that does not answer (R313). -/
inductive EngineWait where
  | walk (kind agent : Nat)
  | page (page : Nat)
  | port (port limit : Nat)
  deriving DecidableEq, Repr

/-- An engine request that waits (R141, R311, R313): who waits, its context, core, frame and address, what for, and the
cycle at which it began. -/
structure FabricWait where
  who : Walker
  asid : Nat
  core : Nat
  frameid : BitVec 32
  va : Nat
  for_ : EngineWait
  began : Nat
  deriving DecidableEq, Repr

/-- A walk request at the home slice of a 64 KiB query: ASID, page, and whether a query that it serves is for a write
(R141). -/
structure Walk where
  asid : Nat
  page : Nat
  write : Bool
  deriving DecidableEq, Repr

/-- An entry of a table's walk cache (R141): the table, the ASID whose walk read it, the address of a level-1 or level-2
entry that names a next table, and the entry. -/
structure WalkEntry where
  table : Nat
  asid : Nat
  va : Nat
  bits : Nat
  addr : Nat
  entry : Nat
  deriving DecidableEq, Repr

/-- A page fault that waits to be written to a fault queue, or an unresolved record (R153, R154). -/
structure FaultRec where
  die : Nat
  recid : Nat
  asid : Nat
  va : Nat
  kind : Nat
  agent : Nat
  core : Nat
  pc : Addr
  merged : Nat
  /-- who waits for the resolution -/
  who : List Walker
  deriving DecidableEq, Repr

/-- An imprecise fault on its way back from the memory port (R121, R136). -/
structure PortFault where
  rod : Nat
  bead : Nat
  pc : Addr
  cause : Nat
  info : BitVec 48
  deriving DecidableEq, Repr

/-- A committed line on its way to its home (R149, R160): the rod with its place and identity (R295), the commit it
belongs to and the address of its commit point (R313), its bytes and where they came from, the releases before them
(R163), and the cycle at which it left. -/
structure Inflight where
  rod : Nat
  asid : Nat
  frame : Nat
  core : Nat
  frameid : BitVec 32
  rodid : BitVec 10
  commit : Nat
  pc : Addr
  bytes : List (Nat × Byte)
  tags : List LineTag
  rel : List Stamp
  began : Nat
  deriving DecidableEq, Repr

/-- A line of a core's instruction cache: core, ASID, virtual line number and its 32 words (R10, R77). -/
structure ICacheLine where
  core : Nat
  asid : Nat
  line : Nat
  words : List Word
  deriving DecidableEq, Repr

/-! ### Consistency across dies (R165, R174) -/

/-- A message from one die to another (R165): a stamp, and the line updated with one more than the number of the write
that the update carries. -/
structure DieMsg where
  src : Nat
  dst : Nat
  stamp : List Nat
  line : Option (Nat × Nat)
  deriving DecidableEq, Repr

/-- A die copy (R165): the die that holds it, the line, and what its data is: the line with every write numbered below
`upTo`. -/
structure DieCopy where
  die : Nat
  line : Nat
  upTo : Nat
  deriving DecidableEq, Repr

/-- A core of the Reckoner cluster (R8, R158): its number 0 to 31, the lines that its cache holds, the reservation of
its LR (address and bytes), what it has seen of memory. -/
structure Reckoner where
  core : Nat
  lines : List Nat
  resv : Option (Nat × Nat)
  view : View
  deriving DecidableEq, Repr

/-- A Reckoner's request for exclusive ownership of a line (R158, R174): the Reckoner and the bytes it stores. -/
structure Upgrade where
  core : Nat
  bytes : List (Nat × Byte)
  deriving DecidableEq, Repr

/-! ### Contexts, halts and pre-emption (R286 to R305) -/

/-- The fatal fault that raised a halt line (R293, R295). -/
structure Halt where
  clk : Dword
  cls : Nat
  cause : Nat
  pc : Addr
  frameid : BitVec 32
  rodid : BitVec 10
  core : Nat
  bead : Nat
  info : BitVec 48
  origin : BitVec 19
  /-- raised by an engine request, not a rod (R296) -/
  engine : Bool
  more : Nat
  nstop : Nat
  /-- the halt record is written -/
  complete : Bool
  deriving DecidableEq, Repr

/-- What the device keeps of a context beside its descriptor: the halt, the group record, the least token step, the
stop records written (R293 to R298). -/
structure Ctx where
  asid : Nat
  halt : Option Halt
  group : Option (BitVec 256)
  tokenStep : Option Dword
  nstops : Nat
  deriving DecidableEq, Repr

/-- A saved rod: the state of R58 as written to a save block, with the stack entries in their saved form (R59), the
liveness descriptor that it was saved by, none where it was saved whole (R300), and the class with which it was parked. -/
structure SavedRod where
  rod : Rod
  stack : List (BitVec 320)
  desc : Option Nat
  cls : Nat
  deriving DecidableEq, Repr

/-- A saved slot: its 64-byte record and, for a fixed chain, its guard bits (R236), with what the port keeps of it. -/
structure SavedSlot where
  core : Nat
  index : Nat
  record : BitVec 512
  slot : Slot
  deriving DecidableEq, Repr

/-- A save block (R301): a frame, its rods, its cells with their presence, its queued tasks, its unlaunched records,
its carry slots, the stop records of its windows, and the device virtual address of the block. -/
structure SaveBlock where
  addr : Nat
  /-- windows whose copies the save stopped, with their stop records (R195) -/
  stops : List (Nat × BitVec 256)
  frame : Frame
  rods : List SavedRod
  cells : List (Nat × Cell)
  tasks : List Task
  conts : List ContRec
  slots : List SavedSlot
  deriving DecidableEq, Repr

/-- A save or restore that has been taken from its ring and is not done (R299): its record, context and core, whether a
save has begun, and whether its rods have all reached save points and its engines are settling (R300, R301). -/
structure Saving where
  record : BitVec 256
  asid : Nat
  core : Option Nat
  begun : Bool
  settling : Bool
  deriving DecidableEq, Repr

/-! ### Dispatch (R278 to R281) -/

/-- What a dispatch core is doing (R278): looping; a claim on its way; frames to bind on chosen cores; a bind to count;
a claim to release. -/
inductive DispPhase where
  | loop
  | claim (asid q : Nat) (h : Dword) (rec : BitVec 2048)
  | bind (asid q : Nat) (h : Dword) (rec : BitVec 2048) (first next : Nat) (retried : Bool)
  | count (asid q : Nat) (h : Dword) (rec : BitVec 2048) (first next : Nat)
  | release (asid q : Nat) (h : Dword) (rec : BitVec 2048) (first next : Nat)
  | pass (asid q : Nat) (h : Dword)
  deriving DecidableEq, Repr

/-- Frames that a release returned as held (R279). -/
structure HeldClaim where
  asid : Nat
  q : Nat
  h : Dword
  record : BitVec 2048
  first : Nat
  next : Nat
  /-- the board of a GANG group of which frames are bound (R280) -/
  board : Option Nat
  deriving DecidableEq, Repr

/-- A dispatch core (R278, R281): credits by ASID, the context and queues last served, the cycle at which each head
became the head, held claims, heads blocked on this table and the reserved board. -/
structure Dispatch where
  table : Nat
  phase : DispPhase
  credit : List (Nat × Int)
  lastAsid : Option Nat
  lastQueue : List (Nat × Nat)
  ages : List ((Nat × Nat) × (Nat × Nat))
  held : List HeldClaim
  blocked : List (Nat × Nat)
  reserved : Option (Nat × Nat × Nat)
  /-- the board of the claim's group, once a frame of it is bound (R280) -/
  board : Option Nat
  /-- head records that it has accepted: ASID, queue and HEAD (R272) -/
  accepted : List (Nat × Nat × Nat)
  /-- queues whose header, and contexts whose descriptor, were last found malformed -/
  badHeads : List (Nat × Nat)
  badCtx : List Nat
  /-- the claim in hand was held, and its credit was charged when its release was refused (R278) -/
  charged : Bool
  deriving DecidableEq, Repr

/-- A launch record on its way to another device of the house, with the name of the LAUNCH that posted it (R283). -/
structure Delivery where
  launch : Nat
  dev : Nat
  asid : Nat
  queue : Nat
  record : BitVec 2048
  deriving DecidableEq, Repr

/-! ### House and host (R306 to R314) -/

/-- The state of an export page in the switch directory (R311). -/
inductive DirState where
  | shared (eps : List Nat)
  | owned (ep : Nat)
  deriving DecidableEq, Repr

/-- A directory entry: the export page and its state, oldest grant first in the list (R311). -/
structure DirEntry where
  page : Nat
  st : DirState
  deriving DecidableEq, Repr

/-- A request to the directory: endpoint, page, and whether to own it (R311). -/
structure DirReq where
  ep : Nat
  page : Nat
  own : Bool
  deriving DecidableEq, Repr

/-- An abort token (R298). -/
structure Token where
  group : Nat
  step : Dword
  dev : BitVec 19
  peerDev : Nat
  peerAsid : Nat
  deriving DecidableEq, Repr

/-! ### Management (R315 to R326) -/

/-- What runs on the device (R315, R316, R326). -/
inductive BootPhase where
  /-- power is on and the boot steps have not run -/
  | powerOn
  /-- only the management core runs -/
  | recovery
  | running
  /-- held in reset until a power cycle (R326, policies 01 and 10) -/
  | heldInReset
  /-- power is removed from the compute dies (R326, code 4) -/
  | unpowered
  deriving DecidableEq, Repr

/-- A slot of management flash (R317, R320): KIND, slot B, the bytes, and the valid mark. -/
structure FlashSlot where
  kind : Nat
  slotB : Bool
  image : List Byte
  valid : Bool
  deriving DecidableEq, Repr

/-- The accepted configuration record (R319). -/
structure CfgRec where
  seqno : Nat
  minver : Nat
  devid : BitVec 19
  powercap : Nat
  gb : Nat
  alarmpol : Nat
  persist : BitVec 16
  deriving DecidableEq, Repr

/-- The defaults of R319. -/
def CfgRec.default : CfgRec := ⟨0, 0, 0, 3200, 6, 1, 0⟩

/-- An event log entry (R324). -/
structure LogEntry where
  time : Dword
  code : Nat
  die : Nat
  asid : Nat
  data : BitVec 128
  deriving DecidableEq, Repr

/-- An update that the management core verifies (R320): its kind, the inactive slot that it is to go to, and its bytes. -/
structure Update where
  kind : Nat
  slotB : Bool
  image : List Byte
  deriving DecidableEq, Repr

/-- How the management core answers an update (R320). -/
inductive UpdReply where
  | accepted | rejected | busy
  deriving DecidableEq, Repr

/-- An answer of the SPDM responder (R318): a measurement with or without a signature, or the error Unspecified. -/
inductive SpdmReply where
  | signed (measurement signature : List Byte)
  | plain (measurement : List Byte)
  | unspecified
  deriving DecidableEq, Repr

/-- A sample of the sensors (R321): the dies' readings, stack temperatures, package input voltage in mV and current in mA. -/
structure Sample where
  die : List DieReading
  stack : List Nat
  millivolts : Nat
  milliamps : Nat
  deriving DecidableEq, Repr

/-! ### The machine -/

/-- The device. -/
structure State where
  /-- the device cycle counter (R13) -/
  clk : Dword
  boot : BootPhase
  /-- global memory by physical address (R131, R139); an unlisted byte reads 0 (assumption 4) -/
  mem : List Host.Cell
  /-- lines written at their homes and not yet written back (R173) -/
  dirty : List Nat
  /-- lines whose stored data is uncorrectable (R286) -/
  badLines : List Nat
  /-- lines of the CXL tier that were written and are not yet persistent at their expander (R313) -/
  volatile : List Nat
  /-- the writes performed in the last 131,072 cycles, oldest first (R162) -/
  writes : List WriteRec
  /-- the releases of the sequentially consistent operations so far, one for each agent and scope (R166) -/
  scPoints : List Stamp
  /-- committed lines not yet performed (R160) -/
  inflight : List Inflight
  rods : List Rod
  frames : List Frame
  launches : List Launch
  /-- the window-table entry that the copy unit of a core served last (R180) -/
  windowTurn : List (Nat × Nat)
  /-- cells of S, W, A and C by core, buffer and cell number (R122, R125) -/
  cells : List (Nat × Cell)
  /-- the slot that issued last on each lane; 7 where none is listed (R24) -/
  lastSlot : List (Nat × Nat)
  icache : List ICacheLine
  tlb : List TlbEntry
  objCache : List ObjEntry
  walks : List Walk
  walkCache : List WalkEntry
  /-- CXL ports that do not answer (R313) -/
  portsDown : List Nat
  /-- faults to be written to a fault queue, oldest first -/
  faultWait : List FaultRec
  /-- unresolved records -/
  faultRecs : List FaultRec
  /-- the next RECID of each die's queue -/
  recids : List Nat
  portFaults : List PortFault
  tasks : List Task
  /-- engine power states by core × 2 + engine -/
  engines : List (Nat × EngineMode)
  bursts : List Burst
  governors : List (Nat × Governor)
  slots : List (Nat × Slot)
  chains : List Chain
  resvs : List Resv
  credits : List Credit
  transfers : List Transfer
  /-- wakes on their way: core, destination core and slot (R233) -/
  slotWakes : List (Nat × Nat × Nat)
  copyEngines : List CopyEngine
  conts : List ContRec
  rasters : List Raster
  /-- vector clocks of the four dies (R165) -/
  clocks : List (List Nat)
  /-- cycles of the last message from one die to another are not kept; a token is due while this says so -/
  stampDue : List (Nat × Nat)
  /-- the cycle since which a token that is due is due (R165) -/
  stampSince : List ((Nat × Nat) × Nat)
  dieMsgs : List DieMsg
  /-- die copies (R165) -/
  dieCopies : List DieCopy
  /-- Reckoner cores that hold something; the others are as at reset (R158) -/
  reckoners : List Reckoner
  upgrades : List Upgrade
  ctxs : List Ctx
  saving : List Saving
  saved : List SaveBlock
  dispatch : List Dispatch
  deliveries : List Delivery
  /-- replies to UPCALLs of rods that are saved, with what their resumption acquires (R429) -/
  heldReplies : List (BitVec 4096 × List Stamp)
  /-- records that a LAUNCH on this device posted: ASID, queue and record number (R273, R283) -/
  launched : List (Nat × Nat × Nat)
  directory : List DirEntry
  dirReqs : List DirReq
  fabricWaits : List FabricWait
  tokensOut : List Token
  /-- physical address of the context table (R269) -/
  ctxTable : Nat
  /-- physical address of the system block (R306) -/
  sysBlock : Option Nat
  flash : List FlashSlot
  /-- the images, and the configuration record, that the device booted with (R316) -/
  booted : List FlashSlot
  /-- Reckoner 0 is released (R316) -/
  reckoner0 : Bool
  config : CfgRec
  /-- the update in progress (R320) -/
  updating : Option Update
  updOut : List UpdReply
  log : List LogEntry
  lost : Nat
  /-- the last 256 BOOT, CFG, UPD and ALARM events (R324) -/
  flashLog : List LogEntry
  keysErased : Bool
  sample : Option Sample
  /-- the sample of the millisecond before (R323) -/
  prior : Option Sample
  /-- package power of the last 100 samples, in microwatts (R321) -/
  power : List Nat
  spdmOut : List SpdmReply
  /-- what the device becomes once the halts of an alarm are recorded (R326) -/
  alarmHold : Option BootPhase
  /-- what the world outside the device does next, in order -/
  inputs : List Input
  /-- the rod that is issuing -/
  cur : Option Nat
  /-- MODEL'S OWN: how often each move that is possible has been passed over (R33, assumption 49) -/
  passed : List (Move × Nat)
  /-- MODEL'S OWN: the next name, ticket and free-value index -/
  fresh : Nat
  deriving DecidableEq, Repr

/-- Why a step cannot be taken. -/
inductive Fault where
  /-- raised by an instruction's meaning when no rod is issuing, which no step of the machine brings about.
  Safe: nothing is claimed of such a state. -/
  | noIssuingRod
  deriving DecidableEq, Repr

/-- Why an instruction has no meaning here. -/
inductive Refusal where
  /-- raised by an arm of `exec` for an instruction that is not modelled. Safe: nothing is claimed of it. -/
  | notModelled (mnemonic : String)
  deriving DecidableEq, Repr

/-- The machine right after power-on: every unit is empty, memory lists nothing, CLK is 0 and has not started, and
only the management core is to run (R13, R315). -/
def State.reset : State where
  clk := 0
  boot := .powerOn
  mem := []
  dirty := []
  badLines := []
  volatile := []
  writes := []
  scPoints := []
  inflight := []
  rods := []
  frames := []
  launches := []
  windowTurn := []
  cells := []
  lastSlot := []
  icache := []
  tlb := []
  objCache := []
  walks := []
  walkCache := []
  portsDown := []
  faultWait := []
  faultRecs := []
  recids := [0, 0, 0, 0]
  portFaults := []
  tasks := []
  engines := []
  bursts := []
  governors := []
  slots := []
  chains := []
  resvs := []
  credits := []
  transfers := []
  slotWakes := []
  copyEngines := []
  conts := []
  rasters := []
  clocks := [[0, 0, 0, 0], [0, 0, 0, 0], [0, 0, 0, 0], [0, 0, 0, 0]]
  stampDue := []
  stampSince := []
  dieMsgs := []
  dieCopies := []
  reckoners := []
  upgrades := []
  ctxs := []
  saving := []
  saved := []
  dispatch := []
  deliveries := []
  heldReplies := []
  launched := []
  directory := []
  dirReqs := []
  fabricWaits := []
  tokensOut := []
  ctxTable := 0
  sysBlock := none
  flash := []
  booted := []
  reckoner0 := false
  config := CfgRec.default
  updating := none
  updOut := []
  log := []
  lost := 0
  flashLog := []
  keysErased := false
  sample := none
  prior := none
  power := []
  spdmOut := []
  alarmHold := none
  inputs := []
  cur := none
  passed := []
  fresh := 0

end Sys2Proof.Machine
end

