-- ==== Sys2Proof/Machine/Sparse.lean ====
section
/-!
DEFINITION. Tables that are mostly empty, and byte lists. A sparse table is a list of keys and values in one
canonical form: keys strictly rising, and no value equal to the one that an unlisted key has.
-/

namespace Sys2Proof.Machine

/-- The value at a key; `d` is what an unlisted key has. -/
def Sparse.get {α : Type} (d : α) : List (Nat × α) → Nat → α
  | [], _ => d
  | (b, v) :: m, a => if b = a then v else Sparse.get d m a

/-- The value at a key becomes `v`; the canonical form is kept. -/
def Sparse.set {α : Type} [DecidableEq α] (d : α) : List (Nat × α) → Nat → α → List (Nat × α)
  | [], a, v => if v = d then [] else [(a, v)]
  | (b, w) :: m, a, v =>
    if a < b then (if v = d then (b, w) :: m else (a, v) :: (b, w) :: m)
    else if b = a then (if v = d then m else (a, v) :: m)
    else (b, w) :: Sparse.set d m a v

/-- Every key of the table is at least `lo`, the keys rise strictly and no value is `d`. -/
def Sparse.wfFrom {α : Type} [DecidableEq α] (d : α) : Nat → List (Nat × α) → Bool
  | _, [] => true
  | lo, (a, v) :: m => decide (lo ≤ a) && decide (v ≠ d) && Sparse.wfFrom d (a + 1) m

/-- The canonical form. -/
def Sparse.wf {α : Type} [DecidableEq α] (d : α) (m : List (Nat × α)) : Bool := Sparse.wfFrom d 0 m

/-- The value at a key of a table that lists only some keys. -/
def Sparse.find {α : Type} : List (Nat × α) → Nat → Option α
  | [], _ => none
  | (b, v) :: m, a => if b = a then some v else Sparse.find m a

/-- An entry is put into a table that lists only some keys, in place of one with the same key. -/
def Sparse.put {α : Type} : List (Nat × α) → Nat → α → List (Nat × α)
  | [], a, v => [(a, v)]
  | (b, w) :: m, a, v =>
    if a < b then (a, v) :: (b, w) :: m
    else if b = a then (a, v) :: m
    else (b, w) :: Sparse.put m a v

/-- Memory holds bytes; an unlisted byte reads 0 (assumption 4). -/
abbrev Memory := List Host.Cell

/-- A byte of memory. -/
def Memory.read (m : Memory) (a : Nat) : Byte := Sparse.get 0 m a

/-- A byte of memory becomes `v`. -/
def Memory.write (m : Memory) (a : Nat) (v : Byte) : Memory := Sparse.set 0 m a v

/-- The canonical form of memory. -/
def Memory.wf (m : Memory) : Bool := Sparse.wf 0 m

/-- The bytes of a list of addresses and values are written, the first first. -/
def Memory.writeAll : Memory → List (Nat × Byte) → Memory
  | m, [] => m
  | m, (a, v) :: rest => Memory.writeAll (m.write a v) rest

/-- Bytes, the lowest address first, as a little-endian number (R3). -/
def natOfBytes : List Byte → Nat
  | [] => 0
  | b :: bs => b.toNat + 256 * natOfBytes bs

/-- The `n` low bytes of a number, the lowest first (R3). -/
def bytesOfNat : Nat → Nat → List Byte
  | 0, _ => []
  | n + 1, x => BitVec.ofNat 8 x :: bytesOfNat n (x / 256)

/-- Bytes placed at consecutive addresses. -/
def placed : Nat → List Byte → List (Nat × Byte)
  | _, [] => []
  | a, b :: bs => (a, b) :: placed (a + 1) bs

/-- The first `n` elements of a list, filled up with `d`. -/
def takeFill {α : Type} (d : α) : Nat → List α → List α
  | 0, _ => []
  | n + 1, [] => d :: takeFill d n []
  | n + 1, x :: xs => x :: takeFill d n xs

/-- Element `n` of a list, `d` beyond its end. -/
def nth {α : Type} (d : α) : List α → Nat → α
  | [], _ => d
  | x :: _, 0 => x
  | _ :: xs, n + 1 => nth d xs n

/-- Element `n` of a list is replaced; beyond the end nothing changes. -/
def setNth {α : Type} : List α → Nat → α → List α
  | [], _, _ => []
  | _ :: xs, 0, y => y :: xs
  | x :: xs, n + 1, y => x :: setNth xs n y

/-- The numbers `0` to `n - 1` for which `p` holds. -/
def upto (n : Nat) (p : Nat → Bool) : List Nat := (List.range n).filter p

/-- A mask with the bits of the list set. -/
def maskOf : List Nat → BitVec 16
  | [] => 0
  | k :: ks => maskOf ks ||| BitVec.ofNat 16 (2 ^ k)

/-- The set bits of a 16-bit mask, ascending. -/
def bitsOf (m : BitVec 16) : List Nat := upto 16 fun k => m.getLsbD k

/-- The lowest set bit, or `d`. -/
def lowestBit (m : BitVec 16) (d : Nat) : Nat := (bitsOf m).headD d

/-- Concatenation of fields into a number: each field is a width and a value, the lowest first. -/
def packFields : List (Nat × Nat) → Nat
  | [] => 0
  | (n, x) :: rest => x % 2 ^ n + 2 ^ n * packFields rest

/-- A number with bits `[lo + n - 1 : lo]` replaced. -/
def setField (x lo n v : Nat) : Nat := x % 2 ^ lo + 2 ^ lo * (v % 2 ^ n) + 2 ^ (lo + n) * (x / 2 ^ (lo + n))

/-- An element is put into a list that rises by `key`, after its equals. -/
def insertBy {α : Type} (key : α → Nat) (x : α) : List α → List α
  | [] => [x]
  | y :: ys => if key x < key y then x :: y :: ys else y :: insertBy key x ys

/-- A list in the order of `key`; equals keep their order. -/
def sortBy {α : Type} (key : α → Nat) (xs : List α) : List α := xs.foldl (fun ys x => insertBy key x ys) []

/-- The smallest multiple of `n` not below `x`. -/
def roundUp (n x : Nat) : Nat := (x + n - 1) / n * n

end Sys2Proof.Machine
end

