-- ==== Sys2Proof/Machine/Base.lean ====
section
/-!
DEFINITION. What every meaning is written over: how an instruction ends early, rods, frames and the places of units,
time, and the event log.
-/

namespace Sys2Proof.Machine

/-! ### How an instruction ends early -/

/-- Why an instruction does not complete.  A bead of `none` means a uniform instruction (R34). -/
inductive Stop where
  /-- a fault: class, cause, bead, INFO and CODE (R286, R288) -/
  | trap (cls cause : Nat) (bead : Option Nat) (info code : Nat)
  /-- page not resident: address and KIND (R152, R153) -/
  | page (bead : Option Nat) (va kind : Nat)
  /-- the memory port rejects the access: cause, and the device virtual address if one was formed (R121, R136) -/
  | port (bead : Option Nat) (cause va : Nat)
  /-- the rod sleeps with this resume position; it gives way to a sibling group when R32 applies to the sleep -/
  | sleep (bead : Nat) (why : Sleep) (giveWay : Bool)
  /-- the instruction has settled its rod's next position itself -/
  | settled
  deriving DecidableEq, Repr

/-- An instruction's effect on the device: it completes or ends early, and either way leaves a state. -/
abbrev M (α : Type) := ExceptT Stop (StateM State) α

/-- An instruction's effect on its own rod. -/
abbrev RM (α : Type) := ExceptT Stop (StateM Rod) α

/-- Nothing when the condition holds, else an early end. -/
def M.need (c : Bool) (e : Stop) : M Unit := if c then pure () else throw e

/-- Nothing when the condition holds, else an early end. -/
def RM.need (c : Bool) (e : Stop) : RM Unit := if c then pure () else throw e

/-! ### Rods, frames and contexts -/

/-- The rod of this name. -/
def State.rod? (s : State) (u : Nat) : Option Rod := s.rods.find? fun r => decide (r.uid = u)

/-- The rod that is issuing. -/
def State.curRod? (s : State) : Option Rod :=
  match s.cur with
  | none => none
  | some u => s.rod? u

/-- The rod of this name is changed. -/
def State.modRod (s : State) (u : Nat) (f : Rod → Rod) : State :=
  { s with rods := s.rods.map fun r => if r.uid = u then f r else r }

/-- A rod is put back in place of the one with its name. -/
def State.setRod (s : State) (r : Rod) : State := s.modRod r.uid fun _ => r

/-- The rod of this name is taken out of its slot. -/
def State.dropRod (s : State) (u : Nat) : State :=
  { s with rods := s.rods.filter fun r => decide (r.uid ≠ u) }

/-- The frame of this name. -/
def State.frame? (s : State) (u : Nat) : Option Frame := s.frames.find? fun f => decide (f.uid = u)

/-- The frame of this name is changed. -/
def State.modFrame (s : State) (u : Nat) (g : Frame → Frame) : State :=
  { s with frames := s.frames.map fun f => if f.uid = u then g f else f }

/-- A name, ticket or free-value index that no other thing has. -/
def State.take (s : State) : Nat × State := (s.fresh, { s with fresh := s.fresh + 1 })

/-- Lane times 8 plus slot (R277). -/
def Rod.slotIndex (r : Rod) : Nat := r.lane * 8 + r.slot

/-- The board of a core (R9). -/
def boardOf (core : Nat) : Nat := core / 4

/-- The table of a core (R9). -/
def tableOf (core : Nat) : Nat := core / 16

/-- The die of a core (R9). -/
def dieOfCore (core : Nat) : Nat := core / 64

/-- The quad of a lane (R9). -/
def quadOf (lane : Nat) : Nat := lane / 32

/-- The die of a Reckoner core (R9). -/
def dieOfReckoner (k : Nat) : Nat := k / 8

/-- The die of a package copy engine (R9). -/
def dieOfEngine (e : Nat) : Nat := e / 6

/-- The die of a fabric port (R9). -/
def dieOfFabricPort (f : Nat) : Nat := f / 16

/-- The die of a CXL port (R9). -/
def dieOfCxlPort (x : Nat) : Nat := x / 4

/-- A free choice among `n` things, and the index it used (assumption 1); with at most one thing nothing is used. -/
def State.choose (s : State) (n : Nat) : Nat × State :=
  if n ≤ 1 then (0, s) else (Config.freeChoice s.fresh % n, { s with fresh := s.fresh + 1 })

/-- The issuing rod; an instruction of the device never runs without one. -/
def M.rod : M Rod := do
  let s ← get
  match s.curRod? with
  | some r => pure r
  | none => throw .settled

/-- The issuing rod's frame. -/
def M.frame : M Frame := do
  let r ← M.rod
  let s ← get
  match s.frame? r.frame with
  | some f => pure f
  | none => throw .settled

/-- An effect on the issuing rod alone. -/
def onRod {α : Type} (m : RM α) : M α := fun s =>
  match s.curRod? with
  | none => (.error .settled, s)
  | some r =>
    let (x, r') := m r
    (x, s.setRod r')

/-- A change of state that gives a value. -/
def M.run {α : Type} (f : State → α × State) : M α := fun s =>
  let (x, s') := f s
  (.ok x, s')

/-- A change of the state. -/
def M.upd (f : State → State) : M Unit := fun s => (.ok (), f s)

/-- The beads that are still to issue the rod's instruction: the active ones from the resume position up (R16, R34). -/
def Rod.issuing (r : Rod) : List Nat := upto 16 fun k => r.active.getLsbD k && decide (r.resume ≤ k)

/-- A per-bead effect, in ascending BEADID order (R19); with U = 1 it happens once (R17). -/
def RM.each (u : Bool) (f : Option Nat → RM Unit) : RM Unit := do
  let r ← get
  if u then f none else r.issuing.forM fun k => f (some k)

/-- A per-bead effect on the device, in ascending BEADID order (R19); with U = 1 it happens once (R17). -/
def M.each (u : Bool) (f : Option Nat → M Unit) : M Unit := do
  let r ← M.rod
  if u then f none else r.issuing.forM fun k => f (some k)

/-- A bead number, 0 for a uniform instruction (R34). -/
def beadNo (b : Option Nat) : Nat := b.getD 0

/-! ### Time and the event log -/

/-- Cycles that pass for a bound rod: RODCYC counts, and TIMER counts down while EN = 1 (R55). -/
def Rod.tick (n : Nat) (r : Rod) : Rod :=
  { r with
    rodcyc := r.rodcyc + BitVec.ofNat 64 n
    timerCount := if r.timerEn then BitVec.ofNat 63 (r.timerCount.toNat - n) else r.timerCount }

/-- Cycles pass: CLK and every bound rod count (R13, R55). -/
def State.tick (n : Nat) (s : State) : State :=
  { s with clk := s.clk + BitVec.ofNat 64 n, rods := s.rods.map (Rod.tick n) }

/-- CLK as a number, for deadlines. -/
def State.now (s : State) : Nat := s.clk.toNat

/-- Event codes of the device (R325): SD_BAD_RECORD. -/
def Event.sdBadRecord : Nat := 0x0001
/-- FQ_BAD_RESOLVE. -/
def Event.fqBadResolve : Nat := 0x0002
/-- RAST_BAD_ENTRY. -/
def Event.rastBadEntry : Nat := 0x0003
/-- CTX_BAD_DESC. -/
def Event.ctxBadDesc : Nat := 0x0004
/-- LAUNCH_BAD_RECORD. -/
def Event.launchBadRecord : Nat := 0x0005
/-- FLT_BAD_DELIVER. -/
def Event.fltBadDeliver : Nat := 0x0006
/-- SAVE_BAD_AREA. -/
def Event.saveBadArea : Nat := 0x0007
/-- SYS_BAD_BLOCK. -/
def Event.sysBadBlock : Nat := 0x0008
/-- CE_NOT_ASSIGNED. -/
def Event.ceNotAssigned : Nat := 0x0009
/-- UPC_BAD_REPLY. -/
def Event.upcBadReply : Nat := 0x000A
/-- QUEUE_BAD_HEADER. -/
def Event.queueBadHeader : Nat := 0x000B
/-- BOOT_SLOT_B. -/
def Event.bootSlotB : Nat := 0x0100
/-- BOOT_FAIL. -/
def Event.bootFail : Nat := 0x0101
/-- CFG_BAD_RECORD. -/
def Event.cfgBadRecord : Nat := 0x0102
/-- UPD_REJECT. -/
def Event.updReject : Nat := 0x0103
/-- THERM_LIMIT. -/
def Event.thermLimit : Nat := 0x0200
/-- POWER_LIMIT. -/
def Event.powerLimit : Nat := 0x0201
/-- THERM_TRIP. -/
def Event.thermTrip : Nat := 0x0202
/-- ALARM. -/
def Event.alarm : Nat := 0x0300

/-- DIE of an event that concerns the package (R324). -/
def package : Nat := 0xFF

/-- An event log entry (R324): a ring of 4,096, with copies of BOOT, CFG, UPD and ALARM events in flash. Before the
release of the compute dies its time is a count of microseconds that the manual does not fix, with bit 63 set (R315,
assumption 44). -/
def State.logEvent (s : State) (code die asid : Nat) (data : Nat) : State :=
  let time := if s.reckoner0 then s.clk
    else (Config.earlyTime (s.log.length + s.lost)).setWidth 64 ||| BitVec.ofNat 64 (2 ^ 63)
  let e : LogEntry := ⟨time, code, die, asid, BitVec.ofNat 128 data⟩
  let full := decide (Config.logEntries ≤ s.log.length)
  let kept := decide (0x100 ≤ code ∧ code < 0x200) || decide (0x300 ≤ code)
  { s with
    log := (if full then s.log.drop 1 else s.log) ++ [e]
    lost := if full then s.lost + 1 else s.lost
    flashLog :=
      if kept then (if 256 ≤ s.flashLog.length then s.flashLog.drop 1 else s.flashLog) ++ [e] else s.flashLog }

end Sys2Proof.Machine
end

