-- ==== Sys2Proof/Machine/Memory.lean ====
section
/-!
DEFINITION. Global memory below an access: the homes of lines and their die copies, what each agent may still not see
of other agents' writes (R155 to R170), the context descriptors, the page tables with their caches and walks (R135 to
R142), and the house's export pages (R310 to R312).
-/

namespace Sys2Proof.Machine

/-! ### Lines and homes (R131) -/

/-- The line of an address (R131). -/
def lineOf (a : Nat) : Nat := a / 128

/-- The elements of a list, each once. -/
def distinct : List Nat → List Nat
  | [] => []
  | x :: xs => x :: (distinct xs).filter (fun y => decide (y ≠ x))

/-- The lines that a list of bytes lies in. -/
def linesOf (ws : List (Nat × Byte)) : List Nat := distinct (ws.map fun w => lineOf w.1)

/-- The slice, 0 to 63, that is the home of a line (R131): a slice of its table for stack memory, of its die for the
CXL tier; which one is a fixed hash (assumption 5). -/
def homeSliceOf (l : Nat) : Nat :=
  match field (l * 128) 50 2 with
  | 0 => field (l * 128) 36 4 * 4 + Config.homeSlice l % 4
  | 1 => dieOfCxlPort (field (l * 128) 44 4) * 16 + Config.homeSlice l % 16
  | _ => Config.homeSlice l % 64

/-- The die whose slices are the home of a physical address (R9, R131, R139). -/
def homeDieOf (a : Nat) : Nat :=
  match field a 50 2 with
  | 0 => field a 36 4 / 4
  | 1 => dieOfCxlPort (field a 44 4)
  | _ => 0

/-- `n` bytes of memory from an address, as the home has them. -/
def State.bytesAt (s : State) (a n : Nat) : List Byte :=
  (List.range n).map fun i => Memory.read s.mem (a + i)

/-- `n` bytes of memory as a little-endian number. -/
def State.natAt (s : State) (a n : Nat) : Nat := natOfBytes (s.bytesAt a n)

/-- A line that `n` bytes at an address touch stores uncorrectable data (R286, class 10 cause 1, assumption 50). -/
def State.damaged (s : State) (a n : Nat) : Bool := (List.range n).any fun i => s.badLines.contains (lineOf (a + i))

/-- The bytes of a list that lie in a line. -/
def inLine (l : Nat) (ws : List (Nat × Byte)) : List (Nat × Byte) := ws.filter fun w => decide (lineOf w.1 = l)

/-- What a write at the homes does to a rod that waits: a WAITV monitor of a written line is hit (R172), and a rod
that waits for HEAD of a queue becomes ready when HEAD is written (R284, R309). -/
def wakeOnWrite (ws : List (Nat × Byte)) (lines : List Nat) (r : Rod) : Rod :=
  match r.status with
  | .asleep (.waitv armed hit full) t c =>
    if armed.any (fun l => lines.contains l) then { r with status := .asleep (.waitv armed true full) t c }
    else { r with status := .asleep (.waitv armed hit full) t c }
  | .asleep (.queue h) _ _ =>
    if ws.any (fun w => decide (h + 8 ≤ w.1 ∧ w.1 < h + 16)) then { r with status := .ready } else r
  | _ => r

/-! ### Die copies, clocks and messages (R165) -/

/-- An update of a line reaches the copies of a die (R165). -/
def DieCopy.take (c : DieCopy) (m : DieMsg) : DieCopy :=
  match m.line with
  | some (l, n) => if c.die = m.dst ∧ c.line = l then { c with upTo := max c.upTo n } else c
  | none => c

/-- The larger of two clocks in every entry but that of die `d`, which keeps its own. -/
def clockJoin (d : Nat) (mine other : List Nat) : List Nat :=
  (List.range 4).map fun j => if j = d then nth 0 mine j else max (nth 0 mine j) (nth 0 other j)

/-- Messages to a die are applied, in the order of the list. -/
def State.applyMsgs (s : State) (dst : Nat) (ms : List DieMsg) : State :=
  { s with
    dieMsgs := s.dieMsgs.filter fun m => !ms.contains m
    dieCopies := ms.foldl (fun cs m => cs.map fun c => c.take m) s.dieCopies
    clocks := setNth s.clocks dst (ms.foldl (fun vc m => clockJoin dst vc m.stamp) (nth [] s.clocks dst)) }

/-- Before a die uses a reply of another die's home, it has applied that die's earlier messages, and the messages of
the others that the reply's stamp covers (R165). -/
def State.catchUp (s : State) (src dst : Nat) : State :=
  let stamp := nth [] s.clocks src
  let s1 := s.applyMsgs dst
    (s.dieMsgs.filter fun m => decide (m.dst = dst ∧ (m.src = src ∨ nth 0 m.stamp m.src ≤ nth 0 stamp m.src)))
  { s1 with clocks := setNth s1.clocks dst (clockJoin dst (nth [] s1.clocks dst) stamp) }

/-- The copy that a die holds of a line. -/
def State.copyOf (s : State) (die l : Nat) : Option DieCopy := s.dieCopies.find? fun c => decide (c.die = die ∧ c.line = l)

/-- A die reads a line of another die's home and keeps a copy of it (R165); a copy that it holds serves it. -/
def State.fillCopy (s : State) (die l : Nat) : State :=
  let src := homeDieOf (l * 128)
  if die = src ∨ (s.copyOf die l).isSome then s
  else
    let s1 := s.catchUp src die
    { s1 with dieCopies := s1.dieCopies ++ [⟨die, l, s.fresh⟩] }

/-- A die brings the copy that it holds of a line up to date with the home: so it installs a write of its own agents before
the commit completes (R165), and an access that is answered by the home leaves no older copy behind (R161). -/
def State.installOwn (s : State) (die l : Nat) : State :=
  let src := homeDieOf (l * 128)
  if die = src ∨ (s.copyOf die l).isNone then s
  else
    let s1 := s.catchUp src die
    { s1 with dieCopies := s1.dieCopies.map fun c => if c.die = die ∧ c.line = l then { c with upTo := max c.upTo s.fresh } else c }

/-- Stamp-only tokens come due to the dies other than `e` after a message of die `d` to `e` (R165), each since now unless it
was due before. -/
def State.dueTokens (s : State) (d e : Nat) : State :=
  let others := ((List.range 4).filter fun o => decide (o ≠ d ∧ o ≠ e)).map fun o => (d, o)
  { s with
    stampDue := (s.stampDue.filter fun p => decide (p.1 ≠ d)) ++ others
    stampSince := (s.stampSince.filter fun p => s.stampDue.contains p.1 || decide (p.1.1 ≠ d)) ++
      (others.filter fun p => !s.stampDue.contains p).map fun p => (p, s.now) }

/-- Die `d` sends each other die that holds a copy of a written line an update with its vector clock; the writer's own die
then holds the write before the commit completes (R165). -/
def State.sendUpdates (s : State) (writer : Option Nat) : List Nat → State
  | [] => s
  | l :: ls =>
    let d := homeDieOf (l * 128)
    let dsts := (s.dieCopies.filter fun c => decide (c.line = l ∧ c.die ≠ d)).map DieCopy.die
    let s' := dsts.foldl (fun (s : State) e =>
      let vc := nth [] s.clocks d
      let vc' := setNth vc d (nth 0 vc d + 1)
      State.dueTokens { s with
        clocks := setNth s.clocks d vc'
        dieMsgs := s.dieMsgs ++ [⟨d, e, vc', some (l, s.fresh)⟩] } d e) s
    State.sendUpdates (match writer with
      | some w => s'.installOwn w l
      | none => s') writer ls

/-- Lines written at their homes and not written back are dirty (R173); a slice that is full of them writes its oldest
one back (R8). -/
def addDirty (dirty : List Nat) (l : Nat) : List Nat :=
  if dirty.contains l then dirty
  else
    let full := decide (Config.sliceLines ≤ (dirty.filter fun x => decide (homeSliceOf x = homeSliceOf l)).length)
    (if full then dirty.eraseP fun x => decide (homeSliceOf x = homeSliceOf l) else dirty) ++ [l]

/-- The home invalidates the copies that a Reckoner holds of written lines, and a reservation in them ends (R158). -/
def Reckoner.lose (k : Reckoner) (lines : List Nat) : Reckoner :=
  { k with
    lines := k.lines.filter fun l => !lines.contains l
    resv := k.resv.filter fun x => !lines.contains (lineOf x.1) }

/-- Bytes are written at their homes (R160) by an agent of the die `writer`, if it has one: memory takes them, their
lines are dirty, and whoever waits for them is told. -/
def State.writeFrom (s : State) (writer : Option Nat) (ws : List (Nat × Byte)) : State :=
  let lines := linesOf ws
  State.sendUpdates
    { s with
      mem := Memory.writeAll s.mem ws
      dirty := lines.foldl addDirty s.dirty
      volatile := s.volatile ++ lines.filter fun l => decide (field (l * 128) 50 2 = 1) && !s.volatile.contains l
      rods := s.rods.map (wakeOnWrite ws lines)
      reckoners := s.reckoners.map fun k => k.lose lines } writer lines

/-- A write of a unit that belongs to no path (R155): every later access sees it. -/
def State.homeWrite (s : State) (ws : List (Nat × Byte)) : State := s.writeFrom none ws

/-- A number of `n` bytes is written at its home by a unit that belongs to no path. -/
def State.homeWriteNat (s : State) (a n x : Nat) : State := s.homeWrite (placed a (bytesOfNat n x))

/-! ### What an agent has seen (R156, R161 to R170, assumption 48) -/

/-- The mark of a die. -/
def Marks.get (m : Marks) : Nat → Nat
  | 0 => m.d0
  | 1 => m.d1
  | 2 => m.d2
  | _ => m.d3

/-- The later mark of each die. -/
def Marks.join (a b : Marks) : Marks := ⟨max a.d0 b.d0, max a.d1 b.d1, max a.d2 b.d2, max a.d3 b.d3⟩

/-- The marks that stand for the writes of one die with numbers below `n`. -/
def Marks.at (d n : Nat) : Marks :=
  match d with
  | 0 => ⟨n, 0, 0, 0⟩
  | 1 => ⟨0, n, 0, 0⟩
  | 2 => ⟨0, 0, n, 0⟩
  | _ => ⟨0, 0, 0, n⟩

/-- Every write so far. -/
def State.allMarks (s : State) : Marks := ⟨s.fresh, s.fresh, s.fresh, s.fresh⟩

/-- Of two lists of XFENCEs all, each issuer, scope and pair of paths once, with the marks of both. -/
def joinCross (a b : List Cross) : List Cross :=
  b.foldl (fun o x =>
    let same (y : Cross) : Bool := decide (y.first = x.first ∧ y.second = x.second ∧ y.scope = x.scope ∧ y.agent = x.agent)
    (o.filter fun y => !same y) ++ [{ x with marks := (o.filter same).foldl (fun m y => m.join y.marks) x.marks }]) a

/-- What comes before, of two. -/
def Seen.join (a b : Seen) : Seen := ⟨a.hb.join b.hb, joinCross a.ord b.ord⟩

/-- The core of an agent that is a rod or an engine of one. -/
def Agent.core? : Agent → Option Nat
  | .core _ _ c | .engine c => some c
  | _ => none

/-- Two agents belong to cores that are alike in something. -/
def coresAlike (f : Nat → Nat) (a b : Agent) : Bool := a.core?.isSome && decide (a.core?.map f = b.core?.map f)

/-- The agent `b` belongs to the scope `scope` taken relative to the agent `a` (R156). -/
def scopeHas (scope : Nat) (a b : Agent) : Bool :=
  match scope with
  | 0 =>
    match a, b with
    | .core u _ _, .core u' _ _ => decide (u = u')
    | _, _ => false
  | 1 =>
    match a, b with
    | .core _ f _, .core _ f' _ => decide (f = f')
    | _, _ => false
  | 2 => coresAlike boardOf a b
  | 3 => coresAlike tableOf a b
  | n => decide (b ≠ .outside ∨ n = 6)

/-- A release and an acquire at scope `scope` synchronise: each one's scope contains the other party (R156). -/
def Stamp.meets (x : Stamp) (agent : Agent) (scope : Nat) : Bool :=
  scopeHas x.scope x.agent agent && scopeHas scope agent x.agent

/-- The rod as an agent (R156). -/
def Rod.agent (r : Rod) : Agent := .core r.uid r.frame r.core

/-- A release of the view's owner at a scope (R163). -/
def View.release (v : View) (agent : Agent) (scope : Nat) : Stamp := ⟨agent, scope, v.hb.join v.own, v.ord⟩

/-- The writes before a release happen before what follows (R163). -/
def View.join (v : View) (x : Stamp) : View := { v with hb := v.hb.join x.hb, ord := joinCross v.ord x.ord }

/-- What comes before the requests that an instruction of the view's owner makes (R170). -/
def View.seen (v : View) : Seen := ⟨v.hb.join v.own, v.ord⟩

/-- What comes before what follows a release. -/
def Stamp.seen (x : Stamp) : Seen := ⟨x.hb, x.ord⟩

/-- A release that is itself one of the writes numbered below `n` at the homes of a die: what comes after it comes after the
write too (R163). -/
def Stamp.through (x : Stamp) (d n : Nat) : Stamp := { x with hb := x.hb.join (Marks.at d n) }

/-- An acquire at a scope: the releases that it synchronises with, of a list (R163). -/
def View.acquire (v : View) (agent : Agent) (scope : Nat) (xs : List Stamp) : View :=
  (xs.filter fun x => x.meets agent scope).foldl View.join v

/-- A release that a FENCE puts before the stores that follow; it takes the place of an older one at its scope. -/
def View.fence (v : View) (agent : Agent) (scope : Nat) : View :=
  { v with rel := v.rel.filter (fun x => decide (x.scope ≠ scope)) ++ [v.release agent scope] }

/-- Releases that loads returned are kept for a FENCE that follows. -/
def View.keep (v : View) (xs : List Stamp) : View := { v with got := v.got ++ xs.filter fun x => !v.got.contains x }

/-- The die whose homes performed a write. -/
def WriteRec.die (w : WriteRec) : Nat := homeDieOf ((w.old.map Prod.fst).headD 0)

/-- The write has changed one of `n` bytes at an address. -/
def WriteRec.touches (w : WriteRec) (a n : Nat) : Bool := w.old.any fun x => decide (a ≤ x.1 ∧ x.1 < a + n)

/-- The marks that stand for the write. -/
def WriteRec.marks (w : WriteRec) : Marks := Marks.at w.die (w.seq + 1)

/-- The recent writes of `n` bytes at an address, oldest first. -/
def State.touching (s : State) (a n : Nat) : List WriteRec := s.writes.filter fun w => w.touches a n

/-- A write is old enough to be seen by everybody (R162, property 4). -/
def State.aged (s : State) (w : WriteRec) : Bool := decide (w.clk + Config.staleLimit ≤ s.now)

/-- The same rod, or the same unit. -/
def Agent.same : Agent → Agent → Bool
  | .core u _ _, .core u' _ _ => decide (u = u')
  | a, b => decide (a = b)

/-- An access of an agent on a path comes after the write, and R169 orders the two: both belong to the same path, or an
XFENCE that names their paths, with a scope that has both agents, lies between them. -/
def Seen.has (x : Seen) (agent : Agent) (path : Nat) (w : WriteRec) : Bool :=
  if w.path = path then decide (w.seq < x.hb.get w.die)
  else x.ord.any fun c =>
    decide (c.first = w.path ∧ c.second = path ∧ w.seq < c.marks.get w.die) && scopeHas c.scope c.agent agent &&
      scopeHas c.scope c.agent w.agent

/-- An access of the program path must see the write: its own agent's, one that comes before it, or an old one (R162,
R169). A rod stays the same agent on another core (R161, R162). -/
def State.mustSee (s : State) (agent : Agent) (v : View) (w : WriteRec) : Bool :=
  w.agent.same agent || s.aged w || Seen.has ⟨v.hb, v.ord⟩ agent 0 w

/-- The newest writes of a list that an access need not see: those after the last one it must see. -/
def optional (must : WriteRec → Bool) (ws : List WriteRec) : List WriteRec := (ws.reverse.takeWhile fun w => !must w).reverse

/-- A byte as it is without some writes, oldest first: what the first of them replaced. -/
def State.byteWithout (s : State) (hidden : List WriteRec) (a : Nat) : Byte :=
  match hidden.findSome? fun w => Sparse.find w.old a with
  | some v => v
  | none => Memory.read s.mem a

/-- An acquire at dev scope, by an agent, of what some writes released, and of the writes (R163). -/
def Seen.acquired (x : Seen) (agent : Agent) (ws : List WriteRec) : Seen :=
  let y := ((ws.flatMap WriteRec.stamps).filter fun z => z.meets agent 4).foldl (fun y z => y.join z.seen) x
  { y with hb := ws.foldl (fun m w => m.join w.marks) y.hb }

/-- Which of the writes that a weak access need not see it does not see: a free choice (R162). -/
def State.hide (s : State) (may : List WriteRec) : List WriteRec × State :=
  let (k, s1) := s.choose (may.length + 1)
  (may.drop (may.length - k), s1)

/-- Writes that a strong access on a die does not see: those that the die's copy of the line does not hold yet (R161,
R165). -/
def State.hiddenFrom (s : State) (die l : Nat) (may : List WriteRec) : List WriteRec :=
  if die = homeDieOf (l * 128) then []
  else
    match s.copyOf die l with
    | none => []
    | some c => may.filter fun w => decide (c.upTo ≤ w.seq)

/-- A rod of a view goes on at a core of a die: no copy that the die holds is older than a write that the rod has made or a
load of it has returned (R161). -/
def State.settleCopies (s : State) (die : Nat) (v : View) : State :=
  let mine := v.own.join v.read
  let behind := s.dieCopies.filter fun c =>
    decide (c.die = die) && s.writes.any fun w =>
      w.touches (c.line * 128) 128 && decide (c.upTo ≤ w.seq ∧ w.seq < mine.get w.die)
  behind.foldl (fun s c => s.installOwn die c.line) s

/-- The writes that gave the bytes `a` to `a + n - 1` of a list of writes, oldest first: for each byte the last one. -/
def returned (seen : List WriteRec) (a n : Nat) : List WriteRec :=
  ((List.range n).filterMap fun i => seen.reverse.find? fun w => w.touches (a + i) 1).eraseDups

/-- A write by an agent of a path (R155, R160): it is performed at its home, takes its place in the order of writes, and
carries the releases of its issuer (R163). -/
def State.pathWrite (s : State) (path : Nat) (agent : Agent) (stamps : List Stamp) (ws : List (Nat × Byte)) : State :=
  let (n, s1) := s.take
  let rec' : WriteRec := ⟨n, path, agent, s.now, ws.map fun w => (w.1, Memory.read s.mem w.1), stamps⟩
  { s1 with writes := s.writes.filter (fun w => !s.aged w) ++ [rec'] }.writeFrom (agent.core?.map dieOfCore) ws

/-- The releases that an atomic's write carries beside its own: those of every earlier write to its bytes, since what reads an
atomic that is later than a release in coherence order synchronises with the release (R163). -/
def chainStamps (earlier : List WriteRec) : List Stamp := (earlier.flatMap WriteRec.stamps).eraseDups

/-- Bytes that may lie in several lines are written by an agent of a path, line by line (R160); with the marks that stand
for the writes. -/
def State.pathWrites (s : State) (path : Nat) (agent : Agent) (stamps : List Stamp) (ws : List (Nat × Byte)) : Marks × State :=
  (linesOf ws).foldl (fun (acc : Marks × State) l =>
    (acc.1.join (Marks.at (homeDieOf (l * 128)) (acc.2.fresh + 1)), acc.2.pathWrite path agent stamps (inLine l ws)))
    (Marks.none, s)

/-- A write of at most 16 bytes: one of 16 bytes is two of 8 (R132). -/
def State.pathWriteNat (s : State) (path : Nat) (agent : Agent) (stamps : List Stamp) (a n x : Nat) : State :=
  if n = 16 then
    (s.pathWrite path agent stamps (placed a (bytesOfNat 8 x))).pathWrite path agent stamps
      (placed (a + 8) (bytesOfNat 8 (x / 2 ^ 64)))
  else s.pathWrite path agent stamps (placed a (bytesOfNat n x))

/-! ### The system block (R306) -/

/-- An entry of the system block: none when it is 0 or malformed, or there is no block. -/
def State.sysEntry (s : State) (off : Nat) : Option Nat :=
  match s.sysBlock with
  | none => none
  | some b =>
    let a := s.natAt (b + off) 8
    if a = 0 ∨ a % 128 ≠ 0 ∨ field a 40 24 ≠ 0 then none else some a

/-! ### Contexts -/

/-- Bits `[lo + n - 1 : lo]` of the context descriptor of an ASID (R269). -/
def State.ctxField (s : State) (asid lo n : Nat) : Nat :=
  field (s.natAt (s.ctxTable + 64 * asid + lo / 8) ((lo % 8 + n + 7) / 8)) (lo % 8) n

/-- The descriptor's V bit (R269). -/
def State.ctxValid (s : State) (asid : Nat) : Bool := decide (s.ctxField asid 63 1 = 1)

/-- HANDLER (R269, R288). -/
def State.ctxHandler (s : State) (asid : Nat) : Nat := s.ctxField asid 384 48

/-- SAVEBASE (R269). -/
def State.ctxSaveBase (s : State) (asid : Nat) : Nat := s.ctxField asid 320 48

/-- What the device keeps of a context beside its descriptor. -/
def State.ctx? (s : State) (asid : Nat) : Option Ctx := s.ctxs.find? fun c => decide (c.asid = asid)

/-- That record is changed; it is made if there is none. -/
def State.modCtx (s : State) (asid : Nat) (f : Ctx → Ctx) : State :=
  match s.ctx? asid with
  | none => { s with ctxs := s.ctxs ++ [f ⟨asid, none, none, none, 0⟩] }
  | some _ => { s with ctxs := s.ctxs.map fun c => if c.asid = asid then f c else c }

/-- The context's halt, if its halt line is raised (R293). -/
def State.halt? (s : State) (asid : Nat) : Option Halt :=
  match s.ctx? asid with
  | none => none
  | some c => c.halt

/-- The context's halt line is raised. -/
def State.halted (s : State) (asid : Nat) : Bool := (s.halt? asid).isSome

/-- A save of the context concerns the core (R299). -/
def Saving.concerns (v : Saving) (core asid : Nat) : Bool := decide (v.asid = asid) && (v.core.isNone || v.core == some core)

/-- A save of the context on the core has begun: no frame of it is bound there (R301). -/
def State.savingOn (s : State) (core asid : Nat) : Bool := s.saving.any fun v => v.begun && v.concerns core asid

/-- A save of the context on the core has its rods at save points, and its engines settle (R301). -/
def State.settlingOn (s : State) (core asid : Nat) : Bool := s.saving.any fun v => v.settling && v.concerns core asid

/-! ### Page tables and walks (R135 to R142) -/

/-- Why an address has no translation: the KIND of a page-not-resident fault (R153), a malformed entry (R138), or an entry
whose data is lost. -/
inductive XlFail where
  | absent (kind : Nat)
  | malformed
  /-- an entry of the tables stores uncorrectable data (R286, class 10 cause 1) -/
  | data
  deriving DecidableEq, Repr

/-- A physical address breaks the rules of its kind (R139, R310). -/
def physBad (a : Nat) : Bool :=
  match field a 50 2 with
  | 0 => decide (field a 40 10 ≠ 0)
  | 1 => decide (field a 48 2 ≠ 0)
  | 2 => !Config.endpoint (field a 38 12)
  | _ => true

/-- The three levels of the page tables: lowest VA bit of the index, its width, and log2 of the alignment of the next
table (R137). -/
def ptLevels : List (Nat × Nat × Nat) := [(30, 18, 12), (21, 9, 8), (16, 5, 0)]

/-- ADDR of a page-table entry (R138). -/
def pteAddr (e : Nat) : Nat := field e 8 44 * 256

/-- A valid entry at a level is malformed (R138); `last` at level 3. R138 tests the kind of a leaf's address only: a next-table
address that breaks R139 is read where it says (DESIGN CHOICE, assumption 51). -/
def pteBad (bits nextBits : Nat) (last : Bool) (e : Nat) : Bool :=
  decide (field e 52 12 ≠ 0) || decide (field e 7 1 ≠ 0) || decide (field e 5 2 = 3) ||
    (if field e 1 1 = 1 then decide (pteAddr e % 2 ^ bits ≠ 0) || physBad (pteAddr e)
     else last || decide (pteAddr e % 2 ^ nextBits ≠ 0))

/-- What a walk finds: the entries that name next tables, each with its level's lowest VA bit and address, and the
leaf's address, the leaf and log2 of its page size. -/
structure Leaf where
  path : List (Nat × Nat × Nat)
  addr : Nat
  entry : Nat
  bits : Nat
  deriving DecidableEq, Repr

/-- A walk (R137, R138); `look` gives an entry that the walk cache holds. -/
def State.walk (s : State) (look : Nat → Option Nat) (va : Nat) (absent : Nat) :
    List (Nat × Nat × Nat) → Nat → Except XlFail Leaf
  | [], _ => .error .malformed
  | (bits, width, nextBits) :: levels, table =>
    let a := table + 8 * field va bits width
    let e := (look a).getD (s.natAt a 8)
    if (look a).isNone && s.damaged a 8 then .error .data
    else if field e 0 1 = 0 then .error (.absent absent)
    else if pteBad bits nextBits levels.isEmpty e then .error .malformed
    else if field e 1 1 = 1 then .ok ⟨[], a, e, bits⟩
    else
      match State.walk s look va absent levels (pteAddr e) with
      | .error x => .error x
      | .ok f => .ok { f with path := (bits, a, e) :: f.path }

/-- KIND of R153 for a read, a write or a fetch that finds V = 0. -/
def absentKind (write fetch : Bool) : Nat := if fetch then 3 else if write then 1 else 0

/-- A leaf entry with A set, and D on a walk for a write (R138). -/
def markedLeaf (e : Nat) (write : Bool) : Nat :=
  e / 32 * 32 + (if write || decide (field e 4 1 = 1) then 16 else 0) + 8 + e % 8

/-- The table whose walkers serve a home slice of the second-level TLB (R141): the slices are spread evenly
(assumption 5). -/
def tableOfSlice (slice : Nat) : Nat := slice / (Config.tlbSlices / Config.tables)

/-- The home slice of a translation (R140). -/
def tlbSliceOf (asid bits vpn : Nat) : Nat := Config.tlbSlice asid bits vpn % Config.tlbSlices

/-- The slice at which the walk of a page is requested: that of its 64 KiB query (R141). -/
def Walk.slice (w : Walk) : Nat := tlbSliceOf w.asid 16 w.page

/-- One of the elements of a list that satisfy `p` goes, freely chosen, when there are `limit` of them; a
replacement policy that is not architected (R140, assumption 5). -/
def State.evict {α : Type} (s : State) (limit : Nat) (p : α → Bool) (xs : List α) : List α × State :=
  let n := (xs.filter p).length
  if n < limit then (xs, s)
  else
    let (k, s1) := s.choose n
    let idx := ((List.range xs.length).filter fun i => (xs[i]?).any p)[k]?
    (xs.eraseIdx (idx.getD 0), s1)

/-- A translation is the one of this address at its page size. -/
def TlbEntry.holds (t : TlbEntry) (core : Option Nat) (asid va : Nat) : Bool :=
  decide (t.core = core ∧ t.asid = asid ∧ t.vpn = va / 2 ^ t.bits)

/-- The translation of an address in a core's first-level TLB, or in the home slices when `core` is none, the largest
page first (R140); for a write it must permit writes and have the dirty bit set. -/
def State.tlbFind (s : State) (core : Option Nat) (asid va : Nat) (write : Bool) : Option TlbEntry :=
  let hits := s.tlb.filter fun t => t.holds core asid va && (!write || (t.wr && t.dirty))
  match hits.find? (fun t => decide (t.bits = 30)) with
  | some t => some t
  | none =>
    match hits.find? (fun t => decide (t.bits = 21)) with
    | some t => some t
    | none => hits.head?

/-- The physical address that a translation gives. -/
def TlbEntry.place (t : TlbEntry) (va : Nat) : Nat := t.phys + va % 2 ^ t.bits

/-- A translation is put into its place, in place of an older one of its page; another one may have to go (R140). -/
def State.fillTlb (s : State) (t : TlbEntry) : State :=
  let rest := s.tlb.filter fun x => !decide (x.core = t.core ∧ x.asid = t.asid ∧ x.vpn = t.vpn ∧ x.bits = t.bits)
  let (kept, s1) := match t.core with
    | some c => s.evict Config.coreTlb (fun (x : TlbEntry) => decide (x.core = some c)) rest
    | none => s.evict Config.sliceTlb
        (fun (x : TlbEntry) => decide (x.core = none ∧ tlbSliceOf x.asid x.bits x.vpn = tlbSliceOf t.asid t.bits t.vpn)) rest
  { s1 with tlb := t :: kept }

/-- The walk cache of a table, as a walk of an ASID looks into it (R141). -/
def State.walkLook (s : State) (table asid a : Nat) : Option Nat :=
  (s.walkCache.find? fun w => decide (w.table = table ∧ w.asid = asid ∧ w.addr = a)).map WalkEntry.entry

/-- The next-table entries that a walk read are in the walk cache (R141). -/
def State.fillWalkCache (s : State) (table asid va : Nat) : List (Nat × Nat × Nat) → State
  | [] => s
  | (bits, a, e) :: rest =>
    let s1 := if (s.walkLook table asid a).isSome then s
      else
        let (kept, s') := s.evict 256 (fun w => decide (w.table = table)) s.walkCache
        { s' with walkCache := ⟨table, asid, va / 2 ^ bits, bits, a, e⟩ :: kept }
    s1.fillWalkCache table asid va rest

/-- A walk for an ASID at its home slice (R137, R138, R141, R142): A is set in the leaf, and D on a walk for a write
that the leaf permits; the translation is cached in its slice.  The entries above the leaf keep their A (assumption 51). -/
def State.walkFill (s : State) (asid va : Nat) (write : Bool) : Except XlFail TlbEntry × State :=
  let table := tableOfSlice (tlbSliceOf asid 16 (va / 65536))
  match s.walk (s.walkLook table asid) va 0 ptLevels (s.ctxField asid 0 52) with
  | .error x => (.error x, s)
  | .ok f =>
    let wr := decide (field f.entry 2 1 = 1)
    let e' := markedLeaf f.entry (write && wr)
    let s1 := if e' = f.entry then s else s.homeWriteNat f.addr 8 e'
    let t : TlbEntry := ⟨none, asid, va / 2 ^ f.bits, f.bits, pteAddr f.entry, field f.entry 5 2, wr, decide (field e' 4 1 = 1)⟩
    (.ok t, (s1.fillWalkCache table asid va f.path).fillTlb t)

/-- What a query of a KIND makes of a walk's end: a page that is not there, or that forbids a write (R152, R153). -/
def xlEnd (kind : Nat) : Except XlFail TlbEntry → Except XlFail TlbEntry
  | .ok t => if kind = 1 ∧ !t.wr then .error (.absent 2) else .ok t
  | .error (.absent _) => .error (.absent kind)
  | .error x => .error x

/-- A translation that a core, or an agent of no core, finds in the TLBs (R140): a second-level one is put into the
core's first level. -/
def State.lookup (s : State) (core : Option Nat) (asid va : Nat) (write : Bool) : Option TlbEntry × State :=
  match s.tlbFind core asid va write with
  | some t => (some t, s)
  | none =>
    match s.tlbFind none asid va write with
    | some t => (some t, s.fillTlb { t with core := core })
    | none => (none, s)

/-- The translation of a device virtual address for the device's own units, which belong to no core: in the model their walk
takes no time (R135 to R142, assumption 74). -/
def State.translate (s : State) (asid va : Nat) (write : Bool) : Except XlFail TlbEntry × State :=
  match s.tlbFind none asid va write with
  | some t => (.ok t, s)
  | none =>
    match s.walkFill asid va write with
    | (x, s1) => (xlEnd (absentKind write false) x, s1)

/-- A query for a page waits at its home slice, with an outstanding one for the same page if there is one (R141). -/
def State.askWalk (s : State) (asid va : Nat) (write : Bool) : State :=
  if s.walks.any fun w => decide (w.asid = asid ∧ w.page = va / 65536) then
    { s with walks := s.walks.map fun w => if w.asid = asid ∧ w.page = va / 65536 then { w with write := w.write || write } else w }
  else { s with walks := s.walks ++ [⟨asid, va / 65536, write⟩] }

/-- The requests that a home slice holds, of those made so far in their order: 64, and the others wait at the slice
(R141). -/
def heldWalks : List Walk → List Walk → List Walk
  | _, [] => []
  | before, w :: ws =>
    let rest := heldWalks (before ++ [w]) ws
    if (before.filter fun x => decide (x.slice = w.slice)).length < Config.sliceWalks then w :: rest else rest

/-- The requests that a walker serves, of those the slices hold: 32 to a table (R141). -/
def runningWalks : List Walk → List Walk → List Walk
  | _, [] => []
  | before, w :: ws =>
    let rest := runningWalks (before ++ [w]) ws
    if (before.filter fun x => decide (tableOfSlice x.slice = tableOfSlice w.slice)).length < Config.walkers then w :: rest
    else rest

/-- The walks that are under way. -/
def State.walksUnderWay (s : State) : List Walk := runningWalks [] (heldWalks [] s.walks)

/-! ### The house (R310 to R312) -/

/-- This device's endpoint number in its house (R310): DEVID.DEV. -/
def State.endpoint (s : State) : Nat := s.config.devid.toNat % 4096

/-- The endpoint that exports a page (R310). -/
def exporterOf (page : Nat) : Nat := field (page * 65536) 38 12

/-- The leaf of an offset in this device's export space, through EXPROOT (R306, R310). -/
def State.exportLeaf (s : State) (off : Nat) (write : Bool) : Except XlFail Leaf :=
  match s.sysEntry 0x60 with
  | none => .error (.absent 0)
  | some root => s.walk (fun _ => none) (off % 2 ^ 38) (absentKind write false) ptLevels root

/-- The physical address of an offset in this device's export space (R310). -/
def State.exportPhys (s : State) (off : Nat) (write : Bool) : Except XlFail Nat × State :=
  match s.exportLeaf off write with
  | .error x => (.error x, s)
  | .ok f =>
    if write && decide (field f.entry 2 1 = 0) then (.error (.absent 2), s)
    else (.ok (pteAddr f.entry + off % 2 ^ f.bits), s.homeWriteNat f.addr 8 (markedLeaf f.entry write))

/-- The device holds an export page as an access needs it (R311). -/
def State.fabricHeld (s : State) (page : Nat) (write : Bool) : Bool :=
  match s.directory.find? (fun d => decide (d.page = page)) with
  | none => false
  | some d =>
    match d.st with
    | .owned ep => decide (ep = s.endpoint)
    | .shared eps => !write && eps.contains s.endpoint

/-- The export page of this device, of those that the directory lists, in which a physical address lies (R311): the
exporter counts as an endpoint once the entry exists. -/
def State.exportedAs (s : State) (a : Nat) : Option Nat :=
  s.directory.findSome? fun d =>
    if exporterOf d.page = s.endpoint then
      match s.exportLeaf (d.page * 65536) false with
      | .ok f => if (pteAddr f.entry + d.page * 65536 % 2 ^ 38 % 2 ^ f.bits) / 65536 = a / 65536 then some d.page else none
      | .error _ => none
    else none

/-- The export page that an access to a physical address needs and this device does not hold as it must (R311). -/
def State.pageNeeded (s : State) (a : Nat) (write : Bool) : Option Nat :=
  if field a 50 2 = 2 ∧ field a 38 12 ≠ s.endpoint then
    if s.fabricHeld (a / 65536) write then none else some (a / 65536)
  else
    match s.exportedAs a with
    | none => none
    | some p => if s.fabricHeld p write then none else some p

/-- A request to the directory, made once (R311). -/
def State.askPage (s : State) (page : Nat) (own : Bool) : State :=
  let q : DirReq := ⟨s.endpoint, page, own⟩
  if s.dirReqs.contains q then s else { s with dirReqs := s.dirReqs ++ [q] }

/-- The longest stall of an access that waits for an export page (R313). -/
def fabricLimit : Nat := 2 ^ 21

/-- The longest stall of an access to the CXL tier, by MT of its page (R313). -/
def tierLimit (mt : Nat) : Nat := if mt = 1 then 2 ^ 23 else 2 ^ 17

/-- The CXL port of a physical address that does not answer (R313). -/
def State.portDown (s : State) (a : Nat) : Option Nat :=
  if field a 50 2 = 1 ∧ s.portsDown.contains (field a 44 4) then some (field a 44 4) else none

/-- What stands between an access and a physical address, other than in this device's own export space: an export page
(R311), or a CXL port that does not answer (R313). -/
inductive Barred where
  | page (page : Nat)
  | port (port : Nat)
  deriving DecidableEq, Repr

/-- What bars an access to a physical address now. -/
def State.barred (s : State) (a : Nat) (write : Bool) : Option Barred :=
  match s.pageNeeded a write with
  | some p => some (.page p)
  | none => (s.portDown a).map .port

/-! ### Units of the device as clients of memory (R117, R121, R141, R155) -/

/-- Why an engine's access gives no physical address. -/
inductive EngineFail where
  /-- no cached translation: the walk is asked for, with the address and KIND of the query (R141) -/
  | walk (va kind : Nat)
  /-- page not resident: address and KIND (R192) -/
  | page (va kind : Nat)
  /-- a malformed translation: the address (R138) -/
  | malformed (va : Nat)
  /-- the memory port rejects the access, with this cause of class 8, and the address if one was formed (R121, R136) -/
  | port (cause va : Nat)
  /-- the data at the address is uncorrectable (R286) -/
  | data (va : Nat)
  /-- an export page is not held as it must be (R311): the page and the device virtual address -/
  | fabric (page va : Nat)
  /-- a CXL port does not answer (R313): the port, the address and the limit -/
  | tier (port va limit : Nat)
  deriving DecidableEq, Repr

/-- An engine's failed translation. -/
def engineXl (va : Nat) : XlFail → EngineFail
  | .absent k => .page va k
  | .malformed => .malformed va
  | .data => .data va

/-- A physical address as an engine finds it, with what bars it (R311, R313). -/
def State.engineClear (s : State) (va a mt : Nat) (write : Bool) : Except EngineFail Nat × State :=
  match s.barred a write with
  | none => (.ok a, s)
  | some (.page p) => (.error (.fabric p va), s.askPage p write)
  | some (.port x) => (.error (.tier x va (tierLimit mt)), s)

/-- Where a physical address leads: an address in this device's own export space goes through the device's own tables
(R310). -/
def State.ownExport (s : State) (a : Nat) (write : Bool) : Except XlFail Nat × State :=
  if field a 50 2 = 2 ∧ field a 38 12 = s.endpoint then s.exportPhys (field a 0 38) write else (.ok a, s)

/-- The physical address that an engine reaches at a physical address of a page with an MT. -/
def State.unitPhys (s : State) (va a mt : Nat) (write : Bool) : Except EngineFail Nat × State :=
  match s.ownExport a write with
  | (.ok p, s') => s'.engineClear va p mt write
  | (.error f, s') => (.error (engineXl va f), s')

/-- The physical address of a translation for an engine. -/
def State.enginePlace (s : State) (va : Nat) (t : TlbEntry) (write : Bool) : Except EngineFail Nat × State :=
  s.unitPhys va (t.place va) t.mt write

/-- The physical address of a device virtual address for a unit of the device that belongs to no core and whose walks take no
time in the model: the dispatch cores, the save engine, the halt controller and the ports (assumption 74). -/
def State.engineVa (s : State) (asid va : Nat) (write : Bool) : Except EngineFail Nat × State :=
  let x := va % 2 ^ 48
  match s.translate asid x write with
  | (.error f, s') => (.error (engineXl x f), s')
  | (.ok t, s') => s'.enginePlace x t write

/-- `engineVa` for `n` bytes that are read: data that is uncorrectable is no data (R286). -/
def State.engineVaRead (s : State) (asid va n : Nat) : Except EngineFail Nat × State :=
  match s.engineVa asid va false with
  | (.ok a, s') => if s'.damaged a n then (.error (.data (va % 2 ^ 48)), s') else (.ok a, s')
  | x => x


end Sys2Proof.Machine
end

