-- ==== Sys2Proof/Machine/Ops.lean ====
section
/-!
DEFINITION. The shared operations of an instruction: objects and capabilities, access to memory, regions and commits,
groups of a diverged rod, and the taking of a fault: parking, handler entry, ERET and the halt line.
-/

namespace Sys2Proof.Machine

/-! ### Objects (R121, R135, R136) -/

/-- What an object-table entry says: LEN and base address, none where the entry is invalid (R135, R136). -/
def objectOf (e : Nat) : Option (Nat × Nat) :=
  if field e 127 1 = 0 ∨ field e 112 15 ≠ 0 ∨ field e 48 16 ≠ 0 ∨ field e 0 7 ≠ 0 then none
  else some (field e 64 48, field e 7 41 * 128)

/-- The device virtual address of a handle's object-table entry; none at or beyond OTLEN (R135, R136). -/
def State.objectEntry (s : State) (asid h : Nat) : Option Nat :=
  if s.ctxField asid 488 24 < h then none else some ((s.ctxField asid 64 48 + 16 * h) % 2 ^ 48)

/-- An object in a core's object cache (R136). -/
def State.cachedObject (s : State) (core asid h : Nat) : Option (Nat × Nat) :=
  (s.objCache.find? fun o => decide (o.core = core ∧ o.asid = asid ∧ o.handle = h)).map fun o => (o.len, o.base)

/-- An object enters a core's object cache of 64 entries (R136); which one goes is a free choice (assumption 5). -/
def State.cacheObject (s : State) (core asid h len base : Nat) : State :=
  let (kept, s1) := s.evict Config.objectCache (fun (o : ObjEntry) => decide (o.core = core)) s.objCache
  { s1 with objCache := ⟨core, asid, h, len, base⟩ :: kept }

/-! ### Capabilities (R48, R116 to R120) -/

/-- The 128-bit layout of R48. -/
def Cap.ofNat (x : Nat) : Cap :=
  ⟨decide (field x 127 1 = 1), decide (field x 126 1 = 1), decide (field x 125 1 = 1), decide (field x 124 1 = 1),
    decide (field x 123 1 = 1), decide (field x 122 1 = 1), BitVec.ofNat 24 (field x 96 24),
    BitVec.ofNat 48 (field x 48 48), BitVec.ofNat 48 (field x 0 48)⟩

/-- Bits [127:120] of the layout of R48. -/
def Cap.top (c : Cap) : Nat :=
  128 * c.v.toNat + 64 * c.x.toNat + 32 * c.e.toNat + 16 * c.a.toNat + 8 * c.w.toNat + 4 * c.rd.toNat

/-- A set of rights (R117). -/
structure Rights where
  rd : Bool := false
  w : Bool := false
  a : Bool := false
  e : Bool := false
  x : Bool := false
  deriving DecidableEq, Repr

/-- The capability has the rights (R117). -/
def Cap.grants (c : Cap) (q : Rights) : Bool :=
  (!q.rd || c.rd) && (!q.w || c.w) && (!q.a || c.a) && (!q.e || c.e) && (!q.x || c.x)

/-- The checks of R116 on a byte range: the cause of the fault, if one fails. -/
def Cap.check (c : Cap) (q : Rights) (byte size : Nat) : Option Nat :=
  if !c.v then some 1
  else if !c.grants q then some 2
  else if byte < c.lo.toNat ∨ c.hi.toNat < byte + size then some 3
  else none

/-- A capability fault of an access that has formed no address yet (R118, assumption 52). -/
def capFault (b : Option Nat) (cause : Nat) : Stop := .trap 8 cause b 0 0

/-- The checks of R116 and R117 in the issuing bead. -/
def M.checkCap (b : Option Nat) (c : Cap) (q : Rights) (byte size : Nat) : M Unit :=
  match c.check q byte size with
  | none => pure ()
  | some x => throw (capFault b x)

/-- A page-not-resident or translation fault of the issuing bead (R138, R152). -/
def xlStop (b : Option Nat) (va : Nat) : XlFail → Stop
  | .absent kind => .page b va kind
  | .malformed => .trap 10 2 b va 0
  | .data => .trap 10 1 b va 0

/-- The translation of a device virtual address for the issuing rod, for a query of a KIND of R153: a cached one (R140),
or else the rod waits for a walk (R141). -/
def M.translate (b : Option Nat) (va kind : Nat) : M TlbEntry := do
  let r ← M.rod
  let s ← get
  match s.lookup (some r.core) r.asid va (decide (kind = 1)) with
  | (some t, s1) => do
    set s1
    pure t
  | (none, _) => do
    M.upd fun s => s.askWalk r.asid va (decide (kind = 1))
    throw (.sleep (beadNo b) (.walk va kind (beadNo b)) false)

/-- Work before the first effect of an instruction: a rod that waits in it begins the instruction again where it
stood (R34, R147). -/
def M.ahead {α : Type} (m : M α) : M α := do
  let r ← M.rod
  tryCatch m fun e =>
    match e with
    | .sleep _ why give => throw (.sleep r.resume why give)
    | e => throw e

/-- The access waits while an export page is not held as it must be (R311), or a CXL port does not answer (R313). -/
def M.unbarred (b : Option Nat) (va a mt : Nat) (write : Bool) : M Nat := do
  let s ← get
  match s.barred a write with
  | none => pure a
  | some (.page p) => do
    M.upd fun s => s.askPage p write
    throw (.sleep (beadNo b) (.fabric p va (beadNo b)) false)
  | some (.port x) => throw (.sleep (beadNo b) (.tier x va (beadNo b) (tierLimit mt)) false)

/-- The translation of a device virtual address for an access of the issuing rod, and its physical address. An address in
this device's own export space goes through the device's own tables (R310). -/
def M.physical (b : Option Nat) (va kind : Nat) : M (TlbEntry × Nat) := do
  let t ← M.translate b va kind
  let a := t.place va
  let s ← get
  if field a 50 2 = 2 ∧ field a 38 12 = s.endpoint then
    let x ← M.run fun s => s.exportPhys (field a 0 38) (decide (kind = 1))
    match x with
    | .ok p => pure (t, p)
    | .error f => throw (xlStop b va f)
  else pure (t, a)

/-- The physical address of a device virtual address for an access that is performed at once. -/
def M.place (b : Option Nat) (va kind : Nat) : M Nat := do
  let (t, a) ← M.physical b va kind
  M.unbarred b va a t.mt (decide (kind = 1))

/-- LEN and base of a handle's object, from the core's object cache or the object table; none where the table has no
valid entry (R135, R136). -/
def M.object? (b : Option Nat) (h : Nat) : M (Option (Nat × Nat)) := do
  let r ← M.rod
  let s ← get
  match s.cachedObject r.core r.asid h with
  | some o => pure (some o)
  | none =>
    match s.objectEntry r.asid h with
    | none => pure none
    | some va => do
      let a ← M.place b va 0
      let s1 ← get
      M.need (!s1.damaged a 16) (.trap 10 1 b va 0)
      match objectOf (s1.natAt a 16) with
      | none => pure none
      | some (len, base) => do
        M.upd fun s => s.cacheObject r.core r.asid h len base
        pure (some (len, base))

/-- What an access does with its bytes: it reads them, holds them in a tentative line (R148), or performs a write or an
atomic at their home. -/
inductive Use where
  | load | tentative | home
  deriving DecidableEq, Repr

/-- The physical address of a byte range of an object (R116, R121, R136), and where its line comes from: the port rejects a
handle whose entry is invalid (cause revoked) and a range beyond LEN (cause bounds). A store into a tentative line needs its
page only when it commits (R312). -/
def M.objectLine (b : Option Nat) (c : Cap) (byte size : Nat) (use : Use) : M (Nat × LineTag) := do
  let o ← M.object? b c.handle.toNat
  match o with
  | none => throw (.port b 8 0)
  | some (len, base) =>
    let va := (base + byte) % 2 ^ 48
    if len < byte + size then throw (.port b 3 va)
    else do
      let (t, a) ← M.physical b va (if use = .load then 0 else 1)
      let tag : LineTag := ⟨lineOf a, va / 128 * 128, c.handle.toNat, t.mt⟩
      match use with
      | .tentative => pure (a, tag)
      | _ => do
        let a' ← M.unbarred b va a t.mt (decide (use = .home))
        let s ← get
        M.need (!s.damaged a' size) (.trap 10 1 b va 0)
        pure (a', tag)

/-- The physical address of a byte range of an object. -/
def M.objectPhys (b : Option Nat) (c : Cap) (byte size : Nat) (use : Use) : M Nat := do
  let (a, _) ← M.objectLine b c byte size use
  pure a

/-! ### Regions, tentative lines and commits (R146 to R150) -/

/-- The control state that a restart address records (R146). -/
def Rod.ctl (r : Rod) : Ctl := ⟨r.active, r.stack, r.fmt, r.mode.setWidth 16, r.base⟩

/-- The control fields of MODE are replaced; the sticky flags stay (R30). -/
def Rod.setControlMode (r : Rod) (m : BitVec 16) : Rod :=
  { r with mode := BitVec.ofNat 32 (r.mode.toNat / 65536 * 65536 + m.toNat) }

/-- The control state of the restart address is put back, and the rod stands there (R152). -/
def Rod.restore (r : Rod) : Rod :=
  let r' := r.setControlMode r.restartCtl.mode
  { r' with
    active := r.restartCtl.active
    stack := r.restartCtl.stack
    fmt := r.restartCtl.fmt
    base := r.restartCtl.base
    pc := r.restart
    resume := 0 }

/-- A new region with the rod's present position as restart address (R146). -/
def Rod.openRegion (r : Rod) : Rod := { r with restart := r.pc, restartCtl := r.ctl }

/-- The rod holds no tentative lines. -/
def Rod.noLines (r : Rod) : Rod := { r with tent := [], tags := [] }

/-- MT of the page of a physical address, among where some lines come from (R138, R313). -/
def mtIn (tags : List LineTag) (a : Nat) : Nat := ((tags.find? fun x => decide (x.line = lineOf a)).map LineTag.mt).getD 0

/-- The rod's tentative lines leave for their homes (R149). -/
def State.commit (s : State) (u : Nat) : State :=
  match s.rod? u with
  | none => s
  | some r =>
    if r.tent.isEmpty then s
    else
      let (n, s1) := s.take
      let ls := (linesOf r.tent).map fun l =>
        (⟨u, r.asid, r.frame, r.core, r.frameid, r.rodid, n, r.pc, inLine l r.tent,
          r.tags.filter fun x => decide (x.line = l), r.view.rel, s.now⟩ : Inflight)
      { s1 with inflight := s1.inflight ++ ls }.modRod u Rod.noLines

/-- What bars a list of bytes from their homes now, with the address it bars (R312, R313). -/
def State.barredBytes (s : State) (ws : List (Nat × Byte)) : Option (Barred × Nat) :=
  ws.findSome? fun w => (s.barred w.1 true).map fun x => (x, w.1)

/-- The rod has performed a write numbered `n` at the homes of a die. -/
def Rod.performed (r : Rod) (d n : Nat) : Rod := { r with view := { r.view with own := r.view.own.join (Marks.at d (n + 1)) } }

/-- A write of a rod at its home, with the releases before it. -/
def State.rodWrite (s : State) (r : Rod) (stamps : List Stamp) (a n x : Nat) : State :=
  (s.pathWriteNat 0 r.agent stamps a n x).modRod r.uid fun r => r.performed (homeDieOf a) (s.fresh + n / 16)

/-- A committed line is performed at its home (R149, R160). -/
def State.performLine (s : State) (i : Inflight) : State :=
  (s.pathWrite 0 (.core i.rod i.frame i.core) i.rel i.bytes).modRod i.rod fun r =>
    r.performed (homeDieOf ((i.bytes.map Prod.fst).headD 0)) s.fresh

/-- The committed lines of a rod are performed at their homes, the oldest commit first (R160), up to a line that still
waits for its page or port (R312, R313). They are performed in one move, those of one commit in ascending order: R160 fixes no
order among them (DESIGN CHOICE, assumption 75). -/
def State.drain (s : State) (u : Nat) : State :=
  let mine := (s.inflight.filter fun i => decide (i.rod = u)).takeWhile fun i => (s.barredBytes i.bytes).isNone
  let s1 := { s with inflight := s.inflight.filter fun i => !mine.contains i }
  mine.foldl State.performLine s1

/-- The rod's open region is committed and performed (R146, R149). -/
def State.commitPerform (s : State) (u : Nat) : State := (s.commit u).drain u

/-! ### What a rod's load returns (R148, R161, R162) -/

/-- A byte that the rod itself has stored and that is not performed: in its own tentative line, else in its own committed
line on the way (R148). -/
def State.ownByte (s : State) (r : Rod) (a : Nat) : Option Byte :=
  match Sparse.find r.tent a with
  | some v => some v
  | none => (s.inflight.filter fun i => decide (i.rod = r.uid)).reverse.findSome? fun i => Sparse.find i.bytes a

/-- `n` bytes as a rod's load finds them that sees all but some writes. -/
def State.rodNatWithout (s : State) (r : Rod) (hidden : List WriteRec) (a n : Nat) : Nat :=
  natOfBytes ((List.range n).map fun i => (s.ownByte r (a + i)).getD (s.byteWithout hidden (a + i)))

/-- `n` bytes as a rod's load finds them that sees every write. -/
def State.rodNat (s : State) (r : Rod) (a n : Nat) : Nat := s.rodNatWithout r [] a n

/-- A single-copy atomic load of at most 8 bytes (R132): what it returns, and the writes that gave it. A weak load need
not see any of the newest writes that nothing puts before it (R162); a strong one sees what its die's copy of the line
holds, and what it must (R161, R163, R165). -/
def State.loadUnit (s : State) (r : Rod) (strong : Bool) (a n : Nat) : (Nat × List WriteRec) × State :=
  let ws := s.touching a n
  let may := optional (s.mustSee r.agent r.view) ws
  let die := dieOfCore r.core
  let home := homeDieOf a
  let behind := strong && decide (die ≠ home) &&
    (ws.take (ws.length - may.length)).any fun w => (s.copyOf die (lineOf a)).any fun c => decide (c.upTo ≤ w.seq)
  let (hidden, s1) :=
    if strong then
      let s0 := if behind then s.catchUp home die else s
      (s0.hiddenFrom die (lineOf a) may, s0)
    else s.hide may
  ((s1.rodNatWithout r hidden a n, returned (ws.take (ws.length - hidden.length)) a n), s1)

/-- A load of `n` bytes: one of 16 bytes is two of 8 (R132). -/
def State.loadNat (s : State) (r : Rod) (strong : Bool) (a n : Nat) : (Nat × List WriteRec) × State :=
  if n = 16 then
    let ((x, ws), s1) := s.loadUnit r strong a 8
    let ((y, vs), s2) := s1.loadUnit r strong (a + 8) 8
    ((x + 2 ^ 64 * y, ws ++ vs), s2)
  else s.loadUnit r strong a n

/-- What a load that returned some writes has seen (R163): an acquire synchronises with their releases and comes after
the writes themselves; any other load keeps the releases for a FENCE. -/
def View.loaded (v : View) (agent : Agent) (acquire : Bool) (ws : List WriteRec) : View :=
  let xs := ws.flatMap WriteRec.stamps
  let got := ws.foldl (fun m w => m.join w.marks) Marks.none
  let v1 := { v with read := v.read.join got }
  if acquire then
    let v2 := v1.acquire agent 4 xs
    { v2 with hb := v2.hb.join got }
  else v1.keep xs

/-- A sequentially consistent operation at a scope takes its place after those before it (R166): what happens before them
happens before what follows. -/
def State.scBefore (s : State) (v : View) (agent : Agent) (scope : Nat) : View := v.acquire agent scope s.scPoints

/-- What a sequentially consistent operation puts before those after it (R166). -/
def State.scAfter (s : State) (v : View) (agent : Agent) (scope : Nat) : State :=
  let x : Stamp := { v.release agent scope with hb := (v.hb.join v.own).join v.read }
  { s with scPoints := s.scPoints.filter (fun y => !decide (y.agent = agent ∧ y.scope = scope)) ++ [x] }

/-- The view of the issuing rod is changed. -/
def M.view (f : View → View) : M Unit := onRod (modify fun r => { r with view := f r.view })

/-- The issuing rod takes a place in the order S at a scope (R166). -/
def M.scPoint (scope : Nat) : M Unit := do
  let r ← M.rod
  let s ← get
  M.view fun v => s.scBefore v r.agent scope
  let r1 ← M.rod
  M.upd fun s => s.scAfter r1.view r1.agent scope

/-- A bead performs an atomic at the home of its bytes (R168): `step` gives from the old value what it writes, if anything.
The write carries the releases of the writes before it, and its own when its order releases (R159, R163); where it writes
nothing, its die's copy of the line is not left older than what it read (R161). -/
def M.atHome (sc acquire release : Bool) (a n : Nat) (step : Nat → Option Nat) : M Nat := do
  (if sc then M.scPoint 4 else pure ())
  let r ← M.rod
  let s ← get
  let old := s.natAt a n
  let earlier := s.touching a n
  let last := returned earlier a n
  (match step old with
   | none => M.upd fun s => s.installOwn (dieOfCore r.core) (lineOf a)
   | some x => M.upd fun s => s.rodWrite r
      ((if release then [(r.view.release r.agent 4).through (homeDieOf a) (s.fresh + 1)] else []) ++ r.view.rel ++
        chainStamps earlier) a n x)
  M.view fun v => v.loaded r.agent acquire last
  pure old

/-- A load of the issuing rod at a physical address. -/
def M.load (strong acquire : Bool) (a n : Nat) : M Nat := do
  let r ← M.rod
  let (x, ws) ← M.run fun s => s.loadNat r strong a n
  M.upd fun s => s.fillCopy (dieOfCore r.core) (lineOf a)
  onRod (modify fun r => { r with view := r.view.loaded r.agent acquire ws })
  pure x

/-! ### Tentative lines (R148, R150) -/

/-- Tentative lines that a core holds (R148). -/
def State.coreTentLines (s : State) (core : Nat) : Nat :=
  ((s.rods.filter fun r => decide (r.core = core)).map fun r => (linesOf r.tent).length).sum

/-- The rod of the core that holds the most tentative lines, the lower slot-table index on a tie (R150); those of a halted
context are never committed (R294). -/
def State.largestHolder (s : State) (core : Nat) : Option Rod :=
  (s.rods.filter fun r => decide (r.core = core ∧ r.tent ≠ []) && !s.halted r.asid).foldl (fun (best : Option Rod) r =>
    match best with
    | none => some r
    | some b =>
      let m := (linesOf b.tent).length
      let n := (linesOf r.tent).length
      if m < n ∨ (m = n ∧ r.slotIndex < b.slotIndex) then some r else some b) none

/-- Early commits that make room for one more tentative line of a rod (R150). -/
def State.makeRoom (s : State) (u : Nat) : State :=
  match s.rod? u with
  | none => s
  | some r =>
    if Config.rodLines ≤ (linesOf r.tent).length then s.commit u
    else if s.coreTentLines r.core < Config.coreLines then s
    else if r.tent ≠ [] then s.commit u
    else
      match s.largestHolder r.core with
      | none => s
      | some b => s.commit b.uid

/-- Bytes of one line are held in a tentative line of the rod (R148), with where they come from. -/
def State.storeTentative (s : State) (u : Nat) (tag : LineTag) (ws : List (Nat × Byte)) : State :=
  match s.rod? u, ws with
  | some r, (a, _) :: _ =>
    let s1 := if (linesOf r.tent).contains (lineOf a) then s else s.makeRoom u
    s1.modRod u fun r => { r with
      tent := ws.foldl (fun t w => Sparse.put t w.1 w.2) r.tent
      tags := if r.tags.contains tag then r.tags else r.tags ++ [tag] }
  | _, _ => s

/-! ### Groups of a diverged rod (R26 to R32) -/

/-- `resume_next` of R28 on a stack; none when the rod retires. -/
def Rod.resumeNext (r : Rod) : List StackEntry → Option Rod
  | [] => none
  | e :: es =>
    if e.pv then
      let r' := r.setControlMode e.pmode
      some { r' with
        active := e.pm, pc := e.ppc, resume := e.pr.toNat, fmt := e.pfmt
        stack := { e with pv := false, pr := 0 } :: es }
    else if e.f = 0 then Rod.resumeNext r es
    else
      let r' := r.setControlMode e.smode
      some { r' with active := e.f, pc := (e.j.getD 0) + 4, resume := 0, fmt := e.sfmt, stack := es }

/-- The running group ends (R29): its beads leave F, W and PM of every entry, and another group runs; none when the
rod retires. -/
def Rod.endGroup (r : Rod) : Option Rod :=
  let gone := ~~~ r.active
  let st := r.stack.map fun e => { e with f := e.f &&& gone, w := e.w &&& gone, pm := e.pm &&& gone }
  ({ r with alive := r.alive &&& gone, active := 0, stack := st } : Rod).resumeNext st

/-- The rod gives way to the pending group of its top entry (R32); none when there is no such group. -/
def Rod.giveWay (r : Rod) : Option Rod :=
  match r.stack with
  | [] => none
  | e :: es =>
    if e.pv then
      let e' := { e with
        ppc := r.pc, pm := r.active, pr := BitVec.ofNat 4 r.resume, pfmt := r.fmt, pmode := r.mode.setWidth 16 }
      let r' := r.setControlMode e.pmode
      some { r' with
        active := e.pm, pc := e.ppc, resume := e.pr.toNat, fmt := e.pfmt, stack := e' :: es, peeked := []
        status := .ready }
    else none

/-- A rod retires (R38): its end commits its tentative lines as REGION does, and its slot and registers are free. -/
def State.retire (s : State) (u : Nat) : State := (s.commit u).dropRod u

/-- The running group ends, and the rod goes on or retires. -/
def State.endGroup (s : State) (u : Nat) : State :=
  match s.rod? u with
  | none => s
  | some r =>
    match r.endGroup with
    | none => s.retire u
    | some r' => s.setRod r'

/-! ### Faults (R286 to R293) -/

/-- Of two fatal faults that reach the halt controller in one cycle, the first is a rod's, and of the lower core
(R296). -/
def Halt.before (h old : Halt) : Bool :=
  decide (h.clk = old.clk) && ((!h.engine && old.engine) || (h.engine == old.engine && decide (h.core < old.core)))

/-- A further fatal fault of a context that halts: it adds 1 to MORE, and takes the record if it comes first (R296). -/
def Halt.further (old h : Halt) : Halt :=
  if old.complete then old
  else
    let more := min 65535 (old.more + 1)
    if h.before old then { h with nstop := old.nstop, more := more } else { old with more := more }

/-- The rod waits for an export page or a CXL port (R311, R313). -/
def Rod.stalls (r : Rod) : Bool :=
  match r.status with
  | .asleep (.fabric _ _ _) _ _ | .asleep (.tier _ _ _ _) _ _ => true
  | _ => false

/-- A fatal fault raises the halt line of its context; a later one adds to MORE (R293, R296). The rods of the context stop,
and their tentative lines are discarded (R294, R416), but for one that waits for a page or a port, which may be in a FENCE
that the halt lets finish (R364). -/
def State.raiseHalt (s : State) (asid : Nat) (h : Halt) : State :=
  let s1 := s.modCtx asid fun c =>
    match c.halt with
    | none => { c with halt := some h }
    | some old => { c with halt := some (old.further h) }
  { s1 with rods := s1.rods.map fun r => if r.asid = asid ∧ !r.stalls then r.noLines else r }

/-- The halt of a rod's fatal fault (R295). -/
def haltOfRod (s : State) (r : Rod) (cls cause bead info : Nat) : Halt :=
  ⟨s.clk, cls, cause, r.pc, r.frameid, r.rodid, r.core, bead, BitVec.ofNat 48 info, 0, false, 0, 0, false⟩

/-- The halt of an engine request's fatal fault: PC is zero (R295). -/
def haltOfEngine (s : State) (core cls cause info : Nat) (frameid : BitVec 32) : Halt :=
  ⟨s.clk, cls, cause, 0, frameid, 0, core, 0, BitVec.ofNat 48 info, 0, true, 0, 0, false⟩

/-- The bead h of R288: the lowest active bead for a uniform instruction, else the faulting bead. -/
def Rod.faultBead (r : Rod) (b : Option Nat) : Nat :=
  match b with
  | none => lowestBit r.active 0
  | some k => k

/-- The 1,024 bits of a fault frame (R289). -/
def FaultFrame.toNat (f : FaultFrame) (alloc : Nat) (v : Bool) : Nat :=
  packFields ([(1, v.toNat), (381, 0), (8, f.cause), (8, f.cls), (4, f.bead), (6, f.depth),
    (8, alloc / 32 * 8 + f.base.toNat), (16, f.fmt.toNat), (16, f.modec.toNat), (16, f.act.toNat), (48, f.epc.toNat)]
    ++ f.sregs.map fun x => (64, x.toNat))

/-- The fault frame is written to the save area, where its page is resident (R288, assumption 7). Where an export page or a CXL
port bars it, its line is on its way until the bar is gone (R311, R313). -/
def State.writeFaultFrame (s : State) (r : Rod) (f : FaultFrame) (v : Bool) : State :=
  let va := (s.ctxSaveBase r.asid + 128 * (r.core * 1024 + r.slotIndex)) % 2 ^ 48
  match s.translate r.asid va true with
  | (.error _, s1) => s1
  | (.ok t, s1) =>
    match s1.ownExport (t.place va) true with
    | (.error _, s2) => s2
    | (.ok a, s2) =>
      match s2.barred a true with
      | none => s2.homeWriteNat a 128 (f.toNat r.alloc v)
      | some x =>
        let (n, s3) := (match x with
          | .page p => s2.askPage p true
          | .port _ => s2).take
        { s3 with inflight := s3.inflight ++ [⟨r.uid, r.asid, r.frame, r.core, r.frameid, r.rodid, n, r.pc,
          placed a (bytesOfNat 128 (f.toNat r.alloc v)), [⟨lineOf a, va, 0, t.mt⟩], [], s3.now⟩] }

/-- A code address: 48 bits with bits [1:0] zero (R58). Where a value that becomes the PC has other bits set, and no
instruction's rule checks it (s25 at ERET, HANDLER of the context descriptor), the manual names no fault, and the model
drops them (DESIGN CHOICE, assumption 53). -/
def codeAddr (x : Nat) : Addr := BitVec.ofNat 48 (x / 4 * 4)

/-- Elements 24 to 31 of the uniform registers are replaced. -/
def setHigh (regs new : List Dword) : List Dword := regs.take 24 ++ new

/-- TAKING A RECOVERABLE FAULT IN THE HANDLER (R288): the open region is committed, the fault frame is written,
s24 to s31 describe the fault, and the rod runs on at HANDLER with the one bead h.  In handler mode, or with HANDLER 0,
the fault is raised as class 13 instead, with the address of the faulting instruction (R288, R291, R295). -/
def State.enterHandlerAt (s : State) (u cls cause k h info code : Nat) (epc fault : Addr) : State :=
  match s.rod? u with
  | none => s
  | some r =>
    let handler := s.ctxHandler r.asid
    if r.handler.isSome ∨ handler = 0 then
      s.raiseHalt r.asid { haltOfRod s r 13 0 h (cls + 256 * cause) with pc := fault }
    else
      let f : FaultFrame :=
        ⟨r.s.drop 24, epc, r.active, r.mode.setWidth 16, r.fmt, r.base, r.stack.length, k, cls, cause⟩
      let s1 := (s.commitPerform u).writeFaultFrame r f true
      s1.modRod u fun r =>
        ({ r with
          s := setHigh r.s [BitVec.ofNat 64 (cls + 256 * cause + 2 ^ 16 * k + 2 ^ 32 * (code % 2 ^ 32)),
            epc.setWidth 64, BitVec.ofNat 64 info, r.active.setWidth 64, 0, 0, 0, 0]
          handler := some f
          active := BitVec.ofNat 16 (2 ^ h)
          pc := codeAddr handler
          resume := 0
          atLive := false
          peeked := []
          status := .ready } : Rod).openRegion

/-- Handler entry for a fault of the instruction at the rod's PC (R288). -/
def State.enterHandler (s : State) (u cls cause k h info code : Nat) (epc : Addr) : State :=
  match s.rod? u with
  | none => s
  | some r => s.enterHandlerAt u cls cause k h info code epc r.pc

/-- A rod parks (R287) with its resume position; a page fault discards the tentative lines and that position (R152). -/
def State.park (s : State) (u : Nat) (p : Park) : State :=
  s.modRod u fun r =>
    if p.cls = 1 then { r.noLines with resume := 0, status := .parked p }
    else { r with resume := beadNo p.bead, status := .parked p }

/-- A class raises the halt line (R286). -/
def fatalClass (cls : Nat) : Bool := decide (8 ≤ cls)

/-- A rod takes a fault (R286): fatal classes halt its context, classes 1, 2 and 4 and class 5 cause 4 park it, and
the others enter the handler. -/
def State.takeTrap (s : State) (u cls cause : Nat) (b : Option Nat) (info code : Nat) : State :=
  match s.rod? u with
  | none => s
  | some r =>
    if fatalClass cls then s.raiseHalt r.asid (haltOfRod s r cls cause (beadNo b) info)
    else if cls = 2 ∨ cls = 4 ∨ (cls = 5 ∧ cause = 4) then
      s.park u ⟨cls, cause, b, BitVec.ofNat 64 info, none, none⟩
    else
      let epc := if cls = 3 ∧ cause = 2 then r.pc + 4 else r.pc
      s.enterHandler u cls cause (beadNo b) (r.faultBead b) info code epc

/-- A page fault of a rod goes to the home slice (R152, R153): AGENT 0, the program. -/
def State.takePage (s : State) (u : Nat) (b : Option Nat) (va kind : Nat) : State :=
  match s.rod? u with
  | none => s
  | some r =>
    let rec' : FaultRec := ⟨0, 0, r.asid, va, kind, 0, r.core, r.pc, 0, [.rod u]⟩
    { s.park u ⟨1, kind, b, BitVec.ofNat 64 va, none, none⟩ with faultWait := s.faultWait ++ [rec'] }

/-- A rod sleeps (R25), or its group gives way to a sibling (R32). -/
def State.sleepRod (s : State) (u k : Nat) (why : Sleep) (giveWay : Bool) : State :=
  match s.rod? u with
  | none => s
  | some r =>
    let r1 := { r with resume := k }
    match (if giveWay then r1.giveWay else none) with
    | some r2 => s.setRod r2
    | none =>
      let (t, s1) := s.take
      s1.setRod { r1 with status := .asleep why t s.now }

/-- THE RETURN FROM THE HANDLER (R290): ERET with the action of s24[31:30].  The checks give the cause of a class 9
fault; otherwise the rod after it, none when it retires. -/
def Rod.eret (r : Rod) : Except IllegalCause (Option Rod) :=
  match r.handler with
  | none => .error .reservedField
  | some f =>
    let s24 := (nth 0 r.s 24).toNat
    if r.stack.length ≠ f.depth then .error .reconvergenceMismatch
    else if 2 ≤ field s24 30 2 then .error .reservedField
    else if field s24 30 2 = 1 then .ok none
    else
      let r' := r.setControlMode f.modec
      .ok (some { r' with
        active := f.act
        fmt := f.fmt
        base := f.base
        pc := codeAddr (nth 0 r.s 25).toNat
        resume := field s24 16 4
        s := setHigh r.s f.sregs
        handler := none })

/-! ### Issuing one instruction (R16 to R19, R34, R76) -/

/-- An instruction of R146's table: it commits the open region first.  LAUNCH and SEGLD, which are checked before they
commit (R283, R406), do it in their own meanings, as ERET (R290) and EXIT, which may act as ERET (R357), do. -/
def commits : Instr → Bool
  | .region => true
  | .acas _ | .amax64 _ | .atomS32 _ | .atomN32 _ | .atomS64 _ | .atomN64 _ | .stn _ => true
  | .st f => decide (f.o.toNat = 3)
  | .fenceRel _ | .fenceAcqrel _ | .fenceSc _ | .xfence _ | .bar _ => true
  | .ldlS f | .ldlW f | .ldlA f | .ldlC f => decide (f.q.toNat = 0)
  | .qpop _ | .qpush _ | .edgeget _ | .edgeput _ | .ttask _ | .infer _ | .sumset _ | .sumsend _ | .sumfree _ => true
  | .wbind _ | .wcsr _ | .wtouch _ | .wdrop _ | .chadv _ | .upcall _ | .trap _ | .brk _ => true
  | .tex _ | .trace _ | .vmarch _ => true
  | _ => false

/-- Commit points after which the committed lines may still be on their way: no access of theirs follows (R160). -/
def lazyCommits : Instr → Bool
  | .region => true
  | _ => false

/-- The rod moves past its instruction. -/
def Rod.advance (r : Rod) : Rod := { r with pc := r.pc + 4, resume := 0 }

/-- The issuing rod moves past its instruction. -/
def M.advance : M Unit := onRod (modify Rod.advance)

/-- The word's own illegality is raised before any bead issues (R76). -/
def M.legal (i : Instr) : M Unit :=
  match i.illegal? with
  | none => pure ()
  | some c => throw (.trap 9 c.code none 0 0)

/-- What bars one of the rod's lines from its home, with the address (R312, R313). -/
def State.blockedLine (s : State) (u : Nat) : Option (Barred × Nat) :=
  let tent := match s.rod? u with
    | none => []
    | some r => r.tent
  s.barredBytes (tent ++ (s.inflight.filter fun i => decide (i.rod = u)).flatMap Inflight.bytes)

/-- Where the lines come from that a rod holds or has on their way. -/
def State.tagsOf (s : State) (r : Rod) : List LineTag :=
  r.tags ++ (s.inflight.filter fun i => decide (i.rod = r.uid)).flatMap Inflight.tags

/-- What a commit of the rod waits for, by what bars its byte at an address (R312, R313). -/
def State.stalledOn (s : State) (r : Rod) (b : Barred) (a : Nat) : Sleep :=
  match b with
  | .page p => .fabric p 0 r.resume
  | .port x => .tier x 0 r.resume (tierLimit (mtIn (s.tagsOf r) a))

/-- An export page that bars a write is asked for (R311). -/
def State.askBarred (s : State) : Barred → State
  | .page p => s.askPage p true
  | .port _ => s

/-- A commit point waits until the device owns the export pages that the rod's lines need, and until the CXL ports of
the others answer (R312, R313). -/
def M.ownPages : M Unit := do
  let r ← M.rod
  let s ← get
  match s.blockedLine r.uid with
  | none => pure ()
  | some (b, a) => do
    M.upd fun s => s.askBarred b
    throw (.sleep r.resume (s.stalledOn r b a) false)

/-- A commit point at the rod's position (R146): the open region is committed and a new one begins here. -/
def M.commitPoint (lazy_ : Bool) : M Unit := do
  let r ← M.rod
  (if lazy_ then pure () else M.ownPages)
  M.upd fun s => if lazy_ then s.commit r.uid else s.commitPerform r.uid
  onRod (modify Rod.openRegion)

/-- After a completed commit point the restart address is the rod's new position (R146): x + 4, but where the beads have
ended at x (EXIT, TEX, TRACE, VMARCH) and another group of the rod runs on, the address at which that group resumes
(DESIGN CHOICE, assumption 54). -/
def M.commitDone : M Unit := onRod (modify Rod.openRegion)

/-- What becomes of the rod when its instruction ends early.  After an access that the port rejects, R121 leaves open
whether the rod's later beads and instructions take effect before the fault: in the model the rod waits at the faulting
bead for the port's reply, so none does (DESIGN CHOICE, assumption 55). -/
def State.settle (s : State) (u : Nat) : Stop → State
  | .trap cls cause b info code => s.takeTrap u cls cause b info code
  | .page b va kind => s.takePage u b va kind
  | .port b cause info =>
    match s.rod? u with
    | none => s
    | some r =>
      { s.sleepRod u (beadNo b) .port false with portFaults := s.portFaults ++ [⟨u, beadNo b, r.pc, cause, BitVec.ofNat 48 info⟩] }
  | .sleep k why give => s.sleepRod u k why give
  | .settled => s

/-- The lane cycles of an instruction: one for each bead that issues, or one (R16, R17, R18). -/
def Rod.laneCycles (r : Rod) (once : Bool) : Nat := if once then 1 else max 1 r.issuing.length

/-- An instruction of the issuing rod: the legality of its word, and its effect with the commit that R146 gives it. The
effect moves the rod to its next position. -/
def performed (i : Instr) (body : M Unit) : M Unit := do
  M.legal i
  onRod (modify fun r => { r with atLive := false })
  (if commits i then (do M.commitPoint (lazyCommits i); body; M.commitDone) else body)

/-- The lane cycles that an instruction of a rod takes, by how it ended: none where the rod is held at the cell of its first
bead, so that no bead has issued, be it that the rod sleeps there or that its group gives way (R21, R32). -/
def Rod.cyclesOf (r : Rod) (once : Bool) : Except Stop Unit → Nat
  | .error (.sleep k (.cell _ _ _ _) _) => if once || decide (r.issuing.head? = some k) then 0 else r.laneCycles once
  | _ => r.laneCycles once

/-- An instruction is issued: it has its effect, with what its end leaves of the rod, and its lane cycles pass (R16); none
pass where the rod is held before its first bead (R21). -/
def issue (i : Instr) (once : Bool) (body : M Unit) (s : State) : Host.Outcome State Fault Refusal :=
  match s.curRod? with
  | none => .fault .noIssuingRod
  | some r =>
    let (x, s1) := performed i body s
    let s2 := match x with
      | .ok () => s1
      | .error e => s1.settle r.uid e
    .next (s2.tick (r.cyclesOf once x))

end Sys2Proof.Machine
end

