-- ==== Sys2Proof/Machine/Operands.lean ====
section
/-!
DEFINITION. The operands of an instruction: the registers that a field names (R41 to R48), the groups of registers
that an instruction uses, immediates, predicates and capability registers.
-/

namespace Sys2Proof.Machine

/-! ### Registers (R41 to R45) -/

/-- The physical index of a v register field (R41). -/
def Rod.phys (r : Rod) (f : BitVec 7) : Nat := r.base.toNat * 32 + f.toNat

/-- A bead of the rod. -/
def Rod.bead (r : Rod) (k : Nat) : Bead := nth ⟨[], 0, []⟩ r.beads k

/-- A bead of the rod is changed. -/
def Rod.modBead (r : Rod) (k : Nat) (f : Bead → Bead) : Rod := { r with beads := setNth r.beads k (f (r.bead k)) }

/-- The uniform register that a field names. -/
def sIndex (f : BitVec 7) : Nat := f.toNat - 96

/-- A uniform register. -/
def Rod.sreg (r : Rod) (n : Nat) : Dword := nth 0 r.s n

/-- Write a uniform register. -/
def Rod.setS (r : Rod) (n : Nat) (x : Dword) : Rod := { r with s := setNth r.s n x }

/-- A bead's v register by its field. -/
def Rod.vreg (r : Rod) (k : Nat) (f : BitVec 7) : Word := nth 0 (r.bead k).v (r.phys f)

/-- Write a bead's v register. -/
def Rod.setV (r : Rod) (k : Nat) (f : BitVec 7) (x : Word) : Rod :=
  r.modBead k fun b => { b with v := setNth b.v (r.phys f) x }

/-- The field of the register after `n` others. -/
def next (f : BitVec 7) (n : Nat) : BitVec 7 := BitVec.ofNat 7 (f.toNat + n)

/-- Two words as a dword, the lower first (R42). -/
def joinWords (lo hi : Word) : Dword := hi ++ lo

/-- The low word of a dword. -/
def loWord (x : Dword) : Word := x.setWidth 32

/-- The high word of a dword. -/
def hiWord (x : Dword) : Word := (x >>> 32).setWidth 32

/-- A 32-bit operand: a v register of the bead, or bits [31:0] of an s register (R42). -/
def Rod.word (r : Rod) (b : Option Nat) (f : BitVec 7) : Word :=
  if isS f then loWord (r.sreg (sIndex f)) else r.vreg (beadNo b) f

/-- A 64-bit operand: an even and odd v pair, or a whole s register (R42). -/
def Rod.dword (r : Rod) (b : Option Nat) (f : BitVec 7) : Dword :=
  if isS f then r.sreg (sIndex f) else joinWords (r.vreg (beadNo b) f) (r.vreg (beadNo b) (next f 1))

/-- Write a 32-bit result; in an s register bits [63:32] are cleared (R42). -/
def Rod.setWord (r : Rod) (b : Option Nat) (f : BitVec 7) (x : Word) : Rod :=
  if isS f then r.setS (sIndex f) (x.setWidth 64) else r.setV (beadNo b) f x

/-- Write a 64-bit result (R42). -/
def Rod.setDword (r : Rod) (b : Option Nat) (f : BitVec 7) (x : Dword) : Rod :=
  if isS f then r.setS (sIndex f) x
  else (r.setV (beadNo b) f (loWord x)).setV (beadNo b) (next f 1) (hiWord x)

/-- The operand as a 64-bit value, zero-extended when it has 32 bits; `w` is D of R67. -/
def Rod.operand (r : Rod) (b : Option Nat) (w : Bool) (f : BitVec 7) : Dword :=
  if w then r.dword b f else (r.word b f).setWidth 64

/-- Write a 32-bit or 64-bit result; `w` is D of R67. -/
def Rod.setOperand (r : Rod) (b : Option Nat) (w : Bool) (f : BitVec 7) (x : Dword) : Rod :=
  if w then r.setDword b f x else r.setWord b f (loWord x)

/-- `n` v registers of a bead from a field up, as words. -/
def Rod.vgroup (r : Rod) (k : Nat) (f : BitVec 7) (n : Nat) : List Word := (List.range n).map fun i => r.vreg k (next f i)

/-- Write consecutive v registers of a bead. -/
def Rod.setVgroup (r : Rod) (k : Nat) (f : BitVec 7) : List Word → Rod
  | [] => r
  | x :: xs => (r.setV k f x).setVgroup k (next f 1) xs

/-- `n` s registers from a field up. -/
def Rod.sgroup (r : Rod) (f : BitVec 7) (n : Nat) : List Dword := (List.range n).map fun i => r.sreg (sIndex f + i)

/-- Write consecutive s registers. -/
def Rod.setSgroup (r : Rod) (n : Nat) : List Dword → Rod
  | [] => r
  | x :: xs => (r.setS n x).setSgroup (n + 1) xs

/-- A 16-byte group, as a number: four v registers, or two s registers with U = 1 (R70). -/
def Rod.quad (r : Rod) (b : Option Nat) (f : BitVec 7) : BitVec 128 :=
  if isS f then r.sreg (sIndex f + 1) ++ r.sreg (sIndex f)
  else r.vreg (beadNo b) (next f 3) ++ r.vreg (beadNo b) (next f 2) ++ r.vreg (beadNo b) (next f 1) ++
    r.vreg (beadNo b) f

/-- Write a 16-byte group. -/
def Rod.setQuad (r : Rod) (b : Option Nat) (f : BitVec 7) (x : BitVec 128) : Rod :=
  if isS f then (r.setS (sIndex f) (x.setWidth 64)).setS (sIndex f + 1) ((x >>> 64).setWidth 64)
  else r.setVgroup (beadNo b) f
    [x.setWidth 32, (x >>> 32).setWidth 32, (x >>> 64).setWidth 32, (x >>> 96).setWidth 32]

/-- A 7-bit immediate, sign-extended (R63). -/
def signed7 (i : BitVec 7) : Int := i.toInt

/-- The active beads, ascending. -/
def Rod.beadsActive (r : Rod) : List Nat := bitsOf r.active

/-! ### Predicates and capability registers (R47, R48) -/

/-- A bead's predicate; p0 reads 1 (R47). -/
def Rod.pred (r : Rod) (k : Nat) (p : BitVec 3) : Bool := decide (p = 0) || (r.bead k).p.getLsbD p.toNat

/-- A predicate field with one bit replaced. -/
def setPredBit (x : BitVec 8) (p : Nat) (v : Bool) : BitVec 8 :=
  BitVec.ofNat 8 (if v then x.toNat ||| 2 ^ p else x.toNat &&& (255 - 2 ^ p))

/-- Write a bead's predicate; a write to p0 is discarded (R47). -/
def Rod.setPred (r : Rod) (k : Nat) (p : BitVec 3) (v : Bool) : Rod :=
  if p = 0 then r else r.modBead k fun b => { b with p := setPredBit b.p p.toNat v }

/-- A capability register (R48). -/
def Rod.cap (r : Rod) (n : Nat) : Cap := nth Cap.empty r.c n

/-- Write a capability register. -/
def Rod.setCap (r : Rod) (n : Nat) (c : Cap) : Rod := { r with c := setNth r.c n c }

/-! ### Special registers that are rod state (R50 to R53) -/

/-- WBASE as it reads (R53). -/
def Rod.wbaseReg (r : Rod) : BitVec 8 := BitVec.ofNat 8 (r.alloc / 32 * 8 + r.base.toNat)

/-- The window of a base is legal (R45). -/
def Rod.windowOk (r : Rod) (base : Nat) : Bool := decide (base = 0 ∨ base * 32 + 96 ≤ r.alloc)

/-- A value that MODE's control bits refuse: RM 000, or NANP 10 or 11 (R50). -/
def modeBad (x : Nat) : Bool := decide (field x 0 3 = 0 ∨ 2 ≤ field x 6 2)

/-- MODE[15:0] with its reserved bit 15 reading 0 (R50). -/
def modeControl (x : Nat) : BitVec 16 := BitVec.ofNat 16 (field x 0 15)

/-- A class code of FMT that is not reserved (R52). -/
def classOk (x : Nat) : Bool := decide (x < 5)

/-- A value that FMT refuses (R52). -/
def fmtBad (x : Nat) : Bool :=
  !classOk (field x 0 3) || !classOk (field x 3 3) || !classOk (field x 8 3) ||
    (decide (field x 6 2 = 3) && decide (field x 8 3 = 2))

/-- FMT with its reserved bits reading 0 (R52). -/
def fmtOf (x : Nat) : BitVec 16 := BitVec.ofNat 16 (field x 0 11)

/-! ### The registers that an instruction uses (R45) -/

/-- Registers of a Form M data operand (R70). -/
def dataRegs (width : BitVec 3) : Nat :=
  match width.toNat with
  | 5 => 2
  | 6 => 4
  | _ => 1

/-- One or two registers. -/
def pairRegs (w : Bool) : Nat := if w then 2 else 1

/-- The operand registers of a TEX by its ctl (R252). -/
def texOperands (ctl : BitVec 3) : Nat := if ctl.toNat = 0 ∨ ctl.toNat = 3 then 2 else 3

/-- The v registers that an instruction's fields name: each field with the number of registers from it up.  The
groups of QPOP and QPUSH depend on the queue and are checked where they are used. -/
def regGroups : Instr → List (BitVec 7 × Nat)
  | .callReg f => [(f.a, 2)]
  | .cont f | .ret f => [(f.a, 2)]
  | .upcall f => [(f.d, 4), (f.a, 4)]
  | .iadd f | .isub f | .imul f | .imad f => [(f.d, pairRegs f.w), (f.a, pairRegs f.w), (f.b, pairRegs f.w)]
  | .iaddImm f | .imulImm f => [(f.d, pairRegs f.w), (f.a, pairRegs f.w)]
  | .imulhi f | .idiv f | .irem f | .imin f | .imax f | .iclamp f | .isad f =>
    [(f.d, pairRegs f.w), (f.a, pairRegs f.w), (f.b, pairRegs f.w)]
  | .icmpS f | .icmpN f => [(f.a, pairRegs f.w), (f.b, pairRegs f.w)]
  | .idot4 f => [(f.d, 1), (f.a, 1), (f.b, 1)]
  | .iabs f | .ineg f => [(f.d, pairRegs f.w), (f.a, pairRegs f.w)]
  | .itof f => [(f.d, 1), (f.a, if 2 ≤ f.i.toNat then 2 else 1)]
  | .ftoi f => [(f.d, if 2 ≤ f.i.toNat then 2 else 1), (f.a, 1)]
  | .and f | .andn f | .or f | .xor f | .shl f | .shr f | .sra f | .bfx f | .bfi f =>
    [(f.d, pairRegs f.w), (f.a, pairRegs f.w), (f.b, pairRegs f.w)]
  | .andImm f | .orImm f | .xorImm f | .shlImm f | .shrImm f | .sraImm f =>
    [(f.d, pairRegs f.w), (f.a, pairRegs f.w)]
  | .shadd f => [(f.d, 1), (f.a, 1), (f.b, 1)]
  | .sel f => [(f.d, 1), (f.a, 1), (f.b, 1)]
  | .mov f | .clz f | .popc f | .brev f => [(f.d, pairRegs f.w), (f.a, pairRegs f.w)]
  | .movi f | .movhi f => [(f.d, 1)]
  | .ilv f | .dilv f => [(f.d, 1), (f.a, 1), (f.b, 1)]
  | .unpk3 f => [(f.d, 1), (f.a, 1), (f.b, 1)]
  | .infer f => [(f.d, 1), (f.b, 1)]
  | .tacc f => [(f.d, 1), (f.a, 1), (f.b, 1)]
  | .faddF32 f | .faddF16 f | .faddBf16 f | .fsub f | .fmulF32 f | .fmulF16 f | .fmulBf16 f
  | .fmaF32 f | .fmaF16 f | .fmaBf16 f | .hfma2F16 f | .hfma2Bf16 f => [(f.d, 1), (f.a, 1), (f.b, 1)]
  | .fcvt f => [(f.d, 1), (f.a, 1)]
  | .fmin f | .fmax f => [(f.d, 1), (f.a, 1), (f.b, 1)]
  | .fcmp f => [(f.a, 1), (f.b, 1)]
  | .ld f | .st f => [(f.d, dataRegs f.w), (f.f, pairRegs f.x)]
  | .stn f => [(f.d, 1), (f.f, pairRegs f.x)]
  | .amax64 f => [(f.d, 2), (f.f, pairRegs f.x)]
  | .ldlS f | .ldlW f | .ldlA f | .ldlC f => [(f.d, dataRegs f.w), (f.f, 1)]
  | .stlS f | .stlA f | .stlC f => [(f.d, dataRegs f.w), (f.f, 1)]
  | .acas f => [(f.d, if f.w then 4 else 2), (f.f, pairRegs f.x)]
  | .atomS32 f | .atomN32 f => [(f.d, 1), (f.f, pairRegs f.x)]
  | .atomS64 f | .atomN64 f => [(f.d, 2), (f.f, pairRegs f.x)]
  | .tex f => [(f.d, 4), (f.a, texOperands f.c)]
  | .trace f => [(f.d, 1), (f.a, 8)]
  | .vmarch f => [(f.d, 1), (f.a, 12)]
  | .ttask f => [(f.a, 8)]
  | .sumsend f => [(f.d, 1), (f.a, 1)]
  | .wbind f | .wcsr f => [(f.a, 4), (f.b, 2)]
  | .wtouch f | .wdrop f => [(f.a, 1)]
  | .rand f => [(f.d, 1), (f.a, 2), (f.b, 2)]
  | .fdiv f | .fsqrt f | .frcpF32 f | .frcpF16 f | .frsqF32 f | .frsqF16 f | .fexp2F32 f | .fexp2F16 f
  | .flog2F32 f | .flog2F16 f | .frnd f => [(f.d, 1), (f.a, 1)]
  | .fclass f => [(f.d, 1), (f.a, 1)]
  | .voteEq f => [(f.a, 1)]
  | .rodredIadd f | .rodredSmin f | .rodredSmax f | .rodredNmin f | .rodredNmax f | .rodredAnd f
  | .rodredOr f => [(f.a, 1)]
  | .rodredFadd f => [(f.a, 1)]
  | .rodscanIaddInc f | .rodscanIaddExc f => [(f.d, 1), (f.a, 1)]
  | .rodscanFaddInc f | .rodscanFaddExc f => [(f.d, 1), (f.a, 1)]
  | .shflIdx f | .shflUp f | .shflDown f | .shflXor f => [(f.d, 1), (f.a, 1)]
  | .pmovReg f => [(f.a, 1)]
  | .pxout f => [(f.d, 1)]
  | .gets f => [(f.d, if f.n.toNat = 3 then 1 else 2)]
  | .rdclk f => [(f.d, 2)]
  | .waitv f => [(f.d, 1), (f.a, 1)]
  | .waitvS64 f => [(f.d, 2), (f.a, 1)]
  | .pref f => [(f.a, 1)]
  | .edgeget f | .edgeput f => [(f.d, 2)]
  | .qblk f => [(f.d, 9), (f.a, 32)]
  | .dqblk f => [(f.d, 32), (f.a, 9)]
  | _ => []

/-- A group of v registers passes v95 or the rod's allocation (R45). -/
def Rod.beyond (r : Rod) (g : BitVec 7 × Nat) : Bool :=
  isV g.1 && decide (96 < g.1.toNat + g.2 ∨ r.alloc < r.phys g.1 + g.2)

/-- The operands of a TEX that are uniform registers pass s31, which R252 gives no cause: the model takes that of R45 (DESIGN
CHOICE, assumption 62). -/
def pastLastS : Instr → Bool
  | .tex f => isS f.a && decide (128 < f.a.toNat + texOperands f.c)
  | _ => false

/-- The first bead that issues the instruction; none when it executes once. -/
def Rod.firstBead (r : Rod) (once : Bool) : Option Nat := if once then none else some (r.issuing.headD 0)

/-- The allocation fault with cause register index, raised by the first bead that issues (R45). -/
def M.inAllocation (i : Instr) (once : Bool) : M Unit := do
  let r ← M.rod
  M.need (!((regGroups i).any fun g => r.beyond g) && !pastLastS i) (.trap 5 2 (r.firstBead once) 0 0)

/-- The word executes once for the rod: it has U = 1 (R17). -/
def uniform : Instr → Bool
  | .trap f => f.u
  | .upcall f => f.u
  | .iadd f | .isub f | .imul f | .imad f => f.u
  | .iaddImm f | .imulImm f => f.u
  | .imulhi f | .idiv f | .irem f | .imin f | .imax f | .iclamp f | .isad f => f.u
  | .idot4 f => f.u
  | .iabs f | .ineg f => f.u
  | .itof f | .ftoi f => f.u
  | .and f | .andn f | .or f | .xor f | .shl f | .shr f | .sra f | .bfx f | .bfi f => f.u
  | .andImm f | .orImm f | .xorImm f | .shlImm f | .shrImm f | .sraImm f => f.u
  | .shadd f => f.u
  | .sel f => f.u
  | .mov f | .clz f | .popc f | .brev f => f.u
  | .movi f | .movhi f => f.u
  | .ilv f | .dilv f => f.u
  | .unpk3 f | .infer f => f.u
  | .tacc f => f.u
  | .faddF32 f | .faddF16 f | .faddBf16 f | .fsub f | .fmulF32 f | .fmulF16 f | .fmulBf16 f
  | .fmaF32 f | .fmaF16 f | .fmaBf16 f | .hfma2F16 f | .hfma2Bf16 f | .fcvt f => f.u
  | .fmin f | .fmax f => f.u
  | .ld f | .st f => f.u
  | .stn f | .amax64 f => f.u
  | .ldlS f | .ldlW f | .ldlA f | .ldlC f => f.u
  | .stlS f | .stlA f | .stlC f => f.u
  | .acas f => f.u
  | .atomS32 f | .atomN32 f | .atomS64 f | .atomN64 f => f.u
  | .ttask f | .wtouch f | .wdrop f => f.u
  | .sumsend f | .fclass f | .chadv f | .edgeget f | .edgeput f | .qpop f | .qpush f => f.u
  | .wbind f | .wcsr f => f.u
  | .rand f => f.u
  | .fdiv f | .fsqrt f | .frcpF32 f | .frcpF16 f | .frsqF32 f | .frsqF16 f | .fexp2F32 f | .fexp2F16 f
  | .flog2F32 f | .flog2F16 f | .frnd f => f.u
  | .rdclk f => f.u
  | .waitv f | .waitvS64 f => f.u
  | .pref f => f.u
  | _ => false

/-- The instruction takes one lane cycle: U = 1, or a rod-wide instruction (R17, R18, R69). -/
def onceOnly : Instr → Bool
  | .illegal _ | .nop | .bra _ | .brpAll _ | .brpAny _ | .call _ | .callReg _ | .cont _ | .ret _ | .join | .exit
  | .brk _ | .trap _ | .live _ | .voteAny _ | .voteAll _ | .voteBallot _ | .region | .eret | .yield | .sets _ | .setfmt _ | .setmode _ | .wbase _ | .segld _
  | .capld _ | .capnar _ | .caprd _ | .fenceAcq _ | .fenceRel _ | .fenceAcqrel _ | .fenceSc _ | .xfence _
  | .flush _ | .flushInv _ | .bar _ | .burst _ | .sumset _ | .sumfree _ | .launch _ => true
  | .gets f => isS f.d
  | i => uniform i

/-- An instruction's registers lie in the allocation, it takes effect, and the rod moves past it. -/
def passing (i : Instr) (body : M Unit) : M Unit := do
  M.inAllocation i (onceOnly i)
  body
  M.advance

/-- An instruction that the rod moves past is issued. -/
def execute (i : Instr) (body : M Unit) (s : State) : Host.Outcome State Fault Refusal :=
  issue i (onceOnly i) (passing i body) s

/-- An instruction that says itself where the rod goes next. -/
def executeControl (i : Instr) (body : M Unit) (s : State) : Host.Outcome State Fault Refusal :=
  issue i (onceOnly i) (do M.inAllocation i (onceOnly i); body) s

/-- A commit point that is checked before it commits (R283, R406). -/
def executeChecked (i : Instr) (check body : M Unit) (s : State) : Host.Outcome State Fault Refusal :=
  executeControl i (do check; M.commitPoint false; body; M.advance; M.commitDone) s

/-- An instruction whose effect is on its own rod, bead by bead or once (R16, R17). -/
def executeBeads (i : Instr) (f : Option Nat → RM Unit) (s : State) : Host.Outcome State Fault Refusal :=
  execute i (onRod (RM.each (uniform i) f)) s

end Sys2Proof.Machine
end

