-- ==== Sys2Proof/Machine/Flags.lean ====
section
/-!
DEFINITION. The conditions that arithmetic raises, the sticky flags of MODE and the trap enables (R50, R51).
-/

namespace Sys2Proof.Machine

/-- A set of conditions, in the order of MODE[22:16]: bit 0 NX, 1 UF, 2 OF, 3 DZ, 4 NV, 5 IS, 6 PK (R50). -/
abbrev Conds := BitVec 7

/-- Inexact. -/
def Conds.nx : Conds := 1
/-- Underflow. -/
def Conds.uf : Conds := 2
/-- Overflow. -/
def Conds.of : Conds := 4
/-- Division by zero. -/
def Conds.dz : Conds := 8
/-- Invalid operation. -/
def Conds.nv : Conds := 16
/-- An integer or fixed-point result saturated. -/
def Conds.is : Conds := 32
/-- An illegal packed or reserved narrow code was decoded. -/
def Conds.pk : Conds := 64

/-- The condition when it holds, else none. -/
def Conds.when (c : Bool) (x : Conds) : Conds := if c then x else 0

/-- The conditions whose trap enable is 1: TE[12:8], TPK[13] and TIS[14] of MODE (R50). -/
def trapEnables (mode : BitVec 32) : Conds :=
  BitVec.ofNat 7 (field mode.toNat 8 5 + 32 * field mode.toNat 14 1 + 64 * field mode.toNat 13 1)

/-- The highest condition of a set: its bit number in MODE (R350). -/
def highestCond (c : Conds) : Nat := 16 + Nat.log2 c.toNat

/-- MODE with sticky flags set (R51). -/
def stick (mode : BitVec 32) (c : Conds) : BitVec 32 := mode ||| (c.setWidth 32 <<< 16)

/-- A bead's operation raises conditions: an enabled one is the breakpoint fault with cause arithmetic, before any
result is written; otherwise the sticky flags are set (R51, R350). -/
def RM.conditions (b : Option Nat) (c : Conds) : RM Unit := do
  let r ← get
  let t := c &&& trapEnables r.mode
  if t ≠ 0 then throw (.trap 3 4 b 0 (highestCond t))
  else set { r with mode := stick r.mode c }

/-- The sticky flags of a rod are set without a trap, as asynchronous work does (R205). -/
def Rod.stick (r : Rod) (c : Conds) : Rod := { r with mode := Machine.stick r.mode c }

/-- A value computed by each bead, or once, from the rod's registers, with the conditions it raises: the result goes to
a 32-bit or 64-bit destination (R34, R42, R51). -/
def executeAlu (i : Instr) (w : Bool) (d : BitVec 7) (f : Rod → Option Nat → Dword × Conds) (s : State) :
    Host.Outcome State Fault Refusal :=
  executeBeads i (fun b => do
    let r ← get
    RM.conditions b (f r b).2
    modify fun q => q.setOperand b w d (f r b).1) s

/-- A truth value computed by each bead goes to a predicate (R47). -/
def executePred (i : Instr) (d : BitVec 3) (f : Rod → Option Nat → Bool × Conds) (s : State) :
    Host.Outcome State Fault Refusal :=
  executeBeads i (fun b => do
    let r ← get
    RM.conditions b (f r b).2
    modify fun q => q.setPred (beadNo b) d (f r b).1) s

/-- Extract the low 7 bits' predicate number of a field (R64). -/
def predField (f : BitVec 7) : BitVec 3 := f.setWidth 3

end Sys2Proof.Machine
end

