-- ==== Sys2Proof/Machine/Numbers.lean ====
section
/-!
DEFINITION. The number formats and the exact arithmetic of R88 to R115: values are exact fractions, and one function
rounds an exact value to a format.
-/

namespace Sys2Proof.Machine

/-! ### Formats (R90 to R93, R98) -/

/-- The floating formats. -/
inductive Fmt where
  | f32 | f16 | bf16 | fp40 | e4m3 | e5m2 | e3m2 | e2m3 | e2m1 | tf8 | tf6
  deriving DecidableEq, Repr

/-- The shape of an IEEE-like format: exponent bits, bias, fraction bits, and the code of its largest finite
magnitude. -/
structure Shape where
  ebits : Nat
  bias : Nat
  fbits : Nat
  maxCode : Nat
  deriving DecidableEq, Repr

/-- The shape of a format (R90, R91, R98); the tapered formats have none of these, and their largest magnitude has all
bits set (R92). -/
def Fmt.shape : Fmt → Shape
  | .f32 => ⟨8, 127, 23, 0x7F7FFFFF⟩
  | .f16 => ⟨5, 15, 10, 0x7BFF⟩
  | .bf16 => ⟨8, 127, 7, 0x7F7F⟩
  | .fp40 => ⟨8, 127, 31, 0x7F7FFFFFFF⟩
  | .e4m3 => ⟨4, 7, 3, 0x7E⟩
  | .e5m2 => ⟨5, 15, 2, 0x7B⟩
  | .e3m2 => ⟨3, 3, 2, 0x1F⟩
  | .e2m3 => ⟨2, 1, 3, 0x1F⟩
  | .e2m1 => ⟨2, 1, 1, 0x7⟩
  | .tf8 => ⟨0, 0, 7, 0x7F⟩
  | .tf6 => ⟨0, 0, 5, 0x1F⟩

/-- A tapered format (R92). -/
def Fmt.tapered : Fmt → Bool
  | .tf8 | .tf6 => true
  | _ => false

/-- f32, f16 and bf16: the formats of arithmetic, on which DAZ and FTZ act (R104). -/
def Fmt.wide : Fmt → Bool
  | .f32 | .f16 | .bf16 => true
  | _ => false

/-- The format has infinities. -/
def Fmt.hasInf : Fmt → Bool
  | .f32 | .f16 | .bf16 | .fp40 | .e5m2 => true
  | _ => false

/-- The format has a NaN. -/
def Fmt.hasNan : Fmt → Bool
  | .e3m2 | .e2m3 | .e2m1 => false
  | _ => true

/-- Bits of a magnitude code. -/
def Fmt.magBits (f : Fmt) : Nat := f.shape.ebits + f.shape.fbits

/-- The canonical quiet NaN (R102). -/
def Fmt.nan : Fmt → Nat
  | .f32 => 0x7FC00000
  | .f16 => 0x7E00
  | .bf16 => 0x7FC0
  | .fp40 => 0x7FC0000000
  | .e4m3 => 0x7F
  | .e5m2 => 0x7E
  | .tf8 => 0x80
  | .tf6 => 0x20
  | _ => 0

/-! ### Values -/

/-- What a code stands for: a NaN with its sign, whether it signals, and its fraction when it carries a payload; an
infinity; or a sign and an exact magnitude `num / den`. -/
inductive Val where
  | nan (neg signals : Bool) (payload : Option (Nat × Nat))
  | inf (neg : Bool)
  | fin (neg : Bool) (num den : Nat)
  deriving DecidableEq, Repr

/-- The sign of a value. -/
def Val.neg : Val → Bool
  | .nan n _ _ => n
  | .inf n => n
  | .fin n _ _ => n

/-- The value is a NaN. -/
def Val.isNan : Val → Bool
  | .nan _ _ _ => true
  | _ => false

/-- The value is an infinity. -/
def Val.isInf : Val → Bool
  | .inf _ => true
  | _ => false

/-- The value is a signalling NaN. -/
def Val.signals : Val → Bool
  | .nan _ s _ => s
  | _ => false

/-- The value is a zero. -/
def Val.isZero : Val → Bool
  | .fin _ n _ => decide (n = 0)
  | _ => false

/-- The value with the other sign. -/
def Val.negate : Val → Val
  | .nan n s p => .nan (!n) s p
  | .inf n => .inf (!n)
  | .fin n a d => .fin (!n) a d

/-- A fraction `m * 2^e` with `e` an integer. -/
def scaled (m : Nat) (e : Int) : Nat × Nat := if 0 ≤ e then (m * 2 ^ e.toNat, 1) else (m, 2 ^ (-e).toNat)

/-- Leading bits of a `w`-bit magnitude equal to `x`, from bit `w - 1` down. -/
def runLength (m : Nat) (x : Nat) : Nat → Nat
  | 0 => 0
  | w + 1 => if field m w 1 = x then 1 + runLength m x w else 0

/-- A tapered magnitude code, in units of 2^-12 (R92). -/
def taperedScaled (w m : Nat) : Nat :=
  if m = 0 then 0
  else
    let x := field m (w - 1) 1
    let run := runLength m x w
    let k : Int := if x = 1 then (run : Int) - 1 else -(run : Int)
    let rest := w - run - 1
    let e := if 1 ≤ rest then field m (rest - 1) 1 else 0
    let nf := rest - 1
    let f := m % 2 ^ nf
    let v := scaled (2 ^ nf + f) (2 * k + e - nf + 12)
    v.1 / v.2

/-- The exact magnitude of a code of an IEEE-like format, whatever the code. -/
def Shape.magnitude (p : Shape) (c : Nat) : Nat × Nat :=
  let e := c / 2 ^ p.fbits
  let f := c % 2 ^ p.fbits
  if e = 0 then scaled f (1 - (p.bias : Int) - p.fbits)
  else scaled (2 ^ p.fbits + f) ((e : Int) - p.bias - p.fbits)

/-- The exact magnitude of a magnitude code. -/
def Fmt.magnitude (f : Fmt) (c : Nat) : Nat × Nat :=
  if f.tapered then (taperedScaled f.magBits c, 4096) else f.shape.magnitude c

/-- Decode a code (R90 to R93, R98). -/
def Fmt.decode (f : Fmt) (x : Nat) : Val :=
  let neg := decide (field x f.magBits 1 = 1)
  let m := x % 2 ^ f.magBits
  if f.tapered then
    if m = 0 && neg then .nan false false none else .fin neg (f.magnitude m).1 (f.magnitude m).2
  else if m ≤ f.shape.maxCode then .fin neg (f.magnitude m).1 (f.magnitude m).2
  else if f.hasInf && decide (m = f.shape.maxCode + 1) then .inf neg
  else
    match f with
    | .e4m3 | .e5m2 => .nan neg false none
    | _ =>
      let frac := m % 2 ^ f.shape.fbits
      .nan neg (decide (field frac (f.shape.fbits - 1) 1 = 0)) (some (frac, f.shape.fbits))

/-- A subnormal, nonzero magnitude of an IEEE-like format. -/
def Fmt.subnormal (f : Fmt) (x : Nat) : Bool :=
  !f.tapered && decide (x % 2 ^ f.magBits ≠ 0 ∧ x % 2 ^ f.magBits < 2 ^ f.shape.fbits)

/-! ### Rounding (R99 to R101) -/

/-- Rounding modes (R66). -/
inductive Rm where
  | rne | rtz | rdn | rup | rna | stochastic | odd
  deriving DecidableEq, Repr

/-- A rounding field or MODE.RM as a mode. 000 is not one (R50, R66); a saved block that memory gives can still put it
into MODE.RM, and the model then rounds to nearest even (DESIGN CHOICE, assumption 8). -/
def Rm.ofCode : Nat → Rm
  | 2 => .rtz
  | 3 => .rdn
  | 4 => .rup
  | 5 => .rna
  | 6 => .stochastic
  | 7 => .odd
  | _ => .rne

/-- What governs one rounding: the mode, the stochastic draw's 24 bits, and FTZ, DAZ, SAT and NANP of MODE. -/
structure Env where
  rm : Rm
  xi : Nat
  ftz : Bool
  daz : Bool
  sat : Bool
  nanp : Bool
  deriving DecidableEq, Repr

/-- Round to nearest even, keeping subnormals and giving canonical NaNs, as the engines do (R110, R111). -/
def Env.engine : Env := ⟨.rne, 0, false, false, false, false⟩

/-- The larger neighbour is chosen (R99): the remainder is `rn / rd`, not zero, and `lo` is the code below. -/
def Env.upward (v : Env) (neg : Bool) (lo rn rd : Nat) : Bool :=
  match v.rm with
  | .rne => decide (rd < 2 * rn ∨ (2 * rn = rd ∧ lo % 2 = 1))
  | .rna => decide (rd ≤ 2 * rn)
  | .rtz => false
  | .rdn => neg
  | .rup => !neg
  | .stochastic => decide (v.xi < rn * 2 ^ 24 / rd)
  | .odd => decide (lo % 2 = 0)

/-- An overflow rounds away from zero (R101). -/
def Env.awayOnOverflow (v : Env) (neg : Bool) : Bool :=
  match v.rm with
  | .rne | .rna | .stochastic => true
  | .rdn => neg
  | .rup => !neg
  | .rtz | .odd => false

/-- The floor of the logarithm to base 2 of a positive fraction. -/
def floorLog2 (num den : Nat) : Int :=
  let e := (Nat.log2 num : Int) - Nat.log2 den
  if 0 ≤ e then (if den * 2 ^ e.toNat ≤ num then e else e - 1)
  else if den ≤ num * 2 ^ (-e).toNat then e else e - 1

/-- The code below a positive magnitude, and the remainder as a fraction of the gap to the next code (R99). -/
def Shape.below (p : Shape) (num den : Nat) : Nat × Nat × Nat :=
  let e := max (floorLog2 num den + p.bias) 1
  let qe := e - p.bias - p.fbits
  let n := if 0 ≤ qe then num else num * 2 ^ (-qe).toNat
  let d := if 0 ≤ qe then den * 2 ^ qe.toNat else den
  ((e - 1).toNat * 2 ^ p.fbits + n / d, n % d, d)

/-- The largest tapered magnitude code, of those up to `c`, whose value is at most `x / den` (in units of 2^-12). -/
def taperedBelow (w num den : Nat) : Nat → Nat
  | 0 => 0
  | c + 1 => if taperedScaled w (c + 1) * den ≤ num * 4096 then c + 1 else taperedBelow w num den c

/-- The code below a positive magnitude and the remainder, in any format. -/
def Fmt.below (f : Fmt) (num den : Nat) : Nat × Nat × Nat :=
  if f.tapered then
    let c := taperedBelow f.magBits num den f.shape.maxCode
    let lo := taperedScaled f.magBits c
    let hi := taperedScaled f.magBits (c + 1)
    (c, num * 4096 - lo * den, (hi - lo) * den)
  else f.shape.below num den

/-- A code with a sign; the tapered formats have no negative zero (R92, R105). -/
def Fmt.withSign (f : Fmt) (neg : Bool) (m : Nat) : Nat :=
  if neg && !(f.tapered && decide (m = 0)) then m + 2 ^ f.magBits else m

/-- The result of an overflow (R101). -/
def Fmt.overflow (f : Fmt) (v : Env) (neg : Bool) : Nat × Conds :=
  let big := f.withSign neg f.shape.maxCode
  let x :=
    if !v.awayOnOverflow neg then big
    else
      match f with
      | .f32 | .f16 | .bf16 | .fp40 => f.withSign neg (f.shape.maxCode + 1)
      | .e5m2 => if v.sat then big else f.withSign neg (f.shape.maxCode + 1)
      | .e4m3 | .tf8 | .tf6 => if v.sat then big else f.nan
      | .e3m2 | .e2m3 | .e2m1 => big
  (x, Conds.of ||| Conds.nx)

/-- The smallest magnitude code that is not tiny (R101). -/
def Fmt.notTiny (f : Fmt) : Nat := if f.tapered then 1 else 2 ^ f.shape.fbits

/-- The lower neighbour of a positive magnitude, and what is left over it in units of the gap to the upper one (R99): beyond
the largest finite magnitude that one is the lower neighbour, and from the upper one on the rest is a whole gap. -/
def Fmt.neighbour (f : Fmt) (num den : Nat) : Nat × Nat × Nat :=
  let (lo, rn, rd) := f.below num den
  if f.shape.maxCode < lo then (f.shape.maxCode, 1, 1) else (lo, rn, rd)

/-- Round an exact value to a format (R99, R101, R104): the code and the conditions raised.  It overflows when the chosen
neighbour lies above the largest finite magnitude, in a tapered format whenever the value does. -/
def Fmt.round (f : Fmt) (v : Env) (neg : Bool) (num den : Nat) : Nat × Conds :=
  if num = 0 then (f.withSign neg 0, 0)
  else
    let (lo, rn, rd) := f.neighbour num den
    let top := f.shape.maxCode
    if f.tapered && decide (lo = top ∧ rn ≠ 0) then f.overflow v neg
    else
      let c := if rn ≠ 0 && v.upward neg lo rn rd then lo + 1 else lo
      if top < c then f.overflow v neg
      else
        let tiny := decide (c < f.notTiny)
        if tiny && v.ftz && f.wide then (f.withSign neg 0, Conds.uf ||| Conds.nx)
        else (f.withSign neg c, Conds.when (decide (rn ≠ 0)) Conds.nx ||| Conds.when (tiny && decide (rn ≠ 0)) Conds.uf)

/-! ### NaN results (R102, R103) -/

/-- The NaN that a NaN operand gives a result in a format, with NANP = 01 (R103). -/
def Fmt.propagate (f : Fmt) (neg : Bool) (payload : Option (Nat × Nat)) : Nat :=
  match payload, f with
  | _, .tf8 | _, .tf6 => f.nan
  | _, .e4m3 => f.withSign neg f.nan
  | none, _ => f.withSign neg f.nan
  | some (frac, width), _ =>
    let fb := f.shape.fbits
    let g := if fb ≤ width then frac / 2 ^ (width - fb) else frac * 2 ^ (fb - width)
    let q := if field g (fb - 1) 1 = 1 then g else g + 2 ^ (fb - 1)
    f.withSign neg ((2 ^ f.shape.ebits - 1) * 2 ^ fb + q)

/-- The first NaN of a list of operands. -/
def firstNan : List Val → Option (Bool × Option (Nat × Nat))
  | [] => none
  | .nan n _ p :: _ => some (n, p)
  | _ :: vs => firstNan vs

/-- A NaN result from its operands (R103); without a NaN operand it is an invalid operation. -/
def Fmt.nanResult (f : Fmt) (v : Env) (ops : List Val) : Nat × Conds :=
  match firstNan ops with
  | none => (f.nan, Conds.nv)
  | some (neg, p) =>
    (if v.nanp then f.propagate neg p else f.nan, Conds.when (ops.any Val.signals) Conds.nv)

/-! ### Exact sums and products -/

/-- A signed fraction as an integer over a denominator. -/
def signedNum (neg : Bool) (num : Nat) : Int := if neg then -(num : Int) else num

/-- The exact sum of signed fractions, as a numerator over a denominator. -/
def sumExact : List (Bool × Nat × Nat) → Int × Nat
  | [] => (0, 1)
  | (neg, n, d) :: rest =>
    let (m, e) := sumExact rest
    if d = e then (signedNum neg n + m, d) else (signedNum neg n * e + m * d, d * e)

/-- Round an exact sum; an exact zero takes the sign of R105 from its terms. -/
def Fmt.roundSum (f : Fmt) (v : Env) (terms : List (Bool × Nat × Nat)) : Nat × Conds :=
  let (m, d) := sumExact terms
  if m = 0 then
    let allNeg := terms.all fun t => t.1 && decide (t.2.1 = 0)
    let allPos := terms.all fun t => !t.1 && decide (t.2.1 = 0)
    (f.withSign (allNeg || (decide (v.rm = .rdn) && !allPos)) 0, 0)
  else f.round v (decide (m < 0)) m.natAbs d

/-- Addition of two values (R90). -/
def Fmt.add (f : Fmt) (v : Env) (x y : Val) : Nat × Conds :=
  match x, y with
  | .fin nx a d, .fin ny b e => f.roundSum v [(nx, a, d), (ny, b, e)]
  | .inf n, .inf m => if n = m then (f.withSign n (f.shape.maxCode + 1), 0) else (f.nan, Conds.nv)
  | .inf n, .fin _ _ _ | .fin _ _ _, .inf n => (f.withSign n (f.shape.maxCode + 1), 0)
  | _, _ => f.nanResult v [x, y]

/-- Multiplication of two values (R90). -/
def Fmt.mul (f : Fmt) (v : Env) (x y : Val) : Nat × Conds :=
  match x, y with
  | .fin nx a d, .fin ny b e => f.round v (nx != ny) (a * b) (d * e)
  | .inf n, .inf m => (f.withSign (n != m) (f.shape.maxCode + 1), 0)
  | .inf n, .fin m a _ | .fin m a _, .inf n =>
    if a = 0 then (f.nan, Conds.nv) else (f.withSign (n != m) (f.shape.maxCode + 1), 0)
  | _, _ => f.nanResult v [x, y]

/-- `x * y + z` with one rounding (R90, R114). -/
def Fmt.fma (f : Fmt) (v : Env) (x y z : Val) : Nat × Conds :=
  if x.isNan || y.isNan || z.isNan then f.nanResult v [x, y, z]
  else
    match x, y, z with
    | .fin nx a d, .fin ny b e, .fin nz c g => f.roundSum v [(nx != ny, a * b, d * e), (nz, c, g)]
    | .fin _ _ _, .fin _ _ _, _ => (f.withSign z.neg (f.shape.maxCode + 1), 0)
    | _, _, _ =>
      if x.isZero || y.isZero then (f.nan, Conds.nv)
      else if z.isInf && z.neg != (x.neg != y.neg) then (f.nan, Conds.nv)
      else (f.withSign (x.neg != y.neg) (f.shape.maxCode + 1), 0)

/-! ### Reading operands and converting (R104, R106, R107) -/

/-- An operand of arithmetic: with DAZ, a subnormal f32, f16 or bf16 reads as zero of its sign (R104). -/
def Fmt.read (f : Fmt) (v : Env) (x : Nat) : Val :=
  if v.daz && f.wide && f.subnormal x then .fin (decide (field x f.magBits 1 = 1)) 0 1 else f.decode x

/-- A value encoded in a format (R106). -/
def Fmt.encode (f : Fmt) (v : Env) (x : Val) : Nat × Conds :=
  match x with
  | .fin neg n d => f.round v neg n d
  | .inf neg =>
    if f.hasInf then (f.withSign neg (f.shape.maxCode + 1), 0)
    else if f.hasNan && !v.sat then (f.nan, Conds.of ||| Conds.nx)
    else (f.withSign neg f.shape.maxCode, Conds.of ||| Conds.nx)
  | .nan _ _ _ => if f.hasNan then f.nanResult v [x] else (0, Conds.nv)

/-- The integer that an exact magnitude rounds to, and whether it was inexact (R107). -/
def roundInt (v : Env) (neg : Bool) (num den : Nat) : Nat × Bool :=
  let q := num / den
  let rn := num % den
  (if rn ≠ 0 && v.upward neg q rn den then q + 1 else q, decide (rn ≠ 0))

/-- The range of an integer type of `w` bits (R88). -/
def intLo (w : Nat) (unsigned : Bool) : Int := if unsigned then 0 else -((2 ^ (w - 1) : Nat) : Int)

/-- The largest integer of a type of `w` bits. -/
def intHi (w : Nat) (unsigned : Bool) : Int :=
  if unsigned then ((2 ^ w : Nat) : Int) - 1 else ((2 ^ (w - 1) : Nat) : Int) - 1

/-- An integer clamped to a range. -/
def clampInt (lo hi x : Int) : Int := if x < lo then lo else if hi < x then hi else x

/-- A value converted to an integer type (R107). -/
def toInteger (v : Env) (w : Nat) (unsigned : Bool) : Val → Int × Conds
  | .nan _ _ _ => (0, Conds.nv)
  | .inf neg => (if neg then intLo w unsigned else intHi w unsigned, Conds.nv)
  | .fin neg num den =>
    let (m, inexact) := roundInt v neg num den
    let x := signedNum neg m
    let y := clampInt (intLo w unsigned) (intHi w unsigned) x
    if y = x then (x, Conds.when inexact Conds.nx) else (y, Conds.nv)

/-- An integer as a value. -/
def Val.ofInt (x : Int) : Val := .fin (decide (x < 0)) x.natAbs 1

/-- The integer of the low `w` bits of a number (R88). -/
def intOf (w : Nat) (unsigned : Bool) (x : Nat) : Int :=
  let y := x % 2 ^ w
  if unsigned || decide (y < 2 ^ (w - 1)) then y else (y : Int) - 2 ^ w

/-- The low `w` bits of an integer. -/
def bitsOfInt (w : Nat) (x : Int) : Nat := (x % ((2 ^ w : Nat) : Int)).toNat

/-- An exact integer result fitted to its width (R89): wrapped, or clamped with IS. -/
def fitInt (saturate unsigned : Bool) (w : Nat) (x : Int) : Nat × Conds :=
  if saturate then
    let y := clampInt (intLo w unsigned) (intHi w unsigned) x
    (bitsOfInt w y, Conds.when (decide (y ≠ x)) Conds.is)
  else (bitsOfInt w x, 0)

/-! ### The architected draw (R100, R263) -/

/-- One round of the mixing function. -/
def drawRound (x k : Nat) : Nat :=
  let x1 := (x + k) % 2 ^ 64
  let x2 := x1 ^^^ (x1 / 2 ^ 31)
  let x3 := x2 * 0xA3B195E64C2D7F0B % 2 ^ 64
  x3 ^^^ (x3 / 2 ^ 27)

/-- `n` rounds of the mixing function. -/
def drawRounds : Nat → Nat → Nat → Nat
  | 0, x, _ => x
  | n + 1, x, k => drawRounds n (drawRound x k) ((k + 0x6D2B79F50E43A1C7) % 2 ^ 64)

/-- `draw(seed, stream, index)` (R263). -/
def draw (seed stream index : Nat) : Nat :=
  let x := drawRounds 4 ((stream * 2 ^ 32 + index) % 2 ^ 64) (seed % 2 ^ 64)
  (x ^^^ (x / 2 ^ 32)) % 2 ^ 32

/-- The 24 bits of `xi` (R263): xi is this number times 2^-24. -/
def drawXi (seed stream index : Nat) : Nat := draw seed stream index / 256

/-- The BEADID of the draw (R100): the bead's, or for a uniform instruction, which no bead issues, a free value
(assumption 19). -/
def Rod.drawBead (r : Rod) (b : Option Nat) : Nat :=
  match b with
  | some k => k
  | none => Config.uniformBead r.active % 16

/-- The 24 bits of the stochastic draw of result `j` of a bead (R100). -/
def Rod.stochasticXi (r : Rod) (b : Option Nat) (op1 op2 op3 j : Nat) : Nat :=
  drawXi (op1 * 2 ^ 32 + op2) (op3 ^^^ (r.rodid.toNat * 16 + r.drawBead b)) ((field r.pc.toNat 2 32 + j) % 2 ^ 32)

/-- The rounding environment of result `j` of a bead under a rounding field (R66, R100, R103, R104). -/
def Rod.env (r : Rod) (b : Option Nat) (rounding : BitVec 3) (op1 op2 op3 j : Nat) : Env :=
  let m := r.mode.toNat
  let rm := Rm.ofCode (if rounding = 0 then field m 0 3 else rounding.toNat)
  { rm := rm
    xi := if rm = .stochastic then r.stochasticXi b op1 op2 op3 j else 0
    ftz := decide (field m 4 1 = 1)
    daz := decide (field m 3 1 = 1)
    sat := decide (field m 5 1 = 1)
    nanp := decide (field m 6 2 = 1) }

end Sys2Proof.Machine
end

