-- ==== Sys2Proof/Machine/Integer.lean ====
section
/-!
DEFINITION. The integer instructions (R371 to R376, R379): exact values, fitted to their width (R89, R351).
-/

namespace Sys2Proof.Machine

/-- The width that D selects (R67). -/
def widthOf (w : Bool) : Nat := if w then 64 else 32

/-- An integer operand, read under D and N (R351). -/
def Rod.int (r : Rod) (b : Option Nat) (w n : Bool) (f : BitVec 7) : Int := intOf (widthOf w) n (r.operand b w f).toNat

/-- An immediate, sign-extended to the width and then read under N (R63, R351). -/
def immInt (w n : Bool) (i : BitVec 7) : Int := intOf (widthOf w) n (bitsOfInt (widthOf w) (signed7 i))

/-- An exact value fitted to the width, as a result and its conditions (R89). -/
def fitResult (s n w : Bool) (x : Int) : Dword × Conds :=
  let y := fitInt s n (widthOf w) x
  (BitVec.ofNat 64 y.1, y.2)

/-- An integer written as it is, modulo the width. -/
def wrapResult (w : Bool) (x : Int) : Dword × Conds := fitResult false false w x

/-- IADD (R372). -/
def execIadd (f : ShInt) (s : State) : Host.Outcome State Fault Refusal :=
  executeAlu (.iadd f) f.w f.d (fun r b => fitResult f.s f.n f.w (r.int b f.w f.n f.a + r.int b f.w f.n f.b)) s

/-- IADD with an immediate (R372). -/
def execIaddImm (f : ShIntImm) (s : State) : Host.Outcome State Fault Refusal :=
  executeAlu (.iaddImm f) f.w f.d (fun r b => fitResult f.s f.n f.w (r.int b f.w f.n f.a + immInt f.w f.n f.i)) s

/-- ISUB (R372). -/
def execIsub (f : ShInt) (s : State) : Host.Outcome State Fault Refusal :=
  executeAlu (.isub f) f.w f.d (fun r b => fitResult f.s f.n f.w (r.int b f.w f.n f.a - r.int b f.w f.n f.b)) s

/-- IMUL (R372). -/
def execImul (f : ShInt) (s : State) : Host.Outcome State Fault Refusal :=
  executeAlu (.imul f) f.w f.d (fun r b => fitResult f.s f.n f.w (r.int b f.w f.n f.a * r.int b f.w f.n f.b)) s

/-- IMUL with an immediate (R372). -/
def execImulImm (f : ShIntImm) (s : State) : Host.Outcome State Fault Refusal :=
  executeAlu (.imulImm f) f.w f.d (fun r b => fitResult f.s f.n f.w (r.int b f.w f.n f.a * immInt f.w f.n f.i)) s

/-- The high half of an exact double-width product (R372). -/
def highHalf (w : Bool) (x : Int) : Int := x / ((2 ^ widthOf w : Nat) : Int)

/-- IMULHI (R372). -/
def execImulhi (f : ShIntNW) (s : State) : Host.Outcome State Fault Refusal :=
  executeAlu (.imulhi f) f.w f.d (fun r b =>
    wrapResult f.w (highHalf f.w (r.int b f.w f.n f.a * r.int b f.w f.n f.b))) s

/-- IMAD (R372): d is read first. -/
def execImad (f : ShInt) (s : State) : Host.Outcome State Fault Refusal :=
  executeAlu (.imad f) f.w f.d (fun r b =>
    fitResult f.s f.n f.w (r.int b f.w f.n f.a * r.int b f.w f.n f.b + r.int b f.w f.n f.d)) s

/-- The quotient of IDIV (R375): truncated; all ones and DZ on division by zero. -/
def divide (w : Bool) (x y : Int) : Dword × Conds :=
  if y = 0 then ((wrapResult w (-1)).1, Conds.dz) else wrapResult w (x.tdiv y)

/-- The remainder of IREM (R375): the sign of a; a and DZ on division by zero. -/
def remainder (w : Bool) (x y : Int) : Dword × Conds :=
  if y = 0 then ((wrapResult w x).1, Conds.dz) else wrapResult w (x.tmod y)

/-- IDIV (R375). -/
def execIdiv (f : ShIntNW) (s : State) : Host.Outcome State Fault Refusal :=
  executeAlu (.idiv f) f.w f.d (fun r b => divide f.w (r.int b f.w f.n f.a) (r.int b f.w f.n f.b)) s

/-- IREM (R375). -/
def execIrem (f : ShIntNW) (s : State) : Host.Outcome State Fault Refusal :=
  executeAlu (.irem f) f.w f.d (fun r b => remainder f.w (r.int b f.w f.n f.a) (r.int b f.w f.n f.b)) s

/-- IMIN (R373). -/
def execImin (f : ShIntNW) (s : State) : Host.Outcome State Fault Refusal :=
  executeAlu (.imin f) f.w f.d (fun r b => wrapResult f.w (min (r.int b f.w f.n f.a) (r.int b f.w f.n f.b))) s

/-- IMAX (R373). -/
def execImax (f : ShIntNW) (s : State) : Host.Outcome State Fault Refusal :=
  executeAlu (.imax f) f.w f.d (fun r b => wrapResult f.w (max (r.int b f.w f.n f.a) (r.int b f.w f.n f.b))) s

/-- ICLAMP (R373): min(max(d, a), b). -/
def execIclamp (f : ShIntNW) (s : State) : Host.Outcome State Fault Refusal :=
  executeAlu (.iclamp f) f.w f.d (fun r b =>
    wrapResult f.w (min (max (r.int b f.w f.n f.d) (r.int b f.w f.n f.a)) (r.int b f.w f.n f.b))) s

/-- An integer condition code (R68). -/
def intCond (c : BitVec 3) (x y : Int) : Bool :=
  match c.toNat with
  | 0 => decide (x = y)
  | 1 => decide (x ≠ y)
  | 2 => decide (x < y)
  | 3 => decide (x ≤ y)
  | 4 => decide (y < x)
  | _ => decide (y ≤ x)

/-- ICMP, signed (R374). -/
def execIcmpS (f : ShIcmp) (s : State) : Host.Outcome State Fault Refusal :=
  executePred (.icmpS f) f.p (fun r b => (intCond f.c (r.int b f.w false f.a) (r.int b f.w false f.b), 0)) s

/-- ICMP, unsigned (R374). -/
def execIcmpN (f : ShIcmp) (s : State) : Host.Outcome State Fault Refusal :=
  executePred (.icmpN f) f.p (fun r b => (intCond f.c (r.int b f.w true f.a) (r.int b f.w true f.b), 0)) s

/-- ISAD (R379): |a - b| + d, wrapped. -/
def execIsad (f : ShIntNW) (s : State) : Host.Outcome State Fault Refusal :=
  executeAlu (.isad f) f.w f.d (fun r b =>
    wrapResult f.w (((r.int b f.w f.n f.a - r.int b f.w f.n f.b).natAbs : Int) + r.int b f.w f.n f.d)) s

/-- Byte `i` of a word as an integer. -/
def byteInt (unsigned : Bool) (x : Word) (i : Nat) : Int := intOf 8 unsigned (field x.toNat (8 * i) 8)

/-- The sum of the four byte products of IDOT4 (R376). -/
def dot4 (unsigned : Bool) (x y : Word) : Int :=
  ((List.range 4).map fun i => byteInt unsigned x i * byteInt unsigned y i).sum

/-- IDOT4 (R376): d is read first. -/
def execIdot4 (f : ShDot) (s : State) : Host.Outcome State Fault Refusal :=
  executeAlu (.idot4 f) false f.d (fun r b =>
    fitResult f.s f.n false (r.int b false f.n f.d + dot4 f.n (r.word b f.a) (r.word b f.b))) s

/-- IABS (R371). -/
def execIabs (f : ShIntUn) (s : State) : Host.Outcome State Fault Refusal :=
  executeAlu (.iabs f) f.w f.d (fun r b => fitResult f.s false f.w ((r.int b f.w false f.a).natAbs : Int)) s

/-- INEG (R371). -/
def execIneg (f : ShIntUn) (s : State) : Host.Outcome State Fault Refusal :=
  executeAlu (.ineg f) f.w f.d (fun r b => fitResult f.s false f.w (-(r.int b f.w false f.a))) s

end Sys2Proof.Machine
end

