-- ==== Sys2Proof/Machine/Bits.lean ====
section
/-!
DEFINITION. The bitwise, shift, bit-field and ternary instructions, moves and predicate moves (R331, R336, R338,
R348, R352, R387 to R396, R408, R412, R414, R422, R428, R437).
-/

namespace Sys2Proof.Machine

/-- A result without conditions. -/
def plain (x : Dword) : Dword × Conds := (x, 0)

/-- An immediate sign-extended to 64 bits (R63). -/
def immDword (i : BitVec 7) : Dword := i.signExtend 64

/-- AND (R331). -/
def execAnd (f : ShBit) (s : State) : Host.Outcome State Fault Refusal :=
  executeAlu (.and f) f.w f.d (fun r b => plain (r.operand b f.w f.a &&& r.operand b f.w f.b)) s

/-- AND with an immediate (R331). -/
def execAndImm (f : ShBitImm) (s : State) : Host.Outcome State Fault Refusal :=
  executeAlu (.andImm f) f.w f.d (fun r b => plain (r.operand b f.w f.a &&& immDword f.i)) s

/-- ANDN (R331). -/
def execAndn (f : ShBit) (s : State) : Host.Outcome State Fault Refusal :=
  executeAlu (.andn f) f.w f.d (fun r b => plain (r.operand b f.w f.a &&& ~~~ r.operand b f.w f.b)) s

/-- OR (R391). -/
def execOr (f : ShBit) (s : State) : Host.Outcome State Fault Refusal :=
  executeAlu (.or f) f.w f.d (fun r b => plain (r.operand b f.w f.a ||| r.operand b f.w f.b)) s

/-- OR with an immediate (R391). -/
def execOrImm (f : ShBitImm) (s : State) : Host.Outcome State Fault Refusal :=
  executeAlu (.orImm f) f.w f.d (fun r b => plain (r.operand b f.w f.a ||| immDword f.i)) s

/-- XOR (R437). -/
def execXor (f : ShBit) (s : State) : Host.Outcome State Fault Refusal :=
  executeAlu (.xor f) f.w f.d (fun r b => plain (r.operand b f.w f.a ^^^ r.operand b f.w f.b)) s

/-- XOR with an immediate (R437). -/
def execXorImm (f : ShBitImm) (s : State) : Host.Outcome State Fault Refusal :=
  executeAlu (.xorImm f) f.w f.d (fun r b => plain (r.operand b f.w f.a ^^^ immDword f.i)) s

/-- Shift left by a count; 0 from the width up (R414). -/
def shiftLeft (w : Bool) (x : Dword) (c : Nat) : Dword := if widthOf w ≤ c then 0 else x <<< c

/-- Logical shift right; 0 from the width up (R414). -/
def shiftRight (w : Bool) (x : Dword) (c : Nat) : Dword := if widthOf w ≤ c then 0 else x >>> c

/-- Arithmetic shift right; copies of the sign bit from the width up (R414). -/
def shiftArith (w : Bool) (x : Dword) (c : Nat) : Dword :=
  BitVec.ofInt 64 (intOf (widthOf w) false x.toNat / ((2 ^ min c (widthOf w) : Nat) : Int))

/-- The count of a Form A shift: b[7:0] (R414). -/
def Rod.count (r : Rod) (b : Option Nat) (f : BitVec 7) : Nat := field (r.word b f).toNat 0 8

/-- SHL (R414). -/
def execShl (f : ShBit) (s : State) : Host.Outcome State Fault Refusal :=
  executeAlu (.shl f) f.w f.d (fun r b => plain (shiftLeft f.w (r.operand b f.w f.a) (r.count b f.b))) s

/-- SHL by an immediate (R414). -/
def execShlImm (f : ShBitImm) (s : State) : Host.Outcome State Fault Refusal :=
  executeAlu (.shlImm f) f.w f.d (fun r b => plain (shiftLeft f.w (r.operand b f.w f.a) f.i.toNat)) s

/-- SHR (R414). -/
def execShr (f : ShBit) (s : State) : Host.Outcome State Fault Refusal :=
  executeAlu (.shr f) f.w f.d (fun r b => plain (shiftRight f.w (r.operand b f.w f.a) (r.count b f.b))) s

/-- SHR by an immediate (R414). -/
def execShrImm (f : ShBitImm) (s : State) : Host.Outcome State Fault Refusal :=
  executeAlu (.shrImm f) f.w f.d (fun r b => plain (shiftRight f.w (r.operand b f.w f.a) f.i.toNat)) s

/-- SRA (R414). -/
def execSra (f : ShBit) (s : State) : Host.Outcome State Fault Refusal :=
  executeAlu (.sra f) f.w f.d (fun r b => plain (shiftArith f.w (r.operand b f.w f.a) (r.count b f.b))) s

/-- SRA by an immediate (R414). -/
def execSraImm (f : ShBitImm) (s : State) : Host.Outcome State Fault Refusal :=
  executeAlu (.sraImm f) f.w f.d (fun r b => plain (shiftArith f.w (r.operand b f.w f.a) f.i.toNat)) s

/-- SHADD (R412). -/
def execShadd (f : ShShadd) (s : State) : Host.Outcome State Fault Refusal :=
  executeAlu (.shadd f) false f.d (fun r b =>
    plain ((r.word b f.a <<< f.k.toNat + r.word b f.b).setWidth 64)) s

/-- SEL (R408): with U = 1 the predicate is that of the lowest active bead. -/
def execSel (f : ShSel) (s : State) : Host.Outcome State Fault Refusal :=
  executeAlu (.sel f) false f.d (fun r b =>
    plain ((if r.pred (b.getD (lowestBit r.active 0)) f.p then r.word b f.a else r.word b f.b).setWidth 64)) s

/-- MOV (R387). -/
def execMov (f : ShBitUn) (s : State) : Host.Outcome State Fault Refusal :=
  executeAlu (.mov f) f.w f.d (fun r b => plain (r.operand b f.w f.a)) s

/-- MOVI (R388): sign-extended to 32 bits, or to 64 into an s register. -/
def execMovi (f : ShMovi) (s : State) : Host.Outcome State Fault Refusal :=
  executeAlu (.movi f) (isS f.d) f.d (fun _ _ => plain (f.i.signExtend 64)) s

/-- MOVHI (R389): bits [31:15] are replaced. -/
def execMovhi (f : ShMovi) (s : State) : Host.Outcome State Fault Refusal :=
  executeAlu (.movhi f) false f.d (fun r b =>
    plain (BitVec.ofNat 64 (field (r.word b f.d).toNat 0 15 + 2 ^ 15 * f.i.toNat))) s

/-- Leading zeros of a number of `n` bits (R348). -/
def leadingZeros (n x : Nat) : Nat := if x = 0 then n else n - 1 - Nat.log2 x

/-- CLZ (R348). -/
def execClz (f : ShBitUn) (s : State) : Host.Outcome State Fault Refusal :=
  executeAlu (.clz f) f.w f.d (fun r b =>
    plain (BitVec.ofNat 64 (leadingZeros (widthOf f.w) (r.operand b f.w f.a).toNat))) s

/-- One bits of the low `n` bits of a number (R394). -/
def oneBits : Nat → Nat → Nat
  | 0, _ => 0
  | n + 1, x => x % 2 + oneBits n (x / 2)

/-- POPC (R394). -/
def execPopc (f : ShBitUn) (s : State) : Host.Outcome State Fault Refusal :=
  executeAlu (.popc f) f.w f.d (fun r b => plain (BitVec.ofNat 64 (oneBits 64 (r.operand b f.w f.a).toNat))) s

/-- The low `n` bits of a number in reverse order (R338). -/
def reverseBits : Nat → Nat → Nat
  | 0, _ => 0
  | n + 1, x => (x % 2) * 2 ^ n + reverseBits n (x / 2)

/-- BREV (R338). -/
def execBrev (f : ShBitUn) (s : State) : Host.Outcome State Fault Refusal :=
  executeAlu (.brev f) f.w f.d (fun r b =>
    plain (BitVec.ofNat 64 (reverseBits (widthOf f.w) (r.operand b f.w f.a).toNat))) s

/-- The field of BFX (R336): container `n`, container value and the b operand. -/
def extractField (n x sel : Nat) : Int :=
  let p := min (field sel 0 8) n
  let m := min (field sel 8 8) (n - p)
  if m = 0 then 0 else intOf m (decide (field sel 16 1 = 0)) (field x p m)

/-- The container after BFI (R336): container `n`, old value, value inserted and the b operand. -/
def insertField (n old x sel : Nat) : Nat :=
  let p := min (field sel 0 8) n
  let m := min (field sel 8 8) (n - p)
  old / 2 ^ (p + m) * 2 ^ (p + m) + x % 2 ^ m * 2 ^ p + old % 2 ^ p

/-- BFX (R336). -/
def execBfx (f : ShBit) (s : State) : Host.Outcome State Fault Refusal :=
  executeAlu (.bfx f) f.w f.d (fun r b =>
    plain (BitVec.ofInt 64
      (extractField (widthOf f.w) (r.operand b f.w f.a).toNat (r.operand b f.w f.b).toNat))) s

/-- BFI (R336). -/
def execBfi (f : ShBit) (s : State) : Host.Outcome State Fault Refusal :=
  executeAlu (.bfi f) f.w f.d (fun r b =>
    plain (BitVec.ofNat 64 (insertField (widthOf f.w) (r.operand b f.w f.d).toNat (r.operand b f.w f.a).toNat
      (r.operand b f.w f.b).toNat))) s

/-- Bit `i` of a word as a number. -/
def bitNat (x : Word) (i : Nat) : Nat := field x.toNat i 1

/-- The interleaved word of ILV (R352). -/
def interleave (three : Bool) (x y z : Word) : Nat :=
  if three then
    ((List.range 10).map fun i =>
      bitNat x i * 2 ^ (3 * i) + bitNat y i * 2 ^ (3 * i + 1) + bitNat z i * 2 ^ (3 * i + 2)).sum
  else ((List.range 16).map fun i => bitNat x i * 2 ^ (2 * i) + bitNat y i * 2 ^ (2 * i + 1)).sum

/-- The component of DILV (R352). -/
def deinterleave (three : Bool) (x sel : Word) : Nat :=
  let n := if three then 3 else 2
  let m := if three then 10 else 16
  let j := field sel.toNat 0 2
  if n ≤ j then 0 else ((List.range m).map fun i => bitNat x (n * i + j) * 2 ^ i).sum

/-- ILV (R352): d is read first in the three-way form. -/
def execIlv (f : ShIlv) (s : State) : Host.Outcome State Fault Refusal :=
  executeAlu (.ilv f) false f.d (fun r b =>
    plain (BitVec.ofNat 64 (interleave f.t (r.word b f.a) (r.word b f.b) (r.word b f.d)))) s

/-- DILV (R352). -/
def execDilv (f : ShIlv) (s : State) : Host.Outcome State Fault Refusal :=
  executeAlu (.dilv f) false f.d (fun r b =>
    plain (BitVec.ofNat 64 (deinterleave f.t (r.word b f.a) (r.word b f.b)))) s

/-! ### Ternary digits (R94, R422, R428) -/

/-- A t3 byte is an illegal code (R94). -/
def t3Illegal (x : Nat) : Bool := decide (243 ≤ x)

/-- Digit `i` of a t3 byte as 0, 1 or 2; an illegal byte has zero digits (R94). -/
def t3Digit (x i : Nat) : Nat := if t3Illegal x then 0 else x / 3 ^ i % 3

/-- The 2-bit code of a digit: 00, 01 for +1, 11 for -1 (R428). -/
def t3Code (d : Nat) : Nat := if d = 2 then 3 else d

/-- Byte of digit `n` of a word of twenty digits. -/
def t3Byte (x : Word) (n : Nat) : Nat := field x.toNat (8 * (n / 5)) 8

/-- The four codes of group `j` (R428). -/
def unpackT3 (x : Word) (j : Nat) : Nat :=
  if 4 < j then 0
  else ((List.range 4).map fun i => t3Code (t3Digit (t3Byte x (4 * j + i)) ((4 * j + i) % 5)) * 4 ^ i).sum

/-- A digit of group `j` lies in an illegal byte (R428). -/
def unpackIllegal (x : Word) (j : Nat) : Bool :=
  decide (j ≤ 4) && (List.range 4).any fun i => t3Illegal (t3Byte x (4 * j + i))

/-- UNPK3 (R428). -/
def execUnpk3 (f : ShUDAB) (s : State) : Host.Outcome State Fault Refusal :=
  executeAlu (.unpk3 f) false f.d (fun r b =>
    let j := field (r.word b f.b).toNat 0 3
    (BitVec.ofNat 64 (unpackT3 (r.word b f.a) j), Conds.when (unpackIllegal (r.word b f.a) j) Conds.pk)) s

/-- The value of a 2-bit ternary code; 10 reads 0 (R422). -/
def ternaryValue (c : Nat) : Int := if c = 1 then 1 else if c = 3 then -1 else 0

/-- TACC (R422): d is read first. -/
def execTacc (f : ShTacc) (s : State) : Host.Outcome State Fault Refusal :=
  executeAlu (.tacc f) false f.d (fun r b =>
    let a := (r.word b f.a).toNat
    let t := r.int b false false f.d +
      ((List.range 4).map fun i => ternaryValue (field a (2 * i) 2) * byteInt false (r.word b f.b) i).sum
    let y := fitResult f.s false false t
    (y.1, y.2 ||| Conds.when ((List.range 4).any fun i => decide (field a (2 * i) 2 = 2)) Conds.pk)) s

/-! ### Predicates (R392, R393, R396) -/

/-- An operation of PLOG (R392). -/
def predOp (c : BitVec 3) (x y : Bool) : Bool :=
  match c.toNat with
  | 0 => x && y
  | 1 => x || y
  | 2 => x != y
  | 3 => x && !y
  | 4 => x || !y
  | 5 => !(x && y)
  | 6 => !(x || y)
  | _ => x == y

/-- PLOG (R392). -/
def execPlog (f : ShPlog) (s : State) : Host.Outcome State Fault Refusal :=
  executePred (.plog f) f.d (fun r b => (predOp f.c (r.pred (beadNo b) f.a) (r.pred (beadNo b) f.b), 0)) s

/-- PMOV from a register (R393): bit 0. -/
def execPmovReg (f : ShPmovReg) (s : State) : Host.Outcome State Fault Refusal :=
  executePred (.pmovReg f) f.d (fun r b => (decide (field (r.word b f.a).toNat 0 1 = 1), 0)) s

/-- PMOV from a predicate (R393). -/
def execPmovPred (f : ShPmovPred) (s : State) : Host.Outcome State Fault Refusal :=
  executePred (.pmovPred f) f.d (fun r b => (r.pred (beadNo b) f.a, 0)) s

/-- The eight predicates of a bead as a byte; bit 0 is 1 (R396). -/
def Rod.predByte (r : Rod) (k : Nat) : BitVec 8 := (r.bead k).p ||| 1

/-- PXOUT (R396). -/
def execPxout (f : ShD) (s : State) : Host.Outcome State Fault Refusal :=
  executeAlu (.pxout f) false f.d (fun r b => plain ((r.predByte (beadNo b)).setWidth 64)) s

end Sys2Proof.Machine
end

