-- ==== Sys2Proof/Machine/Functions.lean ====
section
/-!
DEFINITION. The irrational functions: square roots, powers and logarithms of exact fractions, enclosed between two
fractions and rounded once (R99, R362, R363).
-/

namespace Sys2Proof.Machine

/-- The integer square root, bit by bit from bit `k - 1` down. -/
def isqrtFrom (n : Nat) : Nat → Nat → Nat
  | 0, r => r
  | k + 1, r => if (r + 2 ^ k) * (r + 2 ^ k) ≤ n then isqrtFrom n k (r + 2 ^ k) else isqrtFrom n k r

/-- The integer square root. -/
def isqrt (n : Nat) : Nat := isqrtFrom n (Nat.log2 n / 2 + 1) 0

/-- The square root of a fraction, cut off after 200 binary places; when it is inexact the fraction lies strictly
inside the last place, where no format has a neighbour or a tie. -/
def sqrtFraction (num den : Nat) : Nat × Nat :=
  let n := num * 4 ^ 200 / den
  let q := isqrt n
  if q * q * den = num * 4 ^ 200 then (q, 2 ^ 200) else (2 * q + 1, 2 ^ 201)

/-- An enclosure: the value lies between `lo / den` and `hi / den`. -/
structure Enclosure where
  lo : Nat
  hi : Nat
  den : Nat
  deriving DecidableEq, Repr

/-- The enclosures of 2^(2^-1), 2^(2^-2), ... multiplied for the set bits of a fraction of `m` bits: the bit of
weight 2^-i is bit `m - i`.  Fixed point with `p` places. -/
def exp2Bits (p f : Nat) : Nat → Nat → Nat → Nat → Nat → Nat × Nat
  | 0, _, _, lo, hi => (lo, hi)
  | m + 1, rlo, rhi, lo, hi =>
    let slo := isqrt (rlo * 2 ^ p)
    let shi := isqrt (rhi * 2 ^ p) + 1
    if field f m 1 = 1 then exp2Bits p f m slo shi (lo * slo / 2 ^ p) (hi * shi / 2 ^ p + 1)
    else exp2Bits p f m slo shi lo hi

/-- 2 to a fraction `f / 2^m` below 1, with `p` places. -/
def exp2Fraction (p f m : Nat) : Enclosure :=
  let (lo, hi) := exp2Bits p f m (2 ^ (p + 1)) (2 ^ (p + 1)) (2 ^ p) (2 ^ p)
  ⟨lo, hi, 2 ^ p⟩

/-- The bits of the logarithm to base 2 of a mantissa between 1 and 2, by repeated squaring with `p` places: the bits
found, and how many. -/
def log2Bits (p : Nat) : Nat → Nat → Nat → Nat → Nat → Nat × Nat
  | 0, _, _, bits, n => (bits, n)
  | k + 1, lo, hi, bits, n =>
    let slo := lo * lo / 2 ^ p
    let shi := hi * hi / 2 ^ p + 1
    if 2 ^ (p + 1) ≤ slo then log2Bits p k (slo / 2) (shi / 2 + 1) (2 * bits + 1) (n + 1)
    else if shi < 2 ^ (p + 1) then log2Bits p k slo shi (2 * bits) (n + 1)
    else (bits, n)

/-- The fractional part of the logarithm to base 2 of `num / den` scaled by `2^-e` into [1, 2), with `p` places. -/
def log2Fraction (p num den : Nat) (e : Int) : Enclosure :=
  let n := if 0 ≤ e then num else num * 2 ^ (-e).toNat
  let d := if 0 ≤ e then den * 2 ^ e.toNat else den
  let lo := n * 2 ^ p / d
  let (bits, k) := log2Bits p (p - 8) lo (lo + 1) 0 0
  ⟨bits, bits + 1, 2 ^ k⟩

/-- The precisions that are tried in turn. -/
def precisions : List Nat := [96, 192, 384, 768]

/-- Round a value that is known by enclosures of growing precision: the first one whose two ends round alike. -/
def Fmt.roundEnclosed (f : Fmt) (v : Env) (neg : Bool) (g : Nat → Enclosure) : List Nat → Nat × Conds
  | [] => f.round v neg (g 768).lo (g 768).den
  | p :: ps =>
    let e := g p
    let x := f.round v neg e.lo e.den
    if x = f.round v neg e.hi e.den then x else Fmt.roundEnclosed f v neg g ps

/-- Log2 of a denominator that is a power of two. -/
def placesOf (den : Nat) : Nat := Nat.log2 den

/-- 2 to an exact value, rounded once (R362). The operands of FEXP2 have denominators that are powers of two. -/
def Fmt.exp2 (f : Fmt) (v : Env) (neg : Bool) (num den : Nat) : Nat × Conds :=
  if 2000 * den < num then
    (if neg then f.round v false 1 (2 ^ 2000) else f.round v false (2 ^ 2000) 1)
  else
    let x := signedNum neg num
    let n := x / (den : Int)
    let fr := (x % (den : Int)).toNat
    if fr = 0 then f.round v false (scaled 1 n).1 (scaled 1 n).2
    else
      f.roundEnclosed v false (fun p =>
        let e := exp2Fraction p fr (placesOf den)
        if 0 ≤ n then ⟨e.lo * 2 ^ n.toNat, e.hi * 2 ^ n.toNat, e.den⟩ else ⟨e.lo, e.hi, e.den * 2 ^ (-n).toNat⟩)
        precisions

/-- The logarithm to base 2 of a positive fraction, rounded once (R362). -/
def Fmt.log2 (f : Fmt) (v : Env) (num den : Nat) : Nat × Conds :=
  let n := floorLog2 num den
  let s := scaled 1 n
  if num * s.2 = den * s.1 then f.round v (decide (n < 0)) n.natAbs 1
  else if 0 ≤ n then
    f.roundEnclosed v false (fun p =>
      let e := log2Fraction p num den n
      ⟨n.toNat * e.den + e.lo, n.toNat * e.den + e.hi, e.den⟩) precisions
  else
    f.roundEnclosed v true (fun p =>
      let e := log2Fraction p num den n
      ⟨(-n).toNat * e.den - e.hi, (-n).toNat * e.den - e.lo, e.den⟩) precisions

/-! ### The special operands of R363 -/

/-- An infinity of a format. -/
def Fmt.infinity (f : Fmt) (neg : Bool) : Nat := f.withSign neg (f.shape.maxCode + 1)

/-- `d ÷ a` (R362, R363); a NaN payload is taken in the order a, d. -/
def Fmt.div (f : Fmt) (v : Env) (d a : Val) : Nat × Conds :=
  match d, a with
  | .fin nd n1 d1, .fin na n2 d2 =>
    if n2 = 0 then (if n1 = 0 then (f.nan, Conds.nv) else (f.infinity (nd != na), Conds.dz))
    else f.round v (nd != na) (n1 * d2) (d1 * n2)
  | .inf nd, .fin na _ _ => (f.infinity (nd != na), 0)
  | .fin nd _ _, .inf na => (f.withSign (nd != na) 0, 0)
  | .inf _, .inf _ => (f.nan, Conds.nv)
  | _, _ => f.nanResult v [a, d]

/-- The square root (R363). -/
def Fmt.sqrt (f : Fmt) (v : Env) (a : Val) : Nat × Conds :=
  match a with
  | .nan _ _ _ => f.nanResult v [a]
  | .inf n => if n then (f.nan, Conds.nv) else (f.infinity false, 0)
  | .fin neg n d =>
    if n = 0 then (f.withSign neg 0, 0)
    else if neg then (f.nan, Conds.nv)
    else f.round v false (sqrtFraction n d).1 (sqrtFraction n d).2

/-- The reciprocal (R363). -/
def Fmt.rcp (f : Fmt) (v : Env) (a : Val) : Nat × Conds :=
  match a with
  | .nan _ _ _ => f.nanResult v [a]
  | .inf n => (f.withSign n 0, 0)
  | .fin neg n d => if n = 0 then (f.infinity neg, Conds.dz) else f.round v neg d n

/-- The reciprocal square root (R363). -/
def Fmt.rsq (f : Fmt) (v : Env) (a : Val) : Nat × Conds :=
  match a with
  | .nan _ _ _ => f.nanResult v [a]
  | .inf n => if n then (f.nan, Conds.nv) else (f.withSign false 0, 0)
  | .fin neg n d =>
    if n = 0 then (f.infinity neg, Conds.dz)
    else if neg then (f.nan, Conds.nv)
    else f.round v false (sqrtFraction d n).1 (sqrtFraction d n).2

/-- The power of two (R363). -/
def Fmt.exp2Val (f : Fmt) (v : Env) (a : Val) : Nat × Conds :=
  match a with
  | .nan _ _ _ => f.nanResult v [a]
  | .inf n => if n then (f.withSign false 0, 0) else (f.infinity false, 0)
  | .fin neg n d => f.exp2 v neg n d

/-- The logarithm to base 2 (R363). -/
def Fmt.log2Val (f : Fmt) (v : Env) (a : Val) : Nat × Conds :=
  match a with
  | .nan _ _ _ => f.nanResult v [a]
  | .inf n => if n then (f.nan, Conds.nv) else (f.infinity false, 0)
  | .fin neg n d =>
    if n = 0 then (f.infinity true, Conds.dz)
    else if neg then (f.nan, Conds.nv)
    else f.log2 v n d

end Sys2Proof.Machine
end

