-- ==== Sys2Proof/Machine/Float.lean ====
section
/-!
DEFINITION. The floating-point instructions (R350, R358 to R363, R366 to R368, R370, R380) and RAND (R400).
-/

namespace Sys2Proof.Machine

/-- A result code and its conditions as a register value. -/
def floatResult (x : Nat × Conds) : Dword × Conds := (BitVec.ofNat 64 x.1, x.2)

/-- The environment of an instruction that reads a, b and d, as far as it reads them (R100, R350).  The draw takes an operand
'as read' to be the 32 bits of its register: before DAZ, and with the bits above an f16, bf16 or narrow value, which the
arithmetic ignores (DESIGN CHOICE, assumption 59). -/
def Rod.fenv (r : Rod) (b : Option Nat) (rounding : BitVec 3) (x y z : Word) : Env :=
  r.env b rounding x.toNat y.toNat z.toNat 0

/-- An operand of a format, read from the low bits of a register under DAZ (R104, R350). -/
def Rod.fread (r : Rod) (f : Fmt) (b : Option Nat) (reg : BitVec 7) : Val :=
  f.read (r.fenv b 1 0 0 0) (r.word b reg).toNat

/-- A two-operand float instruction. -/
def float2 (op : Fmt → Env → Val → Val → Nat × Conds) (fmt : Fmt) (f : ShFlt) (r : Rod) (b : Option Nat) :
    Dword × Conds :=
  floatResult (op fmt (r.fenv b f.r (r.word b f.a) (r.word b f.b) 0) (r.fread fmt b f.a) (r.fread fmt b f.b))

/-- A fused multiply-add: d is read first. -/
def floatFma (fmt : Fmt) (f : ShFlt) (r : Rod) (b : Option Nat) : Dword × Conds :=
  floatResult (fmt.fma (r.fenv b f.r (r.word b f.a) (r.word b f.b) (r.word b f.d)) (r.fread fmt b f.a)
    (r.fread fmt b f.b) (r.fread fmt b f.d))

/-- Subtraction adds the negated operand; a NaN operand keeps its sign (R103). -/
def Fmt.sub (f : Fmt) (v : Env) (x y : Val) : Nat × Conds := f.add v x (if y.isNan then y else y.negate)

/-- FADD (R358). -/
def execFaddF32 (f : ShFlt) (s : State) : Host.Outcome State Fault Refusal :=
  executeAlu (.faddF32 f) false f.d (float2 Fmt.add .f32 f) s

/-- FADD, f16 (R358). -/
def execFaddF16 (f : ShFlt) (s : State) : Host.Outcome State Fault Refusal :=
  executeAlu (.faddF16 f) false f.d (float2 Fmt.add .f16 f) s

/-- FADD, bf16 (R358). -/
def execFaddBf16 (f : ShFlt) (s : State) : Host.Outcome State Fault Refusal :=
  executeAlu (.faddBf16 f) false f.d (float2 Fmt.add .bf16 f) s

/-- FSUB (R358). -/
def execFsub (f : ShFlt) (s : State) : Host.Outcome State Fault Refusal :=
  executeAlu (.fsub f) false f.d (float2 Fmt.sub .f32 f) s

/-- FMUL (R358). -/
def execFmulF32 (f : ShFlt) (s : State) : Host.Outcome State Fault Refusal :=
  executeAlu (.fmulF32 f) false f.d (float2 Fmt.mul .f32 f) s

/-- FMUL, f16 (R358). -/
def execFmulF16 (f : ShFlt) (s : State) : Host.Outcome State Fault Refusal :=
  executeAlu (.fmulF16 f) false f.d (float2 Fmt.mul .f16 f) s

/-- FMUL, bf16 (R358). -/
def execFmulBf16 (f : ShFlt) (s : State) : Host.Outcome State Fault Refusal :=
  executeAlu (.fmulBf16 f) false f.d (float2 Fmt.mul .bf16 f) s

/-- FMA (R358). -/
def execFmaF32 (f : ShFlt) (s : State) : Host.Outcome State Fault Refusal :=
  executeAlu (.fmaF32 f) false f.d (floatFma .f32 f) s

/-- FMA, f16 (R358). -/
def execFmaF16 (f : ShFlt) (s : State) : Host.Outcome State Fault Refusal :=
  executeAlu (.fmaF16 f) false f.d (floatFma .f16 f) s

/-- FMA, bf16 (R358). -/
def execFmaBf16 (f : ShFlt) (s : State) : Host.Outcome State Fault Refusal :=
  executeAlu (.fmaBf16 f) false f.d (floatFma .bf16 f) s

/-- The high half of a word. -/
def highHalfword (x : Word) : Nat := field x.toNat 16 16

/-- The two fused multiply-adds of HFMA2 (R370): the low half is result 0, the high half result 1. -/
def packedFma (fmt : Fmt) (f : ShFlt) (r : Rod) (b : Option Nat) : Dword × Conds :=
  let x := r.word b f.a
  let y := r.word b f.b
  let z := r.word b f.d
  let env := fun j => r.env b f.r x.toNat y.toNat z.toNat j
  let lo := fmt.fma (env 0) (fmt.read (env 0) x.toNat) (fmt.read (env 0) y.toNat) (fmt.read (env 0) z.toNat)
  let hi := fmt.fma (env 1) (fmt.read (env 1) (highHalfword x)) (fmt.read (env 1) (highHalfword y))
    (fmt.read (env 1) (highHalfword z))
  (BitVec.ofNat 64 (lo.1 + hi.1 * 2 ^ 16), lo.2 ||| hi.2)

/-- HFMA2, f16 (R370). -/
def execHfma2F16 (f : ShFlt) (s : State) : Host.Outcome State Fault Refusal :=
  executeAlu (.hfma2F16 f) false f.d (packedFma .f16 f) s

/-- HFMA2, bf16 (R370). -/
def execHfma2Bf16 (f : ShFlt) (s : State) : Host.Outcome State Fault Refusal :=
  executeAlu (.hfma2Bf16 f) false f.d (packedFma .bf16 f) s

/-! ### Comparison -/

/-- The first value is less than the second; neither is a NaN, and the zeros are equal. -/
def Val.less : Val → Val → Bool
  | .fin nx a d, .fin ny b e => decide (signedNum nx a * e < signedNum ny b * d)
  | .inf n, .fin _ _ _ => n
  | .fin _ _ _, .inf n => !n
  | .inf n, .inf m => n && !m
  | _, _ => false

/-- The two values are equal; neither is a NaN. -/
def Val.same (x y : Val) : Bool := !x.less y && !y.less x

/-- A float condition code (R68, R360), with the invalid condition. -/
def floatCond (c : BitVec 3) (x y : Val) : Bool × Conds :=
  let unordered := x.isNan || y.isNan
  let ordering := decide (2 ≤ c.toNat ∧ c.toNat ≤ 5)
  let nv := Conds.when (x.signals || y.signals || (unordered && ordering)) Conds.nv
  let v := match c.toNat with
    | 0 => !unordered && x.same y
    | 1 => unordered || !x.same y
    | 2 => !unordered && x.less y
    | 3 => !unordered && !y.less x
    | 4 => !unordered && y.less x
    | 5 => !unordered && !x.less y
    | 6 => !unordered
    | _ => unordered
  (v, nv)

/-- FCMP (R360). -/
def execFcmp (f : ShFcmp) (s : State) : Host.Outcome State Fault Refusal :=
  executePred (.fcmp f) f.p (fun r b => floatCond f.c (r.fread .f32 b f.a) (r.fread .f32 b f.b)) s

/-- The value is less, with -0 less than +0 (R366). -/
def Val.below (x y : Val) : Bool := x.less y || (x.same y && x.neg && !y.neg)

/-- A value that is not rounded, as an f32 code. -/
def exactF32 (x : Val) : Nat :=
  match x with
  | .fin neg n d => (Fmt.f32.round Env.engine neg n d).1
  | .inf neg => Fmt.f32.infinity neg
  | .nan _ _ _ => Fmt.f32.nan

/-- FMIN and FMAX (R366): `n` propagates NaN, and `less` chooses the first operand. -/
def pick (v : Env) (n : Bool) (less : Val → Val → Bool) (x y : Val) : Nat × Conds :=
  let nv := Conds.when (x.signals || y.signals) Conds.nv
  if x.isNan && y.isNan then Fmt.f32.nanResult v [x, y]
  else if x.isNan || y.isNan then
    (if n then Fmt.f32.nanResult v [x, y] else (exactF32 (if x.isNan then y else x), nv))
  else (exactF32 (if less x y then x else y), 0)

/-- FMIN (R366). -/
def execFmin (f : ShFminmax) (s : State) : Host.Outcome State Fault Refusal :=
  executeAlu (.fmin f) false f.d (fun r b =>
    floatResult (pick (r.fenv b 1 0 0 0) f.n Val.below (r.fread .f32 b f.a) (r.fread .f32 b f.b))) s

/-- FMAX (R366). -/
def execFmax (f : ShFminmax) (s : State) : Host.Outcome State Fault Refusal :=
  executeAlu (.fmax f) false f.d (fun r b =>
    floatResult (pick (r.fenv b 1 0 0 0) f.n (fun x y => y.below x) (r.fread .f32 b f.a) (r.fread .f32 b f.b))) s

/-- The class mask of FCLASS (R359), of the operand as stored. -/
def classMask (x : Nat) : Nat :=
  match Fmt.f32.decode x with
  | .nan _ signals _ => if signals then 2 ^ 8 else 2 ^ 9
  | .inf neg => if neg then 1 else 2 ^ 7
  | .fin neg n _ =>
    if n = 0 then (if neg then 2 ^ 3 else 2 ^ 4)
    else if Fmt.f32.subnormal x then (if neg then 2 ^ 2 else 2 ^ 5)
    else if neg then 2 else 2 ^ 6

/-- FCLASS (R359). -/
def execFclass (f : ShUDA) (s : State) : Host.Outcome State Fault Refusal :=
  executeAlu (.fclass f) false f.d (fun r b => (BitVec.ofNat 64 (classMask (r.word b f.a).toNat), 0)) s

/-! ### Conversion -/

/-- The format codes of FCVT (R72). -/
def fmtOfCode : Nat → Fmt
  | 0 => .f32
  | 1 => .f16
  | 2 => .bf16
  | 3 => .e4m3
  | 4 => .e5m2
  | 5 => .e3m2
  | 6 => .e2m3
  | 7 => .e2m1
  | 8 => .tf8
  | _ => .tf6

/-- FCVT (R361): b is 10 times the source format plus the destination format. -/
def execFcvt (f : ShFlt) (s : State) : Host.Outcome State Fault Refusal :=
  executeAlu (.fcvt f) false f.d (fun r b =>
    floatResult ((fmtOfCode (f.b.toNat % 10)).encode (r.fenv b f.r (r.word b f.a) 0 0)
      (r.fread (fmtOfCode (f.b.toNat / 10)) b f.a))) s

/-- The float types of ITOF and FTOI (R72). -/
def convFloat (c : BitVec 2) : Fmt := if c.toNat = 0 then .f32 else if c.toNat = 1 then .f16 else .bf16

/-- The integer type has 64 bits (R72). -/
def convWide (c : BitVec 2) : Bool := decide (2 ≤ c.toNat)

/-- The integer type is unsigned (R72). -/
def convUnsigned (c : BitVec 2) : Bool := decide (c.toNat % 2 = 1)

/-- op(1) of R100 for an operand of 32 or 64 bits. -/
def foldOperand (w : Bool) (x : Dword) : Nat := if w then (loWord x ^^^ hiWord x).toNat else x.toNat

/-- ITOF (R380). -/
def execItof (f : ShConv) (s : State) : Host.Outcome State Fault Refusal :=
  executeAlu (.itof f) false f.d (fun r b =>
    let w := convWide f.i
    let x := r.operand b w f.a
    let v := r.env b f.r (foldOperand w x) 0 0 0
    floatResult ((convFloat f.f).encode v (.ofInt (intOf (widthOf w) (convUnsigned f.i) x.toNat)))) s

/-- FTOI (R368). -/
def execFtoi (f : ShConv) (s : State) : Host.Outcome State Fault Refusal :=
  executeAlu (.ftoi f) (convWide f.i) f.d (fun r b =>
    let y := toInteger (r.fenv b f.r (r.word b f.a) 0 0) (widthOf (convWide f.i)) (convUnsigned f.i)
      (r.fread (convFloat f.f) b f.a)
    (BitVec.ofInt 64 y.1, y.2)) s

/-- Rounding to an integral value (R107, R367). -/
def integral (v : Env) (x : Val) : Nat × Conds :=
  match x with
  | .nan _ _ _ => Fmt.f32.nanResult v [x]
  | .inf neg => (Fmt.f32.infinity neg, 0)
  | .fin neg n d =>
    let (m, inexact) := roundInt v neg n d
    ((Fmt.f32.round Env.engine neg m 1).1, Conds.when inexact Conds.nx)

/-- FRND (R367). -/
def execFrnd (f : ShFltUn) (s : State) : Host.Outcome State Fault Refusal :=
  executeAlu (.frnd f) false f.d (fun r b =>
    floatResult (integral (r.fenv b f.r (r.word b f.a) 0 0) (r.fread .f32 b f.a))) s

/-! ### Functions -/

/-- A function of one operand. -/
def float1 (op : Fmt → Env → Val → Nat × Conds) (fmt : Fmt) (f : ShFltUn) (r : Rod) (b : Option Nat) :
    Dword × Conds :=
  floatResult (op fmt (r.fenv b f.r (r.word b f.a) 0 0) (r.fread fmt b f.a))

/-- FDIV (R362): d is read first. -/
def execFdiv (f : ShFltUn) (s : State) : Host.Outcome State Fault Refusal :=
  executeAlu (.fdiv f) false f.d (fun r b =>
    floatResult (Fmt.f32.div (r.fenv b f.r (r.word b f.a) 0 (r.word b f.d)) (r.fread .f32 b f.d)
      (r.fread .f32 b f.a))) s

/-- FSQRT (R362). -/
def execFsqrt (f : ShFltUn) (s : State) : Host.Outcome State Fault Refusal :=
  executeAlu (.fsqrt f) false f.d (float1 Fmt.sqrt .f32 f) s

/-- FRCP (R362). -/
def execFrcpF32 (f : ShFltUn) (s : State) : Host.Outcome State Fault Refusal :=
  executeAlu (.frcpF32 f) false f.d (float1 Fmt.rcp .f32 f) s

/-- FRCP, f16 (R362). -/
def execFrcpF16 (f : ShFltUn) (s : State) : Host.Outcome State Fault Refusal :=
  executeAlu (.frcpF16 f) false f.d (float1 Fmt.rcp .f16 f) s

/-- FRSQ (R362). -/
def execFrsqF32 (f : ShFltUn) (s : State) : Host.Outcome State Fault Refusal :=
  executeAlu (.frsqF32 f) false f.d (float1 Fmt.rsq .f32 f) s

/-- FRSQ, f16 (R362). -/
def execFrsqF16 (f : ShFltUn) (s : State) : Host.Outcome State Fault Refusal :=
  executeAlu (.frsqF16 f) false f.d (float1 Fmt.rsq .f16 f) s

/-- FEXP2 (R362). -/
def execFexp2F32 (f : ShFltUn) (s : State) : Host.Outcome State Fault Refusal :=
  executeAlu (.fexp2F32 f) false f.d (float1 Fmt.exp2Val .f32 f) s

/-- FEXP2, f16 (R362). -/
def execFexp2F16 (f : ShFltUn) (s : State) : Host.Outcome State Fault Refusal :=
  executeAlu (.fexp2F16 f) false f.d (float1 Fmt.exp2Val .f16 f) s

/-- FLOG2 (R362). -/
def execFlog2F32 (f : ShFltUn) (s : State) : Host.Outcome State Fault Refusal :=
  executeAlu (.flog2F32 f) false f.d (float1 Fmt.log2Val .f32 f) s

/-- FLOG2, f16 (R362). -/
def execFlog2F16 (f : ShFltUn) (s : State) : Host.Outcome State Fault Refusal :=
  executeAlu (.flog2F16 f) false f.d (float1 Fmt.log2Val .f16 f) s

/-! ### The random draw -/

/-- RAND (R400): the index is in b and the stream in b + 1, or in the halves of an s register. -/
def execRand (f : ShRand) (s : State) : Host.Outcome State Fault Refusal :=
  executeAlu (.rand f) false f.d (fun r b =>
    let ix := r.dword b f.b
    let x := draw (r.dword b f.a).toNat (hiWord ix).toNat (loWord ix).toNat
    let y := if f.c then (Fmt.f32.round Env.engine false (x / 256) (2 ^ 24)).1 else x
    (BitVec.ofNat 64 y, 0)) s

end Sys2Proof.Machine
end

