-- ==== Sys2Proof/Machine/Blocks.lean ====
section
/-!
DEFINITION. Block scaling: families, the decoding of blocks, and QBLK and DQBLK (R95 to R97, R108, R109, R353, R354,
R397, R398).
-/

namespace Sys2Proof.Machine

/-- An element family: a float format, a two's complement integer of some bits, or a ternary digit (R95, R96). -/
inductive Family where
  | float (f : Fmt)
  | int (bits : Nat)
  | ternary
  deriving DecidableEq, Repr

/-- The element width of a block-scaled class (R52); none for f16, bf16 and the reserved codes. -/
def blockWidth (cls : Nat) : Option Nat :=
  match cls with
  | 0 => some 8
  | 1 => some 6
  | 2 => some 4
  | _ => none

/-- The family of a tag, by element width (R96); none for the reserved 4-bit tag. -/
def familyOf (width tag : Nat) : Option Family :=
  match width, tag with
  | 8, 0 => some (.float .tf8)
  | 8, 1 => some (.float .e4m3)
  | 8, 2 => some (.float .e5m2)
  | 8, _ => some (.int 8)
  | 6, 0 => some (.float .tf6)
  | 6, 1 => some (.float .e3m2)
  | 6, 2 => some (.float .e2m3)
  | 6, _ => some (.int 6)
  | _, 0 => some (.float .e2m1)
  | _, 1 => some (.int 4)
  | _, 2 => some .ternary
  | _, _ => none

/-- emax of a family (R108). -/
def Family.emax : Family → Int
  | .float .e4m3 => 8
  | .float .e5m2 => 15
  | .float .e3m2 => 4
  | .float .e2m3 => 2
  | .float .e2m1 => 2
  | .float .tf8 => 12
  | .float .tf6 => 8
  | .float _ => 0
  | .int 8 => 6
  | .int 6 => 4
  | .int _ => 2
  | .ternary => 0

/-- One element's value in its family, and whether its code is illegal (R91, R95, R97). -/
def Family.element (f : Family) (code : Nat) : Val × Bool :=
  match f with
  | .float g => (g.decode code, false)
  | .int n => (.ofInt (intOf n false code), false)
  | .ternary =>
    if code = 1 then (.ofInt 1, false)
    else if code = 2 then (.ofInt (-1), false)
    else (.fin false 0 1, decide (code ≠ 0))

/-- A value times 2^e, exactly. -/
def Val.scale (x : Val) (e : Int) : Val :=
  match x with
  | .fin neg n d => if 0 ≤ e then .fin neg (n * 2 ^ e.toNat) d else .fin neg n (d * 2 ^ (-e).toNat)
  | y => y

/-- The 32 values of a block (R97), given as one number, under its scale record; a malformed record and an illegal code
raise PK.  Where R97's clauses meet, the model takes the first in the order reserved bits, reserved tag, SCALE = 255: a
malformed record with SCALE = 255 gives zeros and PK, and with SCALE = 255 every element is NaN and no code is looked at
(DESIGN CHOICE, assumption 58). -/
def decodeBlock (width block rec' : Nat) : List Val × Conds :=
  if field rec' 10 6 ≠ 0 then (List.replicate 32 (.fin false 0 1), Conds.pk)
  else
    match familyOf width (field rec' 8 2) with
    | none => (List.replicate 32 (.fin false 0 1), Conds.pk)
    | some fam =>
      let scale := field rec' 0 8
      if scale = 255 then (List.replicate 32 (.nan false false none), 0)
      else
        let xs := (List.range 32).map fun i => fam.element (field block (width * i) width)
        (xs.map fun x => x.1.scale ((scale : Int) - 127), Conds.when (xs.any Prod.snd) Conds.pk)

/-- Words as one number, the first lowest. -/
def natOfWords : List Word → Nat
  | [] => 0
  | w :: ws => w.toNat + 2 ^ 32 * natOfWords ws

/-- `n` words of a number, the lowest first. -/
def wordsOfNat : Nat → Nat → List Word
  | 0, _ => []
  | n + 1, x => BitVec.ofNat 32 x :: wordsOfNat n (x / 2 ^ 32)

/-- One element rounded into a float family (R108): beyond the largest magnitude it is that magnitude, with OF and
NX. 'Beyond' is said of the rounded value: one that R99 and R101 round back to the largest magnitude sets NX alone
(DESIGN CHOICE, assumption 60). -/
def quantiseFloat (g : Fmt) (v : Env) (neg : Bool) (n d : Nat) : Nat × Conds :=
  g.round { v with sat := true, ftz := false } neg n d |> fun x =>
    if x.2 &&& Conds.of ≠ 0 then (g.withSign neg g.shape.maxCode, x.2) else x

/-- One element rounded into an integer family and clamped (R108). -/
def quantiseInt (lo hi : Int) (v : Env) (neg : Bool) (n d : Nat) : Int × Conds :=
  let (m, inexact) := roundInt v neg n d
  let x := signedNum neg m
  let y := clampInt lo hi x
  (y, Conds.when inexact Conds.nx ||| Conds.when (decide (y ≠ x)) (Conds.of ||| Conds.nx))

/-- One element's code (R108); zero gives +0. -/
def Family.quantise (f : Family) (v : Env) (neg : Bool) (n d : Nat) : Nat × Conds :=
  if n = 0 then (0, 0)
  else
    match f with
    | .float g => quantiseFloat g v neg n d
    | .int b =>
      let (y, c) := quantiseInt (intLo b false) (intHi b false) v neg n d
      (bitsOfInt b y, c)
    | .ternary =>
      let (y, c) := quantiseInt (-1) 1 v neg n d
      (if y = -1 then 2 else y.toNat, c)

/-- Floor of log2 of the greatest magnitude of a list of finite values, none if all are zero. -/
def maxExponent : List Val → Option Int
  | [] => none
  | .fin _ n d :: vs =>
    if n = 0 then maxExponent vs
    else
      match maxExponent vs with
      | none => some (floorLog2 n d)
      | some e => some (max (floorLog2 n d) e)
  | _ :: vs => maxExponent vs

/-- The 32 codes of a quantised block, its scale record and the conditions (R108); `env i` rounds element i. -/
def quantiseBlock (fam : Family) (tag : Nat) (env : Nat → Env) (xs : List Val) : List Nat × Nat × Conds :=
  if xs.any fun x => x.isNan || x.isInf then (List.replicate 32 0, 255 + 256 * tag, Conds.nv)
  else
    let scale : Int :=
      match maxExponent xs with
      | none => 127
      | some e => clampInt 0 254 (e - fam.emax + 127)
    let ys := (List.range 32).map fun i =>
      match (nth (.fin false 0 1) xs i).scale (127 - scale) with
      | .fin neg n d => fam.quantise (env i) neg n d
      | _ => (0, 0)
    (ys.map Prod.fst, scale.toNat + 256 * tag, ys.foldl (fun c y => c ||| y.2) 0)

/-- Codes of `w` bits packed into one number, the first lowest. -/
def packCodes (w : Nat) : List Nat → Nat
  | [] => 0
  | x :: xs => x % 2 ^ w + 2 ^ w * packCodes w xs

/-- The class and tag of a block conversion: the width and family that FMT selects, or an illegal encoding (R354,
R398). -/
def Rod.blockFamily (r : Rod) : Option (Nat × Nat × Family) :=
  match blockWidth (field r.fmt.toNat 8 3) with
  | none => none
  | some w =>
    match familyOf w (field r.fmt.toNat 6 2) with
    | none => none
    | some fam => some (w, field r.fmt.toNat 6 2, fam)

/-- QBLK (R397, R398). -/
def execQblk (f : ShRDA) (s : State) : Host.Outcome State Fault Refusal :=
  executeBeads (.qblk f) (fun b => do
    let r ← get
    match r.blockFamily with
    | none => throw (.trap 9 4 b 0 0)
    | some (w, tag, fam) =>
      let src := r.vgroup (beadNo b) f.a 32
      let env := fun i => r.env b f.r (nth 0 src i).toNat 0 0 i
      let q := quantiseBlock fam tag env (src.map fun x => Fmt.f32.read (env 0) x.toNat)
      RM.conditions b q.2.2
      modify fun r => r.setVgroup (beadNo b) f.d
        (wordsOfNat 8 (packCodes w q.1) ++ [BitVec.ofNat 32 q.2.1])) s

/-- One value of a dequantised block as f32 (R109, R354). -/
def dequantised (v : Env) (x : Val) : Nat × Conds :=
  match x with
  | .nan _ _ _ => (0x7FC00000, 0)
  | y => Fmt.f32.encode v y

/-- DQBLK (R353, R354): element i rounds with result j = i, whose op(1) is the register that holds its bits. -/
def execDqblk (f : ShRDA) (s : State) : Host.Outcome State Fault Refusal :=
  executeBeads (.dqblk f) (fun b => do
    let r ← get
    match blockWidth (field r.fmt.toNat 8 3) with
    | none => throw (.trap 9 4 b 0 0)
    | some w =>
      let src := r.vgroup (beadNo b) f.a 9
      let rec' := nth 0 src 8
      let (xs, pk) := decodeBlock w (natOfWords (src.take w)) (field rec'.toNat 0 16)
      let ys := (List.range 32).map fun i =>
        dequantised (r.env b f.r (nth 0 src (w * i / 32)).toNat rec'.toNat 0 i) (nth (.fin false 0 1) xs i)
      RM.conditions b (ys.foldl (fun c y => c ||| y.2) pk)
      modify fun r => r.setVgroup (beadNo b) f.d (ys.map fun y => BitVec.ofNat 32 y.1)) s

end Sys2Proof.Machine
end

