-- ==== Sys2Proof/WellFormed.lean ====
section
/-!
DEFINITION. A well-formed instruction: one whose fields no rule of R76 makes an illegal encoding.
-/

namespace Sys2Proof

/-- The instruction breaks none of the rules that R76 lists. -/
def Instr.wellFormed (i : Instr) : Bool := decide (i.illegal? = none)

/-- The constructor stands for an instruction word, and not for a step that a unit of the device takes on its
own: the row of the opcode table gives it bits. -/
def Instr.isWord : Instr → Bool
  | .scoreboardWriteback _ => false
  | .timerExpiry _ => false
  | .yieldHoldEnd _ => false
  | .waitvMonitorWake _ => false
  | .waitvSleepTimeout _ => false
  | .frameRetire _ => false
  | .engineHaltStop _ => false
  | .haltRecordWrite _ => false
  | .abortTokenReceive _ _ _ _ => false
  | .pageWalkComplete => false
  | .faultRecordWrite => false
  | .portRevokedFault => false
  | .dieUpdateApply _ _ => false
  | .dieStampToken _ _ => false
  | .readExclusiveUpgrade => false
  | .flushWalkComplete _ => false
  | .shootdown _ => false
  | .resolve _ => false
  | .deliver _ => false
  | .assignEngine _ => false
  | .releaseEngine _ => false
  | .setGroup _ => false
  | .saveRequest _ => false
  | .restoreRequest _ => false
  | .upcallReply _ => false
  | .copyCellLand _ _ => false
  | .wdropComplete _ _ => false
  | .gatherElementLand _ _ => false
  | .chainEntryStart _ => false
  | .chainEntryComplete _ => false
  | .taskPick _ => false
  | .governorGrant _ => false
  | .rampUpComplete _ _ => false
  | .taskUnitComplete _ _ => false
  | .taskDoneWrite _ _ => false
  | .grantReturn _ _ => false
  | .burstEnd _ => false
  | .inferComplete _ _ => false
  | .slotReserveRequest _ => false
  | .reservationReply _ => false
  | .slotOpen _ => false
  | .creditRequest _ => false
  | .creditReply _ => false
  | .transferApply _ _ => false
  | .slotWake _ _ _ => false
  | .triangleEntry _ => false
  | .textureResult _ => false
  | .traceResult _ => false
  | .marchResult _ => false
  | .contGatherTimeout _ => false
  | .dispatchLoop _ => false
  | .queueClaim _ _ _ _ => false
  | .queueRelease _ _ _ _ _ => false
  | .queueBound _ _ _ => false
  | .queuePass _ _ _ => false
  | .bindRecord _ _ => false
  | .boardReservation _ => false
  | .launchFabricDelivery _ _ _ _ => false
  | .hostAccess _ _ _ => false
  | .pageGrant => false
  | .directoryRecall _ => false
  | .stallTimeout _ => false
  | .powerOn => false
  | .systemBlockAddress _ => false
  | .firmwareUpdate _ _ => false
  | .spdmRequest _ => false
  | .sensorSample _ _ _ _ => false
  | .grantCountAdjust _ => false
  | .thermalTrip => false
  | .alarm _ => false
  | .reservedOpcode _ => false
  | .reckonerAccess _ _ _ => false
  | .homePerform _ => false
  | .instructionCacheFill _ => false
  | _ => true

end Sys2Proof
end

