-- ==== Sys2Proof/Decode.lean ====
section
/-!
DEFINITION. The decoder of Hemrod words and, after it, the encoder (R61 to R76).

A word is read as a number with bit 0 its least significant bit.  For each set of fields the table uses, `bits`
places the fields and `ofBits` reads them back; a word whose other bits are not those of its row lies outside every
assigned pattern and is refused.
-/

namespace Sys2Proof

/-- Bit `n` of a word. -/
def bitOf (w n : Nat) : Bool := decide (field w n 1 = 1)

/-- The fields of ShIllegal, placed. -/
def ShIllegal.bits (f : ShIllegal) : Nat := f.x.toNat

/-- The fields of ShIllegal, read from a word. -/
def ShIllegal.ofBits (w : Nat) : ShIllegal :=
  ⟨BitVec.ofNat 25 (field w 0 25)⟩

/-- The fields of ShBranch, placed. -/
def ShBranch.bits (f : ShBranch) : Nat := f.p.toNat * 2 ^ 21 + f.s.toNat * 2 ^ 20 + f.o.toNat

/-- The fields of ShBranch, read from a word. -/
def ShBranch.ofBits (w : Nat) : ShBranch :=
  ⟨BitVec.ofNat 3 (field w 21 3), bitOf w 20, BitVec.ofNat 20 (field w 0 20)⟩

/-- The fields of ShCall, placed. -/
def ShCall.bits (f : ShCall) : Nat := f.o.toNat

/-- The fields of ShCall, read from a word. -/
def ShCall.ofBits (w : Nat) : ShCall :=
  ⟨BitVec.ofNat 20 (field w 0 20)⟩

/-- The fields of ShDA, placed. -/
def ShDA.bits (f : ShDA) : Nat := f.d.toNat * 2 ^ 14 + f.a.toNat * 2 ^ 7

/-- The fields of ShDA, read from a word. -/
def ShDA.ofBits (w : Nat) : ShDA :=
  ⟨BitVec.ofNat 7 (field w 14 7), BitVec.ofNat 7 (field w 7 7)⟩

/-- The fields of ShA, placed. -/
def ShA.bits (f : ShA) : Nat := f.a.toNat * 2 ^ 7

/-- The fields of ShA, read from a word. -/
def ShA.ofBits (w : Nat) : ShA :=
  ⟨BitVec.ofNat 7 (field w 7 7)⟩

/-- The fields of ShCode, placed. -/
def ShCode.bits (f : ShCode) : Nat := f.i.toNat

/-- The fields of ShCode, read from a word. -/
def ShCode.ofBits (w : Nat) : ShCode :=
  ⟨BitVec.ofNat 17 (field w 0 17)⟩

/-- The fields of ShUCode, placed. -/
def ShUCode.bits (f : ShUCode) : Nat := f.u.toNat * 2 ^ 24 + f.i.toNat

/-- The fields of ShUCode, read from a word. -/
def ShUCode.ofBits (w : Nat) : ShUCode :=
  ⟨bitOf w 24, BitVec.ofNat 17 (field w 0 17)⟩

/-- The fields of ShUpcall, placed. -/
def ShUpcall.bits (f : ShUpcall) : Nat := f.u.toNat * 2 ^ 24 + f.d.toNat * 2 ^ 14 + f.a.toNat * 2 ^ 7 + f.i.toNat

/-- The fields of ShUpcall, read from a word. -/
def ShUpcall.ofBits (w : Nat) : ShUpcall :=
  ⟨bitOf w 24, BitVec.ofNat 7 (field w 14 7), BitVec.ofNat 7 (field w 7 7), BitVec.ofNat 7 (field w 0 7)⟩

/-- The fields of ShInt, placed. -/
def ShInt.bits (f : ShInt) : Nat := f.u.toNat * 2 ^ 24 + f.s.toNat * 2 ^ 23 + f.n.toNat * 2 ^ 22 + f.w.toNat * 2 ^ 21 + f.d.toNat * 2 ^ 14 + f.a.toNat * 2 ^ 7 + f.b.toNat

/-- The fields of ShInt, read from a word. -/
def ShInt.ofBits (w : Nat) : ShInt :=
  ⟨bitOf w 24, bitOf w 23, bitOf w 22, bitOf w 21, BitVec.ofNat 7 (field w 14 7), BitVec.ofNat 7 (field w 7 7), BitVec.ofNat 7 (field w 0 7)⟩

/-- The fields of ShIntImm, placed. -/
def ShIntImm.bits (f : ShIntImm) : Nat := f.u.toNat * 2 ^ 24 + f.s.toNat * 2 ^ 23 + f.n.toNat * 2 ^ 22 + f.w.toNat * 2 ^ 21 + f.d.toNat * 2 ^ 14 + f.a.toNat * 2 ^ 7 + f.i.toNat

/-- The fields of ShIntImm, read from a word. -/
def ShIntImm.ofBits (w : Nat) : ShIntImm :=
  ⟨bitOf w 24, bitOf w 23, bitOf w 22, bitOf w 21, BitVec.ofNat 7 (field w 14 7), BitVec.ofNat 7 (field w 7 7), BitVec.ofNat 7 (field w 0 7)⟩

/-- The fields of ShIntNW, placed. -/
def ShIntNW.bits (f : ShIntNW) : Nat := f.u.toNat * 2 ^ 24 + f.n.toNat * 2 ^ 22 + f.w.toNat * 2 ^ 21 + f.d.toNat * 2 ^ 14 + f.a.toNat * 2 ^ 7 + f.b.toNat

/-- The fields of ShIntNW, read from a word. -/
def ShIntNW.ofBits (w : Nat) : ShIntNW :=
  ⟨bitOf w 24, bitOf w 22, bitOf w 21, BitVec.ofNat 7 (field w 14 7), BitVec.ofNat 7 (field w 7 7), BitVec.ofNat 7 (field w 0 7)⟩

/-- The fields of ShIcmp, placed. -/
def ShIcmp.bits (f : ShIcmp) : Nat := f.c.toNat * 2 ^ 21 + f.w.toNat * 2 ^ 17 + f.p.toNat * 2 ^ 14 + f.a.toNat * 2 ^ 7 + f.b.toNat

/-- The fields of ShIcmp, read from a word. -/
def ShIcmp.ofBits (w : Nat) : ShIcmp :=
  ⟨BitVec.ofNat 3 (field w 21 3), bitOf w 17, BitVec.ofNat 3 (field w 14 3), BitVec.ofNat 7 (field w 7 7), BitVec.ofNat 7 (field w 0 7)⟩

/-- The fields of ShDot, placed. -/
def ShDot.bits (f : ShDot) : Nat := f.u.toNat * 2 ^ 24 + f.s.toNat * 2 ^ 23 + f.n.toNat * 2 ^ 22 + f.d.toNat * 2 ^ 14 + f.a.toNat * 2 ^ 7 + f.b.toNat

/-- The fields of ShDot, read from a word. -/
def ShDot.ofBits (w : Nat) : ShDot :=
  ⟨bitOf w 24, bitOf w 23, bitOf w 22, BitVec.ofNat 7 (field w 14 7), BitVec.ofNat 7 (field w 7 7), BitVec.ofNat 7 (field w 0 7)⟩

/-- The fields of ShIntUn, placed. -/
def ShIntUn.bits (f : ShIntUn) : Nat := f.u.toNat * 2 ^ 24 + f.s.toNat * 2 ^ 23 + f.w.toNat * 2 ^ 21 + f.d.toNat * 2 ^ 14 + f.a.toNat * 2 ^ 7

/-- The fields of ShIntUn, read from a word. -/
def ShIntUn.ofBits (w : Nat) : ShIntUn :=
  ⟨bitOf w 24, bitOf w 23, bitOf w 21, BitVec.ofNat 7 (field w 14 7), BitVec.ofNat 7 (field w 7 7)⟩

/-- The fields of ShConv, placed. -/
def ShConv.bits (f : ShConv) : Nat := f.u.toNat * 2 ^ 24 + f.r.toNat * 2 ^ 21 + f.d.toNat * 2 ^ 14 + f.a.toNat * 2 ^ 7 + f.f.toNat * 2 ^ 2 + f.i.toNat

/-- The fields of ShConv, read from a word. -/
def ShConv.ofBits (w : Nat) : ShConv :=
  ⟨bitOf w 24, BitVec.ofNat 3 (field w 21 3), BitVec.ofNat 7 (field w 14 7), BitVec.ofNat 7 (field w 7 7), BitVec.ofNat 2 (field w 2 2), BitVec.ofNat 2 (field w 0 2)⟩

/-- The fields of ShBit, placed. -/
def ShBit.bits (f : ShBit) : Nat := f.u.toNat * 2 ^ 24 + f.w.toNat * 2 ^ 21 + f.d.toNat * 2 ^ 14 + f.a.toNat * 2 ^ 7 + f.b.toNat

/-- The fields of ShBit, read from a word. -/
def ShBit.ofBits (w : Nat) : ShBit :=
  ⟨bitOf w 24, bitOf w 21, BitVec.ofNat 7 (field w 14 7), BitVec.ofNat 7 (field w 7 7), BitVec.ofNat 7 (field w 0 7)⟩

/-- The fields of ShBitImm, placed. -/
def ShBitImm.bits (f : ShBitImm) : Nat := f.u.toNat * 2 ^ 24 + f.w.toNat * 2 ^ 21 + f.d.toNat * 2 ^ 14 + f.a.toNat * 2 ^ 7 + f.i.toNat

/-- The fields of ShBitImm, read from a word. -/
def ShBitImm.ofBits (w : Nat) : ShBitImm :=
  ⟨bitOf w 24, bitOf w 21, BitVec.ofNat 7 (field w 14 7), BitVec.ofNat 7 (field w 7 7), BitVec.ofNat 7 (field w 0 7)⟩

/-- The fields of ShShadd, placed. -/
def ShShadd.bits (f : ShShadd) : Nat := f.u.toNat * 2 ^ 24 + f.k.toNat * 2 ^ 21 + f.d.toNat * 2 ^ 14 + f.a.toNat * 2 ^ 7 + f.b.toNat

/-- The fields of ShShadd, read from a word. -/
def ShShadd.ofBits (w : Nat) : ShShadd :=
  ⟨bitOf w 24, BitVec.ofNat 3 (field w 21 3), BitVec.ofNat 7 (field w 14 7), BitVec.ofNat 7 (field w 7 7), BitVec.ofNat 7 (field w 0 7)⟩

/-- The fields of ShSel, placed. -/
def ShSel.bits (f : ShSel) : Nat := f.u.toNat * 2 ^ 24 + f.p.toNat * 2 ^ 21 + f.d.toNat * 2 ^ 14 + f.a.toNat * 2 ^ 7 + f.b.toNat

/-- The fields of ShSel, read from a word. -/
def ShSel.ofBits (w : Nat) : ShSel :=
  ⟨bitOf w 24, BitVec.ofNat 3 (field w 21 3), BitVec.ofNat 7 (field w 14 7), BitVec.ofNat 7 (field w 7 7), BitVec.ofNat 7 (field w 0 7)⟩

/-- The fields of ShBitUn, placed. -/
def ShBitUn.bits (f : ShBitUn) : Nat := f.u.toNat * 2 ^ 24 + f.w.toNat * 2 ^ 21 + f.d.toNat * 2 ^ 14 + f.a.toNat * 2 ^ 7

/-- The fields of ShBitUn, read from a word. -/
def ShBitUn.ofBits (w : Nat) : ShBitUn :=
  ⟨bitOf w 24, bitOf w 21, BitVec.ofNat 7 (field w 14 7), BitVec.ofNat 7 (field w 7 7)⟩

/-- The fields of ShMovi, placed. -/
def ShMovi.bits (f : ShMovi) : Nat := f.u.toNat * 2 ^ 24 + f.d.toNat * 2 ^ 17 + f.i.toNat

/-- The fields of ShMovi, read from a word. -/
def ShMovi.ofBits (w : Nat) : ShMovi :=
  ⟨bitOf w 24, BitVec.ofNat 7 (field w 17 7), BitVec.ofNat 17 (field w 0 17)⟩

/-- The fields of ShIlv, placed. -/
def ShIlv.bits (f : ShIlv) : Nat := f.u.toNat * 2 ^ 24 + f.t.toNat * 2 ^ 21 + f.d.toNat * 2 ^ 14 + f.a.toNat * 2 ^ 7 + f.b.toNat

/-- The fields of ShIlv, read from a word. -/
def ShIlv.ofBits (w : Nat) : ShIlv :=
  ⟨bitOf w 24, bitOf w 21, BitVec.ofNat 7 (field w 14 7), BitVec.ofNat 7 (field w 7 7), BitVec.ofNat 7 (field w 0 7)⟩

/-- The fields of ShUDAB, placed. -/
def ShUDAB.bits (f : ShUDAB) : Nat := f.u.toNat * 2 ^ 24 + f.d.toNat * 2 ^ 14 + f.a.toNat * 2 ^ 7 + f.b.toNat

/-- The fields of ShUDAB, read from a word. -/
def ShUDAB.ofBits (w : Nat) : ShUDAB :=
  ⟨bitOf w 24, BitVec.ofNat 7 (field w 14 7), BitVec.ofNat 7 (field w 7 7), BitVec.ofNat 7 (field w 0 7)⟩

/-- The fields of ShTacc, placed. -/
def ShTacc.bits (f : ShTacc) : Nat := f.u.toNat * 2 ^ 24 + f.s.toNat * 2 ^ 23 + f.d.toNat * 2 ^ 14 + f.a.toNat * 2 ^ 7 + f.b.toNat

/-- The fields of ShTacc, read from a word. -/
def ShTacc.ofBits (w : Nat) : ShTacc :=
  ⟨bitOf w 24, bitOf w 23, BitVec.ofNat 7 (field w 14 7), BitVec.ofNat 7 (field w 7 7), BitVec.ofNat 7 (field w 0 7)⟩

/-- The fields of ShPlog, placed. -/
def ShPlog.bits (f : ShPlog) : Nat := f.c.toNat * 2 ^ 21 + f.d.toNat * 2 ^ 14 + f.a.toNat * 2 ^ 7 + f.b.toNat

/-- The fields of ShPlog, read from a word. -/
def ShPlog.ofBits (w : Nat) : ShPlog :=
  ⟨BitVec.ofNat 3 (field w 21 3), BitVec.ofNat 3 (field w 14 3), BitVec.ofNat 3 (field w 7 3), BitVec.ofNat 3 (field w 0 3)⟩

/-- The fields of ShFlt, placed. -/
def ShFlt.bits (f : ShFlt) : Nat := f.u.toNat * 2 ^ 24 + f.r.toNat * 2 ^ 21 + f.d.toNat * 2 ^ 14 + f.a.toNat * 2 ^ 7 + f.b.toNat

/-- The fields of ShFlt, read from a word. -/
def ShFlt.ofBits (w : Nat) : ShFlt :=
  ⟨bitOf w 24, BitVec.ofNat 3 (field w 21 3), BitVec.ofNat 7 (field w 14 7), BitVec.ofNat 7 (field w 7 7), BitVec.ofNat 7 (field w 0 7)⟩

/-- The fields of ShFminmax, placed. -/
def ShFminmax.bits (f : ShFminmax) : Nat := f.u.toNat * 2 ^ 24 + f.n.toNat * 2 ^ 21 + f.d.toNat * 2 ^ 14 + f.a.toNat * 2 ^ 7 + f.b.toNat

/-- The fields of ShFminmax, read from a word. -/
def ShFminmax.ofBits (w : Nat) : ShFminmax :=
  ⟨bitOf w 24, bitOf w 21, BitVec.ofNat 7 (field w 14 7), BitVec.ofNat 7 (field w 7 7), BitVec.ofNat 7 (field w 0 7)⟩

/-- The fields of ShFcmp, placed. -/
def ShFcmp.bits (f : ShFcmp) : Nat := f.c.toNat * 2 ^ 21 + f.p.toNat * 2 ^ 14 + f.a.toNat * 2 ^ 7 + f.b.toNat

/-- The fields of ShFcmp, read from a word. -/
def ShFcmp.ofBits (w : Nat) : ShFcmp :=
  ⟨BitVec.ofNat 3 (field w 21 3), BitVec.ofNat 3 (field w 14 3), BitVec.ofNat 7 (field w 7 7), BitVec.ofNat 7 (field w 0 7)⟩

/-- The fields of ShMem, placed. -/
def ShMem.bits (f : ShMem) : Nat := f.u.toNat * 2 ^ 24 + f.w.toNat * 2 ^ 21 + f.d.toNat * 2 ^ 14 + f.c.toNat * 2 ^ 10 + f.o.toNat * 2 ^ 8 + f.x.toNat * 2 ^ 7 + f.f.toNat

/-- The fields of ShMem, read from a word. -/
def ShMem.ofBits (w : Nat) : ShMem :=
  ⟨bitOf w 24, BitVec.ofNat 3 (field w 21 3), BitVec.ofNat 7 (field w 14 7), BitVec.ofNat 4 (field w 10 4), BitVec.ofNat 2 (field w 8 2), bitOf w 7, BitVec.ofNat 7 (field w 0 7)⟩

/-- The fields of ShMemNW, placed. -/
def ShMemNW.bits (f : ShMemNW) : Nat := f.u.toNat * 2 ^ 24 + f.d.toNat * 2 ^ 14 + f.c.toNat * 2 ^ 10 + f.o.toNat * 2 ^ 8 + f.x.toNat * 2 ^ 7 + f.f.toNat

/-- The fields of ShMemNW, read from a word. -/
def ShMemNW.ofBits (w : Nat) : ShMemNW :=
  ⟨bitOf w 24, BitVec.ofNat 7 (field w 14 7), BitVec.ofNat 4 (field w 10 4), BitVec.ofNat 2 (field w 8 2), bitOf w 7, BitVec.ofNat 7 (field w 0 7)⟩

/-- The fields of ShLdl, placed. -/
def ShLdl.bits (f : ShLdl) : Nat := f.u.toNat * 2 ^ 24 + f.w.toNat * 2 ^ 21 + f.d.toNat * 2 ^ 14 + f.q.toNat * 2 ^ 12 + f.f.toNat

/-- The fields of ShLdl, read from a word. -/
def ShLdl.ofBits (w : Nat) : ShLdl :=
  ⟨bitOf w 24, BitVec.ofNat 3 (field w 21 3), BitVec.ofNat 7 (field w 14 7), BitVec.ofNat 2 (field w 12 2), BitVec.ofNat 7 (field w 0 7)⟩

/-- The fields of ShStl, placed. -/
def ShStl.bits (f : ShStl) : Nat := f.u.toNat * 2 ^ 24 + f.w.toNat * 2 ^ 21 + f.d.toNat * 2 ^ 14 + f.f.toNat

/-- The fields of ShStl, read from a word. -/
def ShStl.ofBits (w : Nat) : ShStl :=
  ⟨bitOf w 24, BitVec.ofNat 3 (field w 21 3), BitVec.ofNat 7 (field w 14 7), BitVec.ofNat 7 (field w 0 7)⟩

/-- The fields of ShAcas, placed. -/
def ShAcas.bits (f : ShAcas) : Nat := f.u.toNat * 2 ^ 24 + f.w.toNat * 2 ^ 21 + f.d.toNat * 2 ^ 14 + f.c.toNat * 2 ^ 10 + f.o.toNat * 2 ^ 8 + f.x.toNat * 2 ^ 7 + f.f.toNat

/-- The fields of ShAcas, read from a word. -/
def ShAcas.ofBits (w : Nat) : ShAcas :=
  ⟨bitOf w 24, bitOf w 21, BitVec.ofNat 7 (field w 14 7), BitVec.ofNat 4 (field w 10 4), BitVec.ofNat 2 (field w 8 2), bitOf w 7, BitVec.ofNat 7 (field w 0 7)⟩

/-- The fields of ShAtom, placed. -/
def ShAtom.bits (f : ShAtom) : Nat := f.u.toNat * 2 ^ 24 + f.p.toNat * 2 ^ 21 + f.d.toNat * 2 ^ 14 + f.c.toNat * 2 ^ 10 + f.o.toNat * 2 ^ 8 + f.x.toNat * 2 ^ 7 + f.f.toNat

/-- The fields of ShAtom, read from a word. -/
def ShAtom.ofBits (w : Nat) : ShAtom :=
  ⟨bitOf w 24, BitVec.ofNat 3 (field w 21 3), BitVec.ofNat 7 (field w 14 7), BitVec.ofNat 4 (field w 10 4), BitVec.ofNat 2 (field w 8 2), bitOf w 7, BitVec.ofNat 7 (field w 0 7)⟩

/-- The fields of ShTex, placed. -/
def ShTex.bits (f : ShTex) : Nat := f.c.toNat * 2 ^ 21 + f.d.toNat * 2 ^ 14 + f.a.toNat * 2 ^ 7 + f.b.toNat

/-- The fields of ShTex, read from a word. -/
def ShTex.ofBits (w : Nat) : ShTex :=
  ⟨BitVec.ofNat 3 (field w 21 3), BitVec.ofNat 7 (field w 14 7), BitVec.ofNat 7 (field w 7 7), BitVec.ofNat 7 (field w 0 7)⟩

/-- The fields of ShTrace, placed. -/
def ShTrace.bits (f : ShTrace) : Nat := f.c.toNat * 2 ^ 21 + f.d.toNat * 2 ^ 14 + f.a.toNat * 2 ^ 7 + f.b.toNat

/-- The fields of ShTrace, read from a word. -/
def ShTrace.ofBits (w : Nat) : ShTrace :=
  ⟨bitOf w 21, BitVec.ofNat 7 (field w 14 7), BitVec.ofNat 7 (field w 7 7), BitVec.ofNat 7 (field w 0 7)⟩

/-- The fields of ShDAB, placed. -/
def ShDAB.bits (f : ShDAB) : Nat := f.d.toNat * 2 ^ 14 + f.a.toNat * 2 ^ 7 + f.b.toNat

/-- The fields of ShDAB, read from a word. -/
def ShDAB.ofBits (w : Nat) : ShDAB :=
  ⟨BitVec.ofNat 7 (field w 14 7), BitVec.ofNat 7 (field w 7 7), BitVec.ofNat 7 (field w 0 7)⟩

/-- The fields of ShUA, placed. -/
def ShUA.bits (f : ShUA) : Nat := f.u.toNat * 2 ^ 24 + f.a.toNat * 2 ^ 7

/-- The fields of ShUA, read from a word. -/
def ShUA.ofBits (w : Nat) : ShUA :=
  ⟨bitOf w 24, BitVec.ofNat 7 (field w 7 7)⟩

/-- The fields of ShSumset, placed. -/
def ShSumset.bits (f : ShSumset) : Nat := f.f.toNat * 2 ^ 21 + f.d.toNat * 2 ^ 14 + f.a.toNat * 2 ^ 7 + f.b.toNat

/-- The fields of ShSumset, read from a word. -/
def ShSumset.ofBits (w : Nat) : ShSumset :=
  ⟨bitOf w 21, BitVec.ofNat 7 (field w 14 7), BitVec.ofNat 7 (field w 7 7), BitVec.ofNat 7 (field w 0 7)⟩

/-- The fields of ShUDA, placed. -/
def ShUDA.bits (f : ShUDA) : Nat := f.u.toNat * 2 ^ 24 + f.d.toNat * 2 ^ 14 + f.a.toNat * 2 ^ 7

/-- The fields of ShUDA, read from a word. -/
def ShUDA.ofBits (w : Nat) : ShUDA :=
  ⟨bitOf w 24, BitVec.ofNat 7 (field w 14 7), BitVec.ofNat 7 (field w 7 7)⟩

/-- The fields of ShWbind, placed. -/
def ShWbind.bits (f : ShWbind) : Nat := f.u.toNat * 2 ^ 24 + f.c.toNat * 2 ^ 14 + f.a.toNat * 2 ^ 7 + f.b.toNat

/-- The fields of ShWbind, read from a word. -/
def ShWbind.ofBits (w : Nat) : ShWbind :=
  ⟨bitOf w 24, BitVec.ofNat 4 (field w 14 4), BitVec.ofNat 7 (field w 7 7), BitVec.ofNat 7 (field w 0 7)⟩

/-- The fields of ShRand, placed. -/
def ShRand.bits (f : ShRand) : Nat := f.u.toNat * 2 ^ 24 + f.c.toNat * 2 ^ 21 + f.d.toNat * 2 ^ 14 + f.a.toNat * 2 ^ 7 + f.b.toNat

/-- The fields of ShRand, read from a word. -/
def ShRand.ofBits (w : Nat) : ShRand :=
  ⟨bitOf w 24, bitOf w 21, BitVec.ofNat 7 (field w 14 7), BitVec.ofNat 7 (field w 7 7), BitVec.ofNat 7 (field w 0 7)⟩

/-- The fields of ShCapld, placed. -/
def ShCapld.bits (f : ShCapld) : Nat := f.d.toNat * 2 ^ 14 + f.a.toNat * 2 ^ 7

/-- The fields of ShCapld, read from a word. -/
def ShCapld.ofBits (w : Nat) : ShCapld :=
  ⟨BitVec.ofNat 4 (field w 14 4), BitVec.ofNat 7 (field w 7 7)⟩

/-- The fields of ShCapnar, placed. -/
def ShCapnar.bits (f : ShCapnar) : Nat := f.d.toNat * 2 ^ 14 + f.s.toNat * 2 ^ 7 + f.b.toNat

/-- The fields of ShCapnar, read from a word. -/
def ShCapnar.ofBits (w : Nat) : ShCapnar :=
  ⟨BitVec.ofNat 4 (field w 14 4), BitVec.ofNat 4 (field w 7 4), BitVec.ofNat 7 (field w 0 7)⟩

/-- The fields of ShFltUn, placed. -/
def ShFltUn.bits (f : ShFltUn) : Nat := f.u.toNat * 2 ^ 24 + f.r.toNat * 2 ^ 21 + f.d.toNat * 2 ^ 14 + f.a.toNat * 2 ^ 7

/-- The fields of ShFltUn, read from a word. -/
def ShFltUn.ofBits (w : Nat) : ShFltUn :=
  ⟨bitOf w 24, BitVec.ofNat 3 (field w 21 3), BitVec.ofNat 7 (field w 14 7), BitVec.ofNat 7 (field w 7 7)⟩

/-- The fields of ShVote, placed. -/
def ShVote.bits (f : ShVote) : Nat := f.d.toNat * 2 ^ 14 + f.p.toNat * 2 ^ 7

/-- The fields of ShVote, read from a word. -/
def ShVote.ofBits (w : Nat) : ShVote :=
  ⟨BitVec.ofNat 7 (field w 14 7), BitVec.ofNat 3 (field w 7 3)⟩

/-- The fields of ShRDA, placed. -/
def ShRDA.bits (f : ShRDA) : Nat := f.r.toNat * 2 ^ 21 + f.d.toNat * 2 ^ 14 + f.a.toNat * 2 ^ 7

/-- The fields of ShRDA, read from a word. -/
def ShRDA.ofBits (w : Nat) : ShRDA :=
  ⟨BitVec.ofNat 3 (field w 21 3), BitVec.ofNat 7 (field w 14 7), BitVec.ofNat 7 (field w 7 7)⟩

/-- The fields of ShPmovReg, placed. -/
def ShPmovReg.bits (f : ShPmovReg) : Nat := f.d.toNat * 2 ^ 14 + f.a.toNat * 2 ^ 7

/-- The fields of ShPmovReg, read from a word. -/
def ShPmovReg.ofBits (w : Nat) : ShPmovReg :=
  ⟨BitVec.ofNat 3 (field w 14 3), BitVec.ofNat 7 (field w 7 7)⟩

/-- The fields of ShPmovPred, placed. -/
def ShPmovPred.bits (f : ShPmovPred) : Nat := f.d.toNat * 2 ^ 14 + f.a.toNat * 2 ^ 7

/-- The fields of ShPmovPred, read from a word. -/
def ShPmovPred.ofBits (w : Nat) : ShPmovPred :=
  ⟨BitVec.ofNat 3 (field w 14 3), BitVec.ofNat 3 (field w 7 3)⟩

/-- The fields of ShD, placed. -/
def ShD.bits (f : ShD) : Nat := f.d.toNat * 2 ^ 14

/-- The fields of ShD, read from a word. -/
def ShD.ofBits (w : Nat) : ShD :=
  ⟨BitVec.ofNat 7 (field w 14 7)⟩

/-- The fields of ShGets, placed. -/
def ShGets.bits (f : ShGets) : Nat := f.d.toNat * 2 ^ 14 + f.n.toNat * 2 ^ 7

/-- The fields of ShGets, read from a word. -/
def ShGets.ofBits (w : Nat) : ShGets :=
  ⟨BitVec.ofNat 7 (field w 14 7), BitVec.ofNat 7 (field w 7 7)⟩

/-- The fields of ShSets, placed. -/
def ShSets.bits (f : ShSets) : Nat := f.n.toNat * 2 ^ 14 + f.a.toNat * 2 ^ 7

/-- The fields of ShSets, read from a word. -/
def ShSets.ofBits (w : Nat) : ShSets :=
  ⟨BitVec.ofNat 7 (field w 14 7), BitVec.ofNat 7 (field w 7 7)⟩

/-- The fields of ShUD, placed. -/
def ShUD.bits (f : ShUD) : Nat := f.u.toNat * 2 ^ 24 + f.d.toNat * 2 ^ 14

/-- The fields of ShUD, read from a word. -/
def ShUD.ofBits (w : Nat) : ShUD :=
  ⟨bitOf w 24, BitVec.ofNat 7 (field w 14 7)⟩

/-- The fields of ShSetmode, placed. -/
def ShSetmode.bits (f : ShSetmode) : Nat := f.c.toNat * 2 ^ 21 + f.a.toNat * 2 ^ 7

/-- The fields of ShSetmode, read from a word. -/
def ShSetmode.ofBits (w : Nat) : ShSetmode :=
  ⟨BitVec.ofNat 3 (field w 21 3), BitVec.ofNat 7 (field w 7 7)⟩

/-- The fields of ShWbase, placed. -/
def ShWbase.bits (f : ShWbase) : Nat := f.b.toNat * 2 ^ 21

/-- The fields of ShWbase, read from a word. -/
def ShWbase.ofBits (w : Nat) : ShWbase :=
  ⟨BitVec.ofNat 3 (field w 21 3)⟩

/-- The fields of ShSegld, placed. -/
def ShSegld.bits (f : ShSegld) : Nat := f.k.toNat * 2 ^ 14 + f.a.toNat * 2 ^ 7

/-- The fields of ShSegld, read from a word. -/
def ShSegld.ofBits (w : Nat) : ShSegld :=
  ⟨BitVec.ofNat 2 (field w 14 2), BitVec.ofNat 7 (field w 7 7)⟩

/-- The fields of ShCaprd, placed. -/
def ShCaprd.bits (f : ShCaprd) : Nat := f.c.toNat * 2 ^ 21 + f.d.toNat * 2 ^ 14 + f.k.toNat * 2 ^ 7

/-- The fields of ShCaprd, read from a word. -/
def ShCaprd.ofBits (w : Nat) : ShCaprd :=
  ⟨BitVec.ofNat 2 (field w 21 2), BitVec.ofNat 7 (field w 14 7), BitVec.ofNat 4 (field w 7 4)⟩

/-- The fields of ShScope, placed. -/
def ShScope.bits (f : ShScope) : Nat := f.s.toNat * 2 ^ 21

/-- The fields of ShScope, read from a word. -/
def ShScope.ofBits (w : Nat) : ShScope :=
  ⟨BitVec.ofNat 3 (field w 21 3)⟩

/-- The fields of ShXfence, placed. -/
def ShXfence.bits (f : ShXfence) : Nat := f.s.toNat * 2 ^ 21 + f.f.toNat * 2 ^ 14 + f.t.toNat * 2 ^ 7

/-- The fields of ShXfence, read from a word. -/
def ShXfence.ofBits (w : Nat) : ShXfence :=
  ⟨BitVec.ofNat 3 (field w 21 3), BitVec.ofNat 3 (field w 14 3), BitVec.ofNat 3 (field w 7 3)⟩

/-- The fields of ShBar, placed. -/
def ShBar.bits (f : ShBar) : Nat := f.c.toNat * 2 ^ 21 + f.n.toNat * 2 ^ 14

/-- The fields of ShBar, read from a word. -/
def ShBar.ofBits (w : Nat) : ShBar :=
  ⟨bitOf w 21, BitVec.ofNat 4 (field w 14 4)⟩

/-- The fields of ShWaitv, placed. -/
def ShWaitv.bits (f : ShWaitv) : Nat := f.u.toNat * 2 ^ 24 + f.c.toNat * 2 ^ 21 + f.d.toNat * 2 ^ 14 + f.a.toNat * 2 ^ 7

/-- The fields of ShWaitv, read from a word. -/
def ShWaitv.ofBits (w : Nat) : ShWaitv :=
  ⟨bitOf w 24, BitVec.ofNat 3 (field w 21 3), BitVec.ofNat 7 (field w 14 7), BitVec.ofNat 7 (field w 7 7)⟩

/-- The fields of ShPref, placed. -/
def ShPref.bits (f : ShPref) : Nat := f.u.toNat * 2 ^ 24 + f.c.toNat * 2 ^ 21 + f.a.toNat * 2 ^ 7

/-- The fields of ShPref, read from a word. -/
def ShPref.ofBits (w : Nat) : ShPref :=
  ⟨bitOf w 24, BitVec.ofNat 3 (field w 21 3), BitVec.ofNat 7 (field w 7 7)⟩

/-- The encoder: the word of an instruction, from the opcode maps (R72, R74).  The device's own steps have no word. -/
def encodeNat : Instr → Nat
  | .illegal f => 0x00000000 + f.bits
  | .nop => 0x02000000
  | .bra f => 0x04000000 + f.bits
  | .brpAll f => 0x06000000 + f.bits
  | .brpAny f => 0x08000000 + f.bits
  | .call f => 0x0A000000 + f.bits
  | .callReg f => 0x0C000000 + f.bits
  | .cont f => 0x0E000000 + f.bits
  | .ret f => 0x10000000 + f.bits
  | .join => 0x12000000
  | .exit => 0x14000000
  | .brk f => 0x16000000 + f.bits
  | .trap f => 0x18000000 + f.bits
  | .upcall f => 0x1A000000 + f.bits
  | .live f => 0x1C000000 + f.bits
  | .region => 0x1E000000
  | .iadd f => 0x20000000 + f.bits
  | .iaddImm f => 0x22000000 + f.bits
  | .isub f => 0x24000000 + f.bits
  | .imul f => 0x26000000 + f.bits
  | .imulImm f => 0x28000000 + f.bits
  | .imulhi f => 0x2A000000 + f.bits
  | .imad f => 0x2C000000 + f.bits
  | .idiv f => 0x2E000000 + f.bits
  | .irem f => 0x30000000 + f.bits
  | .imin f => 0x32000000 + f.bits
  | .imax f => 0x34000000 + f.bits
  | .iclamp f => 0x36000000 + f.bits
  | .icmpS f => 0x38000000 + f.bits
  | .icmpN f => 0x3A000000 + f.bits
  | .isad f => 0x3C000000 + f.bits
  | .idot4 f => 0x3E000000 + f.bits
  | .iabs f => 0x40000000 + f.bits
  | .ineg f => 0x42000000 + f.bits
  | .itof f => 0x44000000 + f.bits
  | .ftoi f => 0x46000000 + f.bits
  | .and f => 0x48000000 + f.bits
  | .andImm f => 0x4A000000 + f.bits
  | .andn f => 0x4C000000 + f.bits
  | .or f => 0x4E000000 + f.bits
  | .orImm f => 0x50000000 + f.bits
  | .xor f => 0x52000000 + f.bits
  | .xorImm f => 0x54000000 + f.bits
  | .shl f => 0x56000000 + f.bits
  | .shlImm f => 0x58000000 + f.bits
  | .shr f => 0x5A000000 + f.bits
  | .shrImm f => 0x5C000000 + f.bits
  | .sra f => 0x5E000000 + f.bits
  | .sraImm f => 0x60000000 + f.bits
  | .shadd f => 0x62000000 + f.bits
  | .sel f => 0x64000000 + f.bits
  | .mov f => 0x66000000 + f.bits
  | .movi f => 0x68000000 + f.bits
  | .movhi f => 0x6A000000 + f.bits
  | .clz f => 0x6C000000 + f.bits
  | .popc f => 0x6E000000 + f.bits
  | .brev f => 0x70000000 + f.bits
  | .bfx f => 0x72000000 + f.bits
  | .bfi f => 0x74000000 + f.bits
  | .ilv f => 0x76000000 + f.bits
  | .dilv f => 0x78000000 + f.bits
  | .unpk3 f => 0x7A000000 + f.bits
  | .tacc f => 0x7C000000 + f.bits
  | .plog f => 0x7E000000 + f.bits
  | .faddF32 f => 0x80000000 + f.bits
  | .faddF16 f => 0x82000000 + f.bits
  | .faddBf16 f => 0x84000000 + f.bits
  | .fsub f => 0x86000000 + f.bits
  | .fmulF32 f => 0x88000000 + f.bits
  | .fmulF16 f => 0x8A000000 + f.bits
  | .fmulBf16 f => 0x8C000000 + f.bits
  | .fmaF32 f => 0x8E000000 + f.bits
  | .fmaF16 f => 0x90000000 + f.bits
  | .fmaBf16 f => 0x92000000 + f.bits
  | .hfma2F16 f => 0x94000000 + f.bits
  | .hfma2Bf16 f => 0x96000000 + f.bits
  | .fmin f => 0x98000000 + f.bits
  | .fmax f => 0x9A000000 + f.bits
  | .fcmp f => 0x9C000000 + f.bits
  | .fcvt f => 0x9E000000 + f.bits
  | .ld f => 0xA0000000 + f.bits
  | .st f => 0xA2000000 + f.bits
  | .stn f => 0xA4000000 + f.bits
  | .ldlS f => 0xA6000000 + f.bits
  | .ldlW f => 0xA8000000 + f.bits
  | .ldlA f => 0xAA000000 + f.bits
  | .ldlC f => 0xAC000000 + f.bits
  | .stlS f => 0xAE000000 + f.bits
  | .stlA f => 0xB0000000 + f.bits
  | .stlC f => 0xB2000000 + f.bits
  | .acas f => 0xB4800000 + f.bits
  | .amax64 f => 0xB6A00000 + f.bits
  | .atomS32 f => 0xB8000000 + f.bits
  | .atomN32 f => 0xBA000000 + f.bits
  | .atomS64 f => 0xBC000000 + f.bits
  | .atomN64 f => 0xBE000000 + f.bits
  | .tex f => 0xC0000000 + f.bits
  | .trace f => 0xC2000000 + f.bits
  | .vmarch f => 0xC4000000 + f.bits
  | .ttask f => 0xC6000000 + f.bits
  | .infer f => 0xC8000000 + f.bits
  | .sumset f => 0xCA000000 + f.bits
  | .sumsend f => 0xCC000000 + f.bits
  | .sumfree f => 0xCE000000 + f.bits
  | .wbind f => 0xD0000000 + f.bits
  | .wcsr f => 0xD2000000 + f.bits
  | .wtouch f => 0xD4000000 + f.bits
  | .wdrop f => 0xD6000000 + f.bits
  | .rand f => 0xD8000000 + f.bits
  | .capld f => 0xDA000000 + f.bits
  | .capnar f => 0xDC000000 + f.bits
  | .launch f => 0xDE000000 + f.bits
  | .fdiv f => 0xE0000000 + f.bits
  | .fsqrt f => 0xE0000001 + f.bits
  | .frcpF32 f => 0xE0000002 + f.bits
  | .frcpF16 f => 0xE0000003 + f.bits
  | .frsqF32 f => 0xE0000004 + f.bits
  | .frsqF16 f => 0xE0000005 + f.bits
  | .fexp2F32 f => 0xE0000006 + f.bits
  | .fexp2F16 f => 0xE0000007 + f.bits
  | .flog2F32 f => 0xE0000008 + f.bits
  | .flog2F16 f => 0xE0000009 + f.bits
  | .frnd f => 0xE000000A + f.bits
  | .fclass f => 0xE000000B + f.bits
  | .voteAny f => 0xE2000000 + f.bits
  | .voteAll f => 0xE2000001 + f.bits
  | .voteBallot f => 0xE2000002 + f.bits
  | .voteEq f => 0xE2000003 + f.bits
  | .rodredIadd f => 0xE2000008 + f.bits
  | .rodredFadd f => 0xE2000009 + f.bits
  | .rodredSmin f => 0xE200000A + f.bits
  | .rodredSmax f => 0xE200000B + f.bits
  | .rodredNmin f => 0xE200000C + f.bits
  | .rodredNmax f => 0xE200000D + f.bits
  | .rodredAnd f => 0xE200000E + f.bits
  | .rodredOr f => 0xE200000F + f.bits
  | .rodscanIaddInc f => 0xE2000010 + f.bits
  | .rodscanIaddExc f => 0xE2000011 + f.bits
  | .rodscanFaddInc f => 0xE2000012 + f.bits
  | .rodscanFaddExc f => 0xE2000013 + f.bits
  | .shflIdx f => 0xE2000018 + f.bits
  | .shflUp f => 0xE2000019 + f.bits
  | .shflDown f => 0xE200001A + f.bits
  | .shflXor f => 0xE200001B + f.bits
  | .pmovReg f => 0xE4000000 + f.bits
  | .pmovPred f => 0xE4000001 + f.bits
  | .pxout f => 0xE4000002 + f.bits
  | .gets f => 0xE4000003 + f.bits
  | .sets f => 0xE4000004 + f.bits
  | .rdclk f => 0xE4000005 + f.bits
  | .setfmt f => 0xE4000006 + f.bits
  | .setmode f => 0xE4000007 + f.bits
  | .wbase f => 0xE4000008 + f.bits
  | .segld f => 0xE4000009 + f.bits
  | .eret => 0xE400000A
  | .yield => 0xE400000B
  | .caprd f => 0xE400000C + f.bits
  | .fenceAcq f => 0xE6000000 + f.bits
  | .fenceRel f => 0xE6000001 + f.bits
  | .fenceAcqrel f => 0xE6000002 + f.bits
  | .fenceSc f => 0xE6000003 + f.bits
  | .xfence f => 0xE6000004 + f.bits
  | .flush f => 0xE6000005 + f.bits
  | .flushInv f => 0xE6000006 + f.bits
  | .bar f => 0xE6000007 + f.bits
  | .waitv f => 0xE6000008 + f.bits
  | .waitvS64 f => 0xE6000009 + f.bits
  | .pref f => 0xE600000A + f.bits
  | .burst f => 0xE8000000 + f.bits
  | .chadv f => 0xE8000001 + f.bits
  | .edgeget f => 0xE8000002 + f.bits
  | .edgeput f => 0xE8000003 + f.bits
  | .qpop f => 0xE8000004 + f.bits
  | .qpush f => 0xE8000005 + f.bits
  | .qblk f => 0xEA000000 + f.bits
  | .dqblk f => 0xEA000001 + f.bits
  | .scoreboardWriteback _ => 0
  | .timerExpiry _ => 0
  | .yieldHoldEnd _ => 0
  | .waitvMonitorWake _ => 0
  | .waitvSleepTimeout _ => 0
  | .frameRetire _ => 0
  | .engineHaltStop _ => 0
  | .haltRecordWrite _ => 0
  | .abortTokenReceive _ _ _ _ => 0
  | .pageWalkComplete => 0
  | .faultRecordWrite => 0
  | .portRevokedFault => 0
  | .dieUpdateApply _ _ => 0
  | .dieStampToken _ _ => 0
  | .readExclusiveUpgrade => 0
  | .flushWalkComplete _ => 0
  | .shootdown _ => 0
  | .resolve _ => 0
  | .deliver _ => 0
  | .assignEngine _ => 0
  | .releaseEngine _ => 0
  | .setGroup _ => 0
  | .saveRequest _ => 0
  | .restoreRequest _ => 0
  | .upcallReply _ => 0
  | .copyCellLand _ _ => 0
  | .wdropComplete _ _ => 0
  | .gatherElementLand _ _ => 0
  | .chainEntryStart _ => 0
  | .chainEntryComplete _ => 0
  | .taskPick _ => 0
  | .governorGrant _ => 0
  | .rampUpComplete _ _ => 0
  | .taskUnitComplete _ _ => 0
  | .taskDoneWrite _ _ => 0
  | .grantReturn _ _ => 0
  | .burstEnd _ => 0
  | .inferComplete _ _ => 0
  | .slotReserveRequest _ => 0
  | .reservationReply _ => 0
  | .slotOpen _ => 0
  | .creditRequest _ => 0
  | .creditReply _ => 0
  | .transferApply _ _ => 0
  | .slotWake _ _ _ => 0
  | .triangleEntry _ => 0
  | .textureResult _ => 0
  | .traceResult _ => 0
  | .marchResult _ => 0
  | .contGatherTimeout _ => 0
  | .dispatchLoop _ => 0
  | .queueClaim _ _ _ _ => 0
  | .queueRelease _ _ _ _ _ => 0
  | .queueBound _ _ _ => 0
  | .queuePass _ _ _ => 0
  | .bindRecord _ _ => 0
  | .boardReservation _ => 0
  | .launchFabricDelivery _ _ _ _ => 0
  | .hostAccess _ _ _ => 0
  | .pageGrant => 0
  | .directoryRecall _ => 0
  | .stallTimeout _ => 0
  | .powerOn => 0
  | .systemBlockAddress _ => 0
  | .firmwareUpdate _ _ => 0
  | .spdmRequest _ => 0
  | .sensorSample _ _ _ _ => 0
  | .grantCountAdjust _ => 0
  | .thermalTrip => 0
  | .alarm _ => 0
  | .reservedOpcode _ => 0
  | .reckonerAccess _ _ _ => 0
  | .homePerform _ => 0
  | .instructionCacheFill _ => 0

/-- The encoded word. -/
def encode (i : Instr) : BitVec 32 := BitVec.ofNat 32 (encodeNat i)

/-- Secondary opcodes of group 0x70 (R74). -/
def decodeGroupFloatSpecial (w : Nat) : Option Instr :=
  match field w 0 7 with
  | 0x00 => some (.fdiv (.ofBits w))
  | 0x01 => some (.fsqrt (.ofBits w))
  | 0x02 => some (.frcpF32 (.ofBits w))
  | 0x03 => some (.frcpF16 (.ofBits w))
  | 0x04 => some (.frsqF32 (.ofBits w))
  | 0x05 => some (.frsqF16 (.ofBits w))
  | 0x06 => some (.fexp2F32 (.ofBits w))
  | 0x07 => some (.fexp2F16 (.ofBits w))
  | 0x08 => some (.flog2F32 (.ofBits w))
  | 0x09 => some (.flog2F16 (.ofBits w))
  | 0x0A => some (.frnd (.ofBits w))
  | 0x0B => some (.fclass (.ofBits w))
  | _ => none

/-- Secondary opcodes of group 0x71 (R74). -/
def decodeGroupRodCollective (w : Nat) : Option Instr :=
  match field w 0 7 with
  | 0x00 => some (.voteAny (.ofBits w))
  | 0x01 => some (.voteAll (.ofBits w))
  | 0x02 => some (.voteBallot (.ofBits w))
  | 0x03 => some (.voteEq (.ofBits w))
  | 0x08 => some (.rodredIadd (.ofBits w))
  | 0x09 => some (.rodredFadd (.ofBits w))
  | 0x0A => some (.rodredSmin (.ofBits w))
  | 0x0B => some (.rodredSmax (.ofBits w))
  | 0x0C => some (.rodredNmin (.ofBits w))
  | 0x0D => some (.rodredNmax (.ofBits w))
  | 0x0E => some (.rodredAnd (.ofBits w))
  | 0x0F => some (.rodredOr (.ofBits w))
  | 0x10 => some (.rodscanIaddInc (.ofBits w))
  | 0x11 => some (.rodscanIaddExc (.ofBits w))
  | 0x12 => some (.rodscanFaddInc (.ofBits w))
  | 0x13 => some (.rodscanFaddExc (.ofBits w))
  | 0x18 => some (.shflIdx (.ofBits w))
  | 0x19 => some (.shflUp (.ofBits w))
  | 0x1A => some (.shflDown (.ofBits w))
  | 0x1B => some (.shflXor (.ofBits w))
  | _ => none

/-- Secondary opcodes of group 0x72 (R74). -/
def decodeGroupStateControl (w : Nat) : Option Instr :=
  match field w 0 7 with
  | 0x00 => some (.pmovReg (.ofBits w))
  | 0x01 => some (.pmovPred (.ofBits w))
  | 0x02 => some (.pxout (.ofBits w))
  | 0x03 => some (.gets (.ofBits w))
  | 0x04 => some (.sets (.ofBits w))
  | 0x05 => some (.rdclk (.ofBits w))
  | 0x06 => some (.setfmt (.ofBits w))
  | 0x07 => some (.setmode (.ofBits w))
  | 0x08 => some (.wbase (.ofBits w))
  | 0x09 => some (.segld (.ofBits w))
  | 0x0A => some .eret
  | 0x0B => some .yield
  | 0x0C => some (.caprd (.ofBits w))
  | _ => none

/-- Secondary opcodes of group 0x73 (R74). -/
def decodeGroupOrdering (w : Nat) : Option Instr :=
  match field w 0 7 with
  | 0x00 => some (.fenceAcq (.ofBits w))
  | 0x01 => some (.fenceRel (.ofBits w))
  | 0x02 => some (.fenceAcqrel (.ofBits w))
  | 0x03 => some (.fenceSc (.ofBits w))
  | 0x04 => some (.xfence (.ofBits w))
  | 0x05 => some (.flush (.ofBits w))
  | 0x06 => some (.flushInv (.ofBits w))
  | 0x07 => some (.bar (.ofBits w))
  | 0x08 => some (.waitv (.ofBits w))
  | 0x09 => some (.waitvS64 (.ofBits w))
  | 0x0A => some (.pref (.ofBits w))
  | _ => none

/-- Secondary opcodes of group 0x74 (R74). -/
def decodeGroupQueuesEngines (w : Nat) : Option Instr :=
  match field w 0 7 with
  | 0x00 => some (.burst (.ofBits w))
  | 0x01 => some (.chadv (.ofBits w))
  | 0x02 => some (.edgeget (.ofBits w))
  | 0x03 => some (.edgeput (.ofBits w))
  | 0x04 => some (.qpop (.ofBits w))
  | 0x05 => some (.qpush (.ofBits w))
  | _ => none

/-- Secondary opcodes of group 0x75 (R74). -/
def decodeGroupBlockConversion (w : Nat) : Option Instr :=
  match field w 0 7 with
  | 0x00 => some (.qblk (.ofBits w))
  | 0x01 => some (.dqblk (.ofBits w))
  | _ => none

/-- The instruction that the opcode, and in a group the secondary opcode, names (R72 to R75); the bits that its row
fixes otherwise are not looked at here. -/
def decodeOpcode (w : Nat) : Option Instr :=
  match field w 25 7 with
  | 0x00 => some (.illegal (.ofBits w))
  | 0x01 => some .nop
  | 0x02 => some (.bra (.ofBits w))
  | 0x03 => some (.brpAll (.ofBits w))
  | 0x04 => some (.brpAny (.ofBits w))
  | 0x05 => some (.call (.ofBits w))
  | 0x06 => some (.callReg (.ofBits w))
  | 0x07 => some (.cont (.ofBits w))
  | 0x08 => some (.ret (.ofBits w))
  | 0x09 => some .join
  | 0x0A => some .exit
  | 0x0B => some (.brk (.ofBits w))
  | 0x0C => some (.trap (.ofBits w))
  | 0x0D => some (.upcall (.ofBits w))
  | 0x0E => some (.live (.ofBits w))
  | 0x0F => some .region
  | 0x10 => some (.iadd (.ofBits w))
  | 0x11 => some (.iaddImm (.ofBits w))
  | 0x12 => some (.isub (.ofBits w))
  | 0x13 => some (.imul (.ofBits w))
  | 0x14 => some (.imulImm (.ofBits w))
  | 0x15 => some (.imulhi (.ofBits w))
  | 0x16 => some (.imad (.ofBits w))
  | 0x17 => some (.idiv (.ofBits w))
  | 0x18 => some (.irem (.ofBits w))
  | 0x19 => some (.imin (.ofBits w))
  | 0x1A => some (.imax (.ofBits w))
  | 0x1B => some (.iclamp (.ofBits w))
  | 0x1C => some (.icmpS (.ofBits w))
  | 0x1D => some (.icmpN (.ofBits w))
  | 0x1E => some (.isad (.ofBits w))
  | 0x1F => some (.idot4 (.ofBits w))
  | 0x20 => some (.iabs (.ofBits w))
  | 0x21 => some (.ineg (.ofBits w))
  | 0x22 => some (.itof (.ofBits w))
  | 0x23 => some (.ftoi (.ofBits w))
  | 0x24 => some (.and (.ofBits w))
  | 0x25 => some (.andImm (.ofBits w))
  | 0x26 => some (.andn (.ofBits w))
  | 0x27 => some (.or (.ofBits w))
  | 0x28 => some (.orImm (.ofBits w))
  | 0x29 => some (.xor (.ofBits w))
  | 0x2A => some (.xorImm (.ofBits w))
  | 0x2B => some (.shl (.ofBits w))
  | 0x2C => some (.shlImm (.ofBits w))
  | 0x2D => some (.shr (.ofBits w))
  | 0x2E => some (.shrImm (.ofBits w))
  | 0x2F => some (.sra (.ofBits w))
  | 0x30 => some (.sraImm (.ofBits w))
  | 0x31 => some (.shadd (.ofBits w))
  | 0x32 => some (.sel (.ofBits w))
  | 0x33 => some (.mov (.ofBits w))
  | 0x34 => some (.movi (.ofBits w))
  | 0x35 => some (.movhi (.ofBits w))
  | 0x36 => some (.clz (.ofBits w))
  | 0x37 => some (.popc (.ofBits w))
  | 0x38 => some (.brev (.ofBits w))
  | 0x39 => some (.bfx (.ofBits w))
  | 0x3A => some (.bfi (.ofBits w))
  | 0x3B => some (.ilv (.ofBits w))
  | 0x3C => some (.dilv (.ofBits w))
  | 0x3D => some (.unpk3 (.ofBits w))
  | 0x3E => some (.tacc (.ofBits w))
  | 0x3F => some (.plog (.ofBits w))
  | 0x40 => some (.faddF32 (.ofBits w))
  | 0x41 => some (.faddF16 (.ofBits w))
  | 0x42 => some (.faddBf16 (.ofBits w))
  | 0x43 => some (.fsub (.ofBits w))
  | 0x44 => some (.fmulF32 (.ofBits w))
  | 0x45 => some (.fmulF16 (.ofBits w))
  | 0x46 => some (.fmulBf16 (.ofBits w))
  | 0x47 => some (.fmaF32 (.ofBits w))
  | 0x48 => some (.fmaF16 (.ofBits w))
  | 0x49 => some (.fmaBf16 (.ofBits w))
  | 0x4A => some (.hfma2F16 (.ofBits w))
  | 0x4B => some (.hfma2Bf16 (.ofBits w))
  | 0x4C => some (.fmin (.ofBits w))
  | 0x4D => some (.fmax (.ofBits w))
  | 0x4E => some (.fcmp (.ofBits w))
  | 0x4F => some (.fcvt (.ofBits w))
  | 0x50 => some (.ld (.ofBits w))
  | 0x51 => some (.st (.ofBits w))
  | 0x52 => some (.stn (.ofBits w))
  | 0x53 => some (.ldlS (.ofBits w))
  | 0x54 => some (.ldlW (.ofBits w))
  | 0x55 => some (.ldlA (.ofBits w))
  | 0x56 => some (.ldlC (.ofBits w))
  | 0x57 => some (.stlS (.ofBits w))
  | 0x58 => some (.stlA (.ofBits w))
  | 0x59 => some (.stlC (.ofBits w))
  | 0x5A => some (.acas (.ofBits w))
  | 0x5B => some (.amax64 (.ofBits w))
  | 0x5C => some (.atomS32 (.ofBits w))
  | 0x5D => some (.atomN32 (.ofBits w))
  | 0x5E => some (.atomS64 (.ofBits w))
  | 0x5F => some (.atomN64 (.ofBits w))
  | 0x60 => some (.tex (.ofBits w))
  | 0x61 => some (.trace (.ofBits w))
  | 0x62 => some (.vmarch (.ofBits w))
  | 0x63 => some (.ttask (.ofBits w))
  | 0x64 => some (.infer (.ofBits w))
  | 0x65 => some (.sumset (.ofBits w))
  | 0x66 => some (.sumsend (.ofBits w))
  | 0x67 => some (.sumfree (.ofBits w))
  | 0x68 => some (.wbind (.ofBits w))
  | 0x69 => some (.wcsr (.ofBits w))
  | 0x6A => some (.wtouch (.ofBits w))
  | 0x6B => some (.wdrop (.ofBits w))
  | 0x6C => some (.rand (.ofBits w))
  | 0x6D => some (.capld (.ofBits w))
  | 0x6E => some (.capnar (.ofBits w))
  | 0x6F => some (.launch (.ofBits w))
  | 0x70 => decodeGroupFloatSpecial w
  | 0x71 => decodeGroupRodCollective w
  | 0x72 => decodeGroupStateControl w
  | 0x73 => decodeGroupOrdering w
  | 0x74 => decodeGroupQueuesEngines w
  | 0x75 => decodeGroupBlockConversion w
  | _ => none

/-- A word that lies outside the pattern of the row that its opcode names: U = 1 where the row requires U = 0,
another breach of operand kind, or else a reserved field (R76).  TRACE and VMARCH give their ctl field the cause
operand kind (R257), and the register form of CALL its b field (R342). -/
def outsideCause (i : Instr) (w : Nat) : IllegalCause :=
  if bitOf w 24 && !bitOf (encodeNat i) 24 then .operandKind
  else if !operandKindOk i then .operandKind
  else
    match i with
    | .trace _ | .vmarch _ => .operandKind
    | .callReg _ => if field w 0 7 ≠ 0 then .operandKind else .reservedField
    | _ => .reservedField

/-- The decoder: the instruction of a word, or the cause that refuses it (R73, R75, R76).  It refuses a word whose
opcode is not assigned, and a word that lies outside the pattern of its row. -/
def decode (w : BitVec 32) : Except IllegalCause Instr :=
  match decodeOpcode w.toNat with
  | none => .error .reservedOpcode
  | some i => if encodeNat i = w.toNat then .ok i else .error (outsideCause i w.toNat)

/-- Four bytes as stored, the lowest address first, read as one little-endian word (R3, R61). -/
def wordOfBytes (b0 b1 b2 b3 : Byte) : BitVec 32 := b3 ++ b2 ++ b1 ++ b0

/-- The decoder over a list of bytes, the lowest address first: the instruction and the bytes after it. -/
def decodeBytes : List Byte → Except IllegalCause (Instr × List Byte)
  | b0 :: b1 :: b2 :: b3 :: rest =>
    match decode (wordOfBytes b0 b1 b2 b3) with
    | .ok i => .ok (i, rest)
    | .error c => .error c
  | _ => .error .illegalWord

/-- The bytes of a table word as the device stores them (R61): one little-endian word. -/
def tableBytes (w : Nat) : List Byte :=
  [BitVec.ofNat 8 (field w 0 8), BitVec.ofNat 8 (field w 8 8), BitVec.ofNat 8 (field w 16 8),
    BitVec.ofNat 8 (field w 24 8)]

/-- The instruction that the decoder reads from the word `w` of the opcode table; a Hemrod word has 32 bits,
whatever `nbits` the row gives. -/
def decodeTableWord (nbits w : Nat) : Option Instr :=
  match decodeBytes (tableBytes (w % 2 ^ min nbits 32)) with
  | .ok (i, _) => some i
  | .error _ => none

end Sys2Proof
end

