-- ==== Sys2Proof/Machine/Control.lean ====
section
/-!
DEFINITION. Control transfers, divergence and reconvergence, the ends of beads, barriers, the breakpoint instructions,
ERET, LIVE, REGION and YIELD (R26 to R29, R333 to R343, R349, R356, R357, R381, R386, R402, R403, R426, R438).
-/

namespace Sys2Proof.Machine

/-! ### Barriers (R333, R334) -/

/-- A bead's arrival at a barrier. -/
def Bead.arrival (b : Bead) (n : Nat) : BarArrival := nth ⟨.idle, false⟩ b.bar n

/-- A bead's arrival at a barrier is replaced. -/
def Rod.setArrival (r : Rod) (k n : Nat) (x : BarArrival) : Rod := r.modBead k fun b => { b with bar := setNth b.bar n x }

/-- The bead has arrived in the phase `gp`. -/
def arrivedIn (gp : Bool) (x : BarArrival) : Bool := decide (x.kind ≠ .idle ∧ x.ap = gp)

/-- Every live bead of the frame has arrived at barrier `n` in the phase `gp`, and there is one. -/
def State.allArrived (s : State) (frame n : Nat) (gp : Bool) : Bool :=
  let rods := s.rods.filter fun r => decide (r.frame = frame)
  rods.any (fun r => decide (r.alive ≠ 0)) &&
    rods.all fun r => (bitsOf r.alive).all fun k => arrivedIn gp ((r.bead k).arrival n)

/-- The phase of a barrier. -/
def Frame.phase (f : Frame) (n : Nat) : Bool := f.phases.getLsbD n

/-- The phase of a barrier flips, what was released in the phase before the last is forgotten, and every rod of the frame
that sleeps there wakes. -/
def State.flipPhase (s : State) (frame n : Nat) : State :=
  let s1 := s.modFrame frame fun f =>
    { f with
      phases := f.phases ^^^ BitVec.ofNat 16 (2 ^ n)
      barriers := f.barriers.filter fun x => decide (x.1 ≠ 2 * n + (!f.phase n).toNat) }
  { s1 with rods := s1.rods.map fun r =>
      match r.status with
      | .asleep (.barrier m) _ _ => if r.frame = frame ∧ m = n then { r with status := .ready } else r
      | _ => r }

/-- The phases that complete when beads end (R333). -/
def State.settleBarriers (s : State) (frame : Nat) : State :=
  (List.range 16).foldl (fun s n =>
    match s.frame? frame with
    | none => s
    | some f => if s.allArrived frame n (f.phase n) then s.flipPhase frame n else s) s

/-- Beads of the issuing rod have ended: another group runs, or the rod retires; phases may complete (R29, R38). -/
def M.endGroup : M Unit := do
  let r ← M.rod
  M.upd fun s => (s.endGroup r.uid).settleBarriers r.frame

/-- Every bead of the issuing rod ends, and it retires (R290, R357). -/
def M.retire : M Unit := do
  let r ← M.rod
  M.upd fun s => (s.retire r.uid).settleBarriers r.frame

/-- Every bead of a rod ends, and it retires: how a rod is killed (R290, R292). -/
def State.kill (s : State) (u : Nat) : State :=
  match s.rod? u with
  | none => s
  | some r => (s.retire u).settleBarriers r.frame

/-- A bead arrives at a barrier (R333), unless it has arrived in this phase already. -/
def arrive (waits gp : Bool) (x : BarArrival) : BarArrival :=
  if x.kind = .idle ∨ (x.kind = .arrived ∧ x.ap ≠ gp) then ⟨if waits then .waiting else .arrived, gp⟩ else x

/-- A bead had arrived in this phase before this BAR: w of R333. -/
def hadArrived (gp : Bool) (x : BarArrival) : Bool :=
  !(decide (x.kind = .idle) || (decide (x.kind = .arrived) && decide (x.ap ≠ gp))) && decide (x.ap = gp)

/-- A waiting bead passes once the phase has changed (R333). -/
def pass (gp : Bool) (x : BarArrival) : BarArrival := if x.kind = .waiting ∧ x.ap ≠ gp then ⟨.idle, x.ap⟩ else x

/-- Change the arrivals of some beads. -/
def Rod.mapArrivals (r : Rod) (n : Nat) (f : BarArrival → BarArrival) : List Nat → Rod
  | [] => r
  | k :: ks => (r.setArrival k n (f ((r.bead k).arrival n))).mapArrivals n f ks

/-- The word at a physical address, which may lie in this device's own export space (R310). -/
def State.wordAt (s : State) (a : Nat) : Option Word :=
  match (s.ownExport a false).1 with
  | .ok p => some (BitVec.ofNat 32 (s.natAt p 4))
  | .error _ => none

/-- The word at a code address, from the core's cache or from memory, without any effect. -/
def State.peekCode (s : State) (core asid : Nat) (va : Nat) : Option Word :=
  match s.icache.find? (fun l => decide (l.core = core ∧ l.asid = asid ∧ l.line = va / 128)) with
  | some l => some (nth 0 l.words (va % 128 / 4))
  | none =>
    match (s.lookup (some core) asid va false).1 with
    | some t => s.wordAt (t.place va)
    | none =>
      match s.walk (fun _ => none) va 0 ptLevels (s.ctxField asid 0 52) with
      | .ok f => s.wordAt (pteAddr f.entry + va % 2 ^ f.bits)
      | .error _ => none

/-- The rod's instruction at its program counter, as far as it can be read. -/
def State.instrAt (s : State) (r : Rod) : Option Instr :=
  match s.peekCode r.core r.asid r.pc.toNat with
  | none => none
  | some w =>
    match decode w with
    | .ok i => some i
    | .error _ => none

/-- The rod's instruction executes once (R17). -/
def State.uniformAt (s : State) (r : Rod) : Bool :=
  match s.instrAt r with
  | some i => uniform i
  | none => false

/-- The pending group of the top entry waits at the same barrier in the same phase: no exchange is made (R334). -/
def State.pendingAtBar (s : State) (r : Rod) (n : Nat) (gp : Bool) : Bool :=
  match r.stack with
  | [] => false
  | e :: _ =>
    match (s.peekCode r.core r.asid e.ppc.toNat).map decode with
    | some (.ok (.bar f)) =>
      decide (f.n.toNat = n) &&
        (bitsOf e.pm).all fun k => decide (((r.bead k).arrival n).kind = .waiting ∧ ((r.bead k).arrival n).ap = gp)
    | _ => false

/-- A bead passes the barrier: it waits, and the phase has changed (R333). -/
def passes (gp : Bool) (x : BarArrival) : Bool := decide (x.kind = .waiting ∧ x.ap ≠ gp)

/-- What the arrivals at a barrier in a phase have released (R164). -/
def Frame.releasedAt (f : Frame) (n : Nat) (gp : Bool) : List Stamp := (Sparse.find f.barriers (2 * n + gp.toNat)).getD []

/-- A rod's arrival at a barrier is a release (R164). -/
def Frame.arrives (f : Frame) (n : Nat) (gp : Bool) (x : Stamp) : Frame :=
  { f with barriers := Sparse.put f.barriers (2 * n + gp.toNat) ((f.releasedAt n gp).filter (fun y => decide (y.agent ≠ x.agent)) ++ [x]) }

/-- BAR (R333 to R335).  A group that is held in the phase that this BAR completed executes BAR again at once. -/
def execBar (f : ShBar) (s : State) : Host.Outcome State Fault Refusal :=
  executeControl (.bar f) (do
    let r ← M.rod
    let fr ← M.frame
    let n := f.n.toNat
    let gp := fr.phase n
    let early := (bitsOf r.active).filter fun k => hadArrived gp ((r.bead k).arrival n)
    onRod (modify fun r => r.mapArrivals n (arrive (!f.c) gp) (bitsOf r.active))
    M.upd fun s => s.modFrame r.frame fun g => g.arrives n gp (r.view.release r.agent 1)
    let s1 ← get
    let flipped := s1.allArrived r.frame n gp
    M.upd fun s => if flipped then s.flipPhase r.frame n else s
    let now := if flipped then !gp else gp
    let r2 ← M.rod
    let held := (bitsOf r2.active).any fun k =>
      !passes now ((r2.bead k).arrival n) &&
        (decide (((r2.bead k).arrival n).kind = .waiting) || early.contains k)
    let fr2 ← M.frame
    let passing := (bitsOf r2.active).any fun k => passes now ((r2.bead k).arrival n)
    onRod (modify fun r => r.mapArrivals n (pass now) (bitsOf r.active))
    onRod (modify fun r =>
      if passing then { r with view := r.view.acquire r.agent 1 (fr2.releasedAt n (!now)) } else r)
    let s2 ← get
    let r3 ← M.rod
    (if held && flipped then throw .settled
     else if held then throw (.sleep 0 (.barrier n) (!s2.pendingAtBar r3 n now))
     else M.advance)) s

/-! ### Branches and transfers -/

/-- The target of a Form J word (R63). -/
def Rod.target (r : Rod) (o : BitVec 20) : Addr := r.pc + (o.signExtend 48 <<< 2)

/-- The active beads that select a branch: their predicate differs from the sense (R337). -/
def Rod.selecting (r : Rod) (f : ShBranch) : BitVec 16 := maskOf ((bitsOf r.active).filter fun k => r.pred k f.p != f.s)

/-- The rod goes on at an address. -/
def Rod.goto (r : Rod) (a : Addr) : Rod := { r with pc := a, resume := 0 }

/-- The top entry was made by this branch, and its pending group can take more beads (R27). -/
def StackEntry.merges (e : StackEntry) (pc t : Addr) : Bool :=
  decide (e.ba = pc) && (!e.pv || (decide (e.ppc = t) && decide (e.pr = 0)))

/-- The beads that branch become pending in the top entry, which this branch made (R27). -/
def StackEntry.addPending (e : StackEntry) (r : Rod) (t : Addr) (gt : BitVec 16) : StackEntry :=
  if e.pv then { e with pm := e.pm ||| gt }
  else { e with pv := true, ppc := t, pm := gt, pr := 0, pfmt := r.fmt, pmode := r.mode.setWidth 16 }

/-- A divergence (R27): the beads of `gt` wait at `t`, the others fall through; none when the stack is full. -/
def Rod.diverge (r : Rod) (t : Addr) (gt : BitVec 16) : Option Rod :=
  let gf := r.active &&& ~~~gt
  let fresh : StackEntry :=
    { ba := r.pc, f := r.active, w := 0, j := none, pv := true, ppc := t, pm := gt, pr := 0, pfmt := r.fmt
      pmode := r.mode.setWidth 16, sfmt := r.fmt, smode := r.mode.setWidth 16 }
  match r.stack with
  | e :: es =>
    if e.merges r.pc t then some { r with stack := e.addPending r t gt :: es, active := gf, pc := r.pc + 4, resume := 0 }
    else if Config.stackDepth ≤ r.stack.length then none
    else some { r with stack := fresh :: r.stack, active := gf, pc := r.pc + 4, resume := 0 }
  | [] => some { r with stack := [fresh], active := gf, pc := r.pc + 4, resume := 0 }

/-- BRA (R27, R337). -/
def execBra (f : ShBranch) (s : State) : Host.Outcome State Fault Refusal :=
  executeControl (.bra f) (onRod (do
    let r ← get
    let gt := r.selecting f
    let t := r.target f.o
    if gt = r.active then set (r.goto t)
    else if gt = 0 then set r.advance
    else
      match r.diverge t gt with
      | some r' => set r'
      | none => throw (.trap 5 3 none 0 0))) s

/-- BRP all (R340). -/
def execBrpAll (f : ShBranch) (s : State) : Host.Outcome State Fault Refusal :=
  executeControl (.brpAll f) (onRod (modify fun r =>
    if r.selecting f = r.active then r.goto (r.target f.o) else r.advance)) s

/-- BRP any (R340). -/
def execBrpAny (f : ShBranch) (s : State) : Host.Outcome State Fault Refusal :=
  executeControl (.brpAny f) (onRod (modify fun r =>
    if r.selecting f ≠ 0 then r.goto (r.target f.o) else r.advance)) s

/-- CALL with an offset (R342): the return address goes to s31. -/
def execCall (f : ShCall) (s : State) : Host.Outcome State Fault Refusal :=
  executeControl (.call f) (onRod (modify fun r =>
    (r.setS 31 ((r.pc + 4).setWidth 64)).goto (r.target f.o))) s

/-- All elements of a list are equal. -/
def sameDwords : List Dword → Bool
  | [] => true
  | x :: xs => xs.all fun y => decide (y = x)

/-- A register target (R343): the beads must agree, and it must be a code address. -/
def RM.registerTarget (f : BitVec 7) : RM Addr := do
  let r ← get
  let xs := (bitsOf r.active).map fun k => r.dword (some k) f
  let x := if isS f then r.dword none f else xs.headD 0
  RM.need (isS f || sameDwords xs) (.trap 9 5 none 0 0)
  RM.need (decide (field x.toNat 0 2 = 0 ∧ field x.toNat 48 16 = 0)) (.trap 8 9 none x.toNat 0)
  pure (x.setWidth 48)

/-- CALL with a register target (R342): it is read before the return address is written. -/
def execCallReg (f : ShDA) (s : State) : Host.Outcome State Fault Refusal :=
  executeControl (.callReg f) (onRod (do
    let t ← RM.registerTarget f.a
    modify fun r => (r.setS (sIndex f.d) ((r.pc + 4).setWidth 64)).goto t)) s

/-- CONT (R349). -/
def execCont (f : ShA) (s : State) : Host.Outcome State Fault Refusal :=
  executeControl (.cont f) (onRod (do
    let t ← RM.registerTarget f.a
    modify fun r => r.goto t)) s

/-- RET (R403). -/
def execRet (f : ShA) (s : State) : Host.Outcome State Fault Refusal :=
  executeControl (.ret f) (onRod (do
    let t ← RM.registerTarget f.a
    modify fun r => r.goto t)) s

/-- JOIN (R28, R381). -/
def execJoin (s : State) : Host.Outcome State Fault Refusal :=
  executeControl .join (do
    let r ← M.rod
    match r.stack with
    | [] => M.advance
    | e :: es =>
      M.need (decide (e.j = none ∨ e.j = some r.pc)) (.trap 9 5 none 0 0)
      match r.resumeNext ({ e with j := some r.pc, w := e.w ||| r.active } :: es) with
      | some r' => M.upd fun s => s.setRod r'
      | none => M.retire) s

/-- The end of a rod in handler mode by ERET with action 1 or EXIT (R290, R357): the stack has the depth of the handler
entry, the open region commits, the fault frame is no longer valid, and every bead of the rod ends. -/
def M.killInHandler (fr : FaultFrame) : M Unit := do
  let r ← M.rod
  M.need (decide (r.stack.length = fr.depth)) (.trap 9 5 none 0 0)
  M.commitPoint false
  M.upd fun s => s.writeFaultFrame r fr false
  M.retire

/-- EXIT (R357): in handler mode it is ERET with action 1. -/
def execExit (s : State) : Host.Outcome State Fault Refusal :=
  executeControl .exit (do
    let r ← M.rod
    match r.handler with
    | some fr => M.killInHandler fr
    | none => do
      M.commitPoint true
      M.endGroup
      M.commitDone) s

/-- NOP (R390). -/
def execNop (s : State) : Host.Outcome State Fault Refusal := execute .nop (pure ()) s

/-- ILLEGAL (R377): the fault is raised when the word is issued. -/
def execIllegal (f : ShIllegal) (s : State) : Host.Outcome State Fault Refusal :=
  execute (.illegal f) (throw (.trap 9 1 none 0 0)) s

/-- The cause of class 9 for a word that no row of the opcode table matches, or whose fields are illegal (R76). -/
def wordCause (w : Word) : Nat :=
  match decode w with
  | .error c => c.code
  | .ok i => (i.illegal?.getD .reservedOpcode).code

/-- A word outside every assigned encoding is issued (R73, R75, R76). -/
def execReservedOpcode (w : Word) (s : State) : Host.Outcome State Fault Refusal :=
  executeControl (.reservedOpcode w) (throw (.trap 9 (wordCause w) none 0 0)) s

/-- BRK (R339). -/
def execBrk (f : ShCode) (s : State) : Host.Outcome State Fault Refusal :=
  executeControl (.brk f) (throw (.trap 3 1 none 0 f.i.toNat)) s

/-- TRAP (R426); its resume address is the next instruction. -/
def execTrap (f : ShUCode) (s : State) : Host.Outcome State Fault Refusal :=
  executeControl (.trap f) (throw (.trap 3 2 none 0 f.i.toNat)) s

/-- ERET (R290, R356): the checks, the commit, and the state that the fault frame holds; action 1 retires the rod. -/
def execEret (s : State) : Host.Outcome State Fault Refusal :=
  executeControl .eret (do
    let r ← M.rod
    match r.handler with
    | none => throw (.trap 9 4 none 0 0)
    | some fr =>
      M.need (decide (r.stack.length = fr.depth)) (.trap 9 5 none 0 0)
      M.ownPages
      M.upd fun s => s.commitPerform r.uid
      let r1 ← M.rod
      match r1.eret with
      | .error c => throw (.trap 9 c.code none 0 0)
      | .ok none => M.killInHandler fr
      | .ok (some r2) =>
        M.upd fun s => (s.setRod r2.openRegion).writeFaultFrame r fr false) s

/-- REGION (R402). -/
def execRegion (s : State) : Host.Outcome State Fault Refusal := execute .region (pure ()) s

/-- YIELD (R438): the instruction takes one cycle, and the rod is then held as Waiting for 64 cycles. -/
def execYield (s : State) : Host.Outcome State Fault Refusal :=
  execute .yield (do
    let s ← get
    onRod (modify fun r => { r with status := .held (s.now + 65) })) s

/-! ### Code objects and LIVE -/

/-- A 16-byte entry of a table in the context's address space (R119, R135). -/
def M.tableEntry (va : Nat) : M Nat := do
  let a ← M.place none (va % 2 ^ 48) 0
  let s ← get
  M.need (!s.damaged a 16) (.trap 10 1 none va 0)
  pure (s.natAt a 16)

/-- The object that a capability of the handle table with the X right names and that holds a code address, of some of the
table's entries; a malformed entry gives none (R119). -/
def M.codeObjectIn (va : Nat) : List Nat → M (Option (Nat × Nat))
  | [] => pure none
  | i :: is => do
    let r ← M.rod
    let s ← get
    let e ← M.tableEntry (s.ctxField r.asid 128 48 + 16 * i)
    let c := Cap.ofNat e
    let o ← if decide (field e 120 2 = 0) && c.v && c.x then M.object? none c.handle.toNat else pure none
    match o with
    | some (len, base) => if base ≤ va ∧ va < base + len then pure (some (base, len)) else M.codeObjectIn va is
    | none => M.codeObjectIn va is

/-- The object, base and length, that admits a fetch from an address (R77).  The manual does not say which capability's
X right admits it, nor whether its LO and HI bound it: in the model it is the first entry of the context's handle table
with V and X whose object holds the address, and LO and HI are not looked at (DESIGN CHOICE, assumption 56). -/
def M.codeObject (va : Nat) : M (Option (Nat × Nat)) := do
  let r ← M.rod
  let s ← get
  M.codeObjectIn va (List.range (s.ctxField r.asid 112 16 + 1))

/-- `n` pieces of 16 bytes of code, read through the fetch path for a bead: each piece through its own page. -/
def M.readCode (b : Option Nat) (va : Nat) : Nat → M Nat
  | 0 => pure 0
  | n + 1 => do
    let a ← M.place b va 3
    let s ← get
    M.need (!s.damaged a 16) (.trap 10 1 b va 0)
    let rest ← M.readCode b (va + 16) n
    pure (s.natAt a 16 + 2 ^ 128 * rest)

/-- Range `i` of a liveness descriptor: first cell and count (R83). -/
def liveRange (d i : Nat) : Nat × Nat := (field d (384 + 32 * i) 16, field d (384 + 32 * i + 16) 16)

/-- A liveness descriptor keeps the rules of R83 (NR is 0 to 4: DEDUCED, assumption 20); `limit` is LIMIT of the S segment. -/
def liveOk (d alloc limit : Nat) : Bool :=
  decide (field d 291 93 = 0) && decide (field d 288 3 ≤ 4) && decide (field d 0 256 < 2 ^ alloc) &&
    (List.range 4).all fun i =>
      (decide (i < field d 288 3) || decide (field d (384 + 32 * i) 32 = 0)) &&
        decide ((liveRange d i).1 + (liveRange d i).2 ≤ limit)

/-- LIVE (R83, R386): the descriptor is read through the fetch path. -/
def execLive (f : ShCode) (s : State) : Host.Outcome State Fault Refusal :=
  execute (.live f) (do
    let r ← M.rod
    let fr ← M.frame
    let x := (r.pc + (f.i.signExtend 48 <<< 2)).toNat
    let bad : Stop := .trap 9 4 none 0 0
    M.need (decide (x % 16 = 0)) bad
    let o ← M.ahead (M.codeObject r.pc.toNat)
    match o with
    | none => throw (.trap 8 9 none r.pc.toNat 0)
    | some (base, len) => do
      M.need (decide (base ≤ x ∧ x + 64 ≤ base + len)) bad
      let d ← M.ahead (M.readCode none x 4)
      M.need (liveOk d r.alloc fr.segS.limit.toNat) bad
      onRod (modify fun r => { r with live := some (BitVec.ofNat 48 x), atLive := true })) s

end Sys2Proof.Machine
end

