-- ==== Sys2Proof/Machine/Global.lean ====
section
/-!
DEFINITION. Access to global memory: LD, ST, STN and the atomics (R116, R132 to R134, R168, R328 to R332, R383, R384,
R415, R416, R419), and what orders accesses: the fences, FLUSH, WAITV and PREF (R159, R170 to R173, R364, R365, R395,
R432, R436).
-/

namespace Sys2Proof.Machine

/-! ### Data of an access (R70) -/

/-- The bytes of an access of a width code (R70, R116). -/
def accessSize (w : BitVec 3) : Nat :=
  match w.toNat with
  | 0 | 1 => 1
  | 2 | 3 => 2
  | 4 => 4
  | 5 => 8
  | _ => 16

/-- The value that a load of a width code gives its destination from the bytes read (R383). -/
def extended (w : BitVec 3) (x : Nat) : Dword :=
  match w.toNat with
  | 1 => (BitVec.ofNat 8 x).signExtend 64
  | 3 => (BitVec.ofNat 16 x).signExtend 64
  | _ => BitVec.ofNat 64 x

/-- Write what a load of a width code returns to its data register (R383). -/
def Rod.setLoaded (r : Rod) (b : Option Nat) (d : BitVec 7) (w : BitVec 3) (x : Nat) : Rod :=
  match w.toNat with
  | 5 => r.setDword b d (BitVec.ofNat 64 x)
  | 6 => r.setQuad b d (BitVec.ofNat 128 x)
  | _ => if isS d then r.setS (sIndex d) (extended w x) else r.setWord b d (loWord (extended w x))

/-- The number whose low bytes a store of a width code stores (R415). -/
def Rod.stored (r : Rod) (b : Option Nat) (d : BitVec 7) (w : BitVec 3) : Nat :=
  match w.toNat with
  | 5 => (r.dword b d).toNat
  | 6 => (r.quad b d).toNat
  | _ => (r.word b d).toNat

/-! ### Addresses (R116) -/

/-- The offset of a global access: 32 bits, or 64 when wide (R116). -/
def Rod.offset (r : Rod) (b : Option Nat) (wide : Bool) (f : BitVec 7) : Nat := (r.operand b wide f).toNat

/-- The physical address of an access whose byte offset and size are given, after the checks of R116 to R118. -/
def M.reach (b : Option Nat) (c : Cap) (q : Rights) (byte size : Nat) (use : Use) : M Nat := do
  M.checkCap b c q byte size
  M.objectPhys b c byte size use

/-- `M.reach` for a store into a tentative line, with where the line comes from. -/
def M.reachLine (b : Option Nat) (c : Cap) (byte size : Nat) : M (Nat × LineTag) := do
  M.checkCap b c { w := true } byte size
  M.objectLine b c byte size .tentative

/-- Every bead that issues, or none alone when the instruction is uniform. -/
def Rod.parts (r : Rod) (u : Bool) : List (Option Nat) := if u then [none] else r.issuing.map some

/-- Every active bead is checked, then every one is translated, before any is performed (R147, R328).  `byte` gives
the byte offset of a bead. -/
def M.reachAll (u : Bool) (c : Cap) (q : Rights) (byte : Rod → Option Nat → Nat) (size : Nat) :
    M (List (Option Nat × Nat)) := do
  let r ← M.rod
  (r.parts u).forM fun b => M.checkCap b c q (byte r b) size
  M.ahead ((r.parts u).mapM fun b => do
    let a ← M.objectPhys b c (byte r b) size .home
    pure (b, a))

/-! ### Loads and stores -/

/-- LD (R383, R384). -/
def execLd (f : ShMem) (s : State) : Host.Outcome State Fault Refusal :=
  execute (.ld f) (M.each f.u fun b => do
    let r ← M.rod
    let size := accessSize f.w
    let a ← M.reach b (r.cap f.c.toNat) { rd := true } (r.offset b f.x f.f * size) size .load
    let x ← M.load (decide (f.o.toNat ≠ 0)) (decide (f.o.toNat = 2)) a size
    onRod (modify fun r => r.setLoaded b f.d f.w x)) s

/-- ST (R415, R416): a release store performs at the home, any other enters a tentative line. -/
def execSt (f : ShMem) (s : State) : Host.Outcome State Fault Refusal :=
  let size := accessSize f.w
  execute (.st f) (do
    if f.o.toNat = 3 then
      let r ← M.rod
      let targets ← M.reachAll f.u (r.cap f.c.toNat) { w := true } (fun r b => r.offset b f.x f.f * size) size
      targets.forM fun (b, a) => do
        let q ← M.rod
        M.upd fun s => s.rodWrite q ((q.view.release q.agent 4).through (homeDieOf a) (s.fresh + 1 + size / 16) :: q.view.rel)
          a size (r.stored b f.d f.w)
    else M.each f.u fun b => do
      let r ← M.rod
      let (a, tag) ← M.reachLine b (r.cap f.c.toNat) (r.offset b f.x f.f * size) size
      M.upd fun s => s.storeTentative r.uid tag (placed a (bytesOfNat size (r.stored b f.d f.w)))) s

/-- A byte with one nibble replaced: the high one when `high` (R134). -/
def withNibble (old : Nat) (high : Bool) (x : Nat) : Nat :=
  if high then old % 16 + 16 * (x % 16) else old / 16 * 16 + x % 16

/-- The byte of a nibble offset (R134); an offset with a bit of [63:48] set keeps it, and fails the bounds of R116. -/
def nibbleByte (off : Nat) : Nat := if off < 2 ^ 48 then off / 2 else off

/-- STN (R134, R419). -/
def execStn (f : ShMemNW) (s : State) : Host.Outcome State Fault Refusal :=
  execute (.stn f) (do
    let r ← M.rod
    let targets ← M.reachAll f.u (r.cap f.c.toNat) { w := true } (fun r b => nibbleByte (r.offset b f.x f.f)) 1
    targets.forM fun (b, a) => do
      let high := decide (r.offset b f.x f.f % 2 = 1)
      let _ ← M.atHome false false (decide (f.o.toNat = 3)) a 1 fun old => some (withNibble old high (r.word b f.d).toNat)
      pure ()) s

/-! ### Atomics (R328) -/

/-- An atomic: each active bead in turn reads the bytes at the home with the order of code `o` (R328), `step` gives what
it writes there, if anything, and it returns the old value to its data register if `back`. -/
def executeAtomic (i : Instr) (u : Bool) (c : BitVec 4) (wide : Bool) (off : BitVec 7) (o : BitVec 2) (size : Nat)
    (step : Rod → Option Nat → Nat → Option Nat) (back : Bool) (d : BitVec 7) (s : State) :
    Host.Outcome State Fault Refusal :=
  execute i (do
    let r ← M.rod
    let targets ← M.reachAll u (r.cap c.toNat) { a := true } (fun r b => r.offset b wide off * size) size
    targets.forM fun (b, a) => do
      let old ← M.atHome (decide (o.toNat = 0)) (decide (o.toNat = 0 ∨ o.toNat = 2)) (decide (o.toNat = 0 ∨ o.toNat = 3)) a
        size (step r b)
      if back then onRod (modify fun q => q.setOperand b (decide (size = 8)) d (BitVec.ofNat 64 old)) else pure ()) s

/-- ACAS (R329): the group's first part is the comparand and receives the old value, the second is the new value. -/
def execAcas (f : ShAcas) (s : State) : Host.Outcome State Fault Refusal :=
  executeAtomic (.acas f) f.u f.c f.x f.f f.o (if f.w then 8 else 4)
    (fun r b old =>
      let cmp := (r.operand b f.w f.d).toNat
      let new := (r.operand b f.w (next f.d (if f.w && !f.u then 2 else 1))).toNat
      if old = cmp then some new else none) true f.d s

/-- AMAX64 (R330). -/
def execAmax64 (f : ShMemNW) (s : State) : Host.Outcome State Fault Refusal :=
  executeAtomic (.amax64 f) f.u f.c f.x f.f f.o 8
    (fun r b old =>
      let key := (r.dword b f.d).toNat
      if old < key then some key else none) false f.d s

/-- The value that an ATOM writes: operation, width, signedness, old value and operand (R332). -/
def atomValue (op : BitVec 3) (w : Nat) (unsigned : Bool) (old x : Nat) : Nat :=
  let signed (y : Nat) : Int := if !unsigned && decide (2 ^ (w - 1) ≤ y) then (y : Int) - 2 ^ w else y
  match op.toNat with
  | 0 => (old + x) % 2 ^ w
  | 1 => x
  | 2 => old &&& x
  | 3 => old ||| x
  | 4 => old ^^^ x
  | 5 => if signed x < signed old then x else old
  | _ => if signed old < signed x then x else old

/-- An ATOM of one type (R332). -/
def executeAtom (i : Instr) (f : ShAtom) (size : Nat) (unsigned : Bool) (s : State) :
    Host.Outcome State Fault Refusal :=
  executeAtomic i f.u f.c f.x f.f f.o size
    (fun r b old =>
      let x := (r.operand b (decide (size = 8)) f.d).toNat
      some (atomValue f.p (8 * size) unsigned old x)) true f.d s

/-- ATOM s32 (R332). -/
def execAtomS32 (f : ShAtom) (s : State) : Host.Outcome State Fault Refusal := executeAtom (.atomS32 f) f 4 false s

/-- ATOM n32 (R332). -/
def execAtomN32 (f : ShAtom) (s : State) : Host.Outcome State Fault Refusal := executeAtom (.atomN32 f) f 4 true s

/-- ATOM s64 (R332). -/
def execAtomS64 (f : ShAtom) (s : State) : Host.Outcome State Fault Refusal := executeAtom (.atomS64 f) f 8 false s

/-- ATOM n64 (R332). -/
def execAtomN64 (f : ShAtom) (s : State) : Host.Outcome State Fault Refusal := executeAtom (.atomN64 f) f 8 true s

/-! ### Fences -/

/-- A fence at a scope (R156, R159, R163, R166): an acquire of what the rod's earlier loads returned, a place in the
order S, and a release before the rod's next stores, as its order has them; the commit that R146 gives it comes first. -/
def executeFence (i : Instr) (scope : BitVec 3) (acquire release sc : Bool) (s : State) : Host.Outcome State Fault Refusal :=
  execute i (do
    let r ← M.rod
    (if acquire then M.view fun v => v.acquire r.agent scope.toNat v.got else pure ())
    (if sc then M.scPoint scope.toNat else pure ())
    (if release then M.view fun v => v.fence r.agent scope.toNat else pure ())) s

/-- FENCE acq (R364): no commit point. -/
def execFenceAcq (f : ShScope) (s : State) : Host.Outcome State Fault Refusal := executeFence (.fenceAcq f) f.s true false false s

/-- FENCE rel (R364). -/
def execFenceRel (f : ShScope) (s : State) : Host.Outcome State Fault Refusal := executeFence (.fenceRel f) f.s false true false s

/-- FENCE acqrel (R364). -/
def execFenceAcqrel (f : ShScope) (s : State) : Host.Outcome State Fault Refusal :=
  executeFence (.fenceAcqrel f) f.s true true false s

/-- FENCE sc (R364). -/
def execFenceSc (f : ShScope) (s : State) : Host.Outcome State Fault Refusal := executeFence (.fenceSc f) f.s true true true s

/-- What an XFENCE of a rod makes visible to the second path (R170): the writes that happen before it, and its own. -/
def View.crossed (v : View) : Marks := v.hb.join v.own

/-- What XFENCE does (R170): a FENCE acqrel at its scope on the program path; and the writes of the first path that happen
before it are visible to the accesses of the second path that come after it, of agents in its scope. -/
def M.cross (first second scope : Nat) : M Unit := do
  let r ← M.rod
  M.view fun v => v.acquire r.agent scope v.got
  M.view fun v => { v with ord := joinCross v.ord [⟨first, second, scope, r.agent, v.crossed⟩] }
  M.view fun v => v.fence r.agent scope

/-- XFENCE (R170, R436). -/
def execXfence (f : ShXfence) (s : State) : Host.Outcome State Fault Refusal :=
  execute (.xfence f) (M.cross f.f.toNat f.t.toNat f.s.toNat) s

/-! ### FLUSH, WAITV and PREF -/

/-- FLUSH: an early commit, which leaves the restart address and waits until every line can be performed, then sleep
until the walk ends (R173, R365). -/
def executeFlush (i : Instr) (scope : Nat) (inv : Bool) (s : State) : Host.Outcome State Fault Refusal :=
  executeControl i (do
    let r ← M.rod
    M.ownPages
    M.upd fun s => s.commitPerform r.uid
    throw (.sleep 0 (.flush scope inv) false)) s

/-- FLUSH, write-back (R365). -/
def execFlush (f : ShScope) (s : State) : Host.Outcome State Fault Refusal :=
  executeFlush (.flush f) f.s.toNat false s

/-- FLUSH, write-back and invalidate (R365). -/
def execFlushInv (f : ShScope) (s : State) : Host.Outcome State Fault Refusal :=
  executeFlush (.flushInv f) f.s.toNat true s

/-- The lines a slice walk of a scope reaches for a core (R173): those whose home is a walked slice.  R173 does not say whether
the walked range also has the die copies that a walked slice holds of other slices' lines; in the model it has not (DESIGN
CHOICE, assumption 76). -/
def flushReaches (scope core line : Nat) : Bool :=
  match scope with
  | 2 => decide (homeSliceOf line = boardOf core)
  | 3 => decide (homeSliceOf line / 4 = tableOf core)
  | _ => true

/-- The FLUSH of a rod can complete (R173, R313): the rod's own lines are performed; the dirty lines within reach can be
written back, so that no CXL port of theirs is silent; at house scope every write of the device to another device's pages
has been performed, and at sys scope every write to the CXL tier too. -/
def State.flushable (s : State) (r : Rod) (scope : Nat) : Bool :=
  (s.inflight.all fun i =>
    !(decide (i.rod = r.uid) ||
      i.bytes.any fun w =>
        (decide (5 ≤ scope ∧ field w.1 50 2 = 2 ∧ field w.1 38 12 ≠ s.endpoint)) || decide (6 ≤ scope ∧ field w.1 50 2 = 1))) &&
    s.dirty.all fun l => !flushReaches scope r.core l || (s.portDown (l * 128)).isNone

/-- FLUSH_WALK_COMPLETE: the dirty lines within reach are in memory; the invalidating form drops the die copies; the
rod goes on after its FLUSH (R173, R365). At sys scope what was written to the CXL tier is persistent where its port is
(R313). -/
def execFlushWalkComplete (rod : Nat) (s : State) : Host.Outcome State Fault Refusal :=
  match s.rod? rod with
  | none => .next s
  | some r =>
    match r.status with
    | .asleep (.flush scope inv) _ _ =>
      if s.flushable r scope then
        .next { s.setRod { r.advance with status := .ready } with
          dirty := s.dirty.filter fun l => !flushReaches scope r.core l
          volatile := if scope = 6 then [] else s.volatile
          dieCopies := if inv then s.dieCopies.filter fun c => !flushReaches scope r.core c.line else s.dieCopies }
      else .next s
    | _ => .next s

/-- Monitors that rods of a core hold (R172). -/
def State.monitors (s : State) (core : Nat) : Nat :=
  ((s.rods.filter fun r => decide (r.core = core)).map fun r =>
    match r.status with
    | .asleep (.waitv ls _ _) _ _ => ls.length
    | _ => 0).sum

/-- WAITV (R172, R432): the lines are armed at their homes, and the words are read as the homes then have them, strongly and
with acquire, so that no write is missed between a wake-up and the next read; equality in any bead puts the rod to sleep. -/
def executeWaitv (i : Instr) (f : ShWaitv) (size : Nat) (s : State) : Host.Outcome State Fault Refusal :=
  execute i (do
    let r ← M.rod
    let parts := if f.u then [none] else r.beadsActive.map some
    let addrs ← M.ahead (parts.mapM fun b =>
      M.reach b (r.cap f.c.toNat) { rd := true } (r.offset b false f.a * size) size .load)
    let words ← addrs.mapM fun a => do
      M.upd fun s => s.installOwn (dieOfCore r.core) (lineOf a)
      M.load true true a size
    let s ← get
    let equal := (parts.zip words).any fun (b, x) => decide (x = (r.operand b (decide (size = 8)) f.d).toNat)
    let room := Config.monitors - s.monitors r.core
    let lines := distinct (addrs.map lineOf)
    M.need (!equal) (.sleep 0 (.waitv (lines.take room) false (decide (room < lines.length))) true)) s

/-- WAITV of a 32-bit word (R432). -/
def execWaitv (f : ShWaitv) (s : State) : Host.Outcome State Fault Refusal := executeWaitv (.waitv f) f 4 s

/-- WAITV of a 64-bit word (R432). -/
def execWaitvS64 (f : ShWaitv) (s : State) : Host.Outcome State Fault Refusal := executeWaitv (.waitvS64 f) f 8 s

/-- A rod that sleeps in WAITV becomes ready to execute it again (R172). -/
def Rod.wakeWaitv (r : Rod) : Rod :=
  match r.status with
  | .asleep (.waitv _ _ _) _ _ => { r with resume := 0, status := .ready }
  | _ => r

/-- WAITV_MONITOR_WAKE: a line that the rod armed was written (R172). -/
def execWaitvMonitorWake (rod : Nat) (s : State) : Host.Outcome State Fault Refusal := .next (s.modRod rod Rod.wakeWaitv)

/-- WAITV_SLEEP_TIMEOUT: 1,024 cycles of sleep with the monitor table full at the arming (R172). -/
def execWaitvSleepTimeout (rod : Nat) (s : State) : Host.Outcome State Fault Refusal := .next (s.modRod rod Rod.wakeWaitv)

/-- PREF (R395): a prefetch changes no architectural state. -/
def execPref (f : ShPref) (s : State) : Host.Outcome State Fault Refusal := execute (.pref f) (pure ()) s

end Sys2Proof.Machine
end

