-- ==== Sys2Proof/Machine/Cells.lean ====
section
/-!
DEFINITION. The typed buffers: cells and presence bits, waiting at a cell, the touch of a window, and LDL and STL
(R122 to R130, R171, R179, R181, R219, R385, R417, R418).
-/

namespace Sys2Proof.Machine

/-! ### Cells -/

/-- An absent cell of zeros (R125). -/
def Cell.empty : Cell := ⟨0, false⟩

/-- The key of a cell: core, buffer (0 S, 1 W, 2 A, 3 C) and physical cell number. -/
def cellKey (core buf cell : Nat) : Nat := (core * 4 + buf) * 65536 + cell

/-- Cells of a buffer (R10, R122). -/
def bufferCells (buf : Nat) : Nat :=
  match buf with
  | 1 => 65536
  | 3 => 16384
  | _ => 32768

/-- A cell. -/
def State.cell (s : State) (core buf cell : Nat) : Cell := Sparse.get Cell.empty s.cells (cellKey core buf cell)

/-- A cell is replaced, and nobody is told. -/
def State.setCell (s : State) (core buf cell : Nat) (c : Cell) : State :=
  { s with cells := Sparse.set Cell.empty s.cells (cellKey core buf cell) c }

/-- A frame's segment of a buffer (R56). -/
def Frame.seg (f : Frame) (buf : Nat) : Seg :=
  match buf with
  | 0 => f.segS
  | 1 => f.segW
  | 2 => f.segA
  | _ => f.segC

/-- Two ranges of cells share a cell. -/
def overlap (a n b m : Nat) : Bool := decide (a < b + m ∧ b < a + n ∧ 0 < n ∧ 0 < m)

/-- The states in which a slot owns its cells (R219). -/
def SlotState.owns : SlotState → Bool
  | .held | .open_ | .away | .dead => true
  | .free | .complete => false

/-- Some of `n` physical cells of C from `cell` are carry-owned (R219). -/
def State.carryOwned (s : State) (core cell n : Nat) : Bool :=
  s.slots.any fun (k, sl) =>
    decide (k / 32 = core) && sl.st.owns &&
      match s.frame? sl.frame with
      | none => false
      | some f => overlap (f.segC.base.toNat + sl.cell) sl.size cell n

/-- A cell as a consumer finds it: a carry-owned cell is absent (R219). -/
def State.seen (s : State) (core buf cell : Nat) : Cell :=
  let c := s.cell core buf cell
  if buf = 3 ∧ s.carryOwned core cell 1 then { c with present := false } else c

/-! ### Waiting at a cell (R128, R129) -/

/-- The rod's waiting bead has been served: it goes on with the bead after it, or past the instruction. -/
def Rod.served (r : Rod) (u take : Bool) : Rod :=
  let r1 := { r with status := .ready }
  if !u && (upto 16 fun k => r.active.getLsbD k && decide (r.resume < k)) ≠ [] then { r1 with resume := r.resume + 1 }
  else if take then r1.advance.openRegion
  else r1.advance

/-- The part of a cell that an access of a size reads. -/
def Cell.part (c : Cell) (sub size : Nat) : Nat := field c.data.toNat (8 * sub) (8 * size)

/-- The bead that a rod records as waiting: none for a uniform access. -/
def Rod.waitingBead (r : Rod) (u : Bool) : Option Nat := if u then none else some r.resume

/-- The rods that wait at a cell, in the order in which they began to wait; of rods that begin in one cycle the manual gives no
order, and the one that went to sleep there first in the model goes first (DESIGN CHOICE, assumption 1). -/
def State.waitersAt (s : State) (core buf cell : Nat) : List (Nat × CellWait) :=
  let waiting := s.rods.filterMap fun r =>
    match r.status with
    | .asleep (.cell c b n acc) ticket _ =>
      if c = core ∧ b = buf ∧ n = cell ∧ !s.halted r.asid then some (ticket, r.uid, acc) else none
    | _ => none
  (sortBy Prod.fst waiting).map Prod.snd

/-- Waiters are served while the cell is present (R128). -/
def State.serveEach (s : State) (core buf cell : Nat) : List (Nat × CellWait) → State
  | [] => s
  | (u, acc) :: rest =>
    let c := s.cell core buf cell
    if !c.present then s
    else
      let s' := match acc with
        | .peek => s.modRod u fun r => { r with peeked := r.peeked ++ [c.data], status := .ready }
        | .ldl take uni d w sub =>
          let s1 := if take then s.setCell core buf cell { c with present := false } else s
          s1.modRod u fun r =>
            (r.setLoaded (r.waitingBead uni) d w (c.part sub (accessSize w))).served uni take
      State.serveEach s' core buf cell rest

/-- The cell has become present: whoever waits there is served (R128). -/
def State.serveCell (s : State) (core buf cell : Nat) : State :=
  s.serveEach core buf cell (s.waitersAt core buf cell)

/-- An engine writes a whole cell and sets its presence bit (R126). -/
def State.writeCell (s : State) (core buf cell : Nat) (x : BitVec 128) : State :=
  (s.setCell core buf cell ⟨x, true⟩).serveCell core buf cell

/-- Cells are made absent and keep their data (R126). -/
def State.absentCells (s : State) (core buf first : Nat) : Nat → State
  | 0 => s
  | n + 1 =>
    let s' := State.absentCells s core buf first n
    s'.setCell core buf (first + n) { s'.cell core buf (first + n) with present := false }

/-- Cells are made absent and their bytes zero (R125, R407). -/
def State.clearCells (s : State) (core buf first n : Nat) : State :=
  let lo := cellKey core buf first
  { s with cells := s.cells.filter fun c => !decide (lo ≤ c.1 ∧ c.1 < lo + n) }

/-! ### Windows are touched (R179) -/

/-- Cells of a window (R176, R185). -/
def Window.cells (w : Window) : Nat := w.rows * w.rowc

/-- The window holds a cell of its segment. -/
def Window.holds (w : Window) (buf cell : Nat) : Bool :=
  decide (w.st ≠ .free ∧ w.buf = buf ∧ w.cell ≤ cell ∧ cell < w.cell + w.cells)

/-- A Bound window starts its copy, whose accesses come after what comes before its binding and its touch (R169, R170). -/
def Window.start (x : Seen) (w : Window) : Window :=
  if w.st = .bound then { w with st := .copying, seen := w.seen.join x } else w

/-- A window of the frame is touched, and with it the partner of a gather (R179, R186). -/
def Frame.touch (f : Frame) (x : Seen) (n : Nat) : Frame :=
  match f.windows[n]? with
  | none => f
  | some w =>
    if w.st ≠ .bound then f
    else
      let ws := setNth f.windows n (w.start x)
      match w.gather with
      | none => { f with windows := ws }
      | some g =>
        match ws[g.partner]? with
        | none => { f with windows := ws }
        | some p => { f with windows := setNth ws g.partner (p.start x) }

/-- A consuming access to a cell of the frame touches the windows that hold it (R179). -/
def Frame.touchCell (f : Frame) (x : Seen) (buf cell : Nat) : Frame :=
  (List.range f.windows.length).foldl (fun f n =>
    match f.windows[n]? with
    | some w => if w.holds buf cell then f.touch x n else f
    | none => f) f

/-- A consuming access to cells of a frame. -/
def State.touchCells (s : State) (x : Seen) (frame buf cell n : Nat) : State :=
  s.modFrame frame fun f => (List.range n).foldl (fun f i => f.touchCell x buf (cell + i)) f

/-- The copy of a window, or the walk that it belongs to, waits on a fault record (R192). -/
def Frame.waitsFault (f : Frame) (w : Window) : Bool :=
  w.fault.isSome || w.gather.any fun g => (f.windows[g.partner]?).any fun p => p.fault.isSome

/-- A rod consumes an absent cell of its frame, given by its physical number: the fault record on which the copy of a window
that holds the cell waits is tagged with the rod (R192). -/
def State.tagConsumer (s : State) (r : Rod) (buf cell : Nat) : State :=
  s.modFrame r.frame fun f => { f with
    windows := f.windows.map fun w =>
      if f.waitsFault w ∧ (f.seg buf).base.toNat ≤ cell ∧ w.holds buf (cell - (f.seg buf).base.toNat) ∧ ¬ r.uid ∈ w.tags
      then { w with tags := w.tags ++ [r.uid] } else w }

/-- An instruction reads whole cells of the rod's core as peeks, in ascending order, and sleeps at the first that is
absent; what it has read so far is kept (R128, R129, R222, R226). -/
def M.peekCells (b : Option Nat) (buf first n : Nat) : M (List (BitVec 128)) := do
  let r ← M.rod
  let s ← get
  let here := (List.range n).map fun i => s.seen r.core buf (first + i)
  let fresh := (here.drop r.peeked.length).takeWhile fun c => c.present
  let got := (r.peeked ++ fresh.map Cell.data).take n
  if got.length = n then do
    onRod (modify fun r => { r with peeked := [] })
    pure got
  else do
    onRod (modify fun r => { r with peeked := got })
    M.upd fun s => s.tagConsumer r buf (first + got.length)
    throw (.sleep (beadNo b) (.cell r.core buf (first + got.length) .peek) true)

/-! ### LDL and STL -/

/-- The segment fault (R124). -/
def segmentFault (b : Option Nat) : Stop := capFault b 4

/-- The cell of an access and its byte in the cell, relative to the segment (R124). -/
def M.localCell (b : Option Nat) (buf : Nat) (off : BitVec 7) (size : Nat) : M (Nat × Nat) := do
  let r ← M.rod
  let fr ← M.frame
  let byte := (r.word b off).toNat * size
  M.need (decide (byte / 16 < (fr.seg buf).limit.toNat)) (segmentFault b)
  pure (byte / 16, byte % 16)

/-- LDL of a buffer (R127, R129, R385): take 0, peek 1, probe 2 (R71). -/
def ldl (f : ShLdl) (buf : Nat) : M Unit :=
  M.each f.u fun b => do
    let size := accessSize f.w
    let (rel, sub) ← M.localCell b buf f.f size
    let r ← M.rod
    let fr ← M.frame
    let n := (fr.seg buf).base.toNat + rel
    (if f.q.toNat = 2 then pure () else M.upd fun s => s.touchCells r.view.seen fr.uid buf rel 1)
    let s ← get
    let c := s.seen r.core buf n
    if f.q.toNat = 2 then onRod (modify fun r => r.setLoaded b f.d f.w c.present.toNat)
    else if c.present then do
      let take := decide (f.q.toNat = 0)
      M.upd fun s => if take then s.setCell r.core buf n { c with present := false } else s
      onRod (modify fun r => r.setLoaded b f.d f.w (c.part sub size))
    else do
      M.upd fun s => s.tagConsumer r buf n
      throw (.sleep (beadNo b) (.cell r.core buf n (.ldl (decide (f.q.toNat = 0)) f.u f.d f.w sub)) true)

/-- LDL S (R385). -/
def execLdlS (f : ShLdl) (s : State) : Host.Outcome State Fault Refusal := execute (.ldlS f) (ldl f 0) s

/-- LDL W (R385). -/
def execLdlW (f : ShLdl) (s : State) : Host.Outcome State Fault Refusal := execute (.ldlW f) (ldl f 1) s

/-- LDL A (R385). -/
def execLdlA (f : ShLdl) (s : State) : Host.Outcome State Fault Refusal := execute (.ldlA f) (ldl f 2) s

/-- LDL C (R385). -/
def execLdlC (f : ShLdl) (s : State) : Host.Outcome State Fault Refusal := execute (.ldlC f) (ldl f 3) s

/-- STL to a buffer (R417, R418). -/
def executeStl (i : Instr) (f : ShStl) (buf : Nat) (s : State) : Host.Outcome State Fault Refusal :=
  execute i (M.each f.u fun b => do
    let size := accessSize f.w
    let (rel, sub) ← M.localCell b buf f.f size
    let r ← M.rod
    let fr ← M.frame
    let n := (fr.seg buf).base.toNat + rel
    let s ← get
    M.need (!(decide (buf = 3) && s.carryOwned r.core n 1)) (segmentFault b)
    let old := (s.cell r.core buf n).data.toNat
    M.upd fun s => s.writeCell r.core buf n (BitVec.ofNat 128 (setField old (8 * sub) (8 * size) (r.stored b f.d f.w)))) s

/-- STL S (R417). -/
def execStlS (f : ShStl) (s : State) : Host.Outcome State Fault Refusal := executeStl (.stlS f) f 0 s

/-- STL A (R417). -/
def execStlA (f : ShStl) (s : State) : Host.Outcome State Fault Refusal := executeStl (.stlA f) f 2 s

/-- STL C (R417). -/
def execStlC (f : ShStl) (s : State) : Host.Outcome State Fault Refusal := executeStl (.stlC f) f 3 s

end Sys2Proof.Machine
end

