-- ==== Sys2Proof/Machine/Engine.lean ====
section
/-!
DEFINITION. What the engines share: access to global memory for a context, the faults of an engine request, and stop
records (R117, R121, R191 to R194, R295).
-/

namespace Sys2Proof.Machine

/-- Who accesses memory for a context: the core whose first-level TLB and object cache it uses, none for a package copy
engine, the path of its accesses (R155), and what comes before them (R169, R170). -/
structure Client where
  core : Option Nat
  asid : Nat
  path : Nat
  seen : Seen
  deriving DecidableEq, Repr

/-- The client as an agent (R156): an engine of its core, or of the device. -/
def Client.agent (c : Client) : Agent :=
  match c.core with
  | some k => .engine k
  | none => .device

/-- An access of an engine must see the write (R162, R169): its own, one that comes before the access, or an old one. -/
def State.engineMustSee (s : State) (c : Client) (w : WriteRec) : Bool := s.aged w || c.seen.has c.agent c.path w

/-- The physical address of a device virtual address, for an engine: a miss in the TLBs asks for a walk (R141). -/
def State.engineXlate (s : State) (c : Client) (va : Nat) (write : Bool) : Except EngineFail Nat × State :=
  let x := va % 2 ^ 48
  match s.lookup c.core c.asid x write with
  | (some t, s1) => s1.enginePlace x t write
  | (none, _) => (.error (.walk x (absentKind write false)), s.askWalk c.asid x write)

/-- LEN and base of an object for an engine: from its core's object cache, or the object table (R135, R136). -/
def State.engineObject (s : State) (c : Client) (h : Nat) : Except EngineFail (Nat × Nat) × State :=
  match c.core.bind fun k => s.cachedObject k c.asid h with
  | some o => (.ok o, s)
  | none =>
    match s.objectEntry c.asid h with
    | none => (.error (.port 8 0), s)
    | some va =>
      match s.engineXlate c va false with
      | (.error e, s1) => (.error e, s1)
      | (.ok a, s1) =>
        if s1.damaged a 16 then (.error (.data va), s1)
        else match objectOf (s1.natAt a 16) with
        | none => (.error (.port 8 0), s1)
        | some (len, base) =>
          (.ok (len, base), match c.core with
            | some k => s1.cacheObject k c.asid h len base
            | none => s1)

/-- The physical address of a byte range of an object, for an engine. -/
def State.engineReach (s : State) (c : Client) (cap : Cap) (byte size : Nat) (write : Bool) : Except EngineFail Nat × State :=
  match s.engineObject c cap.handle.toNat with
  | (.error e, s') => (.error e, s')
  | (.ok (len, base), s') =>
    let va := (base + byte) % 2 ^ 48
    if len < byte + size then (.error (.port 3 va), s')
    else
      match s'.engineXlate c va write with
      | (.ok a, s2) => if !write && s2.damaged a size then (.error (.data va), s2) else (.ok a, s2)
      | (.error e, s2) => (.error e, s2)

/-- LEN and base of an object for a unit of the device that waits for its walks in the same step (R135, R136). -/
def State.unitObject (s : State) (asid h : Nat) : Except EngineFail (Nat × Nat) × State :=
  match s.objectEntry asid h with
  | none => (.error (.port 8 0), s)
  | some va =>
    match s.engineVaRead asid va 16 with
    | (.error e, s1) => (.error e, s1)
    | (.ok a, s1) => (match objectOf (s1.natAt a 16) with
      | none => .error (.port 8 0)
      | some o => .ok o, s1)

/-- The physical address of a byte range of an object for such a unit. -/
def State.unitReach (s : State) (asid : Nat) (cap : Cap) (byte size : Nat) (write : Bool) : Except EngineFail Nat × State :=
  match s.unitObject asid cap.handle.toNat with
  | (.error e, s') => (.error e, s')
  | (.ok (len, base), s') =>
    if len < byte + size then (.error (.port 3 ((base + byte) % 2 ^ 48)), s')
    else s'.engineVa asid ((base + byte) % 2 ^ 48) write

/-- The access waits: for an export page (R311) or a CXL port (R313). -/
def EngineFail.barred : EngineFail → Bool
  | .fabric _ _ | .tier _ _ _ => true
  | _ => false

/-- The release of the device's own units at sys scope, taken to put every write performed so far before it (assumption
48). -/
def State.sysRelease (s : State) : Stamp := ⟨.device, 6, s.allMarks, []⟩

/-- A completion signal of an engine (R170): a release at dev scope of the writes `own` of its request, and of the signal
itself, which is the next write, of at most 8 bytes, at the homes of a die. -/
def State.completion (s : State) (agent : Agent) (own : Marks) (a : Nat) : Stamp :=
  (⟨agent, 4, own, []⟩ : Stamp).through (homeDieOf a) (s.fresh + 1)

/-- A number of `n` bytes is written at its home by a unit of the device, with a release at sys scope. -/
def State.signal (s : State) (a n x : Nat) : State :=
  s.pathWrite 0 .device [s.sysRelease.through (homeDieOf a) (s.fresh + 1)] (placed a (bytesOfNat n x))

/-- The physical addresses of `n` successive bytes of an object, for an engine. -/
def State.engineBytes (s : State) (c : Client) (cap : Cap) (byte : Nat) (write : Bool) :
    Nat → Except EngineFail (List Nat) × State
  | 0 => (.ok [], s)
  | n + 1 =>
    match s.engineReach c cap byte 1 write with
    | (.error e, s') => (.error e, s')
    | (.ok a, s') =>
      match s'.engineBytes c cap (byte + 1) write n with
      | (.error e, s2) => (.error e, s2)
      | (.ok as, s2) => (.ok (a :: as), s2)

/-- Bytes at physical addresses as an access of an engine finds them, eight at a time, each time without some of the newest
writes that it need not see (R162, R169); `fuel` is at least the number of addresses. -/
def State.gatherAs (s : State) (c : Client) : Nat → List Nat → List Byte × State
  | 0, _ => ([], s)
  | _ + 1, [] => ([], s)
  | fuel + 1, a :: as =>
    let unit_ := (a :: as).take 8
    let ws := s.writes.filter fun w => unit_.any fun x => w.touches x 1
    let (hidden, s1) := s.hide (optional (s.engineMustSee c) ws)
    let (rest, s2) := s1.gatherAs c fuel ((a :: as).drop 8)
    (unit_.map (fun x => s1.byteWithout hidden x) ++ rest, s2)

/-- `n` bytes of an object as an engine reads them, as a number. -/
def State.engineRead (s : State) (c : Client) (cap : Cap) (byte n : Nat) : Except EngineFail Nat × State :=
  match s.engineBytes c cap byte false n with
  | (.error e, s') => (.error e, s')
  | (.ok as, s') =>
    let (bs, s2) := s'.gatherAs c as.length as
    (.ok (natOfBytes bs), s2)

/-- An engine request waits (R141, R311, R313). -/
def State.engineAwaits (s : State) (who : Walker) (asid core : Nat) (frameid : BitVec 32) (va : Nat) (x : EngineWait) : State :=
  if s.fabricWaits.any fun w => decide (w.who = who) then s
  else { s with fabricWaits := s.fabricWaits ++ [⟨who, asid, core, frameid, va, x, s.now⟩] }

/-- A fault of an engine request (R117, R121, R138, R192): a page fault goes to the home slice with PC 0; what bars the
request makes it wait; the others are fatal to the context.  `wait` marks the request as waiting on a fault record. -/
def State.engineFault (s : State) (asid core agent : Nat) (frameid : BitVec 32) (who : Walker) (wait : State → State) :
    EngineFail → State
  | .page va kind =>
    { wait s with faultWait := s.faultWait ++ [⟨0, 0, asid, va, kind, agent, core, 0, 0, [who]⟩] }
  | .malformed va => s.raiseHalt asid (haltOfEngine s core 10 2 va frameid)
  | .data va => s.raiseHalt asid (haltOfEngine s core 10 1 va frameid)
  | .port cause va => s.raiseHalt asid (haltOfEngine s core 8 cause va frameid)
  | .walk va kind => s.engineAwaits who asid core frameid va (.walk kind agent)
  | .fabric page va => s.engineAwaits who asid core frameid va (.page page)
  | .tier port va limit => s.engineAwaits who asid core frameid va (.port port limit)

/-- The request waits for a walk, an export page or a CXL port. -/
def State.awaits (s : State) (w : Walker) : Bool := s.fabricWaits.any fun x => decide (x.who = w)

/-! ### Stop records (R193, R295) -/

/-- The context's stop area (R295). -/
def State.stopArea (s : State) (asid : Nat) : Nat := s.ctxSaveBase asid + 32 * 2 ^ 20

/-- A number of `n` bytes is written at a device virtual address of a context, where its page is resident
(assumption 7). -/
def State.writeVa (s : State) (asid va n x : Nat) : State :=
  match s.engineVa asid va true with
  | (.ok a, s') => s'.homeWriteNat a n x
  | (.error _, s') => s'

/-- A stop record (R193), all but its ASID. -/
structure StopRec where
  kind : Nat
  status : Nat
  unit_ : Nat
  core : Nat
  frameid : Nat
  seq : Nat
  entry : Nat
  done : Nat
  deriving DecidableEq, Repr

/-- The 256 bits of a stop record. -/
def StopRec.toNat (r : StopRec) (asid : Nat) : Nat :=
  packFields [(22, 0), (10, asid), (48, r.done), (48, r.entry), (64, r.seq), (32, r.frameid), (8, r.core),
    (8, r.unit_), (8, r.status), (8, r.kind)]

/-- The path of the engine that stopped (R155, R193). -/
def StopRec.path (r : StopRec) : Nat := if r.kind = 2 then 2 else if r.kind = 4 then 4 else 1

/-- A number of `n` bytes is written by an agent on a path at a device virtual address of a context, where its page is
resident (assumption 7), with the releases that the write carries, which may go with its physical address. -/
def State.writeVaAs (s : State) (path : Nat) (agent : Agent) (stamps : State → Nat → List Stamp) (asid va n x : Nat) : State :=
  match s.engineVa asid va true with
  | (.ok a, s') => s'.pathWrite path agent (stamps s' a) (placed a (bytesOfNat n x))
  | (.error _, s') => s'

/-- The engine that stopped as an agent (R156): of a core, or of the device. -/
def StopRec.agent (r : StopRec) : Agent := if r.kind = 3 then .device else .engine r.core

/-- A stop record is written, and NSTOPS advances with a release of the engine's writes `own` at dev scope; a halt that is
not yet recorded counts the record (R170, R295). -/
def State.writeStop (s : State) (asid : Nat) (own : Marks) (r : StopRec) : State :=
  let n := match s.ctx? asid with
    | some c => c.nstops
    | none => 0
  let s1 := s.writeVaAs r.path r.agent (fun s a => [s.completion r.agent own a]) asid
    (s.stopArea asid + 128 + 32 * (n % 32764)) 32 (r.toNat asid)
  let s2 := s1.writeVaAs r.path r.agent (fun s a => [s.completion r.agent s.allMarks a]) asid (s.stopArea asid + 64) 8 (n + 1)
  s2.modCtx asid fun c => { c with
    nstops := n + 1
    halt := c.halt.map fun h => if r.status = 0 ∧ !h.complete then { h with nstop := h.nstop + 1 } else h }

end Sys2Proof.Machine
end

