-- ==== Sys2Proof/Machine/Matrix.lean ====
section
/-!
DEFINITION. Matrix engines: tile tasks and their records, the task picker, the power governor, INFER and BURST
(R196 to R216, R341, R378, R427).
-/

namespace Sys2Proof.Machine

/-! ### Records and ranges (R196 to R199) -/

/-- A field of a record. -/
def recField (x : BitVec 256) (lo n : Nat) : Nat := field x.toNat lo n

/-- The fields of a tile-task record (R196): MT, NT and KT. -/
def recMt (x : BitVec 256) : Nat := recField x 250 2 + 1
/-- NT. -/
def recNt (x : BitVec 256) : Nat := recField x 248 2 + 1
/-- KT. -/
def recKt (x : BitVec 256) : Nat := recField x 240 8 + 1

/-- A record is malformed (R196). -/
def recBad (x : BitVec 256) : Bool :=
  decide (2 ≤ recField x 252 4 ∨ recField x 234 2 = 3 ∨ recField x 230 2 = 3 ∨ recField x 236 4 ≠ 0 ∨
    recField x 224 3 ≠ 0 ∨ recField x 128 4 ≠ 0 ∨ recField x 0 108 ≠ 0)

/-- A pair of classes that a task may have (R198). -/
def classPairOk (af bf : Nat) : Bool := decide ((af < 3 ∧ bf < 3) ∨ (af = 3 ∧ bf = 3) ∨ (af = 4 ∧ bf = 4))

/-- Cycles of one unit (R199). -/
def unitCycles (af bf : Nat) : Nat :=
  if 3 ≤ af ∨ 3 ≤ bf then 32 else if af = 2 ∧ bf = 2 then 8 else 16

/-- The compute length of a task (R199). -/
def computeLength (x : BitVec 256) (af bf : Nat) : Nat := recMt x * recNt x * recKt x * unitCycles af bf

/-- Cells of a panel for each 64 rows (R197). -/
def panelCells (cls : Nat) : Nat :=
  match cls with
  | 0 => 136
  | 1 => 104
  | 2 => 72
  | _ => 256

/-- Two ranges share a cell. -/
def Range.meets (a b : Range) : Bool := decide (a.core = b.core ∧ a.buf = b.buf) && overlap a.first a.len b.first b.len

/-- Every cell of a range is present. -/
def State.present (s : State) (r : Range) : Bool :=
  (List.range r.len).all fun i => (s.seen r.core r.buf (r.first + i)).present

/-- A range of a frame's segment. -/
def Frame.range (f : Frame) (buf cell len : Nat) : Range := ⟨f.core, buf, (f.seg buf).base.toNat + cell, len⟩

/-- The range lies within the segment. -/
def Frame.fits (f : Frame) (buf cell len : Nat) : Bool := decide (cell + len ≤ (f.seg buf).limit.toNat)

/-- An operand of a task: its buffer, board position, first cell and cells. -/
structure Operand where
  buf : Nat
  pos : Nat
  cell : Nat
  len : Nat
  deriving DecidableEq, Repr

/-- Operand A of a record. -/
def recA (x : BitVec 256) (af : Nat) : Operand :=
  ⟨recField x 234 2, recField x 232 2, recField x 172 20, recKt x * recMt x * panelCells af⟩

/-- Operand B of a record. -/
def recB (x : BitVec 256) (bf : Nat) : Operand :=
  ⟨recField x 230 2, recField x 228 2, recField x 152 20, recKt x * recNt x * panelCells bf⟩

/-- The result of a record: buffer, first cell, cells. -/
def recC (x : BitVec 256) : Nat × Nat × Nat :=
  (if recField x 227 1 = 1 then 0 else 3, recField x 132 20, recMt x * recNt x * 2048)

/-- The done cell of a record. -/
def recDone (x : BitVec 256) : Nat := recField x 108 20

/-- The position of a core on its board (R9). -/
def positionOf (core : Nat) : Nat := core % 4

/-- An operand lies on the issuing core. -/
def Operand.local_ (o : Operand) (f : Frame) : Bool := decide (o.pos = positionOf f.core)

/-- The checks of a record as its bead issues (R201): the fault, if one fails. -/
def State.recordFault (s : State) (f : Frame) (x : BitVec 256) (af bf : Nat) (b : Option Nat) : Option Stop :=
  if recBad x || !classPairOk af bf || decide (2048 < computeLength x af bf) then some (.trap 9 4 b 0 0)
  else
    let oa := recA x af
    let ob := recB x bf
    let (cbuf, ccell, clen) := recC x
    let c := f.range cbuf ccell clen
    let d := f.range 0 (recDone x) 1
    let ra := f.range oa.buf oa.cell oa.len
    let rb := f.range ob.buf ob.cell ob.len
    let la := oa.local_ f
    let lb := ob.local_ f
    let ok :=
      (!la || (f.fits oa.buf oa.cell oa.len && !c.meets ra && !d.meets ra)) &&
      (!lb || (f.fits ob.buf ob.cell ob.len && !c.meets rb && !d.meets rb)) &&
      f.fits cbuf ccell clen && f.fits 0 (recDone x) 1 && !c.meets d &&
      !(decide (cbuf = 3) && s.carryOwned f.core c.first c.len)
    if ok then none else some (segmentFault b)

/-! ### Posting (R200, R201, R211) -/

/-- Entries of a core's task queue in use (R201). -/
def State.queued (s : State) (core : Nat) : Nat := (s.tasks.filter fun t => decide (t.core = core)).length

/-- A task enters the core's queue; when it is full the rod waits (R22, R201). -/
def M.postTask (b : Option Nat) (kind : TaskKind) : M Unit := do
  let r ← M.rod
  let s ← get
  M.need (decide (s.queued r.core < Config.taskQueue)) (.sleep (beadNo b) .taskQueue false)
  let n ← M.run State.take
  M.upd fun s => { s with tasks := s.tasks ++ [⟨n, r.core, r.frame, r.uid, r.asid, kind, .queued, [], [], 0, r.view.seen⟩] }

/-- The record that a TTASK names (R200). -/
def Rod.taskRecord (r : Rod) (b : Option Nat) (a : BitVec 7) : BitVec 256 :=
  if isS a then BitVec.ofNat 256 (packFields ((r.sgroup a 4).map fun x => (64, x.toNat)))
  else BitVec.ofNat 256 (natOfWords (r.vgroup (beadNo b) a 8))

/-- TTASK (R200, R201, R427). -/
def execTtask (f : ShUA) (s : State) : Host.Outcome State Fault Refusal :=
  execute (.ttask f) (M.each f.u fun b => do
    let r ← M.rod
    let fr ← M.frame
    let s ← get
    let x := r.taskRecord b f.a
    let af := field r.fmt.toNat 0 3
    let bf := field r.fmt.toNat 3 3
    match s.recordFault fr x af bf b with
    | some e => throw e
    | none => M.postTask b (.tile x af bf)) s

/-- Layers of a network descriptor's cell 0, in 1 to 4 (R210, assumption 11). -/
def descLayers (x : Nat) : Nat := max 1 (min 4 (field x 0 4))

/-- The input width of a descriptor's cell 0, in 1 to 8 (R210, assumption 11). -/
def descInw (x : Nat) : Nat := max 1 (min 8 (field x 4 8))

/-- The output width of a layer cell, in 1 to 4 (R210, assumption 11). -/
def layerNw (x : Nat) : Nat := max 1 (min 4 (field x 40 4))

/-- A cell of a frame's segment. -/
def State.frameCell (s : State) (f : Frame) (buf cell : Nat) : Cell := s.cell f.core buf ((f.seg buf).base.toNat + cell)

/-- NW(L) and INW of the descriptor at a cell of S as they stand (R211). -/
def State.descSizes (s : State) (f : Frame) (desc : Nat) : Nat × Nat :=
  let x := (s.frameCell f 0 desc).data.toNat
  (layerNw (s.frameCell f 0 (desc + descLayers x)).data.toNat, descInw x)

/-- INFER (R211, R378). -/
def execInfer (i : ShUDAB) (s : State) : Host.Outcome State Fault Refusal :=
  execute (.infer i) (M.each i.u fun b => do
    let r ← M.rod
    let f ← M.frame
    let s ← get
    let future := (r.word b i.d).toNat
    let desc := (loWord (r.sreg (sIndex i.a))).toNat
    let input := (r.word b i.b).toNat
    let (nw, inw) := s.descSizes f desc
    M.need (f.fits 0 desc 5 && f.fits 0 input (4 * inw) && f.fits 0 future (8 * nw) &&
      !overlap future (8 * nw) input (4 * inw)) (segmentFault b)
    M.postTask b (.infer future desc input nw inw)
    M.upd fun s => s.absentCells f.core 0 (f.segS.base.toNat + future) (8 * nw)) s

/-! ### Eligibility (R202, R207, R208, R212) -/

/-- The owner of a remote operand: the frame of the launch on that core with the lowest FRAMEID (R207, R208). -/
inductive Owner where
  | nobody
  /-- its frame is saved: its cells count as absent -/
  | saved
  | bound (f : Frame)
  deriving DecidableEq, Repr

/-- The owner of the cells of a core for a frame's launch (R207, R208). -/
def State.ownerOn (s : State) (f : Frame) (core : Nat) : Owner :=
  let bound := (s.frames.filter fun g => decide (g.launch = f.launch ∧ g.core = core)).map fun g => (g.frameid.toNat, Owner.bound g)
  let saved := (s.saved.filter fun b => decide (b.frame.launch = f.launch ∧ b.frame.core = core)).map fun b =>
    (b.frame.frameid.toNat, Owner.saved)
  match sortBy Prod.fst (bound ++ saved) with
  | [] => .nobody
  | (_, o) :: _ => o

/-- Where an operand of a task lies: refused, not to be had yet, or a range (R207, R208). -/
inductive Place where
  | refused | later
  | at_ (r : Range) (f : Frame)
  deriving DecidableEq, Repr

/-- Where an operand of a frame's task lies. -/
def State.placeOf (s : State) (f : Frame) (o : Operand) : Place :=
  if o.local_ f then .at_ (f.range o.buf o.cell o.len) f
  else
    match s.ownerOn f (f.core / 4 * 4 + o.pos) with
    | .nobody => .refused
    | .saved => .later
    | .bound g => if g.fits o.buf o.cell o.len then .at_ (g.range o.buf o.cell o.len) g else .refused

/-- What an operand's place covers. -/
def Place.ranges : Place → List Range
  | .at_ r _ => [r]
  | _ => []

/-- The ranges of a tile task: sources, then results. -/
def State.taskRanges (s : State) (f : Frame) (x : BitVec 256) (af bf : Nat) : List Range × List Range :=
  let (cbuf, ccell, clen) := recC x
  ((s.placeOf f (recA x af)).ranges ++ (s.placeOf f (recB x bf)).ranges,
    [f.range cbuf ccell clen, f.range 0 (recDone x) 1])

/-- An older task of the same frame stands in the way (R202). -/
def State.blocks (s : State) (f : Frame) (older : Task) (sources results : List Range) : Bool :=
  match older.kind with
  | .infer _ _ _ _ _ => false
  | .tile x af bf =>
    let (src, res) := s.taskRanges f x af bf
    decide (older.frame = f.uid) &&
      ((res.any fun a => (sources ++ results).any fun b => a.meets b) ||
        (src.any fun a => (results.take 1).any fun b => a.meets b))

/-- The layers of a descriptor: width in panels of 32 before it, and its cell. -/
def State.descLayerCells (s : State) (f : Frame) (desc : Nat) : List (Nat × Nat) :=
  let x := (s.frameCell f 0 desc).data.toNat
  let cells := (List.range (field x 0 4)).map fun i => (s.frameCell f 0 (desc + 1 + i)).data.toNat
  (field x 4 8 :: cells.map fun c => 2 * field c 40 4).zip cells

/-- A descriptor is malformed as it stands when its request runs (R210, R212, assumption 11). -/
def State.descBad (s : State) (f : Frame) (desc nw inw : Nat) : Bool :=
  let x := (s.frameCell f 0 desc).data.toNat
  decide (field x 12 116 ≠ 0 ∨ field x 4 8 = 0 ∨ 8 < field x 4 8 ∨ field x 0 4 = 0 ∨ 4 < field x 0 4 ∨
      s.descSizes f desc ≠ (nw, inw)) ||
    (s.descLayerCells f desc).any fun (k, c) =>
      decide (field c 45 83 ≠ 0 ∨ field c 40 4 = 0 ∨ 4 < field c 40 4) ||
        !f.fits 1 (field c 0 20) (k * field c 40 4 * 256) || !f.fits 1 (field c 20 20) (field c 40 4 * 16)

/-- The ranges that an INFER request reads (R212): inputs and descriptor, then weights and biases. -/
def State.inferRanges (s : State) (f : Frame) (desc input inw : Nat) : List Range × List Range :=
  let x := (s.frameCell f 0 desc).data.toNat
  ([f.range 0 input (4 * inw), f.range 0 desc (1 + descLayers x)],
    (s.descLayerCells f desc).flatMap fun (k, c) =>
      [f.range 1 (field c 0 20) (k * field c 40 4 * 256), f.range 1 (field c 20 20) (field c 40 4 * 16)])

/-- What a queued task is ready for. -/
inductive Readiness where
  | wait | eligible | refused
  deriving DecidableEq, Repr

/-- The tasks of a core, oldest first, that come before one. -/
def State.olderThan (s : State) (t : Task) : List Task :=
  s.tasks.takeWhile fun u => decide (u.uid ≠ t.uid)

/-- A task is eligible, or is refused, or waits (R202, R208, R212). -/
def State.readiness (s : State) (t : Task) : Readiness :=
  match s.frame? t.frame with
  | none => .wait
  | some f =>
    match t.kind with
    | .tile x af bf =>
      let pa := s.placeOf f (recA x af)
      let pb := s.placeOf f (recB x bf)
      if pa = .refused ∨ pb = .refused then .refused
      else if pa = .later ∨ pb = .later then .wait
      else
        let (src, res) := s.taskRanges f x af bf
        let older := (s.olderThan t).filter fun u => decide (u.core = t.core)
        if (src ++ (if recField x 252 4 = 0 then res.take 1 else [])).all s.present &&
            older.all (fun u => !s.blocks f u src res) then .eligible
        else .wait
    | .infer _ desc input nw inw =>
      let (first, rest) := s.inferRanges f desc input inw
      if first.all s.present && (s.descBad f desc nw inw || rest.all s.present) then .eligible else .wait

/-- The frames whose Bound windows a check of a task's operands touches, with cells (R179, R202); a descriptor names weights
and biases once its cells are present. -/
def State.touchedBy (s : State) (t : Task) : List (Nat × Nat × Nat × Nat) :=
  match s.frame? t.frame with
  | none => []
  | some f =>
    match t.kind with
    | .tile x af bf =>
      let (cbuf, ccell, clen) := recC x
      ([recA x af, recB x bf].flatMap fun o =>
        match s.placeOf f o with
        | .at_ _ g => [(g.uid, o.buf, o.cell, o.len)]
        | _ => []) ++ (if recField x 252 4 = 0 then [(f.uid, cbuf, ccell, clen)] else [])
    | .infer _ desc input nw inw =>
      let layers := if (s.inferRanges f desc input inw).1.all s.present && !s.descBad f desc nw inw then s.descLayerCells f desc
        else []
      (f.uid, 0, input, 4 * inw) :: (f.uid, 0, desc, 5) ::
        layers.flatMap fun (k, c) =>
          [(f.uid, 1, field c 0 20, k * field c 40 4 * 256), (f.uid, 1, field c 20 20, field c 40 4 * 16)]

/-- The picker's checks touch windows (R202). -/
def State.touchAll (s : State) (x : Seen) : List (Nat × Nat × Nat × Nat) → State
  | [] => s
  | (frame, buf, cell, n) :: rest => (s.touchCells x frame buf cell n).touchAll x rest

/-! ### Grants (R213 to R215) -/

/-- The key of an engine. -/
def engineKey (core eng : Nat) : Nat := core * 2 + eng

/-- The power state of an engine. -/
def State.engineMode (s : State) (core eng : Nat) : EngineMode := Sparse.get .idle s.engines (engineKey core eng)

/-- The power state of an engine is set. -/
def State.setEngine (s : State) (core eng : Nat) (m : EngineMode) : State :=
  { s with engines := Sparse.set .idle s.engines (engineKey core eng) m }

/-- A board's governor. -/
def State.governor (s : State) (board : Nat) : Governor := Sparse.get ⟨0, 0, 0, 0, 0, []⟩ s.governors board

/-- A board's governor is set. -/
def State.setGovernor (s : State) (board : Nat) (g : Governor) : State :=
  { s with governors := Sparse.set ⟨0, 0, 0, 0, 0, []⟩ s.governors board g }

/-- Grants that a board's governor may have out (R213, R322). -/
def State.grantCount (s : State) (board : Nat) : Nat :=
  let g := s.governor board
  s.config.gb - (g.dieHot + g.stackHot) - g.capped

/-- Engines of a board that hold a grant. -/
def State.grantsHeld (s : State) (board : Nat) : Nat := (s.engines.filter fun e => decide (e.1 / 8 = board)).length

/-- An engine asks its board's governor for a grant, once (R213). -/
def State.askGrant (s : State) (core eng : Nat) : State :=
  let g := s.governor (boardOf core)
  if s.engineMode core eng ≠ .idle ∨ g.waiting.contains (engineKey core eng) then s
  else s.setGovernor (boardOf core) { g with waiting := g.waiting ++ [engineKey core eng] }

/-- The burst that an engine keeps. -/
def State.burst? (s : State) (core eng : Nat) : Option Burst := s.bursts.find? fun b => decide (b.core = core ∧ b.eng = eng)

/-- The engine's burst becomes this one, or none. -/
def State.setBurst (s : State) (core eng : Nat) (b : Option Burst) : State :=
  { s with bursts := s.bursts.filter (fun b => !decide (b.core = core ∧ b.eng = eng)) ++ b.toList }

/-- The task that an engine has: running or writing. -/
def State.engineTask (s : State) (core eng : Nat) : Option Task :=
  s.tasks.find? fun t => decide (t.core = core) &&
    match t.phase with
    | .queued => false
    | .running e _ | .writing e _ => decide (e = eng)

/-- A task is changed. -/
def State.modTask (s : State) (u : Nat) (f : Task → Task) : State :=
  { s with tasks := s.tasks.map fun t => if t.uid = u then f t else t }

/-- An engine with a grant and nothing to do keeps it while a burst holds it, its ramp or filler going on; otherwise it runs
its ramp-down and gives the grant back (R214, R215). -/
def State.rest (s : State) (core eng : Nat) : State :=
  match s.burst? core eng, s.engineMode core eng with
  | some _, .down _ => s.setEngine core eng .granted
  | some _, _ => s
  | none, .idle => s
  | none, _ => s.setEngine core eng (.down (s.now + 34))

/-- The burst that an engine keeps ends, and the engine rests if it has no task (R215). -/
def State.endBurst (s : State) (core eng : Nat) : State :=
  if (s.burst? core eng).isNone then s
  else
    let s1 := s.setBurst core eng none
    if (s1.engineTask core eng).isNone then s1.rest core eng else s1

/-- An engine begins to keep a burst of a length (R215): it asks for a grant if it has none, a ramp-down is over, and the
length counts from now if it has no ramp before it. -/
def State.beginBurst (s : State) (core eng asid len : Nat) : State :=
  let b (until_ : Option Nat) (s : State) : State := s.setBurst core eng (some ⟨core, eng, asid, len, until_⟩)
  match s.engineMode core eng with
  | .idle => (b none s).askGrant core eng
  | .ramp _ => b none s
  | .granted => b (some (s.now + len)) s
  | .down _ => b (some (s.now + len)) (s.setEngine core eng .granted)

/-- BURST (R215, R341). -/
def execBurst (f : ShA) (s : State) : Host.Outcome State Fault Refusal :=
  execute (.burst f) (do
    let r ← M.rod
    let len := min 65536 (loWord (r.sreg (sIndex f.a))).toNat
    M.upd fun s =>
      if len = 0 then (s.endBurst r.core 0).endBurst r.core 1
      else (s.beginBurst r.core 0 r.asid len).beginBurst r.core 1 r.asid len) s

/-- The engine's burst has run its declared length (R215). -/
def State.burstOver (s : State) (core eng : Nat) : Bool :=
  match s.burst? core eng with
  | none => false
  | some b => b.until_.any fun t => decide (t ≤ s.now)

/-- BURST_END: the declared length has passed for an engine of the core (R215). -/
def execBurstEnd (core : Nat) (s : State) : Host.Outcome State Fault Refusal :=
  .next ([0, 1].foldl (fun s e => if s.burstOver core e then s.endBurst core e else s) s)

/-- RAMP_UP_COMPLETE: the engine holds its grant; a burst counts from here (R214, R215). -/
def execRampUpComplete (core eng : Nat) (s : State) : Host.Outcome State Fault Refusal :=
  match s.engineMode core eng with
  | .ramp _ =>
    let s1 := s.setEngine core eng .granted
    match s.burst? core eng with
    | some b => .next (s1.setBurst core eng (some { b with until_ := some (s.now + b.len) }))
    | none => .next (if (s.engineTask core eng).isNone then s1.rest core eng else s1)
  | _ => .next s

/-- GRANT_RETURN: ramp-down is over (R214). -/
def execGrantReturn (core eng : Nat) (s : State) : Host.Outcome State Fault Refusal :=
  match s.engineMode core eng with
  | .down _ => .next (s.setEngine core eng .idle)
  | _ => .next s

/-! ### Issue (R203) -/

/-- The words of a cell (R197). -/
def cellWords (c : Cell) : List Dword := [c.data.setWidth 64, (c.data >>> 64).setWidth 64]

/-- An FP40 word as an operand, and whether its upper bits were not zero (R98). -/
def fp40Word (x : Dword) : BitVec 40 × Conds :=
  if field x.toNat 40 24 ≠ 0 then (BitVec.ofNat 40 Fmt.fp40.nan, Conds.pk) else (x.setWidth 40, 0)

/-- Cells of a range, as they stand. -/
def State.cellsOf (s : State) (r : Range) : List Cell := (List.range r.len).map fun i => s.cell r.core r.buf (r.first + i)

/-- The issue step of an eligible tile task (R203): the accumulators, and C and the done cell made absent. -/
def State.issueTile (s : State) (t : Task) (f : Frame) (x : BitVec 256) (af bf eng : Nat) : State :=
  let (cbuf, ccell, clen) := recC x
  let c := f.range cbuf ccell clen
  let start : List (BitVec 40 × Conds) :=
    if recField x 252 4 = 0 then ((s.cellsOf c).flatMap cellWords).map fp40Word else List.replicate (2 * clen) (0, 0)
  ((s.absentCells f.core cbuf c.first clen).absentCells f.core 0 (f.range 0 (recDone x) 1).first 1).modTask t.uid fun t =>
    { t with phase := .running eng 0, src := (s.taskRanges f x af bf).1, acc := start.map Prod.fst, flags := start.foldl (fun k y => k ||| y.2) t.flags }

/-- An eligible task issues on an engine that holds a grant; a ramp-down is cancelled (R203, R214). -/
def State.issueOn (s : State) (t : Task) (eng : Nat) : State :=
  let s1 := match s.engineMode t.core eng with
    | .down _ => s.setEngine t.core eng .granted
    | _ => s
  match s1.frame? t.frame, t.kind with
  | some f, .tile x af bf => s1.issueTile t f x af bf eng
  | _, _ => s1.modTask t.uid fun t => { t with phase := .running eng 0 }

/-- The queued tasks of a core that the picker considers, oldest first (R202); none of a context that halts or settles for
a save. -/
def State.waitingTasks (s : State) (core : Nat) : List Task :=
  s.tasks.filter fun t => decide (t.core = core ∧ t.phase = .queued) && !s.halted t.asid && !s.settlingOn core t.asid

/-- The oldest eligible task is offered to the governor (R202, R203, R213): engine 0 is for it if it is free, otherwise
engine 1; with a grant in hand the task issues there at once, and else the engine asks for one. -/
def State.offerOldest (s : State) (core : Nat) : State :=
  match (s.waitingTasks core).find? fun t => decide (s.readiness t = .eligible), [0, 1].find? fun e => (s.engineTask core e).isNone with
  | some t, some e => if s.engineMode core e = .idle then s.askGrant core e else s.issueOn t e
  | _, _ => s

/-! ### The done cell (R204) -/

/-- The 128 bits of a done cell. -/
def doneCell (clk : Dword) (tag : Nat) (flags : Conds) (status kdone udone : Nat) : BitVec 128 :=
  BitVec.ofNat 128 (packFields [(32, tag), (7, flags.toNat), (1, 0), (8, status), (9, kdone), (5, udone), (2, 0),
    (64, clk.toNat)])

/-- Rods that wait for an entry of the core's task queue are ready again (R201). -/
def State.wakeTaskQueue (s : State) (core : Nat) : State :=
  { s with rods := s.rods.map fun r =>
      match r.status with
      | .asleep .taskQueue _ _ => if r.core = core then { r with status := .ready } else r
      | _ => r }

/-- A task leaves the queue: its flags go to the rod that posted it (R205), and its engine rests. -/
def State.dropTask (s : State) (t : Task) : State :=
  let s1 := { s with tasks := s.tasks.filter fun u => decide (u.uid ≠ t.uid) }.modRod t.rod fun r => r.stick t.flags
  let s2 := s1.wakeTaskQueue t.core
  match t.phase with
  | .running e _ | .writing e _ => s2.rest t.core e
  | .queued => s2

/-- A tile task ends: its done cell is written (R204, R208, R216). -/
def State.endTile (s : State) (t : Task) (f : Frame) (x : BitVec 256) (status kdone udone : Nat) : State :=
  (s.dropTask t).writeCell f.core 0 (f.range 0 (recDone x) 1).first
    (doneCell s.clk (recField x 192 32) t.flags status kdone udone)

/-- TASK_PICK: the picker checks the core's entries, oldest first, and touches the windows that it checks; the first
that is refused completes at once with STATUS 3; else the first that is eligible is offered to the governor (R202, R203,
R208, R213). -/
def execTaskPick (core : Nat) (s : State) : Host.Outcome State Fault Refusal :=
  let s1 := (s.waitingTasks core).foldl (fun x t => x.touchAll t.seen (s.touchedBy t)) s
  match (s.waitingTasks core).find? fun t => decide (s.readiness t = .refused) with
  | none => .next (s1.offerOldest core)
  | some t =>
    match s.frame? t.frame, t.kind with
    | some f, .tile x _ _ => .next (s1.endTile t f x 3 0 0)
    | _, _ => .next s1

/-- GOVERNOR_GRANT: the first engine that waits receives a free grant and ramps up, and the oldest eligible task of its
core issues (R203, R213, R214). -/
def execGovernorGrant (board : Nat) (s : State) : Host.Outcome State Fault Refusal :=
  let g := s.governor board
  match g.waiting with
  | [] => .next s
  | k :: ks =>
    if s.grantCount board ≤ s.grantsHeld board then .next s
    else
      let s1 := (s.setGovernor board { g with waiting := ks }).setEngine (k / 2) (k % 2) (.ramp (s.now + 64))
      .next (s1.offerOldest (k / 2))

/-! ### Computing (R110, R111, R203) -/

/-- The bytes of a range, as one number. -/
def State.rangeNat (s : State) (r : Range) : Nat := packFields ((s.cellsOf r).map fun c => (128, c.data.toNat))

/-- Row `i` of a panel of a class with `rows` rows, decoded: 32 values and whether a code was illegal (R97, R110,
R197). -/
def panelRow (cls rows panel i : Nat) : List Val × Conds :=
  match blockWidth cls with
  | some w => decodeBlock w (field panel (32 * w * i) (32 * w)) (field panel (32 * w * rows + 16 * i) 16)
  | none =>
    let g : Fmt := if cls = 3 then .f16 else .bf16
    ((List.range 32).map fun k => g.decode (field panel (512 * i + 16 * k) 16), 0)

/-- An exact product: a NaN, with whether it is a product 0 × ∞ (R111). -/
def product (x y : Val) : Val × Bool :=
  match x, y with
  | .nan _ _ _, _ | _, .nan _ _ _ => (.nan false false none, false)
  | .inf n, .inf m => (.inf (n != m), false)
  | .inf n, .fin m a _ | .fin m a _, .inf n =>
    if a = 0 then (.nan false false none, true) else (.inf (n != m), false)
  | .fin n a d, .fin m b e => (.fin (n != m) (a * b) (d * e), false)

/-- The sum of a group with the accumulator, rounded once to FP40 (R111).  An accumulator that is a signalling NaN sets NV
(R103); an element that is a NaN does not, since R110 carries elements as classes (DEDUCED, assumption 57). -/
def groupSum (acc : BitVec 40) (xs ys : List Val) : BitVec 40 × Conds :=
  let ps := List.zipWith product xs ys
  let terms := Fmt.fp40.decode acc.toNat :: ps.map Prod.fst
  let bothInf := terms.any (fun t => t.isInf && t.neg) && terms.any fun t => t.isInf && !t.neg
  let nv := Conds.when (ps.any Prod.snd || bothInf || (Fmt.fp40.decode acc.toNat).signals) Conds.nv
  if terms.any Val.isNan || bothInf then (BitVec.ofNat 40 Fmt.fp40.nan, nv)
  else
    match terms.find? Val.isInf with
    | some t => (BitVec.ofNat 40 (Fmt.fp40.withSign t.neg (Fmt.fp40.shape.maxCode + 1)), nv)
    | none =>
      let y := Fmt.fp40.roundSum Env.engine (terms.map fun t =>
        match t with
        | .fin n a d => (n, a, d)
        | _ => (false, 0, 1))
      (BitVec.ofNat 40 y.1, nv ||| y.2)

/-- One unit of accumulators: each word with its row and column (R203). -/
def unitSums (accs : List (BitVec 40)) (as bs : List (List Val)) : List (BitVec 40) × Conds :=
  let pairs := as.flatMap fun a => bs.map fun b => (a, b)
  let ys := List.zipWith (fun acc (p : List Val × List Val) => groupSum acc p.1 p.2) accs pairs
  (ys.map Prod.fst, ys.foldl (fun k y => k ||| y.2) 0)

/-- The 64 rows of row tile `i` of an operand in panel `p` (R197). -/
def State.tileRows (s : State) (r : Range) (cls tiles p i : Nat) : List (List Val) × Conds :=
  let per := panelCells cls * tiles
  let panel := s.rangeNat { r with first := r.first + p * per, len := per }
  let rows := (List.range 64).map fun k => panelRow cls (64 * tiles) panel (64 * i + k)
  (rows.map Prod.fst, rows.foldl (fun k y => k ||| y.2) 0)

/-- Part of a list replaced from a position. -/
def splice {α : Type} (xs : List α) (at_ : Nat) (ys : List α) : List α := xs.take at_ ++ ys ++ xs.drop (at_ + ys.length)

/-- The part of a range that holds panel `p`. -/
def Range.panel (r : Range) (cls tiles p : Nat) : Range :=
  { r with first := r.first + p * (panelCells cls * tiles), len := panelCells cls * tiles }

/-- TASK_UNIT_COMPLETE: the running task of an engine finishes its next unit, once the panel's cells are present
(R203, R206).  R203 says that A and B are read as peeks, and not how often or for which cells a unit waits: the model reads a
panel anew for every unit, and each unit waits until every cell of the panel in A and in B is present (DESIGN CHOICE,
assumption 78). -/
def execTaskUnitComplete (core eng : Nat) (s : State) : Host.Outcome State Fault Refusal :=
  match s.engineTask core eng with
  | none => .next s
  | some t =>
    match t.phase, t.kind with
    | .running e u, .tile x af bf =>
      match t.src with
      | [ra, rb] =>
        let mt := recMt x
        let nt := recNt x
        let p := u / (mt * nt)
        let tile := u % (mt * nt)
        if !(s.present (ra.panel af mt p) && s.present (rb.panel bf nt p)) then .next s
        else
          let (as, ka) := s.tileRows ra af mt p (tile / nt)
          let (bs, kb) := s.tileRows rb bf nt p (tile % nt)
          let (ys, ky) := unitSums ((t.acc.drop (4096 * tile)).take 4096) as bs
          .next (s.modTask t.uid fun t => { t with
            acc := splice t.acc (4096 * tile) ys
            flags := t.flags ||| ka ||| kb ||| ky
            phase := if u + 1 = mt * nt * recKt x then .writing e 0 else .running e (u + 1) })
      | _ => .next s
    | _, _ => .next s

/-- Cells are written and become present in ascending order. -/
def State.writeCells (s : State) (core buf first : Nat) : List (BitVec 128) → State
  | [] => s
  | x :: xs => (s.writeCell core buf first x).writeCells core buf (first + 1) xs

/-- Accumulator words as cells, two words a cell, with bits [63:40] zero (R98, R197). -/
def accCells : List (BitVec 40) → List (BitVec 128)
  | x :: y :: rest => BitVec.ofNat 128 (x.toNat + 2 ^ 64 * y.toNat) :: accCells rest
  | _ => []

/-- Cells of C that an engine writes in a cycle, by buffer (R203). -/
def writeRate (buf : Nat) : Nat := if buf = 3 then 64 else 32

/-- TASK_DONE_WRITE: the C range is written in ascending cell order, the cells of one cycle at a time, and then the done
cell (R203 to R205). -/
def execTaskDoneWrite (core eng : Nat) (s : State) : Host.Outcome State Fault Refusal :=
  match s.engineTask core eng with
  | none => .next s
  | some t =>
    match t.phase, t.kind, s.frame? t.frame with
    | .writing e n, .tile x _ _, some f =>
      let (cbuf, ccell, clen) := recC x
      if n < clen then
        let cells := accCells ((t.acc.drop (2 * n)).take (2 * writeRate cbuf))
        .next ((s.modTask t.uid fun t => { t with phase := .writing e (n + writeRate cbuf) }).writeCells f.core cbuf
          ((f.range cbuf ccell clen).first + n) cells)
      else .next (s.endTile t f x 0 (recKt x) 0)
    | _, _, _ => .next s

/-! ### INFER (R210 to R212) -/

/-- The halves of a range as f16 codes. -/
def halves (x n : Nat) : List Nat := (List.range n).map fun i => field x (16 * i) 16

/-- A list cut into groups of 32. -/
def groups32 {α : Type} : Nat → List α → List (List α)
  | 0, _ => []
  | n + 1, xs => xs.take 32 :: groups32 n (xs.drop 32)

/-- The accumulator of one output: bias, then the groups of its row (R111, R212). -/
def dotRow (acc : BitVec 40) : List (List Val × List Val) → BitVec 40 × Conds
  | [] => (acc, 0)
  | (xs, ws) :: rest =>
    let (a, k) := groupSum acc xs ws
    let (y, m) := dotRow a rest
    (y, k ||| m)

/-- An accumulator after the activation, rounded to f16 (R210, R212). -/
def activated (relu : Bool) (acc : BitVec 40) : Nat × Conds :=
  match Fmt.fp40.decode acc.toNat with
  | .nan _ _ _ => (Fmt.f16.nan, 0)
  | v => if relu && v.neg then (0, 0) else Fmt.f16.encode Env.engine v

/-- One layer: panels of its input, its cell, and the input values (R212). -/
def State.layer (s : State) (f : Frame) (k c : Nat) (input : List Val) : List Nat × Conds :=
  let n := field c 40 4 * 64
  let weights := s.rangeNat (f.range 1 (field c 0 20) (k * (n / 64) * 256))
  let bias := s.rangeNat (f.range 1 (field c 20 20) (n / 4))
  let xs := groups32 k input
  let ys := (List.range n).map fun j =>
    let rows := (List.range k).map fun p => (panelRow 3 n (field weights (p * n * 512) (n * 512)) j).1
    let (a, m) := dotRow (BitVec.ofNat 40 (field bias (32 * j) 32 * 256)) (xs.zip rows)
    let (y, o) := activated (decide (field c 44 1 = 1)) a
    (y, m ||| o)
  (ys.map Prod.fst, ys.foldl (fun q y => q ||| y.2) 0)

/-- The layers of a network, one after another (R212). -/
def State.layers (s : State) (f : Frame) : List (Nat × Nat) → List Nat → List Nat × Conds
  | [], xs => (xs, 0)
  | (k, c) :: rest, xs =>
    let (ys, m) := s.layer f k c (xs.map Fmt.f16.decode)
    let (zs, o) := State.layers s f rest ys
    (zs, m ||| o)

/-- Codes of 16 bits as cells, eight a cell. -/
def halfCells : Nat → List Nat → List (BitVec 128)
  | 0, _ => []
  | n + 1, xs => BitVec.ofNat 128 (packFields ((xs.take 8).map fun x => (16, x))) :: halfCells n (xs.drop 8)

/-- INFER_COMPLETE: a request has run: its future is written, cell F last, and its flags reach the rod (R212). -/
def execInferComplete (core eng : Nat) (s : State) : Host.Outcome State Fault Refusal :=
  match s.engineTask core eng with
  | none => .next s
  | some t =>
    match t.phase, t.kind, s.frame? t.frame with
    | .running _ _, .infer future desc input nw inw, some f =>
      let (xs, k) :=
        if s.descBad f desc nw inw then (List.replicate (64 * nw) 0x7E00, Conds.pk)
        else s.layers f (s.descLayerCells f desc) (halves (s.rangeNat (f.range 0 input (4 * inw))) (32 * inw))
      let cells := halfCells (8 * nw) xs
      let first := (f.range 0 future 1).first
      let s1 := (s.writeCells f.core 0 (first + 1) (cells.drop 1)).writeCells f.core 0 first (cells.take 1)
      .next (s1.dropTask { t with flags := t.flags ||| k })
    | _, _, _ => .next s

/-! ### Halts (R216) -/

/-- A task of a halted context ends (R216): a running tile task with STATUS 1 and the panels and units done, a queued
one with STATUS 2; the future of an INFER request stays absent. -/
def State.haltTask (s : State) (t : Task) : State :=
  match s.frame? t.frame, t.kind with
  | some f, .tile x _ _ =>
    let per := recMt x * recNt x
    match t.phase with
    | .running _ u => s.endTile t f x 1 (u / per) (u % per)
    | .writing _ _ => s.endTile t f x 1 (recKt x) 0
    | .queued => s.endTile t f x 2 0 0
  | _, _ => s.dropTask t

/-- The bursts that rods of a context declared end (R215, R216). -/
def State.endBursts (s : State) (asid : Nat) : State :=
  (s.bursts.filter fun b => decide (b.asid = asid)).foldl (fun s b => s.endBurst b.core b.eng) s

end Sys2Proof.Machine
end

