-- ==== Sys2Proof/Machine/Carry.lean ====
section
/-!
DEFINITION. The carry network: SUMSET, SUMSEND and SUMFREE, and the steps of the carry ports (R112, R113, R217 to R236,
R420, R421).
-/

namespace Sys2Proof.Machine

/-! ### Slots and chains (R217, R218) -/

/-- The key of a slot-table entry. -/
def slotKey (core slot : Nat) : Nat := core * 32 + slot

/-- A slot-table entry. -/
def State.slot (s : State) (core slot : Nat) : Slot := Sparse.get Slot.empty s.slots (slotKey core slot)

/-- A slot-table entry is set. -/
def State.setSlot (s : State) (core slot : Nat) (x : Slot) : State :=
  { s with slots := Sparse.set Slot.empty s.slots (slotKey core slot) x }

/-- The chain of a core with an index. -/
def State.chain? (s : State) (core index : Nat) : Option Chain :=
  s.chains.find? fun c => decide (c.core = core ∧ c.index = index)

/-- The lowest chain-table entry of a core that is free, reservations under way included (R217, R223). -/
def State.freeChainIndex (s : State) (core : Nat) : Option Nat :=
  (List.range 16).find? fun i =>
    (s.chain? core i).isNone && !s.resvs.any fun v => decide (v.core = core ∧ v.chain = i)

/-! ### SUMSET (R220 to R224) -/

/-- A slot-spec cell (R222). -/
def specOf (x : BitVec 128) : Spec :=
  ⟨field x.toNat 80 8, field x.toNat 72 5, field x.toNat 44 20, field x.toNat 32 12 + 1, field x.toNat 112 16⟩

/-- A slot-spec cell breaks the rules of R223. -/
def specBad (x : BitVec 128) : Bool :=
  decide (field x.toNat 88 24 ≠ 0 ∨ field x.toNat 77 3 ≠ 0 ∨ field x.toNat 64 8 ≠ 0 ∨ field x.toNat 0 32 ≠ 0 ∨
    field x.toNat 112 16 = 0 ∨ 2048 < field x.toNat 32 12 + 1)

/-- Two specs name the same slot. -/
def specsClash : List Spec → Bool
  | [] => false
  | q :: qs => (qs.any fun p => decide (p.core = q.core ∧ p.slot = q.slot)) || specsClash qs

/-- The rod's uniform register is outstanding until an engine delivers its value (R20, R220). -/
def Rod.expect (r : Rod) (n : Nat) : Rod :=
  { r with scoreboard := r.scoreboard.filter (fun p => decide (p.sreg ≠ n)) ++ [⟨n, none⟩] }

/-- The value of an outstanding register has come. -/
def Rod.deliver (r : Rod) (n : Nat) (x : Dword) : Rod :=
  { r with scoreboard := r.scoreboard.map fun p => if p.sreg = n then { p with value := some x } else p }

/-- SUMSET (R220 to R224): the reservation starts, and its status reaches d through the scoreboard. -/
def execSumset (i : ShSumset) (s : State) : Host.Outcome State Fault Refusal :=
  execute (.sumset i) (do
    let r ← M.rod
    let f ← M.frame
    let desc := (r.sreg (sIndex i.a)).toNat
    let base := (r.sreg (sIndex i.b)).toNat
    let x := (BitVec.ofNat 9 (field desc 23 9)).toInt
    let ns := field desc 0 4 + 1
    M.need (decide (field desc 32 32 = 0 ∧ field desc 4 19 = 0) && (i.f || decide (x = 0)) && decide (base < 2 ^ 32))
      (.trap 9 4 none 0 0)
    M.need (f.fits 0 base ns) (segmentFault none)
    let cells ← M.peekCells none 0 (f.segS.base.toNat + base) ns
    let specs := cells.map specOf
    M.need (!cells.any specBad && !specsClash specs) (.trap 9 4 none 0 0)
    let s ← get
    match s.freeChainIndex r.core with
    | none => onRod (modify fun r => r.setS (sIndex i.d) 2)
    | some c =>
      let sorted := sortBy (fun q => slotKey q.core q.slot) specs
      M.upd fun s => { s with
        resvs := s.resvs ++ [⟨r.uid, r.core, r.asid, r.frame, f.launch, sIndex i.d, i.f, x, c, sorted, 0, .request⟩] }
      onRod (modify fun r => r.expect (sIndex i.d))) s

/-- The reservation of a rod. -/
def State.resv? (s : State) (rod : Nat) : Option Resv := s.resvs.find? fun v => decide (v.rod = rod)

/-- The first reservation of a rod is changed. -/
def State.modResv (s : State) (v : Resv) (g : Resv → Resv) : State :=
  { s with resvs := s.resvs.map fun w => if w = v then g w else w }

/-- A reservation is over: its status is on its way to d (R224). -/
def State.endResv (s : State) (v : Resv) (status : Nat) : State :=
  { s with resvs := s.resvs.erase v }.modRod v.rod fun r =>
    r.deliver v.dreg (BitVec.ofNat 64 (if status = 0 then v.chain * 256 else status))

/-- The answer of a port to a reservation request: 0 held, else the status of R224 (R223). -/
def State.reserveReply (s : State) (v : Resv) (q : Spec) : Nat × Option Frame :=
  if (s.slot q.core q.slot).st ≠ .free then (1, none)
  else
    match s.frame? v.frame with
    | none => (3, none)
    | some f =>
      match s.ownerOn f q.core with
      | .nobody => (3, none)
      | .saved => (4, none)
      | .bound g =>
        let r := g.range 3 q.cell q.size
        let taken := s.tasks.any fun t =>
          match t.kind, s.frame? t.frame with
          | .tile x _ _, some h => (h.range (recC x).1 (recC x).2.1 (recC x).2.2).meets r
          | _, _ => false
        if !g.fits 3 q.cell q.size || s.carryOwned q.core r.first q.size || taken then (5, none) else (0, some g)

/-- The tickets of the requests that wait at a port for an entry (R223). -/
def State.resvWaiters (s : State) (q : Spec) : List Nat :=
  s.resvs.filterMap fun v =>
    match v.stage, v.specs[v.next]? with
    | .waiting t, some p => if p.core = q.core ∧ p.slot = q.slot then some t else none
    | _, _ => none

/-- The request must wait: another reservation holds the entry, or an earlier request waits for it (R223). -/
def State.mustWait (s : State) (v : Resv) (q : Spec) : Bool :=
  decide ((s.slot q.core q.slot).st = .held) ||
    match v.stage with
    | .waiting t => (s.resvWaiters q).any fun u => decide (u < t)
    | _ => !(s.resvWaiters q).isEmpty

/-- SLOT_RESERVE_REQUEST: the request of a rod's reservation for its next slot reaches the port, which holds the entry,
refuses, or lets the request wait behind those that came before it (R223). -/
def execSlotReserveRequest (rod : Nat) (s : State) : Host.Outcome State Fault Refusal :=
  match s.resv? rod with
  | none => .next s
  | some v =>
    match v.specs[v.next]? with
    | none => .next s
    | some q =>
      if s.mustWait v q then
        match v.stage with
        | .request =>
          let (n, s1) := s.take
          .next (s1.modResv v fun v => { v with stage := .waiting n })
        | _ => .next s
      else
        match s.reserveReply v q with
        | (0, some g) =>
          let x : Slot := ⟨.held, v.asid, v.core, v.chain, v.rod, g.uid, q.cell, q.size, q.count, q.count, v.fixed, v.x,
            [], 0, [], 0, 0⟩
          .next ((s.setSlot q.core q.slot x).modResv v fun v => { v with stage := .reply 0 })
        | (code, _) => .next (s.modResv v fun v => { v with stage := .reply code })

/-- Cells that are no longer carry-owned serve the rods that wait at them (R128, R219). -/
def State.serveCells (s : State) (core buf first : Nat) : Nat → State
  | 0 => s
  | n + 1 => (s.serveCells core buf first n).serveCell core buf (first + n)

/-- A slot-table entry becomes Free; its cells are as they stand (R218, R219). -/
def State.freeSlotEntry (s : State) (core slot : Nat) : State :=
  let x := s.slot core slot
  let s1 := s.setSlot core slot Slot.empty
  match s.frame? x.frame with
  | none => s1
  | some g => s1.serveCells core 3 (g.range 3 x.cell x.size).first x.size

/-- Entries that a reservation holds are free again. -/
def State.unhold (s : State) : List Spec → State
  | [] => s
  | q :: qs => (s.freeSlotEntry q.core q.slot).unhold qs

/-- RESERVATION_REPLY: a held entry lets the reservation go on; any other reply ends it (R223, R224). -/
def execReservationReply (rod : Nat) (s : State) : Host.Outcome State Fault Refusal :=
  match s.resv? rod with
  | none => .next s
  | some v =>
    match v.stage with
    | .reply 0 =>
      .next (s.modResv v fun v =>
        { v with next := v.next + 1, stage := if v.next + 1 < v.specs.length then .request else .opening })
    | .reply code => .next ((s.unhold (v.specs.take v.next)).endResv v code)
    | _ => .next s

/-- The word that every word of a slot starts at (R113, R223). -/
def startWord (fixed : Bool) : Dword := if fixed then 0 else 0x8000000000

/-- Two words as a cell. -/
def cellOfWords (lo hi : Dword) : BitVec 128 := hi ++ lo

/-- The slot's cells start absent with their first words (R223). -/
def State.startCells (s : State) (core first : Nat) (w : Dword) : Nat → State
  | 0 => s
  | n + 1 => (s.startCells core first w n).setCell core 3 (first + n) ⟨cellOfWords w w, false⟩

/-- One slot opens (R223). -/
def State.openSlot (s : State) (q : Spec) : State :=
  let x := s.slot q.core q.slot
  match s.frame? x.frame with
  | none => s.setSlot q.core q.slot Slot.empty
  | some g =>
    (s.startCells q.core (g.range 3 x.cell x.size).first (startWord x.fixed) x.size).setSlot q.core q.slot
      { x with st := .open_, guard := if x.fixed then List.replicate (2 * x.size) 0 else [] }

/-- SLOT_OPEN: every slot of the chain opens, and the chain is recorded (R223). -/
def execSlotOpen (rod : Nat) (s : State) : Host.Outcome State Fault Refusal :=
  match s.resv? rod with
  | none => .next s
  | some v =>
    if v.stage ≠ .opening then .next s
    else
      let s1 := v.specs.foldl State.openSlot s
      let c : Chain := ⟨v.core, v.chain, v.asid, v.frame, v.specs.map fun q => (q.core, q.slot)⟩
      .next ({ s1 with chains := s1.chains ++ [c] }.endResv v 0)

/-- SCOREBOARD_WRITEBACK: a value that has come is written to its register, and the register is free (R20, R21). -/
def execScoreboardWriteback (rod : Nat) (s : State) : Host.Outcome State Fault Refusal :=
  .next (s.modRod rod fun r =>
    match r.scoreboard.find? fun p => p.value.isSome with
    | some p => { r.setS p.sreg (p.value.getD 0) with scoreboard := r.scoreboard.erase p }
    | none => r)

/-! ### SUMSEND (R225, R226) -/

/-- Tiles in a port's send buffer: a granted tile leaves the port with its credit reply (R226). -/
def State.sendBuffer (s : State) (core : Nat) : Nat := (s.credits.filter fun c => decide (c.core = core)).length

/-- The target word of a bead: 32 bits of a v register, or a whole s register (R225). -/
def Rod.targetWord (r : Rod) (b : Option Nat) (a : BitVec 7) : Nat :=
  if isS a then (r.sreg (sIndex a)).toNat else (r.vreg (beadNo b) a).toNat

/-- The cells of a tile as words (R197). -/
def wordsOfCells (xs : List (BitVec 128)) : List Dword := xs.flatMap fun x => cellWords ⟨x, true⟩

/-- SUMSEND (R225, R226, R421): the bead's tile is copied into the send buffer, and the rod waits for its credit. -/
def execSumsend (i : ShUDA) (s : State) : Host.Outcome State Fault Refusal :=
  execute (.sumsend i) (M.each i.u fun b => do
    let r ← M.rod
    let f ← M.frame
    let t := r.targetWord b i.a
    let cell := (r.word b i.d).toNat
    let n := field t 16 12 + 1
    M.need (decide (field t 13 3 = 0 ∧ t < 2 ^ 28) && f.fits 3 cell n) (segmentFault b)
    let cells ← M.peekCells b 3 (f.segC.base.toNat + cell) n
    let s ← get
    if 2 ≤ s.sendBuffer r.core then do
      onRod (modify fun r => { r with peeked := cells })
      throw (.sleep (beadNo b) .sendBuffer false)
    else do
      M.upd fun s => { s with
        credits := s.credits ++ [⟨r.uid, r.frame, r.asid, r.core, b, field t 0 8, field t 8 5, n, wordsOfCells cells, none⟩] }
      throw (.sleep (beadNo b) .credit false)) s

/-- The credit request of a rod. -/
def State.credit? (s : State) (rod : Nat) : Option Credit := s.credits.find? fun c => decide (c.rod = rod)

/-- CREDIT_REQUEST: the destination port answers a rod's request (R226, R232, R235). -/
def execCreditRequest (rod : Nat) (s : State) : Host.Outcome State Fault Refusal :=
  match s.credit? rod with
  | none => .next s
  | some c =>
    if c.reply.isSome then .next s
    else
      let x := s.slot c.dst c.slot
      let answer (y : CreditReply) (s : State) : Host.Outcome State Fault Refusal :=
        .next { s with credits := s.credits.map fun d => if d = c then { d with reply := some y } else d }
      if x.st = .away ∨ x.st = .dead then
        answer .away (s.setSlot c.dst c.slot { x with wait := x.wait.filter (fun k => decide (k ≠ c.core)) ++ [c.core] })
      else if x.st ≠ .open_ ∨ x.asid ≠ c.asid ∨ x.remain = 0 ∨ x.size ≠ c.size then answer .refused s
      else answer .granted (s.setSlot c.dst c.slot { x with remain := x.remain - 1 })

/-- Rods of a core that wait for a place in the send buffer are ready again. -/
def State.wakeSenders (s : State) (core : Nat) : State :=
  { s with rods := s.rods.map fun r =>
      match r.status with
      | .asleep .sendBuffer _ _ => if r.core = core then { r with status := .ready } else r
      | _ => r }

/-- The target word of a credit request. -/
def Credit.target (c : Credit) : Nat := c.dst + 256 * c.slot + 65536 * (c.size - 1)

/-- A granted tile leaves its port on the data channel (R226). -/
def Credit.tile (c : Credit) : Transfer := ⟨c.core, c.frame, c.dst, c.slot, c.words⟩

/-- CREDIT_REPLY: the bead completes and its tile leaves, or its copy is discarded and it faults (R226, R233); either way
its place in the send buffer is free. -/
def execCreditReply (rod : Nat) (s : State) : Host.Outcome State Fault Refusal :=
  match s.credit? rod with
  | none => .next s
  | some c =>
    let s1 := { s with credits := s.credits.erase c }
    match c.reply with
    | some .granted =>
      .next (({ s1 with transfers := s1.transfers ++ [c.tile] }.modRod rod fun q => q.served c.bead.isNone true).wakeSenders c.core)
    | some .away => .next ((s1.takeTrap rod 2 0 c.bead c.target 0).wakeSenders c.core)
    | some .refused => .next ((s1.takeTrap rod 8 2 c.bead 0 0).wakeSenders c.core)
    | none => .next s

/-! ### Transfers (R227, R228) -/

/-- One word of an arrival-order slot with a contribution (R98, R113, R227). -/
def addArrival (w c : Dword) : Dword × Conds :=
  let (x, k) := fp40Word w
  let (y, m) := fp40Word c
  let z := Fmt.fp40.add Env.engine (Fmt.fp40.decode x.toNat) (Fmt.fp40.decode y.toNat)
  (BitVec.ofNat 64 z.1, k ||| m ||| z.2)

/-- A contribution placed on the grid of exponent `x` (R112). -/
def onGrid (x : Int) (c : Dword) : Int × Conds :=
  let (y, k) := fp40Word c
  match (Fmt.fp40.decode y.toNat).scale (-x) with
  | .nan _ _ _ => (0, k ||| Conds.nv)
  | .inf neg => (if neg then intLo 64 false else intHi 64 false, k ||| Conds.is)
  | .fin neg n d =>
    let (m, inexact) := roundInt Env.engine neg n d
    let v := signedNum neg m
    let u := clampInt (intLo 64 false) (intHi 64 false) v
    (u, k ||| Conds.when inexact Conds.nx ||| Conds.when (decide (u ≠ v)) Conds.is)

/-- The 80-bit value of a word and its guard bits (R227). -/
def guarded (w : Dword) (g : BitVec 16) : Int := (g ++ w).toInt

/-- One word of a fixed slot with a contribution (R227). -/
def addFixed (x : Int) (w : Dword) (g : BitVec 16) (c : Dword) : Dword × BitVec 16 × Conds :=
  let (v, k) := onGrid x c
  let t := bitsOfInt 80 (guarded w g + v)
  (BitVec.ofNat 64 t, BitVec.ofNat 16 (t / 2 ^ 64), k)

/-- The words of a slot's cells. -/
def State.slotWords (s : State) (g : Frame) (x : Slot) : List Dword :=
  (s.cellsOf (g.range 3 x.cell x.size)).flatMap cellWords

/-- Words are written into cells, which stay as present as they are. -/
def State.putWords (s : State) (core first : Nat) : List Dword → State
  | lo :: hi :: rest =>
    (s.setCell core 3 first { s.cell core 3 first with data := cellOfWords lo hi }).putWords core (first + 1) rest
  | _ => s

/-- A transfer's words added into a slot: words, guard bits and conditions (R227). -/
def addWords (x : Slot) : List Dword → List (BitVec 16) → List Dword → List (Dword × BitVec 16 × Conds)
  | w :: ws, gs, c :: cs =>
    (if x.fixed then addFixed x.x w (gs.headD 0) c
     else let y := addArrival w c
          (y.1, 0, y.2)) :: addWords x ws (gs.drop 1) cs
  | _, _, _ => []

/-- A fixed slot's final words (R113, R228). -/
def clampWords : List Dword → List (BitVec 16) → List (Dword × Conds)
  | w :: ws, g :: gs =>
    let v := guarded w g
    let u := clampInt (intLo 64 false) (intHi 64 false) v
    (BitVec.ofInt 64 u, Conds.when (decide (u ≠ v)) Conds.is) :: clampWords ws gs
  | _, _ => []

/-- Words as cells. -/
def cellsOfWords : List Dword → List (BitVec 128)
  | lo :: hi :: rest => cellOfWords lo hi :: cellsOfWords rest
  | _ => []

/-- SLOT_COMPLETE (R228, R230): the final words, the cells present in ascending order, and the flags to the rod that
issued the SUMSET. -/
def State.completeSlot (s : State) (core slot : Nat) : State :=
  let x := s.slot core slot
  match s.frame? x.frame with
  | none => s
  | some g =>
    let ws := s.slotWords g x
    let ys := if x.fixed then clampWords ws x.guard else ws.map fun w => (w, 0)
    let flags := ys.foldl (fun k y => k ||| y.2) x.flags
    let s1 := s.setSlot core slot { x with st := .complete, flags := flags }
    (s1.writeCells core 3 (g.range 3 x.cell 1).first (cellsOfWords (ys.map Prod.fst))).modRod x.rod fun r => r.stick flags

/-- Granted transfers to a slot that are not yet applied. -/
def State.granted (s : State) (core slot : Nat) : List Transfer :=
  s.transfers.filter fun t => decide (t.dst = core ∧ t.slot = slot)

/-- Credits granted to a slot whose tiles have not left yet. -/
def State.grantedCredits (s : State) (core slot : Nat) : List Credit :=
  s.credits.filter fun c => decide (c.dst = core ∧ c.slot = slot ∧ c.reply = some .granted)

/-- Something granted to the slot is not yet applied. -/
def State.grantsLeft (s : State) (core slot : Nat) : Bool :=
  decide (s.granted core slot ≠ [] ∨ s.grantedCredits core slot ≠ [])

/-- The slot is complete when REMAIN is 0 and every granted transfer is applied (R228). -/
def State.settleSlot (s : State) (core slot : Nat) : State :=
  let x := s.slot core slot
  if (x.st = .open_ ∨ x.st = .away) ∧ x.remain = 0 ∧ !s.grantsLeft core slot then s.completeSlot core slot else s

/-- The transfers of which one is accepted next at a slot: the oldest of each sending core (R227). -/
def heads : List Transfer → List Transfer
  | [] => []
  | t :: ts => t :: (heads ts).filter fun u => decide (u.core ≠ t.core)

/-- The transfer that arrives next at a slot: with several senders any of them may (R227). -/
def State.arriving (s : State) (core slot : Nat) : Option Transfer × State :=
  match heads (s.granted core slot) with
  | [] => (none, s)
  | [t] => (some t, s)
  | ts =>
    let (n, s1) := s.take
    (ts[Config.freeChoice n % ts.length]?, s1)

/-- The slot-table entry is still one of the chain's: retirement of its destination frame may have freed it, and another
chain taken it, since (R218). -/
def Chain.has (c : Chain) (x : Slot) : Bool :=
  decide (x.st ≠ .free ∧ x.st ≠ .held ∧ x.asid = c.asid ∧ x.owner = c.core ∧ x.chain = c.index)

/-- Slots of a chain are freed in ascending order, up to the first that has a granted transfer on its way. -/
def State.freeSlots (s : State) (c : Chain) : List (Nat × Nat) → List (Nat × Nat) × State
  | [] => ([], s)
  | (d, k) :: rest =>
    if !c.has (s.slot d k) then s.freeSlots c rest
    else if s.grantsLeft d k then ((d, k) :: rest, s)
    else (s.freeSlotEntry d k).freeSlots c rest

/-- A chain's slots are freed as far as they can be now; its entry goes last (R229). -/
def State.freeChain (s : State) (c : Chain) : State :=
  let (left, s1) := s.freeSlots c c.slots
  { s1 with chains := s1.chains.filter (fun d => decide (d ≠ c)) ++ (if left.isEmpty then [] else [{ c with slots := left }]) }

/-- The chain that the SUMFREE in which a rod waits names: none where it waits in none, or where the chain is gone. -/
def State.sumfreeChain (s : State) (r : Rod) : Option Chain :=
  match r.status, s.instrAt r with
  | .asleep .sumfree _ _, some (.sumfree f) => s.chain? r.core (r.sreg (sIndex f.a)).toNat
  | _, _ => none

/-- The SUMFREEs that wait free what they can now; one whose chain is gone is complete (R229). -/
def State.goOnSumfree (s : State) : State :=
  s.rods.foldl (fun s r =>
    match s.sumfreeChain r with
    | none => s
    | some c =>
      let s1 := s.freeChain c
      if (s1.chain? c.core c.index).isNone then s1.modRod r.uid fun q => q.served true true else s1) s

/-- TRANSFER_APPLY: a granted tile is added whole into its slot, or dropped at a Dead one; SUMFREEs that waited for it go on
(R227 to R229, R235). -/
def execTransferApply (core slot : Nat) (s : State) : Host.Outcome State Fault Refusal :=
  match s.arriving core slot with
  | (none, s1) => .next s1
  | (some t, s1) =>
    let x := s1.slot core slot
    let s2 := { s1 with transfers := s1.transfers.erase t }
    let dropped := if x.st = .dead then s2.setSlot core slot { x with discarded := x.discarded + 1 } else s2
    match s2.frame? x.frame with
    | none => .next dropped.goOnSumfree
    | some g =>
      if x.st = .open_ ∨ x.st = .away then
        let ys := addWords x (s2.slotWords g x) x.guard t.words
        let x' := { x with
          applied := x.applied + 1
          guard := if x.fixed then ys.map fun y => y.2.1 else []
          flags := ys.foldl (fun k y => k ||| y.2.2) x.flags }
        .next (((s2.setSlot core slot x').putWords core (g.range 3 x.cell 1).first (ys.map Prod.fst)).settleSlot core slot).goOnSumfree
      else .next dropped.goOnSumfree

/-! ### SUMFREE (R229) and wakes (R233) -/

/-- SUMFREE (R229). -/
def execSumfree (f : ShA) (s : State) : Host.Outcome State Fault Refusal :=
  execute (.sumfree f) (do
    let r ← M.rod
    let i := (r.sreg (sIndex f.a)).toNat
    M.need (decide (i < 16)) (.trap 9 4 none 0 0)
    let s ← get
    match s.chain? r.core i with
    | none => throw (capFault none 2)
    | some c =>
      M.need (decide (c.frame = r.frame)) (capFault none 2)
      set (s.freeChain c)
      let s1 ← get
      M.need (s1.chain? r.core i).isNone (.sleep 0 .sumfree false)) s

/-- The slots whose destination frame is a frame, but for Dead ones. -/
def State.slotsAt (s : State) (frame : Nat) : List (Nat × Nat) :=
  (s.slots.filter fun p => decide (p.2.frame = frame ∧ p.2.st ≠ .dead)).map fun p => (p.1 / 32, p.1 % 32)

/-- What a retiring frame has reserved in the carry network is released, as SUMFREE would release it: the chains that it
owns, and the slots in its C segment; those that still have a granted transfer on its way stay, and so do those that a
reservation holds, until it has opened or abandoned them (R38, R218, R229). -/
def State.releaseCarry (s : State) (frame : Nat) : State :=
  let s1 := (s.chains.filter fun c => decide (c.frame = frame)).foldl State.freeChain s
  (s1.slotsAt frame).foldl (fun s p =>
    if s.grantsLeft p.1 p.2 || decide ((s.slot p.1 p.2).st = .held) then s else s.freeSlotEntry p.1 p.2) s1

/-- The frame has nothing left in the carry network. -/
def State.carryReleased (s : State) (frame : Nat) : Bool :=
  (s.slotsAt frame).isEmpty && !s.chains.any fun c => decide (c.frame = frame)

/-- A halt lets the SUMFREEs of a context that wait finish for the slots that are already applied (R421). -/
def State.haltSumfree (s : State) (asid : Nat) : State :=
  (s.rods.filter fun r => decide (r.asid = asid)).foldl (fun s r =>
    match s.sumfreeChain r with
    | some c => (c.slots.foldl (fun s (p : Nat × Nat) =>
        if c.has (s.slot p.1 p.2) && !s.grantsLeft p.1 p.2 then s.freeSlotEntry p.1 p.2 else s) s).freeChain c
    | none => s) s

/-- SLOT_WAKE: rods of a core that are parked on carry-away for a slot send again (R233). -/
def execSlotWake (core dst slot : Nat) (s : State) : Host.Outcome State Fault Refusal :=
  let s1 := { s with slotWakes := s.slotWakes.erase (core, dst, slot) }
  .next { s1 with rods := s1.rods.map fun r =>
    match r.status with
    | .parked p =>
      if r.core = core ∧ p.cls = 2 ∧ field p.info.toNat 0 8 = dst ∧ field p.info.toNat 8 5 = slot ∧ !s.halted r.asid then
        { r with status := .ready }
      else r
    | _ => r }

end Sys2Proof.Machine
end

