-- ==== Sys2Proof/Machine/Collective.lean ====
section
/-!
DEFINITION. The rod collectives: VOTE, SHFL, RODRED and RODSCAN (R404, R405, R413, R431).
-/

namespace Sys2Proof.Machine

/-- An effect of all active beads together on their rod. -/
def executeRod (i : Instr) (body : RM Unit) (s : State) : Host.Outcome State Fault Refusal :=
  execute i (onRod body) s

/-- A uniform result computed from the rod (R431). -/
def executeVote (i : Instr) (d : BitVec 7) (f : Rod → Nat) (s : State) : Host.Outcome State Fault Refusal :=
  executeRod i (modify fun r => r.setDword none d (BitVec.ofNat 64 (f r))) s

/-- VOTE any (R431). -/
def execVoteAny (f : ShVote) (s : State) : Host.Outcome State Fault Refusal :=
  executeVote (.voteAny f) f.d (fun r => (r.beadsActive.any fun k => r.pred k f.p).toNat) s

/-- VOTE all (R431). -/
def execVoteAll (f : ShVote) (s : State) : Host.Outcome State Fault Refusal :=
  executeVote (.voteAll f) f.d (fun r => (r.beadsActive.all fun k => r.pred k f.p).toNat) s

/-- VOTE ballot (R431). -/
def execVoteBallot (f : ShVote) (s : State) : Host.Outcome State Fault Refusal :=
  executeVote (.voteBallot f) f.d (fun r => (maskOf (r.beadsActive.filter fun k => r.pred k f.p)).toNat) s

/-- The values of a register in the active beads, ascending. -/
def Rod.values (r : Rod) (f : BitVec 7) : List Word := r.beadsActive.map fun k => r.vreg k f

/-- All elements of a list are equal. -/
def allEqual : List Word → Bool
  | [] => true
  | x :: xs => xs.all fun y => decide (y = x)

/-- VOTE eq (R431). -/
def execVoteEq (f : ShDA) (s : State) : Host.Outcome State Fault Refusal :=
  executeVote (.voteEq f) f.d (fun r => (allEqual (r.values f.a)).toNat) s

/-- Registers of several beads are written: bead and value. -/
def Rod.setMany (r : Rod) (d : BitVec 7) : List (Nat × Word) → Rod
  | [] => r
  | (k, x) :: rest => (r.setV k d x).setMany d rest

/-- SHFL (R413): `src` gives the source bead from the bead and its operand. -/
def executeShfl (i : Instr) (f : ShDA) (src : Int → Int → Int) (s : State) : Host.Outcome State Fault Refusal :=
  executeRod i (modify fun r =>
    r.setMany f.d (r.beadsActive.map fun (k : Nat) =>
      let j := src (k : Int) (field (r.vreg k f.d).toNat 0 4)
      (k, if 0 ≤ j ∧ r.beadsActive.contains j.toNat then r.vreg j.toNat f.a else r.vreg k f.a))) s

/-- SHFL idx (R413). -/
def execShflIdx (f : ShDA) (s : State) : Host.Outcome State Fault Refusal :=
  executeShfl (.shflIdx f) f (fun _ k => k) s

/-- SHFL up (R413). -/
def execShflUp (f : ShDA) (s : State) : Host.Outcome State Fault Refusal :=
  executeShfl (.shflUp f) f (fun b k => b - k) s

/-- SHFL down (R413). -/
def execShflDown (f : ShDA) (s : State) : Host.Outcome State Fault Refusal :=
  executeShfl (.shflDown f) f (fun b k => b + k) s

/-- SHFL xor (R413). -/
def execShflXor (f : ShDA) (s : State) : Host.Outcome State Fault Refusal :=
  executeShfl (.shflXor f) f (fun b k => ((b.toNat ^^^ k.toNat : Nat) : Int)) s

/-! ### Reductions and scans -/

/-- A running combination from the first value: every inclusive result. -/
def running (op : Word → Word → Word) : List Word → List Word
  | [] => []
  | x :: xs => go x xs
where
  /-- The results after a running value. -/
  go (acc : Word) : List Word → List Word
    | [] => [acc]
    | y :: ys => acc :: go (op acc y) ys

/-- The last element of a list of words, 0 if it is empty. -/
def lastWord (xs : List Word) : Word := xs.getLastD 0

/-- A reduction without rounding (R404). -/
def executeReduce (i : Instr) (f : ShDA) (op : Word → Word → Word) (s : State) : Host.Outcome State Fault Refusal :=
  executeRod i (modify fun r => r.setWord none f.d (lastWord (running op (r.values f.a)))) s

/-- The lesser or greater of two words, as signed or unsigned integers. -/
def pickWord (unsigned greater : Bool) (x y : Word) : Word :=
  let lt := decide (intOf 32 unsigned x.toNat < intOf 32 unsigned y.toNat)
  if lt = greater then y else x

/-- RODRED iadd (R404). -/
def execRodredIadd (f : ShDA) (s : State) : Host.Outcome State Fault Refusal :=
  executeReduce (.rodredIadd f) f (fun x y => x + y) s

/-- RODRED smin (R404). -/
def execRodredSmin (f : ShDA) (s : State) : Host.Outcome State Fault Refusal :=
  executeReduce (.rodredSmin f) f (pickWord false false) s

/-- RODRED smax (R404). -/
def execRodredSmax (f : ShDA) (s : State) : Host.Outcome State Fault Refusal :=
  executeReduce (.rodredSmax f) f (pickWord false true) s

/-- RODRED nmin (R404). -/
def execRodredNmin (f : ShDA) (s : State) : Host.Outcome State Fault Refusal :=
  executeReduce (.rodredNmin f) f (pickWord true false) s

/-- RODRED nmax (R404). -/
def execRodredNmax (f : ShDA) (s : State) : Host.Outcome State Fault Refusal :=
  executeReduce (.rodredNmax f) f (pickWord true true) s

/-- RODRED and (R404). -/
def execRodredAnd (f : ShDA) (s : State) : Host.Outcome State Fault Refusal :=
  executeReduce (.rodredAnd f) f (fun x y => x &&& y) s

/-- RODRED or (R404). -/
def execRodredOr (f : ShDA) (s : State) : Host.Outcome State Fault Refusal :=
  executeReduce (.rodredOr f) f (fun x y => x ||| y) s

/-- The exclusive results of a scan: each bead has the inclusive result of the one before it, the first `init`. -/
def exclusive (init : Word) (xs : List Word) : List Word := init :: xs.dropLast

/-- Results of a scan are written to the active beads (R404). -/
def Rod.setScan (r : Rod) (d : BitVec 7) (xs : List Word) : Rod := r.setMany d (r.beadsActive.zip xs)

/-- RODSCAN iadd, inclusive (R404). -/
def execRodscanIaddInc (f : ShDA) (s : State) : Host.Outcome State Fault Refusal :=
  executeRod (.rodscanIaddInc f) (modify fun r => r.setScan f.d (running (fun x y => x + y) (r.values f.a))) s

/-- RODSCAN iadd, exclusive (R404). -/
def execRodscanIaddExc (f : ShDA) (s : State) : Host.Outcome State Fault Refusal :=
  executeRod (.rodscanIaddExc f)
    (modify fun r => r.setScan f.d (exclusive 0 (running (fun x y => x + y) (r.values f.a)))) s

/-- The running float sum of the active beads (R114, R405): every inclusive result, and the conditions of all
additions.  DAZ acts on the added value alone.  Result j of bead j draws with the running sum and the added value. -/
def Rod.floatSums (r : Rod) (rounding : BitVec 3) (f : BitVec 7) : Nat → List Nat → List Word × Conds
  | _, [] => ([], 0)
  | acc, k :: ks =>
    let y := (r.vreg k f).toNat
    let v := r.env (some k) rounding acc y 0 k
    let x := Fmt.f32.add v (Fmt.f32.decode acc) (Fmt.f32.read v y)
    let (rest, c) := r.floatSums rounding f x.1 ks
    (BitVec.ofNat 32 x.1 :: rest, x.2 ||| c)

/-- A value as read: with DAZ, a subnormal f32 reads as zero of its sign (R104, R405). -/
def readF32 (v : Env) (x : Nat) : Nat := if v.daz && Fmt.f32.subnormal x then x / 2 ^ 31 * 2 ^ 31 else x

/-- The inclusive float sums of a rod (R405): the first active bead's value as read, then the running sums. -/
def Rod.floatScan (r : Rod) (rounding : BitVec 3) (f : BitVec 7) : List Word × Conds :=
  match r.beadsActive with
  | [] => ([], 0)
  | k :: ks =>
    let x := readF32 (r.env (some k) 1 0 0 0 0) (r.vreg k f).toNat
    let (rest, c) := r.floatSums rounding f x ks
    (BitVec.ofNat 32 x :: rest, c)

/-- RODRED fadd (R405); an enabled condition is the fault of the lowest active bead. -/
def execRodredFadd (f : ShRDA) (s : State) : Host.Outcome State Fault Refusal :=
  executeRod (.rodredFadd f) (do
    let r ← get
    RM.conditions none (r.floatScan f.r f.a).2
    modify fun q => q.setWord none f.d (lastWord (r.floatScan f.r f.a).1)) s

/-- RODSCAN fadd, inclusive (R405). -/
def execRodscanFaddInc (f : ShRDA) (s : State) : Host.Outcome State Fault Refusal :=
  executeRod (.rodscanFaddInc f) (do
    let r ← get
    RM.conditions none (r.floatScan f.r f.a).2
    modify fun q => q.setScan f.d (r.floatScan f.r f.a).1) s

/-- RODSCAN fadd, exclusive (R405): the first active bead has -0. -/
def execRodscanFaddExc (f : ShRDA) (s : State) : Host.Outcome State Fault Refusal :=
  executeRod (.rodscanFaddExc f) (do
    let r ← get
    RM.conditions none (r.floatScan f.r f.a).2
    modify fun q => q.setScan f.d (exclusive 0x80000000 (r.floatScan f.r f.a).1)) s

end Sys2Proof.Machine
end

