-- ==== Sys2Proof/Machine/Copy.lean ====
section
/-!
DEFINITION. Window copies, sparse gather and command chains: WBIND, WCSR, WTOUCH, WDROP and CHADV, and the steps of the
window-copy unit and the package copy engines (R175 to R194, R347, R434, R435).
-/

namespace Sys2Proof.Machine

/-! ### Windows -/

/-- A free window entry. -/
def Window.empty : Window := ⟨.free, 0, 0, 0, 0, 0, Cap.empty, 0, 0, none, none, Seen.none, []⟩

/-- A window of a frame. -/
def Frame.window (f : Frame) (n : Nat) : Window := nth Window.empty f.windows n

/-- A window of a frame is changed. -/
def State.modWindow (s : State) (frame n : Nat) (g : Window → Window) : State :=
  s.modFrame frame fun f => { f with windows := setNth f.windows n (g (f.window n)) }

/-- The windows that go with a window: itself and, for a walk, its partner. -/
def Frame.together (f : Frame) (n : Nat) : List Nat :=
  match (f.window n).gather with
  | none => [n]
  | some g => [n, g.partner]

/-- The rods of a frame that sleep in WDROP of a window go on (R182). -/
def State.wakeDroppers (s : State) (frame win : Nat) : State :=
  { s with rods := s.rods.map fun r =>
    match r.status with
    | .asleep (.wdrop n) _ _ => if r.frame = frame ∧ n = win then r.served (s.uniformAt r) true else r
    | _ => r }

/-- Windows become Free, and the rods that dropped them go on; a walk ends with either of its windows (R182,
assumption 9). -/
def State.freeWindows (s : State) (frame : Nat) : List Nat → State
  | [] => s
  | n :: ns => ((s.modWindow frame n fun _ => Window.empty).wakeDroppers frame n).freeWindows frame ns

/-- A window's cells, placed in its frame's segment. -/
def Frame.place (f : Frame) (w : Window) (j : Nat) : Nat := (f.seg w.buf).base.toNat + w.cell + j

/-- A window is placed as asked: its buffer, its length within the segment, and no cell of another window that is not
Free (R177). -/
def Frame.roomFor (f : Frame) (buf cell len : Nat) (others : List Nat) : Bool :=
  decide (buf ≠ 3 ∧ cell + len ≤ (f.seg buf).limit.toNat) &&
    others.all fun n => !(decide ((f.window n).st ≠ .free ∧ (f.window n).buf = buf) &&
      overlap (f.window n).cell (f.window n).cells cell len)

/-- The frame's windows but for some. -/
def Frame.otherWindows (f : Frame) (but : List Nat) : List Nat :=
  (List.range f.windows.length).filter fun n => !but.contains n

/-- A window entry is filled, and its cells are made absent (R178). -/
def State.placeWindow (s : State) (f : Frame) (n : Nat) (w : Window) : State :=
  (s.absentCells f.core w.buf (f.place w 0) w.cells).modWindow f.uid n fun _ => w

/-- A window is bound: what it was is dropped first (R177, R178, R182), so that a rod that sleeps in WDROP of it goes
on. -/
def State.bindWindow (s : State) (f : Frame) (n : Nat) (w : Window) : State :=
  (s.freeWindows f.uid (f.together n)).placeWindow f n w

/-- WBIND (R176, R177, R183). -/
def execWbind (i : ShWbind) (s : State) : Host.Outcome State Fault Refusal :=
  execute (.wbind i) (M.each i.u fun b => do
    let r ← M.rod
    let f ← M.frame
    let x := (r.quad b i.a).toNat
    let off := (r.dword b i.b).toNat
    let n := field x 123 5
    let buf := field x 121 2
    let cell := field x 96 20
    let rows := field x 80 16 + 1
    let rowc := field x 68 12 + 1
    let stride := field x 32 32
    let c := r.cap i.c.toNat
    M.need (decide (n < f.windows.length)) (segmentFault b)
    M.need (decide (field x 116 5 = 0 ∧ field x 64 4 = 0 ∧ field x 0 32 = 0 ∧ stride % 16 = 0)) (segmentFault b)
    M.need (f.roomFor buf cell (rows * rowc) (f.otherWindows [n])) (segmentFault b)
    M.checkCap b c { e := true } off ((rows - 1) * stride + 16 * rowc)
    M.need (decide (off % 16 = 0)) (capFault b 3)
    M.upd fun s => s.bindWindow f n ⟨.bound, buf, cell, rows, rowc, stride, c, off, 0, none, none, r.view.seen, []⟩) s

/-- Cells of the index window of a walk (R185). -/
def indexCells (nmax : Nat) : Nat := 1 + (4 * nmax + 15) / 16

/-- Cells of the value window of a walk (R185). -/
def valueCells (vw nmax : Nat) : Nat := (vw * nmax + 15) / 16

/-- WCSR (R184, R185). -/
def execWcsr (i : ShWbind) (s : State) : Host.Outcome State Fault Refusal :=
  execute (.wcsr i) (M.each i.u fun b => do
    let r ← M.rod
    let f ← M.frame
    let x := (r.quad b i.a).toNat
    let rows := (r.dword b i.b).toNat
    let ni := field x 123 5
    let nv := field x 118 5
    let vw := 2 ^ field x 116 2
    let buf := field x 114 2
    let nmax := field x 96 16 + 1
    let icell := field x 76 20
    let vcell := field x 56 20
    let c := r.cap i.c.toNat
    M.need (decide (ni < f.windows.length ∧ nv < f.windows.length ∧ ni ≠ nv)) (segmentFault b)
    M.need (decide (field x 112 2 = 0 ∧ field x 0 56 = 0)) (segmentFault b)
    M.need (f.roomFor 0 icell (indexCells nmax) (f.otherWindows [ni, nv]) &&
      f.roomFor buf vcell (valueCells vw nmax) (f.otherWindows [ni, nv]) &&
      !(decide (buf = 0) && overlap icell (indexCells nmax) vcell (valueCells vw nmax))) (segmentFault b)
    M.checkCap b c { e := true } c.lo.toNat (c.hi.toNat - c.lo.toNat)
    let g (index : Bool) (partner : Nat) : Gather :=
      ⟨index, partner, vw, nmax, field rows 0 32, field rows 32 32, none, 0, [], []⟩
    M.upd fun s =>
      let s1 := (s.freeWindows f.uid (f.together ni)).freeWindows f.uid (f.together nv)
      let s2 := s1.placeWindow f ni ⟨.bound, 0, icell, 1, indexCells nmax, 0, c, 0, 0, some (g true nv), none, r.view.seen, []⟩
      s2.placeWindow f nv ⟨.bound, buf, vcell, 1, valueCells vw nmax, 0, c, 0, 0, some (g false ni), none, r.view.seen, []⟩) s

/-- The window number that WTOUCH or WDROP names (R175, R183). -/
def M.windowNumber (b : Option Nat) (a : BitVec 7) : M Nat := do
  let r ← M.rod
  let f ← M.frame
  let x := if isS a then (r.sreg (sIndex a)).toNat else (r.vreg (beadNo b) a).toNat
  M.need (decide (x < 32 ∧ x < f.windows.length)) (segmentFault b)
  pure x

/-- WTOUCH (R179). -/
def execWtouch (i : ShUA) (s : State) : Host.Outcome State Fault Refusal :=
  execute (.wtouch i) (M.each i.u fun b => do
    let n ← M.windowNumber b i.a
    let f ← M.frame
    let r ← M.rod
    M.upd fun s => s.modFrame f.uid fun f => f.touch r.view.seen n) s

/-- WDROP (R182): of a Copying window it sleeps until the window is Free. -/
def execWdrop (i : ShUA) (s : State) : Host.Outcome State Fault Refusal :=
  execute (.wdrop i) (M.each i.u fun b => do
    let n ← M.windowNumber b i.a
    let f ← M.frame
    match (f.window n).st with
    | .free => pure ()
    | .copying | .draining =>
      M.upd fun s => (f.together n).foldl (fun s k => s.modWindow f.uid k fun w => { w with st := .draining }) s
      throw (.sleep (beadNo b) (.wdrop n) false)
    | _ => M.upd fun s => s.freeWindows f.uid (f.together n)) s

/-- WDROP_COMPLETE: a dropped window becomes Free, and the rods that dropped it go on (R182). -/
def execWdropComplete (frame win : Nat) (s : State) : Host.Outcome State Fault Refusal :=
  match s.frame? frame with
  | none => .next s
  | some f =>
    if (f.window win).st ≠ .draining then .next s
    else
      .next (s.freeWindows frame (f.together win))

/-! ### The window-copy unit -/

/-- FRAMEID of a frame as a number, for stop records. -/
def Frame.id (f : Frame) : Nat := f.frameid.toNat

/-- The rods of a frame that sleep on cells of some of its windows (R192). -/
def State.sleepersOn (s : State) (f : Frame) (wins : List Nat) : List Nat :=
  (s.rods.filter fun r =>
    match r.status with
    | .asleep (.cell c b n _) _ _ =>
      decide (r.frame = f.uid ∧ c = f.core) && wins.any fun k =>
        let w := f.window k
        decide (w.buf = b ∧ f.place w 0 ≤ n ∧ n < f.place w w.cells)
    | _ => false).map Rod.uid

/-- The window, with its partner, waits on a page fault, whose record is tagged with the rods that sleep on their cells
(R192). -/
def State.windowWaits (frame win : Nat) (s : State) : State :=
  match s.frame? frame with
  | none => s
  | some f =>
    ((f.together win).foldl (fun s k => s.modWindow frame k fun w => { w with tags := s.sleepersOn f [k] }) s).modWindow
      frame win fun w => { w with fault := some none }

/-- The frame's engines as clients of memory for a window, on a path (R155). -/
def Frame.client (f : Frame) (w : Window) (path : Nat) : Client := ⟨some f.core, f.asid, path, w.seen⟩

/-- The byte of a window's object that its cell `j` takes (R176). -/
def Window.byteOf (w : Window) (j : Nat) : Nat := w.off + j / w.rowc * w.stride + 16 * (j % w.rowc)

/-- The window is in the middle of a line request: its last landed cell and its next one take bytes of one line. -/
def Window.midLine (w : Window) : Bool :=
  w.gather.isNone && decide (0 < w.landed ∧ w.byteOf (w.landed - 1) / 128 = w.byteOf w.landed / 128)

/-- The windows of a core that its copy unit can serve, as entries of the core's window table with frame and window: those
that copy and wait for nothing (R180). A walk stands under its index window. -/
def State.copying (s : State) (core : Nat) : List (Nat × Nat × Nat) :=
  (s.frames.filter fun f => decide (f.core = core)).flatMap fun f =>
    ((List.range f.windows.length).filter fun n =>
      let w := f.window n
      decide (w.st = .copying) && w.fault.isNone && !s.awaits (.window f.uid n) &&
        (match w.gather with
         | none => true
         | some g => g.index)).map fun n => (f.w0 + n, f.uid, n)

/-- The window that the copy unit of a core serves next (R180): the one whose line request is not complete, else the next
one in ascending number after the one served last. -/
def State.nextWindow (s : State) (core : Nat) : Option (Nat × Nat × Nat) :=
  let ws := sortBy Prod.fst (s.copying core)
  match Sparse.find s.windowTurn core with
  | none => ws.head?
  | some last =>
    match ws.find? fun x => decide (x.1 = last) && ((s.frame? x.2.1).any fun f => (f.window x.2.2).midLine) with
    | some x => some x
    | none =>
      match ws.find? fun x => decide (last < x.1) with
      | some x => some x
      | none => ws.head?

/-- The copy unit serves a window of a frame. -/
def State.serving (s : State) (f : Frame) (win : Nat) : State :=
  { s with windowTurn := Sparse.put s.windowTurn f.core (f.w0 + win) }

/-- It is the window's turn. -/
def State.hasTurn (s : State) (f : Frame) (win : Nat) : Bool := decide (s.nextWindow f.core = some (f.w0 + win, f.uid, win))

/-- COPY_CELL_LAND: the next cell of the copying window whose turn it is lands (R176, R180). -/
def execCopyCellLand (frame win : Nat) (s : State) : Host.Outcome State Fault Refusal :=
  match s.frame? frame with
  | none => .next s
  | some f =>
    let w := f.window win
    if w.gather.isSome ∨ !s.hasTurn f win then .next s
    else
      match (s.serving f win).engineRead (f.client w 1) w.cap (w.byteOf w.landed) 16 with
      | (.error e, s') =>
        .next (s'.engineFault f.asid f.core 1 f.frameid (.window frame win) (State.windowWaits frame win) e)
      | (.ok x, s') =>
        let s1 := s'.modWindow frame win fun w =>
          { w with landed := w.landed + 1, st := if w.landed + 1 = w.cells then .filled else .copying }
        .next (s1.writeCell f.core w.buf (f.place w w.landed) (BitVec.ofNat 128 x))

/-- A read of a walk stays within the capability (R186). -/
def Window.inBounds (w : Window) (byte n : Nat) : Bool := decide (w.cap.lo.toNat ≤ byte ∧ byte + n ≤ w.cap.hi.toNat)

/-- A walk's read: none when it leaves the capability's bounds (R186). -/
def State.walkRead (s : State) (f : Frame) (w : Window) (byte n : Nat) : Except EngineFail (Option Nat) × State :=
  if !w.inBounds byte n then (.ok none, s)
  else
    match s.engineRead (f.client w 2) w.cap byte n with
    | (.error e, s') => (.error e, s')
    | (.ok x, s') => (.ok (some x), s')

/-- What a walk reads first: the header and the row pointers (R186). -/
def State.gatherPlan (s : State) (f : Frame) (w : Window) (g : Gather) : Except EngineFail GatherPlan × State :=
  let bad : GatherPlan := ⟨0, 0, 2, 0, 0, 0⟩
  match s.walkRead f w 0 32 with
  | (.error e, s') => (.error e, s')
  | (.ok none, s') => (.ok bad, s')
  | (.ok (some h), s') =>
    if g.r1 < g.r0 ∨ field h 192 64 < g.r1 then (.ok bad, s')
    else
      match s'.walkRead f w (field h 0 64 + 4 * g.r0) 4 with
      | (.error e, s2) => (.error e, s2)
      | (.ok none, s2) => (.ok bad, s2)
      | (.ok (some p0), s2) =>
        match s2.walkRead f w (field h 0 64 + 4 * g.r1) 4 with
        | (.error e, s3) => (.error e, s3)
        | (.ok none, s3) => (.ok bad, s3)
        | (.ok (some p1), s3) =>
          if p1 < p0 then (.ok bad, s3)
          else
            let n := p1 - p0
            (.ok ⟨n, min n g.nmax, if g.nmax < n then 1 else 0, field h 64 64, field h 128 64, p0⟩, s3)

/-- Both entries of a walk are changed alike. -/
def State.modGather (s : State) (frame win : Nat) (g : Gather) (h : Gather → Gather) : State :=
  let set (w : Window) : Window := { w with gather := w.gather.map h }
  (s.modWindow frame win set).modWindow frame g.partner set

/-- The index window and the value window of a walk, as numbers. -/
def Gather.pair (g : Gather) (win : Nat) : Nat × Nat := if g.index then (win, g.partner) else (g.partner, win)

/-- A full or last index cell is written: cell number and words (R186). -/
def State.landWords (s : State) (f : Frame) (ni cell : Nat) (ws : List Word) : State :=
  s.writeCell f.core 0 (f.place (f.window ni) cell) (BitVec.ofNat 128 (packFields (ws.map fun w => (32, w.toNat))))

/-- A full or last value cell is written (R186). -/
def State.landBytes (s : State) (f : Frame) (nv cell : Nat) (bs : List Byte) : State :=
  s.writeCell f.core (f.window nv).buf (f.place (f.window nv) cell) (BitVec.ofNat 128 (natOfBytes bs))

/-- The walk ends: what is left of its last cells lands, then index cell 0, the completion cell (R186). -/
def State.endGather (s : State) (f : Frame) (win : Nat) (g : Gather) (n m status : Nat) (st : WinState) : State :=
  let (ni, nv) := g.pair win
  let s1 := if g.words.isEmpty then s else s.landWords f ni (1 + g.done / 4) g.words
  let s2 := if g.bytes.isEmpty then s1 else s1.landBytes f nv (g.done * g.vw / 16) g.bytes
  let s3 := s2.writeCell f.core 0 (f.place (f.window ni) 0) (BitVec.ofNat 128 (packFields [(32, n), (32, m), (32, status), (32, g.r0)]))
  let fin (w : Window) : Window := { w with st := st, landed := g.done, fault := none }
  (s3.modWindow f.uid ni fin).modWindow f.uid nv fin

/-- The stop record of a copying window (R193, R194). -/
def Window.stopRec (f : Frame) (win status : Nat) (w : Window) : StopRec :=
  match w.gather with
  | none => ⟨1, status, win, f.core, f.id, 0, 0, w.landed⟩
  | some g => ⟨2, status, (g.pair win).1, f.core, f.id, 0, 0, g.done⟩

/-- A walk that is over: its completion cell, and for a malformed walk a stop record (R186, R193, assumption 10). -/
def State.finishGather (s : State) (f : Frame) (win : Nat) (g : Gather) (p : GatherPlan) : State :=
  let s1 := s.endGather f win g p.n p.m p.status .filled
  if p.status = 2 then s1.writeStop f.asid Marks.none ((f.window win).stopRec f win 2) else s1

/-- An element of the walk lands (R186). -/
def State.landElement (s : State) (f : Frame) (win : Nat) (g : Gather) (p : GatherPlan) (col val : Nat) : State :=
  let (ni, nv) := g.pair win
  let words := g.words ++ [BitVec.ofNat 32 col]
  let bytes := g.bytes ++ bytesOfNat g.vw val
  let fullW := decide (words.length = 4)
  let fullB := decide (bytes.length = 16)
  let s1 := if fullW then s.landWords f ni (1 + g.done / 4) words else s
  let s2 := if fullB then s1.landBytes f nv (g.done * g.vw / 16) bytes else s1
  let g' : Gather := { g with
    plan := some p, done := g.done + 1
    words := if fullW then [] else words, bytes := if fullB then [] else bytes }
  s2.modGather f.uid win g fun old => { g' with index := old.index, partner := old.partner }

/-- GATHER_ELEMENT_LAND: a walk reads its object, lands its next element, or ends (R186). -/
def execGatherElementLand (frame win : Nat) (s : State) : Host.Outcome State Fault Refusal :=
  match s.frame? frame with
  | none => .next s
  | some f =>
    let w := f.window win
    match w.gather with
    | none => .next s
    | some g =>
      if !s.hasTurn f win then .next s
      else
        let s := s.serving f win
        let fail (e : EngineFail) (s' : State) : Host.Outcome State Fault Refusal :=
          .next (s'.engineFault f.asid f.core 2 f.frameid (.window frame win) (State.windowWaits frame win) e)
        match g.plan with
        | none =>
          match s.gatherPlan f w g with
          | (.error e, s') => fail e s'
          | (.ok p, s') => .next (s'.modGather frame win g fun g => { g with plan := some p })
        | some p =>
          if g.done = p.m then .next (s.finishGather f win g p)
          else
            match s.walkRead f w (p.ci + 4 * (p.p0 + g.done)) 4 with
            | (.error e, s') => fail e s'
            | (.ok none, s') => .next (s'.finishGather f win g { p with status := 2, m := g.done })
            | (.ok (some col), s') =>
              match s'.walkRead f w (p.va + g.vw * (p.p0 + g.done)) g.vw with
              | (.error e, s2) => fail e s2
              | (.ok none, s2) => .next (s2.finishGather f win g { p with status := 2, m := g.done })
              | (.ok (some val), s2) => .next (s2.landElement f win g p col val)

/-- A copying window or walk stops with a status, and writes its stop record (R193, R194). One that a WDROP has cancelled
becomes Free instead, with no record (R182). -/
def State.stopWindow (s : State) (f : Frame) (win status : Nat) : State :=
  let w := f.window win
  if w.st = .draining then s.freeWindows f.uid (f.together win)
  else match w.gather with
  | none =>
    (s.modWindow f.uid win fun w => { w with st := .stopped, fault := none }).writeStop f.asid Marks.none (w.stopRec f win status)
  | some g =>
    let n := match g.plan with
      | none => 0
      | some p => p.n
    (s.endGather f win g n g.done status .stopped).writeStop f.asid Marks.none (w.stopRec f win status)

/-! ### Package copy engines (R187 to R190) -/

/-- The copy engine of a number that is assigned. -/
def State.copyEngine? (s : State) (e : Nat) : Option CopyEngine := s.copyEngines.find? fun c => decide (c.engine = e)

/-- An assigned copy engine is changed. -/
def State.modEngine (s : State) (e : Nat) (g : CopyEngine → CopyEngine) : State :=
  { s with copyEngines := s.copyEngines.map fun c => if c.engine = e then g c else c }

/-- CHADV (R190, R347): it acts as `xfence.dev program, copy`, and then writes TAIL. -/
def execChadv (f : ShUDA) (s : State) : Host.Outcome State Fault Refusal :=
  execute (.chadv f) (M.each f.u fun b => do
    let r ← M.rod
    let s ← get
    let e := (r.sreg (sIndex f.d)).toNat
    let tail := (r.sreg (sIndex f.a)).toNat
    M.need (decide (e < Config.copyEngines) && s.copyEngines.any fun c => decide (c.engine = e ∧ c.asid = r.asid))
      (capFault b 2)
    M.need (decide (tail % 64 = 0)) (capFault b 3)
    M.cross 0 1 4
    let q ← M.rod
    M.upd fun s => s.modEngine e fun c => { c with tail := tail, seen := c.seen.join q.view.seen }) s

/-- A package copy engine as a client of memory: it belongs to no core, its path is copy (R155), and its own writes come
before its accesses. -/
def CopyEngine.client (c : CopyEngine) : Client := ⟨none, c.asid, 1, { c.seen with hb := c.seen.hb.join c.own }⟩

/-- The stop record of a chain (R193). -/
def CopyEngine.stopRec (c : CopyEngine) (status : Nat) : StopRec :=
  ⟨3, status, c.engine, 0, 0, c.seq.toNat, c.cur, match c.running with
    | none => 0
    | some e => e.units⟩

/-- A chain stops with a status (R188, R193). -/
def State.stopChain (s : State) (c : CopyEngine) (status : Nat) : State :=
  (s.modEngine c.engine fun c => { c with stopped := true, running := none, fault := none }).writeStop c.asid c.own (c.stopRec status)

/-- The engine waits on a page fault (R192). -/
def State.engineWaits (e : Nat) (s : State) : State := s.modEngine e fun c => { c with fault := some none }

/-- An entry of a chain is malformed (R188): `cap` is the chain object's.  R187 gives zero to PAT of a copy and to SRCH and SOFF
of a fill, and R188 does not count another value there among the malformed ones: the model ignores them (DESIGN CHOICE,
assumption 77). -/
def entryBad (x : Nat) (cap : Cap) : Bool :=
  let nx := field x 0 48
  decide (field x 432 80 ≠ 0 ∨ field x 368 16 ≠ 0 ∨ field x 304 16 ≠ 0 ∨ field x 240 16 ≠ 0 ∨ field x 168 24 ≠ 0 ∨
    field x 48 80 ≠ 0 ∨ 2 ≤ field x 160 8 ∨ field x 320 48 = 0 ∨ nx % 64 ≠ 0 ∨ cap.hi.toNat < nx + 64)

/-- The device virtual address of entry `i` of a context's handle table; none beyond its end (R119). -/
def State.handleAt (s : State) (asid i : Nat) : Option Nat :=
  if s.ctxField asid 112 16 < i then none else some ((s.ctxField asid 128 48 + 16 * i) % 2 ^ 48)

/-- A handle-table entry at a physical address, as CAPLD would load it: none where CAPLD would fault (R119). -/
def State.handleIn (s : State) (a : Nat) : Option Cap :=
  let x := s.natAt a 16
  if field x 120 2 = 0 then some (Cap.ofNat x) else none

/-- Entry `i` of a context's handle table for a unit that belongs to no core (R119, assumption 74). -/
def State.handle (s : State) (asid i : Nat) : Except EngineFail (Option Cap) × State :=
  match s.handleAt asid i with
  | none => (.ok none, s)
  | some va =>
    match s.engineVaRead asid va 16 with
    | (.error e, s') => (.error e, s')
    | (.ok a, s') => (.ok (s'.handleIn a), s')

/-- Entry `i` of a context's handle table for an engine, which waits for its walk (R119, R141). -/
def State.engineHandle (s : State) (c : Client) (i : Nat) : Except EngineFail (Option Cap) × State :=
  match s.handleAt c.asid i with
  | none => (.ok none, s)
  | some va =>
    match s.engineXlate c va false with
    | (.error e, s') => (.error e, s')
    | (.ok a, s') => if s'.damaged a 16 then (.error (.data va), s') else (.ok (s'.handleIn a), s')

/-- The checks of a chain entry, and what the engine then runs: the status that stops the chain, or the entry (R188).  Of an
entry that is wrong in several ways R188 does not say which status it gives: the model takes 3 (malformed), then 2 (a failed
check), then 4 (overlap) (DESIGN CHOICE, assumption 77). -/
def entryChecked (x : Nat) (c : CopyEngine) (src dst : Option Cap) : Except Nat ChainEntry :=
  let len := field x 320 48
  let fill := decide (field x 160 8 = 1)
  let soff := field x 192 48
  let doff := field x 256 48
  let srcOk := match src with
    | none => fill
    | some k => fill || (k.check { e := true } soff len).isNone
  let dstOk := match dst with
    | none => false
    | some k => (k.check { e := true, w := true } doff len).isNone
  if entryBad x c.cap then .error 3
  else if !srcOk || !dstOk then .error 2
  else if !fill && decide (field x 144 16 = field x 128 16) && overlap soff len doff len then .error 4
  else
    .ok ⟨c.cur, field x 0 48, len, if fill then some (BitVec.ofNat 48 (field x 384 48)) else none,
      src.getD Cap.empty, soff, dst.getD Cap.empty, doff, 0⟩

/-- CHAIN_ENTRY_START: the engine reads the entry at CUR, checks it, and runs it or stops (R188). -/
def execChainEntryStart (engine : Nat) (s : State) : Host.Outcome State Fault Refusal :=
  match s.copyEngine? engine with
  | none => .next s
  | some c =>
    if c.cur = c.tail ∨ c.stopped ∨ c.running.isSome ∨ c.fault.isSome ∨ c.releasing then .next s
    else
      let fail (e : EngineFail) (s' : State) : Host.Outcome State Fault Refusal :=
        .next (s'.engineFault c.asid engine 7 0 (.engine engine) (State.engineWaits engine) e)
      match s.engineRead c.client c.cap c.cur 64 with
      | (.error e, s') => fail e s'
      | (.ok x, s') =>
        match s'.engineHandle c.client (field x 144 16) with
        | (.error e, s2) => fail e s2
        | (.ok src, s2) =>
          match s2.engineHandle c.client (field x 128 16) with
          | (.error e, s3) => fail e s3
          | (.ok dst, s3) =>
            match entryChecked x c src dst with
            | .error status => .next (s3.stopChain c status)
            | .ok e => .next (s3.modEngine engine fun c => { c with running := some e })

/-- Bytes of a fill pattern from a position (R187). -/
def patBytes (pat : BitVec 48) (pos n : Nat) : List Byte :=
  (List.range n).map fun i => BitVec.ofNat 8 (field pat.toNat (8 * ((pos + i) % 6)) 8)

/-- One 16-byte unit of the running entry is written (R188). -/
def State.copyUnit (s : State) (c : CopyEngine) (e : ChainEntry) : Except EngineFail Unit × State :=
  let n := min 16 (e.len - 16 * e.units)
  let put (bytes : List Byte) (s : State) : Except EngineFail Unit × State :=
    match s.engineBytes c.client e.dst (e.doff + 16 * e.units) true n with
    | (.error x, s') => (.error x, s')
    | (.ok as, s') =>
      let (m, s2) := s'.pathWrites 1 .device [] (as.zip bytes)
      (.ok (), s2.modEngine c.engine fun c =>
        { c with running := some { e with units := e.units + 1 }, own := c.own.join m })
  match e.fill with
  | some pat => put (patBytes pat (16 * e.units) n) s
  | none =>
    match s.engineRead c.client e.src (e.soff + 16 * e.units) n with
    | (.error x, s') => (.error x, s')
    | (.ok x, s') => put (bytesOfNat n x) s'

/-- The engine is free again (R308). -/
def State.freeEngine (s : State) (engine : Nat) : State :=
  { s with copyEngines := s.copyEngines.filter fun c => decide (c.engine ≠ engine) }

/-- The entry has completed: the sequence word rises by one with a release of what the engine wrote, at dev scope, and
CUR moves on (R170, R188, R189). -/
def State.entryDone (s : State) (c : CopyEngine) (e : ChainEntry) : Except EngineFail Unit × State :=
  match s.engineReach c.client c.cap 0 8 true with
  | (.error x, s') => (.error x, s')
  | (.ok a, s') =>
    (.ok (), (s'.pathWriteNat 1 .device [s'.completion .device c.own a] a 8 (c.seq + 1).toNat).modEngine c.engine fun c =>
      { c with seq := c.seq + 1, cur := e.next, running := none, own := c.own.join (Marks.at (homeDieOf a) (s'.fresh + 1)) })

/-- CHAIN_ENTRY_COMPLETE: the running entry copies its next unit, in ascending order, and completes when it has copied
all of them (R188, R189). -/
def execChainEntryComplete (engine : Nat) (s : State) : Host.Outcome State Fault Refusal :=
  match s.copyEngine? engine with
  | none => .next s
  | some c =>
    match c.running with
    | none => .next s
    | some e =>
      if c.fault.isSome then .next s
      else
        let fail (x : EngineFail) (s' : State) : Host.Outcome State Fault Refusal :=
          .next (s'.engineFault c.asid engine 7 0 (.engine engine) (State.engineWaits engine) x)
        match (if e.units < (e.len + 15) / 16 then s.copyUnit c e else s.entryDone c e) with
        | (.error x, s') => fail x s'
        | (.ok _, s') => .next s'

end Sys2Proof.Machine
end

