-- ==== Sys2Proof/Machine/Queue.lean ====
section
/-!
DEFINITION. Queue objects, graph edges and draw queues, LAUNCH, and UPCALL with its reply
(R270, R283, R284, R292, R309, R355, R382, R399, R429).
-/

namespace Sys2Proof.Machine

/-! ### Queue headers (R270) -/

/-- A queue header. -/
structure Queue where
  tail : Nat
  head : Nat
  nextf : Nat
  bound : Nat
  size : Nat
  rsz : Nat
  claimed : Nat
  rest : Nat
  deriving DecidableEq, Repr

/-- The fields of a header. -/
def Queue.ofNat (x : Nat) : Queue :=
  ⟨field x 0 64, field x 64 64, field x 128 32, field x 160 32, field x 192 24 + 1, field x 216 8, field x 224 1,
    field x 225 799⟩

/-- The header at a physical address. -/
def State.queueAt (s : State) (h : Nat) : Queue := Queue.ofNat (s.natAt h 128)

/-- Records published and not taken. -/
def Queue.count (q : Queue) : Nat := (q.tail + 2 ^ 64 - q.head) % 2 ^ 64

/-- The header is malformed (R270); `launch` for a launch queue. -/
def Queue.bad (q : Queue) (launch : Bool) : Bool :=
  decide (q.rest ≠ 0 ∨ q.rsz = 0 ∨ 32 < q.rsz ∨ q.size < q.count) ||
    (if launch then decide (q.rsz ≠ 32) else decide (q.claimed ≠ 0 ∨ q.bound ≠ 0 ∨ q.nextf ≠ 0))

/-- The byte offset of record `i` in the object (R270). -/
def Queue.recordAt (q : Queue) (i : Nat) : Nat := 128 + 8 * q.rsz * (i % q.size)

/-- HEAD becomes a value, as a consumer of the device moves it: R155's paths do not name the accesses of ring consumers, which
in the model belong to no path (DESIGN CHOICE, assumption 79). -/
def State.setHead (s : State) (h x : Nat) : State := s.homeWriteNat (h + 8) 8 x

/-- HEAD becomes a value, as a dispatch core moves it: a release at dev scope of every write performed so far (R272, R279,
assumption 79). -/
def State.releaseHead (s : State) (h x : Nat) : State :=
  s.pathWrite 0 .device [s.completion .device s.allMarks (h + 8)] (placed (h + 8) (bytesOfNat 8 x))

/-- TAIL becomes a value. -/
def State.setTail (s : State) (h x : Nat) : State := s.homeWriteNat h 8 x

/-! ### EDGEGET, EDGEPUT, QPOP and QPUSH (R284) -/

/-- A rod writes bytes at their homes, with the releases that the writes carry. -/
def State.rodWrites (s : State) (r : Rod) (stamps : List Stamp) (ws : List (Nat × Byte)) : State :=
  let (m, s1) := s.pathWrites 0 r.agent stamps ws
  s1.modRod r.uid fun r => { r with view := { r.view with own := r.view.own.join m } }

/-- A release that is the next writes at some bytes, line by line: what comes after it comes after the writes too (R163). -/
def Stamp.over (x : Stamp) (fresh : Nat) (ws : List (Nat × Byte)) : Stamp :=
  (linesOf ws).foldl (fun x l => x.through (homeDieOf (l * 128)) (fresh + (linesOf ws).length)) x

/-- The issuing rod writes bytes at their homes as a release at a scope (R164). -/
def M.publish (scope : Nat) (ws : List (Nat × Byte)) : M Unit := do
  let r ← M.rod
  M.upd fun s => s.rodWrites r ((r.view.release r.agent scope).over s.fresh ws :: r.view.rel) ws

/-- The issuing rod has taken dwords at their homes, with an acquire (R164). -/
def M.acquired (as : List Nat) : M Unit := do
  let r ← M.rod
  let s ← get
  M.view fun v => v.loaded r.agent true (as.flatMap fun a => returned (s.touching a 8) a 8)

/-- The issuing rod moves HEAD of a queue. -/
def M.moveHead (h x : Nat) : M Unit := do
  let r ← M.rod
  M.upd fun s => s.rodWrites r r.view.rel (placed (h + 8) (bytesOfNat 8 x))

/-- The physical addresses of `n` dwords of an object. -/
def M.objectDwords (b : Option Nat) (c : Cap) (byte n : Nat) : M (List Nat) :=
  (List.range n).mapM fun i => M.objectPhys b c (byte + 8 * i) 8 .home

/-- The capability and header offset that a queue operand names (R284). -/
def M.queueOperand (b : Option Nat) (a : BitVec 7) : M (Cap × Nat) := do
  let r ← M.rod
  let x := (r.sreg (sIndex a)).toNat
  M.need (decide (field x 4 19 = 0)) (.trap 9 4 b 0 0)
  pure (r.cap (field x 0 4), field x 16 48)

/-- The rights that a queue instruction needs (R284). -/
def queueRights : Rights := { rd := true, w := true, a := true }

/-- The header of the queue, checked and translated: its physical address and contents (R284). -/
def M.queueHeader (b : Option Nat) (c : Cap) (off : Nat) : M (Nat × Queue) := do
  M.checkCap b c queueRights off 128
  let h ← M.objectPhys b c off 128 .home
  let s ← get
  let q := s.queueAt h
  M.need (!q.bad false) (capFault b 3)
  pure (h, q)

/-- The record that a bead takes or puts next. -/
def Queue.next (q : Queue) (put : Bool) : Nat := if put then q.tail else q.head

/-- The physical addresses of the dwords of record `i`. -/
def M.queueRecord (b : Option Nat) (c : Cap) (off : Nat) (q : Queue) (i : Nat) : M (List Nat) :=
  M.objectDwords b c (off + q.recordAt i) q.rsz

/-- The records that the beads of one instruction reach are translated before any bead performs (R147), up to the first
whose own check fails: that fault is its bead's, after the beads before it have performed (R34). -/
def M.queueAhead (c : Cap) (off : Nat) (q : Queue) : List (Option Nat × Nat) → M Unit
  | [] => pure ()
  | (b, i) :: rest => do
    let go ← tryCatch (do
        M.checkCap b c queueRights (off + q.recordAt i) (8 * q.rsz)
        let _ ← M.queueRecord b c off q i
        pure true) fun e =>
      match e with
      | .trap _ _ _ _ _ | .port _ _ _ => pure false
      | e => throw e
    if go then M.queueAhead c off q rest else pure ()

/-- A queue instruction: `ok` is what a header must satisfy or which fault it is; `act` performs one bead at the header
address with the header's contents.  Each bead checks the header and the record that it would take or put (R284). -/
def executeQueue (i : Instr) (u : Bool) (a : BitVec 7) (put : Bool) (ok : Queue → Option Nat → M Unit)
    (act : Option Nat → Cap → Nat → Nat → Queue → M Unit) (s : State) : Host.Outcome State Fault Refusal :=
  execute i (do
    let r ← M.rod
    let first := (r.parts u).headD none
    let (c, off) ← M.queueOperand first a
    let (_, q) ← M.queueHeader first c off
    ok q first
    let room := if put then q.size - q.count else q.count
    M.ahead (M.queueAhead c off q ((r.parts u).zip ((List.range room).map fun j => q.next put + j)))
    (r.parts u).forM fun b => do
      let (h, q) ← M.queueHeader b c off
      ok q b
      M.checkCap b c queueRights (off + q.recordAt (q.next put)) (8 * q.rsz)
      act b c off h q) s

/-- An edge has records of one dword (R284). -/
def edgeOk (q : Queue) (b : Option Nat) : M Unit := M.need (decide (q.rsz = 1)) (capFault b 3)

/-- A register group of `n` dwords from a field keeps within v95 or s31 and the allocation (R284, R399); `extra` is 1
for the status register. -/
def M.groupFits (b : Option Nat) (d : BitVec 7) (n extra : Nat) : M Unit := do
  let r ← M.rod
  let regs := if isS d then n + extra else 2 * n + extra
  M.need (decide (d.toNat + regs ≤ (if isS d then 128 else 96)) && !r.beyond (d, regs)) (.trap 5 2 b 0 0)

/-- The values of a record's dwords at their homes. -/
def State.dwordsAt (s : State) (as : List Nat) : List Dword := as.map fun a => BitVec.ofNat 64 (s.natAt a 8)

/-- Dwords as bytes at their addresses. -/
def dwordBytes (as : List Nat) (xs : List Dword) : List (Nat × Byte) :=
  (as.zip xs).flatMap fun (a, x) => placed a (bytesOfNat 8 x.toNat)

/-- A record is put, and TAIL moves on, as a release (R164, R284). -/
def M.putRecord (as : List Nat) (xs : List Dword) (h tail : Nat) : M Unit := do
  M.publish 4 (dwordBytes as xs)
  M.publish 4 (placed h (bytesOfNat 8 tail))

/-- A bead waits for HEAD of a full queue (R284). -/
def M.queueFull (b : Option Nat) (h : Nat) (full : Bool) : M Unit := M.need (!full) (.sleep (beadNo b) (.queue h) false)

/-- EDGEGET (R284, R355). -/
def execEdgeget (f : ShUDA) (s : State) : Host.Outcome State Fault Refusal :=
  executeQueue (.edgeget f) f.u f.a false edgeOk (fun b c off h q => do
    if q.count = 0 then onRod (modify fun r => r.setDword b f.d (BitVec.ofNat 64 (2 ^ 63)))
    else do
      let as ← M.queueRecord b c off q q.head
      let s ← get
      onRod (modify fun r => r.setDword b f.d (BitVec.ofNat 64 (s.natAt (as.headD 0) 8 % 2 ^ 63)))
      M.acquired as
      M.moveHead h (q.head + 1)) s

/-- EDGEPUT (R284, R355). -/
def execEdgeput (f : ShUDA) (s : State) : Host.Outcome State Fault Refusal :=
  executeQueue (.edgeput f) f.u f.a true edgeOk (fun b c off h q => do
    M.queueFull b h (decide (q.count = q.size))
    let as ← M.queueRecord b c off q q.tail
    let r ← M.rod
    M.putRecord as [BitVec.ofNat 64 ((r.dword b f.d).toNat % 2 ^ 63)] h (q.tail + 1)) s

/-- The registers of a record: dword `i` in register pair or s register `i` of the group (R399). -/
def Rod.recordDwords (r : Rod) (b : Option Nat) (d : BitVec 7) (n : Nat) : List Dword :=
  (List.range n).map fun i => r.dword b (next d (if isS d then i else 2 * i))

/-- Write the dwords of a record and, after them, the status register (R399). -/
def Rod.setRecord (r : Rod) (b : Option Nat) (d : BitVec 7) (status : Nat) : List Dword → Rod
  | [] => r.setWord b d (BitVec.ofNat 32 status)
  | x :: xs => (r.setDword b d x).setRecord b (next d (if isS d then 1 else 2)) status xs

/-- QPOP (R284, R399). -/
def execQpop (f : ShUDA) (s : State) : Host.Outcome State Fault Refusal :=
  executeQueue (.qpop f) f.u f.a false (fun q b => M.groupFits b f.d q.rsz 1) (fun b c off h q => do
    if q.count = 0 then onRod (modify fun r => r.setRecord b f.d 0 (List.replicate q.rsz 0))
    else do
      let as ← M.queueRecord b c off q q.head
      let s ← get
      onRod (modify fun r => r.setRecord b f.d 1 (s.dwordsAt as))
      M.acquired as
      M.moveHead h (q.head + 1)) s

/-- QPUSH (R284, R399). -/
def execQpush (f : ShUDA) (s : State) : Host.Outcome State Fault Refusal :=
  executeQueue (.qpush f) f.u f.a true (fun q b => M.groupFits b f.d q.rsz 0) (fun b c off h q => do
    M.queueFull b h (decide (q.count = q.size))
    let as ← M.queueRecord b c off q q.tail
    let r ← M.rod
    M.putRecord as (r.recordDwords b f.d q.rsz) h (q.tail + 1)) s

/-! ### LAUNCH (R283, R382) -/

/-- The address of the header of launch queue `q` of the issuing rod's context: dword `q` at QBASE (R269). -/
def M.queueOfContext (q : Nat) : M Nat := do
  let r ← M.rod
  let s ← get
  let va := (s.ctxField r.asid 192 48 + 8 * q) % 2 ^ 48
  let a ← M.place none va 0
  let s ← get
  M.need (!s.damaged a 8) (.trap 10 1 none va 0)
  pure (s.natAt a 8)

/-- The physical addresses of the two lines of a 256-byte record at a device virtual address. -/
def M.recordLines (va kind : Nat) : M (List Nat) :=
  [va % 2 ^ 48, (va + 128) % 2 ^ 48].mapM fun x => M.place none x kind

/-- The bytes of lines, in order, as a number. -/
def State.linesNat (s : State) (as : List Nat) : Nat := natOfBytes (as.flatMap fun a => s.bytesAt a 128)

/-- A number over lines, as bytes at their addresses. -/
def lineBytes (as : List Nat) (x : Nat) : List (Nat × Byte) :=
  (as.zip (List.range as.length)).flatMap fun (a, i) => placed a (bytesOfNat 128 (x / 2 ^ (1024 * i)))

/-- The devices of an extent of `n` more than the first, in ascending order, but for the first (R273, R283). -/
def otherDevices (first n : Nat) : List Nat := sortBy id ((List.range n).map fun i => (first + i + 1) % 4096)

/-- LAUNCH posts a record on the queue at a header address, as a release at a scope (R164, R283): its status, and the
record's number. -/
def M.post (hva x scope : Nat) : M (Nat × Nat) := do
  if hva = 0 ∨ hva % 128 ≠ 0 ∨ 2 ^ 48 ≤ hva then pure (2, 0)
  else do
    let h ← M.place none hva 1
    let s ← get
    M.need (!s.damaged h 128) (.trap 10 1 none hva 0)
    let q := s.queueAt h
    if q.bad true then pure (2, 0)
    else if q.count = q.size then pure (1, 0)
    else do
      let out ← M.recordLines (hva + q.recordAt q.tail) 1
      M.publish scope (lineBytes out x)
      M.publish scope (placed h (bytesOfNat 8 (q.tail + 1)))
      pure (0, q.tail)

/-- LAUNCH (R283, R382). -/
def execLaunch (f : ShDAB) (s : State) : Host.Outcome State Fault Refusal :=
  executeChecked (.launch f) (do
    let r ← M.rod
    M.need (decide (field (r.sreg (sIndex f.a)).toNat 4 20 = 0 ∧ (r.sreg (sIndex f.b)).toNat < 16)) (.trap 9 4 none 0 0))
    (do
      let r ← M.rod
      let x := (r.sreg (sIndex f.a)).toNat
      let qn := (r.sreg (sIndex f.b)).toNat
      let c := r.cap (field x 0 4)
      let off := field x 16 48
      M.checkCap none c { rd := true } off 256
      let a0 ← M.objectPhys none c off 128 .load
      let a1 ← M.objectPhys none c (off + 128) 128 .load
      let s ← get
      let record := s.linesNat [a0, a1]
      let devM1 := field record 403 12
      let hva ← M.queueOfContext qn
      let (status, n) ← M.post hva record (if devM1 = 0 then 4 else 5)
      onRod (modify fun r => r.setDword none f.d (BitVec.ofNat 64 status))
      if status = 0 then do
        let name ← M.run State.take
        M.upd fun s => { s with
          launched := (r.asid, qn, n) :: s.launched
          deliveries := s.deliveries ++ (otherDevices s.endpoint devM1).map fun d => ⟨name, d, r.asid, qn, BitVec.ofNat 2048 record⟩ }
      else pure ()) s

/-- The deliveries that can arrive next: of each LAUNCH the one to the lowest device left (R283). -/
def State.nextDeliveries (s : State) : List Delivery :=
  s.deliveries.filter fun d => decide (s.deliveries.find? (fun e => decide (e.launch = d.launch)) = some d)

/-- A record that came over the fabric is published on its queue, as a release at house scope; R155 names no path for it, and in
the model it belongs to none, so that every later access sees it (DESIGN CHOICE, assumption 79): none where its pages do not
translate now, or the queue has no room for it (R283). -/
def State.receiveLaunch (s : State) (asid queue : Nat) (record : BitVec 2048) : Option State × State :=
  match s.engineVa asid (s.ctxField asid 192 48 + 8 * queue) false with
  | (.error _, s') => (none, s')
  | (.ok a, s') =>
    let hva := s'.natAt a 8
    match s'.engineVa asid hva true with
    | (.error _, s2) => (none, s2)
    | (.ok h, s2) =>
      let q := s2.queueAt h
      if hva = 0 ∨ hva % 128 ≠ 0 ∨ 2 ^ 48 ≤ hva ∨ q.bad true ∨ q.count = q.size then (none, s2)
      else
        match s2.engineVa asid (hva + q.recordAt q.tail) true with
        | (.error _, s3) => (none, s3)
        | (.ok a0, s3) =>
          match s3.engineVa asid (hva + q.recordAt q.tail + 128) true with
          | (.error _, s4) => (none, s4)
          | (.ok a1, s4) => (some ((s4.homeWrite (lineBytes [a0, a1] record.toNat)).setTail h (q.tail + 1)), s4)

/-- LAUNCH_FABRIC_DELIVERY (R283): a record for this device is published on its queue, or waits there for room; a record
for another device has arrived there. -/
def execLaunchFabricDelivery (dev asid queue : Nat) (record : BitVec 2048) (s : State) :
    Host.Outcome State Fault Refusal :=
  if s.boot ≠ .running then .next s
  else if dev ≠ s.endpoint then
    let arrived (d : Delivery) : Bool :=
      decide (d.dev = dev ∧ d.asid = asid ∧ d.queue = queue ∧ d.record = record) && s.nextDeliveries.contains d
    .next { s with deliveries := s.deliveries.eraseP arrived }
  else
    match s.receiveLaunch asid queue record with
    | (some s', _) => .next s'
    | (none, s') => .next { s' with inputs := s'.inputs ++ [.act (.launchFabricDelivery dev asid queue record)] }

/-! ### UPCALL and its reply (R292, R309, R429) -/

/-- A ring of messages of two records (R309). -/
def Queue.messageRing (q : Queue) : Bool := !q.bad false && decide (q.rsz = 32 ∧ q.size % 2 = 0)

/-- The mailbox header of a context; none when it has none (R306, R309). -/
def State.mailbox (s : State) (asid : Nat) : Option Nat :=
  match s.sysEntry 0x38 with
  | none => none
  | some t =>
    let h := s.natAt (t + 8 * asid) 8
    if h = 0 ∨ h % 128 ≠ 0 ∨ field h 40 24 ≠ 0 ∨ !(s.queueAt h).messageRing then none else some h

/-- The argument groups of an UPCALL (R292). -/
def Rod.upcallArgs (r : Rod) (u : Bool) (a : BitVec 7) : List Nat :=
  if u then [(r.quad none a).toNat] else r.beadsActive.map fun k => (r.quad (some k) a).toNat

/-- The message of an UPCALL, 512 bytes (R309). -/
def Rod.message (r : Rod) (f : ShUpcall) : Nat :=
  packFields ([(116, 0), (8, 0), (10, r.asid), (10, r.slotIndex), (8, r.core), (1, f.u.toNat), (7, f.i.toNat),
    (16, r.active.toNat), (32, r.frameid.toNat), (48, r.pc.toNat)] ++ (r.upcallArgs f.u f.a).map fun x => (128, x))

/-- UPCALL: a message is posted and the rod parks with class 4 (R292, R309). -/
def execUpcall (f : ShUpcall) (s : State) : Host.Outcome State Fault Refusal :=
  executeControl (.upcall f) (do
    let r ← M.rod
    let s ← get
    match s.mailbox r.asid with
    | none =>
      M.upd fun s => s.enterHandler r.uid 4 0 0 (r.faultBead none) f.i.toNat 0 r.pc
      throw .settled
    | some h =>
      let q := s.queueAt h
      M.queueFull none h (decide (q.size < q.count + 2))
      let x := r.message f
      M.publish 4 (placed (h + q.recordAt q.tail) (bytesOfNat 256 x))
      M.publish 4 (placed (h + q.recordAt (q.tail + 1)) (bytesOfNat 256 (x / 2 ^ 2048)))
      M.publish 4 (placed h (bytesOfNat 8 (q.tail + 2)))
      onRod (modify fun r => { r with
        resume := 0
        status := .parked ⟨4, 0, none, BitVec.ofNat 64 f.i.toNat, none, some ⟨r.core, r.slotIndex, f.d, f.u⟩⟩ })
      throw .settled) s

/-- The reserved bits of a reply for a call are zero: [115:0] of its header, and all that follows its reply bytes (R4,
R309). -/
def Rod.replyClean (r : Rod) (u : Bool) (x : Nat) : Bool :=
  let used := 256 + 128 * (if u then 1 else r.beadsActive.length)
  decide (field x 0 116 = 0 ∧ x / 2 ^ used % 2 ^ (4096 - used) = 0)

/-- The rod is parked on the UPCALL that a reply's header names (R309). -/
def Rod.awaitsReply (r : Rod) (x : Nat) : Bool :=
  match r.status with
  | .parked ⟨4, _, _, info, _, some call⟩ =>
    r.replyClean call.u x && decide (r.asid = field x 124 10 ∧ call.slot = field x 134 10 ∧ call.core = field x 144 8 ∧
      call.u.toNat = field x 152 1 ∧ info.toNat = field x 153 7 ∧ r.active.toNat = field x 160 16 ∧
      r.frameid.toNat = field x 176 32 ∧ r.pc.toNat = field x 208 48)
  | _ => false

/-- The reply bytes go to the beads of the call, 16 each (R292). -/
def Rod.takeReply (r : Rod) (u : Bool) (d : BitVec 7) (x : Nat) : Rod :=
  if u then r.setQuad none d (BitVec.ofNat 128 (field x 256 128))
  else (r.beadsActive.zip (List.range 16)).foldl (fun r (k, j) =>
    r.setQuad (some k) d (BitVec.ofNat 128 (field x (256 + 128 * j) 128))) r

/-- A reply message is carried out for a rod that awaits it: the reply bytes and resumption, with an acquire of the
releases `stamps` (R164), the handler, or the end of the rod, whose fault frame in handler mode is no longer valid (R290,
R292). -/
def State.replyTo (s : State) (r : Rod) (x : Nat) (stamps : List Stamp) : State :=
  match r.status with
  | .parked ⟨_, _, _, info, _, some call⟩ =>
    match field x 116 8 with
    | 0 => s.setRod ({ r.takeReply call.u call.d x with
        status := .ready, view := r.view.acquire r.agent 6 stamps }.advance.openRegion)
    | 2 => (match r.handler with
        | some f => s.writeFaultFrame r f false
        | none => s).kill r.uid
    | _ => s.enterHandler r.uid 4 0 0 (r.faultBead none) info.toNat 0 r.pc
  | _ => s

/-- A saved rod awaits a reply (R429). -/
def State.savedAwaits (s : State) (x : Nat) : Bool := s.saved.any fun b => b.rods.any fun r => r.rod.awaitsReply x

/-- A reply message is carried out (R309): for a rod that awaits it, at its restore where the rod is saved (R429); one that
no rod awaits is logged.  A halt drops it (R294). -/
def State.takeReply (s : State) (x : Nat) (stamps : List Stamp) : State :=
  match s.rods.find? fun r => r.awaitsReply x with
  | none =>
    if s.savedAwaits x then { s with heldReplies := s.heldReplies ++ [(BitVec.ofNat 4096 x, stamps)] }
    else s.logEvent Event.upcBadReply (dieOfCore (field x 144 8)) (field x 124 10) (x % 2 ^ 128)
  | some r => if s.halted r.asid then s else s.replyTo r x stamps

/-- The replies that came for rods while they were saved reach them (R429). -/
def State.deliverReplies (s : State) : State :=
  s.heldReplies.foldl (fun s p =>
    if s.savedAwaits p.1.toNat then s
    else
      let s1 := { s with heldReplies := s.heldReplies.erase p }
      match s1.rods.find? fun r => r.awaitsReply p.1.toNat with
      | none => s1
      | some r => if s1.halted r.asid then s1 else s1.replyTo r p.1.toNat p.2) s

end Sys2Proof.Machine
end

