-- ==== Sys2Proof/Machine/Bind.lean ====
section
/-!
DEFINITION. Launch records, the free resources of a core, and the binding of frames
(R35, R36, R44, R54, R57, R125, R269, R271 to R277, R280).
-/

namespace Sys2Proof.Machine

/-! ### Launch records (R271, R272) -/

/-- A launch record. -/
structure LaunchRec where
  kpc : Nat
  framesM1 : Nat
  rodsM1 : Nat
  beadsM1 : Nat
  allocM1 : Nat
  devM1 : Nat
  nh : Nat
  na : Nat
  pri : Nat
  wn : Nat
  mode : Nat
  fmt : Nat
  /-- segment lengths of S, W, A and C -/
  cells : List Nat
  doneh : Nat
  doneoff : Nat
  dw : Bool
  gang : Bool
  reserved : Nat
  hidx : List Nat
  args : List Dword
  deriving DecidableEq, Repr

/-- The fields of a launch record. -/
def LaunchRec.ofNat (x : Nat) : LaunchRec :=
  ⟨field x 464 48, field x 432 32, field x 422 10, field x 418 4, field x 415 3, field x 403 12, field x 398 5,
    field x 393 5, field x 390 3, field x 384 6, field x 368 16, field x 352 16,
    [field x 332 20, field x 312 20, field x 292 20, field x 272 20], field x 256 16, field x 208 48,
    decide (field x 207 1 = 1), decide (field x 206 1 = 1), field x 0 206 + field x 1792 256,
    (List.range 16).map fun i => field x (512 + 16 * i) 16, (List.range 16).map fun i => BitVec.ofNat 64 (field x (768 + 64 * i) 64)⟩

/-- Registers per bead (R44, R271). -/
def LaunchRec.alloc (l : LaunchRec) : Nat := 32 * (l.allocM1 + 1)

/-- Words of a lane's register file that one rod takes (R44). -/
def LaunchRec.words (l : LaunchRec) : Nat := (l.beadsM1 + 1) * l.alloc

/-- Frames in a group: 4 with GANG, else 1 (R279). -/
def LaunchRec.step (l : LaunchRec) : Nat := if l.gang then 4 else 1

/-- The completion word's object as R272 requires it: handle-table entry with V and W that reaches the word. -/
def State.doneCap (s : State) (asid doneh doneoff : Nat) : Option Cap × State :=
  match s.handle asid doneh with
  | (.ok (some c), s') => (if c.v && c.w && decide (doneoff + 8 ≤ c.hi.toNat) then some c else none, s')
  | (_, s') => (none, s')

/-- A value is written to a completion word, if its object still covers it, with a release at sys scope (R272).  False where
the word cannot be reached yet: its page is not resident, or something bars it (R311, R313).  A malformed translation, or
uncorrectable data on the way, is fatal to the context (R138, R286, assumption 80). -/
def State.writeDone (s : State) (asid doneh doneoff x : Nat) : Bool × State :=
  match s.doneCap asid doneh doneoff with
  | (none, s') => (true, s')
  | (some c, s') =>
    match s'.unitReach asid c doneoff 8 true with
    | (.error (.port _ _), s2) => (true, s2)
    | (.error (.malformed va), s2) => (true, s2.raiseHalt asid (haltOfEngine s2 0 10 2 va 0))
    | (.error (.data va), s2) => (true, s2.raiseHalt asid (haltOfEngine s2 0 10 1 va 0))
    | (.error _, s2) => (false, s2)
    | (.ok a, s2) => (true, s2.signal a 8 x)

/-- MODE[15:0] and FMT of a record hold a reserved bit or a value that R50 and R52 refuse.  R4 has no reserved value of a
record ignored; that it reaches the values that R50 and R52 refuse to writes, which R272 and R274 do not list, is the model's
reading (DEDUCED, assumption 8). -/
def controlBad (mode fmt : Nat) : Bool :=
  modeBad mode || fmtBad fmt || decide (field mode 15 1 ≠ 0 ∨ field fmt 11 5 ≠ 0)

/-- A record is refused (R272), apart from its completion word. -/
def LaunchRec.refused (l : LaunchRec) (pmax : Nat) : Bool :=
  decide (l.reserved ≠ 0 ∨ pmax < l.pri ∨ 16 < l.nh ∨ 16 < l.na ∨ 32 < l.wn) || controlBad l.mode l.fmt ||
    (l.cells.zip (List.range 4)).any (fun (n, b) => decide (bufferCells b < n)) ||
    decide (Config.laneWords < (l.rodsM1 + 128) / 128 * l.words) ||
    (l.gang && decide ((l.framesM1 + 1) % 4 ≠ 0))

/-! ### Free resources of a core (R275, R280) -/

/-- The lowest start at which `n` places of `cap` lie free of the taken ranges. -/
def firstFit (taken : List (Nat × Nat)) (n cap : Nat) : Option Nat :=
  (sortBy id ((0 :: taken.map fun t => t.1 + t.2).filter fun c =>
    decide (c + n ≤ cap) && taken.all fun t => !overlap c n t.1 t.2)).head?

/-- The rods bound on a lane. -/
def State.laneRods (s : State) (core lane : Nat) : List Rod := s.rods.filter fun r => decide (r.core = core ∧ r.lane = lane)

/-- Slots in use on a lane. -/
def State.laneSlots (s : State) (core lane : Nat) : List Nat := (s.laneRods core lane).map Rod.slot

/-- Register words in use on a lane (R44). -/
def State.laneUsed (s : State) (core lane : Nat) : Nat := ((s.laneRods core lane).map fun r => r.nbeads * r.alloc).sum

/-- `k` more rods of a word count fit on a lane. -/
def State.laneFits (s : State) (core lane k words : Nat) : Bool :=
  decide ((s.laneSlots core lane).length + k ≤ Config.slots ∧ s.laneUsed core lane + k * words ≤ Config.laneWords)

/-- The lowest free slot of a lane. -/
def State.freeSlot (s : State) (core lane : Nat) : Nat :=
  ((upto Config.slots fun n => !(s.laneSlots core lane).contains n).head?).getD 0

/-- Rods of a frame that come to a lane from lane `l0` on (R275). -/
def rodsOnLane (rods l0 lane : Nat) : Nat := (rods + 127 - (lane + 128 - l0) % 128) / 128

/-- Every rod of a frame fits from lane `l0` on. -/
def State.rodsFit (s : State) (core l0 rods words : Nat) : Bool :=
  (List.range Config.lanes).all fun lane =>
    let k := rodsOnLane rods l0 lane
    decide (k = 0) || s.laneFits core lane k words

/-- Free rod slots of a core. -/
def State.slotsLeft (s : State) (core : Nat) : Nat := 1024 - (s.rods.filter fun r => decide (r.core = core)).length

/-- The frames on a core. -/
def State.coreFrames (s : State) (core : Nat) : List Frame := s.frames.filter fun f => decide (f.core = core)

/-- The lowest free entry of a core's frame table (R275). -/
def State.freeFrame (s : State) (core : Nat) : Nat :=
  ((upto Config.frameTable fun n => !((s.coreFrames core).map Frame.ft).contains n).head?).getD 0

/-- The cells of a buffer that segments of bound frames take: first cells and lengths. -/
def State.segsTaken (s : State) (core buf : Nat) : List (Nat × Nat) :=
  (s.coreFrames core).map fun f => ((f.seg buf).base.toNat, (f.seg buf).limit.toNat)

/-- The window entries in use on a core. -/
def State.windowsTaken (s : State) (core : Nat) : List (Nat × Nat) := (s.coreFrames core).map fun f => (f.w0, f.windows.length)

/-- The context may have frames on the core: at most four contexts share one (R282). -/
def State.contextFits (s : State) (core asid : Nat) : Bool :=
  let others := distinct (((s.coreFrames core).map Frame.asid).filter fun a => decide (a ≠ asid))
  decide (others.length < Config.contextsPerCore)

/-- Where a frame is placed on a core: first lane, segment bases of S, W, A and C, and first window entry. -/
structure Placement where
  l0 : Nat
  bases : List Nat
  w0 : Nat
  deriving DecidableEq, Repr

/-- The lane that R280 takes for L0: the most free register words, the lower lane on a tie. -/
def State.chooseLane (s : State) (core rods words : Nat) : Option Nat :=
  (upto Config.lanes fun l => s.rodsFit core l rods words).foldl (fun (best : Option Nat) l =>
    match best with
    | none => some l
    | some b => if s.laneUsed core l < s.laneUsed core b then some l else some b) none

/-- The lowest free cells for each segment; none when one does not fit. -/
def State.chooseSegs (s : State) (core : Nat) : List Nat → Nat → Option (List Nat)
  | [], _ => some []
  | n :: ns, buf =>
    match firstFit (s.segsTaken core buf) n (bufferCells buf), s.chooseSegs core ns (buf + 1) with
    | some b, some bs => some (b :: bs)
    | _, _ => none

/-- A place for a frame on a core by steps 3 to 5 of R280; none when the core cannot bind it. -/
def State.placeOn (s : State) (core asid rods words : Nat) (cells : List Nat) (wn : Nat) : Option Placement :=
  if !s.contextFits core asid ∨ s.savingOn core asid ∨ Config.frameTable ≤ (s.coreFrames core).length then none
  else
    match s.chooseLane core rods words, s.chooseSegs core cells 0, firstFit (s.windowsTaken core) wn Config.windows with
    | some l0, some bases, some w0 => some ⟨l0, bases, w0⟩
    | _, _, _ => none

/-- The cores of a board. -/
def boardCores (b : Nat) : List Nat := [4 * b, 4 * b + 1, 4 * b + 2, 4 * b + 3]

/-! ### New rods (R36, R57) -/

/-- A bead whose registers are zero and that has arrived nowhere. -/
def Bead.fresh (alloc : Nat) : Bead := ⟨List.replicate alloc 0, 0, List.replicate 16 ⟨.idle, false⟩⟩

/-- The sixteen capability registers that a list of capabilities fills. -/
def capRegs (cs : List Cap) : List Cap := takeFill Cap.empty 16 cs

/-- A rod of a frame on a lane, in the state of R36 and R57 but for its v registers, which are zero: `mask` are its
beads and `pc` its first instruction. -/
def Frame.newRod (f : Frame) (uid lane slot rodid beads : Nat) (mode fmt : BitVec 16) (pc : Addr) : Rod :=
  let r : Rod :=
    { uid := uid, asid := f.asid, frame := f.uid, core := f.core, lane := lane, slot := slot
      rodid := BitVec.ofNat 10 rodid, frameid := f.frameid, boardid := f.boardid, tableid := f.tableid
      devid := f.devid, nbeads := beads, alloc := f.alloc
      beads := List.replicate beads (Bead.fresh f.alloc)
      s := takeFill 0 32 f.args, c := capRegs f.caps, pc := pc, resume := 0
      active := BitVec.ofNat 16 (2 ^ beads - 1), alive := BitVec.ofNat 16 (2 ^ beads - 1)
      mode := mode.setWidth 32, fmt := fmt, base := 0, rodcyc := 0
      timerEn := false, timerCount := 0, timerDue := false, stack := [], live := none, atLive := false
      restart := pc, restartCtl := ⟨0, [], 0, 0, 0⟩, tent := [], tags := [], scoreboard := [], peeked := []
      status := .ready, handler := none, continued := false, view := View.none }
  r.openRegion

/-- v0 of every bead holds RODID × 16 + BEADID (R57). -/
def Rod.withNames (r : Rod) : Rod :=
  (List.range r.nbeads).foldl (fun r k => r.modBead k fun b => { b with v := setNth b.v 0 (BitVec.ofNat 32 (r.rodid.toNat * 16 + k)) }) r

/-- A rod is bound on a lane's lowest free slot. -/
def State.bindRod (s : State) (f : Frame) (lane rodid beads : Nat) (mode fmt : BitVec 16) (pc : Addr) (g : Rod → Rod) : State :=
  let (u, s1) := s.take
  { s1 with rods := s1.rods ++ [g (f.newRod u lane (s.freeSlot f.core lane) rodid beads mode fmt pc)] }

/-- The first instruction of a child frame's rod is an acquire of its parent's release, which the record's extent puts at
dev or house scope (R164). -/
def Rod.launchedBy (scope : Nat) (stamps : List Stamp) (r : Rod) : Rod :=
  { r with view := r.view.acquire r.agent scope stamps }

/-- Rods `i` on of a frame are bound on successive lanes (R275), each changed by `g`. -/
def State.bindRods (s : State) (f : Frame) (g : Rod → Rod) (i : Nat) : Nat → State
  | 0 => s
  | n + 1 =>
    (s.bindRod f ((f.l0 + i) % Config.lanes) i (f.beadsM1 + 1) f.mode f.fmt f.kpc fun r => g r.withNames).bindRods f g (i + 1) n

/-! ### Bind records (R274) -/

/-- A segment value, laid out as R56. -/
def Seg.ofNat (x : Nat) : Seg := ⟨BitVec.ofNat 20 (field x 20 20), BitVec.ofNat 20 (field x 0 20)⟩

/-- A bind record. -/
structure BindRec where
  kpc : Nat
  frameid : Nat
  asid : Nat
  rodsM1 : Nat
  beadsM1 : Nat
  allocM1 : Nat
  l0 : Nat
  wn : Nat
  w0 : Nat
  mode : Nat
  fmt : Nat
  lrec : Nat
  segs : List Seg
  devid : Nat
  reserved : Nat
  deriving DecidableEq, Repr

/-- The fields of a bind record. -/
def BindRec.ofNat (x : Nat) : BindRec :=
  ⟨field x 464 48, field x 432 32, field x 422 10, field x 412 10, field x 408 4, field x 405 3, field x 398 7,
    field x 392 6, field x 387 5, field x 368 16, field x 352 16, field x 304 48,
    [Seg.ofNat (field x 264 40), Seg.ofNat (field x 224 40), Seg.ofNat (field x 184 40), Seg.ofNat (field x 144 40)],
    field x 125 19, field x 384 3 + field x 0 125⟩

/-- The 512 bits of a bind record. -/
def BindRec.toNat (b : BindRec) : Nat :=
  let seg (i : Nat) : Nat := (nth ⟨0, 0⟩ b.segs i).limit.toNat * 2 ^ 20 + (nth ⟨0, 0⟩ b.segs i).base.toNat
  packFields [(125, 0), (19, b.devid), (40, seg 3), (40, seg 2), (40, seg 1), (40, seg 0), (48, b.lrec), (16, b.fmt),
    (16, b.mode), (3, 0), (5, b.w0), (6, b.wn), (7, b.l0), (3, b.allocM1), (4, b.beadsM1), (10, b.rodsM1),
    (10, b.asid), (32, b.frameid), (48, b.kpc)]

/-- A bind record is malformed (R274). -/
def BindRec.bad (b : BindRec) : Bool :=
  decide (b.reserved ≠ 0 ∨ Config.windows < b.w0 + b.wn) || controlBad b.mode b.fmt ||
    (b.segs.zip (List.range 4)).any fun (g, buf) => decide (bufferCells buf < g.base.toNat + g.limit.toNat)

/-- The core has room for the frame where the record places it (R275). -/
def State.bindFits (s : State) (core : Nat) (b : BindRec) : Bool :=
  s.rodsFit core b.l0 (b.rodsM1 + 1) ((b.beadsM1 + 1) * 32 * (b.allocM1 + 1)) &&
    decide ((s.coreFrames core).length < Config.frameTable) &&
    (s.windowsTaken core).all (fun t => !overlap b.w0 b.wn t.1 t.2) &&
    (b.segs.zip (List.range 4)).all fun (g, buf) =>
      (s.segsTaken core buf).all fun t => !overlap g.base.toNat g.limit.toNat t.1 t.2

/-- Handles as binding loads them: an entry on which CAPLD would fault gives V = 0 (R275). -/
def State.loadHandles (s : State) (asid : Nat) : List Nat → List Cap × State
  | [] => ([], s)
  | i :: is =>
    match s.handle asid i with
    | (.ok (some c), s') =>
      let (cs, s2) := s'.loadHandles asid is
      (c :: cs, s2)
    | (_, s') =>
      let (cs, s2) := s'.loadHandles asid is
      (Cap.empty :: cs, s2)

/-- The 256 bytes of a launch record at a device virtual address, as the dispatch and slot hardware read it; none
where its pages are not resident. -/
def State.recordVa (s : State) (asid va : Nat) : Option Nat × State :=
  match s.engineVa asid va false with
  | (.error _, s') => (none, s')
  | (.ok a0, s') =>
    match s'.engineVa asid (va + 128) false with
    | (.error _, s2) => (none, s2)
    | (.ok a1, s2) => (some (s2.linesNat [a0, a1]), s2)

/-- Every cell of a frame's segments is absent and zero (R125). -/
def State.clearSegments (s : State) (f : Frame) : State :=
  [0, 1, 2, 3].foldl (fun (s : State) buf => s.clearCells f.core buf (f.seg buf).base.toNat (f.seg buf).limit.toNat) s

/-- The object of the first of some handle-table entries with V and X whose object holds a code address, as the slot
hardware finds it: as `M.codeObjectIn` (assumption 56). -/
def State.codeObjectIn (s : State) (asid va : Nat) : List Nat → Option (Nat × Nat) × State
  | [] => (none, s)
  | i :: is =>
    match s.handle asid i with
    | (.ok (some c), s1) =>
      if c.v && c.x then
        match s1.unitObject asid c.handle.toNat with
        | (.ok (len, base), s2) =>
          if base ≤ va ∧ va < base + len then (some (base, len), s2) else s2.codeObjectIn asid va is
        | (.error _, s2) => s2.codeObjectIn asid va is
      else s1.codeObjectIn asid va is
    | (_, s1) => s1.codeObjectIn asid va is

/-- The core drops the lines of the frame's code object when a frame is bound there (R77), and every line of the context
where the object cannot be told. -/
def State.dropCode (s : State) (f : Frame) : State :=
  let (o, s1) := s.codeObjectIn f.asid f.kpc.toNat (List.range (s.ctxField f.asid 112 16 + 1))
  let drops (l : ICacheLine) : Bool := decide (l.core = f.core ∧ l.asid = f.asid) &&
    match o with
    | none => true
    | some (base, len) => decide (128 * l.line < base + len ∧ base < 128 * l.line + 128)
  { s1 with icache := s1.icache.filter fun l => !drops l }

/-- A frame with its rods joins its core; `g` changes each rod. -/
def State.addFrame (s : State) (f : Frame) (g : Rod → Rod) : State :=
  (({ s with frames := s.frames ++ [f] }.clearSegments f).dropCode f).bindRods f g 0 (f.rodsM1 + 1)

/-- A frame of this device: D + f mod n is this device, D being the device whose queue received the record (R273). -/
def State.ownFrame (s : State) (first devM1 f : Nat) : Bool := decide ((first + f % (devM1 + 1)) % 4096 = s.endpoint)

/-- The frames of a launch that this device binds. -/
def State.ownFrames (s : State) (first : Nat) (l : LaunchRec) : Nat :=
  ((List.range (l.devM1 + 1)).map fun d =>
    if s.ownFrame first l.devM1 d then (l.framesM1 + l.devM1 + 1 - d) / (l.devM1 + 1) else 0).sum

/-- The launch that a frame bound from a record belongs to: one with frames still to bind, or a new one. -/
def State.joinLaunch (s : State) (asid lrec frames : Nat) (l : LaunchRec) : Nat × State :=
  match s.launches.find? (fun x => decide (x.asid = asid ∧ x.lrec = lrec ∧ x.unbound ≠ 0)) with
  | some x =>
    (x.uid, { s with launches := s.launches.map fun y => if y.uid = x.uid then { y with unbound := y.unbound - 1 } else y })
  | none =>
    let (u, s1) := s.take
    (u, { s1 with launches := s1.launches ++ [⟨u, asid, lrec, frames - 1, frames, l.dw, l.doneh, l.doneoff⟩] })

/-- The frame of a bind record on a core, in an entry of its frame table, with its launch state (R275, R276).  Bits [1:0] of
KPC are dropped (assumption 53). -/
def BindRec.frame (b : BindRec) (core ft uid launch : Nat) (caps : List Cap) (args : List Dword) (gang : Bool) : Frame :=
  { uid := uid, asid := b.asid, frameid := BitVec.ofNat 32 b.frameid, core := core, launch := launch
    kpc := codeAddr b.kpc, rodsM1 := b.rodsM1, beadsM1 := b.beadsM1, alloc := 32 * (b.allocM1 + 1)
    l0 := b.l0, w0 := b.w0, mode := modeControl b.mode, fmt := fmtOf b.fmt
    devid := BitVec.ofNat 19 b.devid, boardid := BitVec.ofNat 6 (boardOf core), tableid := BitVec.ofNat 4 (tableOf core)
    caps := capRegs caps, args := args
    segS := nth ⟨0, 0⟩ b.segs 0, segW := nth ⟨0, 0⟩ b.segs 1, segA := nth ⟨0, 0⟩ b.segs 2, segC := nth ⟨0, 0⟩ b.segs 3
    windows := List.replicate b.wn Window.empty, phases := 0, gang := gang, ft := ft, barriers := [] }

/-- A bind record is written to a core's bind port: the status read back (R274 to R276). `frames` is how many frames
of the launch this device binds, and `stamps` are the releases of whoever published the launch (R164). -/
def State.bind (s : State) (core frames : Nat) (stamps : List Stamp) (b : BindRec) : Nat × State :=
  if b.bad then (2, s)
  else if !s.contextFits core b.asid then (3, s)
  else if !s.bindFits core b then (1, s)
  else
    match s.recordVa b.asid b.lrec with
    | (none, s') => (2, s')
    | (some x, s') =>
      let l := LaunchRec.ofNat x
      let (caps, s2) := s'.loadHandles b.asid (l.hidx.take l.nh)
      let (launch, s3) := s2.joinLaunch b.asid b.lrec frames l
      let (u, s4) := s3.take
      (0, s4.addFrame (b.frame core (s4.freeFrame core) u launch caps (l.args.take l.na) l.gang)
        (Rod.launchedBy (if l.devM1 = 0 then 4 else 5) stamps))

end Sys2Proof.Machine
end

