-- ==== Sys2Proof/Machine/Continue.lean ====
section
/-!
DEFINITION. Continuation records: how a bead that ends writes one, the pool that holds them, and the rods formed from
them (R39, R252 to R256, R423).
-/

namespace Sys2Proof.Machine

/-! ### The continuation area (R253, R254) -/

/-- Whole cells are written on path 101 by a unit of a core at a device virtual address of a context, where their pages are resident (R253,
assumption 7). -/
def State.writeVaCells (s : State) (core asid va : Nat) : List Nat → State
  | [] => s
  | x :: xs => (s.writeVaAs 5 (.engine core) (fun _ _ => []) asid va 16 x).writeVaCells core asid (va + 16) xs

/-- The address of a cell of a core's part of the continuation area. -/
def State.contAddr (s : State) (asid core cell : Nat) : Nat :=
  s.ctxField asid 256 48 + 16 * (s.ctxField asid 468 20 * core + cell)

/-- The lowest free run of `n` cells in a core's part of the area; none when it is full (R254). -/
def State.contRun (s : State) (asid core n : Nat) : Option Nat :=
  firstFit ((s.conts.filter fun c => decide (c.asid = asid ∧ c.core = core)).map fun c => (c.cell, c.len)) n
    (s.ctxField asid 468 20)

/-- KIND of a record, and the cells of its result area (R253). -/
def UnitReq.kind : UnitReq → Nat × Nat
  | .tex _ _ _ _ _ _ _ => (0, 1)
  | .trace _ _ _ _ => (1, 2)
  | .march _ _ _ => (2, 2)

/-- The header cell of a record (R253). -/
def ContRec.header (c : ContRec) : Nat :=
  packFields [(48, c.cpc.toNat), (16, c.mode.toNat), (2, c.req.kind.1), (7, c.pred.toNat / 2), (8, c.len), (8, c.dreg),
    (7, 0), (32, c.origin)]

/-- Words packed four to a cell. -/
def wordCells : List Word → List Nat
  | [] => []
  | [a] => [a.toNat]
  | [a, b] => [packFields [(32, a.toNat), (32, b.toNat)]]
  | [a, b, c] => [packFields [(32, a.toNat), (32, b.toNat), (32, c.toNat)]]
  | a :: b :: c :: d :: rest =>
    packFields [(32, a.toNat), (32, b.toNat), (32, c.toNat), (32, d.toNat)] :: wordCells rest

/-- The physical indices that VMAP of a liveness descriptor names, ascending (R83). -/
def liveRegs (d : Nat) : List Nat := upto 256 fun i => decide (field d i 1 = 1)

/-- Bead `k` of the issuing rod ends: its continuation record is allocated and written, and it leaves the rod
(R29, R253, R254). `regs` are the live registers. -/
def M.endBead (k : Nat) (dreg : BitVec 7) (regs : List Nat) (req : UnitReq) : M Unit := do
  let r ← M.rod
  let s ← get
  let len := 1 + req.kind.2 + (regs.length + 3) / 4
  match s.contRun r.asid r.core len with
  | none => throw (.trap 5 4 (some k) 0 0)
  | some cell =>
    let (u, s1) := s.take
    let b := r.bead k
    let saved := regs.map fun i => (i, nth 0 b.v i)
    let c : ContRec :=
      { uid := u, asid := r.asid, frame := r.frame, core := r.core, cell := cell, len := len
        origin := r.rodid.toNat * 16 + k, dreg := r.phys dreg, pred := b.p
        mode := r.mode.setWidth 16, fmt := r.fmt, cpc := r.pc + 4, live := r.live.getD 0
        regs := saved, req := req, result := none, fault := none, point := none, trace := none
        rel := r.view.release r.agent 4 }
    let va := s1.contAddr r.asid r.core cell
    let s2 := s1.writeVaCells r.core r.asid va [c.header]
    let s3 := s2.writeVaCells r.core r.asid (va + 16 * (1 + req.kind.2)) (wordCells (saved.map Prod.snd))
    let gone := ~~~ BitVec.ofNat 16 (2 ^ k)
    set (({ s3 with conts := s3.conts ++ [c] }.modRod r.uid fun r => { r with alive := r.alive &&& gone }).settleBarriers r.frame)

/-- The live registers of the rod's most recent LIVE, as its descriptor in memory names them (R253). -/
def M.liveRegs : M (List Nat) := do
  let r ← M.rod
  match r.live with
  | none => throw (.trap 9 4 (r.firstBead false) 0 0)
  | some x => do
    let d ← M.ahead (M.readCode (r.firstBead false) x.toNat 4)
    pure (Machine.liveRegs d)

/-- The descriptor cells of S that the first bead peeks (R248, R264). -/
def M.descriptor (cell n : Nat) : M (List (BitVec 128)) := do
  let r ← M.rod
  let f ← M.frame
  M.need (f.fits 0 cell n) (segmentFault (r.firstBead false))
  M.upd fun s => s.touchCells r.view.seen f.uid 0 cell n
  M.peekCells (r.firstBead false) 0 (f.segS.base.toNat + cell) n

/-- TEX, TRACE and VMARCH (R423): the checks of the first bead give what each bead hands to the unit, and every
issuing bead ends with its record. -/
def executeEnding (i : Instr) (d : BitVec 7) (check : M (Rod → Nat → M UnitReq)) (s : State) :
    Host.Outcome State Fault Refusal :=
  executeControl i (do
    let r ← M.rod
    let req ← check
    let regs ← M.liveRegs
    r.issuing.forM fun k => do
      let q ← req r k
      M.endBead k d regs q
    M.endGroup) s

/-- A reserved field of an operand or descriptor (R248, R257). -/
def M.reservedIn (bad : Bool) : M Unit := do
  let r ← M.rod
  M.need (!bad) (.trap 9 4 (r.firstBead false) 0 0)

/-- A LIVE was executed since the rod was bound (R253, R423): checked before any cell is waited for. -/
def M.liveNamed : M Unit := do
  let r ← M.rod
  M.need r.live.isSome (.trap 9 4 (r.firstBead false) 0 0)

/-! ### Rods formed from records (R39, R255) -/

/-- Two records may resume in one rod (R39, R255). -/
def ContRec.like (c d : ContRec) : Bool :=
  decide (c.frame = d.frame ∧ c.cpc = d.cpc ∧ c.fmt = d.fmt ∧ c.mode = d.mode)

/-- The ready records like this one, in the order in which they became ready. -/
def State.gathered (s : State) (c : ContRec) : List ContRec := s.conts.filter fun d => d.result.isSome && c.like d

/-- The oldest of some ready records has waited 128 cycles, or 16 of them wait (R255). -/
def State.gatherDue (s : State) (cs : List ContRec) : Bool :=
  decide (16 ≤ cs.length) ||
    match cs.head? with
    | some c => (match c.result with
      | some (_, t) => decide (t + 128 ≤ s.now)
      | none => false)
    | none => false

/-- The lowest lane of a core with a free slot and 16 × ALLOC free words (R255). -/
def State.contLane (s : State) (core alloc : Nat) : Option Nat :=
  (upto Config.lanes fun l => s.laneFits core l 1 (16 * alloc)).head?

/-- The bead that a record becomes (R255). -/
def ContRec.bead (c : ContRec) (alloc : Nat) : Bead :=
  let fresh := Bead.fresh alloc
  let v1 := c.regs.foldl (fun v (p : Nat × Word) => setNth v p.1 p.2) fresh.v
  let words := match c.result with
    | some (ws, _) => ws
    | none => []
  let v2 := (words.zip (List.range words.length)).foldl (fun v (p : Word × Nat) => setNth v (c.dreg + p.2) p.1) v1
  { fresh with v := v2, p := c.pred }

/-- Rods that parked for want of room in a core's part of the area go on (R254, R423). -/
def State.wakeContRoom (s : State) (asid core : Nat) : State :=
  { s with rods := s.rods.map fun r =>
      match r.status with
      | .parked p => if p.cls = 5 ∧ p.cause = 4 ∧ r.asid = asid ∧ r.core = core then { r with status := .ready } else r
      | _ => r }

/-- Records are released: their cells are free (R254). -/
def State.dropConts (s : State) (us : List Nat) : State :=
  { s with conts := s.conts.filter fun c => !us.contains c.uid }

/-- A rod is formed from the ready records like this one, if it is due and a lane has room (R255). -/
def State.formRod (s : State) (c : ContRec) : State :=
  let cs := s.gathered c
  match s.frame? c.frame, cs with
  | some f, x :: _ =>
    if !s.gatherDue cs || s.halted f.asid || s.settlingOn f.core f.asid then s
    else
      match s.contLane f.core f.alloc with
      | none => s
      | some lane =>
        let mine := cs.take 16
        let rodid := lane * 8 + s.freeSlot f.core lane
        let s1 := s.bindRod f lane rodid mine.length x.mode x.fmt x.cpc
          fun r => { r with
            continued := true
            beads := mine.map fun c => c.bead f.alloc
            view := mine.foldl (fun v c => v.join c.rel) View.none }
        (s1.dropConts (mine.map ContRec.uid)).wakeContRoom f.asid f.core
  | _, _ => s

/-- The record of a name. -/
def State.cont? (s : State) (u : Nat) : Option ContRec := s.conts.find? fun c => decide (c.uid = u)

/-- A record is changed. -/
def State.modCont (s : State) (u : Nat) (f : ContRec → ContRec) : State :=
  { s with conts := s.conts.map fun c => if c.uid = u then f c else c }

/-- A unit writes the result area of a record, which becomes ready, the last of the ready ones (R255). -/
def State.writeResult (s : State) (c : ContRec) (words : List Word) : State :=
  let va := s.contAddr c.asid c.core c.cell
  let s1 := s.writeVaCells c.core c.asid (va + 16) (wordCells words)
  let c' : ContRec := { c with result := some (words, s.now), fault := none, point := none, trace := none }
  { s1 with conts := (s1.conts.filter fun d : ContRec => decide (d.uid ≠ c.uid)) ++ [c'] }

/-- A unit's result is written, and a rod is formed if one is due (R255). -/
def State.putResult (s : State) (c : ContRec) (words : List Word) : State :=
  let s1 := s.writeResult c words
  match s1.cont? c.uid with
  | none => s1
  | some d => s1.formRod d

/-- The unit that works on a record as it accesses memory: for the record's core, on path 101 (R155, R253). -/
def ContRec.client (c : ContRec) : Client := ⟨some c.core, c.asid, 5, c.rel.seen⟩

/-- A unit's request waits on a page (R268). -/
def State.contWaits (u : Nat) (s : State) : State := s.modCont u fun c => if c.result.isNone then { c with fault := some none } else c

/-- A failed read of a unit: a page fault is recorded with AGENT 101 and the core (R268). -/
def State.unitFails (s : State) (c : ContRec) (e : EngineFail) : State :=
  let f := s.frame? c.frame
  s.engineFault c.asid c.core 5 ((f.map Frame.frameid).getD 0) (.unit_ c.uid) (State.contWaits c.uid) e

/-- A record whose unit is to work on it: not ready, not waiting on a page, its context not halted. -/
def State.unitWork (s : State) (u : Nat) : Option ContRec :=
  match s.cont? u with
  | none => none
  | some c => if c.result.isSome || c.fault.isSome || s.awaits (.unit_ u) || s.halted c.asid then none else some c

/-- CONT_GATHER_TIMEOUT (R255): ready records that have waited long enough form a rod. -/
def execContGatherTimeout (record : Nat) (s : State) : Host.Outcome State Fault Refusal :=
  match s.cont? record with
  | none => .next s
  | some c => .next (if c.result.isSome then s.formRod c else s)

end Sys2Proof.Machine
end

