-- ==== Sys2Proof/Machine/Sampler.lean ====
section
/-!
DEFINITION. TEX and the texture sampler: descriptors, the level of detail, probes, and filtering
(R248 to R252, R424). Coordinates and weights are exact fractions.
-/

namespace Sys2Proof.Machine

/-! ### Exact values of f32 words -/

/-- The exact value of a finite f32. -/
def f32Rat? (w : Nat) : Option Rat :=
  match Fmt.f32.decode w with
  | .fin neg n d => some (mkRat (signedNum neg n) d)
  | _ => none

/-- An f32 with this exact value, rounded once under RNE; an exact zero is +0. -/
def rneRat (x : Rat) : Word := BitVec.ofNat 32 (Fmt.f32.round Env.engine (decide (x < 0)) x.num.natAbs x.den).1

/-! ### Descriptors (R248) -/

/-- An image: level 0's offset, width and height, levels − 1, and format. -/
structure Image where
  off : Nat
  w : Nat
  h : Nat
  lvm1 : Nat
  fmtt : Nat
  deriving DecidableEq, Repr

/-- The image of descriptor cell 0. -/
def Image.ofNat (x : Nat) : Image := ⟨field x 80 48, field x 66 14 + 1, field x 52 14 + 1, field x 48 4, field x 44 4⟩

/-- A reserved value or field of the image cell (R248). -/
def imageBad (x : Nat) : Bool :=
  let i := Image.ofNat x
  decide (i.off % 128 ≠ 0 ∨ 3 ≤ i.fmtt ∨ field x 0 44 ≠ 0 ∨ Nat.log2 (max i.w i.h) < i.lvm1)

/-- A sampler: clamps and bias in the units of their fields, and the filters. -/
structure Sampler where
  maxLod : Nat
  minLod : Nat
  bias : Int
  aniso : Nat
  mip : Nat
  min : Bool
  mag : Bool
  addrV : Nat
  addrU : Nat
  deriving DecidableEq, Repr

/-- The sampler of descriptor cell 1. -/
def Sampler.ofNat (x : Nat) : Sampler :=
  ⟨field x 36 8, field x 28 8, intOf 11 false (field x 16 11), field x 8 3, field x 6 2, decide (field x 5 1 = 1),
    decide (field x 4 1 = 1), field x 2 2, field x 0 2⟩

/-- A reserved value or field of the sampler cell (R248). -/
def samplerBad (x : Nat) : Bool :=
  let p := Sampler.ofNat x
  decide (field x 44 84 ≠ 0 ∨ field x 27 1 ≠ 0 ∨ field x 11 5 ≠ 0 ∨ p.maxLod < p.minLod ∨ 4 < p.aniso ∨ p.mip = 3 ∨
    p.addrV = 3 ∨ p.addrU = 3)

/-- Width and height of a level. -/
def Image.size (i : Image) (l : Nat) : Nat × Nat := (max 1 (i.w / 2 ^ l), max 1 (i.h / 2 ^ l))

/-- Bytes of a texel. -/
def Image.texelBytes (i : Image) : Nat := if i.fmtt = 1 then 8 else 4

/-- The bytes of a level. -/
def Image.levelBytes (i : Image) (l : Nat) : Nat := (i.size l).1 * (i.size l).2 * i.texelBytes

/-- Where a level begins, relative to OFF: the next multiple of 128 after the level before. -/
def Image.levelAt (i : Image) : Nat → Nat
  | 0 => 0
  | l + 1 => roundUp 128 (i.levelAt l + i.levelBytes l)

/-- The bytes of the whole image. -/
def Image.extent (i : Image) : Nat := i.levelAt i.lvm1 + i.levelBytes i.lvm1

/-! ### Texels -/

/-- The channels of a texel; those of RGBA8 are integers (R251). -/
def Image.channels (i : Image) (x : Nat) : List Val :=
  match i.fmtt with
  | 0 => (List.range 4).map fun k => .fin false (field x (8 * k) 8) 1
  | 1 => (List.range 4).map fun k => Fmt.f16.decode (field x (16 * k) 16)
  | _ => [Fmt.f32.decode x, .fin false 0 1, .fin false 0 1, .fin false 1 1]

/-- A texel of a level. -/
def State.texel (s : State) (c : ContRec) (cap : Cap) (i : Image) (l x y : Nat) : Except EngineFail (List Val) × State :=
  match s.engineRead c.client cap (i.off + i.levelAt l + (y * (i.size l).1 + x) * i.texelBytes) i.texelBytes with
  | (.error e, s') => (.error e, s')
  | (.ok v, s') => (.ok (i.channels v), s')

/-- A texel that a sample reads: level, indices and weight. -/
structure Tap where
  l : Nat
  x : Nat
  y : Nat
  weight : Nat
  deriving DecidableEq, Repr

/-- The texels of some taps, with their weights; those of weight zero are not read. -/
def State.texels (s : State) (c : ContRec) (cap : Cap) (i : Image) :
    List Tap → Except EngineFail (List (Nat × List Val)) × State
  | [] => (.ok [], s)
  | t :: ts =>
    if t.weight = 0 then s.texels c cap i ts
    else
      match s.texel c cap i t.l t.x t.y with
      | (.error e, s') => (.error e, s')
      | (.ok v, s') =>
        match s'.texels c cap i ts with
        | (.error e, s2) => (.error e, s2)
        | (.ok vs, s2) => (.ok ((t.weight, v) :: vs), s2)

/-- A channel of a sample: the weighted sum over `total`, rounded once (R251). -/
def filtered (total : Nat) (xs : List (Nat × Val)) : Word :=
  let infs := xs.filter fun x => x.2.isInf
  if xs.any (fun x => x.2.isNan) || (infs.any (fun x => x.2.neg) && infs.any fun x => !x.2.neg) then 0x7FC00000
  else
    match infs with
    | x :: _ => BitVec.ofNat 32 (Fmt.f32.infinity x.2.neg)
    | [] =>
      BitVec.ofNat 32 (Fmt.f32.roundSum Env.engine (xs.map fun (w, v) =>
        match v with
        | .fin neg n d => (neg, w * n, d * total)
        | _ => (false, 0, 1))).1

/-! ### The level of detail (R249) -/

/-- A coordinate as it is read for a derivative: a NaN reads as 0, an infinity has no value. -/
def coordinate? (w : Word) : Option Rat := if (Fmt.f32.decode w.toNat).isNan then some 0 else f32Rat? w.toNat

/-- The difference of two neighbours' coordinates; it is free where one is infinite (assumption 14). -/
def difference (a b : Word) : Rat :=
  match coordinate? a, coordinate? b with
  | some x, some y => y - x
  | _, _ => mkRat (Config.freeDerivative a b) (2 ^ 149)

/-- The derivatives of u and v along an axis of the quad: from the first pair of its beads that are both active, or
zero. -/
def derivative (quad : List (Option (Word × Word))) : List (Nat × Nat) → Rat × Rat
  | [] => (0, 0)
  | (i, j) :: rest =>
    match nth none quad i, nth none quad j with
    | some a, some b => (difference a.1 b.1, difference a.2 b.2)
    | _, _ => derivative quad rest

/-- The absolute value. -/
def ratAbs (x : Rat) : Rat := if x < 0 then -x else x

/-- The smallest power of two, as its logarithm, that is at least a ratio, capped. -/
def probeLog (ratio : Rat) : Nat → Nat → Nat
  | 0, k => k
  | n + 1, k => if ratio ≤ (2 ^ k : Nat) then k else probeLog ratio n (k + 1)

/-- floor(256 × log2(x)) of a positive value. -/
def log2Units (x : Rat) : Int := floorLog2 (x.num.natAbs ^ 256) (x.den ^ 256)

/-- floor(256 × x) of a bias or level operand; an infinity stands beyond every clamp, and a NaN gives a free value
(assumption 14). -/
def lodOperand (w : Word) : Int :=
  match Fmt.f32.decode w.toNat with
  | .nan _ _ _ => Config.freeLod w
  | .inf neg => if neg then -(2 ^ 200) else 2 ^ 200
  | .fin neg n d => signedNum neg n * 256 / (d : Int)

/-- What a sample needs beside its position: the level of detail, log2 of the probe count, and the derivatives along
the major axis. -/
structure Detail where
  lod : Int
  probes : Nat
  du : Rat
  dv : Rat

/-- The level of detail of a request (R249). -/
def detail (ctl : Nat) (i : Image) (p : Sampler) (quad : List (Option (Word × Word))) (operand : Word) : Detail :=
  let (ux, vx) := derivative quad [(0, 1), (2, 3)]
  let (uy, vy) := derivative quad [(0, 2), (1, 3)]
  let rx := max (ratAbs ux * (i.w : Rat)) (ratAbs vx * (i.h : Rat))
  let ry := max (ratAbs uy * (i.w : Rat)) (ratAbs vy * (i.h : Rat))
  let big := max rx ry
  let small := min rx ry
  let n :=
    if ctl = 2 ∨ big = 0 then 0
    else if small = 0 then p.aniso
    else probeLog (big / small) p.aniso 0
  let own := (if big = 0 then 16 * (p.minLod : Int) else log2Units (big / (2 ^ n : Nat))) + p.bias
  let lod :=
    match ctl with
    | 1 => own + lodOperand operand
    | 2 => lodOperand operand
    | _ => own
  let clamped := clampInt (16 * (p.minLod : Int)) (16 * (p.maxLod : Int)) lod
  if ry ≤ rx then ⟨clamped, n, ux, vx⟩ else ⟨clamped, n, uy, vy⟩

/-- The levels of a sample with their weights (R249). -/
def levelsOf (i : Image) (p : Sampler) (lod : Int) : List (Nat × Nat) :=
  let top : Int := i.lvm1
  match p.mip with
  | 0 => [(0, 256)]
  | 1 => [((clampInt 0 top ((lod + 128) / 256)).toNat, 256)]
  | _ =>
    let l := (clampInt 0 top (lod / 256)).toNat
    let g := if 0 ≤ lod ∧ l < i.lvm1 then (lod % 256).toNat else 0
    [(l, 256 - g), (l + 1, g)]

/-! ### Probes (R250) -/

/-- A coordinate of a probe, clamped to ±2^24; a NaN reads as 0. -/
def probeCoordinate (w : Word) (offset : Rat) : Rat :=
  let bound : Rat := (2 ^ 24 : Nat)
  match Fmt.f32.decode w.toNat with
  | .nan _ _ _ => max (-bound) (min bound offset)
  | .inf neg => if neg then -bound else bound
  | .fin neg n d => max (-bound) (min bound (mkRat (signedNum neg n) d + offset))

/-- An index addressed along an axis of `n` texels. -/
def addressed (mode : Nat) (n : Nat) (i : Int) : Nat :=
  match mode with
  | 0 => (i % (n : Int)).toNat
  | 1 => (clampInt 0 ((n : Int) - 1) i).toNat
  | _ =>
    let m := (i % (2 * (n : Int))).toNat
    if m < n then m else 2 * n - 1 - m

/-- The texel below a coordinate of an axis and the 8-bit fraction of the next one. -/
def cornerOf (x : Rat) (n : Nat) : Int × Nat :=
  let p := (256 * (x * (n : Rat) - 1 / 2)).floor
  (p / 256, (p % 256).toNat)

/-- The four corners of a position at a level, in the order (i0, j0), (i0+1, j0), (i0, j0+1), (i0+1, j0+1). -/
def corners (i : Image) (p : Sampler) (l : Nat) (u v : Rat) : List Tap :=
  let (w, h) := i.size l
  let (i0, a) := cornerOf u w
  let (j0, b) := cornerOf v h
  let at_ (di dj weight : Nat) : Tap := ⟨l, addressed p.addrU w (i0 + di), addressed p.addrV h (j0 + dj), weight⟩
  [at_ 0 0 ((256 - a) * (256 - b)), at_ 1 0 (a * (256 - b)), at_ 0 1 ((256 - a) * b), at_ 1 1 (a * b)]

/-- The nearest texel to a position at a level. -/
def nearest (i : Image) (p : Sampler) (l : Nat) (u v : Rat) : List Tap :=
  let (w, h) := i.size l
  [⟨l, addressed p.addrU w (u * (w : Rat)).floor, addressed p.addrV h (v * (h : Rat)).floor, 65536⟩]

/-- The texels of every probe and level of a sample. -/
def sampleTaps (i : Image) (p : Sampler) (d : Detail) (u v : Word) : List Tap :=
  let n := 2 ^ d.probes
  let bilinear := if d.lod ≤ 0 then p.mag else p.min
  (List.range n).flatMap fun (k : Nat) =>
    let t : Rat := mkRat (2 * (k : Int) + 1 - (n : Int)) (2 * n)
    let pu := probeCoordinate u (t * d.du)
    let pv := probeCoordinate v (t * d.dv)
    (levelsOf i p d.lod).flatMap fun (l, weight) =>
      (if bilinear then corners i p l pu pv else nearest i p l pu pv).map fun x => { x with weight := x.weight * weight }

/-! ### TEX (R252) and its result (R251) -/

/-- The channels of weighted texels. -/
def combine (total : Nat) (xs : List (Nat × List Val)) : List Word :=
  (List.range 4).map fun k => filtered total (xs.map fun x => (x.1, nth (.fin false 0 1) x.2 k))

/-- The red channel of the corner with an index, converted exactly. -/
def redOf (scale : Nat) (xs : List (Nat × List Val)) (k : Nat) : Word :=
  match xs[k]? with
  | some x => filtered scale [(1, nth (.fin false 0 1) x.2 0)]
  | none => 0

/-- The four result words of a request (R251, R252). -/
def State.sampled (s : State) (c : ContRec) (ctl : Nat) (cap : Cap) (image sampler : BitVec 128) (ops : List Word)
    (quad : List (Option (Word × Word))) : Except EngineFail (List Word) × State :=
  let i := Image.ofNat image.toNat
  let p := Sampler.ofNat sampler.toNat
  let unorm := if i.fmtt = 0 then 255 else 1
  let op (k : Nat) : Word := nth 0 ops k
  let run (taps : List Tap) (f : List (Nat × List Val) → List Word) : Except EngineFail (List Word) × State :=
    match s.texels c cap i taps with
    | (.error e, s') => (.error e, s')
    | (.ok xs, s') => (.ok (f xs), s')
  match ctl with
  | 3 =>
    let taps := (corners i p 0 (probeCoordinate (op 0) 0) (probeCoordinate (op 1) 0)).map fun x => { x with weight := 1 }
    run taps fun xs => [2, 3, 1, 0].map (redOf unorm xs)
  | 4 =>
    let l := (op 2).toNat
    if i.lvm1 < l ∨ (i.size l).1 ≤ (op 0).toNat ∨ (i.size l).2 ≤ (op 1).toNat then (.ok [0, 0, 0, 0], s)
    else run [⟨l, (op 0).toNat, (op 1).toNat, 1⟩] (combine unorm)
  | _ =>
    let d := detail ctl i p quad (op 2)
    run (sampleTaps i p d (op 0) (op 1)) (combine (2 ^ d.probes * 2 ^ 24 * unorm))

/-- The operands of a bead of a TEX: v registers, or the uniform values of s registers (R43, R252). -/
def Rod.texOps (r : Rod) (k : Nat) (f : ShTex) : List Word :=
  (List.range (texOperands f.c)).map fun j => r.word (some k) (next f.a j)

/-- The (u, v) of the active beads of a bead's quad (R249). -/
def Rod.quadOf (r : Rod) (k : Nat) (a : BitVec 7) : List (Option (Word × Word)) :=
  (List.range 4).map fun j =>
    let b := k / 4 * 4 + j
    if r.active.getLsbD b then some (r.word (some b) a, r.word (some b) (next a 1)) else none

/-- TEX (R252, R423, R424). -/
def execTex (f : ShTex) (s : State) : Host.Outcome State Fault Refusal :=
  executeEnding (.tex f) f.d (do
    M.inAllocation (.tex f) false
    M.liveNamed
    let r ← M.rod
    let x := (r.sreg (sIndex f.b)).toNat
    M.reservedIn (decide (field x 4 12 ≠ 0 ∨ field x 36 28 ≠ 0))
    let cells ← M.descriptor (field x 16 20) 2
    let image := nth 0 cells 0
    let sampler := nth 0 cells 1
    M.reservedIn (imageBad image.toNat || samplerBad sampler.toNat)
    let i := Image.ofNat image.toNat
    let cap := r.cap (field x 0 4)
    M.checkCap (r.firstBead false) cap { rd := true, e := true } i.off i.extent
    pure fun r k => pure (.tex f.c.toNat cap image sampler (r.texOps k f) (k % 4) (r.quadOf k f.a))) s

/-- TEXTURE_RESULT (R251): the sampler writes a result area, and the record becomes ready. -/
def execTextureResult (record : Nat) (s : State) : Host.Outcome State Fault Refusal :=
  match s.unitWork record with
  | none => .next s
  | some c =>
    match c.req with
    | .tex ctl cap image sampler ops _ quad =>
      match s.sampled c ctl cap image sampler ops quad with
      | (.error e, s') => .next (s'.unitFails c e)
      | (.ok ws, s') => .next (s'.putResult c ws)
    | _ => .next s

end Sys2Proof.Machine
end

