-- ==== Sys2Proof/Machine/Raster.lean ====
section
/-!
DEFINITION. The rasteriser of a board: triangle entries and draw states, edge arithmetic, the classifier, visibility
keys, and pixel rods (R238 to R247, R285).
-/

namespace Sys2Proof.Machine

/-- Work of an engine on the device, which a failed access ends. -/
abbrev U (α : Type) := ExceptT EngineFail (StateM State) α

/-- A change of state that gives a value or fails. -/
def U.lift {α : Type} (f : State → Except EngineFail α × State) : U α := f

/-- A change of the state. -/
def U.upd (f : State → State) : U Unit := fun s => (.ok (), f s)

/-! ### Triangle entries and draw states (R238) -/

/-- A vertex of an entry: x, y and z as f32. -/
structure Vertex where
  x : Nat
  y : Nat
  z : Nat
  deriving DecidableEq, Repr

/-- Vertex `k` of an entry. -/
def vertexOf (e k : Nat) : Vertex := ⟨field e (96 * k) 32, field e (96 * k + 32) 32, field e (96 * k + 64) 32⟩

/-- A draw state. -/
structure DrawState where
  vish : Nat
  swq : Nat
  rmaph : Nat
  w : Nat
  h : Nat
  areath : Nat
  rate : Nat
  comb : Nat
  rmap : Bool
  cull : Nat
  samp : Nat
  shade : Bool
  lrec : Nat
  reserved : Nat
  deriving DecidableEq, Repr

/-- The fields of a draw state. -/
def DrawState.ofNat (x : Nat) : DrawState :=
  ⟨field x 224 16, field x 208 16, field x 192 16, field x 178 14 + 1, field x 164 14 + 1, field x 144 16,
    field x 141 3, field x 139 2, decide (field x 138 1 = 1), field x 136 2, field x 134 2,
    decide (field x 133 1 = 1), field x 32 48, field x 240 16 + field x 160 4 + field x 80 53⟩

/-- A draw state is malformed (R238): a reserved field, or a reserved value in CULL, SAMP or RATE (R4, R245). -/
def DrawState.bad (d : DrawState) : Bool := decide (d.reserved ≠ 0 ∨ d.cull = 3 ∨ 2 ≤ d.samp ∨ d.rate = 7)

/-- Samples per pixel. -/
def DrawState.samples (d : DrawState) : Nat := if d.samp = 1 then 4 else 1

/-! ### Edge arithmetic (R239 to R242) -/

/-- A point in units of 1/256 pixel, and for a vertex its z. -/
structure Point where
  x : Int
  y : Int
  z : Nat := 0
  deriving DecidableEq, Repr

/-- A coordinate in units of 1/256 pixel; none for a NaN or a value out of range (R239). -/
def fixedPoint (w : Nat) : Option Int :=
  match Fmt.f32.decode w with
  | .fin neg n d =>
    let v := signedNum neg (roundInt Env.engine neg (n * 256) d).1
    if -(2 ^ 23) ≤ v ∧ v ≤ 2 ^ 23 - 1 then some v else none
  | _ => none

/-- A vertex in fixed point. -/
def Vertex.point (v : Vertex) : Option Point :=
  match fixedPoint v.x, fixedPoint v.y with
  | some x, some y => some ⟨x, y, v.z⟩
  | _, _ => none

/-- The edge function of the edge from `a` to `b` (R240). -/
def edge (a b p : Point) : Int := (p.x - a.x) * (b.y - a.y) - (p.y - a.y) * (b.x - a.x)

/-- A triangle with its area term positive. -/
structure Triangle where
  v0 : Point
  v1 : Point
  v2 : Point
  area : Int
  prim : Nat
  deriving DecidableEq, Repr

/-- A triangle is oriented, or discarded for its area or by CULL (R240). -/
def orient (a b c : Point) (cull prim : Nat) : Option Triangle :=
  let area := edge a b c
  if area = 0 ∨ (cull = 1 ∧ area < 0) ∨ (cull = 2 ∧ 0 < area) then none
  else if area < 0 then some ⟨a, c, b, -area, prim⟩
  else some ⟨a, b, c, area, prim⟩

/-- The edges e0, e1 and e2, each opposite its vertex (R240). -/
def Triangle.edges (t : Triangle) : List (Point × Point) := [(t.v1, t.v2), (t.v2, t.v0), (t.v0, t.v1)]

/-- An edge is top or left (R241). -/
def topLeft (a b : Point) : Bool := decide ((b.y = a.y ∧ b.x < a.x) ∨ a.y < b.y)

/-- The point is covered (R241). -/
def Triangle.covers (t : Triangle) (p : Point) : Bool :=
  t.edges.all fun (a, b) => decide (0 < edge a b p) || (decide (edge a b p = 0) && topLeft a b)

/-- Where sample `k` of a pixel lies (R239). -/
def samplePoint (samples i j k : Nat) : Point :=
  let o : Int × Int := if samples = 1 then (0, 0) else nth (0, 0) [(-32, -96), (96, -32), (-96, 32), (32, 96)] k
  ⟨256 * (i : Int) + 128 + o.1, 256 * (j : Int) + 128 + o.2, 0⟩

/-- The depth at a covered point as f32 bits with the sign cleared (R242). -/
def Triangle.depth (t : Triangle) (p : Point) : Nat :=
  let es := t.edges.map fun (a, b) => edge a b p
  let zs := [t.v0.z, t.v1.z, t.v2.z].map Fmt.f32.decode
  let terms := es.zip zs
  let infs := terms.filter fun x => x.2.isInf
  if terms.any (fun x => x.2.isNan || (x.2.isInf && decide (x.1 = 0))) ∨
      (infs.any (fun x => x.2.neg) && infs.any fun x => !x.2.neg) then 0
  else if !infs.isEmpty then 0x7F800000
  else
    (Fmt.f32.roundSum Env.engine (terms.map fun (e, z) =>
      match z with
      | .fin neg n d => (neg, n * e.natAbs, d * t.area.natAbs)
      | _ => (false, 0, 1))).1 % 2 ^ 31

/-- The visibility key of a covered point (R242). -/
def Triangle.key (t : Triangle) (p : Point) : Nat := t.depth p * 2 ^ 32 + t.prim

/-- The pixels of the target that a triangle's box touches, row by row. -/
def Triangle.pixels (t : Triangle) (w h : Nat) : List (Nat × Nat) :=
  let xs := [t.v0.x, t.v1.x, t.v2.x]
  let ys := [t.v0.y, t.v1.y, t.v2.y]
  let lo (l : List Int) : Int := (l.foldl min (2 ^ 23)) / 256 - 1
  let hi (l : List Int) : Int := (l.foldl max (-(2 ^ 23))) / 256 + 1
  let inside (l : List Int) (i : Nat) : Bool := decide (lo l ≤ (i : Int) ∧ (i : Int) ≤ hi l)
  (upto h (inside ys)).flatMap fun j => (upto w (inside xs)).map fun i => (i, j)

/-! ### Access to the objects of a draw -/

/-- The core that a fault record of a board's rasteriser names. -/
def Raster.core (r : Raster) : Nat := 4 * r.board

/-- The rasteriser as it accesses memory: on path 101, as an engine of the device (R155, R156, R244, R285). -/
def Raster.client (r : Raster) : Client := ⟨none, r.asid, 5, r.seen⟩

/-- The board's rasteriser is changed. -/
def State.modRaster (s : State) (board : Nat) (f : Raster → Raster) : State :=
  { s with rasters := s.rasters.map fun x => if x.board = board then f x else x }

/-- A capability check of the rasteriser fails with a cause of R118. -/
def U.check (c : Cap) (q : Rights) (byte size : Nat) : U Unit :=
  match c.check q byte size with
  | none => pure ()
  | some x => throw (.port x 0)

/-- The physical address of bytes of an object. -/
def Raster.reach (r : Raster) (c : Cap) (byte size : Nat) (write : Bool) : U Nat :=
  U.lift fun s => s.engineReach r.client c byte size write

/-- Bytes of an object as a number. -/
def Raster.read (r : Raster) (c : Cap) (byte n : Nat) : U Nat := U.lift fun s => s.engineRead r.client c byte n

/-- A handle of the context as CAPLD would load it (R119). -/
def Raster.handle (r : Raster) (i : Nat) : U Cap := do
  let s ← get
  if s.ctxField r.asid 112 16 < i then throw (.port 5 0)
  else
    let c ← U.lift fun s => s.handle r.asid i
    match c with
    | none => throw (.port 6 0)
    | some c => pure c

/-- A number of `n` bytes is written on path 101 at its home, and it carries the releases of the writes before it, as an
atomic does (R163, R244). -/
def U.atHome (a n x : Nat) : U Unit :=
  U.upd fun s => s.pathWrite 5 .device (chainStamps (s.touching a n)) (placed a (bytesOfNat n x))

/-- Error bits are ORed into STATUS of a draw state (R238). -/
def Raster.orStatus (r : Raster) (ds bit : Nat) : U Unit := do
  U.check r.draw { e := true, w := true } ds 4
  let a ← r.reach r.draw ds 4 true
  let s ← get
  U.atHome a 4 (s.natAt a 4 ||| 2 ^ bit)

/-- A queue of triangle entries: header address and header, checked as QPOP and QPUSH do (R284, R285). -/
def Raster.queueOf (r : Raster) (c : Cap) (off : Nat) : U (Nat × Queue) := do
  U.check c { rd := true, w := true, a := true } off 128
  let h ← r.reach c off 128 true
  let s ← get
  let q := s.queueAt h
  if q.bad false ∨ q.rsz ≠ 6 then throw (.port 3 0) else pure (h, q)

/-! ### The two paths (R243, R244) -/

/-- A release of the rasteriser at dev scope, which is itself the next writes at some bytes (R164). -/
def Raster.release (r : Raster) (own : Marks) (fresh : Nat) (ws : List (Nat × Byte)) : Stamp :=
  (⟨.device, 4, r.seen.hb.join own, r.seen.ord⟩ : Stamp).over fresh ws

/-- The entry goes to the software queue, as QPUSH would put it, within the capability's bounds (R116, R243, R284); false
while the queue is full. -/
def Raster.pushSoft (r : Raster) (d : DrawState) (entry : Nat) : U Bool := do
  let c ← r.handle d.swq
  let (h, q) ← r.queueOf c 0
  if q.count = q.size then pure false
  else do
    U.check c { rd := true, w := true, a := true } (q.recordAt q.tail) 48
    let as ← (List.range 6).mapM fun i => r.reach c (q.recordAt q.tail + 8 * i) 8 true
    let ws := dwordBytes as ((List.range 6).map fun i => BitVec.ofNat 64 (field entry (64 * i) 64))
    let m ← U.lift fun s =>
      let (m, s1) := s.pathWrites 5 .device [r.release Marks.none s.fresh ws] ws
      (.ok m, s1)
    let tail := placed h (bytesOfNat 8 (q.tail + 1))
    U.upd fun s => s.pathWrite 5 .device [r.release m s.fresh tail] tail
    pure true

/-- A visibility key is maximised at the home; one that is not greater writes nothing (R244, R330). -/
def Raster.putKey (r : Raster) (c : Cap) (index key : Nat) : U Unit := do
  U.check c { a := true, e := true } (8 * index) 8
  let a ← r.reach c (8 * index) 8 true
  let s ← get
  if s.natAt a 8 < key then U.atHome a 8 key else pure ()

/-- The fixed rasteriser writes every covered sample of a triangle (R244). -/
def Raster.fixedPath (r : Raster) (d : DrawState) (t : Triangle) : U Unit := do
  let c ← r.handle d.vish
  (t.pixels d.w d.h).forM fun (i, j) =>
    (List.range d.samples).forM fun k => do
      let p := samplePoint d.samples i j k
      if t.covers p then r.putKey c ((j * d.w + i) * d.samples + k) (t.key p) else pure ()

/-! ### Shade mode (R245 to R247) -/

/-- Width and height of a shading rate (R245); a draw state or map byte with the reserved code 111 does not come here. -/
def rateOf (code : Nat) : Nat × Nat := nth (1, 1) [(1, 1), (2, 1), (1, 2), (2, 2), (4, 2), (2, 4), (4, 4)] code

/-- The map rate and RATE are combined (R245). -/
def combineRates (comb : Nat) (map draw : Nat × Nat) : Nat × Nat :=
  match comb with
  | 0 => map
  | 1 => draw
  | 2 => (min map.1 draw.1, min map.2 draw.2)
  | _ => (max map.1 draw.1, max map.2 draw.2)

/-- The rate of a tile of 16 × 16 pixels: with a rate map its byte is read whatever COMB says, and a bad one shades the tile
at 1 × 1 and sets STATUS bit 0 (R245). -/
def Raster.tileRate (r : Raster) (d : DrawState) (ds tx ty : Nat) : U (Nat × Nat) := do
  let draw := rateOf d.rate
  if !d.rmap then pure draw
  else do
    let c ← r.handle d.rmaph
    let at_ := ty * ((d.w + 15) / 16) + tx
    U.check c { e := true } at_ 1
    let b ← r.read c at_ 1
    if 7 ≤ b then do
      r.orStatus ds 0
      pure (1, 1)
    else pure (combineRates d.comb (rateOf b) draw)

/-- A coarse pixel: origin, rate and mask (R246). -/
structure Coarse where
  x : Nat
  y : Nat
  cw : Nat
  ch : Nat
  mask : Nat
  deriving DecidableEq, Repr

/-- The coarse pixel at an origin, with its mask (R246). -/
def Triangle.coarse (t : Triangle) (d : DrawState) (x y cw ch : Nat) : Coarse :=
  let bits := (List.range ch).flatMap fun py => (List.range cw).flatMap fun px => (List.range d.samples).map fun k =>
    (1, if x + px < d.w ∧ y + py < d.h ∧ t.covers (samplePoint d.samples (x + px) (y + py) k) then 1 else 0)
  ⟨x, y, cw, ch, packFields bits⟩

/-- The quads of a tile that have a covered sample, row by row (R247). -/
def Triangle.quads (t : Triangle) (d : DrawState) (tx ty : Nat) (rate : Nat × Nat) : List (List Coarse) :=
  let (cw, ch) := rate
  let all := (List.range (8 / ch)).flatMap fun qy => (List.range (8 / cw)).map fun qx =>
    let x := 16 * tx + 2 * cw * qx
    let y := 16 * ty + 2 * ch * qy
    [t.coarse d x y cw ch, t.coarse d (x + cw) y cw ch, t.coarse d x (y + ch) cw ch, t.coarse d (x + cw) (y + ch) cw ch]
  all.filter fun q => q.any fun c => decide (c.mask ≠ 0)

/-- A list cut into pieces of at most `n` elements. -/
def chunks {α : Type} (n : Nat) : Nat → List α → List (List α)
  | 0, _ => []
  | _ + 1, [] => []
  | k + 1, x :: xs => (x :: xs).take n :: chunks n k ((x :: xs).drop n)

/-- The registers v1 to v6 of a pixel rod's bead (R247). -/
def Coarse.registers (c : Coarse) (d : DrawState) (prim : Nat) : List Word :=
  [BitVec.ofNat 32 (c.y * 65536 + c.x), BitVec.ofNat 32 c.mask, BitVec.ofNat 32 (c.mask / 2 ^ 32), BitVec.ofNat 32 prim,
    rneRat (mkRat ((c.x + min (c.x + c.cw) d.w : Nat) : Int) 2), rneRat (mkRat ((c.y + min (c.y + c.ch) d.h : Nat) : Int) 2)]

/-- A pixel rod starts with its coarse pixels in its beads (R247). -/
def Rod.withPixels (r : Rod) (d : DrawState) (prim : Nat) (cs : List Coarse) : Rod :=
  (cs.zip (List.range cs.length)).foldl (fun (r : Rod) (p : Coarse × Nat) => r.setVgroup p.2 1 (p.1.registers d prim)) r.withNames

/-- Rods of a pixel frame are bound on successive lanes. -/
def State.bindPixels (s : State) (f : Frame) (d : DrawState) (prim i : Nat) : List (List Coarse) → State
  | [] => s
  | cs :: rest =>
    (s.bindRod f ((f.l0 + i) % Config.lanes) i cs.length f.mode f.fmt f.kpc fun r => r.withPixels d prim cs).bindPixels
      f d prim (i + 1) rest

/-- A frame of pixel rods is bound on a core of the board; false when none has room (assumption 16). -/
def Raster.bindFrame (r : Raster) (d : DrawState) (l : LaunchRec) (prim : Nat) (rods : List (List Coarse)) : U Bool := do
  let s ← get
  let words := 16 * l.alloc
  let place (core : Nat) : Option Placement := s.placeOn core r.asid rods.length words l.cells l.wn
  match (boardCores r.board).find? fun core => (place core).isSome with
  | none => pure false
  | some core =>
    match place core with
    | none => pure false
    | some p => do
      let (caps, s1) := s.loadHandles r.asid (l.hidx.take l.nh)
      let (u, s2) := s1.take
      let (launch, s3) := s2.take
      let segs := (p.bases.zip l.cells).map fun (b, n) => (⟨BitVec.ofNat 20 n, BitVec.ofNat 20 b⟩ : Seg)
      let b : BindRec := ⟨l.kpc, r.formed % (l.framesM1 + 1), r.asid, rods.length - 1, l.beadsM1, l.allocM1, p.l0, l.wn, p.w0,
        l.mode, l.fmt, d.lrec, segs, s.config.devid.toNat, 0⟩
      let f := b.frame core (s3.freeFrame core) u launch caps (l.args.take l.na) false
      set ((({ s3 with frames := s3.frames ++ [f] }.clearSegments f).dropCode f).bindPixels f d prim 0 rods)
      pure true

/-- The pixel rods of a triangle: each has up to four quads (R247). -/
def Raster.pixelRods (r : Raster) (d : DrawState) (ds : Nat) (t : Triangle) : U (List (List Coarse)) := do
  let tiles := (List.range ((d.h + 15) / 16)).flatMap fun ty => (List.range ((d.w + 15) / 16)).map fun tx => (tx, ty)
  let quads ← tiles.mapM fun (tx, ty) => do
    let rate ← r.tileRate d ds tx ty
    pure (t.quads d tx ty rate)
  let qs := quads.flatten
  pure ((chunks 4 qs.length qs).map List.flatten)

/-- Shade mode: the next frame of pixel rods is bound; true when the triangle is done (R247). -/
def Raster.shade (r : Raster) (d : DrawState) (ds : Nat) (t : Triangle) : U Bool := do
  U.check r.draw { e := true } d.lrec 256
  let x ← r.read r.draw d.lrec 256
  let l := LaunchRec.ofNat x
  if l.refused 7 then do
    r.orStatus ds 3
    pure true
  else do
    let rods ← r.pixelRods d ds t
    let frames := chunks (l.rodsM1 + 1) rods.length rods
    match frames[r.formed]? with
    | none => pure true
    | some mine => do
      let ok ← r.bindFrame d l t.prim mine
      if ok then do
        U.upd fun s => s.modRaster r.board fun x => { x with formed := r.formed + 1 }
        pure (decide (frames.length ≤ r.formed + 1))
      else pure false

/-- A popped entry is worked on; true when it is done with. -/
def Raster.handleEntry (r : Raster) (e : Nat) : U Bool := do
  let ds := field e 320 32
  let usable := decide (ds % 32 = 0) && (r.draw.check { e := true } ds 32).isNone
  if !usable then do
    U.upd fun s => s.logEvent Event.rastBadEntry (dieOfCore r.core) r.asid (e % 2 ^ 128)
    pure true
  else if field e 352 32 ≠ 0 then do
    r.orStatus ds 2
    pure true
  else do
    let x ← r.read r.draw ds 32
    let d := DrawState.ofNat x
    if d.bad then do
      r.orStatus ds 3
      pure true
    else
      match (vertexOf e 0).point, (vertexOf e 1).point, (vertexOf e 2).point with
      | some a, some b, some c =>
        match orient a b c d.cull (field e 288 32) with
        | none => pure true
        | some t =>
          if d.shade then r.shade d ds t
          else if t.area < 131072 * (d.areath : Int) then r.pushSoft d e
          else do
            r.fixedPath d t
            pure true
      | _, _, _ => do
        r.orStatus ds 1
        pure true

/-- The rasteriser takes the entry at the head of its draw queue, as QPOP would: header and record are read at their homes and
HEAD moves on, indivisibly, with an acquire of the entry (R164, R284, R285). -/
def Raster.pop (r : Raster) : U Unit := do
  let (h, q) ← r.queueOf r.queue r.qoff
  if q.count = 0 then pure ()
  else do
    U.check r.queue { rd := true, w := true, a := true } (r.qoff + q.recordAt q.head) 48
    let as ← (List.range 6).mapM fun i => r.reach r.queue (r.qoff + q.recordAt q.head + 8 * i) 8 false
    let s ← get
    let e := packFields ((s.dwordsAt as).map fun x => (64, x.toNat))
    let from_ := as.flatMap fun a => returned (s.touching a 8) a 8
    U.upd fun s => s.pathWrite 5 .device [] (placed (h + 8) (bytesOfNat 8 (q.head + 1)))
    U.upd fun s => s.modRaster r.board fun x =>
      { x with entry := some (BitVec.ofNat 384 e), formed := 0, seen := x.seen.acquired .device from_ }

/-- What the rasteriser does next: it pops an entry, or works on the one it has (R238, R247). -/
def Raster.work (r : Raster) : U Unit :=
  match r.entry with
  | none => r.pop
  | some e => do
    let done ← r.handleEntry e.toNat
    if done then U.upd fun s => s.modRaster r.board fun x => { x with entry := none, formed := 0 } else pure ()

/-- The rasteriser waits on a page (R268). -/
def State.rasterWaits (board : Nat) (s : State) : State := s.modRaster board fun x => { x with fault := some none }

/-- TRIANGLE_ENTRY (R238 to R247): a board's rasteriser pops an entry of its draw queue, or works on the one it has popped. -/
def execTriangleEntry (board : Nat) (s : State) : Host.Outcome State Fault Refusal :=
  match s.rasters.find? fun r => decide (r.board = board) with
  | none => .next s
  | some r =>
    if s.halted r.asid || r.fault.isSome || s.awaits (.raster board) then .next s
    else
      match r.work s with
      | (.ok _, s') => .next s'
      | (.error e, s') => .next (s'.engineFault r.asid r.core 5 0 (.raster board) (State.rasterWaits board) e)

end Sys2Proof.Machine
end

