-- ==== Sys2Proof/Machine/Rays.lean ====
section
/-!
DEFINITION. TRACE and VMARCH, the ray traversal unit and the volume-march unit (R257 to R268, R425, R430).
Geometry is computed in exact fractions; the march holds its f32 values as codes.
-/

namespace Sys2Proof.Machine

/-! ### Exact values -/

/-- An extended exact value. -/
inductive Ext where
  | neg
  | fin (x : Rat)
  | pos

/-- The order of extended values. -/
def Ext.lt : Ext → Ext → Bool
  | .neg, .neg => false
  | .neg, _ => true
  | .fin x, .fin y => decide (x < y)
  | .fin _, .pos => true
  | _, _ => false

/-- The reflexive order. -/
def Ext.le (a b : Ext) : Bool := !b.lt a

/-- The value of an f32 code; none for a NaN. -/
def ext? (w : Nat) : Option Ext :=
  match Fmt.f32.decode w with
  | .nan _ _ _ => none
  | .inf neg => some (if neg then .neg else .pos)
  | .fin neg n d => some (.fin (mkRat (signedNum neg n) d))

/-- The value of an f32 code that is not a NaN. -/
def extOf (w : Nat) : Ext := (ext? w).getD .pos

/-- The exact value of a finite f32 code, 0 otherwise. -/
def ratOf (w : Nat) : Rat := (f32Rat? w).getD 0

/-- The difference. -/
def V3.sub (a b : V3) : V3 := ⟨a.x - b.x, a.y - b.y, a.z - b.z⟩

/-- The scalar product. -/
def V3.dot (a b : V3) : Rat := a.x * b.x + a.y * b.y + a.z * b.z

/-- The vector product. -/
def V3.cross (a b : V3) : V3 := ⟨a.y * b.z - a.z * b.y, a.z * b.x - a.x * b.z, a.x * b.y - a.y * b.x⟩

/-- A vector of three f32 codes from an index of a list, if all are finite. -/
def v3? (ws : List Nat) (i : Nat) : Option V3 :=
  match f32Rat? (nth 0 ws i), f32Rat? (nth 0 ws (i + 1)), f32Rat? (nth 0 ws (i + 2)) with
  | some x, some y, some z => some ⟨x, y, z⟩
  | _, _, _ => none

/-- A ray of eight f32 codes is invalid (R258). -/
def rayBad (ws : List Nat) : Bool :=
  match v3? ws 0, v3? ws 3, ext? (nth 0 ws 6), ext? (nth 0 ws 7) with
  | some _, some d, some lo, some hi => hi.lt lo || decide (d.x = 0 ∧ d.y = 0 ∧ d.z = 0)
  | _, _, _, _ => true

/-- A read of a unit: none where it leaves the capability's bounds (R257). -/
def State.rayRead (s : State) (c : ContRec) (cap : Cap) (off n : Nat) : Except EngineFail (Option Nat) × State :=
  if off < cap.lo.toNat ∨ cap.hi.toNat < off + n then (.ok none, s)
  else
    match s.engineRead c.client cap off n with
    | (.error e, s') => (.error e, s')
    | (.ok x, s') => (.ok (some x), s')

/-- The 32-bit words of a number, from bit `lo` up. -/
def wordsOf (x lo n : Nat) : List Nat := (List.range n).map fun i => field x (lo + 32 * i) 32

/-! ### Boxes, triangles and instances (R260) -/

/-- Where the ray meets a plane of a box along an axis. -/
def planeAt (b : Ext) (o d : Rat) : Ext :=
  match b with
  | .fin x => .fin ((x - o) / d)
  | .neg => if 0 < d then .neg else .pos
  | .pos => if 0 < d then .pos else .neg

/-- The larger and the smaller of two values. -/
def Ext.max (a b : Ext) : Ext := if a.lt b then b else a

/-- The smaller of two values. -/
def Ext.min (a b : Ext) : Ext := if b.lt a then b else a

/-- The slab interval of one axis; none when the ray misses it. -/
def slabAxis (lo hi : Ext) (o d : Rat) : Option (Ext × Ext) :=
  if d = 0 then (if lo.le (.fin o) && (Ext.fin o).le hi then some (.neg, .pos) else none)
  else some ((planeAt lo o d).min (planeAt hi o d), (planeAt lo o d).max (planeAt hi o d))

/-- The entry t of the slab interval with [tmin, tc]; none when the box is not entered (R260). -/
def boxEntry (r : Ray) (ws : List Nat) (tmin tc : Ext) : Option Ext :=
  match ws.map ext? with
  | [some lx, some ly, some lz, some hx, some hy, some hz] =>
    if hx.lt lx || hy.lt ly || hz.lt lz then none
    else
      match slabAxis lx hx r.o.x r.d.x, slabAxis ly hy r.o.y r.d.y, slabAxis lz hz r.o.z r.d.z with
      | some a, some b, some c =>
        let near := ((a.1.max b.1).max c.1).max tmin
        let far := ((a.2.min b.2).min c.2).min tc
        if near.le far then some near else none
      | _, _, _ => none
  | _ => none

/-- The triangle test on nine vertex words (R260). -/
def triangleHit (r : Ray) (ws : List Nat) (prim : Nat) (tmin tc : Ext) : Option Hit :=
  match v3? ws 0, v3? ws 3, v3? ws 6 with
  | some v0, some v1, some v2 =>
    let e1 := v1.sub v0
    let e2 := v2.sub v0
    let p := r.d.cross e2
    let det := e1.dot p
    if det = 0 then none
    else
      let w := r.o.sub v0
      let q := w.cross e1
      let b1 := w.dot p / det
      let b2 := r.d.dot q / det
      let t := e2.dot q / det
      if 0 ≤ b1 ∧ 0 ≤ b2 ∧ b1 + b2 ≤ 1 ∧ tmin.le (.fin t) ∧ (Ext.fin t).le tc then some ⟨t, r.inst, prim, b1, b2⟩ else none
  | _, _, _ => none

/-- A value rounded once to f32, if it stays finite. -/
def rounded? (x : Rat) : Option Rat := f32Rat? (rneRat x).toNat

/-- A row of an instance's matrix applied to a vector, with its last column scaled by `w`, rounded once. -/
def matrixRow (m : List Nat) (row : Nat) (v : V3) (w : Rat) : Option Rat :=
  match v3? m (4 * row), f32Rat? (nth 0 m (4 * row + 3)) with
  | some a, some b => rounded? (a.dot v + b * w)
  | _, _ => none

/-- The ray inside an instance; none when the instance yields no hit (R260). -/
def Ray.enter (r : Ray) (m : List Nat) (inst : Nat) : Option Ray :=
  let rows (v : V3) (w : Rat) : Option V3 :=
    match matrixRow m 0 v w, matrixRow m 1 v w, matrixRow m 2 v w with
    | some x, some y, some z => some ⟨x, y, z⟩
    | _, _, _ => none
  match rows r.o 1, rows r.d 0 with
  | some o, some d => if d.x = 0 ∧ d.y = 0 ∧ d.z = 0 then none else some ⟨o, d, inst, false⟩
  | _, _ => none

/-! ### Traversal (R259 to R262) -/

/-- The TRACE result of a miss with a status (R262). -/
def missWords (status visits : Nat) : List Word :=
  [0x7F800000, 0xFFFFFFFF, 0xFFFFFFFF, 0, 0, BitVec.ofNat 32 status, BitVec.ofNat 32 (min visits 65535), 0]

/-- The TRACE result of a hit (R262). -/
def hitWords (h : Hit) (visits : Nat) : List Word :=
  [rneRat h.t, BitVec.ofNat 32 h.inst, BitVec.ofNat 32 h.prim, rneRat h.b1, rneRat h.b2, 0,
    BitVec.ofNat 32 (min visits 65535), 0]

/-- A child of a node, if it is entered: its entry t and what to visit; none for a malformed reference (R259). -/
def child (r : Ray) (x i : Nat) (tmin tc : Ext) : Option (Option (Ext × Pend)) :=
  let ref := field x (384 + 32 * i) 32
  let p := field ref 0 30
  let pend : Option Pend :=
    match field ref 30 2 with
    | 1 => some (.node (64 * p))
    | 2 => some (.leaf (field ref 24 6 + 1) (64 * field ref 0 24))
    | 3 => some (.inst (64 * p))
    | _ => none
  match pend with
  | none => some none
  | some q =>
    if field ref 30 2 = 3 ∧ !r.top then none
    else some ((boxEntry r (wordsOf x (192 * i) 6) tmin tc).map fun t => (t, q))

/-- The entered children of a node, the nearer first, child 0 on a tie (R261); none for a malformed node. -/
def childrenOf (r : Ray) (x : Nat) (tmin tc : Ext) : Option (List Pend) :=
  if field x 448 64 ≠ 0 then none
  else
    match child r x 0 tmin tc, child r x 1 tmin tc with
    | some (some a), some (some b) => some (if b.1.lt a.1 then [b.2, a.2] else [a.2, b.2])
    | some (some a), some none => some [a.2]
    | some none, some (some b) => some [b.2]
    | some none, some none => some []
    | _, _ => none

/-- The better of two hits: the least t, then the lower INST, then the lower PRIM (R261). -/
def Hit.better (a b : Hit) : Bool :=
  decide (a.t < b.t ∨ (a.t = b.t ∧ (a.inst < b.inst ∨ (a.inst = b.inst ∧ a.prim < b.prim))))

/-- The best of an old hit and a new one. -/
def bestHit (old : Option Hit) (new : Hit) : Hit :=
  match old with
  | none => new
  | some h => if new.better h then new else h

/-- The far limit tc: tmax, or the t of the closest hit (R260). -/
def farLimit (tmax : Ext) (best : Option Hit) : Ext :=
  match best with
  | none => tmax
  | some h => .fin h.t

/-- The records of a leaf are tested in order (R261): none for a malformed record or one out of bounds; with `any` the
first hit ends the leaf. A failed read comes with what is left of the leaf and the closest hit. -/
def State.leaf (s : State) (c : ContRec) (cap : Cap) (any : Bool) (r : Ray) (tmin tmax : Ext) (off : Nat) :
    Nat → Option Hit → Except (EngineFail × Pend × Option Hit) (Option (Option Hit)) × State
  | 0, best => (.ok (some best), s)
  | n + 1, best =>
    match s.rayRead c cap off 64 with
    | (.error e, s') => (.error (e, .leaf (n + 1) off, best), s')
    | (.ok none, s') => (.ok none, s')
    | (.ok (some x), s') =>
      if field x 320 192 ≠ 0 then (.ok none, s')
      else
        match triangleHit r (wordsOf x 0 9) (field x 288 32) tmin (farLimit tmax best) with
        | none => s'.leaf c cap any r tmin tmax (off + 64) n best
        | some h =>
          if any then (.ok (some (some h)), s') else s'.leaf c cap any r tmin tmax (off + 64) n (some (bestHit best h))

/-- The traversal (R259 to R262): `fuel` visits are left, `todo` is the traversal stack, its top first. A failed read
comes with where the traversal stands. -/
def State.traverse (s : State) (c : ContRec) (cap : Cap) (any : Bool) (tmin tmax : Ext) :
    Nat → List (Pend × Ray) → Option Hit → Nat → Except (EngineFail × TracePoint) (List Word) × State
  | _, [], best, visits =>
    (.ok (match best with
      | some h => hitWords h visits
      | none => missWords 1 visits), s)
  | 0, _ :: _, _, visits => (.ok (missWords 4 visits), s)
  | fuel + 1, (p, r) :: todo, best, visits =>
    let bad : List Word := missWords 2 (visits + 1)
    match p with
    | .node off =>
      match s.rayRead c cap off 64 with
      | (.error e, s') => (.error (e, ⟨(p, r) :: todo, best, visits + 1⟩), s')
      | (.ok none, s') => (.ok bad, s')
      | (.ok (some x), s') =>
        match childrenOf r x tmin (farLimit tmax best) with
        | none => (.ok bad, s')
        | some ps =>
          let next := (ps.map fun q => (q, r)) ++ todo
          if 64 < next.length then (.ok bad, s') else s'.traverse c cap any tmin tmax fuel next best (visits + 1)
    | .inst off =>
      match s.rayRead c cap off 64 with
      | (.error e, s') => (.error (e, ⟨(p, r) :: todo, best, visits + 1⟩), s')
      | (.ok none, s') => (.ok bad, s')
      | (.ok (some x), s') =>
        if field x 446 66 ≠ 0 ∨ field x 384 32 = 0xFFFFFFFF then (.ok bad, s')
        else
          let next := match r.enter (wordsOf x 0 12) (field x 384 32) with
            | none => todo
            | some r' => (.node (64 * field x 416 30), r') :: todo
          if 64 < next.length then (.ok bad, s') else s'.traverse c cap any tmin tmax fuel next best (visits + 1)
    | .leaf n off =>
      match s.leaf c cap any r tmin tmax off n best with
      | (.error (e, q, found), s') => (.error (e, ⟨(q, r) :: todo, found, visits + 1⟩), s')
      | (.ok none, s') => (.ok bad, s')
      | (.ok (some found), s') =>
        match any, found with
        | true, some h => (.ok (hitWords h (visits + 1)), s')
        | _, _ => s'.traverse c cap any tmin tmax fuel todo found (visits + 1)

/-- The result of a trace (R258, R262), which begins at its root or goes on from where it waited (R268): the visit of the
top of its stack is then already counted. -/
def State.trace (s : State) (c : ContRec) (any : Bool) (cap : Cap) (root : Nat) (ray : List Word) :
    Except (EngineFail × TracePoint) (List Word) × State :=
  let ws := ray.map BitVec.toNat
  if rayBad ws then (.ok (missWords 3 0), s)
  else
    match v3? ws 0, v3? ws 3 with
    | some o, some d =>
      let p := c.trace.getD ⟨[(.node root, ⟨o, d, 0xFFFFFFFF, true⟩)], none, 1⟩
      s.traverse c cap any (extOf (nth 0 ws 6)) (extOf (nth 0 ws 7)) (65537 - p.visits) p.todo p.best (p.visits - 1)
    | _, _ => (.ok (missWords 3 0), s)

/-- TRACE (R257, R423, R425). -/
def execTrace (f : ShTrace) (s : State) : Host.Outcome State Fault Refusal :=
  executeEnding (.trace f) f.d (do
    M.inAllocation (.trace f) false
    M.liveNamed
    let r ← M.rod
    let x := (r.sreg (sIndex f.b)).toNat
    M.reservedIn (decide (field x 4 18 ≠ 0))
    let cap := r.cap (field x 0 4)
    M.checkCap (r.firstBead false) cap { rd := true, e := true } cap.lo.toNat (cap.hi.toNat - cap.lo.toNat)
    pure fun r k => pure (.trace f.c cap (field x 16 48) (r.vgroup k f.a 8))) s

/-- TRACE_RESULT (R262): the traversal unit writes a result area, and the record becomes ready. -/
def execTraceResult (record : Nat) (s : State) : Host.Outcome State Fault Refusal :=
  match s.unitWork record with
  | none => .next s
  | some c =>
    match c.req with
    | .trace any cap root ray =>
      match s.trace c any cap root ray with
      | (.error (e, p), s') => .next ((s'.unitFails c e).modCont c.uid fun c => { c with trace := some p })
      | (.ok ws, s') => .next (s'.putResult c ws)
    | _ => .next s

/-! ### Grids (R264) -/

/-- A grid: origin and scale as f32 codes, cells per axis, log2 of the subcells, step limit and the two arrays. -/
structure Grid where
  o : List Nat
  k : List Nat
  n : List Nat
  logs : Nat
  maxStep : Nat
  moff : Nat
  doff : Nat
  deriving DecidableEq, Repr

/-- The grid of a descriptor. -/
def Grid.ofNat (x : Nat) : Grid :=
  ⟨wordsOf x 0 3, wordsOf x 96 3, [field x 202 10 + 1, field x 212 10 + 1, field x 222 10 + 1], field x 232 2,
    if field x 256 16 = 0 then 65536 else field x 256 16, field x 288 48, field x 384 48⟩

/-- A reserved field of a grid descriptor is not zero, or an array is misaligned (R257, R264). -/
def gridReserved (x : Nat) : Bool :=
  decide (field x 432 80 ≠ 0 ∨ field x 336 48 ≠ 0 ∨ field x 272 16 ≠ 0 ∨ field x 234 22 ≠ 0 ∨ field x 192 10 ≠ 0 ∨
    field x 384 4 ≠ 0 ∨ field x 288 4 ≠ 0)

/-- The grid gives kind 5: O or K is not finite, or K not positive (R264). -/
def Grid.bad (g : Grid) : Bool :=
  (v3? g.o 0).isNone ||
    match v3? g.k 0 with
    | some k => decide (k.x ≤ 0 ∨ k.y ≤ 0 ∨ k.z ≤ 0)
    | none => true

/-- Majorant cells. -/
def Grid.cells (g : Grid) : Nat := nth 0 g.n 0 * nth 0 g.n 1 * nth 0 g.n 2

/-! ### Marching (R265 to R267) -/

/-- The larger of two f32 codes; of two zeros, which one is free (assumption 15). -/
def maxCode (a b : Nat) : Nat :=
  if (extOf a).lt (extOf b) then b else if (extOf b).lt (extOf a) || Config.tiedZero a b then a else b

/-- The smaller of two f32 codes; of two zeros, which one is free (assumption 15). -/
def minCode (a b : Nat) : Nat :=
  if (extOf b).lt (extOf a) then b else if (extOf a).lt (extOf b) || Config.tiedZero a b then a else b

/-- A quotient of exact values rounded once to f32, with the sign of a zero taken from its operands (R105). -/
def quotient (x d : Rat) : Nat :=
  (Fmt.f32.round Env.engine (decide (x < 0) != decide (d < 0)) (x / d).num.natAbs (x / d).den).1

/-- What stays the same during a march: the ray's words, the grid, og and dg, and tend. -/
structure March where
  ray : List Nat
  g : Grid
  og : List Rat
  dg : List Rat
  tend : Nat

/-- seed, stream and first index of a march's draws (R257). -/
def marchSeed (ray : List Nat) : Nat := nth 0 ray 8 + 2 ^ 32 * nth 0 ray 9

/-- A world coordinate of a result: rne(o + t × d) (R267), the canonical quiet NaN at an infinite distance along a zero
direction (R103). -/
def worldAt (ray : List Nat) (t i : Nat) : Word :=
  let at_ (k : Nat) := Fmt.f32.decode (nth 0 ray k)
  BitVec.ofNat 32 (Fmt.f32.fma Env.engine (Fmt.f32.decode t) (at_ (3 + i)) (at_ i)).1

/-- The VMARCH result (R267). -/
def marchWords (ray : List Nat) (kind t : Nat) (p : MarchPoint) : List Word :=
  let void := decide (kind = 3 ∨ kind = 5)
  let cell := nth 0 p.c 0 + 2 ^ 10 * nth 0 p.c 1 + 2 ^ 20 * nth 0 p.c 2 + 2 ^ 31 * p.exceeded.toNat
  [BitVec.ofNat 32 kind, BitVec.ofNat 32 t] ++
    (if void then [0, 0, 0, 0] else [worldAt ray t 0, worldAt ray t 1, worldAt ray t 2, BitVec.ofNat 32 cell]) ++
    [BitVec.ofNat 32 (nth 0 ray 11), BitVec.ofNat 32 p.idx]

/-- tnext of an axis: where the ray leaves cell `c` along it (R265). -/
def nextPlane (og dg : Rat) (c : Nat) : Nat :=
  if dg = 0 then 0x7F800000 else quotient ((c : Rat) + (if 0 < dg then 1 else 0) - og) dg

/-- The interval of the grid along an axis; none when the ray misses it (R265). -/
def gridAxis (og dg : Rat) (ogCode dgCode n : Nat) : Option (Nat × Nat) :=
  if dg = 0 then (if 0 ≤ og ∧ og < (n : Rat) then some (0xFF800000, 0x7F800000) else none)
  else
    let e := (Fmt.f32.div Env.engine (Fmt.f32.decode ogCode).negate (Fmt.f32.decode dgCode)).1
    let f := quotient ((n : Rat) - og) dg
    some (minCode e f, maxCode e f)

/-- The cell along an axis that holds a position (R265). -/
def cellAt (x : Rat) (lo hi : Nat) : Nat := (clampInt lo hi x.floor).toNat

/-- og of an axis, rne((o - O) × K) (R265): K is positive, so a zero has the sign of the difference, which is -0 only for
-0 and +0 (R105). -/
def gridOrigin (o og k : Nat) : Nat :=
  let x := (ratOf o - ratOf og) * ratOf k
  if x = 0 then (Fmt.f32.add Env.engine (Fmt.f32.decode o) (Fmt.f32.decode og).negate).1 else (rneRat x).toNat

/-- The start of a march: its result when it ends at once, or where it stands (R265). -/
def marchStart (ray : List Nat) (g : Grid) : Except (List Word) (March × MarchPoint) :=
  let tmin := nth 0 ray 6
  let tmax := nth 0 ray 7
  let at0 : MarchPoint := ⟨g.maxStep, tmin, nth 0 ray 11, [0, 0, 0], [0, 0, 0], false, none⟩
  if rayBad ray || g.bad then .error (marchWords ray 5 tmin at0)
  else
    let axes := [0, 1, 2]
    let ogc := axes.map fun i => gridOrigin (nth 0 ray i) (nth 0 g.o i) (nth 0 g.k i)
    let dgc := axes.map fun i => (rneRat (ratOf (nth 0 ray (3 + i)) * ratOf (nth 0 g.k i))).toNat
    if (ogc ++ dgc).any fun w => (Fmt.f32.decode w).isInf then .error (marchWords ray 5 tmin at0)
    else
      let og := ogc.map ratOf
      let dg := dgc.map ratOf
      let ends := axes.map fun i => gridAxis (nth 0 og i) (nth 0 dg i) (nth 0 ogc i) (nth 0 dgc i) (nth 0 g.n i)
      match ends with
      | [some x, some y, some z] =>
        let tin := maxCode (maxCode (maxCode tmin x.1) y.1) z.1
        let tend := minCode (minCode (minCode x.2 y.2) z.2) tmax
        match extOf tin with
        | .fin t =>
          if (extOf tend).le (extOf tin) then .error (marchWords ray 3 tmin at0)
          else
            let c := axes.map fun i => cellAt (nth 0 og i + t * nth 0 dg i) 0 (nth 0 g.n i - 1)
            let tn := axes.map fun i => nextPlane (nth 0 og i) (nth 0 dg i) (nth 0 c i)
            .ok (⟨ray, g, og, dg, tend⟩, { at0 with ta := tin, c := c, tnext := tn })
        | _ => .error (marchWords ray (if (extOf tend).le (extOf tin) then 3 else 5) tmin at0)
      | _ => .error (marchWords ray 3 tmin at0)

/-- A lower bound of ln 2 in units of 2^-p; it is less than `p + 2` units below (R265). -/
def ln2Below (p : Nat) : Nat := ((List.range p).map fun j => 2 ^ p / ((j + 1) * 2 ^ (j + 1))).sum

/-- s = rne(-ln(1 - xi) / m), xi being `k` × 2^-24 (R265). -/
def freePath (k m : Nat) : Nat :=
  if k = 0 then 0
  else
    let d := 2 ^ 24 - k
    let n := floorLog2 (2 ^ 24) d
    let r := ratOf m
    (Fmt.f32.roundEnclosed Env.engine false (fun p =>
      let e := log2Fraction p (2 ^ 24) d n
      ⟨(n.toNat * e.den + e.lo) * ln2Below p * r.den, (n.toNat * e.den + e.hi) * (ln2Below p + p + 2) * r.den,
        e.den * 2 ^ p * r.num.natAbs⟩) precisions).1

/-- How a march goes on after a step: it has ended, waits on a failed read, or stands at a new point. -/
inductive MarchStep where
  | done (words : List Word)
  | fails (e : EngineFail)
  | on (p : MarchPoint)

/-- The march leaves its cell at `tb` (R265). -/
def March.leave (m : March) (p : MarchPoint) (tb : Nat) : MarchStep :=
  let p := { p with inside := none }
  let reached := decide (Fmt.f32.decode tb = Fmt.f32.decode m.tend) || ((extOf tb).le (extOf m.tend) && (extOf m.tend).le (extOf tb))
  if reached then
    let tmax := nth 0 m.ray 7
    let atMax := (extOf m.tend).le (extOf tmax) && (extOf tmax).le (extOf m.tend)
    .done (marchWords m.ray (if atMax then 1 else 2) m.tend p)
  else
    let tn (i : Nat) : Ext := extOf (nth 0 p.tnext i)
    let i := if (tn 0).le (tn 1) && (tn 0).le (tn 2) then 0 else if (tn 1).le (tn 2) then 1 else 2
    let up := decide (0 < nth 0 m.dg i)
    let c := nth 0 p.c i
    if (up && decide (nth 0 m.g.n i ≤ c + 1)) || (!up && decide (c = 0)) then .done (marchWords m.ray 2 tb p)
    else
      let c' := if up then c + 1 else c - 1
      .on { p with
        ta := tb, c := setNth p.c i c'
        tnext := setNth p.tnext i (nextPlane (nth 0 m.og i) (nth 0 m.dg i) c') }

/-- A cell is entered: its majorant is read (R265). -/
def March.enterCell (m : March) (s : State) (c : ContRec) (cap : Cap) (p : MarchPoint) : MarchStep × State :=
  let g := m.g
  let tb := minCode (minCode (minCode (nth 0 p.tnext 0) (nth 0 p.tnext 1)) (nth 0 p.tnext 2)) m.tend
  let index := (nth 0 p.c 2 * nth 0 g.n 1 + nth 0 p.c 1) * nth 0 g.n 0 + nth 0 p.c 0
  match s.rayRead c cap (g.moff + 4 * index) 4 with
  | (.error e, s') => (.fails e, s')
  | (.ok none, s') => (.done (marchWords m.ray 5 p.ta p), s')
  | (.ok (some x), s') =>
    match f32Rat? x with
    | none => (.done (marchWords m.ray 5 p.ta p), s')
    | some v =>
      if v < 0 then (.done (marchWords m.ray 5 p.ta p), s')
      else if v ≠ 0 ∧ (extOf p.ta).lt (extOf tb) then (.on { p with inside := some (x, tb) }, s')
      else (m.leave p tb, s')

/-- A collision is sampled in a cell of majorant `x`, left at `tb` (R265). -/
def March.sampleCell (m : March) (s : State) (c : ContRec) (cap : Cap) (p : MarchPoint) (x tb : Nat) : MarchStep × State :=
  let g := m.g
  let xi (idx : Nat) : Nat := drawXi (marchSeed m.ray) (nth 0 m.ray 10) idx
  let t := (Fmt.f32.add Env.engine (Fmt.f32.decode p.ta) (Fmt.f32.decode (freePath (xi p.idx) x))).1
  let i1 := (p.idx + 1) % 2 ^ 32
  if (extOf tb).le (extOf t) then (m.leave { p with idx := i1 } tb, s)
  else
    let sub : Nat := 2 ^ g.logs
    let q (i : Nat) : Nat := cellAt ((nth 0 m.og i + ratOf t * nth 0 m.dg i) * (sub : Rat)) (sub * nth 0 p.c i) (sub * nth 0 p.c i + sub - 1)
    let index := (q 2 * (sub * nth 0 g.n 1) + q 1) * (sub * nth 0 g.n 0) + q 0
    match s.rayRead c cap (g.doff + 4 * index) 4 with
    | (.error e, s') => (.fails e, s')
    | (.ok none, s') => (.done (marchWords m.ray 5 p.ta { p with idx := i1 }), s')
    | (.ok (some d), s') =>
      let sigma : Ext := match ext? d with
        | some y => if y.lt (.fin 0) then .fin 0 else y
        | none => .fin 0
      let p1 := { p with idx := (p.idx + 2) % 2 ^ 32, exceeded := p.exceeded || (extOf x).lt sigma }
      if (Ext.fin (mkRat (xi i1 : Int) (2 ^ 24) * ratOf x)).lt sigma then (.done (marchWords m.ray 0 t p1), s')
      else (.on { p1 with ta := t }, s')

/-- One call of step() and the work up to the next one, from a point (R265). -/
def March.step (m : March) (s : State) (c : ContRec) (cap : Cap) (p : MarchPoint) : MarchStep × State :=
  if p.left = 0 then (.done (marchWords m.ray 4 p.ta p), s)
  else
    let p1 := { p with left := p.left - 1 }
    match p.inside with
    | none => m.enterCell s c cap p1
    | some (x, tb) => m.sampleCell s c cap p1 x tb

/-- VMARCH (R257, R423, R430). -/
def execVmarch (f : ShDAB) (s : State) : Host.Outcome State Fault Refusal :=
  executeEnding (.vmarch f) f.d (do
    M.inAllocation (.vmarch f) false
    M.liveNamed
    let r ← M.rod
    let x := (r.sreg (sIndex f.b)).toNat
    M.reservedIn (decide (field x 4 12 ≠ 0 ∨ field x 36 28 ≠ 0))
    let cells ← M.descriptor (field x 16 20) 4
    let desc : BitVec 512 := nth 0 cells 3 ++ nth 0 cells 2 ++ nth 0 cells 1 ++ nth 0 cells 0
    M.reservedIn (gridReserved desc.toNat)
    let g := Grid.ofNat desc.toNat
    let cap := r.cap (field x 0 4)
    let rights : Rights := { rd := true, e := true }
    M.checkCap (r.firstBead false) cap rights g.moff (4 * g.cells)
    M.checkCap (r.firstBead false) cap rights g.doff (4 * g.cells * 8 ^ g.logs)
    pure fun r k => pure (.march cap desc (r.vgroup k f.a 12))) s

/-- MARCH_RESULT (R265 to R268): the march unit makes one call of step(); at the end of the march it writes the result area,
and the record becomes ready. -/
def execMarchResult (record : Nat) (s : State) : Host.Outcome State Fault Refusal :=
  match s.unitWork record with
  | none => .next s
  | some c =>
    match c.req with
    | .march cap desc ray =>
      match marchStart (ray.map BitVec.toNat) (Grid.ofNat desc.toNat) with
      | .error ws => .next (s.putResult c ws)
      | .ok (m, start) =>
        let p := c.point.getD start
        match m.step s c cap p with
        | (.done ws, s') => .next (s'.putResult c ws)
        | (.fails e, s') => .next ((s'.unitFails c e).modCont c.uid fun c => { c with point := some p })
        | (.on q, s') => .next (s'.modCont c.uid fun c => { c with point := some q })
    | _ => .next s

/-- A save stops a march at its next call of step(), or at the one in progress, with kind 4 (R268); no rod is formed, and
what a read of it waited for has no effect. -/
def State.stopMarch (t : State) (c : ContRec) : State :=
  let s := { t with fabricWaits := t.fabricWaits.filter fun w => decide (w.who ≠ Walker.unit_ c.uid) }
  match c.req with
  | .march _ desc ray =>
    match marchStart (ray.map BitVec.toNat) (Grid.ofNat desc.toNat) with
    | .error ws => s.writeResult c ws
    | .ok (m, start) =>
      let p := c.point.getD start
      s.writeResult c (marchWords m.ray 4 p.ta p)
  | _ => t

/-- The point at which a march stands once its read has failed: a density is read after the draw of its distance
(R265, R267). -/
def MarchPoint.afterRead (p : MarchPoint) : MarchPoint :=
  if p.inside.isSome then { p with idx := (p.idx + 1) % 2 ^ 32 } else p

/-- A unit's page fault was resolved with FAIL: status 2, kind 5, or free texels (R268, R423, assumption 14). -/
def State.failUnit (s : State) (c : ContRec) : State :=
  match c.req with
  | .tex _ _ _ _ _ _ _ => s.putResult c ((List.range 4).map fun i => Config.freeTexel i)
  | .trace _ _ _ _ => s.putResult c (missWords 2 ((c.trace.map TracePoint.visits).getD 0))
  | .march _ desc ray =>
    let ws := ray.map BitVec.toNat
    match marchStart ws (Grid.ofNat desc.toNat) with
    | .error x => s.putResult c x
    | .ok (_, start) => s.putResult c (marchWords ws 5 (c.point.getD start).ta (c.point.getD start).afterRead)

end Sys2Proof.Machine
end

