-- ==== Sys2Proof/Machine/Policy.lean ====
section
/-!
DEFINITION. The dispatch cores: the loop of the shipped firmware, the operations on a launch queue's header, and the
bind port (R269, R272 to R274, R278 to R281).
-/

namespace Sys2Proof.Machine

/-! ### Contexts and heads -/

/-- A descriptor with V = 1 is malformed (R269). -/
def State.ctxBad (s : State) (asid : Nat) : Bool :=
  let f := s.ctxField asid
  decide (f 448 20 ≠ 0 ∨ f 432 16 ≠ 0 ∨ f 368 16 ≠ 0 ∨ f 304 16 ≠ 0 ∨ f 240 16 ≠ 0 ∨ f 176 16 ≠ 0 ∨ f 52 8 = 0 ∨
    f 0 52 % 2 ^ 21 ≠ 0 ∨ f 64 48 % 128 ≠ 0 ∨ f 128 48 % 16 ≠ 0 ∨ f 192 48 % 8 ≠ 0 ∨ f 256 48 % 128 ≠ 0 ∨
    f 320 48 % 4096 ≠ 0 ∨ f 384 48 % 4 ≠ 0)

/-- The context can be served: it exists, is well formed and is not halted (R269, R293). -/
def State.servable (s : State) (asid : Nat) : Bool := s.ctxValid asid && !s.ctxBad asid && !s.halted asid

/-- WEIGHT (R269). -/
def State.ctxWeight (s : State) (asid : Nat) : Nat := s.ctxField asid 52 8

/-- A launch queue as a dispatch core finds it: there is none, its header is malformed, with the 16 bytes that the event
gives, or its device virtual and physical header addresses and its header (R270, R278, R324). -/
inductive QueueView where
  | absent
  | bad (data : Nat)
  | ok (hva h : Nat) (q : Queue)
  deriving DecidableEq, Repr

/-- A launch queue of a context. An entry of QBASE that can name no header counts as a malformed one, and the entry is its
data. -/
def State.viewQueue (s : State) (asid queue : Nat) : QueueView × State :=
  match s.engineVa asid (s.ctxField asid 192 48 + 8 * queue) false with
  | (.error _, s') => (.absent, s')
  | (.ok a, s') =>
    let hva := s'.natAt a 8
    if hva = 0 then (.absent, s')
    else if hva % 128 ≠ 0 ∨ 2 ^ 48 ≤ hva then (.bad hva, s')
    else
      match s'.engineVa asid hva true with
      | (.error _, s2) => (.absent, s2)
      | (.ok h, s2) => (if (s2.queueAt h).bad true then .bad (s2.natAt h 16) else .ok hva h (s2.queueAt h), s2)

/-- The head record of a launch queue (R278): the value of HEAD, the record and its address, the first frame not yet
claimed, whether all are, and the recent write of TAIL that published the record, if there is one. -/
structure Head where
  asid : Nat
  queue : Nat
  h : Nat
  lrec : Nat
  record : Nat
  nextf : Nat
  claimed : Bool
  write : Option WriteRec
  deriving DecidableEq, Repr

/-- The launch record of a head. -/
def Head.launch (x : Head) : LaunchRec := LaunchRec.ofNat x.record

/-- The recent write of TAIL that published record `n` of the queue at a header: the first after which TAIL is past it. -/
def State.publisher (s : State) (h n : Nat) : Option WriteRec :=
  let ws := s.touching h 8
  let tail (i : Nat) : Nat := natOfBytes ((List.range 8).map fun k => s.byteWithout (ws.drop i) (h + k))
  match (List.range (ws.length + 1)).find? fun i => decide (n < tail i) with
  | some (i + 1) => ws[i]?
  | _ => none

/-- The releases of whoever published a head (R164, R273). -/
def Head.stamps (x : Head) : List Stamp := (x.write.map WriteRec.stamps).getD []

/-- The head record of a queue, if it has one. -/
def State.headOf (s : State) (asid queue : Nat) : Option Head × State :=
  match s.viewQueue asid queue with
  | (.ok hva h q, s') =>
    if q.count = 0 then (none, s')
    else
      let va := hva + q.recordAt q.head
      match s'.recordVa asid va with
      | (none, s2) => (none, s2)
      | (some x, s2) =>
        (some ⟨asid, queue, q.head, va % 2 ^ 48, x, q.nextf, decide (q.claimed = 1), s2.publisher h q.head⟩, s2)
  | (_, s') => (none, s')

/-- The heads of some queues. -/
def State.headsOf (s : State) : List (Nat × Nat) → List Head × State
  | [] => ([], s)
  | (a, q) :: rest =>
    let (x, s1) := s.headOf a q
    let (xs, s2) := s1.headsOf rest
    (x.toList ++ xs, s2)

/-- The device whose queue received a record of `n` devices first (R273): this one where a LAUNCH of its own posted it, or
where the extent is one device. -/
def State.extentFirst (s : State) (asid queue h devM1 : Nat) : Nat :=
  if devM1 = 0 ∨ s.launched.contains (asid, queue, h) then s.endpoint else Config.firstDevice asid queue h % 4096

/-- A dispatch core has read the head record and accepted it (R272). -/
def State.wasAccepted (s : State) (x : Head) : Bool := s.dispatch.any fun d => d.accepted.contains (x.asid, x.queue, x.h)

/-- A head record is refused (R272). -/
def State.headRefused (s : State) (x : Head) : Bool × State :=
  let l := x.launch
  if l.refused (s.ctxField x.asid 60 3) then (true, s)
  else if l.dw then
    match s.doneCap x.asid l.doneh l.doneoff with
    | (c, s') => (c.isNone, s')
  else (false, s)

/-! ### The dispatch cores -/

/-- The dispatch core of a table. -/
def State.disp? (s : State) (table : Nat) : Option Dispatch := s.dispatch.find? fun d => decide (d.table = table)

/-- A dispatch core is changed. -/
def State.modDisp (s : State) (table : Nat) (f : Dispatch → Dispatch) : State :=
  { s with dispatch := s.dispatch.map fun d => if d.table = table then f d else d }

/-- A dispatch core as the firmware starts it. -/
def Dispatch.start (table : Nat) : Dispatch := ⟨table, .loop, [], none, [], [], [], [], none, none, [], [], [], false⟩

/-- The credit of a context (R278). -/
def Dispatch.creditOf (d : Dispatch) (asid : Nat) : Int :=
  match d.credit.find? (fun c => decide (c.1 = asid)) with
  | some c => c.2
  | none => 0

/-- The cycle at which a head became the head (R278): when HEAD reached it, and not before it was published. -/
def Dispatch.since (d : Dispatch) (now : Nat) (x : Head) : Nat :=
  match d.ages.find? (fun a => decide (a.1 = (x.asid, x.queue) ∧ a.2.1 = x.h)) with
  | some a => max a.2.2 ((x.write.map WriteRec.clk).getD 0)
  | none => (x.write.map WriteRec.clk).getD now

/-- The age of a head in cycles (R278). -/
def Dispatch.age (d : Dispatch) (now : Nat) (x : Head) : Nat := now - d.since now x

/-- The effective priority of a head (R278). -/
def Dispatch.eff (d : Dispatch) (now : Nat) (x : Head) : Nat := min 7 (x.launch.pri + d.age now x / 262144)

/-- The first number of a rising list after `last`, or the first of all. -/
def firstAfter (last : Option Nat) (xs : List Nat) : Option Nat :=
  match last with
  | none => xs.head?
  | some l => (xs.find? fun x => decide (l < x)).or xs.head?

/-! ### The choice of a core (R280) -/

/-- The frames of a launch, by its record's address while frames of it are still to bind. -/
def State.framesOfLaunch (s : State) (asid lrec : Nat) : List Frame :=
  match s.launches.find? (fun x => decide (x.asid = asid ∧ x.lrec = lrec ∧ x.unbound ≠ 0)) with
  | none => []
  | some x => s.frames.filter fun f => decide (f.launch = x.uid)

/-- The board of the table that holds a frame of the launch. -/
def State.boardOfFrame (s : State) (table asid lrec f : Nat) : Option Nat :=
  ((s.framesOfLaunch asid lrec).find? fun x => decide (x.frameid.toNat = f ∧ tableOf x.core = table)).map fun x => boardOf x.core

/-- A core can bind a frame of the launch. -/
def State.canBind (s : State) (asid : Nat) (l : LaunchRec) (core : Nat) : Bool :=
  (s.placeOn core asid (l.rodsM1 + 1) l.words l.cells l.wn).isSome

/-- The boards of a table. -/
def tableBoards (t : Nat) : List Nat := [4 * t, 4 * t + 1, 4 * t + 2, 4 * t + 3]

/-- Free rod slots of a board. -/
def State.boardSlots (s : State) (b : Nat) : Nat := ((boardCores b).map s.slotsLeft).sum

/-- The element with the most of something, the first on a tie. -/
def most (key : Nat → Nat) : List Nat → Option Nat
  | [] => none
  | x :: xs =>
    match most key xs with
    | none => some x
    | some y => if key x < key y then some y else some x

/-- The board is kept for another head (R281). -/
def Dispatch.keeps (d : Dispatch) (asid queue b : Nat) : Bool :=
  match d.reserved with
  | some (a, q, r) => decide (r = b ∧ (a ≠ asid ∨ q ≠ queue))
  | none => false

/-- The core that R280 takes for frame `f`; `first` is the first frame of its group. -/
def State.chooseCore (s : State) (d : Dispatch) (asid queue lrec : Nat) (l : LaunchRec) (first f : Nat) : Option Nat :=
  let near := s.boardOfFrame d.table asid lrec (f - 1)
  let near := if f = 0 then none else near
  if l.gang then
    let able (b : Nat) : Bool := !d.keeps asid queue b && (boardCores b).all (s.canBind asid l)
    let board := if first < f then d.board else
      match near with
      | some b => if able b then some b else most s.boardSlots ((tableBoards d.table).filter able)
      | none => most s.boardSlots ((tableBoards d.table).filter able)
    match board with
    | some b => if s.canBind asid l (4 * b + f % 4) then some (4 * b + f % 4) else none
    | none => none
  else
    let cores (b : Nat) : List Nat := if d.keeps asid queue b then [] else (boardCores b).filter (s.canBind asid l)
    let able (b : Nat) : Bool := !(cores b).isEmpty
    let board := match near with
      | some b => if able b then some b else most s.boardSlots ((tableBoards d.table).filter able)
      | none => most s.boardSlots ((tableBoards d.table).filter able)
    match board with
    | some b => most s.slotsLeft (cores b)
    | none => none

/-- The bind record that the dispatch core writes for a frame, and the core it writes it to; none when no core of the
table can bind it (R274, R280). -/
def State.plan (s : State) (d : Dispatch) (asid queue lrec : Nat) (l : LaunchRec) (first f : Nat) : Option (Nat × BindRec) :=
  match s.chooseCore d asid queue lrec l first f with
  | none => none
  | some core =>
    match s.placeOn core asid (l.rodsM1 + 1) l.words l.cells l.wn with
    | none => none
    | some p =>
      some (core, ⟨l.kpc, f, asid, l.rodsM1, l.beadsM1, l.allocM1, p.l0, l.wn, p.w0, l.mode, l.fmt, lrec,
        (p.bases.zip l.cells).map fun (b, n) => ⟨BitVec.ofNat 20 n, BitVec.ofNat 20 b⟩, s.config.devid.toNat, 0⟩)

/-- The launch-record address of a queue's record number, as far as the queue can be read. -/
def State.recordAddr (s : State) (asid queue h : Nat) : Nat :=
  match s.viewQueue asid queue with
  | (.ok hva _ q, _) => (hva + q.recordAt h) % 2 ^ 48
  | _ => 0

/-- What the dispatch core writes next in its bind phase. -/
def State.planOf (s : State) (d : Dispatch) : Option (Nat × BindRec) :=
  match d.phase with
  | .bind asid q h rec first next _ =>
    if !s.servable asid then none
    else s.plan d asid q (s.recordAddr asid q h.toNat) (LaunchRec.ofNat rec.toNat) first next
  | _ => none

/-! ### The loop (R278, R281) -/

/-- A header is malformed: the data of its event. -/
def QueueView.badData : QueueView → Option Nat
  | .bad x => some x
  | _ => none

/-- A header is well formed. -/
def QueueView.wellFormed : QueueView → Bool
  | .ok _ _ _ => true
  | _ => false

/-- The queues of the served contexts as the dispatch core finds them. -/
def State.queueViews (s : State) : List (Nat × Nat) → List ((Nat × Nat) × QueueView) × State
  | [] => ([], s)
  | (a, q) :: rest =>
    let (v, s1) := s.viewQueue a q
    let (xs, s2) := s1.queueViews rest
    (((a, q), v) :: xs, s2)

/-- Malformed descriptors and headers are logged once each (R269, R278): a header again only once it has been found well
formed, or its context's descriptor has become valid again. The layout of R324 gives the queue number that R278 names no
field (assumption 83). -/
def State.logBad (s : State) (table : Nat) (ctxs : List Nat) (views : List ((Nat × Nat) × QueueView)) : State :=
  match s.disp? table with
  | none => s
  | some d =>
    let s1 := (ctxs.filter fun a => !d.badCtx.contains a).foldl
      (fun (s : State) a => s.logEvent Event.ctxBadDesc package a (s.ctxField a 0 128)) s
    let fresh := views.filter fun v => v.2.badData.isSome && !d.badHeads.contains v.1
    let s2 := fresh.foldl (fun (s : State) v => s.logEvent Event.queueBadHeader package v.1.1 (v.2.badData.getD 0)) s1
    let kept := d.badHeads.filter fun q => views.any fun v => decide (v.1 = q) && !v.2.wellFormed
    s2.modDisp table fun d => { d with badCtx := ctxs, badHeads := kept ++ fresh.map Prod.fst }

/-- The first refused head of a list, of those that no dispatch core has accepted (R272). -/
def State.firstRefused (s : State) : List Head → Option Head × State
  | [] => (none, s)
  | x :: xs =>
    match (if s.wasAccepted x then (false, s) else s.headRefused x) with
    | (true, s1) => (some x, s1)
    | (false, s1) => s1.firstRefused xs

/-- Credits and ages as the loop brings them up to date (R278). -/
def Dispatch.update (d : Dispatch) (s : State) (live : List Nat) (heads : List Head) : Dispatch :=
  { d with
    credit := live.map fun a =>
      match d.credit.find? (fun c => decide (c.1 = a)) with
      | some c => c
      | none => (a, (s.ctxWeight a : Int))
    ages := heads.map fun x => ((x.asid, x.queue), (x.h, d.since s.now x))
    accepted := heads.map fun x => (x.asid, x.queue, x.h)
    blocked := d.blocked.filter fun b => heads.any fun x =>
      decide ((x.asid, x.queue) = b) &&
        (s.chooseCore d x.asid x.queue x.lrec x.launch x.nextf x.nextf).isNone
    reserved := match d.reserved with
      | some (a, q, b) => if heads.any fun x => decide (x.asid = a ∧ x.queue = q) then some (a, q, b) else none
      | none => none }

/-- Every context receives its WEIGHT again. -/
def Dispatch.refill (d : Dispatch) (s : State) : Dispatch :=
  { d with credit := d.credit.map fun c => (c.1, (s.ctxWeight c.1 : Int)) }

/-- The head that the loop serves, and the dispatch core with its credits as the choice leaves them. -/
def Dispatch.choose (d : Dispatch) (s : State) (heads : List Head) : Option Head × Dispatch :=
  let open_ := heads.filter fun x => !x.claimed && !d.blocked.contains (x.asid, x.queue)
  let p := (open_.map (d.eff s.now)).foldl max 0
  let top := open_.filter fun x => decide (d.eff s.now x = p)
  let rich (d : Dispatch) : List Head := top.filter fun x => decide (0 < d.creditOf x.asid)
  let d1 := if (rich d).isEmpty && !top.isEmpty then d.refill s else d
  match firstAfter d1.lastAsid ((rich d1).map Head.asid) with
  | none => (none, d1)
  | some a =>
    let mine := (rich d1).filter fun x => decide (x.asid = a)
    let last := (d1.lastQueue.find? fun q => decide (q.1 = a)).map Prod.snd
    match firstAfter last (mine.map Head.queue) with
    | none => (none, d1)
    | some q => (mine.find? fun x => decide (x.queue = q), d1)

/-- The dispatch core as it begins to bind a held claim, for which the loop charges nothing (R278). -/
def Dispatch.takeHeld (d : Dispatch) (x : HeldClaim) : Dispatch :=
  { d with
    phase := .bind x.asid x.q x.h x.record x.first x.next false
    board := x.board
    charged := true
    held := d.held.filter fun y => decide (y ≠ x) }

/-- The oldest held claim of which a core can bind the next frame. -/
def State.bindable (s : State) (d : Dispatch) : Option HeldClaim :=
  d.held.find? fun x => (s.planOf (d.takeHeld x)).isSome

/-- One pass of the loop: held claims come first, and while there are any, no other claim is made (R278, R279). -/
def State.dispatchPass (s : State) (table : Nat) : State :=
  let ctxs := (List.range 1024).filter s.ctxValid
  let live := ctxs.filter fun a => !s.ctxBad a
  let queues := live.flatMap fun a => (List.range 16).map fun q => (a, q)
  let (views, s1) := s.queueViews queues
  let s2 := s1.logBad table (ctxs.filter s.ctxBad) views
  let (heads, s3) := s2.headsOf ((views.filter fun v => !s.halted v.1.1 && v.2.wellFormed).map Prod.fst)
  match s3.firstRefused heads with
  | (some x, s4) => s4.modDisp table fun d => { d with phase := .pass x.asid x.queue (BitVec.ofNat 64 x.h) }
  | (none, s4) =>
    let s5 := s4.modDisp table fun d => d.update s4 live heads
    match s5.disp? table with
    | none => s5
    | some d =>
      if !d.held.isEmpty then
        match s5.bindable d with
        | some x => s5.modDisp table fun _ => d.takeHeld x
        | none => s5
      else
        let (c, d1) := d.choose s5 heads
        match c with
        | none => s5.modDisp table fun _ => d1
        | some x =>
          match s5.chooseCore d1 x.asid x.queue x.lrec x.launch x.nextf x.nextf with
          | none => s5.modDisp table fun _ => { d1 with blocked := (x.asid, x.queue) :: d1.blocked }
          | some _ => s5.modDisp table fun _ => { d1 with
              phase := .claim x.asid x.queue (BitVec.ofNat 64 x.h) (BitVec.ofNat 2048 x.record) }

/-- DISPATCH_LOOP (R278): a pass of the loop, or the release of a claim that no core can bind. -/
def execDispatchLoop (table : Nat) (s : State) : Host.Outcome State Fault Refusal :=
  match s.disp? table with
  | none => .next s
  | some d =>
    match d.phase with
    | .loop => .next (s.dispatchPass table)
    | .bind asid q h rec first next _ =>
      if (s.planOf d).isSome then .next s
      else .next (s.modDisp table fun d => { d with phase := .release asid q h rec first next })
    | _ => .next s

/-! ### Claims, releases and counts (R279) -/

/-- The header of a launch queue whose HEAD is `h`, with its physical address. -/
def State.headerAt (s : State) (asid queue h : Nat) : Option (Nat × Queue) × State :=
  match s.viewQueue asid queue with
  | (.ok _ a q, s') => (if q.head = h then some (a, q) else none, s')
  | (_, s') => (none, s')

/-- NEXTF, BOUND and CLAIMED are written. -/
def State.setClaims (s : State) (a nextf bound claimed : Nat) : State :=
  ((s.homeWriteNat (a + 16) 4 nextf).homeWriteNat (a + 20) 4 bound).homeWriteNat (a + 28) 1 claimed

/-- The phase in which the dispatch core binds a claimed frame, or only counts one of another device (R273). -/
def State.bindPhase (s : State) (asid q : Nat) (h : Dword) (rec : BitVec 2048) (first next : Nat) : DispPhase :=
  let l := LaunchRec.ofNat rec.toNat
  if s.ownFrame (s.extentFirst asid q h.toNat l.devM1) l.devM1 next then .bind asid q h rec first next false
  else .count asid q h rec first next

/-- QUEUE_CLAIM (R279). -/
def execQueueClaim (table asid queue : Nat) (h : BitVec 64) (s : State) : Host.Outcome State Fault Refusal :=
  match s.disp? table with
  | none => .next s
  | some d =>
    match d.phase with
    | .claim a q h' rec =>
      if a ≠ asid ∨ q ≠ queue ∨ h' ≠ h then .next s
      else
        let l := LaunchRec.ofNat rec.toNat
        let back (s : State) : State := s.modDisp table fun d => { d with phase := .loop }
        match s.headerAt asid queue h.toNat with
        | (none, s') => .next (back s')
        | (some (a, q), s') =>
          if q.claimed = 1 then .next (back s')
          else
            let f := q.nextf
            let s1 := if f + l.step - 1 = l.framesM1 then s'.setClaims a f q.bound 1 else s'.setClaims a (f + l.step) q.bound 0
            .next (s1.modDisp table fun d => { d with phase := s1.bindPhase asid queue h rec f f, board := none })
    | _ => .next s

/-- A claim of `n` frames of a queue is at its end: the loop goes on with the credit charged, once for a claim (R278). -/
def Dispatch.served (d : Dispatch) (asid q n : Nat) : Dispatch :=
  if d.charged then { d with phase := .loop, charged := false }
  else { d with
    phase := .loop
    credit := d.credit.map fun c => if c.1 = asid then (c.1, c.2 - (n : Int)) else c
    lastAsid := some asid
    lastQueue := (asid, q) :: d.lastQueue.filter fun x => decide (x.1 ≠ asid) }

/-- The dispatch core keeps a claim that cannot be released (R279). -/
def Dispatch.holdClaim (d : Dispatch) (asid queue : Nat) (h : Dword) (rec : BitVec 2048) (first next : Nat) : Dispatch :=
  { d with held := d.held ++ [⟨asid, queue, h, rec, first, next, d.board⟩] }

/-- QUEUE_RELEASE (R279). -/
def execQueueRelease (table asid queue : Nat) (h : BitVec 64) (first : Nat) (s : State) : Host.Outcome State Fault Refusal :=
  match s.disp? table with
  | none => .next s
  | some d =>
    match d.phase with
    | .release a q h' rec f next =>
      if a ≠ asid ∨ q ≠ queue ∨ h' ≠ h ∨ f ≠ first then .next s
      else
        let l := LaunchRec.ofNat rec.toNat
        let back (s : State) : State := s.modDisp table fun d => d.served asid queue l.step
        let keep (s : State) : State := s.modDisp table fun d => (d.served asid queue l.step).holdClaim asid queue h rec f next
        if next ≠ f then .next (keep s)
        else
        match s.headerAt asid queue h.toNat with
        | (none, s') => .next (back s')
        | (some (a, q), s') =>
          if q.claimed = 1 ∧ f + l.step - 1 = l.framesM1 ∧ q.nextf = f then .next (back (s'.setClaims a q.nextf q.bound 0))
          else if q.claimed = 0 ∧ q.nextf = f + l.step then .next (back (s'.setClaims a f q.bound 0))
          else .next (keep s')
    | _ => .next s

/-- A frame of a claim is counted: the next of its group follows, or the loop goes on with the credit charged
(R278). -/
def State.counted (s : State) (d : Dispatch) (asid q : Nat) (h : Dword) (rec : BitVec 2048) (first next : Nat) : State :=
  let l := LaunchRec.ofNat rec.toNat
  if next + 1 < first + l.step then s.modDisp d.table fun d => { d with phase := s.bindPhase asid q h rec first (next + 1) }
  else s.modDisp d.table fun d => d.served asid q l.step

/-- HEAD of a launch queue moves past record `h`, with a release at dev scope: the next record is the head from now on (R272,
R278, R279). -/
def State.passHead (s : State) (asid queue a : Nat) (h : Dword) : State :=
  { s.releaseHead a (h + 1).toNat with
    dispatch := s.dispatch.map fun d => { d with
      ages := ((asid, queue), ((h + 1).toNat, s.now)) :: d.ages.filter fun x => decide (x.1 ≠ (asid, queue)) }
    launched := s.launched.filter fun x => decide (x ≠ (asid, queue, h.toNat)) }

/-- QUEUE_BOUND (R279): one frame is counted; the last one moves HEAD. -/
def execQueueBound (asid queue : Nat) (h : BitVec 64) (s : State) : Host.Outcome State Fault Refusal :=
  let mine := s.dispatch.find? fun d =>
    match d.phase with
    | .count a q h' _ _ _ => decide (a = asid ∧ q = queue ∧ h' = h)
    | _ => false
  match mine with
  | none => .next s
  | some d =>
    match d.phase with
    | .count _ _ _ rec first next =>
      let l := LaunchRec.ofNat rec.toNat
      match s.headerAt asid queue h.toNat with
      | (none, s') => .next (s'.counted d asid queue h rec first next)
      | (some (a, q), s') =>
        let s1 :=
          if q.bound = l.framesM1 then (s'.setClaims a 0 0 0).passHead asid queue a h
          else s'.setClaims a q.nextf (q.bound + 1) q.claimed
        .next (s1.counted d asid queue h rec first next)
    | _ => .next s

/-- QUEUE_PASS (R272, R279): a refused record is logged and passed, and its completion word receives 2. The layout of R324
gives the queue number that R272 names no field (assumption 83). -/
def execQueuePass (asid queue : Nat) (h : BitVec 64) (s : State) : Host.Outcome State Fault Refusal :=
  let mine (d : Dispatch) : Bool := decide (d.phase = .pass asid queue h)
  let left := s.dispatch.any mine
  if !left then .next s
  else
    let s1 := { s with dispatch := s.dispatch.map fun d => if mine d then { d with phase := .loop } else d }
    match s1.headerAt asid queue h.toNat with
    | (none, s2) => .next s2
    | (some (a, _), s2) =>
      match s2.headOf asid queue with
      | (none, s3) => .next s3
      | (some x, s3) =>
        let l := x.launch
        match (if l.dw then s3.writeDone asid l.doneh l.doneoff 2 else (true, s3)) with
        | (false, s4) => .next { s with dirReqs := s4.dirReqs }
        | (true, s4) => .next ((s4.logEvent Event.launchBadRecord package asid (x.record % 2 ^ 128)).passHead asid queue a h)

/-- BIND_RECORD: a bind record is written to a core's bind port, and the dispatch core of its table reads the status
(R274, R278). -/
def execBindRecord (core : Nat) (rec : BitVec 512) (s : State) : Host.Outcome State Fault Refusal :=
  let b := BindRec.ofNat rec.toNat
  let table := tableOf core
  let d := (s.disp? table).getD (Dispatch.start table)
  match d.phase with
  | .bind asid q h x first next retried =>
    if s.planOf d = some (core, b) then
      let l := LaunchRec.ofNat x.toNat
      let stamps := ((s.headOf asid q).1.map Head.stamps).getD []
      match s.bind core (s.ownFrames (s.extentFirst asid q h.toNat l.devM1) l) stamps b with
      | (0, s') => .next (s'.modDisp table fun d => { d with
          phase := .count asid q h x first next
          board := some (boardOf core)
          reserved := if d.reserved = some (asid, q, boardOf core) then none else d.reserved })
      | (_, s') => .next (s'.modDisp table fun d => { d with
          phase := if retried then .release asid q h x first next else .bind asid q h x first next true })
    else .next s
  | _ =>
    if !s.servable b.asid then .next s
    else
      match s.recordVa b.asid b.lrec with
      | (none, s') => .next s'
      | (some x, s') => .next (s'.bind core ((LaunchRec.ofNat x).framesM1 + 1) [] b).2

/-- BOARD_RESERVATION (R281): a head that has waited long at effective priority 7 for want of room reserves the board
with the most free slots. -/
def execBoardReservation (table : Nat) (s : State) : Host.Outcome State Fault Refusal :=
  match s.disp? table with
  | none => .next s
  | some d =>
    if d.reserved.isSome then .next s
    else
      let (heads, s1) := s.headsOf d.blocked
      match heads.find? fun x => decide ((7 - x.launch.pri) * 262144 + 2 ^ 20 ≤ d.age s.now x) with
      | none => .next s1
      | some x =>
        match most s.boardSlots (tableBoards table) with
        | none => .next s1
        | some b => .next (s1.modDisp table fun d => { d with reserved := some (x.asid, x.queue, b) })

end Sys2Proof.Machine
end

