-- ==== Sys2Proof/Machine/Traps.lean ====
section
/-!
DEFINITION. What befalls a bound rod between its instructions: timer expiry, the end of a hold, instruction fetch, page
walks and fault records, imprecise faults and stall limits; and the retirement of a frame
(R38, R55, R77, R121, R138, R141, R152 to R154, R192, R272, R313, R438).
-/

namespace Sys2Proof.Machine

/-! ### TIMER and YIELD -/

/-- TIMER has reached 0, and its fault is still to be taken (R55). -/
def Rod.timerExpired (r : Rod) : Bool := r.timerDue || (r.timerEn && decide (r.timerCount = 0))

/-- A wait that is sleep in the sense of R25: for a cell, a monitor, a barrier phase, a queue, the walk of a FLUSH (R365) or
a window that drains (R182). -/
def Sleep.sleeps : Sleep → Bool
  | .cell _ _ _ _ | .waitv _ _ _ | .barrier _ | .queue _ | .flush _ _ | .wdrop _ => true
  | _ => false

/-- The rod is ready to go on with its next instruction, or sleeps. -/
def Rod.atBoundary (r : Rod) : Bool :=
  match r.status with
  | .ready => true
  | .asleep why _ _ => why.sleeps
  | _ => false

/-- The word at a rod's program counter, from its core's instruction cache.  R77 lets a bound rod fetch the old or the new word
where memory was written after its binding: the model fetches the line as it was when the cache was filled, and a line
stays until another takes its place or a binding discards it (DESIGN CHOICE, assumption 5). -/
def State.fetched (s : State) (r : Rod) : Option Word :=
  match s.icache.find? (fun l => decide (l.core = r.core ∧ l.asid = r.asid ∧ l.line = r.pc.toNat / 128)) with
  | none => none
  | some l => l.words[r.pc.toNat % 128 / 4]?

/-- The instruction that a word stands for: of a word outside every assigned pattern, the step that refuses it (R76). -/
def instrOf (w : Word) : Instr :=
  match decode w with
  | .ok i => i
  | .error _ => .reservedOpcode w

/-- The registers that an instruction reads or writes where its fields name uniform ones, each field with their number; the
group of QPOP and QPUSH has 33 at most (R42, R284, R289, R343). -/
def sRegisters : Instr → List (BitVec 7 × Nat)
  | .call _ => [(127, 1)]
  | .eret => [(120, 8)]
  | .callReg f => [(f.d, 1), (f.a, 1)]
  | .acas f => [(f.d, 2), (f.f, 1)]
  | .tex f => [(f.a, texOperands f.c), (f.b, 1)]
  | .trace f => [(f.b, 1)]
  | .vmarch f => [(f.b, 1)]
  | .infer f => [(f.d, 1), (f.a, 1), (f.b, 1)]
  | .sumset f => [(f.d, 1), (f.a, 1), (f.b, 1)]
  | .launch f => [(f.d, 1), (f.a, 1), (f.b, 1)]
  | .sumfree f | .setfmt f | .burst f => [(f.a, 1)]
  | .setmode f => [(f.a, 1)]
  | .sets f => [(f.a, 1)]
  | .segld f => [(f.a, 1)]
  | .capld f => [(f.a, 1)]
  | .capnar f => [(f.b, 2)]
  | .caprd f => [(f.d, 1)]
  | .voteAny f | .voteAll f | .voteBallot f => [(f.d, 1)]
  | .voteEq f | .rodredIadd f | .rodredSmin f | .rodredSmax f | .rodredNmin f | .rodredNmax f | .rodredAnd f
  | .rodredOr f => [(f.d, 1)]
  | .rodredFadd f => [(f.d, 1)]
  | .edgeget f | .edgeput f | .chadv f => [(f.d, 1), (f.a, 1)]
  | .qpop f | .qpush f => [(f.d, 33), (f.a, 1)]
  | i => (regGroups i).map fun g => (g.1, (g.2 + 1) / 2)

/-- The uniform register is read or written by the instruction. -/
def namesRegister (i : Instr) (n : Nat) : Bool :=
  (sRegisters i).any fun g => isS g.1 && decide (sIndex g.1 ≤ n ∧ n < sIndex g.1 + g.2)

/-- The scoreboard holds the rod's next instruction for a register that an engine is to write (R20, R21). -/
def Rod.interlocked (r : Rod) (w : Word) : Bool := r.scoreboard.any fun p => namesRegister (instrOf w) p.sreg

/-- The rod is at an instruction boundary, or sleeps and can be woken to take a timer fault; one that waits on the scoreboard
reaches its boundary when the hold clears (R55). -/
def State.atBoundary (s : State) (r : Rod) : Bool := r.atBoundary && !(s.fetched r).any r.interlocked

/-- The bead h of a fault taken at an instruction boundary: the bead at the resume position, or the lowest active one
(R288). -/
def Rod.boundaryBead (r : Rod) : Nat := if r.active.getLsbD r.resume then r.resume else lowestBit r.active 0

/-- TIMER_EXPIRY (R55, R288, R291): EN clears, and the rod takes the breakpoint fault with cause timer at its boundary;
a waiting or parked rod, and one in handler mode, takes it later. EN stays set where TIMER was set anew meanwhile. -/
def execTimerExpiry (rod : Nat) (s : State) : Host.Outcome State Fault Refusal :=
  match s.rod? rod with
  | none => .next s
  | some r =>
    if !r.timerExpired || s.halted r.asid then .next s
    else if r.handler.isSome || !s.atBoundary r then
      .next (s.modRod rod fun r => { r with timerEn := r.timerEn && decide (r.timerCount ≠ 0), timerDue := true })
    else
      let s1 := s.modRod rod fun r => { r with timerEn := r.timerEn && decide (r.timerCount ≠ 0), timerDue := false }
      .next (s1.enterHandler rod 3 3 r.resume r.boundaryBead 0 0 r.pc)

/-- YIELD_HOLD_END (R438): the 64 cycles have passed. -/
def execYieldHoldEnd (rod : Nat) (s : State) : Host.Outcome State Fault Refusal :=
  .next (s.modRod rod fun r =>
    match r.status with
    | .held t => if t ≤ s.now then { r with status := .ready } else r
    | _ => r)

/-! ### Instruction fetch (R77) -/

/-- A line of the instruction cache is filled from a physical address: the words of the line that lie in the code
object `base`, `len`.  Where the cache is full another line of it goes, freely chosen (R10, assumption 5). -/
def State.fillLine (s : State) (core asid line a base len : Nat) : State :=
  let words := (List.range 32).map fun i => BitVec.ofNat 32 (s.natAt (a + 4 * i) 4)
  let n := min 32 ((base + len - 128 * line) / 4)
  let others := s.icache.filter fun l => !decide (l.core = core ∧ l.asid = asid ∧ l.line = line)
  let (kept, s1) := s.evict Config.codeLines (fun (l : ICacheLine) => decide (l.core = core)) others
  { s1 with icache := ⟨core, asid, line, words.take n⟩ :: kept }

/-- The fetch of the line of the rod's next instruction (R77, R138, R152). -/
def M.fetchLine : M Unit := do
  let r ← M.rod
  let pc := r.pc.toNat
  let o ← M.ahead (M.codeObject pc)
  match o with
  | none => throw (.trap 8 9 none pc 0)
  | some (base, len) => do
    M.need (decide (pc + 4 ≤ base + len)) (.trap 8 9 none pc 0)
    let a ← M.ahead (M.place none pc 3)
    let s ← get
    M.need (!s.damaged (a / 128 * 128) 128) (.trap 10 1 none pc 0)
    M.upd fun s => s.fillLine r.core r.asid (pc / 128) (a / 128 * 128) base len

/-- INSTRUCTION_CACHE_FILL (R23, R77, R152): the line of the rod's next instruction arrives, or the fetch faults, or waits
for a walk. -/
def execInstructionCacheFill (rod : Nat) (s : State) : Host.Outcome State Fault Refusal :=
  match s.rod? rod with
  | none => .next s
  | some r =>
    if r.status ≠ .ready then .next s
    else
      match M.fetchLine { s with cur := some rod } with
      | (.ok _, s1) => .next { s1 with cur := s.cur }
      | (.error e, s1) => .next { s1.settle rod e with cur := s.cur }

/-! ### Walks and fault records -/

/-- The rods that wait for a walk, each with the address, the KIND of its query and its bead: none for a fetch or a uniform
instruction (R34, R141). -/
def State.walkWaiters (s : State) (w : Walk) : List (Nat × Nat × Nat × Option Nat) :=
  s.rods.filterMap fun r =>
    match r.status with
    | .asleep (.walk va kind k) _ _ =>
      if r.asid = w.asid ∧ va / 65536 = w.page then
        some (r.uid, va, kind, if kind = 3 ∨ s.uniformAt r then none else some k)
      else none
    | _ => none

/-- The waiting rods go on, or take the fault that the walk found for their query. -/
def State.walkServed (s : State) (x : Except XlFail TlbEntry) : List (Nat × Nat × Nat × Option Nat) → State
  | [] => s
  | (u, va, kind, b) :: rest =>
    let s1 := match xlEnd kind x with
      | .ok _ => s.modRod u fun r => { r with status := .ready }
      | .error (.absent k) => s.takePage u b va k
      | .error .malformed => s.takeTrap u 10 2 b va 0
      | .error XlFail.data => s.takeTrap u 10 1 b va 0
    s1.walkServed x rest

/-- An engine request waits on a fault record (R192, R268). -/
def State.markWalker (s : State) : Walker → State
  | .rod _ => s
  | .window f n => s.windowWaits f n
  | .engine e => s.engineWaits e
  | .unit_ u => s.contWaits u
  | .raster b => s.rasterWaits b

/-- An engine request that waited for a walk goes on, or its fault is reported (R141, R192, R268). -/
def State.requestServed (s : State) (x : Except XlFail TlbEntry) (w : FabricWait) : State :=
  match w.for_ with
  | .walk kind agent =>
    let s1 := { s with fabricWaits := s.fabricWaits.erase w }
    match xlEnd kind x with
    | .ok _ => s1
    | .error (.absent k) => s1.engineFault w.asid w.core agent w.frameid w.who (fun s => s.markWalker w.who) (.page w.va k)
    | .error .malformed => s1.engineFault w.asid w.core agent w.frameid w.who id (.malformed w.va)
    | .error XlFail.data => s1.engineFault w.asid w.core agent w.frameid w.who id (.data w.va)
  | _ => s

/-- The engine requests that wait for a walk. -/
def State.walkRequests (s : State) (w : Walk) : List FabricWait :=
  s.fabricWaits.filter fun f => decide (f.asid = w.asid ∧ f.va / 65536 = w.page) &&
    match f.for_ with
    | .walk _ _ => true
    | _ => false

/-- PAGE_WALK_COMPLETE (R137, R138, R141, R142): one of the walks that walkers perform ends, freely chosen; it serves every
query that its home slice holds for the page. -/
def execPageWalkComplete (s : State) : Host.Outcome State Fault Refusal :=
  let (k, s0) := s.choose s.walksUnderWay.length
  match s.walksUnderWay[k]? with
  | none => .next s
  | some w =>
    let (x, s1) := { s0 with walks := s0.walks.erase w }.walkFill w.asid (65536 * w.page) w.write
    .next ((s1.walkRequests w).foldl (fun s f => s.requestServed x f) (s1.walkServed x (s1.walkWaiters w)))

/-- The tag of a fault reaches whoever waits for its resolution (R154, R192, R268). -/
def State.tagWalker (s : State) (d n : Nat) (w : Walker) : State :=
  match w with
  | .rod u => s.modRod u fun r =>
    match r.status with
    | .parked p => if p.cls = 1 ∧ p.record = none then { r with status := .parked { p with record := some (d, n) } } else r
    | _ => r
  | .window f n' => s.modWindow f n' fun x => if x.fault = some none then { x with fault := some (some (d, n)) } else x
  | .engine e => s.modEngine e fun c => if c.fault = some none then { c with fault := some (some (d, n)) } else c
  | .unit_ u => s.modCont u fun c => if c.fault = some none then { c with fault := some (some (d, n)) } else c
  | .raster b => s.modRaster b fun x => if x.fault = some none then { x with fault := some (some (d, n)) } else x

/-- Every waiter of a list is tagged. -/
def State.tagAll (s : State) (d n : Nat) (ws : List Walker) : State := ws.foldl (fun s w => s.tagWalker d n w) s

/-- The unresolved record into which a fault merges (R154). -/
def State.mergeTarget (s : State) (f : FaultRec) : Option FaultRec :=
  s.faultRecs.find? fun x => decide (x.asid = f.asid ∧ x.va / 65536 = f.va / 65536 ∧ x.kind = f.kind)

/-- The die whose queue takes a fault: that of the home slice of its 64 KiB page (R140, R153, assumption 5). -/
def FaultRec.homeDie (f : FaultRec) : Nat := tableOfSlice (tlbSliceOf f.asid 16 (f.va / 65536)) / 4

/-- The place of record `n` in a die's queue, where the facility is in use (R153, R306). -/
def State.faultPlace (s : State) (d n : Nat) : Option Nat :=
  (s.sysEntry (0x40 + 8 * d)).map fun b => b + 32 * (n % Config.faultRing)

/-- The die's queue has no place for record `n` while an unresolved record stands there (R153).  The manual does not say when
a queue is full: in the model a record is held back only by an unresolved one in its own place of the ring, not by 4,096
unresolved ones, nor by resolved ones that the service has not read (DESIGN CHOICE, assumption 81). -/
def State.ringFull (s : State) (d n : Nat) : Bool :=
  s.faultRecs.any fun x => decide (x.die = d ∧ x.recid % Config.faultRing = n % Config.faultRing)

/-- The 256 bits of a fault record (R153): PHASE is 1 on the writer's first pass, then alternates. -/
def FaultRec.toNat (f : FaultRec) : Nat :=
  packFields [(48, f.va), (16, 0), (10, f.asid), (6, 0), (8, f.core), (3, f.agent), (1, 0), (4, f.kind), (16, f.merged),
    (16, 0), (32, f.recid), (48, f.pc.toNat), (47, 0), (1, 1 - f.recid / Config.faultRing % 2)]

/-- A fault that waits can go to its queue now: it merges, or its queue has room. -/
def State.recordable (s : State) (f : FaultRec) : Bool :=
  (s.mergeTarget f).isSome ||
    (let n := nth 0 s.recids f.homeDie
     (s.faultPlace f.homeDie n).isSome && !s.ringFull f.homeDie n)

/-- A fault merges into an unresolved record: MERGED rises by one, in place (R154), as an access of no path (R155,
assumption 79). -/
def State.mergeFault (s : State) (f x : FaultRec) : State :=
  let y := { x with merged := min 65535 (x.merged + 1), who := x.who ++ f.who }
  let s1 := { s with faultRecs := s.faultRecs.map fun z => if z = x then y else z }
  let s2 := match s.faultPlace x.die x.recid with
    | none => s1
    | some a => s1.homeWriteNat (a + 12) 2 y.merged
  s2.tagAll x.die x.recid f.who

/-- A fault is written as a new record of its die's queue (R153), as an access of no path (R155, assumption 79). -/
def State.newRecord (s : State) (f : FaultRec) : State :=
  let d := f.homeDie
  let n := nth 0 s.recids d
  let x := { f with die := d, recid := n, merged := 0 }
  match s.faultPlace d n with
  | none => s
  | some a =>
    ({ s with faultRecs := s.faultRecs ++ [x], recids := setNth s.recids d ((n + 1) % 2 ^ 32) }.homeWriteNat a 32 x.toNat).tagAll
      d n f.who

/-- FAULT_RECORD_WRITE (R153, R154): the oldest fault whose queue has room is written, or merges. -/
def execFaultRecordWrite (s : State) : Host.Outcome State Fault Refusal :=
  match s.faultWait.find? s.recordable with
  | none => .next s
  | some f =>
    let s1 := { s with faultWait := s.faultWait.erase f }
    match s.mergeTarget f with
    | some x => .next (s1.mergeFault f x)
    | none => .next (s1.newRecord f)

/-! ### Imprecise faults and stall limits -/

/-- PORT_REVOKED_FAULT (R121, R136): the reply of the memory port to an access that it rejected. -/
def execPortRevokedFault (s : State) : Host.Outcome State Fault Refusal :=
  match s.portFaults with
  | [] => .next s
  | f :: fs =>
    let s1 := { s with portFaults := fs }
    match s.rod? f.rod with
    | none => .next s1
    | some r => .next (s1.raiseHalt r.asid { haltOfRod s1 r 8 f.cause f.bead f.info.toNat with pc := f.pc })

/-- The limit of a stall that something bars, by the page's MT (R313). -/
def Barred.limit (mt : Nat) : Barred → Nat
  | .page _ => fabricLimit
  | .port _ => tierLimit mt

/-- The device virtual address of a committed line's byte (R313, assumption 63). -/
def Inflight.vaOf (i : Inflight) (a : Nat) : Nat :=
  ((i.tags.find? fun x => decide (x.line = lineOf a)).map fun x => x.va + a % 128).getD 0

/-- The cycle at which a waiting access has stalled as long as it may, with whoever stalls (R313): none where no limit
applies. -/
def Sleep.stallEnd (began : Nat) : Sleep → Option Nat
  | .fabric _ _ _ => some (began + fabricLimit)
  | .tier _ _ _ limit => some (began + limit)
  | _ => none

/-- The address and bead of an access that stalls. -/
def Sleep.stalled : Sleep → Nat × Nat
  | .fabric _ va k => (va, k)
  | .tier _ va k _ => (va, k)
  | _ => (0, 0)

/-- The limit of an engine request that stalls. -/
def EngineWait.limit : EngineWait → Option Nat
  | .walk _ _ => none
  | .page _ => some fabricLimit
  | .port _ limit => some limit

/-- The cycle at which a committed line has stalled as long as it may, with the address: none where nothing bars it. -/
def State.lineStall (s : State) (i : Inflight) : Option (Nat × Nat) :=
  (s.barredBytes i.bytes).map fun (x, a) => (i.began + x.limit (mtIn i.tags a), a)

/-- The halt of a committed line that stalled: imprecise, at the rod's commit point (R313). -/
def haltOfLine (s : State) (i : Inflight) (va : Nat) : Halt :=
  ⟨s.clk, 10, 3, i.pc, i.frameid, i.rodid, i.core, 0, BitVec.ofNat 48 va, 0, false, 0, 0, false⟩

/-- STALL_TIMEOUT (R286, R313): an access has waited for an export page or a CXL port up to its limit. -/
def execStallTimeout (agent : StallAgent) (s : State) : Host.Outcome State Fault Refusal :=
  match agent with
  | .rod u =>
    match s.rod? u with
    | none => .next s
    | some r =>
      match r.status with
      | .asleep why _ began =>
        match why.stallEnd began with
        | none => .next s
        | some t =>
          if t ≤ s.now then
            .next ((s.modRod u fun r => { r with status := .ready }).takeTrap u 10 3 (some why.stalled.2) why.stalled.1 0)
          else .next s
      | _ => .next s
  | .request i =>
    match s.fabricWaits[i]? with
    | none => .next s
    | some w =>
      match w.for_.limit with
      | none => .next s
      | some n =>
        if w.began + n ≤ s.now then
          .next ({ s with fabricWaits := s.fabricWaits.erase w }.raiseHalt w.asid (haltOfEngine s w.core 10 3 w.va w.frameid))
        else .next s
  | .line n =>
    match s.inflight[n]? with
    | none => .next s
    | some i =>
      match s.lineStall i with
      | none => .next s
      | some (t, a) =>
        if t ≤ s.now then
          .next ({ s with inflight := s.inflight.erase i }.raiseHalt i.asid (haltOfLine s i (i.vaOf a)))
        else .next s

/-! ### The retirement of a frame -/

/-- A window copy of the frame is under way. -/
def Window.busy (w : Window) : Bool := decide (w.st = .copying ∨ w.st = .draining)

/-- Every rod of the frame has retired, and the work that they started has finished (R38, R256); committed lines of
retired rods have reached their homes, so that the completion is a release (R272). -/
def State.frameDone (s : State) (f : Frame) : Bool :=
  (s.rods.all fun r => decide (r.frame ≠ f.uid)) && !f.windows.any Window.busy &&
    (s.tasks.all fun t => decide (t.frame ≠ f.uid)) && (s.resvs.all fun v => decide (v.frame ≠ f.uid)) &&
    (s.credits.all fun c => decide (c.frame ≠ f.uid)) && (s.transfers.all fun t => decide (t.frame ≠ f.uid)) &&
    (s.conts.all fun c => decide (c.frame ≠ f.uid)) && (s.inflight.all fun i => decide (i.frame ≠ f.uid))

/-- A frame of a launch has retired: the last one writes 1 to the completion word (R272).  False where that has to wait for
the word's page or port. -/
def State.leaveLaunch (s : State) (f : Frame) : Bool × State :=
  match s.launches.find? (fun l => decide (l.uid = f.launch)) with
  | none => (true, s)
  | some l =>
    if 1 < l.left then
      (true, { s with launches := s.launches.map fun x => if x.uid = l.uid then { x with left := x.left - 1 } else x })
    else
      let s1 := { s with launches := s.launches.filter fun x => decide (x.uid ≠ l.uid) }
      if l.dw then s1.writeDone l.asid l.doneh l.doneoff 1 else (true, s1)

/-- FRAME_RETIRE (R38, R218, R272): what the frame has reserved in the carry network is released as SUMFREE would, which may
have to wait for granted transfers; then its segments and windows are free. -/
def execFrameRetire (frame : Nat) (s : State) : Host.Outcome State Fault Refusal :=
  match s.frame? frame with
  | none => .next s
  | some f =>
    if !s.frameDone f || s.halted f.asid then .next s
    else
      let s1 := s.releaseCarry frame
      if !s1.carryReleased frame then .next s1
      else
        match { s1 with frames := s1.frames.filter fun g => decide (g.uid ≠ frame) }.leaveLaunch f with
        | (true, s2) => .next s2
        | (false, s2) => .next { s1 with dirReqs := s2.dirReqs }

end Sys2Proof.Machine
end

