-- ==== Sys2Proof/Machine/Halt.lean ====
section
/-!
DEFINITION. The halt of a context: its engines stop, its halt record is written, its resources are released, and the
tokens of its collective group (R193, R216, R235, R268, R293 to R298).
-/

namespace Sys2Proof.Machine

/-! ### The engines of a halted context stop (R293) -/

/-- A frame of this name, bound or saved. -/
def State.anyFrame? (s : State) (u : Nat) : Option Frame :=
  match s.frame? u with
  | some f => some f
  | none => (s.saved.find? fun b => decide (b.frame.uid = u)).map SaveBlock.frame

/-- The windows of a frame stop: a copy with its stop record, a cancelled one at once (R182, R193). -/
def State.stopWindows (s : State) (u : Nat) : List Nat → State
  | [] => s
  | n :: ns =>
    match s.frame? u with
    | none => s
    | some f =>
      let s1 := match (f.window n).st with
        | .copying => s.stopWindow f n 0
        | .draining => s.freeWindows u (f.together n)
        | _ => s
      s1.stopWindows u ns

/-- The windows of a context's frames stop. -/
def State.haltWindows (s : State) (asid : Nat) : State :=
  (s.frames.filter fun f => decide (f.asid = asid)).foldl
    (fun s f => s.stopWindows f.uid (List.range f.windows.length)) s

/-- The tasks of a context end (R216). -/
def State.haltTasks (s : State) (asid : Nat) : State :=
  (s.tasks.filter fun t => decide (t.asid = asid)).foldl State.haltTask s

/-- A chain that has entries to run. -/
def CopyEngine.active (c : CopyEngine) : Bool := !c.stopped && (c.running.isSome || decide (c.cur ≠ c.tail))

/-- The chains of a context stop (R193, R293). -/
def State.haltChains (s : State) (asid : Nat) : State :=
  (s.copyEngines.filter fun c => decide (c.asid = asid) && c.active).foldl (fun s c => s.stopChain c 0) s

/-- A slot that a halt makes Dead (R235). -/
def Slot.haltable (x : Slot) (asid : Nat) : Bool := decide (x.asid = asid ∧ (x.st = .open_ ∨ x.st = .away))

/-- The stop record of a slot (R193, R235). -/
def State.slotStop (s : State) (k : Nat) (x : Slot) : StopRec :=
  ⟨4, 0, k % 32, k / 32, match s.anyFrame? x.frame with
    | none => 0
    | some f => f.id, x.count, x.discarded, x.applied⟩

/-- A slot becomes Dead: its granted transfers are discarded, and its stop record is written (R235). -/
def State.killSlot (s : State) (k : Nat) (x : Slot) : State :=
  let lost := s.granted (k / 32) (k % 32)
  let x' := { x with st := .dead, discarded := x.discarded + lost.length + (s.grantedCredits (k / 32) (k % 32)).length }
  let s1 := { s with transfers := s.transfers.filter fun t => !lost.contains t }.setSlot (k / 32) (k % 32) x'
  s1.writeStop x.asid Marks.none (s1.slotStop k x')

/-- The carry state of a context: SUMFREEs finish for the slots that are applied (R421), reservations and credit requests end,
and slots become Dead (R235). -/
def State.haltCarry (s : State) (asid : Nat) : State :=
  let mine := s.resvs.filter fun v => decide (v.asid = asid)
  let s1 := mine.foldl (fun s v => s.unhold ((v.specs.take (v.next + 1)).filter fun q =>
    decide ((s.slot q.core q.slot).st = .held ∧ (s.slot q.core q.slot).rod = v.rod))) s
  let s2 := { s1 with resvs := s1.resvs.filter fun v => decide (v.asid ≠ asid) }
  let s3 := s2.haltSumfree asid
  let s4 := (s3.slots.filter fun p => p.2.haltable asid).foldl (fun s p => s.killSlot p.1 p.2) s3
  (s4.credits.filter fun c => decide (c.asid = asid)).foldl (fun s c => s.wakeSenders c.core)
    { s4 with credits := s4.credits.filter fun c => decide (c.asid ≠ asid) }

/-- The rays and samples of a context are abandoned, and its requests for export pages are dropped (R268, R293). -/
def State.haltUnits (s : State) (asid : Nat) : State :=
  { s with
    conts := s.conts.map fun c => if c.asid = asid then { c with fault := none } else c
    fabricWaits := s.fabricWaits.filter fun w => decide (w.asid ≠ asid) }

/-- An engine request of the context is under way. -/
def State.enginesAtWork (s : State) (asid : Nat) : Bool :=
  (s.frames.any fun f => decide (f.asid = asid) && f.windows.any Window.busy) ||
    (s.tasks.any fun t => decide (t.asid = asid)) ||
    (s.copyEngines.any fun c => decide (c.asid = asid) && c.active) ||
    (s.resvs.any fun v => decide (v.asid = asid)) || (s.credits.any fun c => decide (c.asid = asid)) ||
    (s.slots.any fun p => p.2.haltable asid) || (s.bursts.any fun b => decide (b.asid = asid)) ||
    (s.fabricWaits.any fun w => decide (w.asid = asid))

/-- A FENCE that commits, or an XFENCE, which acts as one (R170, R364). -/
def isFence : Instr → Bool
  | .fenceRel _ | .fenceAcqrel _ | .fenceSc _ | .xfence _ => true
  | _ => false

/-- The rod waits in a FENCE or XFENCE for a page or port of its lines (R364). -/
def State.inFence (s : State) (r : Rod) : Bool := r.stalls && (s.instrAt r).any isFence

/-- A rod in a FENCE goes on: its lines are performed once nothing bars them, or it waits for what bars the next, from now on
(R312, R313, R364). -/
def State.goOnFence (s : State) (r : Rod) : State :=
  match s.blockedLine r.uid with
  | none => (s.setRod { r with status := .ready }).commitPerform r.uid
  | some (b, a) =>
    let (t, s1) := (s.askBarred b).take
    s1.setRod { r with status := .asleep (s.stalledOn r b a) t s.now }

/-- A rod of the context waits in a FENCE: the halt waits for it to finish (R364). -/
def State.fenceBarred (s : State) (asid : Nat) : Bool := s.rods.any fun r => decide (r.asid = asid) && s.inFence r

/-- The context is halted and its halt record is still to be written. -/
def State.halting (s : State) (asid : Nat) : Bool :=
  match s.halt? asid with
  | none => false
  | some h => !h.complete

/-- ENGINE_HALT_STOP (R193, R216, R235, R268, R293): the engine requests of a halted context stop, each with its stop
record. -/
def execEngineHaltStop (asid : Nat) (s : State) : Host.Outcome State Fault Refusal :=
  if !s.halting asid then .next s
  else .next ((((((s.haltWindows asid).haltTasks asid).haltChains asid).haltCarry asid).haltUnits asid).endBursts asid)

/-! ### The halt record (R294, R295, R298) -/

/-- The group record's fields (R297): GROUP, NPEER, STEPVA and PEERS. -/
def groupNo (g : BitVec 256) : Nat := field g.toNat 64 32
/-- NPEER. -/
def groupPeers (g : BitVec 256) : Nat := field g.toNat 96 16
/-- STEPVA. -/
def groupStep (g : BitVec 256) : Nat := field g.toNat 112 48
/-- PEERS. -/
def groupTable (g : BitVec 256) : Nat := field g.toNat 160 48

/-- The value of a step word that cannot be read, and of no token (R298). -/
def noStep : Dword := BitVec.ofNat 64 (2 ^ 64 - 1)

/-- Some object of the context holds the bytes. -/
def State.inSomeObject (s : State) (asid va n : Nat) : Bool :=
  (List.range (s.ctxField asid 488 24 + 1)).any fun h =>
    match (s.unitObject asid h).1 with
    | .ok (len, base) => decide (base ≤ va ∧ va + n ≤ base + len)
    | .error _ => false

/-- The step word of a context (R297, R298). -/
def State.stepWord (s : State) (asid : Nat) (c : Ctx) : Dword × State :=
  match c.group with
  | none => (noStep, s)
  | some g =>
    if !s.inSomeObject asid (groupStep g) 8 then (noStep, s)
    else
      match s.engineVaRead asid (groupStep g) 8 with
      | (.error _, s') => (noStep, s')
      | (.ok a, s') => (BitVec.ofNat 64 (s'.natAt a 8), s')

/-- The lesser of two steps. -/
def lesser (x y : Dword) : Dword := if x.toNat ≤ y.toNat then x else y

/-- The 512 bits of a halt record (R295). -/
def Halt.toNat (h : Halt) (asid : Nat) (step : Dword) : Nat :=
  packFields [(1, 1), (140, 0), (19, h.origin.toNat), (8, h.cause), (8, h.cls), (4, h.bead), (8, h.core),
    (10, h.rodid.toNat), (10, asid), (16, h.more), (32, h.nstop), (48, h.info.toNat), (32, h.frameid.toNat),
    (48, h.pc.toNat), (64, step.toNat), (64, h.clk.toNat)]

/-- The committed lines of a context are performed, each rod's oldest commit first, up to a line that waits for its page or
port (R160, R312, R313). -/
def State.drainCtx (s : State) (asid : Nat) : State :=
  (distinct ((s.inflight.filter fun i => decide (i.asid = asid)).map Inflight.rod)).foldl State.drain s

/-- Rods, frames, tasks and launches of a halted context are released; its carry slots stay Dead (R294). -/
def State.releaseHalted (s : State) (asid : Nat) : State :=
  { s with
    rods := s.rods.filter fun r => decide (r.asid ≠ asid)
    frames := s.frames.filter fun f => decide (f.asid ≠ asid)
    tasks := s.tasks.filter fun t => decide (t.asid ≠ asid)
    launches := s.launches.filter fun l => decide (l.asid ≠ asid)
    heldReplies := s.heldReplies.filter fun p => decide (field p.1.toNat 124 10 ≠ asid)
    portFaults := s.portFaults.filter fun p =>
      match s.rod? p.rod with
      | none => false
      | some r => decide (r.asid ≠ asid) }

/-- The tokens for the peers of a group from peer `i` on (R297, R298); an entry whose reserved bits are not zero names no peer
(R4, assumption 64). -/
def State.tokens (s : State) (asid : Nat) (g : BitVec 256) (step : Dword) (i : Nat) : Nat → List Token × State
  | 0 => ([], s)
  | n + 1 =>
    match s.engineVaRead asid (groupTable g + 4 * i) 4 with
    | (.error _, s') => s'.tokens asid g step (i + 1) n
    | (.ok a, s') =>
      let e := s'.natAt a 4
      let (ts, s2) := s'.tokens asid g step (i + 1) n
      (if field e 29 3 = 0 then ⟨groupNo g, step, s.config.devid, field e 10 19, field e 0 10⟩ :: ts else ts, s2)

/-- After its halt record a context sends a token to each peer, unless a token halted it (R298). -/
def State.sendTokens (s : State) (asid : Nat) (c : Ctx) (h : Halt) (step : Dword) : State :=
  match c.group with
  | none => s
  | some g =>
    if h.cls = 12 then s
    else
      let (ts, s1) := s.tokens asid g step 0 (groupPeers g)
      { s1 with tokensOut := s1.tokensOut ++ ts }

/-- Once every halt that an alarm raised is recorded, its policy takes hold (R326). -/
def State.settleAlarm (s : State) : State :=
  match s.alarmHold with
  | none => s
  | some p =>
    if s.ctxs.any fun c => (match c.halt with
      | none => false
      | some h => !h.complete) then s
    else { s with boot := p, alarmHold := none }

/-- HALT_RECORD_WRITE (R294, R295, R298): once every engine has stopped, the record is written with a release, the
tokens leave, and the context's slots, segments, windows and task-queue entries are free. -/
def execHaltRecordWrite (asid : Nat) (s : State) : Host.Outcome State Fault Refusal :=
  if !s.halting asid || s.enginesAtWork asid || s.fenceBarred asid then .next s
  else
    match s.ctx? asid with
    | none => .next s
    | some c =>
      match c.halt with
      | none => .next s
      | some h =>
        let s1 := s.drainCtx asid
        let (word, s2) := s1.stepWord asid c
        let step := lesser word (c.tokenStep.getD noStep)
        let s3 := s2.writeVaAs 0 .device (fun s a => [s.sysRelease.through (homeDieOf a) (s.fresh + 1)]) asid (s2.stopArea asid) 64
          (h.toNat asid step)
        let s4 := s3.modCtx asid fun c => { c with halt := some { h with complete := true } }
        .next ((s4.sendTokens asid c h step).releaseHalted asid).settleAlarm

/-- ABORT_TOKEN_RECEIVE (R298): the context is halted with class 12, or the token's step counts in its record, or the
token is dropped. -/
def execAbortTokenReceive (asid group : Nat) (step : BitVec 64) (origin : BitVec 19) (s : State) :
    Host.Outcome State Fault Refusal :=
  match s.ctx? asid with
  | none => .next s
  | some c =>
    let inGroup := match c.group with
      | none => false
      | some g => decide (groupNo g = group)
    let complete := match c.halt with
      | none => false
      | some h => h.complete
    if !inGroup || complete then .next s
    else
      let s1 := s.modCtx asid fun c => { c with tokenStep := some (lesser step (c.tokenStep.getD noStep)) }
      .next (if c.halt.isSome then s1
        else s1.raiseHalt asid ⟨s.clk, 12, 0, 0, 0, 0, 0, 0, 0, origin, true, 0, 0, false⟩)

end Sys2Proof.Machine
end

