-- ==== Sys2Proof/Machine/Rings.lean ====
section
/-!
DEFINITION. The rings that system software writes: the command ring with its five operations, and the shoot-down ring
(R143, R144, R154, R187, R191, R192, R287, R297, R306 to R308, R457).
-/

namespace Sys2Proof.Machine

/-! ### Rings (R306, R307) -/

/-- The record at the head of a ring of the system block: header address, header and record; none when the ring is
unused, malformed or empty. -/
def State.ringHead (s : State) (off rsz : Nat) : Option (Nat × Queue × Nat) :=
  match s.sysEntry off with
  | none => none
  | some h =>
    let q := s.queueAt h
    if q.bad false ∨ q.rsz ≠ rsz ∨ q.count = 0 then none else some (h, q, s.natAt (h + q.recordAt q.head) (8 * rsz))

/-- The record is taken from the head of the ring; none when it does not stand there. -/
def State.takeRecord (s : State) (off rsz rec : Nat) : Option State :=
  match s.ringHead off rsz with
  | none => none
  | some (h, q, x) => if x = rec then some (s.setHead h (q.head + 1)) else none

/-- A completion word is written, if it has a place (R306, R307). -/
def State.complete (s : State) (off x : Nat) : State :=
  match s.sysEntry off with
  | none => s
  | some a => s.signal a 8 x

/-- The command ring and its completion word (R306). -/
def cmdRing : Nat := 0x20
/-- The pre-emption ring. -/
def saveRing : Nat := 0x10
/-- The shoot-down ring. -/
def downRing : Nat := 0x00

/-! ### Command records (R308) -/

/-- A command record. -/
structure Command where
  op : Nat
  addr : Nat
  val : Nat
  hidx : Nat
  asid : Nat
  core : Nat
  slot : Nat
  engine : Nat
  die : Nat
  recid : Nat
  seq : Nat
  reserved : Nat
  deriving DecidableEq, Repr

/-- The fields of a command record. -/
def Command.ofNat (x : Nat) : Command :=
  ⟨field x 248 8, field x 176 52, field x 128 48, field x 112 16, field x 102 10, field x 94 8, field x 84 10,
    field x 79 5, field x 64 2, field x 32 32, field x 0 32, field x 228 20 + field x 66 13⟩

/-- A field that the operation does not use is not zero, or the operation is unknown (R308). -/
def Command.bad (c : Command) : Bool :=
  decide (c.reserved ≠ 0) ||
    match c.op with
    | 1 => decide (c.addr ≠ 0 ∨ 256 ≤ c.val ∨ c.hidx ≠ 0 ∨ c.asid ≠ 0 ∨ c.core ≠ 0 ∨ c.slot ≠ 0 ∨ c.engine ≠ 0)
    | 2 => decide (c.addr ≠ 0 ∨ c.val ≠ 0 ∨ c.hidx ≠ 0 ∨ c.engine ≠ 0 ∨ c.die ≠ 0 ∨ c.recid ≠ 0)
    | 3 => decide (c.addr ≠ 0 ∨ c.core ≠ 0 ∨ c.slot ≠ 0 ∨ Config.copyEngines ≤ c.engine ∨ c.die ≠ 0 ∨ c.recid ≠ 0)
    | 4 => decide (c.addr ≠ 0 ∨ c.val ≠ 0 ∨ c.hidx ≠ 0 ∨ c.core ≠ 0 ∨ c.slot ≠ 0 ∨ Config.copyEngines ≤ c.engine ∨
        c.die ≠ 0 ∨ c.recid ≠ 0)
    | 5 => decide (c.val ≠ 0 ∨ c.hidx ≠ 0 ∨ c.core ≠ 0 ∨ c.slot ≠ 0 ∨ c.engine ≠ 0 ∨ c.die ≠ 0 ∨ c.recid ≠ 0)
    | _ => true

/-- The completion of a command record (R307). -/
def State.commandDone (s : State) (c : Command) (status : Nat) : State := s.complete (cmdRing + 8) (2 ^ 32 * c.seq + status)

/-- A command record at the head of its ring is taken and carried out by `act`, which gives its status; none while it waits
for an export page or a CXL port, and the record stays.  A malformed one gives 4 (R307, R308). -/
def executeCommand (rec : BitVec 256) (act : Command → State → Option Nat × State) (s : State) :
    Host.Outcome State Fault Refusal :=
  let c := Command.ofNat rec.toNat
  match s.takeRecord cmdRing 4 rec.toNat with
  | none => .next s
  | some s1 =>
    if c.bad then .next (s1.commandDone c 4)
    else
      match act c s1 with
      | (some status, s2) => .next (s2.commandDone c status)
      | (none, s2) => .next { s with dirReqs := s2.dirReqs }

/-- A rejected command logs its event, with the die that it names and the record (R307, R324). -/
def State.rejected (s : State) (event die asid rec : Nat) : Option Nat × State :=
  (some 1, s.logEvent event die asid (rec % 2 ^ 128))

/-! ### Resolution of a fault record (R152, R154, R192, R268) -/

/-- The rod is parked with this record. -/
def Rod.taggedWith (r : Rod) (d n : Nat) : Bool :=
  match r.status with
  | .parked p => decide (p.cls = 1 ∧ p.record = some (d, n))
  | _ => false

/-- A rod restarts at its restart address with the control state recorded there (R152). -/
def Rod.replay (r : Rod) : Rod := { r.restore with status := .ready, peeked := [] }

/-- A rod is handed to its handler with class 1, at its restart address (R152, R154, R288); where that gives class 13, the
record names the instruction that faulted (R295). -/
def State.failRod (s : State) (u kind va : Nat) : State :=
  match s.rod? u with
  | none => s
  | some r =>
    let r1 := { r.restore with peeked := [] }
    (s.setRod r1).enterHandlerAt u 1 kind 0 (lowestBit r1.active 0) va 0 r1.pc r.pc

/-- A waiting request goes on (R154, R192, R268). -/
def State.retryWalker (s : State) (d n : Nat) : Walker → State
  | .rod u => s.modRod u fun r => if r.taggedWith d n && !s.halted r.asid then r.replay else r
  | .window f k => s.modWindow f k fun w => if w.fault = some (some (d, n)) then { w with fault := none } else w
  | .engine e => s.modEngine e fun c => if c.fault = some (some (d, n)) then { c with fault := none } else c
  | .unit_ u => s.modCont u fun c => if c.fault = some (some (d, n)) then { c with fault := none } else c
  | .raster b => s.modRaster b fun r => if r.fault = some (some (d, n)) then { r with fault := none } else r

/-- The entry that a rasteriser waited on is passed over: the one it has popped, or the one at the head of its queue. -/
def State.passEntry (s : State) (b : Nat) : State :=
  match s.rasters.find? (fun r => decide (r.board = b)) with
  | none => s
  | some r =>
    let s1 := s.modRaster b fun x => { x with fault := none, formed := 0, entry := none }
    if r.entry.isSome then s1
    else
      match r.queueOf r.queue r.qoff s1 with
      | (.ok (h, q), s2) => s2.pathWrite 5 .device [] (placed (h + 8) (bytesOfNat 8 (q.head + 1)))
      | (.error _, s2) => s2

/-- A waiting request fails (R154, R192, R268). -/
def State.failWalker (s : State) (x : FaultRec) : Walker → State
  | .rod u =>
    match s.rod? u with
    | none => s
    | some r =>
      match r.status with
      | .parked p =>
        if r.taggedWith x.die x.recid && !s.halted r.asid then s.failRod u p.cause p.info.toNat else s
      | _ => s
  | .window fr k =>
    match s.frame? fr with
    | none => s
    | some f =>
      if (f.window k).fault ≠ some (some (x.die, x.recid)) then s
      else
        let tagged := distinct ((f.together k).flatMap fun n => (f.window n).tags)
        tagged.foldl (fun s u => s.failRod u x.kind x.va) (s.stopWindow f k 1)
  | .engine e =>
    match s.copyEngine? e with
    | none => s
    | some c => if c.fault = some (some (x.die, x.recid)) then s.stopChain c 1 else s
  | .unit_ u =>
    match s.cont? u with
    | none => s
    | some c => if c.fault = some (some (x.die, x.recid)) && !s.halted c.asid then s.failUnit c else s
  | .raster b =>
    if s.rasters.any fun r => decide (r.board = b ∧ r.fault = some (some (x.die, x.recid))) then s.passEntry b else s

/-- RESOLVE (R152, R154, R192, R268, R308): a fault record is resolved, and ceases to exist.  The record of an unknown
operation is taken here too, as malformed. -/
def execResolve (rec : BitVec 256) (s : State) : Host.Outcome State Fault Refusal :=
  executeCommand rec (fun c s =>
    match s.faultRecs.find? fun x => decide (x.die = c.die ∧ x.recid = c.recid) with
    | none => s.rejected Event.fqBadResolve c.die 0 rec.toNat
    | some x =>
      if 2 ≤ c.val then s.rejected Event.fqBadResolve c.die 0 rec.toNat
      else
        let s1 := { s with faultRecs := s.faultRecs.filter fun y => decide (y ≠ x) }
        (some 0, x.who.foldl (fun s w => if c.val = 0 then s.retryWalker x.die x.recid w else s.failWalker x w) s1)) s

/-! ### Delivery (R287) -/

/-- A rod no longer waits for the resolution of a fault. -/
def State.untag (s : State) (u : Nat) : State :=
  let drop (x : FaultRec) : FaultRec := { x with who := x.who.filter fun w => decide (w ≠ .rod u) }
  { s with faultWait := s.faultWait.map drop, faultRecs := s.faultRecs.map drop }

/-- The rod that a delivery names, with its fault: parked in class 1, 2 or 4, not in handler mode and not halted. -/
def State.deliverable (s : State) (c : Command) : Option (Rod × Park) :=
  match s.rods.find? fun r => decide (r.asid = c.asid ∧ r.core = c.core ∧ r.slotIndex = c.slot) with
  | none => none
  | some r =>
    match r.status with
    | .parked p =>
      if (p.cls = 1 ∨ p.cls = 2 ∨ p.cls = 4) && r.handler.isNone && !s.halted r.asid then some (r, p) else none
    | _ => none

/-- DELIVER (R287, R288, R308). -/
def execDeliver (rec : BitVec 256) (s : State) : Host.Outcome State Fault Refusal :=
  executeCommand rec (fun c s =>
    match s.deliverable c with
    | none => s.rejected Event.fltBadDeliver (dieOfCore c.core) c.asid rec.toNat
    | some (r, p) =>
      let s1 := s.untag r.uid
      if p.cls = 1 then (some 0, s1.failRod r.uid p.cause p.info.toNat)
      else if p.cls = 4 then (some 0, s1.enterHandler r.uid 4 p.cause 0 (r.faultBead none) p.info.toNat 0 r.pc)
      else (some 0, s1.enterHandler r.uid 2 p.cause (beadNo p.bead) (r.faultBead p.bead) p.info.toNat 0 r.pc)) s

/-! ### Copy engines and groups (R187, R297, R308) -/

/-- ASSIGN_ENGINE (R4, R117, R187, R308): the engine is bound to a chain object, which it reads and writes, and whose sequence
word receives VAL; an object that it may not use so, that has no room for a first entry, or whose header's reserved bytes
are not zero gives status 1 (assumption 28). No rule says where CUR and TAIL start: the model starts both at byte 64, the
first entry (DESIGN CHOICE, assumption 77). -/
def execAssignEngine (rec : BitVec 256) (s : State) : Host.Outcome State Fault Refusal :=
  executeCommand rec (fun c s =>
    if (s.copyEngine? c.engine).isSome then (some 2, s)
    else
      match s.handle c.asid c.hidx with
      | (.ok (some cap), s1) =>
        if (cap.check { e := true, w := true } 0 128).isSome then (some 1, s1)
        else
          match s1.unitReach c.asid cap 0 64 true with
          | (.ok a, s2) =>
            let e : CopyEngine :=
              ⟨c.engine, c.asid, cap, 64, 64, BitVec.ofNat 64 c.val, none, false, Marks.none, Seen.none, none, false⟩
            if s2.damaged a 64 || decide (s2.natAt (a + 8) 56 ≠ 0) then (some 1, s2)
            else (some 0, { s2.homeWriteNat a 8 c.val with copyEngines := s2.copyEngines ++ [e] })
          | (.error e, s2) => (if e.barred then none else some 1, s2)
      | (_, s1) => (some 1, s1)) s

/-- RELEASE_ENGINE (R308): the engine takes no further entry; once its running entry has completed, it is free and the
command completes. -/
def execReleaseEngine (rec : BitVec 256) (s : State) : Host.Outcome State Fault Refusal :=
  let c := Command.ofNat rec.toNat
  match s.takeRecord cmdRing 4 rec.toNat with
  | none => .next s
  | some s1 =>
    if c.bad then .next (s1.commandDone c 4)
    else
      match s.copyEngine? c.engine with
      | none => .next ((s1.rejected Event.ceNotAssigned package c.asid rec.toNat).2.commandDone c 1)
      | some e =>
        if e.asid ≠ c.asid then .next ((s1.rejected Event.ceNotAssigned package c.asid rec.toNat).2.commandDone c 1)
        else if e.running.isSome then .next (s.modEngine c.engine fun e => { e with releasing := true })
        else .next ((s1.freeEngine c.engine).commandDone c 0)

/-- A group record breaks the rules of its fields (R4, R297). -/
def groupBad (x : Nat) : Bool := decide (field x 208 48 ≠ 0 ∨ field x 0 64 ≠ 0 ∨ field x 96 16 = 0 ∨ field x 112 48 % 8 ≠ 0)

/-- SET_GROUP (R297, R308): the context's group record is copied, or removed; a malformed record or address gives status 4
(assumption 64). -/
def execSetGroup (rec : BitVec 256) (s : State) : Host.Outcome State Fault Refusal :=
  executeCommand rec (fun c s =>
    if c.addr = 0 then (some 0, s.modCtx c.asid fun x => { x with group := none })
    else if physBad c.addr then (some 4, s)
    else
      match s.unitPhys 0 c.addr 0 false with
      | (.error e, s1) => (if e.barred then none else some 4, s1)
      | (.ok a, s1) =>
        if groupBad (s1.natAt a 32) then (some 4, s1)
        else (some 0, s1.modCtx c.asid fun x => { x with group := some (BitVec.ofNat 256 (s1.natAt a 32)) })) s

/-! ### Replies (R292, R309) -/

/-- The reply at the head of the reply ring, in two records: header address, header and message (R309). -/
def State.replyHead (s : State) : Option (Nat × Queue × Nat) :=
  match s.sysEntry 0x30 with
  | none => none
  | some h =>
    let q := s.queueAt h
    if !q.messageRing ∨ q.count < 2 then none
    else some (h, q, s.natAt (h + q.recordAt q.head) 256 + 2 ^ 2048 * s.natAt (h + q.recordAt (q.head + 1)) 256)

/-- UPCALL_REPLY (R292, R307, R309): the reply is taken from its ring and carried out. -/
def execUpcallReply (msg : BitVec 4096) (s : State) : Host.Outcome State Fault Refusal :=
  match s.replyHead with
  | none => .next s
  | some (h, q, x) =>
    if x = msg.toNat then
      .next ((s.setHead h (q.head + 2)).takeReply x (((s.publisher h (q.head + 1)).map WriteRec.stamps).getD []))
    else .next s

/-! ### Shoot-downs (R143, R144, R457) -/

/-- A shoot-down record. -/
structure Shoot where
  seq : Nat
  count : Nat
  vpn : Nat
  obj : Bool
  all : Bool
  asid : Nat
  reserved : Nat
  deriving DecidableEq, Repr

/-- The fields of a shoot-down record. -/
def Shoot.ofNat (x : Nat) : Shoot :=
  ⟨field x 96 32, field x 64 32, field x 32 32, decide (field x 11 1 = 1), decide (field x 10 1 = 1), field x 0 10,
    field x 12 20⟩

/-- The record is rejected (R143): a reserved field, or no page where pages are named. -/
def Shoot.bad (x : Shoot) : Bool :=
  decide (x.reserved ≠ 0) || (x.obj && decide (2 ^ 24 ≤ x.vpn)) || (decide (x.count = 0) && !x.all && !x.obj)

/-- A cached object entry that the shoot-down covers. -/
def Shoot.coversObject (x : Shoot) (o : ObjEntry) : Bool :=
  decide (o.asid = x.asid) && (x.all || (x.obj && decide (o.handle = x.vpn)))

/-- A cached translation that the shoot-down covers. -/
def Shoot.coversPage (x : Shoot) (t : TlbEntry) : Bool :=
  decide (t.asid = x.asid) && (x.all ||
    (!x.obj && decide (t.vpn * 2 ^ t.bits < (x.vpn + x.count) * 65536 ∧ x.vpn * 65536 < (t.vpn + 1) * 2 ^ t.bits)))

/-- A walk-cache entry that the shoot-down covers. -/
def Shoot.coversWalk (x : Shoot) (w : WalkEntry) : Bool :=
  decide (w.asid = x.asid) && (x.all ||
    (!x.obj && decide (w.va * 2 ^ w.bits < (x.vpn + x.count) * 65536 ∧ x.vpn * 65536 < (w.va + 1) * 2 ^ w.bits)))

/-- A line that the shoot-down covers, by where it came from: by its page, or, where an object is shot down, by the handle
through which it was reached. R144 speaks of lines within the range, and does not say which lie in the range of an object:
in the model those that a store through its handle has made (DESIGN CHOICE, assumption 82). -/
def Shoot.coversLine (x : Shoot) (t : LineTag) : Bool :=
  x.all || (if x.obj then decide (t.handle = x.vpn) else decide (x.vpn ≤ t.va / 65536 ∧ t.va / 65536 < x.vpn + x.count))

/-- Early commits of the rods that hold tentative lines within the range (R144, R150). -/
def State.shootCommits (s : State) (x : Shoot) : State :=
  (s.rods.filter fun r => decide (r.asid = x.asid) && r.tags.any x.coversLine).foldl (fun s r => s.commit r.uid) s

/-- A shoot-down loses the monitors of its context, and whoever sleeps on one wakes; one on a line outside the range wakes for
nothing, as R172 allows. -/
def State.shootMonitors (s : State) (x : Shoot) : State :=
  { s with rods := s.rods.map fun r =>
    match r.status with
    | .asleep (.waitv _ _ _) _ _ => if r.asid = x.asid then r.wakeWaitv else r
    | _ => r }

/-- What the device keeps of a context that has ended is gone (R457). -/
def State.endContext (s : State) (asid : Nat) : State :=
  { s with
    ctxs := s.ctxs.filter fun c => decide (c.asid ≠ asid)
    slots := s.slots.filter fun p => decide (p.2.asid ≠ asid ∨ p.2.st = .free)
    chains := s.chains.filter fun c => decide (c.asid ≠ asid)
    conts := s.conts.filter fun c => decide (c.asid ≠ asid)
    saved := s.saved.filter fun b => decide (b.frame.asid ≠ asid)
    heldReplies := s.heldReplies.filter fun p => decide (field p.1.toNat 124 10 ≠ asid)
    launched := s.launched.filter fun d => decide (d.1 ≠ asid)
    dispatch := s.dispatch.map fun d => { d with
      held := d.held.filter fun x => decide (x.asid ≠ asid)
      credit := d.credit.filter fun c => decide (c.1 ≠ asid)
      ages := d.ages.filter fun a => decide (a.1.1 ≠ asid)
      accepted := d.accepted.filter fun a => decide (a.1 ≠ asid)
      blocked := d.blocked.filter fun b => decide (b.1 ≠ asid) } }

/-- The context is halted, its halt record is complete, and V of its descriptor is clear (R457). -/
def State.ended (s : State) (asid : Nat) : Bool :=
  (match s.halt? asid with
    | none => false
    | some h => h.complete) && !s.ctxValid asid

/-- The first part of a well-formed shoot-down: lines within the range are committed, and the context's committed lines are
performed (R144). -/
def State.shootLines (s : State) (x : Shoot) : State := (s.shootCommits x).drainCtx x.asid

/-- The second part, once every committed line of the context is performed (R144). -/
def State.shoot (s : State) (x : Shoot) : State :=
  let s1 := s.shootMonitors x
  let s2 := { s1 with
    tlb := s1.tlb.filter fun t => !x.coversPage t
    walkCache := s1.walkCache.filter fun w => !x.coversWalk w
    objCache := s1.objCache.filter fun o => !x.coversObject o }
  if x.all && s2.ended x.asid then s2.endContext x.asid else s2

/-- SHOOTDOWN (R143, R144, R457): cached translations and object entries of the range are gone, tentative lines within
it are committed, and SEQ is written; it waits for committed lines that cannot be performed yet.  A malformed record is
logged. -/
def execShootdown (rec : BitVec 128) (s : State) : Host.Outcome State Fault Refusal :=
  match s.takeRecord downRing 2 rec.toNat with
  | none => .next s
  | some s1 =>
    let x := Shoot.ofNat rec.toNat
    if x.bad then .next (s1.logEvent Event.sdBadRecord package x.asid rec.toNat)
    else
      let s2 := s.shootLines x
      if s2.inflight.any fun i => decide (i.asid = x.asid) then .next s2
      else
        match s2.takeRecord downRing 2 rec.toNat with
        | none => .next s2
        | some s3 => .next ((s3.shoot x).complete (downRing + 8) x.seq)

end Sys2Proof.Machine
end

