-- ==== Sys2Proof/Machine/Preempt.lean ====
section
/-!
DEFINITION. Pre-emption: the saving of a context's frames and their restoration
(R37, R58 to R60, R195, R208, R216, R232 to R236, R256, R268, R276, R280, R299 to R304).
-/

namespace Sys2Proof.Machine

/-! ### Requests (R299) -/

/-- A pre-emption request. -/
structure SaveReq where
  seq : Nat
  saveEnd : Nat
  core : Nat
  all : Bool
  op : Nat
  asid : Nat
  reserved : Nat
  deriving DecidableEq, Repr

/-- The fields of a pre-emption request. -/
def SaveReq.ofNat (x : Nat) : SaveReq :=
  ⟨field x 224 32, field x 176 48, field x 24 8, decide (field x 23 1 = 1), field x 16 2, field x 0 10,
    field x 32 144 + field x 18 5 + field x 10 6⟩

/-- A reserved field is not zero, or the operation is reserved (R299). -/
def SaveReq.bad (q : SaveReq) : Bool := decide (q.reserved ≠ 0 ∨ 2 ≤ q.op)

/-- The request of a save or restore under way. -/
def Saving.req (v : Saving) : SaveReq := SaveReq.ofNat v.record.toNat

/-- The completion of a request (R299). -/
def State.requestDone (s : State) (q : SaveReq) (status : Nat) : State := s.complete (saveRing + 8) (2 ^ 32 * q.seq + status)

/-- A request under way is over, with its status. -/
def State.endRequest (s : State) (v : Saving) (status : Nat) : State :=
  { s with saving := s.saving.erase v }.requestDone v.req status

/-- A request is taken from its ring: a malformed one receives status 4 at once. -/
def State.takeRequest (s : State) (rec : BitVec 256) : Option State :=
  match s.takeRecord saveRing 4 rec.toNat with
  | none => none
  | some s1 =>
    let q := SaveReq.ofNat rec.toNat
    if q.bad then some (s1.requestDone q 4)
    else some { s1 with saving := s1.saving ++ [⟨rec, q.asid, if q.all then none else some q.core, false, false⟩] }

/-- The request under way with this record, if no earlier one of its context is (R299). -/
def State.requestOf (s : State) (rec : BitVec 256) : Option Saving :=
  match s.saving.find? (fun v => decide (v.record = rec)) with
  | none => none
  | some v => if s.saving.find? (fun w => decide (w.asid = v.asid)) = some v then some v else none

/-- A request under way is changed. -/
def State.modSaving (s : State) (v w : Saving) : State := { s with saving := s.saving.map fun x => if x = v then w else x }

/-! ### Save points (R300) -/

/-- A wait at which a rod can be saved: asleep, or waiting on a cell (R300, R365). -/
def Sleep.savePoint : Sleep → Bool
  | .cell _ _ _ _ | .waitv _ _ _ | .barrier _ | .queue _ | .flush _ _ | .wdrop _ => true
  | _ => false

/-- The rod is at a save point (R300). -/
def Rod.atSavePoint (r : Rod) : Bool :=
  match r.status with
  | .ready => r.atLive
  | .held _ => false
  | .asleep why _ _ => why.savePoint
  | .parked _ => true

/-- The frames that a request concerns. -/
def State.savedFrames (s : State) (v : Saving) : List Frame := s.frames.filter fun f => v.concerns f.core f.asid

/-- The rods that a request concerns. -/
def State.savedRods (s : State) (v : Saving) : List Rod := s.rods.filter fun r => v.concerns r.core r.asid

/-- Cells of a frame's four segments. -/
def Frame.segCells (f : Frame) : Nat :=
  f.segS.limit.toNat + f.segW.limit.toNat + f.segA.limit.toNat + f.segC.limit.toNat

/-- The bound of a frame's save block in bytes (R301); 1.0625 bytes a byte of segment are 17 a cell. -/
def State.saveBound (s : State) (f : Frame) : Nat :=
  let rods := (s.rods.filter fun r => decide (r.frame = f.uid)).length
  65536 + 17 * f.segCells + rods * (64 * f.alloc + 2048) + 16 * s.ctxField f.asid 468 20

/-! ### Settling (R301) -/

/-- The marches of the frames stop (R268). -/
def State.stopMarches (s : State) (v : Saving) : State :=
  (s.conts.filter fun c => v.concerns c.core c.asid && c.result.isNone).foldl (fun s c => s.stopMarch c) s

/-- Open slots of the frames become Away (R232). -/
def State.slotsAway (s : State) (v : Saving) : State :=
  let mine := (s.savedFrames v).map Frame.uid
  { s with slots := s.slots.map fun p => if p.2.st = .open_ ∧ mine.contains p.2.frame then (p.1, { p.2 with st := .away }) else p }

/-- The slots of some frames that still have granted transfers, or are held by a reservation. -/
def State.slotsBusy (s : State) (mine : List Nat) : Bool :=
  s.slots.any fun p => mine.contains p.2.frame &&
    (decide (p.2.st = .held) || (decide (p.2.st = .away) && s.grantsLeft (p.1 / 32) (p.1 % 32)))

/-- A running task of another frame reads cells of one of the frames: the save waits until it has finished (R208). -/
def State.readFrom (s : State) (fs : List Frame) : Bool :=
  s.tasks.any fun t =>
    match t.phase with
    | .running _ _ => t.src.any fun x => fs.any fun f =>
        let g := f.seg x.buf
        decide (t.frame ≠ f.uid ∧ x.core = f.core ∧ x.first < g.base.toNat + g.limit.toNat ∧ g.base.toNat < x.first + x.len)
    | _ => false

/-- The engines have settled: no running task, ray, sample, cancelled copy, reservation or outstanding register is left
(R58, R208, R216, R232, R268, R301). -/
def State.settled (s : State) (v : Saving) : Bool :=
  let mine := (s.savedFrames v).map Frame.uid
  (s.tasks.all fun t => !mine.contains t.frame || decide (t.phase = .queued)) &&
    (s.conts.all fun c => !mine.contains c.frame || c.result.isSome) &&
    (s.resvs.all fun w => !mine.contains w.frame) && !s.slotsBusy mine &&
    !s.readFrom (s.savedFrames v) && ((s.savedFrames v).all fun f => f.windows.all fun w => decide (w.st ≠ .draining)) &&
    ((s.savedRods v).all fun r => r.scoreboard.isEmpty)

/-! ### Save blocks (R58 to R60, R195, R236, R276, R301) -/

/-- The saved form of a stack entry (R59). -/
def StackEntry.toNat (e : StackEntry) : Nat :=
  packFields [(48, e.ba.toNat), (16, e.f.toNat), (48, (e.j.getD 0).toNat), (16, e.w.toNat), (48, e.ppc.toNat),
    (16, e.pm.toNat), (16, e.pfmt.toNat), (16, e.pmode.toNat), (16, e.sfmt.toNat), (16, e.smode.toNat),
    (1, e.j.isSome.toNat), (1, e.pv.toNat), (4, e.pr.toNat)]

/-- The stack entry that a saved form gives; its addresses are code addresses (R58, R59, assumption 53). -/
def StackEntry.ofNat (x : Nat) : StackEntry :=
  { ba := codeAddr (field x 0 48), f := BitVec.ofNat 16 (field x 48 16), w := BitVec.ofNat 16 (field x 112 16)
    j := if field x 256 1 = 1 then some (codeAddr (field x 64 48)) else none
    pv := decide (field x 257 1 = 1), ppc := codeAddr (field x 128 48), pm := BitVec.ofNat 16 (field x 176 16)
    pr := BitVec.ofNat 4 (field x 258 4), pfmt := BitVec.ofNat 16 (field x 192 16)
    pmode := BitVec.ofNat 16 (field x 208 16), sfmt := BitVec.ofNat 16 (field x 224 16)
    smode := BitVec.ofNat 16 (field x 240 16) }

/-- A saved slot's record (R236). -/
def Slot.record (x : Slot) (index : Nat) : Nat :=
  packFields [(73, 0), (7, x.flags.toNat), (12, x.size - 1), (20, x.cell), (4, 0), (4, x.chain), (8, x.owner), (5, index),
    (1, (decide (x.st = .complete)).toNat), (1, x.fixed.toNat), (9, (BitVec.ofInt 9 x.x).toNat), (16, x.count),
    (16, x.remain), (80, 0), (256, (x.wait.map fun n => 2 ^ n).sum)]

/-- A saved slot's record has a reserved field that is not zero (R236). -/
def slotRecordBad (x : Nat) : Bool := decide (field x 176 80 ≠ 0 ∨ field x 112 4 ≠ 0 ∨ field x 0 73 ≠ 0)

/-- `n` pieces of 16 bytes of a context's memory, each through its own page; none where a page gives no address. -/
def State.piecesAt (s : State) (asid va : Nat) : Nat → Option Nat × State
  | 0 => (some 0, s)
  | n + 1 =>
    match s.engineVaRead asid va 16 with
    | (.error _, s1) => (none, s1)
    | (.ok a, s1) =>
      match s1.piecesAt asid (va + 16) n with
      | (none, s2) => (none, s2)
      | (some rest, s2) => (some (s2.natAt a 16 + 2 ^ 128 * rest), s2)

/-- The liveness descriptor that a rod at a LIVE is saved by, as memory holds it (R58, R83). DESIGN CHOICE (assumption 69):
where its page gives no address at the save, the rod is saved as a sleeping one is, with every register and the whole of
its S segment; the manual states nothing. -/
def State.liveDesc (s : State) (r : Rod) : Option Nat × State :=
  match r.status, r.live with
  | .ready, some x => if r.atLive then s.piecesAt r.asid x.toNat 4 else (none, s)
  | _, _ => (none, s)

/-- A list of which only the elements at named places stay, the others zero. -/
def keepNamed {n : Nat} (mask lo : Nat) (xs : List (BitVec n)) : List (BitVec n) :=
  (xs.zip (List.range xs.length)).map fun p => if field mask (lo + p.2) 1 = 1 then p.1 else 0

/-- The registers of a rod that a descriptor names; the others read zero after a restore (R58). -/
def Rod.keepLive (r : Rod) (d : Nat) : Rod :=
  { r with beads := r.beads.map fun b => { b with v := keepNamed d 0 b.v }, s := keepNamed d 256 r.s }

/-- The state in which a rod is saved (R58, R152, R233, R292, R300): a rod parked with class 1 restarts, one parked on
an UPCALL stays parked, and any other re-enters the instruction at which it stands. Its restart address does not move
(R150, assumption 65). -/
def Rod.toSave (r : Rod) : Rod :=
  let r' := { r.noLines with scoreboard := [], peeked := [] }
  match r.status with
  | .parked p =>
    if p.cls = 1 then { r.replay.noLines with scoreboard := [] }
    else if p.cls = 4 then r'
    else { r' with status := .ready }
  | _ => { r' with status := .ready }

/-- A rod as its save block holds it. -/
def State.saveRod (s : State) (r : Rod) : SavedRod × State :=
  let (d, s1) := s.liveDesc r
  let r1 := (match d with
    | some x => r.keepLive x
    | none => r).toSave
  (⟨r1, r1.stack.reverse.map fun e => BitVec.ofNat 320 e.toNat, d, match r.status with
    | .parked p => p.cls
    | _ => 0⟩, s1)

/-- The rods of a frame as its save block holds them. -/
def State.saveRods (s : State) : List Rod → List SavedRod × State
  | [] => ([], s)
  | r :: rs =>
    let (x, s1) := s.saveRod r
    let (xs, s2) := s1.saveRods rs
    (x :: xs, s2)

/-- The cells of S that a save writes: every one, or those in the ranges that its rods' LIVE descriptors name
(R60, R300). -/
def savesS (rods : List SavedRod) (cell : Nat) : Bool :=
  rods.any fun r =>
    match r.desc with
    | none => true
    | some x => (List.range (field x 288 3)).any fun i =>
        decide ((liveRange x i).1 ≤ cell ∧ cell < (liveRange x i).1 + (liveRange x i).2)

/-- The cells of a frame's segment of a buffer, by buffer × 65536 + cell offset. -/
def State.segContents (s : State) (f : Frame) (buf : Nat) : List (Nat × Cell) :=
  (List.range (f.seg buf).limit.toNat).map fun i => (buf * 65536 + i, s.cell f.core buf ((f.seg buf).base.toNat + i))

/-- The saved slots of a frame (R232, R236). -/
def State.frameSlots (s : State) (u : Nat) : List SavedSlot :=
  (s.slots.filter fun p => decide (p.2.frame = u ∧ (p.2.st = .away ∨ p.2.st = .complete))).map fun p =>
    ⟨p.1 / 32, p.1 % 32, BitVec.ofNat 512 (p.2.record (p.1 % 32)), p.2⟩

/-- The windows of a frame that copy, of a walk the index window, each with the stop record of its stop (R193, R195). -/
def Frame.saveStops (f : Frame) : List (Nat × BitVec 256) :=
  ((List.range f.windows.length).filter fun n =>
    decide ((f.window n).st = .copying) && ((f.window n).gather.all fun g => decide ((g.pair n).1 = n))).map fun n =>
      (n, BitVec.ofNat 256 (((f.window n).stopRec f n 5).toNat f.asid))

/-- A window as a save stops it (R195). -/
def Window.saved (w : Window) : Window := { w with fault := none, st := if w.st = .copying then .stopped else w.st }

/-- A cell of a walk is written by the save engine; the frame's rods, which are all at save points, find it there when they
are restored. -/
def State.putCell (s : State) (f : Frame) (w : Window) (cell x : Nat) : State :=
  s.setCell f.core w.buf (f.place w cell) ⟨BitVec.ofNat 128 x, true⟩

/-- A walk that the save stops: the elements that have landed are written, and index cell 0 with their number and status 5, so
that DONE is exact (R194, R195). -/
def State.flushGather (s : State) (f : Frame) (win : Nat) (g : Gather) : State :=
  let ni := f.window (g.pair win).1
  let nv := f.window (g.pair win).2
  let n := match g.plan with
    | none => 0
    | some p => p.n
  let s1 := if g.words.isEmpty then s else s.putCell f ni (1 + g.done / 4) (packFields (g.words.map fun w => (32, w.toNat)))
  let s2 := if g.bytes.isEmpty then s1 else s1.putCell f nv (g.done * g.vw / 16) (natOfBytes g.bytes)
  s2.putCell f ni 0 (packFields [(32, n), (32, g.done), (32, 5), (32, g.r0)])

/-- The walks of a frame that the save stops. -/
def State.flushGathers (s : State) (f : Frame) : State :=
  (f.saveStops.map Prod.fst).foldl (fun s n =>
    match (f.window n).gather with
    | none => s
    | some g => s.flushGather f n g) s

/-- The save block of a frame (R301). -/
def State.blockOf (t : State) (f : Frame) (addr : Nat) : SaveBlock × State :=
  let (rods, s) := (t.flushGathers f).saveRods (t.rods.filter fun r => decide (r.frame = f.uid))
  let cellsS := (s.segContents f 0).filter fun c => savesS rods c.1
  ({ addr := addr
     stops := f.saveStops
     frame := { f with windows := f.windows.map Window.saved }
     rods := rods
     cells := cellsS ++ s.segContents f 1 ++ s.segContents f 2 ++ s.segContents f 3
     tasks := s.tasks.filter fun t => decide (t.frame = f.uid)
     conts := s.conts.filter fun c => decide (c.frame = f.uid)
     slots := s.frameSlots f.uid }, s)

/-- The offset of the first save block from SAVEBASE (R301, R302). -/
def firstBlock : Nat := 33 * 2 ^ 20 + 64

/-- The device virtual address of the next-free dword of a save area (R301). -/
def State.freeWord (s : State) (asid : Nat) : Nat := (s.ctxSaveBase asid + 33 * 2 ^ 20) % 2 ^ 48

/-- The offset of the next free byte of the save area (R301). -/
def State.nextFree (s : State) (asid : Nat) : Nat × State :=
  match s.engineVa asid (s.freeWord asid) false with
  | (.ok a, s1) => (max firstBlock (s1.natAt a 8), s1)
  | (.error _, s1) => (firstBlock, s1)

/-- The next-free dword is written (R301). -/
def State.setNextFree (s : State) (asid x : Nat) : State := s.writeVa asid (s.freeWord asid) 8 x

/-! ### Save blocks in memory (R58 to R60, R276, R301)

The manual gives the order of a block's contents and the layout of some of them (R48, R59, R193, R236, R253, R289); the
header and the other parts stand in memory in a layout of the model's (DESIGN CHOICE, assumption 3). -/

/-- A part of a block: its bytes, which are even, its value, and whether a value breaks it. -/
structure Part where
  bytes : Nat
  value : Nat
  bad : Nat → Bool

/-- A value has a reserved field that is not zero: each field with its lowest bit and width. -/
def rsv (fs : List (Nat × Nat)) (x : Nat) : Bool := fs.any fun p => decide (field x p.1 p.2 ≠ 0)

/-- The values of the parts that are still to be read. -/
abbrev BlockReader := StateM (List Nat)

/-- The value of the next part. -/
def BlockReader.next : BlockReader Nat := fun xs => (xs.headD 0, xs.tail)

/-- Parts whose values the restore takes as they were saved. -/
def BlockReader.skip (n : Nat) : BlockReader Unit := modify fun xs => xs.drop n

/-- The 128 bits of a capability register (R48). -/
def Cap.bits (c : Cap) : Nat := packFields [(48, c.hi.toNat), (48, c.lo.toNat), (24, c.handle.toNat), (8, c.top)]

/-- The v registers of a bead that a save writes (R58, R300). -/
def SavedRod.vNamed (x : SavedRod) : List Nat :=
  match x.desc with
  | none => List.range x.rod.alloc
  | some d => upto x.rod.alloc fun i => decide (field d i 1 = 1)

/-- The s registers that a save writes (R58, R300). -/
def SavedRod.sNamed (x : SavedRod) : List Nat :=
  match x.desc with
  | none => List.range 32
  | some d => upto 32 fun i => decide (field d (256 + i) 1 = 1)

/-- The state of a rod (R58): the named v registers of each bead, the named s registers, the predicates, the capability
registers, PC with bead count, resume position, MODE, FMT, WBASE, ACTIVE and depth, RODCYC and TIMER, the stack from the
bottom (R59), and the identity registers. -/
def SavedRod.parts (x : SavedRod) : List Part :=
  let r := x.rod
  let n := r.beads.length
  (r.beads.map fun b => ⟨4 * x.vNamed.length, packFields (x.vNamed.map fun i => (32, (nth 0 b.v i).toNat)), rsv []⟩) ++
    [⟨8 * x.sNamed.length, packFields (x.sNamed.map fun i => (64, (nth 0 r.s i).toNat)), rsv []⟩,
     ⟨16, packFields (r.beads.map fun b => (8, b.p.toNat / 2 * 2)),
      rsv ((8 * n, 128 - 8 * n) :: (List.range n).map fun k => (8 * k, 1))⟩] ++
    (r.c.map fun c => ⟨16, c.bits, rsv [(120, 2)]⟩) ++
    [⟨18, packFields [(48, r.pc.toNat), (5, r.nbeads), (4, r.resume), (7, 0), (32, r.mode.toNat), (16, r.fmt.toNat),
        (8, r.alloc / 32 * 8 + r.base.toNat), (16, r.active.toNat), (6, x.stack.length)],
      fun y => rsv [(57, 7), (142, 2)] y || decide (Config.stackDepth < field y 136 6)⟩,
     ⟨16, packFields [(64, r.rodcyc.toNat), (63, r.timerCount.toNat), (1, r.timerEn.toNat)], rsv []⟩] ++
    (x.stack.map fun e => ⟨40, e.toNat, rsv [(262, 58)]⟩) ++
    [⟨10, packFields [(10, r.rodid.toNat), (32, r.frameid.toNat), (6, r.boardid.toNat), (4, r.tableid.toNat),
        (19, r.devid.toNat)], rsv [(71, 9)]⟩]

/-- A rod as its parts in memory give it. -/
def SavedRod.read (x : SavedRod) : BlockReader SavedRod := do
  let r := x.rod
  let put {n : Nat} (w : Nat) (xs : List (BitVec n)) (at_ : List Nat) (y : Nat) : List (BitVec n) :=
    (at_.zip (List.range at_.length)).foldl (fun xs p => setNth xs p.1 (BitVec.ofNat n (field y (w * p.2) w))) xs
  let beads ← r.beads.mapM fun b => do
    let y ← BlockReader.next
    pure { b with v := put 32 b.v x.vNamed y }
  let sregs ← BlockReader.next
  let preds ← BlockReader.next
  let caps ← r.c.mapM fun _ => do
    let y ← BlockReader.next
    pure (Cap.ofNat y)
  let ctl ← BlockReader.next
  let clocks ← BlockReader.next
  let stack ← x.stack.mapM fun _ => do
    let y ← BlockReader.next
    pure (BitVec.ofNat 320 y)
  let id ← BlockReader.next
  pure { x with
    stack := stack
    rod := { r with
      beads := (beads.zip (List.range beads.length)).map fun p =>
        { p.1 with p := BitVec.ofNat 8 (field preds (8 * p.2 + 1) 7 * 2 + p.1.p.toNat % 2) }
      s := put 64 r.s x.sNamed sregs
      c := caps
      pc := codeAddr (field ctl 0 48), resume := field ctl 53 4, mode := BitVec.ofNat 32 (field ctl 64 32)
      fmt := BitVec.ofNat 16 (field ctl 96 16), base := BitVec.ofNat 3 (field ctl 112 3)
      active := BitVec.ofNat 16 (field ctl 120 16), rodcyc := BitVec.ofNat 64 (field clocks 0 64)
      timerCount := BitVec.ofNat 63 (field clocks 64 63), timerEn := decide (field clocks 127 1 = 1)
      rodid := BitVec.ofNat 10 (field id 0 10), frameid := BitVec.ofNat 32 (field id 10 32)
      boardid := BitVec.ofNat 6 (field id 42 6), tableid := BitVec.ofNat 4 (field id 48 4)
      devid := BitVec.ofNat 19 (field id 52 19) } }

/-- The launch state of a frame and its segment registers (R60, R276). -/
def Frame.savedParts (f : Frame) : List Part :=
  (f.caps.map fun c => ⟨16, c.bits, rsv [(120, 2)]⟩) ++ (f.args.map fun x => ⟨8, x.toNat, rsv []⟩) ++
    [⟨20, packFields ([f.segS, f.segW, f.segA, f.segC].flatMap fun g => [(20, g.limit.toNat), (20, g.base.toNat)]), rsv []⟩]

/-- The cells of a block with their presence bits, sixteen of them together (R60). -/
def cellParts (cs : List (Nat × Cell)) : List Part :=
  (cs.map fun c => ⟨16, c.2.data.toNat, rsv []⟩) ++
    (chunks 16 cs.length cs).map fun g =>
      ⟨2, packFields (g.map fun c => (1, c.2.present.toNat)), rsv [(g.length, 16 - g.length)]⟩

/-- The cells of a block as memory holds them. -/
def readCells (cs : List (Nat × Cell)) : BlockReader (List (Nat × Cell)) := do
  let data ← cs.mapM fun c => do
    let y ← BlockReader.next
    pure (c.1, y)
  let masks ← (chunks 16 cs.length cs).mapM fun _ => BlockReader.next
  pure ((data.zip (List.range data.length)).map fun p =>
    (p.1.1, ⟨BitVec.ofNat 128 p.1.2, decide (field (nth 0 masks (p.2 / 16)) (p.2 % 16) 1 = 1)⟩))

/-- The code of a window's state. -/
def WinState.code : WinState → Nat
  | .free => 0
  | .bound => 1
  | .copying => 2
  | .filled => 3
  | .stopped => 4
  | .draining => 5

/-- A window entry, with the walk that fills it (R176, R184). -/
def Window.parts (w : Window) : List Part :=
  [⟨16, w.cap.bits, rsv []⟩,
   ⟨32, packFields [(4, w.st.code), (4, w.buf), (24, w.cell), (32, w.rows), (32, w.rowc), (64, w.stride), (48, w.off),
      (48, w.landed)], rsv []⟩] ++
  match w.gather with
  | none => []
  | some g => [⟨30, packFields [(8, g.partner), (8, g.vw), (32, g.nmax), (64, g.r0), (64, g.r1), (64, g.done)], rsv []⟩]

/-- A queued task (R196, R211). -/
def Task.part (t : Task) : Part :=
  match t.kind with
  | .tile x af bf => ⟨34, packFields [(256, x.toNat), (8, af), (8, bf)], rsv []⟩
  | .infer x d i nw inw => ⟨34, packFields [(32, x), (32, d), (32, i), (32, nw), (32, inw)], rsv []⟩

/-- A slot with its guard words (R236). -/
def SavedSlot.parts (x : SavedSlot) : List Part :=
  ⟨64, x.record.toNat, slotRecordBad⟩ ::
    if x.slot.fixed then x.slot.guard.map fun g => ⟨2, g.toNat, rsv []⟩ else []

/-- A slot as memory holds it. -/
def SavedSlot.read (x : SavedSlot) : BlockReader SavedSlot := do
  let y ← BlockReader.next
  let gs ← (if x.slot.fixed then x.slot.guard else []).mapM fun _ => do
    let g ← BlockReader.next
    pure (BitVec.ofNat 16 g)
  pure { x with record := BitVec.ofNat 512 y, slot := { x.slot with guard := if x.slot.fixed then gs else x.slot.guard } }

/-- A bead's arrivals at the sixteen barriers (R60, R333). -/
def Bead.barPart (b : Bead) : Part :=
  ⟨6, packFields (b.bar.flatMap fun a => [(2, match a.kind with
    | .idle => 0
    | .waiting => 1
    | .arrived => 2), (1, a.ap.toNat)]), rsv []⟩

/-- The fault frame of a rod in handler mode, and its park class and resume position (R289, R301). -/
def SavedRod.endParts (x : SavedRod) : List Part :=
  (match x.rod.handler with
    | none => []
    | some f => [⟨128, f.toNat x.rod.alloc true, rsv [(1, 381)]⟩]) ++
  [⟨2, packFields [(8, x.cls), (4, x.rod.resume)], rsv [(12, 4)]⟩]

/-- The fault frame that 1,024 bits give (R289). -/
def FaultFrame.ofNat (x : Nat) : FaultFrame :=
  { sregs := (List.range 8).map fun i => BitVec.ofNat 64 (field x (512 + 64 * i) 64)
    epc := codeAddr (field x 464 48), act := BitVec.ofNat 16 (field x 448 16), modec := BitVec.ofNat 16 (field x 432 16)
    fmt := BitVec.ofNat 16 (field x 416 16), base := BitVec.ofNat 3 (field x 408 3), depth := field x 402 6
    bead := field x 398 4, cls := field x 390 8, cause := field x 382 8 }

/-- A rod with its fault frame as memory holds it; its resume position stands with its state. -/
def SavedRod.readEnd (x : SavedRod) : BlockReader SavedRod := do
  match x.rod.handler with
  | none => do
    BlockReader.skip 1
    pure x
  | some _ => do
    let y ← BlockReader.next
    BlockReader.skip 1
    pure { x with rod := { x.rod with handler := some (FaultFrame.ofNat y) } }

/-- The result words of a record, if it is ready. -/
def ContRec.words (c : ContRec) : List Word :=
  match c.result with
  | some (ws, _) => ws
  | none => []

/-- A continuation record: header, result area, registers, FMT and the address of its descriptor (R253). -/
def ContRec.parts (c : ContRec) : List Part :=
  [⟨16, c.header, rsv [(89, 7)]⟩,
   ⟨16 * c.req.kind.2, packFields (c.words.map fun w => (32, w.toNat)), rsv []⟩,
   ⟨16 * ((c.regs.length + 3) / 4), packFields (c.regs.map fun r => (32, r.2.toNat)), rsv []⟩,
   ⟨2, c.fmt.toNat, rsv []⟩, ⟨6, c.live.toNat, rsv []⟩]

/-- A continuation record as memory holds it. -/
def ContRec.read (c : ContRec) : BlockReader ContRec := do
  let h ← BlockReader.next
  let ws ← BlockReader.next
  let rs ← BlockReader.next
  let fmt ← BlockReader.next
  let live ← BlockReader.next
  pure { c with
    cpc := codeAddr (field h 0 48), mode := BitVec.ofNat 16 (field h 48 16)
    pred := BitVec.ofNat 8 (field h 66 7 * 2 + c.pred.toNat % 2), dreg := field h 81 8, origin := field h 96 32
    result := c.result.map fun x => ((List.range x.1.length).map fun i => BitVec.ofNat 32 (field ws (32 * i) 32), x.2)
    regs := (c.regs.zip (List.range c.regs.length)).map fun p => (p.1.1, BitVec.ofNat 32 (field rs (32 * p.2) 32))
    fmt := BitVec.ofNat 16 fmt, live := codeAddr live }

/-- The header of a block: its core, context and frame, and how many rods it holds. -/
def SaveBlock.header (b : SaveBlock) : Part :=
  ⟨64, packFields [(8, b.frame.core), (10, b.frame.asid), (6, 0), (32, b.frame.frameid.toNat), (16, b.rods.length)],
    rsv [(18, 6), (72, 440)]⟩

/-- What a block holds of its windows, with the stop records of those that the save stopped, and of its tasks (R60, R195). -/
def SaveBlock.queueParts (b : SaveBlock) : List Part := b.frame.windows.flatMap Window.parts ++ b.tasks.map Task.part

/-- What a block holds of its barriers (R60). -/
def SaveBlock.barParts (b : SaveBlock) : List Part :=
  ⟨2, b.frame.phases.toNat, rsv []⟩ :: b.rods.flatMap fun x => x.rod.beads.map Bead.barPart

/-- The parts of a block, in the order of R301: the header, the rods' states, the frame's state, then each rod's fault frame,
park class and resume position, and the unlaunched continuation records. -/
def SaveBlock.parts (b : SaveBlock) : List Part :=
  b.header :: b.rods.flatMap SavedRod.parts ++ b.frame.savedParts ++ cellParts b.cells ++ b.queueParts ++
    (b.stops.map fun x => ⟨32, x.2.toNat, rsv [(0, 22)]⟩) ++ b.slots.flatMap SavedSlot.parts ++ b.barParts ++
    b.rods.flatMap SavedRod.endParts ++ b.conts.flatMap ContRec.parts

/-- A block as memory holds it: its windows, tasks and barriers, whose form the manual does not give, and how many parts it
has, are as they were saved (assumption 3). -/
def SaveBlock.read (b : SaveBlock) : BlockReader SaveBlock := do
  BlockReader.skip 1
  let rods ← b.rods.mapM SavedRod.read
  let caps ← b.frame.caps.mapM fun _ => do
    let y ← BlockReader.next
    pure (Cap.ofNat y)
  let args ← b.frame.args.mapM fun _ => do
    let y ← BlockReader.next
    pure (BitVec.ofNat 64 y)
  BlockReader.skip 1
  let cells ← readCells b.cells
  BlockReader.skip b.queueParts.length
  let stops ← b.stops.mapM fun x => do
    let y ← BlockReader.next
    pure (x.1, BitVec.ofNat 256 y)
  let slots ← b.slots.mapM SavedSlot.read
  BlockReader.skip b.barParts.length
  let rods ← rods.mapM SavedRod.readEnd
  let conts ← b.conts.mapM ContRec.read
  pure { b with
    rods := rods, frame := { b.frame with caps := caps, args := args }, cells := cells, stops := stops, slots := slots
    conts := conts }

/-- The bytes of a block; blocks are contiguous (R301). -/
def SaveBlock.size (b : SaveBlock) : Nat := (b.parts.map Part.bytes).sum

/-- Parts are written one after another, in 16-bit pieces, each through its page. -/
def State.writeParts (s : State) (asid va : Nat) : List Part → State
  | [] => s
  | p :: rest =>
    State.writeParts ((List.range (p.bytes / 2)).foldl (fun s i => s.writeVa asid (va + 2 * i) 2 (field p.value (16 * i) 16)) s)
      asid (va + p.bytes) rest

/-- A part of `n` 16-bit pieces as memory holds it; a piece whose page gives no address is as it was saved, `kept`. A
malformed translation, or uncorrectable data, gives the cause of class 10 and the address (R138, R286, R303). -/
def State.readPart (s : State) (asid va kept : Nat) : Nat → Except (Nat × Nat) Nat × State
  | 0 => (.ok 0, s)
  | n + 1 =>
    let next (s1 : State) (lo : Nat) : Except (Nat × Nat) Nat × State :=
      match s1.readPart asid (va + 2) (kept / 65536) n with
      | (.ok hi, s2) => (.ok (lo + 65536 * hi), s2)
      | (.error e, s2) => (.error e, s2)
    match s.engineVaRead asid va 2 with
    | (.error (.malformed x), s1) => (.error (2, x), s1)
    | (.error (.data x), s1) => (.error (1, x), s1)
    | (.error _, s1) => next s1 (kept % 65536)
    | (.ok a, s1) => next s1 (s1.natAt a 2)

/-- The values of parts as memory holds them now. -/
def State.readParts (s : State) (asid va : Nat) : List Part → Except (Nat × Nat) (List Nat) × State
  | [] => (.ok [], s)
  | p :: rest =>
    match s.readPart asid va p.value (p.bytes / 2) with
    | (.error e, s1) => (.error e, s1)
    | (.ok x, s1) =>
      match s1.readParts asid (va + p.bytes) rest with
      | (.error e, s2) => (.error e, s2)
      | (.ok xs, s2) => (.ok (x :: xs), s2)

/-- Why the save engine cannot write `n` 16-bit pieces of a context's memory: the cause of class 10 and the address (R138,
R286, R303). -/
def State.areaFault (s : State) (asid va : Nat) : Nat → Option (Nat × Nat) × State
  | 0 => (none, s)
  | n + 1 =>
    match s.engineVa asid va true with
    | (.error (.malformed x), s1) => (some (2, x), s1)
    | (.error (.data x), s1) => (some (1, x), s1)
    | (_, s1) => s1.areaFault asid (va + 2) n

/-- The first fault of several ranges, each an address and a number of bytes. -/
def State.areaFaults (s : State) (asid : Nat) : List (Nat × Nat) → Option (Nat × Nat) × State
  | [] => (none, s)
  | (va, n) :: rest =>
    match s.areaFault asid va ((n + 1) / 2) with
    | (some e, s1) => (some e, s1)
    | (none, s1) => s1.areaFaults asid rest

/-- A walk that a save stops, or a copy, no longer waits for anything (R195). -/
def State.forgetWindows (s : State) (u : Nat) : State :=
  let other : Walker → Bool
    | .window f _ => decide (f ≠ u)
    | _ => true
  let drop (x : FaultRec) : FaultRec := { x with who := x.who.filter other }
  { s with
    faultWait := s.faultWait.map drop, faultRecs := s.faultRecs.map drop
    fabricWaits := s.fabricWaits.filter fun w => other w.who }

/-- A frame leaves its core: its block is written, and its slots, segments, windows and task-queue entries are free (R201,
R301). A fatal fault of the save engine halts the context instead (R303). -/
def State.saveFrame (t : State) (f : Frame) : State :=
  let (at_, t1) := t.nextFree f.asid
  let va := t1.ctxSaveBase f.asid + at_
  let (b, t2) := t1.blockOf f va
  match t2.areaFaults f.asid [(t2.freeWord f.asid, 8), (va, b.size)] with
  | (some (cause, x), s) => s.raiseHalt f.asid (haltOfEngine s f.core 10 cause x f.frameid)
  | (none, s) =>
    let rods := (s.rods.filter fun r => decide (r.frame = f.uid)).map Rod.uid
    let s1 := (rods.foldl (fun (s : State) u => s.untag u) s).forgetWindows f.uid
    let s2 := (s1.clearSegments f).writeParts f.asid va b.parts
    ({ s2 with
      saved := s2.saved ++ [b]
      rods := s2.rods.filter fun r => decide (r.frame ≠ f.uid)
      frames := s2.frames.filter fun g => decide (g.uid ≠ f.uid)
      tasks := s2.tasks.filter fun t => decide (t.frame ≠ f.uid)
      conts := s2.conts.filter fun c => decide (c.frame ≠ f.uid)
      portFaults := s2.portFaults.filter fun p => !rods.contains p.rod }.setNextFree f.asid (at_ + b.size)).wakeTaskQueue f.core

/-- Frames are saved one after another, until a fatal fault halts their context. -/
def State.saveFrames (s : State) : List Frame → State
  | [] => s
  | f :: fs => if s.halted f.asid then s else ((s.saveFrame f).take.2).saveFrames fs

/-- The rods that a request concerns have no committed line left on its way (R58, R160). -/
def State.linesHome (s : State) (v : Saving) : Bool :=
  s.inflight.all fun i => !decide (i.asid = v.asid) || (v.core.isSome && !decide (some i.core = v.core))

/-- The rods' tentative lines are committed, and performed unless a page or port bars them (R58, R312, R313). -/
def State.commitSaved (s : State) (v : Saving) : State := (s.savedRods v).foldl (fun s r => s.commitPerform r.uid) s

/-- A save that has settled is carried out: bursts end, and every frame is saved (R215, R301). -/
def State.saveAll (s : State) (v : Saving) : State :=
  let s2 := (s.bursts.filter fun b => v.concerns b.core b.asid).foldl (fun s b => s.endBurst b.core b.eng) s
  s2.saveFrames (s2.savedFrames v)

/-- A save goes on by one stage (R299 to R301). -/
def State.saveStage (s : State) (v : Saving) : State :=
  if s.halted v.asid then s.endRequest v 3
  else if !v.begun then
    if v.req.saveEnd < ((s.savedFrames v).map s.saveBound).sum then s.endRequest v 1
    else s.modSaving v { v with begun := true }
  else if !v.settling then
    if (s.savedRods v).all Rod.atSavePoint then (s.stopMarches v).modSaving v { v with settling := true } else s
  else
    let s1 := (s.commitSaved v).slotsAway v
    if !s1.settled v || !s1.linesHome v then s1
    else
      let s2 := s1.saveAll v
      if s2.halted v.asid then s2 else s2.endRequest v 0

/-- SAVE_REQUEST (R299 to R301): the request is taken from its ring; then its stages follow one another as they come
due. -/
def execSaveRequest (rec : BitVec 256) (s : State) : Host.Outcome State Fault Refusal :=
  match s.requestOf rec with
  | some v => .next (if v.req.op = 0 then s.saveStage v else s)
  | none =>
    if (SaveReq.ofNat rec.toNat).op = 1 then .next s
    else
      match s.takeRequest rec with
      | some s1 => .next s1
      | none => .next s

/-! ### Restoring (R280, R303) -/

/-- A block as memory holds it now, and whether a check of R303 refuses it: a stack beyond its depth, or a reserved field that is
not zero (R48, R59, R193, R236, R253, R289); or why the save engine cannot read it. -/
def State.readBlock (s : State) (b : SaveBlock) : Except (Nat × Nat) (SaveBlock × Bool) × State :=
  match s.readParts b.frame.asid b.addr b.parts with
  | (.error e, s1) => (.error e, s1)
  | (.ok xs, s1) => (.ok ((b.read xs).1, (b.parts.zip xs).any fun p => p.1.bad p.2), s1)

/-- Blocks as memory holds them, and whether one is refused; or why one cannot be read. -/
def State.readBlocks (s : State) : List SaveBlock → Except (SaveBlock × Nat × Nat) (List SaveBlock × Bool) × State
  | [] => (.ok ([], false), s)
  | b :: bs =>
    match s.readBlock b with
    | (.error e, s1) => (.error (b, e), s1)
    | (.ok (c, bad), s1) =>
      match s1.readBlocks bs with
      | (.error e, s2) => (.error e, s2)
      | (.ok (cs, worse), s2) => (.ok (c :: cs, bad || worse), s2)

/-- A slot that the port still keeps, with the fields of its saved record (R236); its wait set takes in what the port has
registered since the save (R233). -/
def Slot.ofRecord (y : Slot) (x : Nat) : Slot :=
  { y with
    st := if field x 133 1 = 1 then .complete else y.st
    owner := field x 120 8, chain := field x 116 4, cell := field x 92 20, size := field x 80 12 + 1
    count := field x 144 16, remain := field x 160 16, fixed := decide (field x 134 1 = 1)
    x := (BitVec.ofNat 9 (field x 135 9)).toInt, flags := BitVec.ofNat 7 (field x 73 7)
    wait := upto 256 fun n => decide (field x (256 + n) 1 = 1) || y.wait.contains n }

/-- A copy that the save stopped goes on from DONE of its stop record (R195). -/
def Frame.resume (f : Frame) : List (Nat × BitVec 256) → Frame
  | [] => f
  | (n, x) :: rest =>
    let go (w : Window) : Window :=
      { w with st := .copying, landed := if w.gather.isNone then field x.toNat 32 48 else w.landed }
    Frame.resume { f with windows := (f.together n).foldl (fun ws i => setNth ws i (go (nth Window.empty ws i))) f.windows } rest

/-- The blocks that a restore concerns (R303). -/
def State.blocksFor (s : State) (v : Saving) : List SaveBlock := s.saved.filter fun b => v.concerns b.frame.core b.frame.asid

/-- The frame holds carry state: a chain or a slot (R234). -/
def State.holdsCarry (s : State) (b : SaveBlock) : Bool :=
  !b.slots.isEmpty || s.chains.any fun c => decide (c.frame = b.frame.uid)

/-- A saved rod as it is bound on a lane of a core (R303). -/
def SavedRod.place (x : SavedRod) (s : State) (core lane : Nat) : Rod :=
  { x.rod with
    core := core, lane := lane, slot := s.freeSlot core lane
    stack := x.stack.reverse.map fun e => StackEntry.ofNat e.toNat }

/-- A rod joins its lane, where it fits; in handler mode its fault frame moves with it (R288, R303). The copies of its new die
are not left older than what the rod has written and read (R161, R162). -/
def State.seatRod (s : State) (core lane : Nat) (x : SavedRod) : Option State :=
  if !s.laneFits core lane 1 (x.rod.nbeads * x.rod.alloc) then none
  else
    let r := x.place s core lane
    let s1 := { s with rods := s.rods ++ [r] }.settleCopies (dieOfCore core) r.view
    some (match r.handler with
      | none => s1
      | some f => s1.writeFaultFrame r f true)

/-- Rods that binding created go to lanes (L0 + RODID) mod 128 (R303). -/
def State.seatBound (s : State) (core l0 : Nat) : List SavedRod → Option State
  | [] => some s
  | x :: xs =>
    match s.seatRod core ((l0 + x.rod.rodid.toNat) % Config.lanes) x with
    | none => none
    | some s1 => s1.seatBound core l0 xs

/-- Rods formed from records go to the lowest lane with room (R303). -/
def State.seatContinued (s : State) (core : Nat) : List SavedRod → Option State
  | [] => some s
  | x :: xs =>
    match (upto Config.lanes fun l => s.laneFits core l 1 (x.rod.nbeads * x.rod.alloc)).head? with
    | none => none
    | some lane =>
      match s.seatRod core lane x with
      | none => none
      | some s1 => s1.seatContinued core xs

/-- The lane that R280 takes for L0, among those from which every rod that binding created fits. -/
def State.restoreLane (s : State) (core : Nat) (rods : List SavedRod) : Option Nat :=
  (upto Config.lanes fun l => (s.seatBound core l rods).isSome).foldl (fun (best : Option Nat) l =>
    match best with
    | none => some l
    | some b => if s.laneUsed core l < s.laneUsed core b then some l else some b) none

/-- Cells of a block return to the frame's segments (R60). -/
def State.putCells (s : State) (f : Frame) : List (Nat × Cell) → State
  | [] => s
  | (k, c) :: rest =>
    (s.setCell f.core (k / 65536) ((f.seg (k / 65536)).base.toNat + k % 65536) c).putCells f rest

/-- The frame's unlaunched records return to its core's part of the area; none when they do not fit (R256). -/
def State.putConts (s : State) (core : Nat) : List ContRec → Option State
  | [] => some s
  | c :: rest =>
    match s.contRun c.asid core c.len with
    | none => none
    | some cell =>
      let c' := { c with core := core, cell := cell }
      let va := s.contAddr c.asid core cell
      let s1 := (s.writeVaCells core c.asid va [c'.header]).writeVaCells core c.asid (va + 16) (wordCells c.words)
      let s2 := s1.writeVaCells core c.asid (va + 16 * (1 + c.req.kind.2)) (wordCells (c.regs.map Prod.snd))
      { s2 with conts := s2.conts ++ [c'] }.putConts core rest

/-- The port still keeps a saved slot: a SUMFREE of its chain may have freed the entry since, and another chain have reserved it
(R218). -/
def SavedSlot.kept (x : SavedSlot) (y : Slot) : Bool :=
  decide ((y.st = .away ∨ y.st = .complete) ∧ y.asid = x.slot.asid ∧ y.owner = x.slot.owner ∧ y.chain = x.slot.chain ∧
    y.frame = x.slot.frame ∧ y.rod = x.slot.rod)

/-- The restored slots: Away ones open again, and each sends a wake to its wait set (R233, R234). -/
def State.reopen (s : State) : List SavedSlot → State
  | [] => s
  | x :: rest =>
    let y := s.slot x.core x.index
    if !x.kept y then s.reopen rest
    else
      let z := { y with guard := x.slot.guard }.ofRecord x.record.toNat
      let s1 := s.setSlot x.core x.index { z with st := if z.st = .away then .open_ else z.st, wait := [] }
      { s1 with slotWakes := s1.slotWakes ++ z.wait.map fun k => (k, x.core, x.index) }.reopen rest

/-- A block is bound on a core as memory holds it; none when it does not fit there (R35, R303). -/
def State.restoreOn (s : State) (core : Nat) (b : SaveBlock) : Option State :=
  let f := b.frame.resume b.stops
  let cells := [f.segS.limit.toNat, f.segW.limit.toNat, f.segA.limit.toNat, f.segC.limit.toNat]
  let born := b.rods.filter fun x => !x.rod.continued
  let later := sortBy (fun (x : SavedRod) => x.rod.rodid.toNat) (b.rods.filter fun x => x.rod.continued)
  let queue := (s.tasks.filter fun t => decide (t.core = core)).length + b.tasks.length
  if !s.contextFits core f.asid ∨ Config.frameTable ≤ (s.coreFrames core).length ∨ Config.taskQueue < queue then none
  else
    match s.restoreLane core born, s.chooseSegs core cells 0, firstFit (s.windowsTaken core) f.windows.length Config.windows with
    | some l0, some bases, some w0 =>
      let seg (i : Nat) (g : Seg) : Seg := ⟨g.limit, BitVec.ofNat 20 (nth 0 bases i)⟩
      let f' := { f with
        core := core, l0 := l0, w0 := w0, ft := s.freeFrame core
        segS := seg 0 f.segS, segW := seg 1 f.segW, segA := seg 2 f.segA, segC := seg 3 f.segC }
      match s.seatBound core l0 born with
      | none => none
      | some s1 =>
        match s1.seatContinued core later with
        | none => none
        | some s2 =>
          match s2.putConts core b.conts with
          | none => none
          | some s3 =>
            let s4 := { s3 with
              frames := s3.frames ++ [f']
              tasks := s3.tasks ++ b.tasks.map (fun (t : Task) => { t with core := core })
              saved := s3.saved.filter fun x => decide (x.frame.uid ≠ f.uid) }
            some ((((s4.clearSegments f').dropCode f').putCells f' b.cells).reopen b.slots).deliverReplies
    | _, _, _ => none

/-- Boards in the order in which R280 takes them: the table's own first, the most free slots first. -/
def State.boardOrder (s : State) (board : Nat) : List Nat :=
  let order (t : Nat) : List Nat := sortBy (fun b => 4096 - s.boardSlots b) (tableBoards t)
  order (board / 4) ++ ((List.range Config.tables).filter fun t => decide (t ≠ board / 4)).flatMap order

/-- The cores on which a block may be bound, in order (R234, R280, R303). -/
def State.coreOrder (s : State) (b : SaveBlock) : List Nat :=
  if s.holdsCarry b then [b.frame.core]
  else (s.boardOrder (boardOf b.frame.core)).flatMap fun x => sortBy (fun c => 1024 - s.slotsLeft c) (boardCores x)

/-- The blocks of the same group of four (R280, R303). -/
def SaveBlock.together (b : SaveBlock) (bs : List SaveBlock) : List SaveBlock :=
  bs.filter fun x => x.frame.gang && decide (x.frame.launch = b.frame.launch ∧
    x.frame.frameid.toNat / 4 = b.frame.frameid.toNat / 4)

/-- A frame of the group is bound. -/
def State.groupBound (s : State) (b : SaveBlock) : Bool :=
  s.frames.any fun f => f.gang && decide (f.launch = b.frame.launch ∧ f.frameid.toNat / 4 = b.frame.frameid.toNat / 4)

/-- A group's blocks are bound on a board, each at its former position; none when one does not fit (R303). -/
def State.restoreGroup (s : State) (board : Nat) : List SaveBlock → Option State
  | [] => some s
  | b :: bs =>
    match s.restoreOn (4 * board + b.frame.core % 4) b with
    | none => none
    | some s1 => s1.restoreGroup board bs

/-- A block, or the group it belongs to, is bound where it can be. -/
def State.restoreBlock (s : State) (bs : List SaveBlock) (b : SaveBlock) : Option State :=
  if b.frame.gang then
    let group := b.together bs
    let boards := if group.any s.holdsCarry || s.groupBound b then [boardOf b.frame.core]
      else s.boardOrder (boardOf b.frame.core)
    boards.findSome? fun x => s.restoreGroup x group
  else (s.coreOrder b).findSome? fun c => s.restoreOn c b

/-- What a restore writes beside memory's own state of the bound frames, each an address and a number of bytes: the fault frames of
their rods, and their continuation records (R256, R288). -/
def State.restoreWrites (s : State) (bs : List SaveBlock) : List (Nat × Nat) :=
  let mine := bs.map fun b => b.frame.uid
  ((s.rods.filter fun r => mine.contains r.frame && r.handler.isSome).map fun r =>
    ((s.ctxSaveBase r.asid + 128 * (r.core * 1024 + r.slotIndex)) % 2 ^ 48, 128)) ++
  (s.conts.filter fun c => mine.contains c.frame).map fun c => (s.contAddr c.asid c.core c.cell, 16 * c.len)

/-- A dispatch core has chosen cores for a claim and not bound all its frames: until it has, no restore takes their room (R280). -/
def State.claimHeld (s : State) : Bool :=
  s.dispatch.any fun d =>
    match d.phase with
    | .loop | .pass _ _ _ => false
    | _ => true

/-- A fatal fault of the save engine halts the context (R293, R303). -/
def State.saveFatal (s : State) (asid core : Nat) (frameid : BitVec 32) (e : Nat × Nat) : State :=
  s.raiseHalt asid (haltOfEngine s core 10 e.1 e.2 frameid)

/-- Blocks that have been read and are well formed are bound where one fits; none are while the context is malformed, or a claim
holds room (R269, R280, R303). -/
def State.bindBlocks (s : State) (v : Saving) (bs : List SaveBlock) : State :=
  if !s.servable v.asid || s.claimHeld then s
  else
    match bs.findSome? (s.restoreBlock bs) with
    | none => s
    | some s1 =>
      let (e, s2) := s1.areaFaults v.asid (s1.restoreWrites bs)
      match e with
      | none => s2
      | some e => s.saveFatal v.asid ((bs.map fun b => b.frame.core).headD 0) ((bs.map fun b => b.frame.frameid).headD 0) e

/-- A restore goes on: a malformed block refuses all of it, a fatal fault of the save engine halts the context, every block
that fits is bound, and it is done when none is left (R299, R303). -/
def State.restoreStage (s : State) (v : Saving) : State :=
  let bs := s.blocksFor v
  if s.halted v.asid then s.endRequest v 3
  else if bs.isEmpty then
    if s.saved.any fun b => decide (b.frame.asid = v.asid) then s.endRequest v 0
    else
      match s.areaFaults v.asid [(s.freeWord v.asid, 8)] with
      | (some e, s1) => s1.saveFatal v.asid (v.core.getD 0) 0 e
      | (none, s1) => (s1.setNextFree v.asid firstBlock).endRequest v 0
  else
    match s.readBlocks bs with
    | (.error (b, e), s1) => s1.saveFatal v.asid b.frame.core b.frame.frameid e
    | (.ok (_, true), s1) => (s1.logEvent Event.saveBadArea package v.asid v.record.toNat).endRequest v 2
    | (.ok (cs, false), s1) => s1.bindBlocks v cs

/-- RESTORE_REQUEST (R299, R303). -/
def execRestoreRequest (rec : BitVec 256) (s : State) : Host.Outcome State Fault Refusal :=
  match s.requestOf rec with
  | some v => .next (if v.req.op = 1 then s.restoreStage v else s)
  | none =>
    if (SaveReq.ofNat rec.toNat).op ≠ 1 then .next s
    else
      match s.takeRequest rec with
      | some s1 => .next s1
      | none => .next s

end Sys2Proof.Machine
end

