-- ==== Sys2Proof/Machine/Consistency.lean ====
section
/-!
DEFINITION. Memory below the rods: committed lines at their homes, messages between dies, requests for exclusive
ownership, and the accesses of Reckoner cores (R158, R160, R163, R165, R166, R168, R174, R310 to R313).
-/

namespace Sys2Proof.Machine

/-- An earlier commit of the same rod has lines still to perform (R160). -/
def State.earlierCommit (s : State) (i : Inflight) : Bool := s.inflight.any fun j => decide (j.rod = i.rod ∧ j.commit < i.commit)

/-- HOME_PERFORM (R160): a committed line reaches its home and is performed there; the lines of one commit in any order,
before any line of the rod's next one.  A line of an export page waits until this device owns the page (R312), a line of the
CXL tier until its port answers (R313). -/
def execHomePerform (index : Nat) (s : State) : Host.Outcome State Fault Refusal :=
  match s.inflight[index]? with
  | none => .next s
  | some i =>
    if s.earlierCommit i then .next s
    else
      match s.barredBytes i.bytes with
      | some (.page p, _) => .next (s.askPage p true)
      | some (.port _, _) => .next s
      | none => .next ({ s with inflight := s.inflight.erase i }.performLine i)

/-! ### Messages between dies (R165) -/

/-- A die may apply a message: its clock covers the stamp (R165). -/
def State.stampCovered (s : State) (m : DieMsg) : Bool :=
  (List.range 4).all fun j => decide (j = m.src ∨ j = m.dst ∨ nth 0 m.stamp j ≤ nth 0 (nth [] s.clocks m.dst) j)

/-- DIE_UPDATE_APPLY (R165): the oldest message from one die to another is applied once the clock covers its stamp. -/
def execDieUpdateApply (src dst : Nat) (s : State) : Host.Outcome State Fault Refusal :=
  match s.dieMsgs.find? fun m => decide (m.src = src ∧ m.dst = dst) with
  | none => .next s
  | some m => .next (if s.stampCovered m then s.applyMsgs dst [m] else s)

/-- DIE_STAMP_TOKEN (R165): a die whose clock has advanced since its last message to another sends its stamp alone. -/
def execDieStampToken (src dst : Nat) (s : State) : Host.Outcome State Fault Refusal :=
  if s.stampDue.contains (src, dst) then
    .next { s with
      stampDue := s.stampDue.erase (src, dst)
      stampSince := s.stampSince.filter fun p => decide (p.1 ≠ (src, dst))
      dieMsgs := s.dieMsgs ++ [⟨src, dst, nth [] s.clocks src, none⟩] }
  else .next s

/-! ### Reckoner cores (R8, R158, R174) -/

/-- A Reckoner core. -/
def State.reckoner (s : State) (k : Nat) : Reckoner := (s.reckoners.find? fun x => decide (x.core = k)).getD ⟨k, [], none, View.none⟩

/-- A Reckoner core is changed. -/
def State.setReckoner (s : State) (x : Reckoner) : State :=
  { s with reckoners := (s.reckoners.filter fun y => decide (y.core ≠ x.core)) ++ [x] }

/-- The view of a Reckoner core is changed. -/
def State.reckonerView (s : State) (k : Nat) (f : View → View) : State :=
  s.setReckoner { s.reckoner k with view := f (s.reckoner k).view }

/-- The bytes that a Reckoner core has stored and that still wait for exclusive ownership, oldest first (R174). -/
def State.pendingStores (s : State) (k : Nat) : List (Nat × Byte) :=
  (s.upgrades.filter fun u => decide (u.core = k)).flatMap Upgrade.bytes

/-- `n` bytes as a Reckoner core finds them: its own waiting stores, else the line, which its cache holds as the home has it
(R158). -/
def State.reckonerNat (s : State) (k a n : Nat) : Nat :=
  natOfBytes ((List.range n).map fun i =>
    match (s.pendingStores k).reverse.find? fun w => decide (w.1 = a + i) with
    | some w => w.2
    | none => Memory.read s.mem (a + i))

/-- A Reckoner core writes at the home: it then holds the line, and its view has the write (R158). -/
def State.reckonerWrite (s : State) (k : Nat) (stamps : List Stamp) (ws : List (Nat × Byte)) : State :=
  let (m, s1) := s.pathWrites 0 .device stamps ws
  let x := s1.reckoner k
  s1.setReckoner { x with
    lines := x.lines ++ (linesOf ws).filter fun l => !x.lines.contains l
    view := { x.view with own := x.view.own.join m } }

/-- A request for ownership is performed as a read-exclusive: the bytes are merged into the current data (R174). -/
def State.performUpgrade (s : State) (u : Upgrade) : State :=
  { s with upgrades := s.upgrades.erase u }.reckonerWrite u.core (s.reckoner u.core).view.rel u.bytes

/-- What a Reckoner core's waiting stores cannot pass now: pages that this device does not own, and CXL ports that do not
answer (R312, R313). -/
def State.upgradesBarred (s : State) (k : Nat) : List Barred :=
  (s.upgrades.filter fun u => decide (u.core = k)).filterMap fun u => (s.barredBytes u.bytes).map Prod.fst

/-- The oldest request for ownership that nothing bars, of those that are their core's oldest (R174, R312, R313). -/
def State.upgradeReady (s : State) : Option Upgrade :=
  s.upgrades.find? fun u =>
    decide ((s.upgrades.find? fun v => decide (v.core = u.core)) = some u) && (s.barredBytes u.bytes).isNone

/-- READ_EXCLUSIVE_UPGRADE (R174): the home performs the oldest request that nothing bars, and what bars the others is asked
for (R312). -/
def execReadExclusiveUpgrade (s : State) : Host.Outcome State Fault Refusal :=
  let s1 := (s.upgrades.flatMap fun u => (s.barredBytes u.bytes).toList.map Prod.fst).foldl State.askBarred s
  match s.upgradeReady with
  | none => .next s1
  | some u => .next (s1.performUpgrade u)

/-- Every request for ownership that a Reckoner core has made is performed, oldest first. -/
def State.drainUpgrades (s : State) (k : Nat) : State :=
  (s.upgrades.filter fun u => decide (u.core = k)).foldl State.performUpgrade s

/-- A Reckoner core loads `n` bytes: its cache holds the lines, and its view has what the load returned, with acquire or not
(R158, R163). -/
def State.reckonerLoad (s : State) (k a n : Nat) (acquire : Bool) : State :=
  let x := s.reckoner k
  s.setReckoner { x with
    lines := x.lines ++ (linesOf (placed a (bytesOfNat n 0))).filter fun l => !x.lines.contains l
    view := x.view.loaded .device acquire (returned (s.touching a n) a n) }

/-- A Reckoner core takes a place in the order S at dev scope (R158, R166). -/
def State.reckonerSc (s : State) (k : Nat) : State :=
  let s1 := s.reckonerView k fun v => s.scBefore v .device 4
  s1.scAfter (s1.reckoner k).view .device 4

/-- What a Reckoner core's AMO or SC writes at the home, with the releases of the writes before it, and its own with rl (R158,
R159, R163). -/
def State.reckonerAtHome (s : State) (k a n : Nat) (rl : Bool) (x : Nat) : State :=
  let v := (s.reckoner k).view
  s.reckonerWrite k ((if rl then [(v.release .device 4).through (homeDieOf a) (s.fresh + 1)] else []) ++ v.rel ++
    chainStamps (s.touching a n)) (placed a (bytesOfNat n x))

/-- The value that an AMO writes. -/
def amoValue (op : AmoOp) (w old x : Nat) : Nat :=
  let signed (y : Nat) : Int := if 2 ^ (w - 1) ≤ y then (y : Int) - 2 ^ w else y
  match op with
  | .swap => x
  | .add => (old + x) % 2 ^ w
  | .xor => old ^^^ x
  | .and => old &&& x
  | .or => old ||| x
  | .min => if signed x < signed old then x else old
  | .max => if signed old < signed x then x else old
  | .minu => min old x
  | .maxu => max old x

/-- A Reckoner operation follows the core's earlier stores (R158). -/
def reckonerDrains : ReckonerOp → Bool
  | .load _ | .store _ => false
  | _ => true

/-- A Reckoner operation writes. -/
def reckonerWrites : ReckonerOp → Bool
  | .store _ | .amo _ _ _ _ | .sc _ _ _ => true
  | _ => false

/-- Bytes of an operand of 4 or 8. -/
def operandBytes (dword : Bool) : Nat := if dword then 8 else 4

/-- A Reckoner operation at a physical address (R158). A store waits for ownership of its line; AMO, LR, SC and fences
follow the core's earlier stores. One of these at an address that is not aligned reaches no memory: it traps on the
Reckoner. -/
def State.reckonerAct (s : State) (k : Nat) (op : ReckonerOp) (a : Nat) (data : BitVec 64) : State :=
  match op with
  | .load n => s.reckonerLoad k a n false
  | .store n => { s with upgrades := s.upgrades ++ [⟨k, placed a (bytesOfNat n data.toNat)⟩] }
  | .amo f dword aq rl =>
    let n := operandBytes dword
    if a % n ≠ 0 then s
    else
      let s1 := s.drainUpgrades k
      let s2 := if aq && rl then s1.reckonerSc k else s1
      let s3 := s2.reckonerAtHome k a n rl (amoValue f (8 * n) (s2.natAt a n) (data.toNat % 2 ^ (8 * n)))
      s3.reckonerView k fun v => v.loaded .device aq (returned (s2.touching a n) a n)
  | .lr dword aq rl =>
    let n := operandBytes dword
    if a % n ≠ 0 then s
    else
      let s1 := s.drainUpgrades k
      let s2 := (if aq && rl then s1.reckonerSc k else s1).reckonerLoad k a n aq
      s2.setReckoner { s2.reckoner k with resv := some (a, n) }
  | .sc dword aq rl =>
    let n := operandBytes dword
    if a % n ≠ 0 then s
    else
      let s1 := s.drainUpgrades k
      let s2 := if aq && rl then s1.reckonerSc k else s1
      let s3 := if (s2.reckoner k).resv = some (a, n) then s2.reckonerAtHome k a n rl data.toNat else s2
      s3.setReckoner { s3.reckoner k with resv := none }
  | .fence f =>
    let s1 := s.drainUpgrades k
    let s2 := match f with
      | .release => s1
      | _ => s1.reckonerView k fun v => v.acquire .device 4 v.got
    let s3 := match f with
      | .full => s2.reckonerSc k
      | _ => s2
    match f with
      | .acquire => s3
      | _ => s3.reckonerView k fun v => v.fence .device 4

/-- RECKONER_ACCESS (R158, R310, R311): a Reckoner core's load, store, AMO, LR, SC or fence at device memory, at a physical
address; an address in this device's own export space goes through its tables. The access waits for an export page or a
CXL port, its own or that of the stores which it follows (R312); a malformed address reaches no memory. -/
def execReckonerAccess (request : ReckonerReq) (addr : BitVec 52) (data : BitVec 64) (s : State) :
    Host.Outcome State Fault Refusal :=
  let ⟨core, op⟩ := request
  if s.boot ≠ .running ∨ Config.reckoners ≤ core ∨ physBad addr.toNat then .next s
  else if reckonerDrains op && !(s.upgradesBarred core).isEmpty then
    .next { (s.upgradesBarred core).foldl State.askBarred s with
      inputs := .act (.reckonerAccess request addr data) :: s.inputs }
  else
    match op with
    | .fence _ => .next (s.reckonerAct core op 0 data)
    | _ =>
      match s.unitPhys 0 addr.toNat 0 (reckonerWrites op) with
      | (.ok a, s1) => .next (s1.reckonerAct core op a data)
      | (.error e, s1) =>
        .next (if e.barred then { s1 with inputs := .act (.reckonerAccess request addr data) :: s1.inputs } else s1)

end Sys2Proof.Machine
end

