-- ==== Sys2Proof/Machine/House.lean ====
section
/-!
DEFINITION. What the world outside the package does at the device's memory and pages: host accesses, the page grants and
recalls of the switch directory, and CXL ports that cease to answer (R310 to R313).
-/

namespace Sys2Proof.Machine

/-! ### Who waits goes on (R311 to R313, R364) -/

/-- A rod that waited for a page or a port goes on; one in a FENCE finishes its commit, for which a halt waits (R364). -/
def State.wakeStalled (s : State) (r : Rod) : State :=
  if s.inFence r then s.goOnFence r else s.setRod { r with status := .ready }

/-- Rods and engine requests whose wait satisfies a test go on. -/
def State.wakeWaiting (s : State) (why : Sleep → Bool) (request : EngineWait → Bool) : State :=
  let mine := s.rods.filter fun r =>
    match r.status with
    | .asleep w _ _ => why w
    | _ => false
  mine.foldl State.wakeStalled { s with fabricWaits := s.fabricWaits.filter fun w => !request w.for_ }

/-- Rods and engine requests that wait for an export page go on (R311, R312). -/
def State.wakeFabric (s : State) (page : Nat) : State :=
  s.wakeWaiting
    (fun
      | .fabric p _ _ => decide (p = page)
      | _ => false)
    (fun
      | .page p => decide (p = page)
      | _ => false)

/-- A CXL port ceases to answer, or answers again: then what waits for it goes on (R313). -/
def State.setPort (s : State) (port : Nat) (answers : Bool) : State :=
  if answers then
    { s with portsDown := s.portsDown.filter fun p => decide (p ≠ port) }.wakeWaiting
      (fun
        | .tier p _ _ _ => decide (p = port)
        | _ => false)
      (fun
        | .port p _ => decide (p = port)
        | _ => false)
  else if s.portsDown.contains port then s
  else { s with portsDown := s.portsDown ++ [port] }

/-! ### Host accesses (R310) -/

/-- The physical address of a byte of BAR0, for a processor: none where the page is not mapped; `true` where it waits for an
export page or a CXL port. -/
def State.hostPhys (s : State) (off : Nat) (write : Bool) : Option (Nat × Bool) × State :=
  match s.exportPhys (off % 2 ^ 38) write with
  | (.error _, s') => (none, s')
  | (.ok a, s') =>
    match s'.barred a write with
    | none => (some (a, false), s')
    | some (.page p) => (some (a, true), s'.askPage p write)
    | some (.port _) => (some (a, true), s')

/-- The physical addresses of `n` successive bytes of BAR0 up to one that is not mapped, and whether one has to wait. The
window is 256 GiB: an address past its end begins again (R310). -/
def State.hostBytes (s : State) (off : Nat) (write : Bool) : Nat → List Nat × Bool × State
  | 0 => ([], false, s)
  | n + 1 =>
    match s.hostPhys off write with
    | (none, s') => ([], false, s')
    | (some (a, wait), s') =>
      let (as, w, s2) := s'.hostBytes (off + 1) write n
      (a :: as, wait || w, s2)

/-- HOST_ACCESS (R310, R311): an access of a processor through BAR0, translated through the export space, on path 110. The
access is the exporter's own as far as the switch directory goes (assumption 71), and waits for the page; a page that is
not mapped is not reached. -/
def execHostAccess (write : Bool) (addr : BitVec 38) (bytes : List (BitVec 8)) (s : State) :
    Host.Outcome State Fault Refusal :=
  if s.boot ≠ .running then .next s
  else
    let (as, wait, s1) := s.hostBytes addr.toNat write bytes.length
    if wait then .next { s1 with inputs := .act (.hostAccess write addr bytes) :: s1.inputs }
    else .next (if write then (s1.pathWrites 6 .outside [] (as.zip bytes)).2 else s1)

/-! ### The switch directory (R311, R312) -/

/-- The state of a page after a request is granted (R311). -/
def granted (page : Nat) (old : Option DirState) (q : DirReq) : DirState :=
  if q.own then .owned q.ep
  else
    match old with
    | none => .shared (distinct [exporterOf page, q.ep])
    | some (.shared eps) => .shared (distinct (eps ++ [q.ep]))
    | some (.owned ep) => if ep = q.ep then .owned ep else .shared [q.ep]

/-- This device gives a page up (R312): its dirty lines are written back, its die copies dropped; tentative lines stay. A
page of its own export space is found by its physical place. -/
def State.giveUp (s : State) (page : Nat) : State :=
  let inPage (l : Nat) : Bool := decide (l / 512 = page) || decide (s.exportedAs (l * 128) = some page)
  { s with
    dirty := s.dirty.filter fun l => !inPage l
    dieCopies := s.dieCopies.filter fun c => !inPage c.line }

/-- An endpoint holds a page in a state. -/
def DirState.holds (ep : Nat) : DirState → Bool
  | .owned e => decide (e = ep)
  | .shared eps => eps.contains ep

/-- The directory is full of other pages: it recalls its least recently granted entry (R311). -/
def State.directoryRoom (s : State) (page : Nat) : State :=
  if (s.directory.any fun d => decide (d.page = page)) || decide (s.directory.length < Config.directoryPages) then s
  else
    match s.directory with
    | [] => s
    | d :: ds => { (if d.st.holds s.endpoint then s.giveUp d.page else s) with directory := ds }

/-- This device holds a page as the directory has it: the exporter holds one of which there is no entry (R311). -/
def State.holdsPage (s : State) (page : Nat) (st : Option DirState) : Bool :=
  match st with
  | none => decide (exporterOf page = s.endpoint)
  | some x => x.holds s.endpoint

/-- PAGE_GRANT (R311, R312): the directory grants the oldest request, once the endpoints that may not hold the page beside it
have given it up; of a page that had no entry, the exporter. -/
def execPageGrant (s : State) : Host.Outcome State Fault Refusal :=
  match s.dirReqs with
  | [] => .next s
  | q :: qs =>
    let s0 := { s with dirReqs := qs }.directoryRoom q.page
    let old := (s0.directory.find? fun d => decide (d.page = q.page)).map DirEntry.st
    let new := granted q.page old q
    let s1 := { s0 with directory := (s0.directory.filter fun d => decide (d.page ≠ q.page)) ++ [⟨q.page, new⟩] }
    let s2 := if s.holdsPage q.page old && !new.holds s.endpoint then s1.giveUp q.page else s1
    .next (if q.ep = s.endpoint then s2.wakeFabric q.page else s2)

/-- A page as the directory has it after one endpoint has acknowledged a recall: Shared with nobody is Uncached (R311). -/
def DirState.without (ep : Nat) : DirState → DirState
  | .owned e => if e = ep then .shared [] else .owned e
  | .shared eps => .shared (eps.filter fun e => decide (e ≠ ep))

/-- DIRECTORY_RECALL (R312): this device gives the page up and acknowledges, and no longer holds it. The entry stays, so that
its accesses wait until it is granted the page again. -/
def execDirectoryRecall (page : Nat) (s : State) : Host.Outcome State Fault Refusal :=
  .next { s.giveUp page with
    directory := s.directory.map fun d => if d.page = page then { d with st := d.st.without s.endpoint } else d }

end Sys2Proof.Machine
end

