-- ==== Sys2Proof/Machine/Management.lean ====
section
/-!
DEFINITION. The management core: boot, firmware updates, attestation, sensors, the grant counts and the alarms
(R306, R315 to R326).
-/

namespace Sys2Proof.Machine

/-! ### Images and configuration records (R317, R319) -/

/-- The kinds of images and records in management flash: management firmware, base-die, dispatch and Reckoner boot
images, and configuration records. The numbers are the model's own. -/
def flashKinds : List Nat := [0, 1, 2, 3, 4]

/-- Bytes of an SLH-DSA-SHA2-128s signature (R317). -/
def signatureBytes : Nat := 7856

/-- A firmware image is accepted: its length, kind, signature, digest and version (R317). -/
def imageOk (kind minver : Nat) (image : List Byte) : Bool :=
  let n := Config.imageLen image
  decide (image.length = 64 + n + signatureBytes ∧ Config.imageKind image = kind ∧ minver ≤ Config.imageVersion image) &&
    Config.slhDsaVerify Config.rootKey (image.take (64 + n)) (image.drop (64 + n)) &&
    decide (Config.sha256 ((image.drop 64).take n) = Config.imageDigest image)

/-- A flash slot of a kind. -/
def State.flashSlot (s : State) (kind : Nat) (slotB : Bool) : Option FlashSlot :=
  s.flash.find? fun f => decide (f.kind = kind ∧ f.slotB = slotB)

/-- The image of a kind that boots: slot A first, then slot B (R317). -/
def State.bootImage (s : State) (kind minver : Nat) : Option FlashSlot :=
  [false, true].findSome? fun b =>
    match s.flashSlot kind b with
    | some f => if f.valid && imageOk kind minver f.image then some f else none
    | none => none

/-- The fields of a configuration record's body (R319). -/
def CfgRec.ofNat (x : Nat) : CfgRec :=
  ⟨field x 448 32, field x 416 32, BitVec.ofNat 19 (field x 269 19), field x 244 12, field x 240 4, field x 238 2,
    BitVec.ofNat 16 (field x 208 16)⟩

/-- A configuration record qualifies under an owner key: magic, reserved fields, fields in their ranges, and signature (R4,
R319). -/
def recordOk (key record : List Byte) : Bool :=
  let x := natOfBytes (record.take 64)
  decide (record.length = 64 + signatureBytes ∧ field x 480 32 = 0x4D393630 ∧ field x 288 128 = 0 ∧ field x 256 13 = 0 ∧
    field x 224 14 = 0 ∧ field x 0 208 = 0 ∧ field x 238 2 ≠ 3 ∧ 1000 ≤ field x 244 12 ∧ field x 244 12 ≤ 3200 ∧
    2 ≤ field x 240 4 ∧ field x 240 4 ≤ 8) &&
    Config.slhDsaVerify key (record.take 64) (record.drop 64)

/-- The configuration of a record's bytes. -/
def CfgRec.ofBytes (record : List Byte) : CfgRec := CfgRec.ofNat (natOfBytes (record.take 64))

/-- A configuration record in flash, if it qualifies. -/
def State.cfgAt (s : State) (key : List Byte) (slotB : Bool) : Option FlashSlot :=
  (s.flashSlot 4 slotB).filter fun f => f.valid && recordOk key f.image

/-- The record with the greater SEQNO of those that qualify (R319). -/
def State.acceptedCfg (s : State) (key : List Byte) : Option FlashSlot :=
  match s.cfgAt key false, s.cfgAt key true with
  | some a, some b => if (CfgRec.ofBytes a.image).seqno < (CfgRec.ofBytes b.image).seqno then some b else some a
  | some a, none => some a
  | none, x => x

/-! ### Boot (R315, R316) -/

/-- Memory as a power cycle leaves it (R313): the lines of the CXL tier on ports that the configuration record marks
persistent stay, and of those whose last write was not yet persistent nothing is known (assumption 66). -/
def State.keptMem (s : State) : Memory :=
  let keeps (a : Nat) : Bool := decide (field a 50 2 = 1) && s.config.persist.getLsbD (field a 44 4)
  (s.volatile.filter fun l => keeps (l * 128)).foldl
    (fun m l => Memory.writeAll m ((List.range 128).map fun i => (l * 128 + i, Config.lostByte s.fresh (l * 128 + i))))
    (s.mem.filter fun c => keeps c.1)

/-- The device at power-on: what management flash, the key store and persistent memory hold is kept, and the world outside
goes on. -/
def State.powerUp (s : State) : State :=
  { State.reset with
    mem := s.keptMem, portsDown := s.portsDown, flash := s.flash, flashLog := s.flashLog, keysErased := s.keysErased
    config := s.config, inputs := s.inputs, fresh := s.fresh, ctxTable := s.ctxTable, rasters := s.rasters
    spdmOut := s.spdmOut, updOut := s.updOut }

/-- Booting from slot B is logged (R317), and the device notes what it booted. -/
def State.noteSlot (s : State) (f : FlashSlot) : State :=
  let s1 := { s with booted := s.booted ++ [f] }
  if f.slotB then s1.logEvent Event.bootSlotB package 0 f.kind else s1

/-- A failed step leaves the device in recovery (R316). -/
def State.bootFail (s : State) (stage : Nat) : State := { s.logEvent Event.bootFail package 0 stage with boot := .recovery }

/-- The compute dies are released: CLK starts, and the dispatch cores and Reckoner 0 run (R315, R316). -/
def State.release (s : State) : State :=
  { s with boot := .running, clk := 0, reckoner0 := true, dispatch := (List.range Config.tables).map Dispatch.start }

/-- The first 16 bytes of a record, as an event's DATA (R324). -/
def headData (record : List Byte) : Nat := natOfBytes (record.take 16)

/-- The configuration record is accepted, or the defaults apply (R319). DATA is of the record of slot A, or of slot B where A
holds none (R324). -/
def State.takeCfg (s : State) (key : List Byte) : State :=
  match s.acceptedCfg key with
  | some f => { s with config := CfgRec.ofBytes f.image, booted := s.booted ++ [f] }
  | none =>
    let bad := match s.flashSlot 4 false, s.flashSlot 4 true with
      | some f, _ | none, some f => headData f.image
      | none, none => 0
    { s.logEvent Event.cfgBadRecord package 0 bad with config := CfgRec.default }

/-- The images of step 4, up to one that is not accepted (R316). -/
def State.bootImages (s : State) : List Nat → Bool × State
  | [] => (true, s)
  | k :: ks =>
    match s.bootImage k s.config.minver with
    | none => (false, s)
    | some f => (s.noteSlot f).bootImages ks

/-- Steps 2 and 3 of boot (R316, R317, R319): slot A of the management firmware and then slot B, each held to MINVER of the
record accepted before, and then of the record that step 3 accepts under its owner key (assumption 67). -/
def State.bootManagement (s : State) : List Bool → Option State
  | [] => none
  | b :: bs =>
    match (s.flashSlot 0 b).filter fun f => f.valid && imageOk 0 s.config.minver f.image with
    | none => s.bootManagement bs
    | some f =>
      let s1 := (s.noteSlot f).takeCfg (Config.ownerKey f.image)
      if Config.imageVersion f.image < s1.config.minver then s.bootManagement bs else some s1

/-- POWER_ON (R315, R316): the boot steps in order. -/
def execPowerOn (s : State) : Host.Outcome State Fault Refusal :=
  let (k, s0) := s.powerUp.take
  if !Config.selfTest k || decide (Config.sha256 Config.rom ≠ Config.romDigest) then .next (s0.bootFail 1)
  else
    match s0.bootManagement [false, true] with
    | none => .next (s0.bootFail 2)
    | some s1 =>
      match s1.bootImages [1, 2, 3] with
      | (false, s2) => .next (s2.bootFail 4)
      | (true, s2) => .next (if Config.hbmTrains k then s2.release else s2.bootFail 5)

/-! ### The system block (R306) -/

/-- The rings of the system block with their record sizes. -/
def ringSizes : List (Nat × Nat) := [(0x00, 2), (0x10, 4), (0x20, 4), (0x30, 32)]

/-- An entry of the system block that is 0 or malformed, or names a malformed ring (R306, R309). -/
def State.entryUnused (s : State) (off : Nat) : Bool :=
  match s.sysEntry off with
  | none => true
  | some h =>
    match ringSizes.find? fun r => decide (r.1 = off) with
    | none => false
    | some (_, rsz) =>
      let q := s.queueAt h
      q.bad false || decide (q.rsz ≠ rsz) || (decide (off = 0x30) && decide (q.size % 2 ≠ 0))

/-- The 16 bytes that a log entry for an entry of the system block gives (R324): the first of the ring header that it names,
where that is malformed, and otherwise the first of the block. -/
def State.entryData (s : State) (block off : Nat) : Nat := s.natAt ((s.sysEntry off).getD block) 16

/-- SYSTEM_BLOCK_ADDRESS (R306): the device adopts the system block; each entry that it cannot use is logged. A block whose
address is malformed, or whose reserved bytes are not all zero, is rejected (R4); of an address that is malformed, which
names no bytes, DATA is the address (assumption 67). -/
def execSystemBlockAddress (addr : BitVec 52) (s : State) : Host.Outcome State Fault Refusal :=
  if s.boot ≠ .running then .next s
  else
    let a := addr.toNat
    if field a 40 12 ≠ 0 ∨ a % 128 ≠ 0 then .next (s.logEvent Event.sysBadBlock package 0 a)
    else if s.natAt (a + 0x68) (0x1000 - 0x68) ≠ 0 then .next (s.logEvent Event.sysBadBlock package 0 (s.natAt a 16))
    else
      let s1 := { s with sysBlock := some a }
      .next (((List.range 13).filter fun i => s1.entryUnused (8 * i)).foldl
        (fun (s : State) i => s.logEvent Event.sysBadBlock package 0 (s.entryData a (8 * i))) s1)

/-! ### Updates and attestation (R318, R320) -/

/-- What the device booted of a kind (R316). -/
def State.bootedOf (s : State) (kind : Nat) : Option FlashSlot := s.booted.find? fun f => decide (f.kind = kind)

/-- The slot of a kind that the device did not boot from (R320). -/
def State.inactiveSlot (s : State) (kind : Nat) : Bool := (s.bootedOf kind).any fun f => !f.slotB

/-- A slot of flash is written. -/
def State.setFlash (s : State) (f : FlashSlot) : State :=
  { s with flash := (s.flash.filter fun g => !decide (g.kind = f.kind ∧ g.slotB = f.slotB)) ++ [f] }

/-- The owner key that the running management firmware carries (R319). -/
def State.ownerKey (s : State) : List Byte :=
  match s.bootedOf 0 with
  | some f => Config.ownerKey f.image
  | none => []

/-- The image or record of an update is accepted (R317, R319): of a record, SEQNO is no less than the accepted one. -/
def State.updateOk (s : State) (u : Update) : Bool :=
  if u.kind = 4 then recordOk s.ownerKey u.image && decide (s.config.seqno ≤ (CfgRec.ofBytes u.image).seqno)
  else flashKinds.contains u.kind && imageOk u.kind s.config.minver u.image

/-- The management core ends an update (R320): what it has verified is marked valid in the inactive slot, or rejected. Of a new
record, PERSIST and POWERCAP hold at once, and a later record must not be below it. -/
def State.endUpdate (s : State) (u : Update) : State :=
  let s1 := { s with updating := none }
  if s.updateOk u then
    let s2 := { s1.setFlash ⟨u.kind, u.slotB, u.image, true⟩ with updOut := s1.updOut ++ [.accepted] }
    if u.kind = 4 then
      let c := CfgRec.ofBytes u.image
      { s2 with config := { s2.config with persist := c.persist, powercap := c.powercap, seqno := c.seqno } }
    else s2
  else { s1.logEvent Event.updReject package 0 (headData u.image) with updOut := s1.updOut ++ [.rejected] }

/-- FIRMWARE_UPDATE (R320): an update arrives through the management window, and is busy while another is in progress; or the
management core ends the one in progress, at a time of its own (assumption 73). -/
def execFirmwareUpdate (part : UpdateStep) (image : List (BitVec 8)) (s : State) :
    Host.Outcome State Fault Refusal :=
  if s.boot ≠ .running ∧ s.boot ≠ .recovery then .next s
  else
    match part, s.updating with
    | .ends, none => .next s
    | .ends, some u => .next (s.endUpdate u)
    | .arrives kind, none => .next { s with updating := some ⟨kind, s.inactiveSlot kind, image⟩ }
    | .arrives _, some _ => .next { s with updOut := s.updOut ++ [.busy] }

/-- A measurement, by index (R318), of what the device booted; of what it does not hold, a free value (assumption 68). -/
def State.measurement (s : State) (index : Nat) : Option (List Byte) :=
  let image (kind : Nat) : List Byte :=
    match s.bootedOf kind with
    | some f => Config.sha256 (if kind = 4 then f.image.take 64 else f.image)
    | none => Config.noMeasurement index
  match index with
  | 1 => some (Config.sha256 Config.rom)
  | 2 => some (image 0)
  | 3 => some (image 4)
  | 4 => some (image 1)
  | 5 => some (image 2)
  | 6 => some (image 3)
  | _ => none

/-- SPDM_REQUEST (R318): a request of version 1.2 or 1.3 (as 12H and 13H) for a measurement, with a signature or without.
Whatever it asks for, a signature is refused with the error Unspecified once the identity key is erased. -/
def execSpdmRequest (request : SpdmReq) (s : State) : Host.Outcome State Fault Refusal :=
  if s.boot = .powerOn ∨ (request.version ≠ 0x12 ∧ request.version ≠ 0x13) then .next s
  else if request.signed && s.keysErased then .next { s with spdmOut := s.spdmOut ++ [.unspecified] }
  else
    match s.measurement request.index with
    | none => .next s
    | some m => .next { s with
        spdmOut := s.spdmOut ++ [if request.signed then .signed m (Config.spdmSign m) else .plain m] }

/-! ### The event log as the management window shows it (R324) -/

/-- The 256 bits of an event log entry. -/
def LogEntry.toNat (e : LogEntry) : Nat :=
  packFields [(128, e.data.toNat), (30, 0), (10, e.asid), (8, e.die), (16, e.code), (64, e.time.toNat)]

/-- What the host and Penram read of the log: its entries, the oldest first, and the lost count. -/
def State.logWindow (s : State) : List Nat × Nat := (s.log.map LogEntry.toNat, s.lost)

/-! ### Sensors, power and cooling (R321 to R323) -/

/-- The temperatures of the dies in a sample (R321). -/
def Sample.temps (x : Sample) : List Nat := x.die.map DieReading.degrees

/-- SENSOR_SAMPLE (R321): the sensors, once a millisecond, and the package power in microwatts among the last 100. -/
def execSensorSample (die : List DieReading) (stack : List Nat) (millivolts milliamps : Nat) (s : State) :
    Host.Outcome State Fault Refusal :=
  let power := s.power ++ [millivolts * milliamps]
  .next { s with
    sample := some ⟨die, stack, millivolts, milliamps⟩
    prior := s.sample
    power := if 100 < power.length then power.drop 1 else power }

/-- Average package power over a number of watts, both times 100: above it, or below 97 % of it (R321, R322). -/
def State.powerAbove (s : State) (watts percent : Nat) : Bool :=
  decide (watts * percent * 10000 * s.power.length < s.power.sum)

/-- Temperatures of the die and of the stack of a board, in degrees (R322). -/
def State.boardTemps (s : State) (board : Nat) : Nat × Nat :=
  match s.sample with
  | none => (0, 0)
  | some x => (nth 0 x.temps (board / 16), nth 0 x.stack (board / 4))

/-- Ten milliseconds in cycles (R322). -/
def tenMs : Nat := 21000000

/-- THERM_LIMIT and POWER_LIMIT (R322, R325): DATA is the reading. -/
def State.logTherm (s : State) (board : Nat) : State :=
  s.logEvent Event.thermLimit (board / 16) 0 ((s.boardTemps board).1 + 2 ^ 32 * (s.boardTemps board).2)

/-- POWER_LIMIT with the average power in microwatts. -/
def State.logPower (s : State) : State :=
  s.logEvent Event.powerLimit package 0 (s.power.sum / max 1 s.power.length)

/-- A board's count falls by one for temperature (R322): for its die where that is hot, and else for its stack. -/
def Governor.heat (g : Governor) (die now : Nat) : Governor :=
  if 100 ≤ die then { g with dieHot := g.dieHot + 1, hotAt := now } else { g with stackHot := g.stackHot + 1, hotAt := now }

/-- One that was taken for temperature comes back (R322): for the die once it is below 95 degrees, and else for the stack
once it is below 90; none where neither is due. -/
def Governor.cool (g : Governor) (die stack now : Nat) : Option Governor :=
  if 0 < g.dieHot ∧ die < 95 then some { g with dieHot := g.dieHot - 1, hotAt := now }
  else if 0 < g.stackHot ∧ stack < 90 then some { g with stackHot := g.stackHot - 1, hotAt := now }
  else none

/-- GRANT_COUNT_ADJUST (R322): a board's count falls by one every 10 ms, to no less than 2, while it is hot or power is above
the cap; what was taken for its die or for its stack comes back by one every 10 ms once that is cool and the other is not
hot, and what was taken for power once power is under 97 % of the cap. -/
def execGrantCountAdjust (board : Nat) (s : State) : Host.Outcome State Fault Refusal :=
  let g := s.governor board
  let room := decide (2 < s.grantCount board)
  let (die, stack) := s.boardTemps board
  let hotDue := decide (g.hotAt + tenMs ≤ s.now)
  let capDue := decide (g.cappedAt + tenMs ≤ s.now)
  let under := decide (s.power.sum * 100 < s.config.powercap * 97 * 1000000 * max 1 s.power.length)
  let hot := decide (100 ≤ die ∨ 95 ≤ stack)
  if hotDue && room && hot then .next ((s.setGovernor board (g.heat die s.now)).logTherm board)
  else if capDue && room && s.powerAbove s.config.powercap 100 then
    .next (s.setGovernor board { g with capped := g.capped + 1, cappedAt := s.now }).logPower
  else if hotDue && !hot && (g.cool die stack s.now).isSome then
    .next ((s.setGovernor board ((g.cool die stack s.now).getD g)).logTherm board)
  else if capDue && decide (0 < g.capped) && under then
    .next (s.setGovernor board { g with capped := g.capped - 1, cappedAt := s.now }).logPower
  else .next s

/-! ### Alarms (R323, R326) -/

/-- Contexts that have a bound or saved frame (R286). -/
def State.liveContexts (s : State) : List Nat := distinct (s.frames.map Frame.asid ++ s.saved.map fun b => b.frame.asid)

/-- Class 11 is raised in every live context, with the alarm code as its cause (R286, R326). -/
def State.alarmHalts (s : State) (code : Nat) : State :=
  s.liveContexts.foldl (fun s a => s.raiseHalt a ⟨s.clk, 11, code, 0, 0, 0, 0, 0, 0, 0, true, 0, 0, false⟩) s

/-- The fate of the device that an alarm of codes 1 to 3 brings: reset, or what is stricter and decided already (R326). -/
def State.strictest (s : State) : BootPhase :=
  if s.boot = .unpowered ∨ s.alarmHold = some .unpowered then .unpowered else .heldInReset

/-- An alarm abandons the update in progress, and its slot is invalid (R320). -/
def State.abandonUpdate (s : State) : State :=
  match s.updating with
  | none => s
  | some u => { s with
      updating := none
      flash := s.flash.map fun f => if f.kind = u.kind ∧ f.slotB = u.slotB then { f with valid := false } else f }

/-- An alarm: it is logged, every live context halts, and the policy applies (R326). -/
def State.raiseAlarm (s : State) (code : Nat) : State :=
  let s1 := ((s.logEvent Event.alarm package 0 code).abandonUpdate).alarmHalts code
  let pol := s.config.alarmpol
  let s2 := if code = 4 then { s1 with alarmHold := some .unpowered }
    else if pol = 0 then s1
    else { s1 with alarmHold := some s1.strictest, keysErased := s1.keysErased || decide (pol = 2) }
  s2.settleAlarm

/-- The management core runs its firmware (R316): also when the compute dies have lost their power (R326). -/
def State.managed (s : State) : Bool := decide (s.boot ≠ .powerOn)

/-- ALARM (R326). -/
def execAlarm (code : Nat) (s : State) : Host.Outcome State Fault Refusal :=
  .next (if 1 ≤ code ∧ code ≤ 4 ∧ s.managed then s.raiseAlarm code else s)

/-- A die junction at 110 degrees or a stack at 105 in two samples a millisecond apart (R323, assumption 72). -/
def overLimit (now before : Sample) : Bool :=
  let both (limit : Nat) (xs ys : List Nat) : Bool := (xs.zip ys).any fun p => decide (limit ≤ p.1 ∧ limit ≤ p.2)
  both 110 now.temps before.temps || both 105 now.stack before.stack

/-- The device is to trip (R323, R326): once, whatever other alarm is being served. -/
def State.tripDue (s : State) : Bool :=
  s.managed && decide (s.strictest ≠ .unpowered) &&
    match s.sample, s.prior with
    | some x, some y => overLimit x y
    | _, _ => false

/-- Where a trip happens (R324): the die and the reading of its junction and of the hottest of its four stacks, for the first
die that is over a limit, or has a stack that is. -/
def Sample.tripAt (x : Sample) : Nat × Nat :=
  let stackOf (d : Nat) : Nat := ((x.stack.drop (4 * d)).take 4).foldl max 0
  let d := ((List.range 4).find? fun d => decide (110 ≤ nth 0 x.temps d ∨ 105 ≤ stackOf d)).getD package
  (d, nth 0 x.temps d + 2 ^ 32 * stackOf d)

/-- THERMAL_TRIP (R323, R326): a junction at 110 degrees or a stack at 105 for 1 ms raises alarm code 4. -/
def execThermalTrip (s : State) : Host.Outcome State Fault Refusal :=
  if !s.tripDue then .next s
  else
    let (d, x) := match s.sample with
      | some x => x.tripAt
      | none => (package, 0)
    .next ((s.logEvent Event.thermTrip d 0 x).raiseAlarm 4)

end Sys2Proof.Machine
end

