-- ==== Sys2Proof/Machine/Special.lean ====
section
/-!
DEFINITION. The special registers (R49 to R56) and the capability registers (R48, R119, R120): GETS, SETS, SETFMT,
SETMODE, WBASE, RDCLK, CAPLD, CAPNAR and CAPRD.
-/

namespace Sys2Proof.Machine

/-- A segment register as it reads (R56). -/
def Seg.toDword (g : Seg) : Dword := BitVec.ofNat 64 (g.limit.toNat * 2 ^ 20 + g.base.toNat)

/-- TIMER as it reads: EN clears when COUNT reaches 0 (R55). -/
def Rod.timerReg (r : Rod) : Dword :=
  BitVec.ofNat 64 (r.timerCount.toNat + if r.timerEn && decide (r.timerCount ≠ 0) then 2 ^ 63 else 0)

/-- A special register by its number, zero-extended (R49 to R56, R369). -/
def Rod.special (r : Rod) (fr : Frame) (clk : Dword) (bead n : Nat) : Dword :=
  match n with
  | 0 => r.mode.setWidth 64
  | 1 => r.fmt.setWidth 64
  | 2 => r.wbaseReg.setWidth 64
  | 3 => BitVec.ofNat 64 bead
  | 4 => r.rodid.setWidth 64
  | 5 => r.frameid.setWidth 64
  | 6 => r.boardid.setWidth 64
  | 7 => r.tableid.setWidth 64
  | 8 => r.devid.setWidth 64
  | 9 => r.active.setWidth 64
  | 10 => clk
  | 11 => r.rodcyc
  | 12 => r.timerReg
  | 13 => fr.segS.toDword
  | 14 => fr.segW.toDword
  | 15 => fr.segA.toDword
  | 16 => fr.segC.toDword
  | _ => 0

/-- Each bead that issues, with the number of beads that issued before it (R16). -/
def Rod.inTurn (r : Rod) : List (Nat × Nat) := r.issuing.zip (List.range 16)

/-- GETS (R369); BEADID is 32 bits wide, the others 64, and each bead reads in its own cycle. -/
def execGets (f : ShGets) (s : State) : Host.Outcome State Fault Refusal :=
  execute (.gets f) (do
    let r ← M.rod
    let fr ← M.frame
    let s ← get
    if isS f.d then onRod (modify fun q => q.setDword none f.d (r.special fr s.clk 0 f.n.toNat))
    else r.inTurn.forM fun (k, j) =>
      onRod (modify fun q =>
        q.setOperand (some k) (f.n.toNat ≠ 3) f.d ((r.tick j).special fr (s.clk + BitVec.ofNat 64 j) k f.n.toNat))) s

/-- RDCLK (R401). -/
def execRdclk (f : ShUD) (s : State) : Host.Outcome State Fault Refusal :=
  execute (.rdclk f) (do
    let r ← M.rod
    let s ← get
    if f.u then onRod (modify fun q => q.setDword none f.d s.clk)
    else r.inTurn.forM fun (k, j) =>
      onRod (modify fun q => q.setDword (some k) f.d (s.clk + BitVec.ofNat 64 j))) s

/-- The reserved field fault of an instruction that executes once for the rod. -/
def reservedField : Stop := .trap 9 4 none 0 0

/-- FMT is written (R52, R409). -/
def RM.writeFmt (x : Nat) : RM Unit := do
  RM.need (decide (field x 11 5 = 0) && !fmtBad x) reservedField
  modify fun r => { r with fmt := fmtOf x }

/-- SETFMT (R409); bits above [15:0] are ignored. -/
def execSetfmt (f : ShA) (s : State) : Host.Outcome State Fault Refusal :=
  execute (.setfmt f) (onRod (do
    let r ← get
    RM.writeFmt (field (r.sreg (sIndex f.a)).toNat 0 16))) s

/-- SETMODE (R410): MODE[15:0] from a register, or MODE.RM alone. -/
def execSetmode (f : ShSetmode) (s : State) : Host.Outcome State Fault Refusal :=
  execute (.setmode f) (onRod (do
    let r ← get
    if f.c.toNat = 0 then
      let x := (r.sreg (sIndex f.a)).toNat
      RM.need (!modeBad x && decide (field x 15 1 = 0 ∧ field x 16 48 = 0)) reservedField
      set (r.setControlMode (modeControl x))
    else set { r with mode := BitVec.ofNat 32 (r.mode.toNat / 8 * 8 + f.c.toNat) })) s

/-- MODE after a SETS: new control fields, and a 1 in [22:16] clears that flag (R50, R411). -/
def modeAfterSets (old : BitVec 32) (x : Nat) : BitVec 32 :=
  BitVec.ofNat 32 ((old.toNat / 65536 &&& (127 - field x 16 7)) * 65536 + field x 0 15)

/-- The window moves (R45, R433): an illegal base is the allocation fault with cause window. -/
def RM.writeBase (base : Nat) : RM Unit := do
  let r ← get
  RM.need (r.windowOk base) (.trap 5 1 none 0 0)
  set { r with base := BitVec.ofNat 3 base }

/-- SETS (R411). -/
def execSets (f : ShSets) (s : State) : Host.Outcome State Fault Refusal :=
  execute (.sets f) (onRod (do
    let r ← get
    let a := r.sreg (sIndex f.a)
    let x := a.toNat
    match f.n.toNat with
    | 0 =>
      RM.need (!modeBad x && decide (field x 15 1 = 0 ∧ field x 23 41 = 0)) reservedField
      set { r with mode := modeAfterSets r.mode x }
    | 1 => RM.writeFmt (field x 0 16)
    | 2 => RM.writeBase (field x 0 3)
    | 12 => set { r with timerEn := a.getLsbD 63 && decide (field x 0 63 ≠ 0), timerCount := a.setWidth 63 }
    | _ => pure ())) s

/-- WBASE (R433). -/
def execWbase (f : ShWbase) (s : State) : Host.Outcome State Fault Refusal :=
  execute (.wbase f) (onRod (RM.writeBase f.b.toNat)) s

/-! ### Capabilities -/

/-- CAPLD (R119, R344): the entry is read at its home. -/
def execCapld (f : ShCapld) (s : State) : Host.Outcome State Fault Refusal :=
  execute (.capld f) (do
    let r ← M.rod
    let i := (r.sreg (sIndex f.a)).toNat
    let s ← get
    M.need (decide (i ≤ s.ctxField r.asid 112 16)) (capFault none 5)
    let e ← M.tableEntry (s.ctxField r.asid 128 48 + 16 * i)
    M.need (decide (field e 120 2 = 0)) (capFault none 6)
    onRod (modify fun r => r.setCap f.d.toNat (Cap.ofNat e))) s

/-- The narrowed authority that a register pair gives (R345). -/
def Cap.narrowed (c : Cap) (lo hi : Nat) : Cap :=
  { c with
    rd := decide (field lo 48 1 = 1), w := decide (field lo 49 1 = 1), a := decide (field lo 50 1 = 1)
    e := decide (field lo 51 1 = 1), x := decide (field lo 52 1 = 1)
    lo := BitVec.ofNat 48 lo, hi := BitVec.ofNat 48 hi }

/-- The new capability has no more authority than the old, and LO ≤ HI (R120). -/
def Cap.narrows (new old : Cap) : Bool :=
  old.grants ⟨new.rd, new.w, new.a, new.e, new.x⟩ &&
    decide (old.lo.toNat ≤ new.lo.toNat ∧ new.hi.toNat ≤ old.hi.toNat ∧ new.lo.toNat ≤ new.hi.toNat)

/-- CAPNAR (R345). -/
def execCapnar (f : ShCapnar) (s : State) : Host.Outcome State Fault Refusal :=
  execute (.capnar f) (onRod (do
    let r ← get
    let c := r.cap f.s.toNat
    let lo := (r.sreg (sIndex f.b)).toNat
    let hi := (r.sreg (sIndex f.b + 1)).toNat
    RM.need (decide (field lo 53 11 = 0 ∧ field hi 48 16 = 0)) reservedField
    RM.need c.v (capFault none 1)
    RM.need ((c.narrowed lo hi).narrows c) (capFault none 7)
    set (r.setCap f.d.toNat (c.narrowed lo hi)))) s

/-- CAPRD (R346). -/
def execCaprd (f : ShCaprd) (s : State) : Host.Outcome State Fault Refusal :=
  execute (.caprd f) (onRod (modify fun r =>
    let c := r.cap f.k.toNat
    let x : Nat := match f.c.toNat with
      | 0 => c.handle.toNat
      | 1 => c.lo.toNat
      | 2 => c.hi.toNat
      | _ => c.top
    r.setDword none f.d (BitVec.ofNat 64 x))) s

end Sys2Proof.Machine
end

