-- ==== Sys2Proof/Machine/Segment.lean ====
section
/-!
DEFINITION. SEGLD: a segment register is loaded by a privileged rod (R56, R406, R407).
-/

namespace Sys2Proof.Machine

/-- A frame's segment register of a buffer is set. -/
def Frame.setSeg (f : Frame) (buf : Nat) (g : Seg) : Frame :=
  match buf with
  | 0 => { f with segS := g }
  | 1 => { f with segW := g }
  | 2 => { f with segA := g }
  | _ => { f with segC := g }

/-- A cell lies in a segment. -/
def Seg.holds (g : Seg) (cell : Nat) : Bool := decide (g.base.toNat ≤ cell ∧ cell < g.base.toNat + g.limit.toNat)

/-- A task or request names a buffer of its own core (R407). -/
def Task.names (t : Task) (buf : Nat) : Bool :=
  match t.kind with
  | .tile x af bf =>
    let mine (o : Operand) : Bool := decide (o.pos = positionOf t.core ∧ o.buf = buf)
    mine (recA x af) || mine (recB x bf) || decide ((recC x).1 = buf ∨ buf = 0)
  | .infer _ _ _ _ _ => decide (buf ≤ 1)

/-- Work of a frame names a buffer: a window, a task, or for C a carry slot or chain (R407). -/
def State.inUse (s : State) (f : Frame) (buf : Nat) : Bool :=
  f.windows.any (fun w => decide (w.st ≠ .free ∧ w.buf = buf)) ||
    s.tasks.any (fun t => decide (t.frame = f.uid) && t.names buf) ||
    (decide (buf = 3) && (s.chains.any (fun c => decide (c.frame = f.uid)) ||
      s.resvs.any (fun v => decide (v.frame = f.uid)) ||
      s.slots.any fun p => decide (p.2.frame = f.uid ∧ p.2.st ≠ .free)))

/-- The new value of a segment register is refused (R407). -/
def State.segmentBad (s : State) (f : Frame) (buf : Nat) (g : Seg) : Bool :=
  decide (bufferCells buf < g.base.toNat + g.limit.toNat) || s.inUse f buf ||
    s.frames.any fun h => decide (h.uid ≠ f.uid ∧ h.core = f.core) &&
      overlap (h.seg buf).base.toNat (h.seg buf).limit.toNat g.base.toNat g.limit.toNat

/-- Cells that are in one of two segments and not in the other become absent zeros (R407). -/
def State.moveSegment (s : State) (core buf : Nat) (old new : Seg) : State :=
  let lo := cellKey core buf 0
  { s with cells := s.cells.filter fun c =>
      !(decide (lo ≤ c.1 ∧ c.1 < lo + bufferCells buf) && (old.holds (c.1 - lo) != new.holds (c.1 - lo))) }

/-- A rod of the frame has an LDL under way in the buffer, of which a bead has issued (R407). -/
def State.ldlUnderWay (s : State) (f : Frame) (buf : Nat) : Bool :=
  s.rods.any fun r => decide (r.frame = f.uid) &&
    match r.status with
    | .asleep (.cell _ b _ (.ldl _ _ _ _ _)) _ _ => decide (b = buf) && (bitsOf r.active).any fun k => decide (k < r.resume)
    | _ => false

/-- The rods of a frame that a cell of a buffer holds before their first bead use the segment's new value from now on: none is a
waiter at its old cell any more (R21, R407). -/
def State.replaceHeld (s : State) (f : Frame) (buf : Nat) : State :=
  { s with rods := s.rods.map fun r =>
      match r.status with
      | .asleep (.cell _ b _ _) _ _ =>
        if r.frame = f.uid ∧ b = buf ∧ !(bitsOf r.active).any fun k => decide (k < r.resume) then { r with status := .ready } else r
      | _ => r }

/-- SEGLD (R406, R407): until every LDL under way in the buffer is performed, it is executed again. -/
def execSegld (i : ShSegld) (s : State) : Host.Outcome State Fault Refusal :=
  executeChecked (.segld i) (do
    let r ← M.rod
    M.need (r.handler.isSome && decide (field (r.sreg (sIndex i.a)).toNat 40 24 = 0)) reservedField)
    (do
      let r ← M.rod
      let f ← M.frame
      let s ← get
      let x := (r.sreg (sIndex i.a)).toNat
      let buf := i.k.toNat
      let g : Seg := ⟨BitVec.ofNat 20 (field x 20 20), BitVec.ofNat 20 (field x 0 20)⟩
      M.need (!s.segmentBad f buf g) (segmentFault none)
      M.need (!s.ldlUnderWay f buf) .settled
      M.upd fun s => ((s.moveSegment f.core buf (f.seg buf) g).modFrame f.uid fun f => f.setSeg buf g).replaceHeld f buf) s

end Sys2Proof.Machine
end

