-- ==== Sys2Proof/Machine/Dispatch.lean ====
section
/-!
DEFINITION. One arm per constructor of `Instr`: each is one call of that instruction's meaning.
-/

namespace Sys2Proof.Machine

/-- One instruction of the issuing rod, or one step of a unit of the device. -/
def exec (i : Instr) (s : State) : Host.Outcome State Fault Refusal :=
  match i with
  | .illegal f => Sys2Proof.Machine.execIllegal f s
  | .nop => Sys2Proof.Machine.execNop s
  | .bra f => Sys2Proof.Machine.execBra f s
  | .brpAll f => Sys2Proof.Machine.execBrpAll f s
  | .brpAny f => Sys2Proof.Machine.execBrpAny f s
  | .call f => Sys2Proof.Machine.execCall f s
  | .callReg f => Sys2Proof.Machine.execCallReg f s
  | .cont f => Sys2Proof.Machine.execCont f s
  | .ret f => Sys2Proof.Machine.execRet f s
  | .join => Sys2Proof.Machine.execJoin s
  | .exit => Sys2Proof.Machine.execExit s
  | .brk f => Sys2Proof.Machine.execBrk f s
  | .trap f => Sys2Proof.Machine.execTrap f s
  | .upcall f => Sys2Proof.Machine.execUpcall f s
  | .live f => Sys2Proof.Machine.execLive f s
  | .region => Sys2Proof.Machine.execRegion s
  | .iadd f => Sys2Proof.Machine.execIadd f s
  | .iaddImm f => Sys2Proof.Machine.execIaddImm f s
  | .isub f => Sys2Proof.Machine.execIsub f s
  | .imul f => Sys2Proof.Machine.execImul f s
  | .imulImm f => Sys2Proof.Machine.execImulImm f s
  | .imulhi f => Sys2Proof.Machine.execImulhi f s
  | .imad f => Sys2Proof.Machine.execImad f s
  | .idiv f => Sys2Proof.Machine.execIdiv f s
  | .irem f => Sys2Proof.Machine.execIrem f s
  | .imin f => Sys2Proof.Machine.execImin f s
  | .imax f => Sys2Proof.Machine.execImax f s
  | .iclamp f => Sys2Proof.Machine.execIclamp f s
  | .icmpS f => Sys2Proof.Machine.execIcmpS f s
  | .icmpN f => Sys2Proof.Machine.execIcmpN f s
  | .isad f => Sys2Proof.Machine.execIsad f s
  | .idot4 f => Sys2Proof.Machine.execIdot4 f s
  | .iabs f => Sys2Proof.Machine.execIabs f s
  | .ineg f => Sys2Proof.Machine.execIneg f s
  | .itof f => Sys2Proof.Machine.execItof f s
  | .ftoi f => Sys2Proof.Machine.execFtoi f s
  | .and f => Sys2Proof.Machine.execAnd f s
  | .andImm f => Sys2Proof.Machine.execAndImm f s
  | .andn f => Sys2Proof.Machine.execAndn f s
  | .or f => Sys2Proof.Machine.execOr f s
  | .orImm f => Sys2Proof.Machine.execOrImm f s
  | .xor f => Sys2Proof.Machine.execXor f s
  | .xorImm f => Sys2Proof.Machine.execXorImm f s
  | .shl f => Sys2Proof.Machine.execShl f s
  | .shlImm f => Sys2Proof.Machine.execShlImm f s
  | .shr f => Sys2Proof.Machine.execShr f s
  | .shrImm f => Sys2Proof.Machine.execShrImm f s
  | .sra f => Sys2Proof.Machine.execSra f s
  | .sraImm f => Sys2Proof.Machine.execSraImm f s
  | .shadd f => Sys2Proof.Machine.execShadd f s
  | .sel f => Sys2Proof.Machine.execSel f s
  | .mov f => Sys2Proof.Machine.execMov f s
  | .movi f => Sys2Proof.Machine.execMovi f s
  | .movhi f => Sys2Proof.Machine.execMovhi f s
  | .clz f => Sys2Proof.Machine.execClz f s
  | .popc f => Sys2Proof.Machine.execPopc f s
  | .brev f => Sys2Proof.Machine.execBrev f s
  | .bfx f => Sys2Proof.Machine.execBfx f s
  | .bfi f => Sys2Proof.Machine.execBfi f s
  | .ilv f => Sys2Proof.Machine.execIlv f s
  | .dilv f => Sys2Proof.Machine.execDilv f s
  | .unpk3 f => Sys2Proof.Machine.execUnpk3 f s
  | .tacc f => Sys2Proof.Machine.execTacc f s
  | .plog f => Sys2Proof.Machine.execPlog f s
  | .faddF32 f => Sys2Proof.Machine.execFaddF32 f s
  | .faddF16 f => Sys2Proof.Machine.execFaddF16 f s
  | .faddBf16 f => Sys2Proof.Machine.execFaddBf16 f s
  | .fsub f => Sys2Proof.Machine.execFsub f s
  | .fmulF32 f => Sys2Proof.Machine.execFmulF32 f s
  | .fmulF16 f => Sys2Proof.Machine.execFmulF16 f s
  | .fmulBf16 f => Sys2Proof.Machine.execFmulBf16 f s
  | .fmaF32 f => Sys2Proof.Machine.execFmaF32 f s
  | .fmaF16 f => Sys2Proof.Machine.execFmaF16 f s
  | .fmaBf16 f => Sys2Proof.Machine.execFmaBf16 f s
  | .hfma2F16 f => Sys2Proof.Machine.execHfma2F16 f s
  | .hfma2Bf16 f => Sys2Proof.Machine.execHfma2Bf16 f s
  | .fmin f => Sys2Proof.Machine.execFmin f s
  | .fmax f => Sys2Proof.Machine.execFmax f s
  | .fcmp f => Sys2Proof.Machine.execFcmp f s
  | .fcvt f => Sys2Proof.Machine.execFcvt f s
  | .ld f => Sys2Proof.Machine.execLd f s
  | .st f => Sys2Proof.Machine.execSt f s
  | .stn f => Sys2Proof.Machine.execStn f s
  | .ldlS f => Sys2Proof.Machine.execLdlS f s
  | .ldlW f => Sys2Proof.Machine.execLdlW f s
  | .ldlA f => Sys2Proof.Machine.execLdlA f s
  | .ldlC f => Sys2Proof.Machine.execLdlC f s
  | .stlS f => Sys2Proof.Machine.execStlS f s
  | .stlA f => Sys2Proof.Machine.execStlA f s
  | .stlC f => Sys2Proof.Machine.execStlC f s
  | .acas f => Sys2Proof.Machine.execAcas f s
  | .amax64 f => Sys2Proof.Machine.execAmax64 f s
  | .atomS32 f => Sys2Proof.Machine.execAtomS32 f s
  | .atomN32 f => Sys2Proof.Machine.execAtomN32 f s
  | .atomS64 f => Sys2Proof.Machine.execAtomS64 f s
  | .atomN64 f => Sys2Proof.Machine.execAtomN64 f s
  | .tex f => Sys2Proof.Machine.execTex f s
  | .trace f => Sys2Proof.Machine.execTrace f s
  | .vmarch f => Sys2Proof.Machine.execVmarch f s
  | .ttask f => Sys2Proof.Machine.execTtask f s
  | .infer f => Sys2Proof.Machine.execInfer f s
  | .sumset f => Sys2Proof.Machine.execSumset f s
  | .sumsend f => Sys2Proof.Machine.execSumsend f s
  | .sumfree f => Sys2Proof.Machine.execSumfree f s
  | .wbind f => Sys2Proof.Machine.execWbind f s
  | .wcsr f => Sys2Proof.Machine.execWcsr f s
  | .wtouch f => Sys2Proof.Machine.execWtouch f s
  | .wdrop f => Sys2Proof.Machine.execWdrop f s
  | .rand f => Sys2Proof.Machine.execRand f s
  | .capld f => Sys2Proof.Machine.execCapld f s
  | .capnar f => Sys2Proof.Machine.execCapnar f s
  | .launch f => Sys2Proof.Machine.execLaunch f s
  | .fdiv f => Sys2Proof.Machine.execFdiv f s
  | .fsqrt f => Sys2Proof.Machine.execFsqrt f s
  | .frcpF32 f => Sys2Proof.Machine.execFrcpF32 f s
  | .frcpF16 f => Sys2Proof.Machine.execFrcpF16 f s
  | .frsqF32 f => Sys2Proof.Machine.execFrsqF32 f s
  | .frsqF16 f => Sys2Proof.Machine.execFrsqF16 f s
  | .fexp2F32 f => Sys2Proof.Machine.execFexp2F32 f s
  | .fexp2F16 f => Sys2Proof.Machine.execFexp2F16 f s
  | .flog2F32 f => Sys2Proof.Machine.execFlog2F32 f s
  | .flog2F16 f => Sys2Proof.Machine.execFlog2F16 f s
  | .frnd f => Sys2Proof.Machine.execFrnd f s
  | .fclass f => Sys2Proof.Machine.execFclass f s
  | .voteAny f => Sys2Proof.Machine.execVoteAny f s
  | .voteAll f => Sys2Proof.Machine.execVoteAll f s
  | .voteBallot f => Sys2Proof.Machine.execVoteBallot f s
  | .voteEq f => Sys2Proof.Machine.execVoteEq f s
  | .rodredIadd f => Sys2Proof.Machine.execRodredIadd f s
  | .rodredFadd f => Sys2Proof.Machine.execRodredFadd f s
  | .rodredSmin f => Sys2Proof.Machine.execRodredSmin f s
  | .rodredSmax f => Sys2Proof.Machine.execRodredSmax f s
  | .rodredNmin f => Sys2Proof.Machine.execRodredNmin f s
  | .rodredNmax f => Sys2Proof.Machine.execRodredNmax f s
  | .rodredAnd f => Sys2Proof.Machine.execRodredAnd f s
  | .rodredOr f => Sys2Proof.Machine.execRodredOr f s
  | .rodscanIaddInc f => Sys2Proof.Machine.execRodscanIaddInc f s
  | .rodscanIaddExc f => Sys2Proof.Machine.execRodscanIaddExc f s
  | .rodscanFaddInc f => Sys2Proof.Machine.execRodscanFaddInc f s
  | .rodscanFaddExc f => Sys2Proof.Machine.execRodscanFaddExc f s
  | .shflIdx f => Sys2Proof.Machine.execShflIdx f s
  | .shflUp f => Sys2Proof.Machine.execShflUp f s
  | .shflDown f => Sys2Proof.Machine.execShflDown f s
  | .shflXor f => Sys2Proof.Machine.execShflXor f s
  | .pmovReg f => Sys2Proof.Machine.execPmovReg f s
  | .pmovPred f => Sys2Proof.Machine.execPmovPred f s
  | .pxout f => Sys2Proof.Machine.execPxout f s
  | .gets f => Sys2Proof.Machine.execGets f s
  | .sets f => Sys2Proof.Machine.execSets f s
  | .rdclk f => Sys2Proof.Machine.execRdclk f s
  | .setfmt f => Sys2Proof.Machine.execSetfmt f s
  | .setmode f => Sys2Proof.Machine.execSetmode f s
  | .wbase f => Sys2Proof.Machine.execWbase f s
  | .segld f => Sys2Proof.Machine.execSegld f s
  | .eret => Sys2Proof.Machine.execEret s
  | .yield => Sys2Proof.Machine.execYield s
  | .caprd f => Sys2Proof.Machine.execCaprd f s
  | .fenceAcq f => Sys2Proof.Machine.execFenceAcq f s
  | .fenceRel f => Sys2Proof.Machine.execFenceRel f s
  | .fenceAcqrel f => Sys2Proof.Machine.execFenceAcqrel f s
  | .fenceSc f => Sys2Proof.Machine.execFenceSc f s
  | .xfence f => Sys2Proof.Machine.execXfence f s
  | .flush f => Sys2Proof.Machine.execFlush f s
  | .flushInv f => Sys2Proof.Machine.execFlushInv f s
  | .bar f => Sys2Proof.Machine.execBar f s
  | .waitv f => Sys2Proof.Machine.execWaitv f s
  | .waitvS64 f => Sys2Proof.Machine.execWaitvS64 f s
  | .pref f => Sys2Proof.Machine.execPref f s
  | .burst f => Sys2Proof.Machine.execBurst f s
  | .chadv f => Sys2Proof.Machine.execChadv f s
  | .edgeget f => Sys2Proof.Machine.execEdgeget f s
  | .edgeput f => Sys2Proof.Machine.execEdgeput f s
  | .qpop f => Sys2Proof.Machine.execQpop f s
  | .qpush f => Sys2Proof.Machine.execQpush f s
  | .qblk f => Sys2Proof.Machine.execQblk f s
  | .dqblk f => Sys2Proof.Machine.execDqblk f s
  | .scoreboardWriteback rod => Sys2Proof.Machine.execScoreboardWriteback rod s
  | .timerExpiry rod => Sys2Proof.Machine.execTimerExpiry rod s
  | .yieldHoldEnd rod => Sys2Proof.Machine.execYieldHoldEnd rod s
  | .waitvMonitorWake rod => Sys2Proof.Machine.execWaitvMonitorWake rod s
  | .waitvSleepTimeout rod => Sys2Proof.Machine.execWaitvSleepTimeout rod s
  | .frameRetire frame => Sys2Proof.Machine.execFrameRetire frame s
  | .engineHaltStop asid => Sys2Proof.Machine.execEngineHaltStop asid s
  | .haltRecordWrite asid => Sys2Proof.Machine.execHaltRecordWrite asid s
  | .abortTokenReceive asid group step origin => Sys2Proof.Machine.execAbortTokenReceive asid group step origin s
  | .pageWalkComplete => Sys2Proof.Machine.execPageWalkComplete s
  | .faultRecordWrite => Sys2Proof.Machine.execFaultRecordWrite s
  | .portRevokedFault => Sys2Proof.Machine.execPortRevokedFault s
  | .dieUpdateApply src dst => Sys2Proof.Machine.execDieUpdateApply src dst s
  | .dieStampToken src dst => Sys2Proof.Machine.execDieStampToken src dst s
  | .readExclusiveUpgrade => Sys2Proof.Machine.execReadExclusiveUpgrade s
  | .flushWalkComplete rod => Sys2Proof.Machine.execFlushWalkComplete rod s
  | .shootdown rec => Sys2Proof.Machine.execShootdown rec s
  | .resolve rec => Sys2Proof.Machine.execResolve rec s
  | .deliver rec => Sys2Proof.Machine.execDeliver rec s
  | .assignEngine rec => Sys2Proof.Machine.execAssignEngine rec s
  | .releaseEngine rec => Sys2Proof.Machine.execReleaseEngine rec s
  | .setGroup rec => Sys2Proof.Machine.execSetGroup rec s
  | .saveRequest rec => Sys2Proof.Machine.execSaveRequest rec s
  | .restoreRequest rec => Sys2Proof.Machine.execRestoreRequest rec s
  | .upcallReply msg => Sys2Proof.Machine.execUpcallReply msg s
  | .copyCellLand frame win => Sys2Proof.Machine.execCopyCellLand frame win s
  | .wdropComplete frame win => Sys2Proof.Machine.execWdropComplete frame win s
  | .gatherElementLand frame win => Sys2Proof.Machine.execGatherElementLand frame win s
  | .chainEntryStart engine => Sys2Proof.Machine.execChainEntryStart engine s
  | .chainEntryComplete engine => Sys2Proof.Machine.execChainEntryComplete engine s
  | .taskPick core => Sys2Proof.Machine.execTaskPick core s
  | .governorGrant board => Sys2Proof.Machine.execGovernorGrant board s
  | .rampUpComplete core eng => Sys2Proof.Machine.execRampUpComplete core eng s
  | .taskUnitComplete core eng => Sys2Proof.Machine.execTaskUnitComplete core eng s
  | .taskDoneWrite core eng => Sys2Proof.Machine.execTaskDoneWrite core eng s
  | .grantReturn core eng => Sys2Proof.Machine.execGrantReturn core eng s
  | .burstEnd core => Sys2Proof.Machine.execBurstEnd core s
  | .inferComplete core eng => Sys2Proof.Machine.execInferComplete core eng s
  | .slotReserveRequest rod => Sys2Proof.Machine.execSlotReserveRequest rod s
  | .reservationReply rod => Sys2Proof.Machine.execReservationReply rod s
  | .slotOpen rod => Sys2Proof.Machine.execSlotOpen rod s
  | .creditRequest rod => Sys2Proof.Machine.execCreditRequest rod s
  | .creditReply rod => Sys2Proof.Machine.execCreditReply rod s
  | .transferApply core slot => Sys2Proof.Machine.execTransferApply core slot s
  | .slotWake core dst slot => Sys2Proof.Machine.execSlotWake core dst slot s
  | .triangleEntry board => Sys2Proof.Machine.execTriangleEntry board s
  | .textureResult record => Sys2Proof.Machine.execTextureResult record s
  | .traceResult record => Sys2Proof.Machine.execTraceResult record s
  | .marchResult record => Sys2Proof.Machine.execMarchResult record s
  | .contGatherTimeout record => Sys2Proof.Machine.execContGatherTimeout record s
  | .dispatchLoop table => Sys2Proof.Machine.execDispatchLoop table s
  | .queueClaim table asid queue h => Sys2Proof.Machine.execQueueClaim table asid queue h s
  | .queueRelease table asid queue h first => Sys2Proof.Machine.execQueueRelease table asid queue h first s
  | .queueBound asid queue h => Sys2Proof.Machine.execQueueBound asid queue h s
  | .queuePass asid queue h => Sys2Proof.Machine.execQueuePass asid queue h s
  | .bindRecord core rec => Sys2Proof.Machine.execBindRecord core rec s
  | .boardReservation table => Sys2Proof.Machine.execBoardReservation table s
  | .launchFabricDelivery dev asid queue rec => Sys2Proof.Machine.execLaunchFabricDelivery dev asid queue rec s
  | .hostAccess write addr bytes => Sys2Proof.Machine.execHostAccess write addr bytes s
  | .pageGrant => Sys2Proof.Machine.execPageGrant s
  | .directoryRecall page => Sys2Proof.Machine.execDirectoryRecall page s
  | .stallTimeout agent => Sys2Proof.Machine.execStallTimeout agent s
  | .powerOn => Sys2Proof.Machine.execPowerOn s
  | .systemBlockAddress addr => Sys2Proof.Machine.execSystemBlockAddress addr s
  | .firmwareUpdate part image => Sys2Proof.Machine.execFirmwareUpdate part image s
  | .spdmRequest request => Sys2Proof.Machine.execSpdmRequest request s
  | .sensorSample die stack millivolts milliamps => Sys2Proof.Machine.execSensorSample die stack millivolts milliamps s
  | .grantCountAdjust board => Sys2Proof.Machine.execGrantCountAdjust board s
  | .thermalTrip => Sys2Proof.Machine.execThermalTrip s
  | .alarm code => Sys2Proof.Machine.execAlarm code s
  | .reservedOpcode word => Sys2Proof.Machine.execReservedOpcode word s
  | .reckonerAccess request addr data => Sys2Proof.Machine.execReckonerAccess request addr data s
  | .homePerform index => Sys2Proof.Machine.execHomePerform index s
  | .instructionCacheFill rod => Sys2Proof.Machine.execInstructionCacheFill rod s

end Sys2Proof.Machine
end

