-- ==== Sys2Proof/Machine/Sched.lean ====
section
/-!
DEFINITION. What the machine can do next: the rods that can issue, the steps of the device's units that are due, and
the next thing that the world outside does (R20 to R25, R33, R277); and the passage of time when nothing can be done.
Where several moves are possible and the manual gives no order, a free value chooses (assumption 1), and a move that
stays possible is made in the end (R33, assumption 49).
-/

namespace Sys2Proof.Machine

/-! ### Rods that can issue (R21, R23, R24) -/

/-- The rod stands at a save point and its context is being saved on its core (R300). -/
def State.heldForSave (s : State) (r : Rod) : Bool :=
  s.settlingOn r.core r.asid || (r.atLive && s.savingOn r.core r.asid)

/-- The rod takes a timer fault before its next instruction (R55). -/
def State.timerFirst (s : State) (r : Rod) : Bool :=
  r.timerExpired && !s.halted r.asid && !s.settlingOn r.core r.asid &&
    ((r.handler.isNone && s.atBoundary r) || (r.timerEn && decide (r.timerCount = 0)))

/-- The rod could issue if its next instruction were at hand: it is ready, and nothing of its context stops it. -/
def State.runnable (s : State) (r : Rod) : Bool :=
  decide (r.status = .ready) && !s.halted r.asid && !s.heldForSave r && !s.timerFirst r

/-- The rod's next instruction is at hand, and the scoreboard does not hold it for a register (R21). -/
def State.canStart (s : State) (r : Rod) : Bool :=
  s.runnable r &&
    match s.fetched r with
    | none => false
    | some w => !r.interlocked w

/-- An instruction whose beads consume cells of the typed buffers (R21, R129). -/
def consumes : Instr → Bool
  | .ldlS f | .ldlW f | .ldlA f | .ldlC f => decide (f.q.toNat ≠ 2)
  | .sumset _ | .sumsend _ | .tex _ | .vmarch _ => true
  | _ => false

/-- What becomes of the device where the rod's next instruction is held at the cell of its first bead: no lane cycle passes, and
the rod sleeps, or its group gives way (R21, R32). -/
def State.holdOf (s : State) (r : Rod) : Option State :=
  match s.instrAt r with
  | none => none
  | some i =>
    if !consumes i then none
    else
      match exec i { s with cur := some r.uid } with
      | .next t => if t.clk = s.clk then some t else none
      | _ => none

/-- The rod's next instruction would be held at the cell of its first bead (R21). -/
def State.heldNext (s : State) (r : Rod) : Bool := (s.holdOf r).isSome

/-- Once held, the rod is not held again in the same cycle, as one is whose groups are both held at cells (R32). -/
def State.holdLasts (s : State) (r : Rod) : Bool :=
  match s.holdOf r with
  | none => false
  | some t => (t.rod? r.uid).all fun q => !(t.canStart q && t.heldNext q)

/-- The rod is ready (R23). -/
def State.canIssue (s : State) (r : Rod) : Bool := s.canStart r && !s.heldNext r

/-- The rods that are held at a cell from now on (R21, R25). Those that begin to be held at one cell in the same cycle wait in
the order of the list of rods, since R128 gives none (DESIGN CHOICE, assumption 1). -/
def State.held (s : State) : List Nat := (s.rods.filter fun r => s.canStart r && s.holdLasts r).map Rod.uid

/-- Rods both of whose groups are held at cells: an exchange of the two takes a cycle (R32, assumption 1). -/
def State.exchanges (s : State) : List Move :=
  (s.rods.filter fun r => s.canStart r && s.heldNext r && !s.holdLasts r).map fun r => .hold r.uid

/-- Key of a lane. -/
def laneKey (core lane : Nat) : Nat := core * 128 + lane

/-- The distance of a slot from the one after the slot that issued last on its lane (R24). -/
def State.turn (s : State) (r : Rod) : Nat := (r.slot + 15 - Sparse.get 7 s.lastSlot (laneKey r.core r.lane)) % 8

/-- The rod is the one that its lane takes next (R24). -/
def State.laneTakes (s : State) (r : Rod) : Bool :=
  s.rods.all fun q =>
    !(decide (q.core = r.core ∧ q.lane = r.lane ∧ q.uid ≠ r.uid) && s.canIssue q && decide (s.turn q < s.turn r))

/-- The rods that their lanes take next. -/
def State.issues (s : State) : List Move :=
  (s.rods.filter fun r => s.canIssue r && s.laneTakes r).map fun r => .issue r.uid

/-! ### The slot table (R277) -/

/-- STATE of a bound rod (R25, R277): 0 ready, 1 issuing, 2 waiting, 3 sleeping, 4 parked. -/
def State.slotState (s : State) (r : Rod) : Nat :=
  match r.status with
  | .ready =>
    if s.cur = some r.uid then 1
    else if (s.fetched r).any r.interlocked then 2
    else if s.heldNext r then 3
    else 0
  | .held _ => 2
  | .asleep why _ _ => if why.sleeps then 3 else 2
  | .parked _ => 4

/-- An entry of a core's slot table, by lane × 8 + slot (R277): all zero where no rod holds the slot. -/
def State.slotEntry (s : State) (core index : Nat) : BitVec 32 :=
  match s.rods.find? fun r => decide (r.core = core ∧ r.slotIndex = index) with
  | none => 0
  | some r =>
    let ft := match s.frame? r.frame with
      | some f => f.ft
      | none => 0
    BitVec.ofNat 32 (packFields [(5, 0), (3, r.alloc / 32 - 1), (4, r.nbeads - 1), (6, ft), (10, r.asid), (3, s.slotState r), (1, 1)])

/-! ### Steps of the device that are due -/

/-- The step would change something. -/
def State.changes (s : State) (i : Instr) : Bool :=
  match exec i s with
  | .next t => decide (t ≠ s)
  | _ => false

/-- What a rod has coming to it. -/
def State.rodSteps (s : State) (r : Rod) : List Instr :=
  (if r.scoreboard.any fun p => p.value.isSome then [.scoreboardWriteback r.uid] else []) ++
  (if s.timerFirst r then [.timerExpiry r.uid] else []) ++
  (if s.runnable r && (s.fetched r).isNone then [.instructionCacheFill r.uid] else []) ++
  (if s.halted r.asid && !s.inFence r then [] else
    match r.status with
    | .held t => if t ≤ s.now then [.yieldHoldEnd r.uid] else []
    | .asleep (.waitv _ hit full) _ began =>
      (if hit then [.waitvMonitorWake r.uid] else []) ++
      (if full && decide (began + 1024 ≤ s.now) then [.waitvSleepTimeout r.uid] else [])
    | .asleep (.flush _ _) _ began => if began + 32768 ≤ s.now then [.flushWalkComplete r.uid] else []
    | .asleep why _ began => if (why.stallEnd began).any fun t => decide (t ≤ s.now) then [.stallTimeout (.rod r.uid)] else []
    | _ => [])

/-- A shoot-down of the context is posted and not complete: its copies pause (R191). -/
def State.shootPosted (s : State) (asid : Nat) : Bool :=
  match s.sysEntry downRing with
  | none => false
  | some h =>
    let q := s.queueAt h
    !q.bad false && decide (q.rsz = 2) &&
      (List.range q.count).any fun i => decide (field (s.natAt (h + q.recordAt (q.head + i)) 16) 0 10 = asid)

/-- What a frame's windows and its end have coming. -/
def State.frameSteps (s : State) (f : Frame) : List Instr :=
  if s.halted f.asid then []
  else
    ((List.range f.windows.length).flatMap fun n =>
      let w := f.window n
      match w.st with
      | .draining => [.wdropComplete f.uid n]
      | .copying =>
        if !s.hasTurn f n || s.shootPosted f.asid then []
        else
          match w.gather with
          | none => [.copyCellLand f.uid n]
          | some _ => [.gatherElementLand f.uid n]
      | _ => []) ++
    (if s.frameDone f then [.frameRetire f.uid] else [])

/-- What the halts of contexts have coming (R293 to R295). -/
def State.haltSteps (s : State) : List Instr :=
  (s.ctxs.filter fun c => s.halting c.asid).map fun c =>
    if s.enginesAtWork c.asid then .engineHaltStop c.asid else .haltRecordWrite c.asid

/-- What translation, committed lines and dies have coming. -/
def State.memorySteps (s : State) : List Instr :=
  (if s.walksUnderWay.isEmpty then [] else [.pageWalkComplete]) ++
  (if s.faultWait.any s.recordable then [.faultRecordWrite] else []) ++
  (if s.portFaults.isEmpty then [] else [.portRevokedFault]) ++
  ((List.range s.inflight.length).flatMap fun n =>
    match s.inflight[n]? with
    | none => []
    | some i =>
      if s.earlierCommit i then []
      else if (s.lineStall i).any fun x => decide (x.1 ≤ s.now) then [.stallTimeout (.line n)]
      else [.homePerform n]) ++
  (s.dieMsgs.filterMap fun m =>
    if s.dieMsgs.find? (fun x => decide (x.src = m.src ∧ x.dst = m.dst)) = some m && s.stampCovered m
    then some (.dieUpdateApply m.src m.dst) else none) ++
  (s.stampDue.map fun p => .dieStampToken p.1 p.2) ++
  (if s.upgrades.isEmpty then [] else [.readExclusiveUpgrade]) ++
  (if s.dirReqs.isEmpty then [] else [.pageGrant]) ++
  ((List.range s.fabricWaits.length).filterMap fun n =>
    match s.fabricWaits[n]? with
    | some w => if w.for_.limit.any fun l => decide (w.began + l ≤ s.now) then some (.stallTimeout (.request n)) else none
    | none => none)

/-- The step that takes a command record (R308). -/
def commandStep (rec : BitVec 256) : Instr :=
  match (Command.ofNat rec.toNat).op with
  | 2 => .deliver rec
  | 3 => .assignEngine rec
  | 4 => .releaseEngine rec
  | 5 => .setGroup rec
  | _ => .resolve rec

/-- The step that takes a pre-emption request (R299). -/
def saveStep (rec : BitVec 256) : Instr :=
  if (SaveReq.ofNat rec.toNat).op = 1 then .restoreRequest rec else .saveRequest rec

/-- What the rings have coming (R307, R309). -/
def State.ringSteps (s : State) : List Instr :=
  (match s.ringHead cmdRing 4 with
    | some (_, _, x) => [commandStep (BitVec.ofNat 256 x)]
    | none => []) ++
  (match s.ringHead downRing 2 with
    | some (_, _, x) => [.shootdown (BitVec.ofNat 128 x)]
    | none => []) ++
  (match s.ringHead saveRing 4 with
    | some (_, _, x) => [saveStep (BitVec.ofNat 256 x)]
    | none => []) ++
  (s.saving.map fun v => saveStep v.record) ++
  (match s.replyHead with
    | some (_, _, x) => [.upcallReply (BitVec.ofNat 4096 x)]
    | none => [])

/-- What the package copy engines have coming (R188, R191). -/
def State.chainSteps (s : State) : List Instr :=
  s.copyEngines.filterMap fun c =>
    if c.stopped || c.fault.isSome || s.halted c.asid || s.awaits (.engine c.engine) || s.shootPosted c.asid then none
    else if c.running.isSome then some (.chainEntryComplete c.engine)
    else if c.cur ≠ c.tail ∧ !c.releasing then some (.chainEntryStart c.engine)
    else none

/-- What the matrix engines and their governors have coming (R202 to R215, R322). -/
def State.matrixSteps (s : State) : List Instr :=
  (distinct ((s.tasks.filter fun t => decide (t.phase = .queued)).map Task.core)).map Instr.taskPick ++
  (s.governors.map fun g => Instr.governorGrant g.1) ++
  (s.engines.filterMap fun e =>
    match e.2 with
    | .ramp t => if t ≤ s.now then some (.rampUpComplete (e.1 / 2) (e.1 % 2)) else none
    | .down t => if t ≤ s.now then some (.grantReturn (e.1 / 2) (e.1 % 2)) else none
    | _ => none) ++
  (s.tasks.filterMap fun t =>
    if s.halted t.asid then none
    else
      match t.phase, t.kind with
      | .running e _, .tile _ _ _ => some (.taskUnitComplete t.core e)
      | .running e _, .infer _ _ _ _ _ => some (.inferComplete t.core e)
      | .writing e _, _ => some (.taskDoneWrite t.core e)
      | _, _ => none) ++
  (distinct (s.bursts.map Burst.core)).map Instr.burstEnd ++
  (if s.sample.isSome then (List.range Config.boards).map Instr.grantCountAdjust else [])

/-- What the carry ports have coming (R223 to R228, R233). -/
def State.carrySteps (s : State) : List Instr :=
  ((s.resvs.filter fun v => !s.halted v.asid).map fun v =>
    match v.stage with
    | .request | .waiting _ => Instr.slotReserveRequest v.rod
    | .reply _ => .reservationReply v.rod
    | .opening => .slotOpen v.rod) ++
  ((s.credits.filter fun c => !s.halted c.asid).map fun c =>
    if c.reply.isSome then Instr.creditReply c.rod else .creditRequest c.rod) ++
  ((distinct (s.transfers.map fun t => slotKey t.dst t.slot)).map fun k => Instr.transferApply (k / 32) (k % 32)) ++
  (s.slotWakes.map fun (c, d, k) => Instr.slotWake c d k)

/-- What the samplers, traversal and march units and rasterisers have coming. -/
def State.unitSteps (s : State) : List Instr :=
  (s.conts.filterMap fun c =>
    if s.halted c.asid then none
    else if c.result.isSome then (if s.gatherDue (s.gathered c) then some (.contGatherTimeout c.uid) else none)
    else
      match c.req with
      | .tex _ _ _ _ _ _ _ => some (.textureResult c.uid)
      | .trace _ _ _ _ => some (.traceResult c.uid)
      | .march _ _ _ => some (.marchResult c.uid)) ++
  (s.rasters.map fun r => Instr.triangleEntry r.board)

/-- What a dispatch core does next (R278 to R281). -/
def State.dispatchSteps (s : State) (d : Dispatch) : List Instr :=
  match d.phase with
  | .loop => .dispatchLoop d.table :: if d.blocked.isEmpty then [] else [.boardReservation d.table]
  | .claim a q h _ => [.queueClaim d.table a q h]
  | .bind _ _ _ _ _ _ _ =>
    (match s.planOf d with
      | some (core, b) => [.bindRecord core (BitVec.ofNat 512 b.toNat)]
      | none => [.dispatchLoop d.table])
  | .count a q h _ _ _ => [.queueBound a q h]
  | .release a q h _ first _ => [.queueRelease d.table a q h first]
  | .pass a q h => [.queuePass a q h]

/-- What the management core has coming: the end of an update (R320), and the thermal trip (R323). -/
def State.managementSteps (s : State) : List Instr :=
  (match s.updating with
    | some u => [.firmwareUpdate .ends u.image]
    | none => []) ++
  (if s.tripDue then [.thermalTrip] else [])

/-- Every step of a running device that can be due. -/
def State.deviceSteps (s : State) : List Instr :=
  s.rods.flatMap s.rodSteps ++ s.frames.flatMap s.frameSteps ++ s.haltSteps ++ s.memorySteps ++ s.ringSteps ++
    s.chainSteps ++ s.matrixSteps ++ s.carrySteps ++ s.unitSteps ++ s.dispatch.flatMap s.dispatchSteps ++
    (s.nextDeliveries.filterMap fun d =>
      if d.dev = s.endpoint then none else some (.launchFabricDelivery d.dev d.asid d.queue d.record)) ++
    s.managementSteps

/-- A step that only the world outside brings about: an access, a message, a measurement, an alarm, an update. -/
def external : Instr → Bool
  | .abortTokenReceive _ _ _ _ | .launchFabricDelivery _ _ _ _ | .hostAccess _ _ _ | .directoryRecall _ | .powerOn
  | .systemBlockAddress _ | .firmwareUpdate (.arrives _) _ | .spdmRequest _ | .sensorSample _ _ _ _ | .alarm _
  | .reckonerAccess _ _ _ => true
  | _ => false

/-- The world outside acts on the device. -/
def State.take? (s : State) : Input → Host.Outcome State Fault Refusal
  | .act i => if external i then exec i s else .next s
  | .corrupt l => .next (if s.badLines.contains l then s else { s with badLines := s.badLines ++ [l] })
  | .port p answers => .next (s.setPort p answers)
  | .request ep page own =>
    if ep = s.endpoint ∨ field page 34 2 ≠ 2 ∨ s.dirReqs.contains ⟨ep, page, own⟩ then .next s
    else .next { s with dirReqs := s.dirReqs ++ [⟨ep, page, own⟩] }

/-- The next thing that the world outside does happens; one that has to wait stays the next. -/
def State.inputMove (s : State) : Host.Outcome State Fault Refusal :=
  match s.inputs with
  | [] => .next s
  | x :: rest => { s with inputs := rest }.take? x

/-- The world outside can act. -/
def State.inputReady (s : State) : Bool :=
  !s.inputs.isEmpty &&
    match s.inputMove with
    | .next t => decide (t ≠ s)
    | _ => true

/-- Everything that can happen next. -/
def State.moves (s : State) : List Move :=
  (match s.boot with
    | .powerOn => [.unit_ .powerOn]
    | .running => s.issues ++ s.exchanges ++ (s.deviceSteps.filter s.changes).map .unit_
    | _ => (s.managementSteps.filter s.changes).map .unit_) ++
  (if s.inputReady then [.input] else [])

/-! ### The passage of time -/

/-- A stamp of a die goes out within 64 cycles (R165): it is sent once it has waited so long that the longest instruction could
still issue before. -/
def stampWait : Nat := 48

/-- The stamp tokens that can wait no longer (R165). -/
def State.tokensDue (s : State) : List (Nat × Nat) :=
  (s.stampSince.filter fun p => s.stampDue.contains p.1 && decide (p.2 + stampWait ≤ s.now)).map Prod.fst

/-- The cycles at which something comes due. -/
def State.deadlines (s : State) : List Nat :=
  (s.rods.flatMap fun r =>
    (if r.timerEn then [s.now + r.timerCount.toNat] else []) ++
    match r.status with
    | .held t => [t]
    | .asleep (.waitv _ _ true) _ began => [began + 1024]
    | .asleep (.flush _ _) _ began => [began + 32768]
    | .asleep why _ began => (why.stallEnd began).toList
    | _ => []) ++
  (s.engines.flatMap fun e =>
    match e.2 with
    | .ramp t | .down t => [t]
    | _ => []) ++
  (s.bursts.filterMap Burst.until_) ++
  (s.conts.flatMap fun c => (c.result.map fun x => x.2 + 128).toList) ++
  (s.fabricWaits.filterMap fun w => w.for_.limit.map fun l => w.began + l) ++
  (s.inflight.filterMap fun i => (s.lineStall i).map Prod.fst) ++
  (s.stampSince.map fun p => p.2 + stampWait) ++
  (s.governors.flatMap fun g => [g.2.hotAt + tenMs, g.2.cappedAt + tenMs]) ++
  (s.dispatch.flatMap fun d => if d.ages.isEmpty then [] else [(s.now / 262144 + 1) * 262144])

/-- Time passes: to the next deadline, or one cycle when there is none. CLK counts from the release of the compute dies on,
and while they run (R13, R315). -/
def State.idle (s : State) : State :=
  if s.boot ≠ .running then s
  else match (s.deadlines.filter fun t => decide (s.now < t)) with
  | [] => s.tick 1
  | t :: ts => s.tick (ts.foldl min t - s.now)

/-! ### Moves -/

/-- Nobody is issuing any more. -/
def settleMove : Host.Outcome State Fault Refusal → Host.Outcome State Fault Refusal
  | .next s => .next { s with cur := none }
  | x => x

/-- A rod issues its next instruction: its lane remembers the slot (R24), and the instruction has its effect. -/
def State.issueMove (s : State) (u : Nat) : Host.Outcome State Fault Refusal :=
  match s.rod? u with
  | none => .next s
  | some r =>
    match s.fetched r with
    | none => .next s
    | some w =>
      settleMove (exec (instrOf w)
        { s with cur := some u, lastSlot := Sparse.set 7 s.lastSlot (laneKey r.core r.lane) r.slot })

/-- A rod that is held at a cell goes to sleep there, or its group gives way: no turn of its lane is spent (R21, R25, R32). -/
def State.holdMove (s : State) (u : Nat) : Host.Outcome State Fault Refusal :=
  match (s.rod? u).bind s.instrAt with
  | none => .next s
  | some i => settleMove (exec i { s with cur := some u })

/-- A cycle passes in which two held groups of a rod were exchanged. -/
def cycleAfter : Host.Outcome State Fault Refusal → Host.Outcome State Fault Refusal
  | .next s => .next (s.tick 1)
  | x => x

/-- One move. -/
def State.move (s : State) : Move → Host.Outcome State Fault Refusal
  | .issue u => s.issueMove u
  | .hold u => cycleAfter (s.holdMove u)
  | .unit_ i => exec i s
  | .input => s.inputMove

/-- How often a move that is possible has been passed over. -/
def State.passedOver (s : State) (m : Move) : Nat :=
  match s.passed.find? fun p => decide (p.1 = m) with
  | some p => p.2
  | none => 0

/-- The move of a list that has been passed over most often, the first on a tie. -/
def State.mostPassed (s : State) : List Move → Option Move
  | [] => none
  | m :: ms =>
    match s.mostPassed ms with
    | none => some m
    | some x => if s.passedOver m < s.passedOver x then some x else some m

/-- Of several moves the one that is made: of those that have been passed over often enough the one most often (R33,
assumption 49), else one that a free value chooses (assumption 1). -/
def State.pick (s : State) (ms : List Move) : Option Move :=
  match s.mostPassed (ms.filter fun m => decide (Config.patience ≤ s.passedOver m)) with
  | some m => some m
  | none => ms[Config.freeChoice s.fresh % ms.length]?

/-- The move is made, and the others are passed over. -/
def State.passing (s : State) (ms : List Move) (m : Move) : State :=
  { s with
    fresh := s.fresh + 1
    passed := (ms.filter fun x => decide (x ≠ m)).map fun x => (x, s.passedOver x + 1) }

/-- What a running device does before anything else: a stamp that can wait no longer goes out (R165), and a rod that a cell
holds goes to sleep or gives way (R21). -/
def State.urgent (s : State) : Option (Host.Outcome State Fault Refusal) :=
  if s.boot ≠ .running then none
  else
    match s.tokensDue, s.held with
    | p :: _, _ => some (exec (.dieStampToken p.1 p.2) s)
    | [], u :: _ => some (s.holdMove u)
    | [], [] => none

/-- The machine waits, does the one thing it can do, or one of several. -/
def State.chosenMove (s : State) : Host.Outcome State Fault Refusal :=
  match s.moves with
  | [] => .next s.idle
  | [m] => s.move m
  | ms =>
    match s.pick ms with
    | some m => (s.passing ms m).move m
    | none => .next s.idle

/-- What the machine does next: what is urgent, else what it chooses. -/
def State.advance (s : State) : Host.Outcome State Fault Refusal := s.urgent.getD s.chosenMove

/-! ### Placing one instruction -/

/-- Where `State.withFetchWord` places its instruction: a code address of context 0. -/
def placedPc : Nat := 0x10000

/-- The frame of the rod that runs a placed instruction: one rod of one bead on core 0. -/
def placedFrame : Frame :=
  { uid := 0, asid := 0, frameid := 0, core := 0, launch := 0, kpc := BitVec.ofNat 48 placedPc, rodsM1 := 0, beadsM1 := 0
    alloc := 96, l0 := 0, w0 := 0, mode := 0, fmt := 0, devid := 0, boardid := 0, tableid := 0, caps := capRegs [], args := []
    segS := ⟨64, 0⟩, segW := ⟨64, 0⟩, segA := ⟨64, 0⟩, segC := ⟨64, 0⟩
    windows := [Window.empty, Window.empty], phases := 0, gang := false, ft := 0, barriers := [] }

/-- The rod that runs a placed instruction, in the state of R36 and R57. -/
def placedRod : Rod := placedFrame.newRod 1 0 0 0 1 0 0 (BitVec.ofNat 48 placedPc)

/-- The line of the instruction cache that holds a placed instruction. -/
def placedLine (w : Nat) : ICacheLine := ⟨0, 0, placedPc / 128, BitVec.ofNat 32 w :: List.replicate 31 0⟩

/-- A running device whose one rod fetches the word `w` next, and in which no other unit has anything to do: memory,
cells, carry slots, configuration and the outside's records stay as they are. -/
def State.place (s : State) (w : Nat) : State :=
  { s with
    boot := .running, inflight := [], rods := [placedRod], frames := [placedFrame], launches := []
    icache := [placedLine w], walks := [], faultWait := [], faultRecs := [], portFaults := [], tasks := [], engines := []
    bursts := [], governors := [], resvs := [], credits := [], transfers := [], slotWakes := [], copyEngines := [], conts := []
    windowTurn := [], rasters := [], stampDue := [], stampSince := [], dieMsgs := [], upgrades := [], ctxs := [], saving := [], dispatch := [], deliveries := []
    heldReplies := [], dirReqs := [], fabricWaits := [], sysBlock := none, sample := none, prior := none, updating := none
    alarmHold := none, passed := [], inputs := [], cur := none
    fresh := max 2 s.fresh }

end Sys2Proof.Machine
end

