-- ==== Sys2Proof/Machine/Step.lean ====
section
/-!
DEFINITION. One step of the machine, and how one instruction is placed where the next step fetches it.
-/

namespace Sys2Proof.Machine

/-- One step: the device does the next thing that it can do (R24, assumption 1). -/
def step (s : State) : Host.Outcome State Fault Refusal := s.advance

/-- The instruction word `w`, of 32 bits whatever `nbits` the opcode table gives it, stands where the next step fetches:
at the program counter of the one rod of a running device (assumption 18). -/
def State.withFetchWord (s : State) (nbits w : Nat) : State := s.place (w % 2 ^ min nbits 32)

end Sys2Proof.Machine
end

