-- ==== Sys2Proof/Safety.lean ====
section
/-!
DEFINITION. What counts as a safe run: the conditions on a state that every step is claimed to keep, and the outcome
that every step is claimed to have.
-/

namespace Sys2Proof.Machine

/-- The step answers a next state: the machine neither stops nor lacks a meaning. -/
def answers (o : Host.Outcome State Fault Refusal) : Prop := ∃ t, o = .next t

/-- Global memory lists its addresses strictly rising, and no byte that reads as an unlisted one does
(assumption 4). -/
def State.memoryCanonical (s : State) : Prop := Memory.wf s.mem = true

/-- The tables of lanes list what differs from their default, keys strictly rising. -/
def State.lanesCanonical (s : State) : Prop := Sparse.wf 7 s.lastSlot = true

/-- No rod is issuing between two steps. -/
def State.quiet (s : State) : Prop := s.cur = none

/-- An outcome in which whatever state is answered has the property. -/
def keeps (p : State → Prop) (o : Host.Outcome State Fault Refusal) : Prop :=
  match o with
  | .next t => p t
  | .fault _ => True
  | .refused _ => True

/-! ### How an instruction completes -/

/-- The rod has left the save point of its last LIVE (R300). -/
def Rod.leave (r : Rod) : Rod := { r with atLive := false }

/-- The rod issues the instruction: it is the issuing rod and Ready (R25), the word's fields make no illegal encoding
(R76), its registers lie in the rod's allocation (R45), and its commit point, if it is one, does not wait for an export
page or a CXL port (R312, R313). -/
structure Issues (s : State) (r : Rod) (i : Instr) : Prop where
  cur : s.curRod? = some r
  ready : r.status = .ready
  legal : i.illegal? = none
  inside : (regGroups i).any r.beyond = false
  whole : pastLastS i = false
  owned : commits i = true → lazyCommits i = false → s.blockedLine r.uid = none

/-- The rod of a name is changed, if there is one. -/
def State.alter (s : State) (u : Nat) (f : Rod → Rod) : State :=
  match s.rod? u with
  | none => s
  | some r => s.setRod (f r)

/-- The state in which an instruction that touches its rod alone ends: the rod is `q`, and the lane cycles have passed. -/
def State.completed (s : State) (r q : Rod) (i : Instr) : State := (s.setRod q).tick (r.laneCycles (onceOnly i))

/-- The state in which the effect of an instruction begins: the rod has left its save point, and a commit point has
committed the open region and begun a new one (R146, R149). -/
def State.begun (s : State) (r : Rod) (i : Instr) : State :=
  let s0 := s.setRod r.leave
  if commits i then
    (if lazyCommits i then s0.commit r.uid else s0.commitPerform r.uid).alter r.uid Rod.openRegion
  else s0

/-- The state in which an instruction ends after its effect: a commit point begins a new region at the rod's position
(R146), and the lane cycles have passed (R16). -/
def State.shut (s : State) (r : Rod) (i : Instr) : State :=
  (if commits i then s.alter r.uid Rod.openRegion else s).tick (r.laneCycles (onceOnly i))

/-- The rod has moved past the instruction, and the instruction ends. -/
def State.through (s : State) (r : Rod) (i : Instr) : State := (s.alter r.uid Rod.advance).shut r i

/-- The rod after each of its parts (its issuing beads, or once) has written its value, all computed from the rod as it
was: sticky flags of the conditions are set, and the destination holds the value (R16, R17, R42, R51). -/
def Rod.wrote (r : Rod) (u w : Bool) (d : BitVec 7) (v : Option Nat → Dword × Conds) : Rod :=
  (r.parts u).foldl (fun q b => (q.stick (v b).2).setOperand b w d (v b).1) r.leave

/-- The rod after each of its issuing beads has written its truth value to a predicate (R47). -/
def Rod.wrotePred (r : Rod) (p : BitVec 3) (v : Nat → Bool × Conds) : Rod :=
  r.issuing.foldl (fun q k => (q.stick (v k).2).setPred k p (v k).1) r.leave

/-- No part raises a condition whose trap enable is 1 (R51). -/
def Rod.untrapped (r : Rod) (u : Bool) (v : Option Nat → Dword × Conds) : Prop :=
  ∀ b ∈ r.parts u, (v b).2 &&& trapEnables r.mode = 0

end Sys2Proof.Machine
end

