-- ==== Sys2Proof/Certificates/Slice0/Obligations.lean ====
section
/-!
DEFINITION. What is claimed of the machine, for the provers: one `Obligations` definition for each claim, after the
definitions that the claims are written in.  Values of the integer and bitwise instructions are written here anew, on
bit vectors and integers, from the words of the manual.
-/

namespace Sys2Proof.Claims

open Sys2Proof.Machine

/-! ### Values of the register instructions -/

/-- What a value instruction writes: 64 bits or 32, the destination field, and each part's value with the conditions it
raises. -/
structure Effect where
  wide : Bool
  dst : BitVec 7
  value : Rod → Option Nat → Dword × Conds

/-- An integer operand under N and D (R351): unsigned, or two's complement of 64 or 32 bits. -/
def reading (r : Rod) (b : Option Nat) (n w : Bool) (g : BitVec 7) : Int :=
  let x := r.operand b w g
  if n then (x.toNat : Int) else if w then x.toInt else (x.setWidth 32).toInt

/-- An immediate, sign-extended to the width and read under N (R63, R351). -/
def immediate (n w : Bool) (i : BitVec 7) : Int :=
  if n then (if w then ((i.signExtend 64).toNat : Int) else ((i.signExtend 32).toNat : Int)) else i.toInt

/-- The least value of an integer type (R88). -/
def least (n w : Bool) : Int := if n then 0 else if w then -2 ^ 63 else -2 ^ 31

/-- The greatest value of an integer type (R88). -/
def greatest (n w : Bool) : Int :=
  if n then (if w then 2 ^ 64 - 1 else 2 ^ 32 - 1) else if w then 2 ^ 63 - 1 else 2 ^ 31 - 1

/-- An exact value fitted to its type (R89): with S it is held to the type's range, and IS is set when that changes
it; without S it is taken modulo the width. -/
def fitted (s n w : Bool) (x : Int) : Dword × Conds :=
  if s = true ∧ x < least n w then (BitVec.ofInt 64 (least n w), Conds.is)
  else if s = true ∧ greatest n w < x then (BitVec.ofInt 64 (greatest n w), Conds.is)
  else (BitVec.ofInt 64 x, 0)

/-- An exact value modulo the width, without conditions. -/
def modulo (x : Int) : Dword × Conds := (BitVec.ofInt 64 x, 0)

/-- The bits of the width. -/
def bitsOfWidth (w : Bool) : Nat := if w then 64 else 32

/-- A byte of a word as an integer, unsigned or two's complement (R376). -/
def byteOf (n : Bool) (x : Word) (i : Nat) : Int :=
  let y : BitVec 8 := (x >>> (8 * i)).setWidth 8
  if n then (y.toNat : Int) else y.toInt

/-- The integer arithmetic (R371, R372, R373, R375, R376, R379). -/
def integerEffect : Instr → Option Effect
  | .iadd f => some ⟨f.w, f.d, fun r b => fitted f.s f.n f.w (reading r b f.n f.w f.a + reading r b f.n f.w f.b)⟩
  | .iaddImm f => some ⟨f.w, f.d, fun r b => fitted f.s f.n f.w (reading r b f.n f.w f.a + immediate f.n f.w f.i)⟩
  | .isub f => some ⟨f.w, f.d, fun r b => fitted f.s f.n f.w (reading r b f.n f.w f.a - reading r b f.n f.w f.b)⟩
  | .imul f => some ⟨f.w, f.d, fun r b => fitted f.s f.n f.w (reading r b f.n f.w f.a * reading r b f.n f.w f.b)⟩
  | .imulImm f => some ⟨f.w, f.d, fun r b => fitted f.s f.n f.w (reading r b f.n f.w f.a * immediate f.n f.w f.i)⟩
  | .imad f => some ⟨f.w, f.d, fun r b =>
      fitted f.s f.n f.w (reading r b f.n f.w f.a * reading r b f.n f.w f.b + reading r b f.n f.w f.d)⟩
  | .imulhi f => some ⟨f.w, f.d, fun r b =>
      modulo ((reading r b f.n f.w f.a * reading r b f.n f.w f.b) / 2 ^ bitsOfWidth f.w)⟩
  | .imin f => some ⟨f.w, f.d, fun r b => modulo (min (reading r b f.n f.w f.a) (reading r b f.n f.w f.b))⟩
  | .imax f => some ⟨f.w, f.d, fun r b => modulo (max (reading r b f.n f.w f.a) (reading r b f.n f.w f.b))⟩
  | .iclamp f => some ⟨f.w, f.d, fun r b =>
      modulo (min (max (reading r b f.n f.w f.d) (reading r b f.n f.w f.a)) (reading r b f.n f.w f.b))⟩
  | .idiv f => some ⟨f.w, f.d, fun r b =>
      if reading r b f.n f.w f.b = 0 then (BitVec.ofInt 64 (-1), Conds.dz)
      else modulo ((reading r b f.n f.w f.a).tdiv (reading r b f.n f.w f.b))⟩
  | .irem f => some ⟨f.w, f.d, fun r b =>
      if reading r b f.n f.w f.b = 0 then (BitVec.ofInt 64 (reading r b f.n f.w f.a), Conds.dz)
      else modulo ((reading r b f.n f.w f.a).tmod (reading r b f.n f.w f.b))⟩
  | .isad f => some ⟨f.w, f.d, fun r b =>
      modulo (|reading r b f.n f.w f.a - reading r b f.n f.w f.b| + reading r b f.n f.w f.d)⟩
  | .idot4 f => some ⟨false, f.d, fun r b =>
      let p (i : Nat) : Int := byteOf f.n (r.word b f.a) i * byteOf f.n (r.word b f.b) i
      fitted f.s f.n false (reading r b f.n false f.d + (p 0 + p 1 + p 2 + p 3))⟩
  | .iabs f => some ⟨f.w, f.d, fun r b => fitted f.s false f.w |reading r b false f.w f.a|⟩
  | .ineg f => some ⟨f.w, f.d, fun r b => fitted f.s false f.w (-(reading r b false f.w f.a))⟩
  | _ => none

/-- A value without conditions. -/
def bare (x : Dword) : Dword × Conds := (x, 0)

/-- The count of a Form A shift: b[7:0] (R414). -/
def shiftCount (r : Rod) (b : Option Nat) (g : BitVec 7) : Nat := ((r.word b g).setWidth 8).toNat

/-- A logical shift by the width or more gives 0 (R414). -/
def shifted (w : Bool) (c : Nat) (x : Dword) : Dword := if bitsOfWidth w ≤ c then 0 else x

/-- An arithmetic shift right of the width (R414). -/
def arithmetic (w : Bool) (x : Dword) (c : Nat) : Dword :=
  if w then x.sshiftRight c else ((x.setWidth 32 : Word).sshiftRight c).setWidth 64

/-- The bitwise instructions, shifts and moves (R331, R387 to R389, R391, R408, R412, R414, R437). -/
def bitwiseEffect : Instr → Option Effect
  | .and f => some ⟨f.w, f.d, fun r b => bare (r.operand b f.w f.a &&& r.operand b f.w f.b)⟩
  | .andImm f => some ⟨f.w, f.d, fun r b => bare (r.operand b f.w f.a &&& f.i.signExtend 64)⟩
  | .andn f => some ⟨f.w, f.d, fun r b => bare (r.operand b f.w f.a &&& ~~~ r.operand b f.w f.b)⟩
  | .or f => some ⟨f.w, f.d, fun r b => bare (r.operand b f.w f.a ||| r.operand b f.w f.b)⟩
  | .orImm f => some ⟨f.w, f.d, fun r b => bare (r.operand b f.w f.a ||| f.i.signExtend 64)⟩
  | .xor f => some ⟨f.w, f.d, fun r b => bare (r.operand b f.w f.a ^^^ r.operand b f.w f.b)⟩
  | .xorImm f => some ⟨f.w, f.d, fun r b => bare (r.operand b f.w f.a ^^^ f.i.signExtend 64)⟩
  | .shl f => some ⟨f.w, f.d, fun r b =>
      bare (shifted f.w (shiftCount r b f.b) (r.operand b f.w f.a <<< shiftCount r b f.b))⟩
  | .shlImm f => some ⟨f.w, f.d, fun r b => bare (shifted f.w f.i.toNat (r.operand b f.w f.a <<< f.i.toNat))⟩
  | .shr f => some ⟨f.w, f.d, fun r b =>
      bare (shifted f.w (shiftCount r b f.b) (r.operand b f.w f.a >>> shiftCount r b f.b))⟩
  | .shrImm f => some ⟨f.w, f.d, fun r b => bare (shifted f.w f.i.toNat (r.operand b f.w f.a >>> f.i.toNat))⟩
  | .sra f => some ⟨f.w, f.d, fun r b => bare (arithmetic f.w (r.operand b f.w f.a) (shiftCount r b f.b))⟩
  | .sraImm f => some ⟨f.w, f.d, fun r b => bare (arithmetic f.w (r.operand b f.w f.a) f.i.toNat)⟩
  | .shadd f => some ⟨false, f.d, fun r b => bare ((r.word b f.a <<< f.k.toNat + r.word b f.b).setWidth 64)⟩
  | .sel f => some ⟨false, f.d, fun r b =>
      let k := match b with
        | some k => k
        | none => lowestBit r.active 0
      bare ((if r.pred k f.p then r.word b f.a else r.word b f.b).setWidth 64)⟩
  | .mov f => some ⟨f.w, f.d, fun r b => bare (r.operand b f.w f.a)⟩
  | .movi f => some ⟨isS f.d, f.d, fun _ _ => bare (f.i.signExtend 64)⟩
  | .movhi f => some ⟨false, f.d, fun r b =>
      bare (((r.word b f.d &&& 0x7FFF) ||| (f.i.setWidth 32 <<< 15)).setWidth 64)⟩
  | _ => none

/-- The bits of a value, one after the other from the least significant. -/
def bitList (n : Nat) (x : Dword) : List Bool := (List.range n).map fun i => x.getLsbD i

/-- The value whose bits a list gives, the least significant first. -/
def ofBitList : List Bool → Nat
  | [] => 0
  | b :: bs => b.toNat + 2 * ofBitList bs

/-- A bit of a word. -/
def bitAt (x : Word) (i : Nat) : Bool := x.getLsbD i

/-- Position and length of a bit field in a container of `n` bits (R336). -/
def fieldAt (n : Nat) (sel : Dword) : Nat × Nat :=
  let p := min (sel.setWidth 8 : BitVec 8).toNat n
  (p, min ((sel >>> 8).setWidth 8 : BitVec 8).toNat (n - p))

/-- The counts, fields and interleavings (R336, R338, R348, R352, R394, R396, R422, R428). -/
def fieldEffect : Instr → Option Effect
  | .clz f => some ⟨f.w, f.d, fun r b => bare (BitVec.ofNat 64
      ((bitList (bitsOfWidth f.w) (r.operand b f.w f.a)).reverse.takeWhile fun x => !x).length)⟩
  | .popc f => some ⟨f.w, f.d, fun r b => bare (BitVec.ofNat 64
      ((bitList (bitsOfWidth f.w) (r.operand b f.w f.a)).filter fun x => x).length)⟩
  | .brev f => some ⟨f.w, f.d, fun r b => bare (BitVec.ofNat 64
      (ofBitList (bitList (bitsOfWidth f.w) (r.operand b f.w f.a)).reverse))⟩
  | .bfx f => some ⟨f.w, f.d, fun r b =>
      let (p, m) := fieldAt (bitsOfWidth f.w) (r.operand b f.w f.b)
      let x := (r.operand b f.w f.a).toNat / 2 ^ p % 2 ^ m
      bare (if (r.operand b f.w f.b).getLsbD 16 ∧ 0 < m ∧ 2 ^ (m - 1) ≤ x then BitVec.ofInt 64 ((x : Int) - 2 ^ m)
        else BitVec.ofNat 64 x)⟩
  | .bfi f => some ⟨f.w, f.d, fun r b =>
      let (p, m) := fieldAt (bitsOfWidth f.w) (r.operand b f.w f.b)
      bare (BitVec.ofNat 64 (ofBitList ((List.range 64).map fun i =>
        if p ≤ i ∧ i < p + m then (r.operand b f.w f.a).getLsbD (i - p) else (r.operand b f.w f.d).getLsbD i)))⟩
  | .ilv f => some ⟨false, f.d, fun r b => bare (BitVec.ofNat 64 (ofBitList (if f.t
      then (List.range 10).flatMap fun i => [bitAt (r.word b f.a) i, bitAt (r.word b f.b) i, bitAt (r.word b f.d) i]
      else (List.range 16).flatMap fun i => [bitAt (r.word b f.a) i, bitAt (r.word b f.b) i])))⟩
  | .dilv f => some ⟨false, f.d, fun r b =>
      let j := ((r.word b f.b).setWidth 2 : BitVec 2).toNat
      bare (BitVec.ofNat 64 (ofBitList (if f.t
        then (if j = 3 then [] else (List.range 10).map fun i => bitAt (r.word b f.a) (3 * i + j))
        else (if 2 ≤ j then [] else (List.range 16).map fun i => bitAt (r.word b f.a) (2 * i + j)))))⟩
  | .unpk3 f => some ⟨false, f.d, fun r b =>
      let j := ((r.word b f.b).setWidth 3 : BitVec 3).toNat
      (BitVec.ofNat 64 (unpackT3 (r.word b f.a) j), Conds.when (unpackIllegal (r.word b f.a) j) Conds.pk)⟩
  | .tacc f => some ⟨false, f.d, fun r b =>
      let code (i : Nat) : BitVec 2 := (r.word b f.a >>> (2 * i)).setWidth 2
      let term (i : Nat) : Int :=
        if code i = 1 then byteOf false (r.word b f.b) i else if code i = 3 then -byteOf false (r.word b f.b) i else 0
      let y := fitted f.s false false (reading r b false false f.d + (term 0 + term 1 + term 2 + term 3))
      (y.1, y.2 ||| Conds.when (decide (code 0 = 2 ∨ code 1 = 2 ∨ code 2 = 2 ∨ code 3 = 2)) Conds.pk)⟩
  | .pxout f => some ⟨false, f.d, fun r b =>
      bare (BitVec.ofNat 64 (ofBitList ((List.range 8).map fun p => r.pred (beadNo b) (BitVec.ofNat 3 p))))⟩
  | _ => none

/-- The floating-point arithmetic (R358, R362, R370): one rounding of the exact result each, by the rounding that the
word and MODE name (R66, R99), of operands read in the format. -/
def floatEffect : Instr → Option Effect
  | .faddF32 f => some ⟨false, f.d, float2 Fmt.add .f32 f⟩
  | .faddF16 f => some ⟨false, f.d, float2 Fmt.add .f16 f⟩
  | .faddBf16 f => some ⟨false, f.d, float2 Fmt.add .bf16 f⟩
  | .fsub f => some ⟨false, f.d, float2 Fmt.sub .f32 f⟩
  | .fmulF32 f => some ⟨false, f.d, float2 Fmt.mul .f32 f⟩
  | .fmulF16 f => some ⟨false, f.d, float2 Fmt.mul .f16 f⟩
  | .fmulBf16 f => some ⟨false, f.d, float2 Fmt.mul .bf16 f⟩
  | .fmaF32 f => some ⟨false, f.d, floatFma .f32 f⟩
  | .fmaF16 f => some ⟨false, f.d, floatFma .f16 f⟩
  | .fmaBf16 f => some ⟨false, f.d, floatFma .bf16 f⟩
  | .hfma2F16 f => some ⟨false, f.d, packedFma .f16 f⟩
  | .hfma2Bf16 f => some ⟨false, f.d, packedFma .bf16 f⟩
  | .fdiv f => some ⟨false, f.d, fun r b =>
      floatResult (Fmt.f32.div (r.fenv b f.r (r.word b f.a) 0 (r.word b f.d)) (r.fread .f32 b f.d) (r.fread .f32 b f.a))⟩
  | .fsqrt f => some ⟨false, f.d, float1 Fmt.sqrt .f32 f⟩
  | .frcpF32 f => some ⟨false, f.d, float1 Fmt.rcp .f32 f⟩
  | .frcpF16 f => some ⟨false, f.d, float1 Fmt.rcp .f16 f⟩
  | .frsqF32 f => some ⟨false, f.d, float1 Fmt.rsq .f32 f⟩
  | .frsqF16 f => some ⟨false, f.d, float1 Fmt.rsq .f16 f⟩
  | .fexp2F32 f => some ⟨false, f.d, float1 Fmt.exp2Val .f32 f⟩
  | .fexp2F16 f => some ⟨false, f.d, float1 Fmt.exp2Val .f16 f⟩
  | .flog2F32 f => some ⟨false, f.d, float1 Fmt.log2Val .f32 f⟩
  | .flog2F16 f => some ⟨false, f.d, float1 Fmt.log2Val .f16 f⟩
  | _ => none

/-- Conversions, classes, bounds and draws (R359, R361, R366 to R368, R380, R400). -/
def convertEffect : Instr → Option Effect
  | .fmin f => some ⟨false, f.d, fun r b =>
      floatResult (pick (r.fenv b 1 0 0 0) f.n Val.below (r.fread .f32 b f.a) (r.fread .f32 b f.b))⟩
  | .fmax f => some ⟨false, f.d, fun r b =>
      floatResult (pick (r.fenv b 1 0 0 0) f.n (fun x y => y.below x) (r.fread .f32 b f.a) (r.fread .f32 b f.b))⟩
  | .fclass f => some ⟨false, f.d, fun r b => (BitVec.ofNat 64 (classMask (r.word b f.a).toNat), 0)⟩
  | .fcvt f => some ⟨false, f.d, fun r b =>
      floatResult ((fmtOfCode (f.b.toNat % 10)).encode (r.fenv b f.r (r.word b f.a) 0 0)
        (r.fread (fmtOfCode (f.b.toNat / 10)) b f.a))⟩
  | .frnd f => some ⟨false, f.d, fun r b =>
      floatResult (integral (r.fenv b f.r (r.word b f.a) 0 0) (r.fread .f32 b f.a))⟩
  | .itof f => some ⟨false, f.d, fun r b =>
      let x := r.operand b (convWide f.i) f.a
      let v := r.env b f.r (foldOperand (convWide f.i) x) 0 0 0
      floatResult ((convFloat f.f).encode v (.ofInt (reading r b (convUnsigned f.i) (convWide f.i) f.a)))⟩
  | .ftoi f => some ⟨convWide f.i, f.d, fun r b =>
      let y := toInteger (r.fenv b f.r (r.word b f.a) 0 0) (bitsOfWidth (convWide f.i)) (convUnsigned f.i)
        (r.fread (convFloat f.f) b f.a)
      (BitVec.ofInt 64 y.1, y.2)⟩
  | .rand f => some ⟨false, f.d, fun r b =>
      let ab := r.dword b f.b
      let x := draw (r.dword b f.a).toNat (hiWord ab).toNat (loWord ab).toNat
      bare (BitVec.ofNat 64 (if f.c then (Fmt.f32.round Env.engine false (x / 256) (2 ^ 24)).1 else x))⟩
  | _ => none

/-- The truth values of the compares and predicate moves (R360, R374, R392, R393): destination predicate and value. -/
def predicateEffect : Instr → Option (BitVec 3 × (Rod → Nat → Bool × Conds))
  | .icmpS f => some (f.p, fun r k => (intCond f.c (reading r (some k) false f.w f.a) (reading r (some k) false f.w f.b), 0))
  | .icmpN f => some (f.p, fun r k => (intCond f.c (reading r (some k) true f.w f.a) (reading r (some k) true f.w f.b), 0))
  | .fcmp f => some (f.p, fun r k => floatCond f.c (r.fread .f32 (some k) f.a) (r.fread .f32 (some k) f.b))
  | .plog f => some (f.d, fun r k => (predOp f.c (r.pred k f.a) (r.pred k f.b), 0))
  | .pmovReg f => some (f.d, fun r k => ((r.word (some k) f.a).getLsbD 0, 0))
  | .pmovPred f => some (f.d, fun r k => (r.pred k f.a, 0))
  | _ => none

/-- The value instructions of a table complete: whenever a rod issues one, on its own legal word and registers, and no
part raises an enabled condition, the next state is the one in which every part has written its value. -/
def valuesComplete (table : Instr → Option Effect) : Prop :=
  ∀ (s : State) (r : Rod) (i : Instr) (x : Effect), table i = some x → Issues s r i →
    r.untrapped (uniform i) (x.value r) →
      exec i s = .next (s.completed r (r.wrote (uniform i) x.wide x.dst (x.value r)).advance i)

/-! ### Instructions that change their rod alone -/

/-- A condition on the state and the rod under which an instruction has its effect, and the rod after it, from the rod
that has left its save point. -/
structure Change where
  given : State → Rod → Prop
  after : State → Rod → Rod

/-- An effect without a condition. -/
def always (f : Rod → Rod) : Option Change := some ⟨fun _ _ => True, fun _ => f⟩

/-- An effect under a condition on the rod. -/
def whenever (p : Rod → Prop) (f : Rod → Rod) : Option Change := some ⟨fun _ => p, fun _ => f⟩

/-- The instructions of a table complete with its effects. -/
def changesComplete (table : Instr → Option Change) : Prop :=
  ∀ (s : State) (r : Rod) (i : Instr) (m : Change), table i = some m → Issues s r i → m.given s r →
    exec i s = .next (s.completed r (m.after s r.leave) i)

/-- The active beads, ascending. -/
def beadsOf (r : Rod) : List Nat := (List.range 16).filter fun k => r.active.getLsbD k

/-- The beads up to one, or before it. -/
def upTo (inclusive : Bool) (k : Nat) (ks : List Nat) : List Nat :=
  ks.filter fun j => decide (j < k) || (inclusive && decide (j = k))

/-- A truth value as a number. -/
def truth (p : Prop) [Decidable p] : Dword := if p then 1 else 0

/-- A uniform 32-bit result: bits [63:32] are cleared (R42). -/
def toUniform (d : BitVec 7) (f : Rod → Word) (r : Rod) : Rod := (r.setS (sIndex d) ((f r).setWidth 64)).advance

/-- A uniform 64-bit result. -/
def toUniform64 (d : BitVec 7) (f : Rod → Dword) (r : Rod) : Rod := (r.setS (sIndex d) (f r)).advance

/-- A result of each active bead, all computed from the rod as it was. -/
def toBeads (d : BitVec 7) (f : Rod → Nat → Word) (r : Rod) : Rod :=
  ((beadsOf r).foldl (fun q k => q.setV k d (f r k)) r).advance

/-- The source of a SHFL, when it is an active bead, else the bead itself (R413). -/
def shuffled (a : BitVec 7) (src : Int) (r : Rod) (k : Nat) : Word :=
  if 0 ≤ src ∧ src.toNat ∈ beadsOf r then r.vreg src.toNat a else r.vreg k a

/-- The operand of a SHFL: bits [3:0] of d (R413). -/
def lane4 (r : Rod) (k : Nat) (d : BitVec 7) : Nat := (r.vreg k d).toNat % 16

/-- The registers of the active beads. -/
def wordsOf (r : Rod) (a : BitVec 7) : List Word := (beadsOf r).map fun k => r.vreg k a

/-- The float sum of the values of some beads in ascending order (R114, R405): the first value as read, then one
addition a bead, rounded as the word and MODE say, DAZ acting on the added value alone; with the conditions of the
additions. -/
def floatSum (r : Rod) (rounding : BitVec 3) (a : BitVec 7) : List Nat → Word × Conds
  | [] => (0, 0)
  | k :: ks =>
    ks.foldl (fun x j =>
      let v := r.env (some j) rounding x.1.toNat (r.vreg j a).toNat 0 j
      let y := Fmt.f32.add v (Fmt.f32.decode x.1.toNat) (Fmt.f32.read v (r.vreg j a).toNat)
      (BitVec.ofNat 32 y.1, x.2 ||| y.2))
      (BitVec.ofNat 32 (readF32 (r.env (some k) 1 0 0 0 0) (r.vreg k a).toNat), 0)

/-- No condition of the rod's float sum is enabled. -/
def sumUntrapped (f : ShRDA) (r : Rod) : Prop := (floatSum r f.r f.a (beadsOf r)).2 &&& trapEnables r.mode = 0

/-- The sticky flags of the rod's float sum are set (R51). -/
def sumSticks (f : ShRDA) (g : Rod → Rod) (r : Rod) : Rod :=
  g (r.stick (floatSum r f.r f.a (beadsOf r)).2)

/-- VOTE, SHFL, RODRED and RODSCAN (R404, R405, R413, R431); a reduction has an active bead. -/
def collectiveChange : Instr → Option Change
  | .voteAny f => always (toUniform64 f.d fun r => truth (∃ k ∈ beadsOf r, r.pred k f.p = true))
  | .voteAll f => always (toUniform64 f.d fun r => truth (∀ k ∈ beadsOf r, r.pred k f.p = true))
  | .voteBallot f => always (toUniform64 f.d fun r =>
      BitVec.ofNat 64 (ofBitList ((List.range 16).map fun k => r.active.getLsbD k && r.pred k f.p)))
  | .voteEq f => always (toUniform64 f.d fun r => truth (∀ j ∈ beadsOf r, ∀ k ∈ beadsOf r, r.vreg j f.a = r.vreg k f.a))
  | .rodredIadd f => always (toUniform f.d fun r => (wordsOf r f.a).foldl (fun x y => x + y) 0)
  | .rodredAnd f => whenever (fun r => beadsOf r ≠ []) (toUniform f.d fun r =>
      (wordsOf r f.a).foldl (fun x y => x &&& y) (-1))
  | .rodredOr f => always (toUniform f.d fun r => (wordsOf r f.a).foldl (fun x y => x ||| y) 0)
  | .rodredSmin f => whenever (fun r => beadsOf r ≠ []) (toUniform f.d fun r =>
      BitVec.ofInt 32 ((wordsOf r f.a).foldl (fun x y => min x y.toInt) (2 ^ 31 - 1)))
  | .rodredSmax f => whenever (fun r => beadsOf r ≠ []) (toUniform f.d fun r =>
      BitVec.ofInt 32 ((wordsOf r f.a).foldl (fun x y => max x y.toInt) (-2 ^ 31)))
  | .rodredNmin f => whenever (fun r => beadsOf r ≠ []) (toUniform f.d fun r =>
      BitVec.ofNat 32 ((wordsOf r f.a).foldl (fun x y => min x y.toNat) (2 ^ 32 - 1)))
  | .rodredNmax f => always (toUniform f.d fun r => BitVec.ofNat 32 ((wordsOf r f.a).foldl (fun x y => max x y.toNat) 0))
  | .rodredFadd f => whenever (sumUntrapped f) fun r =>
      sumSticks f (toUniform f.d fun _ => (floatSum r f.r f.a (beadsOf r)).1) r
  | .rodscanIaddInc f => always (toBeads f.d fun r k =>
      ((upTo true k (beadsOf r)).map fun j => r.vreg j f.a).foldl (fun x y => x + y) 0)
  | .rodscanIaddExc f => always (toBeads f.d fun r k =>
      ((upTo false k (beadsOf r)).map fun j => r.vreg j f.a).foldl (fun x y => x + y) 0)
  | .rodscanFaddInc f => whenever (sumUntrapped f) fun r =>
      sumSticks f (toBeads f.d fun _ k => (floatSum r f.r f.a (upTo true k (beadsOf r))).1) r
  | .rodscanFaddExc f => whenever (sumUntrapped f) fun r =>
      sumSticks f (toBeads f.d fun _ k =>
        match upTo false k (beadsOf r) with
        | [] => 0x80000000
        | ks => (floatSum r f.r f.a ks).1) r
  | .shflIdx f => always (toBeads f.d fun r k => shuffled f.a (lane4 r k f.d) r k)
  | .shflUp f => always (toBeads f.d fun r k => shuffled f.a ((k : Int) - lane4 r k f.d) r k)
  | .shflDown f => always (toBeads f.d fun r k => shuffled f.a ((k : Int) + lane4 r k f.d) r k)
  | .shflXor f => always (toBeads f.d fun r k => shuffled f.a ((k ^^^ lane4 r k f.d : Nat) : Int) r k)
  | _ => none

/-! ### Control transfers -/

/-- The target of an offset in words from the branch (R63). -/
def offsetTarget (r : Rod) (o : BitVec 20) : Addr := r.pc + o.signExtend 48 * 4

/-- The active beads whose predicate, after the sense bit, selects the branch (R27, R337). -/
def selects (r : Rod) (f : ShBranch) : List Nat := (beadsOf r).filter fun k => r.pred k f.p != f.s

/-- A list of beads as a mask. -/
def beadMask (ks : List Nat) : BitVec 16 := BitVec.ofNat 16 (ofBitList ((List.range 16).map fun k => decide (k ∈ ks)))

/-- The top entry was pushed by this branch and can take its beads (R27). -/
def sameBranch (r : Rod) (t : Addr) (e : StackEntry) : Prop := e.ba = r.pc ∧ (e.pv = false ∨ (e.ppc = t ∧ e.pr = 0))

/-- The stack after a divergence at a target (R27). -/
def divergedStack (r : Rod) (t : Addr) (gt : BitVec 16) : List StackEntry → List StackEntry
  | [] => [⟨r.pc, r.active, 0, none, true, t, gt, 0, r.fmt, r.mode.setWidth 16, r.fmt, r.mode.setWidth 16⟩]
  | e :: es =>
    if e.ba = r.pc ∧ e.pv = false then
      { e with pv := true, ppc := t, pm := gt, pr := 0, pfmt := r.fmt, pmode := r.mode.setWidth 16 } :: es
    else if e.ba = r.pc ∧ e.ppc = t ∧ e.pr = 0 then { e with pm := e.pm ||| gt } :: es
    else ⟨r.pc, r.active, 0, none, true, t, gt, 0, r.fmt, r.mode.setWidth 16, r.fmt, r.mode.setWidth 16⟩ :: e :: es

/-- BRA (R27): the beads agree and the rod goes one way, or it diverges, and the beads that fall through run first. -/
def branched (f : ShBranch) (r : Rod) : Rod :=
  if selects r f = beadsOf r then { r with pc := offsetTarget r f.o, resume := 0 }
  else if selects r f = [] then r.advance
  else
    { r with
      stack := divergedStack r (offsetTarget r f.o) (beadMask (selects r f)) r.stack
      active := r.active &&& ~~~ beadMask (selects r f)
      pc := r.pc + 4
      resume := 0 }

/-- A divergence of this branch finds room: the stack has fewer than 32 entries, or its top entry takes the beads. -/
def branchRoom (f : ShBranch) (r : Rod) : Prop :=
  r.stack.length < 32 ∨ selects r f = beadsOf r ∨ selects r f = [] ∨
    ∃ e es, r.stack = e :: es ∧ sameBranch r (offsetTarget r f.o) e

/-- A register target (R343): an s register, or a v pair that holds the same value in every active bead, of which there
is one; it is a multiple of 4 below 2^48. -/
def isTarget (a : BitVec 7) (t : Addr) (r : Rod) : Prop :=
  t.getLsbD 0 = false ∧ t.getLsbD 1 = false ∧
    ((isS a = true ∧ r.sreg (sIndex a) = t.setWidth 64) ∨
      (isS a = false ∧ beadsOf r ≠ [] ∧ ∀ k ∈ beadsOf r, joinWords (r.vreg k a) (r.vreg k (next a 1)) = t.setWidth 64))

/-- A transfer to the address that a register holds. -/
def toRegister (a : BitVec 7) (g : Rod → Rod) : Option Change :=
  some ⟨fun _ r => ∃ t, isTarget a t r, fun _ r =>
    let x := if isS a then r.sreg (sIndex a) else joinWords (r.vreg ((beadsOf r).headD 0) a) (r.vreg ((beadsOf r).headD 0) (next a 1))
    { g r with pc := x.setWidth 48, resume := 0 }⟩

/-- JOIN (R28) on a stack: its pending group runs, or the beads that reconverge do. -/
def joined (r : Rod) : Rod :=
  match r.stack with
  | [] => r.advance
  | e :: es =>
    let arrived := { e with j := some r.pc, w := e.w ||| r.active }
    if e.pv then
      { r.setControlMode e.pmode with
        active := e.pm, pc := e.ppc, resume := e.pr.toNat, fmt := e.pfmt
        stack := { arrived with pv := false, pr := 0 } :: es }
    else { r.setControlMode e.smode with active := e.f, pc := r.pc + 4, resume := 0, fmt := e.sfmt, stack := es }

/-- The top entry has no join address or this one, and it has a pending group or beads to reconverge (R28). -/
def joinable (r : Rod) : Prop :=
  ∀ e es, r.stack = e :: es → (e.j = none ∨ e.j = some r.pc) ∧ (e.pv = true ∨ e.f ≠ 0)

/-- NOP, branches, calls, returns, JOIN and YIELD (R27, R28, R337, R340, R342, R343, R349, R381, R390, R403, R438). -/
def controlChange : Instr → Option Change
  | .nop => always Rod.advance
  | .bra f => whenever (branchRoom f) (branched f)
  | .brpAll f => always fun r =>
      if selects r f = beadsOf r then { r with pc := offsetTarget r f.o, resume := 0 } else r.advance
  | .brpAny f => always fun r => if selects r f = [] then r.advance else { r with pc := offsetTarget r f.o, resume := 0 }
  | .call f => always fun r => { r.setS 31 ((r.pc + 4).setWidth 64) with pc := offsetTarget r f.o, resume := 0 }
  | .callReg f => toRegister f.a fun r => r.setS (sIndex f.d) ((r.pc + 4).setWidth 64)
  | .cont f => toRegister f.a id
  | .ret f => toRegister f.a id
  | .join => whenever joinable joined
  | .yield => some ⟨fun _ _ => True, fun s r => { r.advance with status := .held (s.clk.toNat + 65) }⟩
  | _ => none

/-! ### Special and capability registers -/

/-- The special registers in the order of their numbers, as a bead reads them (R49 to R56). -/
def specials (r : Rod) (fr : Frame) (clk : Dword) (k : Nat) : List Dword :=
  [r.mode.setWidth 64, r.fmt.setWidth 64, BitVec.ofNat 64 (r.alloc / 32 * 8 + r.base.toNat) &&& 0xFF, BitVec.ofNat 64 k,
    r.rodid.setWidth 64, r.frameid.setWidth 64, r.boardid.setWidth 64, r.tableid.setWidth 64, r.devid.setWidth 64,
    r.active.setWidth 64, clk, r.rodcyc,
    (if r.timerEn = true ∧ r.timerCount ≠ 0 then 0x8000000000000000 else 0) ||| r.timerCount.setWidth 64,
    fr.segS.limit.setWidth 64 <<< 20 ||| fr.segS.base.setWidth 64, fr.segW.limit.setWidth 64 <<< 20 ||| fr.segW.base.setWidth 64,
    fr.segA.limit.setWidth 64 <<< 20 ||| fr.segA.base.setWidth 64, fr.segC.limit.setWidth 64 <<< 20 ||| fr.segC.base.setWidth 64]

/-- Each issuing bead with the cycles that passed before its own (R16). -/
def turns (r : Rod) : List (Nat × Nat) := r.issuing.zip (List.range 16)

/-- The rod's frame, where it has one. -/
def frameOf (s : State) (r : Rod) : Frame := (s.frame? r.frame).getD placedFrame

/-- GETS of a number (R369): one uniform read, or a read by each bead in its own cycle. -/
def gotten (n : Nat) (d : BitVec 7) (s : State) (r : Rod) : Rod :=
  (if isS d then r.setS (sIndex d) ((specials r (frameOf s r) s.clk 0).getD n 0)
   else (turns r).foldl (fun q (k, j) =>
      q.setOperand (some k) (decide (n ≠ 3)) d
        ((specials (r.tick j) (frameOf s r) (s.clk + BitVec.ofNat 64 j) k).getD n 0)) r).advance

/-- A value that MODE's control fields take: RM is not 000, NANP is 00 or 01, and bit 15 is 0 (R50). -/
def modeValue (x : Dword) : Prop := x.extractLsb' 0 3 ≠ 0 ∧ x.getLsbD 7 = false ∧ x.getLsbD 15 = false

/-- A class code that FMT takes (R52). -/
def classValue (x : BitVec 3) : Prop := x.toNat < 5

/-- A value that FMT takes (R52): assigned classes in AF, BF and QF, bits [15:11] zero, and not QF f16 with the block
scale 11. -/
def fmtValue (x : Dword) : Prop :=
  classValue (x.extractLsb' 0 3) ∧ classValue (x.extractLsb' 3 3) ∧ classValue (x.extractLsb' 8 3) ∧
    x.extractLsb' 11 5 = 0 ∧ ¬ (x.extractLsb' 6 2 = 3 ∧ x.extractLsb' 8 3 = 2)

/-- MODE with its control fields replaced; the sticky flags stay (R50, R410). -/
def modeWith (m : BitVec 32) (c : BitVec 16) : BitVec 32 := (m &&& 0xFFFF0000) ||| c.setWidth 32

/-- The window at a base lies in the rod's registers (R45, R433). -/
def windowFits (base : Nat) (r : Rod) : Prop := base = 0 ∨ 32 * base + 96 ≤ r.alloc

/-- What SETS writes (R411): MODE, with a 1 in [22:16] clearing that flag; FMT; WBASE.BASE; TIMER; no other register. -/
def setsChange (n : Nat) (a : BitVec 7) : Change :=
  let x (r : Rod) : Dword := r.sreg (sIndex a)
  match n with
  | 0 => ⟨fun _ r => modeValue (x r) ∧ (x r) >>> 23 = 0,
      fun _ r => { r with mode := (modeWith r.mode ((x r).setWidth 16) &&& ~~~ ((x r).setWidth 32 &&& 0x7F0000)) &&& 0x7F7FFF }.advance⟩
  | 1 => ⟨fun _ r => fmtValue (x r), fun _ r => { r with fmt := (x r).setWidth 16 }.advance⟩
  | 2 => ⟨fun _ r => windowFits ((x r).extractLsb' 0 3).toNat r, fun _ r => { r with base := (x r).extractLsb' 0 3 }.advance⟩
  | 12 => ⟨fun _ _ => True,
      fun _ r => { r with timerEn := (x r).getLsbD 63 && decide ((x r).extractLsb' 0 63 ≠ 0), timerCount := (x r).extractLsb' 0 63 }.advance⟩
  | _ => ⟨fun _ _ => True, fun _ => Rod.advance⟩

/-- The capability that CAPNAR makes (R345): the rights and LO of the first register, HI of the second, all else of
the source. -/
def narrowedCap (c : Cap) (lo hi : Dword) : Cap :=
  ⟨c.v, lo.getLsbD 52, lo.getLsbD 51, lo.getLsbD 50, lo.getLsbD 49, lo.getLsbD 48, c.handle, lo.setWidth 48, hi.setWidth 48⟩

/-- A capability has no authority that another lacks (R120). -/
def noMore (x y : Cap) : Prop :=
  (x.rd → y.rd) ∧ (x.w → y.w) ∧ (x.a → y.a) ∧ (x.e → y.e) ∧ (x.x → y.x) ∧ y.lo ≤ x.lo ∧ x.hi ≤ y.hi ∧ x.lo ≤ x.hi

/-- A bit of a dword at a place. -/
def flagAt (b : Bool) (i : Nat) : Dword := if b then 1 <<< i else 0

/-- GETS, SETS, RDCLK, SETFMT, SETMODE, WBASE, CAPNAR and CAPRD (R345, R346, R369, R401, R409 to R411, R433). -/
def specialChange : Instr → Option Change
  | .gets f => some ⟨fun s r => (s.frame? r.frame).isSome = true, gotten f.n.toNat f.d⟩
  | .rdclk f => some ⟨fun _ _ => True, fun s r =>
      (if f.u then r.setS (sIndex f.d) s.clk
       else (turns r).foldl (fun q (k, j) => q.setDword (some k) f.d (s.clk + BitVec.ofNat 64 j)) r).advance⟩
  | .setfmt f => whenever (fun r => fmtValue (r.sreg (sIndex f.a))) fun r =>
      { r with fmt := (r.sreg (sIndex f.a)).setWidth 16 }.advance
  | .setmode f => whenever
      (fun r => f.c = 0 → modeValue (r.sreg (sIndex f.a)) ∧ (r.sreg (sIndex f.a)) >>> 16 = 0) fun r =>
      { r with mode :=
          if f.c = 0 then modeWith r.mode ((r.sreg (sIndex f.a)).setWidth 16) else (r.mode &&& ~~~ 7) ||| f.c.setWidth 32 }.advance
  | .sets f => some (setsChange f.n.toNat f.a)
  | .wbase f => whenever (windowFits f.b.toNat) fun r => { r with base := f.b.setWidth 3 }.advance
  | .capnar f => whenever
      (fun r =>
        let lo := r.sreg (sIndex f.b)
        let hi := r.sreg (sIndex f.b + 1)
        lo >>> 53 = 0 ∧ hi >>> 48 = 0 ∧ (r.cap f.s.toNat).v = true ∧ noMore (narrowedCap (r.cap f.s.toNat) lo hi) (r.cap f.s.toNat))
      fun r => (r.setCap f.d.toNat
        (narrowedCap (r.cap f.s.toNat) (r.sreg (sIndex f.b)) (r.sreg (sIndex f.b + 1)))).advance
  | .caprd f => always (toUniform64 f.d fun r =>
      let c := r.cap f.k.toNat
      match f.c.toNat with
      | 0 => c.handle.setWidth 64
      | 1 => c.lo.setWidth 64
      | 2 => c.hi.setWidth 64
      | _ => flagAt c.v 7 ||| flagAt c.x 6 ||| flagAt c.e 5 ||| flagAt c.a 4 ||| flagAt c.w 3 ||| flagAt c.rd 2)
  | _ => none

/-! ### Memory -/

/-- A device virtual address gives this physical address to a core, or to an agent of no core: a TLB of its own holds the
page, for a write as one that may be written (R138, R140); the address lies outside this device's own export space (R310);
and neither an export page that is not held nor a silent CXL port bars it (R311, R313). -/
def mapsTo (s : State) (core : Option Nat) (asid va : Nat) (write : Bool) (a : Nat) : Prop :=
  ∃ t, s.tlbFind core asid va write = some t ∧ a = t.place va ∧ ¬ (field a 50 2 = 2 ∧ field a 38 12 = s.endpoint) ∧
    s.barred a write = none

/-- An access of a rod through a capability has this physical address: the capability is valid, grants the rights and
holds the bytes (R116, R117); the core's object cache has the object, which holds them (R121, R136); the page is in the
core's TLB, for a write as one that may be written (R138, R140), and not in this device's own export space (R310); and,
unless the access only fills a tentative line, nothing bars the address and its data is sound (R311 to R313, R286). -/
structure Reaches (s : State) (r : Rod) (c : Cap) (q : Rights) (byte size : Nat) (use : Use) (a : Nat) : Prop where
  valid : c.v = true
  rights : c.grants q = true
  inside : c.lo.toNat ≤ byte ∧ byte + size ≤ c.hi.toNat
  mapped : ∃ len base t, s.cachedObject r.core r.asid c.handle.toNat = some (len, base) ∧ byte + size ≤ len ∧
    s.tlbFind (some r.core) r.asid ((base + byte) % 2 ^ 48) (decide (use ≠ .load)) = some t ∧ a = t.place ((base + byte) % 2 ^ 48)
  outside : ¬ (field a 50 2 = 2 ∧ field a 38 12 = s.endpoint)
  open_ : use ≠ .tentative → s.barred a (decide (use = .home)) = none ∧ s.damaged a size = false

/-- What an engine's access at a physical address sees is the newest: it must see every recent write that touches the bytes
(R162, R169). -/
def upToDate (s : State) (c : Client) (a n : Nat) : Prop := ∀ w ∈ s.writes, w.touches a n = true → s.engineMustSee c w = true

/-- The bytes of a width code (R70). -/
def widthBytes (w : BitVec 3) : Nat := [1, 1, 2, 2, 4, 8, 16].getD w.toNat 16

/-- What a load of a width code writes (R70, R383): 16 bytes, 8 bytes, or up to 4 bytes, sign-extended for the codes
001 and 011, to the 32 bits of a v register or the 64 bits of an s register. -/
def loadedInto (r : Rod) (b : Option Nat) (d : BitVec 7) (w : BitVec 3) (x : Nat) : Rod :=
  let put (y : Dword) : Rod := if isS d then r.setS (sIndex d) y else r.setV (beadNo b) d (y.setWidth 32)
  match w.toNat with
  | 6 => r.setQuad b d (BitVec.ofNat 128 x)
  | 5 => r.setDword b d (BitVec.ofNat 64 x)
  | 1 => put ((BitVec.ofNat 8 x).signExtend 64)
  | 3 => put ((BitVec.ofNat 16 x).signExtend 64)
  | _ => put (BitVec.ofNat 64 x)

/-- The number whose low bytes a store of a width code stores (R70, R415). -/
def storedFrom (r : Rod) (b : Option Nat) (d : BitVec 7) (w : BitVec 3) : Nat :=
  if w = 6 then (r.quad b d).toNat else if w = 5 then (r.dword b d).toNat else (r.word b d).toNat

/-- The byte offset of an LD, ST or atomic (R116): the offset, 64 bits wide with X, times the size. -/
def byteOffset (r : Rod) (b : Option Nat) (x : Bool) (f : BitVec 7) (size : Nat) : Nat := (r.operand b x f).toNat * size

/-- The byte of a nibble store (R134): an offset from 2^48 up lies in no object. -/
def nibbleOffset (r : Rod) (b : Option Nat) (x : Bool) (f : BitVec 7) : Nat :=
  if (r.operand b x f).toNat < 2 ^ 48 then (r.operand b x f).toNat / 2 else (r.operand b x f).toNat

/-- The byte after a nibble store (R134, R419): the odd offset is the high nibble. -/
def nibbleStored (r : Rod) (b : Option Nat) (f : ShMemNW) (old : Nat) : Nat :=
  if (r.operand b f.x f.f).toNat % 2 = 1 then old % 16 + 16 * ((r.word b f.d).toNat % 16)
  else old / 16 * 16 + (r.word b f.d).toNat % 16

/-- An atomic: its capability, offset and size, the code of its order, its data register, and from the rod, the bead and the old value what it
stores and what it returns (R328). -/
structure Atomic where
  u : Bool
  c : BitVec 4
  x : Bool
  f : BitVec 7
  size : Nat
  order : Nat
  d : BitVec 7
  act : Rod → Option Nat → Nat → Option Nat × Option Dword

/-- A number of `w` bits read as unsigned or two's complement. -/
def readAs (w : Nat) (n : Bool) (x : Nat) : Int := if n = false ∧ 2 ^ (w - 1) ≤ x then (x : Int) - 2 ^ w else x

/-- What an ATOM stores: add, exchange, and, or, xor, min, max (R332). -/
def atomStores (w : Nat) (n : Bool) (op : BitVec 3) (old x : Nat) : Nat :=
  match op.toNat with
  | 0 => (old + x) % 2 ^ w
  | 1 => x
  | 2 => old &&& x
  | 3 => old ||| x
  | 4 => old ^^^ x
  | 5 => if readAs w n x < readAs w n old then x else old
  | _ => if readAs w n old < readAs w n x then x else old

/-- An ATOM of a type (R332): it returns the old value. -/
def atomOf (f : ShAtom) (size : Nat) (n : Bool) : Atomic :=
  ⟨f.u, f.c, f.x, f.f, size, f.o.toNat, f.d, fun r b old =>
    (some (atomStores (8 * size) n f.p old (r.operand b (decide (size = 8)) f.d).toNat), some (BitVec.ofNat 64 old))⟩

/-- The atomics (R329, R330, R332). -/
def atomicOf : Instr → Option Atomic
  | .acas f => some ⟨f.u, f.c, f.x, f.f, if f.w then 8 else 4, f.o.toNat, f.d, fun r b old =>
      (if old = (r.operand b f.w f.d).toNat then some (r.operand b f.w (f.d + if f.w && !f.u then 2 else 1)).toNat else none,
        some (BitVec.ofNat 64 old))⟩
  | .amax64 f => some ⟨f.u, f.c, f.x, f.f, 8, f.o.toNat, f.d, fun r b old =>
      (if old < (r.dword b f.d).toNat then some (r.dword b f.d).toNat else none, none)⟩
  | .atomS32 f => some (atomOf f 4 false)
  | .atomN32 f => some (atomOf f 4 true)
  | .atomS64 f => some (atomOf f 8 false)
  | .atomN64 f => some (atomOf f 8 true)
  | _ => none

/-- Where the line of a store into a tentative line comes from (R144, R150, R313): its physical line, its device virtual line
address, the handle of the object, and MT of the page. -/
def lineFrom (s : State) (r : Rod) (c : Cap) (byte a : Nat) : LineTag :=
  let va := (((s.cachedObject r.core r.asid c.handle.toNat).map Prod.snd).getD 0 + byte) % 2 ^ 48
  ⟨a / 128, va / 128 * 128, c.handle.toNat, ((s.tlbFind (some r.core) r.asid va true).map TlbEntry.mt).getD 0⟩

/-- The rod as the state has it now. -/
def nowOf (s : State) (r : Rod) : Rod := (s.rod? r.uid).getD r

/-- The rod has returned the last writes of some bytes, with an acquire or without (R163). -/
def returning (r : Rod) (acquire : Bool) (ws : List WriteRec) (s : State) : State :=
  s.alter r.uid fun q => { q with view := q.view.loaded q.agent acquire ws }

/-- A sequentially consistent operation of the rod takes its place in the order S at a scope (R166). -/
def ordered (r : Rod) (scope : Nat) (s : State) : State :=
  let s1 := s.alter r.uid fun q => { q with view := s.scBefore q.view q.agent scope }
  s1.scAfter (nowOf s1 r).view r.agent scope

/-- A bead performs an access at the home of its bytes (R168): it reads the newest value, `new` gives what it writes
there, and the write carries the releases that its order, the rod's fences and the writes before it give (R159, R163); where it
writes nothing, its die holds no older copy of the line (R161). -/
def atHome (r : Rod) (sc acquire release : Bool) (a n : Nat) (new : Option Nat) (s : State) : State :=
  let s1 := if sc then ordered r 4 s else s
  let q := nowOf s1 r
  let last := returned (s1.touching a n) a n
  let own := (q.view.release q.agent 4).through (homeDieOf a) (s1.fresh + 1)
  let s2 := match new with
    | some x => s1.rodWrite q ((if release then [own] else []) ++ q.view.rel ++ chainStamps (s1.touching a n)) a n x
    | none => s1.installOwn (dieOfCore q.core) (lineOf a)
  returning r acquire last s2

/-- One bead's turn of an atomic at its address, with the order of its code (R328, R159). -/
def atomicTurn (x : Atomic) (r : Rod) (b : Option Nat) (a : Nat) (s : State) : State :=
  let y := x.act r b (s.natAt a x.size)
  let s1 := atHome r (decide (x.order = 0)) (decide (x.order = 0 ∨ x.order = 2)) (decide (x.order = 0 ∨ x.order = 3)) a x.size y.1 s
  match y.2 with
  | some v => s1.alter r.uid fun q => q.setOperand b (decide (x.size = 8)) x.d v
  | none => s1

/-- One bead's LD at its address (R162, R383): it is strong unless its order is weak, and an acquire with order 2; the die
keeps a copy of a remote line (R165). -/
def loadTurn (f : ShMem) (r : Rod) (at_ : Option Nat → Nat) (s : State) (b : Option Nat) : State :=
  let y := s.loadNat (nowOf s r) (decide (f.o.toNat ≠ 0)) (at_ b) (widthBytes f.w)
  let s1 := returning r (decide (f.o.toNat = 2)) y.1.2 (y.2.fillCopy (dieOfCore r.core) (lineOf (at_ b)))
  s1.alter r.uid fun q => loadedInto q b f.d f.w y.1.1

/-- The parts' words as their homes have them, each by a strong load with acquire at its address, and the state after them
(R161, R163, R172). -/
def strongReads (r : Rod) (at_ : Option Nat → Nat) (n : Nat) : List (Option Nat) → State → List (Option Nat × Nat) × State
  | [], s => ([], s)
  | b :: bs, s =>
    let s0 := s.installOwn (dieOfCore r.core) (lineOf (at_ b))
    let y := s0.loadNat (nowOf s0 r) true (at_ b) n
    let z := strongReads r at_ n bs (returning r true y.1.2 (y.2.fillCopy (dieOfCore r.core) (lineOf (at_ b))))
    ((b, y.1.1) :: z.1, z.2)

/-- Bytes are written at their homes by the rod as a release at a scope (R164). -/
def published (r : Rod) (scope : Nat) (ws : List (Nat × Byte)) (s : State) : State :=
  let q := nowOf s r
  s.rodWrites q ((q.view.release q.agent scope).over s.fresh ws :: q.view.rel) ws

/-- A byte of the range `a` to `a + n - 1`. -/
def within (a n x : Nat) : Prop := a ≤ x ∧ x < a + n

/-- An address that a commit of the rod's open region may write: a byte of its tentative lines or of its committed lines
on their way. -/
def committing (s : State) (r : Rod) (x : Nat) : Prop :=
  (∃ v, (x, v) ∈ r.tent) ∨ ∃ i ∈ s.inflight, i.rod = r.uid ∧ ∃ v, (x, v) ∈ i.bytes

/-! ### The typed buffers -/

/-- The fields of an LDL with its buffer (R122, R385). -/
def ldlOf : Instr → Option (ShLdl × Nat)
  | .ldlS f => some (f, 0)
  | .ldlW f => some (f, 1)
  | .ldlA f => some (f, 2)
  | .ldlC f => some (f, 3)
  | _ => none

/-- The fields of an STL with its buffer (R122, R417). -/
def stlOf : Instr → Option (ShStl × Nat)
  | .stlS f => some (f, 0)
  | .stlA f => some (f, 2)
  | .stlC f => some (f, 3)
  | _ => none

/-- The first byte of a local access, relative to its segment (R124): the offset times the size. -/
def localByte (r : Rod) (b : Option Nat) (f : BitVec 7) (size : Nat) : Nat := (r.word b f).toNat * size

/-- The physical number of the cell that a local access lies in. -/
def localCell (fr : Frame) (buf : Nat) (r : Rod) (b : Option Nat) (f : BitVec 7) (size : Nat) : Nat :=
  (fr.seg buf).base.toNat + localByte r b f size / 16

/-- The bytes of a cell that an access reads, as a number. -/
def cellPart (x : BitVec 128) (byte size : Nat) : Nat := x.toNat / 2 ^ (8 * byte) % 2 ^ (8 * size)

/-- A cell with the bytes of an access replaced. -/
def cellWith (x : BitVec 128) (byte size v : Nat) : BitVec 128 :=
  BitVec.ofNat 128 (x.toNat - cellPart x byte size * 2 ^ (8 * byte) + v % 2 ^ (8 * size) * 2 ^ (8 * byte))

/-- A bead's LDL at a present cell: a take or a peek touches the windows that hold the cell, and a take leaves it absent
(R127, R179). -/
def ldlTurn (f : ShLdl) (buf : Nat) (fr : Frame) (r : Rod) (s : State) (b : Option Nat) : State :=
  let n := localCell fr buf r b f.f (widthBytes f.w)
  let s1 := if f.q.toNat = 2 then s else s.touchCells (nowOf s r).view.seen fr.uid buf (localByte r b f.f (widthBytes f.w) / 16) 1
  if f.q.toNat = 0 then s1.setCell r.core buf n ⟨(s.cell r.core buf n).data, false⟩ else s1

/-- What a bead's LDL returns (R127): for a probe whether the cell is present, else the bytes. -/
def ldlValue (f : ShLdl) (buf : Nat) (fr : Frame) (r : Rod) (s : State) (b : Option Nat) : Nat :=
  let c := s.seen r.core buf (localCell fr buf r b f.f (widthBytes f.w))
  if f.q.toNat = 2 then c.present.toNat else cellPart c.data (localByte r b f.f (widthBytes f.w) % 16) (widthBytes f.w)

/-- A bead's STL: it writes its bytes, and the cell becomes present, which serves whoever waits there (R126, R128). -/
def stlTurn (f : ShStl) (buf : Nat) (fr : Frame) (r : Rod) (s : State) (b : Option Nat) : State :=
  let n := localCell fr buf r b f.f (widthBytes f.w)
  s.writeCell r.core buf n
    (cellWith (s.cell r.core buf n).data (localByte r b f.f (widthBytes f.w) % 16) (widthBytes f.w) (storedFrom r b f.d f.w))

/-! ### Handlers and halts -/

/-- The rod `q` runs in its context's handler for a fault of the rod `r` (R288): the pc is HANDLER without its bits [1:0], the one bead `h` is
active, s24 holds CLASS, CAUSE, RESUME and CODE, s25 the epc, s26 INFO, s27 the active mask, s28 to s31 are zero, the
fault frame keeps what ERET restores, and no other register of the rod has changed. -/
structure Entered (handler : Nat) (r q : Rod) (cls cause k h info code : Nat) (epc : Addr) : Prop where
  pc : q.pc = BitVec.ofNat 48 (handler / 4 * 4)
  active : q.active = BitVec.ofNat 16 (2 ^ h)
  resume : q.resume = 0
  ready : q.status = .ready
  low : q.s.take 24 = r.s.take 24
  high : q.s.drop 24 = [BitVec.ofNat 64 (cls + 2 ^ 8 * cause + 2 ^ 16 * k + 2 ^ 32 * (code % 2 ^ 32)), epc.setWidth 64,
    BitVec.ofNat 64 info, r.active.setWidth 64, 0, 0, 0, 0]
  frame : q.handler = some ⟨r.s.drop 24, epc, r.active, r.mode.setWidth 16, r.fmt, r.base, r.stack.length, k, cls, cause⟩
  beads : q.beads = r.beads
  caps : q.c = r.c
  mode : q.mode = r.mode
  fmt : q.fmt = r.fmt
  window : q.base = r.base
  stack : q.stack = r.stack

/-! ### Requests to the engines -/

/-- The record of a part's TTASK (R200): eight v registers, or four s registers. -/
def taskRecord (r : Rod) (b : Option Nat) (a : BitVec 7) : BitVec 256 :=
  if isS a then r.sreg (sIndex a + 3) ++ r.sreg (sIndex a + 2) ++ r.sreg (sIndex a + 1) ++ r.sreg (sIndex a)
  else BitVec.ofNat 256 (((List.range 8).map fun i => (r.vreg (beadNo b) (next a i)).toNat * 2 ^ (32 * i)).sum)

/-- A task enters its core's queue (R201). -/
def enqueue (r : Rod) (kind : TaskKind) (s : State) : State :=
  { s with fresh := s.fresh + 1, tasks := s.tasks ++ [⟨s.fresh, r.core, r.frame, r.uid, r.asid, kind, .queued, [], [], 0, (nowOf s r).view.seen⟩] }

/-- The classes AF and BF of FMT (R52). -/
def classA (r : Rod) : Nat := r.fmt.toNat % 8

/-- BF. -/
def classB (r : Rod) : Nat := r.fmt.toNat / 8 % 8

/-- An INFER request of a part (R211): its future, descriptor and input. -/
def inferKind (r : Rod) (s : State) (fr : Frame) (i : ShUDAB) (b : Option Nat) : TaskKind :=
  let desc := (r.sreg (sIndex i.a)).toNat % 2 ^ 32
  .infer (r.word b i.d).toNat desc (r.word b i.b).toNat (s.descSizes fr desc).1 (s.descSizes fr desc).2

/-- The ranges of an INFER request lie in S, and its future and input do not overlap (R211). -/
def inferFits (fr : Frame) : TaskKind → Prop
  | .infer future desc input nw inw =>
    desc + 5 ≤ fr.segS.limit.toNat ∧ input + 4 * inw ≤ fr.segS.limit.toNat ∧ future + 8 * nw ≤ fr.segS.limit.toNat ∧
      (future + 8 * nw ≤ input ∨ input + 4 * inw ≤ future)
  | .tile _ _ _ => False

/-- A part's INFER: the request is queued, and its future is absent (R211). -/
def inferTurn (r : Rod) (fr : Frame) (k : TaskKind) (s : State) : State :=
  match k with
  | .infer future _ _ nw _ => (enqueue r k s).absentCells fr.core 0 (fr.segS.base.toNat + future) (8 * nw)
  | .tile _ _ _ => s

/-- Cells from one up, of which the waiting bead has read some: the rest are present (R128). -/
def peekable (s : State) (r : Rod) (buf first n : Nat) : Prop :=
  r.peeked.length ≤ n ∧ ∀ i, r.peeked.length ≤ i → i < n → (s.seen r.core buf (first + i)).present = true

/-- What an instruction reads of those cells. -/
def peekedCells (s : State) (r : Rod) (buf first n : Nat) : List (BitVec 128) :=
  r.peeked ++ ((List.range n).drop r.peeked.length).map fun i => (s.cell r.core buf (first + i)).data

/-- The rod has read all of them. -/
def forgetCells (r : Rod) (s : State) : State := s.alter r.uid fun q => { q with peeked := [] }

/-- A slot spec of SUMSET (R222). -/
def specAt (x : BitVec 128) : Spec :=
  ⟨(x.extractLsb' 80 8).toNat, (x.extractLsb' 72 5).toNat, (x.extractLsb' 44 20).toNat, (x.extractLsb' 32 12).toNat + 1,
    (x.extractLsb' 112 16).toNat⟩

/-- Slot specs that SUMSET takes (R223): reserved bits zero, COUNT at least 1, SIZE at most 2,048, and no slot twice. -/
def specsTaken (xs : List (BitVec 128)) : Prop :=
  (∀ x ∈ xs, x.extractLsb' 88 24 = 0 ∧ x.extractLsb' 77 3 = 0 ∧ x.extractLsb' 64 8 = 0 ∧ x.extractLsb' 0 32 = 0 ∧
    x.extractLsb' 112 16 ≠ 0 ∧ (x.extractLsb' 32 12).toNat + 1 ≤ 2048) ∧
  (xs.map fun x => ((specAt x).core, (specAt x).slot)).Nodup

/-- The descriptor of a SUMSET is well formed (R221): its reserved bits are zero, an arrival-order chain has the exponent
zero, and the base is below 2^32. -/
def sumsetTaken (i : ShSumset) (desc base : Dword) : Prop :=
  desc >>> 32 = 0 ∧ desc.extractLsb' 4 19 = 0 ∧ (i.f = false → desc.extractLsb' 23 9 = 0) ∧ base.toNat < 2 ^ 32

/-- A SUMSEND's target word names no reserved bit (R225). -/
def targetTaken (t : Nat) : Prop := t < 2 ^ 28 ∧ t / 2 ^ 13 % 8 = 0

/-- The window that a part's WBIND binds (R176, R183), from its two operands; `v` is what comes before it (R170). -/
def wbindWindow (v : Seen) (c : Cap) (x off : Nat) : Window :=
  ⟨.bound, field x 121 2, field x 96 20, field x 80 16 + 1, field x 68 12 + 1, field x 32 32, c, off, 0, none, none, v, []⟩

/-- What WBIND checks (R176, R177): the window number, the reserved fields, a stride of whole cells, cells of S, W or A in
the segment that no other window holds, and a source that the capability grants E for, at a whole cell. -/
def wbindTaken (f : Frame) (c : Cap) (x off : Nat) : Prop :=
  let w := wbindWindow ⟨Marks.none, []⟩ c x off
  field x 123 5 < f.windows.length ∧ field x 116 5 = 0 ∧ field x 64 4 = 0 ∧ field x 0 32 = 0 ∧ field x 32 32 % 16 = 0 ∧
    f.roomFor w.buf w.cell (w.rows * w.rowc) (f.otherWindows [field x 123 5]) = true ∧
    c.v = true ∧ c.e = true ∧ c.lo.toNat ≤ off ∧ off + (w.rows - 1) * w.stride + 16 * w.rowc ≤ c.hi.toNat ∧ off % 16 = 0

/-- Parts of an instruction one after another: each finds what it needs in the state that those before it leave. -/
def eachTaken {α : Type} (ok : State → α → Prop) (turn : State → α → State) : State → List α → Prop
  | _, [] => True
  | s, b :: bs => ok s b ∧ eachTaken ok turn (turn s b) bs

/-- A part of WBIND finds its frame, and its operands pass the checks. -/
def wbindReady (i : ShWbind) (r : Rod) (s : State) (b : Option Nat) : Prop :=
  ∃ f, s.frame? r.frame = some f ∧ wbindTaken f (r.cap i.c.toNat) (r.quad b i.a).toNat (r.dword b i.b).toNat

/-- A part's WBIND. -/
def wbindTurn (i : ShWbind) (r : Rod) (s : State) (b : Option Nat) : State :=
  s.bindWindow (frameOf s r) (field (r.quad b i.a).toNat 123 5)
    (wbindWindow (nowOf s r).view.seen (r.cap i.c.toNat) (r.quad b i.a).toNat (r.dword b i.b).toNat)

/-- The two windows of a part's WCSR (R184, R185): indices in S, values in a buffer; `v` is what comes before it (R170). -/
def wcsrWindow (v : Seen) (index : Bool) (c : Cap) (x rows : Nat) : Window :=
  let vw := 2 ^ field x 116 2
  let nmax := field x 96 16 + 1
  let g : Gather := ⟨index, if index then field x 118 5 else field x 123 5, vw, nmax, rows % 2 ^ 32, rows / 2 ^ 32 % 2 ^ 32,
    none, 0, [], []⟩
  if index then ⟨.bound, 0, field x 76 20, 1, 1 + (4 * nmax + 15) / 16, 0, c, 0, 0, some g, none, v, []⟩
  else ⟨.bound, field x 114 2, field x 56 20, 1, (vw * nmax + 15) / 16, 0, c, 0, 0, some g, none, v, []⟩

/-- What WCSR checks (R184, R185). -/
def wcsrTaken (f : Frame) (c : Cap) (x rows : Nat) : Prop :=
  let p := wcsrWindow ⟨Marks.none, []⟩ true c x rows
  let q := wcsrWindow ⟨Marks.none, []⟩ false c x rows
  let rest := f.otherWindows [field x 123 5, field x 118 5]
  field x 123 5 < f.windows.length ∧ field x 118 5 < f.windows.length ∧ field x 123 5 ≠ field x 118 5 ∧
    field x 112 2 = 0 ∧ field x 0 56 = 0 ∧ f.roomFor 0 p.cell p.rowc rest = true ∧ f.roomFor q.buf q.cell q.rowc rest = true ∧
    (q.buf = 0 → p.cell + p.rowc ≤ q.cell ∨ q.cell + q.rowc ≤ p.cell) ∧ c.v = true ∧ c.e = true ∧ c.lo.toNat ≤ c.hi.toNat

/-- A part of WCSR finds its frame, and its operands pass the checks. -/
def wcsrReady (i : ShWbind) (r : Rod) (s : State) (b : Option Nat) : Prop :=
  ∃ f, s.frame? r.frame = some f ∧ wcsrTaken f (r.cap i.c.toNat) (r.quad b i.a).toNat (r.dword b i.b).toNat

/-- A part's WCSR. -/
def wcsrTurn (i : ShWbind) (r : Rod) (s : State) (b : Option Nat) : State :=
  let f := frameOf s r
  let x := (r.quad b i.a).toNat
  let rows := (r.dword b i.b).toNat
  let s1 := (s.freeWindows f.uid (f.together (field x 123 5))).freeWindows f.uid (f.together (field x 118 5))
  let v := (nowOf s r).view.seen
  (s1.placeWindow f (field x 123 5) (wcsrWindow v true (r.cap i.c.toNat) x rows)).placeWindow f
    (field x 118 5) (wcsrWindow v false (r.cap i.c.toNat) x rows)

/-- The window number of a part of WTOUCH or WDROP. -/
def windowNumber (r : Rod) (b : Option Nat) (a : BitVec 7) : Nat :=
  if isS a then (r.sreg (sIndex a)).toNat else (r.vreg (beadNo b) a).toNat

/-- A part of WDROP names a window of its frame that is not Copying (R182). -/
def wdropReady (i : ShUA) (r : Rod) (s : State) (b : Option Nat) : Prop :=
  ∃ f, s.frame? r.frame = some f ∧ windowNumber r b i.a < 32 ∧ windowNumber r b i.a < f.windows.length ∧
    (f.window (windowNumber r b i.a)).st ≠ .copying ∧ (f.window (windowNumber r b i.a)).st ≠ .draining

/-- A part's WDROP: the window becomes Free, with the partner of a walk. -/
def wdropTurn (i : ShUA) (r : Rod) (s : State) (b : Option Nat) : State :=
  let f := frameOf s r
  if (f.window (windowNumber r b i.a)).st = .free then s else s.freeWindows f.uid (f.together (windowNumber r b i.a))

/-- A burst is declared for an engine of a core (R215): one without a grant asks for it, a ramp-down is over, and the
length counts from now unless a ramp comes before it. -/
def declares (core eng asid len : Nat) (s : State) : State :=
  let with_ (until_ : Option Nat) : State :=
    { s with bursts := s.bursts.filter (fun b => decide (b.core ≠ core ∨ b.eng ≠ eng)) ++ [⟨core, eng, asid, len, until_⟩] }
  match s.engineMode core eng with
  | .idle => (with_ none).askGrant core eng
  | .ramp _ => with_ none
  | .granted => with_ (some (s.clk.toNat + len))
  | .down _ => (with_ (some (s.clk.toNat + len))).setEngine core eng .granted

/-! ### Queues -/

/-- The header offset and capability register of a queue operand (R284). -/
def queueCap (r : Rod) (a : BitVec 7) : Cap := r.cap ((r.sreg (sIndex a)).toNat % 16)

/-- The offset. -/
def queueOff (r : Rod) (a : BitVec 7) : Nat := (r.sreg (sIndex a)).toNat / 2 ^ 16 % 2 ^ 48

/-- The rod can use the queue that an operand names: the operand's reserved bits are zero, its header is at a physical
address, and every dword that the capability holds is at a place. -/
structure QueueReady (s : State) (r : Rod) (a : BitVec 7) (h : Nat) (place : Nat → Nat) : Prop where
  operand : (r.sreg (sIndex a)).toNat / 2 ^ 4 % 2 ^ 19 = 0
  header : Reaches s r (queueCap r a) ⟨true, true, true, false, false⟩ (queueOff r a) 128 .home h
  dwords : ∀ byte, (queueCap r a).lo.toNat ≤ byte → byte + 8 ≤ (queueCap r a).hi.toNat →
    Reaches s r (queueCap r a) ⟨true, true, true, false, false⟩ byte 8 .home (place byte)

/-- Offset of a record of a queue (R270): 128 bytes of header, then records of RSZ dwords in SIZE places. -/
def recordOff (r : Rod) (a : BitVec 7) (q : Queue) (n : Nat) : Nat := queueOff r a + 128 + 8 * q.rsz * (n % q.size)

/-- The record lies within the capability. -/
def recordIn (r : Rod) (a : BitVec 7) (q : Queue) (n : Nat) : Prop :=
  (queueCap r a).lo.toNat ≤ recordOff r a q n ∧ recordOff r a q n + 8 * q.rsz ≤ (queueCap r a).hi.toNat

/-- The dwords of a record at their places. -/
def recordPlaces (r : Rod) (a : BitVec 7) (q : Queue) (n : Nat) (place : Nat → Nat) : List Nat :=
  (List.range q.rsz).map fun i => place (recordOff r a q n + 8 * i)

/-- A part of a queue instruction finds the queue at hand with a well-formed header (R270) and the record that it would take
or put within the capability; `fits` is what else the header must satisfy, and a put needs room (R284). -/
def queuePart (r : Rod) (a : BitVec 7) (h : Nat) (place : Nat → Nat) (put : Bool) (fits : Queue → Prop) (s : State)
    (_ : Option Nat) : Prop :=
  let q := s.queueAt h
  QueueReady s r a h place ∧ q.bad false = false ∧ recordIn r a q (if put then q.tail else q.head) ∧ fits q ∧
    (put = true → q.count ≠ q.size)

/-- The group of a record, with its status register for QPOP, lies in the rod's registers (R284, R399). -/
def groupFits (r : Rod) (d : BitVec 7) (extra : Nat) (q : Queue) : Prop :=
  let n := if isS d then q.rsz + extra else 2 * q.rsz + extra
  if isS d then d.toNat + n ≤ 128 else d.toNat + n ≤ 96 ∧ r.base.toNat * 32 + d.toNat + n ≤ r.alloc

/-- The rod has taken the dwords at some places with an acquire, and HEAD moves (R164, R284). -/
def tookRecord (r : Rod) (h n : Nat) (places : List Nat) (s : State) : State :=
  let s1 := returning r true (places.flatMap fun x => returned (s.touching x 8) x 8) s
  s1.rodWrites (nowOf s1 r) (nowOf s1 r).view.rel (placed (h + 8) (bytesOfNat 8 n))

/-- The dwords are published at their places, and then TAIL, each as a release (R164, R284). -/
def putRecord (r : Rod) (h n : Nat) (places : List Nat) (xs : List Dword) (s : State) : State :=
  published r 4 (placed h (bytesOfNat 8 n)) (published r 4 ((places.zip xs).flatMap fun (x, v) => placed x (bytesOfNat 8 v.toNat)) s)

/-- A turn of EDGEGET (R355): 2^63 when the edge is empty, else the record's low 63 bits, and HEAD moves. -/
def edgegetTurn (f : ShUDA) (r : Rod) (h : Nat) (place : Nat → Nat) (s : State) (b : Option Nat) : State :=
  let q := s.queueAt h
  if q.count = 0 then s.alter r.uid fun y => y.setDword b f.d 0x8000000000000000
  else
    tookRecord r h (q.head + 1) (recordPlaces r f.a q q.head place)
      (s.alter r.uid fun y => y.setDword b f.d (BitVec.ofNat 64 (s.natAt (place (recordOff r f.a q q.head)) 8 % 2 ^ 63)))

/-- A turn of EDGEPUT (R355): the operand's low 63 bits become the record at TAIL, and TAIL moves. -/
def edgeputTurn (f : ShUDA) (r : Rod) (h : Nat) (place : Nat → Nat) (s : State) (b : Option Nat) : State :=
  let q := s.queueAt h
  putRecord r h (q.tail + 1) (recordPlaces r f.a q q.tail place) [BitVec.ofNat 64 ((r.dword b f.d).toNat % 2 ^ 63)] s

/-- A turn of QPOP (R399): zeros and the status 0 when the queue is empty, else the record and the status 1. -/
def qpopTurn (f : ShUDA) (r : Rod) (h : Nat) (place : Nat → Nat) (s : State) (b : Option Nat) : State :=
  let q := s.queueAt h
  if q.count = 0 then s.alter r.uid fun y => y.setRecord b f.d 0 (List.replicate q.rsz 0)
  else
    tookRecord r h (q.head + 1) (recordPlaces r f.a q q.head place)
      (s.alter r.uid fun y => y.setRecord b f.d 1 ((recordPlaces r f.a q q.head place).map fun x => BitVec.ofNat 64 (s.natAt x 8)))

/-- A turn of QPUSH (R399): the group's dwords become the record at TAIL, and TAIL moves. -/
def qpushTurn (f : ShUDA) (r : Rod) (h : Nat) (place : Nat → Nat) (s : State) (b : Option Nat) : State :=
  let q := s.queueAt h
  putRecord r h (q.tail + 1) (recordPlaces r f.a q q.tail place)
    ((List.range q.rsz).map fun i => r.dword b (next f.d (if isS f.d then i else 2 * i))) s

/-! ### Fences -/

/-- What a FENCE does at a scope (R163, R166, R364): an acquire of what earlier loads returned, a place in the order S, and
a release before the stores that follow. -/
def fenced (r : Rod) (scope : Nat) (acquire sc release : Bool) (s : State) : State :=
  let s1 := if acquire then s.alter r.uid fun q => { q with view := q.view.acquire r.agent scope q.view.got } else s
  let s2 := if sc then ordered r scope s1 else s1
  if release then s2.alter r.uid fun q => { q with view := q.view.fence r.agent scope } else s2

/-- What XFENCE does (R170): a FENCE acqrel at its scope, after which the writes of the first path that happen before it
are visible to the accesses of the second that come after it, for agents in its scope. -/
def crossed (r : Rod) (first second scope : Nat) (s : State) : State :=
  let s1 := s.alter r.uid fun q => { q with view := q.view.acquire r.agent scope q.view.got }
  let s2 := s1.alter r.uid fun q => { q with
    view := { q.view with ord := joinCross q.view.ord [⟨first, second, scope, r.agent, q.view.hb.join q.view.own⟩] } }
  s2.alter r.uid fun q => { q with view := q.view.fence r.agent scope }

/-! ### The ends of beads -/

/-- The record that a bead leaves behind (R253): where it resumes, its control state, its predicates and its live
registers. -/
def recordOf (s : State) (r : Rod) (k : Nat) (d : BitVec 7) (regs : List Nat) (q : UnitReq) (cell : Nat) : ContRec :=
  { uid := s.fresh, asid := r.asid, frame := r.frame, core := r.core, cell := cell, len := 1 + q.kind.2 + (regs.length + 3) / 4
    origin := r.rodid.toNat * 16 + k, dreg := r.phys d, pred := (r.bead k).p, mode := r.mode.setWidth 16, fmt := r.fmt
    cpc := r.pc + 4, live := r.live.getD 0, regs := regs.map fun i => (i, nth 0 (r.bead k).v i), req := q, result := none
    fault := none, point := none, trace := none, rel := (nowOf s r).view.release r.agent 4 }

/-- A bead ends with its record (R29, R253, R254): the header and the live registers are written in the continuation
area, and the bead has left the rod. -/
def beadEnded (r : Rod) (k : Nat) (c : ContRec) (s : State) : State :=
  let va := s.contAddr r.asid r.core c.cell
  let s1 := ({ s with fresh := s.fresh + 1 }.writeVaCells r.core r.asid va [c.header]).writeVaCells r.core r.asid
    (va + 16 * (1 + c.req.kind.2)) (wordCells (c.regs.map Prod.snd))
  ({ s1 with conts := s1.conts ++ [c] }.modRod r.uid fun x => { x with alive := x.alive &&& ~~~ BitVec.ofNat 16 (2 ^ k) }).settleBarriers
    r.frame

/-- Cells of a record. -/
def recordCells (regs : List Nat) (q : UnitReq) : Nat := 1 + q.kind.2 + (regs.length + 3) / 4

/-- The core's part of the continuation area has a free run for a bead's record (R254). -/
def recordRoom (r : Rod) (regs : List Nat) (req : Nat → UnitReq) (s : State) (k : Nat) : Prop :=
  (s.contRun r.asid r.core (recordCells regs (req k))).isSome = true

/-- A bead of a TEX, TRACE or VMARCH ends, its record at the lowest free run of the core's part of the continuation area
(R254). -/
def beadEnds (r : Rod) (d : BitVec 7) (regs : List Nat) (req : Nat → UnitReq) (s : State) (k : Nat) : State :=
  beadEnded r k (recordOf s r k d regs (req k) ((s.contRun r.asid r.core (recordCells regs (req k))).getD 0)) s

/-- `n` pieces of 16 bytes of code at these places, as one number (R83). -/
def codeAt (s : State) (at_ : Nat → Nat) (n : Nat) : Nat := ((List.range n).map fun i => s.natAt (at_ i) 16 * 2 ^ (128 * i)).sum

/-- Entry `i` of the context's handle table is at a place for a core, and sound (R119). -/
def entryAt (s : State) (core asid i a : Nat) : Prop :=
  mapsTo s (some core) asid ((s.ctxField asid 128 48 + 16 * i) % 2 ^ 48) false a ∧ s.damaged a 16 = false

/-- The capability of a handle-table entry admits a fetch from an address (R77): it has V and X, and its object, in the
core's object cache, holds the address. -/
def admits (s : State) (core asid va : Nat) (c : Cap) (base len : Nat) : Prop :=
  c.v = true ∧ c.x = true ∧ s.cachedObject core asid c.handle.toNat = some (len, base) ∧ base ≤ va ∧ va < base + len

/-- The code object of an address (R77): that of the first handle-table entry that admits a fetch from it, whose reserved bits
are zero (R119); no capability of an earlier such entry has both V and X. -/
def codeIs (s : State) (core asid va base len : Nat) : Prop :=
  ∃ i a, i ≤ s.ctxField asid 112 16 ∧ entryAt s core asid i a ∧ field (s.natAt a 16) 120 2 = 0 ∧
    admits s core asid va (Cap.ofNat (s.natAt a 16)) base len ∧
    ∀ j < i, ∃ b, entryAt s core asid j b ∧
      (field (s.natAt b 16) 120 2 = 0 → ((Cap.ofNat (s.natAt b 16)).v && (Cap.ofNat (s.natAt b 16)).x) = false)

/-- Sixteen-byte pieces of code are at these places for a core, and sound. -/
def codeReads (s : State) (core asid va : Nat) (at_ : Nat → Nat) (n : Nat) : Prop :=
  ∀ i < n, mapsTo s (some core) asid (va + 16 * i) false (at_ i) ∧ s.damaged (at_ i) 16 = false

/-- The rod has executed a LIVE (R386), and its descriptor, whose pages are at hand, names these registers (R83). -/
def liveNames (s : State) (r : Rod) (regs : List Nat) : Prop :=
  ∃ x at_, r.live = some x ∧ codeReads s r.core r.asid x.toNat at_ 4 ∧
    regs = (List.range 256).filter fun i => (codeAt s at_ 4).testBit i

/-- The state once a rod has read its descriptor cells of S, which touched their windows (R179, R248). -/
def describedState (s : State) (r : Rod) (fr : Frame) (cell n : Nat) : State :=
  forgetCells r (s.touchCells (nowOf s r).view.seen fr.uid 0 cell n)

/-- The group of the rod has ended, and the instruction ends. -/
def groupEnded (s : State) (r : Rod) (i : Instr) : State := ((s.endGroup r.uid).settleBarriers r.frame).shut r i

/-- Four cells as one number, the first lowest. -/
def fourCells (xs : List (BitVec 128)) : BitVec 512 := xs.getD 3 0 ++ xs.getD 2 0 ++ xs.getD 1 0 ++ xs.getD 0 0

/-- The cells of a tile as words, two a cell, the lower first (R197). -/
def tileWords : List (BitVec 128) → List Dword
  | [] => []
  | x :: xs => x.extractLsb' 0 64 :: x.extractLsb' 64 64 :: tileWords xs

/-! ### What the device does between instructions -/

/-- An engine finds LEN and base of an object: in its core's object cache, or, an engine of no core, in the object table
(R121, R135, R136). -/
def objectAt (s : State) (c : Client) (h len base : Nat) : Prop :=
  (∃ k, c.core = some k ∧ s.cachedObject k c.asid h = some (len, base)) ∨
    (c.core = none ∧ ∃ va a, s.objectEntry c.asid h = some va ∧ mapsTo s none c.asid va false a ∧ s.damaged a 16 = false ∧
      objectOf (s.natAt a 16) = some (len, base))

/-- An engine reaches `size` bytes of an object for a context at a place: it finds the object, which holds the bytes (R121,
R136), its page is at hand, for a write as one that may be written (R138, R140), and data that it reads is sound. -/
structure EngineReaches (s : State) (c : Client) (cap : Cap) (byte size : Nat) (write : Bool) (a : Nat) : Prop where
  mapped : ∃ len base, objectAt s c cap.handle.toNat len base ∧ byte + size ≤ len ∧
    mapsTo s c.core c.asid ((base + byte) % 2 ^ 48) write a
  sound : write = false → s.damaged a size = false

/-- An engine reads a byte of an object at a place, and sees its newest value. -/
def EngineReads (s : State) (c : Client) (cap : Cap) (byte a : Nat) : Prop :=
  EngineReaches s c cap byte 1 false a ∧ upToDate s c a 1

/-- A device virtual address that a unit of no core uses has this physical address. -/
def engineMaps (s : State) (asid va : Nat) (write : Bool) (a : Nat) : Prop := mapsTo s none asid (va % 2 ^ 48) write a

/-- Every byte of a range of a capability's object can be read by a unit that works on a record. -/
def unitReads (s : State) (c : ContRec) (cap : Cap) (lo hi : Nat) : Prop :=
  ∀ b, lo ≤ b → b < hi → ∃ a, EngineReads s c.client cap b a

/-- A record stands at the head of a ring of the system block: the header's address and the record (R306, R307). -/
def ringHolds (s : State) (off rsz h x : Nat) : Prop :=
  s.sysEntry off = some h ∧ (s.queueAt h).bad false = false ∧ (s.queueAt h).rsz = rsz ∧ (s.queueAt h).count ≠ 0 ∧
    s.natAt (h + (s.queueAt h).recordAt (s.queueAt h).head) (8 * rsz) = x

/-- The record has been taken: HEAD has moved on. -/
def ringTaken (s : State) (h : Nat) : State := s.homeWriteNat (h + 8) 8 ((s.queueAt h).head + 1)

/-- A completion word of the system block is written, if it has a place, with a release at sys scope of every write so
far and of the word itself (R306, R307). -/
def completing (s : State) (off x : Nat) : State :=
  match s.sysEntry off with
  | none => s
  | some a => s.pathWrite 0 .device
      [(⟨.device, 6, ⟨s.fresh, s.fresh, s.fresh, s.fresh⟩, []⟩ : Stamp).through (homeDieOf a) (s.fresh + 1)] (placed a (bytesOfNat 8 x))

/-- An entry of a context's handle table as an engine finds it (R119): none beyond the table's last, and none whose
reserved bits are set; the entry's data is sound. -/
def handleIs (s : State) (asid i : Nat) (o : Option Cap) : Prop :=
  (s.ctxField asid 112 16 < i ∧ o = none) ∨
    (i ≤ s.ctxField asid 112 16 ∧ ∃ a, engineMaps s asid (s.ctxField asid 128 48 + 16 * i) false a ∧
      s.damaged a 16 = false ∧ o = if field (s.natAt a 16) 120 2 = 0 then some (Cap.ofNat (s.natAt a 16)) else none)

/-- A launch queue of a context is at a device virtual and a physical address, its header well formed (R269, R270). -/
def launchQueueAt (s : State) (asid queue hva h : Nat) : Prop :=
  (∃ a, engineMaps s asid (s.ctxField asid 192 48 + 8 * queue) false a ∧ s.natAt a 8 = hva) ∧ hva ≠ 0 ∧ hva % 128 = 0 ∧
    hva < 2 ^ 48 ∧ engineMaps s asid hva true h ∧ (s.queueAt h).bad true = false

/-- A stop record by the layout of R193. -/
def stopRecord (kind status unit_ core frameid seq entry done asid : Nat) : Nat :=
  kind * 2 ^ 248 + status * 2 ^ 240 + unit_ * 2 ^ 232 + core * 2 ^ 224 + frameid * 2 ^ 192 + seq * 2 ^ 128 + entry * 2 ^ 80 +
    done * 2 ^ 32 + asid * 2 ^ 22

/-- A unit is to work on a record: it is not ready, waits on no page, and its context is not halted. -/
def atWork (s : State) (c : ContRec) : Prop :=
  s.cont? c.uid = some c ∧ c.result = none ∧ c.fault = none ∧ s.awaits (.unit_ c.uid) = false ∧ s.halted c.asid = false

/-- A command record with these fields stands at the head of the command ring (R306 to R308). -/
def commandHolds (s : State) (h : Nat) (rec : BitVec 256) (c : Command) : Prop :=
  ringHolds s 0x20 4 h rec.toNat ∧ Command.ofNat rec.toNat = c

/-- The operation of a chain entry and the rules of R188: reserved fields, a length, an aligned next entry in the chain
object, capabilities that grant E over the source and E and W over the destination, and no copy onto itself. -/
structure EntryGood (x : Nat) (chain : Cap) (src dst : Option Cap) (e : ChainEntry) : Prop where
  reserved : field x 432 80 = 0 ∧ field x 368 16 = 0 ∧ field x 304 16 = 0 ∧ field x 240 16 = 0 ∧ field x 168 24 = 0 ∧
    field x 48 80 = 0
  op : field x 160 8 < 2
  next : e.next = field x 0 48 ∧ e.next % 64 = 0 ∧ e.next + 64 ≤ chain.hi.toNat
  len : e.len = field x 320 48 ∧ e.len ≠ 0
  offsets : e.soff = field x 192 48 ∧ e.doff = field x 256 48 ∧ e.units = 0
  fill : e.fill = if field x 160 8 = 1 then some (BitVec.ofNat 48 (field x 384 48)) else none
  src : e.src = src.getD Cap.empty ∧ (field x 160 8 = 0 → ∃ k, src = some k ∧ k.v = true ∧ k.e = true ∧
    k.lo.toNat ≤ e.soff ∧ e.soff + e.len ≤ k.hi.toNat)
  dst : ∃ k, dst = some k ∧ e.dst = k ∧ k.v = true ∧ k.e = true ∧ k.w = true ∧ k.lo.toNat ≤ e.doff ∧
    e.doff + e.len ≤ k.hi.toNat
  apart : field x 160 8 = 0 → field x 144 16 = field x 128 16 → e.soff + e.len ≤ e.doff ∨ e.doff + e.len ≤ e.soff

/-- The bytes of the next unit of a chain entry at their places (R187, R188): up to 16, copied or filled. -/
def unitBytes (e : ChainEntry) (src dst : Nat → Nat) (s : State) : List (Nat × Byte) :=
  (List.range (min 16 (e.len - 16 * e.units))).map fun i => (dst i,
    match e.fill with
    | some p => (p >>> (8 * ((16 * e.units + i) % 6))).setWidth 8
    | none => Memory.read s.mem (src i))

/-- The keys of a table rise strictly. -/
def rising {α : Type} (m : List (Nat × α)) : Prop := (m.map Prod.fst).Pairwise (· < ·)

/-- A walk through some levels from a table ends in a valid leaf (R137, R138): the leaf's address, the leaf, and log2 of its
page size; `look` gives the entries above it that the walk cache holds (R141), and what is read of the others is sound. -/
def leafAt (s : State) (look : Nat → Option Nat) (va : Nat) : List (Nat × Nat × Nat) → Nat → Nat → Nat → Nat → Prop
  | [], _, _, _, _ => False
  | (bits, width, nextBits) :: levels, table, a, e, size =>
    let x := table + 8 * field va bits width
    let y := (look x).getD (s.natAt x 8)
    (look x = none → s.damaged x 8 = false) ∧ y.testBit 0 = true ∧ pteBad bits nextBits levels.isEmpty y = false ∧
      if y.testBit 1 then look x = none ∧ a = x ∧ e = y ∧ size = bits else leafAt s look va levels (pteAddr y) a e size

/-- The value of the named die's clock for another die (R165). -/
def clockOf (s : State) (d j : Nat) : Nat := (s.clocks.getD d []).getD j 0

/-- A bind record that an idle core can take (R274 to R276): its reserved fields are zero, MODE and FMT hold no value that R50
and R52 refuse, its segments and windows exist, the
lanes have the words and the launch record, at `a0` and `a1` line by line, can be read, as can the handles that it names. -/
structure BindTaken (s : State) (core : Nat) (b : BindRec) (a0 a1 : Nat) (cap : Nat → Option Cap) : Prop where
  idle : (∀ f ∈ s.frames, f.core ≠ core) ∧ ∀ r ∈ s.rods, r.core ≠ core
  reserved : b.reserved = 0
  mode : field b.mode 15 1 = 0 ∧ field b.mode 0 3 ≠ 0 ∧ field b.mode 6 2 < 2
  fmt : field b.fmt 11 5 = 0 ∧ field b.fmt 0 3 < 5 ∧ field b.fmt 3 3 < 5 ∧ field b.fmt 8 3 < 5 ∧
    ¬ (field b.fmt 6 2 = 3 ∧ field b.fmt 8 3 = 2)
  windows : b.w0 + b.wn ≤ 32
  segments : ∀ i < 4, (b.segs.getD i ⟨0, 0⟩).base.toNat + (b.segs.getD i ⟨0, 0⟩).limit.toNat ≤ bufferCells i
  words : (b.rodsM1 + 128) / 128 * ((b.beadsM1 + 1) * 32 * (b.allocM1 + 1)) ≤ Config.laneWords
  first : engineMaps s b.asid b.lrec false a0
  second : engineMaps s b.asid (b.lrec + 128) false a1
  handles : let l := LaunchRec.ofNat (natOfBytes (s.bytesAt a0 128 ++ s.bytesAt a1 128))
    ∀ i ∈ l.hidx.take l.nh, handleIs s b.asid i (cap i)

/-- The frame of a bind record has come to the core, with its rods on successive lanes (R36, R57, R275, R276). -/
def frameBound (s t : State) (core : Nat) (b : BindRec) (a0 a1 : Nat) (cap : Nat → Option Cap) : Prop :=
  let l := LaunchRec.ofNat (natOfBytes (s.bytesAt a0 128 ++ s.bytesAt a1 128))
  ∃ f, t.frames = s.frames ++ [f] ∧ f.asid = b.asid ∧ f.core = core ∧ f.frameid = BitVec.ofNat 32 b.frameid ∧
    f.kpc = codeAddr b.kpc ∧ f.segS = b.segs.getD 0 ⟨0, 0⟩ ∧ f.segW = b.segs.getD 1 ⟨0, 0⟩ ∧ f.segA = b.segs.getD 2 ⟨0, 0⟩ ∧
    f.segC = b.segs.getD 3 ⟨0, 0⟩ ∧ f.windows.length = b.wn ∧ f.args = l.args.take l.na ∧
    f.caps = capRegs ((l.hidx.take l.nh).map fun i => (cap i).getD Cap.empty) ∧
    ∃ old new, t.rods = old ++ new ∧ old.length = s.rods.length ∧ new.length = b.rodsM1 + 1 ∧
      ∀ i r, new[i]? = some r → r.frame = f.uid ∧ r.core = core ∧ r.lane = (b.l0 + i) % 128 ∧ r.rodid = BitVec.ofNat 10 i ∧
        r.pc = f.kpc ∧ r.nbeads = b.beadsM1 + 1 ∧ r.status = .ready ∧ r.s = takeFill 0 32 f.args ∧ r.c = f.caps

/-- The secondary opcodes that R74 assigns in a group. -/
def secondaries (group : Nat) : List Nat :=
  match group with
  | 0x70 => List.range 0x0C
  | 0x71 => [0x00, 0x01, 0x02, 0x03, 0x08, 0x09, 0x0A, 0x0B, 0x0C, 0x0D, 0x0E, 0x0F, 0x10, 0x11, 0x12, 0x13, 0x18, 0x19, 0x1A, 0x1B]
  | 0x72 => List.range 0x0D
  | 0x73 => List.range 0x0B
  | 0x74 => List.range 6
  | 0x75 => List.range 2
  | _ => []

/-- The masks of a reconvergence stack by R28's invariant, the top first, where the beads `run` run: in each entry W, PM where
it has a pending group, and the beads that run in it or in the entries above it are disjoint, and together they are F. -/
def masksHold (run : BitVec 16) : List StackEntry → Prop
  | [] => True
  | e :: es =>
    let pm := if e.pv then e.pm else 0
    (e.w &&& pm = 0 ∧ e.w &&& run = 0 ∧ pm &&& run = 0 ∧ e.f = e.w ||| pm ||| run) ∧ masksHold e.f es

/-- A rod's stack has at most 32 entries (R26), and R28's invariant holds of it: with the running beads, with those that run
when the handler has ended, and of the control state that is put back when the rod replays its region (R152, R290). -/
def stackHolds (r : Rod) : Prop :=
  r.stack.length ≤ 32 ∧
    match r.handler with
    | none =>
      masksHold r.active r.stack ∧ r.restartCtl.stack.length ≤ 32 ∧ masksHold r.restartCtl.active r.restartCtl.stack
    | some f => masksHold f.act r.stack

/-! ### Rounding -/

/-- The magnitude of a code, the one past the largest finite magnitude taken as R99 takes it. -/
def magnitudeOf (f : Fmt) (c : Nat) : Rat := mkRat (f.magnitude c).1 (f.magnitude c).2

/-- R99's table: of two neighbours, the lower of code `lo`, the upper is chosen at the fraction `r` of the gap. -/
def upperChosen (v : Env) (neg : Bool) (lo : Nat) (r : ℝ) : Prop :=
  match v.rm with
  | .rne => 1 < 2 * r ∨ (2 * r = 1 ∧ lo % 2 = 1)
  | .rna => 1 ≤ 2 * r
  | .rtz => False
  | .rdn => neg = true
  | .rup => neg = false
  | .stochastic => (v.xi : ℤ) < ⌊r * 2 ^ 24⌋
  | .odd => lo % 2 = 0

/-- What a chosen magnitude code becomes (R101, R104): an overflow, with FTZ a zero in place of a tiny result, or the code with
the sign; NX where the result is inexact, and UF where it is tiny as well. -/
def chosen (f : Fmt) (v : Env) (neg : Bool) (c : Nat) (inexact : Bool) : Nat × Conds :=
  if f.shape.maxCode < c then f.overflow v neg
  else if c < f.notTiny ∧ v.ftz = true ∧ f.wide = true then (f.withSign neg 0, Conds.uf ||| Conds.nx)
  else (f.withSign neg c, if inexact then (if c < f.notTiny then Conds.nx ||| Conds.uf else Conds.nx) else 0)

/-- The answer of rounding the exact positive magnitude `x` to a format (R99, R101): its own code where it has one, else the
neighbour that the mode chooses; in a tapered format every magnitude above the largest overflows. -/
def roundsTo (f : Fmt) (v : Env) (neg : Bool) (x : ℝ) (y : Nat × Conds) : Prop :=
  (∃ c ≤ f.shape.maxCode, (magnitudeOf f c : ℝ) = x ∧ y = chosen f v neg c false) ∨
    ∃ lo ≤ f.shape.maxCode, (magnitudeOf f lo : ℝ) < x ∧ (lo < f.shape.maxCode → x < magnitudeOf f (lo + 1)) ∧
      (if f.tapered = true ∧ lo = f.shape.maxCode then y = f.overflow v neg
      else
        let r := min 1 ((x - magnitudeOf f lo) / (magnitudeOf f (lo + 1) - magnitudeOf f lo))
        (upperChosen v neg lo r ∧ y = chosen f v neg (lo + 1) true) ∨ (¬ upperChosen v neg lo r ∧ y = chosen f v neg lo true))

/-- Rounding to a format answers what R99 chooses, for every exact value, format and mode. -/
def roundingHolds : Prop :=
  ∀ (f : Fmt) (v : Env) (neg : Bool) (num den : Nat), 0 < num → 0 < den →
    roundsTo f v neg ((num : ℝ) / den) (f.round v neg num den)

/-- The f32 word of an exact value by R99 under RNE, a zero as +0. -/
def nearestWord (x : Rat) (w : Word) : Prop :=
  (x = 0 ∧ w = 0) ∨ (x ≠ 0 ∧ ∃ c, roundsTo .f32 Env.engine (decide (x < 0)) |(x : ℝ)| (w.toNat, c))

/-- The rod takes the breakpoint fault with cause arithmetic at a part of its instruction, `q` being what the earlier parts
have left of it: the code is the highest enabled condition raised (R51, R288, R350). -/
def arithmeticTrap (s : State) (r q : Rod) (b : Option Nat) (c : Conds) (i : Instr) : State :=
  ((s.setRod q).enterHandler r.uid 3 4 (beadNo b) (r.faultBead b) 0 (16 + Nat.log2 (c &&& trapEnables r.mode).toNat) r.pc).tick
    (r.laneCycles (onceOnly i))

/-! ### Textures, triangles and grids -/

/-- The texel of an axis of `n` texels that an index is addressed to (R250): wrap, clamp or mirror. -/
def texelIndex (mode n : Nat) (i : Int) (x : Nat) : Prop :=
  x < n ∧
    match mode with
    | 0 => ∃ k : Int, i = x + k * n
    | 1 => (i < 0 ∧ x = 0) ∨ i = x ∨ ((n : Int) ≤ i ∧ x = n - 1)
    | _ => ∃ k : Int, i = x + 2 * n * k ∨ i = 2 * n - 1 - x + 2 * n * k

/-- The point of a ray at `t` lies in the box of a child of a node, all of whose bounds are finite (R259, R260). -/
def inBox (o d : V3) (node i : Nat) (t : Rat) : Prop :=
  let b (k : Nat) : Rat := ratOf (field node (192 * i + 32 * k) 32)
  (b 0 ≤ o.x + t * d.x ∧ o.x + t * d.x ≤ b 3) ∧ (b 1 ≤ o.y + t * d.y ∧ o.y + t * d.y ≤ b 4) ∧
    b 2 ≤ o.z + t * d.z ∧ o.z + t * d.z ≤ b 5

/-- A ray hits the triangle of a record at `t` (R259, R260): the exact solution of o + t·d = (1 − b1 − b2)·V0 + b1·V1 +
b2·V2, whose system has a determinant that is not zero. -/
def meets (o d : V3) (y : Nat) (tmin tmax t b1 b2 : Rat) : Prop :=
  ∃ v0 v1 v2 : V3, v3? (Machine.wordsOf y 0 9) 0 = some v0 ∧ v3? (Machine.wordsOf y 0 9) 3 = some v1 ∧ v3? (Machine.wordsOf y 0 9) 6 = some v2 ∧
    V3.dot (v1.sub v0) (V3.cross d (v2.sub v0)) ≠ 0 ∧ 0 ≤ b1 ∧ 0 ≤ b2 ∧ b1 + b2 ≤ 1 ∧ tmin ≤ t ∧ t ≤ tmax ∧
    o.x + t * d.x = (1 - b1 - b2) * v0.x + b1 * v1.x + b2 * v2.x ∧
    o.y + t * d.y = (1 - b1 - b2) * v0.y + b1 * v1.y + b2 * v2.y ∧
    o.z + t * d.z = (1 - b1 - b2) * v0.z + b1 * v1.z + b2 * v2.z

/-- A finite f32 word of this value. -/
def wordIs (w : Word) (x : Rat) : Prop := f32Rat? w.toNat = some x

/-- The words 0, 1, 6 and 7 of a march's result, and word 5 where it names a cell (R267). -/
def marchEnds (ws : List Word) (kind t first : Nat) (p : MarchPoint) : Prop :=
  ws.length = 8 ∧ ws.getD 0 0 = BitVec.ofNat 32 kind ∧ ws.getD 1 0 = BitVec.ofNat 32 t ∧ ws.getD 6 0 = BitVec.ofNat 32 first ∧
    ws.getD 7 0 = BitVec.ofNat 32 p.idx ∧
    (kind ≠ 3 ∧ kind ≠ 5 → ws.getD 5 0 =
      BitVec.ofNat 32 (p.c.getD 0 0 + 2 ^ 10 * p.c.getD 1 0 + 2 ^ 20 * p.c.getD 2 0 + 2 ^ 31 * p.exceeded.toNat)) ∧
    (kind = 3 ∨ kind = 5 → ∀ k, 2 ≤ k → k ≤ 5 → ws.getD k 0 = 0)

/-! ### Blocks -/

/-- The codes, the scale record and the conditions of a bead's QBLK (R108, R397). -/
def quantisedBy (r : Rod) (f : ShRDA) (fam : Family) (tag k : Nat) : List Nat × Nat × Conds :=
  let env (i : Nat) : Env := r.env (some k) f.r (r.vreg k (next f.a i)).toNat 0 0 i
  quantiseBlock fam tag env ((List.range 32).map fun i => Fmt.f32.read (env 0) (r.vreg k (next f.a i)).toNat)

/-- A bead's QBLK writes its codes and its scale record. -/
def tookCodes (f : ShRDA) (w : Nat) (q : List Nat × Nat × Conds) (k : Nat) (y : Rod) : Rod :=
  (y.stick q.2.2).setVgroup k f.d (wordsOfNat 8 (packCodes w q.1) ++ [BitVec.ofNat 32 q.2.1])

/-- The values of a bead's DQBLK and all the conditions raised (R97, R109, R354). -/
def dequantisedBy (r : Rod) (f : ShRDA) (w k : Nat) : List Word × Conds :=
  let src : List Word := (List.range 9).map fun i => r.vreg k (next f.a i)
  let block := decodeBlock w (natOfWords (src.take w)) ((nth 0 src 8).toNat % 2 ^ 16)
  let out : List (Nat × Conds) := (List.range 32).map fun i =>
    dequantised (r.env (some k) f.r (nth 0 src (w * i / 32)).toNat (nth 0 src 8).toNat 0 i) (nth (.fin false 0 1) block.1 i)
  (out.map fun z => BitVec.ofNat 32 z.1, out.foldl (fun c y => c ||| y.2) block.2)

/-- A bead's DQBLK writes its values. -/
def tookValues (f : ShRDA) (x : List Word × Conds) (k : Nat) (y : Rod) : Rod := (y.stick x.2).setVgroup k f.d x.1

end Sys2Proof.Claims

/-! ## The claims -/

open Sys2Proof Sys2Proof.Machine Sys2Proof.Claims

/-! ### Encodings -/

/-- A few words written out bit by bit from the encodings of the manual decode to the instructions that they stand for (R61
to R69, R73, R75, R76): a branch, and one with U set, integer and floating arithmetic, a load, a request to an engine, a
secondary opcode, a collective, a special register and a fence. -/
def Obligations.SampleWordsDecode : Prop :=
  decode 0b0000010_1_001_1_11111111111111111111 = .error .operandKind ∧
  decode 0b0000010_0_001_1_11111111111111111111 = .ok (.bra ⟨1, true, 0xFFFFF⟩) ∧
  decode 0b0010001_0_0_0_0_0000010_0000000_0000001 = .ok (.iaddImm ⟨false, false, false, false, 2, 0, 1⟩) ∧
  decode 0b1010000_0_111_1101001_1011_01_0_1110001 = .ok (.ld ⟨false, 7, 105, 11, 1, false, 113⟩) ∧
  decode 0b1100011_1_0000000000_0010110_0000000 = .ok (.ttask ⟨true, 22⟩) ∧
  decode 0b1110000_1_100_1110101_1101110_0000001 = .ok (.fsqrt ⟨true, 4, 117, 110⟩) ∧
  decode 0b1110001_0000_0001101_0000_011_0000000 = .ok (.voteAny ⟨13, 3⟩) ∧
  decode 0b1110010_0000_1111111_0000110_0000011 = .ok (.gets ⟨127, 6⟩) ∧
  decode 0b1110011_0_011_000000000000000000000 = .ok (.fenceAcq ⟨3⟩) ∧
  decode 0b1111111_0000000000000000000000000 = .error .reservedOpcode

/-! ### Values -/

/-- The integer arithmetic writes exact results, wrapped or, with S, held to the range of the type with IS set
(R88, R89, R371 to R373, R375, R376, R379). -/
def Obligations.IntegerArithmeticCompletes : Prop := valuesComplete integerEffect

/-- Bitwise operations, shifts and moves (R331, R387 to R389, R391, R408, R412, R414, R437). -/
def Obligations.BitwiseAndShiftsComplete : Prop := valuesComplete bitwiseEffect

/-- Counts, bit fields, interleavings and ternary sums (R336, R338, R348, R352, R394, R396, R422, R428). -/
def Obligations.BitFieldsComplete : Prop := valuesComplete fieldEffect

/-- Floating-point arithmetic and functions round the exact result of the operands once (R99, R358, R362, R370): rounding
answers the neighbour of the exact value that R99 chooses, and FSQRT and FRSQ that of the exact root. Open in the manual and
the model's choice: assumptions 8, 19 and 59. -/
def Obligations.FloatArithmeticCompletes : Prop :=
  valuesComplete floatEffect ∧ roundingHolds ∧
    (∀ (v : Env) (x n d : Nat), Fmt.f32.decode x = .fin false n d → 0 < n →
      roundsTo .f32 v false (Real.sqrt ((n : ℝ) / d)) (Fmt.f32.sqrt v (.fin false n d))) ∧
    ∀ (f : Fmt) (v : Env) (x n d : Nat), f = .f32 ∨ f = .f16 → f.decode x = .fin false n d → 0 < n →
      roundsTo f v false (Real.sqrt ((d : ℝ) / n)) (f.rsq v (.fin false n d))

/-- Conversions, classes, bounds and draws (R359, R361, R366 to R368, R380, R400): rounding to a format and to an integer
answers the neighbour of the exact value that R99 chooses (R107). Open in the manual and the model's choice: assumptions 8,
19 and 59. -/
def Obligations.ConversionsComplete : Prop :=
  valuesComplete convertEffect ∧ roundingHolds ∧
    ∀ (v : Env) (neg : Bool) (num den : Nat), 0 < den →
      let q := num / den
      let r := ((num % den : Nat) : ℝ) / den
      (num % den = 0 ∧ roundInt v neg num den = (q, false)) ∨
        (num % den ≠ 0 ∧ upperChosen v neg q r ∧ roundInt v neg num den = (q + 1, true)) ∨
        (num % den ≠ 0 ∧ ¬ upperChosen v neg q r ∧ roundInt v neg num den = (q, true))

/-- Compares and predicate moves write the predicate of every issuing bead (R47, R360, R374, R392, R393). -/
def Obligations.PredicatesComplete : Prop :=
  ∀ (s : State) (r : Rod) (i : Instr) (p : BitVec 3) (v : Rod → Nat → Bool × Conds),
    predicateEffect i = some (p, v) → Issues s r i → (∀ k ∈ r.issuing, (v r k).2 &&& trapEnables r.mode = 0) →
      exec i s = .next (s.completed r (r.wrotePred p (v r)).advance i)

/-- A value instruction of which a part (a bead, or the rod once) raises an enabled condition: the earlier parts keep their
results and flags, that part and the later ones write nothing, and the rod takes the breakpoint fault with cause arithmetic at
its own address, at that part's position, with the highest such condition as the code (R34, R51, R286, R288, R350). So do
FCMP, QBLK and DQBLK; RODRED and RODSCAN fadd take it for the lowest active bead and write nothing (R405). Open in the manual
and the model's choice: assumptions 7, 8, 19, 58, 59 and 60. -/
def Obligations.EnabledConditionTraps : Prop :=
  (∀ (s : State) (r : Rod) (i : Instr) (x : Effect) (pre bs : List (Option Nat)) (b : Option Nat),
    (integerEffect i = some x ∨ floatEffect i = some x ∨ fieldEffect i = some x ∨ convertEffect i = some x) →
      Issues s r i → r.parts (uniform i) = pre ++ b :: bs → (∀ a ∈ pre, (x.value r a).2 &&& trapEnables r.mode = 0) →
      (x.value r b).2 &&& trapEnables r.mode ≠ 0 →
      exec i s = .next (arithmeticTrap s r
        (pre.foldl (fun q a => (q.stick (x.value r a).2).setOperand a x.wide x.dst (x.value r a).1) r.leave) b (x.value r b).2 i)) ∧
  (∀ (s : State) (r : Rod) (i : Instr) (p : BitVec 3) (v : Rod → Nat → Bool × Conds) (pre ks : List Nat) (k : Nat),
    predicateEffect i = some (p, v) → Issues s r i → r.issuing = pre ++ k :: ks →
      (∀ a ∈ pre, (v r a).2 &&& trapEnables r.mode = 0) → (v r k).2 &&& trapEnables r.mode ≠ 0 →
      exec i s = .next (arithmeticTrap s r (pre.foldl (fun q a => (q.stick (v r a).2).setPred a p (v r a).1) r.leave) (some k)
        (v r k).2 i)) ∧
  (∀ (s : State) (r : Rod) (f : ShRDA) (w tag : Nat) (fam : Family) (pre ks : List Nat) (k : Nat), Issues s r (.qblk f) →
    r.blockFamily = some (w, tag, fam) → r.issuing = pre ++ k :: ks →
    (∀ a ∈ pre, (quantisedBy r f fam tag a).2.2 &&& trapEnables r.mode = 0) →
    (quantisedBy r f fam tag k).2.2 &&& trapEnables r.mode ≠ 0 →
      exec (.qblk f) s = .next (arithmeticTrap s r (pre.foldl (fun y a => tookCodes f w (quantisedBy r f fam tag a) a y) r.leave)
        (some k) (quantisedBy r f fam tag k).2.2 (.qblk f))) ∧
  (∀ (s : State) (r : Rod) (f : ShRDA) (w : Nat) (pre ks : List Nat) (k : Nat), Issues s r (.dqblk f) →
    blockWidth (field r.fmt.toNat 8 3) = some w → r.issuing = pre ++ k :: ks →
    (∀ a ∈ pre, (dequantisedBy r f w a).2 &&& trapEnables r.mode = 0) → (dequantisedBy r f w k).2 &&& trapEnables r.mode ≠ 0 →
      exec (.dqblk f) s = .next (arithmeticTrap s r (pre.foldl (fun y a => tookValues f (dequantisedBy r f w a) a y) r.leave)
        (some k) (dequantisedBy r f w k).2 (.dqblk f))) ∧
  ∀ (s : State) (r : Rod) (f : ShRDA) (i : Instr), (i = .rodredFadd f ∨ i = .rodscanFaddInc f ∨ i = .rodscanFaddExc f) →
    Issues s r i → (r.floatScan f.r f.a).2 &&& trapEnables r.mode ≠ 0 →
      exec i s = .next (arithmeticTrap s r r.leave none (r.floatScan f.r f.a).2 i)

/-- The frame of the value instructions: in the state that they answer no byte of memory, no cell, and nothing of another
rod but its clocks has changed; of their own rod only the registers of the destination, the sticky flags, the pc, the
resume position and the clocks have. -/
def Obligations.ValuesFrame : Prop :=
  ∀ (s t : State) (r : Rod) (i : Instr) (x : Effect),
    (integerEffect i = some x ∨ bitwiseEffect i = some x ∨ fieldEffect i = some x ∨ floatEffect i = some x ∨
      convertEffect i = some x) → Issues s r i → r.untrapped (uniform i) (x.value r) → exec i s = .next t →
      (∀ a, Memory.read t.mem a = Memory.read s.mem a) ∧ t.cells = s.cells ∧ t.frames = s.frames ∧
      (∀ u q, u ≠ r.uid → s.rod? u = some q → t.rod? u = some (q.tick (r.laneCycles (onceOnly i)))) ∧
      ∃ q, t.rod? r.uid = some q ∧ q.pc = r.pc + 4 ∧ q.active = r.active ∧ q.stack = r.stack ∧ q.fmt = r.fmt ∧
        q.c = r.c ∧ q.base = r.base ∧ q.handler = r.handler ∧ q.status = r.status ∧ q.tent = r.tent ∧
        q.mode.setWidth 16 = r.mode.setWidth 16 ∧ (∀ j, r.mode.getLsbD j = true → q.mode.getLsbD j = true) ∧
        (∀ n, (isS x.dst = true → n ≠ sIndex x.dst) → q.sreg n = r.sreg n) ∧
        (∀ k, (q.bead k).p = (r.bead k).p ∧ (q.bead k).bar = (r.bead k).bar ∧
          ∀ n, (isS x.dst = true ∨ n ≠ r.phys x.dst ∧ (x.wide = true → n ≠ r.phys (next x.dst 1)) ∨ k ∉ r.issuing) →
            nth 0 (q.bead k).v n = nth 0 (r.bead k).v n)

/-- QBLK (R108, R397, R398): each issuing bead's 32 values become codes and a scale record of the class and tag that
FMT selects. DQBLK (R97, R109, R353, R354): each issuing bead's block and scale record become 32 values of f32. Codes of a
floating family and the f32 values are rounded to the neighbour that R99 chooses. Open in the manual and the model's choice:
assumptions 8, 58 and 60. -/
def Obligations.BlocksConvert : Prop :=
  (∀ (s : State) (r : Rod) (f : ShRDA) (w tag : Nat) (fam : Family), Issues s r (.qblk f) →
    r.blockFamily = some (w, tag, fam) →
    (∀ k ∈ r.issuing, (quantisedBy r f fam tag k).2.2 &&& trapEnables r.mode = 0) →
      exec (.qblk f) s = .next (s.completed r
        (r.issuing.foldl (fun y k => tookCodes f w (quantisedBy r f fam tag k) k y) r.leave).advance (.qblk f))) ∧
  (∀ (s : State) (r : Rod) (f : ShRDA) (w : Nat), Issues s r (.dqblk f) → blockWidth (field r.fmt.toNat 8 3) = some w →
    (∀ k ∈ r.issuing, (dequantisedBy r f w k).2 &&& trapEnables r.mode = 0) →
      exec (.dqblk f) s = .next (s.completed r
        (r.issuing.foldl (fun y k => tookValues f (dequantisedBy r f w k) k y) r.leave).advance (.dqblk f))) ∧
  roundingHolds

/-- VOTE, SHFL, RODRED and RODSCAN over the active beads (R404, R405, R413, R431). Open in the manual and the model's
choice: assumptions 8, 36 and 59. -/
def Obligations.CollectivesComplete : Prop := changesComplete collectiveChange

/-- NOP, branches, calls, returns, JOIN and YIELD (R27, R28, R337, R340, R342, R343, R349, R381, R390, R403, R438). NOP is
one word, whose fields other than the opcode are zero: it runs once for the rod, takes one cycle of its lane and changes
nothing but the pc (R390). -/
def Obligations.TransfersComplete : Prop :=
  changesComplete controlChange ∧ (∀ w : Word, decode w = .ok .nop ↔ w = 0x02000000) ∧
    ∀ r : Rod, r.laneCycles (onceOnly .nop) = 1

/-- The special and capability registers (R345, R346, R369, R401, R409 to R411, R433). Open in the manual and the
model's choice: assumption 31. -/
def Obligations.SpecialRegistersComplete : Prop := changesComplete specialChange

/-! ### Handlers and halts -/

/-- Every word whose primary opcode is 0x76 to 0x7F or 0x00 is an illegal encoding, whatever its other bits (R73), and so
is one with an unassigned secondary opcode (R75). ILLEGAL is written as the word of zeros (R73). Such a word, and every
instruction whose fields break a rule of R76, halts its context with the fatal class 9 and its cause before any bead
issues (R76, R286, R293, R377); none acts as a no-op. -/
def Obligations.IllegalWordsHalt : Prop :=
  (∀ w : Word, 0x76 ≤ w.toNat / 2 ^ 25 → decode w = .error .reservedOpcode) ∧
  (∀ w : Word, w.toNat / 2 ^ 25 = 0 → ∃ f, decode w = .ok (.illegal f)) ∧
  encode (.illegal ⟨0⟩) = 0 ∧
  (∀ w : Word, 0x70 ≤ w.toNat / 2 ^ 25 → w.toNat / 2 ^ 25 ≤ 0x75 → w.toNat % 2 ^ 7 ∉ secondaries (w.toNat / 2 ^ 25) →
    decode w = .error .reservedOpcode) ∧
  (∀ f, (Instr.illegal f).illegal? = some .illegalWord) ∧
  (∀ (s : State) (r : Rod) (i : Instr) (c : IllegalCause), s.curRod? = some r → i.illegal? = some c →
    exec i s = .next ((s.raiseHalt r.asid (haltOfRod s r 9 c.code 0 0)).tick (r.laneCycles (onceOnly i)))) ∧
  (∀ (s : State) (r : Rod) (w : Word) (c : IllegalCause), s.curRod? = some r → decode w = .error c →
    instrOf w = .reservedOpcode w ∧
    exec (.reservedOpcode w) s = .next
      (((s.setRod r.leave).raiseHalt r.asid (haltOfRod (s.setRod r.leave) r.leave 9 c.code 0 0)).tick
        (r.laneCycles (onceOnly (.reservedOpcode w)))))

/-- BRK and TRAP enter the context's handler (R288, R339, R426): the open region is committed; the class is 3 and the
cause 1 or 2; BRK resumes at itself and TRAP after itself. Open in the manual and the model's choice: assumptions 7 and 53. -/
def Obligations.BreakpointsEnterHandler : Prop :=
  ∀ (s : State) (r : Rod) (i : Instr) (cause code : Nat) (epc : Addr),
    (∃ f, i = .brk f ∧ cause = 1 ∧ code = f.i.toNat ∧ epc = r.pc) ∨ (∃ f, i = .trap f ∧ cause = 2 ∧ code = f.i.toNat ∧ epc = r.pc + 4) →
    Issues s r i → 24 ≤ r.s.length → r.handler = none → (s.begun r i).ctxHandler r.asid ≠ 0 →
      ∃ t q, exec i s = .next t ∧ t.rod? r.uid = some q ∧
        Entered ((s.begun r i).ctxHandler r.asid) r q 3 cause 0 (lowestBit r.active 0) 0 code epc ∧ q.tent = [] ∧
        q.restart = q.pc

/-- Without a handler, or in handler mode, a recoverable fault halts the context as class 13, whose cause in INFO is the
fault's class and cause (R288, R291). -/
def Obligations.NestedFaultHalts : Prop :=
  ∀ (s : State) (u cls cause k h info code : Nat) (epc : Addr) (r : Rod), s.rod? u = some r →
    (r.handler ≠ none ∨ s.ctxHandler r.asid = 0) →
      s.enterHandler u cls cause k h info code epc = s.raiseHalt r.asid (haltOfRod s r 13 0 h (cls + 2 ^ 8 * cause))

/-- ERET with action 0 puts back what the fault frame holds: active mask, control fields of MODE, FMT, window and s24 to
s31; the rod resumes at s25 at the position in s24[19:16], in no handler, and a new region begins there (R290, R356). Bits
[63:48] and [1:0] of s25 are dropped, which is the model's choice (assumption 53). With action 1 the rod is killed: every
bead of it ends, the rod leaves its slot, and the other rods stay. -/
def Obligations.EretRestores : Prop :=
  (∀ (s : State) (r : Rod) (f : FaultFrame), Issues s r .eret → r.handler = some f → r.stack.length = f.depth →
    s.blockedLine r.uid = none → (r.sreg 24).extractLsb' 30 2 = 0 →
      ∃ t q, exec .eret s = .next t ∧ t.rod? r.uid = some q ∧ q.handler = none ∧ q.active = f.act ∧ q.fmt = f.fmt ∧
        q.base = f.base ∧ q.mode = modeWith r.mode f.modec ∧ q.s = r.s.take 24 ++ f.sregs ∧
        q.pc = (r.sreg 25).setWidth 48 &&& ~~~ 3 ∧ q.resume = ((r.sreg 24).extractLsb' 16 4).toNat ∧ q.tent = [] ∧
        q.restart = q.pc ∧ q.beads = r.beads ∧ q.c = r.c ∧ q.stack = r.stack) ∧
  ∀ (s : State) (r : Rod) (f : FaultFrame), Issues s r .eret → r.handler = some f → r.stack.length = f.depth →
    s.blockedLine r.uid = none → (r.sreg 24).extractLsb' 30 2 = 1 →
      ∃ t, exec .eret s = .next t ∧ t.rod? r.uid = none ∧ t.rods.map Rod.uid = (s.rods.map Rod.uid).filter fun u => u ≠ r.uid

/-- UPCALL with room in its context's mailbox (R292, R309, R429): the message is in the two records at TAIL, TAIL moves by
2, each written as a release at device scope, and the rod is parked with class 4 and the code. Open in the manual and the
model's choice: assumption 34. -/
def Obligations.UpcallPosts : Prop :=
  ∀ (s : State) (r : Rod) (f : ShUpcall) (h : Nat), Issues s r (.upcall f) → (s.begun r (.upcall f)).mailbox r.asid = some h →
    let s1 := s.begun r (.upcall f)
    let q := s1.queueAt h
    q.count + 2 ≤ q.size →
      let s2 := published r 4 (placed (h + (128 + 256 * (q.tail % q.size))) (bytesOfNat 256 (r.message f))) s1
      let s3 := published r 4 (placed (h + (128 + 256 * ((q.tail + 1) % q.size))) (bytesOfNat 256 (r.message f / 2 ^ 2048))) s2
      let s4 := published r 4 (placed h (bytesOfNat 8 (q.tail + 2))) s3
      exec (.upcall f) s = .next
        ((s4.alter r.uid fun y => { y with
            resume := 0
            status := .parked ⟨4, 0, none, BitVec.ofNat 64 f.i.toNat, none, some ⟨r.core, r.slotIndex, f.d, f.u⟩⟩ }).tick
          (r.laneCycles (onceOnly (.upcall f))))

/-- SEGLD in handler mode loads a segment register (R56, R406, R407): the cells that lie in one of the old and new segments
only become absent zeros, and every other cell stays.  Outside handler mode it is an illegal encoding with the cause
reserved field: its context halts, and no segment register, cell or rod register changes (R406). -/
def Obligations.SegldLoads : Prop :=
  (∀ (s : State) (r : Rod) (fr : Frame) (f : ShSegld), Issues s r (.segld f) → s.blockedLine r.uid = none →
    s.frame? r.frame = some fr → r.handler ≠ none → (r.sreg (sIndex f.a)) >>> 40 = 0 →
    let g : Seg := ⟨(r.sreg (sIndex f.a)).extractLsb' 20 20, (r.sreg (sIndex f.a)).extractLsb' 0 20⟩
    let old := fr.seg f.k.toNat
    s.segmentBad fr f.k.toNat g = false → s.ldlUnderWay fr f.k.toNat = false →
      ∃ t q fr', exec (.segld f) s = .next t ∧ t.rod? r.uid = some q ∧ q.pc = r.pc + 4 ∧ q.s = r.s ∧ q.handler = r.handler ∧
        t.frame? fr.uid = some fr' ∧ fr'.seg f.k.toNat = g ∧ (∀ b < 4, b ≠ f.k.toNat → fr'.seg b = fr.seg b) ∧
        ∀ n < bufferCells f.k.toNat, t.cell fr.core f.k.toNat n =
          if (old.base.toNat ≤ n ∧ n < old.base.toNat + old.limit.toNat) ↔ (g.base.toNat ≤ n ∧ n < g.base.toNat + g.limit.toNat)
          then s.cell fr.core f.k.toNat n else ⟨0, false⟩) ∧
  (∀ (s : State) (r : Rod) (f : ShSegld), Issues s r (.segld f) → r.handler = none →
    exec (.segld f) s = .next (((s.setRod r.leave).raiseHalt r.asid (haltOfRod (s.setRod r.leave) r.leave 9 4 0 0)).tick
      (r.laneCycles (onceOnly (.segld f)))))

/-! ### The ends of rods, barriers and regions -/

/-- REGION, the fences, XFENCE and PREF (R146, R149, R156, R159, R163, R166, R170, R364, R395, R402, R436): beside the commit
that R146 makes of some of them, a FENCE makes of the rod's earlier loads an acquire and of its later stores a release, an
XFENCE puts the writes of one path before the accesses of another, and nothing else changes; the rod goes on. Open in the
manual and the model's choice: assumptions 40, 48 and 75. -/
def Obligations.FencesCommitAndPass : Prop :=
  (∀ (s : State) (r : Rod) (i : Instr), Issues s r i → (i = .region ∨ ∃ f, i = .pref f) →
    exec i s = .next ((s.begun r i).through r i)) ∧
  (∀ (s : State) (r : Rod) (i : Instr) (f : ShScope) (acquire sc release : Bool), Issues s r i →
    (i = .fenceAcq f ∧ acquire = true ∧ sc = false ∧ release = false ∨
      i = .fenceRel f ∧ acquire = false ∧ sc = false ∧ release = true ∨
      i = .fenceAcqrel f ∧ acquire = true ∧ sc = false ∧ release = true ∨
      i = .fenceSc f ∧ acquire = true ∧ sc = true ∧ release = true) →
    exec i s = .next ((fenced r f.s.toNat acquire sc release (s.begun r i)).through r i)) ∧
  (∀ (s : State) (r : Rod) (f : ShXfence), Issues s r (.xfence f) →
    exec (.xfence f) s = .next ((crossed r f.f.toNat f.t.toNat f.s.toNat (s.begun r (.xfence f))).through r (.xfence f)))

/-- EXIT (R29, R357): in handler mode, with the stack as deep as at the entry (R290) and nothing that bars the commit, every
bead of the rod ends and the rod leaves its slot; else the beads of its group end: the group that its stack names runs, or
the rod leaves its slot. With a pending group that group runs; else the beads that reconverge at the entry run after its join,
with the FMT and the control fields of MODE of the push, and the entry is popped (R28, R30). -/
def Obligations.ExitEnds : Prop :=
  ∀ (s : State) (r : Rod), Issues s r .exit →
    ((∃ fr, r.handler = some fr ∧ r.stack.length = fr.depth ∧ s.blockedLine r.uid = none) ∨ r.handler = none ∧ r.stack = [] →
      ∃ t, exec .exit s = .next t ∧ t.rod? r.uid = none) ∧
    (r.handler = none → ∀ e es, r.stack = e :: es → e.pv = true →
      ∃ t q, exec .exit s = .next t ∧ t.rod? r.uid = some q ∧ q.alive = r.alive &&& ~~~ r.active ∧
        q.active = e.pm &&& ~~~ r.active ∧ q.pc = e.ppc ∧ q.resume = e.pr.toNat ∧ q.fmt = e.pfmt ∧ q.beads = r.beads ∧
        q.s = r.s) ∧
    (r.handler = none → ∀ e es y, r.stack = e :: es → e.pv = false → e.j = some y → e.f &&& ~~~ r.active ≠ 0 →
      ∃ t q, exec .exit s = .next t ∧ t.rod? r.uid = some q ∧ q.alive = r.alive &&& ~~~ r.active ∧
        q.active = e.f &&& ~~~ r.active ∧ q.pc = y + 4 ∧ q.resume = 0 ∧ q.fmt = e.sfmt ∧ q.mode = modeWith r.mode e.smode ∧
        q.stack.length = es.length ∧ q.beads = r.beads ∧ q.s = r.s) ∧
    (r.handler = none → ∀ e, r.stack = [e] → e.pv = false → e.f &&& ~~~ r.active = 0 →
      ∃ t, exec .exit s = .next t ∧ t.rod? r.uid = none)

/-- A barrier that the group completes (R333): no bead of the group has arrived, and every other live bead of the frame
has; the phase flips, the beads pass, those that wait become idle and those of the split form stay arrived, the rod goes on,
and rods that sleep at the barrier are ready. A group whose waiting beads find the phase changed passes: its beads become idle,
and the rod goes on. -/
def Obligations.BarrierCompletes : Prop :=
  (∀ (s : State) (r : Rod) (fr : Frame) (f : ShBar), Issues s r (.bar f) → s.frame? r.frame = some fr →
    r.alive ≠ 0 → (∀ k ∈ beadsOf r, k < r.beads.length ∧ (r.bead k).bar.length = 16 ∧ ((r.bead k).arrival f.n.toNat).kind = .idle) →
    (∀ k < 16, r.alive.getLsbD k = true → k ∉ beadsOf r → arrivedIn (fr.phase f.n.toNat) ((r.bead k).arrival f.n.toNat) = true) →
    (∀ q ∈ s.rods, q.uid ≠ r.uid → q.frame = r.frame → ∀ k < 16, q.alive.getLsbD k = true →
      arrivedIn (fr.phase f.n.toNat) ((q.bead k).arrival f.n.toNat) = true) →
      ∃ t q fr', exec (.bar f) s = .next t ∧ t.frame? fr.uid = some fr' ∧ fr'.phase f.n.toNat = !fr.phase f.n.toNat ∧
        t.rod? r.uid = some q ∧ q.pc = r.pc + 4 ∧
        (∀ k ∈ beadsOf r, ((q.bead k).arrival f.n.toNat).kind = if f.c then .arrived else .idle) ∧
        ∀ p ∈ t.rods, p.frame = r.frame → ∀ ticket began, p.status ≠ .asleep (.barrier f.n.toNat) ticket began) ∧
  ∀ (s : State) (r : Rod) (fr : Frame) (f : ShBar), Issues s r (.bar f) → s.frame? r.frame = some fr →
    (∃ k ∈ beadsOf r, r.alive.getLsbD k = true) →
    (∀ k ∈ beadsOf r, k < r.beads.length ∧ (r.bead k).bar.length = 16 ∧
      (r.bead k).arrival f.n.toNat = ⟨.waiting, !fr.phase f.n.toNat⟩) →
      ∃ t q fr', exec (.bar f) s = .next t ∧ t.frame? fr.uid = some fr' ∧ fr'.phases = fr.phases ∧
        t.rod? r.uid = some q ∧ q.pc = r.pc + 4 ∧ ∀ k ∈ beadsOf r, ((q.bead k).arrival f.n.toNat).kind = .idle

/-- LIVE names its descriptor (R83, R386): the descriptor is 64 bytes at a multiple of 16 of the code object of the pc, each
16 of them on a page at hand, and keeps the rules of R83 (NR at most 4 is the model's reading, assumption 20, and which
object is the code object its choice, assumption 56).  CAPLD loads the capability of a handle-table entry (R48, R119,
R344): the index is at most the table's last, the entry's page is at hand, and its reserved bits are zero. -/
def Obligations.LiveAndCapldComplete : Prop :=
  (∀ (s : State) (r : Rod) (fr : Frame) (f : ShCode) (base len : Nat) (at_ : Nat → Nat), Issues s r (.live f) →
    s.frame? r.frame = some fr →
    let x := (r.pc + f.i.signExtend 48 * 4).toNat
    x % 16 = 0 → codeIs s r.core r.asid r.pc.toNat base len → base ≤ x → x + 64 ≤ base + len →
    codeReads s r.core r.asid x at_ 4 → liveOk (codeAt s at_ 4) r.alloc fr.segS.limit.toNat = true →
      exec (.live f) s = .next (s.completed r ({ r.leave with live := some (BitVec.ofNat 48 x), atLive := true } : Rod).advance
        (.live f))) ∧
  (∀ (s : State) (r : Rod) (f : ShCapld) (a : Nat), Issues s r (.capld f) →
    (r.sreg (sIndex f.a)).toNat ≤ s.ctxField r.asid 112 16 →
    entryAt s r.core r.asid (r.sreg (sIndex f.a)).toNat a →
    let e := s.natAt a 16
    e.testBit 120 = false → e.testBit 121 = false →
      exec (.capld f) s = .next (s.completed r (r.leave.setCap f.d.toNat
        ⟨e.testBit 127, e.testBit 126, e.testBit 125, e.testBit 124, e.testBit 123, e.testBit 122, BitVec.ofNat 24 (e / 2 ^ 96),
          BitVec.ofNat 48 (e / 2 ^ 48), BitVec.ofNat 48 e⟩).advance (.capld f)))

/-! ### Global memory -/

/-- LD (R116, R117, R132, R147, R161 to R163, R383): when every issuing bead reaches its address, each bead in turn loads, a
weak load what it may still see and any other what the rod's die has, and the rod goes on.  Where the rod must see every
recent write to the bytes, each bead has the newest value, the rod's own stores before the homes', and no byte of memory
changes. Open in the manual and the model's choice: assumptions 25 and 48. -/
def Obligations.LoadsComplete : Prop :=
  ∀ (s : State) (r : Rod) (f : ShMem) (at_ : Option Nat → Nat), Issues s r (.ld f) →
    (∀ b ∈ r.parts f.u, Reaches s r (r.cap f.c.toNat) ⟨true, false, false, false, false⟩
      (byteOffset r b f.x f.f (widthBytes f.w)) (widthBytes f.w) .load (at_ b)) →
      exec (.ld f) s = .next (((r.parts f.u).foldl (loadTurn f r at_) (s.begun r (.ld f))).through r (.ld f)) ∧
      ((∀ b ∈ r.parts f.u, ∀ w ∈ s.writes, w.touches (at_ b) (widthBytes f.w) = true → s.mustSee r.agent r.view w = true) →
        ∃ t q, exec (.ld f) s = .next t ∧ t.rod? r.uid = some q ∧ t.mem = s.mem ∧ q.pc = r.pc + 4 ∧
          let x := (r.parts f.u).foldl (fun y b => loadedInto y b f.d f.w (s.rodNat r (at_ b) (widthBytes f.w))) r
          q.beads = x.beads ∧ q.s = x.s)

/-- ST (R116, R117, R132, R148, R163, R168, R415): when every issuing bead reaches its address, an ordinary store puts the
low bytes of its data register into the rod's tentative lines, which note the line they come from, and a release store commits
the open region and then writes them at their homes, each write a release that comes before what follows it; the rod goes
on. -/
def Obligations.StoresComplete : Prop :=
  ∀ (s : State) (r : Rod) (f : ShMem) (at_ : Option Nat → Nat), Issues s r (.st f) →
    (∀ b ∈ r.parts f.u, Reaches (s.begun r (.st f)) r (r.cap f.c.toNat) ⟨false, true, false, false, false⟩
      (byteOffset r b f.x f.f (widthBytes f.w)) (widthBytes f.w) (if f.o.toNat = 3 then .home else .tentative) (at_ b)) →
      exec (.st f) s = .next (((r.parts f.u).foldl (fun x b =>
        let q := nowOf x r
        let v := storedFrom r b f.d f.w
        let done := (q.view.release q.agent 4).through (homeDieOf (at_ b)) (x.fresh + 1 + widthBytes f.w / 16)
        if f.o.toNat = 3 then x.rodWrite q (done :: q.view.rel) (at_ b) (widthBytes f.w) v
        else x.storeTentative r.uid (lineFrom s r (r.cap f.c.toNat) (byteOffset r b f.x f.f (widthBytes f.w)) (at_ b)) (placed (at_ b) (bytesOfNat (widthBytes f.w) v))) (s.begun r (.st f))).through r (.st f))

/-- The frame of an ordinary store (R148): no byte at any home changes; the rod reads every byte outside the stored ones
as before, and, when one part stores, the stored bytes as stored; no register changes. -/
def Obligations.StoresFrame : Prop :=
  ∀ (s t : State) (r : Rod) (f : ShMem) (at_ : Option Nat → Nat), Issues s r (.st f) → f.o.toNat ≠ 3 →
    (∀ b ∈ r.parts f.u, Reaches s r (r.cap f.c.toNat) ⟨false, true, false, false, false⟩
      (byteOffset r b f.x f.f (widthBytes f.w)) (widthBytes f.w) .tentative (at_ b)) →
    (∀ q ∈ s.rods, q.uid = r.uid → q = r) → exec (.st f) s = .next t →
      (∀ a, Memory.read t.mem a = Memory.read s.mem a) ∧ t.cells = s.cells ∧
      ∃ q, t.rod? r.uid = some q ∧ q.beads = r.beads ∧ q.s = r.s ∧ q.c = r.c ∧ q.mode = r.mode ∧ q.fmt = r.fmt ∧
        q.base = r.base ∧ q.active = r.active ∧ q.stack = r.stack ∧ q.handler = r.handler ∧ q.pc = r.pc + 4 ∧
        (∀ a, (∀ b ∈ r.parts f.u, ¬ within (at_ b) (widthBytes f.w) a) → t.rodNat q a 1 = s.rodNat r a 1) ∧
        ∀ b, r.parts f.u = [b] → ∀ i < widthBytes f.w,
          t.rodNat q (at_ b + i) 1 = storedFrom r b f.d f.w / 2 ^ (8 * i) % 256

/-- STN (R134, R147, R419): each bead in turn replaces one nibble of a byte at its home, after the open region is
committed. -/
def Obligations.NibbleStoresComplete : Prop :=
  ∀ (s : State) (r : Rod) (f : ShMemNW) (at_ : Option Nat → Nat), Issues s r (.stn f) →
    (∀ b ∈ r.parts f.u, Reaches (s.begun r (.stn f)) r (r.cap f.c.toNat) ⟨false, true, false, false, false⟩
      (nibbleOffset r b f.x f.f) 1 .home (at_ b)) →
      exec (.stn f) s = .next (((r.parts f.u).foldl (fun x b =>
        atHome r false false (decide (f.o.toNat = 3)) (at_ b) 1 (some (nibbleStored r b f (x.natAt (at_ b) 1))) x)
          (s.begun r (.stn f))).through r (.stn f))

/-- The atomics (R159, R163, R166, R328 to R332): after the open region is committed each bead in turn reads at its home,
stores there what the operation gives, with the order of its code, and has the old value in its data register. -/
def Obligations.AtomicsComplete : Prop :=
  ∀ (s : State) (r : Rod) (i : Instr) (x : Atomic) (at_ : Option Nat → Nat), atomicOf i = some x → Issues s r i →
    (∀ b ∈ r.parts x.u, Reaches (s.begun r i) r (r.cap x.c.toNat) ⟨false, false, true, false, false⟩
      (byteOffset r b x.x x.f x.size) x.size .home (at_ b)) →
      exec i s = .next (((r.parts x.u).foldl (fun y b => atomicTurn x r b (at_ b) y) (s.begun r i)).through r i)

/-- The frame of the atomics, STN and release stores: a byte at its home that no part stores to, and that the commit of
the rod's open region does not write, reads as before (R146, R328). -/
def Obligations.HomeWritesFrame : Prop :=
  ∀ (s t : State) (r : Rod) (i : Instr) (u : Bool) (n : Nat) (at_ : Option Nat → Nat),
    ((∃ x, atomicOf i = some x ∧ u = x.u ∧ n = x.size ∧ ∀ b ∈ r.parts x.u, Reaches (s.begun r i) r (r.cap x.c.toNat)
        ⟨false, false, true, false, false⟩ (byteOffset r b x.x x.f x.size) x.size .home (at_ b)) ∨
      (∃ f, i = .stn f ∧ u = f.u ∧ n = 1 ∧ ∀ b ∈ r.parts f.u, Reaches (s.begun r i) r (r.cap f.c.toNat)
        ⟨false, true, false, false, false⟩ (nibbleOffset r b f.x f.f) 1 .home (at_ b)) ∨
      ∃ f, i = .st f ∧ f.o.toNat = 3 ∧ u = f.u ∧ n = widthBytes f.w ∧ ∀ b ∈ r.parts f.u, Reaches (s.begun r i) r (r.cap f.c.toNat)
        ⟨false, true, false, false, false⟩ (byteOffset r b f.x f.f (widthBytes f.w)) (widthBytes f.w) .home (at_ b)) →
    Issues s r i → exec i s = .next t →
      ∀ a, ¬ committing s r a → (∀ b ∈ r.parts u, ¬ within (at_ b) n a) → Memory.read t.mem a = Memory.read s.mem a

/-- An access that its capability refuses halts the context with class 8 (R116, R118, R286): cause 1 when the capability is
not valid, 2 when it lacks a right, 3 when a byte lies outside it; nothing is read or written (the first part). The record's
INFO is 0, which is the model's reading (assumption 52). -/
def Obligations.CapabilitiesGuardLoads : Prop :=
  ∀ (s : State) (r : Rod) (f : ShMem) (b : Option Nat) (bs : List (Option Nat)) (cause : Nat), Issues s r (.ld f) →
    r.parts f.u = b :: bs →
    let c := r.cap f.c.toNat
    let byte := byteOffset r b f.x f.f (widthBytes f.w)
    (cause = if c.v = false then 1 else if c.rd = false then 2 else 3) →
    (c.v = false ∨ c.rd = false ∨ byte < c.lo.toNat ∨ c.hi.toNat < byte + widthBytes f.w) →
      exec (.ld f) s = .next (((s.setRod r.leave).raiseHalt r.asid
        (haltOfRod (s.setRod r.leave) r.leave 8 cause (beadNo b) 0)).tick (r.laneCycles (onceOnly (.ld f))))

/-- FLUSH (R150, R173, R365): when nothing bars the rod's lines they are committed and performed, and the rod sleeps until
the walk ends. Open in the manual and the model's choice: assumption 40. -/
def Obligations.FlushSleeps : Prop :=
  ∀ (s : State) (r : Rod) (i : Instr) (f : ShScope) (inv : Bool), (i = .flush f ∧ inv = false ∨ i = .flushInv f ∧ inv = true) →
    Issues s r i → s.blockedLine r.uid = none →
      exec i s = .next ((((s.setRod r.leave).commitPerform r.uid).sleepRod r.uid 0 (.flush f.s.toNat inv) false).tick
        (r.laneCycles (onceOnly i)))

/-- WAITV (R161, R172, R432): when every active bead reaches its word, the words are read as their homes have them; when
none is the bead's operand the rod goes on, and when one is, the rod sleeps with the lines armed, as far as the core's 128
monitors go. -/
def Obligations.WaitvWaitsOnEquality : Prop :=
  ∀ (s : State) (r : Rod) (i : Instr) (f : ShWaitv) (n : Nat) (at_ : Option Nat → Nat),
    (i = .waitv f ∧ n = 4 ∨ i = .waitvS64 f ∧ n = 8) → Issues s r i →
    let parts : List (Option Nat) := if f.u then [none] else (beadsOf r).map some
    (∀ b ∈ parts, Reaches s r (r.cap f.c.toNat) ⟨true, false, false, false, false⟩ (byteOffset r b false f.a n) n .load (at_ b)) →
      let words := strongReads r at_ n parts (s.begun r i)
      let equal (x : Option Nat × Nat) : Prop := x.2 = (r.operand x.1 (decide (n = 8)) f.d).toNat
      ((∀ x ∈ words.1, ¬ equal x) → exec i s = .next (words.2.through r i)) ∧
      ((∃ x ∈ words.1, equal x) →
        let lines := distinct (parts.map fun b => lineOf (at_ b))
        let room := 128 - s.monitors r.core
        exec i s = .next ((words.2.sleepRod r.uid 0
          (.waitv (lines.take room) false (decide (room < lines.length))) true).tick (r.laneCycles (onceOnly i))))

/-! ### The typed buffers -/

/-- LDL (R124, R127, R179, R385): when every issuing bead's cell is present, or the access is a probe, and no two takes name
one cell, each bead has its bytes, a take leaves its cell absent, and the rod goes on.  STL (R124, R126, R128, R417): when
every issuing bead's cell lies in the segment and, in C, no carry slot owns it, each bead writes its bytes into its cell,
which becomes present and serves whoever waits there. -/
def Obligations.LocalAccessesComplete : Prop :=
  (∀ (s : State) (r : Rod) (fr : Frame) (i : Instr) (f : ShLdl) (buf : Nat), ldlOf i = some (f, buf) → Issues s r i →
    s.frame? r.frame = some fr →
    let n (b : Option Nat) : Nat := localCell fr buf r b f.f (widthBytes f.w)
    (∀ b ∈ r.parts f.u, localByte r b f.f (widthBytes f.w) / 16 < (fr.seg buf).limit.toNat) →
    (f.q.toNat ≠ 2 → ∀ b ∈ r.parts f.u, (s.seen r.core buf (n b)).present = true) →
    (f.q.toNat = 0 → ((r.parts f.u).map n).Nodup) →
      exec i s = .next ((((r.parts f.u).foldl (ldlTurn f buf fr r) (s.begun r i)).alter r.uid fun q =>
        (r.parts f.u).foldl (fun y b => loadedInto y b f.d f.w (ldlValue f buf fr r s b)) q).through r i)) ∧
  (∀ (s : State) (r : Rod) (fr : Frame) (i : Instr) (f : ShStl) (buf : Nat), stlOf i = some (f, buf) → Issues s r i →
    s.frame? r.frame = some fr →
    (∀ b ∈ r.parts f.u, localByte r b f.f (widthBytes f.w) / 16 < (fr.seg buf).limit.toNat ∧
      (buf = 3 → s.carryOwned r.core (localCell fr buf r b f.f (widthBytes f.w)) 1 = false)) →
      exec i s = .next (((r.parts f.u).foldl (stlTurn f buf fr r) (s.begun r i)).through r i))

/-- LDL and STL outside the segment halt the context with class 8 and cause segment (R118, R124, R286); no cell changes. -/
def Obligations.SegmentsGuardCells : Prop :=
  ∀ (s : State) (r : Rod) (fr : Frame) (i : Instr) (f : BitVec 7) (w : BitVec 3) (buf : Nat) (b : Option Nat)
    (bs : List (Option Nat)),
    (∃ g, ldlOf i = some (g, buf) ∧ f = g.f ∧ w = g.w) ∨ (∃ g, stlOf i = some (g, buf) ∧ f = g.f ∧ w = g.w) →
    Issues s r i → s.frame? r.frame = some fr → r.parts (uniform i) = b :: bs →
    (fr.seg buf).limit.toNat ≤ localByte r b f (widthBytes w) / 16 →
      ∃ t h, exec i s = .next t ∧ t.halt? r.asid = some h ∧ (s.halt? r.asid = none → h.cls = 8 ∧ h.cause = 4 ∧ h.pc = r.pc) ∧
        t.cells = s.cells

/-! ### Requests to the engines -/

/-- TTASK (R200, R201, R427): records that pass the checks of R201 enter the core's task queue in bead order, when it
has room for them. INFER (R211, R378): requests whose ranges lie in S enter it, and their futures become absent. Open
in the manual and the model's choice: assumption 11. -/
def Obligations.TasksArePosted : Prop :=
  (∀ (s : State) (r : Rod) (fr : Frame) (f : ShUA), Issues s r (.ttask f) → s.frame? r.frame = some fr →
    (∀ b ∈ r.parts f.u, s.recordFault fr (taskRecord r b f.a) (classA r) (classB r) b = none) →
    s.queued r.core + (r.parts f.u).length ≤ 64 →
      exec (.ttask f) s = .next (((r.parts f.u).foldl (fun x b => enqueue r (.tile (taskRecord r b f.a) (classA r) (classB r)) x)
        (s.begun r (.ttask f))).through r (.ttask f))) ∧
  (∀ (s : State) (r : Rod) (fr : Frame) (f : ShUDAB), Issues s r (.infer f) → s.frame? r.frame = some fr →
    (∀ b ∈ r.parts f.u, inferFits fr (inferKind r s fr f b)) → s.queued r.core + (r.parts f.u).length ≤ 64 →
      exec (.infer f) s = .next (((r.parts f.u).foldl (fun x b => inferTurn r fr (inferKind r s fr f b) x)
        (s.begun r (.infer f))).through r (.infer f)))

/-- SUMSET (R220 to R224): with well-formed specs, present, and a free chain entry, the reservation starts in the order of
cores and slots, and the destination register is outstanding; without a free entry the register is 2. SUMSEND (R225, R226,
R421): the first issuing bead's tile is copied and its credit request stands, and the rod sleeps for the reply; the other
beads send after it. SUMFREE (R229): a chain of the frame whose granted transfers are all applied is freed with those slots
that are still its own, and its cells serve who waits there. Open in the manual and the model's choice: assumption 37. -/
def Obligations.CarryInstructionsComplete : Prop :=
  (∀ (s : State) (r : Rod) (fr : Frame) (f : ShSumset), Issues s r (.sumset f) → s.frame? r.frame = some fr →
    let desc := r.sreg (sIndex f.a)
    let base := r.sreg (sIndex f.b)
    let ns := desc.toNat % 16 + 1
    let first := fr.segS.base.toNat + base.toNat
    let cells := peekedCells s r 0 first ns
    sumsetTaken f desc base → base.toNat + ns ≤ fr.segS.limit.toNat → peekable s r 0 first ns → specsTaken cells →
      (∀ c, s.freeChainIndex r.core = some c →
        let v : Resv := ⟨r.uid, r.core, r.asid, r.frame, fr.launch, sIndex f.d, f.f, (desc.extractLsb' 23 9).toInt, c,
          sortBy (fun q : Spec => q.core * 32 + q.slot) (cells.map specAt), 0, .request⟩
        exec (.sumset f) s = .next
          (({ forgetCells r (s.begun r (.sumset f)) with resvs := s.resvs ++ [v] }.alter r.uid fun q => q.expect (sIndex f.d)).through
            r (.sumset f))) ∧
      (s.freeChainIndex r.core = none →
        exec (.sumset f) s = .next (((forgetCells r (s.begun r (.sumset f))).alter r.uid fun q => q.setS (sIndex f.d) 2).through
          r (.sumset f)))) ∧
  (∀ (s : State) (r : Rod) (fr : Frame) (f : ShUDA) (b : Option Nat) (bs : List (Option Nat)), Issues s r (.sumsend f) →
    s.frame? r.frame = some fr → r.parts f.u = b :: bs →
    let t := windowNumber r b f.a
    let cell := (r.word b f.d).toNat
    let n := t / 2 ^ 16 % 2 ^ 12 + 1
    let first := fr.segC.base.toNat + cell
    targetTaken t → cell + n ≤ fr.segC.limit.toNat → peekable s r 3 first n → s.sendBuffer r.core < 2 →
      let s1 := forgetCells r (s.begun r (.sumsend f))
      let words := tileWords (peekedCells s r 3 first n)
      exec (.sumsend f) s = .next
        (({ s1 with credits := s1.credits ++
          [(⟨r.uid, r.frame, r.asid, r.core, b, t % 256, t / 2 ^ 8 % 32, n, words, none⟩ : Credit)] }.sleepRod r.uid (beadNo b) .credit false).tick (r.laneCycles (onceOnly (.sumsend f))))) ∧
  (∀ (s : State) (r : Rod) (f : ShA) (c : Chain), Issues s r (.sumfree f) → (r.sreg (sIndex f.a)).toNat < 16 →
    s.chain? r.core (r.sreg (sIndex f.a)).toNat = some c → c.frame = r.frame →
    (∀ d ∈ s.chains, d.core = r.core → d.index = c.index → d = c) → (∀ p ∈ c.slots, s.grantsLeft p.1 p.2 = false) →
      let s1 := c.slots.foldl (fun x p => if c.has (x.slot p.1 p.2) then x.freeSlotEntry p.1 p.2 else x)
        (s.begun r (.sumfree f))
      exec (.sumfree f) s = .next ({ s1 with chains := s.chains.filter fun d => decide (d ≠ c) }.through r (.sumfree f)))

/-- WBIND and WCSR bind windows whose operands pass the checks, WTOUCH starts the copies of Bound windows, and WDROP
frees windows that are not Copying, one bead after another (R176 to R179, R182 to R185, R434, R435). Open in the
manual and the model's choice: assumption 9. -/
def Obligations.WindowsAreBound : Prop :=
  (∀ (s : State) (r : Rod) (f : ShWbind), Issues s r (.wbind f) →
    eachTaken (wbindReady f r) (wbindTurn f r) (s.begun r (.wbind f)) (r.parts f.u) →
    exec (.wbind f) s = .next (((r.parts f.u).foldl (wbindTurn f r) (s.begun r (.wbind f))).through r (.wbind f))) ∧
  (∀ (s : State) (r : Rod) (f : ShWbind), Issues s r (.wcsr f) →
    eachTaken (wcsrReady f r) (wcsrTurn f r) (s.begun r (.wcsr f)) (r.parts f.u) →
    exec (.wcsr f) s = .next (((r.parts f.u).foldl (wcsrTurn f r) (s.begun r (.wcsr f))).through r (.wcsr f))) ∧
  (∀ (s : State) (r : Rod) (fr : Frame) (f : ShUA), Issues s r (.wtouch f) → s.frame? r.frame = some fr →
    (∀ b ∈ r.parts f.u, windowNumber r b f.a < 32 ∧ windowNumber r b f.a < fr.windows.length) →
    exec (.wtouch f) s = .next (((r.parts f.u).foldl (fun x b => x.modFrame fr.uid fun g => g.touch (nowOf x r).view.seen (windowNumber r b f.a))
      (s.begun r (.wtouch f))).through r (.wtouch f))) ∧
  (∀ (s : State) (r : Rod) (f : ShUA), Issues s r (.wdrop f) →
    eachTaken (wdropReady f r) (wdropTurn f r) (s.begun r (.wdrop f)) (r.parts f.u) →
    exec (.wdrop f) s = .next (((r.parts f.u).foldl (wdropTurn f r) (s.begun r (.wdrop f))).through r (.wdrop f)))

/-- CHADV acts as an XFENCE from the program to the copy path at dev scope, and moves the tail of a package copy engine that
is assigned to the rod's context, to a multiple of 64 (R170, R190, R347). BURST (R215, R341): a length up to 65,536 is
declared for each of the core's engines, which asks for a grant if it has none; a length of zero ends their bursts. -/
def Obligations.ChainTailsAndBursts : Prop :=
  (∀ (s : State) (r : Rod) (f : ShUDA), Issues s r (.chadv f) → (r.sreg (sIndex f.d)).toNat < 24 →
    (∃ c ∈ s.copyEngines, c.engine = (r.sreg (sIndex f.d)).toNat ∧ c.asid = r.asid) → (r.sreg (sIndex f.a)).toNat % 64 = 0 →
      exec (.chadv f) s = .next (((r.parts f.u).foldl (fun x _ =>
        let y := crossed r 0 1 4 x
        y.modEngine (r.sreg (sIndex f.d)).toNat fun c => { c with
          tail := (r.sreg (sIndex f.a)).toNat, seen := c.seen.join (nowOf y r).view.seen }) (s.begun r (.chadv f))).through r (.chadv f))) ∧
  (∀ (s : State) (r : Rod) (f : ShA), Issues s r (.burst f) →
    let len := min 65536 ((r.sreg (sIndex f.a)).toNat % 2 ^ 32)
    let s1 := s.begun r (.burst f)
    (len = 0 → exec (.burst f) s = .next (((s1.endBurst r.core 0).endBurst r.core 1).through r (.burst f))) ∧
    (len ≠ 0 → exec (.burst f) s = .next
      ((declares r.core 1 r.asid len (declares r.core 0 r.asid len s1)).through r (.burst f))))

/-! ### Queues -/

/-- EDGEGET, EDGEPUT, QPOP and QPUSH (R164, R270, R284, R355, R399): on a queue that the rod can reach, with a well-formed
header of records of the right size and, to put, with room, each part has its turn on the header as it finds it. -/
def Obligations.QueuesTransfer : Prop :=
  ∀ (s : State) (r : Rod) (i : Instr) (f : ShUDA) (h : Nat) (place : Nat → Nat) (put : Bool) (fits : Queue → Prop)
    (turn : State → Option Nat → State),
    (i = .edgeget f ∧ put = false ∧ fits = (fun q => q.rsz = 1) ∧ turn = edgegetTurn f r h place ∨
      i = .edgeput f ∧ put = true ∧ fits = (fun q => q.rsz = 1) ∧ turn = edgeputTurn f r h place ∨
      i = .qpop f ∧ put = false ∧ fits = groupFits r f.d 1 ∧ turn = qpopTurn f r h place ∨
      i = .qpush f ∧ put = true ∧ fits = groupFits r f.d 0 ∧ turn = qpushTurn f r h place) →
    Issues s r i → r.parts f.u ≠ [] → eachTaken (queuePart r f.a h place put fits) turn (s.begun r i) (r.parts f.u) →
      exec i s = .next (((r.parts f.u).foldl turn (s.begun r i)).through r i)

/-- LAUNCH (R164, R270, R273, R283, R382): the record of 256 bytes is read; a queue header that is missing or malformed
gives the status 2, a full queue the status 1; else the record is published at TAIL, as a release at dev scope or, for a
launch that spans devices, house scope, copies leave for the other devices of the launch, and the status is 0. Open in
the manual and the model's choice: assumption 33. -/
def Obligations.LaunchPosts : Prop :=
  ∀ (s : State) (r : Rod) (f : ShDAB) (a0 a1 qa : Nat), Issues s r (.launch f) → s.blockedLine r.uid = none →
    let x := (r.sreg (sIndex f.a)).toNat
    let qn := (r.sreg (sIndex f.b)).toNat
    let c := r.cap (x % 16)
    let off := x / 2 ^ 16 % 2 ^ 48
    let s1 := ((s.setRod r.leave).commitPerform r.uid).alter r.uid Rod.openRegion
    field x 4 20 = 0 → qn < 16 →
    c.lo.toNat ≤ off → off + 256 ≤ c.hi.toNat →
    Reaches s1 r c ⟨true, false, false, false, false⟩ off 128 .load a0 →
    Reaches s1 r c ⟨true, false, false, false, false⟩ (off + 128) 128 .load a1 →
    mapsTo s1 (some r.core) r.asid ((s1.ctxField r.asid 192 48 + 8 * qn) % 2 ^ 48) false qa → s1.damaged qa 8 = false →
    let hva := s1.natAt qa 8
    let record := natOfBytes (s1.bytesAt a0 128 ++ s1.bytesAt a1 128)
    let others := record / 2 ^ 403 % 2 ^ 12
    let ended (st : State) (status : Dword) : State :=
      (((st.alter r.uid fun q => q.setS (sIndex f.d) status).alter r.uid Rod.advance).alter r.uid Rod.openRegion).tick
        (r.laneCycles (onceOnly (.launch f)))
    (hva = 0 ∨ hva % 128 ≠ 0 ∨ 2 ^ 48 ≤ hva → exec (.launch f) s = .next (ended s1 2)) ∧
    (hva ≠ 0 → hva % 128 = 0 → hva < 2 ^ 48 → ∀ h, mapsTo s1 (some r.core) r.asid hva true h → s1.damaged h 128 = false →
      let q := s1.queueAt h
      (q.bad true = true → exec (.launch f) s = .next (ended s1 2)) ∧
      (q.bad true = false → q.count = q.size → exec (.launch f) s = .next (ended s1 1)) ∧
      (q.bad true = false → q.count ≠ q.size → ∀ o0 o1,
        mapsTo s1 (some r.core) r.asid ((hva + q.recordAt q.tail) % 2 ^ 48) true o0 →
        mapsTo s1 (some r.core) r.asid ((hva + q.recordAt q.tail + 128) % 2 ^ 48) true o1 →
        let scope := if others = 0 then 4 else 5
        let s2 := published r scope (placed h (bytesOfNat 8 (q.tail + 1))) (published r scope
          (placed o0 (bytesOfNat 128 record) ++ placed o1 (bytesOfNat 128 (record / 2 ^ 1024))) s1)
        exec (.launch f) s = .next (ended { s2 with
          fresh := s2.fresh + 1
          launched := (r.asid, qn, q.tail) :: s2.launched
          deliveries := s2.deliveries ++ (sortBy id ((List.range others).map fun j => (s.endpoint + j + 1) % 4096)).map fun d =>
            ⟨s2.fresh, d, r.asid, qn, BitVec.ofNat 2048 record⟩ } 0)))

/-! ### Continuations -/

/-- TEX, TRACE and VMARCH (R29, R248, R252 to R254, R257, R264, R423): with operands and a descriptor that keep their
rules, present, and a capability that grants RD and E over what they read, every issuing bead ends with its record,
and the unit has its request. Open in the manual and the model's choice: assumption 35. -/
def Obligations.UnitRequestsEndBeads : Prop :=
  (∀ (s : State) (r : Rod) (fr : Frame) (f : ShTex) (regs : List Nat), Issues s r (.tex f) → s.frame? r.frame = some fr →
    let x := (r.sreg (sIndex f.b)).toNat
    let cell := x / 2 ^ 16 % 2 ^ 20
    let s0 := s.begun r (.tex f)
    let cells := peekedCells s r 0 (fr.segS.base.toNat + cell) 2
    let image := cells.getD 0 0
    let sampler := cells.getD 1 0
    let c := r.cap (x % 16)
    field x 4 12 = 0 → field x 36 28 = 0 → cell + 2 ≤ fr.segS.limit.toNat →
    peekable s r 0 (fr.segS.base.toNat + cell) 2 → imageBad image.toNat = false → samplerBad sampler.toNat = false →
    c.v = true → c.rd = true → c.e = true → c.lo.toNat ≤ (Image.ofNat image.toNat).off →
    (Image.ofNat image.toNat).off + (Image.ofNat image.toNat).extent ≤ c.hi.toNat → liveNames s0 r regs →
    let req (k : Nat) : UnitReq := .tex f.c.toNat c image sampler
      ((List.range (texOperands f.c)).map fun j => r.word (some k) (next f.a j)) (k % 4) (r.quadOf k f.a)
    eachTaken (recordRoom r regs req) (beadEnds r f.d regs req) (describedState s0 r fr cell 2) r.issuing →
      exec (.tex f) s = .next (groupEnded (r.issuing.foldl (beadEnds r f.d regs req) (describedState s0 r fr cell 2)) r (.tex f))) ∧
  (∀ (s : State) (r : Rod) (f : ShTrace) (regs : List Nat), Issues s r (.trace f) →
    let x := (r.sreg (sIndex f.b)).toNat
    let s0 := s.begun r (.trace f)
    let c := r.cap (x % 16)
    field x 4 18 = 0 → c.v = true → c.rd = true → c.e = true → c.lo.toNat ≤ c.hi.toNat → liveNames s0 r regs →
    let req (k : Nat) : UnitReq := .trace f.c c (x / 2 ^ 16 % 2 ^ 48) ((List.range 8).map fun j => r.vreg k (next f.a j))
    eachTaken (recordRoom r regs req) (beadEnds r f.d regs req) s0 r.issuing →
      exec (.trace f) s = .next (groupEnded (r.issuing.foldl (beadEnds r f.d regs req) s0) r (.trace f))) ∧
  (∀ (s : State) (r : Rod) (fr : Frame) (f : ShDAB) (regs : List Nat), Issues s r (.vmarch f) →
    s.frame? r.frame = some fr →
    let x := (r.sreg (sIndex f.b)).toNat
    let cell := x / 2 ^ 16 % 2 ^ 20
    let s0 := s.begun r (.vmarch f)
    let desc := fourCells (peekedCells s r 0 (fr.segS.base.toNat + cell) 4)
    let g := Grid.ofNat desc.toNat
    let c := r.cap (x % 16)
    field x 4 12 = 0 → field x 36 28 = 0 → cell + 4 ≤ fr.segS.limit.toNat →
    peekable s r 0 (fr.segS.base.toNat + cell) 4 → gridReserved desc.toNat = false → c.v = true → c.rd = true → c.e = true →
    c.lo.toNat ≤ g.moff → g.moff + 4 * g.cells ≤ c.hi.toNat → c.lo.toNat ≤ g.doff →
    g.doff + 4 * g.cells * 8 ^ g.logs ≤ c.hi.toNat → liveNames s0 r regs →
    let req (k : Nat) : UnitReq := .march c desc ((List.range 12).map fun j => r.vreg k (next f.a j))
    eachTaken (recordRoom r regs req) (beadEnds r f.d regs req) (describedState s0 r fr cell 4) r.issuing →
      exec (.vmarch f) s =
        .next (groupEnded (r.issuing.foldl (beadEnds r f.d regs req) (describedState s0 r fr cell 4)) r (.vmarch f)))

/-! ### What befalls rods, frames and memory between instructions -/

/-- The events of one rod: a value that an engine delivers (R20, R21), TIMER, whose fault a rod that waits on the scoreboard
takes later (R55, R288), the end of a hold (R438), the wakes from WAITV (R172), the end of a FLUSH whose own lines are
performed and whose ports answer (R173, R313), and the filling of an instruction-cache line (R77). Open in the manual and
the model's choice: assumptions 5, 7, 38, 53 and 56. -/
def Obligations.RodEventsComplete : Prop :=
  (∀ (s : State) (u : Nat) (r : Rod) (p : Pending) (x : Dword), s.rod? u = some r →
    r.scoreboard.find? (fun p => p.value.isSome) = some p → p.value = some x →
    ∃ t, exec (.scoreboardWriteback u) s = .next t ∧
      t.rod? u = some { r.setS p.sreg x with scoreboard := r.scoreboard.erase p }) ∧
  (∀ (s : State) (u : Nat) (r : Rod), s.rod? u = some r → (r.timerDue = true ∨ r.timerEn = true ∧ r.timerCount = 0) →
    s.halted r.asid = false → r.handler = none → r.status = .ready →
    ((∀ w, s.fetched r = some w → r.interlocked w = false) → s.ctxHandler r.asid ≠ 0 → 24 ≤ r.s.length →
      ∃ t q, exec (.timerExpiry u) s = .next t ∧ t.rod? u = some q ∧ q.timerEn = (r.timerEn && decide (r.timerCount ≠ 0)) ∧
        q.timerDue = false ∧
        Entered (s.ctxHandler r.asid) r q 3 3 r.resume
          (if r.active.getLsbD r.resume then r.resume else lowestBit r.active 0) 0 0 r.pc) ∧
    ∀ w, s.fetched r = some w → r.interlocked w = true →
      ∃ t, exec (.timerExpiry u) s = .next t ∧ t.rod? u = some { r with
        timerEn := r.timerEn && decide (r.timerCount ≠ 0), timerDue := true }) ∧
  (∀ (s : State) (u c : Nat) (r : Rod), s.rod? u = some r → r.status = .held c → c ≤ s.clk.toNat →
    ∃ t, exec (.yieldHoldEnd u) s = .next t ∧ t.rod? u = some { r with status := .ready }) ∧
  (∀ (s : State) (u tk c : Nat) (r : Rod) (ls : List Nat) (hit full : Bool), s.rod? u = some r →
    r.status = .asleep (.waitv ls hit full) tk c →
    (∃ t, exec (.waitvMonitorWake u) s = .next t ∧ t.rod? u = some { r with status := .ready, resume := 0 }) ∧
    ∃ t, exec (.waitvSleepTimeout u) s = .next t ∧ t.rod? u = some { r with status := .ready, resume := 0 }) ∧
  (∀ (s : State) (u tk c scope : Nat) (r : Rod) (inv : Bool), s.rod? u = some r →
    r.status = .asleep (.flush scope inv) tk c →
    (∀ i ∈ s.inflight, i.rod ≠ u ∧ ∀ w ∈ i.bytes, (5 ≤ scope → field w.1 50 2 = 2 → field w.1 38 12 = s.endpoint) ∧
      (6 ≤ scope → field w.1 50 2 ≠ 1)) →
    (∀ l ∈ s.dirty, flushReaches scope r.core l = true → s.portDown (l * 128) = none) →
    ∃ t, exec (.flushWalkComplete u) s = .next t ∧ t.rod? u = some { r.advance with status := .ready } ∧ t.mem = s.mem ∧
      (∀ l, l ∈ t.dirty ↔ l ∈ s.dirty ∧ flushReaches scope r.core l = false) ∧
      (∀ x, x ∈ t.dieCopies ↔ x ∈ s.dieCopies ∧ (inv = true → flushReaches scope r.core x.line = false)) ∧
      t.volatile = if scope = 6 then [] else s.volatile) ∧
  (∀ (s : State) (u base len a : Nat) (r : Rod), s.rod? u = some r → r.status = .ready →
    codeIs s r.core r.asid r.pc.toNat base len → r.pc.toNat + 4 ≤ base + len →
    mapsTo s (some r.core) r.asid r.pc.toNat false a → s.damaged (a / 128 * 128) 128 = false →
    ∃ t, exec (.instructionCacheFill u) s = .next t ∧ t.rods = s.rods ∧ t.mem = s.mem ∧
      t.fetched r = some (BitVec.ofNat 32 (s.natAt (a / 128 * 128 + 4 * (r.pc.toNat % 128 / 4)) 4)))

/-- A walk that is under way ends in a valid leaf (R137, R138, R141, R142): its translation is cached, A and, for a
write, D are set in memory, and no rod waits for it any more.  A fault that its die's queue has room for becomes a
record of it, or merges into the unresolved record of its page (R153, R154).  The reply of the memory port to a revoked
access halts the context at the access's pc (R121, R136), and so does a stall of a rod, of an engine request or of a
committed line beyond its limit (R313). Open in the manual and the model's choice: assumptions 5, 51, 52, 63 and 81. -/
def Obligations.TranslationEventsComplete : Prop :=
  (∀ (s : State) (w : Walk) (a e bits : Nat), s.walksUnderWay = [w] → s.memoryCanonical →
    leafAt s (s.walkLook (tableOfSlice (tlbSliceOf w.asid 16 w.page)) w.asid) (65536 * w.page) ptLevels
      (s.ctxField w.asid 0 52) a e bits → (w.write = true → e.testBit 2 = true) →
    ∃ t, exec .pageWalkComplete s = .next t ∧ t.walks = s.walks.erase w ∧
      t.tlb.head? = some ⟨none, w.asid, 65536 * w.page / 2 ^ bits, bits, pteAddr e, field e 5 2, e.testBit 2, w.write || e.testBit 4⟩ ∧
      Memory.read t.mem a &&& 0x08 = 0x08 ∧ (w.write = true → Memory.read t.mem a &&& 0x10 = 0x10) ∧
      ∀ q ∈ t.rods, ∀ va kind k tk c, q.asid = w.asid → va / 65536 = w.page → q.status ≠ .asleep (.walk va kind k) tk c) ∧
  (∀ (s : State) (f : FaultRec) (fs : List FaultRec), s.faultWait = f :: fs →
    let same (x : FaultRec) : Bool := decide (x.asid = f.asid ∧ x.va / 65536 = f.va / 65536 ∧ x.kind = f.kind)
    (∀ b, s.faultRecs.find? same = none → s.memoryCanonical →
      let n := nth 0 s.recids f.homeDie
      s.sysEntry (0x40 + 8 * f.homeDie) = some b →
      (∀ x ∈ s.faultRecs, x.die = f.homeDie → x.recid % Config.faultRing ≠ n % Config.faultRing) →
      ∃ t, exec .faultRecordWrite s = .next t ∧ t.faultWait = fs ∧
        t.faultRecs = s.faultRecs ++ [{ f with die := f.homeDie, recid := n, merged := 0 }] ∧
        t.natAt (b + 32 * (n % Config.faultRing)) 6 = f.va % 2 ^ 48 ∧ t.rods.map Rod.uid = s.rods.map Rod.uid) ∧
    ∀ x, s.faultRecs.find? same = some x →
      ∃ t, exec .faultRecordWrite s = .next t ∧ t.faultWait = fs ∧
        { x with merged := min 65535 (x.merged + 1), who := x.who ++ f.who } ∈ t.faultRecs) ∧
  (∀ (s : State) (f : PortFault) (fs : List PortFault) (r : Rod), s.portFaults = f :: fs → s.rod? f.rod = some r →
    exec .portRevokedFault s = .next ({ s with portFaults := fs }.raiseHalt r.asid
      ⟨s.clk, 8, f.cause, f.pc, r.frameid, r.rodid, r.core, f.bead, f.info, 0, false, 0, 0, false⟩)) ∧
  (∀ (s : State) (u tk c va k : Nat) (why : Sleep) (r : Rod), s.rod? u = some r → r.status = .asleep why tk c →
    ((∃ page, why = .fabric page va k ∧ c + 2 ^ 21 ≤ s.clk.toNat) ∨ ∃ port n, why = .tier port va k n ∧ c + n ≤ s.clk.toNat) →
    exec (.stallTimeout (.rod u)) s = .next ((s.modRod u fun q => { q with status := .ready }).raiseHalt r.asid
      (haltOfRod s r 10 3 k va))) ∧
  (∀ (s : State) (i n : Nat) (w : FabricWait), s.fabricWaits[i]? = some w → w.began + n ≤ s.clk.toNat →
    ((∃ page, w.for_ = .page page ∧ n = 2 ^ 21) ∨ ∃ port, w.for_ = .port port n) →
    exec (.stallTimeout (.request i)) s = .next ({ s with fabricWaits := s.fabricWaits.erase w }.raiseHalt w.asid
      (haltOfEngine s w.core 10 3 w.va w.frameid))) ∧
  (∀ (s : State) (n a : Nat) (i : Inflight) (v : Byte) (bs : List (Nat × Byte)), s.inflight[n]? = some i →
    i.bytes = (a, v) :: bs →
    ((∃ page, s.barred a true = some (.page page) ∧ i.began + 2 ^ 21 ≤ s.clk.toNat) ∨
      ∃ port, s.barred a true = some (.port port) ∧ i.began + tierLimit (mtIn i.tags a) ≤ s.clk.toNat) →
    exec (.stallTimeout (.line n)) s = .next ({ s with inflight := s.inflight.erase i }.raiseHalt i.asid
      ⟨s.clk, 10, 3, i.pc, i.frameid, i.rodid, i.core, 0, BitVec.ofNat 48 (i.vaOf a), 0, false, 0, 0, false⟩))

/-- A frame whose rods have retired and whose work has finished is free, with its chains, and its launch's completion
word reads 1 once its last frame has retired (R38, R218, R272). A copying window whose turn it is lands its next cell
with the 16 bytes of its source (R176, R180), a dropped window is Free and the rods that dropped it go on (R182), and a
walk's next element joins its last cells (R186). A package copy engine runs the entry at CUR when it keeps the rules of
R188, then copies or fills it unit by unit, and at its end adds one to the sequence word and moves CUR on (R187 to
R189). Open in the manual and the model's choice: assumptions 9, 10, 77 and 80. -/
def Obligations.CopyEventsComplete : Prop :=
  ((∀ (s : State) (u : Nat) (f : Frame) (l : Launch), s.frame? u = some f → s.frameDone f = true → s.halted f.asid = false →
    rising s.slots → s.transfers = [] → (∀ c ∈ s.credits, c.reply ≠ some .granted) →
    s.launches.find? (fun l => decide (l.uid = f.launch)) = some l →
    (1 < l.left ∨ l.dw = false →
      ∃ t, exec (.frameRetire u) s = .next t ∧ t.frame? u = none ∧ (∀ c ∈ t.chains, c.frame ≠ u) ∧
        (l.left ≤ 1 → ∀ m ∈ t.launches, m.uid ≠ l.uid)) ∧
    ∀ (cap : Cap) (a : Nat), l.left ≤ 1 → l.dw = true → s.memoryCanonical → handleIs s l.asid l.doneh (some cap) →
      cap.v = true → cap.w = true → l.doneoff + 8 ≤ cap.hi.toNat → EngineReaches s ⟨none, l.asid, 0, ⟨Marks.none, []⟩⟩ cap l.doneoff 8 true a →
      ∃ t, exec (.frameRetire u) s = .next t ∧ t.frame? u = none ∧ t.natAt a 8 = 1) ∧
  (∀ (s : State) (u n : Nat) (f : Frame) (at_ : Nat → Nat), s.frame? u = some f → (f.window n).gather = none →
    s.hasTurn f n = true →
    let w := f.window n
    (∀ i < 16, EngineReads s ⟨some f.core, f.asid, 1, w.seen⟩ w.cap
      (w.off + w.landed / w.rowc * w.stride + 16 * (w.landed % w.rowc) + i) (at_ i)) →
    exec (.copyCellLand u n) s = .next (((s.serving f n).modWindow u n fun w =>
      { w with landed := w.landed + 1, st := if w.landed + 1 = w.rows * w.rowc then .filled else .copying }).writeCell f.core
        w.buf ((f.seg w.buf).base.toNat + w.cell + w.landed)
        (BitVec.ofNat 128 (natOfBytes ((List.range 16).map fun i => Memory.read s.mem (at_ i)))))) ∧
  (∀ (s : State) (u n : Nat) (f : Frame), s.frame? u = some f → (f.window n).st = .draining →
    ∃ t g, exec (.wdropComplete u n) s = .next t ∧ t.frame? u = some g ∧ g.window n = Window.empty ∧
      (∀ p, (f.window n).gather = some p → g.window p.partner = Window.empty) ∧
      ∀ q ∈ t.rods, ∀ tk c, q.frame = u → q.status ≠ .asleep (.wdrop n) tk c) ∧
  (∀ (s : State) (u n : Nat) (f : Frame) (g : Gather) (p : GatherPlan) (ca va : Nat → Nat), s.frame? u = some f →
    (f.window n).gather = some g → s.hasTurn f n = true → g.plan = some p → g.done ≠ p.m →
    let w := f.window n
    let col := p.ci + 4 * (p.p0 + g.done)
    let val := p.va + g.vw * (p.p0 + g.done)
    w.cap.lo.toNat ≤ col → col + 4 ≤ w.cap.hi.toNat → w.cap.lo.toNat ≤ val → val + g.vw ≤ w.cap.hi.toNat →
    (∀ i < 4, EngineReads s ⟨some f.core, f.asid, 2, w.seen⟩ w.cap (col + i) (ca i)) →
    (∀ i < g.vw, EngineReads s ⟨some f.core, f.asid, 2, w.seen⟩ w.cap (val + i) (va i)) →
    exec (.gatherElementLand u n) s = .next ((s.serving f n).landElement f n g p
      (natOfBytes ((List.range 4).map fun i => Memory.read s.mem (ca i)))
      (natOfBytes ((List.range g.vw).map fun i => Memory.read s.mem (va i)))))) ∧
  ((∀ (s : State) (n : Nat) (c : CopyEngine) (at_ : Nat → Nat) (src dst : Option Cap) (e : ChainEntry), s.copyEngine? n = some c →
    c.cur ≠ c.tail → c.stopped = false → c.running = none → c.fault = none → c.releasing = false →
    (∀ i < 64, EngineReads s c.client c.cap (c.cur + i) (at_ i)) →
    let x := natOfBytes ((List.range 64).map fun i => Memory.read s.mem (at_ i))
    handleIs s c.asid (field x 144 16) src → handleIs s c.asid (field x 128 16) dst → e.off = c.cur → EntryGood x c.cap src dst e →
    exec (.chainEntryStart n) s = .next (s.modEngine n fun c => { c with running := some e })) ∧
  (∀ (s : State) (n : Nat) (c : CopyEngine) (e : ChainEntry), s.copyEngine? n = some c → c.running = some e → c.fault = none →
    (∀ src dst : Nat → Nat, e.units < (e.len + 15) / 16 →
      (∀ i < min 16 (e.len - 16 * e.units), EngineReaches s c.client e.dst (e.doff + 16 * e.units + i) 1 true (dst i)) →
      (e.fill = none → ∀ i < min 16 (e.len - 16 * e.units),
        EngineReads s c.client e.src (e.soff + 16 * e.units + i) (src i)) →
      let y := s.pathWrites 1 .device [] (unitBytes e src dst s)
      exec (.chainEntryComplete n) s = .next (y.2.modEngine n fun c =>
        { c with running := some { e with units := e.units + 1 }, own := c.own.join y.1 })) ∧
    ∀ a, (e.len + 15) / 16 ≤ e.units → EngineReaches s c.client c.cap 0 8 true a →
      exec (.chainEntryComplete n) s = .next
        ((s.pathWriteNat 1 .device [(⟨.device, 4, c.own, []⟩ : Stamp).through (homeDieOf a) (s.fresh + 1)] a 8 (c.seq + 1).toNat).modEngine n fun y =>
          { y with seq := y.seq + 1, cur := e.next, running := none, own := y.own.join (Marks.at (homeDieOf a) (s.fresh + 1)) })))

/-! ### The carry network and the matrix engines -/

/-- The steps of the carry ports (R223 to R228, R233): a request for a slot that another reservation holds waits its turn;
a free slot with its cells at hand is held, the reservation goes on, its slots open, a credit is granted, the tile
leaves, it is added into its slot, and rods parked for the slot go on. Open in the manual and the model's choice:
assumption 47. -/
def Obligations.CarryEventsComplete : Prop :=
  (∀ (s : State) (u : Nat) (v : Resv) (q : Spec), s.resv? u = some v → v.specs[v.next]? = some q → v.stage = .request →
    (s.slot q.core q.slot).st = .held →
    exec (.slotReserveRequest u) s = .next ({ s with fresh := s.fresh + 1 }.modResv v fun v => { v with stage := .waiting s.fresh })) ∧
  (∀ (s : State) (u : Nat) (v : Resv) (q : Spec) (f g : Frame), s.resv? u = some v → v.specs[v.next]? = some q →
    (v.stage = .request ∧ s.resvWaiters q = [] ∨ ∃ t, v.stage = .waiting t ∧ ∀ k ∈ s.resvWaiters q, t ≤ k) →
    (s.slot q.core q.slot).st = .free → s.frame? v.frame = some f → s.ownerOn f q.core = .bound g →
    q.cell + q.size ≤ g.segC.limit.toNat → s.carryOwned q.core (g.segC.base.toNat + q.cell) q.size = false →
    (∀ t ∈ s.tasks, ∀ x af bf h, t.kind = .tile x af bf → s.frame? t.frame = some h →
      (h.range (recC x).1 (recC x).2.1 (recC x).2.2).meets (g.range 3 q.cell q.size) = false) →
    exec (.slotReserveRequest u) s = .next ((s.setSlot q.core q.slot
      { Slot.empty with
        st := .held, asid := v.asid, owner := v.core, chain := v.chain, rod := v.rod, frame := g.uid, cell := q.cell
        size := q.size, count := q.count, remain := q.count, fixed := v.fixed, x := v.x }).modResv v fun v =>
          { v with stage := .reply 0 })) ∧
  (∀ (s : State) (u : Nat) (v : Resv), s.resv? u = some v → v.stage = .reply 0 →
    exec (.reservationReply u) s = .next (s.modResv v fun v =>
      { v with next := v.next + 1, stage := if v.next + 1 < v.specs.length then .request else .opening })) ∧
  (∀ (s : State) (u : Nat) (v : Resv) (r : Rod), s.resv? u = some v → v.stage = .opening → s.rod? v.rod = some r →
    ∃ t, exec (.slotOpen u) s = .next t ∧ t.resvs = s.resvs.erase v ∧
      t.chains = s.chains ++ [⟨v.core, v.chain, v.asid, v.frame, v.specs.map fun q => (q.core, q.slot)⟩] ∧
      t.rod? v.rod = some (r.deliver v.dreg (BitVec.ofNat 64 (v.chain * 256))) ∧
      ∀ q ∈ v.specs, s.frame? (s.slot q.core q.slot).frame ≠ none → (t.slot q.core q.slot).st = .open_) ∧
  (∀ (s : State) (u : Nat) (c : Credit), s.credit? u = some c → c.reply = none →
    let x := s.slot c.dst c.slot
    x.st = .open_ → x.asid = c.asid → x.remain ≠ 0 → x.size = c.size →
    ∃ t, exec (.creditRequest u) s = .next t ∧ t.slot c.dst c.slot = { x with remain := x.remain - 1 } ∧
      t.credits = s.credits.map fun d => if d = c then { d with reply := some .granted } else d) ∧
  (∀ (s : State) (u : Nat) (c : Credit) (r : Rod), s.credit? u = some c → c.reply = some .granted → s.rod? u = some r →
    ∃ t, exec (.creditReply u) s = .next t ∧ t.credits = s.credits.erase c ∧
      t.transfers = s.transfers ++ [⟨c.core, c.frame, c.dst, c.slot, c.words⟩] ∧
      t.rod? u = some (r.served c.bead.isNone true) ∧
      ∀ q ∈ t.rods, ∀ tk n, q.core = c.core → q.status ≠ .asleep .sendBuffer tk n) ∧
  (∀ (s : State) (core slot : Nat) (m : Transfer) (ms : List Transfer) (g : Frame), s.granted core slot = m :: ms →
    (∀ n ∈ ms, n.core = m.core) →
    let x := s.slot core slot
    s.frame? x.frame = some g → x.st = .open_ →
    let ys : List (Dword × BitVec 16 × Conds) := addWords x (s.slotWords g x) x.guard m.words
    exec (.transferApply core slot) s = .next
      (((({ s with transfers := s.transfers.erase m }.setSlot core slot { x with
        applied := x.applied + 1, guard := if x.fixed then ys.map fun (y : Dword × BitVec 16 × Conds) => y.2.1 else []
        flags := ys.foldl (fun k (y : Dword × BitVec 16 × Conds) => k ||| y.2.2) x.flags }).putWords core (g.segC.base.toNat + x.cell)
          (ys.map Prod.fst)).settleSlot core slot).goOnSumfree)) ∧
  (∀ (s : State) (core dst slot u : Nat) (r : Rod) (p : Park), s.rod? u = some r → r.core = core → r.status = .parked p →
    p.cls = 2 → p.info.toNat % 256 = dst → p.info.toNat / 256 % 32 = slot → s.halted r.asid = false →
    ∃ t, exec (.slotWake core dst slot) s = .next t ∧ t.rod? u = some { r with status := .ready } ∧
      t.slotWakes = s.slotWakes.erase (core, dst, slot))

/-- The steps of the matrix engines and their governors (R202, R203, R206, R212 to R215, R322): the oldest eligible task
issues on a free engine that holds a grant, or the engine asks for one; the governor grants to the first that waits
while its count allows, and the core's task issues there; ramps end; a unit's sums enter the accumulators; C is
written in ascending order, a cycle's cells at a time, and then the done cell; an INFER's future is written; a burst
that has run its length ends; a hot board loses one grant, and regains
one that it lost for its die once the die is cool, or for its stack once that is. Open in the manual and the
model's choice: assumptions 11, 57 and 78. -/
def Obligations.MatrixEventsComplete : Prop :=
  (∀ (s : State) (core : Nat) (k : Task), (s.waitingTasks core).find? (fun t => decide (s.readiness t = .eligible)) = some k →
    (∀ t ∈ s.waitingTasks core, s.readiness t ≠ .refused) → s.engineTask core 0 = none →
    (s.engineMode core 0 = .idle →
      ∃ t, exec (.taskPick core) s = .next t ∧ t.tasks = s.tasks ∧ core * 2 ∈ (t.governor (core / 4)).waiting) ∧
    (s.engineMode core 0 = .granted →
      ∃ t, exec (.taskPick core) s = .next t ∧ ∃ q ∈ t.tasks, q.uid = k.uid ∧ q.phase = .running 0 0)) ∧
  (∀ (s : State) (board k : Nat) (ks : List Nat), (s.governor board).waiting = k :: ks → rising s.governors →
    s.grantsHeld board < s.grantCount board →
    ∃ t ls, exec (.governorGrant board) s = .next t ∧ (t.governor board).waiting = ks ++ ls ∧
      t.engineMode (k / 2) (k % 2) = .ramp (s.clk.toNat + 64) ∧
      ∀ x, (s.waitingTasks (k / 2)).find? (fun t => decide (s.readiness t = .eligible)) = some x → k % 2 = 0 →
        s.engineTask (k / 2) 0 = none → ∃ q ∈ t.tasks, q.uid = x.uid ∧ q.phase = .running 0 0) ∧
  (∀ (s : State) (core eng n : Nat), s.engineMode core eng = .ramp n →
    (∀ b, s.burst? core eng = some b → exec (.rampUpComplete core eng) s =
      .next ((s.setEngine core eng .granted).setBurst core eng (some { b with until_ := some (s.clk.toNat + b.len) }))) ∧
    (s.burst? core eng = none →
      (∀ k, s.engineTask core eng = some k → exec (.rampUpComplete core eng) s = .next (s.setEngine core eng .granted)) ∧
      (s.engineTask core eng = none → exec (.rampUpComplete core eng) s =
        .next ((s.setEngine core eng .granted).setEngine core eng (.down (s.clk.toNat + 34)))))) ∧
  (∀ (s : State) (core eng e n : Nat) (k : Task) (x : BitVec 256) (af bf : Nat) (ra rb : Range),
    s.engineTask core eng = some k → k.phase = .running e n → k.kind = .tile x af bf → k.src = [ra, rb] →
    let units := recMt x * recNt x
    let tile := n % units
    s.present (ra.panel af (recMt x) (n / units)) = true → s.present (rb.panel bf (recNt x) (n / units)) = true →
    let as := s.tileRows ra af (recMt x) (n / units) (tile / recNt x)
    let bs := s.tileRows rb bf (recNt x) (n / units) (tile % recNt x)
    let ys := unitSums ((k.acc.drop (4096 * tile)).take 4096) as.1 bs.1
    exec (.taskUnitComplete core eng) s = .next (s.modTask k.uid fun t => { t with
      acc := t.acc.take (4096 * tile) ++ ys.1 ++ t.acc.drop (4096 * tile + ys.1.length)
      flags := t.flags ||| as.2 ||| bs.2 ||| ys.2
      phase := if n + 1 = units * recKt x then .writing e 0 else .running e (n + 1) })) ∧
  (∀ (s : State) (core eng e n : Nat) (k : Task) (f : Frame) (x : BitVec 256) (af bf : Nat), s.engineTask core eng = some k →
    k.phase = .writing e n → k.kind = .tile x af bf → s.frame? k.frame = some f →
    let rate := if (recC x).1 = 3 then 64 else 32
    (n < recMt x * recNt x * 2048 → exec (.taskDoneWrite core eng) s =
      .next ((s.modTask k.uid fun t => { t with phase := .writing e (n + rate) }).writeCells f.core (recC x).1
        ((f.seg (recC x).1).base.toNat + (recC x).2.1 + n) (accCells ((k.acc.drop (2 * n)).take (2 * rate))))) ∧
    (recMt x * recNt x * 2048 ≤ n → exec (.taskDoneWrite core eng) s =
      .next ((s.dropTask k).writeCell f.core 0 (f.segS.base.toNat + recDone x)
        (doneCell s.clk (recField x 192 32) k.flags 0 (recKt x) 0)))) ∧
  (∀ (s : State) (core eng e n : Nat) (k : Task) (f : Frame) (future desc input nw inw : Nat), s.engineTask core eng = some k →
    k.phase = .running e n → k.kind = .infer future desc input nw inw → s.frame? k.frame = some f →
    s.descBad f desc nw inw = false →
    let y := s.layers f (s.descLayerCells f desc) (halves (s.rangeNat (f.range 0 input (4 * inw))) (32 * inw))
    let cells := halfCells (8 * nw) y.1
    let first := f.segS.base.toNat + future
    exec (.inferComplete core eng) s = .next (((s.writeCells f.core 0 (first + 1) (cells.drop 1)).writeCells f.core 0 first
      (cells.take 1)).dropTask { k with flags := k.flags ||| y.2 })) ∧
  (∀ (s : State) (core eng n : Nat), s.engineMode core eng = .down n →
    exec (.grantReturn core eng) s = .next (s.setEngine core eng .idle)) ∧
  (∀ (s : State) (core eng : Nat) (b : Burst), eng < 2 → s.burst? core eng = some b →
    ∃ t, exec (.burstEnd core) s = .next t ∧ t.tasks = s.tasks ∧
      t.burst? core eng = if ∃ n, b.until_ = some n ∧ n ≤ s.clk.toNat then none else some b) ∧
  (∀ (s : State) (board : Nat),
    let g := s.governor board
    let temps := s.boardTemps board
    g.hotAt + 21000000 ≤ s.clk.toNat →
    (2 < s.grantCount board → (100 ≤ temps.1 ∨ 95 ≤ temps.2) →
      ∃ t, exec (.grantCountAdjust board) s = .next t ∧ t.grantCount board = s.grantCount board - 1) ∧
    (temps.1 < 100 → temps.2 < 95 → s.powerAbove s.config.powercap 100 = false →
      (0 < g.dieHot ∧ temps.1 < 95 ∨ 0 < g.stackHot ∧ temps.2 < 90) → g.dieHot + g.stackHot + g.capped ≤ s.config.gb →
      ∃ t, exec (.grantCountAdjust board) s = .next t ∧ t.grantCount board = s.grantCount board + 1))

/-! ### Rings, halts and pre-emption -/

/-- The operations of the command ring, each taken from its head and completed with status 0 (R154, R187, R287, R297, R307,
R308): RESOLVE with RETRY replays a rod parked on the record, and with FAIL hands it to its handler; DELIVER hands a rod
parked by a page, a carry or a call to its handler; ASSIGN_ENGINE binds a copy engine and writes VAL to its sequence word;
RELEASE_ENGINE frees one with no running entry, and waits for a running one; SET_GROUP copies the group record, or removes
it. A shoot-down of a context without committed or tentative lines: no translation of a page of its range, no entry of its
handle, or nothing of its context is cached any more, and the context's monitors wake (R143, R144, R172); lines within its
range leave the rods, wherever their translations are (R144). A reply to an UPCALL with status 0: its bytes are in the
destination of the rod that waits for it, and the rod goes on (R292, R309). Open in the manual and the model's choice:
assumptions 28, 29, 34, 53, 64, 77 and 82. -/
def Obligations.RingsComplete : Prop :=
  ((∀ (s : State) (h val die recid seq u : Nat) (rec : BitVec 256) (x : FaultRec) (r : Rod) (p : Park),
    commandHolds s h rec ⟨1, 0, val, 0, 0, 0, 0, 0, die, recid, seq, 0⟩ →
    s.faultRecs.find? (fun y => decide (y.die = die ∧ y.recid = recid)) = some x → x.die = die → x.recid = recid →
    x.who = [.rod u] → s.rod? u = some r → r.status = .parked p → p.cls = 1 → p.record = some (die, recid) →
    s.halted r.asid = false →
    (val = 0 → ∃ t, exec (.resolve rec) s = .next (completing t 0x28 (2 ^ 32 * seq)) ∧ x ∉ t.faultRecs ∧
      t.rod? u = some { r.restore with status := .ready, peeked := [] }) ∧
    (val = 1 → r.handler = none → 24 ≤ r.s.length → (ringTaken s h).ctxHandler r.asid ≠ 0 →
      ∃ t q, exec (.resolve rec) s = .next (completing t 0x28 (2 ^ 32 * seq)) ∧ x ∉ t.faultRecs ∧ t.rod? u = some q ∧
        Entered ((ringTaken s h).ctxHandler r.asid) r.restore q 1 p.cause 0 (lowestBit r.restartCtl.active 0) p.info.toNat 0
          r.restart)) ∧
  (∀ (s : State) (h asid core slot seq : Nat) (rec : BitVec 256) (r : Rod) (p : Park),
    commandHolds s h rec ⟨2, 0, 0, 0, asid, core, slot, 0, 0, 0, seq, 0⟩ →
    s.rods.find? (fun r => decide (r.asid = asid ∧ r.core = core ∧ r.slotIndex = slot)) = some r →
    (∀ q ∈ s.rods, q.uid = r.uid → q = r) → r.status = .parked p → r.handler = none → s.halted r.asid = false →
    24 ≤ r.s.length → (ringTaken s h).ctxHandler r.asid ≠ 0 → (p.cls = 1 ∨ p.cls = 2 ∨ p.cls = 4) →
    ∃ t q, exec (.deliver rec) s = .next (completing t 0x28 (2 ^ 32 * seq)) ∧ t.rod? r.uid = some q ∧
      let handler := (ringTaken s h).ctxHandler r.asid
      (p.cls = 1 → Entered handler r.restore q 1 p.cause 0 (lowestBit r.restartCtl.active 0) p.info.toNat 0 r.restart) ∧
      (p.cls = 2 → Entered handler r q 2 p.cause (p.bead.getD 0) (p.bead.getD (lowestBit r.active 0)) p.info.toNat 0 r.pc) ∧
      (p.cls = 4 → Entered handler r q 4 p.cause 0 (lowestBit r.active 0) p.info.toNat 0 r.pc)) ∧
  (∀ (s : State) (h val hidx asid eng seq a : Nat) (rec : BitVec 256) (cap : Cap),
    commandHolds s h rec ⟨3, 0, val, hidx, asid, 0, 0, eng, 0, 0, seq, 0⟩ → eng < 24 → s.copyEngine? eng = none →
    s.memoryCanonical → handleIs (ringTaken s h) asid hidx (some cap) → cap.v = true → cap.e = true → cap.w = true → cap.lo = 0 →
    128 ≤ cap.hi.toNat → EngineReaches (ringTaken s h) ⟨none, asid, 0, ⟨Marks.none, []⟩⟩ cap 0 64 true a →
    s.damaged a 64 = false → (ringTaken s h).natAt (a + 8) 56 = 0 →
    ∃ t, exec (.assignEngine rec) s = .next (completing t 0x28 (2 ^ 32 * seq)) ∧ t.natAt a 8 = val ∧
      t.copyEngine? eng =
        some ⟨eng, asid, cap, 64, 64, BitVec.ofNat 64 val, none, false, Marks.none, ⟨Marks.none, []⟩, none, false⟩) ∧
  (∀ (s : State) (h asid eng seq : Nat) (rec : BitVec 256) (e : CopyEngine),
    commandHolds s h rec ⟨4, 0, 0, 0, asid, 0, 0, eng, 0, 0, seq, 0⟩ → eng < 24 → s.copyEngine? eng = some e → e.asid = asid →
    (e.running = none → ∃ t, exec (.releaseEngine rec) s = .next (completing t 0x28 (2 ^ 32 * seq)) ∧ t.copyEngine? eng = none) ∧
    (e.running ≠ none → exec (.releaseEngine rec) s = .next (s.modEngine eng fun e => { e with releasing := true }))) ∧
  (∀ (s : State) (h addr asid seq : Nat) (rec : BitVec 256),
    commandHolds s h rec ⟨5, addr, 0, 0, asid, 0, 0, 0, 0, 0, seq, 0⟩ →
    let x := (ringTaken s h).natAt addr 32
    (addr = 0 → ∃ t c, exec (.setGroup rec) s = .next (completing t 0x28 (2 ^ 32 * seq)) ∧ t.ctx? asid = some c ∧ c.group = none) ∧
    (addr ≠ 0 → physBad addr = false → ¬ (field addr 50 2 = 2 ∧ field addr 38 12 = s.endpoint) →
      (ringTaken s h).barred addr false = none →
      field x 208 48 = 0 → field x 0 64 = 0 → field x 96 16 ≠ 0 → field x 112 48 % 8 = 0 →
      ∃ t c, exec (.setGroup rec) s = .next (completing t 0x28 (2 ^ 32 * seq)) ∧ t.ctx? asid = some c ∧
        c.group = some (BitVec.ofNat 256 x)))) ∧
  ((∀ (s : State) (h : Nat) (rec : BitVec 128) (x : Shoot), ringHolds s 0 2 h rec.toNat → Shoot.ofNat rec.toNat = x →
    x.reserved = 0 → (x.obj = true → x.vpn < 2 ^ 24) → (x.count ≠ 0 ∨ x.all = true ∨ x.obj = true) →
    (∀ r ∈ s.rods, r.asid = x.asid → r.tent = []) → (∀ i ∈ s.inflight, i.asid ≠ x.asid) →
    ∃ t, exec (.shootdown rec) s = .next (completing t 0x08 x.seq) ∧
      (x.all = false → x.obj = false → ∀ e ∈ t.tlb, e.asid = x.asid →
        (e.vpn + 1) * 2 ^ e.bits ≤ x.vpn * 65536 ∨ (x.vpn + x.count) * 65536 ≤ e.vpn * 2 ^ e.bits) ∧
      (x.all = false → x.obj = true → ∀ o ∈ t.objCache, ¬ (o.asid = x.asid ∧ o.handle = x.vpn)) ∧
      (x.all = true → (∀ e ∈ t.tlb, e.asid ≠ x.asid) ∧ (∀ w ∈ t.walkCache, w.asid ≠ x.asid) ∧ ∀ o ∈ t.objCache, o.asid ≠ x.asid) ∧
      ∀ (u tk c : Nat) (r : Rod) (ls : List Nat) (hit full : Bool), s.rod? u = some r → r.asid = x.asid →
        r.status = .asleep (.waitv ls hit full) tk c →
        t.rod? u = some { r with status := .ready, resume := 0 }) ∧
  (∀ (s : State) (h u : Nat) (l : LineTag) (rec : BitVec 128) (x : Shoot) (r : Rod), ringHolds s 0 2 h rec.toNat →
    Shoot.ofNat rec.toNat = x → x.reserved = 0 → (x.obj = true → x.vpn < 2 ^ 24) → (x.count ≠ 0 ∨ x.all = true ∨ x.obj = true) →
    s.rod? u = some r → r.asid = x.asid → l ∈ r.tags →
    (x.all = true ∨ x.obj = true ∧ l.handle = x.vpn ∨
      x.obj = false ∧ x.vpn ≤ l.va / 65536 ∧ l.va / 65536 < x.vpn + x.count) →
    ∃ t, exec (.shootdown rec) s = .next t ∧ ∀ q, t.rod? u = some q → q.tent = []) ∧
  (∀ (s : State) (h x : Nat) (r : Rod) (msg : BitVec 4096) (k : Park) (call : Call), s.sysEntry 0x30 = some h →
    let q := s.queueAt h
    q.messageRing = true → 2 ≤ q.count →
    s.natAt (h + q.recordAt q.head) 256 + 2 ^ 2048 * s.natAt (h + q.recordAt (q.head + 1)) 256 = x → msg.toNat = x →
    s.rods.find? (fun r => r.awaitsReply x) = some r →
    s.halted r.asid = false → r.status = .parked k → k.cls = 4 → k.call = some call → field x 116 8 = 0 →
    ∃ t view, exec (.upcallReply msg) s = .next t ∧
      t.rod? r.uid = some ({ r.takeReply call.u call.d x with status := .ready, view := view } : Rod).advance.openRegion))

/-- A well-formed save or restore request is taken from its ring, and a malformed one receives status 4 (R299). A save
begins where the area has room, and receives status 1 elsewhere; its engines settle once its rods have reached save
points; and once they have settled it keeps a block for every frame it concerns, and none of them is bound any more
(R299 to R301). A restore whose blocks memory holds well formed binds one that fits (R303), unless the context is malformed
or a claim holds room (R269, R280): on an idle device a frame of one rod is bound with the rod's registers and pc; a restore
with nothing left to bind is done. Open in the manual and the model's choice: assumptions 3, 8, 42, 65 and 69. -/
def Obligations.PreemptionComplete : Prop :=
  (∀ (s : State) (h : Nat) (rec : BitVec 256), ringHolds s 0x10 4 h rec.toNat → (∀ v ∈ s.saving, v.record ≠ rec) →
    let q := SaveReq.ofNat rec.toNat
    let t := if q.reserved = 0 ∧ q.op < 2 then
        { ringTaken s h with saving := s.saving ++ [⟨rec, q.asid, if q.all then none else some q.core, false, false⟩] }
      else completing (ringTaken s h) 0x18 (2 ^ 32 * q.seq + 4)
    (q.op ≠ 1 → exec (.saveRequest rec) s = .next t) ∧ (q.op = 1 → exec (.restoreRequest rec) s = .next t)) ∧
  ((∀ (s : State) (rec : BitVec 256) (v : Saving) (ws : List Saving), s.saving = v :: ws → v.record = rec → v.req.op = 0 →
    s.halted v.asid = false →
    (v.begun = false → exec (.saveRequest rec) s = .next
      (if v.req.saveEnd < (((s.frames.filter fun f => v.concerns f.core f.asid).map s.saveBound).sum) then
        completing { s with saving := ws } 0x18 (2 ^ 32 * v.req.seq + 1)
      else s.modSaving v { v with begun := true })) ∧
    (v.begun = true → v.settling = false → (∀ r ∈ s.rods, v.concerns r.core r.asid = true → r.atSavePoint = true) →
      (∀ c ∈ s.conts, v.concerns c.core c.asid = true → c.result ≠ none) →
      exec (.saveRequest rec) s = .next (s.modSaving v { v with settling := true }))) ∧
  (∀ (s : State) (rec : BitVec 256) (v : Saving) (ws : List Saving), s.saving = v :: ws → v.record = rec → v.req.op = 0 →
    s.halted v.asid = false → v.begun = true → v.settling = true → s.inflight = [] → s.resvs = [] → s.transfers = [] →
    s.credits = [] → (∀ t ∈ s.tasks, t.phase = .queued) → (∀ c ∈ s.conts, c.result ≠ none) →
    (∀ p ∈ s.slots, p.2.st ≠ .held) → (∀ r ∈ s.rods, r.tent = [] ∧ r.scoreboard = []) →
    (∀ f ∈ s.frames, ∀ w ∈ f.windows, w.st ≠ .draining) → (∀ x < 2 ^ 48, ∃ a, mapsTo s none v.asid x true a) →
    ∃ t, exec (.saveRequest rec) s = .next (completing t 0x18 (2 ^ 32 * v.req.seq)) ∧ t.saving = ws ∧
      (∀ f ∈ t.frames, v.concerns f.core f.asid = false) ∧
      ∀ f ∈ s.frames, v.concerns f.core f.asid = true →
        (∃ b ∈ t.saved, b.frame.uid = f.uid) ∧ ∀ r ∈ t.rods, r.frame ≠ f.uid)) ∧
  (∀ (s : State) (rec : BitVec 256) (v : Saving) (ws : List Saving), s.saving = v :: ws → v.record = rec → v.req.op = 1 →
    s.halted v.asid = false →
    ((∀ b ∈ s.saved, v.concerns b.frame.core b.frame.asid = false) →
      (∃ b ∈ s.saved, b.frame.asid = v.asid) ∨ (∀ i < 4, ∃ a, engineMaps s v.asid (s.freeWord v.asid + 2 * i) true a) →
      ∃ t, exec (.restoreRequest rec) s = .next (completing t 0x18 (2 ^ 32 * v.req.seq)) ∧ t.saving = ws) ∧
    (∀ (s1 t : State) (bs : List SaveBlock),
      s.readBlocks (s.saved.filter fun b => v.concerns b.frame.core b.frame.asid) = (.ok (bs, false), s1) →
      s1.servable v.asid = true → s1.claimHeld = false → bs.findSome? (s1.restoreBlock bs) = some t →
      (t.areaFaults v.asid (t.restoreWrites bs)).1 = none →
      exec (.restoreRequest rec) s = .next (t.areaFaults v.asid (t.restoreWrites bs)).2) ∧
    ∀ (b : SaveBlock) (x : SavedRod), s.saved = [b] → v.concerns b.frame.core b.frame.asid = true →
      s.readBlocks [b] = (.ok ([b], false), s) → s.servable v.asid = true → s.claimHeld = false →
      (∀ c ∈ s.conts, c.frame ≠ b.frame.uid) →
      s.frames = [] → s.rods = [] → s.tasks = [] → s.chains = [] → s.heldReplies = [] → b.rods = [x] → x.stack = [] →
      x.rod.handler = none → x.rod.continued = false → x.rod.nbeads * x.rod.alloc ≤ Config.laneWords → b.stops = [] → b.slots = [] →
      b.conts = [] → b.tasks.length ≤ 64 → b.frame.gang = false → b.frame.windows.length ≤ 32 →
      b.frame.segS.limit.toNat ≤ bufferCells 0 → b.frame.segW.limit.toNat ≤ bufferCells 1 →
      b.frame.segA.limit.toNat ≤ bufferCells 2 → b.frame.segC.limit.toNat ≤ bufferCells 3 →
      ∃ t, exec (.restoreRequest rec) s = .next t ∧ t.saved = [] ∧ (∃ g ∈ t.frames, g.uid = b.frame.uid ∧ g.asid = b.frame.asid) ∧
        ∃ q ∈ t.rods, q.uid = x.rod.uid ∧ q.frame = x.rod.frame ∧ q.pc = x.rod.pc ∧ q.beads = x.rod.beads ∧ q.s = x.rod.s ∧
          q.c = x.rod.c ∧ q.mode = x.rod.mode ∧ q.active = x.rod.active)

/-- The engine requests of a halted context end (R193, R216, R235, R268, R293): none of its windows copies any more, nor a
walk fills one; its tasks, reservations, credits, waits and bursts are gone; its package copy engines run nothing; its slots
are open or away no more, and nothing is on its way to those that were; its units' records stay as they are, and the units
work on none. Each request that stops writes its stop record and NSTOPS, here for each kind on its own: a window copy, a
walk, whose index cell 0 tells what is written, a chain, and a carry slot (R193, R194, R295). Then, and once no FENCE of the
context waits for a page or port of its lines (R364), its record is complete, and nothing of it is bound (R294, R295), and
before that nothing happens. A token for the group of a context that is not halted halts it with class 12 and counts, one
that comes before the record is complete counts, and any other is dropped (R298). Open in the manual and the model's choice:
assumptions 7 and 41. -/
def Obligations.HaltsComplete : Prop :=
  (∀ (s : State) (asid : Nat) (h : Halt), s.halt? asid = some h → h.complete = false →
    (s.frames.map Frame.uid).Nodup → rising s.slots →
    ∃ t, exec (.engineHaltStop asid) s = .next t ∧
      (∀ f ∈ t.frames, f.asid = asid → ∀ w ∈ f.windows, w.st ≠ .copying ∧ w.st ≠ .draining) ∧
      (∀ k ∈ t.tasks, k.asid ≠ asid) ∧ (∀ v ∈ t.resvs, v.asid ≠ asid) ∧ (∀ c ∈ t.credits, c.asid ≠ asid) ∧
      (∀ w ∈ t.fabricWaits, w.asid ≠ asid) ∧ (∀ b ∈ t.bursts, b.asid ≠ asid) ∧
      (∀ c ∈ t.copyEngines, c.asid = asid → c.stopped = true ∨ c.running = none ∧ c.cur = c.tail) ∧
      (∀ p ∈ t.slots, p.2.asid = asid → p.2.st ≠ .open_ ∧ p.2.st ≠ .away) ∧
      (∀ p ∈ s.slots, p.2.asid = asid → p.2.st = .open_ ∨ p.2.st = .away →
        ∀ m ∈ t.transfers, ¬ (m.dst = p.1 / 32 ∧ m.slot = p.1 % 32)) ∧
      t.conts = (s.conts.map fun c => if c.asid = asid then { c with fault := none } else c) ∧
      (∀ c ∈ t.conts, c.asid = asid → t.cont? c.uid = some c → exec (.textureResult c.uid) t = .next t ∧
        exec (.traceResult c.uid) t = .next t ∧ exec (.marchResult c.uid) t = .next t)) ∧
  (∀ (s : State) (asid n a b : Nat) (h : Halt) (c : Ctx), s.ctx? asid = some c → c.halt = some h → h.complete = false →
    c.nstops = n → asid < 1024 → s.memoryCanonical → engineMaps s asid (s.stopArea asid + 128 + 32 * (n % 32764)) true a →
    engineMaps s asid (s.stopArea asid + 64) true b → (a + 32 ≤ b ∨ b + 8 ≤ a) → s.resvs = [] → s.credits = [] →
    (∀ r ∈ s.rods, ∀ tk k, r.status ≠ .asleep .sumfree tk k) →
    let stops (t : State) (x : Nat) : Prop := exec (.engineHaltStop asid) s = .next t ∧ t.natAt a 32 = x ∧ t.natAt b 8 = (n + 1) % 2 ^ 64 ∧
      t.halt? asid = some { h with nstop := h.nstop + 1 } ∧ ∃ d, t.ctx? asid = some d ∧ d.nstops = n + 1
    (∀ (f : Frame) (k : Nat), s.frames = [f] → f.asid = asid → k < f.windows.length → f.core < 256 → k < 256 →
      (∀ i, (f.window i).st = .copying ∨ (f.window i).st = .draining → i = k) → (f.window k).st = .copying →
      (f.window k).landed < 2 ^ 48 → (f.window k).gather = none →
      (∀ e ∈ s.copyEngines, e.asid ≠ asid) → (∀ p ∈ s.slots, p.2.asid ≠ asid) →
      ∃ t, stops t (stopRecord 1 0 k f.core f.frameid.toNat 0 0 (f.window k).landed asid)) ∧
    (∀ (f : Frame) (k m : Nat) (g : Gather), s.frames = [f] → f.asid = asid → k < f.windows.length → m < f.windows.length →
      k ≠ m → f.core < 256 → k < 256 →
      (∀ i, (f.window i).st = .copying ∨ (f.window i).st = .draining → i = k ∨ i = m) → (f.window k).st = .copying →
      (f.window k).gather = some g → g.index = true → g.partner = m → (f.window k).buf = 0 →
      (∃ y, (f.window m).gather = some y ∧ y.index = false ∧ y.partner = k ∧ { g with index := y.index, partner := y.partner } = y) →
      (f.window m).st = .copying → g.done < 2 ^ 32 → s.tasks = [] →
      (∀ r ∈ s.rods, r.asid = asid) →
      (∀ e ∈ s.copyEngines, e.asid ≠ asid) → (∀ p ∈ s.slots, p.2.asid ≠ asid) →
      ∃ t, stops t (stopRecord 2 0 k f.core f.frameid.toNat 0 0 g.done asid) ∧
        let z := t.cell f.core 0 (f.segS.base.toNat + (f.window k).cell)
        z.present = true ∧ field z.data.toNat 32 32 = g.done ∧ field z.data.toNat 64 32 = 0) ∧
    (∀ (e : CopyEngine), (∀ f ∈ s.frames, f.asid ≠ asid) → s.copyEngines = [e] → e.asid = asid → e.stopped = false →
      (e.running ≠ none ∨ e.cur ≠ e.tail) → (∀ p ∈ s.slots, p.2.asid ≠ asid) → e.engine < 256 → e.cur < 2 ^ 48 →
      (∀ x, e.running = some x → x.units < 2 ^ 48) →
      ∃ t, stops t (stopRecord 3 0 e.engine 0 0 e.seq.toNat e.cur ((e.running.map ChainEntry.units).getD 0) asid)) ∧
    ∀ (k : Nat) (x : Slot) (f : Frame), (∀ g ∈ s.frames, g.asid ≠ asid ∨ ∀ w ∈ g.windows, w.st ≠ .copying ∧ w.st ≠ .draining) →
      (∀ e ∈ s.copyEngines, e.asid ≠ asid) → s.slots = [(k, x)] → x.asid = asid → (x.st = .open_ ∨ x.st = .away) →
      s.frame? x.frame = some f → k < 8192 → x.count < 2 ^ 64 → x.applied < 2 ^ 48 →
      let lost := (s.transfers.filter fun m => decide (m.dst = k / 32 ∧ m.slot = k % 32)).length
      x.discarded + lost < 2 ^ 48 →
      ∃ t, stops t (stopRecord 4 0 (k % 32) (k / 32) f.frameid.toNat x.count (x.discarded + lost) x.applied asid) ∧
        t.slots = [(k, { x with st := .dead, discarded := x.discarded + lost })]) ∧
  (∀ (s : State) (asid : Nat) (c : Ctx) (h : Halt), s.ctx? asid = some c → c.halt = some h → h.complete = false →
    (s.enginesAtWork asid = true ∨ s.fenceBarred asid = true → exec (.haltRecordWrite asid) s = .next s) ∧
    (s.enginesAtWork asid = false → s.fenceBarred asid = false →
    ∃ t, exec (.haltRecordWrite asid) s = .next t ∧ t.halt? asid = some { h with complete := true } ∧
      (∀ r ∈ t.rods, r.asid ≠ asid) ∧ (∀ f ∈ t.frames, f.asid ≠ asid) ∧ (∀ l ∈ t.launches, l.asid ≠ asid) ∧
      (c.group = none → s.inflight = [] → s.memoryCanonical →
        ∀ a, mapsTo s none asid ((s.ctxSaveBase asid + 32 * 2 ^ 20) % 2 ^ 48) true a →
        t.natAt a 64 = h.toNat asid (c.tokenStep.getD (-1))))) ∧
  (∀ (s : State) (asid group : Nat) (step : BitVec 64) (origin : BitVec 19) (c : Ctx), s.ctx? asid = some c →
    (c.group.all (fun g => decide (g.toNat / 2 ^ 64 % 2 ^ 32 ≠ group)) = true ∨ (∃ h, c.halt = some h ∧ h.complete = true) →
      exec (.abortTokenReceive asid group step origin) s = .next s) ∧
    ∀ g : BitVec 256, c.group = some g → g.toNat / 2 ^ 64 % 2 ^ 32 = group →
      let least := some (if step.toNat ≤ (c.tokenStep.getD (-1)).toNat then step else c.tokenStep.getD (-1))
      (c.halt = none →
        ∃ t, exec (.abortTokenReceive asid group step origin) s = .next t ∧ t.mem = s.mem ∧
          t.ctx? asid = some { c with
            tokenStep := least, halt := some ⟨s.clk, 12, 0, 0, 0, 0, 0, 0, 0, origin, true, 0, 0, false⟩ } ∧
          t.rods = s.rods.map fun r => if r.asid = asid ∧ r.stalls = false then { r with tent := [], tags := [] } else r) ∧
      ∀ h, c.halt = some h → h.complete = false →
        ∃ t, exec (.abortTokenReceive asid group step origin) s = .next t ∧ t.ctx? asid = some { c with tokenStep := least } ∧
          t.rods = s.rods ∧ t.mem = s.mem)

/-! ### The units, the dispatch cores and the world outside -/

/-- The sampler puts its four words, the traversal unit and the march unit their eight, into the record that they work on
(R251, R255, R261, R265). A fetch gives its texel, or zeros outside the image; at an explicit level of an image without
levels the nearest texel or the four around the position, weighted (R250, R251); the level and the probe count are those of
R249. A trace of a root with one leaf enters its box exactly where the ray meets it, and gives the closest of the exact
hits, or a miss (R259 to R262); an invalid ray gives status 3 or kind 5. A march makes one step at a time: a ray that runs
beside the grid misses it, the step limit ends it, a bad majorant is invalid, a cell of majorant zero is left without a
draw, and a collision is accepted or rejected by its density (R265, R267). Ready records that have waited form a rod at
their resume address (R39, R255). The rasteriser pops the record at the head of its draw queue, drops an entry that names no
draw state or is degenerate, and reports reserved fields; and a triangle of the fixed path raises the visibility key of each
covered sample (R238, R240, R244, R285). Open in the manual and the model's choice: assumptions 14, 15, 16 and 30. -/
def Obligations.UnitEventsComplete : Prop :=
  ((∀ (s : State) (c : ContRec) (ctl : Nat) (cap : Cap) (image sampler : BitVec 128) (ops : List Word) (k : Nat)
    (quad : List (Option (Word × Word))), atWork s c → c.req = .tex ctl cap image sampler ops k quad →
    let i := Image.ofNat image.toNat
    unitReads s c cap i.off (i.off + i.extent) →
    ∃ ws, ws.length = 4 ∧ exec (.textureResult c.uid) s = .next (s.putResult c ws)) ∧
  (∀ (s : State) (c : ContRec) (cap : Cap) (image sampler : BitVec 128) (ops : List Word) (k : Nat)
    (quad : List (Option (Word × Word))) (at_ : Nat → Nat), atWork s c → c.req = .tex 4 cap image sampler ops k quad →
    let i := Image.ofNat image.toNat
    let x := (ops.getD 0 0).toNat
    let y := (ops.getD 1 0).toNat
    let l := (ops.getD 2 0).toNat
    (i.lvm1 < l ∨ (i.size l).1 ≤ x ∨ (i.size l).2 ≤ y →
      exec (.textureResult c.uid) s = .next (s.putResult c [0, 0, 0, 0])) ∧
    (l ≤ i.lvm1 → x < (i.size l).1 → y < (i.size l).2 →
      (∀ b < i.texelBytes, EngineReads s c.client cap (i.off + i.levelAt l + (y * (i.size l).1 + x) * i.texelBytes + b) (at_ b)) →
      let v := natOfBytes ((List.range i.texelBytes).map fun b => Memory.read s.mem (at_ b))
      exec (.textureResult c.uid) s = .next (s.putResult c
        ((i.channels v).map fun ch => filtered (if i.fmtt = 0 then 255 else 1) [(1, ch)])))) ∧
  (∀ (s : State) (c : ContRec) (cap : Cap) (image sampler : BitVec 128) (ops : List Word) (k x y : Nat) (u v : Rat)
    (quad : List (Option (Word × Word))) (at_ : Nat → Nat), atWork s c → c.req = .tex 2 cap image sampler ops k quad →
    let i := Image.ofNat image.toNat
    let p := Sampler.ofNat sampler.toNat
    i.fmtt = 0 → p.mip = 0 → p.min = false → p.mag = false → wordIs (ops.getD 0 0) u → wordIs (ops.getD 1 0) v →
    |u| ≤ 2 ^ 24 → |v| ≤ 2 ^ 24 → texelIndex p.addrU i.w ⌊u * i.w⌋ x → texelIndex p.addrV i.h ⌊v * i.h⌋ y →
    (∀ b < 4, EngineReads s c.client cap (i.off + 4 * (y * i.w + x) + b) (at_ b)) →
      ∃ ws, exec (.textureResult c.uid) s = .next (s.putResult c ws) ∧ ws.length = 4 ∧
        ∀ b < 4, nearestWord ((Memory.read s.mem (at_ b)).toNat / 255) (ws.getD b 0)) ∧
  (∀ (s : State) (c : ContRec) (cap : Cap) (image sampler : BitVec 128) (ops : List Word) (k x0 x1 y0 y1 : Nat) (u v : Rat)
    (quad : List (Option (Word × Word))) (at_ : Nat → Nat → Nat → Nat), atWork s c → c.req = .tex 2 cap image sampler ops k quad →
    let i := Image.ofNat image.toNat
    let p := Sampler.ofNat sampler.toNat
    let m := ⌊256 * (u * i.w - 1 / 2)⌋
    let n := ⌊256 * (v * i.h - 1 / 2)⌋
    i.fmtt = 0 → p.mip = 0 → p.min = true → p.mag = true → wordIs (ops.getD 0 0) u → wordIs (ops.getD 1 0) v →
    |u| ≤ 2 ^ 24 → |v| ≤ 2 ^ 24 → texelIndex p.addrU i.w (m / 256) x0 → texelIndex p.addrU i.w (m / 256 + 1) x1 →
    texelIndex p.addrV i.h (n / 256) y0 → texelIndex p.addrV i.h (n / 256 + 1) y1 →
    (∀ x y, x = x0 ∨ x = x1 → y = y0 ∨ y = y1 →
      ∀ b < 4, EngineReads s c.client cap (i.off + 4 * (y * i.w + x) + b) (at_ x y b)) →
      let a : Rat := (m % 256 : Int)
      let g : Rat := (n % 256 : Int)
      let e (x y b : Nat) : Rat := (Memory.read s.mem (at_ x y b)).toNat
      ∃ ws, exec (.textureResult c.uid) s = .next (s.putResult c ws) ∧ ws.length = 4 ∧
        ∀ b < 4, nearestWord (((256 - a) * (256 - g) * e x0 y0 b + a * (256 - g) * e x1 y0 b + (256 - a) * g * e x0 y1 b +
          a * g * e x1 y1 b) / (65536 * 255)) (ws.getD b 0)) ∧
  ∀ (ctl : Nat) (i : Image) (p : Sampler) (quad : List (Option (Word × Word))) (operand : Word), ctl = 0 ∨ ctl = 1 →
    let x := derivative quad [(0, 1), (2, 3)]
    let y := derivative quad [(0, 2), (1, 3)]
    let rx := max (|x.1| * i.w) (|x.2| * i.h)
    let ry := max (|y.1| * i.w) (|y.2| * i.h)
    let d := detail ctl i p quad operand
    0 < max rx ry →
      d.probes ≤ p.aniso ∧ (d.probes < p.aniso → max rx ry ≤ 2 ^ d.probes * min rx ry) ∧
      (∀ m < d.probes, 2 ^ m * min rx ry < max rx ry) ∧ (d.du, d.dv) = (if ry ≤ rx then x else y) ∧
      ∃ n : Int, (2 : Rat) ^ n ≤ (max rx ry / 2 ^ d.probes) ^ 256 ∧ (max rx ry / 2 ^ d.probes) ^ 256 < (2 : Rat) ^ (n + 1) ∧
        d.lod = clampInt (16 * p.minLod) (16 * p.maxLod) (n + p.bias + if ctl = 1 then lodOperand operand else 0)) ∧
  ((∀ (s : State) (c : ContRec) (any : Bool) (cap : Cap) (root : Nat) (ray : List Word), atWork s c →
    c.req = .trace any cap root ray → unitReads s c cap cap.lo.toNat cap.hi.toNat →
    ∃ ws, ws.length = 8 ∧ exec (.traceResult c.uid) s = .next (s.putResult c ws)) ∧
  (∀ (s : State) (c : ContRec) (any : Bool) (cap : Cap) (root : Nat) (ray : List Word), atWork s c →
    c.req = .trace any cap root ray → (∃ i < 6, f32Rat? (ray.getD i 0).toNat = none) →
    exec (.traceResult c.uid) s = .next (s.putResult c [0x7F800000, 0xFFFFFFFF, 0xFFFFFFFF, 0, 0, 3, 0, 0])) ∧
  ∀ (s : State) (c : ContRec) (cap : Cap) (root : Nat) (ray : List Word) (o d : V3) (tmin tmax : Rat) (at_ : Nat → Nat),
    atWork s c → c.req = .trace false cap root ray → c.trace = none →
    wordIs (ray.getD 0 0) o.x → wordIs (ray.getD 1 0) o.y → wordIs (ray.getD 2 0) o.z →
    wordIs (ray.getD 3 0) d.x → wordIs (ray.getD 4 0) d.y → wordIs (ray.getD 5 0) d.z →
    wordIs (ray.getD 6 0) tmin → wordIs (ray.getD 7 0) tmax → (d.x ≠ 0 ∨ d.y ≠ 0 ∨ d.z ≠ 0) → tmin ≤ tmax →
    cap.lo.toNat ≤ root → root + 64 ≤ cap.hi.toNat → (∀ b < 64, EngineReads s c.client cap (root + b) (at_ b)) →
    let x := natOfBytes ((List.range 64).map fun b => Memory.read s.mem (at_ b))
    field x 448 64 = 0 → field x 414 2 = 2 → field x 446 2 = 0 → (∀ k < 6, f32Rat? (field x (32 * k) 32) ≠ none) →
    ((∀ t, tmin ≤ t → t ≤ tmax → ¬ inBox o d x 0 t) →
      exec (.traceResult c.uid) s = .next (s.putResult c [0x7F800000, 0xFFFFFFFF, 0xFFFFFFFF, 0, 0, 1, 1, 0])) ∧
    ((∃ t, tmin ≤ t ∧ t ≤ tmax ∧ inBox o d x 0 t) →
      let off := 64 * field x 384 24
      let n := field x 408 6 + 1
      ∀ at1 : Nat → Nat, cap.lo.toNat ≤ off → off + 64 * n ≤ cap.hi.toNat →
      (∀ b < 64 * n, EngineReads s c.client cap (off + b) (at1 b)) →
      let y (j : Nat) := natOfBytes ((List.range 64).map fun b => Memory.read s.mem (at1 (64 * j + b)))
      (∀ j < n, field (y j) 320 192 = 0) →
      ((∀ j < n, ∀ t b1 b2, ¬ meets o d (y j) tmin tmax t b1 b2) →
        exec (.traceResult c.uid) s = .next (s.putResult c [0x7F800000, 0xFFFFFFFF, 0xFFFFFFFF, 0, 0, 1, 2, 0])) ∧
      ∀ j t b1 b2, j < n → meets o d (y j) tmin tmax t b1 b2 →
        (∀ l < n, l ≠ j → ∀ t' b1' b2', meets o d (y l) tmin tmax t' b1' b2' →
          t < t' ∨ t = t' ∧ field (y j) 288 32 < field (y l) 288 32) →
        ∃ w v1 v2, nearestWord t w ∧ nearestWord b1 v1 ∧ nearestWord b2 v2 ∧
          exec (.traceResult c.uid) s = .next (s.putResult c [w, 0xFFFFFFFF, BitVec.ofNat 32 (field (y j) 288 32), v1, v2, 0, 2, 0]))) ∧
  ((∀ (s : State) (c : ContRec) (cap : Cap) (desc : BitVec 512) (ray : List Word), atWork s c → c.req = .march cap desc ray →
    unitReads s c cap cap.lo.toNat cap.hi.toNat →
    (∃ ws, ws.length = 8 ∧ exec (.marchResult c.uid) s = .next (s.putResult c ws)) ∨
    ∃ q, exec (.marchResult c.uid) s = .next (s.modCont c.uid fun c => { c with point := some q }) ∧
      q.left + 1 = (c.point.map MarchPoint.left).getD (Grid.ofNat desc.toNat).maxStep) ∧
  (∀ (s : State) (c : ContRec) (cap : Cap) (desc : BitVec 512) (ray : List Word), atWork s c → c.req = .march cap desc ray →
    (∃ i < 6, f32Rat? (ray.getD i 0).toNat = none) →
    exec (.marchResult c.uid) s = .next (s.putResult c [5, ray.getD 6 0, 0, 0, 0, 0, ray.getD 11 0, ray.getD 11 0])) ∧
  (∀ (s : State) (c : ContRec) (cap : Cap) (desc : BitVec 512) (ray : List Word) (o k : Nat → Rat) (j : Nat), atWork s c →
    c.req = .march cap desc ray → rayBad (ray.map BitVec.toNat) = false →
    let g := Grid.ofNat desc.toNat
    (∀ i < 3, f32Rat? (g.o.getD i 0) = some (o i) ∧ f32Rat? (g.k.getD i 0) = some (k i) ∧ 0 < k i) →
    let og (i : Nat) := f32Rat? (rneRat ((ratOf (ray.getD i 0).toNat - o i) * k i)).toNat
    (∀ i < 3, og i ≠ none ∧ f32Rat? (rneRat (ratOf (ray.getD (3 + i) 0).toNat * k i)).toNat ≠ none) →
    j < 3 → wordIs (ray.getD (3 + j) 0) 0 → (∃ x, og j = some x ∧ (x < 0 ∨ (g.n.getD j 0 : Rat) ≤ x)) →
      exec (.marchResult c.uid) s = .next (s.putResult c [3, ray.getD 6 0, 0, 0, 0, 0, ray.getD 11 0, ray.getD 11 0])) ∧
  ∀ (s : State) (c : ContRec) (cap : Cap) (desc : BitVec 512) (ray : List Word) (m : March) (start p : MarchPoint), atWork s c →
    c.req = .march cap desc ray → c.point = some p → ray.length = 12 → p.idx < 2 ^ 32 →
    let g := Grid.ofNat desc.toNat
    let first := (ray.getD 11 0).toNat
    marchStart (ray.map BitVec.toNat) g = .ok (m, start) →
    let ends (kind t : Nat) (q : MarchPoint) : Prop :=
      ∃ ws, exec (.marchResult c.uid) s = .next (s.putResult c ws) ∧ marchEnds ws kind t first q
    let goes (q : MarchPoint) : Prop := exec (.marchResult c.uid) s = .next (s.modCont c.uid fun c => { c with point := some q })
    (p.left = 0 → ends 4 p.ta p) ∧
    (∀ at_ : Nat → Nat, 0 < p.left → p.inside = none →
      let index := (p.c.getD 2 0 * g.n.getD 1 0 + p.c.getD 1 0) * g.n.getD 0 0 + p.c.getD 0 0
      cap.lo.toNat ≤ g.moff + 4 * index → g.moff + 4 * index + 4 ≤ cap.hi.toNat →
      (∀ b < 4, EngineReads s c.client cap (g.moff + 4 * index + b) (at_ b)) →
      let x := natOfBytes ((List.range 4).map fun b => Memory.read s.mem (at_ b))
      (f32Rat? x = none ∨ (∃ v, f32Rat? x = some v ∧ v < 0) → ends 5 p.ta p) ∧
      (f32Rat? x = some 0 → (∃ kind t, (kind = 1 ∨ kind = 2) ∧ ends kind t p) ∨
        ∃ q, goes q ∧ q.left + 1 = p.left ∧ q.idx = p.idx ∧ q.inside = none ∧
          ∃ i < 3, (extOf q.ta).le (extOf (p.tnext.getD i 0)) = true ∧ (extOf (p.tnext.getD i 0)).le (extOf q.ta) = true ∧
            ∀ l < 3, l ≠ i → q.c.getD l 0 = p.c.getD l 0)) ∧
    ∀ (mu tb t index : Nat) (sigma : Rat) (at_ : Nat → Nat), 0 < p.left → p.inside = some (mu, tb) →
      let xi (n : Nat) : Nat := drawXi ((ray.getD 8 0).toNat + 2 ^ 32 * (ray.getD 9 0).toNat) (ray.getD 10 0).toNat (n % 2 ^ 32)
      t = (Fmt.f32.add Env.engine (Fmt.f32.decode p.ta) (Fmt.f32.decode (freePath (xi p.idx) mu))).1 → (extOf t).lt (extOf tb) = true →
      let sub : Nat := 2 ^ g.logs
      let q (i : Nat) : Nat :=
        cellAt ((m.og.getD i 0 + ratOf t * m.dg.getD i 0) * (sub : Rat)) (sub * p.c.getD i 0) (sub * p.c.getD i 0 + sub - 1)
      index = (q 2 * (sub * g.n.getD 1 0) + q 1) * (sub * g.n.getD 0 0) + q 0 →
      cap.lo.toNat ≤ g.doff + 4 * index → g.doff + 4 * index + 4 ≤ cap.hi.toNat →
      (∀ b < 4, EngineReads s c.client cap (g.doff + 4 * index + b) (at_ b)) →
      f32Rat? (natOfBytes ((List.range 4).map fun b => Memory.read s.mem (at_ b))) = some sigma →
      let y := { p with
        left := p.left - 1, idx := (p.idx + 2) % 2 ^ 32
        exceeded := p.exceeded || decide (ratOf mu < sigma) }
      f32Rat? mu ≠ none → 0 ≤ ratOf mu →
      ((xi (p.idx + 1) : Rat) / 2 ^ 24 * ratOf mu < sigma → ends 0 t y) ∧
      (¬ (xi (p.idx + 1) : Rat) / 2 ^ 24 * ratOf mu < sigma → goes { y with ta := t })) ∧
  (∀ (s : State) (c x : ContRec) (xs : List ContRec) (ws : List Word) (n lane : Nat) (f : Frame), s.cont? c.uid = some c →
    c.result ≠ none → s.gathered c = x :: xs → x.result = some (ws, n) → n + 128 ≤ s.clk.toNat → s.frame? c.frame = some f →
    s.halted f.asid = false → s.settlingOn f.core f.asid = false → s.contLane f.core f.alloc = some lane →
    ∃ t q, exec (.contGatherTimeout c.uid) s = .next t ∧ q ∈ t.rods ∧ q.pc = x.cpc ∧ q.core = f.core ∧ q.lane = lane ∧
      q.nbeads = min 16 (xs.length + 1) ∧ q.continued = true ∧ q.fmt = x.fmt ∧ ∀ y ∈ t.conts, y.uid ≠ x.uid) ∧
  ∀ (s : State) (board : Nat) (r : Raster), s.rasters.find? (fun r => decide (r.board = board)) = some r →
    s.halted r.asid = false → r.fault = none → s.awaits (.raster board) = false →
    let client : Client := ⟨none, r.asid, 5, r.seen⟩
    let done (t : State) : State := t.modRaster board fun r => { r with entry := none, formed := 0 }
    (∀ h, r.entry = none → r.queue.v = true → r.queue.rd = true → r.queue.w = true → r.queue.a = true →
      r.queue.lo.toNat ≤ r.qoff → r.qoff + 128 ≤ r.queue.hi.toNat → EngineReaches s client r.queue r.qoff 128 true h →
      (s.queueAt h).bad false = false → (s.queueAt h).rsz = 6 →
      ((s.queueAt h).count = 0 → exec (.triangleEntry board) s = .next s) ∧
      ∀ at_ : Nat → Nat, (s.queueAt h).count ≠ 0 →
        let at0 := r.qoff + (s.queueAt h).recordAt (s.queueAt h).head
        at0 + 48 ≤ r.queue.hi.toNat → (∀ i < 6, EngineReaches s client r.queue (at0 + 8 * i) 8 false (at_ i)) →
        let e := natOfBytes ((List.range 48).map fun i => Memory.read s.mem (at_ (i / 8) + i % 8))
        ∃ seen, exec (.triangleEntry board) s = .next
          ((s.pathWrite 5 .device [] (placed (h + 8) (bytesOfNat 8 ((s.queueAt h).head + 1)))).modRaster board fun r =>
            { r with entry := some (BitVec.ofNat 384 e), formed := 0, seen := seen })) ∧
    ∀ e, r.entry = some e →
      let ds := field e.toNat 320 32
      let usable := ds % 32 = 0 ∧ r.draw.v = true ∧ r.draw.e = true ∧ r.draw.lo.toNat ≤ ds ∧ ds + 32 ≤ r.draw.hi.toNat
      (¬ usable → exec (.triangleEntry board) s =
        .next (done (s.logEvent Event.rastBadEntry (dieOfCore (4 * board)) r.asid (e.toNat % 2 ^ 128)))) ∧
      (∀ a, usable → field e.toNat 352 32 ≠ 0 → r.draw.w = true → EngineReaches s client r.draw ds 4 true a →
        s.memoryCanonical → ∃ t, exec (.triangleEntry board) s = .next (done t) ∧ t.natAt a 4 = s.natAt a 4 ||| 4) ∧
      ∀ at_ : Nat → Nat, usable → field e.toNat 352 32 = 0 → (∀ i < 32, EngineReads s client r.draw (ds + i) (at_ i)) →
        let d := DrawState.ofNat (natOfBytes ((List.range 32).map fun i => Memory.read s.mem (at_ i)))
        d.bad = false → ∀ a b c, (vertexOf e.toNat 0).point = some a → (vertexOf e.toNat 1).point = some b →
        (vertexOf e.toNat 2).point = some c →
        (edge a b c = 0 → exec (.triangleEntry board) s = .next (done s)) ∧
        ∀ (t : Triangle) (cap : Cap) (key : Nat → Nat), orient a b c d.cull (field e.toNat 288 32) = some t → d.shade = false →
          131072 * (d.areath : Int) ≤ t.area → handleIs s r.asid d.vish (some cap) → cap.v = true → cap.a = true →
          cap.e = true → cap.lo.toNat = 0 → 8 * (d.w * d.h * d.samples) ≤ cap.hi.toNat → s.memoryCanonical → s.directory = [] →
          (∀ n < d.w * d.h * d.samples, ∀ ws : List (Nat × Byte),
            (∀ w ∈ ws, ∃ k < d.w * d.h * d.samples, k ≠ n ∧ key k ≤ w.1 ∧ w.1 < key k + 8) →
            EngineReaches { s with mem := Memory.writeAll s.mem ws } client cap (8 * n) 8 true (key n)) →
          (∀ m n, m < d.w * d.h * d.samples → n < d.w * d.h * d.samples → m ≠ n → key m + 8 ≤ key n ∨ key n + 8 ≤ key m) →
          ∃ u, exec (.triangleEntry board) s = .next (done u) ∧
            ∀ i j k, (i, j) ∈ t.pixels d.w d.h → k < d.samples →
              let n := (j * d.w + i) * d.samples + k
              let p := samplePoint d.samples i j k
              u.natAt (key n) 8 = if t.covers p then max (s.natAt (key n) 8) (t.key p) else s.natAt (key n) 8

/-- The steps of a dispatch core (R272 to R274, R278 to R281, R283): a pass of its loop; a claim of the next frames of
an unclaimed head; a bind record that a core takes, whose frame is then bound there with its rods; the count of a bound
frame, which moves HEAD past a finished record; the return of a claim; the passing of a refused record; the reservation of a
board for a head that has waited long; and the delivery of a record that another device launched. Open in the manual and the
model's choice: assumptions 8, 13, 39, 53, 79, 80 and 83. -/
def Obligations.DispatchEventsComplete : Prop :=
  (∀ (s : State) (d : Dispatch), s.disp? d.table = some d →
    (d.phase = .loop → exec (.dispatchLoop d.table) s = .next (s.dispatchPass d.table)) ∧
    ∀ asid q h rec first next retried, d.phase = .bind asid q h rec first next retried → s.planOf d = none →
      exec (.dispatchLoop d.table) s =
        .next (s.modDisp d.table fun d => { d with phase := .release asid q h rec first next })) ∧
  (∀ (s : State) (d : Dispatch) (asid q hva a : Nat) (h : BitVec 64) (rec : BitVec 2048), s.disp? d.table = some d →
    d.phase = .claim asid q h rec → launchQueueAt s asid q hva a → (s.queueAt a).head = h.toNat → (s.queueAt a).claimed ≠ 1 →
    let l := LaunchRec.ofNat rec.toNat
    let n := (s.queueAt a).nextf
    let s1 := if n + l.step - 1 = l.framesM1
      then ((s.homeWriteNat (a + 16) 4 n).homeWriteNat (a + 20) 4 (s.queueAt a).bound).homeWriteNat (a + 28) 1 1
      else ((s.homeWriteNat (a + 16) 4 (n + l.step)).homeWriteNat (a + 20) 4 (s.queueAt a).bound).homeWriteNat (a + 28) 1 0
    exec (.queueClaim d.table asid q h) s =
      .next (s1.modDisp d.table fun d => { d with phase := s1.bindPhase asid q h rec n n, board := none })) ∧
  (∀ (s : State) (core a0 a1 : Nat) (rec : BitVec 512) (cap : Nat → Option Cap),
    let b := BindRec.ofNat rec.toNat
    BindTaken s core b a0 a1 cap →
    (s.servable b.asid = true → (∀ d, s.disp? (core / 16) = some d → d.phase = .loop) →
      ∃ t, exec (.bindRecord core rec) s = .next t ∧ frameBound s t core b a0 a1 cap) ∧
    ∀ d asid q h x first next retried, s.disp? (core / 16) = some d → d.phase = .bind asid q h x first next retried →
      s.planOf d = some (core, b) → ∃ t e, exec (.bindRecord core rec) s = .next t ∧ frameBound s t core b a0 a1 cap ∧
        t.disp? (core / 16) = some e ∧ e.phase = .count asid q h x first next ∧ e.board = some (core / 4) ∧
        e.reserved ≠ some (asid, q, core / 4)) ∧
  (∀ (s : State) (d : Dispatch) (asid q first next hva a : Nat) (h : BitVec 64) (rec : BitVec 2048), d ∈ s.dispatch →
    d.phase = .count asid q h rec first next →
    (∀ e ∈ s.dispatch, ∀ x m n, e.phase = .count asid q h x m n → e = d) → launchQueueAt s asid q hva a →
    (s.queueAt a).head = h.toNat →
    let l := LaunchRec.ofNat rec.toNat
    let b := (s.queueAt a).bound
    let s1 := if b = l.framesM1
      then (((s.homeWriteNat (a + 16) 4 0).homeWriteNat (a + 20) 4 0).homeWriteNat (a + 28) 1 0).passHead asid q a h
      else ((s.homeWriteNat (a + 16) 4 (s.queueAt a).nextf).homeWriteNat (a + 20) 4 (b + 1)).homeWriteNat (a + 28) 1
        (s.queueAt a).claimed
    exec (.queueBound asid q h) s = .next (if next + 1 < first + l.step
      then s1.modDisp d.table fun d => { d with phase := s1.bindPhase asid q h rec first (next + 1) }
      else s1.modDisp d.table fun d => d.served asid q l.step)) ∧
  (∀ (s : State) (d : Dispatch) (asid q first hva a : Nat) (h : BitVec 64) (rec : BitVec 2048), s.disp? d.table = some d →
    d.phase = .release asid q h rec first first → launchQueueAt s asid q hva a → (s.queueAt a).head = h.toNat →
    (s.queueAt a).claimed = 0 → (s.queueAt a).nextf = first + (LaunchRec.ofNat rec.toNat).step →
    exec (.queueRelease d.table asid q h first) s = .next
      ((((s.homeWriteNat (a + 16) 4 first).homeWriteNat (a + 20) 4 (s.queueAt a).bound).homeWriteNat (a + 28) 1 0).modDisp d.table
        fun d => d.served asid q (LaunchRec.ofNat rec.toNat).step)) ∧
  (∀ (s : State) (asid q hva a a0 a1 : Nat) (h : BitVec 64), (∃ d ∈ s.dispatch, d.phase = .pass asid q h) → s.memoryCanonical →
    launchQueueAt s asid q hva a → (s.queueAt a).head = h.toNat → (s.queueAt a).count ≠ 0 →
    engineMaps s asid (hva + (s.queueAt a).recordAt h.toNat) false a0 →
    engineMaps s asid (hva + (s.queueAt a).recordAt h.toNat + 128) false a1 →
    (LaunchRec.ofNat (natOfBytes (s.bytesAt a0 128 ++ s.bytesAt a1 128))).dw = false →
    ∃ t, exec (.queuePass asid q h) s = .next t ∧ (t.queueAt a).head = (h + 1).toNat ∧ ∀ d ∈ t.dispatch, d.phase ≠ .pass asid q h) ∧
  (∀ (s : State) (d : Dispatch) (asid q hva a a0 a1 since b : Nat), s.disp? d.table = some d → d.reserved = none →
    d.blocked = [(asid, q)] → launchQueueAt s asid q hva a → (s.queueAt a).count ≠ 0 →
    let h := (s.queueAt a).head
    engineMaps s asid (hva + (s.queueAt a).recordAt h) false a0 →
    engineMaps s asid (hva + (s.queueAt a).recordAt h + 128) false a1 →
    d.ages.find? (fun x => decide (x.1 = (asid, q) ∧ x.2.1 = h)) = some ((asid, q), (h, since)) →
    (∀ w ∈ s.writes, w.touches a 8 = false) →
    (7 - (LaunchRec.ofNat (natOfBytes (s.bytesAt a0 128 ++ s.bytesAt a1 128))).pri) * 262144 + 2 ^ 20 ≤ s.clk.toNat - since →
    b / 4 = d.table → (∀ c, c / 4 = d.table → s.boardSlots c ≤ s.boardSlots b ∧ (c < b → s.boardSlots c < s.boardSlots b)) →
    exec (.boardReservation d.table) s = .next (s.modDisp d.table fun d => { d with reserved := some (asid, q, b) })) ∧
  (∀ (s : State) (asid q hva h : Nat) (rec : BitVec 2048), s.boot = .running → launchQueueAt s asid q hva h →
    ((s.queueAt h).count = (s.queueAt h).size → exec (.launchFabricDelivery s.endpoint asid q rec) s =
      .next { s with inputs := s.inputs ++ [.act (.launchFabricDelivery s.endpoint asid q rec)] }) ∧
    ∀ a0 a1, (s.queueAt h).count ≠ (s.queueAt h).size →
      engineMaps s asid (hva + (s.queueAt h).recordAt (s.queueAt h).tail) true a0 →
      engineMaps s asid (hva + (s.queueAt h).recordAt (s.queueAt h).tail + 128) true a1 →
      exec (.launchFabricDelivery s.endpoint asid q rec) s = .next
        ((s.homeWrite (placed a0 (bytesOfNat 128 rec.toNat) ++ placed a1 (bytesOfNat 128 (rec.toNat / 2 ^ 1024)))).homeWriteNat
          h 8 ((s.queueAt h).tail + 1))) ∧
  (∀ (s : State) (n dev asid q : Nat) (rec : BitVec 2048) (ds es : List Delivery), s.boot = .running → dev ≠ s.endpoint →
    s.deliveries = ds ++ ⟨n, dev, asid, q, rec⟩ :: es → (∀ d ∈ ds, d.launch ≠ n) →
    (∀ d ∈ ds, ¬ (d.dev = dev ∧ d.asid = asid ∧ d.queue = q ∧ d.record = rec)) →
    exec (.launchFabricDelivery dev asid q rec) s = .next { s with deliveries := ds ++ es })

/-- Memory below the rods and outside them: a committed line is performed at its home (R160); a die applies a covered
message and sends a due stamp (R165); a read-exclusive is performed, unless a page or port bars it (R174, R312, R313); a
Reckoner core loads, stores, and reads and
writes as one at device memory, and a fence follows its stores (R158); a processor reads and writes the pages that the export
space maps (R310); the directory grants the oldest request (R311); and a recalled page is given up (R312). Open in the manual
and the model's choice: assumptions 12, 71 and 75. -/
def Obligations.MemoryEventsComplete : Prop :=
  (∀ (s : State) (n : Nat) (i : Inflight), s.inflight[n]? = some i → (∀ j ∈ s.inflight, j.rod = i.rod → i.commit ≤ j.commit) →
    (∀ w ∈ i.bytes, s.barred w.1 true = none) →
    ∃ t, exec (.homePerform n) s = .next t ∧ t.inflight = s.inflight.erase i ∧ t.mem = Memory.writeAll s.mem i.bytes ∧
      t.fresh = s.fresh + 1) ∧
  (∀ (s : State) (src dst : Nat) (m : DieMsg), s.dieMsgs.find? (fun m => decide (m.src = src ∧ m.dst = dst)) = some m →
    (∀ j < 4, j ≠ src → j ≠ dst → m.stamp.getD j 0 ≤ clockOf s dst j) → s.clocks.length = 4 → (s.clocks.getD dst []).length = 4 →
    src < 4 → dst < 4 → src ≠ dst →
    ∃ t, exec (.dieUpdateApply src dst) s = .next t ∧ (∀ x, x ∈ t.dieMsgs ↔ x ∈ s.dieMsgs ∧ x ≠ m) ∧
      clockOf t dst src = max (clockOf s dst src) (m.stamp.getD src 0) ∧
      (∀ d j, (d, j) ≠ (dst, src) → clockOf t d j = clockOf s d j) ∧ t.mem = s.mem ∧
      t.dieCopies = s.dieCopies.map fun c =>
        match m.line with
        | some (l, n) => if c.die = dst ∧ c.line = l then { c with upTo := max c.upTo n } else c
        | none => c) ∧
  (∀ (s : State) (src dst : Nat), (src, dst) ∈ s.stampDue →
    exec (.dieStampToken src dst) s = .next { s with
      stampDue := s.stampDue.erase (src, dst), stampSince := s.stampSince.filter fun p => decide (p.1 ≠ (src, dst))
      dieMsgs := s.dieMsgs ++ [⟨src, dst, s.clocks.getD src [], none⟩] }) ∧
  (∀ (s : State) (u : Upgrade) (us : List Upgrade), s.upgrades = u :: us →
    ((∀ v ∈ s.upgrades, ∀ w ∈ v.bytes, s.barred w.1 true = none) → exec .readExclusiveUpgrade s =
      .next ({ s with upgrades := us }.reckonerWrite u.core (s.reckoner u.core).view.rel u.bytes)) ∧
    ((∀ v ∈ s.upgrades, ∃ w ∈ v.bytes, s.barred w.1 true ≠ none) →
      ∃ t, exec .readExclusiveUpgrade s = .next t ∧ t.upgrades = s.upgrades ∧ t.mem = s.mem)) ∧
  (∀ (s : State) (core : Nat) (a : BitVec 52) (x : BitVec 64), s.boot = .running → core < 32 → physBad a.toNat = false →
    (∀ v ∈ s.upgrades, v.core = core → ∀ w ∈ v.bytes, s.barred w.1 true = none) →
    (∀ f, ∃ t, exec (.reckonerAccess ⟨core, .fence f⟩ a x) s = .next t ∧ ∀ u ∈ t.upgrades, u.core ≠ core) ∧
    (¬ (field a.toNat 50 2 = 2 ∧ field a.toNat 38 12 = s.endpoint) →
      (∀ n, s.barred a.toNat false = none →
        exec (.reckonerAccess ⟨core, .load n⟩ a x) s = .next (s.reckonerLoad core a.toNat n false)) ∧
      (∀ (dword aq rl : Bool), s.barred a.toNat false = none → a.toNat % (if dword then 8 else 4) = 0 →
        ∃ t, exec (.reckonerAccess ⟨core, .lr dword aq rl⟩ a x) s = .next t ∧
          (t.reckoner core).resv = some (a.toNat, if dword then 8 else 4)) ∧
      (s.barred a.toNat true = none →
        (∀ n, exec (.reckonerAccess ⟨core, .store n⟩ a x) s =
          .next { s with upgrades := s.upgrades ++ [⟨core, placed a.toNat (bytesOfNat n x.toNat)⟩] }) ∧
        ∀ (dword aq rl : Bool), let n := if dword then 8 else 4
          a.toNat % n = 0 → (∀ u ∈ s.upgrades, u.core ≠ core) → s.memoryCanonical →
          (∀ f, ∃ t, exec (.reckonerAccess ⟨core, .amo f dword aq rl⟩ a x) s = .next t ∧
            t.natAt a.toNat n = amoValue f (8 * n) (s.natAt a.toNat n) (x.toNat % 2 ^ (8 * n))) ∧
          ∃ t, exec (.reckonerAccess ⟨core, .sc dword aq rl⟩ a x) s = .next t ∧ (t.reckoner core).resv = none ∧
            ((s.reckoner core).resv = some (a.toNat, n) → t.natAt a.toNat n = x.toNat % 2 ^ (8 * n)) ∧
            ((s.reckoner core).resv ≠ some (a.toNat, n) → t.mem = s.mem)))) ∧
  (∀ (s : State) (write : Bool) (off : BitVec 38) (bytes : List Byte) (root : Nat) (at_ : Nat → Nat), s.boot = .running →
    s.sysEntry 0x60 = some root → s.memoryCanonical → s.directory = [] →
    (∀ i < bytes.length, ∃ a e size, leafAt s (fun _ => none) ((off.toNat + i) % 2 ^ 38) ptLevels root a e size ∧
      markedLeaf e write = e ∧ (write = true → e.testBit 2 = true) ∧ at_ i = pteAddr e + (off.toNat + i) % 2 ^ 38 % 2 ^ size ∧
      s.barred (at_ i) write = none) →
    ∃ t, exec (.hostAccess write off bytes) s = .next t ∧ (write = false → t.mem = s.mem) ∧
      (write = true → (∀ i j, i < bytes.length → j < bytes.length → i ≠ j → at_ i ≠ at_ j) →
        ∀ i, (h : i < bytes.length) → Memory.read t.mem (at_ i) = bytes[i])) ∧
  (∀ (s : State) (q : DirReq) (qs : List DirReq), s.dirReqs = q :: qs →
    ∃ t e, exec .pageGrant s = .next t ∧ e ∈ t.directory ∧ e.page = q.page ∧
      (q.own = true → e.st = .owned q.ep) ∧ (q.own = false → e.st = .owned q.ep ∨ ∃ eps, e.st = .shared eps ∧ q.ep ∈ eps) ∧
      (∀ x ∈ t.directory, x.page = q.page → x = e) ∧
      ((∀ r ∈ s.rods, s.inFence r = false) → t.dirReqs = qs ∧
        (q.ep = s.endpoint → ∀ r ∈ t.rods, ∀ va k tk c, r.status ≠ .asleep (.fabric q.page va k) tk c))) ∧
  (∀ (s : State) (page : Nat),
    let inPage (l : Nat) : Prop := l / 512 = page ∨ s.exportedAs (l * 128) = some page
    ∃ t, exec (.directoryRecall page) s = .next t ∧ (∀ l, l ∈ t.dirty ↔ l ∈ s.dirty ∧ ¬ inPage l) ∧
      (∀ c, c ∈ t.dieCopies ↔ c ∈ s.dieCopies ∧ ¬ inPage c.line) ∧ t.mem = s.mem ∧ t.rods = s.rods ∧
      ∀ x ∈ t.directory, x.page = page → x.st ≠ .owned s.endpoint ∧ ∀ eps, x.st = .shared eps → s.endpoint ∉ eps)

/-- The management core (R306, R315 to R324, R326): the boot steps end in a running device with its clock at zero, or in
recovery; a well-placed system block is adopted; an update is taken, refused while another is in progress, and at its end
accepted into the slot not in use or rejected; a measurement is given, with a signature while the key is there; a sample is
kept; two samples over a trip limit, and an alarm under policy 01, halt every live context and hold the device unpowered or
in reset once the halts are recorded. Open in the manual and the model's choice: assumptions 2, 17, 44, 66, 67, 68, 72
and 73. -/
def Obligations.ManagementEventsComplete : Prop :=
  (∀ (s : State), ∃ t, exec .powerOn s = .next t ∧ (t.boot = .running ∨ t.boot = .recovery) ∧ t.rods = [] ∧
    t.mem = s.keptMem ∧ t.flash = s.flash ∧ t.keysErased = s.keysErased ∧ t.clk = 0 ∧
    (Config.sha256 Config.rom ≠ Config.romDigest → t.boot = .recovery) ∧
    (t.boot = .running → t.dispatch.length = 16 ∧ t.reckoner0 = true)) ∧
  (∀ (s : State) (a : BitVec 52), s.boot = .running → a.toNat < 2 ^ 40 → a.toNat % 128 = 0 →
    s.natAt (a.toNat + 0x68) 0xF98 = 0 →
    ∃ t, exec (.systemBlockAddress a) s = .next t ∧ t.sysBlock = some a.toNat ∧ t.mem = s.mem ∧ t.rods = s.rods) ∧
  (∀ (s : State) (kind : Nat) (image : List Byte), s.boot = .running ∨ s.boot = .recovery →
    (s.updating = none → ∃ slotB, exec (.firmwareUpdate (.arrives kind) image) s =
      .next { s with updating := some ⟨kind, slotB, image⟩ } ∧
      ∀ f, s.booted.find? (fun f => decide (f.kind = kind)) = some f → slotB = !f.slotB) ∧
    ∀ u, s.updating = some u →
      exec (.firmwareUpdate (.arrives kind) image) s = .next { s with updOut := s.updOut ++ [.busy] } ∧
      ∃ t, exec (.firmwareUpdate .ends image) s = .next t ∧ t.updating = none ∧ t.mem = s.mem ∧
        let accepted := (⟨u.kind, u.slotB, u.image, true⟩ : FlashSlot) ∈ t.flash ∧ t.updOut = s.updOut ++ [.accepted]
        let rejected := t.flash = s.flash ∧ t.config = s.config ∧ t.updOut = s.updOut ++ [.rejected]
        (u.kind < 4 → if imageOk u.kind s.config.minver u.image = true then accepted ∧ t.config = s.config else rejected) ∧
        (u.kind = 4 → if recordOk s.ownerKey u.image = true ∧ s.config.seqno ≤ (CfgRec.ofBytes u.image).seqno
          then accepted ∧ t.config.persist = (CfgRec.ofBytes u.image).persist ∧
            t.config.powercap = (CfgRec.ofBytes u.image).powercap
          else rejected)) ∧
  (∀ (s : State) (version : Nat), s.boot ≠ .powerOn → version = 0x12 ∨ version = 0x13 →
    (∀ i, s.keysErased = true →
      exec (.spdmRequest ⟨version, i, true⟩) s = .next { s with spdmOut := s.spdmOut ++ [.unspecified] }) ∧
    exec (.spdmRequest ⟨version, 1, false⟩) s = .next { s with spdmOut := s.spdmOut ++ [.plain (Config.sha256 Config.rom)] } ∧
    (s.keysErased = false → exec (.spdmRequest ⟨version, 1, true⟩) s = .next { s with
      spdmOut := s.spdmOut ++ [.signed (Config.sha256 Config.rom) (Config.spdmSign (Config.sha256 Config.rom))] })) ∧
  (∀ (s : State) (die : List DieReading) (stack : List Nat) (mv ma : Nat), s.power.length ≤ 100 →
    ∃ t, exec (.sensorSample die stack mv ma) s = .next t ∧
      t.sample = some ⟨die, stack, mv, ma⟩ ∧ t.prior = s.sample ∧
      t.power = (s.power ++ [mv * ma]).drop (s.power.length - 99) ∧ t.rods = s.rods) ∧
  (∀ (s : State) (x y : Sample), s.sample = some x → s.prior = some y → s.boot = .running → s.alarmHold ≠ some .unpowered →
    (∃ p ∈ x.die.zip y.die, 110 ≤ p.1.degrees ∧ 110 ≤ p.2.degrees) ∨ (∃ p ∈ x.stack.zip y.stack, 105 ≤ p.1 ∧ 105 ≤ p.2) →
    ∃ t, exec .thermalTrip s = .next t ∧ (t.alarmHold = some .unpowered ∨ t.boot = .unpowered) ∧
      ∀ f ∈ s.frames, t.halted f.asid = true) ∧
  (∀ (s : State) (code : Nat), 1 ≤ code → code ≤ 3 → s.boot = .running → s.config.alarmpol = 1 → s.alarmHold = none →
    ∃ t, exec (.alarm code) s = .next t ∧ (t.alarmHold = some .heldInReset ∨ t.boot = .heldInReset) ∧
      (∀ f ∈ s.frames, t.halted f.asid = true) ∧
      ∀ f ∈ s.frames, s.halt? f.asid = none → ∃ h, t.halt? f.asid = some h ∧ h.cls = 11 ∧ h.cause = code)

/-! ### Encodings, the step and its invariants -/

/-- Encoding loses nothing: every instruction, with every operand at every value, decodes from its own word (R61 to R69,
R72 to R75). -/
def Obligations.DecodingInvertsEncoding : Prop := ∀ i : Instr, i.isWord = true → decode (encode i) = .ok i

/-- Decoding loses nothing: a word that decodes to an instruction is that instruction's word, and no step of a unit of the
device has one (R73, R75). -/
def Obligations.EncodingInvertsDecoding : Prop :=
  ∀ (w : Word) (i : Instr), decode w = .ok i → encode i = w ∧ i.isWord = true

/-- A step runs the decoded instruction. When the one thing that can happen next is that a rod issues (R23, R24), and
the word at its pc in its core's instruction cache (R77) decodes to an instruction, the step is `exec` of it in the
state in which the rod is issuing and its lane remembers its slot; then nobody issues. A die's stamp that can wait no longer
goes out first (R165), and a rod that is held at its first bead's cell goes to sleep there first, and no lane turn is spent
(R21, R25). Else a step waits while nothing can happen, or makes one of the possible moves: of those that have been passed over
often enough one that was so most often, so that each has its turn (R33). Open in the manual and the model's choice:
assumptions 1 and 49. -/
def Obligations.StepRunsDecoded : Prop :=
  (∀ (s t : State) (r : Rod) (w : Word) (i : Instr), s.moves = [.issue r.uid] → s.tokensDue = [] → s.held = [] →
    s.rod? r.uid = some r → s.fetched r = some w → decode w = .ok i →
    exec i { s with cur := some r.uid, lastSlot := Sparse.set 7 s.lastSlot (r.core * 128 + r.lane) r.slot } = .next t →
    step s = .next { t with cur := none }) ∧
  (∀ (s : State) (d : Nat × Nat) (ds : List (Nat × Nat)), s.boot = .running → s.tokensDue = d :: ds →
    step s = exec (.dieStampToken d.1 d.2) s) ∧
  (∀ (s t : State) (u : Nat) (us : List Nat) (r : Rod) (w : Word) (i : Instr), s.boot = .running → s.tokensDue = [] →
    s.held = u :: us → s.rod? u = some r → s.fetched r = some w → decode w = .ok i →
    exec i { s with cur := some u } = .next t → step s = .next { t with cur := none }) ∧
  (∀ s : State, s.moves = [] →
    (s.boot ≠ .running → step s = .next s) ∧
    (s.boot = .running → s.tokensDue = [] → s.held = [] → ∃ n, 1 ≤ n ∧ step s = .next (s.tick n))) ∧
  (∀ (s : State) (m : Move), s.moves = [m] → s.boot ≠ .running ∨ (s.tokensDue = [] ∧ s.held = []) → step s = s.move m) ∧
  ∀ s : State, 2 ≤ s.moves.length → s.boot ≠ .running ∨ (s.tokensDue = [] ∧ s.held = []) →
    ∃ m ∈ s.moves, step s = (s.passing s.moves m).move m ∧
      ∀ x ∈ s.moves, Config.patience ≤ s.passedOver x →
        Config.patience ≤ s.passedOver m ∧ s.passedOver x ≤ s.passedOver m

/-- A word that is placed is the one that the next step runs, whatever the state it is placed in; it takes its lane's turn
unless the cell of its first bead holds it (R21). Open in the manual and the model's choice: assumption 18. -/
def Obligations.PlacedWordRuns : Prop :=
  ∀ (s t : State) (w : Nat) (i : Instr), w < 2 ^ 32 → decode (BitVec.ofNat 32 w) = .ok i →
    let p := s.withFetchWord 32 w
    (p.held = [] → exec i { p with cur := some 1, lastSlot := Sparse.set 7 p.lastSlot 0 0 } = .next t →
      step p = .next { t with cur := none }) ∧
    (p.held ≠ [] → exec i { p with cur := some 1 } = .next t → step p = .next { t with cur := none })

/-- Every instruction answers a next state when a rod is issuing, every step of a unit of the device always, and so does
every step of the machine: no state faults or refuses. -/
def Obligations.StepsAnswer : Prop :=
  (∀ (i : Instr) (s : State) (r : Rod), s.curRod? = some r → answers (exec i s)) ∧
  (∀ (i : Instr) (s : State), i.isWord = false → (∀ w, i ≠ .reservedOpcode w) → answers (exec i s)) ∧
  ∀ s : State, answers (step s)

/-- The state at reset (R13, R57, R315): CLK is 0, nothing is bound, no context is halted, memory lists nothing in its
canonical form, and only the boot steps of the management core are to come; the model's free-value index is 0. Open in
the manual and the model's choice: assumptions 1, 4 and 22. -/
def Obligations.ResetIsCanonical : Prop :=
  State.reset.memoryCanonical ∧ State.reset.lanesCanonical ∧ State.reset.quiet ∧ State.reset.clk = 0 ∧
    State.reset.boot = .powerOn ∧ State.reset.rods = [] ∧ State.reset.frames = [] ∧ (∀ a, Memory.read State.reset.mem a = 0) ∧
    (∀ a, State.reset.halted a = false) ∧ State.reset.moves = [.unit_ .powerOn]

/-- Every step keeps the form of the state: global memory in its canonical form, so that equal memories are equal lists
(assumption 4), the lanes' last slots in theirs, and nobody issuing between two steps. And every step keeps the
reconvergence stacks of the rods (R26, R28, R29, R32): at most 32 entries, and in each the disjoint masks W, PM and that of the
running beads make up F, as long as the code of a handler leaves the stack that its rod entered it with; a rod that a restore
takes from memory in this step is not spoken of (R303). -/
def Obligations.StepKeepsMemory : Prop :=
  (∀ s t : State, s.memoryCanonical → s.lanesCanonical → s.quiet → step s = .next t →
    t.memoryCanonical ∧ t.lanesCanonical ∧ t.quiet) ∧
  ∀ s t : State, (∀ r ∈ s.rods, stackHolds r) → step s = .next t →
    (∀ r ∈ s.rods, r.handler.isSome = true → ∀ q ∈ t.rods, q.uid = r.uid → q.stack = r.stack) →
    ∀ q ∈ t.rods, (∀ b ∈ s.saved, ∀ x ∈ b.rods, x.rod.uid ≠ q.uid) → stackHolds q
end

