-- ==== Sys2Proof/Laws/State.lean ====
section
/-!
SUPPORT. What each plain update of the state leaves of each field: one lemma for each field, true by unfolding the
update, so that no later proof unfolds one.
-/

namespace Sys2Proof.Machine

/-! ### `State.modRod` -/

@[simp] theorem State.modRod_clk (s : State) (u : Nat) (f : Rod → Rod) : (s.modRod u f).clk = s.clk := rfl
@[simp] theorem State.modRod_boot (s : State) (u : Nat) (f : Rod → Rod) : (s.modRod u f).boot = s.boot := rfl
@[simp] theorem State.modRod_mem (s : State) (u : Nat) (f : Rod → Rod) : (s.modRod u f).mem = s.mem := rfl
@[simp] theorem State.modRod_dirty (s : State) (u : Nat) (f : Rod → Rod) : (s.modRod u f).dirty = s.dirty := rfl
@[simp] theorem State.modRod_badLines (s : State) (u : Nat) (f : Rod → Rod) : (s.modRod u f).badLines = s.badLines := rfl
@[simp] theorem State.modRod_volatile (s : State) (u : Nat) (f : Rod → Rod) : (s.modRod u f).volatile = s.volatile := rfl
@[simp] theorem State.modRod_writes (s : State) (u : Nat) (f : Rod → Rod) : (s.modRod u f).writes = s.writes := rfl
@[simp] theorem State.modRod_stampSince (s : State) (u : Nat) (f : Rod → Rod) : (s.modRod u f).stampSince = s.stampSince := rfl
@[simp] theorem State.modRod_scPoints (s : State) (u : Nat) (f : Rod → Rod) : (s.modRod u f).scPoints = s.scPoints := rfl
@[simp] theorem State.modRod_inflight (s : State) (u : Nat) (f : Rod → Rod) : (s.modRod u f).inflight = s.inflight := rfl
@[simp] theorem State.modRod_frames (s : State) (u : Nat) (f : Rod → Rod) : (s.modRod u f).frames = s.frames := rfl
@[simp] theorem State.modRod_launches (s : State) (u : Nat) (f : Rod → Rod) : (s.modRod u f).launches = s.launches := rfl
@[simp] theorem State.modRod_windowTurn (s : State) (u : Nat) (f : Rod → Rod) : (s.modRod u f).windowTurn = s.windowTurn := rfl
@[simp] theorem State.modRod_cells (s : State) (u : Nat) (f : Rod → Rod) : (s.modRod u f).cells = s.cells := rfl
@[simp] theorem State.modRod_lastSlot (s : State) (u : Nat) (f : Rod → Rod) : (s.modRod u f).lastSlot = s.lastSlot := rfl
@[simp] theorem State.modRod_icache (s : State) (u : Nat) (f : Rod → Rod) : (s.modRod u f).icache = s.icache := rfl
@[simp] theorem State.modRod_tlb (s : State) (u : Nat) (f : Rod → Rod) : (s.modRod u f).tlb = s.tlb := rfl
@[simp] theorem State.modRod_objCache (s : State) (u : Nat) (f : Rod → Rod) : (s.modRod u f).objCache = s.objCache := rfl
@[simp] theorem State.modRod_walks (s : State) (u : Nat) (f : Rod → Rod) : (s.modRod u f).walks = s.walks := rfl
@[simp] theorem State.modRod_walkCache (s : State) (u : Nat) (f : Rod → Rod) : (s.modRod u f).walkCache = s.walkCache := rfl
@[simp] theorem State.modRod_portsDown (s : State) (u : Nat) (f : Rod → Rod) : (s.modRod u f).portsDown = s.portsDown := rfl
@[simp] theorem State.modRod_faultWait (s : State) (u : Nat) (f : Rod → Rod) : (s.modRod u f).faultWait = s.faultWait := rfl
@[simp] theorem State.modRod_faultRecs (s : State) (u : Nat) (f : Rod → Rod) : (s.modRod u f).faultRecs = s.faultRecs := rfl
@[simp] theorem State.modRod_recids (s : State) (u : Nat) (f : Rod → Rod) : (s.modRod u f).recids = s.recids := rfl
@[simp] theorem State.modRod_portFaults (s : State) (u : Nat) (f : Rod → Rod) : (s.modRod u f).portFaults = s.portFaults := rfl
@[simp] theorem State.modRod_tasks (s : State) (u : Nat) (f : Rod → Rod) : (s.modRod u f).tasks = s.tasks := rfl
@[simp] theorem State.modRod_engines (s : State) (u : Nat) (f : Rod → Rod) : (s.modRod u f).engines = s.engines := rfl
@[simp] theorem State.modRod_bursts (s : State) (u : Nat) (f : Rod → Rod) : (s.modRod u f).bursts = s.bursts := rfl
@[simp] theorem State.modRod_governors (s : State) (u : Nat) (f : Rod → Rod) : (s.modRod u f).governors = s.governors := rfl
@[simp] theorem State.modRod_slots (s : State) (u : Nat) (f : Rod → Rod) : (s.modRod u f).slots = s.slots := rfl
@[simp] theorem State.modRod_chains (s : State) (u : Nat) (f : Rod → Rod) : (s.modRod u f).chains = s.chains := rfl
@[simp] theorem State.modRod_resvs (s : State) (u : Nat) (f : Rod → Rod) : (s.modRod u f).resvs = s.resvs := rfl
@[simp] theorem State.modRod_credits (s : State) (u : Nat) (f : Rod → Rod) : (s.modRod u f).credits = s.credits := rfl
@[simp] theorem State.modRod_transfers (s : State) (u : Nat) (f : Rod → Rod) : (s.modRod u f).transfers = s.transfers := rfl
@[simp] theorem State.modRod_slotWakes (s : State) (u : Nat) (f : Rod → Rod) : (s.modRod u f).slotWakes = s.slotWakes := rfl
@[simp] theorem State.modRod_copyEngines (s : State) (u : Nat) (f : Rod → Rod) : (s.modRod u f).copyEngines = s.copyEngines := rfl
@[simp] theorem State.modRod_conts (s : State) (u : Nat) (f : Rod → Rod) : (s.modRod u f).conts = s.conts := rfl
@[simp] theorem State.modRod_rasters (s : State) (u : Nat) (f : Rod → Rod) : (s.modRod u f).rasters = s.rasters := rfl
@[simp] theorem State.modRod_clocks (s : State) (u : Nat) (f : Rod → Rod) : (s.modRod u f).clocks = s.clocks := rfl
@[simp] theorem State.modRod_stampDue (s : State) (u : Nat) (f : Rod → Rod) : (s.modRod u f).stampDue = s.stampDue := rfl
@[simp] theorem State.modRod_dieMsgs (s : State) (u : Nat) (f : Rod → Rod) : (s.modRod u f).dieMsgs = s.dieMsgs := rfl
@[simp] theorem State.modRod_dieCopies (s : State) (u : Nat) (f : Rod → Rod) : (s.modRod u f).dieCopies = s.dieCopies := rfl
@[simp] theorem State.modRod_reckoners (s : State) (u : Nat) (f : Rod → Rod) : (s.modRod u f).reckoners = s.reckoners := rfl
@[simp] theorem State.modRod_upgrades (s : State) (u : Nat) (f : Rod → Rod) : (s.modRod u f).upgrades = s.upgrades := rfl
@[simp] theorem State.modRod_ctxs (s : State) (u : Nat) (f : Rod → Rod) : (s.modRod u f).ctxs = s.ctxs := rfl
@[simp] theorem State.modRod_saving (s : State) (u : Nat) (f : Rod → Rod) : (s.modRod u f).saving = s.saving := rfl
@[simp] theorem State.modRod_saved (s : State) (u : Nat) (f : Rod → Rod) : (s.modRod u f).saved = s.saved := rfl
@[simp] theorem State.modRod_dispatch (s : State) (u : Nat) (f : Rod → Rod) : (s.modRod u f).dispatch = s.dispatch := rfl
@[simp] theorem State.modRod_deliveries (s : State) (u : Nat) (f : Rod → Rod) : (s.modRod u f).deliveries = s.deliveries := rfl
@[simp] theorem State.modRod_heldReplies (s : State) (u : Nat) (f : Rod → Rod) : (s.modRod u f).heldReplies = s.heldReplies := rfl
@[simp] theorem State.modRod_launched (s : State) (u : Nat) (f : Rod → Rod) : (s.modRod u f).launched = s.launched := rfl
@[simp] theorem State.modRod_directory (s : State) (u : Nat) (f : Rod → Rod) : (s.modRod u f).directory = s.directory := rfl
@[simp] theorem State.modRod_dirReqs (s : State) (u : Nat) (f : Rod → Rod) : (s.modRod u f).dirReqs = s.dirReqs := rfl
@[simp] theorem State.modRod_fabricWaits (s : State) (u : Nat) (f : Rod → Rod) : (s.modRod u f).fabricWaits = s.fabricWaits := rfl
@[simp] theorem State.modRod_tokensOut (s : State) (u : Nat) (f : Rod → Rod) : (s.modRod u f).tokensOut = s.tokensOut := rfl
@[simp] theorem State.modRod_ctxTable (s : State) (u : Nat) (f : Rod → Rod) : (s.modRod u f).ctxTable = s.ctxTable := rfl
@[simp] theorem State.modRod_sysBlock (s : State) (u : Nat) (f : Rod → Rod) : (s.modRod u f).sysBlock = s.sysBlock := rfl
@[simp] theorem State.modRod_flash (s : State) (u : Nat) (f : Rod → Rod) : (s.modRod u f).flash = s.flash := rfl
@[simp] theorem State.modRod_booted (s : State) (u : Nat) (f : Rod → Rod) : (s.modRod u f).booted = s.booted := rfl
@[simp] theorem State.modRod_reckoner0 (s : State) (u : Nat) (f : Rod → Rod) : (s.modRod u f).reckoner0 = s.reckoner0 := rfl
@[simp] theorem State.modRod_config (s : State) (u : Nat) (f : Rod → Rod) : (s.modRod u f).config = s.config := rfl
@[simp] theorem State.modRod_updating (s : State) (u : Nat) (f : Rod → Rod) : (s.modRod u f).updating = s.updating := rfl
@[simp] theorem State.modRod_updOut (s : State) (u : Nat) (f : Rod → Rod) : (s.modRod u f).updOut = s.updOut := rfl
@[simp] theorem State.modRod_log (s : State) (u : Nat) (f : Rod → Rod) : (s.modRod u f).log = s.log := rfl
@[simp] theorem State.modRod_lost (s : State) (u : Nat) (f : Rod → Rod) : (s.modRod u f).lost = s.lost := rfl
@[simp] theorem State.modRod_flashLog (s : State) (u : Nat) (f : Rod → Rod) : (s.modRod u f).flashLog = s.flashLog := rfl
@[simp] theorem State.modRod_keysErased (s : State) (u : Nat) (f : Rod → Rod) : (s.modRod u f).keysErased = s.keysErased := rfl
@[simp] theorem State.modRod_sample (s : State) (u : Nat) (f : Rod → Rod) : (s.modRod u f).sample = s.sample := rfl
@[simp] theorem State.modRod_prior (s : State) (u : Nat) (f : Rod → Rod) : (s.modRod u f).prior = s.prior := rfl
@[simp] theorem State.modRod_power (s : State) (u : Nat) (f : Rod → Rod) : (s.modRod u f).power = s.power := rfl
@[simp] theorem State.modRod_spdmOut (s : State) (u : Nat) (f : Rod → Rod) : (s.modRod u f).spdmOut = s.spdmOut := rfl
@[simp] theorem State.modRod_alarmHold (s : State) (u : Nat) (f : Rod → Rod) : (s.modRod u f).alarmHold = s.alarmHold := rfl
@[simp] theorem State.modRod_inputs (s : State) (u : Nat) (f : Rod → Rod) : (s.modRod u f).inputs = s.inputs := rfl
@[simp] theorem State.modRod_cur (s : State) (u : Nat) (f : Rod → Rod) : (s.modRod u f).cur = s.cur := rfl
@[simp] theorem State.modRod_passed (s : State) (u : Nat) (f : Rod → Rod) : (s.modRod u f).passed = s.passed := rfl
@[simp] theorem State.modRod_fresh (s : State) (u : Nat) (f : Rod → Rod) : (s.modRod u f).fresh = s.fresh := rfl

/-! ### `State.setRod` -/

@[simp] theorem State.setRod_clk (s : State) (r : Rod) : (s.setRod r).clk = s.clk := rfl
@[simp] theorem State.setRod_boot (s : State) (r : Rod) : (s.setRod r).boot = s.boot := rfl
@[simp] theorem State.setRod_mem (s : State) (r : Rod) : (s.setRod r).mem = s.mem := rfl
@[simp] theorem State.setRod_dirty (s : State) (r : Rod) : (s.setRod r).dirty = s.dirty := rfl
@[simp] theorem State.setRod_badLines (s : State) (r : Rod) : (s.setRod r).badLines = s.badLines := rfl
@[simp] theorem State.setRod_volatile (s : State) (r : Rod) : (s.setRod r).volatile = s.volatile := rfl
@[simp] theorem State.setRod_writes (s : State) (r : Rod) : (s.setRod r).writes = s.writes := rfl
@[simp] theorem State.setRod_stampSince (s : State) (r : Rod) : (s.setRod r).stampSince = s.stampSince := rfl
@[simp] theorem State.setRod_scPoints (s : State) (r : Rod) : (s.setRod r).scPoints = s.scPoints := rfl
@[simp] theorem State.setRod_inflight (s : State) (r : Rod) : (s.setRod r).inflight = s.inflight := rfl
@[simp] theorem State.setRod_frames (s : State) (r : Rod) : (s.setRod r).frames = s.frames := rfl
@[simp] theorem State.setRod_launches (s : State) (r : Rod) : (s.setRod r).launches = s.launches := rfl
@[simp] theorem State.setRod_windowTurn (s : State) (r : Rod) : (s.setRod r).windowTurn = s.windowTurn := rfl
@[simp] theorem State.setRod_cells (s : State) (r : Rod) : (s.setRod r).cells = s.cells := rfl
@[simp] theorem State.setRod_lastSlot (s : State) (r : Rod) : (s.setRod r).lastSlot = s.lastSlot := rfl
@[simp] theorem State.setRod_icache (s : State) (r : Rod) : (s.setRod r).icache = s.icache := rfl
@[simp] theorem State.setRod_tlb (s : State) (r : Rod) : (s.setRod r).tlb = s.tlb := rfl
@[simp] theorem State.setRod_objCache (s : State) (r : Rod) : (s.setRod r).objCache = s.objCache := rfl
@[simp] theorem State.setRod_walks (s : State) (r : Rod) : (s.setRod r).walks = s.walks := rfl
@[simp] theorem State.setRod_walkCache (s : State) (r : Rod) : (s.setRod r).walkCache = s.walkCache := rfl
@[simp] theorem State.setRod_portsDown (s : State) (r : Rod) : (s.setRod r).portsDown = s.portsDown := rfl
@[simp] theorem State.setRod_faultWait (s : State) (r : Rod) : (s.setRod r).faultWait = s.faultWait := rfl
@[simp] theorem State.setRod_faultRecs (s : State) (r : Rod) : (s.setRod r).faultRecs = s.faultRecs := rfl
@[simp] theorem State.setRod_recids (s : State) (r : Rod) : (s.setRod r).recids = s.recids := rfl
@[simp] theorem State.setRod_portFaults (s : State) (r : Rod) : (s.setRod r).portFaults = s.portFaults := rfl
@[simp] theorem State.setRod_tasks (s : State) (r : Rod) : (s.setRod r).tasks = s.tasks := rfl
@[simp] theorem State.setRod_engines (s : State) (r : Rod) : (s.setRod r).engines = s.engines := rfl
@[simp] theorem State.setRod_bursts (s : State) (r : Rod) : (s.setRod r).bursts = s.bursts := rfl
@[simp] theorem State.setRod_governors (s : State) (r : Rod) : (s.setRod r).governors = s.governors := rfl
@[simp] theorem State.setRod_slots (s : State) (r : Rod) : (s.setRod r).slots = s.slots := rfl
@[simp] theorem State.setRod_chains (s : State) (r : Rod) : (s.setRod r).chains = s.chains := rfl
@[simp] theorem State.setRod_resvs (s : State) (r : Rod) : (s.setRod r).resvs = s.resvs := rfl
@[simp] theorem State.setRod_credits (s : State) (r : Rod) : (s.setRod r).credits = s.credits := rfl
@[simp] theorem State.setRod_transfers (s : State) (r : Rod) : (s.setRod r).transfers = s.transfers := rfl
@[simp] theorem State.setRod_slotWakes (s : State) (r : Rod) : (s.setRod r).slotWakes = s.slotWakes := rfl
@[simp] theorem State.setRod_copyEngines (s : State) (r : Rod) : (s.setRod r).copyEngines = s.copyEngines := rfl
@[simp] theorem State.setRod_conts (s : State) (r : Rod) : (s.setRod r).conts = s.conts := rfl
@[simp] theorem State.setRod_rasters (s : State) (r : Rod) : (s.setRod r).rasters = s.rasters := rfl
@[simp] theorem State.setRod_clocks (s : State) (r : Rod) : (s.setRod r).clocks = s.clocks := rfl
@[simp] theorem State.setRod_stampDue (s : State) (r : Rod) : (s.setRod r).stampDue = s.stampDue := rfl
@[simp] theorem State.setRod_dieMsgs (s : State) (r : Rod) : (s.setRod r).dieMsgs = s.dieMsgs := rfl
@[simp] theorem State.setRod_dieCopies (s : State) (r : Rod) : (s.setRod r).dieCopies = s.dieCopies := rfl
@[simp] theorem State.setRod_reckoners (s : State) (r : Rod) : (s.setRod r).reckoners = s.reckoners := rfl
@[simp] theorem State.setRod_upgrades (s : State) (r : Rod) : (s.setRod r).upgrades = s.upgrades := rfl
@[simp] theorem State.setRod_ctxs (s : State) (r : Rod) : (s.setRod r).ctxs = s.ctxs := rfl
@[simp] theorem State.setRod_saving (s : State) (r : Rod) : (s.setRod r).saving = s.saving := rfl
@[simp] theorem State.setRod_saved (s : State) (r : Rod) : (s.setRod r).saved = s.saved := rfl
@[simp] theorem State.setRod_dispatch (s : State) (r : Rod) : (s.setRod r).dispatch = s.dispatch := rfl
@[simp] theorem State.setRod_deliveries (s : State) (r : Rod) : (s.setRod r).deliveries = s.deliveries := rfl
@[simp] theorem State.setRod_heldReplies (s : State) (r : Rod) : (s.setRod r).heldReplies = s.heldReplies := rfl
@[simp] theorem State.setRod_launched (s : State) (r : Rod) : (s.setRod r).launched = s.launched := rfl
@[simp] theorem State.setRod_directory (s : State) (r : Rod) : (s.setRod r).directory = s.directory := rfl
@[simp] theorem State.setRod_dirReqs (s : State) (r : Rod) : (s.setRod r).dirReqs = s.dirReqs := rfl
@[simp] theorem State.setRod_fabricWaits (s : State) (r : Rod) : (s.setRod r).fabricWaits = s.fabricWaits := rfl
@[simp] theorem State.setRod_tokensOut (s : State) (r : Rod) : (s.setRod r).tokensOut = s.tokensOut := rfl
@[simp] theorem State.setRod_ctxTable (s : State) (r : Rod) : (s.setRod r).ctxTable = s.ctxTable := rfl
@[simp] theorem State.setRod_sysBlock (s : State) (r : Rod) : (s.setRod r).sysBlock = s.sysBlock := rfl
@[simp] theorem State.setRod_flash (s : State) (r : Rod) : (s.setRod r).flash = s.flash := rfl
@[simp] theorem State.setRod_booted (s : State) (r : Rod) : (s.setRod r).booted = s.booted := rfl
@[simp] theorem State.setRod_reckoner0 (s : State) (r : Rod) : (s.setRod r).reckoner0 = s.reckoner0 := rfl
@[simp] theorem State.setRod_config (s : State) (r : Rod) : (s.setRod r).config = s.config := rfl
@[simp] theorem State.setRod_updating (s : State) (r : Rod) : (s.setRod r).updating = s.updating := rfl
@[simp] theorem State.setRod_updOut (s : State) (r : Rod) : (s.setRod r).updOut = s.updOut := rfl
@[simp] theorem State.setRod_log (s : State) (r : Rod) : (s.setRod r).log = s.log := rfl
@[simp] theorem State.setRod_lost (s : State) (r : Rod) : (s.setRod r).lost = s.lost := rfl
@[simp] theorem State.setRod_flashLog (s : State) (r : Rod) : (s.setRod r).flashLog = s.flashLog := rfl
@[simp] theorem State.setRod_keysErased (s : State) (r : Rod) : (s.setRod r).keysErased = s.keysErased := rfl
@[simp] theorem State.setRod_sample (s : State) (r : Rod) : (s.setRod r).sample = s.sample := rfl
@[simp] theorem State.setRod_prior (s : State) (r : Rod) : (s.setRod r).prior = s.prior := rfl
@[simp] theorem State.setRod_power (s : State) (r : Rod) : (s.setRod r).power = s.power := rfl
@[simp] theorem State.setRod_spdmOut (s : State) (r : Rod) : (s.setRod r).spdmOut = s.spdmOut := rfl
@[simp] theorem State.setRod_alarmHold (s : State) (r : Rod) : (s.setRod r).alarmHold = s.alarmHold := rfl
@[simp] theorem State.setRod_inputs (s : State) (r : Rod) : (s.setRod r).inputs = s.inputs := rfl
@[simp] theorem State.setRod_cur (s : State) (r : Rod) : (s.setRod r).cur = s.cur := rfl
@[simp] theorem State.setRod_passed (s : State) (r : Rod) : (s.setRod r).passed = s.passed := rfl
@[simp] theorem State.setRod_fresh (s : State) (r : Rod) : (s.setRod r).fresh = s.fresh := rfl

/-! ### `State.dropRod` -/

@[simp] theorem State.dropRod_clk (s : State) (u : Nat) : (s.dropRod u).clk = s.clk := rfl
@[simp] theorem State.dropRod_boot (s : State) (u : Nat) : (s.dropRod u).boot = s.boot := rfl
@[simp] theorem State.dropRod_mem (s : State) (u : Nat) : (s.dropRod u).mem = s.mem := rfl
@[simp] theorem State.dropRod_dirty (s : State) (u : Nat) : (s.dropRod u).dirty = s.dirty := rfl
@[simp] theorem State.dropRod_badLines (s : State) (u : Nat) : (s.dropRod u).badLines = s.badLines := rfl
@[simp] theorem State.dropRod_volatile (s : State) (u : Nat) : (s.dropRod u).volatile = s.volatile := rfl
@[simp] theorem State.dropRod_writes (s : State) (u : Nat) : (s.dropRod u).writes = s.writes := rfl
@[simp] theorem State.dropRod_stampSince (s : State) (u : Nat) : (s.dropRod u).stampSince = s.stampSince := rfl
@[simp] theorem State.dropRod_scPoints (s : State) (u : Nat) : (s.dropRod u).scPoints = s.scPoints := rfl
@[simp] theorem State.dropRod_inflight (s : State) (u : Nat) : (s.dropRod u).inflight = s.inflight := rfl
@[simp] theorem State.dropRod_frames (s : State) (u : Nat) : (s.dropRod u).frames = s.frames := rfl
@[simp] theorem State.dropRod_launches (s : State) (u : Nat) : (s.dropRod u).launches = s.launches := rfl
@[simp] theorem State.dropRod_windowTurn (s : State) (u : Nat) : (s.dropRod u).windowTurn = s.windowTurn := rfl
@[simp] theorem State.dropRod_cells (s : State) (u : Nat) : (s.dropRod u).cells = s.cells := rfl
@[simp] theorem State.dropRod_lastSlot (s : State) (u : Nat) : (s.dropRod u).lastSlot = s.lastSlot := rfl
@[simp] theorem State.dropRod_icache (s : State) (u : Nat) : (s.dropRod u).icache = s.icache := rfl
@[simp] theorem State.dropRod_tlb (s : State) (u : Nat) : (s.dropRod u).tlb = s.tlb := rfl
@[simp] theorem State.dropRod_objCache (s : State) (u : Nat) : (s.dropRod u).objCache = s.objCache := rfl
@[simp] theorem State.dropRod_walks (s : State) (u : Nat) : (s.dropRod u).walks = s.walks := rfl
@[simp] theorem State.dropRod_walkCache (s : State) (u : Nat) : (s.dropRod u).walkCache = s.walkCache := rfl
@[simp] theorem State.dropRod_portsDown (s : State) (u : Nat) : (s.dropRod u).portsDown = s.portsDown := rfl
@[simp] theorem State.dropRod_faultWait (s : State) (u : Nat) : (s.dropRod u).faultWait = s.faultWait := rfl
@[simp] theorem State.dropRod_faultRecs (s : State) (u : Nat) : (s.dropRod u).faultRecs = s.faultRecs := rfl
@[simp] theorem State.dropRod_recids (s : State) (u : Nat) : (s.dropRod u).recids = s.recids := rfl
@[simp] theorem State.dropRod_portFaults (s : State) (u : Nat) : (s.dropRod u).portFaults = s.portFaults := rfl
@[simp] theorem State.dropRod_tasks (s : State) (u : Nat) : (s.dropRod u).tasks = s.tasks := rfl
@[simp] theorem State.dropRod_engines (s : State) (u : Nat) : (s.dropRod u).engines = s.engines := rfl
@[simp] theorem State.dropRod_bursts (s : State) (u : Nat) : (s.dropRod u).bursts = s.bursts := rfl
@[simp] theorem State.dropRod_governors (s : State) (u : Nat) : (s.dropRod u).governors = s.governors := rfl
@[simp] theorem State.dropRod_slots (s : State) (u : Nat) : (s.dropRod u).slots = s.slots := rfl
@[simp] theorem State.dropRod_chains (s : State) (u : Nat) : (s.dropRod u).chains = s.chains := rfl
@[simp] theorem State.dropRod_resvs (s : State) (u : Nat) : (s.dropRod u).resvs = s.resvs := rfl
@[simp] theorem State.dropRod_credits (s : State) (u : Nat) : (s.dropRod u).credits = s.credits := rfl
@[simp] theorem State.dropRod_transfers (s : State) (u : Nat) : (s.dropRod u).transfers = s.transfers := rfl
@[simp] theorem State.dropRod_slotWakes (s : State) (u : Nat) : (s.dropRod u).slotWakes = s.slotWakes := rfl
@[simp] theorem State.dropRod_copyEngines (s : State) (u : Nat) : (s.dropRod u).copyEngines = s.copyEngines := rfl
@[simp] theorem State.dropRod_conts (s : State) (u : Nat) : (s.dropRod u).conts = s.conts := rfl
@[simp] theorem State.dropRod_rasters (s : State) (u : Nat) : (s.dropRod u).rasters = s.rasters := rfl
@[simp] theorem State.dropRod_clocks (s : State) (u : Nat) : (s.dropRod u).clocks = s.clocks := rfl
@[simp] theorem State.dropRod_stampDue (s : State) (u : Nat) : (s.dropRod u).stampDue = s.stampDue := rfl
@[simp] theorem State.dropRod_dieMsgs (s : State) (u : Nat) : (s.dropRod u).dieMsgs = s.dieMsgs := rfl
@[simp] theorem State.dropRod_dieCopies (s : State) (u : Nat) : (s.dropRod u).dieCopies = s.dieCopies := rfl
@[simp] theorem State.dropRod_reckoners (s : State) (u : Nat) : (s.dropRod u).reckoners = s.reckoners := rfl
@[simp] theorem State.dropRod_upgrades (s : State) (u : Nat) : (s.dropRod u).upgrades = s.upgrades := rfl
@[simp] theorem State.dropRod_ctxs (s : State) (u : Nat) : (s.dropRod u).ctxs = s.ctxs := rfl
@[simp] theorem State.dropRod_saving (s : State) (u : Nat) : (s.dropRod u).saving = s.saving := rfl
@[simp] theorem State.dropRod_saved (s : State) (u : Nat) : (s.dropRod u).saved = s.saved := rfl
@[simp] theorem State.dropRod_dispatch (s : State) (u : Nat) : (s.dropRod u).dispatch = s.dispatch := rfl
@[simp] theorem State.dropRod_deliveries (s : State) (u : Nat) : (s.dropRod u).deliveries = s.deliveries := rfl
@[simp] theorem State.dropRod_heldReplies (s : State) (u : Nat) : (s.dropRod u).heldReplies = s.heldReplies := rfl
@[simp] theorem State.dropRod_launched (s : State) (u : Nat) : (s.dropRod u).launched = s.launched := rfl
@[simp] theorem State.dropRod_directory (s : State) (u : Nat) : (s.dropRod u).directory = s.directory := rfl
@[simp] theorem State.dropRod_dirReqs (s : State) (u : Nat) : (s.dropRod u).dirReqs = s.dirReqs := rfl
@[simp] theorem State.dropRod_fabricWaits (s : State) (u : Nat) : (s.dropRod u).fabricWaits = s.fabricWaits := rfl
@[simp] theorem State.dropRod_tokensOut (s : State) (u : Nat) : (s.dropRod u).tokensOut = s.tokensOut := rfl
@[simp] theorem State.dropRod_ctxTable (s : State) (u : Nat) : (s.dropRod u).ctxTable = s.ctxTable := rfl
@[simp] theorem State.dropRod_sysBlock (s : State) (u : Nat) : (s.dropRod u).sysBlock = s.sysBlock := rfl
@[simp] theorem State.dropRod_flash (s : State) (u : Nat) : (s.dropRod u).flash = s.flash := rfl
@[simp] theorem State.dropRod_booted (s : State) (u : Nat) : (s.dropRod u).booted = s.booted := rfl
@[simp] theorem State.dropRod_reckoner0 (s : State) (u : Nat) : (s.dropRod u).reckoner0 = s.reckoner0 := rfl
@[simp] theorem State.dropRod_config (s : State) (u : Nat) : (s.dropRod u).config = s.config := rfl
@[simp] theorem State.dropRod_updating (s : State) (u : Nat) : (s.dropRod u).updating = s.updating := rfl
@[simp] theorem State.dropRod_updOut (s : State) (u : Nat) : (s.dropRod u).updOut = s.updOut := rfl
@[simp] theorem State.dropRod_log (s : State) (u : Nat) : (s.dropRod u).log = s.log := rfl
@[simp] theorem State.dropRod_lost (s : State) (u : Nat) : (s.dropRod u).lost = s.lost := rfl
@[simp] theorem State.dropRod_flashLog (s : State) (u : Nat) : (s.dropRod u).flashLog = s.flashLog := rfl
@[simp] theorem State.dropRod_keysErased (s : State) (u : Nat) : (s.dropRod u).keysErased = s.keysErased := rfl
@[simp] theorem State.dropRod_sample (s : State) (u : Nat) : (s.dropRod u).sample = s.sample := rfl
@[simp] theorem State.dropRod_prior (s : State) (u : Nat) : (s.dropRod u).prior = s.prior := rfl
@[simp] theorem State.dropRod_power (s : State) (u : Nat) : (s.dropRod u).power = s.power := rfl
@[simp] theorem State.dropRod_spdmOut (s : State) (u : Nat) : (s.dropRod u).spdmOut = s.spdmOut := rfl
@[simp] theorem State.dropRod_alarmHold (s : State) (u : Nat) : (s.dropRod u).alarmHold = s.alarmHold := rfl
@[simp] theorem State.dropRod_inputs (s : State) (u : Nat) : (s.dropRod u).inputs = s.inputs := rfl
@[simp] theorem State.dropRod_cur (s : State) (u : Nat) : (s.dropRod u).cur = s.cur := rfl
@[simp] theorem State.dropRod_passed (s : State) (u : Nat) : (s.dropRod u).passed = s.passed := rfl
@[simp] theorem State.dropRod_fresh (s : State) (u : Nat) : (s.dropRod u).fresh = s.fresh := rfl

/-! ### `State.modFrame` -/

@[simp] theorem State.modFrame_clk (s : State) (u : Nat) (g : Frame → Frame) : (s.modFrame u g).clk = s.clk := rfl
@[simp] theorem State.modFrame_boot (s : State) (u : Nat) (g : Frame → Frame) : (s.modFrame u g).boot = s.boot := rfl
@[simp] theorem State.modFrame_mem (s : State) (u : Nat) (g : Frame → Frame) : (s.modFrame u g).mem = s.mem := rfl
@[simp] theorem State.modFrame_dirty (s : State) (u : Nat) (g : Frame → Frame) : (s.modFrame u g).dirty = s.dirty := rfl
@[simp] theorem State.modFrame_badLines (s : State) (u : Nat) (g : Frame → Frame) : (s.modFrame u g).badLines = s.badLines := rfl
@[simp] theorem State.modFrame_volatile (s : State) (u : Nat) (g : Frame → Frame) : (s.modFrame u g).volatile = s.volatile := rfl
@[simp] theorem State.modFrame_writes (s : State) (u : Nat) (g : Frame → Frame) : (s.modFrame u g).writes = s.writes := rfl
@[simp] theorem State.modFrame_stampSince (s : State) (u : Nat) (g : Frame → Frame) : (s.modFrame u g).stampSince = s.stampSince := rfl
@[simp] theorem State.modFrame_scPoints (s : State) (u : Nat) (g : Frame → Frame) : (s.modFrame u g).scPoints = s.scPoints := rfl
@[simp] theorem State.modFrame_inflight (s : State) (u : Nat) (g : Frame → Frame) : (s.modFrame u g).inflight = s.inflight := rfl
@[simp] theorem State.modFrame_rods (s : State) (u : Nat) (g : Frame → Frame) : (s.modFrame u g).rods = s.rods := rfl
@[simp] theorem State.modFrame_launches (s : State) (u : Nat) (g : Frame → Frame) : (s.modFrame u g).launches = s.launches := rfl
@[simp] theorem State.modFrame_windowTurn (s : State) (u : Nat) (g : Frame → Frame) : (s.modFrame u g).windowTurn = s.windowTurn := rfl
@[simp] theorem State.modFrame_cells (s : State) (u : Nat) (g : Frame → Frame) : (s.modFrame u g).cells = s.cells := rfl
@[simp] theorem State.modFrame_lastSlot (s : State) (u : Nat) (g : Frame → Frame) : (s.modFrame u g).lastSlot = s.lastSlot := rfl
@[simp] theorem State.modFrame_icache (s : State) (u : Nat) (g : Frame → Frame) : (s.modFrame u g).icache = s.icache := rfl
@[simp] theorem State.modFrame_tlb (s : State) (u : Nat) (g : Frame → Frame) : (s.modFrame u g).tlb = s.tlb := rfl
@[simp] theorem State.modFrame_objCache (s : State) (u : Nat) (g : Frame → Frame) : (s.modFrame u g).objCache = s.objCache := rfl
@[simp] theorem State.modFrame_walks (s : State) (u : Nat) (g : Frame → Frame) : (s.modFrame u g).walks = s.walks := rfl
@[simp] theorem State.modFrame_walkCache (s : State) (u : Nat) (g : Frame → Frame) : (s.modFrame u g).walkCache = s.walkCache := rfl
@[simp] theorem State.modFrame_portsDown (s : State) (u : Nat) (g : Frame → Frame) : (s.modFrame u g).portsDown = s.portsDown := rfl
@[simp] theorem State.modFrame_faultWait (s : State) (u : Nat) (g : Frame → Frame) : (s.modFrame u g).faultWait = s.faultWait := rfl
@[simp] theorem State.modFrame_faultRecs (s : State) (u : Nat) (g : Frame → Frame) : (s.modFrame u g).faultRecs = s.faultRecs := rfl
@[simp] theorem State.modFrame_recids (s : State) (u : Nat) (g : Frame → Frame) : (s.modFrame u g).recids = s.recids := rfl
@[simp] theorem State.modFrame_portFaults (s : State) (u : Nat) (g : Frame → Frame) : (s.modFrame u g).portFaults = s.portFaults := rfl
@[simp] theorem State.modFrame_tasks (s : State) (u : Nat) (g : Frame → Frame) : (s.modFrame u g).tasks = s.tasks := rfl
@[simp] theorem State.modFrame_engines (s : State) (u : Nat) (g : Frame → Frame) : (s.modFrame u g).engines = s.engines := rfl
@[simp] theorem State.modFrame_bursts (s : State) (u : Nat) (g : Frame → Frame) : (s.modFrame u g).bursts = s.bursts := rfl
@[simp] theorem State.modFrame_governors (s : State) (u : Nat) (g : Frame → Frame) : (s.modFrame u g).governors = s.governors := rfl
@[simp] theorem State.modFrame_slots (s : State) (u : Nat) (g : Frame → Frame) : (s.modFrame u g).slots = s.slots := rfl
@[simp] theorem State.modFrame_chains (s : State) (u : Nat) (g : Frame → Frame) : (s.modFrame u g).chains = s.chains := rfl
@[simp] theorem State.modFrame_resvs (s : State) (u : Nat) (g : Frame → Frame) : (s.modFrame u g).resvs = s.resvs := rfl
@[simp] theorem State.modFrame_credits (s : State) (u : Nat) (g : Frame → Frame) : (s.modFrame u g).credits = s.credits := rfl
@[simp] theorem State.modFrame_transfers (s : State) (u : Nat) (g : Frame → Frame) : (s.modFrame u g).transfers = s.transfers := rfl
@[simp] theorem State.modFrame_slotWakes (s : State) (u : Nat) (g : Frame → Frame) : (s.modFrame u g).slotWakes = s.slotWakes := rfl
@[simp] theorem State.modFrame_copyEngines (s : State) (u : Nat) (g : Frame → Frame) : (s.modFrame u g).copyEngines = s.copyEngines := rfl
@[simp] theorem State.modFrame_conts (s : State) (u : Nat) (g : Frame → Frame) : (s.modFrame u g).conts = s.conts := rfl
@[simp] theorem State.modFrame_rasters (s : State) (u : Nat) (g : Frame → Frame) : (s.modFrame u g).rasters = s.rasters := rfl
@[simp] theorem State.modFrame_clocks (s : State) (u : Nat) (g : Frame → Frame) : (s.modFrame u g).clocks = s.clocks := rfl
@[simp] theorem State.modFrame_stampDue (s : State) (u : Nat) (g : Frame → Frame) : (s.modFrame u g).stampDue = s.stampDue := rfl
@[simp] theorem State.modFrame_dieMsgs (s : State) (u : Nat) (g : Frame → Frame) : (s.modFrame u g).dieMsgs = s.dieMsgs := rfl
@[simp] theorem State.modFrame_dieCopies (s : State) (u : Nat) (g : Frame → Frame) : (s.modFrame u g).dieCopies = s.dieCopies := rfl
@[simp] theorem State.modFrame_reckoners (s : State) (u : Nat) (g : Frame → Frame) : (s.modFrame u g).reckoners = s.reckoners := rfl
@[simp] theorem State.modFrame_upgrades (s : State) (u : Nat) (g : Frame → Frame) : (s.modFrame u g).upgrades = s.upgrades := rfl
@[simp] theorem State.modFrame_ctxs (s : State) (u : Nat) (g : Frame → Frame) : (s.modFrame u g).ctxs = s.ctxs := rfl
@[simp] theorem State.modFrame_saving (s : State) (u : Nat) (g : Frame → Frame) : (s.modFrame u g).saving = s.saving := rfl
@[simp] theorem State.modFrame_saved (s : State) (u : Nat) (g : Frame → Frame) : (s.modFrame u g).saved = s.saved := rfl
@[simp] theorem State.modFrame_dispatch (s : State) (u : Nat) (g : Frame → Frame) : (s.modFrame u g).dispatch = s.dispatch := rfl
@[simp] theorem State.modFrame_deliveries (s : State) (u : Nat) (g : Frame → Frame) : (s.modFrame u g).deliveries = s.deliveries := rfl
@[simp] theorem State.modFrame_heldReplies (s : State) (u : Nat) (g : Frame → Frame) : (s.modFrame u g).heldReplies = s.heldReplies := rfl
@[simp] theorem State.modFrame_launched (s : State) (u : Nat) (g : Frame → Frame) : (s.modFrame u g).launched = s.launched := rfl
@[simp] theorem State.modFrame_directory (s : State) (u : Nat) (g : Frame → Frame) : (s.modFrame u g).directory = s.directory := rfl
@[simp] theorem State.modFrame_dirReqs (s : State) (u : Nat) (g : Frame → Frame) : (s.modFrame u g).dirReqs = s.dirReqs := rfl
@[simp] theorem State.modFrame_fabricWaits (s : State) (u : Nat) (g : Frame → Frame) : (s.modFrame u g).fabricWaits = s.fabricWaits := rfl
@[simp] theorem State.modFrame_tokensOut (s : State) (u : Nat) (g : Frame → Frame) : (s.modFrame u g).tokensOut = s.tokensOut := rfl
@[simp] theorem State.modFrame_ctxTable (s : State) (u : Nat) (g : Frame → Frame) : (s.modFrame u g).ctxTable = s.ctxTable := rfl
@[simp] theorem State.modFrame_sysBlock (s : State) (u : Nat) (g : Frame → Frame) : (s.modFrame u g).sysBlock = s.sysBlock := rfl
@[simp] theorem State.modFrame_flash (s : State) (u : Nat) (g : Frame → Frame) : (s.modFrame u g).flash = s.flash := rfl
@[simp] theorem State.modFrame_booted (s : State) (u : Nat) (g : Frame → Frame) : (s.modFrame u g).booted = s.booted := rfl
@[simp] theorem State.modFrame_reckoner0 (s : State) (u : Nat) (g : Frame → Frame) : (s.modFrame u g).reckoner0 = s.reckoner0 := rfl
@[simp] theorem State.modFrame_config (s : State) (u : Nat) (g : Frame → Frame) : (s.modFrame u g).config = s.config := rfl
@[simp] theorem State.modFrame_updating (s : State) (u : Nat) (g : Frame → Frame) : (s.modFrame u g).updating = s.updating := rfl
@[simp] theorem State.modFrame_updOut (s : State) (u : Nat) (g : Frame → Frame) : (s.modFrame u g).updOut = s.updOut := rfl
@[simp] theorem State.modFrame_log (s : State) (u : Nat) (g : Frame → Frame) : (s.modFrame u g).log = s.log := rfl
@[simp] theorem State.modFrame_lost (s : State) (u : Nat) (g : Frame → Frame) : (s.modFrame u g).lost = s.lost := rfl
@[simp] theorem State.modFrame_flashLog (s : State) (u : Nat) (g : Frame → Frame) : (s.modFrame u g).flashLog = s.flashLog := rfl
@[simp] theorem State.modFrame_keysErased (s : State) (u : Nat) (g : Frame → Frame) : (s.modFrame u g).keysErased = s.keysErased := rfl
@[simp] theorem State.modFrame_sample (s : State) (u : Nat) (g : Frame → Frame) : (s.modFrame u g).sample = s.sample := rfl
@[simp] theorem State.modFrame_prior (s : State) (u : Nat) (g : Frame → Frame) : (s.modFrame u g).prior = s.prior := rfl
@[simp] theorem State.modFrame_power (s : State) (u : Nat) (g : Frame → Frame) : (s.modFrame u g).power = s.power := rfl
@[simp] theorem State.modFrame_spdmOut (s : State) (u : Nat) (g : Frame → Frame) : (s.modFrame u g).spdmOut = s.spdmOut := rfl
@[simp] theorem State.modFrame_alarmHold (s : State) (u : Nat) (g : Frame → Frame) : (s.modFrame u g).alarmHold = s.alarmHold := rfl
@[simp] theorem State.modFrame_inputs (s : State) (u : Nat) (g : Frame → Frame) : (s.modFrame u g).inputs = s.inputs := rfl
@[simp] theorem State.modFrame_cur (s : State) (u : Nat) (g : Frame → Frame) : (s.modFrame u g).cur = s.cur := rfl
@[simp] theorem State.modFrame_passed (s : State) (u : Nat) (g : Frame → Frame) : (s.modFrame u g).passed = s.passed := rfl
@[simp] theorem State.modFrame_fresh (s : State) (u : Nat) (g : Frame → Frame) : (s.modFrame u g).fresh = s.fresh := rfl

/-! ### `State.tick` -/

@[simp] theorem State.tick_boot (s : State) (n : Nat) : (s.tick n).boot = s.boot := rfl
@[simp] theorem State.tick_mem (s : State) (n : Nat) : (s.tick n).mem = s.mem := rfl
@[simp] theorem State.tick_dirty (s : State) (n : Nat) : (s.tick n).dirty = s.dirty := rfl
@[simp] theorem State.tick_badLines (s : State) (n : Nat) : (s.tick n).badLines = s.badLines := rfl
@[simp] theorem State.tick_volatile (s : State) (n : Nat) : (s.tick n).volatile = s.volatile := rfl
@[simp] theorem State.tick_writes (s : State) (n : Nat) : (s.tick n).writes = s.writes := rfl
@[simp] theorem State.tick_stampSince (s : State) (n : Nat) : (s.tick n).stampSince = s.stampSince := rfl
@[simp] theorem State.tick_scPoints (s : State) (n : Nat) : (s.tick n).scPoints = s.scPoints := rfl
@[simp] theorem State.tick_inflight (s : State) (n : Nat) : (s.tick n).inflight = s.inflight := rfl
@[simp] theorem State.tick_frames (s : State) (n : Nat) : (s.tick n).frames = s.frames := rfl
@[simp] theorem State.tick_launches (s : State) (n : Nat) : (s.tick n).launches = s.launches := rfl
@[simp] theorem State.tick_windowTurn (s : State) (n : Nat) : (s.tick n).windowTurn = s.windowTurn := rfl
@[simp] theorem State.tick_cells (s : State) (n : Nat) : (s.tick n).cells = s.cells := rfl
@[simp] theorem State.tick_lastSlot (s : State) (n : Nat) : (s.tick n).lastSlot = s.lastSlot := rfl
@[simp] theorem State.tick_icache (s : State) (n : Nat) : (s.tick n).icache = s.icache := rfl
@[simp] theorem State.tick_tlb (s : State) (n : Nat) : (s.tick n).tlb = s.tlb := rfl
@[simp] theorem State.tick_objCache (s : State) (n : Nat) : (s.tick n).objCache = s.objCache := rfl
@[simp] theorem State.tick_walks (s : State) (n : Nat) : (s.tick n).walks = s.walks := rfl
@[simp] theorem State.tick_walkCache (s : State) (n : Nat) : (s.tick n).walkCache = s.walkCache := rfl
@[simp] theorem State.tick_portsDown (s : State) (n : Nat) : (s.tick n).portsDown = s.portsDown := rfl
@[simp] theorem State.tick_faultWait (s : State) (n : Nat) : (s.tick n).faultWait = s.faultWait := rfl
@[simp] theorem State.tick_faultRecs (s : State) (n : Nat) : (s.tick n).faultRecs = s.faultRecs := rfl
@[simp] theorem State.tick_recids (s : State) (n : Nat) : (s.tick n).recids = s.recids := rfl
@[simp] theorem State.tick_portFaults (s : State) (n : Nat) : (s.tick n).portFaults = s.portFaults := rfl
@[simp] theorem State.tick_tasks (s : State) (n : Nat) : (s.tick n).tasks = s.tasks := rfl
@[simp] theorem State.tick_engines (s : State) (n : Nat) : (s.tick n).engines = s.engines := rfl
@[simp] theorem State.tick_bursts (s : State) (n : Nat) : (s.tick n).bursts = s.bursts := rfl
@[simp] theorem State.tick_governors (s : State) (n : Nat) : (s.tick n).governors = s.governors := rfl
@[simp] theorem State.tick_slots (s : State) (n : Nat) : (s.tick n).slots = s.slots := rfl
@[simp] theorem State.tick_chains (s : State) (n : Nat) : (s.tick n).chains = s.chains := rfl
@[simp] theorem State.tick_resvs (s : State) (n : Nat) : (s.tick n).resvs = s.resvs := rfl
@[simp] theorem State.tick_credits (s : State) (n : Nat) : (s.tick n).credits = s.credits := rfl
@[simp] theorem State.tick_transfers (s : State) (n : Nat) : (s.tick n).transfers = s.transfers := rfl
@[simp] theorem State.tick_slotWakes (s : State) (n : Nat) : (s.tick n).slotWakes = s.slotWakes := rfl
@[simp] theorem State.tick_copyEngines (s : State) (n : Nat) : (s.tick n).copyEngines = s.copyEngines := rfl
@[simp] theorem State.tick_conts (s : State) (n : Nat) : (s.tick n).conts = s.conts := rfl
@[simp] theorem State.tick_rasters (s : State) (n : Nat) : (s.tick n).rasters = s.rasters := rfl
@[simp] theorem State.tick_clocks (s : State) (n : Nat) : (s.tick n).clocks = s.clocks := rfl
@[simp] theorem State.tick_stampDue (s : State) (n : Nat) : (s.tick n).stampDue = s.stampDue := rfl
@[simp] theorem State.tick_dieMsgs (s : State) (n : Nat) : (s.tick n).dieMsgs = s.dieMsgs := rfl
@[simp] theorem State.tick_dieCopies (s : State) (n : Nat) : (s.tick n).dieCopies = s.dieCopies := rfl
@[simp] theorem State.tick_reckoners (s : State) (n : Nat) : (s.tick n).reckoners = s.reckoners := rfl
@[simp] theorem State.tick_upgrades (s : State) (n : Nat) : (s.tick n).upgrades = s.upgrades := rfl
@[simp] theorem State.tick_ctxs (s : State) (n : Nat) : (s.tick n).ctxs = s.ctxs := rfl
@[simp] theorem State.tick_saving (s : State) (n : Nat) : (s.tick n).saving = s.saving := rfl
@[simp] theorem State.tick_saved (s : State) (n : Nat) : (s.tick n).saved = s.saved := rfl
@[simp] theorem State.tick_dispatch (s : State) (n : Nat) : (s.tick n).dispatch = s.dispatch := rfl
@[simp] theorem State.tick_deliveries (s : State) (n : Nat) : (s.tick n).deliveries = s.deliveries := rfl
@[simp] theorem State.tick_heldReplies (s : State) (n : Nat) : (s.tick n).heldReplies = s.heldReplies := rfl
@[simp] theorem State.tick_launched (s : State) (n : Nat) : (s.tick n).launched = s.launched := rfl
@[simp] theorem State.tick_directory (s : State) (n : Nat) : (s.tick n).directory = s.directory := rfl
@[simp] theorem State.tick_dirReqs (s : State) (n : Nat) : (s.tick n).dirReqs = s.dirReqs := rfl
@[simp] theorem State.tick_fabricWaits (s : State) (n : Nat) : (s.tick n).fabricWaits = s.fabricWaits := rfl
@[simp] theorem State.tick_tokensOut (s : State) (n : Nat) : (s.tick n).tokensOut = s.tokensOut := rfl
@[simp] theorem State.tick_ctxTable (s : State) (n : Nat) : (s.tick n).ctxTable = s.ctxTable := rfl
@[simp] theorem State.tick_sysBlock (s : State) (n : Nat) : (s.tick n).sysBlock = s.sysBlock := rfl
@[simp] theorem State.tick_flash (s : State) (n : Nat) : (s.tick n).flash = s.flash := rfl
@[simp] theorem State.tick_booted (s : State) (n : Nat) : (s.tick n).booted = s.booted := rfl
@[simp] theorem State.tick_reckoner0 (s : State) (n : Nat) : (s.tick n).reckoner0 = s.reckoner0 := rfl
@[simp] theorem State.tick_config (s : State) (n : Nat) : (s.tick n).config = s.config := rfl
@[simp] theorem State.tick_updating (s : State) (n : Nat) : (s.tick n).updating = s.updating := rfl
@[simp] theorem State.tick_updOut (s : State) (n : Nat) : (s.tick n).updOut = s.updOut := rfl
@[simp] theorem State.tick_log (s : State) (n : Nat) : (s.tick n).log = s.log := rfl
@[simp] theorem State.tick_lost (s : State) (n : Nat) : (s.tick n).lost = s.lost := rfl
@[simp] theorem State.tick_flashLog (s : State) (n : Nat) : (s.tick n).flashLog = s.flashLog := rfl
@[simp] theorem State.tick_keysErased (s : State) (n : Nat) : (s.tick n).keysErased = s.keysErased := rfl
@[simp] theorem State.tick_sample (s : State) (n : Nat) : (s.tick n).sample = s.sample := rfl
@[simp] theorem State.tick_prior (s : State) (n : Nat) : (s.tick n).prior = s.prior := rfl
@[simp] theorem State.tick_power (s : State) (n : Nat) : (s.tick n).power = s.power := rfl
@[simp] theorem State.tick_spdmOut (s : State) (n : Nat) : (s.tick n).spdmOut = s.spdmOut := rfl
@[simp] theorem State.tick_alarmHold (s : State) (n : Nat) : (s.tick n).alarmHold = s.alarmHold := rfl
@[simp] theorem State.tick_inputs (s : State) (n : Nat) : (s.tick n).inputs = s.inputs := rfl
@[simp] theorem State.tick_cur (s : State) (n : Nat) : (s.tick n).cur = s.cur := rfl
@[simp] theorem State.tick_passed (s : State) (n : Nat) : (s.tick n).passed = s.passed := rfl
@[simp] theorem State.tick_fresh (s : State) (n : Nat) : (s.tick n).fresh = s.fresh := rfl

/-! ### `State.take` -/

@[simp] theorem State.take_clk (s : State) : (s.take.2).clk = s.clk := rfl
@[simp] theorem State.take_boot (s : State) : (s.take.2).boot = s.boot := rfl
@[simp] theorem State.take_mem (s : State) : (s.take.2).mem = s.mem := rfl
@[simp] theorem State.take_dirty (s : State) : (s.take.2).dirty = s.dirty := rfl
@[simp] theorem State.take_badLines (s : State) : (s.take.2).badLines = s.badLines := rfl
@[simp] theorem State.take_volatile (s : State) : (s.take.2).volatile = s.volatile := rfl
@[simp] theorem State.take_writes (s : State) : (s.take.2).writes = s.writes := rfl
@[simp] theorem State.take_stampSince (s : State) : (s.take.2).stampSince = s.stampSince := rfl
@[simp] theorem State.take_scPoints (s : State) : (s.take.2).scPoints = s.scPoints := rfl
@[simp] theorem State.take_inflight (s : State) : (s.take.2).inflight = s.inflight := rfl
@[simp] theorem State.take_rods (s : State) : (s.take.2).rods = s.rods := rfl
@[simp] theorem State.take_frames (s : State) : (s.take.2).frames = s.frames := rfl
@[simp] theorem State.take_launches (s : State) : (s.take.2).launches = s.launches := rfl
@[simp] theorem State.take_windowTurn (s : State) : (s.take.2).windowTurn = s.windowTurn := rfl
@[simp] theorem State.take_cells (s : State) : (s.take.2).cells = s.cells := rfl
@[simp] theorem State.take_lastSlot (s : State) : (s.take.2).lastSlot = s.lastSlot := rfl
@[simp] theorem State.take_icache (s : State) : (s.take.2).icache = s.icache := rfl
@[simp] theorem State.take_tlb (s : State) : (s.take.2).tlb = s.tlb := rfl
@[simp] theorem State.take_objCache (s : State) : (s.take.2).objCache = s.objCache := rfl
@[simp] theorem State.take_walks (s : State) : (s.take.2).walks = s.walks := rfl
@[simp] theorem State.take_walkCache (s : State) : (s.take.2).walkCache = s.walkCache := rfl
@[simp] theorem State.take_portsDown (s : State) : (s.take.2).portsDown = s.portsDown := rfl
@[simp] theorem State.take_faultWait (s : State) : (s.take.2).faultWait = s.faultWait := rfl
@[simp] theorem State.take_faultRecs (s : State) : (s.take.2).faultRecs = s.faultRecs := rfl
@[simp] theorem State.take_recids (s : State) : (s.take.2).recids = s.recids := rfl
@[simp] theorem State.take_portFaults (s : State) : (s.take.2).portFaults = s.portFaults := rfl
@[simp] theorem State.take_tasks (s : State) : (s.take.2).tasks = s.tasks := rfl
@[simp] theorem State.take_engines (s : State) : (s.take.2).engines = s.engines := rfl
@[simp] theorem State.take_bursts (s : State) : (s.take.2).bursts = s.bursts := rfl
@[simp] theorem State.take_governors (s : State) : (s.take.2).governors = s.governors := rfl
@[simp] theorem State.take_slots (s : State) : (s.take.2).slots = s.slots := rfl
@[simp] theorem State.take_chains (s : State) : (s.take.2).chains = s.chains := rfl
@[simp] theorem State.take_resvs (s : State) : (s.take.2).resvs = s.resvs := rfl
@[simp] theorem State.take_credits (s : State) : (s.take.2).credits = s.credits := rfl
@[simp] theorem State.take_transfers (s : State) : (s.take.2).transfers = s.transfers := rfl
@[simp] theorem State.take_slotWakes (s : State) : (s.take.2).slotWakes = s.slotWakes := rfl
@[simp] theorem State.take_copyEngines (s : State) : (s.take.2).copyEngines = s.copyEngines := rfl
@[simp] theorem State.take_conts (s : State) : (s.take.2).conts = s.conts := rfl
@[simp] theorem State.take_rasters (s : State) : (s.take.2).rasters = s.rasters := rfl
@[simp] theorem State.take_clocks (s : State) : (s.take.2).clocks = s.clocks := rfl
@[simp] theorem State.take_stampDue (s : State) : (s.take.2).stampDue = s.stampDue := rfl
@[simp] theorem State.take_dieMsgs (s : State) : (s.take.2).dieMsgs = s.dieMsgs := rfl
@[simp] theorem State.take_dieCopies (s : State) : (s.take.2).dieCopies = s.dieCopies := rfl
@[simp] theorem State.take_reckoners (s : State) : (s.take.2).reckoners = s.reckoners := rfl
@[simp] theorem State.take_upgrades (s : State) : (s.take.2).upgrades = s.upgrades := rfl
@[simp] theorem State.take_ctxs (s : State) : (s.take.2).ctxs = s.ctxs := rfl
@[simp] theorem State.take_saving (s : State) : (s.take.2).saving = s.saving := rfl
@[simp] theorem State.take_saved (s : State) : (s.take.2).saved = s.saved := rfl
@[simp] theorem State.take_dispatch (s : State) : (s.take.2).dispatch = s.dispatch := rfl
@[simp] theorem State.take_deliveries (s : State) : (s.take.2).deliveries = s.deliveries := rfl
@[simp] theorem State.take_heldReplies (s : State) : (s.take.2).heldReplies = s.heldReplies := rfl
@[simp] theorem State.take_launched (s : State) : (s.take.2).launched = s.launched := rfl
@[simp] theorem State.take_directory (s : State) : (s.take.2).directory = s.directory := rfl
@[simp] theorem State.take_dirReqs (s : State) : (s.take.2).dirReqs = s.dirReqs := rfl
@[simp] theorem State.take_fabricWaits (s : State) : (s.take.2).fabricWaits = s.fabricWaits := rfl
@[simp] theorem State.take_tokensOut (s : State) : (s.take.2).tokensOut = s.tokensOut := rfl
@[simp] theorem State.take_ctxTable (s : State) : (s.take.2).ctxTable = s.ctxTable := rfl
@[simp] theorem State.take_sysBlock (s : State) : (s.take.2).sysBlock = s.sysBlock := rfl
@[simp] theorem State.take_flash (s : State) : (s.take.2).flash = s.flash := rfl
@[simp] theorem State.take_booted (s : State) : (s.take.2).booted = s.booted := rfl
@[simp] theorem State.take_reckoner0 (s : State) : (s.take.2).reckoner0 = s.reckoner0 := rfl
@[simp] theorem State.take_config (s : State) : (s.take.2).config = s.config := rfl
@[simp] theorem State.take_updating (s : State) : (s.take.2).updating = s.updating := rfl
@[simp] theorem State.take_updOut (s : State) : (s.take.2).updOut = s.updOut := rfl
@[simp] theorem State.take_log (s : State) : (s.take.2).log = s.log := rfl
@[simp] theorem State.take_lost (s : State) : (s.take.2).lost = s.lost := rfl
@[simp] theorem State.take_flashLog (s : State) : (s.take.2).flashLog = s.flashLog := rfl
@[simp] theorem State.take_keysErased (s : State) : (s.take.2).keysErased = s.keysErased := rfl
@[simp] theorem State.take_sample (s : State) : (s.take.2).sample = s.sample := rfl
@[simp] theorem State.take_prior (s : State) : (s.take.2).prior = s.prior := rfl
@[simp] theorem State.take_power (s : State) : (s.take.2).power = s.power := rfl
@[simp] theorem State.take_spdmOut (s : State) : (s.take.2).spdmOut = s.spdmOut := rfl
@[simp] theorem State.take_alarmHold (s : State) : (s.take.2).alarmHold = s.alarmHold := rfl
@[simp] theorem State.take_inputs (s : State) : (s.take.2).inputs = s.inputs := rfl
@[simp] theorem State.take_cur (s : State) : (s.take.2).cur = s.cur := rfl
@[simp] theorem State.take_passed (s : State) : (s.take.2).passed = s.passed := rfl

/-! ### `State.setCell` -/

@[simp] theorem State.setCell_clk (s : State) (core buf cell : Nat) (c : Cell) : (s.setCell core buf cell c).clk = s.clk := rfl
@[simp] theorem State.setCell_boot (s : State) (core buf cell : Nat) (c : Cell) : (s.setCell core buf cell c).boot = s.boot := rfl
@[simp] theorem State.setCell_mem (s : State) (core buf cell : Nat) (c : Cell) : (s.setCell core buf cell c).mem = s.mem := rfl
@[simp] theorem State.setCell_dirty (s : State) (core buf cell : Nat) (c : Cell) : (s.setCell core buf cell c).dirty = s.dirty := rfl
@[simp] theorem State.setCell_badLines (s : State) (core buf cell : Nat) (c : Cell) : (s.setCell core buf cell c).badLines = s.badLines := rfl
@[simp] theorem State.setCell_volatile (s : State) (core buf cell : Nat) (c : Cell) : (s.setCell core buf cell c).volatile = s.volatile := rfl
@[simp] theorem State.setCell_writes (s : State) (core buf cell : Nat) (c : Cell) : (s.setCell core buf cell c).writes = s.writes := rfl
@[simp] theorem State.setCell_stampSince (s : State) (core buf cell : Nat) (c : Cell) : (s.setCell core buf cell c).stampSince = s.stampSince := rfl
@[simp] theorem State.setCell_scPoints (s : State) (core buf cell : Nat) (c : Cell) : (s.setCell core buf cell c).scPoints = s.scPoints := rfl
@[simp] theorem State.setCell_inflight (s : State) (core buf cell : Nat) (c : Cell) : (s.setCell core buf cell c).inflight = s.inflight := rfl
@[simp] theorem State.setCell_rods (s : State) (core buf cell : Nat) (c : Cell) : (s.setCell core buf cell c).rods = s.rods := rfl
@[simp] theorem State.setCell_frames (s : State) (core buf cell : Nat) (c : Cell) : (s.setCell core buf cell c).frames = s.frames := rfl
@[simp] theorem State.setCell_launches (s : State) (core buf cell : Nat) (c : Cell) : (s.setCell core buf cell c).launches = s.launches := rfl
@[simp] theorem State.setCell_windowTurn (s : State) (core buf cell : Nat) (c : Cell) : (s.setCell core buf cell c).windowTurn = s.windowTurn := rfl
@[simp] theorem State.setCell_lastSlot (s : State) (core buf cell : Nat) (c : Cell) : (s.setCell core buf cell c).lastSlot = s.lastSlot := rfl
@[simp] theorem State.setCell_icache (s : State) (core buf cell : Nat) (c : Cell) : (s.setCell core buf cell c).icache = s.icache := rfl
@[simp] theorem State.setCell_tlb (s : State) (core buf cell : Nat) (c : Cell) : (s.setCell core buf cell c).tlb = s.tlb := rfl
@[simp] theorem State.setCell_objCache (s : State) (core buf cell : Nat) (c : Cell) : (s.setCell core buf cell c).objCache = s.objCache := rfl
@[simp] theorem State.setCell_walks (s : State) (core buf cell : Nat) (c : Cell) : (s.setCell core buf cell c).walks = s.walks := rfl
@[simp] theorem State.setCell_walkCache (s : State) (core buf cell : Nat) (c : Cell) : (s.setCell core buf cell c).walkCache = s.walkCache := rfl
@[simp] theorem State.setCell_portsDown (s : State) (core buf cell : Nat) (c : Cell) : (s.setCell core buf cell c).portsDown = s.portsDown := rfl
@[simp] theorem State.setCell_faultWait (s : State) (core buf cell : Nat) (c : Cell) : (s.setCell core buf cell c).faultWait = s.faultWait := rfl
@[simp] theorem State.setCell_faultRecs (s : State) (core buf cell : Nat) (c : Cell) : (s.setCell core buf cell c).faultRecs = s.faultRecs := rfl
@[simp] theorem State.setCell_recids (s : State) (core buf cell : Nat) (c : Cell) : (s.setCell core buf cell c).recids = s.recids := rfl
@[simp] theorem State.setCell_portFaults (s : State) (core buf cell : Nat) (c : Cell) : (s.setCell core buf cell c).portFaults = s.portFaults := rfl
@[simp] theorem State.setCell_tasks (s : State) (core buf cell : Nat) (c : Cell) : (s.setCell core buf cell c).tasks = s.tasks := rfl
@[simp] theorem State.setCell_engines (s : State) (core buf cell : Nat) (c : Cell) : (s.setCell core buf cell c).engines = s.engines := rfl
@[simp] theorem State.setCell_bursts (s : State) (core buf cell : Nat) (c : Cell) : (s.setCell core buf cell c).bursts = s.bursts := rfl
@[simp] theorem State.setCell_governors (s : State) (core buf cell : Nat) (c : Cell) : (s.setCell core buf cell c).governors = s.governors := rfl
@[simp] theorem State.setCell_slots (s : State) (core buf cell : Nat) (c : Cell) : (s.setCell core buf cell c).slots = s.slots := rfl
@[simp] theorem State.setCell_chains (s : State) (core buf cell : Nat) (c : Cell) : (s.setCell core buf cell c).chains = s.chains := rfl
@[simp] theorem State.setCell_resvs (s : State) (core buf cell : Nat) (c : Cell) : (s.setCell core buf cell c).resvs = s.resvs := rfl
@[simp] theorem State.setCell_credits (s : State) (core buf cell : Nat) (c : Cell) : (s.setCell core buf cell c).credits = s.credits := rfl
@[simp] theorem State.setCell_transfers (s : State) (core buf cell : Nat) (c : Cell) : (s.setCell core buf cell c).transfers = s.transfers := rfl
@[simp] theorem State.setCell_slotWakes (s : State) (core buf cell : Nat) (c : Cell) : (s.setCell core buf cell c).slotWakes = s.slotWakes := rfl
@[simp] theorem State.setCell_copyEngines (s : State) (core buf cell : Nat) (c : Cell) : (s.setCell core buf cell c).copyEngines = s.copyEngines := rfl
@[simp] theorem State.setCell_conts (s : State) (core buf cell : Nat) (c : Cell) : (s.setCell core buf cell c).conts = s.conts := rfl
@[simp] theorem State.setCell_rasters (s : State) (core buf cell : Nat) (c : Cell) : (s.setCell core buf cell c).rasters = s.rasters := rfl
@[simp] theorem State.setCell_clocks (s : State) (core buf cell : Nat) (c : Cell) : (s.setCell core buf cell c).clocks = s.clocks := rfl
@[simp] theorem State.setCell_stampDue (s : State) (core buf cell : Nat) (c : Cell) : (s.setCell core buf cell c).stampDue = s.stampDue := rfl
@[simp] theorem State.setCell_dieMsgs (s : State) (core buf cell : Nat) (c : Cell) : (s.setCell core buf cell c).dieMsgs = s.dieMsgs := rfl
@[simp] theorem State.setCell_dieCopies (s : State) (core buf cell : Nat) (c : Cell) : (s.setCell core buf cell c).dieCopies = s.dieCopies := rfl
@[simp] theorem State.setCell_reckoners (s : State) (core buf cell : Nat) (c : Cell) : (s.setCell core buf cell c).reckoners = s.reckoners := rfl
@[simp] theorem State.setCell_upgrades (s : State) (core buf cell : Nat) (c : Cell) : (s.setCell core buf cell c).upgrades = s.upgrades := rfl
@[simp] theorem State.setCell_ctxs (s : State) (core buf cell : Nat) (c : Cell) : (s.setCell core buf cell c).ctxs = s.ctxs := rfl
@[simp] theorem State.setCell_saving (s : State) (core buf cell : Nat) (c : Cell) : (s.setCell core buf cell c).saving = s.saving := rfl
@[simp] theorem State.setCell_saved (s : State) (core buf cell : Nat) (c : Cell) : (s.setCell core buf cell c).saved = s.saved := rfl
@[simp] theorem State.setCell_dispatch (s : State) (core buf cell : Nat) (c : Cell) : (s.setCell core buf cell c).dispatch = s.dispatch := rfl
@[simp] theorem State.setCell_deliveries (s : State) (core buf cell : Nat) (c : Cell) : (s.setCell core buf cell c).deliveries = s.deliveries := rfl
@[simp] theorem State.setCell_heldReplies (s : State) (core buf cell : Nat) (c : Cell) : (s.setCell core buf cell c).heldReplies = s.heldReplies := rfl
@[simp] theorem State.setCell_launched (s : State) (core buf cell : Nat) (c : Cell) : (s.setCell core buf cell c).launched = s.launched := rfl
@[simp] theorem State.setCell_directory (s : State) (core buf cell : Nat) (c : Cell) : (s.setCell core buf cell c).directory = s.directory := rfl
@[simp] theorem State.setCell_dirReqs (s : State) (core buf cell : Nat) (c : Cell) : (s.setCell core buf cell c).dirReqs = s.dirReqs := rfl
@[simp] theorem State.setCell_fabricWaits (s : State) (core buf cell : Nat) (c : Cell) : (s.setCell core buf cell c).fabricWaits = s.fabricWaits := rfl
@[simp] theorem State.setCell_tokensOut (s : State) (core buf cell : Nat) (c : Cell) : (s.setCell core buf cell c).tokensOut = s.tokensOut := rfl
@[simp] theorem State.setCell_ctxTable (s : State) (core buf cell : Nat) (c : Cell) : (s.setCell core buf cell c).ctxTable = s.ctxTable := rfl
@[simp] theorem State.setCell_sysBlock (s : State) (core buf cell : Nat) (c : Cell) : (s.setCell core buf cell c).sysBlock = s.sysBlock := rfl
@[simp] theorem State.setCell_flash (s : State) (core buf cell : Nat) (c : Cell) : (s.setCell core buf cell c).flash = s.flash := rfl
@[simp] theorem State.setCell_booted (s : State) (core buf cell : Nat) (c : Cell) : (s.setCell core buf cell c).booted = s.booted := rfl
@[simp] theorem State.setCell_reckoner0 (s : State) (core buf cell : Nat) (c : Cell) : (s.setCell core buf cell c).reckoner0 = s.reckoner0 := rfl
@[simp] theorem State.setCell_config (s : State) (core buf cell : Nat) (c : Cell) : (s.setCell core buf cell c).config = s.config := rfl
@[simp] theorem State.setCell_updating (s : State) (core buf cell : Nat) (c : Cell) : (s.setCell core buf cell c).updating = s.updating := rfl
@[simp] theorem State.setCell_updOut (s : State) (core buf cell : Nat) (c : Cell) : (s.setCell core buf cell c).updOut = s.updOut := rfl
@[simp] theorem State.setCell_log (s : State) (core buf cell : Nat) (c : Cell) : (s.setCell core buf cell c).log = s.log := rfl
@[simp] theorem State.setCell_lost (s : State) (core buf cell : Nat) (c : Cell) : (s.setCell core buf cell c).lost = s.lost := rfl
@[simp] theorem State.setCell_flashLog (s : State) (core buf cell : Nat) (c : Cell) : (s.setCell core buf cell c).flashLog = s.flashLog := rfl
@[simp] theorem State.setCell_keysErased (s : State) (core buf cell : Nat) (c : Cell) : (s.setCell core buf cell c).keysErased = s.keysErased := rfl
@[simp] theorem State.setCell_sample (s : State) (core buf cell : Nat) (c : Cell) : (s.setCell core buf cell c).sample = s.sample := rfl
@[simp] theorem State.setCell_prior (s : State) (core buf cell : Nat) (c : Cell) : (s.setCell core buf cell c).prior = s.prior := rfl
@[simp] theorem State.setCell_power (s : State) (core buf cell : Nat) (c : Cell) : (s.setCell core buf cell c).power = s.power := rfl
@[simp] theorem State.setCell_spdmOut (s : State) (core buf cell : Nat) (c : Cell) : (s.setCell core buf cell c).spdmOut = s.spdmOut := rfl
@[simp] theorem State.setCell_alarmHold (s : State) (core buf cell : Nat) (c : Cell) : (s.setCell core buf cell c).alarmHold = s.alarmHold := rfl
@[simp] theorem State.setCell_inputs (s : State) (core buf cell : Nat) (c : Cell) : (s.setCell core buf cell c).inputs = s.inputs := rfl
@[simp] theorem State.setCell_cur (s : State) (core buf cell : Nat) (c : Cell) : (s.setCell core buf cell c).cur = s.cur := rfl
@[simp] theorem State.setCell_passed (s : State) (core buf cell : Nat) (c : Cell) : (s.setCell core buf cell c).passed = s.passed := rfl
@[simp] theorem State.setCell_fresh (s : State) (core buf cell : Nat) (c : Cell) : (s.setCell core buf cell c).fresh = s.fresh := rfl

/-! ### What the updates change -/

@[simp] theorem State.modRod_rods (s : State) (u : Nat) (f : Rod → Rod) :
    (s.modRod u f).rods = s.rods.map (fun r => if r.uid = u then f r else r) := rfl
@[simp] theorem State.setRod_rods (s : State) (r : Rod) :
    (s.setRod r).rods = s.rods.map (fun q => if q.uid = r.uid then r else q) := rfl
@[simp] theorem State.dropRod_rods (s : State) (u : Nat) :
    (s.dropRod u).rods = s.rods.filter (fun r => decide (r.uid ≠ u)) := rfl
@[simp] theorem State.modFrame_frames (s : State) (u : Nat) (g : Frame → Frame) :
    (s.modFrame u g).frames = s.frames.map (fun f => if f.uid = u then g f else f) := rfl
@[simp] theorem State.tick_clk (s : State) (n : Nat) : (s.tick n).clk = s.clk + BitVec.ofNat 64 n := rfl
@[simp] theorem State.tick_rods (s : State) (n : Nat) : (s.tick n).rods = s.rods.map (Rod.tick n) := rfl
@[simp] theorem State.take_fresh (s : State) : s.take.2.fresh = s.fresh + 1 := rfl

end Sys2Proof.Machine
end

