-- ==== Sys2Proof/Laws/Memory.lean ====
section
/-!
SUPPORT. Sparse tables and memory: a write keeps the canonical form, reads back at its address and changes no other,
and every operation that writes at the homes is a list of such writes.
-/

namespace Sys2Proof.Machine

/-! ### Sparse tables -/

theorem Sparse.wfFrom_weaken {α : Type} [DecidableEq α] {d : α} {lo lo' : Nat} {m : List (Nat × α)}
    (h : Sparse.wfFrom d lo m = true) (hl : lo' ≤ lo) : Sparse.wfFrom d lo' m = true := by
  cases m with
  | nil => rfl
  | cons p m =>
    obtain ⟨a, v⟩ := p
    simp only [Sparse.wfFrom, Bool.and_eq_true, decide_eq_true_eq] at h ⊢
    exact ⟨⟨by omega, h.1.2⟩, h.2⟩

/-- A set keeps the canonical form. -/
theorem Sparse.set_wfFrom {α : Type} [DecidableEq α] {d : α} (m : List (Nat × α)) (lo a : Nat) (v : α)
    (h : Sparse.wfFrom d lo m = true) (ha : lo ≤ a) : Sparse.wfFrom d lo (Sparse.set d m a v) = true := by
  induction m generalizing lo with
  | nil =>
    simp only [Sparse.set]
    split
    · rfl
    · simp [Sparse.wfFrom, *]
  | cons p m ih =>
    obtain ⟨b, w⟩ := p
    have h0 := h
    simp only [Sparse.wfFrom, Bool.and_eq_true, decide_eq_true_eq] at h
    simp only [Sparse.set]
    split
    · split
      · exact h0
      · simp only [Sparse.wfFrom, Bool.and_eq_true, decide_eq_true_eq]
        exact ⟨⟨ha, ‹_›⟩, ⟨by omega, h.1.2⟩, h.2⟩
    · split
      · subst b
        split
        · exact Sparse.wfFrom_weaken h.2 (by omega)
        · simp only [Sparse.wfFrom, Bool.and_eq_true, decide_eq_true_eq]
          exact ⟨⟨ha, ‹_›⟩, h.2⟩
      · simp only [Sparse.wfFrom, Bool.and_eq_true, decide_eq_true_eq]
        exact ⟨⟨h.1.1, h.1.2⟩, ih (b + 1) h.2 (by omega)⟩

theorem Sparse.set_wf {α : Type} [DecidableEq α] {d : α} {m : List (Nat × α)} (a : Nat) (v : α)
    (h : Sparse.wf d m = true) : Sparse.wf d (Sparse.set d m a v) = true :=
  Sparse.set_wfFrom m 0 a v h (Nat.zero_le a)

/-- A key below every listed one is unlisted. -/
theorem Sparse.filter_wfFrom {α : Type} [DecidableEq α] {d : α} (p : Nat × α → Bool) (m : List (Nat × α)) (lo : Nat)
    (h : Sparse.wfFrom d lo m = true) : Sparse.wfFrom d lo (m.filter p) = true := by
  induction m generalizing lo with
  | nil => rfl
  | cons x m ih =>
    obtain ⟨a, v⟩ := x
    simp only [Sparse.wfFrom, Bool.and_eq_true, decide_eq_true_eq] at h
    rw [List.filter_cons]
    split
    · simp only [Sparse.wfFrom, Bool.and_eq_true, decide_eq_true_eq]
      exact ⟨h.1, ih _ h.2⟩
    · exact Sparse.wfFrom_weaken (ih _ h.2) (by have := h.1.1; omega)

/-- Entries may be taken out of a table. -/
theorem Sparse.filter_wf {α : Type} [DecidableEq α] {d : α} (p : Nat × α → Bool) {m : List (Nat × α)}
    (h : Sparse.wf d m = true) : Sparse.wf d (m.filter p) = true := Sparse.filter_wfFrom p m 0 h

theorem Sparse.get_below {α : Type} [DecidableEq α] {d : α} (m : List (Nat × α)) (lo a : Nat)
    (h : Sparse.wfFrom d lo m = true) (ha : a < lo) : Sparse.get d m a = d := by
  induction m generalizing lo with
  | nil => rfl
  | cons p m ih =>
    obtain ⟨b, w⟩ := p
    simp only [Sparse.wfFrom, Bool.and_eq_true, decide_eq_true_eq] at h
    simp only [Sparse.get]
    rw [if_neg (by omega)]
    exact ih (b + 1) h.2 (by omega)

/-- What a key has after a set. -/
theorem Sparse.get_set {α : Type} [DecidableEq α] {d : α} (m : List (Nat × α)) (lo a : Nat) (v : α) (x : Nat)
    (h : Sparse.wfFrom d lo m = true) : Sparse.get d (Sparse.set d m a v) x = if x = a then v else Sparse.get d m x := by
  induction m generalizing lo with
  | nil =>
    simp only [Sparse.set]
    split
    · subst v; simp [Sparse.get]
    · simp only [Sparse.get]
      split <;> split <;> first | rfl | omega
  | cons p m ih =>
    obtain ⟨b, w⟩ := p
    simp only [Sparse.wfFrom, Bool.and_eq_true, decide_eq_true_eq] at h
    simp only [Sparse.set]
    split
    · split
      · subst v
        split
        · subst x
          simp only [Sparse.get]
          rw [if_neg (by omega)]
          exact Sparse.get_below m (b + 1) a h.2 (by omega)
        · rfl
      · simp only [Sparse.get]
        by_cases hx : x = a
        · subst hx; simp
        · rw [if_neg (fun e => hx e.symm), if_neg hx]
    · split
      · subst b
        split
        · subst v
          split
          · subst x; exact Sparse.get_below m (a + 1) a h.2 (by omega)
          · simp only [Sparse.get]; rw [if_neg (fun e => ‹¬x = a› e.symm)]
        · simp only [Sparse.get]
          by_cases hx : x = a
          · subst hx; simp
          · rw [if_neg (fun e => hx e.symm), if_neg hx, if_neg (fun e => hx e.symm)]
      · simp only [Sparse.get]
        by_cases hx : b = x
        · subst hx
          rw [if_pos rfl, if_pos rfl, if_neg ‹_›]
        · rw [if_neg hx, if_neg hx]
          exact ih (b + 1) h.2

/-! ### Memory -/

theorem Memory.write_wf {m : Memory} (a : Nat) (v : Byte) (h : Memory.wf m = true) : Memory.wf (m.write a v) = true :=
  Sparse.set_wf a v h

theorem Memory.writeAll_wf (ws : List (Nat × Byte)) {m : Memory} (h : Memory.wf m = true) :
    Memory.wf (m.writeAll ws) = true := by
  induction ws generalizing m with
  | nil => exact h
  | cons w ws ih => exact ih (Memory.write_wf w.1 w.2 h)

/-- A byte reads as written, and every other as before. -/
theorem Memory.read_write {m : Memory} (a : Nat) (v : Byte) (x : Nat) (h : Memory.wf m = true) :
    (m.write a v).read x = if x = a then v else m.read x :=
  Sparse.get_set m 0 a v x h

/-- An address that no write of the list names reads as before. -/
theorem Memory.read_writeAll_other (ws : List (Nat × Byte)) {m : Memory} (x : Nat) (h : Memory.wf m = true)
    (hx : ∀ w ∈ ws, w.1 ≠ x) : (m.writeAll ws).read x = m.read x := by
  induction ws generalizing m with
  | nil => rfl
  | cons w ws ih =>
    have h1 : (m.write w.1 w.2).read x = m.read x := by
      rw [Memory.read_write _ _ _ h, if_neg (fun e => hx w (by simp) e.symm)]
    exact (ih (Memory.write_wf w.1 w.2 h) fun v hv => hx v (by simp [hv])).trans h1

/-! ### Writes at the homes -/

@[simp] theorem State.applyMsgs_mem (s : State) (d : Nat) (ms : List DieMsg) : (s.applyMsgs d ms).mem = s.mem := rfl
@[simp] theorem State.catchUp_mem (s : State) (a b : Nat) : (s.catchUp a b).mem = s.mem := rfl

@[simp] theorem State.installOwn_mem (s : State) (d l : Nat) : (s.installOwn d l).mem = s.mem := by
  simp only [State.installOwn]
  split <;> rfl

@[simp] theorem State.sendUpdates_mem (w : Option Nat) (ls : List Nat) (s : State) : (s.sendUpdates w ls).mem = s.mem := by
  induction ls generalizing s with
  | nil => rfl
  | cons l ls ih =>
    have fold (ds : List Nat) (f : State → Nat → State) (hf : ∀ s d, (f s d).mem = s.mem) (s : State) :
        (ds.foldl f s).mem = s.mem := by
      induction ds generalizing s with
      | nil => rfl
      | cons d ds ihd => exact (ihd _).trans (hf s d)
    refine (ih _).trans ?_
    cases w with
    | none =>
      simp only
      refine fold _ _ ?_ s
      intro s d; rfl
    | some d =>
      simp only [State.installOwn_mem]
      refine fold _ _ ?_ s
      intro s d; rfl

/-- A write at the homes writes the bytes, one after the other. -/
@[simp] theorem State.writeFrom_mem (s : State) (w : Option Nat) (ws : List (Nat × Byte)) :
    (s.writeFrom w ws).mem = Memory.writeAll s.mem ws := by
  simp only [State.writeFrom, State.sendUpdates_mem]

@[simp] theorem State.homeWrite_mem (s : State) (ws : List (Nat × Byte)) :
    (s.homeWrite ws).mem = Memory.writeAll s.mem ws := State.writeFrom_mem s none ws

/-- A write of a path writes the bytes, one after the other. -/
@[simp] theorem State.pathWrite_mem (s : State) (path : Nat) (agent : Agent) (stamps : List Stamp) (ws : List (Nat × Byte)) :
    (s.pathWrite path agent stamps ws).mem = Memory.writeAll s.mem ws := State.writeFrom_mem _ _ ws

theorem State.pathWrite_canonical {s : State} (path : Nat) (agent : Agent) (stamps : List Stamp) (ws : List (Nat × Byte))
    (h : s.memoryCanonical) : (s.pathWrite path agent stamps ws).memoryCanonical := by
  unfold State.memoryCanonical at *
  rw [State.pathWrite_mem]
  exact Memory.writeAll_wf ws h

/-- What a power cycle keeps of memory is canonical. -/
theorem State.keptMem_wf {s : State} (h : s.memoryCanonical) : Memory.wf s.keptMem = true := by
  have fold (ls : List Nat) (f : Nat → List (Nat × Byte)) (m : Memory) (hm : Memory.wf m = true) :
      Memory.wf (ls.foldl (fun m l => Memory.writeAll m (f l)) m) = true := by
    induction ls generalizing m with
    | nil => exact hm
    | cons l ls ih => exact ih _ (Memory.writeAll_wf (f l) hm)
  refine fold _ _ _ ?_
  exact Sparse.filter_wf _ h

theorem State.homeWrite_canonical {s : State} (ws : List (Nat × Byte)) (h : s.memoryCanonical) :
    (s.homeWrite ws).memoryCanonical := by
  unfold State.memoryCanonical at *
  rw [State.homeWrite_mem]
  exact Memory.writeAll_wf ws h

theorem State.homeWriteNat_canonical {s : State} (a n x : Nat) (h : s.memoryCanonical) :
    (s.homeWriteNat a n x).memoryCanonical := State.homeWrite_canonical _ h

/-- The addresses of bytes placed one after the other. -/
theorem placed_mem {a : Nat} {bs : List Byte} {w : Nat × Byte} (h : w ∈ placed a bs) :
    a ≤ w.1 ∧ w.1 < a + bs.length := by
  induction bs generalizing a with
  | nil => simp [placed] at h
  | cons b bs ih =>
    simp only [placed, List.mem_cons] at h
    rcases h with rfl | h
    · simp
    · have := ih h; simp only [List.length_cons]; omega

theorem bytesOfNat_length (n x : Nat) : (bytesOfNat n x).length = n := by
  induction n generalizing x with
  | zero => rfl
  | succ n ih => simp [bytesOfNat, ih]

/-- A number written at its home changes no byte outside its bytes. -/
theorem State.homeWriteNat_other {s : State} (a n x y : Nat) (h : s.memoryCanonical) (hy : y < a ∨ a + n ≤ y) :
    Memory.read (s.homeWriteNat a n x).mem y = Memory.read s.mem y := by
  unfold State.homeWriteNat
  rw [State.homeWrite_mem]
  refine Memory.read_writeAll_other _ y h fun w hw e => ?_
  have := placed_mem hw
  rw [bytesOfNat_length] at this
  omega

end Sys2Proof.Machine
end

