-- ==== Sys2Proof/Laws/Issue.lean ====
section
/-!
SUPPORT. The effect monads, and how one instruction of a rod is issued: what a sequence of effects does to the state,
when the issuing rod is found, and what `issue` and its wrappers answer.
-/

namespace Sys2Proof.Machine

/-! ### Effects on the device -/

@[simp] theorem M.pure_apply {α : Type} (a : α) (s : State) : (pure a : M α) s = (.ok a, s) := rfl

theorem M.bind_apply {α β : Type} (m : M α) (f : α → M β) (s : State) :
    (m >>= f) s = match m s with
      | (.ok a, t) => f a t
      | (.error e, t) => (.error e, t) := by
  show (ExceptT.bind m f) s = _
  simp only [ExceptT.bind, ExceptT.mk, bind, StateT.bind, ExceptT.bindCont]
  rcases m s with ⟨x, t⟩
  cases x <;> rfl

/-- A completed effect goes on with the next one. -/
theorem M.bind_ok {α β : Type} {m : M α} {f : α → M β} {s t : State} {a : α} (h : m s = (.ok a, t)) :
    (m >>= f) s = f a t := by
  rw [M.bind_apply, h]

/-- An early end ends the sequence. -/
theorem M.bind_error {α β : Type} {m : M α} {f : α → M β} {s t : State} {e : Stop} (h : m s = (.error e, t)) :
    (m >>= f) s = (.error e, t) := by
  rw [M.bind_apply, h]

@[simp] theorem M.throw_apply {α : Type} (e : Stop) (s : State) : (throw e : M α) s = (.error e, s) := rfl
@[simp] theorem M.get_apply (s : State) : (get : M State) s = (.ok s, s) := rfl
@[simp] theorem M.upd_apply (f : State → State) (s : State) : M.upd f s = (.ok (), f s) := rfl
@[simp] theorem M.run_apply {α : Type} (f : State → α × State) (s : State) : M.run f s = (.ok (f s).1, (f s).2) := rfl

@[simp] theorem M.need_true (e : Stop) (s : State) : M.need true e s = (.ok (), s) := rfl
@[simp] theorem M.need_false (e : Stop) (s : State) : M.need false e s = (.error e, s) := rfl

/-! ### Effects on a rod -/

@[simp] theorem RM.pure_apply {α : Type} (a : α) (r : Rod) : (pure a : RM α) r = (.ok a, r) := rfl

theorem RM.bind_apply {α β : Type} (m : RM α) (f : α → RM β) (r : Rod) :
    (m >>= f) r = match m r with
      | (.ok a, t) => f a t
      | (.error e, t) => (.error e, t) := by
  show (ExceptT.bind m f) r = _
  simp only [ExceptT.bind, ExceptT.mk, bind, StateT.bind, ExceptT.bindCont]
  rcases m r with ⟨x, t⟩
  cases x <;> rfl

theorem RM.bind_ok {α β : Type} {m : RM α} {f : α → RM β} {r t : Rod} {a : α} (h : m r = (.ok a, t)) :
    (m >>= f) r = f a t := by
  rw [RM.bind_apply, h]

@[simp] theorem RM.throw_apply {α : Type} (e : Stop) (r : Rod) : (throw e : RM α) r = (.error e, r) := rfl
@[simp] theorem RM.get_apply (r : Rod) : (get : RM Rod) r = (.ok r, r) := rfl
@[simp] theorem RM.set_apply (q r : Rod) : (set q : RM PUnit) r = (.ok ⟨⟩, q) := rfl
@[simp] theorem RM.modify_apply (f : Rod → Rod) (r : Rod) : (modify f : RM PUnit) r = (.ok ⟨⟩, f r) := rfl
@[simp] theorem RM.need_true (e : Stop) (r : Rod) : RM.need true e r = (.ok (), r) := rfl
@[simp] theorem RM.need_false (e : Stop) (r : Rod) : RM.need false e r = (.error e, r) := rfl

/-! ### The issuing rod -/

/-- The issuing rod is the one that `cur` names. -/
theorem State.curRod?_eq {s : State} {r : Rod} (h : s.curRod? = some r) : s.cur = some r.uid ∧ s.rod? r.uid = some r := by
  unfold State.curRod? at h
  split at h
  · cases h
  · next u hu =>
    have hr : r.uid = u := by
      have := List.find?_some h
      simpa using this
    exact ⟨by rw [hu, hr], by rw [hr]; exact h⟩

theorem find?_map_uid (rods : List Rod) (u : Nat) (f : Rod → Rod) (hf : ∀ r, (f r).uid = r.uid) :
    (rods.map f).find? (fun r => decide (r.uid = u)) = (rods.find? fun r => decide (r.uid = u)).map f := by
  induction rods with
  | nil => rfl
  | cons r rs ih =>
    simp only [List.map_cons, List.find?_cons, hf]
    split
    · rfl
    · exact ih

/-- After a change of every rod that keeps the names, the rod of a name is the changed one. -/
theorem State.rod?_of_map {s t : State} {f : Rod → Rod} (hf : ∀ r, (f r).uid = r.uid) (h : t.rods = s.rods.map f) (u : Nat) :
    t.rod? u = (s.rod? u).map f := by
  unfold State.rod?
  rw [h]
  exact find?_map_uid s.rods u f hf

/-- A rod put back in place of the one with its name is found by it. -/
theorem State.rod?_setRod {s : State} {r q : Rod} (h : s.rod? q.uid = some r) : (s.setRod q).rod? q.uid = some q := by
  have := State.rod?_of_map (s := s) (t := s.setRod q) (f := fun x => if x.uid = q.uid then q else x)
    (fun x => by split <;> simp_all) rfl q.uid
  rw [this, h]
  have hr : r.uid = q.uid := by simpa using List.find?_some h
  simp [hr]

/-- The rod put back last stands. -/
theorem State.setRod_setRod (s : State) (q q' : Rod) (h : q'.uid = q.uid) : (s.setRod q).setRod q' = s.setRod q' := by
  simp only [State.setRod, State.modRod, List.map_map, h]
  congr 1
  refine List.map_congr_left fun r _ => ?_
  simp only [Function.comp]
  by_cases hr : r.uid = q.uid <;> simp [hr]

/-- With a rod of its name put back, the issuing rod is that one. -/
theorem State.curRod?_setRod {s : State} {r q : Rod} (h : s.curRod? = some r) (hq : q.uid = r.uid) :
    (s.setRod q).curRod? = some q := by
  obtain ⟨hc, hr⟩ := State.curRod?_eq h
  unfold State.curRod?
  rw [State.setRod_cur, hc]
  show (s.setRod q).rod? r.uid = some q
  rw [← hq] at hr ⊢
  exact State.rod?_setRod hr

@[simp] theorem M.rod_apply {s : State} {r : Rod} (h : s.curRod? = some r) : M.rod s = (.ok r, s) := by
  simp only [M.rod]
  rw [M.bind_ok (M.get_apply s), h]
  rfl

/-- An effect on the issuing rod alone. -/
theorem onRod_apply {α : Type} {s : State} {r : Rod} (m : RM α) (h : s.curRod? = some r) :
    onRod m s = ((m r).1, s.setRod (m r).2) := by
  unfold onRod
  rw [h]
  rfl

/-- An effect on the issuing rod that completes. -/
theorem onRod_ok {α : Type} {s : State} {r q : Rod} {m : RM α} {a : α} (h : s.curRod? = some r) (hm : m r = (.ok a, q)) :
    onRod m s = (.ok a, s.setRod q) := by
  rw [onRod_apply m h, hm]

@[simp] theorem M.legal_apply {i : Instr} (h : i.illegal? = none) (s : State) : M.legal i s = (.ok (), s) := by
  simp only [M.legal, h]; rfl

/-! ### Issuing -/

/-- With a rod issuing, an instruction always answers a next state: a fault of it is taken by the machine. -/
theorem issue_answers (i : Instr) (once : Bool) (body : M Unit) {s : State} {r : Rod} (h : s.curRod? = some r) :
    answers (issue i once body s) := by
  unfold issue
  rw [h]
  exact ⟨_, rfl⟩

theorem execute_answers (i : Instr) (body : M Unit) {s : State} {r : Rod} (h : s.curRod? = some r) :
    answers (execute i body s) := issue_answers _ _ _ h

theorem executeControl_answers (i : Instr) (body : M Unit) {s : State} {r : Rod} (h : s.curRod? = some r) :
    answers (executeControl i body s) := issue_answers _ _ _ h

theorem executeChecked_answers (i : Instr) (check body : M Unit) {s : State} {r : Rod} (h : s.curRod? = some r) :
    answers (executeChecked i check body s) := issue_answers _ _ _ h

theorem executeBeads_answers (i : Instr) (f : Option Nat → RM Unit) {s : State} {r : Rod} (h : s.curRod? = some r) :
    answers (executeBeads i f s) := issue_answers _ _ _ h

theorem executeAlu_answers (i : Instr) (w : Bool) (d : BitVec 7) (f : Rod → Option Nat → Dword × Conds) {s : State}
    {r : Rod} (h : s.curRod? = some r) : answers (executeAlu i w d f s) := issue_answers _ _ _ h

theorem executePred_answers (i : Instr) (d : BitVec 3) (f : Rod → Option Nat → Bool × Conds) {s : State}
    {r : Rod} (h : s.curRod? = some r) : answers (executePred i d f s) := issue_answers _ _ _ h

@[simp] theorem Rod.leave_uid (r : Rod) : r.leave.uid = r.uid := rfl

/-- A legal instruction that is no commit point: its body runs on the rod that has left its save point, and what ends
it is settled. -/
theorem issue_plain {i : Instr} {once : Bool} {body : M Unit} {s : State} {r : Rod} (h : s.curRod? = some r)
    (hl : i.illegal? = none) (hc : commits i = false) :
    issue i once body s = .next (match body (s.setRod r.leave) with
      | (.ok (), t) => t.tick (r.laneCycles once)
      | (.error e, t) => (t.settle r.uid e).tick (r.cyclesOf once (.error e))) := by
  have e : performed i body s = body (s.setRod r.leave) := by
    unfold performed
    rw [M.bind_ok (M.legal_apply hl s)]
    rw [M.bind_ok (onRod_ok h (RM.modify_apply _ r)), hc]
    rfl
  unfold issue
  rw [h]
  simp only []
  rw [e]
  rcases body (s.setRod r.leave) with ⟨x, t⟩
  cases x <;> rfl

/-- The allocation check passes when no register group reaches beyond it. -/
theorem M.inAllocation_apply {i : Instr} {once : Bool} {s : State} {r : Rod} (h : s.curRod? = some r)
    (hr : (regGroups i).any r.beyond = false) (hp : pastLastS i = false) : M.inAllocation i once s = (.ok (), s) := by
  simp only [M.inAllocation]
  rw [M.bind_ok (M.rod_apply h)]
  have : (regGroups i).any (fun g => r.beyond g) = false := hr
  rw [this, hp]
  rfl

/-- A legal instruction on registers of the allocation, no commit point, whose effect is on its rod and completes: the
rod is replaced, moved past the instruction, and the lane cycles pass. -/
theorem execute_onRod {i : Instr} {m : RM Unit} {s : State} {r q : Rod} (h : s.curRod? = some r)
    (hl : i.illegal? = none) (hc : commits i = false) (hr : (regGroups i).any r.beyond = false) (hp : pastLastS i = false)
    (hm : m r.leave = (.ok (), q)) (hq : q.uid = r.uid) :
    execute i (onRod m) s = .next ((s.setRod q.advance).tick (r.laneCycles (onceOnly i))) := by
  unfold execute passing
  rw [issue_plain h hl hc]
  have h1 : (s.setRod r.leave).curRod? = some r.leave := State.curRod?_setRod h rfl
  rw [M.bind_ok (M.inAllocation_apply h1 hr hp), M.bind_ok (onRod_ok h1 hm)]
  rw [State.setRod_setRod s r.leave q hq]
  have h2 : (s.setRod q).curRod? = some q := State.curRod?_setRod h hq
  have h3 : M.advance (s.setRod q) = (.ok (), (s.setRod q).setRod q.advance) := onRod_ok h2 rfl
  rw [h3, State.setRod_setRod s q q.advance rfl]

/-- The same for an instruction that says itself where its rod goes. -/
theorem executeControl_onRod {i : Instr} {m : RM Unit} {s : State} {r q : Rod} (h : s.curRod? = some r)
    (hl : i.illegal? = none) (hc : commits i = false) (hr : (regGroups i).any r.beyond = false) (hp : pastLastS i = false)
    (hm : m r.leave = (.ok (), q)) (hq : q.uid = r.uid) :
    executeControl i (onRod m) s = .next ((s.setRod q).tick (r.laneCycles (onceOnly i))) := by
  unfold executeControl
  rw [issue_plain h hl hc]
  have h1 : (s.setRod r.leave).curRod? = some r.leave := State.curRod?_setRod h rfl
  rw [M.bind_ok (M.inAllocation_apply h1 hr hp), onRod_ok h1 hm]
  rw [State.setRod_setRod s r.leave q hq]

end Sys2Proof.Machine
end

