-- ==== Sys2Proof/Laws/Alu.lean ====
section
/-!
SUPPORT. The instructions whose effect is a value for each bead: no bead sees what another bead writes, so the whole
effect is one write for each bead of a value computed from the rod as it was.
-/

namespace Sys2Proof.Machine

/-! ### Lists with one element replaced -/

theorem nth_setNth_ne {α : Type} (d : α) (xs : List α) {i j : Nat} (y : α) (h : i ≠ j) :
    nth d (setNth xs i y) j = nth d xs j := by
  induction xs generalizing i j with
  | nil => rfl
  | cons x xs ih =>
    cases i <;> cases j
    · exact absurd rfl h
    · rfl
    · rfl
    · simp only [setNth, nth]; exact ih fun e => h (by rw [e])

theorem nth_setNth_self {α : Type} (d : α) (xs : List α) {i : Nat} (y : α) (h : i < xs.length) :
    nth d (setNth xs i y) i = y := by
  induction xs generalizing i with
  | nil => simp at h
  | cons x xs ih =>
    cases i
    · rfl
    · simp only [setNth, nth]; exact ih (by simpa using h)

theorem setNth_length {α : Type} (xs : List α) (i : Nat) (y : α) : (setNth xs i y).length = xs.length := by
  induction xs generalizing i with
  | nil => rfl
  | cons x xs ih => cases i <;> simp [setNth, ih]

/-! ### What a bead's operation reads -/

/-- The rod `q` is the rod `r` with beads other than `k` changed, sticky flags set or its save point left: whatever
bead `k` reads is the same. -/
structure Rod.SameFor (r q : Rod) (k : Nat) : Prop where
  rest : q = { r with beads := q.beads, mode := q.mode, atLive := q.atLive }
  bead : q.bead k = r.bead k
  control : q.mode.setWidth 16 = r.mode.setWidth 16

theorem Rod.SameFor.refl (r : Rod) (k : Nat) : r.SameFor r k := ⟨rfl, rfl, rfl⟩

theorem Rod.SameFor.leave (r : Rod) (k : Nat) : r.SameFor r.leave k := ⟨rfl, rfl, rfl⟩

/-- Setting sticky flags keeps the control fields. -/
theorem stick_control (m : BitVec 32) (c : Conds) : (stick m c).setWidth 16 = m.setWidth 16 := by
  unfold stick
  ext i hi
  simp

theorem Rod.SameFor.stick {r q : Rod} {k : Nat} (h : r.SameFor q k) (c : Conds) : r.SameFor (q.stick c) k := by
  refine ⟨?_, h.bead, (stick_control q.mode c).trans h.control⟩
  have := h.rest
  unfold Rod.stick
  rw [this]

theorem field_control {a b : BitVec 32} (h : a.setWidth 16 = b.setWidth 16) (lo n : Nat) (hn : lo + n ≤ 16) :
    field a.toNat lo n = field b.toNat lo n := by
  have h' : a.toNat % 2 ^ 16 = b.toNat % 2 ^ 16 := by
    have := congrArg BitVec.toNat h
    simpa using this
  have key : ∀ x : Nat, x / 2 ^ lo % 2 ^ n = x % 2 ^ 16 / 2 ^ lo % 2 ^ n := by
    intro x
    have e : (2 : Nat) ^ 16 = 2 ^ lo * 2 ^ (16 - lo) := by rw [← pow_add]; congr 1; omega
    rw [e, Nat.mod_mul_right_div_self]
    rw [Nat.mod_mod_of_dvd]
    exact pow_dvd_pow 2 (by omega)
  unfold field
  rw [key, h', ← key]

theorem trapEnables_control {a b : BitVec 32} (h : a.setWidth 16 = b.setWidth 16) : trapEnables a = trapEnables b := by
  unfold trapEnables
  rw [field_control h 8 5 (by omega), field_control h 14 1 (by omega), field_control h 13 1 (by omega)]

/-! ### Writing one bead -/

theorem Rod.bead_modBead_ne (r : Rod) {j k : Nat} (f : Bead → Bead) (h : j ≠ k) : (r.modBead j f).bead k = r.bead k := by
  unfold Rod.modBead Rod.bead
  exact nth_setNth_ne _ _ _ h

theorem Rod.SameFor.modBead {r q : Rod} {j k : Nat} (f : Bead → Bead) (h : r.SameFor q k) (hj : j ≠ k) :
    r.SameFor (q.modBead j f) k := by
  refine ⟨?_, (Rod.bead_modBead_ne q f hj).trans h.bead, h.control⟩
  have := h.rest
  unfold Rod.modBead
  rw [this]

theorem Rod.SameFor.setOperand {r q : Rod} {j k : Nat} (w : Bool) {d : BitVec 7} (x : Dword) (hd : isS d = false)
    (h : r.SameFor q k) (hj : j ≠ k) : r.SameFor (q.setOperand (some j) w d x) k := by
  cases w
  · simp only [Rod.setOperand, Rod.setWord, hd, Rod.setV, beadNo, Option.getD, Bool.false_eq_true, if_false]
    exact h.modBead _ hj
  · simp only [Rod.setOperand, Rod.setDword, hd, Rod.setV, beadNo, Option.getD, Bool.false_eq_true, if_false, if_true]
    exact (h.modBead _ hj).modBead _ hj

theorem Rod.SameFor.setPred {r q : Rod} {j k : Nat} (p : BitVec 3) (v : Bool)
    (h : r.SameFor q k) (hj : j ≠ k) : r.SameFor (q.setPred j p v) k := by
  unfold Rod.setPred
  split
  · exact h
  · exact h.modBead _ hj

/-! ### The loop over the beads -/

/-- A bead's conditions, none of them enabled, set the sticky flags. -/
theorem RM.conditions_apply {b : Option Nat} {c : Conds} {q : Rod} (h : c &&& trapEnables q.mode = 0) :
    RM.conditions b c q = (.ok (), q.stick c) := by
  simp only [RM.conditions]
  rw [RM.bind_ok (RM.get_apply q)]
  simp only [h, ne_eq, not_true_eq_false, if_false]
  rfl

theorem RM.forM_cons {α : Type} (f : α → RM PUnit) (x : α) (xs : List α) :
    (x :: xs).forM f = (f x >>= fun _ => xs.forM f) := rfl

theorem beads_loop {r : Rod} (f : Rod → Nat → Conds) (g : Rod → Nat → Rod → Rod)
    (hf : ∀ q k, r.SameFor q k → f q k = f r k) (hg : ∀ q k, r.SameFor q k → g q k = g r k)
    (hset : ∀ q j k, r.SameFor q k → j ≠ k → r.SameFor (g r j q) k) :
    ∀ (ks : List Nat) (q : Rod), ks.Nodup → (∀ k ∈ ks, r.SameFor q k) → (∀ k ∈ ks, f r k &&& trapEnables r.mode = 0) →
      (ks.forM fun k => (do
        let x ← get
        RM.conditions (some k) (f x k)
        modify fun y => g x k y : RM PUnit)) q =
      (.ok ⟨⟩, ks.foldl (fun y k => g r k (y.stick (f r k))) q) := by
  intro ks
  induction ks with
  | nil => intro q _ _ _; rfl
  | cons k ks ih =>
    intro q hn hs ht
    have h1 := hs k (by simp)
    rw [RM.forM_cons, List.foldl_cons]
    rw [RM.bind_ok (a := PUnit.unit) (t := g r k (q.stick (f r k)))]
    · refine ih _ (List.nodup_cons.1 hn).2 (fun j hj => ?_) fun j hj => ht j (by simp [hj])
      have hjk : k ≠ j := fun e => (List.nodup_cons.1 hn).1 (e ▸ hj)
      exact hset _ k j ((hs j (by simp [hj])).stick _) hjk
    · rw [RM.bind_ok (RM.get_apply q)]
      rw [RM.bind_ok (RM.conditions_apply (by
        rw [hf q k h1, trapEnables_control h1.control]; exact ht k (by simp)))]
      rw [hf q k h1, hg q k h1]
      rfl

theorem upto_nodup (n : Nat) (p : Nat → Bool) : (upto n p).Nodup := List.Nodup.filter _ List.nodup_range

theorem Rod.issuing_nodup (r : Rod) : r.issuing.Nodup := upto_nodup _ _

theorem foldl_uid {β : Type} (f : Rod → β → Rod) (hf : ∀ q b, (f q b).uid = q.uid) (bs : List β) (q : Rod) :
    (bs.foldl f q).uid = q.uid := by
  induction bs generalizing q with
  | nil => rfl
  | cons b bs ih => rw [List.foldl_cons, ih, hf]

@[simp] theorem Rod.setOperand_uid (r : Rod) (b : Option Nat) (w : Bool) (d : BitVec 7) (x : Dword) :
    (r.setOperand b w d x).uid = r.uid := by
  unfold Rod.setOperand Rod.setDword Rod.setWord
  split <;> split <;> rfl

@[simp] theorem Rod.setPred_uid (r : Rod) (k : Nat) (p : BitVec 3) (v : Bool) : (r.setPred k p v).uid = r.uid := by
  unfold Rod.setPred
  split <;> rfl

@[simp] theorem Rod.stick_uid (r : Rod) (c : Conds) : (r.stick c).uid = r.uid := rfl

@[simp] theorem Rod.wrote_uid (r : Rod) (u w : Bool) (d : BitVec 7) (v : Option Nat → Dword × Conds) :
    (r.wrote u w d v).uid = r.uid := by
  unfold Rod.wrote
  rw [foldl_uid]
  · rfl
  · intro q b; simp

@[simp] theorem Rod.wrotePred_uid (r : Rod) (p : BitVec 3) (v : Nat → Bool × Conds) : (r.wrotePred p v).uid = r.uid := by
  unfold Rod.wrotePred
  rw [foldl_uid]
  · rfl
  · intro q b; simp

/-- What a value instruction does, on a rod none of whose parts raises an enabled condition. -/
theorem executeAlu_next {i : Instr} {w : Bool} {d : BitVec 7} {f : Rod → Option Nat → Dword × Conds} {s : State}
    {r : Rod} (h : s.curRod? = some r) (hl : i.illegal? = none) (hc : commits i = false)
    (hr : (regGroups i).any r.beyond = false) (hp : pastLastS i = false) (hd : uniform i = false → isS d = false)
    (hu : f r.leave none = f r none) (hf : ∀ q k, r.SameFor q k → f q (some k) = f r (some k))
    (ht : ∀ b ∈ r.parts (uniform i), (f r b).2 &&& trapEnables r.mode = 0) :
    executeAlu i w d f s = .next ((s.setRod (r.wrote (uniform i) w d (f r)).advance).tick (r.laneCycles (onceOnly i))) := by
  unfold executeAlu executeBeads
  refine execute_onRod h hl hc hr hp ?_ (by simp)
  unfold RM.each Rod.wrote
  rw [RM.bind_ok (RM.get_apply _)]
  cases hui : uniform i with
  | true =>
    rw [hui] at ht
    simp only [Rod.parts, if_true, List.foldl_cons, List.foldl_nil]
    rw [RM.bind_ok (RM.get_apply _)]
    have := ht none (by simp [Rod.parts])
    rw [hu, RM.bind_ok (RM.conditions_apply (q := r.leave) this)]
    rfl
  | false =>
    rw [hui] at ht
    simp only [Rod.parts, Bool.false_eq_true, if_false, List.foldl_map]
    have := beads_loop (r := r) (fun q k => (f q (some k)).2) (fun q k y => y.setOperand (some k) w d (f q (some k)).1)
      (fun q k hq => by rw [hf q k hq]) (fun q k hq => by rw [hf q k hq])
      (fun q j k hq hj => hq.setOperand w _ (hd hui) hj) r.issuing r.leave r.issuing_nodup
      (fun k _ => Rod.SameFor.leave r k) (fun k hk => ht (some k) (by simp [Rod.parts, hk]))
    exact this

/-- What an instruction that computes a truth value for each bead does. -/
theorem executePred_next {i : Instr} {p : BitVec 3} {f : Rod → Option Nat → Bool × Conds} {s : State}
    {r : Rod} (h : s.curRod? = some r) (hl : i.illegal? = none) (hc : commits i = false)
    (hr : (regGroups i).any r.beyond = false) (hp : pastLastS i = false) (hu : uniform i = false)
    (hf : ∀ q k, r.SameFor q k → f q (some k) = f r (some k))
    (ht : ∀ k ∈ r.issuing, (f r (some k)).2 &&& trapEnables r.mode = 0) :
    executePred i p f s =
      .next ((s.setRod (r.wrotePred p fun k => f r (some k)).advance).tick (r.laneCycles (onceOnly i))) := by
  unfold executePred executeBeads
  refine execute_onRod h hl hc hr hp ?_ (by simp)
  unfold RM.each Rod.wrotePred
  rw [RM.bind_ok (RM.get_apply _), hu]
  simp only [Bool.false_eq_true, if_false]
  have := beads_loop (r := r) (fun q k => (f q (some k)).2) (fun q k y => y.setPred k p (f q (some k)).1)
    (fun q k hq => by rw [hf q k hq]) (fun q k hq => by rw [hf q k hq])
    (fun q j k hq hj => hq.setPred p _ hj) r.issuing r.leave r.issuing_nodup
    (fun k _ => Rod.SameFor.leave r k) ht
  exact this

/-! ### What reading an operand depends on -/

theorem Rod.SameFor.s {r q : Rod} {k : Nat} (h : r.SameFor q k) : q.s = r.s := by rw [h.rest]
theorem Rod.SameFor.base {r q : Rod} {k : Nat} (h : r.SameFor q k) : q.base = r.base := by rw [h.rest]
theorem Rod.SameFor.alloc {r q : Rod} {k : Nat} (h : r.SameFor q k) : q.alloc = r.alloc := by rw [h.rest]
theorem Rod.SameFor.active {r q : Rod} {k : Nat} (h : r.SameFor q k) : q.active = r.active := by rw [h.rest]
theorem Rod.SameFor.pc {r q : Rod} {k : Nat} (h : r.SameFor q k) : q.pc = r.pc := by rw [h.rest]
theorem Rod.SameFor.rodid {r q : Rod} {k : Nat} (h : r.SameFor q k) : q.rodid = r.rodid := by rw [h.rest]
theorem Rod.SameFor.fmt {r q : Rod} {k : Nat} (h : r.SameFor q k) : q.fmt = r.fmt := by rw [h.rest]

theorem Rod.SameFor.vreg {r q : Rod} {k : Nat} (h : r.SameFor q k) (g : BitVec 7) : q.vreg k g = r.vreg k g := by
  unfold Rod.vreg Rod.phys
  rw [h.bead, h.base]

theorem Rod.SameFor.sreg {r q : Rod} {k : Nat} (h : r.SameFor q k) (n : Nat) : q.sreg n = r.sreg n := by
  unfold Rod.sreg
  rw [h.s]

theorem Rod.SameFor.word {r q : Rod} {k : Nat} (h : r.SameFor q k) (g : BitVec 7) :
    q.word (some k) g = r.word (some k) g := by
  unfold Rod.word
  rw [h.sreg]
  simp only [beadNo, Option.getD]
  rw [h.vreg]

theorem Rod.SameFor.dword {r q : Rod} {k : Nat} (h : r.SameFor q k) (g : BitVec 7) :
    q.dword (some k) g = r.dword (some k) g := by
  unfold Rod.dword
  rw [h.sreg]
  simp only [beadNo, Option.getD]
  rw [h.vreg, h.vreg]

theorem Rod.SameFor.operand {r q : Rod} {k : Nat} (h : r.SameFor q k) (w : Bool) (g : BitVec 7) :
    q.operand (some k) w g = r.operand (some k) w g := by
  unfold Rod.operand
  rw [h.word, h.dword]

theorem Rod.SameFor.int {r q : Rod} {k : Nat} (h : r.SameFor q k) (w n : Bool) (g : BitVec 7) :
    q.int (some k) w n g = r.int (some k) w n g := by
  unfold Rod.int
  rw [h.operand]

theorem Rod.SameFor.pred {r q : Rod} {k : Nat} (h : r.SameFor q k) (p : BitVec 3) : q.pred k p = r.pred k p := by
  unfold Rod.pred
  rw [h.bead]

theorem Rod.SameFor.env {r q : Rod} {k : Nat} (h : r.SameFor q k) (rounding : BitVec 3) (a b c j : Nat) :
    q.env (some k) rounding a b c j = r.env (some k) rounding a b c j := by
  have hc := h.control
  simp only [Rod.env, Rod.stochasticXi, Rod.drawBead, field_control hc 0 3 (by omega), field_control hc 4 1 (by omega),
    field_control hc 3 1 (by omega), field_control hc 5 1 (by omega), field_control hc 6 2 (by omega), h.rodid, h.pc]

end Sys2Proof.Machine
end

