-- ==== Sys2Proof/Laws/Coding.lean ====
section
/-!
SUPPORT. Reading the fields of an instruction back from its word: one lemma for each set of fields.
-/

namespace Sys2Proof.Laws

/-- A flag of one bit reads back. -/
theorem bitOf_eq {w n : Nat} {u : Bool} (h : field w n 1 = u.toNat) : bitOf w n = u := by
  cases u <;> simp_all [bitOf]

/-- A field reads back. -/
theorem ofNat_field {w lo n m : Nat} {x : BitVec m} (h : field w lo n = x.toNat) : BitVec.ofNat m (field w lo n) = x := by
  rw [h]; simp

/-- The opcode of a word whose other bits lie below it. -/
theorem opcode_eq {k x : Nat} (hk : k < 128) (hx : x < 2 ^ 25) : field (k * 2 ^ 25 + x) 25 7 = k := by
  simp only [field]; omega

/-- The fields of ShIllegal lie below the opcode and read back. -/
theorem ShIllegal.coding (k : Nat) (f : ShIllegal) :
    f.bits < 2 ^ 25 ∧ ShIllegal.ofBits (k * 2 ^ 25 + (f.bits)) = f := by
  obtain ⟨x_x⟩ := f
  have := x_x.isLt
  simp only [ShIllegal.bits, ShIllegal.ofBits, ShIllegal.mk.injEq]
  refine ⟨by omega, ?_⟩
  · exact ofNat_field (by simp only [field]; omega)

/-- The fields of ShBranch lie below the opcode and read back. -/
theorem ShBranch.coding (k : Nat) (f : ShBranch) :
    f.bits < 2 ^ 25 ∧ ShBranch.ofBits (k * 2 ^ 25 + (f.bits)) = f := by
  obtain ⟨x_p, x_s, x_o⟩ := f
  have := x_p.isLt
  have := x_s.toNat_lt
  have := x_o.isLt
  simp only [ShBranch.bits, ShBranch.ofBits, ShBranch.mk.injEq]
  refine ⟨by omega, ?_, ?_, ?_⟩ <;>
    first | exact ofNat_field (by simp only [field]; omega) | exact bitOf_eq (by simp only [field]; omega)

/-- The fields of ShCall lie below the opcode and read back. -/
theorem ShCall.coding (k : Nat) (f : ShCall) :
    f.bits < 2 ^ 25 ∧ ShCall.ofBits (k * 2 ^ 25 + (f.bits)) = f := by
  obtain ⟨x_o⟩ := f
  have := x_o.isLt
  simp only [ShCall.bits, ShCall.ofBits, ShCall.mk.injEq]
  refine ⟨by omega, ?_⟩
  · exact ofNat_field (by simp only [field]; omega)

/-- The fields of ShDA lie below the opcode and read back. -/
theorem ShDA.coding (k : Nat) (j : Nat) (hj : j < 128) (f : ShDA) :
    j + f.bits < 2 ^ 25 ∧ ShDA.ofBits (k * 2 ^ 25 + (j + f.bits)) = f := by
  obtain ⟨x_d, x_a⟩ := f
  have := x_d.isLt
  have := x_a.isLt
  simp only [ShDA.bits, ShDA.ofBits, ShDA.mk.injEq]
  refine ⟨by omega, ?_, ?_⟩ <;>
    exact ofNat_field (by simp only [field]; omega)

/-- The fields of ShA lie below the opcode and read back. -/
theorem ShA.coding (k : Nat) (j : Nat) (hj : j < 128) (f : ShA) :
    j + f.bits < 2 ^ 25 ∧ ShA.ofBits (k * 2 ^ 25 + (j + f.bits)) = f := by
  obtain ⟨x_a⟩ := f
  have := x_a.isLt
  simp only [ShA.bits, ShA.ofBits, ShA.mk.injEq]
  refine ⟨by omega, ?_⟩
  · exact ofNat_field (by simp only [field]; omega)

/-- The fields of ShCode lie below the opcode and read back. -/
theorem ShCode.coding (k : Nat) (f : ShCode) :
    f.bits < 2 ^ 25 ∧ ShCode.ofBits (k * 2 ^ 25 + (f.bits)) = f := by
  obtain ⟨x_i⟩ := f
  have := x_i.isLt
  simp only [ShCode.bits, ShCode.ofBits, ShCode.mk.injEq]
  refine ⟨by omega, ?_⟩
  · exact ofNat_field (by simp only [field]; omega)

/-- The fields of ShUCode lie below the opcode and read back. -/
theorem ShUCode.coding (k : Nat) (f : ShUCode) :
    f.bits < 2 ^ 25 ∧ ShUCode.ofBits (k * 2 ^ 25 + (f.bits)) = f := by
  obtain ⟨x_u, x_i⟩ := f
  have := x_u.toNat_lt
  have := x_i.isLt
  simp only [ShUCode.bits, ShUCode.ofBits, ShUCode.mk.injEq]
  refine ⟨by omega, ?_, ?_⟩ <;>
    first | exact ofNat_field (by simp only [field]; omega) | exact bitOf_eq (by simp only [field]; omega)

/-- The fields of ShUpcall lie below the opcode and read back. -/
theorem ShUpcall.coding (k : Nat) (f : ShUpcall) :
    f.bits < 2 ^ 25 ∧ ShUpcall.ofBits (k * 2 ^ 25 + (f.bits)) = f := by
  obtain ⟨x_u, x_d, x_a, x_i⟩ := f
  have := x_u.toNat_lt
  have := x_d.isLt
  have := x_a.isLt
  have := x_i.isLt
  simp only [ShUpcall.bits, ShUpcall.ofBits, ShUpcall.mk.injEq]
  refine ⟨by omega, ?_, ?_, ?_, ?_⟩ <;>
    first | exact ofNat_field (by simp only [field]; omega) | exact bitOf_eq (by simp only [field]; omega)

/-- The fields of ShInt lie below the opcode and read back. -/
theorem ShInt.coding (k : Nat) (f : ShInt) :
    f.bits < 2 ^ 25 ∧ ShInt.ofBits (k * 2 ^ 25 + (f.bits)) = f := by
  obtain ⟨x_u, x_s, x_n, x_w, x_d, x_a, x_b⟩ := f
  have := x_u.toNat_lt
  have := x_s.toNat_lt
  have := x_n.toNat_lt
  have := x_w.toNat_lt
  have := x_d.isLt
  have := x_a.isLt
  have := x_b.isLt
  simp only [ShInt.bits, ShInt.ofBits, ShInt.mk.injEq]
  refine ⟨by omega, ?_, ?_, ?_, ?_, ?_, ?_, ?_⟩ <;>
    first | exact ofNat_field (by simp only [field]; omega) | exact bitOf_eq (by simp only [field]; omega)

/-- The fields of ShIntImm lie below the opcode and read back. -/
theorem ShIntImm.coding (k : Nat) (f : ShIntImm) :
    f.bits < 2 ^ 25 ∧ ShIntImm.ofBits (k * 2 ^ 25 + (f.bits)) = f := by
  obtain ⟨x_u, x_s, x_n, x_w, x_d, x_a, x_i⟩ := f
  have := x_u.toNat_lt
  have := x_s.toNat_lt
  have := x_n.toNat_lt
  have := x_w.toNat_lt
  have := x_d.isLt
  have := x_a.isLt
  have := x_i.isLt
  simp only [ShIntImm.bits, ShIntImm.ofBits, ShIntImm.mk.injEq]
  refine ⟨by omega, ?_, ?_, ?_, ?_, ?_, ?_, ?_⟩ <;>
    first | exact ofNat_field (by simp only [field]; omega) | exact bitOf_eq (by simp only [field]; omega)

/-- The fields of ShIntNW lie below the opcode and read back. -/
theorem ShIntNW.coding (k : Nat) (f : ShIntNW) :
    f.bits < 2 ^ 25 ∧ ShIntNW.ofBits (k * 2 ^ 25 + (f.bits)) = f := by
  obtain ⟨x_u, x_n, x_w, x_d, x_a, x_b⟩ := f
  have := x_u.toNat_lt
  have := x_n.toNat_lt
  have := x_w.toNat_lt
  have := x_d.isLt
  have := x_a.isLt
  have := x_b.isLt
  simp only [ShIntNW.bits, ShIntNW.ofBits, ShIntNW.mk.injEq]
  refine ⟨by omega, ?_, ?_, ?_, ?_, ?_, ?_⟩ <;>
    first | exact ofNat_field (by simp only [field]; omega) | exact bitOf_eq (by simp only [field]; omega)

/-- The fields of ShIcmp lie below the opcode and read back. -/
theorem ShIcmp.coding (k : Nat) (f : ShIcmp) :
    f.bits < 2 ^ 25 ∧ ShIcmp.ofBits (k * 2 ^ 25 + (f.bits)) = f := by
  obtain ⟨x_c, x_w, x_p, x_a, x_b⟩ := f
  have := x_c.isLt
  have := x_w.toNat_lt
  have := x_p.isLt
  have := x_a.isLt
  have := x_b.isLt
  simp only [ShIcmp.bits, ShIcmp.ofBits, ShIcmp.mk.injEq]
  refine ⟨by omega, ?_, ?_, ?_, ?_, ?_⟩ <;>
    first | exact ofNat_field (by simp only [field]; omega) | exact bitOf_eq (by simp only [field]; omega)

/-- The fields of ShDot lie below the opcode and read back. -/
theorem ShDot.coding (k : Nat) (f : ShDot) :
    f.bits < 2 ^ 25 ∧ ShDot.ofBits (k * 2 ^ 25 + (f.bits)) = f := by
  obtain ⟨x_u, x_s, x_n, x_d, x_a, x_b⟩ := f
  have := x_u.toNat_lt
  have := x_s.toNat_lt
  have := x_n.toNat_lt
  have := x_d.isLt
  have := x_a.isLt
  have := x_b.isLt
  simp only [ShDot.bits, ShDot.ofBits, ShDot.mk.injEq]
  refine ⟨by omega, ?_, ?_, ?_, ?_, ?_, ?_⟩ <;>
    first | exact ofNat_field (by simp only [field]; omega) | exact bitOf_eq (by simp only [field]; omega)

/-- The fields of ShIntUn lie below the opcode and read back. -/
theorem ShIntUn.coding (k : Nat) (f : ShIntUn) :
    f.bits < 2 ^ 25 ∧ ShIntUn.ofBits (k * 2 ^ 25 + (f.bits)) = f := by
  obtain ⟨x_u, x_s, x_w, x_d, x_a⟩ := f
  have := x_u.toNat_lt
  have := x_s.toNat_lt
  have := x_w.toNat_lt
  have := x_d.isLt
  have := x_a.isLt
  simp only [ShIntUn.bits, ShIntUn.ofBits, ShIntUn.mk.injEq]
  refine ⟨by omega, ?_, ?_, ?_, ?_, ?_⟩ <;>
    first | exact ofNat_field (by simp only [field]; omega) | exact bitOf_eq (by simp only [field]; omega)

/-- The fields of ShConv lie below the opcode and read back. -/
theorem ShConv.coding (k : Nat) (f : ShConv) :
    f.bits < 2 ^ 25 ∧ ShConv.ofBits (k * 2 ^ 25 + (f.bits)) = f := by
  obtain ⟨x_u, x_r, x_d, x_a, x_f, x_i⟩ := f
  have := x_u.toNat_lt
  have := x_r.isLt
  have := x_d.isLt
  have := x_a.isLt
  have := x_f.isLt
  have := x_i.isLt
  simp only [ShConv.bits, ShConv.ofBits, ShConv.mk.injEq]
  refine ⟨by omega, ?_, ?_, ?_, ?_, ?_, ?_⟩ <;>
    first | exact ofNat_field (by simp only [field]; omega) | exact bitOf_eq (by simp only [field]; omega)

/-- The fields of ShBit lie below the opcode and read back. -/
theorem ShBit.coding (k : Nat) (f : ShBit) :
    f.bits < 2 ^ 25 ∧ ShBit.ofBits (k * 2 ^ 25 + (f.bits)) = f := by
  obtain ⟨x_u, x_w, x_d, x_a, x_b⟩ := f
  have := x_u.toNat_lt
  have := x_w.toNat_lt
  have := x_d.isLt
  have := x_a.isLt
  have := x_b.isLt
  simp only [ShBit.bits, ShBit.ofBits, ShBit.mk.injEq]
  refine ⟨by omega, ?_, ?_, ?_, ?_, ?_⟩ <;>
    first | exact ofNat_field (by simp only [field]; omega) | exact bitOf_eq (by simp only [field]; omega)

/-- The fields of ShBitImm lie below the opcode and read back. -/
theorem ShBitImm.coding (k : Nat) (f : ShBitImm) :
    f.bits < 2 ^ 25 ∧ ShBitImm.ofBits (k * 2 ^ 25 + (f.bits)) = f := by
  obtain ⟨x_u, x_w, x_d, x_a, x_i⟩ := f
  have := x_u.toNat_lt
  have := x_w.toNat_lt
  have := x_d.isLt
  have := x_a.isLt
  have := x_i.isLt
  simp only [ShBitImm.bits, ShBitImm.ofBits, ShBitImm.mk.injEq]
  refine ⟨by omega, ?_, ?_, ?_, ?_, ?_⟩ <;>
    first | exact ofNat_field (by simp only [field]; omega) | exact bitOf_eq (by simp only [field]; omega)

/-- The fields of ShShadd lie below the opcode and read back. -/
theorem ShShadd.coding (k : Nat) (f : ShShadd) :
    f.bits < 2 ^ 25 ∧ ShShadd.ofBits (k * 2 ^ 25 + (f.bits)) = f := by
  obtain ⟨x_u, x_k, x_d, x_a, x_b⟩ := f
  have := x_u.toNat_lt
  have := x_k.isLt
  have := x_d.isLt
  have := x_a.isLt
  have := x_b.isLt
  simp only [ShShadd.bits, ShShadd.ofBits, ShShadd.mk.injEq]
  refine ⟨by omega, ?_, ?_, ?_, ?_, ?_⟩ <;>
    first | exact ofNat_field (by simp only [field]; omega) | exact bitOf_eq (by simp only [field]; omega)

/-- The fields of ShSel lie below the opcode and read back. -/
theorem ShSel.coding (k : Nat) (f : ShSel) :
    f.bits < 2 ^ 25 ∧ ShSel.ofBits (k * 2 ^ 25 + (f.bits)) = f := by
  obtain ⟨x_u, x_p, x_d, x_a, x_b⟩ := f
  have := x_u.toNat_lt
  have := x_p.isLt
  have := x_d.isLt
  have := x_a.isLt
  have := x_b.isLt
  simp only [ShSel.bits, ShSel.ofBits, ShSel.mk.injEq]
  refine ⟨by omega, ?_, ?_, ?_, ?_, ?_⟩ <;>
    first | exact ofNat_field (by simp only [field]; omega) | exact bitOf_eq (by simp only [field]; omega)

/-- The fields of ShBitUn lie below the opcode and read back. -/
theorem ShBitUn.coding (k : Nat) (f : ShBitUn) :
    f.bits < 2 ^ 25 ∧ ShBitUn.ofBits (k * 2 ^ 25 + (f.bits)) = f := by
  obtain ⟨x_u, x_w, x_d, x_a⟩ := f
  have := x_u.toNat_lt
  have := x_w.toNat_lt
  have := x_d.isLt
  have := x_a.isLt
  simp only [ShBitUn.bits, ShBitUn.ofBits, ShBitUn.mk.injEq]
  refine ⟨by omega, ?_, ?_, ?_, ?_⟩ <;>
    first | exact ofNat_field (by simp only [field]; omega) | exact bitOf_eq (by simp only [field]; omega)

/-- The fields of ShMovi lie below the opcode and read back. -/
theorem ShMovi.coding (k : Nat) (f : ShMovi) :
    f.bits < 2 ^ 25 ∧ ShMovi.ofBits (k * 2 ^ 25 + (f.bits)) = f := by
  obtain ⟨x_u, x_d, x_i⟩ := f
  have := x_u.toNat_lt
  have := x_d.isLt
  have := x_i.isLt
  simp only [ShMovi.bits, ShMovi.ofBits, ShMovi.mk.injEq]
  refine ⟨by omega, ?_, ?_, ?_⟩ <;>
    first | exact ofNat_field (by simp only [field]; omega) | exact bitOf_eq (by simp only [field]; omega)

/-- The fields of ShIlv lie below the opcode and read back. -/
theorem ShIlv.coding (k : Nat) (f : ShIlv) :
    f.bits < 2 ^ 25 ∧ ShIlv.ofBits (k * 2 ^ 25 + (f.bits)) = f := by
  obtain ⟨x_u, x_t, x_d, x_a, x_b⟩ := f
  have := x_u.toNat_lt
  have := x_t.toNat_lt
  have := x_d.isLt
  have := x_a.isLt
  have := x_b.isLt
  simp only [ShIlv.bits, ShIlv.ofBits, ShIlv.mk.injEq]
  refine ⟨by omega, ?_, ?_, ?_, ?_, ?_⟩ <;>
    first | exact ofNat_field (by simp only [field]; omega) | exact bitOf_eq (by simp only [field]; omega)

/-- The fields of ShUDAB lie below the opcode and read back. -/
theorem ShUDAB.coding (k : Nat) (f : ShUDAB) :
    f.bits < 2 ^ 25 ∧ ShUDAB.ofBits (k * 2 ^ 25 + (f.bits)) = f := by
  obtain ⟨x_u, x_d, x_a, x_b⟩ := f
  have := x_u.toNat_lt
  have := x_d.isLt
  have := x_a.isLt
  have := x_b.isLt
  simp only [ShUDAB.bits, ShUDAB.ofBits, ShUDAB.mk.injEq]
  refine ⟨by omega, ?_, ?_, ?_, ?_⟩ <;>
    first | exact ofNat_field (by simp only [field]; omega) | exact bitOf_eq (by simp only [field]; omega)

/-- The fields of ShTacc lie below the opcode and read back. -/
theorem ShTacc.coding (k : Nat) (f : ShTacc) :
    f.bits < 2 ^ 25 ∧ ShTacc.ofBits (k * 2 ^ 25 + (f.bits)) = f := by
  obtain ⟨x_u, x_s, x_d, x_a, x_b⟩ := f
  have := x_u.toNat_lt
  have := x_s.toNat_lt
  have := x_d.isLt
  have := x_a.isLt
  have := x_b.isLt
  simp only [ShTacc.bits, ShTacc.ofBits, ShTacc.mk.injEq]
  refine ⟨by omega, ?_, ?_, ?_, ?_, ?_⟩ <;>
    first | exact ofNat_field (by simp only [field]; omega) | exact bitOf_eq (by simp only [field]; omega)

/-- The fields of ShPlog lie below the opcode and read back. -/
theorem ShPlog.coding (k : Nat) (f : ShPlog) :
    f.bits < 2 ^ 25 ∧ ShPlog.ofBits (k * 2 ^ 25 + (f.bits)) = f := by
  obtain ⟨x_c, x_d, x_a, x_b⟩ := f
  have := x_c.isLt
  have := x_d.isLt
  have := x_a.isLt
  have := x_b.isLt
  simp only [ShPlog.bits, ShPlog.ofBits, ShPlog.mk.injEq]
  refine ⟨by omega, ?_, ?_, ?_, ?_⟩ <;>
    exact ofNat_field (by simp only [field]; omega)

/-- The fields of ShFlt lie below the opcode and read back. -/
theorem ShFlt.coding (k : Nat) (f : ShFlt) :
    f.bits < 2 ^ 25 ∧ ShFlt.ofBits (k * 2 ^ 25 + (f.bits)) = f := by
  obtain ⟨x_u, x_r, x_d, x_a, x_b⟩ := f
  have := x_u.toNat_lt
  have := x_r.isLt
  have := x_d.isLt
  have := x_a.isLt
  have := x_b.isLt
  simp only [ShFlt.bits, ShFlt.ofBits, ShFlt.mk.injEq]
  refine ⟨by omega, ?_, ?_, ?_, ?_, ?_⟩ <;>
    first | exact ofNat_field (by simp only [field]; omega) | exact bitOf_eq (by simp only [field]; omega)

/-- The fields of ShFminmax lie below the opcode and read back. -/
theorem ShFminmax.coding (k : Nat) (f : ShFminmax) :
    f.bits < 2 ^ 25 ∧ ShFminmax.ofBits (k * 2 ^ 25 + (f.bits)) = f := by
  obtain ⟨x_u, x_n, x_d, x_a, x_b⟩ := f
  have := x_u.toNat_lt
  have := x_n.toNat_lt
  have := x_d.isLt
  have := x_a.isLt
  have := x_b.isLt
  simp only [ShFminmax.bits, ShFminmax.ofBits, ShFminmax.mk.injEq]
  refine ⟨by omega, ?_, ?_, ?_, ?_, ?_⟩ <;>
    first | exact ofNat_field (by simp only [field]; omega) | exact bitOf_eq (by simp only [field]; omega)

/-- The fields of ShFcmp lie below the opcode and read back. -/
theorem ShFcmp.coding (k : Nat) (f : ShFcmp) :
    f.bits < 2 ^ 25 ∧ ShFcmp.ofBits (k * 2 ^ 25 + (f.bits)) = f := by
  obtain ⟨x_c, x_p, x_a, x_b⟩ := f
  have := x_c.isLt
  have := x_p.isLt
  have := x_a.isLt
  have := x_b.isLt
  simp only [ShFcmp.bits, ShFcmp.ofBits, ShFcmp.mk.injEq]
  refine ⟨by omega, ?_, ?_, ?_, ?_⟩ <;>
    exact ofNat_field (by simp only [field]; omega)

/-- The fields of ShMem lie below the opcode and read back. -/
theorem ShMem.coding (k : Nat) (f : ShMem) :
    f.bits < 2 ^ 25 ∧ ShMem.ofBits (k * 2 ^ 25 + (f.bits)) = f := by
  obtain ⟨x_u, x_w, x_d, x_c, x_o, x_x, x_f⟩ := f
  have := x_u.toNat_lt
  have := x_w.isLt
  have := x_d.isLt
  have := x_c.isLt
  have := x_o.isLt
  have := x_x.toNat_lt
  have := x_f.isLt
  simp only [ShMem.bits, ShMem.ofBits, ShMem.mk.injEq]
  refine ⟨by omega, ?_, ?_, ?_, ?_, ?_, ?_, ?_⟩ <;>
    first | exact ofNat_field (by simp only [field]; omega) | exact bitOf_eq (by simp only [field]; omega)

/-- The fields of ShMemNW lie below the opcode and read back. -/
theorem ShMemNW.coding (k : Nat) (j : Nat) (hj : j = 0 ∨ j = 10485760) (f : ShMemNW) :
    j + f.bits < 2 ^ 25 ∧ ShMemNW.ofBits (k * 2 ^ 25 + (j + f.bits)) = f := by
  obtain ⟨x_u, x_d, x_c, x_o, x_x, x_f⟩ := f
  have := x_u.toNat_lt
  have := x_d.isLt
  have := x_c.isLt
  have := x_o.isLt
  have := x_x.toNat_lt
  have := x_f.isLt
  simp only [ShMemNW.bits, ShMemNW.ofBits, ShMemNW.mk.injEq]
  refine ⟨by omega, ?_, ?_, ?_, ?_, ?_, ?_⟩ <;>
    first | exact ofNat_field (by simp only [field]; omega) | exact bitOf_eq (by simp only [field]; omega)

/-- The fields of ShLdl lie below the opcode and read back. -/
theorem ShLdl.coding (k : Nat) (f : ShLdl) :
    f.bits < 2 ^ 25 ∧ ShLdl.ofBits (k * 2 ^ 25 + (f.bits)) = f := by
  obtain ⟨x_u, x_w, x_d, x_q, x_f⟩ := f
  have := x_u.toNat_lt
  have := x_w.isLt
  have := x_d.isLt
  have := x_q.isLt
  have := x_f.isLt
  simp only [ShLdl.bits, ShLdl.ofBits, ShLdl.mk.injEq]
  refine ⟨by omega, ?_, ?_, ?_, ?_, ?_⟩ <;>
    first | exact ofNat_field (by simp only [field]; omega) | exact bitOf_eq (by simp only [field]; omega)

/-- The fields of ShStl lie below the opcode and read back. -/
theorem ShStl.coding (k : Nat) (f : ShStl) :
    f.bits < 2 ^ 25 ∧ ShStl.ofBits (k * 2 ^ 25 + (f.bits)) = f := by
  obtain ⟨x_u, x_w, x_d, x_f⟩ := f
  have := x_u.toNat_lt
  have := x_w.isLt
  have := x_d.isLt
  have := x_f.isLt
  simp only [ShStl.bits, ShStl.ofBits, ShStl.mk.injEq]
  refine ⟨by omega, ?_, ?_, ?_, ?_⟩ <;>
    first | exact ofNat_field (by simp only [field]; omega) | exact bitOf_eq (by simp only [field]; omega)

/-- The fields of ShAcas lie below the opcode and read back. -/
theorem ShAcas.coding (k : Nat) (j : Nat) (hj : j = 8388608) (f : ShAcas) :
    j + f.bits < 2 ^ 25 ∧ ShAcas.ofBits (k * 2 ^ 25 + (j + f.bits)) = f := by
  obtain ⟨x_u, x_w, x_d, x_c, x_o, x_x, x_f⟩ := f
  have := x_u.toNat_lt
  have := x_w.toNat_lt
  have := x_d.isLt
  have := x_c.isLt
  have := x_o.isLt
  have := x_x.toNat_lt
  have := x_f.isLt
  simp only [ShAcas.bits, ShAcas.ofBits, ShAcas.mk.injEq]
  refine ⟨by omega, ?_, ?_, ?_, ?_, ?_, ?_, ?_⟩ <;>
    first | exact ofNat_field (by simp only [field]; omega) | exact bitOf_eq (by simp only [field]; omega)

/-- The fields of ShAtom lie below the opcode and read back. -/
theorem ShAtom.coding (k : Nat) (f : ShAtom) :
    f.bits < 2 ^ 25 ∧ ShAtom.ofBits (k * 2 ^ 25 + (f.bits)) = f := by
  obtain ⟨x_u, x_p, x_d, x_c, x_o, x_x, x_f⟩ := f
  have := x_u.toNat_lt
  have := x_p.isLt
  have := x_d.isLt
  have := x_c.isLt
  have := x_o.isLt
  have := x_x.toNat_lt
  have := x_f.isLt
  simp only [ShAtom.bits, ShAtom.ofBits, ShAtom.mk.injEq]
  refine ⟨by omega, ?_, ?_, ?_, ?_, ?_, ?_, ?_⟩ <;>
    first | exact ofNat_field (by simp only [field]; omega) | exact bitOf_eq (by simp only [field]; omega)

/-- The fields of ShTex lie below the opcode and read back. -/
theorem ShTex.coding (k : Nat) (f : ShTex) :
    f.bits < 2 ^ 25 ∧ ShTex.ofBits (k * 2 ^ 25 + (f.bits)) = f := by
  obtain ⟨x_c, x_d, x_a, x_b⟩ := f
  have := x_c.isLt
  have := x_d.isLt
  have := x_a.isLt
  have := x_b.isLt
  simp only [ShTex.bits, ShTex.ofBits, ShTex.mk.injEq]
  refine ⟨by omega, ?_, ?_, ?_, ?_⟩ <;>
    exact ofNat_field (by simp only [field]; omega)

/-- The fields of ShTrace lie below the opcode and read back. -/
theorem ShTrace.coding (k : Nat) (f : ShTrace) :
    f.bits < 2 ^ 25 ∧ ShTrace.ofBits (k * 2 ^ 25 + (f.bits)) = f := by
  obtain ⟨x_c, x_d, x_a, x_b⟩ := f
  have := x_c.toNat_lt
  have := x_d.isLt
  have := x_a.isLt
  have := x_b.isLt
  simp only [ShTrace.bits, ShTrace.ofBits, ShTrace.mk.injEq]
  refine ⟨by omega, ?_, ?_, ?_, ?_⟩ <;>
    first | exact ofNat_field (by simp only [field]; omega) | exact bitOf_eq (by simp only [field]; omega)

/-- The fields of ShDAB lie below the opcode and read back. -/
theorem ShDAB.coding (k : Nat) (f : ShDAB) :
    f.bits < 2 ^ 25 ∧ ShDAB.ofBits (k * 2 ^ 25 + (f.bits)) = f := by
  obtain ⟨x_d, x_a, x_b⟩ := f
  have := x_d.isLt
  have := x_a.isLt
  have := x_b.isLt
  simp only [ShDAB.bits, ShDAB.ofBits, ShDAB.mk.injEq]
  refine ⟨by omega, ?_, ?_, ?_⟩ <;>
    exact ofNat_field (by simp only [field]; omega)

/-- The fields of ShUA lie below the opcode and read back. -/
theorem ShUA.coding (k : Nat) (f : ShUA) :
    f.bits < 2 ^ 25 ∧ ShUA.ofBits (k * 2 ^ 25 + (f.bits)) = f := by
  obtain ⟨x_u, x_a⟩ := f
  have := x_u.toNat_lt
  have := x_a.isLt
  simp only [ShUA.bits, ShUA.ofBits, ShUA.mk.injEq]
  refine ⟨by omega, ?_, ?_⟩ <;>
    first | exact ofNat_field (by simp only [field]; omega) | exact bitOf_eq (by simp only [field]; omega)

/-- The fields of ShSumset lie below the opcode and read back. -/
theorem ShSumset.coding (k : Nat) (f : ShSumset) :
    f.bits < 2 ^ 25 ∧ ShSumset.ofBits (k * 2 ^ 25 + (f.bits)) = f := by
  obtain ⟨x_f, x_d, x_a, x_b⟩ := f
  have := x_f.toNat_lt
  have := x_d.isLt
  have := x_a.isLt
  have := x_b.isLt
  simp only [ShSumset.bits, ShSumset.ofBits, ShSumset.mk.injEq]
  refine ⟨by omega, ?_, ?_, ?_, ?_⟩ <;>
    first | exact ofNat_field (by simp only [field]; omega) | exact bitOf_eq (by simp only [field]; omega)

/-- The fields of ShUDA lie below the opcode and read back. -/
theorem ShUDA.coding (k : Nat) (j : Nat) (hj : j < 128) (f : ShUDA) :
    j + f.bits < 2 ^ 25 ∧ ShUDA.ofBits (k * 2 ^ 25 + (j + f.bits)) = f := by
  obtain ⟨x_u, x_d, x_a⟩ := f
  have := x_u.toNat_lt
  have := x_d.isLt
  have := x_a.isLt
  simp only [ShUDA.bits, ShUDA.ofBits, ShUDA.mk.injEq]
  refine ⟨by omega, ?_, ?_, ?_⟩ <;>
    first | exact ofNat_field (by simp only [field]; omega) | exact bitOf_eq (by simp only [field]; omega)

/-- The fields of ShWbind lie below the opcode and read back. -/
theorem ShWbind.coding (k : Nat) (f : ShWbind) :
    f.bits < 2 ^ 25 ∧ ShWbind.ofBits (k * 2 ^ 25 + (f.bits)) = f := by
  obtain ⟨x_u, x_c, x_a, x_b⟩ := f
  have := x_u.toNat_lt
  have := x_c.isLt
  have := x_a.isLt
  have := x_b.isLt
  simp only [ShWbind.bits, ShWbind.ofBits, ShWbind.mk.injEq]
  refine ⟨by omega, ?_, ?_, ?_, ?_⟩ <;>
    first | exact ofNat_field (by simp only [field]; omega) | exact bitOf_eq (by simp only [field]; omega)

/-- The fields of ShRand lie below the opcode and read back. -/
theorem ShRand.coding (k : Nat) (f : ShRand) :
    f.bits < 2 ^ 25 ∧ ShRand.ofBits (k * 2 ^ 25 + (f.bits)) = f := by
  obtain ⟨x_u, x_c, x_d, x_a, x_b⟩ := f
  have := x_u.toNat_lt
  have := x_c.toNat_lt
  have := x_d.isLt
  have := x_a.isLt
  have := x_b.isLt
  simp only [ShRand.bits, ShRand.ofBits, ShRand.mk.injEq]
  refine ⟨by omega, ?_, ?_, ?_, ?_, ?_⟩ <;>
    first | exact ofNat_field (by simp only [field]; omega) | exact bitOf_eq (by simp only [field]; omega)

/-- The fields of ShCapld lie below the opcode and read back. -/
theorem ShCapld.coding (k : Nat) (f : ShCapld) :
    f.bits < 2 ^ 25 ∧ ShCapld.ofBits (k * 2 ^ 25 + (f.bits)) = f := by
  obtain ⟨x_d, x_a⟩ := f
  have := x_d.isLt
  have := x_a.isLt
  simp only [ShCapld.bits, ShCapld.ofBits, ShCapld.mk.injEq]
  refine ⟨by omega, ?_, ?_⟩ <;>
    exact ofNat_field (by simp only [field]; omega)

/-- The fields of ShCapnar lie below the opcode and read back. -/
theorem ShCapnar.coding (k : Nat) (f : ShCapnar) :
    f.bits < 2 ^ 25 ∧ ShCapnar.ofBits (k * 2 ^ 25 + (f.bits)) = f := by
  obtain ⟨x_d, x_s, x_b⟩ := f
  have := x_d.isLt
  have := x_s.isLt
  have := x_b.isLt
  simp only [ShCapnar.bits, ShCapnar.ofBits, ShCapnar.mk.injEq]
  refine ⟨by omega, ?_, ?_, ?_⟩ <;>
    exact ofNat_field (by simp only [field]; omega)

/-- The fields of ShFltUn lie below the opcode and read back. -/
theorem ShFltUn.coding (k : Nat) (j : Nat) (hj : j < 128) (f : ShFltUn) :
    j + f.bits < 2 ^ 25 ∧ ShFltUn.ofBits (k * 2 ^ 25 + (j + f.bits)) = f := by
  obtain ⟨x_u, x_r, x_d, x_a⟩ := f
  have := x_u.toNat_lt
  have := x_r.isLt
  have := x_d.isLt
  have := x_a.isLt
  simp only [ShFltUn.bits, ShFltUn.ofBits, ShFltUn.mk.injEq]
  refine ⟨by omega, ?_, ?_, ?_, ?_⟩ <;>
    first | exact ofNat_field (by simp only [field]; omega) | exact bitOf_eq (by simp only [field]; omega)

/-- The fields of ShVote lie below the opcode and read back. -/
theorem ShVote.coding (k : Nat) (j : Nat) (hj : j < 128) (f : ShVote) :
    j + f.bits < 2 ^ 25 ∧ ShVote.ofBits (k * 2 ^ 25 + (j + f.bits)) = f := by
  obtain ⟨x_d, x_p⟩ := f
  have := x_d.isLt
  have := x_p.isLt
  simp only [ShVote.bits, ShVote.ofBits, ShVote.mk.injEq]
  refine ⟨by omega, ?_, ?_⟩ <;>
    exact ofNat_field (by simp only [field]; omega)

/-- The fields of ShRDA lie below the opcode and read back. -/
theorem ShRDA.coding (k : Nat) (j : Nat) (hj : j < 128) (f : ShRDA) :
    j + f.bits < 2 ^ 25 ∧ ShRDA.ofBits (k * 2 ^ 25 + (j + f.bits)) = f := by
  obtain ⟨x_r, x_d, x_a⟩ := f
  have := x_r.isLt
  have := x_d.isLt
  have := x_a.isLt
  simp only [ShRDA.bits, ShRDA.ofBits, ShRDA.mk.injEq]
  refine ⟨by omega, ?_, ?_, ?_⟩ <;>
    exact ofNat_field (by simp only [field]; omega)

/-- The fields of ShPmovReg lie below the opcode and read back. -/
theorem ShPmovReg.coding (k : Nat) (f : ShPmovReg) :
    f.bits < 2 ^ 25 ∧ ShPmovReg.ofBits (k * 2 ^ 25 + (f.bits)) = f := by
  obtain ⟨x_d, x_a⟩ := f
  have := x_d.isLt
  have := x_a.isLt
  simp only [ShPmovReg.bits, ShPmovReg.ofBits, ShPmovReg.mk.injEq]
  refine ⟨by omega, ?_, ?_⟩ <;>
    exact ofNat_field (by simp only [field]; omega)

/-- The fields of ShPmovPred lie below the opcode and read back. -/
theorem ShPmovPred.coding (k : Nat) (j : Nat) (hj : j < 128) (f : ShPmovPred) :
    j + f.bits < 2 ^ 25 ∧ ShPmovPred.ofBits (k * 2 ^ 25 + (j + f.bits)) = f := by
  obtain ⟨x_d, x_a⟩ := f
  have := x_d.isLt
  have := x_a.isLt
  simp only [ShPmovPred.bits, ShPmovPred.ofBits, ShPmovPred.mk.injEq]
  refine ⟨by omega, ?_, ?_⟩ <;>
    exact ofNat_field (by simp only [field]; omega)

/-- The fields of ShD lie below the opcode and read back. -/
theorem ShD.coding (k : Nat) (j : Nat) (hj : j < 128) (f : ShD) :
    j + f.bits < 2 ^ 25 ∧ ShD.ofBits (k * 2 ^ 25 + (j + f.bits)) = f := by
  obtain ⟨x_d⟩ := f
  have := x_d.isLt
  simp only [ShD.bits, ShD.ofBits, ShD.mk.injEq]
  refine ⟨by omega, ?_⟩
  · exact ofNat_field (by simp only [field]; omega)

/-- The fields of ShGets lie below the opcode and read back. -/
theorem ShGets.coding (k : Nat) (j : Nat) (hj : j < 128) (f : ShGets) :
    j + f.bits < 2 ^ 25 ∧ ShGets.ofBits (k * 2 ^ 25 + (j + f.bits)) = f := by
  obtain ⟨x_d, x_n⟩ := f
  have := x_d.isLt
  have := x_n.isLt
  simp only [ShGets.bits, ShGets.ofBits, ShGets.mk.injEq]
  refine ⟨by omega, ?_, ?_⟩ <;>
    exact ofNat_field (by simp only [field]; omega)

/-- The fields of ShSets lie below the opcode and read back. -/
theorem ShSets.coding (k : Nat) (j : Nat) (hj : j < 128) (f : ShSets) :
    j + f.bits < 2 ^ 25 ∧ ShSets.ofBits (k * 2 ^ 25 + (j + f.bits)) = f := by
  obtain ⟨x_n, x_a⟩ := f
  have := x_n.isLt
  have := x_a.isLt
  simp only [ShSets.bits, ShSets.ofBits, ShSets.mk.injEq]
  refine ⟨by omega, ?_, ?_⟩ <;>
    exact ofNat_field (by simp only [field]; omega)

/-- The fields of ShUD lie below the opcode and read back. -/
theorem ShUD.coding (k : Nat) (j : Nat) (hj : j < 128) (f : ShUD) :
    j + f.bits < 2 ^ 25 ∧ ShUD.ofBits (k * 2 ^ 25 + (j + f.bits)) = f := by
  obtain ⟨x_u, x_d⟩ := f
  have := x_u.toNat_lt
  have := x_d.isLt
  simp only [ShUD.bits, ShUD.ofBits, ShUD.mk.injEq]
  refine ⟨by omega, ?_, ?_⟩ <;>
    first | exact ofNat_field (by simp only [field]; omega) | exact bitOf_eq (by simp only [field]; omega)

/-- The fields of ShSetmode lie below the opcode and read back. -/
theorem ShSetmode.coding (k : Nat) (j : Nat) (hj : j < 128) (f : ShSetmode) :
    j + f.bits < 2 ^ 25 ∧ ShSetmode.ofBits (k * 2 ^ 25 + (j + f.bits)) = f := by
  obtain ⟨x_c, x_a⟩ := f
  have := x_c.isLt
  have := x_a.isLt
  simp only [ShSetmode.bits, ShSetmode.ofBits, ShSetmode.mk.injEq]
  refine ⟨by omega, ?_, ?_⟩ <;>
    exact ofNat_field (by simp only [field]; omega)

/-- The fields of ShWbase lie below the opcode and read back. -/
theorem ShWbase.coding (k : Nat) (j : Nat) (hj : j < 128) (f : ShWbase) :
    j + f.bits < 2 ^ 25 ∧ ShWbase.ofBits (k * 2 ^ 25 + (j + f.bits)) = f := by
  obtain ⟨x_b⟩ := f
  have := x_b.isLt
  simp only [ShWbase.bits, ShWbase.ofBits, ShWbase.mk.injEq]
  refine ⟨by omega, ?_⟩
  · exact ofNat_field (by simp only [field]; omega)

/-- The fields of ShSegld lie below the opcode and read back. -/
theorem ShSegld.coding (k : Nat) (j : Nat) (hj : j < 128) (f : ShSegld) :
    j + f.bits < 2 ^ 25 ∧ ShSegld.ofBits (k * 2 ^ 25 + (j + f.bits)) = f := by
  obtain ⟨x_k, x_a⟩ := f
  have := x_k.isLt
  have := x_a.isLt
  simp only [ShSegld.bits, ShSegld.ofBits, ShSegld.mk.injEq]
  refine ⟨by omega, ?_, ?_⟩ <;>
    exact ofNat_field (by simp only [field]; omega)

/-- The fields of ShCaprd lie below the opcode and read back. -/
theorem ShCaprd.coding (k : Nat) (j : Nat) (hj : j < 128) (f : ShCaprd) :
    j + f.bits < 2 ^ 25 ∧ ShCaprd.ofBits (k * 2 ^ 25 + (j + f.bits)) = f := by
  obtain ⟨x_c, x_d, x_k⟩ := f
  have := x_c.isLt
  have := x_d.isLt
  have := x_k.isLt
  simp only [ShCaprd.bits, ShCaprd.ofBits, ShCaprd.mk.injEq]
  refine ⟨by omega, ?_, ?_, ?_⟩ <;>
    exact ofNat_field (by simp only [field]; omega)

/-- The fields of ShScope lie below the opcode and read back. -/
theorem ShScope.coding (k : Nat) (j : Nat) (hj : j < 128) (f : ShScope) :
    j + f.bits < 2 ^ 25 ∧ ShScope.ofBits (k * 2 ^ 25 + (j + f.bits)) = f := by
  obtain ⟨x_s⟩ := f
  have := x_s.isLt
  simp only [ShScope.bits, ShScope.ofBits, ShScope.mk.injEq]
  refine ⟨by omega, ?_⟩
  · exact ofNat_field (by simp only [field]; omega)

/-- The fields of ShXfence lie below the opcode and read back. -/
theorem ShXfence.coding (k : Nat) (j : Nat) (hj : j < 128) (f : ShXfence) :
    j + f.bits < 2 ^ 25 ∧ ShXfence.ofBits (k * 2 ^ 25 + (j + f.bits)) = f := by
  obtain ⟨x_s, x_f, x_t⟩ := f
  have := x_s.isLt
  have := x_f.isLt
  have := x_t.isLt
  simp only [ShXfence.bits, ShXfence.ofBits, ShXfence.mk.injEq]
  refine ⟨by omega, ?_, ?_, ?_⟩ <;>
    exact ofNat_field (by simp only [field]; omega)

/-- The fields of ShBar lie below the opcode and read back. -/
theorem ShBar.coding (k : Nat) (j : Nat) (hj : j < 128) (f : ShBar) :
    j + f.bits < 2 ^ 25 ∧ ShBar.ofBits (k * 2 ^ 25 + (j + f.bits)) = f := by
  obtain ⟨x_c, x_n⟩ := f
  have := x_c.toNat_lt
  have := x_n.isLt
  simp only [ShBar.bits, ShBar.ofBits, ShBar.mk.injEq]
  refine ⟨by omega, ?_, ?_⟩ <;>
    first | exact ofNat_field (by simp only [field]; omega) | exact bitOf_eq (by simp only [field]; omega)

/-- The fields of ShWaitv lie below the opcode and read back. -/
theorem ShWaitv.coding (k : Nat) (j : Nat) (hj : j < 128) (f : ShWaitv) :
    j + f.bits < 2 ^ 25 ∧ ShWaitv.ofBits (k * 2 ^ 25 + (j + f.bits)) = f := by
  obtain ⟨x_u, x_c, x_d, x_a⟩ := f
  have := x_u.toNat_lt
  have := x_c.isLt
  have := x_d.isLt
  have := x_a.isLt
  simp only [ShWaitv.bits, ShWaitv.ofBits, ShWaitv.mk.injEq]
  refine ⟨by omega, ?_, ?_, ?_, ?_⟩ <;>
    first | exact ofNat_field (by simp only [field]; omega) | exact bitOf_eq (by simp only [field]; omega)

/-- The fields of ShPref lie below the opcode and read back. -/
theorem ShPref.coding (k : Nat) (j : Nat) (hj : j < 128) (f : ShPref) :
    j + f.bits < 2 ^ 25 ∧ ShPref.ofBits (k * 2 ^ 25 + (j + f.bits)) = f := by
  obtain ⟨x_u, x_c, x_a⟩ := f
  have := x_u.toNat_lt
  have := x_c.isLt
  have := x_a.isLt
  simp only [ShPref.bits, ShPref.ofBits, ShPref.mk.injEq]
  refine ⟨by omega, ?_, ?_, ?_⟩ <;>
    first | exact ofNat_field (by simp only [field]; omega) | exact bitOf_eq (by simp only [field]; omega)

/-- The opcode 0x70 names the group whose secondary opcode decides (R74). -/
theorem opcode_FloatSpecial {w : Nat} (h : field w 25 7 = 112) : decodeOpcode w = decodeGroupFloatSpecial w := by
  unfold decodeOpcode
  generalize decodeGroupFloatSpecial w = y
  rw [h]
  rfl

/-- The opcode 0x71 names the group whose secondary opcode decides (R74). -/
theorem opcode_RodCollective {w : Nat} (h : field w 25 7 = 113) : decodeOpcode w = decodeGroupRodCollective w := by
  unfold decodeOpcode
  generalize decodeGroupRodCollective w = y
  rw [h]
  rfl

/-- The opcode 0x72 names the group whose secondary opcode decides (R74). -/
theorem opcode_StateControl {w : Nat} (h : field w 25 7 = 114) : decodeOpcode w = decodeGroupStateControl w := by
  unfold decodeOpcode
  generalize decodeGroupStateControl w = y
  rw [h]
  rfl

/-- The opcode 0x73 names the group whose secondary opcode decides (R74). -/
theorem opcode_Ordering {w : Nat} (h : field w 25 7 = 115) : decodeOpcode w = decodeGroupOrdering w := by
  unfold decodeOpcode
  generalize decodeGroupOrdering w = y
  rw [h]
  rfl

/-- The opcode 0x74 names the group whose secondary opcode decides (R74). -/
theorem opcode_QueuesEngines {w : Nat} (h : field w 25 7 = 116) : decodeOpcode w = decodeGroupQueuesEngines w := by
  unfold decodeOpcode
  generalize decodeGroupQueuesEngines w = y
  rw [h]
  rfl

/-- The opcode 0x75 names the group whose secondary opcode decides (R74). -/
theorem opcode_BlockConversion {w : Nat} (h : field w 25 7 = 117) : decodeOpcode w = decodeGroupBlockConversion w := by
  unfold decodeOpcode
  generalize decodeGroupBlockConversion w = y
  rw [h]
  rfl

end Sys2Proof.Laws
end

