-- ==== Sys2Proof/Laws/PerInstr.lean ====
section
/-!
SUPPORT. For every constructor: the word that the encoder gives fits in 32 bits, and its opcode names the instruction with
its fields.
-/

set_option Elab.async false

namespace Sys2Proof.Laws.Coding

/-- An instruction with a word has one of 32 bits whose opcode, and secondary opcode, name it with all its fields. -/
def Statement (i : Instr) : Prop := i.isWord = true → encodeNat i < 2 ^ 32 ∧ decodeOpcode (encodeNat i) = some i

theorem illegal (f : ShIllegal) : Statement (.illegal f) := by
  intro _
  obtain ⟨hx, hf⟩ := ShIllegal.coding 0 f
  have hw : encodeNat (.illegal f) = 0 * 2 ^ 25 + (f.bits) := by simp only [encodeNat]; omega
  rw [hw]
  refine ⟨by omega, ?_⟩
  unfold decodeOpcode
  rw [opcode_eq (by decide) hx]
  exact congrArg (fun f => some (Instr.illegal f)) hf

theorem bra (f : ShBranch) : Statement (.bra f) := by
  intro _
  obtain ⟨hx, hf⟩ := ShBranch.coding 2 f
  have hw : encodeNat (.bra f) = 2 * 2 ^ 25 + (f.bits) := by simp only [encodeNat]; omega
  rw [hw]
  refine ⟨by omega, ?_⟩
  unfold decodeOpcode
  rw [opcode_eq (by decide) hx]
  exact congrArg (fun f => some (Instr.bra f)) hf

theorem brpAll (f : ShBranch) : Statement (.brpAll f) := by
  intro _
  obtain ⟨hx, hf⟩ := ShBranch.coding 3 f
  have hw : encodeNat (.brpAll f) = 3 * 2 ^ 25 + (f.bits) := by simp only [encodeNat]; omega
  rw [hw]
  refine ⟨by omega, ?_⟩
  unfold decodeOpcode
  rw [opcode_eq (by decide) hx]
  exact congrArg (fun f => some (Instr.brpAll f)) hf

theorem brpAny (f : ShBranch) : Statement (.brpAny f) := by
  intro _
  obtain ⟨hx, hf⟩ := ShBranch.coding 4 f
  have hw : encodeNat (.brpAny f) = 4 * 2 ^ 25 + (f.bits) := by simp only [encodeNat]; omega
  rw [hw]
  refine ⟨by omega, ?_⟩
  unfold decodeOpcode
  rw [opcode_eq (by decide) hx]
  exact congrArg (fun f => some (Instr.brpAny f)) hf

theorem call (f : ShCall) : Statement (.call f) := by
  intro _
  obtain ⟨hx, hf⟩ := ShCall.coding 5 f
  have hw : encodeNat (.call f) = 5 * 2 ^ 25 + (f.bits) := by simp only [encodeNat]; omega
  rw [hw]
  refine ⟨by omega, ?_⟩
  unfold decodeOpcode
  rw [opcode_eq (by decide) hx]
  exact congrArg (fun f => some (Instr.call f)) hf

theorem callReg (f : ShDA) : Statement (.callReg f) := by
  intro _
  obtain ⟨hx, hf⟩ := ShDA.coding 6 0 (by decide) f
  have hw : encodeNat (.callReg f) = 6 * 2 ^ 25 + (0 + f.bits) := by simp only [encodeNat]; omega
  rw [hw]
  refine ⟨by omega, ?_⟩
  unfold decodeOpcode
  rw [opcode_eq (by decide) hx]
  exact congrArg (fun f => some (Instr.callReg f)) hf

theorem cont (f : ShA) : Statement (.cont f) := by
  intro _
  obtain ⟨hx, hf⟩ := ShA.coding 7 0 (by decide) f
  have hw : encodeNat (.cont f) = 7 * 2 ^ 25 + (0 + f.bits) := by simp only [encodeNat]; omega
  rw [hw]
  refine ⟨by omega, ?_⟩
  unfold decodeOpcode
  rw [opcode_eq (by decide) hx]
  exact congrArg (fun f => some (Instr.cont f)) hf

theorem ret (f : ShA) : Statement (.ret f) := by
  intro _
  obtain ⟨hx, hf⟩ := ShA.coding 8 0 (by decide) f
  have hw : encodeNat (.ret f) = 8 * 2 ^ 25 + (0 + f.bits) := by simp only [encodeNat]; omega
  rw [hw]
  refine ⟨by omega, ?_⟩
  unfold decodeOpcode
  rw [opcode_eq (by decide) hx]
  exact congrArg (fun f => some (Instr.ret f)) hf

theorem brk (f : ShCode) : Statement (.brk f) := by
  intro _
  obtain ⟨hx, hf⟩ := ShCode.coding 11 f
  have hw : encodeNat (.brk f) = 11 * 2 ^ 25 + (f.bits) := by simp only [encodeNat]; omega
  rw [hw]
  refine ⟨by omega, ?_⟩
  unfold decodeOpcode
  rw [opcode_eq (by decide) hx]
  exact congrArg (fun f => some (Instr.brk f)) hf

theorem trap (f : ShUCode) : Statement (.trap f) := by
  intro _
  obtain ⟨hx, hf⟩ := ShUCode.coding 12 f
  have hw : encodeNat (.trap f) = 12 * 2 ^ 25 + (f.bits) := by simp only [encodeNat]; omega
  rw [hw]
  refine ⟨by omega, ?_⟩
  unfold decodeOpcode
  rw [opcode_eq (by decide) hx]
  exact congrArg (fun f => some (Instr.trap f)) hf

theorem upcall (f : ShUpcall) : Statement (.upcall f) := by
  intro _
  obtain ⟨hx, hf⟩ := ShUpcall.coding 13 f
  have hw : encodeNat (.upcall f) = 13 * 2 ^ 25 + (f.bits) := by simp only [encodeNat]; omega
  rw [hw]
  refine ⟨by omega, ?_⟩
  unfold decodeOpcode
  rw [opcode_eq (by decide) hx]
  exact congrArg (fun f => some (Instr.upcall f)) hf

theorem live (f : ShCode) : Statement (.live f) := by
  intro _
  obtain ⟨hx, hf⟩ := ShCode.coding 14 f
  have hw : encodeNat (.live f) = 14 * 2 ^ 25 + (f.bits) := by simp only [encodeNat]; omega
  rw [hw]
  refine ⟨by omega, ?_⟩
  unfold decodeOpcode
  rw [opcode_eq (by decide) hx]
  exact congrArg (fun f => some (Instr.live f)) hf

theorem iadd (f : ShInt) : Statement (.iadd f) := by
  intro _
  obtain ⟨hx, hf⟩ := ShInt.coding 16 f
  have hw : encodeNat (.iadd f) = 16 * 2 ^ 25 + (f.bits) := by simp only [encodeNat]; omega
  rw [hw]
  refine ⟨by omega, ?_⟩
  unfold decodeOpcode
  rw [opcode_eq (by decide) hx]
  exact congrArg (fun f => some (Instr.iadd f)) hf

theorem iaddImm (f : ShIntImm) : Statement (.iaddImm f) := by
  intro _
  obtain ⟨hx, hf⟩ := ShIntImm.coding 17 f
  have hw : encodeNat (.iaddImm f) = 17 * 2 ^ 25 + (f.bits) := by simp only [encodeNat]; omega
  rw [hw]
  refine ⟨by omega, ?_⟩
  unfold decodeOpcode
  rw [opcode_eq (by decide) hx]
  exact congrArg (fun f => some (Instr.iaddImm f)) hf

theorem isub (f : ShInt) : Statement (.isub f) := by
  intro _
  obtain ⟨hx, hf⟩ := ShInt.coding 18 f
  have hw : encodeNat (.isub f) = 18 * 2 ^ 25 + (f.bits) := by simp only [encodeNat]; omega
  rw [hw]
  refine ⟨by omega, ?_⟩
  unfold decodeOpcode
  rw [opcode_eq (by decide) hx]
  exact congrArg (fun f => some (Instr.isub f)) hf

theorem imul (f : ShInt) : Statement (.imul f) := by
  intro _
  obtain ⟨hx, hf⟩ := ShInt.coding 19 f
  have hw : encodeNat (.imul f) = 19 * 2 ^ 25 + (f.bits) := by simp only [encodeNat]; omega
  rw [hw]
  refine ⟨by omega, ?_⟩
  unfold decodeOpcode
  rw [opcode_eq (by decide) hx]
  exact congrArg (fun f => some (Instr.imul f)) hf

theorem imulImm (f : ShIntImm) : Statement (.imulImm f) := by
  intro _
  obtain ⟨hx, hf⟩ := ShIntImm.coding 20 f
  have hw : encodeNat (.imulImm f) = 20 * 2 ^ 25 + (f.bits) := by simp only [encodeNat]; omega
  rw [hw]
  refine ⟨by omega, ?_⟩
  unfold decodeOpcode
  rw [opcode_eq (by decide) hx]
  exact congrArg (fun f => some (Instr.imulImm f)) hf

theorem imulhi (f : ShIntNW) : Statement (.imulhi f) := by
  intro _
  obtain ⟨hx, hf⟩ := ShIntNW.coding 21 f
  have hw : encodeNat (.imulhi f) = 21 * 2 ^ 25 + (f.bits) := by simp only [encodeNat]; omega
  rw [hw]
  refine ⟨by omega, ?_⟩
  unfold decodeOpcode
  rw [opcode_eq (by decide) hx]
  exact congrArg (fun f => some (Instr.imulhi f)) hf

theorem imad (f : ShInt) : Statement (.imad f) := by
  intro _
  obtain ⟨hx, hf⟩ := ShInt.coding 22 f
  have hw : encodeNat (.imad f) = 22 * 2 ^ 25 + (f.bits) := by simp only [encodeNat]; omega
  rw [hw]
  refine ⟨by omega, ?_⟩
  unfold decodeOpcode
  rw [opcode_eq (by decide) hx]
  exact congrArg (fun f => some (Instr.imad f)) hf

theorem idiv (f : ShIntNW) : Statement (.idiv f) := by
  intro _
  obtain ⟨hx, hf⟩ := ShIntNW.coding 23 f
  have hw : encodeNat (.idiv f) = 23 * 2 ^ 25 + (f.bits) := by simp only [encodeNat]; omega
  rw [hw]
  refine ⟨by omega, ?_⟩
  unfold decodeOpcode
  rw [opcode_eq (by decide) hx]
  exact congrArg (fun f => some (Instr.idiv f)) hf

theorem irem (f : ShIntNW) : Statement (.irem f) := by
  intro _
  obtain ⟨hx, hf⟩ := ShIntNW.coding 24 f
  have hw : encodeNat (.irem f) = 24 * 2 ^ 25 + (f.bits) := by simp only [encodeNat]; omega
  rw [hw]
  refine ⟨by omega, ?_⟩
  unfold decodeOpcode
  rw [opcode_eq (by decide) hx]
  exact congrArg (fun f => some (Instr.irem f)) hf

theorem imin (f : ShIntNW) : Statement (.imin f) := by
  intro _
  obtain ⟨hx, hf⟩ := ShIntNW.coding 25 f
  have hw : encodeNat (.imin f) = 25 * 2 ^ 25 + (f.bits) := by simp only [encodeNat]; omega
  rw [hw]
  refine ⟨by omega, ?_⟩
  unfold decodeOpcode
  rw [opcode_eq (by decide) hx]
  exact congrArg (fun f => some (Instr.imin f)) hf

theorem imax (f : ShIntNW) : Statement (.imax f) := by
  intro _
  obtain ⟨hx, hf⟩ := ShIntNW.coding 26 f
  have hw : encodeNat (.imax f) = 26 * 2 ^ 25 + (f.bits) := by simp only [encodeNat]; omega
  rw [hw]
  refine ⟨by omega, ?_⟩
  unfold decodeOpcode
  rw [opcode_eq (by decide) hx]
  exact congrArg (fun f => some (Instr.imax f)) hf

theorem iclamp (f : ShIntNW) : Statement (.iclamp f) := by
  intro _
  obtain ⟨hx, hf⟩ := ShIntNW.coding 27 f
  have hw : encodeNat (.iclamp f) = 27 * 2 ^ 25 + (f.bits) := by simp only [encodeNat]; omega
  rw [hw]
  refine ⟨by omega, ?_⟩
  unfold decodeOpcode
  rw [opcode_eq (by decide) hx]
  exact congrArg (fun f => some (Instr.iclamp f)) hf

theorem icmpS (f : ShIcmp) : Statement (.icmpS f) := by
  intro _
  obtain ⟨hx, hf⟩ := ShIcmp.coding 28 f
  have hw : encodeNat (.icmpS f) = 28 * 2 ^ 25 + (f.bits) := by simp only [encodeNat]; omega
  rw [hw]
  refine ⟨by omega, ?_⟩
  unfold decodeOpcode
  rw [opcode_eq (by decide) hx]
  exact congrArg (fun f => some (Instr.icmpS f)) hf

theorem icmpN (f : ShIcmp) : Statement (.icmpN f) := by
  intro _
  obtain ⟨hx, hf⟩ := ShIcmp.coding 29 f
  have hw : encodeNat (.icmpN f) = 29 * 2 ^ 25 + (f.bits) := by simp only [encodeNat]; omega
  rw [hw]
  refine ⟨by omega, ?_⟩
  unfold decodeOpcode
  rw [opcode_eq (by decide) hx]
  exact congrArg (fun f => some (Instr.icmpN f)) hf

theorem isad (f : ShIntNW) : Statement (.isad f) := by
  intro _
  obtain ⟨hx, hf⟩ := ShIntNW.coding 30 f
  have hw : encodeNat (.isad f) = 30 * 2 ^ 25 + (f.bits) := by simp only [encodeNat]; omega
  rw [hw]
  refine ⟨by omega, ?_⟩
  unfold decodeOpcode
  rw [opcode_eq (by decide) hx]
  exact congrArg (fun f => some (Instr.isad f)) hf

theorem idot4 (f : ShDot) : Statement (.idot4 f) := by
  intro _
  obtain ⟨hx, hf⟩ := ShDot.coding 31 f
  have hw : encodeNat (.idot4 f) = 31 * 2 ^ 25 + (f.bits) := by simp only [encodeNat]; omega
  rw [hw]
  refine ⟨by omega, ?_⟩
  unfold decodeOpcode
  rw [opcode_eq (by decide) hx]
  exact congrArg (fun f => some (Instr.idot4 f)) hf

theorem iabs (f : ShIntUn) : Statement (.iabs f) := by
  intro _
  obtain ⟨hx, hf⟩ := ShIntUn.coding 32 f
  have hw : encodeNat (.iabs f) = 32 * 2 ^ 25 + (f.bits) := by simp only [encodeNat]; omega
  rw [hw]
  refine ⟨by omega, ?_⟩
  unfold decodeOpcode
  rw [opcode_eq (by decide) hx]
  exact congrArg (fun f => some (Instr.iabs f)) hf

theorem ineg (f : ShIntUn) : Statement (.ineg f) := by
  intro _
  obtain ⟨hx, hf⟩ := ShIntUn.coding 33 f
  have hw : encodeNat (.ineg f) = 33 * 2 ^ 25 + (f.bits) := by simp only [encodeNat]; omega
  rw [hw]
  refine ⟨by omega, ?_⟩
  unfold decodeOpcode
  rw [opcode_eq (by decide) hx]
  exact congrArg (fun f => some (Instr.ineg f)) hf

theorem itof (f : ShConv) : Statement (.itof f) := by
  intro _
  obtain ⟨hx, hf⟩ := ShConv.coding 34 f
  have hw : encodeNat (.itof f) = 34 * 2 ^ 25 + (f.bits) := by simp only [encodeNat]; omega
  rw [hw]
  refine ⟨by omega, ?_⟩
  unfold decodeOpcode
  rw [opcode_eq (by decide) hx]
  exact congrArg (fun f => some (Instr.itof f)) hf

theorem ftoi (f : ShConv) : Statement (.ftoi f) := by
  intro _
  obtain ⟨hx, hf⟩ := ShConv.coding 35 f
  have hw : encodeNat (.ftoi f) = 35 * 2 ^ 25 + (f.bits) := by simp only [encodeNat]; omega
  rw [hw]
  refine ⟨by omega, ?_⟩
  unfold decodeOpcode
  rw [opcode_eq (by decide) hx]
  exact congrArg (fun f => some (Instr.ftoi f)) hf

theorem and (f : ShBit) : Statement (.and f) := by
  intro _
  obtain ⟨hx, hf⟩ := ShBit.coding 36 f
  have hw : encodeNat (.and f) = 36 * 2 ^ 25 + (f.bits) := by simp only [encodeNat]; omega
  rw [hw]
  refine ⟨by omega, ?_⟩
  unfold decodeOpcode
  rw [opcode_eq (by decide) hx]
  exact congrArg (fun f => some (Instr.and f)) hf

theorem andImm (f : ShBitImm) : Statement (.andImm f) := by
  intro _
  obtain ⟨hx, hf⟩ := ShBitImm.coding 37 f
  have hw : encodeNat (.andImm f) = 37 * 2 ^ 25 + (f.bits) := by simp only [encodeNat]; omega
  rw [hw]
  refine ⟨by omega, ?_⟩
  unfold decodeOpcode
  rw [opcode_eq (by decide) hx]
  exact congrArg (fun f => some (Instr.andImm f)) hf

theorem andn (f : ShBit) : Statement (.andn f) := by
  intro _
  obtain ⟨hx, hf⟩ := ShBit.coding 38 f
  have hw : encodeNat (.andn f) = 38 * 2 ^ 25 + (f.bits) := by simp only [encodeNat]; omega
  rw [hw]
  refine ⟨by omega, ?_⟩
  unfold decodeOpcode
  rw [opcode_eq (by decide) hx]
  exact congrArg (fun f => some (Instr.andn f)) hf

theorem or (f : ShBit) : Statement (.or f) := by
  intro _
  obtain ⟨hx, hf⟩ := ShBit.coding 39 f
  have hw : encodeNat (.or f) = 39 * 2 ^ 25 + (f.bits) := by simp only [encodeNat]; omega
  rw [hw]
  refine ⟨by omega, ?_⟩
  unfold decodeOpcode
  rw [opcode_eq (by decide) hx]
  exact congrArg (fun f => some (Instr.or f)) hf

theorem orImm (f : ShBitImm) : Statement (.orImm f) := by
  intro _
  obtain ⟨hx, hf⟩ := ShBitImm.coding 40 f
  have hw : encodeNat (.orImm f) = 40 * 2 ^ 25 + (f.bits) := by simp only [encodeNat]; omega
  rw [hw]
  refine ⟨by omega, ?_⟩
  unfold decodeOpcode
  rw [opcode_eq (by decide) hx]
  exact congrArg (fun f => some (Instr.orImm f)) hf

theorem xor (f : ShBit) : Statement (.xor f) := by
  intro _
  obtain ⟨hx, hf⟩ := ShBit.coding 41 f
  have hw : encodeNat (.xor f) = 41 * 2 ^ 25 + (f.bits) := by simp only [encodeNat]; omega
  rw [hw]
  refine ⟨by omega, ?_⟩
  unfold decodeOpcode
  rw [opcode_eq (by decide) hx]
  exact congrArg (fun f => some (Instr.xor f)) hf

theorem xorImm (f : ShBitImm) : Statement (.xorImm f) := by
  intro _
  obtain ⟨hx, hf⟩ := ShBitImm.coding 42 f
  have hw : encodeNat (.xorImm f) = 42 * 2 ^ 25 + (f.bits) := by simp only [encodeNat]; omega
  rw [hw]
  refine ⟨by omega, ?_⟩
  unfold decodeOpcode
  rw [opcode_eq (by decide) hx]
  exact congrArg (fun f => some (Instr.xorImm f)) hf

theorem shl (f : ShBit) : Statement (.shl f) := by
  intro _
  obtain ⟨hx, hf⟩ := ShBit.coding 43 f
  have hw : encodeNat (.shl f) = 43 * 2 ^ 25 + (f.bits) := by simp only [encodeNat]; omega
  rw [hw]
  refine ⟨by omega, ?_⟩
  unfold decodeOpcode
  rw [opcode_eq (by decide) hx]
  exact congrArg (fun f => some (Instr.shl f)) hf

theorem shlImm (f : ShBitImm) : Statement (.shlImm f) := by
  intro _
  obtain ⟨hx, hf⟩ := ShBitImm.coding 44 f
  have hw : encodeNat (.shlImm f) = 44 * 2 ^ 25 + (f.bits) := by simp only [encodeNat]; omega
  rw [hw]
  refine ⟨by omega, ?_⟩
  unfold decodeOpcode
  rw [opcode_eq (by decide) hx]
  exact congrArg (fun f => some (Instr.shlImm f)) hf

theorem shr (f : ShBit) : Statement (.shr f) := by
  intro _
  obtain ⟨hx, hf⟩ := ShBit.coding 45 f
  have hw : encodeNat (.shr f) = 45 * 2 ^ 25 + (f.bits) := by simp only [encodeNat]; omega
  rw [hw]
  refine ⟨by omega, ?_⟩
  unfold decodeOpcode
  rw [opcode_eq (by decide) hx]
  exact congrArg (fun f => some (Instr.shr f)) hf

theorem shrImm (f : ShBitImm) : Statement (.shrImm f) := by
  intro _
  obtain ⟨hx, hf⟩ := ShBitImm.coding 46 f
  have hw : encodeNat (.shrImm f) = 46 * 2 ^ 25 + (f.bits) := by simp only [encodeNat]; omega
  rw [hw]
  refine ⟨by omega, ?_⟩
  unfold decodeOpcode
  rw [opcode_eq (by decide) hx]
  exact congrArg (fun f => some (Instr.shrImm f)) hf

theorem sra (f : ShBit) : Statement (.sra f) := by
  intro _
  obtain ⟨hx, hf⟩ := ShBit.coding 47 f
  have hw : encodeNat (.sra f) = 47 * 2 ^ 25 + (f.bits) := by simp only [encodeNat]; omega
  rw [hw]
  refine ⟨by omega, ?_⟩
  unfold decodeOpcode
  rw [opcode_eq (by decide) hx]
  exact congrArg (fun f => some (Instr.sra f)) hf

theorem sraImm (f : ShBitImm) : Statement (.sraImm f) := by
  intro _
  obtain ⟨hx, hf⟩ := ShBitImm.coding 48 f
  have hw : encodeNat (.sraImm f) = 48 * 2 ^ 25 + (f.bits) := by simp only [encodeNat]; omega
  rw [hw]
  refine ⟨by omega, ?_⟩
  unfold decodeOpcode
  rw [opcode_eq (by decide) hx]
  exact congrArg (fun f => some (Instr.sraImm f)) hf

theorem shadd (f : ShShadd) : Statement (.shadd f) := by
  intro _
  obtain ⟨hx, hf⟩ := ShShadd.coding 49 f
  have hw : encodeNat (.shadd f) = 49 * 2 ^ 25 + (f.bits) := by simp only [encodeNat]; omega
  rw [hw]
  refine ⟨by omega, ?_⟩
  unfold decodeOpcode
  rw [opcode_eq (by decide) hx]
  exact congrArg (fun f => some (Instr.shadd f)) hf

theorem sel (f : ShSel) : Statement (.sel f) := by
  intro _
  obtain ⟨hx, hf⟩ := ShSel.coding 50 f
  have hw : encodeNat (.sel f) = 50 * 2 ^ 25 + (f.bits) := by simp only [encodeNat]; omega
  rw [hw]
  refine ⟨by omega, ?_⟩
  unfold decodeOpcode
  rw [opcode_eq (by decide) hx]
  exact congrArg (fun f => some (Instr.sel f)) hf

theorem mov (f : ShBitUn) : Statement (.mov f) := by
  intro _
  obtain ⟨hx, hf⟩ := ShBitUn.coding 51 f
  have hw : encodeNat (.mov f) = 51 * 2 ^ 25 + (f.bits) := by simp only [encodeNat]; omega
  rw [hw]
  refine ⟨by omega, ?_⟩
  unfold decodeOpcode
  rw [opcode_eq (by decide) hx]
  exact congrArg (fun f => some (Instr.mov f)) hf

theorem movi (f : ShMovi) : Statement (.movi f) := by
  intro _
  obtain ⟨hx, hf⟩ := ShMovi.coding 52 f
  have hw : encodeNat (.movi f) = 52 * 2 ^ 25 + (f.bits) := by simp only [encodeNat]; omega
  rw [hw]
  refine ⟨by omega, ?_⟩
  unfold decodeOpcode
  rw [opcode_eq (by decide) hx]
  exact congrArg (fun f => some (Instr.movi f)) hf

theorem movhi (f : ShMovi) : Statement (.movhi f) := by
  intro _
  obtain ⟨hx, hf⟩ := ShMovi.coding 53 f
  have hw : encodeNat (.movhi f) = 53 * 2 ^ 25 + (f.bits) := by simp only [encodeNat]; omega
  rw [hw]
  refine ⟨by omega, ?_⟩
  unfold decodeOpcode
  rw [opcode_eq (by decide) hx]
  exact congrArg (fun f => some (Instr.movhi f)) hf

theorem clz (f : ShBitUn) : Statement (.clz f) := by
  intro _
  obtain ⟨hx, hf⟩ := ShBitUn.coding 54 f
  have hw : encodeNat (.clz f) = 54 * 2 ^ 25 + (f.bits) := by simp only [encodeNat]; omega
  rw [hw]
  refine ⟨by omega, ?_⟩
  unfold decodeOpcode
  rw [opcode_eq (by decide) hx]
  exact congrArg (fun f => some (Instr.clz f)) hf

theorem popc (f : ShBitUn) : Statement (.popc f) := by
  intro _
  obtain ⟨hx, hf⟩ := ShBitUn.coding 55 f
  have hw : encodeNat (.popc f) = 55 * 2 ^ 25 + (f.bits) := by simp only [encodeNat]; omega
  rw [hw]
  refine ⟨by omega, ?_⟩
  unfold decodeOpcode
  rw [opcode_eq (by decide) hx]
  exact congrArg (fun f => some (Instr.popc f)) hf

theorem brev (f : ShBitUn) : Statement (.brev f) := by
  intro _
  obtain ⟨hx, hf⟩ := ShBitUn.coding 56 f
  have hw : encodeNat (.brev f) = 56 * 2 ^ 25 + (f.bits) := by simp only [encodeNat]; omega
  rw [hw]
  refine ⟨by omega, ?_⟩
  unfold decodeOpcode
  rw [opcode_eq (by decide) hx]
  exact congrArg (fun f => some (Instr.brev f)) hf

theorem bfx (f : ShBit) : Statement (.bfx f) := by
  intro _
  obtain ⟨hx, hf⟩ := ShBit.coding 57 f
  have hw : encodeNat (.bfx f) = 57 * 2 ^ 25 + (f.bits) := by simp only [encodeNat]; omega
  rw [hw]
  refine ⟨by omega, ?_⟩
  unfold decodeOpcode
  rw [opcode_eq (by decide) hx]
  exact congrArg (fun f => some (Instr.bfx f)) hf

theorem bfi (f : ShBit) : Statement (.bfi f) := by
  intro _
  obtain ⟨hx, hf⟩ := ShBit.coding 58 f
  have hw : encodeNat (.bfi f) = 58 * 2 ^ 25 + (f.bits) := by simp only [encodeNat]; omega
  rw [hw]
  refine ⟨by omega, ?_⟩
  unfold decodeOpcode
  rw [opcode_eq (by decide) hx]
  exact congrArg (fun f => some (Instr.bfi f)) hf

theorem ilv (f : ShIlv) : Statement (.ilv f) := by
  intro _
  obtain ⟨hx, hf⟩ := ShIlv.coding 59 f
  have hw : encodeNat (.ilv f) = 59 * 2 ^ 25 + (f.bits) := by simp only [encodeNat]; omega
  rw [hw]
  refine ⟨by omega, ?_⟩
  unfold decodeOpcode
  rw [opcode_eq (by decide) hx]
  exact congrArg (fun f => some (Instr.ilv f)) hf

theorem dilv (f : ShIlv) : Statement (.dilv f) := by
  intro _
  obtain ⟨hx, hf⟩ := ShIlv.coding 60 f
  have hw : encodeNat (.dilv f) = 60 * 2 ^ 25 + (f.bits) := by simp only [encodeNat]; omega
  rw [hw]
  refine ⟨by omega, ?_⟩
  unfold decodeOpcode
  rw [opcode_eq (by decide) hx]
  exact congrArg (fun f => some (Instr.dilv f)) hf

theorem unpk3 (f : ShUDAB) : Statement (.unpk3 f) := by
  intro _
  obtain ⟨hx, hf⟩ := ShUDAB.coding 61 f
  have hw : encodeNat (.unpk3 f) = 61 * 2 ^ 25 + (f.bits) := by simp only [encodeNat]; omega
  rw [hw]
  refine ⟨by omega, ?_⟩
  unfold decodeOpcode
  rw [opcode_eq (by decide) hx]
  exact congrArg (fun f => some (Instr.unpk3 f)) hf

theorem tacc (f : ShTacc) : Statement (.tacc f) := by
  intro _
  obtain ⟨hx, hf⟩ := ShTacc.coding 62 f
  have hw : encodeNat (.tacc f) = 62 * 2 ^ 25 + (f.bits) := by simp only [encodeNat]; omega
  rw [hw]
  refine ⟨by omega, ?_⟩
  unfold decodeOpcode
  rw [opcode_eq (by decide) hx]
  exact congrArg (fun f => some (Instr.tacc f)) hf

theorem plog (f : ShPlog) : Statement (.plog f) := by
  intro _
  obtain ⟨hx, hf⟩ := ShPlog.coding 63 f
  have hw : encodeNat (.plog f) = 63 * 2 ^ 25 + (f.bits) := by simp only [encodeNat]; omega
  rw [hw]
  refine ⟨by omega, ?_⟩
  unfold decodeOpcode
  rw [opcode_eq (by decide) hx]
  exact congrArg (fun f => some (Instr.plog f)) hf

theorem faddF32 (f : ShFlt) : Statement (.faddF32 f) := by
  intro _
  obtain ⟨hx, hf⟩ := ShFlt.coding 64 f
  have hw : encodeNat (.faddF32 f) = 64 * 2 ^ 25 + (f.bits) := by simp only [encodeNat]; omega
  rw [hw]
  refine ⟨by omega, ?_⟩
  unfold decodeOpcode
  rw [opcode_eq (by decide) hx]
  exact congrArg (fun f => some (Instr.faddF32 f)) hf

theorem faddF16 (f : ShFlt) : Statement (.faddF16 f) := by
  intro _
  obtain ⟨hx, hf⟩ := ShFlt.coding 65 f
  have hw : encodeNat (.faddF16 f) = 65 * 2 ^ 25 + (f.bits) := by simp only [encodeNat]; omega
  rw [hw]
  refine ⟨by omega, ?_⟩
  unfold decodeOpcode
  rw [opcode_eq (by decide) hx]
  exact congrArg (fun f => some (Instr.faddF16 f)) hf

theorem faddBf16 (f : ShFlt) : Statement (.faddBf16 f) := by
  intro _
  obtain ⟨hx, hf⟩ := ShFlt.coding 66 f
  have hw : encodeNat (.faddBf16 f) = 66 * 2 ^ 25 + (f.bits) := by simp only [encodeNat]; omega
  rw [hw]
  refine ⟨by omega, ?_⟩
  unfold decodeOpcode
  rw [opcode_eq (by decide) hx]
  exact congrArg (fun f => some (Instr.faddBf16 f)) hf

theorem fsub (f : ShFlt) : Statement (.fsub f) := by
  intro _
  obtain ⟨hx, hf⟩ := ShFlt.coding 67 f
  have hw : encodeNat (.fsub f) = 67 * 2 ^ 25 + (f.bits) := by simp only [encodeNat]; omega
  rw [hw]
  refine ⟨by omega, ?_⟩
  unfold decodeOpcode
  rw [opcode_eq (by decide) hx]
  exact congrArg (fun f => some (Instr.fsub f)) hf

theorem fmulF32 (f : ShFlt) : Statement (.fmulF32 f) := by
  intro _
  obtain ⟨hx, hf⟩ := ShFlt.coding 68 f
  have hw : encodeNat (.fmulF32 f) = 68 * 2 ^ 25 + (f.bits) := by simp only [encodeNat]; omega
  rw [hw]
  refine ⟨by omega, ?_⟩
  unfold decodeOpcode
  rw [opcode_eq (by decide) hx]
  exact congrArg (fun f => some (Instr.fmulF32 f)) hf

theorem fmulF16 (f : ShFlt) : Statement (.fmulF16 f) := by
  intro _
  obtain ⟨hx, hf⟩ := ShFlt.coding 69 f
  have hw : encodeNat (.fmulF16 f) = 69 * 2 ^ 25 + (f.bits) := by simp only [encodeNat]; omega
  rw [hw]
  refine ⟨by omega, ?_⟩
  unfold decodeOpcode
  rw [opcode_eq (by decide) hx]
  exact congrArg (fun f => some (Instr.fmulF16 f)) hf

theorem fmulBf16 (f : ShFlt) : Statement (.fmulBf16 f) := by
  intro _
  obtain ⟨hx, hf⟩ := ShFlt.coding 70 f
  have hw : encodeNat (.fmulBf16 f) = 70 * 2 ^ 25 + (f.bits) := by simp only [encodeNat]; omega
  rw [hw]
  refine ⟨by omega, ?_⟩
  unfold decodeOpcode
  rw [opcode_eq (by decide) hx]
  exact congrArg (fun f => some (Instr.fmulBf16 f)) hf

theorem fmaF32 (f : ShFlt) : Statement (.fmaF32 f) := by
  intro _
  obtain ⟨hx, hf⟩ := ShFlt.coding 71 f
  have hw : encodeNat (.fmaF32 f) = 71 * 2 ^ 25 + (f.bits) := by simp only [encodeNat]; omega
  rw [hw]
  refine ⟨by omega, ?_⟩
  unfold decodeOpcode
  rw [opcode_eq (by decide) hx]
  exact congrArg (fun f => some (Instr.fmaF32 f)) hf

theorem fmaF16 (f : ShFlt) : Statement (.fmaF16 f) := by
  intro _
  obtain ⟨hx, hf⟩ := ShFlt.coding 72 f
  have hw : encodeNat (.fmaF16 f) = 72 * 2 ^ 25 + (f.bits) := by simp only [encodeNat]; omega
  rw [hw]
  refine ⟨by omega, ?_⟩
  unfold decodeOpcode
  rw [opcode_eq (by decide) hx]
  exact congrArg (fun f => some (Instr.fmaF16 f)) hf

theorem fmaBf16 (f : ShFlt) : Statement (.fmaBf16 f) := by
  intro _
  obtain ⟨hx, hf⟩ := ShFlt.coding 73 f
  have hw : encodeNat (.fmaBf16 f) = 73 * 2 ^ 25 + (f.bits) := by simp only [encodeNat]; omega
  rw [hw]
  refine ⟨by omega, ?_⟩
  unfold decodeOpcode
  rw [opcode_eq (by decide) hx]
  exact congrArg (fun f => some (Instr.fmaBf16 f)) hf

theorem hfma2F16 (f : ShFlt) : Statement (.hfma2F16 f) := by
  intro _
  obtain ⟨hx, hf⟩ := ShFlt.coding 74 f
  have hw : encodeNat (.hfma2F16 f) = 74 * 2 ^ 25 + (f.bits) := by simp only [encodeNat]; omega
  rw [hw]
  refine ⟨by omega, ?_⟩
  unfold decodeOpcode
  rw [opcode_eq (by decide) hx]
  exact congrArg (fun f => some (Instr.hfma2F16 f)) hf

theorem hfma2Bf16 (f : ShFlt) : Statement (.hfma2Bf16 f) := by
  intro _
  obtain ⟨hx, hf⟩ := ShFlt.coding 75 f
  have hw : encodeNat (.hfma2Bf16 f) = 75 * 2 ^ 25 + (f.bits) := by simp only [encodeNat]; omega
  rw [hw]
  refine ⟨by omega, ?_⟩
  unfold decodeOpcode
  rw [opcode_eq (by decide) hx]
  exact congrArg (fun f => some (Instr.hfma2Bf16 f)) hf

theorem fmin (f : ShFminmax) : Statement (.fmin f) := by
  intro _
  obtain ⟨hx, hf⟩ := ShFminmax.coding 76 f
  have hw : encodeNat (.fmin f) = 76 * 2 ^ 25 + (f.bits) := by simp only [encodeNat]; omega
  rw [hw]
  refine ⟨by omega, ?_⟩
  unfold decodeOpcode
  rw [opcode_eq (by decide) hx]
  exact congrArg (fun f => some (Instr.fmin f)) hf

theorem fmax (f : ShFminmax) : Statement (.fmax f) := by
  intro _
  obtain ⟨hx, hf⟩ := ShFminmax.coding 77 f
  have hw : encodeNat (.fmax f) = 77 * 2 ^ 25 + (f.bits) := by simp only [encodeNat]; omega
  rw [hw]
  refine ⟨by omega, ?_⟩
  unfold decodeOpcode
  rw [opcode_eq (by decide) hx]
  exact congrArg (fun f => some (Instr.fmax f)) hf

theorem fcmp (f : ShFcmp) : Statement (.fcmp f) := by
  intro _
  obtain ⟨hx, hf⟩ := ShFcmp.coding 78 f
  have hw : encodeNat (.fcmp f) = 78 * 2 ^ 25 + (f.bits) := by simp only [encodeNat]; omega
  rw [hw]
  refine ⟨by omega, ?_⟩
  unfold decodeOpcode
  rw [opcode_eq (by decide) hx]
  exact congrArg (fun f => some (Instr.fcmp f)) hf

theorem fcvt (f : ShFlt) : Statement (.fcvt f) := by
  intro _
  obtain ⟨hx, hf⟩ := ShFlt.coding 79 f
  have hw : encodeNat (.fcvt f) = 79 * 2 ^ 25 + (f.bits) := by simp only [encodeNat]; omega
  rw [hw]
  refine ⟨by omega, ?_⟩
  unfold decodeOpcode
  rw [opcode_eq (by decide) hx]
  exact congrArg (fun f => some (Instr.fcvt f)) hf

theorem ld (f : ShMem) : Statement (.ld f) := by
  intro _
  obtain ⟨hx, hf⟩ := ShMem.coding 80 f
  have hw : encodeNat (.ld f) = 80 * 2 ^ 25 + (f.bits) := by simp only [encodeNat]; omega
  rw [hw]
  refine ⟨by omega, ?_⟩
  unfold decodeOpcode
  rw [opcode_eq (by decide) hx]
  exact congrArg (fun f => some (Instr.ld f)) hf

theorem st (f : ShMem) : Statement (.st f) := by
  intro _
  obtain ⟨hx, hf⟩ := ShMem.coding 81 f
  have hw : encodeNat (.st f) = 81 * 2 ^ 25 + (f.bits) := by simp only [encodeNat]; omega
  rw [hw]
  refine ⟨by omega, ?_⟩
  unfold decodeOpcode
  rw [opcode_eq (by decide) hx]
  exact congrArg (fun f => some (Instr.st f)) hf

theorem stn (f : ShMemNW) : Statement (.stn f) := by
  intro _
  obtain ⟨hx, hf⟩ := ShMemNW.coding 82 0 (by decide) f
  have hw : encodeNat (.stn f) = 82 * 2 ^ 25 + (0 + f.bits) := by simp only [encodeNat]; omega
  rw [hw]
  refine ⟨by omega, ?_⟩
  unfold decodeOpcode
  rw [opcode_eq (by decide) hx]
  exact congrArg (fun f => some (Instr.stn f)) hf

theorem ldlS (f : ShLdl) : Statement (.ldlS f) := by
  intro _
  obtain ⟨hx, hf⟩ := ShLdl.coding 83 f
  have hw : encodeNat (.ldlS f) = 83 * 2 ^ 25 + (f.bits) := by simp only [encodeNat]; omega
  rw [hw]
  refine ⟨by omega, ?_⟩
  unfold decodeOpcode
  rw [opcode_eq (by decide) hx]
  exact congrArg (fun f => some (Instr.ldlS f)) hf

theorem ldlW (f : ShLdl) : Statement (.ldlW f) := by
  intro _
  obtain ⟨hx, hf⟩ := ShLdl.coding 84 f
  have hw : encodeNat (.ldlW f) = 84 * 2 ^ 25 + (f.bits) := by simp only [encodeNat]; omega
  rw [hw]
  refine ⟨by omega, ?_⟩
  unfold decodeOpcode
  rw [opcode_eq (by decide) hx]
  exact congrArg (fun f => some (Instr.ldlW f)) hf

theorem ldlA (f : ShLdl) : Statement (.ldlA f) := by
  intro _
  obtain ⟨hx, hf⟩ := ShLdl.coding 85 f
  have hw : encodeNat (.ldlA f) = 85 * 2 ^ 25 + (f.bits) := by simp only [encodeNat]; omega
  rw [hw]
  refine ⟨by omega, ?_⟩
  unfold decodeOpcode
  rw [opcode_eq (by decide) hx]
  exact congrArg (fun f => some (Instr.ldlA f)) hf

theorem ldlC (f : ShLdl) : Statement (.ldlC f) := by
  intro _
  obtain ⟨hx, hf⟩ := ShLdl.coding 86 f
  have hw : encodeNat (.ldlC f) = 86 * 2 ^ 25 + (f.bits) := by simp only [encodeNat]; omega
  rw [hw]
  refine ⟨by omega, ?_⟩
  unfold decodeOpcode
  rw [opcode_eq (by decide) hx]
  exact congrArg (fun f => some (Instr.ldlC f)) hf

theorem stlS (f : ShStl) : Statement (.stlS f) := by
  intro _
  obtain ⟨hx, hf⟩ := ShStl.coding 87 f
  have hw : encodeNat (.stlS f) = 87 * 2 ^ 25 + (f.bits) := by simp only [encodeNat]; omega
  rw [hw]
  refine ⟨by omega, ?_⟩
  unfold decodeOpcode
  rw [opcode_eq (by decide) hx]
  exact congrArg (fun f => some (Instr.stlS f)) hf

theorem stlA (f : ShStl) : Statement (.stlA f) := by
  intro _
  obtain ⟨hx, hf⟩ := ShStl.coding 88 f
  have hw : encodeNat (.stlA f) = 88 * 2 ^ 25 + (f.bits) := by simp only [encodeNat]; omega
  rw [hw]
  refine ⟨by omega, ?_⟩
  unfold decodeOpcode
  rw [opcode_eq (by decide) hx]
  exact congrArg (fun f => some (Instr.stlA f)) hf

theorem stlC (f : ShStl) : Statement (.stlC f) := by
  intro _
  obtain ⟨hx, hf⟩ := ShStl.coding 89 f
  have hw : encodeNat (.stlC f) = 89 * 2 ^ 25 + (f.bits) := by simp only [encodeNat]; omega
  rw [hw]
  refine ⟨by omega, ?_⟩
  unfold decodeOpcode
  rw [opcode_eq (by decide) hx]
  exact congrArg (fun f => some (Instr.stlC f)) hf

theorem acas (f : ShAcas) : Statement (.acas f) := by
  intro _
  obtain ⟨hx, hf⟩ := ShAcas.coding 90 8388608 (by decide) f
  have hw : encodeNat (.acas f) = 90 * 2 ^ 25 + (8388608 + f.bits) := by simp only [encodeNat]; omega
  rw [hw]
  refine ⟨by omega, ?_⟩
  unfold decodeOpcode
  rw [opcode_eq (by decide) hx]
  exact congrArg (fun f => some (Instr.acas f)) hf

theorem amax64 (f : ShMemNW) : Statement (.amax64 f) := by
  intro _
  obtain ⟨hx, hf⟩ := ShMemNW.coding 91 10485760 (by decide) f
  have hw : encodeNat (.amax64 f) = 91 * 2 ^ 25 + (10485760 + f.bits) := by simp only [encodeNat]; omega
  rw [hw]
  refine ⟨by omega, ?_⟩
  unfold decodeOpcode
  rw [opcode_eq (by decide) hx]
  exact congrArg (fun f => some (Instr.amax64 f)) hf

theorem atomS32 (f : ShAtom) : Statement (.atomS32 f) := by
  intro _
  obtain ⟨hx, hf⟩ := ShAtom.coding 92 f
  have hw : encodeNat (.atomS32 f) = 92 * 2 ^ 25 + (f.bits) := by simp only [encodeNat]; omega
  rw [hw]
  refine ⟨by omega, ?_⟩
  unfold decodeOpcode
  rw [opcode_eq (by decide) hx]
  exact congrArg (fun f => some (Instr.atomS32 f)) hf

theorem atomN32 (f : ShAtom) : Statement (.atomN32 f) := by
  intro _
  obtain ⟨hx, hf⟩ := ShAtom.coding 93 f
  have hw : encodeNat (.atomN32 f) = 93 * 2 ^ 25 + (f.bits) := by simp only [encodeNat]; omega
  rw [hw]
  refine ⟨by omega, ?_⟩
  unfold decodeOpcode
  rw [opcode_eq (by decide) hx]
  exact congrArg (fun f => some (Instr.atomN32 f)) hf

theorem atomS64 (f : ShAtom) : Statement (.atomS64 f) := by
  intro _
  obtain ⟨hx, hf⟩ := ShAtom.coding 94 f
  have hw : encodeNat (.atomS64 f) = 94 * 2 ^ 25 + (f.bits) := by simp only [encodeNat]; omega
  rw [hw]
  refine ⟨by omega, ?_⟩
  unfold decodeOpcode
  rw [opcode_eq (by decide) hx]
  exact congrArg (fun f => some (Instr.atomS64 f)) hf

theorem atomN64 (f : ShAtom) : Statement (.atomN64 f) := by
  intro _
  obtain ⟨hx, hf⟩ := ShAtom.coding 95 f
  have hw : encodeNat (.atomN64 f) = 95 * 2 ^ 25 + (f.bits) := by simp only [encodeNat]; omega
  rw [hw]
  refine ⟨by omega, ?_⟩
  unfold decodeOpcode
  rw [opcode_eq (by decide) hx]
  exact congrArg (fun f => some (Instr.atomN64 f)) hf

theorem tex (f : ShTex) : Statement (.tex f) := by
  intro _
  obtain ⟨hx, hf⟩ := ShTex.coding 96 f
  have hw : encodeNat (.tex f) = 96 * 2 ^ 25 + (f.bits) := by simp only [encodeNat]; omega
  rw [hw]
  refine ⟨by omega, ?_⟩
  unfold decodeOpcode
  rw [opcode_eq (by decide) hx]
  exact congrArg (fun f => some (Instr.tex f)) hf

theorem trace (f : ShTrace) : Statement (.trace f) := by
  intro _
  obtain ⟨hx, hf⟩ := ShTrace.coding 97 f
  have hw : encodeNat (.trace f) = 97 * 2 ^ 25 + (f.bits) := by simp only [encodeNat]; omega
  rw [hw]
  refine ⟨by omega, ?_⟩
  unfold decodeOpcode
  rw [opcode_eq (by decide) hx]
  exact congrArg (fun f => some (Instr.trace f)) hf

theorem vmarch (f : ShDAB) : Statement (.vmarch f) := by
  intro _
  obtain ⟨hx, hf⟩ := ShDAB.coding 98 f
  have hw : encodeNat (.vmarch f) = 98 * 2 ^ 25 + (f.bits) := by simp only [encodeNat]; omega
  rw [hw]
  refine ⟨by omega, ?_⟩
  unfold decodeOpcode
  rw [opcode_eq (by decide) hx]
  exact congrArg (fun f => some (Instr.vmarch f)) hf

theorem ttask (f : ShUA) : Statement (.ttask f) := by
  intro _
  obtain ⟨hx, hf⟩ := ShUA.coding 99 f
  have hw : encodeNat (.ttask f) = 99 * 2 ^ 25 + (f.bits) := by simp only [encodeNat]; omega
  rw [hw]
  refine ⟨by omega, ?_⟩
  unfold decodeOpcode
  rw [opcode_eq (by decide) hx]
  exact congrArg (fun f => some (Instr.ttask f)) hf

theorem infer (f : ShUDAB) : Statement (.infer f) := by
  intro _
  obtain ⟨hx, hf⟩ := ShUDAB.coding 100 f
  have hw : encodeNat (.infer f) = 100 * 2 ^ 25 + (f.bits) := by simp only [encodeNat]; omega
  rw [hw]
  refine ⟨by omega, ?_⟩
  unfold decodeOpcode
  rw [opcode_eq (by decide) hx]
  exact congrArg (fun f => some (Instr.infer f)) hf

theorem sumset (f : ShSumset) : Statement (.sumset f) := by
  intro _
  obtain ⟨hx, hf⟩ := ShSumset.coding 101 f
  have hw : encodeNat (.sumset f) = 101 * 2 ^ 25 + (f.bits) := by simp only [encodeNat]; omega
  rw [hw]
  refine ⟨by omega, ?_⟩
  unfold decodeOpcode
  rw [opcode_eq (by decide) hx]
  exact congrArg (fun f => some (Instr.sumset f)) hf

theorem sumsend (f : ShUDA) : Statement (.sumsend f) := by
  intro _
  obtain ⟨hx, hf⟩ := ShUDA.coding 102 0 (by decide) f
  have hw : encodeNat (.sumsend f) = 102 * 2 ^ 25 + (0 + f.bits) := by simp only [encodeNat]; omega
  rw [hw]
  refine ⟨by omega, ?_⟩
  unfold decodeOpcode
  rw [opcode_eq (by decide) hx]
  exact congrArg (fun f => some (Instr.sumsend f)) hf

theorem sumfree (f : ShA) : Statement (.sumfree f) := by
  intro _
  obtain ⟨hx, hf⟩ := ShA.coding 103 0 (by decide) f
  have hw : encodeNat (.sumfree f) = 103 * 2 ^ 25 + (0 + f.bits) := by simp only [encodeNat]; omega
  rw [hw]
  refine ⟨by omega, ?_⟩
  unfold decodeOpcode
  rw [opcode_eq (by decide) hx]
  exact congrArg (fun f => some (Instr.sumfree f)) hf

theorem wbind (f : ShWbind) : Statement (.wbind f) := by
  intro _
  obtain ⟨hx, hf⟩ := ShWbind.coding 104 f
  have hw : encodeNat (.wbind f) = 104 * 2 ^ 25 + (f.bits) := by simp only [encodeNat]; omega
  rw [hw]
  refine ⟨by omega, ?_⟩
  unfold decodeOpcode
  rw [opcode_eq (by decide) hx]
  exact congrArg (fun f => some (Instr.wbind f)) hf

theorem wcsr (f : ShWbind) : Statement (.wcsr f) := by
  intro _
  obtain ⟨hx, hf⟩ := ShWbind.coding 105 f
  have hw : encodeNat (.wcsr f) = 105 * 2 ^ 25 + (f.bits) := by simp only [encodeNat]; omega
  rw [hw]
  refine ⟨by omega, ?_⟩
  unfold decodeOpcode
  rw [opcode_eq (by decide) hx]
  exact congrArg (fun f => some (Instr.wcsr f)) hf

theorem wtouch (f : ShUA) : Statement (.wtouch f) := by
  intro _
  obtain ⟨hx, hf⟩ := ShUA.coding 106 f
  have hw : encodeNat (.wtouch f) = 106 * 2 ^ 25 + (f.bits) := by simp only [encodeNat]; omega
  rw [hw]
  refine ⟨by omega, ?_⟩
  unfold decodeOpcode
  rw [opcode_eq (by decide) hx]
  exact congrArg (fun f => some (Instr.wtouch f)) hf

theorem wdrop (f : ShUA) : Statement (.wdrop f) := by
  intro _
  obtain ⟨hx, hf⟩ := ShUA.coding 107 f
  have hw : encodeNat (.wdrop f) = 107 * 2 ^ 25 + (f.bits) := by simp only [encodeNat]; omega
  rw [hw]
  refine ⟨by omega, ?_⟩
  unfold decodeOpcode
  rw [opcode_eq (by decide) hx]
  exact congrArg (fun f => some (Instr.wdrop f)) hf

theorem rand (f : ShRand) : Statement (.rand f) := by
  intro _
  obtain ⟨hx, hf⟩ := ShRand.coding 108 f
  have hw : encodeNat (.rand f) = 108 * 2 ^ 25 + (f.bits) := by simp only [encodeNat]; omega
  rw [hw]
  refine ⟨by omega, ?_⟩
  unfold decodeOpcode
  rw [opcode_eq (by decide) hx]
  exact congrArg (fun f => some (Instr.rand f)) hf

theorem capld (f : ShCapld) : Statement (.capld f) := by
  intro _
  obtain ⟨hx, hf⟩ := ShCapld.coding 109 f
  have hw : encodeNat (.capld f) = 109 * 2 ^ 25 + (f.bits) := by simp only [encodeNat]; omega
  rw [hw]
  refine ⟨by omega, ?_⟩
  unfold decodeOpcode
  rw [opcode_eq (by decide) hx]
  exact congrArg (fun f => some (Instr.capld f)) hf

theorem capnar (f : ShCapnar) : Statement (.capnar f) := by
  intro _
  obtain ⟨hx, hf⟩ := ShCapnar.coding 110 f
  have hw : encodeNat (.capnar f) = 110 * 2 ^ 25 + (f.bits) := by simp only [encodeNat]; omega
  rw [hw]
  refine ⟨by omega, ?_⟩
  unfold decodeOpcode
  rw [opcode_eq (by decide) hx]
  exact congrArg (fun f => some (Instr.capnar f)) hf

theorem launch (f : ShDAB) : Statement (.launch f) := by
  intro _
  obtain ⟨hx, hf⟩ := ShDAB.coding 111 f
  have hw : encodeNat (.launch f) = 111 * 2 ^ 25 + (f.bits) := by simp only [encodeNat]; omega
  rw [hw]
  refine ⟨by omega, ?_⟩
  unfold decodeOpcode
  rw [opcode_eq (by decide) hx]
  exact congrArg (fun f => some (Instr.launch f)) hf

theorem fdiv (f : ShFltUn) : Statement (.fdiv f) := by
  intro _
  obtain ⟨hx, hf⟩ := ShFltUn.coding 112 0 (by decide) f
  have hw : encodeNat (.fdiv f) = 112 * 2 ^ 25 + (0 + f.bits) := by simp only [encodeNat]; omega
  rw [hw]
  refine ⟨by omega, ?_⟩
  have hs : field (112 * 2 ^ 25 + (0 + f.bits)) 0 7 = 0 := by simp only [field, ShFltUn.bits]; omega
  rw [opcode_FloatSpecial (opcode_eq (by decide) hx)]
  unfold decodeGroupFloatSpecial
  rw [hs]
  exact congrArg (fun f => some (Instr.fdiv f)) hf

theorem fsqrt (f : ShFltUn) : Statement (.fsqrt f) := by
  intro _
  obtain ⟨hx, hf⟩ := ShFltUn.coding 112 1 (by decide) f
  have hw : encodeNat (.fsqrt f) = 112 * 2 ^ 25 + (1 + f.bits) := by simp only [encodeNat]; omega
  rw [hw]
  refine ⟨by omega, ?_⟩
  have hs : field (112 * 2 ^ 25 + (1 + f.bits)) 0 7 = 1 := by simp only [field, ShFltUn.bits]; omega
  rw [opcode_FloatSpecial (opcode_eq (by decide) hx)]
  unfold decodeGroupFloatSpecial
  rw [hs]
  exact congrArg (fun f => some (Instr.fsqrt f)) hf

theorem frcpF32 (f : ShFltUn) : Statement (.frcpF32 f) := by
  intro _
  obtain ⟨hx, hf⟩ := ShFltUn.coding 112 2 (by decide) f
  have hw : encodeNat (.frcpF32 f) = 112 * 2 ^ 25 + (2 + f.bits) := by simp only [encodeNat]; omega
  rw [hw]
  refine ⟨by omega, ?_⟩
  have hs : field (112 * 2 ^ 25 + (2 + f.bits)) 0 7 = 2 := by simp only [field, ShFltUn.bits]; omega
  rw [opcode_FloatSpecial (opcode_eq (by decide) hx)]
  unfold decodeGroupFloatSpecial
  rw [hs]
  exact congrArg (fun f => some (Instr.frcpF32 f)) hf

theorem frcpF16 (f : ShFltUn) : Statement (.frcpF16 f) := by
  intro _
  obtain ⟨hx, hf⟩ := ShFltUn.coding 112 3 (by decide) f
  have hw : encodeNat (.frcpF16 f) = 112 * 2 ^ 25 + (3 + f.bits) := by simp only [encodeNat]; omega
  rw [hw]
  refine ⟨by omega, ?_⟩
  have hs : field (112 * 2 ^ 25 + (3 + f.bits)) 0 7 = 3 := by simp only [field, ShFltUn.bits]; omega
  rw [opcode_FloatSpecial (opcode_eq (by decide) hx)]
  unfold decodeGroupFloatSpecial
  rw [hs]
  exact congrArg (fun f => some (Instr.frcpF16 f)) hf

theorem frsqF32 (f : ShFltUn) : Statement (.frsqF32 f) := by
  intro _
  obtain ⟨hx, hf⟩ := ShFltUn.coding 112 4 (by decide) f
  have hw : encodeNat (.frsqF32 f) = 112 * 2 ^ 25 + (4 + f.bits) := by simp only [encodeNat]; omega
  rw [hw]
  refine ⟨by omega, ?_⟩
  have hs : field (112 * 2 ^ 25 + (4 + f.bits)) 0 7 = 4 := by simp only [field, ShFltUn.bits]; omega
  rw [opcode_FloatSpecial (opcode_eq (by decide) hx)]
  unfold decodeGroupFloatSpecial
  rw [hs]
  exact congrArg (fun f => some (Instr.frsqF32 f)) hf

theorem frsqF16 (f : ShFltUn) : Statement (.frsqF16 f) := by
  intro _
  obtain ⟨hx, hf⟩ := ShFltUn.coding 112 5 (by decide) f
  have hw : encodeNat (.frsqF16 f) = 112 * 2 ^ 25 + (5 + f.bits) := by simp only [encodeNat]; omega
  rw [hw]
  refine ⟨by omega, ?_⟩
  have hs : field (112 * 2 ^ 25 + (5 + f.bits)) 0 7 = 5 := by simp only [field, ShFltUn.bits]; omega
  rw [opcode_FloatSpecial (opcode_eq (by decide) hx)]
  unfold decodeGroupFloatSpecial
  rw [hs]
  exact congrArg (fun f => some (Instr.frsqF16 f)) hf

theorem fexp2F32 (f : ShFltUn) : Statement (.fexp2F32 f) := by
  intro _
  obtain ⟨hx, hf⟩ := ShFltUn.coding 112 6 (by decide) f
  have hw : encodeNat (.fexp2F32 f) = 112 * 2 ^ 25 + (6 + f.bits) := by simp only [encodeNat]; omega
  rw [hw]
  refine ⟨by omega, ?_⟩
  have hs : field (112 * 2 ^ 25 + (6 + f.bits)) 0 7 = 6 := by simp only [field, ShFltUn.bits]; omega
  rw [opcode_FloatSpecial (opcode_eq (by decide) hx)]
  unfold decodeGroupFloatSpecial
  rw [hs]
  exact congrArg (fun f => some (Instr.fexp2F32 f)) hf

theorem fexp2F16 (f : ShFltUn) : Statement (.fexp2F16 f) := by
  intro _
  obtain ⟨hx, hf⟩ := ShFltUn.coding 112 7 (by decide) f
  have hw : encodeNat (.fexp2F16 f) = 112 * 2 ^ 25 + (7 + f.bits) := by simp only [encodeNat]; omega
  rw [hw]
  refine ⟨by omega, ?_⟩
  have hs : field (112 * 2 ^ 25 + (7 + f.bits)) 0 7 = 7 := by simp only [field, ShFltUn.bits]; omega
  rw [opcode_FloatSpecial (opcode_eq (by decide) hx)]
  unfold decodeGroupFloatSpecial
  rw [hs]
  exact congrArg (fun f => some (Instr.fexp2F16 f)) hf

theorem flog2F32 (f : ShFltUn) : Statement (.flog2F32 f) := by
  intro _
  obtain ⟨hx, hf⟩ := ShFltUn.coding 112 8 (by decide) f
  have hw : encodeNat (.flog2F32 f) = 112 * 2 ^ 25 + (8 + f.bits) := by simp only [encodeNat]; omega
  rw [hw]
  refine ⟨by omega, ?_⟩
  have hs : field (112 * 2 ^ 25 + (8 + f.bits)) 0 7 = 8 := by simp only [field, ShFltUn.bits]; omega
  rw [opcode_FloatSpecial (opcode_eq (by decide) hx)]
  unfold decodeGroupFloatSpecial
  rw [hs]
  exact congrArg (fun f => some (Instr.flog2F32 f)) hf

theorem flog2F16 (f : ShFltUn) : Statement (.flog2F16 f) := by
  intro _
  obtain ⟨hx, hf⟩ := ShFltUn.coding 112 9 (by decide) f
  have hw : encodeNat (.flog2F16 f) = 112 * 2 ^ 25 + (9 + f.bits) := by simp only [encodeNat]; omega
  rw [hw]
  refine ⟨by omega, ?_⟩
  have hs : field (112 * 2 ^ 25 + (9 + f.bits)) 0 7 = 9 := by simp only [field, ShFltUn.bits]; omega
  rw [opcode_FloatSpecial (opcode_eq (by decide) hx)]
  unfold decodeGroupFloatSpecial
  rw [hs]
  exact congrArg (fun f => some (Instr.flog2F16 f)) hf

theorem frnd (f : ShFltUn) : Statement (.frnd f) := by
  intro _
  obtain ⟨hx, hf⟩ := ShFltUn.coding 112 10 (by decide) f
  have hw : encodeNat (.frnd f) = 112 * 2 ^ 25 + (10 + f.bits) := by simp only [encodeNat]; omega
  rw [hw]
  refine ⟨by omega, ?_⟩
  have hs : field (112 * 2 ^ 25 + (10 + f.bits)) 0 7 = 10 := by simp only [field, ShFltUn.bits]; omega
  rw [opcode_FloatSpecial (opcode_eq (by decide) hx)]
  unfold decodeGroupFloatSpecial
  rw [hs]
  exact congrArg (fun f => some (Instr.frnd f)) hf

theorem fclass (f : ShUDA) : Statement (.fclass f) := by
  intro _
  obtain ⟨hx, hf⟩ := ShUDA.coding 112 11 (by decide) f
  have hw : encodeNat (.fclass f) = 112 * 2 ^ 25 + (11 + f.bits) := by simp only [encodeNat]; omega
  rw [hw]
  refine ⟨by omega, ?_⟩
  have hs : field (112 * 2 ^ 25 + (11 + f.bits)) 0 7 = 11 := by simp only [field, ShUDA.bits]; omega
  rw [opcode_FloatSpecial (opcode_eq (by decide) hx)]
  unfold decodeGroupFloatSpecial
  rw [hs]
  exact congrArg (fun f => some (Instr.fclass f)) hf

theorem voteAny (f : ShVote) : Statement (.voteAny f) := by
  intro _
  obtain ⟨hx, hf⟩ := ShVote.coding 113 0 (by decide) f
  have hw : encodeNat (.voteAny f) = 113 * 2 ^ 25 + (0 + f.bits) := by simp only [encodeNat]; omega
  rw [hw]
  refine ⟨by omega, ?_⟩
  have hs : field (113 * 2 ^ 25 + (0 + f.bits)) 0 7 = 0 := by simp only [field, ShVote.bits]; omega
  rw [opcode_RodCollective (opcode_eq (by decide) hx)]
  unfold decodeGroupRodCollective
  rw [hs]
  exact congrArg (fun f => some (Instr.voteAny f)) hf

theorem voteAll (f : ShVote) : Statement (.voteAll f) := by
  intro _
  obtain ⟨hx, hf⟩ := ShVote.coding 113 1 (by decide) f
  have hw : encodeNat (.voteAll f) = 113 * 2 ^ 25 + (1 + f.bits) := by simp only [encodeNat]; omega
  rw [hw]
  refine ⟨by omega, ?_⟩
  have hs : field (113 * 2 ^ 25 + (1 + f.bits)) 0 7 = 1 := by simp only [field, ShVote.bits]; omega
  rw [opcode_RodCollective (opcode_eq (by decide) hx)]
  unfold decodeGroupRodCollective
  rw [hs]
  exact congrArg (fun f => some (Instr.voteAll f)) hf

theorem voteBallot (f : ShVote) : Statement (.voteBallot f) := by
  intro _
  obtain ⟨hx, hf⟩ := ShVote.coding 113 2 (by decide) f
  have hw : encodeNat (.voteBallot f) = 113 * 2 ^ 25 + (2 + f.bits) := by simp only [encodeNat]; omega
  rw [hw]
  refine ⟨by omega, ?_⟩
  have hs : field (113 * 2 ^ 25 + (2 + f.bits)) 0 7 = 2 := by simp only [field, ShVote.bits]; omega
  rw [opcode_RodCollective (opcode_eq (by decide) hx)]
  unfold decodeGroupRodCollective
  rw [hs]
  exact congrArg (fun f => some (Instr.voteBallot f)) hf

theorem voteEq (f : ShDA) : Statement (.voteEq f) := by
  intro _
  obtain ⟨hx, hf⟩ := ShDA.coding 113 3 (by decide) f
  have hw : encodeNat (.voteEq f) = 113 * 2 ^ 25 + (3 + f.bits) := by simp only [encodeNat]; omega
  rw [hw]
  refine ⟨by omega, ?_⟩
  have hs : field (113 * 2 ^ 25 + (3 + f.bits)) 0 7 = 3 := by simp only [field, ShDA.bits]; omega
  rw [opcode_RodCollective (opcode_eq (by decide) hx)]
  unfold decodeGroupRodCollective
  rw [hs]
  exact congrArg (fun f => some (Instr.voteEq f)) hf

theorem rodredIadd (f : ShDA) : Statement (.rodredIadd f) := by
  intro _
  obtain ⟨hx, hf⟩ := ShDA.coding 113 8 (by decide) f
  have hw : encodeNat (.rodredIadd f) = 113 * 2 ^ 25 + (8 + f.bits) := by simp only [encodeNat]; omega
  rw [hw]
  refine ⟨by omega, ?_⟩
  have hs : field (113 * 2 ^ 25 + (8 + f.bits)) 0 7 = 8 := by simp only [field, ShDA.bits]; omega
  rw [opcode_RodCollective (opcode_eq (by decide) hx)]
  unfold decodeGroupRodCollective
  rw [hs]
  exact congrArg (fun f => some (Instr.rodredIadd f)) hf

theorem rodredFadd (f : ShRDA) : Statement (.rodredFadd f) := by
  intro _
  obtain ⟨hx, hf⟩ := ShRDA.coding 113 9 (by decide) f
  have hw : encodeNat (.rodredFadd f) = 113 * 2 ^ 25 + (9 + f.bits) := by simp only [encodeNat]; omega
  rw [hw]
  refine ⟨by omega, ?_⟩
  have hs : field (113 * 2 ^ 25 + (9 + f.bits)) 0 7 = 9 := by simp only [field, ShRDA.bits]; omega
  rw [opcode_RodCollective (opcode_eq (by decide) hx)]
  unfold decodeGroupRodCollective
  rw [hs]
  exact congrArg (fun f => some (Instr.rodredFadd f)) hf

theorem rodredSmin (f : ShDA) : Statement (.rodredSmin f) := by
  intro _
  obtain ⟨hx, hf⟩ := ShDA.coding 113 10 (by decide) f
  have hw : encodeNat (.rodredSmin f) = 113 * 2 ^ 25 + (10 + f.bits) := by simp only [encodeNat]; omega
  rw [hw]
  refine ⟨by omega, ?_⟩
  have hs : field (113 * 2 ^ 25 + (10 + f.bits)) 0 7 = 10 := by simp only [field, ShDA.bits]; omega
  rw [opcode_RodCollective (opcode_eq (by decide) hx)]
  unfold decodeGroupRodCollective
  rw [hs]
  exact congrArg (fun f => some (Instr.rodredSmin f)) hf

theorem rodredSmax (f : ShDA) : Statement (.rodredSmax f) := by
  intro _
  obtain ⟨hx, hf⟩ := ShDA.coding 113 11 (by decide) f
  have hw : encodeNat (.rodredSmax f) = 113 * 2 ^ 25 + (11 + f.bits) := by simp only [encodeNat]; omega
  rw [hw]
  refine ⟨by omega, ?_⟩
  have hs : field (113 * 2 ^ 25 + (11 + f.bits)) 0 7 = 11 := by simp only [field, ShDA.bits]; omega
  rw [opcode_RodCollective (opcode_eq (by decide) hx)]
  unfold decodeGroupRodCollective
  rw [hs]
  exact congrArg (fun f => some (Instr.rodredSmax f)) hf

theorem rodredNmin (f : ShDA) : Statement (.rodredNmin f) := by
  intro _
  obtain ⟨hx, hf⟩ := ShDA.coding 113 12 (by decide) f
  have hw : encodeNat (.rodredNmin f) = 113 * 2 ^ 25 + (12 + f.bits) := by simp only [encodeNat]; omega
  rw [hw]
  refine ⟨by omega, ?_⟩
  have hs : field (113 * 2 ^ 25 + (12 + f.bits)) 0 7 = 12 := by simp only [field, ShDA.bits]; omega
  rw [opcode_RodCollective (opcode_eq (by decide) hx)]
  unfold decodeGroupRodCollective
  rw [hs]
  exact congrArg (fun f => some (Instr.rodredNmin f)) hf

theorem rodredNmax (f : ShDA) : Statement (.rodredNmax f) := by
  intro _
  obtain ⟨hx, hf⟩ := ShDA.coding 113 13 (by decide) f
  have hw : encodeNat (.rodredNmax f) = 113 * 2 ^ 25 + (13 + f.bits) := by simp only [encodeNat]; omega
  rw [hw]
  refine ⟨by omega, ?_⟩
  have hs : field (113 * 2 ^ 25 + (13 + f.bits)) 0 7 = 13 := by simp only [field, ShDA.bits]; omega
  rw [opcode_RodCollective (opcode_eq (by decide) hx)]
  unfold decodeGroupRodCollective
  rw [hs]
  exact congrArg (fun f => some (Instr.rodredNmax f)) hf

theorem rodredAnd (f : ShDA) : Statement (.rodredAnd f) := by
  intro _
  obtain ⟨hx, hf⟩ := ShDA.coding 113 14 (by decide) f
  have hw : encodeNat (.rodredAnd f) = 113 * 2 ^ 25 + (14 + f.bits) := by simp only [encodeNat]; omega
  rw [hw]
  refine ⟨by omega, ?_⟩
  have hs : field (113 * 2 ^ 25 + (14 + f.bits)) 0 7 = 14 := by simp only [field, ShDA.bits]; omega
  rw [opcode_RodCollective (opcode_eq (by decide) hx)]
  unfold decodeGroupRodCollective
  rw [hs]
  exact congrArg (fun f => some (Instr.rodredAnd f)) hf

theorem rodredOr (f : ShDA) : Statement (.rodredOr f) := by
  intro _
  obtain ⟨hx, hf⟩ := ShDA.coding 113 15 (by decide) f
  have hw : encodeNat (.rodredOr f) = 113 * 2 ^ 25 + (15 + f.bits) := by simp only [encodeNat]; omega
  rw [hw]
  refine ⟨by omega, ?_⟩
  have hs : field (113 * 2 ^ 25 + (15 + f.bits)) 0 7 = 15 := by simp only [field, ShDA.bits]; omega
  rw [opcode_RodCollective (opcode_eq (by decide) hx)]
  unfold decodeGroupRodCollective
  rw [hs]
  exact congrArg (fun f => some (Instr.rodredOr f)) hf

theorem rodscanIaddInc (f : ShDA) : Statement (.rodscanIaddInc f) := by
  intro _
  obtain ⟨hx, hf⟩ := ShDA.coding 113 16 (by decide) f
  have hw : encodeNat (.rodscanIaddInc f) = 113 * 2 ^ 25 + (16 + f.bits) := by simp only [encodeNat]; omega
  rw [hw]
  refine ⟨by omega, ?_⟩
  have hs : field (113 * 2 ^ 25 + (16 + f.bits)) 0 7 = 16 := by simp only [field, ShDA.bits]; omega
  rw [opcode_RodCollective (opcode_eq (by decide) hx)]
  unfold decodeGroupRodCollective
  rw [hs]
  exact congrArg (fun f => some (Instr.rodscanIaddInc f)) hf

theorem rodscanIaddExc (f : ShDA) : Statement (.rodscanIaddExc f) := by
  intro _
  obtain ⟨hx, hf⟩ := ShDA.coding 113 17 (by decide) f
  have hw : encodeNat (.rodscanIaddExc f) = 113 * 2 ^ 25 + (17 + f.bits) := by simp only [encodeNat]; omega
  rw [hw]
  refine ⟨by omega, ?_⟩
  have hs : field (113 * 2 ^ 25 + (17 + f.bits)) 0 7 = 17 := by simp only [field, ShDA.bits]; omega
  rw [opcode_RodCollective (opcode_eq (by decide) hx)]
  unfold decodeGroupRodCollective
  rw [hs]
  exact congrArg (fun f => some (Instr.rodscanIaddExc f)) hf

theorem rodscanFaddInc (f : ShRDA) : Statement (.rodscanFaddInc f) := by
  intro _
  obtain ⟨hx, hf⟩ := ShRDA.coding 113 18 (by decide) f
  have hw : encodeNat (.rodscanFaddInc f) = 113 * 2 ^ 25 + (18 + f.bits) := by simp only [encodeNat]; omega
  rw [hw]
  refine ⟨by omega, ?_⟩
  have hs : field (113 * 2 ^ 25 + (18 + f.bits)) 0 7 = 18 := by simp only [field, ShRDA.bits]; omega
  rw [opcode_RodCollective (opcode_eq (by decide) hx)]
  unfold decodeGroupRodCollective
  rw [hs]
  exact congrArg (fun f => some (Instr.rodscanFaddInc f)) hf

theorem rodscanFaddExc (f : ShRDA) : Statement (.rodscanFaddExc f) := by
  intro _
  obtain ⟨hx, hf⟩ := ShRDA.coding 113 19 (by decide) f
  have hw : encodeNat (.rodscanFaddExc f) = 113 * 2 ^ 25 + (19 + f.bits) := by simp only [encodeNat]; omega
  rw [hw]
  refine ⟨by omega, ?_⟩
  have hs : field (113 * 2 ^ 25 + (19 + f.bits)) 0 7 = 19 := by simp only [field, ShRDA.bits]; omega
  rw [opcode_RodCollective (opcode_eq (by decide) hx)]
  unfold decodeGroupRodCollective
  rw [hs]
  exact congrArg (fun f => some (Instr.rodscanFaddExc f)) hf

theorem shflIdx (f : ShDA) : Statement (.shflIdx f) := by
  intro _
  obtain ⟨hx, hf⟩ := ShDA.coding 113 24 (by decide) f
  have hw : encodeNat (.shflIdx f) = 113 * 2 ^ 25 + (24 + f.bits) := by simp only [encodeNat]; omega
  rw [hw]
  refine ⟨by omega, ?_⟩
  have hs : field (113 * 2 ^ 25 + (24 + f.bits)) 0 7 = 24 := by simp only [field, ShDA.bits]; omega
  rw [opcode_RodCollective (opcode_eq (by decide) hx)]
  unfold decodeGroupRodCollective
  rw [hs]
  exact congrArg (fun f => some (Instr.shflIdx f)) hf

theorem shflUp (f : ShDA) : Statement (.shflUp f) := by
  intro _
  obtain ⟨hx, hf⟩ := ShDA.coding 113 25 (by decide) f
  have hw : encodeNat (.shflUp f) = 113 * 2 ^ 25 + (25 + f.bits) := by simp only [encodeNat]; omega
  rw [hw]
  refine ⟨by omega, ?_⟩
  have hs : field (113 * 2 ^ 25 + (25 + f.bits)) 0 7 = 25 := by simp only [field, ShDA.bits]; omega
  rw [opcode_RodCollective (opcode_eq (by decide) hx)]
  unfold decodeGroupRodCollective
  rw [hs]
  exact congrArg (fun f => some (Instr.shflUp f)) hf

theorem shflDown (f : ShDA) : Statement (.shflDown f) := by
  intro _
  obtain ⟨hx, hf⟩ := ShDA.coding 113 26 (by decide) f
  have hw : encodeNat (.shflDown f) = 113 * 2 ^ 25 + (26 + f.bits) := by simp only [encodeNat]; omega
  rw [hw]
  refine ⟨by omega, ?_⟩
  have hs : field (113 * 2 ^ 25 + (26 + f.bits)) 0 7 = 26 := by simp only [field, ShDA.bits]; omega
  rw [opcode_RodCollective (opcode_eq (by decide) hx)]
  unfold decodeGroupRodCollective
  rw [hs]
  exact congrArg (fun f => some (Instr.shflDown f)) hf

theorem shflXor (f : ShDA) : Statement (.shflXor f) := by
  intro _
  obtain ⟨hx, hf⟩ := ShDA.coding 113 27 (by decide) f
  have hw : encodeNat (.shflXor f) = 113 * 2 ^ 25 + (27 + f.bits) := by simp only [encodeNat]; omega
  rw [hw]
  refine ⟨by omega, ?_⟩
  have hs : field (113 * 2 ^ 25 + (27 + f.bits)) 0 7 = 27 := by simp only [field, ShDA.bits]; omega
  rw [opcode_RodCollective (opcode_eq (by decide) hx)]
  unfold decodeGroupRodCollective
  rw [hs]
  exact congrArg (fun f => some (Instr.shflXor f)) hf

theorem pmovReg (f : ShPmovReg) : Statement (.pmovReg f) := by
  intro _
  obtain ⟨hx, hf⟩ := ShPmovReg.coding 114 f
  have hw : encodeNat (.pmovReg f) = 114 * 2 ^ 25 + (f.bits) := by simp only [encodeNat]; omega
  rw [hw]
  refine ⟨by omega, ?_⟩
  have hs : field (114 * 2 ^ 25 + (f.bits)) 0 7 = 0 := by simp only [field, ShPmovReg.bits]; omega
  rw [opcode_StateControl (opcode_eq (by decide) hx)]
  unfold decodeGroupStateControl
  rw [hs]
  exact congrArg (fun f => some (Instr.pmovReg f)) hf

theorem pmovPred (f : ShPmovPred) : Statement (.pmovPred f) := by
  intro _
  obtain ⟨hx, hf⟩ := ShPmovPred.coding 114 1 (by decide) f
  have hw : encodeNat (.pmovPred f) = 114 * 2 ^ 25 + (1 + f.bits) := by simp only [encodeNat]; omega
  rw [hw]
  refine ⟨by omega, ?_⟩
  have hs : field (114 * 2 ^ 25 + (1 + f.bits)) 0 7 = 1 := by simp only [field, ShPmovPred.bits]; omega
  rw [opcode_StateControl (opcode_eq (by decide) hx)]
  unfold decodeGroupStateControl
  rw [hs]
  exact congrArg (fun f => some (Instr.pmovPred f)) hf

theorem pxout (f : ShD) : Statement (.pxout f) := by
  intro _
  obtain ⟨hx, hf⟩ := ShD.coding 114 2 (by decide) f
  have hw : encodeNat (.pxout f) = 114 * 2 ^ 25 + (2 + f.bits) := by simp only [encodeNat]; omega
  rw [hw]
  refine ⟨by omega, ?_⟩
  have hs : field (114 * 2 ^ 25 + (2 + f.bits)) 0 7 = 2 := by simp only [field, ShD.bits]; omega
  rw [opcode_StateControl (opcode_eq (by decide) hx)]
  unfold decodeGroupStateControl
  rw [hs]
  exact congrArg (fun f => some (Instr.pxout f)) hf

theorem gets (f : ShGets) : Statement (.gets f) := by
  intro _
  obtain ⟨hx, hf⟩ := ShGets.coding 114 3 (by decide) f
  have hw : encodeNat (.gets f) = 114 * 2 ^ 25 + (3 + f.bits) := by simp only [encodeNat]; omega
  rw [hw]
  refine ⟨by omega, ?_⟩
  have hs : field (114 * 2 ^ 25 + (3 + f.bits)) 0 7 = 3 := by simp only [field, ShGets.bits]; omega
  rw [opcode_StateControl (opcode_eq (by decide) hx)]
  unfold decodeGroupStateControl
  rw [hs]
  exact congrArg (fun f => some (Instr.gets f)) hf

theorem sets (f : ShSets) : Statement (.sets f) := by
  intro _
  obtain ⟨hx, hf⟩ := ShSets.coding 114 4 (by decide) f
  have hw : encodeNat (.sets f) = 114 * 2 ^ 25 + (4 + f.bits) := by simp only [encodeNat]; omega
  rw [hw]
  refine ⟨by omega, ?_⟩
  have hs : field (114 * 2 ^ 25 + (4 + f.bits)) 0 7 = 4 := by simp only [field, ShSets.bits]; omega
  rw [opcode_StateControl (opcode_eq (by decide) hx)]
  unfold decodeGroupStateControl
  rw [hs]
  exact congrArg (fun f => some (Instr.sets f)) hf

theorem rdclk (f : ShUD) : Statement (.rdclk f) := by
  intro _
  obtain ⟨hx, hf⟩ := ShUD.coding 114 5 (by decide) f
  have hw : encodeNat (.rdclk f) = 114 * 2 ^ 25 + (5 + f.bits) := by simp only [encodeNat]; omega
  rw [hw]
  refine ⟨by omega, ?_⟩
  have hs : field (114 * 2 ^ 25 + (5 + f.bits)) 0 7 = 5 := by simp only [field, ShUD.bits]; omega
  rw [opcode_StateControl (opcode_eq (by decide) hx)]
  unfold decodeGroupStateControl
  rw [hs]
  exact congrArg (fun f => some (Instr.rdclk f)) hf

theorem setfmt (f : ShA) : Statement (.setfmt f) := by
  intro _
  obtain ⟨hx, hf⟩ := ShA.coding 114 6 (by decide) f
  have hw : encodeNat (.setfmt f) = 114 * 2 ^ 25 + (6 + f.bits) := by simp only [encodeNat]; omega
  rw [hw]
  refine ⟨by omega, ?_⟩
  have hs : field (114 * 2 ^ 25 + (6 + f.bits)) 0 7 = 6 := by simp only [field, ShA.bits]; omega
  rw [opcode_StateControl (opcode_eq (by decide) hx)]
  unfold decodeGroupStateControl
  rw [hs]
  exact congrArg (fun f => some (Instr.setfmt f)) hf

theorem setmode (f : ShSetmode) : Statement (.setmode f) := by
  intro _
  obtain ⟨hx, hf⟩ := ShSetmode.coding 114 7 (by decide) f
  have hw : encodeNat (.setmode f) = 114 * 2 ^ 25 + (7 + f.bits) := by simp only [encodeNat]; omega
  rw [hw]
  refine ⟨by omega, ?_⟩
  have hs : field (114 * 2 ^ 25 + (7 + f.bits)) 0 7 = 7 := by simp only [field, ShSetmode.bits]; omega
  rw [opcode_StateControl (opcode_eq (by decide) hx)]
  unfold decodeGroupStateControl
  rw [hs]
  exact congrArg (fun f => some (Instr.setmode f)) hf

theorem wbase (f : ShWbase) : Statement (.wbase f) := by
  intro _
  obtain ⟨hx, hf⟩ := ShWbase.coding 114 8 (by decide) f
  have hw : encodeNat (.wbase f) = 114 * 2 ^ 25 + (8 + f.bits) := by simp only [encodeNat]; omega
  rw [hw]
  refine ⟨by omega, ?_⟩
  have hs : field (114 * 2 ^ 25 + (8 + f.bits)) 0 7 = 8 := by simp only [field, ShWbase.bits]; omega
  rw [opcode_StateControl (opcode_eq (by decide) hx)]
  unfold decodeGroupStateControl
  rw [hs]
  exact congrArg (fun f => some (Instr.wbase f)) hf

theorem segld (f : ShSegld) : Statement (.segld f) := by
  intro _
  obtain ⟨hx, hf⟩ := ShSegld.coding 114 9 (by decide) f
  have hw : encodeNat (.segld f) = 114 * 2 ^ 25 + (9 + f.bits) := by simp only [encodeNat]; omega
  rw [hw]
  refine ⟨by omega, ?_⟩
  have hs : field (114 * 2 ^ 25 + (9 + f.bits)) 0 7 = 9 := by simp only [field, ShSegld.bits]; omega
  rw [opcode_StateControl (opcode_eq (by decide) hx)]
  unfold decodeGroupStateControl
  rw [hs]
  exact congrArg (fun f => some (Instr.segld f)) hf

theorem caprd (f : ShCaprd) : Statement (.caprd f) := by
  intro _
  obtain ⟨hx, hf⟩ := ShCaprd.coding 114 12 (by decide) f
  have hw : encodeNat (.caprd f) = 114 * 2 ^ 25 + (12 + f.bits) := by simp only [encodeNat]; omega
  rw [hw]
  refine ⟨by omega, ?_⟩
  have hs : field (114 * 2 ^ 25 + (12 + f.bits)) 0 7 = 12 := by simp only [field, ShCaprd.bits]; omega
  rw [opcode_StateControl (opcode_eq (by decide) hx)]
  unfold decodeGroupStateControl
  rw [hs]
  exact congrArg (fun f => some (Instr.caprd f)) hf

theorem fenceAcq (f : ShScope) : Statement (.fenceAcq f) := by
  intro _
  obtain ⟨hx, hf⟩ := ShScope.coding 115 0 (by decide) f
  have hw : encodeNat (.fenceAcq f) = 115 * 2 ^ 25 + (0 + f.bits) := by simp only [encodeNat]; omega
  rw [hw]
  refine ⟨by omega, ?_⟩
  have hs : field (115 * 2 ^ 25 + (0 + f.bits)) 0 7 = 0 := by simp only [field, ShScope.bits]; omega
  rw [opcode_Ordering (opcode_eq (by decide) hx)]
  unfold decodeGroupOrdering
  rw [hs]
  exact congrArg (fun f => some (Instr.fenceAcq f)) hf

theorem fenceRel (f : ShScope) : Statement (.fenceRel f) := by
  intro _
  obtain ⟨hx, hf⟩ := ShScope.coding 115 1 (by decide) f
  have hw : encodeNat (.fenceRel f) = 115 * 2 ^ 25 + (1 + f.bits) := by simp only [encodeNat]; omega
  rw [hw]
  refine ⟨by omega, ?_⟩
  have hs : field (115 * 2 ^ 25 + (1 + f.bits)) 0 7 = 1 := by simp only [field, ShScope.bits]; omega
  rw [opcode_Ordering (opcode_eq (by decide) hx)]
  unfold decodeGroupOrdering
  rw [hs]
  exact congrArg (fun f => some (Instr.fenceRel f)) hf

theorem fenceAcqrel (f : ShScope) : Statement (.fenceAcqrel f) := by
  intro _
  obtain ⟨hx, hf⟩ := ShScope.coding 115 2 (by decide) f
  have hw : encodeNat (.fenceAcqrel f) = 115 * 2 ^ 25 + (2 + f.bits) := by simp only [encodeNat]; omega
  rw [hw]
  refine ⟨by omega, ?_⟩
  have hs : field (115 * 2 ^ 25 + (2 + f.bits)) 0 7 = 2 := by simp only [field, ShScope.bits]; omega
  rw [opcode_Ordering (opcode_eq (by decide) hx)]
  unfold decodeGroupOrdering
  rw [hs]
  exact congrArg (fun f => some (Instr.fenceAcqrel f)) hf

theorem fenceSc (f : ShScope) : Statement (.fenceSc f) := by
  intro _
  obtain ⟨hx, hf⟩ := ShScope.coding 115 3 (by decide) f
  have hw : encodeNat (.fenceSc f) = 115 * 2 ^ 25 + (3 + f.bits) := by simp only [encodeNat]; omega
  rw [hw]
  refine ⟨by omega, ?_⟩
  have hs : field (115 * 2 ^ 25 + (3 + f.bits)) 0 7 = 3 := by simp only [field, ShScope.bits]; omega
  rw [opcode_Ordering (opcode_eq (by decide) hx)]
  unfold decodeGroupOrdering
  rw [hs]
  exact congrArg (fun f => some (Instr.fenceSc f)) hf

theorem xfence (f : ShXfence) : Statement (.xfence f) := by
  intro _
  obtain ⟨hx, hf⟩ := ShXfence.coding 115 4 (by decide) f
  have hw : encodeNat (.xfence f) = 115 * 2 ^ 25 + (4 + f.bits) := by simp only [encodeNat]; omega
  rw [hw]
  refine ⟨by omega, ?_⟩
  have hs : field (115 * 2 ^ 25 + (4 + f.bits)) 0 7 = 4 := by simp only [field, ShXfence.bits]; omega
  rw [opcode_Ordering (opcode_eq (by decide) hx)]
  unfold decodeGroupOrdering
  rw [hs]
  exact congrArg (fun f => some (Instr.xfence f)) hf

theorem flush (f : ShScope) : Statement (.flush f) := by
  intro _
  obtain ⟨hx, hf⟩ := ShScope.coding 115 5 (by decide) f
  have hw : encodeNat (.flush f) = 115 * 2 ^ 25 + (5 + f.bits) := by simp only [encodeNat]; omega
  rw [hw]
  refine ⟨by omega, ?_⟩
  have hs : field (115 * 2 ^ 25 + (5 + f.bits)) 0 7 = 5 := by simp only [field, ShScope.bits]; omega
  rw [opcode_Ordering (opcode_eq (by decide) hx)]
  unfold decodeGroupOrdering
  rw [hs]
  exact congrArg (fun f => some (Instr.flush f)) hf

theorem flushInv (f : ShScope) : Statement (.flushInv f) := by
  intro _
  obtain ⟨hx, hf⟩ := ShScope.coding 115 6 (by decide) f
  have hw : encodeNat (.flushInv f) = 115 * 2 ^ 25 + (6 + f.bits) := by simp only [encodeNat]; omega
  rw [hw]
  refine ⟨by omega, ?_⟩
  have hs : field (115 * 2 ^ 25 + (6 + f.bits)) 0 7 = 6 := by simp only [field, ShScope.bits]; omega
  rw [opcode_Ordering (opcode_eq (by decide) hx)]
  unfold decodeGroupOrdering
  rw [hs]
  exact congrArg (fun f => some (Instr.flushInv f)) hf

theorem bar (f : ShBar) : Statement (.bar f) := by
  intro _
  obtain ⟨hx, hf⟩ := ShBar.coding 115 7 (by decide) f
  have hw : encodeNat (.bar f) = 115 * 2 ^ 25 + (7 + f.bits) := by simp only [encodeNat]; omega
  rw [hw]
  refine ⟨by omega, ?_⟩
  have hs : field (115 * 2 ^ 25 + (7 + f.bits)) 0 7 = 7 := by simp only [field, ShBar.bits]; omega
  rw [opcode_Ordering (opcode_eq (by decide) hx)]
  unfold decodeGroupOrdering
  rw [hs]
  exact congrArg (fun f => some (Instr.bar f)) hf

theorem waitv (f : ShWaitv) : Statement (.waitv f) := by
  intro _
  obtain ⟨hx, hf⟩ := ShWaitv.coding 115 8 (by decide) f
  have hw : encodeNat (.waitv f) = 115 * 2 ^ 25 + (8 + f.bits) := by simp only [encodeNat]; omega
  rw [hw]
  refine ⟨by omega, ?_⟩
  have hs : field (115 * 2 ^ 25 + (8 + f.bits)) 0 7 = 8 := by simp only [field, ShWaitv.bits]; omega
  rw [opcode_Ordering (opcode_eq (by decide) hx)]
  unfold decodeGroupOrdering
  rw [hs]
  exact congrArg (fun f => some (Instr.waitv f)) hf

theorem waitvS64 (f : ShWaitv) : Statement (.waitvS64 f) := by
  intro _
  obtain ⟨hx, hf⟩ := ShWaitv.coding 115 9 (by decide) f
  have hw : encodeNat (.waitvS64 f) = 115 * 2 ^ 25 + (9 + f.bits) := by simp only [encodeNat]; omega
  rw [hw]
  refine ⟨by omega, ?_⟩
  have hs : field (115 * 2 ^ 25 + (9 + f.bits)) 0 7 = 9 := by simp only [field, ShWaitv.bits]; omega
  rw [opcode_Ordering (opcode_eq (by decide) hx)]
  unfold decodeGroupOrdering
  rw [hs]
  exact congrArg (fun f => some (Instr.waitvS64 f)) hf

theorem pref (f : ShPref) : Statement (.pref f) := by
  intro _
  obtain ⟨hx, hf⟩ := ShPref.coding 115 10 (by decide) f
  have hw : encodeNat (.pref f) = 115 * 2 ^ 25 + (10 + f.bits) := by simp only [encodeNat]; omega
  rw [hw]
  refine ⟨by omega, ?_⟩
  have hs : field (115 * 2 ^ 25 + (10 + f.bits)) 0 7 = 10 := by simp only [field, ShPref.bits]; omega
  rw [opcode_Ordering (opcode_eq (by decide) hx)]
  unfold decodeGroupOrdering
  rw [hs]
  exact congrArg (fun f => some (Instr.pref f)) hf

theorem burst (f : ShA) : Statement (.burst f) := by
  intro _
  obtain ⟨hx, hf⟩ := ShA.coding 116 0 (by decide) f
  have hw : encodeNat (.burst f) = 116 * 2 ^ 25 + (0 + f.bits) := by simp only [encodeNat]; omega
  rw [hw]
  refine ⟨by omega, ?_⟩
  have hs : field (116 * 2 ^ 25 + (0 + f.bits)) 0 7 = 0 := by simp only [field, ShA.bits]; omega
  rw [opcode_QueuesEngines (opcode_eq (by decide) hx)]
  unfold decodeGroupQueuesEngines
  rw [hs]
  exact congrArg (fun f => some (Instr.burst f)) hf

theorem chadv (f : ShUDA) : Statement (.chadv f) := by
  intro _
  obtain ⟨hx, hf⟩ := ShUDA.coding 116 1 (by decide) f
  have hw : encodeNat (.chadv f) = 116 * 2 ^ 25 + (1 + f.bits) := by simp only [encodeNat]; omega
  rw [hw]
  refine ⟨by omega, ?_⟩
  have hs : field (116 * 2 ^ 25 + (1 + f.bits)) 0 7 = 1 := by simp only [field, ShUDA.bits]; omega
  rw [opcode_QueuesEngines (opcode_eq (by decide) hx)]
  unfold decodeGroupQueuesEngines
  rw [hs]
  exact congrArg (fun f => some (Instr.chadv f)) hf

theorem edgeget (f : ShUDA) : Statement (.edgeget f) := by
  intro _
  obtain ⟨hx, hf⟩ := ShUDA.coding 116 2 (by decide) f
  have hw : encodeNat (.edgeget f) = 116 * 2 ^ 25 + (2 + f.bits) := by simp only [encodeNat]; omega
  rw [hw]
  refine ⟨by omega, ?_⟩
  have hs : field (116 * 2 ^ 25 + (2 + f.bits)) 0 7 = 2 := by simp only [field, ShUDA.bits]; omega
  rw [opcode_QueuesEngines (opcode_eq (by decide) hx)]
  unfold decodeGroupQueuesEngines
  rw [hs]
  exact congrArg (fun f => some (Instr.edgeget f)) hf

theorem edgeput (f : ShUDA) : Statement (.edgeput f) := by
  intro _
  obtain ⟨hx, hf⟩ := ShUDA.coding 116 3 (by decide) f
  have hw : encodeNat (.edgeput f) = 116 * 2 ^ 25 + (3 + f.bits) := by simp only [encodeNat]; omega
  rw [hw]
  refine ⟨by omega, ?_⟩
  have hs : field (116 * 2 ^ 25 + (3 + f.bits)) 0 7 = 3 := by simp only [field, ShUDA.bits]; omega
  rw [opcode_QueuesEngines (opcode_eq (by decide) hx)]
  unfold decodeGroupQueuesEngines
  rw [hs]
  exact congrArg (fun f => some (Instr.edgeput f)) hf

theorem qpop (f : ShUDA) : Statement (.qpop f) := by
  intro _
  obtain ⟨hx, hf⟩ := ShUDA.coding 116 4 (by decide) f
  have hw : encodeNat (.qpop f) = 116 * 2 ^ 25 + (4 + f.bits) := by simp only [encodeNat]; omega
  rw [hw]
  refine ⟨by omega, ?_⟩
  have hs : field (116 * 2 ^ 25 + (4 + f.bits)) 0 7 = 4 := by simp only [field, ShUDA.bits]; omega
  rw [opcode_QueuesEngines (opcode_eq (by decide) hx)]
  unfold decodeGroupQueuesEngines
  rw [hs]
  exact congrArg (fun f => some (Instr.qpop f)) hf

theorem qpush (f : ShUDA) : Statement (.qpush f) := by
  intro _
  obtain ⟨hx, hf⟩ := ShUDA.coding 116 5 (by decide) f
  have hw : encodeNat (.qpush f) = 116 * 2 ^ 25 + (5 + f.bits) := by simp only [encodeNat]; omega
  rw [hw]
  refine ⟨by omega, ?_⟩
  have hs : field (116 * 2 ^ 25 + (5 + f.bits)) 0 7 = 5 := by simp only [field, ShUDA.bits]; omega
  rw [opcode_QueuesEngines (opcode_eq (by decide) hx)]
  unfold decodeGroupQueuesEngines
  rw [hs]
  exact congrArg (fun f => some (Instr.qpush f)) hf

theorem qblk (f : ShRDA) : Statement (.qblk f) := by
  intro _
  obtain ⟨hx, hf⟩ := ShRDA.coding 117 0 (by decide) f
  have hw : encodeNat (.qblk f) = 117 * 2 ^ 25 + (0 + f.bits) := by simp only [encodeNat]; omega
  rw [hw]
  refine ⟨by omega, ?_⟩
  have hs : field (117 * 2 ^ 25 + (0 + f.bits)) 0 7 = 0 := by simp only [field, ShRDA.bits]; omega
  rw [opcode_BlockConversion (opcode_eq (by decide) hx)]
  unfold decodeGroupBlockConversion
  rw [hs]
  exact congrArg (fun f => some (Instr.qblk f)) hf

theorem dqblk (f : ShRDA) : Statement (.dqblk f) := by
  intro _
  obtain ⟨hx, hf⟩ := ShRDA.coding 117 1 (by decide) f
  have hw : encodeNat (.dqblk f) = 117 * 2 ^ 25 + (1 + f.bits) := by simp only [encodeNat]; omega
  rw [hw]
  refine ⟨by omega, ?_⟩
  have hs : field (117 * 2 ^ 25 + (1 + f.bits)) 0 7 = 1 := by simp only [field, ShRDA.bits]; omega
  rw [opcode_BlockConversion (opcode_eq (by decide) hx)]
  unfold decodeGroupBlockConversion
  rw [hs]
  exact congrArg (fun f => some (Instr.dqblk f)) hf

theorem scoreboardWriteback (rod : Nat) : Statement (.scoreboardWriteback rod) := fun h =>
  absurd (show false = true from h) Bool.false_ne_true

theorem timerExpiry (rod : Nat) : Statement (.timerExpiry rod) := fun h =>
  absurd (show false = true from h) Bool.false_ne_true

theorem yieldHoldEnd (rod : Nat) : Statement (.yieldHoldEnd rod) := fun h =>
  absurd (show false = true from h) Bool.false_ne_true

theorem waitvMonitorWake (rod : Nat) : Statement (.waitvMonitorWake rod) := fun h =>
  absurd (show false = true from h) Bool.false_ne_true

theorem waitvSleepTimeout (rod : Nat) : Statement (.waitvSleepTimeout rod) := fun h =>
  absurd (show false = true from h) Bool.false_ne_true

theorem frameRetire (frame : Nat) : Statement (.frameRetire frame) := fun h =>
  absurd (show false = true from h) Bool.false_ne_true

theorem engineHaltStop (asid : Nat) : Statement (.engineHaltStop asid) := fun h =>
  absurd (show false = true from h) Bool.false_ne_true

theorem haltRecordWrite (asid : Nat) : Statement (.haltRecordWrite asid) := fun h =>
  absurd (show false = true from h) Bool.false_ne_true

theorem abortTokenReceive (asid group : Nat) (step : BitVec 64) (origin : BitVec 19) : Statement (.abortTokenReceive asid group step origin) := fun h =>
  absurd (show false = true from h) Bool.false_ne_true

theorem dieUpdateApply (src dst : Nat) : Statement (.dieUpdateApply src dst) := fun h =>
  absurd (show false = true from h) Bool.false_ne_true

theorem dieStampToken (src dst : Nat) : Statement (.dieStampToken src dst) := fun h =>
  absurd (show false = true from h) Bool.false_ne_true

theorem flushWalkComplete (rod : Nat) : Statement (.flushWalkComplete rod) := fun h =>
  absurd (show false = true from h) Bool.false_ne_true

theorem shootdown (rec : BitVec 128) : Statement (.shootdown rec) := fun h =>
  absurd (show false = true from h) Bool.false_ne_true

theorem resolve (rec : BitVec 256) : Statement (.resolve rec) := fun h =>
  absurd (show false = true from h) Bool.false_ne_true

theorem deliver (rec : BitVec 256) : Statement (.deliver rec) := fun h =>
  absurd (show false = true from h) Bool.false_ne_true

theorem assignEngine (rec : BitVec 256) : Statement (.assignEngine rec) := fun h =>
  absurd (show false = true from h) Bool.false_ne_true

theorem releaseEngine (rec : BitVec 256) : Statement (.releaseEngine rec) := fun h =>
  absurd (show false = true from h) Bool.false_ne_true

theorem setGroup (rec : BitVec 256) : Statement (.setGroup rec) := fun h =>
  absurd (show false = true from h) Bool.false_ne_true

theorem saveRequest (rec : BitVec 256) : Statement (.saveRequest rec) := fun h =>
  absurd (show false = true from h) Bool.false_ne_true

theorem restoreRequest (rec : BitVec 256) : Statement (.restoreRequest rec) := fun h =>
  absurd (show false = true from h) Bool.false_ne_true

theorem upcallReply (msg : BitVec 4096) : Statement (.upcallReply msg) := fun h =>
  absurd (show false = true from h) Bool.false_ne_true

theorem copyCellLand (frame win : Nat) : Statement (.copyCellLand frame win) := fun h =>
  absurd (show false = true from h) Bool.false_ne_true

theorem wdropComplete (frame win : Nat) : Statement (.wdropComplete frame win) := fun h =>
  absurd (show false = true from h) Bool.false_ne_true

theorem gatherElementLand (frame win : Nat) : Statement (.gatherElementLand frame win) := fun h =>
  absurd (show false = true from h) Bool.false_ne_true

theorem chainEntryStart (engine : Nat) : Statement (.chainEntryStart engine) := fun h =>
  absurd (show false = true from h) Bool.false_ne_true

theorem chainEntryComplete (engine : Nat) : Statement (.chainEntryComplete engine) := fun h =>
  absurd (show false = true from h) Bool.false_ne_true

theorem taskPick (core : Nat) : Statement (.taskPick core) := fun h =>
  absurd (show false = true from h) Bool.false_ne_true

theorem governorGrant (board : Nat) : Statement (.governorGrant board) := fun h =>
  absurd (show false = true from h) Bool.false_ne_true

theorem rampUpComplete (core eng : Nat) : Statement (.rampUpComplete core eng) := fun h =>
  absurd (show false = true from h) Bool.false_ne_true

theorem taskUnitComplete (core eng : Nat) : Statement (.taskUnitComplete core eng) := fun h =>
  absurd (show false = true from h) Bool.false_ne_true

theorem taskDoneWrite (core eng : Nat) : Statement (.taskDoneWrite core eng) := fun h =>
  absurd (show false = true from h) Bool.false_ne_true

theorem grantReturn (core eng : Nat) : Statement (.grantReturn core eng) := fun h =>
  absurd (show false = true from h) Bool.false_ne_true

theorem burstEnd (core : Nat) : Statement (.burstEnd core) := fun h =>
  absurd (show false = true from h) Bool.false_ne_true

theorem inferComplete (core eng : Nat) : Statement (.inferComplete core eng) := fun h =>
  absurd (show false = true from h) Bool.false_ne_true

theorem slotReserveRequest (rod : Nat) : Statement (.slotReserveRequest rod) := fun h =>
  absurd (show false = true from h) Bool.false_ne_true

theorem reservationReply (rod : Nat) : Statement (.reservationReply rod) := fun h =>
  absurd (show false = true from h) Bool.false_ne_true

theorem slotOpen (rod : Nat) : Statement (.slotOpen rod) := fun h =>
  absurd (show false = true from h) Bool.false_ne_true

theorem creditRequest (rod : Nat) : Statement (.creditRequest rod) := fun h =>
  absurd (show false = true from h) Bool.false_ne_true

theorem creditReply (rod : Nat) : Statement (.creditReply rod) := fun h =>
  absurd (show false = true from h) Bool.false_ne_true

theorem transferApply (core slot : Nat) : Statement (.transferApply core slot) := fun h =>
  absurd (show false = true from h) Bool.false_ne_true

theorem slotWake (core dst slot : Nat) : Statement (.slotWake core dst slot) := fun h =>
  absurd (show false = true from h) Bool.false_ne_true

theorem triangleEntry (board : Nat) : Statement (.triangleEntry board) := fun h =>
  absurd (show false = true from h) Bool.false_ne_true

theorem textureResult (record : Nat) : Statement (.textureResult record) := fun h =>
  absurd (show false = true from h) Bool.false_ne_true

theorem traceResult (record : Nat) : Statement (.traceResult record) := fun h =>
  absurd (show false = true from h) Bool.false_ne_true

theorem marchResult (record : Nat) : Statement (.marchResult record) := fun h =>
  absurd (show false = true from h) Bool.false_ne_true

theorem contGatherTimeout (record : Nat) : Statement (.contGatherTimeout record) := fun h =>
  absurd (show false = true from h) Bool.false_ne_true

theorem dispatchLoop (table : Nat) : Statement (.dispatchLoop table) := fun h =>
  absurd (show false = true from h) Bool.false_ne_true

theorem queueClaim (table asid queue : Nat) (h : BitVec 64) : Statement (.queueClaim table asid queue h) := fun h =>
  absurd (show false = true from h) Bool.false_ne_true

theorem queueRelease (table asid queue : Nat) (h : BitVec 64) (first : Nat) : Statement (.queueRelease table asid queue h first) := fun h =>
  absurd (show false = true from h) Bool.false_ne_true

theorem queueBound (asid queue : Nat) (h : BitVec 64) : Statement (.queueBound asid queue h) := fun h =>
  absurd (show false = true from h) Bool.false_ne_true

theorem queuePass (asid queue : Nat) (h : BitVec 64) : Statement (.queuePass asid queue h) := fun h =>
  absurd (show false = true from h) Bool.false_ne_true

theorem bindRecord (core : Nat) (rec : BitVec 512) : Statement (.bindRecord core rec) := fun h =>
  absurd (show false = true from h) Bool.false_ne_true

theorem boardReservation (table : Nat) : Statement (.boardReservation table) := fun h =>
  absurd (show false = true from h) Bool.false_ne_true

theorem launchFabricDelivery (dev asid queue : Nat) (rec : BitVec 2048) : Statement (.launchFabricDelivery dev asid queue rec) := fun h =>
  absurd (show false = true from h) Bool.false_ne_true

theorem hostAccess (write : Bool) (addr : BitVec 38) (bytes : List (BitVec 8)) : Statement (.hostAccess write addr bytes) := fun h =>
  absurd (show false = true from h) Bool.false_ne_true

theorem directoryRecall (page : Nat) : Statement (.directoryRecall page) := fun h =>
  absurd (show false = true from h) Bool.false_ne_true

theorem stallTimeout (agent : StallAgent) : Statement (.stallTimeout agent) := fun h =>
  absurd (show false = true from h) Bool.false_ne_true

theorem systemBlockAddress (addr : BitVec 52) : Statement (.systemBlockAddress addr) := fun h =>
  absurd (show false = true from h) Bool.false_ne_true

theorem firmwareUpdate (part : UpdateStep) (image : List (BitVec 8)) : Statement (.firmwareUpdate part image) := fun h =>
  absurd (show false = true from h) Bool.false_ne_true

theorem spdmRequest (request : SpdmReq) : Statement (.spdmRequest request) := fun h =>
  absurd (show false = true from h) Bool.false_ne_true

theorem sensorSample (die : List DieReading) (stack : List Nat) (millivolts milliamps : Nat) :
    Statement (.sensorSample die stack millivolts milliamps) := fun h =>
  absurd (show false = true from h) Bool.false_ne_true

theorem grantCountAdjust (board : Nat) : Statement (.grantCountAdjust board) := fun h =>
  absurd (show false = true from h) Bool.false_ne_true

theorem alarm (code : Nat) : Statement (.alarm code) := fun h =>
  absurd (show false = true from h) Bool.false_ne_true

theorem reservedOpcode (word : BitVec 32) : Statement (.reservedOpcode word) := fun h =>
  absurd (show false = true from h) Bool.false_ne_true

theorem reckonerAccess (request : ReckonerReq) (addr : BitVec 52) (data : BitVec 64) : Statement (.reckonerAccess request addr data) := fun h =>
  absurd (show false = true from h) Bool.false_ne_true

theorem homePerform (index : Nat) : Statement (.homePerform index) := fun h =>
  absurd (show false = true from h) Bool.false_ne_true

theorem instructionCacheFill (rod : Nat) : Statement (.instructionCacheFill rod) := fun h =>
  absurd (show false = true from h) Bool.false_ne_true

theorem nop : Statement .nop := fun _ => ⟨by decide, by decide⟩

theorem join : Statement .join := fun _ => ⟨by decide, by decide⟩

theorem exit : Statement .exit := fun _ => ⟨by decide, by decide⟩

theorem region : Statement .region := fun _ => ⟨by decide, by decide⟩

theorem eret : Statement .eret := fun _ => ⟨by decide, by decide⟩

theorem yield : Statement .yield := fun _ => ⟨by decide, by decide⟩

theorem pageWalkComplete  : Statement (.pageWalkComplete) := fun h =>
  absurd (show false = true from h) Bool.false_ne_true

theorem faultRecordWrite  : Statement (.faultRecordWrite) := fun h =>
  absurd (show false = true from h) Bool.false_ne_true

theorem portRevokedFault  : Statement (.portRevokedFault) := fun h =>
  absurd (show false = true from h) Bool.false_ne_true

theorem readExclusiveUpgrade  : Statement (.readExclusiveUpgrade) := fun h =>
  absurd (show false = true from h) Bool.false_ne_true

theorem pageGrant  : Statement (.pageGrant) := fun h =>
  absurd (show false = true from h) Bool.false_ne_true

theorem powerOn  : Statement (.powerOn) := fun h =>
  absurd (show false = true from h) Bool.false_ne_true

theorem thermalTrip  : Statement (.thermalTrip) := fun h =>
  absurd (show false = true from h) Bool.false_ne_true

end Sys2Proof.Laws.Coding
end

