-- ==== Sys2Proof/Tests/Slice0.lean ====
section
/-!
SUPPORT. Tests: words written out bit by bit, encodings that are refused, one step of an instruction where a worked
value of the manual stands, and for every claim with hypotheses a concrete state that meets them all.
-/

set_option Elab.async false

namespace Sys2Proof.Tests

open Sys2Proof.Machine Sys2Proof.Claims

/-! ### A small device -/

/-- A frame of core 0 with 64 cells of each buffer, and a rod of it with beads 0 to 3, all active, MODE.RM the nearest. -/
def rod : Rod := placedFrame.newRod 1 0 0 0 4 1 0 0x10000

/-- The rod's device: the rod is issuing. -/
def bench : State :=
  { State.reset with boot := .running, rods := [rod], frames := [placedFrame], cur := some 1, fresh := 2 }

/-- The device with its rod changed. -/
def benchOf (r : Rod) : State := { bench with rods := [r] }

/-- The conditions of `Issues`, as one truth value. -/
def canIssue (s : State) (r : Rod) (i : Instr) : Bool :=
  decide (s.curRod? = some r) && decide (r.status = .ready) && decide (i.illegal? = none) && !(regGroups i).any r.beyond &&
    !pastLastS i && (!(commits i) || lazyCommits i || decide (s.blockedLine r.uid = none))

theorem issues_of {s : State} {r : Rod} {i : Instr} (h : canIssue s r i = true) : Issues s r i := by
  simp only [canIssue, Bool.and_eq_true, Bool.or_eq_true, decide_eq_true_eq, Bool.not_eq_true'] at h
  obtain ⟨⟨⟨⟨⟨h1, h2⟩, h3⟩, h4⟩, h6⟩, h5⟩ := h
  exact ⟨h1, h2, h3, h4, h6, fun hc hl => by
    rcases h5 with (h5 | h5) | h5
    · rw [h5] at hc; exact absurd hc (by decide)
    · rw [h5] at hl; exact absurd hl (by decide)
    · exact h5⟩

/-- Every instruction of a list is one of a table, can issue, and raises no enabled condition. -/
def valuesMeet (table : Instr → Option Effect) (r : Rod) (l : List Instr) : Bool :=
  l.all fun i => (table i).any fun x => canIssue (benchOf r) r i &&
    (r.parts (uniform i)).all fun b => decide ((x.value r b).2 &&& trapEnables r.mode = 0)

theorem valuesMeet_spec {table : Instr → Option Effect} {r : Rod} {l : List Instr} (h : valuesMeet table r l = true) :
    ∀ i ∈ l, ∃ x, table i = some x ∧ Issues (benchOf r) r i ∧ r.untrapped (uniform i) (x.value r) := by
  intro i hi
  have h1 := List.all_eq_true.mp h i hi
  obtain ⟨x, hx, h2⟩ := Option.any_eq_true .. |>.mp h1
  simp only [Bool.and_eq_true, List.all_eq_true, decide_eq_true_eq] at h2
  exact ⟨x, hx, issues_of h2.1, h2.2⟩

theorem of4 {a b c d p : Prop} (h : a ∧ b ∧ c ∧ d) (hp : p) : a ∧ b ∧ c ∧ d ∧ p := ⟨h.1, h.2.1, h.2.2.1, h.2.2.2, hp⟩

/-- The next state of an outcome, if it is one. -/
def nextOf (o : Host.Outcome State Fault Refusal) : State :=
  match o with
  | .next t => t
  | .fault _ => State.reset
  | .refused _ => State.reset

/-- The outcome is a next state. -/
def isNext (o : Host.Outcome State Fault Refusal) : Bool :=
  match o with
  | .next _ => true
  | .fault _ => false
  | .refused _ => false

theorem next_of {o : Host.Outcome State Fault Refusal} (h : isNext o = true) : o = .next (nextOf o) := by
  cases o with
  | next t => rfl
  | fault f => exact absurd (show false = true from h) Bool.false_ne_true
  | refused f => exact absurd (show false = true from h) Bool.false_ne_true

/-- Memory that holds numbers at rising places: address, bytes, number. -/
def memOf (l : List (Nat × Nat × Nat)) : List Host.Cell :=
  (l.flatMap fun (a, n, x) => placed a (bytesOfNat n x)).filter fun c => decide (c.2 ≠ 0)

/-- All rights over the 65,536 bytes of the object 5. -/
def cap5 : Cap := ⟨true, true, true, true, true, true, 5, 0, 0x10000⟩

/-- The device with its rod changed, whose object 5 is cached: virtual addresses 0x20000 up, physical 0x100000 up; and
with numbers in memory. -/
def mapped (r : Rod) (l : List (Nat × Nat × Nat)) : State :=
  { benchOf r with
    objCache := [⟨0, 0, 5, 0x10000, 0x20000⟩]
    tlb := [⟨some 0, 0, 2, 16, 0x100000, 0, true, true⟩, ⟨none, 0, 2, 16, 0x100000, 0, true, true⟩]
    mem := memOf l }

/-- The conditions of `Reaches`, as one truth value. -/
def reachB (s : State) (r : Rod) (c : Cap) (q : Rights) (byte size : Nat) (use : Use) (a : Nat) : Bool :=
  c.v && c.grants q && decide (c.lo.toNat ≤ byte ∧ byte + size ≤ c.hi.toNat) &&
    ((s.cachedObject r.core r.asid c.handle.toNat).any fun o =>
      (s.tlbFind (some r.core) r.asid ((o.2 + byte) % 2 ^ 48) (decide (use ≠ .load))).any fun t =>
        decide (byte + size ≤ o.1 ∧ a = t.place ((o.2 + byte) % 2 ^ 48))) &&
    decide (field a 50 2 ≠ 2) && (decide (use = .tentative) ||
      decide (s.barred a (decide (use = .home)) = none ∧ s.damaged a size = false))

theorem reaches_of {s : State} {r : Rod} {c : Cap} {q : Rights} {byte size : Nat} {use : Use} {a : Nat}
    (h : reachB s r c q byte size use a = true) : Reaches s r c q byte size use a := by
  simp only [reachB, Bool.and_eq_true, Bool.or_eq_true, decide_eq_true_eq] at h
  obtain ⟨⟨⟨⟨⟨h1, h2⟩, h3⟩, h4⟩, h5⟩, h8⟩ := h
  obtain ⟨o, ho, h6⟩ := (Option.any_eq_true ..).mp h4
  obtain ⟨t, ht, h7⟩ := (Option.any_eq_true ..).mp h6
  rw [decide_eq_true_eq] at h7
  exact ⟨h1, h2, h3, ⟨o.1, o.2, t, ho, h7.1, ht, h7.2⟩, fun x => h5 x.1, fun x => h8.resolve_left x⟩

theorem all_reach {s : State} {r : Rod} {c : Cap} {q : Rights} {size : Nat} {use : Use} {l : List (Option Nat)}
    {byte a : Option Nat → Nat} (h : (l.all fun b => reachB s r c q (byte b) size use (a b)) = true) :
    ∀ b ∈ l, Reaches s r c q (byte b) size use (a b) :=
  fun b hb => reaches_of (List.all_eq_true.mp h b hb)

theorem specs_of {xs : List (BitVec 128)}
    (h : (xs.all fun x => decide (x.extractLsb' 88 24 = 0 ∧ x.extractLsb' 77 3 = 0 ∧ x.extractLsb' 64 8 = 0 ∧
      x.extractLsb' 0 32 = 0 ∧ x.extractLsb' 112 16 ≠ 0 ∧ (x.extractLsb' 32 12).toNat + 1 ≤ 2048)) = true)
    (h2 : (xs.map fun x => ((specAt x).core, (specAt x).slot)).Nodup) : specsTaken xs :=
  ⟨fun x hx => of_decide_eq_true (List.all_eq_true.mp h x hx), h2⟩

/-- The conditions of `mapsTo`, as one truth value. -/
def mapsB (s : State) (core : Option Nat) (asid va : Nat) (write : Bool) (a : Nat) : Bool :=
  ((s.tlbFind core asid va write).any fun t => decide (a = t.place va)) &&
    decide (field a 50 2 ≠ 2 ∧ s.barred a write = none)

theorem maps_of {s : State} {core : Option Nat} {asid va : Nat} {write : Bool} {a : Nat}
    (h : mapsB s core asid va write a = true) : mapsTo s core asid va write a := by
  simp only [mapsB, Bool.and_eq_true, decide_eq_true_eq] at h
  obtain ⟨t, ht, h1⟩ := (Option.any_eq_true ..).mp h.1
  exact ⟨t, ht, of_decide_eq_true h1, fun x => h.2.1 x.1, h.2.2⟩

/-- LEN and base of an object as `objectAt` finds them. -/
def objB (s : State) (c : Client) (h : Nat) : Option (Nat × Nat) :=
  match c.core with
  | some k => s.cachedObject k c.asid h
  | none =>
    match s.objectEntry c.asid h with
    | none => none
    | some va =>
      match s.tlbFind none c.asid va false with
      | none => none
      | some t =>
        if mapsB s none c.asid va false (t.place va) && !s.damaged (t.place va) 16 then objectOf (s.natAt (t.place va) 16)
        else none

theorem obj_of {s : State} {c : Client} {h : Nat} {o : Nat × Nat} (ho : objB s c h = some o) : objectAt s c h o.1 o.2 := by
  unfold objB at ho
  split at ho
  · exact .inl ⟨_, ‹_›, ho⟩
  · split at ho
    · exact nomatch ho
    · split at ho
      · exact nomatch ho
      · split at ho
        · rename_i hm
          rw [Bool.and_eq_true, Bool.not_eq_true'] at hm
          exact .inr ⟨‹_›, _, _, ‹_›, maps_of hm.1, hm.2, ho⟩
        · exact nomatch ho

/-- The conditions of `EngineReaches`, as one truth value. -/
def engineB (s : State) (c : Client) (cap : Cap) (byte size : Nat) (write : Bool) (a : Nat) : Bool :=
  ((objB s c cap.handle.toNat).any fun o =>
    decide (byte + size ≤ o.1) && mapsB s c.core c.asid ((o.2 + byte) % 2 ^ 48) write a) && (write || !s.damaged a size)

theorem engine_of {s : State} {c : Client} {cap : Cap} {byte size : Nat} {write : Bool} {a : Nat}
    (h : engineB s c cap byte size write a = true) : EngineReaches s c cap byte size write a := by
  simp only [engineB, Bool.and_eq_true] at h
  obtain ⟨o, ho, h6⟩ := (Option.any_eq_true ..).mp h.1
  simp only [Bool.and_eq_true, decide_eq_true_eq] at h6
  exact ⟨⟨o.1, o.2, obj_of ho, h6.1, maps_of h6.2⟩, fun hw => by simpa [hw] using h.2⟩

theorem all_engine {s : State} {c : Client} {cap : Cap} {size : Nat} {write : Bool} {n : Nat} {byte a : Nat → Nat}
    (h : ((List.range n).all fun i => engineB s c cap (byte i) size write (a i)) = true) :
    ∀ i < n, EngineReaches s c cap (byte i) size write (a i) :=
  fun i hi => engine_of (List.all_eq_true.mp h i (List.mem_range.mpr hi))

theorem reads_of {s : State} {c : Client} {cap : Cap} {byte a : Nat} (hs : s.writes = [])
    (h : engineB s c cap byte 1 false a = true) : EngineReads s c cap byte a :=
  ⟨engine_of h, fun w hw => by rw [hs] at hw; exact absurd hw (List.not_mem_nil)⟩

theorem all_reads {s : State} {c : Client} {cap : Cap} {n : Nat} {byte a : Nat → Nat} (hs : s.writes = [])
    (h : ((List.range n).all fun i => engineB s c cap (byte i) 1 false (a i)) = true) :
    ∀ i < n, EngineReads s c cap (byte i) (a i) :=
  fun i hi => reads_of hs (List.all_eq_true.mp h i (List.mem_range.mpr hi))

/-! ### Words written out bit by bit from the format tables (R62 to R75) -/

/-- Words of the constructors from `illegal` to `region`, in the order of the opcode table. -/
theorem test_words_1 :
    decodeTableWord 32 0b0000000_1000110101111110110000101 = some (.illegal ⟨18546053⟩) ∧
    decodeTableWord 32 0b00000010000000000000000000000000 = some .nop ∧
    decodeTableWord 32 0b00000100_001_1_01101111001111000001 = some (.bra ⟨1, true, 455617⟩) ∧
    decodeTableWord 32 0b00000110_111_1_00011111000101001101 = some (.brpAll ⟨7, true, 127309⟩) ∧
    decodeTableWord 32 0b00001000_101_0_11001110111011011001 = some (.brpAny ⟨5, false, 847577⟩) ∧
    decodeTableWord 32 0b000010100000_11010100111011011011 = some (.call ⟨872155⟩) ∧
    decodeTableWord 32 0b00001100000_0111001_1010101_0000000 = some (.callReg ⟨57, 85⟩) ∧
    decodeTableWord 32 0b000011100000000000_0010111_0000000 = some (.cont ⟨23⟩) ∧
    decodeTableWord 32 0b000100000000000000_1110101_0000000 = some (.ret ⟨117⟩) ∧
    decodeTableWord 32 0b00010010000000000000000000000000 = some .join ∧
    decodeTableWord 32 0b00010100000000000000000000000000 = some .exit ∧
    decodeTableWord 32 0b000101100000000_10100101000001111 = some (.brk ⟨84495⟩) ∧
    decodeTableWord 32 0b0001100_0_0000000_11110011110010011 = some (.trap ⟨false, 124819⟩) ∧
    decodeTableWord 32 0b0001101_1_000_1001000_1000101_1000010 = some (.upcall ⟨true, 72, 69, 66⟩) ∧
    decodeTableWord 32 0b000111000000000_00100011110101001 = some (.live ⟨18345⟩) ∧
    decodeTableWord 32 0b00011110000000000000000000000000 = some .region := by
  decide

/-- Words of the constructors from `iadd` to `idot4`, in the order of the opcode table. -/
theorem test_words_2 :
    decodeTableWord 32 0b0010000_0_0_0_0_1101101_1101111_1110001 = some (.iadd ⟨false, false, false, false, 109, 111, 113⟩) ∧
    decodeTableWord 32 0b0010001_1_0_0_0_0100111_0000000_1011001 = some (.iaddImm ⟨true, false, false, false, 39, 0, 89⟩) ∧
    decodeTableWord 32 0b0010010_0_1_0_0_1100001_0010001_1000001 = some (.isub ⟨false, true, false, false, 97, 17, 65⟩) ∧
    decodeTableWord 32 0b0010011_1_1_0_0_0011011_0100010_0101001 = some (.imul ⟨true, true, false, false, 27, 34, 41⟩) ∧
    decodeTableWord 32 0b0010100_0_0_1_0_1010101_0110011_0010001 = some (.imulImm ⟨false, false, true, false, 85, 51, 17⟩) ∧
    decodeTableWord 32 0b0010101_1_0_0_1_1011010_0001111_1000100 = some (.imulhi ⟨true, false, true, 90, 15, 68⟩) ∧
    decodeTableWord 32 0b0010110_0_1_1_0_1001001_1010101_1100001 = some (.imad ⟨false, true, true, false, 73, 85, 97⟩) ∧
    decodeTableWord 32 0b0010111_1_0_1_1_0100000_0000011_1100110 = some (.idiv ⟨true, true, true, 32, 3, 102⟩) ∧
    decodeTableWord 32 0b0011000_0_0_0_0_0000011_0111101_1110111 = some (.irem ⟨false, false, false, 3, 61, 119⟩) ∧
    decodeTableWord 32 0b0011001_1_0_0_0_1100110_1110111_0001000 = some (.imin ⟨true, false, false, 102, 119, 8⟩) ∧
    decodeTableWord 32 0b0011010_0_0_1_0_1001001_0110001_0011001 = some (.imax ⟨false, true, false, 73, 49, 25⟩) ∧
    decodeTableWord 32 0b0011011_1_0_1_0_0101100_1101011_0101010 = some (.iclamp ⟨true, true, false, 44, 107, 42⟩) ∧
    decodeTableWord 32 0b00111000_101_000_0_001_0001111_0100101 = some (.icmpS ⟨5, false, 1, 15, 37⟩) ∧
    decodeTableWord 32 0b00111010_011_000_0_101_1110010_1011111 = some (.icmpN ⟨3, false, 5, 114, 95⟩) ∧
    decodeTableWord 32 0b0011110_0_0_1_1_1010101_0011001_1011101 = some (.isad ⟨false, true, true, 85, 25, 93⟩) ∧
    decodeTableWord 32 0b0011111_1_1_1_0_0111000_1010011_1101110 = some (.idot4 ⟨true, true, true, 56, 83, 110⟩) := by
  decide

/-- Words of the constructors from `iabs` to `sra`, in the order of the opcode table. -/
theorem test_words_3 :
    decodeTableWord 32 0b0100000_0_0_0_0_0011011_0001101_0000000 = some (.iabs ⟨false, false, false, 27, 13⟩) ∧
    decodeTableWord 32 0b0100001_1_0_0_0_1111110_1000111_0000000 = some (.ineg ⟨true, false, false, 126, 71⟩) ∧
    decodeTableWord 32 0b0100010_0_001_1000001_1100001_000_01_01 = some (.itof ⟨false, 1, 65, 97, 1, 1⟩) ∧
    decodeTableWord 32 0b0100011_1_110_1001101_1000100_000_11_10 = some (.ftoi ⟨true, 6, 77, 68, 3, 2⟩) ∧
    decodeTableWord 32 0b0100100_0_00_0_1011001_0100111_1110101 = some (.and ⟨false, false, 89, 39, 117⟩) ∧
    decodeTableWord 32 0b0100101_1_00_0_1100101_0001010_0101111 = some (.andImm ⟨true, false, 101, 10, 47⟩) ∧
    decodeTableWord 32 0b0100110_0_00_1_1110001_1101101_1101001 = some (.andn ⟨false, true, 113, 109, 105⟩) ∧
    decodeTableWord 32 0b0100111_1_00_1_1111101_1010000_0100011 = some (.or ⟨true, true, 125, 80, 35⟩) ∧
    decodeTableWord 32 0b0101000_0_00_0_0001001_0110011_1011101 = some (.orImm ⟨false, false, 9, 51, 93⟩) ∧
    decodeTableWord 32 0b0101001_1_00_0_0010101_0010110_0010111 = some (.xor ⟨true, false, 21, 22, 23⟩) ∧
    decodeTableWord 32 0b0101010_0_00_1_0100001_1111001_1010001 = some (.xorImm ⟨false, true, 33, 121, 81⟩) ∧
    decodeTableWord 32 0b0101011_1_00_1_0101101_1011100_0001011 = some (.shl ⟨true, true, 45, 92, 11⟩) ∧
    decodeTableWord 32 0b0101100_0_00_0_0111001_0111111_1000101 = some (.shlImm ⟨false, false, 57, 63, 69⟩) ∧
    decodeTableWord 32 0b0101101_1_00_0_1000101_0100010_1111111 = some (.shr ⟨true, false, 69, 34, 127⟩) ∧
    decodeTableWord 32 0b0101110_0_00_1_1010001_0000101_0111001 = some (.shrImm ⟨false, true, 81, 5, 57⟩) ∧
    decodeTableWord 32 0b0101111_1_00_1_1011101_1101000_1110011 = some (.sra ⟨true, true, 93, 104, 115⟩) := by
  decide

/-- Words of the constructors from `sraImm` to `plog`, in the order of the opcode table. -/
theorem test_words_4 :
    decodeTableWord 32 0b0110000_0_00_0_1101001_1001011_0101101 = some (.sraImm ⟨false, false, 105, 75, 45⟩) ∧
    decodeTableWord 32 0b0110001_1_100_1110101_0101110_1100111 = some (.shadd ⟨true, 4, 117, 46, 103⟩) ∧
    decodeTableWord 32 0b0110010_0_001_0000001_0010001_0100001 = some (.sel ⟨false, 1, 1, 17, 33⟩) ∧
    decodeTableWord 32 0b0110011_1_00_1_0001101_1110100_0000000 = some (.mov ⟨true, true, 13, 116⟩) ∧
    decodeTableWord 32 0b0110100_0_1011011_00111100100011001 = some (.movi ⟨false, 91, 31001⟩) ∧
    decodeTableWord 32 0b0110101_1_0010000_10111011010100101 = some (.movhi ⟨true, 16, 95909⟩) ∧
    decodeTableWord 32 0b0110110_0_00_1_0110001_0011101_0000000 = some (.clz ⟨false, true, 49, 29⟩) ∧
    decodeTableWord 32 0b0110111_1_00_1_0111101_0000000_0000000 = some (.popc ⟨true, true, 61, 0⟩) ∧
    decodeTableWord 32 0b0111000_0_00_0_1001001_1100011_0000000 = some (.brev ⟨false, false, 73, 99⟩) ∧
    decodeTableWord 32 0b0111001_1_00_0_1010101_1000110_0110111 = some (.bfx ⟨true, false, 85, 70, 55⟩) ∧
    decodeTableWord 32 0b0111010_0_00_1_1100001_0101001_1110001 = some (.bfi ⟨false, true, 97, 41, 113⟩) ∧
    decodeTableWord 32 0b0111011_1_00_1_1101101_0001100_0101011 = some (.ilv ⟨true, true, 109, 12, 43⟩) ∧
    decodeTableWord 32 0b0111100_0_00_0_1111001_1101111_1100101 = some (.dilv ⟨false, false, 121, 111, 101⟩) ∧
    decodeTableWord 32 0b0111101_1_000_0111000_0000101_1010010 = some (.unpk3 ⟨true, 56, 5, 82⟩) ∧
    decodeTableWord 32 0b0111110_0_1_00_0010001_0110101_1011001 = some (.tacc ⟨false, true, 17, 53, 89⟩) ∧
    decodeTableWord 32 0b01111110_111_0000_010_0000_101_0000_000 = some (.plog ⟨7, 2, 5, 0⟩) := by
  decide

/-- Words of the constructors from `faddF32` to `fcvt`, in the order of the opcode table. -/
theorem test_words_5 :
    decodeTableWord 32 0b1000000_0_111_0101001_1111011_1001101 = some (.faddF32 ⟨false, 7, 41, 123, 77⟩) ∧
    decodeTableWord 32 0b1000001_1_100_0110101_1011110_0000111 = some (.faddF16 ⟨true, 4, 53, 94, 7⟩) ∧
    decodeTableWord 32 0b1000010_0_001_1000001_1000001_1000001 = some (.faddBf16 ⟨false, 1, 65, 65, 65⟩) ∧
    decodeTableWord 32 0b1000011_1_110_1001101_0100100_1111011 = some (.fsub ⟨true, 6, 77, 36, 123⟩) ∧
    decodeTableWord 32 0b1000100_0_011_1011001_0000111_0110101 = some (.fmulF32 ⟨false, 3, 89, 7, 53⟩) ∧
    decodeTableWord 32 0b1000101_1_000_1100101_1101010_1101111 = some (.fmulF16 ⟨true, 0, 101, 106, 111⟩) ∧
    decodeTableWord 32 0b1000110_0_101_1110001_1001101_0101001 = some (.fmulBf16 ⟨false, 5, 113, 77, 41⟩) ∧
    decodeTableWord 32 0b1000111_1_010_1111101_0110000_1100011 = some (.fmaF32 ⟨true, 2, 125, 48, 99⟩) ∧
    decodeTableWord 32 0b1001000_0_111_0001001_0010011_0011101 = some (.fmaF16 ⟨false, 7, 9, 19, 29⟩) ∧
    decodeTableWord 32 0b1001001_1_100_0010101_1110110_1010111 = some (.fmaBf16 ⟨true, 4, 21, 118, 87⟩) ∧
    decodeTableWord 32 0b1001010_0_001_0100001_1011001_0010001 = some (.hfma2F16 ⟨false, 1, 33, 89, 17⟩) ∧
    decodeTableWord 32 0b1001011_1_110_0101101_0111100_1001011 = some (.hfma2Bf16 ⟨true, 6, 45, 60, 75⟩) ∧
    decodeTableWord 32 0b1001100_0_00_0_0111001_0011111_0000101 = some (.fmin ⟨false, false, 57, 31, 5⟩) ∧
    decodeTableWord 32 0b1001101_1_00_0_1000101_0000010_0111111 = some (.fmax ⟨true, false, 69, 2, 63⟩) ∧
    decodeTableWord 32 0b10011100_001_0000_101_1010001_1100101 = some (.fcmp ⟨1, 5, 81, 101⟩) ∧
    decodeTableWord 32 0b1001111_1_010_1011101_1001000_0110011 = some (.fcvt ⟨true, 2, 93, 72, 51⟩) := by
  decide

/-- Words of the constructors from `ld` to `atomN64`, in the order of the opcode table. -/
theorem test_words_6 :
    decodeTableWord 32 0b1010000_0_111_1101001_1011_01_0_1110001 = some (.ld ⟨false, 7, 105, 11, 1, false, 113⟩) ∧
    decodeTableWord 32 0b1010001_1_100_1110101_1110_11_0_1011001 = some (.st ⟨true, 4, 117, 14, 3, false, 89⟩) ∧
    decodeTableWord 32 0b1010010_0_000_0010001_0001_01_1_1010001 = some (.stn ⟨false, 17, 1, 1, true, 81⟩) ∧
    decodeTableWord 32 0b1010011_1_110_0001101_00_00000_0011011 = some (.ldlS ⟨true, 6, 13, 0, 27⟩) ∧
    decodeTableWord 32 0b1010100_0_011_0011001_11_00000_1010101 = some (.ldlW ⟨false, 3, 25, 3, 85⟩) ∧
    decodeTableWord 32 0b1010101_1_000_0100101_10_00000_0001111 = some (.ldlA ⟨true, 0, 37, 2, 15⟩) ∧
    decodeTableWord 32 0b1010110_0_101_0110001_01_00000_1001001 = some (.ldlC ⟨false, 5, 49, 1, 73⟩) ∧
    decodeTableWord 32 0b1010111_1_010_0111101_0000000_1100000 = some (.stlS ⟨true, 2, 61, 96⟩) ∧
    decodeTableWord 32 0b1011000_0_111_1001001_0000000_1000011 = some (.stlA ⟨false, 7, 73, 67⟩) ∧
    decodeTableWord 32 0b1011001_1_100_1010101_0000000_0100110 = some (.stlC ⟨true, 4, 85, 38⟩) ∧
    decodeTableWord 32 0b1011010_0_10_1_1100001_1001_01_0_0000001 = some (.acas ⟨false, true, 97, 9, 1, false, 1⟩) ∧
    decodeTableWord 32 0b1011011_1_101_1101110_1101_00_1_1101010 = some (.amax64 ⟨true, 110, 13, 0, true, 106⟩) ∧
    decodeTableWord 32 0b1011100_0_011_1111001_1111_01_0_1010001 = some (.atomS32 ⟨false, 3, 121, 15, 1, false, 81⟩) ∧
    decodeTableWord 32 0b1011101_1_000_0000101_0010_11_0_0111001 = some (.atomN32 ⟨true, 0, 5, 2, 3, false, 57⟩) ∧
    decodeTableWord 32 0b1011110_0_101_0010001_0101_01_0_0100001 = some (.atomS64 ⟨false, 5, 17, 5, 1, false, 33⟩) ∧
    decodeTableWord 32 0b1011111_1_010_0011101_1000_11_0_0001001 = some (.atomN64 ⟨true, 2, 29, 8, 3, false, 9⟩) := by
  decide

/-- Words of the constructors from `tex` to `launch`, in the order of the opcode table. -/
theorem test_words_7 :
    decodeTableWord 32 0b11000000_101_1110111_0101001_1011011 = some (.tex ⟨5, 119, 41, 91⟩) ∧
    decodeTableWord 32 0b1100001000_1_0101100_0110101_0111110 = some (.trace ⟨true, 44, 53, 62⟩) ∧
    decodeTableWord 32 0b11000100000_0000001_1100001_1000001 = some (.vmarch ⟨1, 97, 65⟩) ∧
    decodeTableWord 32 0b1100011_1_0000000000_0010110_0000000 = some (.ttask ⟨true, 22⟩) ∧
    decodeTableWord 32 0b1100100_0_000_1001011_1011001_1100111 = some (.infer ⟨false, 75, 89, 103⟩) ∧
    decodeTableWord 32 0b1100101000_1_0000000_1100101_1001010 = some (.sumset ⟨true, 0, 101, 74⟩) ∧
    decodeTableWord 32 0b1100110_0_000_0110101_1110001_0000000 = some (.sumsend ⟨false, 53, 113⟩) ∧
    decodeTableWord 32 0b110011100000000000_1010111_0000000 = some (.sumfree ⟨87⟩) ∧
    decodeTableWord 32 0b1101000_0_000000_1111_0001001_1110011 = some (.wbind ⟨false, 15, 9, 115⟩) ∧
    decodeTableWord 32 0b1101001_1_000000_0100_0010101_1010110 = some (.wcsr ⟨true, 4, 21, 86⟩) ∧
    decodeTableWord 32 0b1101010_0_0000000000_0001001_0000000 = some (.wtouch ⟨false, 9⟩) ∧
    decodeTableWord 32 0b1101011_1_0000000000_0111110_0000000 = some (.wdrop ⟨true, 62⟩) ∧
    decodeTableWord 32 0b1101100_0_00_0_0111001_1111111_1000101 = some (.rand ⟨false, false, 57, 127, 69⟩) ∧
    decodeTableWord 32 0b11011010000000_1011_0101000_0000000 = some (.capld ⟨11, 40⟩) ∧
    decodeTableWord 32 0b11011100000000_1001_000_1101_1010001 = some (.capnar ⟨9, 13, 81⟩) ∧
    decodeTableWord 32 0b11011110000_1000111_0010010_1011101 = some (.launch ⟨71, 18, 93⟩) := by
  decide

/-- Words of the constructors from `fdiv` to `voteEq`, in the order of the opcode table. -/
theorem test_words_8 :
    decodeTableWord 32 0b1110000_0_111_1101001_0001011_0000000 = some (.fdiv ⟨false, 7, 105, 11⟩) ∧
    decodeTableWord 32 0b1110000_1_100_1110101_1101110_0000001 = some (.fsqrt ⟨true, 4, 117, 110⟩) ∧
    decodeTableWord 32 0b1110000_0_001_0000001_1010001_0000010 = some (.frcpF32 ⟨false, 1, 1, 81⟩) ∧
    decodeTableWord 32 0b1110000_1_110_0001101_0110100_0000011 = some (.frcpF16 ⟨true, 6, 13, 52⟩) ∧
    decodeTableWord 32 0b1110000_0_011_0011001_0010111_0000100 = some (.frsqF32 ⟨false, 3, 25, 23⟩) ∧
    decodeTableWord 32 0b1110000_1_000_0100101_1111010_0000101 = some (.frsqF16 ⟨true, 0, 37, 122⟩) ∧
    decodeTableWord 32 0b1110000_0_101_0110001_1011101_0000110 = some (.fexp2F32 ⟨false, 5, 49, 93⟩) ∧
    decodeTableWord 32 0b1110000_1_010_0111101_1000000_0000111 = some (.fexp2F16 ⟨true, 2, 61, 64⟩) ∧
    decodeTableWord 32 0b1110000_0_111_1001001_0100011_0001000 = some (.flog2F32 ⟨false, 7, 73, 35⟩) ∧
    decodeTableWord 32 0b1110000_1_100_1010101_0000110_0001001 = some (.flog2F16 ⟨true, 4, 85, 6⟩) ∧
    decodeTableWord 32 0b1110000_0_001_1100001_1101001_0001010 = some (.frnd ⟨false, 1, 97, 105⟩) ∧
    decodeTableWord 32 0b1110000_1_000_0001110_1101101_0001011 = some (.fclass ⟨true, 14, 109⟩) ∧
    decodeTableWord 32 0b11100010000_0001101_0000_011_0000000 = some (.voteAny ⟨13, 3⟩) ∧
    decodeTableWord 32 0b11100010000_1101011_0000_000_0000001 = some (.voteAll ⟨107, 0⟩) ∧
    decodeTableWord 32 0b11100010000_1001001_0000_101_0000010 = some (.voteBallot ⟨73, 5⟩) ∧
    decodeTableWord 32 0b11100010000_0100111_1100010_0000011 = some (.voteEq ⟨39, 98⟩) := by
  decide

/-- Words of the constructors from `rodredIadd` to `shflXor`, in the order of the opcode table. -/
theorem test_words_9 :
    decodeTableWord 32 0b11100010000_0000101_0010111_0001000 = some (.rodredIadd ⟨5, 23⟩) ∧
    decodeTableWord 32 0b11100010_011_1001100_0110101_0001001 = some (.rodredFadd ⟨3, 76, 53⟩) ∧
    decodeTableWord 32 0b11100010000_1000001_0000001_0001010 = some (.rodredSmin ⟨65, 1⟩) ∧
    decodeTableWord 32 0b11100010000_0011111_0110110_0001011 = some (.rodredSmax ⟨31, 54⟩) ∧
    decodeTableWord 32 0b11100010000_1111101_1101011_0001100 = some (.rodredNmin ⟨125, 107⟩) ∧
    decodeTableWord 32 0b11100010000_1011011_0100000_0001101 = some (.rodredNmax ⟨91, 32⟩) ∧
    decodeTableWord 32 0b11100010000_0111001_1010101_0001110 = some (.rodredAnd ⟨57, 85⟩) ∧
    decodeTableWord 32 0b11100010000_0010111_0001010_0001111 = some (.rodredOr ⟨23, 10⟩) ∧
    decodeTableWord 32 0b11100010000_1110101_0111111_0010000 = some (.rodscanIaddInc ⟨117, 63⟩) ∧
    decodeTableWord 32 0b11100010000_1010011_1110100_0010001 = some (.rodscanIaddExc ⟨83, 116⟩) ∧
    decodeTableWord 32 0b11100010_001_0101001_0100001_0010010 = some (.rodscanFaddInc ⟨1, 41, 33⟩) ∧
    decodeTableWord 32 0b11100010_111_1011110_0101101_0010011 = some (.rodscanFaddExc ⟨7, 94, 45⟩) ∧
    decodeTableWord 32 0b11100010000_1101101_0010011_0011000 = some (.shflIdx ⟨109, 19⟩) ∧
    decodeTableWord 32 0b11100010000_1001011_1001000_0011001 = some (.shflUp ⟨75, 72⟩) ∧
    decodeTableWord 32 0b11100010000_0101001_1111101_0011010 = some (.shflDown ⟨41, 125⟩) ∧
    decodeTableWord 32 0b11100010000_0000111_0110010_0011011 = some (.shflXor ⟨7, 50⟩) := by
  decide

/-- Words of the constructors from `pmovReg` to `fenceAcqrel`, in the order of the opcode table. -/
theorem test_words_10 :
    decodeTableWord 32 0b111001000000000_101_1100111_0000000 = some (.pmovReg ⟨5, 103⟩) ∧
    decodeTableWord 32 0b111001000000000_011_0000_100_0000001 = some (.pmovPred ⟨3, 4⟩) ∧
    decodeTableWord 32 0b11100100000_0100001_00000000000010 = some (.pxout ⟨33⟩) ∧
    decodeTableWord 32 0b11100100000_1111111_0000110_0000011 = some (.gets ⟨127, 6⟩) ∧
    decodeTableWord 32 0b11100100000_1011101_0111011_0000100 = some (.sets ⟨93, 59⟩) ∧
    decodeTableWord 32 0b1110010_1_000_1110000_00000000000101 = some (.rdclk ⟨true, 112⟩) ∧
    decodeTableWord 32 0b111001000000000000_0011001_0000110 = some (.setfmt ⟨25⟩) ∧
    decodeTableWord 32 0b11100100_111_0000000_1011010_0000111 = some (.setmode ⟨7, 90⟩) ∧
    decodeTableWord 32 0b11100100_101_000000000000000001000 = some (.wbase ⟨5⟩) ∧
    decodeTableWord 32 0b1110010000000000_11_1000100_0001001 = some (.segld ⟨3, 68⟩) ∧
    decodeTableWord 32 0b11100100000000000000000000001010 = some .eret ∧
    decodeTableWord 32 0b11100100000000000000000000001011 = some .yield ∧
    decodeTableWord 32 0b111001000_01_1100011_000_1001_0001100 = some (.caprd ⟨1, 99, 9⟩) ∧
    decodeTableWord 32 0b11100110_011_000000000000000000000 = some (.fenceAcq ⟨3⟩) ∧
    decodeTableWord 32 0b11100110_001_000000000000000000001 = some (.fenceRel ⟨1⟩) ∧
    decodeTableWord 32 0b11100110_111_000000000000000000010 = some (.fenceAcqrel ⟨7⟩) := by
  decide

/-- Words of the constructors from `fenceSc` to `dqblk`, in the order of the opcode table. -/
theorem test_words_11 :
    decodeTableWord 32 0b11100110_101_000000000000000000011 = some (.fenceSc ⟨5⟩) ∧
    decodeTableWord 32 0b11100110_011_0000_100_0000_101_0000100 = some (.xfence ⟨3, 4, 5⟩) ∧
    decodeTableWord 32 0b11100110_001_000000000000000000101 = some (.flush ⟨1⟩) ∧
    decodeTableWord 32 0b11100110_111_000000000000000000110 = some (.flushInv ⟨7⟩) ∧
    decodeTableWord 32 0b1110011000_0_000_1011_00000000000111 = some (.bar ⟨false, 11⟩) ∧
    decodeTableWord 32 0b1110011_1_000_1100101_0001010_0001000 = some (.waitv ⟨true, 0, 101, 10⟩) ∧
    decodeTableWord 32 0b1110011_0_101_1110001_1101101_0001001 = some (.waitvS64 ⟨false, 5, 113, 109⟩) ∧
    decodeTableWord 32 0b1110011_1_010_0000000_1111101_0001010 = some (.pref ⟨true, 2, 125⟩) ∧
    decodeTableWord 32 0b111010000000000000_0110101_0000000 = some (.burst ⟨53⟩) ∧
    decodeTableWord 32 0b1110100_1_000_0010100_0010101_0000001 = some (.chadv ⟨true, 20, 21⟩) ∧
    decodeTableWord 32 0b1110100_0_000_1001001_0100001_0000010 = some (.edgeget ⟨false, 73, 33⟩) ∧
    decodeTableWord 32 0b1110100_1_000_1111110_0101101_0000011 = some (.edgeput ⟨true, 126, 45⟩) ∧
    decodeTableWord 32 0b1110100_0_000_0110011_0111001_0000100 = some (.qpop ⟨false, 51, 57⟩) ∧
    decodeTableWord 32 0b1110100_1_000_1101000_1000101_0000101 = some (.qpush ⟨true, 104, 69⟩) ∧
    decodeTableWord 32 0b11101010_001_0011101_1010001_0000000 = some (.qblk ⟨1, 29, 81⟩) ∧
    decodeTableWord 32 0b11101010_111_1010010_1011101_0000001 = some (.dqblk ⟨7, 82, 93⟩) := by
  decide

/-! ### Fields that make an illegal encoding -/

/-- Words whose register kinds or parities are wrong (R42, R43, R69, R70 and the entries). -/
theorem test_operand_kinds :
    [Instr.callReg ⟨5, 98⟩, .cont ⟨3⟩, .ret ⟨3⟩, .upcall ⟨false, 6, 4, 5⟩, .iadd ⟨false, false, false, true, 3, 2, 2⟩,
      .iaddImm ⟨true, false, false, false, 3, 98, 0⟩, .icmpS ⟨0, true, 1, 3, 4⟩, .idot4 ⟨false, false, false, 100, 2, 3⟩,
      .itof ⟨false, 1, 2, 3, 0, 2⟩, .ftoi ⟨false, 1, 3, 2, 0, 2⟩, .mov ⟨true, false, 100, 2⟩, .movi ⟨false, 100, 0⟩,
      .fcvt ⟨true, 1, 2, 98, 1⟩, .acas ⟨false, true, 6, 2, 0, false, 1⟩, .tex ⟨0, 6, 4, 98⟩, .capnar ⟨2, 1, 99⟩,
      .voteAny ⟨5, 1⟩, .voteEq ⟨100, 98⟩, .rodredIadd ⟨5, 2⟩, .shflIdx ⟨100, 2⟩, .pxout ⟨100⟩, .gets ⟨100, 3⟩, .sets ⟨0, 5⟩,
      .rdclk ⟨false, 3⟩, .setfmt ⟨5⟩, .setmode ⟨0, 5⟩, .segld ⟨0, 5⟩, .caprd ⟨0, 5, 1⟩, .pref ⟨true, 3, 2⟩, .burst ⟨2⟩,
      .qpop ⟨false, 18, 98⟩, .ld ⟨false, 6, 2, 1, 0, false, 3⟩, .st ⟨true, 4, 5, 1, 0, false, 98⟩, .stn ⟨true, 100, 1, 0, false, 3⟩,
      .ldlS ⟨false, 5, 3, 0, 2⟩, .stlS ⟨false, 5, 3, 2⟩, .amax64 ⟨false, 3, 1, 0, false, 2⟩, .atomS64 ⟨false, 0, 3, 1, 0, false, 2⟩,
      .trace ⟨false, 8, 4, 98⟩, .vmarch ⟨8, 88, 98⟩, .ttask ⟨false, 4⟩, .infer ⟨false, 8, 2, 4⟩, .sumset ⟨false, 5, 98, 99⟩,
      .sumsend ⟨true, 100, 5⟩, .sumfree ⟨2⟩, .wbind ⟨false, 1, 4, 5⟩, .wtouch ⟨false, 98⟩, .rand ⟨false, false, 4, 3, 6⟩,
      .capld ⟨1, 5⟩, .launch ⟨98, 5, 98⟩, .fdiv ⟨true, 0, 100, 5⟩, .fclass ⟨false, 100, 5⟩, .rodscanIaddInc ⟨3, 98⟩,
      .waitv ⟨true, 0, 100, 3⟩, .waitvS64 ⟨false, 0, 3, 4⟩, .chadv ⟨false, 3, 98⟩, .edgeget ⟨false, 3, 98⟩,
      .edgeput ⟨false, 2, 3⟩, .qblk ⟨0, 8, 12⟩, .dqblk ⟨0, 8, 16⟩, .and ⟨false, true, 4, 5, 6⟩, .andImm ⟨true, false, 4, 98, 0⟩,
      .shadd ⟨false, 0, 98, 2, 3⟩, .sel ⟨true, 0, 98, 2, 99⟩, .ilv ⟨true, false, 98, 99, 3⟩, .unpk3 ⟨false, 98, 2, 3⟩,
      .tacc ⟨true, false, 8, 98, 99⟩, .faddF32 ⟨false, 0, 98, 2, 3⟩, .fmin ⟨true, false, 98, 99, 2⟩].all
      (fun i => decide (i.wellFormed = false ∧ i.illegal? = some .operandKind)) = true := by decide +kernel

/-- Words with a value that no table assigns (R63 to R75, R49). -/
theorem test_reserved_fields :
    [Instr.bra ⟨0, true, 8⟩, .icmpS ⟨6, false, 1, 2, 3⟩, .itof ⟨false, 1, 2, 3, 3, 0⟩, .fcvt ⟨false, 1, 2, 3, 11⟩,
      .gets ⟨100, 17⟩, .sets ⟨13, 98⟩, .setmode ⟨1, 98⟩, .fenceSc ⟨7⟩, .flush ⟨1⟩, .brpAll ⟨0, true, 8⟩,
      .ftoi ⟨false, 1, 2, 3, 3, 0⟩, .ld ⟨false, 7, 4, 1, 0, false, 2⟩, .ld ⟨false, 4, 4, 1, 3, false, 2⟩,
      .st ⟨false, 1, 4, 1, 0, false, 2⟩, .st ⟨false, 4, 4, 1, 2, false, 2⟩, .stn ⟨false, 4, 1, 2, false, 2⟩, .ldlS ⟨false, 4, 4, 3, 2⟩,
      .stlS ⟨false, 3, 4, 2⟩, .atomS32 ⟨false, 7, 4, 1, 0, false, 2⟩, .tex ⟨5, 8, 4, 98⟩, .xfence ⟨4, 0, 0⟩].all
      (fun i => decide (i.wellFormed = false ∧ i.illegal? = some .reservedField)) = true := by decide +kernel

theorem test_illegal_word : (Instr.illegal ⟨0⟩).illegal? = some .illegalWord := rfl

/-! ### One step of a word of the manual, on the operands of the manual, gives the value of the manual -/

/-- The rod after one step of a word. -/
def ran (r : Rod) (w : Word) : Rod :=
  match decode w with
  | .ok i => (nextOf (exec i (benchOf r))).rods.headD rod
  | .error _ => rod

/-- A rod whose bead 0 alone is active, with values in its v registers. -/
def rodWith (l : List (BitVec 7 × Word)) : Rod := l.foldl (fun q x => q.setV 0 x.1 x.2) { rod with active := 1 }

/-- What one step of a word leaves in a register of bead 0, and in MODE's sticky flags PK, IS, NV, DZ, OF, UF, NX. -/
def gives (w : Word) (l : List (BitVec 7 × Word)) (d : BitVec 7) : Word × BitVec 7 :=
  ((ran (rodWith l) w).vreg 0 d, (ran (rodWith l) w).mode.extractLsb' 16 7)

/-- The results of R372 to R379, the next ten too. -/
theorem test_iadd : gives 0x2000C082 [(1, 0x7ffffff0), (2, 0x20)] 3 = (0x80000010, 0) ∧
    gives 0x2080C082 [(1, 0x7ffffff0), (2, 0x20)] 3 = (0x7FFFFFFF, 32) := by decide +kernel

/-- ISUB. -/
theorem test_isub_saturates : gives 0x24C0C082 [(1, 0x5), (2, 0x9)] 3 = (0, 32) := by decide +kernel

/-- IMULHI. -/
theorem test_imulhi : gives 0x2A40C082 [(1, 0xffffffff), (2, 0xffffffff)] 3 = (0xFFFFFFFE, 0) ∧
    gives 0x2A00C082 [(1, 0xffffffff), (2, 0xffffffff)] 3 = (0, 0) := by decide +kernel

/-- IDIV. -/
theorem test_idiv : gives 0x2E00C082 [(1, 0xfffffff9), (2, 0x2)] 3 = (0xFFFFFFFD, 0) ∧
    gives 0x2E00C082 [(1, 0x7), (2, 0x0)] 3 = (0xFFFFFFFF, 8) := by decide +kernel

/-- IREM. -/
theorem test_irem : gives 0x3000C082 [(1, 0xfffffff9), (2, 0x2)] 3 = (0xFFFFFFFF, 0) ∧
    gives 0x3000C082 [(1, 0x7), (2, 0x0)] 3 = (7, 8) := by decide +kernel

/-- IDOT4. -/
theorem test_idot4_saturates : gives 0x3E80C082 [(1, 0x7f7f7f7f), (2, 0x7f7f7f7f), (3, 0x7ffffff0)] 3 = (0x7FFFFFFF, 32) := by decide +kernel

/-- IABS. -/
theorem test_iabs_of_least : gives 0x4000C080 [(1, 0x80000000)] 3 = (0x80000000, 0) := by decide +kernel

/-- ISAD. -/
theorem test_isad : gives 0x3C00C082 [(1, 0x3), (2, 0xa), (3, 0x64)] 3 = (0x6B, 0) := by decide +kernel

/-- ICLAMP. -/
theorem test_iclamp : gives 0x3600C082 [(1, 0xa), (2, 0x14), (3, 0x19)] 3 = (0x14, 0) := by decide +kernel

/-- The results of R336. -/
theorem test_bfx : gives 0x7200C082 [(1, 0x8000f0a5), (2, 0x804)] 3 = (0xA, 0) ∧
    gives 0x7200C082 [(1, 0x8000f0a5), (2, 0x10808)] 3 = (0xFFFFFFF0, 0) ∧
    gives 0x7200C082 [(1, 0x8000f0a5), (2, 0x1081c)] 3 = (0xFFFFFFF8, 0) ∧
    gives 0x7200C082 [(1, 0x8000f0a5), (2, 0x828)] 3 = (0, 0) := by decide +kernel

/-- The result of R336. -/
theorem test_bfi : gives 0x7400C082 [(1, 0xabcd), (2, 0xc08), (3, 0x12345678)] 3 = (0x123BCD78, 0) := by decide +kernel

/-- R338. -/
theorem test_brev : gives 0x70008380 [(7, 0x1)] 2 = (0x80000000, 0) := by decide +kernel

/-- R348. -/
theorem test_clz : gives 0x6C024180 [(3, 0x1)] 9 = (31, 0) ∧
    gives 0x6C024180 [(3, 0x0)] 9 = (32, 0) := by decide +kernel

/-- R353. -/
theorem test_ilv_three : gives 0x76218082 [(1, 0x5), (2, 0x3), (6, 0x1)] 6 = (0x57, 0) := by decide +kernel

/-- R353. -/
theorem test_dilv_three : gives 0x7821C303 [(6, 0x57), (3, 0x0)] 7 = (5, 0) ∧
    gives 0x7821C303 [(6, 0x57), (3, 0x1)] 7 = (3, 0) ∧
    gives 0x7821C303 [(6, 0x57), (3, 0x2)] 7 = (1, 0) := by decide +kernel

/-- The worked example of one rounding or two, and its word with the rounding RDN. -/
theorem test_fmul : gives 0x88210082 [(1, 0x3f800400), (2, 0x3f7ff800)] 4 = (0x3F800000, 1) ∧
    gives 0x88610082 [(1, 0x3f800400), (2, 0x3f7ff800)] 4 = (0x3F7FFFFF, 1) := by decide +kernel

/-- The same example. -/
theorem test_fadd : gives 0x80214203 [(4, 0x3f800000), (3, 0xbf800000)] 5 = (0, 0) ∧
    gives 0x80614203 [(4, 0x3f7fffff), (3, 0xbf800000)] 5 = (0xB3800000, 0) := by decide +kernel

/-- The same example. -/
theorem test_fma : gives 0x8E20C082 [(1, 0x3f800400), (2, 0x3f7ff800), (3, 0xbf800000)] 3 = (0xB2800000, 0) := by decide +kernel

/-- The rows 2.75 and -300 of R115. -/
theorem test_fcvt_exact_and_inexact : gives 0x9E008081 [(1, 0x40300000)] 2 = (0x4180, 0) ∧
    gives 0x9E008082 [(1, 0x40300000)] 2 = (0x4030, 0) ∧
    gives 0x9E008083 [(1, 0x40300000)] 2 = (0x43, 0) ∧
    gives 0x9E008084 [(1, 0x40300000)] 2 = (0x42, 1) ∧
    gives 0x9E008085 [(1, 0x40300000)] 2 = (0x12, 1) ∧
    gives 0x9E008086 [(1, 0x40300000)] 2 = (0x13, 0) ∧
    gives 0x9E008087 [(1, 0x40300000)] 2 = (0x5, 1) ∧
    gives 0x9E008088 [(1, 0x40300000)] 2 = (0x56, 0) ∧
    gives 0x9E008089 [(1, 0x40300000)] 2 = (0x16, 1) ∧
    gives 0x9E008081 [(1, 0xc3960000)] 2 = (0xDCB0, 0) ∧
    gives 0x9E008082 [(1, 0xc3960000)] 2 = (0xC396, 0) ∧
    gives 0x9E008083 [(1, 0xc3960000)] 2 = (0xF9, 1) ∧
    gives 0x9E008084 [(1, 0xc3960000)] 2 = (0xDD, 1) ∧
    gives 0x9E008085 [(1, 0xc3960000)] 2 = (0x3F, 5) ∧
    gives 0x9E008086 [(1, 0xc3960000)] 2 = (0x3F, 5) ∧
    gives 0x9E008087 [(1, 0xc3960000)] 2 = (0xF, 5) ∧
    gives 0x9E008088 [(1, 0xc3960000)] 2 = (0xFC, 1) ∧
    gives 0x9E008089 [(1, 0xc3960000)] 2 = (0x20, 5) := by decide +kernel

/-- The row 2^-20 of R115. -/
theorem test_fcvt_small : gives 0x9E008081 [(1, 0x35800000)] 2 = (0x10, 0) ∧
    gives 0x9E008082 [(1, 0x35800000)] 2 = (0x3580, 0) ∧
    gives 0x9E008083 [(1, 0x35800000)] 2 = (0, 3) ∧
    gives 0x9E008084 [(1, 0x35800000)] 2 = (0, 3) ∧
    gives 0x9E008085 [(1, 0x35800000)] 2 = (0, 3) ∧
    gives 0x9E008086 [(1, 0x35800000)] 2 = (0, 3) ∧
    gives 0x9E008087 [(1, 0x35800000)] 2 = (0, 3) ∧
    gives 0x9E008088 [(1, 0x35800000)] 2 = (0, 3) ∧
    gives 0x9E008089 [(1, 0x35800000)] 2 = (0, 3) := by decide +kernel

/-- The results of R368. -/
theorem test_ftoi : gives 0x4620C080 [(1, 0xc0200000)] 3 = (0xFFFFFFFE, 1) ∧
    gives 0x4640C080 [(1, 0x4f32d05e)] 3 = (0x7FFFFFFF, 16) ∧
    gives 0x4640C081 [(1, 0xbf800000)] 3 = (0, 16) ∧
    gives 0x4640C080 [(1, 0x7fc00000)] 3 = (0, 16) := by decide +kernel

/-- R380. -/
theorem test_itof : gives 0x44008085 [(1, 0x186a0)] 2 = (0x7C00, 5) := by decide +kernel

/-- R388. -/
theorem test_movi : gives 0x68065678 [] 3 = (0x5678, 0) ∧
    gives 0x6809FFFF [] 4 = (0xFFFFFFFF, 0) := by decide +kernel

/-- R389. -/
theorem test_movhi : gives 0x6A062468 [(3, 0x5678)] 3 = (0x12345678, 0) := by decide +kernel

/-- R412. -/
theorem test_shadd : gives 0x6240C082 [(1, 0x5), (2, 0x100)] 3 = (0x114, 0) := by decide +kernel

/-- R414. -/
theorem test_shl_by_width : gives 0x5600C082 [(1, 0x800000f0), (2, 0x20)] 3 = (0, 0) := by decide +kernel

/-- R414. -/
theorem test_shr : gives 0x5A00C082 [(1, 0x800000f0), (2, 0x4)] 3 = (0x0800000F, 0) := by decide +kernel

/-- R414. -/
theorem test_sra : gives 0x5E00C082 [(1, 0x800000f0), (2, 0x4)] 3 = (0xF800000F, 0) ∧
    gives 0x5E00C082 [(1, 0x800000f0), (2, 0x28)] 3 = (0xFFFFFFFF, 0) := by decide +kernel

/-- The worked example of R423, and its illegal byte. -/
theorem test_unpk3 : gives 0x7A018103 [(2, 0xf52e)] 6 = (0x71, 0) ∧
    gives 0x7A01C103 [(2, 0xf52e), (3, 0x1)] 7 = (0, 64) := by decide +kernel

/-- The same example. -/
theorem test_tacc : gives 0x7C02030A [(6, 0x71), (10, 0x207fd0a), (8, 0x64)] 8 = (105, 0) := by decide +kernel

/-- What one step of a word leaves in a register of the beads 0 to 5. -/
def beadsGive (w : Word) (r : Rod) (d : BitVec 7) : List Word := (List.range 6).map fun k => (ran r w).vreg k d

/-- The rod of the worked scan: the beads 0, 2, 3 and 5 are active. -/
def scanRod : Rod :=
  [(0, 5), (1, 0), (2, 7), (3, 1), (4, 0), (5, 2)].foldl (fun q x => q.setV x.1 2 x.2)
    { placedFrame.newRod 1 0 0 0 6 1 0 0x10000 with active := 0x2D }

/-- The worked example of a scan on one path. -/
theorem test_scan : beadsGive 0xE200C111 scanRod 3 = [0, 0, 5, 12, 0, 13] ∧ (ran scanRod 0xE2194108).sreg 5 = 15 ∧
    (ran scanRod 0xE219810B).sreg 6 = 7 := by decide +kernel

/-- The first instruction of the example: p1 is set in the beads whose v2 is not 0. -/
theorem test_icmp : ((List.range 6).map fun k => (ran { scanRod with active := 0x3F } 0x38204160).pred k 1) =
    [true, false, true, true, false, true] := by decide +kernel

/-- The table of R413: the beads 0, 1 and 3 are active. -/
theorem test_shfl_xor :
    (beadsGive 0xE200C29B ([(0, 10), (1, 11), (2, 12), (3, 13)].foldl (fun q x => (q.setV x.1 5 x.2).setV x.1 3 1)
      { rod with active := 0xB }) 3).take 4 = [11, 10, 1, 13] := by decide +kernel

/-- BRA of R337: two words ahead for the beads whose p2 is 0, all of them. -/
theorem test_bra : (ran rod 0x04500002).pc = 0x10008 := by decide +kernel

/-- SETS of MODE after R411: NX is cleared, PK stays. -/
theorem test_sets_mode : (ran ({ rod with mode := 0x410001 }.setS 5 0x10001) 0xE4003284).mode = 0x400001 := by decide +kernel

/-- A block there: the worked example of R399. -/
theorem test_qblk :
    (fun r : Rod => (r.vreg 0 8, r.vreg 0 9, r.vreg 0 16, r.mode))
      (ran { rodWith [(32, 0x43960000), (33, 0x40300000)] with fmt := 0x40 } 0xEA221000) =
    (0x4379, 0, 0x17F, 0x10001) := by decide +kernel

/-- And back. -/
theorem test_dqblk :
    (fun r : Rod => (r.vreg 0 64, r.vreg 0 65, r.vreg 0 66, r.mode))
      (ran { rodWith [(8, 0x4379), (16, 0x17F)] with fmt := 0x40 } 0xEA300401) = (0x43900000, 0x40300000, 0, 1) := by
  decide +kernel

/-- The worked counter of R332: the beads add 1, 2, 3 and 4 in their order. -/
theorem test_atom_add :
    (fun s : State => (((List.range 4).map fun k => (s.rods.headD rod).vreg k 2), s.bytesAt 0x100000 4))
      (nextOf (exec (.atomS32 ⟨false, 0, 2, 0, 0, false, 1⟩)
        (mapped (([0, 1, 2, 3].foldl (fun q k => q.setV k 2 (BitVec.ofNat 32 (k + 1))) rod).setCap 0 cap5) []))) =
    ([0, 1, 3, 6], [10, 0, 0, 0]) := by decide +kernel

/-- The two nibble stores of R134 into one byte. -/
theorem test_stn :
    (fun s : State => s.bytesAt 0x100150 1)
      (nextOf (exec (.stn ⟨false, 1, 3, 0, false, 0⟩)
        (mapped ((((({ rod with active := 3 }.setV 0 0 0x2A0).setV 0 1 0x5).setV 1 0 0x2A1).setV 1 1 0xB).setCap 3 cap5) []))) =
    [0xB5] := by decide +kernel

/-! ### Witnesses: values -/

/-- The rod with operands in v2 to v7 of bead 0, and in s2 and s3. -/
def valueRod : Rod :=
  ((((rod.setV 0 2 0x7FFFFFFF).setV 0 3 1).setV 0 4 0x40000000).setS 2 0x3F800000).setS 3 2

theorem witness_integer : ∀ i ∈ [Instr.iadd ⟨false, true, false, false, 5, 2, 3⟩, .iaddImm ⟨true, false, true, true, 100, 98, 127⟩,
    .isub ⟨false, true, true, false, 5, 3, 2⟩, .imul ⟨false, false, false, false, 5, 2, 3⟩, .imulImm ⟨false, false, false, false, 5, 2, 64⟩,
    .imad ⟨false, false, false, true, 6, 2, 4⟩, .imulhi ⟨false, true, false, 5, 2, 3⟩, .imin ⟨false, false, false, 5, 2, 3⟩,
    .imax ⟨false, false, false, 5, 2, 3⟩, .iclamp ⟨false, false, false, 5, 2, 3⟩, .idiv ⟨false, false, false, 5, 2, 6⟩,
    .irem ⟨false, false, false, 5, 2, 6⟩, .isad ⟨false, false, false, 5, 2, 3⟩, .idot4 ⟨false, true, false, 5, 2, 3⟩,
    .iabs ⟨false, true, false, 5, 2⟩, .ineg ⟨false, true, false, 5, 2⟩],
    ∃ x, integerEffect i = some x ∧ Issues (benchOf valueRod) valueRod i ∧ valueRod.untrapped (uniform i) (x.value valueRod) :=
  valuesMeet_spec (by decide +kernel)

theorem witness_bitwise : ∀ i ∈ [Instr.and ⟨false, false, 5, 2, 3⟩, .andImm ⟨false, false, 5, 2, 127⟩, .andn ⟨false, false, 5, 2, 3⟩,
    .or ⟨false, true, 6, 2, 4⟩, .orImm ⟨false, false, 5, 2, 1⟩, .xor ⟨true, true, 100, 98, 99⟩, .xorImm ⟨false, false, 5, 2, 1⟩,
    .shl ⟨false, false, 5, 2, 3⟩, .shlImm ⟨false, false, 5, 2, 32⟩, .shr ⟨false, false, 5, 2, 3⟩, .shrImm ⟨false, false, 5, 2, 31⟩,
    .sra ⟨false, false, 5, 2, 3⟩, .sraImm ⟨false, false, 5, 2, 127⟩, .shadd ⟨false, 7, 5, 2, 3⟩, .sel ⟨false, 0, 5, 2, 3⟩,
    .mov ⟨false, false, 5, 2⟩, .movi ⟨true, 100, 0x1FFFF⟩, .movhi ⟨false, 5, 0x1FFFF⟩],
    ∃ x, bitwiseEffect i = some x ∧ Issues (benchOf valueRod) valueRod i ∧ valueRod.untrapped (uniform i) (x.value valueRod) :=
  valuesMeet_spec (by decide +kernel)

theorem witness_fields : ∀ i ∈ [Instr.clz ⟨false, false, 5, 3⟩, .popc ⟨false, false, 5, 2⟩, .brev ⟨false, false, 5, 3⟩,
    .bfx ⟨false, false, 5, 2, 3⟩, .bfi ⟨false, false, 5, 2, 3⟩, .ilv ⟨false, true, 5, 2, 3⟩, .dilv ⟨false, false, 5, 2, 3⟩,
    .unpk3 ⟨false, 5, 2, 3⟩, .tacc ⟨false, true, 5, 3, 2⟩, .pxout ⟨5⟩],
    ∃ x, fieldEffect i = some x ∧ Issues (benchOf valueRod) valueRod i ∧ valueRod.untrapped (uniform i) (x.value valueRod) :=
  valuesMeet_spec (by decide +kernel)

theorem witness_float : ∀ i ∈ [Instr.faddF32 ⟨false, 0, 5, 4, 98⟩, .faddF16 ⟨false, 1, 5, 4, 98⟩, .faddBf16 ⟨false, 2, 5, 4, 98⟩,
    .fsub ⟨false, 3, 5, 4, 98⟩, .fmulF32 ⟨false, 4, 5, 4, 98⟩, .fmulF16 ⟨false, 0, 5, 4, 98⟩, .fmulBf16 ⟨false, 0, 5, 4, 98⟩,
    .fmaF32 ⟨false, 0, 5, 4, 98⟩, .fmaF16 ⟨false, 0, 5, 4, 98⟩, .fmaBf16 ⟨false, 0, 5, 4, 98⟩, .hfma2F16 ⟨false, 0, 5, 4, 98⟩,
    .hfma2Bf16 ⟨false, 0, 5, 4, 98⟩, .fdiv ⟨false, 0, 5, 4⟩, .fsqrt ⟨false, 0, 5, 4⟩, .frcpF32 ⟨false, 0, 5, 4⟩,
    .frcpF16 ⟨false, 0, 5, 4⟩, .frsqF32 ⟨false, 0, 5, 4⟩, .frsqF16 ⟨false, 0, 5, 4⟩, .fexp2F32 ⟨false, 0, 5, 3⟩,
    .fexp2F16 ⟨false, 0, 5, 3⟩, .flog2F32 ⟨false, 0, 5, 4⟩, .flog2F16 ⟨false, 0, 5, 4⟩],
    ∃ x, floatEffect i = some x ∧ Issues (benchOf valueRod) valueRod i ∧ valueRod.untrapped (uniform i) (x.value valueRod) :=
  valuesMeet_spec (by decide +kernel)

theorem witness_convert : ∀ i ∈ [Instr.fmin ⟨false, false, 5, 4, 98⟩, .fmax ⟨false, true, 5, 4, 98⟩, .fclass ⟨false, 5, 4⟩,
    .fcvt ⟨false, 0, 5, 4, 1⟩, .frnd ⟨false, 0, 5, 4⟩, .itof ⟨false, 0, 5, 2, 2, 3⟩, .ftoi ⟨false, 0, 5, 4, 0, 1⟩,
    .rand ⟨false, true, 5, 2, 4⟩],
    ∃ x, convertEffect i = some x ∧ Issues (benchOf valueRod) valueRod i ∧ valueRod.untrapped (uniform i) (x.value valueRod) :=
  valuesMeet_spec (by decide +kernel)

theorem witness_predicates : ∀ i ∈ [Instr.icmpS ⟨5, false, 1, 2, 3⟩, .icmpN ⟨0, true, 7, 2, 4⟩, .fcmp ⟨0, 1, 4, 98⟩, .plog ⟨7, 1, 2, 0⟩,
    .pmovReg ⟨2, 3⟩, .pmovPred ⟨2, 0⟩], ∃ p v, predicateEffect i = some (p, v) ∧ Issues (benchOf valueRod) valueRod i ∧
    ∀ k ∈ valueRod.issuing, (v valueRod k).2 &&& trapEnables valueRod.mode = 0 := by
  have h : [Instr.icmpS ⟨5, false, 1, 2, 3⟩, .icmpN ⟨0, true, 7, 2, 4⟩, .fcmp ⟨0, 1, 4, 98⟩, .plog ⟨7, 1, 2, 0⟩,
      .pmovReg ⟨2, 3⟩, .pmovPred ⟨2, 0⟩].all (fun i => (predicateEffect i).any fun y => canIssue (benchOf valueRod) valueRod i &&
        valueRod.issuing.all fun k => decide ((y.2 valueRod k).2 &&& trapEnables valueRod.mode = 0)) = true := by decide +kernel
  intro i hi
  have h1 := List.all_eq_true.mp h i hi
  obtain ⟨y, hy, h2⟩ := Option.any_eq_true .. |>.mp h1
  simp only [Bool.and_eq_true, List.all_eq_true, decide_eq_true_eq] at h2
  exact ⟨y.1, y.2, hy, issues_of h2.1, h2.2⟩

/-- A rod with every condition enabled; v6 of bead 0 holds 1.0, v2 of bead 1 a signalling NaN. -/
def trapRod : Rod := { (rod.setV 0 6 0x3F800000).setV 1 2 0x7F800001 with mode := 0x7F01, fmt := 0 }

/-- Infinities of both signs in v2 of the beads 0 and 3, and a scale record with reserved bits after v40 of bead 1. -/
def trapSumRod : Rod := ((trapRod.setV 0 2 0x7F800000).setV 3 2 0xFF800000).setV 1 48 0x8000

theorem witness_trap : ∃ (s : State) (r : Rod) (i : Instr) (x : Effect) (pre : List (Option Nat)) (bs : List (Option Nat)) (b : Option Nat),
    ((integerEffect i = some x ∨ floatEffect i = some x ∨ fieldEffect i = some x ∨ convertEffect i = some x)) ∧
    Issues s r i ∧
    r.parts (uniform i) = pre ++ b :: bs ∧
    (∀ a ∈ pre, (x.value r a).2 &&& trapEnables r.mode = 0) ∧
    (x.value r b).2 &&& trapEnables r.mode ≠ 0 :=
  ⟨benchOf trapRod, trapRod, .idiv ⟨false, false, false, 5, 2, 6⟩, _, [some 0], [some 2, some 3], some 1, .inl rfl, issues_of (by decide +kernel), by decide +kernel⟩

theorem witness_trap_fcmp : ∃ (s : State) (r : Rod) (i : Instr) (p : BitVec 3) (v : Rod → Nat → Bool × Conds) (pre : List Nat) (ks : List Nat) (k : Nat),
    predicateEffect i = some (p, v) ∧
    Issues s r i ∧
    r.issuing = pre ++ k :: ks ∧
    (∀ a ∈ pre, (v r a).2 &&& trapEnables r.mode = 0) ∧
    (v r k).2 &&& trapEnables r.mode ≠ 0 :=
  ⟨benchOf trapRod, trapRod, .fcmp ⟨0, 1, 2, 6⟩, _, _, [0], [2, 3], 1, rfl, issues_of (by decide +kernel), by decide +kernel⟩

theorem witness_trap_qblk : ∃ (s : State) (r : Rod) (f : ShRDA) (w : Nat) (tag : Nat) (fam : Family) (pre : List Nat) (ks : List Nat) (k : Nat),
    Issues s r (.qblk f) ∧
    r.blockFamily = some (w, tag, fam) ∧
    r.issuing = pre ++ k :: ks ∧
    (∀ a ∈ pre, (quantisedBy r f fam tag a).2.2 &&& trapEnables r.mode = 0) ∧
    (quantisedBy r f fam tag k).2.2 &&& trapEnables r.mode ≠ 0 :=
  ⟨benchOf trapRod, trapRod, ⟨0, 64, 0⟩, 8, 0, .float .tf8, [0], [2, 3], 1, issues_of (by decide +kernel), rfl, by decide +kernel⟩

theorem witness_trap_dqblk : ∃ (s : State) (r : Rod) (f : ShRDA) (w : Nat) (pre : List Nat) (ks : List Nat) (k : Nat),
    Issues s r (.dqblk f) ∧
    blockWidth (field r.fmt.toNat 8 3) = some w ∧
    r.issuing = pre ++ k :: ks ∧
    (∀ a ∈ pre, (dequantisedBy r f w a).2 &&& trapEnables r.mode = 0) ∧
    (dequantisedBy r f w k).2 &&& trapEnables r.mode ≠ 0 :=
  ⟨benchOf trapSumRod, trapSumRod, ⟨0, 0, 40⟩, 8, [0], [2, 3], 1, issues_of (by decide +kernel), rfl, by decide +kernel⟩

theorem witness_trap_sum : ∃ (s : State) (r : Rod) (f : ShRDA) (i : Instr),
    ((i = .rodredFadd f ∨ i = .rodscanFaddInc f ∨ i = .rodscanFaddExc f)) ∧
    Issues s r i ∧
    (r.floatScan f.r f.a).2 &&& trapEnables r.mode ≠ 0 :=
  ⟨benchOf trapSumRod, trapSumRod, ⟨1, 100, 2⟩, .rodredFadd ⟨1, 100, 2⟩, .inl rfl, issues_of (by decide +kernel), by decide +kernel⟩

theorem witness_root : ∃ (x : Nat) (n : Nat) (d : Nat),
    Fmt.f32.decode x = .fin false n d ∧
    0 < n :=
  ⟨0x40000000, 0x800000, 0x400000, by decide +kernel⟩

theorem witness_reciprocal_root : ∃ (f : Fmt) (x : Nat) (n : Nat) (d : Nat),
    (f = .f32 ∨ f = .f16) ∧
    f.decode x = .fin false n d ∧
    0 < n :=
  ⟨.f16, 0x4000, 1024, 512, .inr rfl, by decide +kernel⟩

theorem witness_rounded_integer : ∃ (den : Nat),
    0 < den :=
  ⟨2, by decide +kernel⟩

theorem witness_values_frame : ∃ (s : State) (t : State) (r : Rod) (i : Instr) (x : Effect),
    ((integerEffect i = some x ∨ bitwiseEffect i = some x ∨ fieldEffect i = some x ∨ floatEffect i = some x ∨
      convertEffect i = some x)) ∧
    Issues s r i ∧
    r.untrapped (uniform i) (x.value r) ∧
    exec i s = .next t :=
  ⟨benchOf valueRod, nextOf (exec (.iadd ⟨false, false, false, false, 5, 2, 3⟩) (benchOf valueRod)), valueRod, .iadd ⟨false, false, false, false, 5, 2, 3⟩, _, .inl rfl, issues_of (by decide +kernel), by unfold Rod.untrapped; decide +kernel, next_of (by decide +kernel)⟩

/-- The rod with codes of the class f8 in QF. -/
def blockRod : Rod := { (rod.setV 0 0 0x3F800000).setV 0 40 0x38 with fmt := 0 }

theorem witness_qblk : ∃ (s : State) (r : Rod) (f : ShRDA) (w : Nat) (tag : Nat) (fam : Family),
    Issues s r (.qblk f) ∧
    r.blockFamily = some (w, tag, fam) ∧
    (∀ k ∈ r.issuing, (quantisedBy r f fam tag k).2.2 &&& trapEnables r.mode = 0) :=
  ⟨benchOf blockRod, blockRod, ⟨0, 64, 0⟩, 8, 0, .float .tf8, issues_of (by decide +kernel), rfl, by decide +kernel⟩

theorem witness_dqblk : ∃ (s : State) (r : Rod) (f : ShRDA) (w : Nat),
    Issues s r (.dqblk f) ∧
    blockWidth (field r.fmt.toNat 8 3) = some w ∧
    (∀ k ∈ r.issuing, (dequantisedBy r f w k).2 &&& trapEnables r.mode = 0) :=
  ⟨benchOf blockRod, blockRod, ⟨0, 0, 40⟩, 8, issues_of (by decide +kernel), rfl, by decide +kernel⟩

theorem witness_primary : ∃ (w : Word),
    0x76 ≤ w.toNat / 2 ^ 25 :=
  ⟨0xFFFFFFFF, by decide +kernel⟩

theorem witness_zero : ∃ (w : Word),
    w.toNat / 2 ^ 25 = 0 :=
  ⟨0x01FFFFFF, by decide +kernel⟩

theorem witness_secondary : ∃ (w : Word),
    0x70 ≤ w.toNat / 2 ^ 25 ∧
    w.toNat / 2 ^ 25 ≤ 0x75 ∧
    w.toNat % 2 ^ 7 ∉ secondaries (w.toNat / 2 ^ 25) :=
  ⟨0xE200007F, by decide +kernel⟩

theorem witness_illegal : ∃ (s : State) (r : Rod) (i : Instr) (c : IllegalCause),
    s.curRod? = some r ∧
    i.illegal? = some c :=
  ⟨bench, rod, .illegal ⟨0⟩, .illegalWord, by decide +kernel⟩

theorem witness_ill_formed : ∃ (s : State) (r : Rod) (i : Instr) (c : IllegalCause),
    s.curRod? = some r ∧
    i.illegal? = some c :=
  ⟨bench, rod, .iadd ⟨true, false, false, false, 5, 2, 3⟩, .operandKind, by decide +kernel⟩

theorem witness_reserved_opcode : ∃ (s : State) (r : Rod) (w : Word) (c : IllegalCause),
    s.curRod? = some r ∧
    decode w = .error c :=
  ⟨bench, rod, 0xFFFFFFFF, .reservedOpcode, by decide +kernel, rfl⟩

theorem witness_brk : ∃ (s : State) (r : Rod) (i : Instr) (cause : Nat) (code : Nat) (epc : Addr),
    ((∃ f, i = .brk f ∧ cause = 1 ∧ code = f.i.toNat ∧ epc = r.pc) ∨ (∃ f, i = .trap f ∧ cause = 2 ∧ code = f.i.toNat ∧ epc = r.pc + 4)) ∧
    Issues s r i ∧
    24 ≤ r.s.length ∧
    r.handler = none ∧
    (s.begun r i).ctxHandler r.asid ≠ 0 :=
  ⟨mapped rod [(48, 6, 0x4000)], rod, .brk ⟨7⟩, 1, 7, 0x10000, .inl ⟨⟨7⟩, by decide +kernel⟩, issues_of (by decide +kernel), by decide +kernel⟩

theorem witness_trap_word : ∃ (s : State) (r : Rod) (i : Instr) (cause : Nat) (code : Nat) (epc : Addr),
    ((∃ f, i = .brk f ∧ cause = 1 ∧ code = f.i.toNat ∧ epc = r.pc) ∨ (∃ f, i = .trap f ∧ cause = 2 ∧ code = f.i.toNat ∧ epc = r.pc + 4)) ∧
    Issues s r i ∧
    24 ≤ r.s.length ∧
    r.handler = none ∧
    (s.begun r i).ctxHandler r.asid ≠ 0 :=
  ⟨mapped rod [(48, 6, 0x4000)], rod, .trap ⟨false, 0x1FFFF⟩, 2, 0x1FFFF, 0x10004, .inr ⟨⟨false, 0x1FFFF⟩, by decide +kernel⟩, issues_of (by decide +kernel), by decide +kernel⟩

theorem witness_nested : ∃ (s : State) (u : Nat) (r : Rod),
    s.rod? u = some r ∧
    ((r.handler ≠ none ∨ s.ctxHandler r.asid = 0)) :=
  ⟨bench, 1, rod, by decide +kernel, .inr (by decide +kernel)⟩

/-- A fault frame of a TRAP. -/
def trapFrame : FaultFrame := ⟨[24, 25, 26, 27, 28, 29, 30, 31], 0x10004, 0xF, 1, 0, 0, 0, 0, 3, 2⟩

/-- The rod in its handler, which has put the resume address in s25. -/
def handlerRod : Rod := { rod.setS 25 0x10008 with handler := some trapFrame, active := 1 }

theorem witness_eret : ∃ (s : State) (r : Rod) (f : FaultFrame),
    Issues s r .eret ∧
    r.handler = some f ∧
    r.stack.length = f.depth ∧
    s.blockedLine r.uid = none ∧
    (r.sreg 24).extractLsb' 30 2 = 0 :=
  ⟨benchOf handlerRod, handlerRod, trapFrame, issues_of (by decide +kernel), by decide +kernel⟩

/-- A device whose context has a mailbox at 0x5000: of 4 records, empty. -/
def mailDevice : State := { mapped rod [(0x1038, 8, 0x4000), (0x4000, 8, 0x5000), (0x5018, 4, 3 + 2 ^ 24 * 32)] with sysBlock := some 0x1000 }

theorem witness_eret_kill : ∃ (s : State) (r : Rod) (f : FaultFrame),
    Issues s r .eret ∧
    r.handler = some f ∧
    r.stack.length = f.depth ∧
    s.blockedLine r.uid = none ∧
    (r.sreg 24).extractLsb' 30 2 = 1 :=
  ⟨benchOf (handlerRod.setS 24 0x40000000), handlerRod.setS 24 0x40000000, trapFrame, issues_of (by decide +kernel), by decide +kernel⟩

theorem witness_upcall : ∃ (s : State) (r : Rod) (f : ShUpcall) (h : Nat),
    Issues s r (.upcall f) ∧
    (s.begun r (.upcall f)).mailbox r.asid = some h ∧
    let s1 := s.begun r (.upcall f)
    let q := s1.queueAt h
    q.count + 2 ≤ q.size :=
  ⟨mailDevice, rod, ⟨false, 8, 4, 5⟩, 0x5000, issues_of (by decide +kernel), by decide +kernel, by decide +kernel⟩

theorem witness_segld : ∃ (s : State) (r : Rod) (fr : Frame) (f : ShSegld),
    Issues s r (.segld f) ∧
    s.blockedLine r.uid = none ∧
    s.frame? r.frame = some fr ∧
    r.handler ≠ none ∧
    (r.sreg (sIndex f.a)) >>> 40 = 0 ∧
    let g : Seg := ⟨(r.sreg (sIndex f.a)).extractLsb' 20 20, (r.sreg (sIndex f.a)).extractLsb' 0 20⟩
    s.segmentBad fr f.k.toNat g = false ∧
    s.ldlUnderWay fr f.k.toNat = false :=
  ⟨benchOf { handlerRod.setS 2 (16 * 2 ^ 20 + 64) with active := 1 }, { handlerRod.setS 2 (16 * 2 ^ 20 + 64) with active := 1 }, placedFrame, ⟨2, 98⟩, issues_of (by decide +kernel), of4 (by decide +kernel) (by decide +kernel)⟩

theorem witness_segld_user : ∃ (s : State) (r : Rod) (f : ShSegld),
    Issues s r (.segld f) ∧
    r.handler = none :=
  ⟨bench, rod, ⟨2, 98⟩, issues_of (by decide +kernel), by decide +kernel⟩

theorem witness_region : ∃ (s : State) (r : Rod) (i : Instr),
    Issues s r i ∧
    ((i = .region ∨ ∃ f, i = .pref f)) :=
  ⟨bench, rod, .region, issues_of (by decide +kernel), .inl rfl⟩

theorem witness_fence_acq : ∃ (s : State) (r : Rod) (i : Instr) (f : ShScope) (acquire : Bool) (sc : Bool) (release : Bool),
    Issues s r i ∧
    ((i = .fenceAcq f ∧ acquire = true ∧ sc = false ∧ release = false ∨
      i = .fenceRel f ∧ acquire = false ∧ sc = false ∧ release = true ∨
      i = .fenceAcqrel f ∧ acquire = true ∧ sc = false ∧ release = true ∨
      i = .fenceSc f ∧ acquire = true ∧ sc = true ∧ release = true)) :=
  ⟨bench, rod, .fenceAcq ⟨0⟩, ⟨0⟩, true, false, false, issues_of (by decide +kernel), by decide +kernel⟩

theorem witness_fence_rel : ∃ (s : State) (r : Rod) (i : Instr) (f : ShScope) (acquire : Bool) (sc : Bool) (release : Bool),
    Issues s r i ∧
    ((i = .fenceAcq f ∧ acquire = true ∧ sc = false ∧ release = false ∨
      i = .fenceRel f ∧ acquire = false ∧ sc = false ∧ release = true ∨
      i = .fenceAcqrel f ∧ acquire = true ∧ sc = false ∧ release = true ∨
      i = .fenceSc f ∧ acquire = true ∧ sc = true ∧ release = true)) :=
  ⟨bench, rod, .fenceRel ⟨1⟩, ⟨1⟩, false, false, true, issues_of (by decide +kernel), by decide +kernel⟩

theorem witness_fence_acqrel : ∃ (s : State) (r : Rod) (i : Instr) (f : ShScope) (acquire : Bool) (sc : Bool) (release : Bool),
    Issues s r i ∧
    ((i = .fenceAcq f ∧ acquire = true ∧ sc = false ∧ release = false ∨
      i = .fenceRel f ∧ acquire = false ∧ sc = false ∧ release = true ∨
      i = .fenceAcqrel f ∧ acquire = true ∧ sc = false ∧ release = true ∨
      i = .fenceSc f ∧ acquire = true ∧ sc = true ∧ release = true)) :=
  ⟨bench, rod, .fenceAcqrel ⟨4⟩, ⟨4⟩, true, false, true, issues_of (by decide +kernel), by decide +kernel⟩

theorem witness_fence_sc : ∃ (s : State) (r : Rod) (i : Instr) (f : ShScope) (acquire : Bool) (sc : Bool) (release : Bool),
    Issues s r i ∧
    ((i = .fenceAcq f ∧ acquire = true ∧ sc = false ∧ release = false ∨
      i = .fenceRel f ∧ acquire = false ∧ sc = false ∧ release = true ∨
      i = .fenceAcqrel f ∧ acquire = true ∧ sc = false ∧ release = true ∨
      i = .fenceSc f ∧ acquire = true ∧ sc = true ∧ release = true)) :=
  ⟨bench, rod, .fenceSc ⟨6⟩, ⟨6⟩, true, true, true, issues_of (by decide +kernel), by decide +kernel⟩

theorem witness_xfence : ∃ (s : State) (r : Rod) (f : ShXfence),
    Issues s r (.xfence f) :=
  ⟨bench, rod, ⟨1, 2, 6⟩, issues_of (by decide +kernel)⟩

theorem witness_pref : ∃ (s : State) (r : Rod) (i : Instr),
    Issues s r i ∧
    ((i = .region ∨ ∃ f, i = .pref f)) :=
  ⟨bench, rod, .pref ⟨true, 3, 98⟩, issues_of (by decide +kernel), .inr ⟨⟨true, 3, 98⟩, rfl⟩⟩

theorem witness_exit : ∃ (s : State) (r : Rod),
    Issues s r .exit :=
  ⟨bench, rod, issues_of (by decide +kernel)⟩

/-- EXIT: a rod without a stack, one in its handler, one whose stack names a pending group, and two whose top entry has none:
beads reconverge at it, or all have ended. -/
def stackRod : Rod := { rod with active := 3, stack := [⟨0x10000, 0xF, 0, none, true, 0x10040, 0xC, 0, 0, 1, 0, 1⟩] }

def joinedRod (f : BitVec 16) : Rod :=
  { rod with active := 3, stack := [⟨0x10000, f, f &&& 0xC, some 0x10080, false, 0x10040, 0, 0, 0, 1, 0, 1⟩] }

theorem witness_exit_clauses : (Issues bench rod .exit ∧ rod.stack = []) ∧
    (Issues (benchOf handlerRod) handlerRod .exit ∧ handlerRod.handler ≠ none) ∧
    (∃ e es, Issues (benchOf stackRod) stackRod .exit ∧ stackRod.handler = none ∧ stackRod.stack = e :: es ∧ e.pv = true) ∧
    (∃ e es y, Issues (benchOf (joinedRod 0xF)) (joinedRod 0xF) .exit ∧ (joinedRod 0xF).handler = none ∧
      (joinedRod 0xF).stack = e :: es ∧ e.pv = false ∧ e.j = some y ∧ e.f &&& ~~~ (joinedRod 0xF).active ≠ 0) ∧
    ∃ e, Issues (benchOf (joinedRod 3)) (joinedRod 3) .exit ∧ (joinedRod 3).handler = none ∧
      (joinedRod 3).stack = [e] ∧ e.pv = false ∧ e.f &&& ~~~ (joinedRod 3).active = 0 :=
  ⟨⟨issues_of (by decide +kernel), rfl⟩, ⟨issues_of (by decide +kernel), by decide +kernel⟩,
    ⟨_, _, issues_of (by decide +kernel), rfl, rfl, rfl⟩, ⟨_, _, _, issues_of (by decide +kernel), rfl, rfl, rfl, rfl, by decide +kernel⟩,
    _, issues_of (by decide +kernel), rfl, rfl, by decide +kernel⟩

theorem witness_bar : ∃ (s : State) (r : Rod) (fr : Frame) (f : ShBar),
    Issues s r (.bar f) ∧
    s.frame? r.frame = some fr ∧
    r.alive ≠ 0 ∧
    (∀ k ∈ beadsOf r, k < r.beads.length ∧ (r.bead k).bar.length = 16 ∧ ((r.bead k).arrival f.n.toNat).kind = .idle) ∧
    ((∀ k < 16, r.alive.getLsbD k = true → k ∉ beadsOf r → arrivedIn (fr.phase f.n.toNat) ((r.bead k).arrival f.n.toNat) = true)) ∧
    ((∀ q ∈ s.rods, q.uid ≠ r.uid → q.frame = r.frame → ∀ k < 16, q.alive.getLsbD k = true →
      arrivedIn (fr.phase f.n.toNat) ((q.bead k).arrival f.n.toNat) = true)) :=
  ⟨bench, rod, placedFrame, ⟨false, 15⟩, issues_of (by decide +kernel), by decide +kernel⟩

/-- The rod whose beads wait at barrier 15 for a phase that has changed. -/
def passRod : Rod := rod.mapArrivals 15 (fun _ => ⟨.waiting, true⟩) [0, 1, 2, 3]

theorem witness_bar_pass : ∃ (s : State) (r : Rod) (fr : Frame) (f : ShBar),
    Issues s r (.bar f) ∧
    s.frame? r.frame = some fr ∧
    (∃ k ∈ beadsOf r, r.alive.getLsbD k = true) ∧
    (∀ k ∈ beadsOf r, k < r.beads.length ∧ (r.bead k).bar.length = 16 ∧
      (r.bead k).arrival f.n.toNat = ⟨.waiting, !fr.phase f.n.toNat⟩) :=
  ⟨benchOf passRod, passRod, placedFrame, ⟨false, 15⟩, issues_of (by decide +kernel), by decide +kernel⟩

theorem code_reads {s : State} {core asid va n : Nat} {at_ : Nat → Nat} (h : ((List.range n).all fun i =>
      mapsB s (some core) asid (va + 16 * i) false (at_ i) && decide (s.damaged (at_ i) 16 = false)) = true) :
    codeReads s core asid va at_ n := fun i hi => by
  have h1 := List.all_eq_true.mp h i (List.mem_range.mpr hi)
  simp only [Bool.and_eq_true, decide_eq_true_eq] at h1
  exact ⟨maps_of h1.1, h1.2⟩

/-- A rod at 0x28000, in the code object 5 of 4,096 bytes: the handle table at 0x20100 and the object table at 0x20200
are in cached pages; a liveness descriptor of zeros is at 0x28040. -/
def codeRod : Rod := { rod with pc := 0x28000 }

def codeDevice : State :=
  mapped codeRod [(8, 6, 0x20200), (16, 6, 0x20100), (61, 3, 15), (0x100100, 16, 2 ^ 127 + 2 ^ 126 + 5 * 2 ^ 96 + 0x1000 * 2 ^ 48),
    (0x100250, 16, 2 ^ 127 + 0x1000 * 2 ^ 64 + 0x28000), (0x108080, 4, 0x00000010)]

theorem witness_live : ∃ (s : State) (r : Rod) (fr : Frame) (f : ShCode) (base : Nat) (len : Nat) (at_ : Nat → Nat),
    Issues s r (.live f) ∧
    s.frame? r.frame = some fr ∧
    let x := (r.pc + f.i.signExtend 48 * 4).toNat
    x % 16 = 0 ∧
    codeIs s r.core r.asid r.pc.toNat base len ∧
    base ≤ x ∧
    x + 64 ≤ base + len ∧
    codeReads s r.core r.asid x at_ 4 ∧
    liveOk (codeAt s at_ 4) r.alloc fr.segS.limit.toNat = true :=
  ⟨codeDevice, codeRod, placedFrame, ⟨16⟩, 0x20000, 0x10000, (fun i => 0x108040 + 16 * i), issues_of (by decide +kernel), by decide +kernel, by decide +kernel, ⟨0, 0x100100, by decide +kernel, ⟨maps_of (by decide +kernel), by decide +kernel⟩, by decide +kernel, by unfold admits; decide +kernel, fun _ h => absurd h (Nat.not_lt_zero _)⟩, by decide +kernel, by decide +kernel, code_reads (by decide +kernel), by decide +kernel⟩

theorem witness_capld : ∃ (s : State) (r : Rod) (f : ShCapld) (a : Nat),
    Issues s r (.capld f) ∧
    (r.sreg (sIndex f.a)).toNat ≤ s.ctxField r.asid 112 16 ∧
    entryAt s r.core r.asid (r.sreg (sIndex f.a)).toNat a ∧
    let e := s.natAt a 16
    e.testBit 120 = false ∧
    e.testBit 121 = false :=
  ⟨codeDevice, codeRod, ⟨15, 98⟩, 0x100100, issues_of (by decide +kernel), by decide +kernel, ⟨maps_of (by decide +kernel), by decide +kernel⟩, by decide +kernel⟩

/-! ### Witnesses: memory -/

/-- The rod with the object 5 in c0; bead k has the offset 0x3FFF - k of words of four bytes in v3. -/
def memRod : Rod :=
  (((((rod.setCap 0 cap5).setV 0 3 0x3FFF).setV 1 3 0x3FFE).setV 2 3 0x3FFD).setV 3 3 0).setV 0 5 0x80

/-- Where its words lie. -/
def wordAt (b : Option Nat) : Nat := 0x100000 + byteOffset memRod b false 3 4

theorem witness_ld : ∃ (s : State) (r : Rod) (f : ShMem) (at_ : Option Nat → Nat),
    Issues s r (.ld f) ∧
    (∀ b ∈ r.parts f.u, Reaches s r (r.cap f.c.toNat) ⟨true, false, false, false, false⟩
      (byteOffset r b f.x f.f (widthBytes f.w)) (widthBytes f.w) .load (at_ b)) :=
  ⟨mapped memRod [], memRod, ⟨false, 4, 4, 0, 0, false, 3⟩, wordAt, issues_of (by decide +kernel), all_reach (by decide +kernel)⟩

theorem witness_st : ∃ (s : State) (r : Rod) (f : ShMem) (at_ : Option Nat → Nat),
    Issues s r (.st f) ∧
    (∀ b ∈ r.parts f.u, Reaches (s.begun r (.st f)) r (r.cap f.c.toNat) ⟨false, true, false, false, false⟩
      (byteOffset r b f.x f.f (widthBytes f.w)) (widthBytes f.w) (if f.o.toNat = 3 then .home else .tentative) (at_ b)) :=
  ⟨mapped memRod [], memRod, ⟨false, 4, 5, 0, 0, false, 3⟩, wordAt, issues_of (by decide +kernel), all_reach (by decide +kernel)⟩

theorem witness_st_release : ∃ (s : State) (r : Rod) (f : ShMem) (at_ : Option Nat → Nat),
    Issues s r (.st f) ∧
    (∀ b ∈ r.parts f.u, Reaches (s.begun r (.st f)) r (r.cap f.c.toNat) ⟨false, true, false, false, false⟩
      (byteOffset r b f.x f.f (widthBytes f.w)) (widthBytes f.w) (if f.o.toNat = 3 then .home else .tentative) (at_ b)) :=
  ⟨mapped memRod [], memRod, ⟨false, 4, 5, 0, 3, false, 3⟩, wordAt, issues_of (by decide +kernel), all_reach (by decide +kernel)⟩

theorem witness_st_frame : ∃ (s : State) (t : State) (r : Rod) (f : ShMem) (at_ : Option Nat → Nat),
    Issues s r (.st f) ∧
    f.o.toNat ≠ 3 ∧
    (∀ b ∈ r.parts f.u, Reaches s r (r.cap f.c.toNat) ⟨false, true, false, false, false⟩
      (byteOffset r b f.x f.f (widthBytes f.w)) (widthBytes f.w) .tentative (at_ b)) ∧
    ((∀ q ∈ s.rods, q.uid = r.uid → q = r)) ∧
    exec (.st f) s = .next t :=
  ⟨mapped memRod [], nextOf (exec (.st ⟨false, 4, 5, 0, 0, false, 3⟩) (mapped memRod [])), memRod, ⟨false, 4, 5, 0, 0, false, 3⟩, wordAt, issues_of (by decide +kernel), by decide +kernel, all_reach (by decide +kernel), by decide +kernel, next_of (by decide +kernel)⟩

/-- Where its nibbles lie. -/
def nibbleAt (b : Option Nat) : Nat := 0x100000 + nibbleOffset memRod b false 3

theorem witness_stn : ∃ (s : State) (r : Rod) (f : ShMemNW) (at_ : Option Nat → Nat),
    Issues s r (.stn f) ∧
    (∀ b ∈ r.parts f.u, Reaches (s.begun r (.stn f)) r (r.cap f.c.toNat) ⟨false, true, false, false, false⟩
      (nibbleOffset r b f.x f.f) 1 .home (at_ b)) :=
  ⟨mapped memRod [], memRod, ⟨false, 5, 0, 0, false, 3⟩, nibbleAt, issues_of (by decide +kernel), all_reach (by decide +kernel)⟩

theorem witness_atom : ∃ (s : State) (r : Rod) (i : Instr) (x : Atomic) (at_ : Option Nat → Nat),
    atomicOf i = some x ∧
    Issues s r i ∧
    (∀ b ∈ r.parts x.u, Reaches (s.begun r i) r (r.cap x.c.toNat) ⟨false, false, true, false, false⟩
      (byteOffset r b x.x x.f x.size) x.size .home (at_ b)) :=
  ⟨mapped memRod [], memRod, .atomS32 ⟨false, 5, 5, 0, 0, false, 3⟩, _, wordAt, rfl, issues_of (by decide +kernel), all_reach (by decide +kernel)⟩

theorem witness_acas : ∃ (s : State) (r : Rod) (i : Instr) (x : Atomic) (at_ : Option Nat → Nat),
    atomicOf i = some x ∧
    Issues s r i ∧
    (∀ b ∈ r.parts x.u, Reaches (s.begun r i) r (r.cap x.c.toNat) ⟨false, false, true, false, false⟩
      (byteOffset r b x.x x.f x.size) x.size .home (at_ b)) :=
  ⟨mapped memRod [], memRod, .acas ⟨false, false, 4, 0, 0, false, 3⟩, _, wordAt, rfl, issues_of (by decide +kernel), all_reach (by decide +kernel)⟩

/-- Where its numbers of eight bytes lie, by the offset in s4. -/
def dwordAt (b : Option Nat) : Nat := 0x100000 + byteOffset (memRod.setS 4 0x1FFF) b true 100 8

theorem witness_amax64 : ∃ (s : State) (r : Rod) (i : Instr) (x : Atomic) (at_ : Option Nat → Nat),
    atomicOf i = some x ∧
    Issues s r i ∧
    (∀ b ∈ r.parts x.u, Reaches (s.begun r i) r (r.cap x.c.toNat) ⟨false, false, true, false, false⟩
      (byteOffset r b x.x x.f x.size) x.size .home (at_ b)) :=
  ⟨mapped (memRod.setS 4 0x1FFF) [], memRod.setS 4 0x1FFF, .amax64 ⟨true, 102, 0, 0, true, 100⟩, _, dwordAt, rfl, issues_of (by decide +kernel), all_reach (by decide +kernel)⟩

theorem witness_atom64 : ∃ (s : State) (r : Rod) (i : Instr) (x : Atomic) (at_ : Option Nat → Nat),
    atomicOf i = some x ∧
    Issues s r i ∧
    (∀ b ∈ r.parts x.u, Reaches (s.begun r i) r (r.cap x.c.toNat) ⟨false, false, true, false, false⟩
      (byteOffset r b x.x x.f x.size) x.size .home (at_ b)) :=
  ⟨mapped (memRod.setS 4 0x1FFF) [], memRod.setS 4 0x1FFF, .atomN64 ⟨true, 6, 102, 0, 0, true, 100⟩, _, dwordAt, rfl, issues_of (by decide +kernel), all_reach (by decide +kernel)⟩

theorem witness_home_frame_atom : ∃ (s : State) (t : State) (r : Rod) (i : Instr) (u : Bool) (n : Nat) (at_ : Option Nat → Nat),
    (((∃ x, atomicOf i = some x ∧ u = x.u ∧ n = x.size ∧ ∀ b ∈ r.parts x.u, Reaches (s.begun r i) r (r.cap x.c.toNat)
        ⟨false, false, true, false, false⟩ (byteOffset r b x.x x.f x.size) x.size .home (at_ b)) ∨
      (∃ f, i = .stn f ∧ u = f.u ∧ n = 1 ∧ ∀ b ∈ r.parts f.u, Reaches (s.begun r i) r (r.cap f.c.toNat)
        ⟨false, true, false, false, false⟩ (nibbleOffset r b f.x f.f) 1 .home (at_ b)) ∨
      ∃ f, i = .st f ∧ f.o.toNat = 3 ∧ u = f.u ∧ n = widthBytes f.w ∧ ∀ b ∈ r.parts f.u, Reaches (s.begun r i) r (r.cap f.c.toNat)
        ⟨false, true, false, false, false⟩ (byteOffset r b f.x f.f (widthBytes f.w)) (widthBytes f.w) .home (at_ b))) ∧
    Issues s r i ∧
    exec i s = .next t ∧
    (¬ committing s r 0x100010 ∧ ∀ b ∈ r.parts u, ¬ within (at_ b) n 0x100010) :=
  ⟨mapped memRod [], nextOf (exec (.atomS32 ⟨false, 0, 5, 0, 0, false, 3⟩) (mapped memRod [])), memRod, .atomS32 ⟨false, 0, 5, 0, 0, false, 3⟩, false, 4, wordAt, .inl ⟨_, rfl, rfl, rfl, all_reach (by decide +kernel)⟩, issues_of (by decide +kernel), next_of (by decide +kernel), ⟨by rintro (⟨v, h⟩ | ⟨i, h, _⟩) <;> exact (nomatch h), by unfold within; decide +kernel⟩⟩

theorem witness_home_frame_stn : ∃ (s : State) (t : State) (r : Rod) (i : Instr) (u : Bool) (n : Nat) (at_ : Option Nat → Nat),
    (((∃ x, atomicOf i = some x ∧ u = x.u ∧ n = x.size ∧ ∀ b ∈ r.parts x.u, Reaches (s.begun r i) r (r.cap x.c.toNat)
        ⟨false, false, true, false, false⟩ (byteOffset r b x.x x.f x.size) x.size .home (at_ b)) ∨
      (∃ f, i = .stn f ∧ u = f.u ∧ n = 1 ∧ ∀ b ∈ r.parts f.u, Reaches (s.begun r i) r (r.cap f.c.toNat)
        ⟨false, true, false, false, false⟩ (nibbleOffset r b f.x f.f) 1 .home (at_ b)) ∨
      ∃ f, i = .st f ∧ f.o.toNat = 3 ∧ u = f.u ∧ n = widthBytes f.w ∧ ∀ b ∈ r.parts f.u, Reaches (s.begun r i) r (r.cap f.c.toNat)
        ⟨false, true, false, false, false⟩ (byteOffset r b f.x f.f (widthBytes f.w)) (widthBytes f.w) .home (at_ b))) ∧
    Issues s r i ∧
    exec i s = .next t :=
  ⟨mapped memRod [], nextOf (exec (.stn ⟨false, 5, 0, 0, false, 3⟩) (mapped memRod [])), memRod, .stn ⟨false, 5, 0, 0, false, 3⟩, false, 1, nibbleAt, .inr (.inl ⟨_, rfl, rfl, rfl, all_reach (by decide +kernel)⟩), issues_of (by decide +kernel), next_of (by decide +kernel)⟩

theorem witness_home_frame_st : ∃ (s : State) (t : State) (r : Rod) (i : Instr) (u : Bool) (n : Nat) (at_ : Option Nat → Nat),
    (((∃ x, atomicOf i = some x ∧ u = x.u ∧ n = x.size ∧ ∀ b ∈ r.parts x.u, Reaches (s.begun r i) r (r.cap x.c.toNat)
        ⟨false, false, true, false, false⟩ (byteOffset r b x.x x.f x.size) x.size .home (at_ b)) ∨
      (∃ f, i = .stn f ∧ u = f.u ∧ n = 1 ∧ ∀ b ∈ r.parts f.u, Reaches (s.begun r i) r (r.cap f.c.toNat)
        ⟨false, true, false, false, false⟩ (nibbleOffset r b f.x f.f) 1 .home (at_ b)) ∨
      ∃ f, i = .st f ∧ f.o.toNat = 3 ∧ u = f.u ∧ n = widthBytes f.w ∧ ∀ b ∈ r.parts f.u, Reaches (s.begun r i) r (r.cap f.c.toNat)
        ⟨false, true, false, false, false⟩ (byteOffset r b f.x f.f (widthBytes f.w)) (widthBytes f.w) .home (at_ b))) ∧
    Issues s r i ∧
    exec i s = .next t :=
  ⟨mapped memRod [], nextOf (exec (.st ⟨false, 4, 5, 0, 3, false, 3⟩) (mapped memRod [])), memRod, .st ⟨false, 4, 5, 0, 3, false, 3⟩, false, 4, wordAt, .inr (.inr ⟨_, rfl, by decide, rfl, rfl, all_reach (by decide +kernel)⟩), issues_of (by decide +kernel), next_of (by decide +kernel)⟩

theorem witness_cap_invalid : ∃ (s : State) (r : Rod) (f : ShMem) (b : Option Nat) (bs : List (Option Nat)) (cause : Nat),
    Issues s r (.ld f) ∧
    r.parts f.u = b :: bs ∧
    let c := r.cap f.c.toNat
    let byte := byteOffset r b f.x f.f (widthBytes f.w)
    (cause = if c.v = false then 1 else if c.rd = false then 2 else 3) ∧
    ((c.v = false ∨ c.rd = false ∨ byte < c.lo.toNat ∨ c.hi.toNat < byte + widthBytes f.w)) :=
  ⟨bench, rod, ⟨false, 4, 4, 0, 0, false, 3⟩, some 0, [some 1, some 2, some 3], 1, issues_of (by decide +kernel), by decide +kernel, by decide +kernel⟩

theorem witness_cap_rights : ∃ (s : State) (r : Rod) (f : ShMem) (b : Option Nat) (bs : List (Option Nat)) (cause : Nat),
    Issues s r (.ld f) ∧
    r.parts f.u = b :: bs ∧
    let c := r.cap f.c.toNat
    let byte := byteOffset r b f.x f.f (widthBytes f.w)
    (cause = if c.v = false then 1 else if c.rd = false then 2 else 3) ∧
    ((c.v = false ∨ c.rd = false ∨ byte < c.lo.toNat ∨ c.hi.toNat < byte + widthBytes f.w)) :=
  ⟨benchOf (rod.setCap 0 { cap5 with rd := false }), rod.setCap 0 { cap5 with rd := false }, ⟨false, 4, 4, 0, 0, false, 3⟩, some 0, [some 1, some 2, some 3], 2, issues_of (by decide +kernel), by decide +kernel, by decide +kernel⟩

theorem witness_cap_range : ∃ (s : State) (r : Rod) (f : ShMem) (b : Option Nat) (bs : List (Option Nat)) (cause : Nat),
    Issues s r (.ld f) ∧
    r.parts f.u = b :: bs ∧
    let c := r.cap f.c.toNat
    let byte := byteOffset r b f.x f.f (widthBytes f.w)
    (cause = if c.v = false then 1 else if c.rd = false then 2 else 3) ∧
    ((c.v = false ∨ c.rd = false ∨ byte < c.lo.toNat ∨ c.hi.toNat < byte + widthBytes f.w)) :=
  ⟨benchOf (memRod.setCap 0 { cap5 with hi := 0xFFFF }), memRod.setCap 0 { cap5 with hi := 0xFFFF }, ⟨false, 4, 4, 0, 0, false, 3⟩, some 0, [some 1, some 2, some 3], 3, issues_of (by decide +kernel), by decide +kernel, by decide +kernel⟩

theorem witness_flush : ∃ (s : State) (r : Rod) (i : Instr) (f : ShScope) (inv : Bool),
    ((i = .flush f ∧ inv = false ∨ i = .flushInv f ∧ inv = true)) ∧
    Issues s r i :=
  ⟨bench, rod, .flush ⟨2⟩, ⟨2⟩, false, .inl ⟨rfl, rfl⟩, issues_of (by decide +kernel)⟩

theorem witness_flush_inv : ∃ (s : State) (r : Rod) (i : Instr) (f : ShScope) (inv : Bool),
    ((i = .flush f ∧ inv = false ∨ i = .flushInv f ∧ inv = true)) ∧
    Issues s r i :=
  ⟨bench, rod, .flushInv ⟨6⟩, ⟨6⟩, true, .inr ⟨rfl, rfl⟩, issues_of (by decide +kernel)⟩

theorem witness_waitv_differs : ∃ (s : State) (r : Rod) (i : Instr) (f : ShWaitv) (n : Nat) (at_ : Option Nat → Nat),
    ((i = .waitv f ∧ n = 4 ∨ i = .waitvS64 f ∧ n = 8)) ∧
    Issues s r i ∧
    let parts : List (Option Nat) := if f.u then [none] else (beadsOf r).map some
    (∀ b ∈ parts, Reaches s r (r.cap f.c.toNat) ⟨true, false, false, false, false⟩ (byteOffset r b false f.a n) n .load (at_ b)) ∧
    let words := strongReads r at_ n parts (s.begun r i)
    let equal (x : Option Nat × Nat) : Prop := x.2 = (r.operand x.1 (decide (n = 8)) f.d).toNat
    ∀ x ∈ words.1, ¬ equal x :=
  ⟨mapped memRod [(0x100000, 4, 1), (0x10FFF4, 12, 2 ^ 64 + 2 ^ 32 + 1)], memRod, .waitv ⟨false, 0, 6, 3⟩, ⟨false, 0, 6, 3⟩, 4, wordAt, .inl ⟨rfl, rfl⟩, issues_of (by decide +kernel), all_reach (by decide +kernel), by decide +kernel⟩

theorem witness_waitv_equal : ∃ (s : State) (r : Rod) (i : Instr) (f : ShWaitv) (n : Nat) (at_ : Option Nat → Nat),
    ((i = .waitv f ∧ n = 4 ∨ i = .waitvS64 f ∧ n = 8)) ∧
    Issues s r i ∧
    let parts : List (Option Nat) := if f.u then [none] else (beadsOf r).map some
    (∀ b ∈ parts, Reaches s r (r.cap f.c.toNat) ⟨true, false, false, false, false⟩ (byteOffset r b false f.a n) n .load (at_ b)) ∧
    let words := strongReads r at_ n parts (s.begun r i)
    let equal (x : Option Nat × Nat) : Prop := x.2 = (r.operand x.1 (decide (n = 8)) f.d).toNat
    ∃ x ∈ words.1, equal x :=
  ⟨mapped memRod [], memRod, .waitv ⟨false, 0, 6, 3⟩, ⟨false, 0, 6, 3⟩, 4, wordAt, .inl ⟨rfl, rfl⟩, issues_of (by decide +kernel), all_reach (by decide +kernel), by decide +kernel⟩

theorem witness_waitv_s64 : ∃ (s : State) (r : Rod) (i : Instr) (f : ShWaitv) (n : Nat) (at_ : Option Nat → Nat),
    ((i = .waitv f ∧ n = 4 ∨ i = .waitvS64 f ∧ n = 8)) ∧
    Issues s r i ∧
    let parts : List (Option Nat) := if f.u then [none] else (beadsOf r).map some
    (∀ b ∈ parts, Reaches s r (r.cap f.c.toNat) ⟨true, false, false, false, false⟩ (byteOffset r b false f.a n) n .load (at_ b)) ∧
    let words := strongReads r at_ n parts (s.begun r i)
    let equal (x : Option Nat × Nat) : Prop := x.2 = (r.operand x.1 (decide (n = 8)) f.d).toNat
    ∃ x ∈ words.1, equal x :=
  ⟨mapped (memRod.setS 4 0x1FFF) [], memRod.setS 4 0x1FFF, .waitvS64 ⟨true, 0, 102, 100⟩, ⟨true, 0, 102, 100⟩, 8, (fun b => 0x100000 + byteOffset (memRod.setS 4 0x1FFF) b false 100 8), .inr ⟨rfl, rfl⟩, issues_of (by decide +kernel), all_reach (by decide +kernel), by decide +kernel⟩

/-- The rod with four cells of 16 bytes in v3, bead k cell 63 - k. -/
def cellRod : Rod := (((rod.setV 0 3 63).setV 1 3 62).setV 2 3 61).setV 3 3 60

/-- The device with the last four cells of each segment present. -/
def cellDevice (r : Rod) : State :=
  [0, 1, 2, 3].foldl (fun s b => [60, 61, 62, 63].foldl (fun s n => s.setCell 0 b n ⟨BitVec.ofNat 128 n, true⟩) s) (benchOf r)

theorem witness_ldl_take : ∃ (s : State) (r : Rod) (fr : Frame) (i : Instr) (f : ShLdl) (buf : Nat),
    ldlOf i = some (f, buf) ∧
    Issues s r i ∧
    s.frame? r.frame = some fr ∧
    let n (b : Option Nat) : Nat := localCell fr buf r b f.f (widthBytes f.w)
    (∀ b ∈ r.parts f.u, localByte r b f.f (widthBytes f.w) / 16 < (fr.seg buf).limit.toNat) ∧
    ((f.q.toNat ≠ 2 → ∀ b ∈ r.parts f.u, (s.seen r.core buf (n b)).present = true)) ∧
    ((f.q.toNat = 0 → ((r.parts f.u).map n).Nodup)) :=
  ⟨cellDevice cellRod, cellRod, placedFrame, .ldlC ⟨false, 6, 4, 0, 3⟩, ⟨false, 6, 4, 0, 3⟩, 3, rfl, issues_of (by decide +kernel), by decide +kernel, by decide +kernel⟩

theorem witness_ldl_peek : ∃ (s : State) (r : Rod) (fr : Frame) (i : Instr) (f : ShLdl) (buf : Nat),
    ldlOf i = some (f, buf) ∧
    Issues s r i ∧
    s.frame? r.frame = some fr ∧
    let n (b : Option Nat) : Nat := localCell fr buf r b f.f (widthBytes f.w)
    (∀ b ∈ r.parts f.u, localByte r b f.f (widthBytes f.w) / 16 < (fr.seg buf).limit.toNat) ∧
    ((f.q.toNat ≠ 2 → ∀ b ∈ r.parts f.u, (s.seen r.core buf (n b)).present = true)) ∧
    ((f.q.toNat = 0 → ((r.parts f.u).map n).Nodup)) :=
  ⟨cellDevice cellRod, cellRod, placedFrame, .ldlW ⟨false, 6, 4, 1, 3⟩, ⟨false, 6, 4, 1, 3⟩, 1, rfl, issues_of (by decide +kernel), by decide +kernel, by decide +kernel⟩

theorem witness_ldl_probe : ∃ (s : State) (r : Rod) (fr : Frame) (i : Instr) (f : ShLdl) (buf : Nat),
    ldlOf i = some (f, buf) ∧
    Issues s r i ∧
    s.frame? r.frame = some fr ∧
    let n (b : Option Nat) : Nat := localCell fr buf r b f.f (widthBytes f.w)
    (∀ b ∈ r.parts f.u, localByte r b f.f (widthBytes f.w) / 16 < (fr.seg buf).limit.toNat) ∧
    ((f.q.toNat ≠ 2 → ∀ b ∈ r.parts f.u, (s.seen r.core buf (n b)).present = true)) ∧
    ((f.q.toNat = 0 → ((r.parts f.u).map n).Nodup)) :=
  ⟨benchOf cellRod, cellRod, placedFrame, .ldlS ⟨false, 6, 4, 2, 3⟩, ⟨false, 6, 4, 2, 3⟩, 0, rfl, issues_of (by decide +kernel), by decide +kernel, by decide +kernel⟩

theorem witness_stl : ∃ (s : State) (r : Rod) (fr : Frame) (i : Instr) (f : ShStl) (buf : Nat),
    stlOf i = some (f, buf) ∧
    Issues s r i ∧
    s.frame? r.frame = some fr ∧
    ((∀ b ∈ r.parts f.u, localByte r b f.f (widthBytes f.w) / 16 < (fr.seg buf).limit.toNat ∧
      (buf = 3 → s.carryOwned r.core (localCell fr buf r b f.f (widthBytes f.w)) 1 = false))) :=
  ⟨benchOf cellRod, cellRod, placedFrame, .stlC ⟨false, 6, 4, 3⟩, ⟨false, 6, 4, 3⟩, 3, rfl, issues_of (by decide +kernel), by decide +kernel⟩

theorem witness_segment_ldl : ∃ (s : State) (r : Rod) (fr : Frame) (i : Instr) (f : BitVec 7) (w : BitVec 3) (buf : Nat) (b : Option Nat) (bs : List (Option Nat)),
    ((∃ g, ldlOf i = some (g, buf) ∧ f = g.f ∧ w = g.w) ∨ (∃ g, stlOf i = some (g, buf) ∧ f = g.f ∧ w = g.w)) ∧
    Issues s r i ∧
    s.frame? r.frame = some fr ∧
    r.parts (uniform i) = b :: bs ∧
    (fr.seg buf).limit.toNat ≤ localByte r b f (widthBytes w) / 16 :=
  ⟨benchOf (cellRod.setV 0 3 64), cellRod.setV 0 3 64, placedFrame, .ldlS ⟨false, 6, 4, 1, 3⟩, 3, 6, 0, some 0, [some 1, some 2, some 3], .inl ⟨_, rfl, rfl, rfl⟩, issues_of (by decide +kernel), by decide +kernel⟩

theorem witness_segment_stl : ∃ (s : State) (r : Rod) (fr : Frame) (i : Instr) (f : BitVec 7) (w : BitVec 3) (buf : Nat) (b : Option Nat) (bs : List (Option Nat)),
    ((∃ g, ldlOf i = some (g, buf) ∧ f = g.f ∧ w = g.w) ∨ (∃ g, stlOf i = some (g, buf) ∧ f = g.f ∧ w = g.w)) ∧
    Issues s r i ∧
    s.frame? r.frame = some fr ∧
    r.parts (uniform i) = b :: bs ∧
    (fr.seg buf).limit.toNat ≤ localByte r b f (widthBytes w) / 16 :=
  ⟨benchOf (cellRod.setV 0 3 64), cellRod.setV 0 3 64, placedFrame, .stlA ⟨false, 6, 4, 3⟩, 3, 6, 2, some 0, [some 1, some 2, some 3], .inr ⟨_, rfl, rfl, rfl⟩, issues_of (by decide +kernel), by decide +kernel⟩

/-! ### Witnesses: requests to the engines -/

/-- A frame with 4,096 cells of each buffer. -/
def bigFrame : Frame := { placedFrame with segS := ⟨4096, 0⟩, segW := ⟨4096, 0⟩, segA := ⟨4096, 0⟩, segC := ⟨4096, 0⟩ }

/-- A tile task: A in W, B in A, the result in C from cell 0, the done cell 0 of S. -/
def taskWord : BitVec 256 := BitVec.ofNat 256 (2 ^ 234 + 2 * 2 ^ 230)

def taskRod : Rod := (rod.setS 7 (BitVec.ofNat 64 (2 ^ 42 + 2 * 2 ^ 38)))

def bigDevice (r : Rod) : State := { benchOf r with frames := [bigFrame] }

theorem witness_ttask : ∃ (s : State) (r : Rod) (fr : Frame) (f : ShUA),
    Issues s r (.ttask f) ∧
    s.frame? r.frame = some fr ∧
    (∀ b ∈ r.parts f.u, s.recordFault fr (taskRecord r b f.a) (classA r) (classB r) b = none) ∧
    s.queued r.core + (r.parts f.u).length ≤ 64 :=
  ⟨bigDevice taskRod, taskRod, bigFrame, ⟨true, 100⟩, issues_of (by decide +kernel), by decide +kernel⟩

theorem witness_infer : ∃ (s : State) (r : Rod) (fr : Frame) (f : ShUDAB),
    Issues s r (.infer f) ∧
    s.frame? r.frame = some fr ∧
    (∀ b ∈ r.parts f.u, inferFits fr (inferKind r s fr f b)) ∧
    s.queued r.core + (r.parts f.u).length ≤ 64 :=
  ⟨benchOf ((rod.setS 3 16).setS 4 8), (rod.setS 3 16).setS 4 8, placedFrame, ⟨true, 98, 99, 100⟩, issues_of (by decide +kernel), by decide +kernel, by unfold inferFits inferKind; decide +kernel, by decide +kernel⟩

/-- A slot spec at cell 63 of S: one arrival of one cell at slot 31 of core 0. -/
def specDevice : State :=
  (benchOf (rod.setS 3 63)).setCell 0 0 63 ⟨BitVec.ofNat 128 (2 ^ 112 + 31 * 2 ^ 72), true⟩

theorem witness_sumset : ∃ (s : State) (r : Rod) (fr : Frame) (f : ShSumset),
    Issues s r (.sumset f) ∧
    s.frame? r.frame = some fr ∧
    sumsetTaken f (r.sreg (sIndex f.a)) (r.sreg (sIndex f.b)) ∧
    (r.sreg (sIndex f.b)).toNat + ((r.sreg (sIndex f.a)).toNat % 16 + 1) ≤ fr.segS.limit.toNat ∧
    peekable s r 0 (fr.segS.base.toNat + (r.sreg (sIndex f.b)).toNat) ((r.sreg (sIndex f.a)).toNat % 16 + 1) ∧
    specsTaken (peekedCells s r 0 (fr.segS.base.toNat + (r.sreg (sIndex f.b)).toNat) ((r.sreg (sIndex f.a)).toNat % 16 + 1)) ∧
    s.freeChainIndex r.core = some 0 :=
  ⟨specDevice, rod.setS 3 63, placedFrame, ⟨true, 98, 97, 99⟩, issues_of (by decide +kernel), by decide +kernel, by unfold sumsetTaken; decide +kernel, by decide +kernel, by unfold peekable; decide +kernel, specs_of (by decide +kernel) (by decide +kernel), by decide +kernel⟩

theorem witness_sumset_full : ∃ (s : State) (r : Rod) (fr : Frame) (f : ShSumset),
    Issues s r (.sumset f) ∧
    s.frame? r.frame = some fr ∧
    sumsetTaken f (r.sreg (sIndex f.a)) (r.sreg (sIndex f.b)) ∧
    (r.sreg (sIndex f.b)).toNat + ((r.sreg (sIndex f.a)).toNat % 16 + 1) ≤ fr.segS.limit.toNat ∧
    peekable s r 0 (fr.segS.base.toNat + (r.sreg (sIndex f.b)).toNat) ((r.sreg (sIndex f.a)).toNat % 16 + 1) ∧
    specsTaken (peekedCells s r 0 (fr.segS.base.toNat + (r.sreg (sIndex f.b)).toNat) ((r.sreg (sIndex f.a)).toNat % 16 + 1)) ∧
    s.freeChainIndex r.core = none :=
  ⟨{ specDevice with chains := (List.range 16).map fun i => ⟨0, i, 0, 0, []⟩ }, rod.setS 3 63, placedFrame, ⟨false, 98, 97, 99⟩, issues_of (by decide +kernel), by decide +kernel, by unfold sumsetTaken; decide +kernel, by decide +kernel, by unfold peekable; decide +kernel, specs_of (by decide +kernel) (by decide +kernel), by decide +kernel⟩

/-- The rod with the tile at cell 63 of C for slot 31 of core 255. -/
def sendRod : Rod := (rod.setS 2 63).setS 3 (255 + 31 * 2 ^ 8)

theorem witness_sumsend : ∃ (s : State) (r : Rod) (fr : Frame) (f : ShUDA) (b : Option Nat) (bs : List (Option Nat)),
    Issues s r (.sumsend f) ∧
    s.frame? r.frame = some fr ∧
    r.parts f.u = b :: bs ∧
    let t := windowNumber r b f.a
    let cell := (r.word b f.d).toNat
    let n := t / 2 ^ 16 % 2 ^ 12 + 1
    let first := fr.segC.base.toNat + cell
    targetTaken t ∧
    cell + n ≤ fr.segC.limit.toNat ∧
    peekable s r 3 first n ∧
    s.sendBuffer r.core < 2 :=
  ⟨cellDevice sendRod, sendRod, placedFrame, ⟨true, 98, 99⟩, none, [], issues_of (by decide +kernel), by decide +kernel, by decide +kernel, by unfold targetTaken; decide +kernel, by decide +kernel, by unfold peekable; decide +kernel, by decide +kernel⟩

theorem witness_sumfree : ∃ (s : State) (r : Rod) (f : ShA) (c : Chain),
    Issues s r (.sumfree f) ∧
    (r.sreg (sIndex f.a)).toNat < 16 ∧
    s.chain? r.core (r.sreg (sIndex f.a)).toNat = some c ∧
    c.frame = r.frame ∧
    ((∀ d ∈ s.chains, d.core = r.core → d.index = c.index → d = c)) :=
  ⟨{ benchOf (rod.setS 2 15) with chains := [⟨0, 15, 0, 0, [(0, 31)]⟩] }, rod.setS 2 15, ⟨98⟩, ⟨0, 15, 0, 0, [(0, 31)]⟩, issues_of (by decide +kernel), by decide +kernel⟩

/-- The rod with a window of one row of two cells of W, from cell 62, in s4 and s5, and the source 0xFFE0. -/
def bindRod : Rod := (((rod.setCap 0 cap5).setS 5 (BitVec.ofNat 64 (2 ^ 59 + 2 ^ 57 + 62 * 2 ^ 32 + 2 ^ 4))).setS 6 0xFFE0)

theorem witness_wbind : ∃ (s : State) (r : Rod) (f : ShWbind),
    Issues s r (.wbind f) ∧
    eachTaken (wbindReady f r) (wbindTurn f r) (s.begun r (.wbind f)) (r.parts f.u) :=
  ⟨benchOf bindRod, bindRod, ⟨true, 0, 100, 102⟩, issues_of (by decide +kernel), ⟨⟨_, rfl, by unfold wbindTaken; decide +kernel⟩, trivial⟩⟩

/-- The rod with a walk: indices in S from cell 0 by window 1, values of 4 bytes in W from cell 0 by window 0. -/
def walkRod : Rod := (((rod.setCap 0 cap5).setS 5 (BitVec.ofNat 64 (2 ^ 54 + 2 * 2 ^ 52 + 2 ^ 50 + 3 * 2 ^ 32))).setS 6 (5 * 2 ^ 32))

theorem witness_wcsr : ∃ (s : State) (r : Rod) (f : ShWbind),
    Issues s r (.wcsr f) ∧
    eachTaken (wcsrReady f r) (wcsrTurn f r) (s.begun r (.wcsr f)) (r.parts f.u) :=
  ⟨benchOf walkRod, walkRod, ⟨true, 0, 100, 102⟩, issues_of (by decide +kernel), ⟨⟨_, rfl, by unfold wcsrTaken; decide +kernel⟩, trivial⟩⟩

theorem witness_wtouch : ∃ (s : State) (r : Rod) (fr : Frame) (f : ShUA),
    Issues s r (.wtouch f) ∧
    s.frame? r.frame = some fr ∧
    (∀ b ∈ r.parts f.u, windowNumber r b f.a < 32 ∧ windowNumber r b f.a < fr.windows.length) :=
  ⟨benchOf (rod.setS 2 1), rod.setS 2 1, placedFrame, ⟨true, 98⟩, issues_of (by decide +kernel), by decide +kernel⟩

theorem witness_wdrop : ∃ (s : State) (r : Rod) (f : ShUA),
    Issues s r (.wdrop f) ∧
    eachTaken (wdropReady f r) (wdropTurn f r) (s.begun r (.wdrop f)) (r.parts f.u) :=
  ⟨benchOf (rod.setS 2 1), rod.setS 2 1, ⟨true, 98⟩, issues_of (by decide +kernel), ⟨⟨_, rfl, by decide +kernel⟩, trivial⟩⟩

theorem witness_chadv : ∃ (s : State) (r : Rod) (f : ShUDA),
    Issues s r (.chadv f) ∧
    (r.sreg (sIndex f.d)).toNat < 24 ∧
    (∃ c ∈ s.copyEngines, c.engine = (r.sreg (sIndex f.d)).toNat ∧ c.asid = r.asid) ∧
    (r.sreg (sIndex f.a)).toNat % 64 = 0 :=
  ⟨{ benchOf ((rod.setS 2 23).setS 3 128) with copyEngines := [⟨23, 0, cap5, 64, 64, 0, none, false, Marks.none, Seen.none, none, false⟩] }, (rod.setS 2 23).setS 3 128, ⟨true, 98, 99⟩, issues_of (by decide +kernel), by decide +kernel, ⟨_, .head _, rfl, rfl⟩, by decide +kernel⟩

theorem witness_burst_end : ∃ (s : State) (r : Rod) (f : ShA),
    Issues s r (.burst f) ∧
    let len := min 65536 ((r.sreg (sIndex f.a)).toNat % 2 ^ 32)
    len = 0 :=
  ⟨bench, rod, ⟨98⟩, issues_of (by decide +kernel), by decide +kernel⟩

theorem witness_burst : ∃ (s : State) (r : Rod) (f : ShA),
    Issues s r (.burst f) ∧
    let len := min 65536 ((r.sreg (sIndex f.a)).toNat % 2 ^ 32)
    len ≠ 0 :=
  ⟨benchOf (rod.setS 2 65537), rod.setS 2 65537, ⟨98⟩, issues_of (by decide +kernel), by decide +kernel⟩

/-- A capability of a queue of two records of one dword at the start of the object 5, in c0. -/
def queueRod : Rod := rod.setCap 0 { cap5 with hi := 144 }

/-- The queue holds `n` records, the first 7. -/
def queueDevice (r : Rod) (n : Nat) : State := mapped r [(0x100000, 8, n), (0x100018, 4, 1 + 2 ^ 24), (0x100080, 8, 7)]

theorem queueReady_of {s : State} {r : Rod} {a : BitVec 7} {h : Nat} {place : Nat → Nat}
    (h1 : (r.sreg (sIndex a)).toNat / 2 ^ 4 % 2 ^ 19 = 0)
    (h2 : reachB s r (queueCap r a) ⟨true, true, true, false, false⟩ (queueOff r a) 128 .home h = true)
    (h3 : (queueCap r a).lo.toNat = 0 ∧ (queueCap r a).hi.toNat = 144)
    (h4 : ((List.range 137).all fun n => reachB s r (queueCap r a) ⟨true, true, true, false, false⟩ n 8 .home (place n)) = true) :
    QueueReady s r a h place :=
  ⟨h1, reaches_of h2, fun n _ hn => reaches_of (List.all_eq_true.mp h4 n (List.mem_range.mpr (by omega)))⟩

theorem witness_edgeget : ∃ (s : State) (r : Rod) (i : Instr) (f : ShUDA) (h : Nat) (place : Nat → Nat) (put : Bool) (fits : Queue → Prop) (turn : State → Option Nat → State),
    ((i = .edgeget f ∧ put = false ∧ fits = (fun q => q.rsz = 1) ∧ turn = edgegetTurn f r h place ∨
      i = .edgeput f ∧ put = true ∧ fits = (fun q => q.rsz = 1) ∧ turn = edgeputTurn f r h place ∨
      i = .qpop f ∧ put = false ∧ fits = groupFits r f.d 1 ∧ turn = qpopTurn f r h place ∨
      i = .qpush f ∧ put = true ∧ fits = groupFits r f.d 0 ∧ turn = qpushTurn f r h place)) ∧
    Issues s r i ∧
    r.parts f.u ≠ [] ∧
    eachTaken (queuePart r f.a h place put fits) turn (s.begun r i) (r.parts f.u) :=
  ⟨queueDevice queueRod 2, queueRod, .edgeget ⟨true, 100, 98⟩, ⟨true, 100, 98⟩, 0x100000, (fun n => 0x100000 + n), false, (fun q => q.rsz = 1), edgegetTurn ⟨true, 100, 98⟩ queueRod 0x100000 fun n => 0x100000 + n, .inl ⟨rfl, rfl, rfl, rfl⟩, issues_of (by decide +kernel), by decide +kernel, ⟨⟨queueReady_of (by decide +kernel) (by decide +kernel) (by decide +kernel) (by decide +kernel), by decide +kernel, by unfold recordIn; decide +kernel, by beta_reduce; decide +kernel, by decide +kernel⟩, trivial⟩⟩

theorem witness_edgeput : ∃ (s : State) (r : Rod) (i : Instr) (f : ShUDA) (h : Nat) (place : Nat → Nat) (put : Bool) (fits : Queue → Prop) (turn : State → Option Nat → State),
    ((i = .edgeget f ∧ put = false ∧ fits = (fun q => q.rsz = 1) ∧ turn = edgegetTurn f r h place ∨
      i = .edgeput f ∧ put = true ∧ fits = (fun q => q.rsz = 1) ∧ turn = edgeputTurn f r h place ∨
      i = .qpop f ∧ put = false ∧ fits = groupFits r f.d 1 ∧ turn = qpopTurn f r h place ∨
      i = .qpush f ∧ put = true ∧ fits = groupFits r f.d 0 ∧ turn = qpushTurn f r h place)) ∧
    Issues s r i ∧
    r.parts f.u ≠ [] ∧
    eachTaken (queuePart r f.a h place put fits) turn (s.begun r i) (r.parts f.u) :=
  ⟨queueDevice queueRod 1, queueRod, .edgeput ⟨true, 100, 98⟩, ⟨true, 100, 98⟩, 0x100000, (fun n => 0x100000 + n), true, (fun q => q.rsz = 1), edgeputTurn ⟨true, 100, 98⟩ queueRod 0x100000 fun n => 0x100000 + n, .inr (.inl ⟨rfl, rfl, rfl, rfl⟩), issues_of (by decide +kernel), by decide +kernel, ⟨⟨queueReady_of (by decide +kernel) (by decide +kernel) (by decide +kernel) (by decide +kernel), by decide +kernel, by unfold recordIn; decide +kernel, by beta_reduce; decide +kernel, by decide +kernel⟩, trivial⟩⟩

theorem witness_qpop : ∃ (s : State) (r : Rod) (i : Instr) (f : ShUDA) (h : Nat) (place : Nat → Nat) (put : Bool) (fits : Queue → Prop) (turn : State → Option Nat → State),
    ((i = .edgeget f ∧ put = false ∧ fits = (fun q => q.rsz = 1) ∧ turn = edgegetTurn f r h place ∨
      i = .edgeput f ∧ put = true ∧ fits = (fun q => q.rsz = 1) ∧ turn = edgeputTurn f r h place ∨
      i = .qpop f ∧ put = false ∧ fits = groupFits r f.d 1 ∧ turn = qpopTurn f r h place ∨
      i = .qpush f ∧ put = true ∧ fits = groupFits r f.d 0 ∧ turn = qpushTurn f r h place)) ∧
    Issues s r i ∧
    r.parts f.u ≠ [] ∧
    eachTaken (queuePart r f.a h place put fits) turn (s.begun r i) (r.parts f.u) :=
  ⟨queueDevice queueRod 2, queueRod, .qpop ⟨true, 100, 98⟩, ⟨true, 100, 98⟩, 0x100000, (fun n => 0x100000 + n), false, groupFits queueRod 100 1, qpopTurn ⟨true, 100, 98⟩ queueRod 0x100000 fun n => 0x100000 + n, .inr (.inr (.inl ⟨rfl, rfl, rfl, rfl⟩)), issues_of (by decide +kernel), by decide +kernel, ⟨⟨queueReady_of (by decide +kernel) (by decide +kernel) (by decide +kernel) (by decide +kernel), by decide +kernel, by unfold recordIn; decide +kernel, by unfold groupFits; decide +kernel, by decide +kernel⟩, trivial⟩⟩

theorem witness_qpush : ∃ (s : State) (r : Rod) (i : Instr) (f : ShUDA) (h : Nat) (place : Nat → Nat) (put : Bool) (fits : Queue → Prop) (turn : State → Option Nat → State),
    ((i = .edgeget f ∧ put = false ∧ fits = (fun q => q.rsz = 1) ∧ turn = edgegetTurn f r h place ∨
      i = .edgeput f ∧ put = true ∧ fits = (fun q => q.rsz = 1) ∧ turn = edgeputTurn f r h place ∨
      i = .qpop f ∧ put = false ∧ fits = groupFits r f.d 1 ∧ turn = qpopTurn f r h place ∨
      i = .qpush f ∧ put = true ∧ fits = groupFits r f.d 0 ∧ turn = qpushTurn f r h place)) ∧
    Issues s r i ∧
    r.parts f.u ≠ [] ∧
    eachTaken (queuePart r f.a h place put fits) turn (s.begun r i) (r.parts f.u) :=
  ⟨queueDevice queueRod 1, queueRod, .qpush ⟨true, 100, 98⟩, ⟨true, 100, 98⟩, 0x100000, (fun n => 0x100000 + n), true, groupFits queueRod 100 0, qpushTurn ⟨true, 100, 98⟩ queueRod 0x100000 fun n => 0x100000 + n, .inr (.inr (.inr ⟨rfl, rfl, rfl, rfl⟩)), issues_of (by decide +kernel), by decide +kernel, ⟨⟨queueReady_of (by decide +kernel) (by decide +kernel) (by decide +kernel) (by decide +kernel), by decide +kernel, by unfold recordIn; decide +kernel, by unfold groupFits; decide +kernel, by decide +kernel⟩, trivial⟩⟩

/-- The rod with all of the object 5 in c0, whose first 256 bytes are a launch record. -/
def launchRod : Rod := rod.setCap 0 cap5

/-- The device whose queue table at 0x21000 names the address `hva` for queue 15; there, a header of one record: `n` is
published, and records are of `rsz` dwords. -/
def launchDevice (hva n rsz : Nat) : State :=
  mapped (launchRod.setS 3 15) [(24, 6, 0x21000), (0x101078, 8, hva), (0x102000, 8, n), (0x102018, 4, rsz * 2 ^ 24)]

theorem witness_launch_unnamed : ∃ (s : State) (r : Rod) (f : ShDAB) (a0 : Nat) (a1 : Nat) (qa : Nat),
    Issues s r (.launch f) ∧
    s.blockedLine r.uid = none ∧
    let x := (r.sreg (sIndex f.a)).toNat
    let qn := (r.sreg (sIndex f.b)).toNat
    let c := r.cap (x % 16)
    let off := x / 2 ^ 16 % 2 ^ 48
    let s1 := ((s.setRod r.leave).commitPerform r.uid).alter r.uid Rod.openRegion
    field x 4 20 = 0 ∧
    qn < 16 ∧
    c.lo.toNat ≤ off ∧
    off + 256 ≤ c.hi.toNat ∧
    Reaches s1 r c ⟨true, false, false, false, false⟩ off 128 .load a0 ∧
    Reaches s1 r c ⟨true, false, false, false, false⟩ (off + 128) 128 .load a1 ∧
    mapsTo s1 (some r.core) r.asid ((s1.ctxField r.asid 192 48 + 8 * qn) % 2 ^ 48) false qa ∧
    s1.damaged qa 8 = false ∧
    let hva := s1.natAt qa 8
    (hva = 0 ∨ hva % 128 ≠ 0 ∨ 2 ^ 48 ≤ hva) :=
  ⟨launchDevice 0 0 32, launchRod.setS 3 15, ⟨100, 98, 99⟩, 0x100000, 0x100080, 0x101078, issues_of (by decide +kernel), by decide +kernel, of4 (by decide +kernel) ⟨reaches_of (by decide +kernel), reaches_of (by decide +kernel), maps_of (by decide +kernel), by decide +kernel, by decide +kernel⟩⟩

theorem witness_launch_malformed : ∃ (s : State) (r : Rod) (f : ShDAB) (a0 : Nat) (a1 : Nat) (qa : Nat),
    Issues s r (.launch f) ∧
    s.blockedLine r.uid = none ∧
    let x := (r.sreg (sIndex f.a)).toNat
    let qn := (r.sreg (sIndex f.b)).toNat
    let c := r.cap (x % 16)
    let off := x / 2 ^ 16 % 2 ^ 48
    let s1 := ((s.setRod r.leave).commitPerform r.uid).alter r.uid Rod.openRegion
    field x 4 20 = 0 ∧
    qn < 16 ∧
    c.lo.toNat ≤ off ∧
    off + 256 ≤ c.hi.toNat ∧
    Reaches s1 r c ⟨true, false, false, false, false⟩ off 128 .load a0 ∧
    Reaches s1 r c ⟨true, false, false, false, false⟩ (off + 128) 128 .load a1 ∧
    mapsTo s1 (some r.core) r.asid ((s1.ctxField r.asid 192 48 + 8 * qn) % 2 ^ 48) false qa ∧
    s1.damaged qa 8 = false ∧
    let hva := s1.natAt qa 8
    (hva ≠ 0 ∧ hva % 128 = 0 ∧ hva < 2 ^ 48) ∧
    mapsTo s1 (some r.core) r.asid hva true 0x102000 ∧
    s1.damaged 0x102000 128 = false ∧
    (s1.queueAt 0x102000).bad true = true :=
  ⟨launchDevice 0x22000 0 31, launchRod.setS 3 15, ⟨100, 98, 99⟩, 0x100000, 0x100080, 0x101078, issues_of (by decide +kernel), by decide +kernel, of4 (by decide +kernel) ⟨reaches_of (by decide +kernel), reaches_of (by decide +kernel), maps_of (by decide +kernel), by decide +kernel, by decide +kernel, maps_of (by decide +kernel), by decide +kernel⟩⟩

theorem witness_launch_full : ∃ (s : State) (r : Rod) (f : ShDAB) (a0 : Nat) (a1 : Nat) (qa : Nat),
    Issues s r (.launch f) ∧
    s.blockedLine r.uid = none ∧
    let x := (r.sreg (sIndex f.a)).toNat
    let qn := (r.sreg (sIndex f.b)).toNat
    let c := r.cap (x % 16)
    let off := x / 2 ^ 16 % 2 ^ 48
    let s1 := ((s.setRod r.leave).commitPerform r.uid).alter r.uid Rod.openRegion
    field x 4 20 = 0 ∧
    qn < 16 ∧
    c.lo.toNat ≤ off ∧
    off + 256 ≤ c.hi.toNat ∧
    Reaches s1 r c ⟨true, false, false, false, false⟩ off 128 .load a0 ∧
    Reaches s1 r c ⟨true, false, false, false, false⟩ (off + 128) 128 .load a1 ∧
    mapsTo s1 (some r.core) r.asid ((s1.ctxField r.asid 192 48 + 8 * qn) % 2 ^ 48) false qa ∧
    s1.damaged qa 8 = false ∧
    let hva := s1.natAt qa 8
    (hva ≠ 0 ∧ hva % 128 = 0 ∧ hva < 2 ^ 48) ∧
    mapsTo s1 (some r.core) r.asid hva true 0x102000 ∧
    s1.damaged 0x102000 128 = false ∧
    ((s1.queueAt 0x102000).bad true = false ∧ (s1.queueAt 0x102000).count = (s1.queueAt 0x102000).size) :=
  ⟨launchDevice 0x22000 1 32, launchRod.setS 3 15, ⟨100, 98, 99⟩, 0x100000, 0x100080, 0x101078, issues_of (by decide +kernel), by decide +kernel, of4 (by decide +kernel) ⟨reaches_of (by decide +kernel), reaches_of (by decide +kernel), maps_of (by decide +kernel), by decide +kernel, by decide +kernel, maps_of (by decide +kernel), by decide +kernel⟩⟩

theorem witness_launch_posted : ∃ (s : State) (r : Rod) (f : ShDAB) (a0 : Nat) (a1 : Nat) (qa : Nat),
    Issues s r (.launch f) ∧
    s.blockedLine r.uid = none ∧
    let x := (r.sreg (sIndex f.a)).toNat
    let qn := (r.sreg (sIndex f.b)).toNat
    let c := r.cap (x % 16)
    let off := x / 2 ^ 16 % 2 ^ 48
    let s1 := ((s.setRod r.leave).commitPerform r.uid).alter r.uid Rod.openRegion
    field x 4 20 = 0 ∧
    qn < 16 ∧
    c.lo.toNat ≤ off ∧
    off + 256 ≤ c.hi.toNat ∧
    Reaches s1 r c ⟨true, false, false, false, false⟩ off 128 .load a0 ∧
    Reaches s1 r c ⟨true, false, false, false, false⟩ (off + 128) 128 .load a1 ∧
    mapsTo s1 (some r.core) r.asid ((s1.ctxField r.asid 192 48 + 8 * qn) % 2 ^ 48) false qa ∧
    s1.damaged qa 8 = false ∧
    let hva := s1.natAt qa 8
    (hva ≠ 0 ∧ hva % 128 = 0 ∧ hva < 2 ^ 48) ∧
    mapsTo s1 (some r.core) r.asid hva true 0x102000 ∧
    s1.damaged 0x102000 128 = false ∧
    ((s1.queueAt 0x102000).bad true = false ∧ (s1.queueAt 0x102000).count ≠ (s1.queueAt 0x102000).size) ∧
    mapsTo s1 (some r.core) r.asid ((hva + (s1.queueAt 0x102000).recordAt (s1.queueAt 0x102000).tail) % 2 ^ 48) true 0x102080 ∧
    mapsTo s1 (some r.core) r.asid ((hva + (s1.queueAt 0x102000).recordAt (s1.queueAt 0x102000).tail + 128) % 2 ^ 48) true 0x102100 :=
  ⟨launchDevice 0x22000 0 32, launchRod.setS 3 15, ⟨100, 98, 99⟩, 0x100000, 0x100080, 0x101078, issues_of (by decide +kernel), by decide +kernel, of4 (by decide +kernel) ⟨reaches_of (by decide +kernel), reaches_of (by decide +kernel), maps_of (by decide +kernel), by decide +kernel, by decide +kernel, maps_of (by decide +kernel), by decide +kernel, by decide +kernel, maps_of (by decide +kernel), maps_of (by decide +kernel)⟩⟩

/-- A rod of one active bead with the object 5 in c0 that has executed a LIVE, whose descriptor at 0x23000 names v1; its
context's continuation area has 16 cells for a core. -/
def unitRod : Rod := { (rod.setCap 0 cap5).setS 2 (60 * 2 ^ 16) with active := 1, live := some 0x23000 }

def unitDevice : State :=
  let s := mapped unitRod [(32, 6, 0x24000), (58, 3, 16 * 16), (0x103000, 4, 2)]
  [60, 61, 62, 63].foldl (fun s n => s.setCell 0 0 n ⟨0, true⟩) s

theorem witness_tex : ∃ (s : State) (r : Rod) (fr : Frame) (f : ShTex) (regs : List Nat),
    Issues s r (.tex f) ∧
    s.frame? r.frame = some fr ∧
    let x := (r.sreg (sIndex f.b)).toNat
    let cell := x / 2 ^ 16 % 2 ^ 20
    let s0 := s.begun r (.tex f)
    let cells := peekedCells s r 0 (fr.segS.base.toNat + cell) 2
    let image := cells.getD 0 0
    let sampler := cells.getD 1 0
    let c := r.cap (x % 16)
    field x 4 12 = 0 ∧
    field x 36 28 = 0 ∧
    cell + 2 ≤ fr.segS.limit.toNat ∧
    peekable s r 0 (fr.segS.base.toNat + cell) 2 ∧
    imageBad image.toNat = false ∧
    samplerBad sampler.toNat = false ∧
    c.v = true ∧
    c.rd = true ∧
    c.e = true ∧
    c.lo.toNat ≤ (Image.ofNat image.toNat).off ∧
    (Image.ofNat image.toNat).off + (Image.ofNat image.toNat).extent ≤ c.hi.toNat ∧
    liveNames s0 r regs ∧
    let req (k : Nat) : UnitReq := .tex f.c.toNat c image sampler
      ((List.range (texOperands f.c)).map fun j => r.word (some k) (next f.a j)) (k % 4) (r.quadOf k f.a)
    eachTaken (recordRoom r regs req) (beadEnds r f.d regs req) (describedState s0 r fr cell 2) r.issuing :=
  ⟨unitDevice, unitRod, placedFrame, ⟨1, 4, 8, 98⟩, [1], issues_of (by decide +kernel), by decide +kernel, by decide +kernel, by decide +kernel, by decide +kernel, by unfold peekable; decide +kernel, of4 (by decide +kernel) ⟨by decide +kernel, by decide +kernel, by decide +kernel, ⟨_, fun i => 0x103000 + 16 * i, rfl, code_reads (by decide +kernel), by decide +kernel⟩, ⟨by unfold recordRoom; decide +kernel, trivial⟩⟩⟩

theorem witness_trace : ∃ (s : State) (r : Rod) (f : ShTrace) (regs : List Nat),
    Issues s r (.trace f) ∧
    let x := (r.sreg (sIndex f.b)).toNat
    let s0 := s.begun r (.trace f)
    let c := r.cap (x % 16)
    field x 4 18 = 0 ∧
    c.v = true ∧
    c.rd = true ∧
    c.e = true ∧
    c.lo.toNat ≤ c.hi.toNat ∧
    liveNames s0 r regs ∧
    let req (k : Nat) : UnitReq := .trace f.c c (x / 2 ^ 16 % 2 ^ 48) ((List.range 8).map fun j => r.vreg k (next f.a j))
    eachTaken (recordRoom r regs req) (beadEnds r f.d regs req) s0 r.issuing :=
  ⟨unitDevice, unitRod, ⟨true, 8, 16, 99⟩, [1], issues_of (by decide +kernel), of4 (by decide +kernel) ⟨by decide +kernel, ⟨_, fun i => 0x103000 + 16 * i, rfl, code_reads (by decide +kernel), by decide +kernel⟩, ⟨by unfold recordRoom; decide +kernel, trivial⟩⟩⟩

theorem witness_vmarch : ∃ (s : State) (r : Rod) (fr : Frame) (f : ShDAB) (regs : List Nat),
    Issues s r (.vmarch f) ∧
    s.frame? r.frame = some fr ∧
    let x := (r.sreg (sIndex f.b)).toNat
    let cell := x / 2 ^ 16 % 2 ^ 20
    let s0 := s.begun r (.vmarch f)
    let desc := fourCells (peekedCells s r 0 (fr.segS.base.toNat + cell) 4)
    let g := Grid.ofNat desc.toNat
    let c := r.cap (x % 16)
    field x 4 12 = 0 ∧
    field x 36 28 = 0 ∧
    cell + 4 ≤ fr.segS.limit.toNat ∧
    peekable s r 0 (fr.segS.base.toNat + cell) 4 ∧
    gridReserved desc.toNat = false ∧
    c.v = true ∧
    c.rd = true ∧
    c.e = true ∧
    c.lo.toNat ≤ g.moff ∧
    g.moff + 4 * g.cells ≤ c.hi.toNat ∧
    c.lo.toNat ≤ g.doff ∧
    g.doff + 4 * g.cells * 8 ^ g.logs ≤ c.hi.toNat ∧
    liveNames s0 r regs ∧
    let req (k : Nat) : UnitReq := .march c desc ((List.range 12).map fun j => r.vreg k (next f.a j))
    eachTaken (recordRoom r regs req) (beadEnds r f.d regs req) (describedState s0 r fr cell 4) r.issuing :=
  ⟨unitDevice, unitRod, placedFrame, ⟨8, 16, 98⟩, [1], issues_of (by decide +kernel), by decide +kernel, by decide +kernel, by decide +kernel, by decide +kernel, by unfold peekable; decide +kernel, of4 (by decide +kernel) (of4 (by decide +kernel) ⟨⟨_, fun i => 0x103000 + 16 * i, rfl, code_reads (by decide +kernel), by decide +kernel⟩, ⟨by unfold recordRoom; decide +kernel, trivial⟩⟩)⟩

/-! ### Witnesses: what befalls rods and frames -/

/-- A rod with two results outstanding, of which the second has come. -/
def pendingRod : Rod := { rod with scoreboard := [⟨4, none⟩, ⟨31, some 7⟩] }

/-- A rod in a status. -/
def waiting (x : RodStatus) : Rod := { rod with status := x }

theorem not_fetched {s : State} {r : Rod} (h : s.fetched r = none) : ∀ w, s.fetched r = some w → r.interlocked w = false :=
  fun _ hw => nomatch h.symm.trans hw

theorem witness_writeback : ∃ (s : State) (u : Nat) (r : Rod) (p : Pending) (x : Dword),
    s.rod? u = some r ∧
    r.scoreboard.find? (fun p => p.value.isSome) = some p ∧
    p.value = some x :=
  ⟨benchOf pendingRod, 1, pendingRod, ⟨31, some 7⟩, 7, by decide +kernel⟩

theorem witness_timer : ∃ (s : State) (u : Nat) (r : Rod),
    s.rod? u = some r ∧
    ((r.timerDue = true ∨ r.timerEn = true ∧ r.timerCount = 0)) ∧
    s.halted r.asid = false ∧
    r.handler = none ∧
    r.status = .ready ∧
    (∀ w, s.fetched r = some w → r.interlocked w = false) ∧
    s.ctxHandler r.asid ≠ 0 ∧
    24 ≤ r.s.length :=
  ⟨mapped { rod with timerEn := true } [(48, 6, 0x4000)], 1, { rod with timerEn := true }, by decide +kernel, .inr (by decide +kernel), by decide +kernel, by decide +kernel, by decide +kernel, not_fetched (by decide +kernel), by decide +kernel⟩

theorem witness_timer_due : ∃ (s : State) (u : Nat) (r : Rod),
    s.rod? u = some r ∧
    ((r.timerDue = true ∨ r.timerEn = true ∧ r.timerCount = 0)) ∧
    s.halted r.asid = false ∧
    r.handler = none ∧
    r.status = .ready ∧
    (∀ w, s.fetched r = some w → r.interlocked w = false) ∧
    s.ctxHandler r.asid ≠ 0 ∧
    24 ≤ r.s.length :=
  ⟨mapped { rod with timerDue := true } [(48, 6, 0x4000)], 1, { rod with timerDue := true }, by decide +kernel, .inl rfl, by decide +kernel, by decide +kernel, by decide +kernel, not_fetched (by decide +kernel), by decide +kernel⟩

/-- A rod whose TIMER has expired and whose next instruction, IADD v5, v2, s4, waits for s4. -/
def heldTimer : Rod := { rod with timerEn := true, scoreboard := [⟨4, none⟩] }

theorem witness_timer_waits : ∃ (s : State) (u : Nat) (r : Rod),
    s.rod? u = some r ∧
    ((r.timerDue = true ∨ r.timerEn = true ∧ r.timerCount = 0)) ∧
    s.halted r.asid = false ∧
    r.handler = none ∧
    r.status = .ready ∧
    (∃ w, s.fetched r = some w ∧ r.interlocked w = true) :=
  ⟨{ benchOf heldTimer with icache := [placedLine (encode (.iadd ⟨false, false, false, false, 5, 2, 100⟩)).toNat] }, 1, heldTimer, by decide +kernel, .inr (by decide +kernel), by decide +kernel, by decide +kernel, by decide +kernel, ⟨encode (.iadd ⟨false, false, false, false, 5, 2, 100⟩), by decide +kernel⟩⟩

theorem witness_hold_end : ∃ (s : State) (u : Nat) (c : Nat) (r : Rod),
    s.rod? u = some r ∧
    r.status = .held c ∧
    c ≤ s.clk.toNat :=
  ⟨{ benchOf (waiting (.held 65)) with clk := 65 }, 1, 65, waiting (.held 65), by decide +kernel⟩

theorem witness_waitv_wake : ∃ (s : State) (u : Nat) (tk : Nat) (c : Nat) (r : Rod) (ls : List Nat) (hit : Bool) (full : Bool),
    s.rod? u = some r ∧
    r.status = .asleep (.waitv ls hit full) tk c :=
  ⟨benchOf (waiting (.asleep (.waitv [5] true false) 1 0)), 1, 1, 0, waiting (.asleep (.waitv [5] true false) 1 0), [5], true, false, by decide +kernel⟩

theorem witness_flush_complete : ∃ (s : State) (u : Nat) (tk : Nat) (c : Nat) (scope : Nat) (r : Rod) (inv : Bool),
    s.rod? u = some r ∧
    r.status = .asleep (.flush scope inv) tk c ∧
    ((∀ i ∈ s.inflight, i.rod ≠ u ∧ ∀ w ∈ i.bytes, (5 ≤ scope → field w.1 50 2 = 2 → field w.1 38 12 = s.endpoint) ∧
      (6 ≤ scope → field w.1 50 2 ≠ 1))) ∧
    ((∀ l ∈ s.dirty, flushReaches scope r.core l = true → s.portDown (l * 128) = none)) :=
  ⟨{ benchOf (waiting (.asleep (.flush 6 true) 1 0)) with dirty := [5, 9], dieCopies := [⟨0, 5, 0⟩] }, 1, 1, 0, 6, waiting (.asleep (.flush 6 true) 1 0), true, by decide +kernel⟩

theorem witness_fill : ∃ (s : State) (u : Nat) (base : Nat) (len : Nat) (a : Nat) (r : Rod),
    s.rod? u = some r ∧
    r.status = .ready ∧
    codeIs s r.core r.asid r.pc.toNat base len ∧
    r.pc.toNat + 4 ≤ base + len ∧
    mapsTo s (some r.core) r.asid r.pc.toNat false a ∧
    s.damaged (a / 128 * 128) 128 = false :=
  ⟨codeDevice, 1, 0x20000, 0x10000, 0x108000, codeRod, by decide +kernel, by decide +kernel, ⟨0, 0x100100, by decide +kernel, ⟨maps_of (by decide +kernel), by decide +kernel⟩, by decide +kernel, by unfold admits; decide +kernel, fun _ h => absurd h (Nat.not_lt_zero _)⟩, by decide +kernel, maps_of (by decide +kernel), by decide +kernel⟩

/-- Page tables whose walk of page 31 ends in a writable leaf. -/
def tables : List (Nat × Nat × Nat) :=
  [(0, 7, 0x40000), (0x40000, 8, 0x41001), (0x41000, 8, 0x42001), (0x420F8, 8, 0x50007)]

/-- The conditions of `leafAt`, as one truth value. -/
def leafB (s : State) (look : Nat → Option Nat) (va : Nat) : List (Nat × Nat × Nat) → Nat → Nat → Nat → Nat → Bool
  | [], _, _, _, _ => false
  | (bits, width, nextBits) :: levels, table, a, e, size =>
    let x := table + 8 * field va bits width
    let y := (look x).getD (s.natAt x 8)
    decide (look x = none → s.damaged x 8 = false) && decide (y.testBit 0 = true) && decide (pteBad bits nextBits levels.isEmpty y = false) &&
      if y.testBit 1 then decide (look x = none ∧ a = x ∧ e = y ∧ size = bits) else leafB s look va levels (pteAddr y) a e size

theorem leaf_of {s : State} {look : Nat → Option Nat} {va a e size : Nat} : ∀ {l : List (Nat × Nat × Nat)} {table : Nat},
    leafB s look va l table a e size = true → leafAt s look va l table a e size
  | [], _, h => nomatch h
  | (bits, width, nextBits) :: levels, table, h => by
    simp only [leafB, Bool.and_eq_true, decide_eq_true_eq] at h
    obtain ⟨⟨⟨h0, h1⟩, h2⟩, h3⟩ := h
    refine ⟨h0, h1, h2, ?_⟩
    split at h3
    · next h4 => rw [if_pos h4]; exact of_decide_eq_true h3
    · next h4 => rw [if_neg h4]; exact leaf_of h3

theorem witness_walk : ∃ (s : State) (w : Walk) (a : Nat) (e : Nat) (bits : Nat),
    s.walksUnderWay = [w] ∧
    s.memoryCanonical ∧
    leafAt s (s.walkLook (tableOfSlice (tlbSliceOf w.asid 16 w.page)) w.asid) (65536 * w.page) ptLevels
      (s.ctxField w.asid 0 52) a e bits ∧
    ((w.write = true → e.testBit 2 = true)) :=
  ⟨{ mapped rod tables with walks := [⟨0, 31, true⟩] }, ⟨0, 31, true⟩, 0x420F8, 0x50007, 16, by decide +kernel, by unfold State.memoryCanonical; decide +kernel, leaf_of (by decide +kernel), by decide +kernel⟩

/-- A read fault of rod 1 that waits for its fault record, on a device with fault queues at 0x6000. -/
def pageFault : FaultRec := ⟨0, 0, 0, 0x20000, 0, 0, 0, 0x10000, 0, [.rod 1]⟩

def faultDevice : State :=
  { mapped rod [(0x1040, 8, 0x6000), (0x1048, 8, 0x6000), (0x1050, 8, 0x6000), (0x1058, 8, 0x6000)] with
    sysBlock := some 0x1000, faultWait := [pageFault] }

theorem fault_homes : ∀ d < 4, faultDevice.sysEntry (0x40 + 8 * d) = some 0x6000 := by decide +kernel

theorem fault_home : faultDevice.sysEntry (0x40 + 8 * pageFault.homeDie) = some 0x6000 :=
  fault_homes _ (Nat.div_lt_of_lt_mul (Nat.div_lt_of_lt_mul (Nat.mod_lt _ (by decide))))

theorem witness_fault_record : ∃ (s : State) (f : FaultRec) (fs : List FaultRec),
    s.faultWait = f :: fs ∧
    let same (x : FaultRec) : Bool := decide (x.asid = f.asid ∧ x.va / 65536 = f.va / 65536 ∧ x.kind = f.kind)
    (∃ b, s.faultRecs.find? same = none ∧ s.memoryCanonical ∧ s.sysEntry (0x40 + 8 * f.homeDie) = some b ∧ ∀ x ∈ s.faultRecs, x.die = f.homeDie → x.recid % Config.faultRing ≠ nth 0 s.recids f.homeDie % Config.faultRing) :=
  ⟨faultDevice, pageFault, [], rfl, ⟨0x6000, by decide +kernel, by unfold State.memoryCanonical; decide +kernel, fault_home, fun _ h => nomatch h⟩⟩

theorem witness_fault_merged : ∃ (s : State) (f : FaultRec) (fs : List FaultRec),
    s.faultWait = f :: fs ∧
    let same (x : FaultRec) : Bool := decide (x.asid = f.asid ∧ x.va / 65536 = f.va / 65536 ∧ x.kind = f.kind)
    (∃ x, s.faultRecs.find? same = some x) :=
  ⟨{ faultDevice with faultRecs := [{ pageFault with recid := 3, merged := 65535 }] }, pageFault, [], rfl, ⟨_, rfl⟩⟩

theorem witness_port_fault : ∃ (s : State) (f : PortFault) (fs : List PortFault) (r : Rod),
    s.portFaults = f :: fs ∧
    s.rod? f.rod = some r :=
  ⟨{ bench with portFaults := [⟨1, 3, 0x10000, 5, 0x20000⟩] }, ⟨1, 3, 0x10000, 5, 0x20000⟩, [], rod, rfl, by decide +kernel⟩

theorem witness_stall_rod : ∃ (s : State) (u : Nat) (tk : Nat) (c : Nat) (va : Nat) (k : Nat) (why : Sleep) (r : Rod),
    s.rod? u = some r ∧
    r.status = .asleep why tk c ∧
    (((∃ page, why = .fabric page va k ∧ c + 2 ^ 21 ≤ s.clk.toNat) ∨ ∃ port n, why = .tier port va k n ∧ c + n ≤ s.clk.toNat)) :=
  ⟨{ benchOf (waiting (.asleep (.fabric 7 0x70000 0) 1 5)) with clk := 5 + 2 ^ 21 }, 1, 1, 5, 0x70000, 0, .fabric 7 0x70000 0, waiting (.asleep (.fabric 7 0x70000 0) 1 5), by decide +kernel, by decide +kernel, .inl ⟨7, rfl, by decide +kernel⟩⟩

theorem witness_stall_tier : ∃ (s : State) (u : Nat) (tk : Nat) (c : Nat) (va : Nat) (k : Nat) (why : Sleep) (r : Rod),
    s.rod? u = some r ∧
    r.status = .asleep why tk c ∧
    (((∃ page, why = .fabric page va k ∧ c + 2 ^ 21 ≤ s.clk.toNat) ∨ ∃ port n, why = .tier port va k n ∧ c + n ≤ s.clk.toNat)) :=
  ⟨{ benchOf (waiting (.asleep (.tier 7 0x70000 0 131072) 1 5)) with clk := 5 + 2 ^ 17 }, 1, 1, 5, 0x70000, 0, .tier 7 0x70000 0 131072, waiting (.asleep (.tier 7 0x70000 0 131072) 1 5), by decide +kernel, by decide +kernel, .inr ⟨7, 131072, rfl, by decide +kernel⟩⟩

theorem witness_stall_request : ∃ (s : State) (i : Nat) (n : Nat) (w : FabricWait),
    s.fabricWaits[i]? = some w ∧
    w.began + n ≤ s.clk.toNat ∧
    (((∃ page, w.for_ = .page page ∧ n = 2 ^ 21) ∨ ∃ port, w.for_ = .port port n)) :=
  ⟨{ bench with clk := 5 + 2 ^ 21, fabricWaits := [⟨.engine 0, 0, 0, 0, 0x70000, .page 7, 5⟩] }, 0, 2 ^ 21, ⟨.engine 0, 0, 0, 0, 0x70000, .page 7, 5⟩, by decide +kernel, by decide +kernel, .inl ⟨7, rfl, rfl⟩⟩

theorem witness_stall_port : ∃ (s : State) (i : Nat) (n : Nat) (w : FabricWait),
    s.fabricWaits[i]? = some w ∧
    w.began + n ≤ s.clk.toNat ∧
    (((∃ page, w.for_ = .page page ∧ n = 2 ^ 21) ∨ ∃ port, w.for_ = .port port n)) :=
  ⟨{ bench with clk := 5 + 2 ^ 17, fabricWaits := [⟨.engine 0, 0, 0, 0, 0x70000, .port 3 (2 ^ 17), 5⟩] }, 0, 2 ^ 17, ⟨.engine 0, 0, 0, 0, 0x70000, .port 3 (2 ^ 17), 5⟩, by decide +kernel, by decide +kernel, .inr ⟨3, rfl⟩⟩

/-- A committed line of rod 1 that lies in an export page of endpoint 1, and one on a CXL port. -/
def lineAt (a : Nat) : Inflight :=
  { rod := 1, frame := 0, core := 0, asid := 0, frameid := 0, rodid := 0, pc := 0x10000, commit := 0, rel := [], bytes := [(a, 7)], tags := [], began := 5 }

def stalledDevice (a : Nat) : State := { bench with clk := 5 + 2 ^ 23, inflight := [lineAt a], portsDown := [15] }

theorem witness_stall_line : ∃ (s : State) (n : Nat) (a : Nat) (i : Inflight) (v : Byte) (bs : List (Nat × Byte)),
    s.inflight[n]? = some i ∧
    i.bytes = (a, v) :: bs ∧
    (((∃ page, s.barred a true = some (.page page) ∧ i.began + 2 ^ 21 ≤ s.clk.toNat) ∨
      ∃ port, s.barred a true = some (.port port) ∧ i.began + tierLimit (mtIn i.tags a) ≤ s.clk.toNat)) :=
  ⟨stalledDevice (2 ^ 51 + 2 ^ 38), 0, 2 ^ 51 + 2 ^ 38, lineAt (2 ^ 51 + 2 ^ 38), 7, [], rfl, rfl, .inl ⟨(2 ^ 51 + 2 ^ 38) / 65536, by decide +kernel, by decide +kernel⟩⟩

theorem witness_stall_line_tier : ∃ (s : State) (n : Nat) (a : Nat) (i : Inflight) (v : Byte) (bs : List (Nat × Byte)),
    s.inflight[n]? = some i ∧
    i.bytes = (a, v) :: bs ∧
    (((∃ page, s.barred a true = some (.page page) ∧ i.began + 2 ^ 21 ≤ s.clk.toNat) ∨
      ∃ port, s.barred a true = some (.port port) ∧ i.began + tierLimit (mtIn i.tags a) ≤ s.clk.toNat)) :=
  ⟨stalledDevice (2 ^ 50 + 15 * 2 ^ 44), 0, 2 ^ 50 + 15 * 2 ^ 44, lineAt (2 ^ 50 + 15 * 2 ^ 44), 7, [], rfl, rfl, .inr ⟨15, by decide +kernel, by decide +kernel⟩⟩

/-- A chain entry at 64 of the object 5 that copies 32 bytes from the handle 1 to the handle 2, both of the object 5; the
object-table entry of the object 5. -/
def entryBits : Nat := packFields [(48, 128), (80, 0), (16, 2), (16, 1), (8, 0), (24, 0), (48, 0x8000), (16, 0), (48, 0xFFE0), (16, 0), (48, 32)]

def cap5Bits : Nat := 63 * 2 ^ 122 + 5 * 2 ^ 96 + 0x10000

def objectBits : Nat := 2 ^ 127 + 0x10000 * 2 ^ 64 + 0x20000

/-- A device whose handle table gives entry 1 and entry 2 the object 5, which an agent of no core finds in the object table. -/
def handled : State :=
  { mapped rod [(8, 6, 0x20200), (14, 2, 2), (16, 6, 0x20100), (61, 3, 15), (0x100040, 64, entryBits), (0x100110, 16, cap5Bits),
      (0x100120, 16, cap5Bits), (0x100250, 16, objectBits)] with rods := [] }

theorem witness_retire : ∃ (s : State) (u : Nat) (f : Frame) (l : Launch),
    s.frame? u = some f ∧
    s.frameDone f = true ∧
    s.halted f.asid = false ∧
    rising s.slots ∧
    s.transfers = [] ∧
    (∀ c ∈ s.credits, c.reply ≠ some .granted) ∧
    s.launches.find? (fun l => decide (l.uid = f.launch)) = some l ∧
    (1 < l.left ∨ l.dw = false) :=
  ⟨{ bench with rods := [], launches := [⟨0, 0, 0, 0, 1, false, 0, 0⟩] }, 0, placedFrame, ⟨0, 0, 0, 0, 1, false, 0, 0⟩, by decide +kernel, by decide +kernel, by decide +kernel, by unfold rising; decide +kernel, rfl, (fun _ h => nomatch h), rfl, .inr rfl⟩

theorem witness_retire_word : ∃ (s : State) (u : Nat) (f : Frame) (l : Launch),
    s.frame? u = some f ∧
    s.frameDone f = true ∧
    s.halted f.asid = false ∧
    rising s.slots ∧
    s.transfers = [] ∧
    (∀ c ∈ s.credits, c.reply ≠ some .granted) ∧
    s.launches.find? (fun l => decide (l.uid = f.launch)) = some l ∧
    (∃ (cap : Cap) (a : Nat), l.left ≤ 1 ∧ l.dw = true ∧ s.memoryCanonical ∧ handleIs s l.asid l.doneh (some cap) ∧ cap.v = true ∧ cap.w = true ∧ l.doneoff + 8 ≤ cap.hi.toNat ∧ EngineReaches s ⟨none, l.asid, 0, ⟨Marks.none, []⟩⟩ cap l.doneoff 8 true a) :=
  ⟨{ handled with launches := [⟨0, 0, 0, 0, 1, true, 1, 0⟩] }, 0, placedFrame, ⟨0, 0, 0, 0, 1, true, 1, 0⟩, by decide +kernel, by decide +kernel, by decide +kernel, by unfold rising; decide +kernel, rfl, (fun _ h => nomatch h), rfl, ⟨cap5, 0x100000, by decide +kernel, rfl, by unfold State.memoryCanonical; decide +kernel, .inr ⟨by decide +kernel, 0x100110, maps_of (by decide +kernel), by decide +kernel⟩, rfl, rfl, by decide +kernel, engine_of (by decide +kernel)⟩⟩

/-- A frame whose window 0 is a given one. -/
def windowFrame (w : Window) : Frame := { placedFrame with windows := [w, Window.empty] }

/-- A device with that frame, whose object 5 is cached. -/
def windowDevice (w : Window) (l : List (Nat × Nat × Nat)) : State := { mapped rod l with frames := [windowFrame w] }

/-- A window that copies two cells into W from the end of the object 5, of which one has landed. -/
def copying : Window := ⟨.copying, 1, 62, 1, 2, 0, cap5, 0xFFE0, 1, none, none, Seen.none, []⟩

theorem witness_copy_cell : ∃ (s : State) (u : Nat) (n : Nat) (f : Frame) (at_ : Nat → Nat),
    s.frame? u = some f ∧
    (f.window n).gather = none ∧
    s.hasTurn f n = true ∧
    let w := f.window n
    (∀ i < 16, EngineReads s ⟨some f.core, f.asid, 1, w.seen⟩ w.cap
      (w.off + w.landed / w.rowc * w.stride + 16 * (w.landed % w.rowc) + i) (at_ i)) :=
  ⟨windowDevice copying [(0x10FFF0, 16, 77)], 0, 0, windowFrame copying, (fun i => 0x10FFF0 + i), by decide +kernel, by decide +kernel, by decide +kernel, all_reads rfl (by decide +kernel)⟩

theorem witness_wdrop_complete : ∃ (s : State) (u : Nat) (n : Nat) (f : Frame),
    s.frame? u = some f ∧
    (f.window n).st = .draining :=
  ⟨windowDevice { copying with st := .draining } [], 0, 0, windowFrame { copying with st := .draining }, by decide +kernel⟩

/-- A walk of one element, its column index at 0 and its value at 0xFFFC. -/
def plan : GatherPlan := ⟨1, 1, 0, 0, 0xFFFC, 0⟩
def walk : Gather := ⟨true, 1, 4, 4, 0, 1, some plan, 0, [], []⟩
def walking : Window := ⟨.copying, 0, 0, 1, 2, 0, cap5, 0, 0, some walk, none, Seen.none, []⟩

theorem witness_gather : ∃ (s : State) (u : Nat) (n : Nat) (f : Frame) (g : Gather) (p : GatherPlan) (ca : Nat → Nat) (va : Nat → Nat),
    s.frame? u = some f ∧
    (f.window n).gather = some g ∧
    s.hasTurn f n = true ∧
    g.plan = some p ∧
    g.done ≠ p.m ∧
    (f.window n).cap.lo.toNat ≤ (p.ci + 4 * (p.p0 + g.done)) ∧
    (p.ci + 4 * (p.p0 + g.done)) + 4 ≤ (f.window n).cap.hi.toNat ∧
    (f.window n).cap.lo.toNat ≤ (p.va + g.vw * (p.p0 + g.done)) ∧
    (p.va + g.vw * (p.p0 + g.done)) + g.vw ≤ (f.window n).cap.hi.toNat ∧
    (∀ i < 4, EngineReads s ⟨some f.core, f.asid, 2, (f.window n).seen⟩ (f.window n).cap ((p.ci + 4 * (p.p0 + g.done)) + i) (ca i)) ∧
    (∀ i < g.vw, EngineReads s ⟨some f.core, f.asid, 2, (f.window n).seen⟩ (f.window n).cap ((p.va + g.vw * (p.p0 + g.done)) + i) (va i)) :=
  ⟨windowDevice walking [], 0, 0, windowFrame walking, walk, plan, (fun i => 0x100000 + i), (fun i => 0x10FFFC + i), of4 (by decide +kernel) (of4 (by decide +kernel) ⟨by decide +kernel, all_reads rfl (by decide +kernel), all_reads rfl (by decide +kernel)⟩)⟩

/-- A package copy engine that is to run that entry, and the entry. -/
def engine : CopyEngine := ⟨3, 0, cap5, 64, 128, 41, none, false, Marks.none, Seen.none, none, false⟩

def entry : ChainEntry := ⟨64, 128, 32, none, cap5, 0x8000, cap5, 0xFFE0, 0⟩

def copyDevice (e : CopyEngine) : State := { handled with copyEngines := [e] }

theorem handles : ∀ h, h = 1 ∨ h = 2 → handleIs (copyDevice engine) 0 h (some cap5) := by
  rintro h (rfl | rfl)
  · exact .inr ⟨by decide +kernel, 0x100110, maps_of (by decide +kernel), by decide +kernel⟩
  · exact .inr ⟨by decide +kernel, 0x100120, maps_of (by decide +kernel), by decide +kernel⟩

theorem witness_chain_start : ∃ (s : State) (n : Nat) (c : CopyEngine) (at_ : Nat → Nat) (src : Option Cap) (dst : Option Cap) (e : ChainEntry),
    s.copyEngine? n = some c ∧
    c.cur ≠ c.tail ∧
    c.stopped = false ∧
    c.running = none ∧
    c.fault = none ∧
    c.releasing = false ∧
    (∀ i < 64, EngineReads s c.client c.cap (c.cur + i) (at_ i)) ∧
    handleIs s c.asid (field (natOfBytes ((List.range 64).map fun i => Memory.read s.mem (at_ i))) 144 16) src ∧
    handleIs s c.asid (field (natOfBytes ((List.range 64).map fun i => Memory.read s.mem (at_ i))) 128 16) dst ∧
    e.off = c.cur ∧
    EntryGood (natOfBytes ((List.range 64).map fun i => Memory.read s.mem (at_ i))) c.cap src dst e :=
  ⟨copyDevice engine, 3, engine, (fun i => 0x100040 + i), some cap5, some cap5, entry, of4 (by decide +kernel) ⟨by decide +kernel, by decide +kernel, all_reads rfl (by decide +kernel), handles _ (.inl (by decide +kernel)), handles _ (.inr (by decide +kernel)), by decide +kernel, ⟨by decide +kernel, by decide +kernel, by decide +kernel, by decide +kernel, by decide +kernel, by decide +kernel, ⟨rfl, fun _ => ⟨cap5, by decide +kernel⟩⟩, ⟨cap5, by decide +kernel⟩, by decide +kernel⟩⟩⟩

theorem witness_chain_unit : ∃ (s : State) (n : Nat) (c : CopyEngine) (e : ChainEntry),
    s.copyEngine? n = some c ∧
    c.running = some e ∧
    c.fault = none ∧
    (∃ src dst : Nat → Nat, e.units < (e.len + 15) / 16 ∧ (∀ i < min 16 (e.len - 16 * e.units), EngineReaches s c.client e.dst (e.doff + 16 * e.units + i) 1 true (dst i)) ∧ (e.fill = none → ∀ i < min 16 (e.len - 16 * e.units), EngineReads s c.client e.src (e.soff + 16 * e.units + i) (src i))) :=
  ⟨copyDevice { engine with running := some { entry with len := 17, units := 1 } }, 3, { engine with running := some { entry with len := 17, units := 1 } }, { entry with len := 17, units := 1 }, by decide +kernel, by decide +kernel, by decide +kernel, ⟨fun i => 0x108010 + i, fun i => 0x10FFF0 + i, by decide +kernel, all_engine (by decide +kernel), fun _ => all_reads rfl (by decide +kernel)⟩⟩

theorem witness_chain_complete : ∃ (s : State) (n : Nat) (c : CopyEngine) (e : ChainEntry),
    s.copyEngine? n = some c ∧
    c.running = some e ∧
    c.fault = none ∧
    (∃ a, (e.len + 15) / 16 ≤ e.units ∧ EngineReaches s c.client c.cap 0 8 true a) :=
  ⟨copyDevice { engine with running := some { entry with units := 2 } }, 3, { engine with running := some { entry with units := 2 } }, { entry with units := 2 }, by decide +kernel, by decide +kernel, by decide +kernel, ⟨0x100000, by decide +kernel, engine_of (by decide +kernel)⟩⟩

/-! ### Witnesses: the carry network -/

/-- A SUMSET of one slot: index 31 of core 0, one arrival of one cell at cell 63 of C. -/
def resv (stage : ResvStage) : Resv := ⟨1, 0, 0, 0, 0, 4, false, 0, 15, [⟨0, 31, 63, 1, 1⟩], 0, stage⟩

/-- That slot in a state. -/
def slotIn (st : SlotState) : Slot := { Slot.empty with st := st, chain := 15, rod := 1, cell := 63, size := 1, count := 1, remain := 1 }

def slotDevice (st : SlotState) : State := bench.setSlot 0 31 (slotIn st)

theorem witness_reserve_waits : ∃ (s : State) (u : Nat) (v : Resv) (q : Spec),
    s.resv? u = some v ∧
    v.specs[v.next]? = some q ∧
    v.stage = .request ∧
    (s.slot q.core q.slot).st = .held :=
  ⟨{ slotDevice .held with resvs := [resv .request] }, 1, resv .request, ⟨0, 31, 63, 1, 1⟩, by decide +kernel⟩

theorem witness_reserve : ∃ (s : State) (u : Nat) (v : Resv) (q : Spec) (f : Frame) (g : Frame),
    s.resv? u = some v ∧
    v.specs[v.next]? = some q ∧
    ((v.stage = .request ∧ s.resvWaiters q = [] ∨ ∃ t, v.stage = .waiting t ∧ ∀ k ∈ s.resvWaiters q, t ≤ k)) ∧
    (s.slot q.core q.slot).st = .free ∧
    s.frame? v.frame = some f ∧
    s.ownerOn f q.core = .bound g ∧
    q.cell + q.size ≤ g.segC.limit.toNat ∧
    s.carryOwned q.core (g.segC.base.toNat + q.cell) q.size = false ∧
    ((∀ t ∈ s.tasks, ∀ x af bf h, t.kind = .tile x af bf → s.frame? t.frame = some h →
      (h.range (recC x).1 (recC x).2.1 (recC x).2.2).meets (g.range 3 q.cell q.size) = false)) :=
  ⟨{ bench with resvs := [resv .request] }, 1, resv .request, ⟨0, 31, 63, 1, 1⟩, placedFrame, placedFrame, by decide +kernel, by decide +kernel, .inl (by decide +kernel), of4 (by decide +kernel) ⟨by decide +kernel, fun _ h => nomatch h⟩⟩

theorem witness_reserve_served : ∃ (s : State) (u : Nat) (v : Resv) (q : Spec) (f : Frame) (g : Frame),
    s.resv? u = some v ∧
    v.specs[v.next]? = some q ∧
    ((v.stage = .request ∧ s.resvWaiters q = [] ∨ ∃ t, v.stage = .waiting t ∧ ∀ k ∈ s.resvWaiters q, t ≤ k)) ∧
    (s.slot q.core q.slot).st = .free ∧
    s.frame? v.frame = some f ∧
    s.ownerOn f q.core = .bound g ∧
    q.cell + q.size ≤ g.segC.limit.toNat ∧
    s.carryOwned q.core (g.segC.base.toNat + q.cell) q.size = false ∧
    ((∀ t ∈ s.tasks, ∀ x af bf h, t.kind = .tile x af bf → s.frame? t.frame = some h →
      (h.range (recC x).1 (recC x).2.1 (recC x).2.2).meets (g.range 3 q.cell q.size) = false)) :=
  ⟨{ bench with resvs := [resv (.waiting 7)] }, 1, resv (.waiting 7), ⟨0, 31, 63, 1, 1⟩, placedFrame, placedFrame, by decide +kernel, by decide +kernel, .inr ⟨7, by decide +kernel⟩, of4 (by decide +kernel) ⟨by decide +kernel, fun _ h => nomatch h⟩⟩

theorem witness_reservation_reply : ∃ (s : State) (u : Nat) (v : Resv),
    s.resv? u = some v ∧
    v.stage = .reply 0 :=
  ⟨{ bench with resvs := [resv (.reply 0)] }, 1, resv (.reply 0), by decide +kernel⟩

theorem witness_slot_open : ∃ (s : State) (u : Nat) (v : Resv) (r : Rod),
    s.resv? u = some v ∧
    v.stage = .opening ∧
    s.rod? v.rod = some r :=
  ⟨{ slotDevice .held with resvs := [resv .opening] }, 1, resv .opening, rod, by decide +kernel⟩

/-- A credit request of bead 0 for the slot. -/
def credit (x : Option CreditReply) : Credit := ⟨1, 0, 0, 0, some 0, 0, 31, 1, [1, 2], x⟩

theorem witness_credit : ∃ (s : State) (u : Nat) (c : Credit),
    s.credit? u = some c ∧
    c.reply = none ∧
    (s.slot c.dst c.slot).st = .open_ ∧
    (s.slot c.dst c.slot).asid = c.asid ∧
    (s.slot c.dst c.slot).remain ≠ 0 ∧
    (s.slot c.dst c.slot).size = c.size :=
  ⟨{ slotDevice .open_ with credits := [credit none] }, 1, credit none, by decide +kernel⟩

theorem witness_credit_reply : ∃ (s : State) (u : Nat) (c : Credit) (r : Rod),
    s.credit? u = some c ∧
    c.reply = some .granted ∧
    s.rod? u = some r :=
  ⟨{ benchOf (waiting (.asleep .credit 1 0)) with credits := [credit (some .granted)] }, 1, credit (some .granted), waiting (.asleep .credit 1 0), by decide +kernel⟩

theorem witness_transfer : ∃ (s : State) (core : Nat) (slot : Nat) (m : Transfer) (ms : List Transfer) (g : Frame),
    s.granted core slot = m :: ms ∧
    (∀ n ∈ ms, n.core = m.core) ∧
    s.frame? (s.slot core slot).frame = some g ∧
    (s.slot core slot).st = .open_ :=
  ⟨{ slotDevice .open_ with transfers := [⟨0, 0, 0, 31, [1, 2]⟩] }, 0, 31, ⟨0, 0, 0, 31, [1, 2]⟩, [], placedFrame, by decide +kernel⟩

theorem witness_slot_wake : ∃ (s : State) (core : Nat) (dst : Nat) (slot : Nat) (u : Nat) (r : Rod) (p : Park),
    s.rod? u = some r ∧
    r.core = core ∧
    r.status = .parked p ∧
    p.cls = 2 ∧
    p.info.toNat % 256 = dst ∧
    p.info.toNat / 256 % 32 = slot ∧
    s.halted r.asid = false :=
  ⟨{ benchOf (waiting (.parked ⟨2, 1, some 0, 31 * 256 + 9, none, none⟩)) with slotWakes := [(0, 9, 31)] }, 0, 9, 31, 1, waiting (.parked ⟨2, 1, some 0, 31 * 256 + 9, none, none⟩), ⟨2, 1, some 0, 31 * 256 + 9, none, none⟩, by decide +kernel⟩

/-! ### Witnesses: the matrix engines -/

/-- Cells from 0 up of a buffer of core 0, present and zero. -/
def zeroCells (buf n : Nat) : List (Nat × Cell) := (List.range n).map fun i => (cellKey 0 buf i, ⟨0, true⟩)

/-- A task of 4-bit panels: A in W, B in A, added to nothing; the result in C, the done cell 0 of S. -/
def task4 : BitVec 256 := BitVec.ofNat 256 (2 ^ 252 + 2 ^ 234 + 2 * 2 ^ 230)

def tileTask (p : TaskPhase) : Task := ⟨9, 0, 0, 1, 0, .tile task4 2 2, p, [], [], 0, Seen.none⟩

def tileDevice (p : TaskPhase) (k : Nat) : State :=
  { bigDevice rod with cells := zeroCells 1 k ++ zeroCells 2 k, tasks := [tileTask p] }

/-- An inference of one layer of one panel, its descriptor at cell 16 of S, its input at 8 and its future at 0. -/
def inferTask : Task := ⟨9, 0, 0, 1, 0, .infer 0 16 8 1 1, .running 1 0, [], [], 0, Seen.none⟩

def inferDevice : State :=
  (({ bigDevice rod with tasks := [inferTask] }.setCell 0 0 16 ⟨0x11, true⟩).setCell 0 0 17 ⟨BitVec.ofNat 128 (2 ^ 40), true⟩)

theorem witness_pick_asks : ∃ (s : State) (core : Nat) (k : Task),
    (s.waitingTasks core).find? (fun t => decide (s.readiness t = .eligible)) = some k ∧
    (∀ t ∈ s.waitingTasks core, s.readiness t ≠ .refused) ∧
    s.engineTask core 0 = none ∧
    s.engineMode core 0 = .idle :=
  ⟨tileDevice .queued 72, 0, tileTask .queued, by decide +kernel⟩

theorem witness_pick_issues : ∃ (s : State) (core : Nat) (k : Task),
    (s.waitingTasks core).find? (fun t => decide (s.readiness t = .eligible)) = some k ∧
    (∀ t ∈ s.waitingTasks core, s.readiness t ≠ .refused) ∧
    s.engineTask core 0 = none ∧
    s.engineMode core 0 = .granted :=
  ⟨(tileDevice .queued 72).setEngine 0 0 .granted, 0, tileTask .queued, by decide +kernel⟩

theorem witness_grant : ∃ (s : State) (board : Nat) (k : Nat) (ks : List Nat),
    (s.governor board).waiting = k :: ks ∧
    rising s.governors ∧
    s.grantsHeld board < s.grantCount board ∧
    (∃ x, (s.waitingTasks (k / 2)).find? (fun t => decide (s.readiness t = .eligible)) = some x ∧ k % 2 = 0 ∧ s.engineTask (k / 2) 0 = none) :=
  ⟨(tileDevice .queued 72).setGovernor 0 ⟨1, 2, 2, 0, 0, [0]⟩, 0, 0, [], rfl, by unfold rising; decide +kernel, by decide +kernel, ⟨tileTask .queued, by decide +kernel⟩⟩

theorem witness_ramp_burst : ∃ (s : State) (core : Nat) (eng : Nat) (n : Nat),
    s.engineMode core eng = .ramp n ∧
    (∃ b, s.burst? core eng = some b) :=
  ⟨{ bench.setEngine 0 1 (.ramp 64) with bursts := [⟨0, 1, 0, 65536, none⟩] }, 0, 1, 64, by decide +kernel, ⟨⟨0, 1, 0, 65536, none⟩, by decide +kernel⟩⟩

theorem witness_ramp_task : ∃ (s : State) (core : Nat) (eng : Nat) (n : Nat),
    s.engineMode core eng = .ramp n ∧
    s.burst? core eng = none ∧
    (∃ k, s.engineTask core eng = some k) :=
  ⟨{ tileDevice (.running 1 0) 0 with engines := [(1, .ramp 64)] }, 0, 1, 64, by decide +kernel, by decide +kernel, ⟨tileTask (.running 1 0), by decide +kernel⟩⟩

theorem witness_ramp_down : ∃ (s : State) (core : Nat) (eng : Nat) (n : Nat),
    s.engineMode core eng = .ramp n ∧
    s.burst? core eng = none ∧
    s.engineTask core eng = none :=
  ⟨bench.setEngine 0 1 (.ramp 64), 0, 1, 64, by decide +kernel⟩

theorem witness_unit : ∃ (s : State) (core : Nat) (eng : Nat) (e : Nat) (n : Nat) (k : Task) (x : BitVec 256) (af : Nat) (bf : Nat) (ra : Range) (rb : Range),
    s.engineTask core eng = some k ∧
    k.phase = .running e n ∧
    k.kind = .tile x af bf ∧
    k.src = [ra, rb] ∧
    s.present (ra.panel af (recMt x) (n / (recMt x * recNt x))) = true ∧
    s.present (rb.panel bf (recNt x) (n / (recMt x * recNt x))) = true :=
  ⟨{ tileDevice (.running 1 0) 72 with tasks := [{ tileTask (.running 1 0) with src := [bigFrame.range 1 0 72, bigFrame.range 2 0 72] }] }, 0, 1, 1, 0, { tileTask (.running 1 0) with src := [bigFrame.range 1 0 72, bigFrame.range 2 0 72] }, task4, 2, 2, bigFrame.range 1 0 72, bigFrame.range 2 0 72, by decide +kernel⟩

theorem witness_writing : ∃ (s : State) (core : Nat) (eng : Nat) (e : Nat) (n : Nat) (k : Task) (f : Frame) (x : BitVec 256) (af : Nat) (bf : Nat),
    s.engineTask core eng = some k ∧
    k.phase = .writing e n ∧
    k.kind = .tile x af bf ∧
    s.frame? k.frame = some f ∧
    n < recMt x * recNt x * 2048 :=
  ⟨tileDevice (.writing 1 0) 0, 0, 1, 1, 0, tileTask (.writing 1 0), bigFrame, task4, 2, 2, by decide +kernel⟩

theorem witness_done : ∃ (s : State) (core : Nat) (eng : Nat) (e : Nat) (n : Nat) (k : Task) (f : Frame) (x : BitVec 256) (af : Nat) (bf : Nat),
    s.engineTask core eng = some k ∧
    k.phase = .writing e n ∧
    k.kind = .tile x af bf ∧
    s.frame? k.frame = some f ∧
    recMt x * recNt x * 2048 ≤ n :=
  ⟨tileDevice (.writing 1 2048) 0, 0, 1, 1, 2048, tileTask (.writing 1 2048), bigFrame, task4, 2, 2, by decide +kernel⟩

theorem witness_infer_done : ∃ (s : State) (core : Nat) (eng : Nat) (e : Nat) (n : Nat) (k : Task) (f : Frame) (future : Nat) (desc : Nat) (input : Nat) (nw : Nat) (inw : Nat),
    s.engineTask core eng = some k ∧
    k.phase = .running e n ∧
    k.kind = .infer future desc input nw inw ∧
    s.frame? k.frame = some f ∧
    s.descBad f desc nw inw = false :=
  ⟨inferDevice, 0, 1, 1, 0, inferTask, bigFrame, 0, 16, 8, 1, 1, by decide +kernel⟩

theorem witness_grant_return : ∃ (s : State) (core : Nat) (eng : Nat) (n : Nat),
    s.engineMode core eng = .down n :=
  ⟨bench.setEngine 0 1 (.down 34), 0, 1, 34, by decide +kernel⟩

theorem witness_burst_over : ∃ (s : State) (core : Nat) (eng : Nat) (b : Burst),
    eng < 2 ∧
    s.burst? core eng = some b :=
  ⟨{ bench with clk := 9, bursts := [⟨0, 1, 0, 5, some 9⟩] }, 0, 1, ⟨0, 1, 0, 5, some 9⟩, by decide +kernel⟩

theorem witness_hot : ∃ (s : State) (board : Nat),
    (s.governor board).hotAt + 21000000 ≤ s.clk.toNat ∧
    2 < s.grantCount board ∧
    (100 ≤ (s.boardTemps board).1 ∨ 95 ≤ (s.boardTemps board).2) :=
  ⟨{ bench with clk := 21000000, sample := some ⟨[⟨100, 0, 0⟩], [0], 0, 0⟩ }, 0, by decide +kernel⟩

theorem witness_hot_stack : ∃ (s : State) (board : Nat),
    (s.governor board).hotAt + 21000000 ≤ s.clk.toNat ∧
    2 < s.grantCount board ∧
    (100 ≤ (s.boardTemps board).1 ∨ 95 ≤ (s.boardTemps board).2) :=
  ⟨{ bench with clk := 21000000, sample := some ⟨[⟨0, 0, 0⟩], [95], 0, 0⟩ }, 0, by decide +kernel⟩

theorem witness_cool : ∃ (s : State) (board : Nat),
    (s.governor board).hotAt + 21000000 ≤ s.clk.toNat ∧
    (s.boardTemps board).1 < 100 ∧
    (s.boardTemps board).2 < 95 ∧
    s.powerAbove s.config.powercap 100 = false ∧
    (0 < (s.governor board).dieHot ∧ (s.boardTemps board).1 < 95 ∨ 0 < (s.governor board).stackHot ∧ (s.boardTemps board).2 < 90) ∧
    (s.governor board).dieHot + (s.governor board).stackHot + (s.governor board).capped ≤ s.config.gb :=
  ⟨{ bench.setGovernor 0 ⟨1, 1, 1, 0, 0, []⟩ with clk := 21000000, sample := some ⟨[⟨94, 0, 0⟩], [94], 0, 0⟩ }, 0, by decide +kernel⟩

theorem witness_cool_stack : ∃ (s : State) (board : Nat),
    (s.governor board).hotAt + 21000000 ≤ s.clk.toNat ∧
    (s.boardTemps board).1 < 100 ∧
    (s.boardTemps board).2 < 95 ∧
    s.powerAbove s.config.powercap 100 = false ∧
    (0 < (s.governor board).dieHot ∧ (s.boardTemps board).1 < 95 ∨ 0 < (s.governor board).stackHot ∧ (s.boardTemps board).2 < 90) ∧
    (s.governor board).dieHot + (s.governor board).stackHot + (s.governor board).capped ≤ s.config.gb :=
  ⟨{ bench.setGovernor 0 ⟨1, 1, 1, 0, 0, []⟩ with clk := 21000000, sample := some ⟨[⟨99, 0, 0⟩], [89], 0, 0⟩ }, 0, by decide +kernel⟩

/-! ### Witnesses: rings, halts and pre-emption -/

/-- A ring of the system block with one record `x` of `rsz` dwords, between other numbers in memory. -/
def ringMem (off rsz x : Nat) (low high : List (Nat × Nat × Nat)) : List (Nat × Nat × Nat) :=
  low ++ [(0x1000 + off, 8, 0x3000), (0x3000, 8, 1), (0x3018, 4, rsz * 2 ^ 24), (0x3080, 8 * rsz, x)] ++ high

/-- A device with that ring. -/
def ringDevice (r : Rod) (l : List (Nat × Nat × Nat)) : State := { mapped r l with sysBlock := some 0x1000 }

/-- A rod parked on fault record 7 of die 3. -/
def recordRod : Rod := waiting (.parked ⟨1, 0, none, 0, some (3, 7), none⟩)

def resolveBits : Nat := 2 ^ 248 + 3 * 2 ^ 64 + 7 * 2 ^ 32 + 9

/-- Fault record 7 of die 3, for which the rod waits, and the device that a command resolves it on. -/
def recordOf7 : FaultRec := ⟨3, 7, 0, 0x20000, 0, 0, 0, 0, 0, [.rod 1]⟩

def resolveDevice (x : Nat) (low : List (Nat × Nat × Nat)) : State :=
  { ringDevice recordRod (ringMem 0x20 4 x low []) with faultRecs := [recordOf7] }

theorem witness_resolve : ∃ (s : State) (h : Nat) (val : Nat) (die : Nat) (recid : Nat) (seq : Nat) (u : Nat) (rec : BitVec 256) (x : FaultRec) (r : Rod) (p : Park),
    commandHolds s h rec ⟨1, 0, val, 0, 0, 0, 0, 0, die, recid, seq, 0⟩ ∧
    s.faultRecs.find? (fun y => decide (y.die = die ∧ y.recid = recid)) = some x ∧
    x.die = die ∧
    x.recid = recid ∧
    x.who = [.rod u] ∧
    s.rod? u = some r ∧
    r.status = .parked p ∧
    p.cls = 1 ∧
    p.record = some (die, recid) ∧
    s.halted r.asid = false ∧
    val = 0 :=
  ⟨resolveDevice resolveBits [], 0x3000, 0, 3, 7, 9, 1, BitVec.ofNat 256 resolveBits, recordOf7, recordRod, ⟨1, 0, none, 0, some (3, 7), none⟩, ⟨⟨by decide +kernel, by decide +kernel, by decide +kernel, by decide +kernel, by decide +kernel⟩, by decide +kernel⟩, by decide +kernel⟩

theorem witness_resolve_fail : ∃ (s : State) (h : Nat) (val : Nat) (die : Nat) (recid : Nat) (seq : Nat) (u : Nat) (rec : BitVec 256) (x : FaultRec) (r : Rod) (p : Park),
    commandHolds s h rec ⟨1, 0, val, 0, 0, 0, 0, 0, die, recid, seq, 0⟩ ∧
    s.faultRecs.find? (fun y => decide (y.die = die ∧ y.recid = recid)) = some x ∧
    x.die = die ∧
    x.recid = recid ∧
    x.who = [.rod u] ∧
    s.rod? u = some r ∧
    r.status = .parked p ∧
    p.cls = 1 ∧
    p.record = some (die, recid) ∧
    s.halted r.asid = false ∧
    val = 1 ∧
    r.handler = none ∧
    24 ≤ r.s.length ∧
    (ringTaken s h).ctxHandler r.asid ≠ 0 :=
  ⟨resolveDevice (resolveBits + 2 ^ 128) [(48, 6, 0x4000)], 0x3000, 1, 3, 7, 9, 1, BitVec.ofNat 256 (resolveBits + 2 ^ 128), recordOf7, recordRod, ⟨1, 0, none, 0, some (3, 7), none⟩, ⟨⟨by decide +kernel, by decide +kernel, by decide +kernel, by decide +kernel, by decide +kernel⟩, by decide +kernel⟩, by decide +kernel⟩

/-- A rod parked by a SUMSEND to slot 31 of core 9. -/
def carryRod : Rod := waiting (.parked ⟨2, 1, some 2, 31 * 256 + 9, none, none⟩)

def deliverBits : Nat := 2 * 2 ^ 248 + 9

theorem witness_deliver : ∃ (s : State) (h : Nat) (asid : Nat) (core : Nat) (slot : Nat) (seq : Nat) (rec : BitVec 256) (r : Rod) (p : Park),
    commandHolds s h rec ⟨2, 0, 0, 0, asid, core, slot, 0, 0, 0, seq, 0⟩ ∧
    s.rods.find? (fun r => decide (r.asid = asid ∧ r.core = core ∧ r.slotIndex = slot)) = some r ∧
    ((∀ q ∈ s.rods, q.uid = r.uid → q = r)) ∧
    r.status = .parked p ∧
    r.handler = none ∧
    s.halted r.asid = false ∧
    24 ≤ r.s.length ∧
    (ringTaken s h).ctxHandler r.asid ≠ 0 ∧
    ((p.cls = 1 ∨ p.cls = 2 ∨ p.cls = 4)) :=
  ⟨ringDevice carryRod (ringMem 0x20 4 deliverBits [(48, 6, 0x4000)] []), 0x3000, 0, 0, 0, 9, BitVec.ofNat 256 deliverBits, carryRod, ⟨2, 1, some 2, 31 * 256 + 9, none, none⟩, ⟨⟨by decide +kernel, by decide +kernel, by decide +kernel, by decide +kernel, by decide +kernel⟩, by decide +kernel⟩, by decide +kernel⟩

def assignBits : Nat := 3 * 2 ^ 248 + 41 * 2 ^ 128 + 2 ^ 112 + 23 * 2 ^ 79 + 9

theorem witness_assign : ∃ (s : State) (h : Nat) (val : Nat) (hidx : Nat) (asid : Nat) (eng : Nat) (seq : Nat) (a : Nat) (rec : BitVec 256) (cap : Cap),
    commandHolds s h rec ⟨3, 0, val, hidx, asid, 0, 0, eng, 0, 0, seq, 0⟩ ∧
    eng < 24 ∧
    s.copyEngine? eng = none ∧
    s.memoryCanonical ∧
    handleIs (ringTaken s h) asid hidx (some cap) ∧
    cap.v = true ∧
    cap.e = true ∧
    cap.w = true ∧
    cap.lo = 0 ∧
    128 ≤ cap.hi.toNat ∧
    EngineReaches (ringTaken s h) ⟨none, asid, 0, ⟨Marks.none, []⟩⟩ cap 0 64 true a :=
  ⟨ringDevice rod (ringMem 0x20 4 assignBits [(8, 6, 0x20200), (14, 2, 1), (16, 6, 0x20100), (61, 3, 15)] [(0x100110, 16, cap5Bits), (0x100250, 16, objectBits)]), 0x3000, 41, 1, 0, 23, 9, 0x100000, BitVec.ofNat 256 assignBits, cap5, ⟨⟨by decide +kernel, by decide +kernel, by decide +kernel, by decide +kernel, by decide +kernel⟩, by decide +kernel⟩, by decide +kernel, by decide +kernel, by unfold State.memoryCanonical; decide +kernel, .inr ⟨by decide +kernel, 0x100110, maps_of (by decide +kernel), by decide +kernel⟩, of4 (by decide +kernel) ⟨by decide +kernel, engine_of (by decide +kernel)⟩⟩

def releaseBits : Nat := 4 * 2 ^ 248 + 3 * 2 ^ 79 + 9

def releaseDevice (e : CopyEngine) : State := { ringDevice rod (ringMem 0x20 4 releaseBits [] []) with copyEngines := [e] }

theorem witness_release : ∃ (s : State) (h : Nat) (asid : Nat) (eng : Nat) (seq : Nat) (rec : BitVec 256) (e : CopyEngine),
    commandHolds s h rec ⟨4, 0, 0, 0, asid, 0, 0, eng, 0, 0, seq, 0⟩ ∧
    eng < 24 ∧
    s.copyEngine? eng = some e ∧
    e.asid = asid ∧
    e.running = none :=
  ⟨releaseDevice engine, 0x3000, 0, 3, 9, BitVec.ofNat 256 releaseBits, engine, ⟨⟨by decide +kernel, by decide +kernel, by decide +kernel, by decide +kernel, by decide +kernel⟩, by decide +kernel⟩, by decide +kernel⟩

theorem witness_release_running : ∃ (s : State) (h : Nat) (asid : Nat) (eng : Nat) (seq : Nat) (rec : BitVec 256) (e : CopyEngine),
    commandHolds s h rec ⟨4, 0, 0, 0, asid, 0, 0, eng, 0, 0, seq, 0⟩ ∧
    eng < 24 ∧
    s.copyEngine? eng = some e ∧
    e.asid = asid ∧
    e.running ≠ none :=
  ⟨releaseDevice { engine with running := some entry }, 0x3000, 0, 3, 9, BitVec.ofNat 256 releaseBits, { engine with running := some entry }, ⟨⟨by decide +kernel, by decide +kernel, by decide +kernel, by decide +kernel, by decide +kernel⟩, by decide +kernel⟩, by decide +kernel⟩

def groupBits : Nat := 5 * 2 ^ 248 + 0x7000 * 2 ^ 176 + 9

theorem witness_group : ∃ (s : State) (h : Nat) (addr : Nat) (asid : Nat) (seq : Nat) (rec : BitVec 256),
    commandHolds s h rec ⟨5, addr, 0, 0, asid, 0, 0, 0, 0, 0, seq, 0⟩ ∧
    addr ≠ 0 ∧
    physBad addr = false ∧
    (¬ (field addr 50 2 = 2 ∧ field addr 38 12 = s.endpoint)) ∧
    (ringTaken s h).barred addr false = none ∧
    field ((ringTaken s h).natAt addr 32) 208 48 = 0 ∧
    field ((ringTaken s h).natAt addr 32) 0 64 = 0 ∧
    field ((ringTaken s h).natAt addr 32) 96 16 ≠ 0 ∧
    field ((ringTaken s h).natAt addr 32) 112 48 % 8 = 0 :=
  ⟨ringDevice rod (ringMem 0x20 4 groupBits [] [(0x7000, 32, 5 * 2 ^ 64 + 2 ^ 96)]), 0x3000, 0x7000, 0, 9, BitVec.ofNat 256 groupBits, ⟨⟨by decide +kernel, by decide +kernel, by decide +kernel, by decide +kernel, by decide +kernel⟩, by decide +kernel⟩, by decide +kernel⟩

def noGroupBits : Nat := 5 * 2 ^ 248 + 9

theorem witness_no_group : ∃ (s : State) (h : Nat) (addr : Nat) (asid : Nat) (seq : Nat) (rec : BitVec 256),
    commandHolds s h rec ⟨5, addr, 0, 0, asid, 0, 0, 0, 0, 0, seq, 0⟩ ∧
    addr = 0 :=
  ⟨ringDevice rod (ringMem 0x20 4 noGroupBits [] []), 0x3000, 0, 0, 9, BitVec.ofNat 256 noGroupBits, ⟨⟨by decide +kernel, by decide +kernel, by decide +kernel, by decide +kernel, by decide +kernel⟩, by decide +kernel⟩, by decide +kernel⟩

/-- Shoot-downs of page 2, and of the object handle 5, of context 0. -/
def shootBits : Nat := 9 * 2 ^ 96 + 2 ^ 64 + 2 * 2 ^ 32
def shootHandle : Nat := 9 * 2 ^ 96 + 5 * 2 ^ 32 + 2 ^ 11

theorem witness_shootdown : ∃ (s : State) (h : Nat) (rec : BitVec 128) (x : Shoot),
    ringHolds s 0 2 h rec.toNat ∧
    Shoot.ofNat rec.toNat = x ∧
    x.reserved = 0 ∧
    ((x.obj = true → x.vpn < 2 ^ 24)) ∧
    ((x.count ≠ 0 ∨ x.all = true ∨ x.obj = true)) ∧
    ((∀ r ∈ s.rods, r.asid = x.asid → r.tent = [])) ∧
    (∀ i ∈ s.inflight, i.asid ≠ x.asid) ∧
    x.all = false ∧
    x.obj = false :=
  ⟨ringDevice rod (ringMem 0 2 shootBits [] []), 0x3000, BitVec.ofNat 128 shootBits, Shoot.ofNat (BitVec.ofNat 128 shootBits).toNat, ⟨by decide +kernel, by decide +kernel, by decide +kernel, by decide +kernel, by decide +kernel⟩, by decide +kernel⟩

theorem witness_shootdown_handle : ∃ (s : State) (h : Nat) (rec : BitVec 128) (x : Shoot),
    ringHolds s 0 2 h rec.toNat ∧
    Shoot.ofNat rec.toNat = x ∧
    x.reserved = 0 ∧
    ((x.obj = true → x.vpn < 2 ^ 24)) ∧
    ((x.count ≠ 0 ∨ x.all = true ∨ x.obj = true)) ∧
    ((∀ r ∈ s.rods, r.asid = x.asid → r.tent = [])) ∧
    (∀ i ∈ s.inflight, i.asid ≠ x.asid) ∧
    x.all = false ∧
    x.obj = true :=
  ⟨ringDevice rod (ringMem 0 2 shootHandle [] []), 0x3000, BitVec.ofNat 128 shootHandle, Shoot.ofNat (BitVec.ofNat 128 shootHandle).toNat, ⟨by decide +kernel, by decide +kernel, by decide +kernel, by decide +kernel, by decide +kernel⟩, by decide +kernel⟩

theorem witness_shootdown_all : ∃ (s : State) (h : Nat) (rec : BitVec 128) (x : Shoot),
    ringHolds s 0 2 h rec.toNat ∧
    Shoot.ofNat rec.toNat = x ∧
    x.reserved = 0 ∧
    ((x.obj = true → x.vpn < 2 ^ 24)) ∧
    ((x.count ≠ 0 ∨ x.all = true ∨ x.obj = true)) ∧
    ((∀ r ∈ s.rods, r.asid = x.asid → r.tent = [])) ∧
    (∀ i ∈ s.inflight, i.asid ≠ x.asid) ∧
    x.all = true :=
  ⟨ringDevice rod (ringMem 0 2 (shootBits + 2 ^ 10) [] []), 0x3000, BitVec.ofNat 128 (shootBits + 2 ^ 10), Shoot.ofNat (BitVec.ofNat 128 (shootBits + 2 ^ 10)).toNat, ⟨by decide +kernel, by decide +kernel, by decide +kernel, by decide +kernel, by decide +kernel⟩, by decide +kernel⟩

/-- A rod that sleeps in a WAITV on line 0x2000, whose addresses the page 2 maps. -/
def monitorRod : Rod := waiting (.asleep (.waitv [0x2000] false false) 1 0)

theorem witness_shootdown_monitor : ∃ (s : State) (h : Nat) (rec : BitVec 128) (x : Shoot),
    ringHolds s 0 2 h rec.toNat ∧
    Shoot.ofNat rec.toNat = x ∧
    x.reserved = 0 ∧
    ((x.obj = true → x.vpn < 2 ^ 24)) ∧
    ((x.count ≠ 0 ∨ x.all = true ∨ x.obj = true)) ∧
    ((∀ r ∈ s.rods, r.asid = x.asid → r.tent = [])) ∧
    (∀ i ∈ s.inflight, i.asid ≠ x.asid) ∧
    (∃ (u tk c : Nat) (r : Rod) (ls : List Nat) (hit full : Bool), s.rod? u = some r ∧ r.asid = x.asid ∧ r.status = .asleep (.waitv ls hit full) tk c) :=
  ⟨ringDevice monitorRod (ringMem 0 2 shootBits [] []), 0x3000, BitVec.ofNat 128 shootBits, Shoot.ofNat (BitVec.ofNat 128 shootBits).toNat, ⟨by decide +kernel, by decide +kernel, by decide +kernel, by decide +kernel, by decide +kernel⟩, of4 (by decide +kernel) ⟨by decide +kernel, by decide +kernel, ⟨1, 1, 0, monitorRod, [0x2000], false, false, by decide +kernel⟩⟩⟩

/-- A rod with a tentative byte in line 0x2000 of physical memory, of the object 5. -/
def taggedRod : Rod := { rod with tent := [(0x100008, 3)], tags := [⟨0x2000, 0x20000, 5, 0⟩] }

theorem witness_shootdown_commit : ∃ (s : State) (h : Nat) (u : Nat) (l : LineTag) (rec : BitVec 128) (x : Shoot) (r : Rod),
    ringHolds s 0 2 h rec.toNat ∧
    Shoot.ofNat rec.toNat = x ∧
    x.reserved = 0 ∧
    ((x.obj = true → x.vpn < 2 ^ 24)) ∧
    ((x.count ≠ 0 ∨ x.all = true ∨ x.obj = true)) ∧
    s.rod? u = some r ∧
    r.asid = x.asid ∧
    l ∈ r.tags ∧
    ((x.all = true ∨ x.obj = true ∧ l.handle = x.vpn ∨
      x.obj = false ∧ x.vpn ≤ l.va / 65536 ∧ l.va / 65536 < x.vpn + x.count)) :=
  ⟨ringDevice taggedRod (ringMem 0 2 shootBits [] []), 0x3000, 1, ⟨0x2000, 0x20000, 5, 0⟩, BitVec.ofNat 128 shootBits, Shoot.ofNat (BitVec.ofNat 128 shootBits).toNat, taggedRod, ⟨by decide +kernel, by decide +kernel, by decide +kernel, by decide +kernel, by decide +kernel⟩, by decide +kernel⟩

theorem witness_shootdown_commit_handle : ∃ (s : State) (h : Nat) (u : Nat) (l : LineTag) (rec : BitVec 128) (x : Shoot) (r : Rod),
    ringHolds s 0 2 h rec.toNat ∧
    Shoot.ofNat rec.toNat = x ∧
    x.reserved = 0 ∧
    ((x.obj = true → x.vpn < 2 ^ 24)) ∧
    ((x.count ≠ 0 ∨ x.all = true ∨ x.obj = true)) ∧
    s.rod? u = some r ∧
    r.asid = x.asid ∧
    l ∈ r.tags ∧
    ((x.all = true ∨ x.obj = true ∧ l.handle = x.vpn ∨
      x.obj = false ∧ x.vpn ≤ l.va / 65536 ∧ l.va / 65536 < x.vpn + x.count)) :=
  ⟨ringDevice taggedRod (ringMem 0 2 shootHandle [] []), 0x3000, 1, ⟨0x2000, 0x20000, 5, 0⟩, BitVec.ofNat 128 shootHandle, Shoot.ofNat (BitVec.ofNat 128 shootHandle).toNat, taggedRod, ⟨by decide +kernel, by decide +kernel, by decide +kernel, by decide +kernel, by decide +kernel⟩, by decide +kernel⟩

theorem witness_shootdown_commit_all : ∃ (s : State) (h : Nat) (u : Nat) (l : LineTag) (rec : BitVec 128) (x : Shoot) (r : Rod),
    ringHolds s 0 2 h rec.toNat ∧
    Shoot.ofNat rec.toNat = x ∧
    x.reserved = 0 ∧
    ((x.obj = true → x.vpn < 2 ^ 24)) ∧
    ((x.count ≠ 0 ∨ x.all = true ∨ x.obj = true)) ∧
    s.rod? u = some r ∧
    r.asid = x.asid ∧
    l ∈ r.tags ∧
    ((x.all = true ∨ x.obj = true ∧ l.handle = x.vpn ∨
      x.obj = false ∧ x.vpn ≤ l.va / 65536 ∧ l.va / 65536 < x.vpn + x.count)) :=
  ⟨ringDevice taggedRod (ringMem 0 2 (shootBits + 2 ^ 10) [] []), 0x3000, 1, ⟨0x2000, 0x20000, 5, 0⟩, BitVec.ofNat 128 (shootBits + 2 ^ 10), Shoot.ofNat (BitVec.ofNat 128 (shootBits + 2 ^ 10)).toNat, taggedRod, ⟨by decide +kernel, by decide +kernel, by decide +kernel, by decide +kernel, by decide +kernel⟩, by decide +kernel⟩

/-- A rod that waits for the reply to an UPCALL of code 5, and the reply. -/
def callRod : Rod := waiting (.parked ⟨4, 0, none, 5, none, some ⟨0, 0, 8, false⟩⟩)

def replyBits : Nat := 5 * 2 ^ 153 + 0xF * 2 ^ 160 + 0x10000 * 2 ^ 208 + 7 * 2 ^ 256

def replyDevice : State :=
  ringDevice callRod [(0x1030, 8, 0x3000), (0x3000, 8, 2), (0x3018, 4, 1 + 32 * 2 ^ 24), (0x3080, 256, replyBits)]

theorem witness_reply : ∃ (s : State) (h : Nat) (x : Nat) (r : Rod) (msg : BitVec 4096) (k : Park) (call : Call),
    s.sysEntry 0x30 = some h ∧
    (s.queueAt h).messageRing = true ∧
    2 ≤ (s.queueAt h).count ∧
    s.natAt (h + (s.queueAt h).recordAt (s.queueAt h).head) 256 + 2 ^ 2048 * s.natAt (h + (s.queueAt h).recordAt ((s.queueAt h).head + 1)) 256 = x ∧
    msg.toNat = x ∧
    s.rods.find? (fun r => r.awaitsReply x) = some r ∧
    s.halted r.asid = false ∧
    r.status = .parked k ∧
    k.cls = 4 ∧
    k.call = some call ∧
    field x 116 8 = 0 :=
  ⟨replyDevice, 0x3000, replyBits, callRod, BitVec.ofNat 4096 replyBits, ⟨4, 0, none, 5, none, some ⟨0, 0, 8, false⟩⟩, ⟨0, 0, 8, false⟩, by decide +kernel⟩

/-- Requests to save and to restore every core of context 0. -/
def saveBits : Nat := 5 * 2 ^ 224 + 2 ^ 23
def restoreBits : Nat := 5 * 2 ^ 224 + 2 ^ 23 + 2 ^ 16

def saving (x : Nat) (begun settling : Bool) : Saving := ⟨BitVec.ofNat 256 x, 0, none, begun, settling⟩

/-- A block that holds the frame and the rod of the bench. -/
def block : SaveBlock := ⟨0, [], placedFrame, [⟨rod, [], none, 0⟩], [], [], [], []⟩

/-- A device whose home slices map the whole address space. -/
def wideDevice : State :=
  { bench with saving := [saving saveBits true true], tlb := [⟨none, 0, 0, 48, 0, 0, true, true⟩] }

theorem wide_maps : ∀ x < 2 ^ 48, ∃ a, mapsTo wideDevice none 0 x true a := by
  intro x hx
  refine ⟨x, ⟨none, 0, 0, 48, 0, 0, true, true⟩, ?_, ?_, ?_, ?_⟩
  · simp [State.tlbFind, TlbEntry.holds, wideDevice, bench, Nat.div_eq_of_lt (show x < 281474976710656 from hx)]
  · simp [TlbEntry.place, Nat.mod_eq_of_lt (show x < 281474976710656 from hx)]
  · have h : field x 50 2 = 0 := by unfold field; omega
    omega
  · have h : field x 50 2 = 0 := by unfold field; omega
    have e : wideDevice.exportedAs x = none := rfl
    simp [State.barred, State.pageNeeded, State.portDown, h, e]

theorem witness_save_taken : ∃ (s : State) (h : Nat) (rec : BitVec 256),
    ringHolds s 0x10 4 h rec.toNat ∧
    (∀ v ∈ s.saving, v.record ≠ rec) ∧
    (SaveReq.ofNat rec.toNat).op ≠ 1 :=
  ⟨ringDevice rod (ringMem 0x10 4 saveBits [] []), 0x3000, BitVec.ofNat 256 saveBits, ⟨by decide +kernel, by decide +kernel, by decide +kernel, by decide +kernel, by decide +kernel⟩, by decide +kernel⟩

theorem witness_restore_taken : ∃ (s : State) (h : Nat) (rec : BitVec 256),
    ringHolds s 0x10 4 h rec.toNat ∧
    (∀ v ∈ s.saving, v.record ≠ rec) ∧
    (SaveReq.ofNat rec.toNat).op = 1 :=
  ⟨ringDevice rod (ringMem 0x10 4 restoreBits [] []), 0x3000, BitVec.ofNat 256 restoreBits, ⟨by decide +kernel, by decide +kernel, by decide +kernel, by decide +kernel, by decide +kernel⟩, by decide +kernel⟩

theorem witness_save_begins : ∃ (s : State) (rec : BitVec 256) (v : Saving) (ws : List Saving),
    s.saving = v :: ws ∧
    v.record = rec ∧
    v.req.op = 0 ∧
    s.halted v.asid = false ∧
    v.begun = false :=
  ⟨{ bench with saving := [saving saveBits false false] }, BitVec.ofNat 256 saveBits, saving saveBits false false, [], by decide +kernel⟩

theorem witness_save_settles : ∃ (s : State) (rec : BitVec 256) (v : Saving) (ws : List Saving),
    s.saving = v :: ws ∧
    v.record = rec ∧
    v.req.op = 0 ∧
    s.halted v.asid = false ∧
    v.begun = true ∧
    v.settling = false ∧
    (∀ r ∈ s.rods, v.concerns r.core r.asid = true → r.atSavePoint = true) ∧
    (∀ c ∈ s.conts, v.concerns c.core c.asid = true → c.result ≠ none) :=
  ⟨{ bench with rods := [{ rod with atLive := true }], saving := [saving saveBits true false] }, BitVec.ofNat 256 saveBits, saving saveBits true false, [], of4 (by decide +kernel) ⟨by decide +kernel, by decide +kernel, by decide +kernel, fun _ h => nomatch h⟩⟩

theorem witness_save : ∃ (s : State) (rec : BitVec 256) (v : Saving) (ws : List Saving),
    s.saving = v :: ws ∧
    v.record = rec ∧
    v.req.op = 0 ∧
    s.halted v.asid = false ∧
    v.begun = true ∧
    v.settling = true ∧
    s.inflight = [] ∧
    s.resvs = [] ∧
    s.transfers = [] ∧
    s.credits = [] ∧
    (∀ t ∈ s.tasks, t.phase = .queued) ∧
    (∀ c ∈ s.conts, c.result ≠ none) ∧
    (∀ p ∈ s.slots, p.2.st ≠ .held) ∧
    (∀ r ∈ s.rods, r.tent = [] ∧ r.scoreboard = []) ∧
    (∀ f ∈ s.frames, ∀ w ∈ f.windows, w.st ≠ .draining) ∧
    (∀ x < 2 ^ 48, ∃ a, mapsTo s none v.asid x true a) :=
  ⟨wideDevice, BitVec.ofNat 256 saveBits, saving saveBits true true, [], of4 (by decide +kernel) (of4 (by decide +kernel) ⟨by decide +kernel, by decide +kernel, (fun _ h => nomatch h), (fun _ h => nomatch h), (fun _ h => nomatch h), by decide +kernel, by decide +kernel, wide_maps⟩)⟩

theorem witness_restore_done : ∃ (s : State) (rec : BitVec 256) (v : Saving) (ws : List Saving),
    s.saving = v :: ws ∧
    v.record = rec ∧
    v.req.op = 1 ∧
    s.halted v.asid = false ∧
    (∀ b ∈ s.saved, v.concerns b.frame.core b.frame.asid = false) :=
  ⟨{ bench with saving := [saving restoreBits true true] }, BitVec.ofNat 256 restoreBits, saving restoreBits true true, [], of4 (by decide +kernel) (fun _ h => nomatch h)⟩

/-- A device on which the block is to be restored, with a context whose table entry is in memory. -/
def restoring : State :=
  { bench with
    rods := [], frames := [], saving := [saving restoreBits true true], saved := [block], mem := memOf [(0, 8, 2 ^ 63 + 2 ^ 52)] }

theorem some_of {α : Type} {o : Option α} {p : α → Prop} [DecidablePred p] (h : o.any (fun x => decide (p x)) = true) :
    ∃ x, o = some x ∧ p x := by
  cases o with
  | none => nomatch h
  | some x => exact ⟨x, rfl, of_decide_eq_true h⟩

theorem block_reads : restoring.readBlocks [block] = (.ok ([block], false), restoring) := by decide +kernel

theorem restored : ∃ t, [block].findSome? (restoring.restoreBlock [block]) = some t ∧
    (t.areaFaults 0 (t.restoreWrites [block])).1 = none := some_of (by decide +kernel)

theorem witness_restore : ∃ (s : State) (rec : BitVec 256) (v : Saving) (ws : List Saving),
    s.saving = v :: ws ∧
    v.record = rec ∧
    v.req.op = 1 ∧
    s.halted v.asid = false ∧
    (∃ (s1 t : State) (bs : List SaveBlock), s.readBlocks (s.saved.filter fun b => v.concerns b.frame.core b.frame.asid) = (.ok (bs, false), s1) ∧ s1.servable v.asid = true ∧ s1.claimHeld = false ∧ bs.findSome? (s1.restoreBlock bs) = some t ∧ (t.areaFaults v.asid (t.restoreWrites bs)).1 = none) :=
  ⟨restoring, BitVec.ofNat 256 restoreBits, saving restoreBits true true, [], of4 (by decide +kernel) (restored.elim fun t h => ⟨restoring, t, [block], block_reads, by decide +kernel, by decide +kernel, h.1, h.2⟩)⟩

theorem witness_restore_one : ∃ (s : State) (rec : BitVec 256) (v : Saving) (ws : List Saving),
    s.saving = v :: ws ∧
    v.record = rec ∧
    v.req.op = 1 ∧
    s.halted v.asid = false ∧
    (∃ (b : SaveBlock) (x : SavedRod), s.saved = [b] ∧ v.concerns b.frame.core b.frame.asid = true ∧ s.readBlocks [b] = (.ok ([b], false), s) ∧ s.servable v.asid = true ∧ s.claimHeld = false ∧ (∀ c ∈ s.conts, c.frame ≠ b.frame.uid) ∧ s.frames = [] ∧ s.rods = [] ∧ s.tasks = [] ∧ s.chains = [] ∧ s.heldReplies = [] ∧ b.rods = [x] ∧ x.stack = [] ∧ x.rod.handler = none ∧ x.rod.continued = false ∧ x.rod.nbeads * x.rod.alloc ≤ Config.laneWords ∧ b.stops = [] ∧ b.slots = [] ∧ b.conts = [] ∧ b.tasks.length ≤ 64 ∧ b.frame.gang = false ∧ b.frame.windows.length ≤ 32 ∧ b.frame.segS.limit.toNat ≤ bufferCells 0 ∧ b.frame.segW.limit.toNat ≤ bufferCells 1 ∧ b.frame.segA.limit.toNat ≤ bufferCells 2 ∧ b.frame.segC.limit.toNat ≤ bufferCells 3) :=
  ⟨restoring, BitVec.ofNat 256 restoreBits, saving restoreBits true true, [], of4 (by decide +kernel) (⟨block, ⟨rod, [], none, 0⟩, rfl, by decide +kernel, block_reads, by decide +kernel⟩)⟩

/-- A halt that is not yet recorded. -/
def halt : Halt := ⟨0, 9, 1, 0x10000, 0, 0, 0, 0, 0, 0, false, 0, 0, false⟩

def haltDevice (l : List (Nat × Nat × Nat)) : State := { mapped rod l with ctxs := [⟨0, some halt, none, none, 0⟩] }

theorem witness_halt_stop : ∃ (s : State) (asid : Nat) (h : Halt),
    s.halt? asid = some h ∧
    h.complete = false ∧
    (s.frames.map Frame.uid).Nodup ∧
    rising s.slots :=
  ⟨haltDevice [], 0, halt, by decide +kernel, by decide +kernel, by decide +kernel, by unfold rising; decide +kernel⟩

/-- A device of a halted context whose home slices map the whole address space as it stands. -/
def stopDevice : State :=
  { bench with rods := [], ctxs := [⟨0, some halt, none, none, 0⟩], tlb := [⟨none, 0, 0, 48, 0, 0, true, true⟩] }

theorem stop_maps {s : State} {asid va a : Nat} (h : (s.tlbFind none asid (va % 2 ^ 48) true).any (fun t =>
    decide (a = t.place (va % 2 ^ 48) ∧ ¬ (field a 50 2 = 2 ∧ field a 38 12 = s.endpoint) ∧ s.barred a true = none)) = true) :
    engineMaps s asid va true a := some_of h

/-- Both windows of a walk, the index stream to S. -/
def pairFrame : Frame :=
  let w (index : Bool) (buf partner : Nat) : Window :=
    ⟨.copying, buf, 0, 1, 2, 0, cap5, 0, 0, some { walk with index := index, partner := partner, done := 1 }, none, Seen.none, []⟩
  { placedFrame with windows := [w true 0 1, w false 1 0] }

theorem nth_out {α : Type} (d : α) : ∀ (l : List α) (i : Nat), l.length ≤ i → nth d l i = d
  | [], _, _ => rfl
  | _ :: _, 0, h => absurd h (by simp)
  | _ :: l, i + 1, h => nth_out d l i (Nat.le_of_succ_le_succ h)

theorem window_low {f : Frame} {p : Nat → Prop} (h : ∀ i < f.windows.length, (f.window i).st = .copying ∨ (f.window i).st = .draining → p i)
    (e : Window.empty.st ≠ .copying ∧ Window.empty.st ≠ .draining) : ∀ i, (f.window i).st = .copying ∨ (f.window i).st = .draining → p i := by
  intro i hi
  by_cases hl : i < f.windows.length
  · exact h i hl hi
  · rw [show f.window i = Window.empty from nth_out _ _ _ (Nat.le_of_not_lt hl)] at hi
    exact (hi.elim e.1 e.2).elim

theorem witness_stop_dense : ∃ (s : State) (asid : Nat) (n : Nat) (a : Nat) (b : Nat) (h : Halt) (c : Ctx),
    s.ctx? asid = some c ∧
    c.halt = some h ∧
    h.complete = false ∧
    c.nstops = n ∧
    asid < 1024 ∧
    s.memoryCanonical ∧
    engineMaps s asid (s.stopArea asid + 128 + 32 * (n % 32764)) true a ∧
    engineMaps s asid (s.stopArea asid + 64) true b ∧
    ((a + 32 ≤ b ∨ b + 8 ≤ a)) ∧
    s.resvs = [] ∧
    s.credits = [] ∧
    (∀ r ∈ s.rods, ∀ tk k, r.status ≠ .asleep .sumfree tk k) ∧
    (∃ (f : Frame) (k : Nat), s.frames = [f] ∧ f.asid = asid ∧ k < f.windows.length ∧ f.core < 256 ∧ k < 256 ∧ (∀ i, (f.window i).st = .copying ∨ (f.window i).st = .draining → i = k) ∧ (f.window k).st = .copying ∧ (f.window k).landed < 2 ^ 48 ∧ (f.window k).gather = none ∧ (∀ e ∈ s.copyEngines, e.asid ≠ asid) ∧ (∀ p ∈ s.slots, p.2.asid ≠ asid)) :=
  ⟨{ stopDevice with frames := [windowFrame copying] }, 0, 0, 33554560, 33554496, halt, ⟨0, some halt, none, none, 0⟩, of4 (by decide +kernel) ⟨by decide +kernel, by unfold State.memoryCanonical; decide +kernel, stop_maps (by decide +kernel), stop_maps (by decide +kernel), by decide +kernel, by decide +kernel, by decide +kernel, (fun _ h => nomatch h), ⟨windowFrame copying, 0, by decide +kernel, by decide +kernel, by decide +kernel, by decide +kernel, by decide +kernel, window_low (by decide +kernel) (by decide +kernel), by decide +kernel⟩⟩⟩

theorem witness_stop_walk : ∃ (s : State) (asid : Nat) (n : Nat) (a : Nat) (b : Nat) (h : Halt) (c : Ctx),
    s.ctx? asid = some c ∧
    c.halt = some h ∧
    h.complete = false ∧
    c.nstops = n ∧
    asid < 1024 ∧
    s.memoryCanonical ∧
    engineMaps s asid (s.stopArea asid + 128 + 32 * (n % 32764)) true a ∧
    engineMaps s asid (s.stopArea asid + 64) true b ∧
    ((a + 32 ≤ b ∨ b + 8 ≤ a)) ∧
    s.resvs = [] ∧
    s.credits = [] ∧
    (∀ r ∈ s.rods, ∀ tk k, r.status ≠ .asleep .sumfree tk k) ∧
    (∃ (f : Frame) (k m : Nat) (g : Gather), s.frames = [f] ∧ f.asid = asid ∧ k < f.windows.length ∧ m < f.windows.length ∧ k ≠ m ∧ f.core < 256 ∧ k < 256 ∧ (∀ i, (f.window i).st = .copying ∨ (f.window i).st = .draining → i = k ∨ i = m) ∧ (f.window k).st = .copying ∧ (f.window k).gather = some g ∧ g.index = true ∧ g.partner = m ∧ (f.window k).buf = 0 ∧ (∃ y, (f.window m).gather = some y ∧ y.index = false ∧ y.partner = k ∧ { g with index := y.index, partner := y.partner } = y) ∧ (f.window m).st = .copying ∧ g.done < 2 ^ 32 ∧ s.tasks = [] ∧ (∀ r ∈ s.rods, r.asid = asid) ∧ (∀ e ∈ s.copyEngines, e.asid ≠ asid) ∧ (∀ p ∈ s.slots, p.2.asid ≠ asid)) :=
  ⟨{ stopDevice with frames := [pairFrame] }, 0, 0, 33554560, 33554496, halt, ⟨0, some halt, none, none, 0⟩, of4 (by decide +kernel) ⟨by decide +kernel, by unfold State.memoryCanonical; decide +kernel, stop_maps (by decide +kernel), stop_maps (by decide +kernel), by decide +kernel, by decide +kernel, by decide +kernel, (fun _ h => nomatch h), ⟨pairFrame, 0, 1, { walk with done := 1 }, by decide +kernel, by decide +kernel, by decide +kernel, by decide +kernel, by decide +kernel, by decide +kernel, by decide +kernel, window_low (by decide +kernel) (by decide +kernel), by decide +kernel, by decide +kernel, by decide +kernel, by decide +kernel, by decide +kernel, ⟨{ walk with index := false, partner := 0, done := 1 }, by decide +kernel⟩, by decide +kernel⟩⟩⟩

theorem witness_stop_engine : ∃ (s : State) (asid : Nat) (n : Nat) (a : Nat) (b : Nat) (h : Halt) (c : Ctx),
    s.ctx? asid = some c ∧
    c.halt = some h ∧
    h.complete = false ∧
    c.nstops = n ∧
    asid < 1024 ∧
    s.memoryCanonical ∧
    engineMaps s asid (s.stopArea asid + 128 + 32 * (n % 32764)) true a ∧
    engineMaps s asid (s.stopArea asid + 64) true b ∧
    ((a + 32 ≤ b ∨ b + 8 ≤ a)) ∧
    s.resvs = [] ∧
    s.credits = [] ∧
    (∀ r ∈ s.rods, ∀ tk k, r.status ≠ .asleep .sumfree tk k) ∧
    (∃ (e : CopyEngine), (∀ f ∈ s.frames, f.asid ≠ asid) ∧ s.copyEngines = [e] ∧ e.asid = asid ∧ e.stopped = false ∧ (e.running ≠ none ∨ e.cur ≠ e.tail) ∧ (∀ p ∈ s.slots, p.2.asid ≠ asid) ∧ e.engine < 256 ∧ e.cur < 2 ^ 48 ∧ (∀ x, e.running = some x → x.units < 2 ^ 48)) :=
  ⟨{ stopDevice with rods := [], frames := [], copyEngines := [{ engine with running := some { entry with units := 1 } }] }, 0, 0, 33554560, 33554496, halt, ⟨0, some halt, none, none, 0⟩, of4 (by decide +kernel) ⟨by decide +kernel, by unfold State.memoryCanonical; decide +kernel, stop_maps (by decide +kernel), stop_maps (by decide +kernel), by decide +kernel, by decide +kernel, by decide +kernel, (fun _ h => nomatch h), ⟨{ engine with running := some { entry with units := 1 } }, by decide +kernel, rfl, by decide +kernel, by decide +kernel, by decide +kernel, by decide +kernel, by decide +kernel, by decide +kernel, fun _ h => by cases h; decide⟩⟩⟩

theorem witness_stop_slot : ∃ (s : State) (asid : Nat) (n : Nat) (a : Nat) (b : Nat) (h : Halt) (c : Ctx),
    s.ctx? asid = some c ∧
    c.halt = some h ∧
    h.complete = false ∧
    c.nstops = n ∧
    asid < 1024 ∧
    s.memoryCanonical ∧
    engineMaps s asid (s.stopArea asid + 128 + 32 * (n % 32764)) true a ∧
    engineMaps s asid (s.stopArea asid + 64) true b ∧
    ((a + 32 ≤ b ∨ b + 8 ≤ a)) ∧
    s.resvs = [] ∧
    s.credits = [] ∧
    (∀ r ∈ s.rods, ∀ tk k, r.status ≠ .asleep .sumfree tk k) ∧
    (∃ (k : Nat) (x : Slot) (f : Frame), (∀ g ∈ s.frames, g.asid ≠ asid ∨ ∀ w ∈ g.windows, w.st ≠ .copying ∧ w.st ≠ .draining) ∧ (∀ e ∈ s.copyEngines, e.asid ≠ asid) ∧ s.slots = [(k, x)] ∧ x.asid = asid ∧ (x.st = .open_ ∨ x.st = .away) ∧ s.frame? x.frame = some f ∧ k < 8192 ∧ x.count < 2 ^ 64 ∧ x.applied < 2 ^ 48 ∧ x.discarded + (s.transfers.filter fun m => decide (m.dst = k / 32 ∧ m.slot = k % 32)).length < 2 ^ 48) :=
  ⟨{ stopDevice with slots := [(31, slotIn .open_)], transfers := [⟨0, 0, 0, 31, [1, 2]⟩] }, 0, 0, 33554560, 33554496, halt, ⟨0, some halt, none, none, 0⟩, of4 (by decide +kernel) ⟨by decide +kernel, by unfold State.memoryCanonical; decide +kernel, stop_maps (by decide +kernel), stop_maps (by decide +kernel), by decide +kernel, by decide +kernel, by decide +kernel, (fun _ h => nomatch h), ⟨31, slotIn .open_, placedFrame, by decide +kernel⟩⟩⟩

theorem witness_halt_waits : ∃ (s : State) (asid : Nat) (c : Ctx) (h : Halt),
    s.ctx? asid = some c ∧
    c.halt = some h ∧
    h.complete = false ∧
    (s.enginesAtWork asid = true ∨ s.fenceBarred asid = true) :=
  ⟨{ haltDevice [] with frames := [windowFrame copying] }, 0, ⟨0, some halt, none, none, 0⟩, halt, by decide +kernel, by decide +kernel, by decide +kernel, .inl (by decide +kernel)⟩

theorem witness_halt_record : ∃ (s : State) (asid : Nat) (c : Ctx) (h : Halt),
    s.ctx? asid = some c ∧
    c.halt = some h ∧
    h.complete = false ∧
    s.enginesAtWork asid = false ∧
    s.fenceBarred asid = false ∧
    c.group = none ∧
    s.inflight = [] ∧
    s.memoryCanonical ∧
    (∃ a, mapsTo s none asid ((s.ctxSaveBase asid + 32 * 2 ^ 20) % 2 ^ 48) true a) :=
  ⟨haltDevice [(40, 6, 2 ^ 48 - 32 * 2 ^ 20 + 0x20000)], 0, ⟨0, some halt, none, none, 0⟩, halt, of4 (by decide +kernel) ⟨by decide +kernel, rfl, rfl, by unfold State.memoryCanonical; decide +kernel, ⟨0x100000, maps_of (by decide +kernel)⟩⟩⟩

/-- A context of the group 77, halted or not. -/
def grouped (h : Option Halt) : Ctx := ⟨0, h, some (BitVec.ofNat 256 (77 * 2 ^ 64)), some 5, 0⟩

theorem witness_token_other : ∃ (s : State) (asid : Nat) (group : Nat) (c : Ctx),
    s.ctx? asid = some c ∧
    (c.group.all (fun g => decide (g.toNat / 2 ^ 64 % 2 ^ 32 ≠ group)) = true ∨ (∃ h, c.halt = some h ∧ h.complete = true)) :=
  ⟨{ bench with ctxs := [grouped none] }, 0, 78, grouped none, by decide +kernel, .inl (by decide +kernel)⟩

theorem witness_token_recorded : ∃ (s : State) (asid : Nat) (group : Nat) (c : Ctx),
    s.ctx? asid = some c ∧
    (c.group.all (fun g => decide (g.toNat / 2 ^ 64 % 2 ^ 32 ≠ group)) = true ∨ (∃ h, c.halt = some h ∧ h.complete = true)) :=
  ⟨{ bench with ctxs := [grouped (some { halt with complete := true })] }, 0, 77, grouped (some { halt with complete := true }), by decide +kernel, .inr ⟨_, rfl, rfl⟩⟩

theorem witness_token : ∃ (s : State) (asid : Nat) (group : Nat) (c : Ctx),
    s.ctx? asid = some c ∧
    (∃ g : BitVec 256, c.group = some g ∧ g.toNat / 2 ^ 64 % 2 ^ 32 = group) ∧
    c.halt = none :=
  ⟨{ bench with ctxs := [grouped none] }, 0, 77, grouped none, by decide +kernel, ⟨_, rfl, by decide +kernel⟩, rfl⟩

theorem witness_token_halted : ∃ (s : State) (asid : Nat) (group : Nat) (c : Ctx),
    s.ctx? asid = some c ∧
    (∃ g : BitVec 256, c.group = some g ∧ g.toNat / 2 ^ 64 % 2 ^ 32 = group) ∧
    (∃ h, c.halt = some h ∧ h.complete = false) :=
  ⟨{ bench with ctxs := [grouped (some halt)] }, 0, 77, grouped (some halt), by decide +kernel, ⟨_, rfl, by decide +kernel⟩, ⟨halt, rfl, rfl⟩⟩

/-! ### Witnesses: the units -/

theorem unit_reads {s : State} {c : ContRec} {cap : Cap} {lo hi : Nat} {a : Nat → Nat} (hs : s.writes = [])
    (h : ((List.range hi).all fun b => engineB s c.client cap b 1 false (a b)) = true) : unitReads s c cap lo hi :=
  fun b _ hb => ⟨a b, reads_of hs (List.all_eq_true.mp h b (List.mem_range.mpr hb))⟩

theorem only_mem {α : Type} {l : List α} {a : α} (h : l = [a]) : a ∈ l := h ▸ List.mem_singleton.mpr rfl

theorem only_eq {α : Type} {l : List α} {a x : α} (h : l = [a]) (hx : x ∈ l) : x = a := List.mem_singleton.mp (h ▸ hx)

theorem none_of {α : Type} {p : α → Prop} {l : List α} (h : l = []) : ∀ i ∈ l, p i :=
  fun _ hi => absurd (h ▸ hi) List.not_mem_nil

/-- A record whose request a unit is to work on. -/
def recordFor (q : UnitReq) : ContRec :=
  ⟨9, 0, 0, 0, 0, 3, 0, 8, 1, 1, 0, 0x10004, 0x23000, [(1, 7)], q, none, none, none, none, ⟨.core 1 0 0, 4, Marks.none, []⟩⟩

def recordDevice (q : UnitReq) : State := { mapped rod [(0x100000, 4, 0xFF)] with conts := [recordFor q] }

/-- The first 64 bytes of the object 5. -/
def cap64 : Cap := { cap5 with hi := 64 }

/-- A texel of an image of one red texel. -/
def texReq (x : Word) : UnitReq := .tex 4 cap5 0 0 [x, 0, 0] 0 [none, none, none, none]

/-- A sample, with the sampler cell `p`, of an image of two texels, of which the first is red. -/
def sampleReq (p : BitVec 128) (ops : List Word) : UnitReq := .tex 2 cap5 (2 ^ 66) p ops 0 [none, none, none, none]

def sampleDevice (p : BitVec 128) (ops : List Word) : State := recordDevice (sampleReq p ops)

/-- A ray along z, through an empty tree; and one whose origin is a NaN. -/
def rayWords (x : Word) : List Word := [x, 0, 0, 0, 0, 0x3F800000, 0, 0x41200000]
def traceReq (x : Word) : UnitReq := .trace true cap64 0 (rayWords x)

theorem witness_texture : ∃ (s : State) (c : ContRec) (ctl : Nat) (cap : Cap) (image : BitVec 128) (sampler : BitVec 128) (ops : List Word) (k : Nat) (quad : List (Option (Word × Word))),
    atWork s c ∧
    c.req = .tex ctl cap image sampler ops k quad ∧
    unitReads s c cap (Image.ofNat image.toNat).off ((Image.ofNat image.toNat).off + (Image.ofNat image.toNat).extent) :=
  ⟨recordDevice (texReq 0), recordFor (texReq 0), 4, cap5, 0, 0, [0, 0, 0], 0, [none, none, none, none], ⟨by decide +kernel, by decide +kernel, by decide +kernel, by decide +kernel, by decide +kernel⟩, rfl, unit_reads (a := fun b => 0x100000 + b) rfl (by decide +kernel)⟩

theorem witness_texel_outside : ∃ (s : State) (c : ContRec) (cap : Cap) (image : BitVec 128) (sampler : BitVec 128) (ops : List Word) (k : Nat) (quad : List (Option (Word × Word))),
    atWork s c ∧
    c.req = .tex 4 cap image sampler ops k quad ∧
    ((Image.ofNat image.toNat).size (ops.getD 2 0).toNat).1 ≤ (ops.getD 0 0).toNat :=
  ⟨recordDevice (texReq 1), recordFor (texReq 1), cap5, 0, 0, [1, 0, 0], 0, [none, none, none, none], ⟨by decide +kernel, by decide +kernel, by decide +kernel, by decide +kernel, by decide +kernel⟩, rfl, by decide +kernel⟩

theorem witness_texel : ∃ (s : State) (c : ContRec) (cap : Cap) (image : BitVec 128) (sampler : BitVec 128) (ops : List Word) (k : Nat) (quad : List (Option (Word × Word))) (at_ : Nat → Nat),
    atWork s c ∧
    c.req = .tex 4 cap image sampler ops k quad ∧
    ((ops.getD 2 0).toNat ≤ (Image.ofNat image.toNat).lvm1 ∧ (ops.getD 0 0).toNat < ((Image.ofNat image.toNat).size (ops.getD 2 0).toNat).1 ∧ (ops.getD 1 0).toNat < ((Image.ofNat image.toNat).size (ops.getD 2 0).toNat).2) ∧
    (∀ b < (Image.ofNat image.toNat).texelBytes, EngineReads s c.client cap ((Image.ofNat image.toNat).off + (Image.ofNat image.toNat).levelAt (ops.getD 2 0).toNat + ((ops.getD 1 0).toNat * ((Image.ofNat image.toNat).size (ops.getD 2 0).toNat).1 + (ops.getD 0 0).toNat) * (Image.ofNat image.toNat).texelBytes + b) (at_ b)) :=
  ⟨recordDevice (texReq 0), recordFor (texReq 0), cap5, 0, 0, [0, 0, 0], 0, [none, none, none, none], (fun b => 0x100000 + b), ⟨by decide +kernel, by decide +kernel, by decide +kernel, by decide +kernel, by decide +kernel⟩, rfl, by decide +kernel, all_reads rfl (by decide +kernel)⟩

theorem witness_texel_nearest : ∃ (s : State) (c : ContRec) (cap : Cap) (image : BitVec 128) (sampler : BitVec 128) (ops : List Word) (k : Nat) (x : Nat) (y : Nat) (u : Rat) (v : Rat) (quad : List (Option (Word × Word))) (at_ : Nat → Nat),
    atWork s c ∧
    c.req = .tex 2 cap image sampler ops k quad ∧
    (Image.ofNat image.toNat).fmtt = 0 ∧
    (Sampler.ofNat sampler.toNat).mip = 0 ∧
    (Sampler.ofNat sampler.toNat).min = false ∧
    (Sampler.ofNat sampler.toNat).mag = false ∧
    wordIs (ops.getD 0 0) u ∧
    wordIs (ops.getD 1 0) v ∧
    |u| ≤ 2 ^ 24 ∧
    |v| ≤ 2 ^ 24 ∧
    texelIndex (Sampler.ofNat sampler.toNat).addrU (Image.ofNat image.toNat).w ⌊u * (Image.ofNat image.toNat).w⌋ x ∧
    texelIndex (Sampler.ofNat sampler.toNat).addrV (Image.ofNat image.toNat).h ⌊v * (Image.ofNat image.toNat).h⌋ y ∧
    (∀ b < 4, EngineReads s c.client cap ((Image.ofNat image.toNat).off + 4 * (y * (Image.ofNat image.toNat).w + x) + b) (at_ b)) :=
  ⟨sampleDevice 0 [0x3F800000, 0, 0], recordFor (sampleReq 0 [0x3F800000, 0, 0]), cap5, 2 ^ 66, 0, [0x3F800000, 0, 0], 0, 0, 0, 1, 0, [none, none, none, none], (fun b => 0x100000 + b), ⟨by decide +kernel, by decide +kernel, by decide +kernel, by decide +kernel, by decide +kernel⟩, rfl, of4 (by decide +kernel) ⟨by unfold wordIs; decide +kernel, by unfold wordIs; decide +kernel, by norm_num, by norm_num, ⟨by decide +kernel, 1, by decide +kernel⟩, ⟨by decide +kernel, 0, by decide +kernel⟩, all_reads rfl (by decide +kernel)⟩⟩

theorem witness_texel_filtered : ∃ (s : State) (c : ContRec) (cap : Cap) (image : BitVec 128) (sampler : BitVec 128) (ops : List Word) (k : Nat) (x0 : Nat) (x1 : Nat) (y0 : Nat) (y1 : Nat) (u : Rat) (v : Rat) (quad : List (Option (Word × Word))) (at_ : Nat → Nat → Nat → Nat),
    atWork s c ∧
    c.req = .tex 2 cap image sampler ops k quad ∧
    (Image.ofNat image.toNat).fmtt = 0 ∧
    (Sampler.ofNat sampler.toNat).mip = 0 ∧
    (Sampler.ofNat sampler.toNat).min = true ∧
    (Sampler.ofNat sampler.toNat).mag = true ∧
    wordIs (ops.getD 0 0) u ∧
    wordIs (ops.getD 1 0) v ∧
    |u| ≤ 2 ^ 24 ∧
    |v| ≤ 2 ^ 24 ∧
    texelIndex (Sampler.ofNat sampler.toNat).addrU (Image.ofNat image.toNat).w ((⌊256 * (u * (Image.ofNat image.toNat).w - 1 / 2)⌋) / 256) x0 ∧
    texelIndex (Sampler.ofNat sampler.toNat).addrU (Image.ofNat image.toNat).w ((⌊256 * (u * (Image.ofNat image.toNat).w - 1 / 2)⌋) / 256 + 1) x1 ∧
    texelIndex (Sampler.ofNat sampler.toNat).addrV (Image.ofNat image.toNat).h ((⌊256 * (v * (Image.ofNat image.toNat).h - 1 / 2)⌋) / 256) y0 ∧
    texelIndex (Sampler.ofNat sampler.toNat).addrV (Image.ofNat image.toNat).h ((⌊256 * (v * (Image.ofNat image.toNat).h - 1 / 2)⌋) / 256 + 1) y1 ∧
    ((∀ x y, x = x0 ∨ x = x1 → y = y0 ∨ y = y1 →
      ∀ b < 4, EngineReads s c.client cap ((Image.ofNat image.toNat).off + 4 * (y * (Image.ofNat image.toNat).w + x) + b) (at_ x y b))) :=
  ⟨sampleDevice 0x30 [0x3F000000, 0, 0], recordFor (sampleReq 0x30 [0x3F000000, 0, 0]), cap5, 2 ^ 66, 0x30, [0x3F000000, 0, 0], 0, 0, 1, 0, 0, 1 / 2, 0, [none, none, none, none], (fun x y b => 0x100000 + 4 * (y * 2 + x) + b), ⟨by decide +kernel, by decide +kernel, by decide +kernel, by decide +kernel, by decide +kernel⟩, rfl, of4 (by decide +kernel) ⟨by unfold wordIs; decide +kernel, by unfold wordIs; decide +kernel, by norm_num, by norm_num, ⟨by decide +kernel, 0, by decide +kernel⟩, ⟨by decide +kernel, 0, by decide +kernel⟩, ⟨by decide +kernel, -1, by decide +kernel⟩, ⟨by decide +kernel, 0, by decide +kernel⟩, fun x y hx hy => by obtain rfl | rfl := hx <;> obtain rfl | rfl := hy <;> exact all_reads rfl (by decide +kernel)⟩⟩

theorem derivative_x : derivative [some (0, 0), some (0x40800000, 0), some (0, 0x3F800000), some (0, 0)] [(0, 1), (2, 3)] = (4, 0) := by
  decide +kernel

theorem derivative_y : derivative [some (0, 0), some (0x40800000, 0), some (0, 0x3F800000), some (0, 0)] [(0, 2), (1, 3)] = (0, 1) := by
  decide +kernel

theorem witness_detail : ∃ (ctl : Nat) (i : Image) (quad : List (Option (Word × Word))),
    (ctl = 0 ∨ ctl = 1) ∧
    0 < max (max (|(derivative quad [(0, 1), (2, 3)]).1| * i.w) (|(derivative quad [(0, 1), (2, 3)]).2| * i.h)) (max (|(derivative quad [(0, 2), (1, 3)]).1| * i.w) (|(derivative quad [(0, 2), (1, 3)]).2| * i.h)) :=
  ⟨1, ⟨0, 1, 1, 0, 0⟩, [some (0, 0), some (0x40800000, 0), some (0, 0x3F800000), some (0, 0)], .inr rfl, by norm_num [derivative_x, derivative_y]⟩

theorem witness_trace_result : ∃ (s : State) (c : ContRec) (any : Bool) (cap : Cap) (root : Nat) (ray : List Word),
    atWork s c ∧
    c.req = .trace any cap root ray ∧
    unitReads s c cap cap.lo.toNat cap.hi.toNat :=
  ⟨recordDevice (traceReq 0), recordFor (traceReq 0), true, cap64, 0, rayWords 0, ⟨by decide +kernel, by decide +kernel, by decide +kernel, by decide +kernel, by decide +kernel⟩, rfl, unit_reads (a := fun b => 0x100000 + b) rfl (by decide +kernel)⟩

theorem witness_trace_nan : ∃ (s : State) (c : ContRec) (any : Bool) (cap : Cap) (root : Nat) (ray : List Word),
    atWork s c ∧
    c.req = .trace any cap root ray ∧
    (∃ i < 6, f32Rat? (ray.getD i 0).toNat = none) :=
  ⟨recordDevice (traceReq 0x7FC00000), recordFor (traceReq 0x7FC00000), true, cap64, 0, rayWords 0x7FC00000, ⟨by decide +kernel, by decide +kernel, by decide +kernel, by decide +kernel, by decide +kernel⟩, rfl, ⟨0, by decide +kernel⟩⟩

/-- A tree whose root has one leaf of one triangle, whose box is from the origin to `hi`, and the ray from (`x`, `x`, -1) along z. -/
def leafReq (x : Word) : UnitReq := .trace false cap5 0 [x, x, 0xBF800000, 0, 0, 0x3F800000, 0, 0x41200000]

def leafDevice (x : Word) (hi tri : Nat) : State :=
  { mapped rod [(0x100000, 64, 2 * 2 ^ 414 + 2 ^ 384 + hi * (2 ^ 96 + 2 ^ 128)), (0x100040, 64, tri)] with conts := [recordFor (leafReq x)] }

/-- The triangle (0, 0, 0), (1, 0, 0), (0, 1, 0), number 9. -/
def triangleBits : Nat := 9 * 2 ^ 288 + 0x3F800000 * (2 ^ 96 + 2 ^ 224)

/-- The root of those trees. -/
def rootAt (x : Word) (hi tri : Nat) : Nat :=
  natOfBytes ((List.range 64).map fun b => Memory.read (leafDevice x hi tri).mem (0x100000 + b))

theorem box_missed : ∀ t : Rat, 0 ≤ t → t ≤ 10 → ¬ inBox ⟨2, 2, -1⟩ ⟨0, 0, 1⟩ (rootAt 0x40000000 0x3F800000 0) 0 t := by
  intro t _ _ h
  have e : ratOf (field (rootAt 0x40000000 0x3F800000 0) (192 * 0 + 32 * 3) 32) = 1 := by decide +kernel
  have h1 : (2 : Rat) + t * 0 ≤ ratOf (field (rootAt 0x40000000 0x3F800000 0) (192 * 0 + 32 * 3) 32) := h.1.2
  rw [e] at h1
  norm_num at h1

theorem box_hit (x : Word) (v : Rat) (hi tri : Nat) (h0 : 0 ≤ v)
    (e0 : ∀ k < 3, ratOf (field (rootAt x hi tri) (192 * 0 + 32 * k) 32) = 0)
    (e1 : ∀ k < 2, v ≤ ratOf (field (rootAt x hi tri) (192 * 0 + 32 * (3 + k)) 32))
    (e2 : ratOf (field (rootAt x hi tri) (192 * 0 + 32 * 5) 32) = 0) :
    ∃ t : Rat, 0 ≤ t ∧ t ≤ 10 ∧ inBox ⟨v, v, -1⟩ ⟨0, 0, 1⟩ (rootAt x hi tri) 0 t := by
  refine ⟨1, by norm_num, by norm_num, ⟨?_, ?_⟩, ⟨?_, ?_⟩, ?_, ?_⟩
  · simpa using (e0 0 (by decide)).trans_le h0
  · simpa using e1 0 (by decide)
  · simpa using (e0 1 (by decide)).trans_le h0
  · simpa using e1 1 (by decide)
  · simpa using (e0 2 (by decide)).le
  · simpa using e2.ge

theorem witness_trace_outside : ∃ (s : State) (c : ContRec) (cap : Cap) (root : Nat) (ray : List Word) (o : V3) (d : V3) (tmin : Rat) (tmax : Rat) (at_ : Nat → Nat),
    atWork s c ∧
    c.req = .trace false cap root ray ∧
    c.trace = none ∧
    wordIs (ray.getD 0 0) o.x ∧
    wordIs (ray.getD 1 0) o.y ∧
    wordIs (ray.getD 2 0) o.z ∧
    wordIs (ray.getD 3 0) d.x ∧
    wordIs (ray.getD 4 0) d.y ∧
    wordIs (ray.getD 5 0) d.z ∧
    wordIs (ray.getD 6 0) tmin ∧
    wordIs (ray.getD 7 0) tmax ∧
    ((d.x ≠ 0 ∨ d.y ≠ 0 ∨ d.z ≠ 0)) ∧
    tmin ≤ tmax ∧
    cap.lo.toNat ≤ root ∧
    root + 64 ≤ cap.hi.toNat ∧
    (∀ b < 64, EngineReads s c.client cap (root + b) (at_ b)) ∧
    field (natOfBytes ((List.range 64).map fun b => Memory.read s.mem (at_ b))) 448 64 = 0 ∧
    field (natOfBytes ((List.range 64).map fun b => Memory.read s.mem (at_ b))) 414 2 = 2 ∧
    field (natOfBytes ((List.range 64).map fun b => Memory.read s.mem (at_ b))) 446 2 = 0 ∧
    (∀ k < 6, f32Rat? (field (natOfBytes ((List.range 64).map fun b => Memory.read s.mem (at_ b))) (32 * k) 32) ≠ none) ∧
    (∀ t, tmin ≤ t → t ≤ tmax → ¬ inBox o d (natOfBytes ((List.range 64).map fun b => Memory.read s.mem (at_ b))) 0 t) :=
  ⟨leafDevice 0x40000000 0x3F800000 0, recordFor (leafReq 0x40000000), cap5, 0, [0x40000000, 0x40000000, 0xBF800000, 0, 0, 0x3F800000, 0, 0x41200000], ⟨2, 2, -1⟩, ⟨0, 0, 1⟩, 0, 10, (fun b => 0x100000 + b), ⟨by decide +kernel, by decide +kernel, by decide +kernel, by decide +kernel, by decide +kernel⟩, rfl, rfl, by unfold wordIs; decide +kernel, by unfold wordIs; decide +kernel, by unfold wordIs; decide +kernel, by unfold wordIs; decide +kernel, by unfold wordIs; decide +kernel, by unfold wordIs; decide +kernel, by unfold wordIs; decide +kernel, by unfold wordIs; decide +kernel, .inr (.inr (by decide)), by norm_num, by decide +kernel, by decide +kernel, all_reads rfl (by decide +kernel), of4 (by decide +kernel) (box_missed)⟩

/-- A triangle whose vertices are all one point is never met. -/
theorem flat_missed (o d : V3) (y : Nat) (hy : y = 0) (tmin tmax t b1 b2 : Rat) : ¬ meets o d y tmin tmax t b1 b2 := by
  subst hy
  rintro ⟨v0, v1, v2, h0, h1, h2, hd, _⟩
  have e0 : v3? (Machine.wordsOf 0 0 9) 0 = some ⟨0, 0, 0⟩ := by decide +kernel
  have e1 : v3? (Machine.wordsOf 0 0 9) 3 = some ⟨0, 0, 0⟩ := by decide +kernel
  have e2 : v3? (Machine.wordsOf 0 0 9) 6 = some ⟨0, 0, 0⟩ := by decide +kernel
  obtain rfl := Option.some.inj (e0.symm.trans h0)
  obtain rfl := Option.some.inj (e1.symm.trans h1)
  obtain rfl := Option.some.inj (e2.symm.trans h2)
  exact hd (by simp [V3.sub, V3.dot, V3.cross])

theorem one_leaf : field (rootAt 0x3E800000 0x3F800000 0) 408 6 + 1 = 1 ∧
    field (rootAt 0x3E800000 0x3F800000 triangleBits) 408 6 + 1 = 1 := by decide +kernel

theorem leaf_flat : ∀ j < 1,
    natOfBytes ((List.range 64).map fun b => Memory.read (leafDevice 0x3E800000 0x3F800000 0).mem (0x100040 + (64 * j + b))) = 0 := by
  decide +kernel

/-- The ray meets the triangle at its quarter. -/
theorem triangle_met (y : Nat) (hy : y = triangleBits) : meets ⟨1 / 4, 1 / 4, -1⟩ ⟨0, 0, 1⟩ y 0 10 1 (1 / 4) (1 / 4) := by
  subst hy
  refine ⟨⟨0, 0, 0⟩, ⟨1, 0, 0⟩, ⟨0, 1, 0⟩, by decide +kernel, by decide +kernel, by decide +kernel, ?_⟩
  norm_num [V3.sub, V3.dot, V3.cross]

theorem witness_trace_missed : ∃ (s : State) (c : ContRec) (cap : Cap) (root : Nat) (ray : List Word) (o : V3) (d : V3) (tmin : Rat) (tmax : Rat) (at_ : Nat → Nat),
    atWork s c ∧
    c.req = .trace false cap root ray ∧
    c.trace = none ∧
    wordIs (ray.getD 0 0) o.x ∧
    wordIs (ray.getD 1 0) o.y ∧
    wordIs (ray.getD 2 0) o.z ∧
    wordIs (ray.getD 3 0) d.x ∧
    wordIs (ray.getD 4 0) d.y ∧
    wordIs (ray.getD 5 0) d.z ∧
    wordIs (ray.getD 6 0) tmin ∧
    wordIs (ray.getD 7 0) tmax ∧
    ((d.x ≠ 0 ∨ d.y ≠ 0 ∨ d.z ≠ 0)) ∧
    tmin ≤ tmax ∧
    cap.lo.toNat ≤ root ∧
    root + 64 ≤ cap.hi.toNat ∧
    (∀ b < 64, EngineReads s c.client cap (root + b) (at_ b)) ∧
    field (natOfBytes ((List.range 64).map fun b => Memory.read s.mem (at_ b))) 448 64 = 0 ∧
    field (natOfBytes ((List.range 64).map fun b => Memory.read s.mem (at_ b))) 414 2 = 2 ∧
    field (natOfBytes ((List.range 64).map fun b => Memory.read s.mem (at_ b))) 446 2 = 0 ∧
    (∀ k < 6, f32Rat? (field (natOfBytes ((List.range 64).map fun b => Memory.read s.mem (at_ b))) (32 * k) 32) ≠ none) ∧
    (∃ t, tmin ≤ t ∧ t ≤ tmax ∧ inBox o d (natOfBytes ((List.range 64).map fun b => Memory.read s.mem (at_ b))) 0 t) ∧
    (∃ at1 : Nat → Nat, 0 < field (natOfBytes ((List.range 64).map fun b => Memory.read s.mem (at_ b))) 408 6 + 1 ∧ cap.lo.toNat ≤ 64 * field (natOfBytes ((List.range 64).map fun b => Memory.read s.mem (at_ b))) 384 24 ∧ 64 * field (natOfBytes ((List.range 64).map fun b => Memory.read s.mem (at_ b))) 384 24 + 64 * (field (natOfBytes ((List.range 64).map fun b => Memory.read s.mem (at_ b))) 408 6 + 1) ≤ cap.hi.toNat ∧ (∀ b < 64 * (field (natOfBytes ((List.range 64).map fun b => Memory.read s.mem (at_ b))) 408 6 + 1), EngineReads s c.client cap (64 * field (natOfBytes ((List.range 64).map fun b => Memory.read s.mem (at_ b))) 384 24 + b) (at1 b)) ∧ (∀ j < field (natOfBytes ((List.range 64).map fun b => Memory.read s.mem (at_ b))) 408 6 + 1, field (natOfBytes ((List.range 64).map fun b => Memory.read s.mem (at1 (64 * j + b)))) 320 192 = 0) ∧ ∀ j < field (natOfBytes ((List.range 64).map fun b => Memory.read s.mem (at_ b))) 408 6 + 1, ∀ t b1 b2, ¬ meets o d (natOfBytes ((List.range 64).map fun b => Memory.read s.mem (at1 (64 * j + b)))) tmin tmax t b1 b2) :=
  ⟨leafDevice 0x3E800000 0x3F800000 0, recordFor (leafReq 0x3E800000), cap5, 0, [0x3E800000, 0x3E800000, 0xBF800000, 0, 0, 0x3F800000, 0, 0x41200000], ⟨1 / 4, 1 / 4, -1⟩, ⟨0, 0, 1⟩, 0, 10, (fun b => 0x100000 + b), ⟨by decide +kernel, by decide +kernel, by decide +kernel, by decide +kernel, by decide +kernel⟩, rfl, rfl, by unfold wordIs; decide +kernel, by unfold wordIs; decide +kernel, by unfold wordIs; decide +kernel, by unfold wordIs; decide +kernel, by unfold wordIs; decide +kernel, by unfold wordIs; decide +kernel, by unfold wordIs; decide +kernel, by unfold wordIs; decide +kernel, .inr (.inr (by decide)), by norm_num, by decide +kernel, by decide +kernel, all_reads rfl (by decide +kernel), of4 (by decide +kernel) ⟨box_hit _ _ _ _ (by norm_num) (by decide +kernel) (by decide +kernel) (by decide +kernel), ⟨fun b => 0x100040 + b, by decide +kernel, by decide +kernel, by decide +kernel, all_reads rfl (by decide +kernel), by decide +kernel, fun j hj _ _ _ => flat_missed _ _ _ (leaf_flat j (Nat.lt_of_lt_of_eq hj one_leaf.1)) _ _ _ _ _⟩⟩⟩

theorem witness_trace_met : ∃ (s : State) (c : ContRec) (cap : Cap) (root : Nat) (ray : List Word) (o : V3) (d : V3) (tmin : Rat) (tmax : Rat) (at_ : Nat → Nat),
    atWork s c ∧
    c.req = .trace false cap root ray ∧
    c.trace = none ∧
    wordIs (ray.getD 0 0) o.x ∧
    wordIs (ray.getD 1 0) o.y ∧
    wordIs (ray.getD 2 0) o.z ∧
    wordIs (ray.getD 3 0) d.x ∧
    wordIs (ray.getD 4 0) d.y ∧
    wordIs (ray.getD 5 0) d.z ∧
    wordIs (ray.getD 6 0) tmin ∧
    wordIs (ray.getD 7 0) tmax ∧
    ((d.x ≠ 0 ∨ d.y ≠ 0 ∨ d.z ≠ 0)) ∧
    tmin ≤ tmax ∧
    cap.lo.toNat ≤ root ∧
    root + 64 ≤ cap.hi.toNat ∧
    (∀ b < 64, EngineReads s c.client cap (root + b) (at_ b)) ∧
    field (natOfBytes ((List.range 64).map fun b => Memory.read s.mem (at_ b))) 448 64 = 0 ∧
    field (natOfBytes ((List.range 64).map fun b => Memory.read s.mem (at_ b))) 414 2 = 2 ∧
    field (natOfBytes ((List.range 64).map fun b => Memory.read s.mem (at_ b))) 446 2 = 0 ∧
    (∀ k < 6, f32Rat? (field (natOfBytes ((List.range 64).map fun b => Memory.read s.mem (at_ b))) (32 * k) 32) ≠ none) ∧
    (∃ t, tmin ≤ t ∧ t ≤ tmax ∧ inBox o d (natOfBytes ((List.range 64).map fun b => Memory.read s.mem (at_ b))) 0 t) ∧
    (∃ (at1 : Nat → Nat) (j : Nat) (t b1 b2 : Rat), (0 < field (natOfBytes ((List.range 64).map fun b => Memory.read s.mem (at_ b))) 408 6 + 1 ∧ cap.lo.toNat ≤ 64 * field (natOfBytes ((List.range 64).map fun b => Memory.read s.mem (at_ b))) 384 24 ∧ 64 * field (natOfBytes ((List.range 64).map fun b => Memory.read s.mem (at_ b))) 384 24 + 64 * (field (natOfBytes ((List.range 64).map fun b => Memory.read s.mem (at_ b))) 408 6 + 1) ≤ cap.hi.toNat ∧ (∀ b < 64 * (field (natOfBytes ((List.range 64).map fun b => Memory.read s.mem (at_ b))) 408 6 + 1), EngineReads s c.client cap (64 * field (natOfBytes ((List.range 64).map fun b => Memory.read s.mem (at_ b))) 384 24 + b) (at1 b)) ∧ (∀ j < field (natOfBytes ((List.range 64).map fun b => Memory.read s.mem (at_ b))) 408 6 + 1, field (natOfBytes ((List.range 64).map fun b => Memory.read s.mem (at1 (64 * j + b)))) 320 192 = 0)) ∧ j < field (natOfBytes ((List.range 64).map fun b => Memory.read s.mem (at_ b))) 408 6 + 1 ∧ meets o d (natOfBytes ((List.range 64).map fun b => Memory.read s.mem (at1 (64 * j + b)))) tmin tmax t b1 b2 ∧ ∀ l < field (natOfBytes ((List.range 64).map fun b => Memory.read s.mem (at_ b))) 408 6 + 1, l ≠ j → ∀ t1 b11 b21, meets o d (natOfBytes ((List.range 64).map fun b => Memory.read s.mem (at1 (64 * l + b)))) tmin tmax t1 b11 b21 → t < t1 ∨ t = t1 ∧ field (natOfBytes ((List.range 64).map fun b => Memory.read s.mem (at1 (64 * j + b)))) 288 32 < field (natOfBytes ((List.range 64).map fun b => Memory.read s.mem (at1 (64 * l + b)))) 288 32) :=
  ⟨leafDevice 0x3E800000 0x3F800000 triangleBits, recordFor (leafReq 0x3E800000), cap5, 0, [0x3E800000, 0x3E800000, 0xBF800000, 0, 0, 0x3F800000, 0, 0x41200000], ⟨1 / 4, 1 / 4, -1⟩, ⟨0, 0, 1⟩, 0, 10, (fun b => 0x100000 + b), ⟨by decide +kernel, by decide +kernel, by decide +kernel, by decide +kernel, by decide +kernel⟩, rfl, rfl, by unfold wordIs; decide +kernel, by unfold wordIs; decide +kernel, by unfold wordIs; decide +kernel, by unfold wordIs; decide +kernel, by unfold wordIs; decide +kernel, by unfold wordIs; decide +kernel, by unfold wordIs; decide +kernel, by unfold wordIs; decide +kernel, .inr (.inr (by decide)), by norm_num, by decide +kernel, by decide +kernel, all_reads rfl (by decide +kernel), of4 (by decide +kernel) ⟨box_hit _ _ _ _ (by norm_num) (by decide +kernel) (by decide +kernel) (by decide +kernel), ⟨fun b => 0x100040 + b, 0, 1, 1 / 4, 1 / 4, ⟨by decide +kernel, by decide +kernel, by decide +kernel, all_reads rfl (by decide +kernel), by decide +kernel⟩, by decide +kernel, triangle_met _ (by decide +kernel), fun l hl h => absurd (Nat.lt_one_iff.mp (Nat.lt_of_lt_of_eq hl one_leaf.2)) h⟩⟩⟩

/-- A march along z through a grid of one cell; and one from a NaN. -/
def gridBits : BitVec 512 := BitVec.ofNat 512 (0x3F800000 * (2 ^ 96 + 2 ^ 128 + 2 ^ 160) + 2 ^ 12 * 2 ^ 384)
def marchWords (x : Word) : List Word := [x, 0x3F000000, 0x3F000000, 0, 0, 0x3F800000, 0, 0x41200000, 0, 0, 0, 0]
def marchReq (x : Word) : UnitReq := .march cap64 gridBits (marchWords x)

theorem witness_march : ∃ (s : State) (c : ContRec) (cap : Cap) (desc : BitVec 512) (ray : List Word),
    atWork s c ∧
    c.req = .march cap desc ray ∧
    unitReads s c cap cap.lo.toNat cap.hi.toNat :=
  ⟨recordDevice (marchReq 0x3F000000), recordFor (marchReq 0x3F000000), cap64, gridBits, marchWords 0x3F000000, ⟨by decide +kernel, by decide +kernel, by decide +kernel, by decide +kernel, by decide +kernel⟩, rfl, unit_reads (a := fun b => 0x100000 + b) rfl (by decide +kernel)⟩

theorem witness_march_nan : ∃ (s : State) (c : ContRec) (cap : Cap) (desc : BitVec 512) (ray : List Word),
    atWork s c ∧
    c.req = .march cap desc ray ∧
    (∃ i < 6, f32Rat? (ray.getD i 0).toNat = none) :=
  ⟨recordDevice (marchReq 0x7FC00000), recordFor (marchReq 0x7FC00000), cap64, gridBits, marchWords 0x7FC00000, ⟨by decide +kernel, by decide +kernel, by decide +kernel, by decide +kernel, by decide +kernel⟩, rfl, ⟨0, by decide +kernel⟩⟩

theorem witness_march_beside : ∃ (s : State) (c : ContRec) (cap : Cap) (desc : BitVec 512) (ray : List Word) (o : Nat → Rat) (k : Nat → Rat) (j : Nat),
    atWork s c ∧
    c.req = .march cap desc ray ∧
    rayBad (ray.map BitVec.toNat) = false ∧
    (∀ i < 3, f32Rat? ((Grid.ofNat desc.toNat).o.getD i 0) = some (o i) ∧ f32Rat? ((Grid.ofNat desc.toNat).k.getD i 0) = some (k i) ∧ 0 < k i) ∧
    let og (i : Nat) := f32Rat? (rneRat ((ratOf (ray.getD i 0).toNat - o i) * k i)).toNat
    (∀ i < 3, og i ≠ none ∧ f32Rat? (rneRat (ratOf (ray.getD (3 + i) 0).toNat * k i)).toNat ≠ none) ∧
    j < 3 ∧
    wordIs (ray.getD (3 + j) 0) 0 ∧
    ((∃ x, og j = some x ∧ (x < 0 ∨ ((Grid.ofNat desc.toNat).n.getD j 0 : Rat) ≤ x))) :=
  ⟨recordDevice (marchReq 0x40000000), recordFor (marchReq 0x40000000), cap64, gridBits, marchWords 0x40000000, (fun _ => 0), (fun _ => 1), 0, ⟨by decide +kernel, by decide +kernel, by decide +kernel, by decide +kernel, by decide +kernel⟩, rfl, by decide +kernel, by decide +kernel, by decide +kernel, by decide +kernel, by unfold wordIs; decide +kernel, ⟨2, by decide +kernel, .inr (by decide +kernel)⟩⟩

/-- What an answer holds. -/
def answer {ε α : Type} (d : α) : Except ε α → α
  | .ok x => x
  | .error _ => d

theorem ok_of {ε α : Type} {e : Except ε α} (d : α) (h : e.toBool = true) : e = .ok (answer d e) := by
  cases e with
  | ok x => rfl
  | error x => nomatch h

/-- A march that starts inside the grid as it begins, and a record of it at a point, with `x` as the grid's majorant and `y` as its density. -/
def marchOn : List Word :=
  [0x3F000000, 0x3E800000, 0x3E000000, 0x3F800000, 0x3F800000, 0x3F800000, 0, 0x41200000, 0, 0, 0, 0]

def begun : March × MarchPoint :=
  answer (⟨[], Grid.ofNat 0, [], [], 0⟩, ⟨0, 0, 0, [], [], false, none⟩)
    (marchStart ((marchOn).map BitVec.toNat) (Grid.ofNat gridBits.toNat))

theorem march_begun : marchStart ((marchOn).map BitVec.toNat) (Grid.ofNat gridBits.toNat) = .ok (begun.1, begun.2) :=
  ok_of _ (by decide +kernel)

def recordAt (p : MarchPoint) : ContRec := { recordFor (.march cap5 gridBits (marchOn)) with point := some p }

def marchDevice (x y : Nat) (p : MarchPoint) : State :=
  { mapped rod [(0x100000, 4, x), (0x101000, 4, y)] with conts := [recordAt p] }

/-- The conditions of the last clause of UnitEventsComplete on marches. -/
structure collision (s : State) (c : ContRec) (cap : Cap) (g : Grid) (m : March) (p : MarchPoint) (ray : List Word)
    (mu tb t index : Nat) (sigma : Rat) (at_ : Nat → Nat) : Prop where
  distance : t = (Fmt.f32.add Env.engine (Fmt.f32.decode p.ta) (Fmt.f32.decode (freePath (drawXi ((ray.getD 8 0).toNat +
    2 ^ 32 * (ray.getD 9 0).toNat) (ray.getD 10 0).toNat (p.idx % 2 ^ 32)) mu))).1
  before : (extOf t).lt (extOf tb) = true
  cell : let sub : Nat := 2 ^ g.logs
    let q (i : Nat) : Nat :=
      cellAt ((m.og.getD i 0 + ratOf t * m.dg.getD i 0) * (sub : Rat)) (sub * p.c.getD i 0) (sub * p.c.getD i 0 + sub - 1)
    index = (q 2 * (sub * g.n.getD 1 0) + q 1) * (sub * g.n.getD 0 0) + q 0
  low : cap.lo.toNat ≤ g.doff + 4 * index
  high : g.doff + 4 * index + 4 ≤ cap.hi.toNat
  reads : ∀ b < 4, EngineReads s c.client cap (g.doff + 4 * index + b) (at_ b)
  density : f32Rat? (natOfBytes ((List.range 4).map fun b => Memory.read s.mem (at_ b))) = some sigma
  majorant : f32Rat? mu ≠ none
  positive : 0 ≤ ratOf mu

def pointAt (left : Nat) (inside : Option (Nat × Nat)) : MarchPoint := { begun.2 with left := left, inside := inside }

theorem witness_march_stopped : ∃ (s : State) (c : ContRec) (cap : Cap) (desc : BitVec 512) (ray : List Word) (m : March) (start : MarchPoint) (p : MarchPoint),
    atWork s c ∧
    c.req = .march cap desc ray ∧
    c.point = some p ∧
    ray.length = 12 ∧
    p.idx < 2 ^ 32 ∧
    marchStart (ray.map BitVec.toNat) (Grid.ofNat desc.toNat) = .ok (m, start) ∧
    p.left = 0 :=
  ⟨marchDevice 0 0 (pointAt 0 none), recordAt (pointAt 0 none), cap5, gridBits, marchOn, begun.1, begun.2, pointAt 0 none, ⟨by decide +kernel, by decide +kernel, by decide +kernel, by decide +kernel, by decide +kernel⟩, rfl, rfl, rfl, by decide +kernel, march_begun, by decide +kernel⟩

theorem witness_march_cell_empty : ∃ (s : State) (c : ContRec) (cap : Cap) (desc : BitVec 512) (ray : List Word) (m : March) (start : MarchPoint) (p : MarchPoint),
    atWork s c ∧
    c.req = .march cap desc ray ∧
    c.point = some p ∧
    ray.length = 12 ∧
    p.idx < 2 ^ 32 ∧
    marchStart (ray.map BitVec.toNat) (Grid.ofNat desc.toNat) = .ok (m, start) ∧
    (∃ at_ : Nat → Nat, 0 < p.left ∧ p.inside = none ∧ cap.lo.toNat ≤ (Grid.ofNat desc.toNat).moff + 4 * ((p.c.getD 2 0 * (Grid.ofNat desc.toNat).n.getD 1 0 + p.c.getD 1 0) * (Grid.ofNat desc.toNat).n.getD 0 0 + p.c.getD 0 0) ∧ (Grid.ofNat desc.toNat).moff + 4 * ((p.c.getD 2 0 * (Grid.ofNat desc.toNat).n.getD 1 0 + p.c.getD 1 0) * (Grid.ofNat desc.toNat).n.getD 0 0 + p.c.getD 0 0) + 4 ≤ cap.hi.toNat ∧ (∀ b < 4, EngineReads s c.client cap ((Grid.ofNat desc.toNat).moff + 4 * ((p.c.getD 2 0 * (Grid.ofNat desc.toNat).n.getD 1 0 + p.c.getD 1 0) * (Grid.ofNat desc.toNat).n.getD 0 0 + p.c.getD 0 0) + b) (at_ b)) ∧ f32Rat? (natOfBytes ((List.range 4).map fun b => Memory.read s.mem (at_ b))) = some 0) :=
  ⟨marchDevice 0 0 (pointAt 1 none), recordAt (pointAt 1 none), cap5, gridBits, marchOn, begun.1, begun.2, pointAt 1 none, ⟨by decide +kernel, by decide +kernel, by decide +kernel, by decide +kernel, by decide +kernel⟩, rfl, rfl, rfl, by decide +kernel, march_begun, ⟨fun b => 0x100000 + b, by decide +kernel, by decide +kernel, by decide +kernel, by decide +kernel, all_reads rfl (by decide +kernel), by decide +kernel⟩⟩

theorem witness_march_cell_bad : ∃ (s : State) (c : ContRec) (cap : Cap) (desc : BitVec 512) (ray : List Word) (m : March) (start : MarchPoint) (p : MarchPoint),
    atWork s c ∧
    c.req = .march cap desc ray ∧
    c.point = some p ∧
    ray.length = 12 ∧
    p.idx < 2 ^ 32 ∧
    marchStart (ray.map BitVec.toNat) (Grid.ofNat desc.toNat) = .ok (m, start) ∧
    (∃ at_ : Nat → Nat, 0 < p.left ∧ p.inside = none ∧ cap.lo.toNat ≤ (Grid.ofNat desc.toNat).moff + 4 * ((p.c.getD 2 0 * (Grid.ofNat desc.toNat).n.getD 1 0 + p.c.getD 1 0) * (Grid.ofNat desc.toNat).n.getD 0 0 + p.c.getD 0 0) ∧ (Grid.ofNat desc.toNat).moff + 4 * ((p.c.getD 2 0 * (Grid.ofNat desc.toNat).n.getD 1 0 + p.c.getD 1 0) * (Grid.ofNat desc.toNat).n.getD 0 0 + p.c.getD 0 0) + 4 ≤ cap.hi.toNat ∧ (∀ b < 4, EngineReads s c.client cap ((Grid.ofNat desc.toNat).moff + 4 * ((p.c.getD 2 0 * (Grid.ofNat desc.toNat).n.getD 1 0 + p.c.getD 1 0) * (Grid.ofNat desc.toNat).n.getD 0 0 + p.c.getD 0 0) + b) (at_ b)) ∧ (f32Rat? (natOfBytes ((List.range 4).map fun b => Memory.read s.mem (at_ b))) = none ∨ (∃ v, f32Rat? (natOfBytes ((List.range 4).map fun b => Memory.read s.mem (at_ b))) = some v ∧ v < 0))) :=
  ⟨marchDevice 0x7FC00000 0 (pointAt 1 none), recordAt (pointAt 1 none), cap5, gridBits, marchOn, begun.1, begun.2, pointAt 1 none, ⟨by decide +kernel, by decide +kernel, by decide +kernel, by decide +kernel, by decide +kernel⟩, rfl, rfl, rfl, by decide +kernel, march_begun, ⟨fun b => 0x100000 + b, by decide +kernel, by decide +kernel, by decide +kernel, by decide +kernel, all_reads rfl (by decide +kernel), .inl (by decide +kernel)⟩⟩

theorem witness_march_collides : ∃ (s : State) (c : ContRec) (cap : Cap) (desc : BitVec 512) (ray : List Word) (m : March) (start : MarchPoint) (p : MarchPoint),
    atWork s c ∧
    c.req = .march cap desc ray ∧
    c.point = some p ∧
    ray.length = 12 ∧
    p.idx < 2 ^ 32 ∧
    marchStart (ray.map BitVec.toNat) (Grid.ofNat desc.toNat) = .ok (m, start) ∧
    (∃ (mu tb t index : Nat) (sigma : Rat) (at_ : Nat → Nat), 0 < p.left ∧ p.inside = some (mu, tb) ∧ collision s c cap (Grid.ofNat desc.toNat) m p ray mu tb t index sigma at_ ∧ (drawXi ((ray.getD 8 0).toNat + 2 ^ 32 * (ray.getD 9 0).toNat) (ray.getD 10 0).toNat ((p.idx + 1) % 2 ^ 32) : Rat) / 2 ^ 24 * ratOf mu < sigma) :=
  ⟨marchDevice 0 0x3F800000 (pointAt 1 (some (0x3F800000, 0x41200000))), recordAt (pointAt 1 (some (0x3F800000, 0x41200000))), cap5, gridBits, marchOn, begun.1, begun.2, pointAt 1 (some (0x3F800000, 0x41200000)), ⟨by decide +kernel, by decide +kernel, by decide +kernel, by decide +kernel, by decide +kernel⟩, rfl, rfl, rfl, by decide +kernel, march_begun, ⟨0x3F800000, 0x41200000, _, _, 1, fun b => 0x101000 + b, by decide +kernel, rfl, ⟨rfl, by decide +kernel, rfl, by decide +kernel, by decide +kernel, all_reads rfl (by decide +kernel), by decide +kernel, by decide +kernel, by decide +kernel⟩, by decide +kernel⟩⟩

theorem witness_march_passes : ∃ (s : State) (c : ContRec) (cap : Cap) (desc : BitVec 512) (ray : List Word) (m : March) (start : MarchPoint) (p : MarchPoint),
    atWork s c ∧
    c.req = .march cap desc ray ∧
    c.point = some p ∧
    ray.length = 12 ∧
    p.idx < 2 ^ 32 ∧
    marchStart (ray.map BitVec.toNat) (Grid.ofNat desc.toNat) = .ok (m, start) ∧
    (∃ (mu tb t index : Nat) (sigma : Rat) (at_ : Nat → Nat), 0 < p.left ∧ p.inside = some (mu, tb) ∧ collision s c cap (Grid.ofNat desc.toNat) m p ray mu tb t index sigma at_ ∧ ¬ (drawXi ((ray.getD 8 0).toNat + 2 ^ 32 * (ray.getD 9 0).toNat) (ray.getD 10 0).toNat ((p.idx + 1) % 2 ^ 32) : Rat) / 2 ^ 24 * ratOf mu < sigma) :=
  ⟨marchDevice 0 0 (pointAt 1 (some (0x3F800000, 0x41200000))), recordAt (pointAt 1 (some (0x3F800000, 0x41200000))), cap5, gridBits, marchOn, begun.1, begun.2, pointAt 1 (some (0x3F800000, 0x41200000)), ⟨by decide +kernel, by decide +kernel, by decide +kernel, by decide +kernel, by decide +kernel⟩, rfl, rfl, rfl, by decide +kernel, march_begun, ⟨0x3F800000, 0x41200000, _, _, 0, fun b => 0x101000 + b, by decide +kernel, rfl, ⟨rfl, by decide +kernel, rfl, by decide +kernel, by decide +kernel, all_reads rfl (by decide +kernel), by decide +kernel, by decide +kernel, by decide +kernel⟩, by decide +kernel⟩⟩

/-- A record whose result came 128 cycles ago. -/
def readyRecord : ContRec := { recordFor (texReq 0) with result := some ([1, 2, 3, 4], 7) }

theorem witness_gather_timeout : ∃ (s : State) (c : ContRec) (x : ContRec) (xs : List ContRec) (ws : List Word) (n : Nat) (lane : Nat) (f : Frame),
    s.cont? c.uid = some c ∧
    c.result ≠ none ∧
    s.gathered c = x :: xs ∧
    x.result = some (ws, n) ∧
    n + 128 ≤ s.clk.toNat ∧
    s.frame? c.frame = some f ∧
    s.halted f.asid = false ∧
    s.settlingOn f.core f.asid = false ∧
    s.contLane f.core f.alloc = some lane :=
  ⟨{ bench with conts := [readyRecord], clk := 135 }, readyRecord, readyRecord, [], [1, 2, 3, 4], 7, 0, placedFrame, by decide +kernel⟩

/-- A rasteriser of board 0 whose draw queue at the start of the object 5 holds one entry, with an entry in hand or none; its
draw state at 0x2000 has two by two pixels and the visibility handle 1. -/
def raster (e : Option (BitVec 384)) : Raster := ⟨0, 0, cap5, 0, cap5, e, 0, none, Seen.none⟩

def rasterDevice (n : Nat) (e : Option (BitVec 384)) : State :=
  { mapped rod [(8, 6, 0x20200), (14, 2, 2), (16, 6, 0x20100), (61, 3, 15), (0x100000, 8, n), (0x100018, 4, 6 * 2 ^ 24),
      (0x100110, 16, cap5Bits), (0x100250, 16, objectBits), (0x102000, 32, 2 ^ 224 + 2 ^ 178 + 2 ^ 164)] with rasters := [raster e] }

/-- An entry whose triangle has the vertices (0, 0), (0, y) and (y, 0), y as f32, with a draw state at an offset; `x` is its
reserved field. -/
def drawEntry (y at_ x : Nat) : BitVec 384 := BitVec.ofNat 384 (x * 2 ^ 352 + at_ * 2 ^ 320 + y * 2 ^ 192 + y * 2 ^ 128)

theorem witness_raster_idle : ∃ (s : State) (board : Nat) (r : Raster),
    s.rasters.find? (fun r => decide (r.board = board)) = some r ∧
    s.halted r.asid = false ∧
    r.fault = none ∧
    s.awaits (.raster board) = false ∧
    r.entry = none ∧
    (r.queue.v = true ∧ r.queue.rd = true ∧ r.queue.w = true ∧ r.queue.a = true ∧ r.queue.lo.toNat ≤ r.qoff ∧ r.qoff + 128 ≤ r.queue.hi.toNat) ∧
    (∃ h : Nat, EngineReaches s ⟨none, r.asid, 5, r.seen⟩ r.queue r.qoff 128 true h ∧ (s.queueAt h).bad false = false ∧ (s.queueAt h).rsz = 6 ∧ (s.queueAt h).count = 0) :=
  ⟨rasterDevice 0 none, 0, raster none, of4 (by decide +kernel) ⟨by decide +kernel, by decide +kernel, ⟨0x100000, engine_of (by decide +kernel), by decide +kernel⟩⟩⟩

theorem witness_raster_pop : ∃ (s : State) (board : Nat) (r : Raster),
    s.rasters.find? (fun r => decide (r.board = board)) = some r ∧
    s.halted r.asid = false ∧
    r.fault = none ∧
    s.awaits (.raster board) = false ∧
    r.entry = none ∧
    (r.queue.v = true ∧ r.queue.rd = true ∧ r.queue.w = true ∧ r.queue.a = true ∧ r.queue.lo.toNat ≤ r.qoff ∧ r.qoff + 128 ≤ r.queue.hi.toNat) ∧
    (∃ (h : Nat) (at_ : Nat → Nat), EngineReaches s ⟨none, r.asid, 5, r.seen⟩ r.queue r.qoff 128 true h ∧ (s.queueAt h).bad false = false ∧ (s.queueAt h).rsz = 6 ∧ (s.queueAt h).count ≠ 0 ∧ r.qoff + (s.queueAt h).recordAt (s.queueAt h).head + 48 ≤ r.queue.hi.toNat ∧ ∀ i < 6, EngineReaches s ⟨none, r.asid, 5, r.seen⟩ r.queue (r.qoff + (s.queueAt h).recordAt (s.queueAt h).head + 8 * i) 8 false (at_ i)) :=
  ⟨rasterDevice 1 none, 0, raster none, of4 (by decide +kernel) ⟨by decide +kernel, by decide +kernel, ⟨0x100000, fun i => 0x100080 + 8 * i, engine_of (by decide +kernel), by decide +kernel, by decide +kernel, by decide +kernel, by decide +kernel, all_engine (by decide +kernel)⟩⟩⟩

theorem witness_raster_unusable : ∃ (s : State) (board : Nat) (r : Raster),
    s.rasters.find? (fun r => decide (r.board = board)) = some r ∧
    s.halted r.asid = false ∧
    r.fault = none ∧
    s.awaits (.raster board) = false ∧
    (∃ e : BitVec 384, r.entry = some e ∧ ¬ (field e.toNat 320 32 % 32 = 0 ∧ r.draw.v = true ∧ r.draw.e = true ∧ r.draw.lo.toNat ≤ field e.toNat 320 32 ∧ field e.toNat 320 32 + 32 ≤ r.draw.hi.toNat)) :=
  ⟨rasterDevice 0 (some (drawEntry 0 1 0)), 0, raster (some (drawEntry 0 1 0)), of4 (by decide +kernel) (⟨drawEntry 0 1 0, by decide +kernel⟩)⟩

theorem witness_raster_reserved : ∃ (s : State) (board : Nat) (r : Raster),
    s.rasters.find? (fun r => decide (r.board = board)) = some r ∧
    s.halted r.asid = false ∧
    r.fault = none ∧
    s.awaits (.raster board) = false ∧
    s.memoryCanonical ∧
    (∃ (e : BitVec 384) (a : Nat), r.entry = some e ∧ (field e.toNat 320 32 % 32 = 0 ∧ r.draw.v = true ∧ r.draw.e = true ∧ r.draw.lo.toNat ≤ field e.toNat 320 32 ∧ field e.toNat 320 32 + 32 ≤ r.draw.hi.toNat) ∧ field e.toNat 352 32 ≠ 0 ∧ r.draw.w = true ∧ EngineReaches s ⟨none, r.asid, 5, r.seen⟩ r.draw (field e.toNat 320 32) 4 true a) :=
  ⟨rasterDevice 0 (some (drawEntry 0 0x2000 1)), 0, raster (some (drawEntry 0 0x2000 1)), of4 (by decide +kernel) ⟨by unfold State.memoryCanonical; decide +kernel, ⟨drawEntry 0 0x2000 1, 0x102000, rfl, by decide +kernel, by decide +kernel, rfl, engine_of (by decide +kernel)⟩⟩⟩

theorem witness_raster_degenerate : ∃ (s : State) (board : Nat) (r : Raster),
    s.rasters.find? (fun r => decide (r.board = board)) = some r ∧
    s.halted r.asid = false ∧
    r.fault = none ∧
    s.awaits (.raster board) = false ∧
    (∃ (e : BitVec 384) (at_ : Nat → Nat) (a b c : Point), r.entry = some e ∧ (field e.toNat 320 32 % 32 = 0 ∧ r.draw.v = true ∧ r.draw.e = true ∧ r.draw.lo.toNat ≤ field e.toNat 320 32 ∧ field e.toNat 320 32 + 32 ≤ r.draw.hi.toNat) ∧ field e.toNat 352 32 = 0 ∧ (∀ i < 32, EngineReads s ⟨none, r.asid, 5, r.seen⟩ r.draw (field e.toNat 320 32 + i) (at_ i)) ∧ (DrawState.ofNat (natOfBytes ((List.range 32).map fun i => Memory.read s.mem (at_ i)))).bad = false ∧ (vertexOf e.toNat 0).point = some a ∧ (vertexOf e.toNat 1).point = some b ∧ (vertexOf e.toNat 2).point = some c ∧ edge a b c = 0) :=
  ⟨rasterDevice 0 (some (drawEntry 0 0x2000 0)), 0, raster (some (drawEntry 0 0x2000 0)), of4 (by decide +kernel) (⟨drawEntry 0 0x2000 0, fun i => 0x102000 + i, ⟨0, 0, 0⟩, ⟨0, 0, 0⟩, ⟨0, 0, 0⟩, rfl, by decide +kernel, by decide +kernel, all_reads rfl (by decide +kernel), by decide +kernel⟩)⟩

/-- A number in memory is as it was where none of the bytes written lies in it. -/
theorem natAt_other {s : State} (h : s.memoryCanonical) (ws : List (Nat × Byte)) (a n : Nat)
    (hw : ∀ w ∈ ws, w.1 < a ∨ a + n ≤ w.1) : ({ s with mem := Memory.writeAll s.mem ws } : State).natAt a n = s.natAt a n := by
  unfold State.natAt State.bytesAt
  congr 1
  refine List.map_congr_left fun i hi => ?_
  have hi := List.mem_range.mp hi
  exact Memory.read_writeAll_other ws _ h fun w hm e => by
    have := hw w hm
    omega

/-- The device that draws, and its four pixels. -/
def drawDevice : State := rasterDevice 0 (some (drawEntry 0x40800000 0x2000 0))

theorem draw_canonical : drawDevice.memoryCanonical := by unfold State.memoryCanonical; decide +kernel

theorem key_low {w : Nat × Byte} {k : Nat} (h : 0x100000 + 8 * k ≤ w.1 ∧ w.1 < 0x100000 + 8 * k + 8) (hk : k < 4) :
    0x100000 ≤ w.1 ∧ w.1 < 0x100020 := by omega

/-- Writes to the pixels leave the object's entry, so that each is still reached. -/
theorem key_reached (n : Nat) (hn : n < 4) (ws : List (Nat × Byte)) (hw : ∀ w ∈ ws, 0x100000 ≤ w.1 ∧ w.1 < 0x100020) :
    EngineReaches { drawDevice with mem := Memory.writeAll drawDevice.mem ws } ⟨none, 0, 5, Seen.none⟩ cap5 (8 * n) 8 true
      (0x100000 + 8 * n) := by
  have same (a m : Nat) (ha : a + m ≤ 0x100000 ∨ 0x100020 ≤ a) :=
    natAt_other draw_canonical ws a m fun w h => by have := hw w h; omega
  refine ⟨⟨0x10000, 0x20000, .inr ⟨rfl, 0x20250, 0x100250, ?_, ?_, rfl, ?_⟩, by omega, ?_⟩, fun h => nomatch h⟩
  · have ctx (lo m : Nat) (h : drawDevice.ctxTable + 64 * 0 + lo / 8 + (lo % 8 + m + 7) / 8 ≤ 0x100000) :
        ({ drawDevice with mem := Memory.writeAll drawDevice.mem ws } : State).ctxField 0 lo m = drawDevice.ctxField 0 lo m :=
      congrArg (fun x => field x (lo % 8) m) (same _ _ (.inl h))
    simp only [State.objectEntry, ctx 488 24 (by decide +kernel), ctx 64 48 (by decide +kernel)]
    decide +kernel
  · exact ⟨⟨none, 0, 2, 16, 0x100000, 0, true, true⟩, rfl, by decide, fun h => absurd h.1 (by decide), rfl⟩
  · rw [same _ _ (by decide)]; decide +kernel
  · obtain rfl | rfl | rfl | rfl : n = 0 ∨ n = 1 ∨ n = 2 ∨ n = 3 := by omega
    all_goals exact ⟨⟨none, 0, 2, 16, 0x100000, 0, true, true⟩, rfl, by decide, fun h => absurd h.1 (by decide), rfl⟩

theorem pixels_four :
    let d := DrawState.ofNat (natOfBytes ((List.range 32).map fun i => Memory.read drawDevice.mem (0x102000 + i)))
    d.w * d.h * d.samples = 4 := by decide +kernel

theorem witness_raster_draws : ∃ (s : State) (board : Nat) (r : Raster),
    s.rasters.find? (fun r => decide (r.board = board)) = some r ∧
    s.halted r.asid = false ∧
    r.fault = none ∧
    s.awaits (.raster board) = false ∧
    s.memoryCanonical ∧
    s.directory = [] ∧
    (∃ (e : BitVec 384) (at_ key : Nat → Nat) (a b c : Point) (t : Triangle) (cap : Cap), r.entry = some e ∧ (field e.toNat 320 32 % 32 = 0 ∧ r.draw.v = true ∧ r.draw.e = true ∧ r.draw.lo.toNat ≤ field e.toNat 320 32 ∧ field e.toNat 320 32 + 32 ≤ r.draw.hi.toNat) ∧ field e.toNat 352 32 = 0 ∧ (∀ i < 32, EngineReads s ⟨none, r.asid, 5, r.seen⟩ r.draw (field e.toNat 320 32 + i) (at_ i)) ∧ ((DrawState.ofNat (natOfBytes ((List.range 32).map fun i => Memory.read s.mem (at_ i)))).bad = false ∧ (vertexOf e.toNat 0).point = some a ∧ (vertexOf e.toNat 1).point = some b ∧ (vertexOf e.toNat 2).point = some c ∧ orient a b c (DrawState.ofNat (natOfBytes ((List.range 32).map fun i => Memory.read s.mem (at_ i)))).cull (field e.toNat 288 32) = some t ∧ (DrawState.ofNat (natOfBytes ((List.range 32).map fun i => Memory.read s.mem (at_ i)))).shade = false ∧ 131072 * ((DrawState.ofNat (natOfBytes ((List.range 32).map fun i => Memory.read s.mem (at_ i)))).areath : Int) ≤ t.area) ∧ handleIs s r.asid (DrawState.ofNat (natOfBytes ((List.range 32).map fun i => Memory.read s.mem (at_ i)))).vish (some cap) ∧ (cap.v = true ∧ cap.a = true ∧ cap.e = true ∧ cap.lo.toNat = 0 ∧ 8 * ((DrawState.ofNat (natOfBytes ((List.range 32).map fun i => Memory.read s.mem (at_ i)))).w * (DrawState.ofNat (natOfBytes ((List.range 32).map fun i => Memory.read s.mem (at_ i)))).h * (DrawState.ofNat (natOfBytes ((List.range 32).map fun i => Memory.read s.mem (at_ i)))).samples) ≤ cap.hi.toNat) ∧ (∀ n < (DrawState.ofNat (natOfBytes ((List.range 32).map fun i => Memory.read s.mem (at_ i)))).w * (DrawState.ofNat (natOfBytes ((List.range 32).map fun i => Memory.read s.mem (at_ i)))).h * (DrawState.ofNat (natOfBytes ((List.range 32).map fun i => Memory.read s.mem (at_ i)))).samples, ∀ ws : List (Nat × Byte), (∀ w ∈ ws, ∃ k < (DrawState.ofNat (natOfBytes ((List.range 32).map fun i => Memory.read s.mem (at_ i)))).w * (DrawState.ofNat (natOfBytes ((List.range 32).map fun i => Memory.read s.mem (at_ i)))).h * (DrawState.ofNat (natOfBytes ((List.range 32).map fun i => Memory.read s.mem (at_ i)))).samples, k ≠ n ∧ key k ≤ w.1 ∧ w.1 < key k + 8) → EngineReaches { s with mem := Memory.writeAll s.mem ws } ⟨none, r.asid, 5, r.seen⟩ cap (8 * n) 8 true (key n)) ∧ ∀ m n, m < (DrawState.ofNat (natOfBytes ((List.range 32).map fun i => Memory.read s.mem (at_ i)))).w * (DrawState.ofNat (natOfBytes ((List.range 32).map fun i => Memory.read s.mem (at_ i)))).h * (DrawState.ofNat (natOfBytes ((List.range 32).map fun i => Memory.read s.mem (at_ i)))).samples → n < (DrawState.ofNat (natOfBytes ((List.range 32).map fun i => Memory.read s.mem (at_ i)))).w * (DrawState.ofNat (natOfBytes ((List.range 32).map fun i => Memory.read s.mem (at_ i)))).h * (DrawState.ofNat (natOfBytes ((List.range 32).map fun i => Memory.read s.mem (at_ i)))).samples → m ≠ n → key m + 8 ≤ key n ∨ key n + 8 ≤ key m) :=
  ⟨rasterDevice 0 (some (drawEntry 0x40800000 0x2000 0)), 0, raster (some (drawEntry 0x40800000 0x2000 0)), of4 (by decide +kernel) ⟨by unfold State.memoryCanonical; decide +kernel, rfl, ⟨drawEntry 0x40800000 0x2000 0, fun i => 0x102000 + i, fun n => 0x100000 + 8 * n, ⟨0, 0, 0⟩, ⟨0, 1024, 0⟩, ⟨1024, 0, 0⟩, ⟨⟨0, 0, 0⟩, ⟨0, 1024, 0⟩, ⟨1024, 0, 0⟩, 1048576, 0⟩, cap5, rfl, by decide +kernel, by decide +kernel, all_reads rfl (by decide +kernel), by decide +kernel, .inr ⟨by decide +kernel, 0x100110, maps_of (by decide +kernel), by decide +kernel⟩, by decide +kernel, fun n hn ws hw => key_reached n (Nat.lt_of_lt_of_eq hn pixels_four) ws fun w h => by obtain ⟨k, hk, _, hb⟩ := hw w h; exact key_low hb (Nat.lt_of_lt_of_eq hk pixels_four), fun m n _ _ h => by dsimp only; omega⟩⟩⟩

/-! ### Witnesses: dispatch -/

/-- A launch of four frames of a kernel at 0x28000, and its queue 0 at 0x22000 with the header given by `l`. -/
def launchBits : Nat := 0x28000 * 2 ^ 464 + 3 * 2 ^ 432 + 2 ^ 368

def dispatcher (p : DispPhase) : Dispatch := { Dispatch.start 0 with phase := p }

def dispatchDevice (d : Dispatch) (tail nextf bound claimed : Nat) : State :=
  { mapped rod [(6, 2, 0x8010), (24, 6, 0x21000), (0x101000, 8, 0x22000), (0x102000, 8, tail), (0x102010, 4, nextf), (0x102014, 4, bound),
      (0x102018, 4, 32 * 2 ^ 24), (0x10201C, 1, claimed), (0x102080, 256, launchBits)] with
    rods := [], frames := [], dispatch := [d] }

/-- That launch as a record. -/
def launchRec : BitVec 2048 := BitVec.ofNat 2048 launchBits

theorem witness_loop : ∃ (s : State) (d : Dispatch),
    s.disp? d.table = some d ∧
    d.phase = .loop :=
  ⟨dispatchDevice (dispatcher .loop) 1 0 0 0, dispatcher .loop, by decide +kernel, rfl⟩

theorem witness_loop_stuck : ∃ (s : State) (d : Dispatch),
    s.disp? d.table = some d ∧
    (∃ asid q h rec first next retried, d.phase = .bind asid q h rec first next retried) ∧
    s.planOf d = none :=
  ⟨{ dispatchDevice (dispatcher (.bind 5 0 0 launchRec 0 0 false)) 0 0 0 0 with clk := 9 }, dispatcher (.bind 5 0 0 launchRec 0 0 false), by decide +kernel, ⟨_, _, _, _, _, _, _, rfl⟩, by decide +kernel⟩

theorem witness_claim : ∃ (s : State) (d : Dispatch) (asid : Nat) (q : Nat) (hva : Nat) (a : Nat) (h : BitVec 64) (rec : BitVec 2048),
    s.disp? d.table = some d ∧
    d.phase = .claim asid q h rec ∧
    launchQueueAt s asid q hva a ∧
    (s.queueAt a).head = h.toNat ∧
    (s.queueAt a).claimed ≠ 1 :=
  ⟨dispatchDevice (dispatcher (.claim 0 0 0 launchRec)) 1 3 0 0, dispatcher (.claim 0 0 0 launchRec), 0, 0, 0x22000, 0x102000, 0, launchRec, by decide +kernel, by decide +kernel, ⟨⟨0x101000, maps_of (by decide +kernel), by decide +kernel⟩, by decide, by decide, by decide, maps_of (by decide +kernel), by decide +kernel⟩, by decide +kernel⟩

def bindPhase : DispPhase := .bind 0 0 0 launchRec 3 3 false

def bindDevice (p : DispPhase) : State := dispatchDevice (dispatcher p) 1 3 3 1

/-- What the dispatch core plans for frame 3, on core 0. -/
def bindBits : BitVec 512 := 0x28000 * 2 ^ 464 + 3 * 2 ^ 432 + 2 ^ 368 + 0x22080 * 2 ^ 304

def boundRec : BindRec := BindRec.ofNat bindBits.toNat

theorem bind_reads (p : DispPhase) (h : p = .loop ∨ p = bindPhase) :
    engineMaps (bindDevice p) boundRec.asid boundRec.lrec false 0x102080 ∧
      engineMaps (bindDevice p) boundRec.asid (boundRec.lrec + 128) false 0x102100 ∧
      let l := LaunchRec.ofNat (natOfBytes ((bindDevice p).bytesAt 0x102080 128 ++ (bindDevice p).bytesAt 0x102100 128))
      l.hidx.take l.nh = [] := by
  rcases h with rfl | rfl <;> exact ⟨maps_of (by decide +kernel), maps_of (by decide +kernel), by decide +kernel⟩

theorem bind_taken (p : DispPhase) (h : p = .loop ∨ p = bindPhase) :
    BindTaken (bindDevice p) 0 boundRec 0x102080 0x102100 (fun _ => none) where
  idle := ⟨(fun _ hf => nomatch hf), fun _ hr => nomatch hr⟩
  reserved := by decide +kernel
  mode := by decide +kernel
  fmt := by decide +kernel
  windows := by decide +kernel
  segments := by decide +kernel
  words := by decide +kernel
  first := (bind_reads p h).1
  second := (bind_reads p h).2.1
  handles := none_of (bind_reads p h).2.2

theorem witness_bind : ∃ (s : State) (core : Nat) (a0 : Nat) (a1 : Nat) (rec : BitVec 512) (cap : Nat → Option Cap),
    BindTaken s core (BindRec.ofNat rec.toNat) a0 a1 cap ∧
    s.servable (BindRec.ofNat rec.toNat).asid = true ∧
    (∀ d, s.disp? (core / 16) = some d → d.phase = .loop) :=
  ⟨bindDevice .loop, 0, 0x102080, 0x102100, bindBits, (fun _ => none), bind_taken _ (.inl rfl), by decide +kernel, fun d h => by obtain rfl := Option.some.inj ((show (bindDevice .loop).disp? (0 / 16) = some (dispatcher .loop) by decide +kernel) ▸ h); rfl⟩

theorem witness_bind_planned : ∃ (s : State) (core : Nat) (a0 : Nat) (a1 : Nat) (rec : BitVec 512) (cap : Nat → Option Cap),
    BindTaken s core (BindRec.ofNat rec.toNat) a0 a1 cap ∧
    (∃ d asid q h x first next retried, s.disp? (core / 16) = some d ∧ d.phase = .bind asid q h x first next retried ∧ s.planOf d = some (core, BindRec.ofNat rec.toNat)) :=
  ⟨bindDevice bindPhase, 0, 0x102080, 0x102100, bindBits, (fun _ => none), bind_taken _ (.inr rfl), ⟨dispatcher bindPhase, _, _, _, _, _, _, _, by decide +kernel, rfl, by decide +kernel⟩⟩

theorem witness_count : ∃ (s : State) (d : Dispatch) (asid : Nat) (q : Nat) (first : Nat) (next : Nat) (hva : Nat) (a : Nat) (h : BitVec 64) (rec : BitVec 2048),
    d ∈ s.dispatch ∧
    d.phase = .count asid q h rec first next ∧
    ((∀ e ∈ s.dispatch, ∀ x m n, e.phase = .count asid q h x m n → e = d)) ∧
    launchQueueAt s asid q hva a ∧
    (s.queueAt a).head = h.toNat :=
  ⟨dispatchDevice (dispatcher (.count 0 0 0 launchRec 3 3)) 1 3 3 1, dispatcher (.count 0 0 0 launchRec 3 3), 0, 0, 3, 3, 0x22000, 0x102000, 0, launchRec, only_mem (by decide +kernel), by decide +kernel, (fun e he _ _ _ _ => only_eq (by decide +kernel) he), ⟨⟨0x101000, maps_of (by decide +kernel), by decide +kernel⟩, by decide, by decide, by decide, maps_of (by decide +kernel), by decide +kernel⟩, by decide +kernel⟩

theorem witness_release_claim : ∃ (s : State) (d : Dispatch) (asid : Nat) (q : Nat) (first : Nat) (hva : Nat) (a : Nat) (h : BitVec 64) (rec : BitVec 2048),
    s.disp? d.table = some d ∧
    d.phase = .release asid q h rec first first ∧
    launchQueueAt s asid q hva a ∧
    (s.queueAt a).head = h.toNat ∧
    (s.queueAt a).claimed = 0 ∧
    (s.queueAt a).nextf = first + (LaunchRec.ofNat rec.toNat).step :=
  ⟨dispatchDevice (dispatcher (.release 0 0 0 launchRec 2 2)) 1 3 2 0, dispatcher (.release 0 0 0 launchRec 2 2), 0, 0, 2, 0x22000, 0x102000, 0, launchRec, by decide +kernel, by decide +kernel, ⟨⟨0x101000, maps_of (by decide +kernel), by decide +kernel⟩, by decide, by decide, by decide, maps_of (by decide +kernel), by decide +kernel⟩, by decide +kernel⟩

theorem witness_pass : ∃ (s : State) (asid : Nat) (q : Nat) (hva : Nat) (a : Nat) (a0 : Nat) (a1 : Nat) (h : BitVec 64),
    (∃ d ∈ s.dispatch, d.phase = .pass asid q h) ∧
    s.memoryCanonical ∧
    launchQueueAt s asid q hva a ∧
    (s.queueAt a).head = h.toNat ∧
    (s.queueAt a).count ≠ 0 ∧
    engineMaps s asid (hva + (s.queueAt a).recordAt h.toNat) false a0 ∧
    engineMaps s asid (hva + (s.queueAt a).recordAt h.toNat + 128) false a1 ∧
    (LaunchRec.ofNat (natOfBytes (s.bytesAt a0 128 ++ s.bytesAt a1 128))).dw = false :=
  ⟨dispatchDevice (dispatcher (.pass 0 0 0)) 1 0 0 0, 0, 0, 0x22000, 0x102000, 0x102080, 0x102100, 0, ⟨_, .head _, rfl⟩, by unfold State.memoryCanonical; decide +kernel, ⟨⟨0x101000, maps_of (by decide +kernel), by decide +kernel⟩, by decide, by decide, by decide, maps_of (by decide +kernel), by decide +kernel⟩, by decide +kernel, by decide +kernel, maps_of (by decide +kernel), maps_of (by decide +kernel), by decide +kernel⟩

/-- A head of priority 0 that has been the head for 2,883,584 cycles, on a table where it is blocked. -/
def oldHead : Dispatch := { Dispatch.start 0 with blocked := [(0, 0)], ages := [((0, 0), (0, 0))] }

def oldDevice : State := { dispatchDevice oldHead 1 0 0 0 with clk := 2883584 }

theorem old_boards : ∀ c, c / 4 = 0 → oldDevice.boardSlots c ≤ oldDevice.boardSlots 0 ∧ (c < 0 → oldDevice.boardSlots c < oldDevice.boardSlots 0) := by
  intro c h
  obtain rfl | rfl | rfl | rfl : c = 0 ∨ c = 1 ∨ c = 2 ∨ c = 3 := by omega
  all_goals exact ⟨by decide +kernel, fun h => absurd h (Nat.not_lt_zero _)⟩

theorem witness_reservation : ∃ (s : State) (d : Dispatch) (asid : Nat) (q : Nat) (hva : Nat) (a : Nat) (a0 : Nat) (a1 : Nat) (since : Nat) (b : Nat),
    s.disp? d.table = some d ∧
    d.reserved = none ∧
    d.blocked = [(asid, q)] ∧
    launchQueueAt s asid q hva a ∧
    (s.queueAt a).count ≠ 0 ∧
    engineMaps s asid (hva + (s.queueAt a).recordAt ((s.queueAt a).head)) false a0 ∧
    engineMaps s asid (hva + (s.queueAt a).recordAt ((s.queueAt a).head) + 128) false a1 ∧
    d.ages.find? (fun x => decide (x.1 = (asid, q) ∧ x.2.1 = ((s.queueAt a).head))) = some ((asid, q), (((s.queueAt a).head), since)) ∧
    (∀ w ∈ s.writes, w.touches a 8 = false) ∧
    (7 - (LaunchRec.ofNat (natOfBytes (s.bytesAt a0 128 ++ s.bytesAt a1 128))).pri) * 262144 + 2 ^ 20 ≤ s.clk.toNat - since ∧
    b / 4 = d.table ∧
    ((∀ c, c / 4 = d.table → s.boardSlots c ≤ s.boardSlots b ∧ (c < b → s.boardSlots c < s.boardSlots b))) :=
  ⟨oldDevice, oldHead, 0, 0, 0x22000, 0x102000, 0x102080, 0x102100, 0, 0, by decide +kernel, by decide +kernel, by decide +kernel, ⟨⟨0x101000, maps_of (by decide +kernel), by decide +kernel⟩, by decide, by decide, by decide, maps_of (by decide +kernel), by decide +kernel⟩, by decide +kernel, maps_of (by decide +kernel), maps_of (by decide +kernel), by decide +kernel, none_of rfl, by decide +kernel, by decide +kernel, old_boards⟩

theorem witness_delivery_full : ∃ (s : State) (asid : Nat) (q : Nat) (hva : Nat) (h : Nat),
    s.boot = .running ∧
    launchQueueAt s asid q hva h ∧
    (s.queueAt h).count = (s.queueAt h).size :=
  ⟨dispatchDevice (dispatcher .loop) 1 0 0 0, 0, 0, 0x22000, 0x102000, rfl, ⟨⟨0x101000, maps_of (by decide +kernel), by decide +kernel⟩, by decide, by decide, by decide, maps_of (by decide +kernel), by decide +kernel⟩, by decide +kernel⟩

theorem witness_delivery : ∃ (s : State) (asid : Nat) (q : Nat) (hva : Nat) (h : Nat),
    s.boot = .running ∧
    launchQueueAt s asid q hva h ∧
    (∃ a0 a1, (s.queueAt h).count ≠ (s.queueAt h).size ∧ engineMaps s asid (hva + (s.queueAt h).recordAt (s.queueAt h).tail) true a0 ∧ engineMaps s asid (hva + (s.queueAt h).recordAt (s.queueAt h).tail + 128) true a1) :=
  ⟨dispatchDevice (dispatcher .loop) 0 0 0 0, 0, 0, 0x22000, 0x102000, rfl, ⟨⟨0x101000, maps_of (by decide +kernel), by decide +kernel⟩, by decide, by decide, by decide, maps_of (by decide +kernel), by decide +kernel⟩, ⟨0x102080, 0x102100, by decide +kernel, maps_of (by decide +kernel), maps_of (by decide +kernel)⟩⟩

theorem witness_delivery_away : ∃ (s : State) (n : Nat) (dev : Nat) (asid : Nat) (q : Nat) (rec : BitVec 2048) (ds : List Delivery) (es : List Delivery),
    s.boot = .running ∧
    dev ≠ s.endpoint ∧
    s.deliveries = ds ++ ⟨n, dev, asid, q, rec⟩ :: es ∧
    (∀ d ∈ ds, d.launch ≠ n) ∧
    (∀ d ∈ ds, ¬ (d.dev = dev ∧ d.asid = asid ∧ d.queue = q ∧ d.record = rec)) :=
  ⟨{ bench with deliveries := [⟨1, 5, 0, 0, 0⟩, ⟨2, 4, 0, 0, 0⟩] }, 2, 4, 0, 0, 0, [⟨1, 5, 0, 0, 0⟩], [], rfl, by decide +kernel, rfl, by decide +kernel⟩

/-! ### Witnesses: memory and management -/

theorem witness_perform : ∃ (s : State) (n : Nat) (i : Inflight),
    s.inflight[n]? = some i ∧
    ((∀ j ∈ s.inflight, j.rod = i.rod → i.commit ≤ j.commit)) ∧
    (∀ w ∈ i.bytes, s.barred w.1 true = none) :=
  ⟨{ bench with inflight := [lineAt 0x100000] }, 0, lineAt 0x100000, by decide +kernel⟩

theorem witness_die_update : ∃ (s : State) (src : Nat) (dst : Nat) (m : DieMsg),
    s.dieMsgs.find? (fun m => decide (m.src = src ∧ m.dst = dst)) = some m ∧
    ((∀ j < 4, j ≠ src → j ≠ dst → m.stamp.getD j 0 ≤ clockOf s dst j)) ∧
    s.clocks.length = 4 ∧
    (s.clocks.getD dst []).length = 4 ∧
    src < 4 ∧
    dst < 4 ∧
    src ≠ dst :=
  ⟨{ bench with dieMsgs := [⟨0, 3, [5, 0, 0, 0], some (9, 4)⟩] }, 0, 3, ⟨0, 3, [5, 0, 0, 0], some (9, 4)⟩, by decide +kernel⟩

theorem witness_die_stamp : ∃ (s : State) (src : Nat) (dst : Nat),
    (src, dst) ∈ s.stampDue :=
  ⟨{ bench with stampDue := [(0, 3)] }, 0, 3, by decide +kernel⟩

theorem witness_upgrade : ∃ (s : State) (u : Upgrade) (us : List Upgrade),
    s.upgrades = u :: us :=
  ⟨{ bench with upgrades := [⟨5, [(0x100000, 5)]⟩] }, ⟨5, [(0x100000, 5)]⟩, [], by decide +kernel⟩

theorem witness_reckoner_load : ∃ (s : State) (core : Nat) (a : BitVec 52),
    s.boot = .running ∧
    core < 32 ∧
    physBad a.toNat = false ∧
    (¬ (field a.toNat 50 2 = 2 ∧ field a.toNat 38 12 = s.endpoint)) ∧
    s.barred a.toNat false = none ∧
    (∃ dword : Bool, a.toNat % (if dword then 8 else 4) = 0) :=
  ⟨bench, 31, BitVec.ofNat 52 (2 ^ 40 - 8), of4 (by decide +kernel) ⟨by decide +kernel, ⟨true, by decide +kernel⟩⟩⟩

theorem witness_reckoner_store : ∃ (s : State) (core : Nat) (a : BitVec 52),
    s.boot = .running ∧
    core < 32 ∧
    physBad a.toNat = false ∧
    (¬ (field a.toNat 50 2 = 2 ∧ field a.toNat 38 12 = s.endpoint)) ∧
    s.barred a.toNat true = none ∧
    (∃ dword : Bool, a.toNat % (if dword then 8 else 4) = 0) ∧
    (∀ u ∈ s.upgrades, u.core ≠ core) ∧
    s.memoryCanonical ∧
    (s.reckoner core).resv ≠ some (a.toNat, 4) :=
  ⟨bench, 31, BitVec.ofNat 52 (2 ^ 40 - 8), of4 (by decide +kernel) ⟨by decide +kernel, ⟨false, by decide +kernel⟩, by decide +kernel, by unfold State.memoryCanonical; decide +kernel, by decide +kernel⟩⟩

theorem witness_reckoner_reserved : ∃ (s : State) (core : Nat) (a : BitVec 52),
    s.boot = .running ∧
    core < 32 ∧
    physBad a.toNat = false ∧
    (¬ (field a.toNat 50 2 = 2 ∧ field a.toNat 38 12 = s.endpoint)) ∧
    s.barred a.toNat true = none ∧
    a.toNat % 4 = 0 ∧
    (∀ u ∈ s.upgrades, u.core ≠ core) ∧
    s.memoryCanonical ∧
    (s.reckoner core).resv = some (a.toNat, 4) :=
  ⟨{ bench with reckoners := [⟨31, [], some (2 ^ 40 - 8, 4), View.none⟩] }, 31, BitVec.ofNat 52 (2 ^ 40 - 8), of4 (by decide +kernel) ⟨by decide +kernel, by decide +kernel, by decide +kernel, by unfold State.memoryCanonical; decide +kernel, by decide +kernel⟩⟩

/-- A device whose export table is that of `tables`, with a leaf that is marked already. -/
def exportDevice : State :=
  { mapped rod [(0x1060, 8, 0x40000), (0x40000, 8, 0x41001), (0x41000, 8, 0x42001), (0x420F8, 8, 0x5001F)] with sysBlock := some 0x1000 }

/-- A page of it that the host reaches. -/
theorem export_leaf (write : Bool) (bytes : List Byte) (h : bytes.length = 1) : ∀ i < bytes.length, ∃ a e size,
    leafAt exportDevice (fun _ => none) (((BitVec.ofNat 38 (31 * 65536 + 5)).toNat + i) % 2 ^ 38) ptLevels 0x40000 a e size ∧
      markedLeaf e write = e ∧ (write = true → e.testBit 2 = true) ∧
      0x50005 + i = pteAddr e + ((BitVec.ofNat 38 (31 * 65536 + 5)).toNat + i) % 2 ^ 38 % 2 ^ size ∧
      exportDevice.barred (0x50005 + i) write = none := by
  intro i hi
  obtain rfl : i = 0 := by omega
  refine ⟨0x420F8, 0x5001F, 16, leaf_of (by decide +kernel), ?_⟩
  cases write <;> decide +kernel

theorem witness_host : ∃ (s : State) (write : Bool) (off : BitVec 38) (bytes : List Byte) (root : Nat) (at_ : Nat → Nat),
    s.boot = .running ∧
    s.sysEntry 0x60 = some root ∧
    s.memoryCanonical ∧
    s.directory = [] ∧
    ((∀ i < bytes.length, ∃ a e size, leafAt s (fun _ => none) ((off.toNat + i) % 2 ^ 38) ptLevels root a e size ∧
      markedLeaf e write = e ∧ (write = true → e.testBit 2 = true) ∧ at_ i = pteAddr e + (off.toNat + i) % 2 ^ 38 % 2 ^ size ∧
      s.barred (at_ i) write = none)) ∧
    write = true ∧
    (∀ i j, i < bytes.length → j < bytes.length → i ≠ j → at_ i ≠ at_ j) :=
  ⟨exportDevice, true, BitVec.ofNat 38 (31 * 65536 + 5), [7], 0x40000, (fun i => 0x50005 + i), by decide +kernel, by decide +kernel, by unfold State.memoryCanonical; decide +kernel, rfl, export_leaf true [7] rfl, rfl, fun i j _ _ h => by dsimp only; omega⟩

theorem witness_host_load : ∃ (s : State) (write : Bool) (off : BitVec 38) (bytes : List Byte) (root : Nat) (at_ : Nat → Nat),
    s.boot = .running ∧
    s.sysEntry 0x60 = some root ∧
    s.memoryCanonical ∧
    s.directory = [] ∧
    ((∀ i < bytes.length, ∃ a e size, leafAt s (fun _ => none) ((off.toNat + i) % 2 ^ 38) ptLevels root a e size ∧
      markedLeaf e write = e ∧ (write = true → e.testBit 2 = true) ∧ at_ i = pteAddr e + (off.toNat + i) % 2 ^ 38 % 2 ^ size ∧
      s.barred (at_ i) write = none)) ∧
    write = false :=
  ⟨exportDevice, false, BitVec.ofNat 38 (31 * 65536 + 5), [7], 0x40000, (fun i => 0x50005 + i), by decide +kernel, by decide +kernel, by unfold State.memoryCanonical; decide +kernel, rfl, export_leaf false [7] rfl, rfl⟩

theorem witness_page_grant : ∃ (s : State) (q : DirReq) (qs : List DirReq),
    s.dirReqs = q :: qs ∧
    q.own = true ∧
    q.ep = s.endpoint ∧
    (∀ r ∈ s.rods, s.halted r.asid = false) :=
  ⟨{ bench with dirReqs := [⟨0, 7, true⟩] }, ⟨0, 7, true⟩, [], by decide +kernel⟩

theorem witness_page_share : ∃ (s : State) (q : DirReq) (qs : List DirReq),
    s.dirReqs = q :: qs ∧
    q.own = false :=
  ⟨{ bench with dirReqs := [⟨5, 7, false⟩], directory := [⟨7, .owned 0⟩] }, ⟨5, 7, false⟩, [], by decide +kernel⟩

theorem witness_recall : ∃ (s : State) (page : Nat),
    s.dirty ≠ [] ∧
    (∃ x ∈ s.directory, x.page = page ∧ x.st = .owned s.endpoint) :=
  ⟨{ bench with dirty := [512 * 7 + 3], dieCopies := [⟨1, 512 * 7 + 3, 4⟩], directory := [⟨7, .owned 0⟩] }, 7, by decide +kernel⟩

theorem witness_system_block : ∃ (s : State) (a : BitVec 52),
    s.boot = .running ∧
    a.toNat < 2 ^ 40 ∧
    a.toNat % 128 = 0 ∧
    s.natAt (a.toNat + 0x68) 0xF98 = 0 :=
  ⟨bench, BitVec.ofNat 52 (2 ^ 40 - 4096), by decide +kernel⟩

theorem witness_update : ∃ (s : State) (kind : Nat),
    (s.boot = .running ∨ s.boot = .recovery) ∧
    s.updating = none ∧
    (∃ f, s.booted.find? (fun f => decide (f.kind = kind)) = some f) :=
  ⟨{ bench with booted := [⟨3, true, [], true⟩] }, 3, .inl rfl, by decide +kernel, ⟨⟨3, true, [], true⟩, by decide +kernel⟩⟩

theorem witness_update_busy : ∃ (s : State),
    (s.boot = .running ∨ s.boot = .recovery) ∧
    (∃ u, s.updating = some u ∧ u.kind < 4) :=
  ⟨{ bench with boot := .recovery, updating := some ⟨2, false, []⟩ }, .inr rfl, ⟨⟨2, false, []⟩, by decide +kernel⟩⟩

theorem witness_update_record : ∃ (s : State),
    (s.boot = .running ∨ s.boot = .recovery) ∧
    (∃ u, s.updating = some u ∧ u.kind = 4) :=
  ⟨{ bench with boot := .recovery, updating := some ⟨4, false, []⟩ }, .inr rfl, ⟨⟨4, false, []⟩, by decide +kernel⟩⟩

theorem witness_spdm : ∃ (s : State) (version : Nat),
    s.boot ≠ .powerOn ∧
    (version = 0x12 ∨ version = 0x13) ∧
    s.keysErased = false :=
  ⟨bench, 0x12, by decide +kernel, .inl rfl, rfl⟩

theorem witness_spdm_erased : ∃ (s : State) (version : Nat),
    s.boot ≠ .powerOn ∧
    (version = 0x12 ∨ version = 0x13) ∧
    (∃ i, 1 ≤ i ∧ i ≤ 6 ∧ s.keysErased = true) :=
  ⟨{ bench with keysErased := true }, 0x13, by decide +kernel, .inr rfl, ⟨6, by decide⟩⟩

theorem witness_sample : ∃ (s : State),
    s.power.length ≤ 100 :=
  ⟨{ bench with power := List.replicate 100 5 }, by decide +kernel⟩

/-- Two samples of the sensors, a die and a stack. -/
def sampled (die stack : Nat) : State :=
  { bench with sample := some ⟨[⟨die, 0, 0⟩], [stack], 0, 0⟩, prior := some ⟨[⟨die, 0, 0⟩], [stack], 0, 0⟩ }

theorem witness_hot_die : ∃ (s : State) (x : Sample) (y : Sample),
    s.sample = some x ∧
    s.prior = some y ∧
    s.boot = .running ∧
    s.alarmHold ≠ some .unpowered ∧
    ((∃ p ∈ x.die.zip y.die, 110 ≤ p.1.degrees ∧ 110 ≤ p.2.degrees) ∨ (∃ p ∈ x.stack.zip y.stack, 105 ≤ p.1 ∧ 105 ≤ p.2)) :=
  ⟨sampled 110 0, ⟨[⟨110, 0, 0⟩], [0], 0, 0⟩, ⟨[⟨110, 0, 0⟩], [0], 0, 0⟩, of4 (by decide +kernel) (.inl (by decide +kernel))⟩

theorem witness_hot_stack_trip : ∃ (s : State) (x : Sample) (y : Sample),
    s.sample = some x ∧
    s.prior = some y ∧
    s.boot = .running ∧
    s.alarmHold ≠ some .unpowered ∧
    ((∃ p ∈ x.die.zip y.die, 110 ≤ p.1.degrees ∧ 110 ≤ p.2.degrees) ∨ (∃ p ∈ x.stack.zip y.stack, 105 ≤ p.1 ∧ 105 ≤ p.2)) :=
  ⟨sampled 0 105, ⟨[⟨0, 0, 0⟩], [105], 0, 0⟩, ⟨[⟨0, 0, 0⟩], [105], 0, 0⟩, of4 (by decide +kernel) (.inr (by decide +kernel))⟩

theorem witness_alarm : ∃ (s : State) (code : Nat),
    1 ≤ code ∧
    code ≤ 3 ∧
    s.boot = .running ∧
    s.config.alarmpol = 1 ∧
    s.alarmHold = none :=
  ⟨bench, 3, by decide +kernel⟩

/-! ### Witnesses: encodings and the step -/

theorem witness_encoding : ∃ (i : Instr),
    i.isWord = true :=
  ⟨.bra ⟨7, true, 0xFFFFF⟩, by decide +kernel⟩

theorem witness_decoding : ∃ (w : Word) (i : Instr),
    decode w = .ok i :=
  ⟨0x2200BFFF, .iaddImm ⟨false, false, false, false, 2, 127, 127⟩, by decide +kernel⟩

/-- A take of the cell of S that v3 names. -/
def takeInstr : Instr := .ldlS ⟨false, 6, 4, 1, 3⟩

/-- The device at reset with IADD v2, v0, 1 placed, and with a take of an absent cell of S placed. -/
def placedDevice : State := State.reset.withFetchWord 32 0x22008001

def heldDevice : State := State.reset.withFetchWord 32 (encode takeInstr).toNat

/-- The instruction of the first word. -/
def placedInstr : Instr := .iaddImm ⟨false, false, false, false, 2, 0, 1⟩

/-- The state in which a rod issues what is placed. -/
def issuing (s : State) : State := { s with cur := some 1, lastSlot := Sparse.set 7 s.lastSlot 0 0 }

theorem witness_step : ∃ (s : State) (t : State) (r : Rod) (w : Word) (i : Instr),
    s.moves = [.issue r.uid] ∧
    s.tokensDue = [] ∧
    s.held = [] ∧
    s.rod? r.uid = some r ∧
    s.fetched r = some w ∧
    decode w = .ok i ∧
    exec i { s with cur := some r.uid, lastSlot := Sparse.set 7 s.lastSlot (r.core * 128 + r.lane) r.slot } = .next t :=
  ⟨placedDevice, nextOf (exec placedInstr (issuing placedDevice)), placedRod, 0x22008001, placedInstr, of4 (by decide +kernel) ⟨by decide +kernel, by decide +kernel, next_of (by decide +kernel)⟩⟩

theorem witness_step_token : ∃ (s : State) (d : Nat × Nat) (ds : List (Nat × Nat)),
    s.boot = .running ∧
    s.tokensDue = d :: ds :=
  ⟨{ placedDevice with clk := 60, stampDue := [(0, 3)], stampSince := [((0, 3), 12)] }, (0, 3), [], rfl, by decide +kernel⟩

theorem witness_step_held : ∃ (s : State) (t : State) (u : Nat) (us : List Nat) (r : Rod) (w : Word) (i : Instr),
    s.boot = .running ∧
    s.tokensDue = [] ∧
    s.held = u :: us ∧
    s.rod? u = some r ∧
    s.fetched r = some w ∧
    decode w = .ok i ∧
    exec i { s with cur := some u } = .next t :=
  ⟨heldDevice, nextOf (exec takeInstr { heldDevice with cur := some 1 }), 1, [], placedRod, encode takeInstr, takeInstr, of4 (by decide +kernel) ⟨by decide +kernel, by decide +kernel, next_of (by decide +kernel)⟩⟩

theorem witness_wait : ∃ (s : State),
    s.moves = [] ∧
    s.boot ≠ .running :=
  ⟨{ State.reset with boot := .recovery }, by decide +kernel⟩

theorem witness_wait_running : ∃ (s : State),
    s.moves = [] ∧
    s.boot = .running ∧
    s.tokensDue = [] ∧
    s.held = [] :=
  ⟨{ placedDevice with rods := [], frames := [] }, by decide +kernel⟩

theorem witness_one_move : ∃ (s : State) (m : Move),
    s.moves = [m] ∧
    (s.boot ≠ .running ∨ (s.tokensDue = [] ∧ s.held = [])) :=
  ⟨State.reset, .unit_ .powerOn, by decide +kernel, .inl (by decide)⟩

theorem witness_two_moves : ∃ (s : State),
    2 ≤ s.moves.length ∧
    (s.boot ≠ .running ∨ (s.tokensDue = [] ∧ s.held = [])) :=
  ⟨{ placedDevice with inflight := [lineAt 0x100000] }, by decide +kernel, .inr (by decide +kernel)⟩

theorem witness_patience : ∃ (s : State),
    2 ≤ s.moves.length ∧
    (s.boot ≠ .running ∨ (s.tokensDue = [] ∧ s.held = [])) ∧
    (∃ x ∈ s.moves, Config.patience ≤ s.passedOver x) :=
  ⟨{ placedDevice with inflight := [lineAt 0x100000], passed := [(.issue 1, Config.patience)] }, by decide +kernel, .inr (by decide +kernel), ⟨.issue 1, by decide +kernel, Nat.le_refl Config.patience⟩⟩

theorem witness_placed : ∃ (s : State) (t : State) (w : Nat) (i : Instr),
    w < 2 ^ 32 ∧
    decode (BitVec.ofNat 32 w) = .ok i ∧
    (s.withFetchWord 32 w).held = [] ∧
    exec i { s.withFetchWord 32 w with cur := some 1, lastSlot := Sparse.set 7 (s.withFetchWord 32 w).lastSlot 0 0 } = .next t :=
  ⟨State.reset, nextOf (exec placedInstr (issuing placedDevice)), 0x22008001, placedInstr, by decide +kernel, by decide +kernel, by decide +kernel, next_of (by decide +kernel)⟩

theorem witness_placed_held : ∃ (s : State) (t : State) (w : Nat) (i : Instr),
    w < 2 ^ 32 ∧
    decode (BitVec.ofNat 32 w) = .ok i ∧
    (s.withFetchWord 32 w).held ≠ [] ∧
    exec i { s.withFetchWord 32 w with cur := some 1 } = .next t :=
  ⟨State.reset, nextOf (exec takeInstr { heldDevice with cur := some 1 }), (encode takeInstr).toNat, takeInstr, by decide +kernel, by decide +kernel, by decide +kernel, next_of (by decide +kernel)⟩

theorem witness_issuing : ∃ (s : State) (r : Rod),
    s.curRod? = some r :=
  ⟨bench, rod, by decide +kernel⟩

theorem witness_event : ∃ (i : Instr),
    i.isWord = false ∧
    (∀ w, i ≠ .reservedOpcode w) :=
  ⟨.powerOn, by decide +kernel, fun _ h => nomatch h⟩

theorem witness_canonical_step : ∃ (s : State) (t : State),
    s.memoryCanonical ∧
    s.lanesCanonical ∧
    s.quiet ∧
    step s = .next t :=
  ⟨placedDevice, nextOf (step placedDevice), by unfold State.memoryCanonical; decide +kernel, by unfold State.lanesCanonical; decide +kernel, by unfold State.quiet; rfl, next_of (by decide +kernel)⟩

/-- The placed rod after a split: one entry, with a pending group. -/
def stackedRod : Rod := { placedRod with stack := [⟨0x10100, placedRod.active ||| 2, 0, none, true, 0x10100, 2, 1, 0, 1, 0, 1⟩] }

theorem stack_holds : stackHolds stackedRod := by
  refine ⟨by decide +kernel, ?_⟩
  show masksHold stackedRod.active stackedRod.stack ∧ stackedRod.restartCtl.stack.length ≤ 32 ∧
    masksHold stackedRod.restartCtl.active stackedRod.restartCtl.stack
  exact ⟨⟨by decide +kernel, trivial⟩, by decide +kernel, trivial⟩

def stackedDevice : State := { placedDevice with rods := [stackedRod] }

theorem witness_stack_step : ∃ (s : State) (t : State),
    (∀ r ∈ s.rods, stackHolds r) ∧
    step s = .next t ∧
    ((∀ r ∈ s.rods, r.handler.isSome = true → ∀ q ∈ t.rods, q.uid = r.uid → q.stack = r.stack)) :=
  ⟨stackedDevice, nextOf (step stackedDevice), (fun _ h => List.mem_singleton.mp h ▸ stack_holds), next_of (by decide +kernel), fun _ h e => by rw [List.mem_singleton.mp h] at e; exact nomatch e⟩

/-! ### Witnesses: the rod's own changes -/

/-- Instructions whose effects stand in a table under conditions that hold, and that can issue. -/
theorem changes_of {table : Instr → Option Change} {r : Rod} {l : List Instr}
    (h : ∀ i ∈ l, ∃ m, table i = some m ∧ m.given (benchOf r) r) (hi : l.all (canIssue (benchOf r) r) = true) :
    ∀ i ∈ l, ∃ m, table i = some m ∧ Issues (benchOf r) r i ∧ m.given (benchOf r) r := fun i hm =>
  let ⟨m, h1, h2⟩ := h i hm
  ⟨m, h1, issues_of (List.all_eq_true.mp hi i hm), h2⟩

/-- A rod whose s2 holds 0x20000, s3 a value for MODE, s4 one for FMT, s6 and s7 an authority to read 256 bytes, with the
object 5 in the capability register 1; v2 of each bead holds 0x20000. -/
def changeRod : Rod :=
  (((((([0, 1, 2, 3].foldl (fun q k => q.setV k 2 0x20000) rod).setS 2 0x20000).setS 3 2).setS 4 0x209).setS 6
    (1 <<< 52)).setS 7 0x100).setCap 1 cap5

/-- A rod that diverged at 0x10000: the beads 0 and 1 run, the beads 2 and 3 are pending at 0x10040. -/
def splitRod : Rod :=
  { changeRod with
    active := 3
    pc := 0x10020
    stack := [⟨0x10000, 0xF, 0, none, true, 0x10040, 0xC, 0, 0, 1, 0, 1⟩] }

theorem witness_collectives : ∀ i ∈
    [Instr.voteAny ⟨100, 7⟩, .voteAll ⟨100, 7⟩, .voteBallot ⟨100, 7⟩, .voteEq ⟨100, 2⟩, .rodredIadd ⟨100, 2⟩,
      .rodredOr ⟨100, 2⟩, .rodredNmax ⟨100, 2⟩, .rodscanIaddInc ⟨5, 2⟩, .rodscanIaddExc ⟨5, 2⟩,
      .shflIdx ⟨3, 2⟩, .shflUp ⟨3, 2⟩, .shflDown ⟨3, 2⟩, .shflXor ⟨3, 2⟩],
    ∃ m, collectiveChange i = some m ∧ Issues (benchOf changeRod) changeRod i ∧ m.given (benchOf changeRod) changeRod :=
  changes_of (by
    simp [collectiveChange, always]) (by decide +kernel)

theorem witness_reductions : ∀ i ∈
    [Instr.rodredAnd ⟨100, 2⟩, .rodredSmin ⟨100, 2⟩, .rodredSmax ⟨100, 2⟩, .rodredNmin ⟨100, 2⟩],
    ∃ m, collectiveChange i = some m ∧ Issues (benchOf changeRod) changeRod i ∧ m.given (benchOf changeRod) changeRod :=
  changes_of (by
    simp only [List.forall_mem_cons, collectiveChange, whenever, Option.some.injEq, exists_eq_left', List.not_mem_nil, false_implies, implies_true, and_true]; decide +kernel) (by decide +kernel)

theorem witness_float_sums : ∀ i ∈
    [Instr.rodredFadd ⟨0, 100, 2⟩, .rodscanFaddInc ⟨1, 5, 2⟩, .rodscanFaddExc ⟨1, 5, 2⟩],
    ∃ m, collectiveChange i = some m ∧ Issues (benchOf changeRod) changeRod i ∧ m.given (benchOf changeRod) changeRod :=
  changes_of (by
    simp only [List.forall_mem_cons, collectiveChange, whenever, sumUntrapped, Option.some.injEq, exists_eq_left', List.not_mem_nil, false_implies, implies_true, and_true]; decide +kernel) (by decide +kernel)

theorem witness_transfers : ∀ i ∈
    [Instr.nop, .brpAll ⟨7, true, 8⟩, .brpAny ⟨7, true, 8⟩, .call ⟨0xFFFFF⟩, .yield],
    ∃ m, controlChange i = some m ∧ Issues (benchOf changeRod) changeRod i ∧ m.given (benchOf changeRod) changeRod :=
  changes_of (by
    simp [controlChange, always]) (by decide +kernel)

theorem witness_branch : ∀ i ∈
    [Instr.bra ⟨7, false, 0x8000⟩],
    ∃ m, controlChange i = some m ∧ Issues (benchOf changeRod) changeRod i ∧ m.given (benchOf changeRod) changeRod :=
  changes_of (by
    simp [controlChange, whenever, branchRoom]; exact .inl (by decide +kernel)) (by decide +kernel)

/-- s2, and v2 with v3 of every bead, hold a branch target. -/
theorem target_s : ∃ t, isTarget 98 t changeRod := ⟨0x20000, by decide, by decide, .inl (by decide +kernel)⟩

theorem target_v : ∃ t, isTarget 2 t changeRod := ⟨0x20000, by decide, by decide, .inr (by decide +kernel)⟩

theorem witness_targets : ∀ i ∈
    [Instr.callReg ⟨127, 98⟩, .callReg ⟨127, 2⟩, .cont ⟨98⟩, .ret ⟨98⟩, .ret ⟨2⟩],
    ∃ m, controlChange i = some m ∧ Issues (benchOf changeRod) changeRod i ∧ m.given (benchOf changeRod) changeRod :=
  changes_of (by
    simp [controlChange, toRegister]; exact ⟨target_s, target_v, target_s, target_v⟩) (by decide +kernel)

theorem witness_join : ∀ i ∈
    [Instr.join],
    ∃ m, controlChange i = some m ∧ Issues (benchOf changeRod) changeRod i ∧ m.given (benchOf changeRod) changeRod :=
  changes_of (by
    simp only [List.forall_mem_singleton]; exact ⟨_, rfl, fun _ _ h => nomatch h⟩) (by decide +kernel)

theorem witness_split : ∀ i ∈
    [Instr.join],
    ∃ m, controlChange i = some m ∧ Issues (benchOf splitRod) splitRod i ∧ m.given (benchOf splitRod) splitRod :=
  changes_of (by
    simp only [List.forall_mem_singleton]; exact ⟨_, rfl, fun _ _ h => by cases h; exact ⟨.inl rfl, .inl rfl⟩⟩) (by decide +kernel)

theorem witness_divergence : ∀ i ∈
    [Instr.bra ⟨7, true, 8⟩],
    ∃ m, controlChange i = some m ∧ Issues (benchOf splitRod) splitRod i ∧ m.given (benchOf splitRod) splitRod :=
  changes_of (by
    simp [controlChange, whenever, branchRoom]; exact .inl (by decide +kernel)) (by decide +kernel)

theorem witness_specials : ∀ i ∈
    [Instr.rdclk ⟨true, 100⟩, .rdclk ⟨false, 4⟩, .sets ⟨12, 98⟩, .caprd ⟨3, 100, 1⟩],
    ∃ m, specialChange i = some m ∧ Issues (benchOf changeRod) changeRod i ∧ m.given (benchOf changeRod) changeRod :=
  changes_of (by
    simp [specialChange, setsChange, always]) (by decide +kernel)

theorem witness_gets : ∀ i ∈
    [Instr.gets ⟨100, 0⟩, .gets ⟨5, 3⟩, .gets ⟨4, 10⟩, .gets ⟨100, 13⟩],
    ∃ m, specialChange i = some m ∧ Issues (benchOf changeRod) changeRod i ∧ m.given (benchOf changeRod) changeRod :=
  changes_of (by
    simp only [List.forall_mem_cons, specialChange, Option.some.injEq, exists_eq_left', List.not_mem_nil, false_implies, implies_true, and_true]; decide +kernel) (by decide +kernel)

theorem witness_formats : ∀ i ∈
    [Instr.setfmt ⟨100⟩, .setmode ⟨0, 99⟩, .setmode ⟨5, 0⟩, .wbase ⟨0⟩, .capnar ⟨2, 1, 102⟩],
    ∃ m, specialChange i = some m ∧ Issues (benchOf changeRod) changeRod i ∧ m.given (benchOf changeRod) changeRod :=
  changes_of (by
    simp only [List.forall_mem_cons, specialChange, whenever, fmtValue, classValue, modeValue, windowFits, noMore, Option.some.injEq, exists_eq_left', List.not_mem_nil, false_implies, implies_true, and_true]; decide +kernel) (by decide +kernel)

theorem witness_sets : ∀ i ∈
    [Instr.sets ⟨0, 99⟩, .sets ⟨1, 100⟩, .sets ⟨2, 98⟩],
    ∃ m, specialChange i = some m ∧ Issues (benchOf changeRod) changeRod i ∧ m.given (benchOf changeRod) changeRod :=
  changes_of (by
    simp only [List.forall_mem_cons, specialChange, Option.some.injEq, exists_eq_left', List.not_mem_nil, false_implies, implies_true, and_true]
    refine ⟨show modeValue _ ∧ _ from ?_, show fmtValue _ from ?_, .inl (by decide +kernel)⟩
    · unfold modeValue; decide +kernel
    · unfold fmtValue classValue; decide +kernel) (by decide +kernel)

end Sys2Proof.Tests
end

section
/-!
The state at reset: empty tables and memory, a device that keeps nothing of any context, and what can happen at
power-on.
-/

namespace Sys2Proof.Machine

/-- The empty table is canonical. -/
@[simp] theorem Sparse.wf_nil {α : Type} [DecidableEq α] (d : α) : Sparse.wf d [] = true := rfl

/-- An empty memory reads 0 everywhere (assumption 4). -/
@[simp] theorem Memory.read_nil (a : Nat) : Memory.read [] a = 0 := rfl

/-- A device that keeps nothing of any context has halted none. -/
theorem State.halted_of_ctxs_nil {s : State} (h : s.ctxs = []) (asid : Nat) : s.halted asid = false := by
  have hctx : s.ctx? asid = none := by rw [State.ctx?, h]; rfl
  rw [State.halted, State.halt?, hctx]; rfl

/-- At power-on, with nothing to come from outside, the boot of the management core is all that can happen (R315). -/
theorem State.moves_of_powerOn {s : State} (hboot : s.boot = .powerOn) (hin : s.inputs = []) :
    s.moves = [.unit_ .powerOn] := by
  have hready : s.inputReady = false := by simp [State.inputReady, hin]
  simp [State.moves, hboot, hready]

end Sys2Proof.Machine

namespace Sys2Proof.Claims

open Sys2Proof.Machine

/-- Settles O59: the tables at reset are empty, and the facts about empty memory, about no contexts and about power-on
say the rest. -/
theorem resetIsCanonical : Obligations.ResetIsCanonical := by
  have hmem : State.reset.memoryCanonical := Sparse.wf_nil 0
  have hlanes : State.reset.lanesCanonical := Sparse.wf_nil 7
  have hquiet : State.reset.quiet := rfl
  exact ⟨hmem, hlanes, hquiet, rfl, rfl, rfl, rfl, Memory.read_nil, State.halted_of_ctxs_nil rfl,
    State.moves_of_powerOn rfl rfl⟩

end Sys2Proof.Claims
end

section
/-!
Two rods of one name: a step that changes every rod of a name can break R28's invariant, since handler entry keeps the
active mask of the first of them for both (R288).
-/

namespace Sys2Proof.Claims

open Sys2Proof.Machine

/-- A rod of bead 0 with an empty stack, whose TIMER has run out (R55). -/
def timedRod : Rod := { placedRod with active := 1, timerEn := true }

/-- A parked rod of the same name that runs bead 1 below a divergence whose only live bead is 1. -/
def twinRod : Rod :=
  { placedRod with
    active := 2
    status := .parked ⟨2, 0, none, 0, none, none⟩
    stack := [⟨0x10100, 2, 0, none, false, 0, 0, 0, 0, 1, 0, 1⟩] }

/-- A device of these two rods, whose context has a handler at 0x4000 and on which only TIMER_EXPIRY can happen. -/
def twinDevice : State :=
  { State.reset.withFetchWord 32 0 with rods := [timedRod, twinRod], mem := [(49, 0x40)] }

/-- The outcome holds a rod with the twin's stack whose fault frame keeps the other rod's active mask. -/
def mixesTwins : Host.Outcome State Fault Refusal → Bool
  | .next t => t.rods.any fun q => decide (q.stack = twinRod.stack) && q.handler.any fun f => decide (f.act = timedRod.active)
  | _ => false

theorem exists_of_mixesTwins {o : Host.Outcome State Fault Refusal} (h : mixesTwins o = true) :
    ∃ t, o = .next t ∧ ∃ q ∈ t.rods, q.stack = twinRod.stack ∧ ∃ f, q.handler = some f ∧ f.act = timedRod.active := by
  cases o with
  | next t =>
    simp only [mixesTwins, List.any_eq_true, Bool.and_eq_true, decide_eq_true_eq, Option.any_eq_true] at h
    exact ⟨t, rfl, h⟩
  | fault r => cases h
  | refused r => cases h

theorem step_twinDevice_mixesTwins : mixesTwins (step twinDevice) = true := by decide +kernel

theorem stackHolds_timedRod : stackHolds timedRod :=
  ⟨by decide, trivial, by decide, trivial⟩

theorem stackHolds_twinRod : stackHolds twinRod :=
  ⟨by decide, ⟨by decide, trivial⟩, by decide, trivial⟩

/-- The twin's entry does not hold with the other rod's bead. -/
theorem not_masksHold_twins : ¬ masksHold timedRod.active twinRod.stack := by
  rintro ⟨⟨-, -, -, hf⟩, -⟩
  exact absurd hf (by decide)

/-- In handler mode R28's invariant is held with the beads that run when the handler has ended. -/
theorem masksHold_of_stackHolds {q : Rod} {f : FaultFrame} (hf : q.handler = some f) (h : stackHolds q) :
    masksHold f.act q.stack := by
  unfold stackHolds at h
  rw [hf] at h
  exact h.2

/-- Refutes O60: nothing in it keeps two rods from having one name. TIMER_EXPIRY at `twinDevice` changes both rods named
1, and the fault frame of the second keeps the active mask of the first, with which the second's stack does not hold. -/
theorem not_stepKeepsMemory : ¬ Obligations.StepKeepsMemory := by
  rintro ⟨-, hkeeps⟩
  obtain ⟨t, hstep, q, hq, hstack, f, hf, hact⟩ := exists_of_mixesTwins step_twinDevice_mixesTwins
  have hholds : ∀ r ∈ twinDevice.rods, stackHolds r := by
    intro r hr
    obtain rfl | rfl : r = timedRod ∨ r = twinRod := by simpa [twinDevice] using hr
    · exact stackHolds_timedRod
    · exact stackHolds_twinRod
  have hnone : ∀ r ∈ twinDevice.rods, r.handler.isSome = true → ∀ q ∈ t.rods, q.uid = r.uid → q.stack = r.stack := by
    intro r hr hsome
    obtain rfl | rfl : r = timedRod ∨ r = twinRod := by simpa [twinDevice] using hr
    all_goals cases hsome
  have hq' := masksHold_of_stackHolds hf (hkeeps twinDevice t hholds hstep hnone q hq (fun b hb => by cases hb))
  rw [hact, hstack] at hq'
  exact not_masksHold_twins hq'

end Sys2Proof.Claims
end

section
/-!
The step, by what can happen next: what is urgent, else waiting, the one possible move, or one of several.
-/

namespace Sys2Proof.Machine

/-! ### The issuing of a decoded word -/

/-- The instruction that a decodable word stands for. -/
theorem instrOf_of_decode {w : Word} {i : Instr} (h : decode w = .ok i) : instrOf w = i := by
  rw [instrOf, h]

/-- A rod that issues runs its decoded word, with its lane's last slot remembered (R24, R77). -/
theorem State.issueMove_next {s t : State} {u : Nat} {r : Rod} {w : Word} {i : Instr} (hr : s.rod? u = some r)
    (hw : s.fetched r = some w) (hi : decode w = .ok i)
    (ht : exec i { s with cur := some u, lastSlot := Sparse.set 7 s.lastSlot (r.core * 128 + r.lane) r.slot } = .next t) :
    s.issueMove u = .next { t with cur := none } := by
  simp only [State.issueMove, hr, hw, instrOf_of_decode hi, laneKey, ht, settleMove]

theorem nth_of_getElem? {α : Type} (d : α) {xs : List α} {n : Nat} {x : α} (h : xs[n]? = some x) : nth d xs n = x := by
  induction xs generalizing n with
  | nil => simp at h
  | cons y ys ih =>
    cases n with
    | zero => simpa [nth] using h
    | succ n => exact ih (by simpa using h)

/-- A word of the instruction cache is the one that a look without effect finds (R77). -/
theorem State.instrAt_of_fetched {s : State} {r : Rod} {w : Word} {i : Instr} (hw : s.fetched r = some w)
    (hi : decode w = .ok i) : s.instrAt r = some i := by
  have hpeek : s.peekCode r.core r.asid r.pc.toNat = some w := by
    unfold State.fetched at hw
    unfold State.peekCode
    split at hw
    · cases hw
    · next l hl => rw [hl]; exact congrArg some (nth_of_getElem? 0 hw)
  rw [State.instrAt, hpeek]
  simp only [hi]

/-- A rod that is held at a cell runs its decoded word without a turn of its lane (R21, R25). -/
theorem State.holdMove_next {s t : State} {u : Nat} {r : Rod} {w : Word} {i : Instr} (hr : s.rod? u = some r)
    (hw : s.fetched r = some w) (hi : decode w = .ok i) (ht : exec i { s with cur := some u } = .next t) :
    s.holdMove u = .next { t with cur := none } := by
  simp only [State.holdMove, hr, Option.bind_some, State.instrAt_of_fetched hw hi, ht, settleMove]

/-! ### The choice among the moves -/

/-- Nothing is urgent before the device runs, and while no stamp is due and no rod is held at a cell. -/
theorem State.advance_of_not_urgent {s : State} (h : s.boot ≠ .running ∨ (s.tokensDue = [] ∧ s.held = [])) :
    s.advance = s.chosenMove := by
  have hnone : s.urgent = none := by
    unfold State.urgent
    rcases h with h | ⟨ht, hh⟩
    · rw [if_pos h]
    · rw [ht, hh]; simp
  rw [State.advance, hnone]; rfl

theorem State.advance_token {s : State} {d : Nat × Nat} {ds : List (Nat × Nat)} (hb : s.boot = .running)
    (ht : s.tokensDue = d :: ds) : s.advance = exec (.dieStampToken d.1 d.2) s := by
  simp only [State.advance, State.urgent, hb, ht, ne_eq, not_true_eq_false, if_false, Option.getD_some]

theorem State.advance_held {s : State} {u : Nat} {us : List Nat} (hb : s.boot = .running) (ht : s.tokensDue = [])
    (hh : s.held = u :: us) : s.advance = s.holdMove u := by
  simp only [State.advance, State.urgent, hb, ht, hh, ne_eq, not_true_eq_false, if_false, Option.getD_some]

/-- Of a list that is not empty some move has been passed over most often. -/
theorem State.mostPassed_spec (s : State) {ms : List Move} (h : ms ≠ []) :
    ∃ m, s.mostPassed ms = some m ∧ m ∈ ms ∧ ∀ x ∈ ms, s.passedOver x ≤ s.passedOver m := by
  induction ms with
  | nil => exact absurd rfl h
  | cons m ms ih =>
    rw [State.mostPassed]
    by_cases hms : ms = []
    · subst hms
      exact ⟨m, rfl, List.mem_singleton_self m, fun x hx => by rw [List.mem_singleton.mp hx]⟩
    · obtain ⟨y, hy, hmem, hmax⟩ := ih hms
      rw [hy]
      by_cases hlt : s.passedOver m < s.passedOver y
      · refine ⟨y, if_pos hlt, List.mem_cons_of_mem m hmem, fun x hx => ?_⟩
        rcases List.mem_cons.mp hx with rfl | hx
        · exact hlt.le
        · exact hmax x hx
      · refine ⟨m, if_neg hlt, List.mem_cons_self, fun x hx => ?_⟩
        rcases List.mem_cons.mp hx with rfl | hx
        · exact le_rfl
        · exact (hmax x hx).trans (not_lt.mp hlt)

/-- Of several moves one is picked, and one that has been passed over often enough goes before the others (R33, assumption
49). -/
theorem State.pick_spec (s : State) {ms : List Move} (h : ms ≠ []) :
    ∃ m ∈ ms, s.pick ms = some m ∧
      ∀ x ∈ ms, Config.patience ≤ s.passedOver x → Config.patience ≤ s.passedOver m ∧ s.passedOver x ≤ s.passedOver m := by
  have mem_often {x : Move} : x ∈ ms.filter (fun m => decide (Config.patience ≤ s.passedOver m)) ↔
      x ∈ ms ∧ Config.patience ≤ s.passedOver x := by simp
  unfold State.pick
  by_cases hnone : ms.filter (fun m => decide (Config.patience ≤ s.passedOver m)) = []
  · have hlt : Config.freeChoice s.fresh % ms.length < ms.length := Nat.mod_lt _ (List.length_pos_iff.mpr h)
    refine ⟨_, List.getElem_mem hlt, ?_, fun x hx hp => ?_⟩
    · rw [hnone]; exact List.getElem?_eq_getElem hlt
    · exact absurd (mem_often.mpr ⟨hx, hp⟩) (by rw [hnone]; exact List.not_mem_nil)
  · obtain ⟨m, hm, hmem, hmax⟩ := s.mostPassed_spec hnone
    exact ⟨m, (mem_often.mp hmem).1, by rw [hm], fun x hx hp => ⟨(mem_often.mp hmem).2, hmax x (mem_often.mpr ⟨hx, hp⟩)⟩⟩

theorem State.chosenMove_of_nil {s : State} (h : s.moves = []) : s.chosenMove = .next s.idle := by
  rw [State.chosenMove, h]

theorem State.chosenMove_of_singleton {s : State} {m : Move} (h : s.moves = [m]) : s.chosenMove = s.move m := by
  rw [State.chosenMove, h]

/-- Of two moves or more the picked one is made. -/
theorem State.chosenMove_of_pick {s : State} {m : Move} (h : 2 ≤ s.moves.length) (hp : s.pick s.moves = some m) :
    s.chosenMove = (s.passing s.moves m).move m := by
  unfold State.chosenMove
  split
  · next hm => rw [hm] at h; exact absurd h (by decide)
  · next hm => rw [hm] at h; exact absurd h (by simp)
  · rw [hp]

/-! ### The passage of time -/

theorem State.idle_of_not_running {s : State} (h : s.boot ≠ .running) : s.idle = s := if_pos h

theorem lt_foldl_min {n : Nat} (ts : List Nat) {t : Nat} (ht : n < t) (h : ∀ x ∈ ts, n < x) : n < ts.foldl min t := by
  induction ts generalizing t with
  | nil => exact ht
  | cons x xs ih => exact ih (lt_min ht (h x List.mem_cons_self)) fun y hy => h y (List.mem_cons_of_mem x hy)

/-- A running device waits at least one cycle. -/
theorem State.idle_of_running {s : State} (h : s.boot = .running) : ∃ n, 1 ≤ n ∧ s.idle = s.tick n := by
  have hlater : ∀ x ∈ s.deadlines.filter fun t => decide (s.now < t), s.now < x := by simp
  unfold State.idle
  rw [if_neg (not_not.mpr h)]
  split
  · exact ⟨1, le_rfl, rfl⟩
  · next t ts hts =>
    rw [hts] at hlater
    have hlt := lt_foldl_min ts (hlater t List.mem_cons_self) fun x hx => hlater x (List.mem_cons_of_mem t hx)
    exact ⟨_, Nat.le_sub_of_add_le (by omega), rfl⟩

end Sys2Proof.Machine

namespace Sys2Proof.Claims

open Sys2Proof.Machine

/-- Settles O56: one lemma about `State.advance` for each thing that can be urgent, and one about `State.chosenMove` for no
move, one and several. -/
theorem stepRunsDecoded : Obligations.StepRunsDecoded := by
  refine ⟨?issue, ?token, ?held, ?wait, ?one, ?several⟩
  case issue =>
    intro s t r w i hm ht hh hr hw hi hx
    rw [step, State.advance_of_not_urgent (.inr ⟨ht, hh⟩), State.chosenMove_of_singleton hm]
    exact State.issueMove_next hr hw hi hx
  case token => exact fun s d ds hb ht => State.advance_token hb ht
  case held =>
    intro s t u us r w i hb ht hh hr hw hi hx
    rw [step, State.advance_held hb ht hh]
    exact State.holdMove_next hr hw hi hx
  case wait =>
    intro s hm
    refine ⟨fun hb => ?_, fun hb ht hh => ?_⟩
    · rw [step, State.advance_of_not_urgent (.inl hb), State.chosenMove_of_nil hm, State.idle_of_not_running hb]
    · obtain ⟨n, hn, hidle⟩ := State.idle_of_running hb
      refine ⟨n, hn, ?_⟩
      rw [step, State.advance_of_not_urgent (.inr ⟨ht, hh⟩), State.chosenMove_of_nil hm, hidle]
  case one =>
    intro s m hm hu
    rw [step, State.advance_of_not_urgent hu, State.chosenMove_of_singleton hm]
  case several =>
    intro s hlen hu
    obtain ⟨m, hmem, hpick, hmax⟩ := s.pick_spec (List.ne_nil_of_length_pos (by omega : 0 < s.moves.length))
    refine ⟨m, hmem, ?_, hmax⟩
    rw [step, State.advance_of_not_urgent hu, State.chosenMove_of_pick hlen hpick]

end Sys2Proof.Claims
end

section
/-!
The value instructions: each computes, for every part, what its claim's table says, from what its own bead holds.
-/

namespace Sys2Proof.Claims

open Sys2Proof.Machine

/-! ### Results as their destination takes them -/

/-- Two results of a part are the same to their destination: the conditions agree, and the bits that the width takes. -/
def SameResult (w : Bool) (x y : Dword × Conds) : Prop := x.1.toNat % 2 ^ widthOf w = y.1.toNat % 2 ^ widthOf w ∧ x.2 = y.2

theorem SameResult.refl (w : Bool) (x : Dword × Conds) : SameResult w x x := ⟨rfl, rfl⟩

theorem SameResult.of_eq {w : Bool} {x y : Dword × Conds} (h : x = y) : SameResult w x y := h ▸ SameResult.refl w x

/-- What a destination takes depends on the result's low bits alone (R42). -/
theorem SameResult.setOperand {w : Bool} {x y : Dword × Conds} (h : SameResult w x y) (r : Rod) (b : Option Nat)
    (d : BitVec 7) : r.setOperand b w d x.1 = r.setOperand b w d y.1 := by
  cases w with
  | false =>
    have hlo : loWord x.1 = loWord y.1 := BitVec.eq_of_toNat_eq (by simpa [loWord, widthOf] using h.1)
    simp only [Rod.setOperand, Bool.false_eq_true, if_false, hlo]
  | true =>
    have hmod : x.1.toNat % 2 ^ 64 = y.1.toNat % 2 ^ 64 := h.1
    have hxy : x.1 = y.1 := BitVec.eq_of_toNat_eq (by rwa [Nat.mod_eq_of_lt x.1.isLt, Nat.mod_eq_of_lt y.1.isLt] at hmod)
    rw [hxy]

theorem executeAlu_congr {i : Instr} {w : Bool} {d : BitVec 7} {f g : Rod → Option Nat → Dword × Conds}
    (h : ∀ r b, SameResult w (f r b) (g r b)) (s : State) : executeAlu i w d f s = executeAlu i w d g s := by
  have hcond (r : Rod) (b : Option Nat) : (f r b).2 = (g r b).2 := (h r b).2
  have hset (r q : Rod) (b : Option Nat) : q.setOperand b w d (f r b).1 = q.setOperand b w d (g r b).1 :=
    (h r b).setOperand q b d
  simp only [executeAlu, hcond, hset]

/-! ### Integers of a width -/

theorem widthOf_eq_bitsOfWidth (w : Bool) : widthOf w = bitsOfWidth w := rfl

/-- An operand of 32 bits is below 2^32. -/
theorem operand_lt (r : Rod) (b : Option Nat) (w : Bool) (g : BitVec 7) : (r.operand b w g).toNat < 2 ^ widthOf w := by
  cases w with
  | false => simp [Rod.operand, widthOf]; omega
  | true => exact (r.operand b true g).isLt

theorem toNat_ofInt_emod {w n : Nat} (hn : n ≤ w) (x : Int) : ((BitVec.ofInt w x).toNat : Int) % 2 ^ n = x % 2 ^ n := by
  rw [BitVec.toNat_ofInt]
  have hpos : (0 : Int) < 2 ^ w := by positivity
  rw [Int.toNat_of_nonneg (by simpa using Int.emod_nonneg x hpos.ne')]
  have : ((2 ^ n : Int)) ∣ 2 ^ w := pow_dvd_pow 2 hn
  push_cast
  exact Int.emod_emod_of_dvd x this

theorem widthOf_le (w : Bool) : widthOf w ≤ 64 := by cases w <;> decide

/-- The low bits of an integer's word are the integer modulo the width. -/
theorem ofInt_mod_width (w : Bool) (x : Int) : (BitVec.ofInt 64 x).toNat % 2 ^ widthOf w = bitsOfInt (widthOf w) x := by
  have h := toNat_ofInt_emod (widthOf_le w) x
  have h2 : ((bitsOfInt (widthOf w) x : Nat) : Int) = x % 2 ^ widthOf w := by
    unfold bitsOfInt
    push_cast
    exact Int.toNat_of_nonneg (Int.emod_nonneg _ (by positivity))
  exact_mod_cast h.trans h2.symm

theorem bitsOfInt_lt (n : Nat) (x : Int) : bitsOfInt n x < 2 ^ n := by
  unfold bitsOfInt
  have hpos : (0 : Int) < ((2 ^ n : Nat) : Int) := by positivity
  have := Int.emod_lt_of_pos x hpos
  have := Int.emod_nonneg x hpos.ne'
  omega

theorem ofNat_bitsOfInt_mod_width (w : Bool) (x : Int) :
    (BitVec.ofNat 64 (bitsOfInt (widthOf w) x)).toNat % 2 ^ widthOf w = bitsOfInt (widthOf w) x := by
  have hlt := bitsOfInt_lt (widthOf w) x
  have hle : 2 ^ widthOf w ≤ 2 ^ 64 := Nat.pow_le_pow_right (by decide) (widthOf_le w)
  rw [BitVec.toNat_ofNat, Nat.mod_eq_of_lt (hlt.trans_le hle), Nat.mod_eq_of_lt hlt]

/-- The range of a type, written out (R88). -/
theorem intLo_eq (n w : Bool) : intLo (widthOf w) n = least n w := by
  cases n <;> cases w <;> rfl

theorem intHi_eq (n w : Bool) : intHi (widthOf w) n = greatest n w := by
  cases n <;> cases w <;> rfl

theorem least_le_greatest (n w : Bool) : least n w ≤ greatest n w := by
  cases n <;> cases w <;> decide

/-- Fitting as the model does it and as the claims write it (R89). -/
theorem sameResult_fit (s n w : Bool) (x : Int) : SameResult w (fitResult s n w x) (fitted s n w x) := by
  have hrange := least_le_greatest n w
  unfold fitResult fitInt fitted
  rw [intLo_eq, intHi_eq]
  cases s with
  | false => exact ⟨by simp only [Bool.false_eq_true, false_and, if_false]; rw [ofNat_bitsOfInt_mod_width, ofInt_mod_width], by simp⟩
  | true =>
    unfold clampInt
    by_cases hlo : x < least n w
    · have hne : least n w ≠ x := by omega
      simp only [if_true, hlo, true_and, SameResult]
      exact ⟨by rw [ofNat_bitsOfInt_mod_width, ofInt_mod_width], by simp [Conds.when, hne]⟩
    · by_cases hhi : greatest n w < x
      · have hne : greatest n w ≠ x := by omega
        simp only [if_true, hlo, hhi, true_and, if_false, SameResult]
        exact ⟨by rw [ofNat_bitsOfInt_mod_width, ofInt_mod_width], by simp [Conds.when, hne]⟩
      · simp only [if_true, hlo, hhi, true_and, if_false, SameResult]
        exact ⟨by rw [ofNat_bitsOfInt_mod_width, ofInt_mod_width], by simp [Conds.when]⟩

theorem sameResult_wrap (w : Bool) (x : Int) : SameResult w (wrapResult w x) (modulo x) := by
  have h := sameResult_fit false false w x
  simpa [wrapResult, fitted, modulo] using h

theorem intOf_of_lt {n x : Nat} (u : Bool) (hx : x < 2 ^ n) :
    intOf n u x = if u || decide (x < 2 ^ (n - 1)) then (x : Int) else (x : Int) - 2 ^ n := by
  simp only [intOf, Nat.mod_eq_of_lt hx]

/-- The model's two's complement reading is that of the bit vector. -/
theorem intOf_eq_toInt {n : Nat} (hn : 0 < n) (x : BitVec n) : intOf n false x.toNat = x.toInt := by
  have h2 : 2 ^ n = 2 * 2 ^ (n - 1) := by rw [← pow_succ']; congr 1; omega
  rw [intOf_of_lt false x.isLt, BitVec.toInt_eq_toNat_cond]
  simp only [Bool.false_or, decide_eq_true_eq]
  by_cases h : x.toNat < 2 ^ (n - 1)
  · rw [if_pos h, if_pos (by omega)]
  · rw [if_neg h, if_neg (by omega)]; push_cast; rfl

/-- An operand read as an integer (R351). -/
theorem int_eq_reading (r : Rod) (b : Option Nat) (n w : Bool) (g : BitVec 7) : r.int b w n g = reading r b n w g := by
  unfold Rod.int reading
  cases n with
  | true => rw [intOf_of_lt true (operand_lt r b w g)]; simp
  | false =>
    cases w with
    | true => simpa [widthOf] using intOf_eq_toInt (by decide : 0 < 64) (r.operand b true g)
    | false =>
      have h := intOf_eq_toInt (by decide : 0 < 32) ((r.operand b false g).setWidth 32)
      have hlt : (r.operand b false g).toNat < 2 ^ 32 := operand_lt r b false g
      rw [BitVec.toNat_setWidth, Nat.mod_eq_of_lt hlt] at h
      simpa [widthOf] using h

/-- An immediate read under N (R63, R351). -/
theorem immInt_eq_immediate (w n : Bool) (i : BitVec 7) : immInt w n i = immediate n w i := by
  revert i
  cases w <;> cases n <;> decide +revert

/-! ### The integer table -/

theorem byteInt_eq_byteOf (n : Bool) (x : Word) {i : Nat} : byteInt n x i = byteOf n x i := by
  have hbyte : field x.toNat (8 * i) 8 = ((x >>> (8 * i)).setWidth 8 : BitVec 8).toNat := by
    simp [field, Nat.shiftRight_eq_div_pow]
  unfold byteInt byteOf
  rw [hbyte]
  cases n with
  | true => rw [intOf_of_lt true (BitVec.isLt _)]; simp
  | false => simpa using intOf_eq_toInt (by decide : 0 < 8) ((x >>> (8 * i)).setWidth 8 : BitVec 8)

theorem dot4_eq (n : Bool) (x y : Word) :
    dot4 n x y = byteOf n x 0 * byteOf n y 0 + byteOf n x 1 * byteOf n y 1 + byteOf n x 2 * byteOf n y 2 +
      byteOf n x 3 * byteOf n y 3 := by
  simp only [dot4, byteInt_eq_byteOf, List.range, List.range.loop, List.map_cons, List.map_nil, List.sum_cons, List.sum_nil]
  ring

/-- IDIV's quotient (R375). -/
theorem sameResult_divide (w : Bool) (x y : Int) :
    SameResult w (divide w x y) (if y = 0 then (BitVec.ofInt 64 (-1), Conds.dz) else modulo (x.tdiv y)) := by
  unfold divide
  split
  · exact ⟨(sameResult_wrap w (-1)).1, rfl⟩
  · exact sameResult_wrap w _

/-- IREM's remainder (R375). -/
theorem sameResult_remainder (w : Bool) (x y : Int) :
    SameResult w (remainder w x y) (if y = 0 then (BitVec.ofInt 64 x, Conds.dz) else modulo (x.tmod y)) := by
  unfold remainder
  split
  · exact ⟨(sameResult_wrap w x).1, rfl⟩
  · exact sameResult_wrap w _

theorem highHalf_eq (w : Bool) (x : Int) : highHalf w x = x / 2 ^ bitsOfWidth w := by
  cases w <;> rfl

/-- The integer instructions compute the table's values (R371 to R373, R375, R376, R379). -/
theorem exec_of_integerEffect {i : Instr} {x : Effect} (h : integerEffect i = some x) (s : State) :
    exec i s = executeAlu i x.wide x.dst x.value s := by
  unfold integerEffect at h
  split at h <;> cases h
  all_goals
    refine executeAlu_congr (fun r b => ?_) s
    simp only [int_eq_reading, immInt_eq_immediate, highHalf_eq, Int.natCast_natAbs, dot4_eq]
  case h_7 | h_8 | h_9 | h_10 | h_13 => exact sameResult_wrap ..
  case h_11 => exact sameResult_divide ..
  case h_12 => exact sameResult_remainder ..
  all_goals exact sameResult_fit ..

/-- The floating-point table is written in the functions that the model computes with. -/
theorem exec_of_floatEffect {i : Instr} {x : Effect} (h : floatEffect i = some x) (s : State) :
    exec i s = executeAlu i x.wide x.dst x.value s := by
  unfold floatEffect at h
  split at h <;> cases h <;> rfl

/-- The conversions compute the table's values; ITOF reads its operand as an integer of its type (R380). -/
theorem exec_of_convertEffect {i : Instr} {x : Effect} (h : convertEffect i = some x) (s : State) :
    exec i s = executeAlu i x.wide x.dst x.value s := by
  unfold convertEffect at h
  split at h <;> cases h
  case h_6 f =>
    refine executeAlu_congr (fun r b => .of_eq ?_) s
    simp only [← int_eq_reading]
    rfl
  all_goals rfl

end Sys2Proof.Claims
end

section
/-!
Bits of a value, one after the other, as the model computes with them and as the claims write them.
-/

namespace Sys2Proof.Claims

open Sys2Proof.Machine

/-! ### Lists of bits -/

/-- The low `n` bits of a number, the lowest first. -/
def lowBits (n x : Nat) : List Bool := (List.range n).map x.testBit

theorem bitList_eq_lowBits (n : Nat) (x : Dword) : bitList n x = lowBits n x.toNat := rfl

@[simp] theorem lowBits_zero (x : Nat) : lowBits 0 x = [] := rfl

theorem lowBits_succ (n x : Nat) : lowBits (n + 1) x = decide (x % 2 = 1) :: lowBits n (x / 2) := by
  simp only [lowBits, List.range_succ_eq_map, List.map_cons, List.map_map, Nat.testBit_zero]
  exact congrArg _ (List.map_congr_left fun i _ => Nat.testBit_succ x i)

theorem lowBits_succ_last (n x : Nat) : lowBits (n + 1) x = lowBits n x ++ [x.testBit n] := by
  simp [lowBits, List.range_succ]

@[simp] theorem lowBits_length (n x : Nat) : (lowBits n x).length = n := by simp [lowBits]

theorem ofBitList_append (xs ys : List Bool) : ofBitList (xs ++ ys) = ofBitList xs + 2 ^ xs.length * ofBitList ys := by
  induction xs with
  | nil => simp [ofBitList]
  | cons b xs ih => simp only [List.cons_append, ofBitList, ih, List.length_cons]; ring

theorem testBit_ofBitList (xs : List Bool) (i : Nat) : (ofBitList xs).testBit i = xs.getD i false := by
  induction xs generalizing i with
  | nil => simp [ofBitList]
  | cons b xs ih =>
    cases i with
    | zero => cases b <;> simp [ofBitList, Nat.testBit_zero, Nat.add_mod]
    | succ i =>
      have hhalf : (b.toNat + 2 * ofBitList xs) / 2 = ofBitList xs := by
        cases b with
        | false => simp
        | true => simp; omega
      rw [ofBitList, Nat.testBit_succ, hhalf, ih]; rfl

/-! ### Counts and the reversal -/

/-- Leading zeros are the bits before the first one from the top (R348). -/
theorem length_takeWhile_lowBits (n x : Nat) (hx : x < 2 ^ n) :
    ((lowBits n x).reverse.takeWhile fun b => !b).length = leadingZeros n x := by
  induction n with
  | zero => obtain rfl : x = 0 := by simpa using hx
            rfl
  | succ n ih =>
    rw [lowBits_succ_last, List.reverse_append]
    by_cases htop : x < 2 ^ n
    · have hn : x ≠ 0 → Nat.log2 x < n := fun h0 => (Nat.log2_lt h0).mpr htop
      simp only [Nat.testBit_lt_two_pow htop, List.reverse_singleton, List.singleton_append, Bool.not_false,
        List.takeWhile_cons_of_pos, List.length_cons, ih htop, leadingZeros]
      split
      · rfl
      · have := hn ‹_›; omega
    · have h0 : x ≠ 0 := by rintro rfl; simp at htop
      have hlog : Nat.log2 x = n := by
        have h1 := (Nat.log2_lt h0).mpr hx
        have h2 : ¬ Nat.log2 x < n := fun h => htop ((Nat.log2_lt h0).mp h)
        omega
      have hbit : x.testBit n = true := hlog ▸ Nat.testBit_log2 h0
      simp [hbit, leadingZeros, h0, hlog]

/-- One bits of the low bits (R394). -/
theorem oneBits_eq (n x : Nat) : oneBits n x = ((lowBits n x).filter fun b => b).length := by
  induction n generalizing x with
  | zero => rfl
  | succ n ih =>
    rw [lowBits_succ, oneBits, ih, List.filter_cons]
    rcases Nat.mod_two_eq_zero_or_one x with h | h <;> simp [h]; omega

theorem oneBits_zero (n : Nat) : oneBits n 0 = 0 := by
  induction n with
  | zero => rfl
  | succ n ih => simp [oneBits, ih]

/-- Bits above a number's own are no ones. -/
theorem oneBits_add {n x : Nat} (k : Nat) (hx : x < 2 ^ n) : oneBits (n + k) x = oneBits n x := by
  induction n generalizing x with
  | zero =>
    obtain rfl : x = 0 := by simpa using hx
    rw [oneBits_zero, oneBits_zero]
  | succ n ih => rw [Nat.succ_add, oneBits, oneBits, ih (by rw [pow_succ] at hx; omega)]

/-- The bits in reverse order (R338). -/
theorem reverseBits_eq (n x : Nat) : reverseBits n x = ofBitList (lowBits n x).reverse := by
  induction n generalizing x with
  | zero => rfl
  | succ n ih =>
    rw [lowBits_succ, reverseBits, ih, List.reverse_cons, ofBitList_append]
    rcases Nat.mod_two_eq_zero_or_one x with h | h
    · simp [h, ofBitList]
    · simp [h, ofBitList]; ring

/-! ### Bit fields -/

theorem field_zero (x n : Nat) : field x 0 n = x % 2 ^ n := by simp [field]

theorem setWidth_toNat_eq_field (x : Dword) (lo n : Nat) :
    ((x >>> lo).setWidth n : BitVec n).toNat = field x.toNat lo n := by
  simp [field, Nat.shiftRight_eq_div_pow]

/-- Position and length of a field, as the model computes them (R336). -/
theorem fieldAt_eq (n : Nat) (sel : Dword) :
    fieldAt n sel = (min (field sel.toNat 0 8) n, min (field sel.toNat 8 8) (n - min (field sel.toNat 0 8) n)) := by
  have h0 := setWidth_toNat_eq_field sel 0 8
  rw [BitVec.ushiftRight_zero] at h0
  unfold fieldAt
  rw [h0, setWidth_toNat_eq_field sel 8 8]

theorem getLsbD_eq_field (x : Dword) (i : Nat) : x.getLsbD i = decide (field x.toNat i 1 = 1) := by
  rw [BitVec.getLsbD, Nat.testBit_eq_decide_div_mod_eq]
  rfl

/-- The bits that BFI leaves, inserts and leaves (R336). -/
theorem testBit_insertField (n old x sel p m i : Nat) (hp : p = min (field sel 0 8) n)
    (hm : m = min (field sel 8 8) (n - p)) :
    (insertField n old x sel).testBit i = if p ≤ i ∧ i < p + m then x.testBit (i - p) else old.testBit i := by
  subst hp hm
  simp only [insertField]
  generalize min (field sel 0 8) n = p
  generalize min (field sel 8 8) (n - p) = m
  have hlow : old % 2 ^ p < 2 ^ p := Nat.mod_lt _ (by positivity)
  have hmid : x % 2 ^ m < 2 ^ m := Nat.mod_lt _ (by positivity)
  have e : old / 2 ^ (p + m) * 2 ^ (p + m) + x % 2 ^ m * 2 ^ p + old % 2 ^ p =
      2 ^ p * (2 ^ m * (old / 2 ^ (p + m)) + x % 2 ^ m) + old % 2 ^ p := by
    rw [pow_add]; ring
  rw [e, Nat.testBit_two_pow_mul_add _ hlow, Nat.testBit_two_pow_mul_add _ hmid]
  by_cases h1 : i < p
  · rw [if_pos h1, if_neg (by omega), Nat.testBit_mod_two_pow]; simp [h1]
  · by_cases h2 : i - p < m
    · rw [if_neg h1, if_pos h2, if_pos (by omega), Nat.testBit_mod_two_pow]; simp [h2]
    · rw [if_neg h1, if_neg h2, if_neg (by omega), Nat.testBit_div_two_pow]
      congr 1; omega

/-- The bits that BFX extracts (R336). -/
theorem ofInt_extractField (n : Nat) (a sel : Dword) {p m : Nat} (hp : p = min (field sel.toNat 0 8) n)
    (hm : m = min (field sel.toNat 8 8) (n - p)) :
    BitVec.ofInt 64 (extractField n a.toNat sel.toNat) =
      if sel.getLsbD 16 = true ∧ 0 < m ∧ 2 ^ (m - 1) ≤ a.toNat / 2 ^ p % 2 ^ m
      then BitVec.ofInt 64 ((a.toNat / 2 ^ p % 2 ^ m : Nat) - 2 ^ m) else BitVec.ofNat 64 (a.toNat / 2 ^ p % 2 ^ m) := by
  simp only [extractField, ← hp, ← hm, getLsbD_eq_field]
  rcases Nat.eq_zero_or_pos m with h0 | hpos
  · simp [h0, Nat.mod_one]
  · have hlt : field a.toNat p m < 2 ^ m := Nat.mod_lt _ (by positivity)
    rw [if_neg hpos.ne', intOf_of_lt _ hlt]
    have hbit : field sel.toNat 16 1 < 2 := Nat.mod_lt _ (by decide)
    by_cases hs : field sel.toNat 16 1 = 1
    · by_cases hneg : 2 ^ (m - 1) ≤ field a.toNat p m
      · have : ¬ field a.toNat p m < 2 ^ (m - 1) := by omega
        rw [if_neg (by simp [hs, this]), if_pos ⟨by simp [hs], hpos, hneg⟩]
        rfl
      · have : field a.toNat p m < 2 ^ (m - 1) := by omega
        rw [if_pos (by simp [this]), if_neg (fun h => hneg h.2.2)]
        exact BitVec.ofInt_natCast ..
    · have : field sel.toNat 16 1 = 0 := by omega
      rw [if_pos (by simp [this]), if_neg (by simp [hs])]
      exact BitVec.ofInt_natCast ..

/-! ### Interleavings -/

theorem bitNat_eq (x : Word) (i : Nat) : bitNat x i = (bitAt x i).toNat := by
  rw [bitAt, BitVec.getLsbD, Nat.toNat_testBit]
  rfl

/-- Groups of `k` bits, one after the other. -/
theorem sum_groups_eq (k : Nat) (g : Nat → List Bool) (hg : ∀ i, (g i).length = k) (n : Nat) :
    ((List.range n).map fun i => ofBitList (g i) * 2 ^ (k * i)).sum = ofBitList ((List.range n).flatMap g) := by
  have hlen (m : Nat) : ((List.range m).flatMap g).length = k * m := by
    simp [List.length_flatMap, hg, mul_comm]
  induction n with
  | zero => rfl
  | succ n ih =>
    rw [List.range_succ, List.map_append, List.sum_append, ih, List.flatMap_append, ofBitList_append, hlen]
    simp [mul_comm]

theorem sum_bits_eq (g : Nat → Bool) (n : Nat) :
    ((List.range n).map fun i => (g i).toNat * 2 ^ i).sum = ofBitList ((List.range n).map g) := by
  have h := sum_groups_eq 1 (fun i => [g i]) (fun _ => rfl) n
  simpa [ofBitList, List.map_eq_flatMap] using h

/-- The interleaved bits of two or three words (R352). -/
theorem interleave_eq (three : Bool) (x y z : Word) :
    interleave three x y z = ofBitList (if three
      then (List.range 10).flatMap fun i => [bitAt x i, bitAt y i, bitAt z i]
      else (List.range 16).flatMap fun i => [bitAt x i, bitAt y i]) := by
  cases three with
  | true =>
    have hterm (i : Nat) : bitNat x i * 2 ^ (3 * i) + bitNat y i * 2 ^ (3 * i + 1) + bitNat z i * 2 ^ (3 * i + 2) =
        ofBitList [bitAt x i, bitAt y i, bitAt z i] * 2 ^ (3 * i) := by
      simp only [bitNat_eq, ofBitList]; ring
    simp only [interleave, if_true, hterm]
    exact sum_groups_eq 3 _ (fun _ => rfl) 10
  | false =>
    have hterm (i : Nat) : bitNat x i * 2 ^ (2 * i) + bitNat y i * 2 ^ (2 * i + 1) =
        ofBitList [bitAt x i, bitAt y i] * 2 ^ (2 * i) := by
      simp only [bitNat_eq, ofBitList]; ring
    simp only [interleave, Bool.false_eq_true, if_false, hterm]
    exact sum_groups_eq 2 _ (fun _ => rfl) 16

/-- A component of interleaved bits (R352). -/
theorem deinterleave_eq (three : Bool) (x sel : Word) :
    deinterleave three x sel =
      let j := (sel.setWidth 2 : BitVec 2).toNat
      ofBitList (if three
        then (if j = 3 then [] else (List.range 10).map fun i => bitAt x (3 * i + j))
        else (if 2 ≤ j then [] else (List.range 16).map fun i => bitAt x (2 * i + j))) := by
  have hj : field sel.toNat 0 2 = (sel.setWidth 2 : BitVec 2).toNat := by simp [field]
  have hlt : (sel.setWidth 2 : BitVec 2).toNat < 4 := (sel.setWidth 2 : BitVec 2).isLt
  simp only [deinterleave, hj, bitNat_eq]
  generalize (sel.setWidth 2 : BitVec 2).toNat = j at hlt ⊢
  cases three with
  | true =>
    simp only [if_true, sum_bits_eq fun i => bitAt x (3 * i + j)]
    by_cases h : j = 3
    · simp [h, ofBitList]
    · rw [if_neg (by omega), if_neg h]
  | false =>
    simp only [Bool.false_eq_true, if_false, sum_bits_eq fun i => bitAt x (2 * i + j)]
    by_cases h : 2 ≤ j
    · simp [h, ofBitList]
    · rw [if_neg h, if_neg h]

/-! ### Ternary sums and predicates -/

/-- The four terms of a TACC (R422), from the codes of one word and the bytes of another. -/
theorem sum_ternary_eq (a b : Word) :
    ((List.range 4).map fun i => ternaryValue (field a.toNat (2 * i) 2) * byteInt false b i).sum =
      let code (i : Nat) : BitVec 2 := (a >>> (2 * i)).setWidth 2
      let term (i : Nat) : Int := if code i = 1 then byteOf false b i else if code i = 3 then -byteOf false b i else 0
      term 0 + term 1 + term 2 + term 3 := by
  have hterm (i : Nat) : ternaryValue (field a.toNat (2 * i) 2) * byteInt false b i =
      let code : BitVec 2 := (a >>> (2 * i)).setWidth 2
      if code = 1 then byteOf false b i else if code = 3 then -byteOf false b i else 0 := by
    have hc : field a.toNat (2 * i) 2 = ((a >>> (2 * i)).setWidth 2 : BitVec 2).toNat := by
      simp [field, Nat.shiftRight_eq_div_pow]
    simp only [byteInt_eq_byteOf, hc, ternaryValue]
    generalize ((a >>> (2 * i)).setWidth 2 : BitVec 2) = c
    have h1 : c.toNat = 1 ↔ c = 1 := by rw [← BitVec.toNat_inj]; rfl
    have h3 : c.toNat = 3 ↔ c = 3 := by rw [← BitVec.toNat_inj]; rfl
    simp only [h1, h3]
    split
    · simp
    · split <;> simp
  simp only [hterm, List.range, List.range.loop, List.map_cons, List.map_nil, List.sum_cons, List.sum_nil]
  ring

/-- An illegal code among the four of a TACC (R422). -/
theorem any_ternary_eq (a : Word) :
    ((List.range 4).any fun i => decide (field a.toNat (2 * i) 2 = 2)) =
      let code (i : Nat) : BitVec 2 := (a >>> (2 * i)).setWidth 2
      decide (code 0 = 2 ∨ code 1 = 2 ∨ code 2 = 2 ∨ code 3 = 2) := by
  have hcode (i : Nat) : decide (field a.toNat (2 * i) 2 = 2) = decide (((a >>> (2 * i)).setWidth 2 : BitVec 2) = 2) := by
    refine decide_eq_decide.mpr ?_
    rw [← BitVec.toNat_inj]
    simp [field, Nat.shiftRight_eq_div_pow]
  simp only [hcode, List.range, List.range.loop, List.any_cons, List.any_nil, Bool.or_false, Bool.decide_or]

/-- The predicates of a bead as a byte (R396). -/
theorem predByte_eq (r : Rod) (k : Nat) :
    (r.predByte k).toNat = ofBitList ((List.range 8).map fun p => r.pred k (BitVec.ofNat 3 p)) := by
  refine Nat.eq_of_testBit_eq fun i => ?_
  rw [testBit_ofBitList]
  by_cases hi : i < 8
  · have hget : ((List.range 8).map fun p => r.pred k (BitVec.ofNat 3 p)).getD i false = r.pred k (BitVec.ofNat 3 i) := by
      simp [List.getD, hi]
    rw [hget]
    show (r.predByte k).getLsbD i = _
    unfold Rod.predByte Rod.pred
    rw [BitVec.getLsbD_or]
    interval_cases i <;> simp [Bool.or_comm]
  · rw [Nat.testBit_lt_two_pow ((r.predByte k).isLt.trans_le (Nat.pow_le_pow_right (by decide) (by omega)))]
    simp [List.getD, hi]

/-! ### The table -/

/-- The counts, fields and interleavings compute the table's values (R336, R338, R348, R352, R394, R396, R422, R428). -/
theorem exec_of_fieldEffect {i : Instr} {x : Effect} (h : fieldEffect i = some x) (s : State) :
    exec i s = executeAlu i x.wide x.dst x.value s := by
  unfold fieldEffect at h
  split at h <;> cases h
  case h_1 f =>
    refine executeAlu_congr (fun r b => .of_eq ?_) s
    dsimp only
    rw [bitList_eq_lowBits, ← widthOf_eq_bitsOfWidth, length_takeWhile_lowBits _ _ (operand_lt r b f.w f.a)]
    rfl
  case h_2 f =>
    refine executeAlu_congr (fun r b => .of_eq ?_) s
    have hwidth : widthOf f.w + (64 - widthOf f.w) = 64 := by have := widthOf_le f.w; omega
    have hones := oneBits_add (64 - widthOf f.w) (operand_lt r b f.w f.a)
    rw [hwidth] at hones
    rw [hones, oneBits_eq]
    rfl
  case h_3 f =>
    refine executeAlu_congr (fun r b => .of_eq ?_) s
    rw [reverseBits_eq]
    rfl
  case h_4 f =>
    refine executeAlu_congr (fun r b => .of_eq ?_) s
    simp only [fieldAt_eq]
    rw [ofInt_extractField _ _ _ rfl rfl]
    rfl
  case h_5 f =>
    refine executeAlu_congr (fun r b => ?_) s
    have hw := widthOf_le f.w
    simp only [fieldAt_eq]
    refine ⟨Nat.eq_of_testBit_eq fun i => ?_, rfl⟩
    simp only [plain, bare, Nat.testBit_mod_two_pow, BitVec.toNat_ofNat]
    rw [testBit_insertField _ _ _ _ _ _ _ rfl rfl, testBit_ofBitList]
    by_cases hi : i < widthOf f.w
    · have hi64 : i < 64 := by omega
      simp [List.getD, hi, hi64, BitVec.getLsbD]
      rfl
    · simp [hi]
  case h_6 f =>
    refine executeAlu_congr (fun r b => .of_eq ?_) s
    rw [interleave_eq]
    rfl
  case h_7 f =>
    refine executeAlu_congr (fun r b => .of_eq ?_) s
    rw [deinterleave_eq]
    rfl
  case h_8 f =>
    refine executeAlu_congr (fun r b => .of_eq ?_) s
    have hj : field (r.word b f.b).toNat 0 3 = ((r.word b f.b).setWidth 3 : BitVec 3).toNat := by simp [field]
    simp only [hj]
  case h_9 f =>
    refine executeAlu_congr (fun r b => ?_) s
    simp only [int_eq_reading, sum_ternary_eq, any_ternary_eq]
    obtain ⟨hval, hcond⟩ := sameResult_fit f.s false false (reading r b false false f.d + _)
    exact ⟨hval, congrArg (· ||| _) hcond⟩
  case h_10 f =>
    refine executeAlu_congr (fun r b => .of_eq ?_) s
    dsimp only
    rw [← predByte_eq]
    exact congrArg plain (BitVec.eq_of_toNat_eq (by simp))

end Sys2Proof.Claims
end

section
/-!
The bitwise table, and what every value instruction of the tables shares: it computes its table's value for each part
from that part's bead alone.
-/

namespace Sys2Proof.Claims

open Sys2Proof.Machine

/-! ### Shifts and moves -/

theorem count_eq_shiftCount (r : Rod) (b : Option Nat) (g : BitVec 7) : r.count b g = shiftCount r b g := by
  simp [Rod.count, shiftCount, field]

/-- An arithmetic shift right divides by the power of two, rounding down; from the width up only the sign is left (R414). -/
theorem sshiftRight_toInt_min {n : Nat} (x : BitVec n) (c : Nat) : (x.sshiftRight c).toInt = x.toInt / 2 ^ min c n := by
  rw [BitVec.toInt_sshiftRight, Int.shiftRight_eq_div_pow]
  rcases le_total c n with h | h
  · rw [min_eq_left h]; push_cast; rfl
  · rw [min_eq_right h]
    have hlo := BitVec.le_two_mul_toInt (x := x)
    have hhi := BitVec.two_mul_toInt_lt (x := x)
    have hpow : (2 : Int) ^ n ≤ 2 ^ c := pow_le_pow_right₀ (by decide) h
    have hpos : (0 : Int) < 2 ^ n := by positivity
    push_cast
    by_cases hneg : x.toInt < 0
    · rw [Int.ediv_eq_neg_one_of_neg_of_le hneg (by omega), Int.ediv_eq_neg_one_of_neg_of_le hneg (by omega)]
    · rw [Int.ediv_eq_zero_of_lt (by omega) (by omega), Int.ediv_eq_zero_of_lt (by omega) (by omega)]

theorem bitsOfInt_toInt {n : Nat} (x : BitVec n) : bitsOfInt n x.toInt = x.toNat := by
  rw [bitsOfInt, ← BitVec.toNat_ofInt, BitVec.ofInt_toInt]

/-- SRA (R414). -/
theorem sameResult_shiftArith (w : Bool) {x : Dword} (c : Nat) (hx : x.toNat < 2 ^ widthOf w) :
    SameResult w (plain (shiftArith w x c)) (bare (arithmetic w x c)) := by
  refine ⟨?_, rfl⟩
  simp only [plain, bare, shiftArith, ofInt_mod_width]
  cases w with
  | true =>
    have hint : intOf 64 false x.toNat = x.toInt := intOf_eq_toInt (by decide) x
    show bitsOfInt 64 (intOf 64 false x.toNat / ((2 ^ min c 64 : Nat) : Int)) = (x.sshiftRight c).toNat % 2 ^ 64
    rw [hint, Nat.cast_pow, Nat.cast_ofNat, ← sshiftRight_toInt_min, bitsOfInt_toInt, Nat.mod_eq_of_lt (BitVec.isLt _)]
  | false =>
    have hlt : x.toNat < 2 ^ 32 := hx
    have hint : intOf 32 false x.toNat = (x.setWidth 32 : Word).toInt := by
      rw [← intOf_eq_toInt (by decide), BitVec.toNat_setWidth, Nat.mod_eq_of_lt hlt]
    show bitsOfInt 32 (intOf 32 false x.toNat / ((2 ^ min c 32 : Nat) : Int)) =
      (((x.setWidth 32 : Word).sshiftRight c).setWidth 64).toNat % 2 ^ 32
    rw [hint, Nat.cast_pow, Nat.cast_ofNat, ← sshiftRight_toInt_min, bitsOfInt_toInt, BitVec.toNat_setWidth_of_le (by decide),
      Nat.mod_eq_of_lt (BitVec.isLt _)]

/-- MOVHI (R389). -/
theorem movhi_eq (x : Word) (i : BitVec 17) :
    field x.toNat 0 15 + 2 ^ 15 * i.toNat = ((x &&& 0x7FFF) ||| (i.setWidth 32 <<< 15)).toNat := by
  have hlow : field x.toNat 0 15 = x.toNat % 2 ^ 15 := field_zero ..
  have hi := i.isLt
  have hmask : x.toNat &&& ((0x7FFF : Nat) : Word).toNat = x.toNat % 2 ^ 15 := Nat.and_two_pow_sub_one_eq_mod x.toNat 15
  have hhigh : (i.setWidth 32 <<< 15 : Word).toNat = 2 ^ 15 * i.toNat := by
    rw [BitVec.toNat_shiftLeft, BitVec.toNat_setWidth, Nat.shiftLeft_eq]
    omega
  rw [hlow, BitVec.toNat_or, BitVec.toNat_and, hmask, hhigh, Nat.or_comm, add_comm]
  exact Nat.two_pow_add_eq_or_of_lt (i := 15) (Nat.mod_lt _ (by decide)) i.toNat

/-- The bitwise instructions compute the table's values (R331, R387 to R389, R391, R408, R412, R414, R437). -/
theorem exec_of_bitwiseEffect {i : Instr} {x : Effect} (h : bitwiseEffect i = some x) (s : State) :
    exec i s = executeAlu i x.wide x.dst x.value s := by
  unfold bitwiseEffect at h
  split at h <;> cases h
  case h_8 | h_10 =>
    refine executeAlu_congr (fun r b => .of_eq ?_) s
    simp only [count_eq_shiftCount]
    rfl
  case h_12 =>
    refine executeAlu_congr (fun r b => ?_) s
    rw [count_eq_shiftCount]
    exact sameResult_shiftArith _ _ (operand_lt ..)
  case h_13 => exact executeAlu_congr (fun r b => sameResult_shiftArith _ _ (operand_lt ..)) s
  case h_15 => exact executeAlu_congr (fun r b => .of_eq (by cases b <;> rfl)) s
  case h_18 f =>
    refine executeAlu_congr (fun r b => .of_eq ?_) s
    rw [movhi_eq, BitVec.ofNat_toNat]
    rfl
  all_goals rfl

end Sys2Proof.Claims
end

section
/-!
What the value instructions of every table share: a part's value depends on its own bead, the destination of one that is
not uniform is a v register, and none is a commit point.
-/

namespace Sys2Proof.Machine

/-! ### What else a bead reads is the same -/

theorem Rod.SameFor.fenv {r q : Rod} {k : Nat} (h : r.SameFor q k) (rounding : BitVec 3) (x y z : Word) :
    q.fenv (some k) rounding x y z = r.fenv (some k) rounding x y z := h.env ..

theorem Rod.SameFor.fread {r q : Rod} {k : Nat} (h : r.SameFor q k) (fmt : Fmt) (g : BitVec 7) :
    q.fread fmt (some k) g = r.fread fmt (some k) g := by
  rw [Rod.fread, Rod.fread, h.fenv, h.word]

theorem Rod.SameFor.float2 {r q : Rod} {k : Nat} (h : r.SameFor q k) (op : Fmt → Env → Val → Val → Nat × Conds) (fmt : Fmt)
    (f : ShFlt) : float2 op fmt f q (some k) = float2 op fmt f r (some k) := by
  simp only [Machine.float2, h.fenv, h.fread, h.word]

theorem Rod.SameFor.float1 {r q : Rod} {k : Nat} (h : r.SameFor q k) (op : Fmt → Env → Val → Nat × Conds) (fmt : Fmt)
    (f : ShFltUn) : float1 op fmt f q (some k) = float1 op fmt f r (some k) := by
  simp only [Machine.float1, h.fenv, h.fread, h.word]

theorem Rod.SameFor.floatFma {r q : Rod} {k : Nat} (h : r.SameFor q k) (fmt : Fmt) (f : ShFlt) :
    floatFma fmt f q (some k) = floatFma fmt f r (some k) := by
  simp only [Machine.floatFma, h.fenv, h.fread, h.word]

theorem Rod.SameFor.packedFma {r q : Rod} {k : Nat} (h : r.SameFor q k) (fmt : Fmt) (f : ShFlt) :
    packedFma fmt f q (some k) = packedFma fmt f r (some k) := by
  simp only [Machine.packedFma, h.env, h.word]

/-- A legal word keeps the rules on registers (R76). -/
theorem operandKindOk_of_legal {i : Instr} (h : i.illegal? = none) : operandKindOk i = true := by
  unfold Instr.illegal? at h
  split at h
  · cases h
  · split at h
    · cases h
    · next hk => simpa using hk

/-- A destination that is no s register's is a v register's. -/
theorem isS_of_isV {d : BitVec 7} (h : isV d = true) : isS d = false := by
  simp only [isV, isS, decide_eq_true_eq, decide_eq_false_iff_not] at *
  omega

theorem isS_of_okDst {u : Bool} {n : Nat} {d : BitVec 7} (h : okDst u n d = true) : isS d = u := by
  cases u with
  | true => simpa [okDst] using h
  | false => exact isS_of_isV (by simpa [okDst] using (Bool.and_eq_true_iff.mp (by simpa [okDst] using h)).1)

end Sys2Proof.Machine

namespace Sys2Proof.Claims

open Sys2Proof.Machine

/-- The instruction computes the values of an effect: each part's from its own bead, into an s register when it is uniform and
else into v registers, and it is no commit point. -/
structure Computes (i : Instr) (x : Effect) : Prop where
  exec : ∀ s, exec i s = executeAlu i x.wide x.dst x.value s
  local_ : ∀ {r q : Rod} {k : Nat}, r.SameFor q k → x.value q (some k) = x.value r (some k)
  once : ∀ r : Rod, x.value r.leave none = x.value r none
  dst : operandKindOk i = true → isS x.dst = uniform i
  plain : commits i = false

theorem reading_of_sameFor {r q : Rod} {k : Nat} (h : r.SameFor q k) (n w : Bool) (g : BitVec 7) :
    reading q (some k) n w g = reading r (some k) n w g := by
  rw [← int_eq_reading, ← int_eq_reading, h.int]

theorem computes_of_integerEffect {i : Instr} {x : Effect} (h : integerEffect i = some x) : Computes i x := by
  have hexec := exec_of_integerEffect h
  unfold integerEffect at h
  split at h <;> cases h
  all_goals
    refine ⟨hexec, fun hq => ?_, fun _ => rfl, fun hk => ?_, rfl⟩
    · simp only [reading_of_sameFor hq, hq.word]
    · simp only [operandKindOk, ok3, ok2, Bool.and_eq_true, and_assoc] at hk
      exact isS_of_okDst hk.1

theorem computes_of_bitwiseEffect {i : Instr} {x : Effect} (h : bitwiseEffect i = some x) : Computes i x := by
  have hexec := exec_of_bitwiseEffect h
  unfold bitwiseEffect at h
  split at h <;> cases h
  case h_17 | h_18 =>
    exact ⟨hexec, fun hq => by simp only [hq.word], fun _ => rfl, isS_of_okDst, rfl⟩
  all_goals
    refine ⟨hexec, fun hq => ?_, fun _ => rfl, fun hk => ?_, rfl⟩
    · simp only [shiftCount, hq.word, hq.operand, hq.pred]
    · simp only [operandKindOk, ok3, ok2, Bool.and_eq_true, and_assoc] at hk
      exact isS_of_okDst hk.1

theorem computes_of_fieldEffect {i : Instr} {x : Effect} (h : fieldEffect i = some x) : Computes i x := by
  have hexec := exec_of_fieldEffect h
  unfold fieldEffect at h
  split at h <;> cases h
  case h_10 =>
    exact ⟨hexec, fun hq => by simp only [beadNo, Option.getD_some, hq.pred], fun _ => rfl, isS_of_isV, rfl⟩
  all_goals
    refine ⟨hexec, fun hq => ?_, fun _ => rfl, fun hk => ?_, rfl⟩
    · simp only [reading_of_sameFor hq, hq.word, hq.operand]
    · simp only [operandKindOk, ok3, ok2, Bool.and_eq_true, and_assoc] at hk
      exact isS_of_okDst hk.1

theorem computes_of_floatEffect {i : Instr} {x : Effect} (h : floatEffect i = some x) : Computes i x := by
  have hexec := exec_of_floatEffect h
  unfold floatEffect at h
  split at h <;> cases h
  all_goals
    refine ⟨hexec, fun hq => ?_, fun _ => rfl, fun hk => ?_, rfl⟩
    · simp only [hq.float2, hq.float1, hq.floatFma, hq.packedFma, hq.fenv, hq.fread, hq.word]
    · simp only [operandKindOk, ok3, ok2, Bool.and_eq_true, and_assoc] at hk
      exact isS_of_okDst hk.1

theorem computes_of_convertEffect {i : Instr} {x : Effect} (h : convertEffect i = some x) : Computes i x := by
  have hexec := exec_of_convertEffect h
  unfold convertEffect at h
  split at h <;> cases h
  all_goals
    refine ⟨hexec, fun hq => ?_, fun _ => rfl, fun hk => ?_, rfl⟩
    · simp only [reading_of_sameFor hq, hq.fenv, hq.fread, hq.env, hq.word, hq.dword, hq.operand]
    · simp only [operandKindOk, ok3, ok2, Bool.and_eq_true, and_assoc] at hk
      exact isS_of_okDst hk.1

end Sys2Proof.Claims
end

section
/-!
An instruction whose effect is one turn for each bead: a turn checks its conditions and then writes, and the first turn that
raises an enabled one ends the instruction with the arithmetic trap (R34, R51, R350).
-/

namespace Sys2Proof.Machine

/-! ### Turns of beads -/

/-- An enabled condition is the breakpoint fault with cause arithmetic, and nothing is written (R51, R350). -/
theorem RM.conditions_error {b : Option Nat} {c : Conds} {q : Rod} (h : c &&& trapEnables q.mode ≠ 0) :
    RM.conditions b c q = (.error (.trap 3 4 b 0 (highestCond (c &&& trapEnables q.mode))), q) := by
  simp only [RM.conditions]
  rw [RM.bind_ok (RM.get_apply q)]
  simp only [h, ne_eq, not_false_eq_true, if_true]
  rfl

theorem RM.bind_error {α β : Type} {m : RM α} {f : α → RM β} {r t : Rod} {e : Stop} (h : m r = (.error e, t)) :
    (m >>= f) r = (.error e, t) := by
  rw [RM.bind_apply, h]

/-- A part checks the conditions that it raises and then writes. -/
def RM.turn (b : Option Nat) (c : Conds) (g : Rod → Rod) : RM Unit := do
  RM.conditions b c
  modify g

theorem RM.turn_ok {b : Option Nat} {c : Conds} {q : Rod} (g : Rod → Rod) (h : c &&& trapEnables q.mode = 0) :
    RM.turn b c g q = (.ok (), g (q.stick c)) := by
  rw [RM.turn, RM.bind_ok (RM.conditions_apply h)]
  rfl

theorem RM.turn_error {b : Option Nat} {c : Conds} {q : Rod} (g : Rod → Rod) (h : c &&& trapEnables q.mode ≠ 0) :
    RM.turn b c g q = (.error (.trap 3 4 b 0 (highestCond (c &&& trapEnables q.mode))), q) :=
  RM.bind_error (RM.conditions_error h)

/-- The rod after the turns of some beads. -/
def Rod.turned (c : Nat → Conds) (g : Nat → Rod → Rod) (q : Rod) (ks : List Nat) : Rod :=
  ks.foldl (fun y k => g k (y.stick (c k))) q

section
variable {r : Rod} {c : Nat → Conds} {g : Nat → Rod → Rod} {body : Nat → RM Unit}

/-- Turns of other beads leave a bead's own state as it was. -/
theorem Rod.SameFor.turned (hset : ∀ q j k, r.SameFor q k → j ≠ k → r.SameFor (g j q) k) {k : Nat} :
    ∀ {ks : List Nat} {q : Rod}, r.SameFor q k → k ∉ ks → r.SameFor (q.turned c g ks) k
  | [], _, h, _ => h
  | j :: ks, q, h, hk => by
    rw [List.mem_cons, not_or] at hk
    exact Rod.SameFor.turned hset (q := g j (q.stick (c j))) (hset _ j k (h.stick _) (Ne.symm hk.1)) hk.2

/-- Turns none of which raises an enabled condition all write. -/
theorem RM.forM_turns_ok (hbody : ∀ q k, r.SameFor q k → body k q = RM.turn (some k) (c k) (g k) q)
    (hset : ∀ q j k, r.SameFor q k → j ≠ k → r.SameFor (g j q) k) :
    ∀ (ks : List Nat) (q : Rod), ks.Nodup → (∀ k ∈ ks, r.SameFor q k) → (∀ k ∈ ks, c k &&& trapEnables r.mode = 0) →
      ks.forM body q = (.ok (), q.turned c g ks)
  | [], _, _, _, _ => rfl
  | k :: ks, q, hn, hs, ht => by
    obtain ⟨hk, hn⟩ := List.nodup_cons.mp hn
    have hq := hs k List.mem_cons_self
    have hturn : body k q = (.ok (), g k (q.stick (c k))) := by
      rw [hbody q k hq]
      exact RM.turn_ok _ (by rw [trapEnables_control hq.control]; exact ht k List.mem_cons_self)
    rw [RM.forM_cons, RM.bind_ok hturn]
    refine RM.forM_turns_ok hbody hset ks _ hn (fun j hj => ?_) fun j hj => ht j (List.mem_cons_of_mem k hj)
    exact hset _ k j ((hs j (List.mem_cons_of_mem k hj)).stick _) fun e => hk (e ▸ hj)

theorem RM.forM_append_ok {xs ys : List Nat} {q t : Rod} (h : xs.forM body q = (.ok (), t)) :
    (xs ++ ys).forM body q = ys.forM body t := by
  have hsplit : (xs ++ ys).forM body = (xs.forM body >>= fun _ => ys.forM body) := List.forM_append
  rw [hsplit, RM.bind_ok h]

/-- The first turn that raises an enabled condition ends the instruction; the turns before it have written. -/
theorem RM.forM_turns_error (hbody : ∀ q k, r.SameFor q k → body k q = RM.turn (some k) (c k) (g k) q)
    (hset : ∀ q j k, r.SameFor q k → j ≠ k → r.SameFor (g j q) k) {pre ks : List Nat} {k : Nat} {q : Rod}
    (hn : (pre ++ k :: ks).Nodup) (hs : ∀ j ∈ pre ++ k :: ks, r.SameFor q j)
    (hpre : ∀ j ∈ pre, c j &&& trapEnables r.mode = 0) (hk : c k &&& trapEnables r.mode ≠ 0) :
    (pre ++ k :: ks).forM body q =
      (.error (.trap 3 4 (some k) 0 (highestCond (c k &&& trapEnables r.mode))), q.turned c g pre) := by
  obtain ⟨hnpre, -, hdisj⟩ := List.nodup_append.mp hn
  have hfirst := RM.forM_turns_ok hbody hset pre q hnpre (fun j hj => hs j (List.mem_append_left _ hj)) hpre
  have hsame : r.SameFor (q.turned c g pre) k :=
    (hs k (List.mem_append_right _ List.mem_cons_self)).turned hset fun h => hdisj k h k List.mem_cons_self rfl
  have hmode := trapEnables_control hsame.control
  rw [RM.forM_append_ok hfirst, RM.forM_cons]
  refine RM.bind_error ?_
  rw [hbody _ k hsame, RM.turn_error _ (by rwa [hmode]), hmode]

end

theorem Rod.SameFor.setVgroup {r q : Rod} {j k : Nat} (d : BitVec 7) (xs : List Word) (h : r.SameFor q k) (hj : j ≠ k) :
    r.SameFor (q.setVgroup j d xs) k := by
  induction xs generalizing q d with
  | nil => exact h
  | cons x xs ih => exact ih _ (h.modBead _ hj)

/-! ### The trap -/

/-- A fault that the rod raises in its effect on itself is settled on the rod as the effect has left it. -/
theorem execute_onRod_error {i : Instr} {m : RM Unit} {s : State} {r q : Rod} {e : Stop} (h : s.curRod? = some r)
    (hl : i.illegal? = none) (hc : commits i = false) (hr : (regGroups i).any r.beyond = false) (hp : pastLastS i = false)
    (hm : m r.leave = (.error e, q)) (hq : q.uid = r.uid) :
    execute i (onRod m) s = .next (((s.setRod q).settle r.uid e).tick (r.cyclesOf (onceOnly i) (.error e))) := by
  have h1 : (s.setRod r.leave).curRod? = some r.leave := State.curRod?_setRod h rfl
  have hbody : passing i (onRod m) (s.setRod r.leave) = (.error e, s.setRod q) := by
    unfold passing
    rw [M.bind_ok (M.inAllocation_apply h1 hr hp)]
    refine M.bind_error ?_
    rw [onRod_apply m h1, hm, State.setRod_setRod s r.leave q hq]
  unfold execute
  rw [issue_plain h hl hc, hbody]

/-- The arithmetic trap enters the handler at the faulting instruction (R288, R350). -/
theorem State.takeTrap_arithmetic {s : State} {q : Rod} (h : s.rod? q.uid = some q) (b : Option Nat) (code : Nat) :
    s.takeTrap q.uid 3 4 b 0 code = s.enterHandler q.uid 3 4 (beadNo b) (q.faultBead b) 0 code q.pc := by
  unfold State.takeTrap
  rw [h]
  simp [fatalClass]

end Sys2Proof.Machine

namespace Sys2Proof.Claims

open Sys2Proof.Machine

section
variable {s : State} {r : Rod} {i : Instr}

/-- The rod's effect ends with the arithmetic trap at a part, the rod being where and as it was. -/
theorem execute_arithmeticTrap {m : RM Unit} {q : Rod} {b : Option Nat} {c : Conds} (h : Issues s r i)
    (hc : commits i = false) (hm : m r.leave = (.error (.trap 3 4 b 0 (highestCond (c &&& trapEnables r.mode))), q))
    (hrest : q = { r with s := q.s, beads := q.beads, mode := q.mode, atLive := q.atLive }) :
    execute i (onRod m) s = .next (arithmeticTrap s r q b c i) := by
  have huid : q.uid = r.uid := by rw [hrest]
  have hpc : q.pc = r.pc := by rw [hrest]
  have hbead : q.faultBead b = r.faultBead b := by rw [hrest]; rfl
  have hrod : (s.setRod q).rod? q.uid = some q :=
    State.rod?_setRod (by rw [huid]; exact (State.curRod?_eq h.cur).2)
  rw [execute_onRod_error h.cur h.legal hc h.inside h.whole hm huid]
  have htrap := State.takeTrap_arithmetic hrod b (highestCond (c &&& trapEnables r.mode))
  rw [huid, hpc, hbead] at htrap
  simp only [State.settle, htrap]
  rfl

/-- Turns of beads change no more of the rod than its beads, its sticky flags and its save point. -/
theorem turned_rest {c : Nat → Conds} {g : Nat → Rod → Rod} {pre ks : List Nat} {k : Nat}
    (hset : ∀ q j k, r.SameFor q k → j ≠ k → r.SameFor (g j q) k) (hi : r.issuing = pre ++ k :: ks) :
    r.leave.turned c g pre = { r with
      beads := (r.leave.turned c g pre).beads, mode := (r.leave.turned c g pre).mode
      atLive := (r.leave.turned c g pre).atLive } := by
  have hn := r.issuing_nodup
  rw [hi] at hn
  have hk : k ∉ pre := fun h => (List.nodup_append.mp hn).2.2 k h k List.mem_cons_self rfl
  exact ((Rod.SameFor.leave r k).turned hset hk).rest

/-- A bead of an instruction that is a turn for each issuing bead raises an enabled condition, and those before it none. -/
theorem executeBeads_arithmeticTrap {f : Option Nat → RM Unit} {c : Nat → Conds} {g : Nat → Rod → Rod} {pre ks : List Nat}
    {k : Nat} (h : Issues s r i) (hc : commits i = false) (hu : uniform i = false)
    (hbody : ∀ q k, r.SameFor q k → f (some k) q = RM.turn (some k) (c k) (g k) q)
    (hset : ∀ q j k, r.SameFor q k → j ≠ k → r.SameFor (g j q) k) (hi : r.issuing = pre ++ k :: ks)
    (hpre : ∀ j ∈ pre, c j &&& trapEnables r.mode = 0) (hk : c k &&& trapEnables r.mode ≠ 0) :
    executeBeads i f s = .next (arithmeticTrap s r (r.leave.turned c g pre) (some k) (c k) i) := by
  refine execute_arithmeticTrap h hc ?_ (by rw [turned_rest hset hi])
  have hn := r.issuing_nodup
  have hall : ∀ j ∈ r.issuing, r.SameFor r.leave j := fun j _ => Rod.SameFor.leave r j
  rw [hi] at hn hall
  unfold RM.each
  rw [RM.bind_ok (RM.get_apply _), hu]
  show r.issuing.forM (fun k => f (some k)) r.leave = _
  rw [hi]
  exact RM.forM_turns_error hbody hset hn hall hpre hk

/-- A value instruction of which a part raises an enabled condition (R51, R350). -/
theorem executeAlu_arithmeticTrap {x : Effect} {pre bs : List (Option Nat)} {b : Option Nat} (hx : Computes i x)
    (h : Issues s r i) (hp : r.parts (uniform i) = pre ++ b :: bs)
    (hpre : ∀ a ∈ pre, (x.value r a).2 &&& trapEnables r.mode = 0) (hb : (x.value r b).2 &&& trapEnables r.mode ≠ 0) :
    exec i s = .next (arithmeticTrap s r
      (pre.foldl (fun q a => (q.stick (x.value r a).2).setOperand a x.wide x.dst (x.value r a).1) r.leave) b (x.value r b).2 i) := by
  have hdst := hx.dst (operandKindOk_of_legal h.legal)
  rw [hx.exec]
  cases hu : uniform i with
  | true =>
    obtain ⟨rfl, rfl, rfl⟩ : pre = [] ∧ b = none ∧ bs = [] := by
      rw [hu] at hp
      cases pre with
      | nil => simpa [Rod.parts, eq_comm] using hp
      | cons a pre => simp [Rod.parts] at hp
    refine execute_arithmeticTrap h hx.plain ?_ rfl
    unfold RM.each
    rw [RM.bind_ok (RM.get_apply _), hu, if_pos rfl]
    refine (RM.bind_ok (RM.get_apply r.leave)).trans ?_
    rw [hx.once]
    exact RM.bind_error (RM.conditions_error (q := r.leave) hb)
  | false =>
    rw [hu] at hp hdst
    obtain ⟨ks, l, hi, rfl, hl⟩ := List.map_eq_append_iff.mp (show r.issuing.map some = pre ++ b :: bs from hp)
    obtain ⟨k, l, rfl, rfl, rfl⟩ := List.map_eq_cons_iff.mp hl
    rw [List.foldl_map]
    refine executeBeads_arithmeticTrap (c := fun k => (x.value r (some k)).2)
      (g := fun k q => q.setOperand (some k) x.wide x.dst (x.value r (some k)).1) h hx.plain hu (fun q j hq => ?_)
      (fun q j k hq hj => hq.setOperand x.wide _ hdst hj) hi (fun j hj => hpre _ (List.mem_map_of_mem hj)) hb
    rw [RM.bind_ok (RM.get_apply q), hx.local_ hq]
    rfl

/-- The compares and predicate moves compute the truth values of their table, each from its own bead (R360, R374, R392,
R393). -/
structure ComputesPred (i : Instr) (p : BitVec 3) (v : Rod → Nat → Bool × Conds) : Prop where
  exec : ∃ f : Rod → Option Nat → Bool × Conds, (∀ r k, f r (some k) = v r k) ∧ ∀ s, exec i s = executePred i p f s
  local_ : ∀ {r q : Rod} {k : Nat}, r.SameFor q k → v q k = v r k
  beads : uniform i = false
  plain : commits i = false

theorem computesPred_of_predicateEffect {p : BitVec 3} {v : Rod → Nat → Bool × Conds} (h : predicateEffect i = some (p, v)) :
    ComputesPred i p v := by
  unfold predicateEffect at h
  split at h <;> cases h
  case h_1 | h_2 =>
    exact ⟨⟨_, fun r k => by simp only [← int_eq_reading], fun s => rfl⟩,
      fun hq => by simp only [reading_of_sameFor hq], rfl, rfl⟩
  case h_3 => exact ⟨⟨_, fun r k => rfl, fun s => rfl⟩, fun hq => by simp only [hq.fread], rfl, rfl⟩
  case h_4 | h_6 => exact ⟨⟨_, fun r k => rfl, fun s => rfl⟩, fun hq => by simp only [hq.pred], rfl, rfl⟩
  case h_5 f =>
    refine ⟨⟨_, fun r k => ?_, fun s => rfl⟩, fun hq => by simp only [hq.word], rfl, rfl⟩
    rw [BitVec.getLsbD, Nat.testBit_eq_decide_div_mod_eq]
    rfl

/-- A compare of which a bead raises an enabled condition (R51, R360). -/
theorem executePred_arithmeticTrap {p : BitVec 3} {v : Rod → Nat → Bool × Conds} {pre ks : List Nat} {k : Nat}
    (hx : ComputesPred i p v) (h : Issues s r i) (hi : r.issuing = pre ++ k :: ks)
    (hpre : ∀ j ∈ pre, (v r j).2 &&& trapEnables r.mode = 0) (hk : (v r k).2 &&& trapEnables r.mode ≠ 0) :
    exec i s = .next (arithmeticTrap s r (pre.foldl (fun q a => (q.stick (v r a).2).setPred a p (v r a).1) r.leave) (some k)
      (v r k).2 i) := by
  obtain ⟨f, hf, hexec⟩ := hx.exec
  rw [hexec]
  refine executeBeads_arithmeticTrap (c := fun k => (v r k).2) (g := fun k q => q.setPred k p (v r k).1) h hx.plain hx.beads
    (fun q j hq => ?_) (fun q j k hq hj => hq.setPred p _ hj) hi hpre hk
  rw [RM.bind_ok (RM.get_apply q), hf, hx.local_ hq]
  rfl

/-! ### Blocks -/

theorem quantiseBlock_congr (fam : Family) (tag : Nat) {env env' : Nat → Env} (xs : List Val) (h : ∀ i < 32, env i = env' i) :
    quantiseBlock fam tag env xs = quantiseBlock fam tag env' xs := by
  have hmap (f : Nat → Env → Nat × Conds) :
      (List.range 32).map (fun i => f i (env i)) = (List.range 32).map fun i => f i (env' i) :=
    List.map_congr_left fun i hi => by rw [h i (List.mem_range.mp hi)]
  unfold quantiseBlock
  split
  · rfl
  · exact congrArg (fun ys : List (Nat × Conds) => (ys.map Prod.fst, _, ys.foldl (fun c y => c ||| y.2) 0))
      (hmap fun i e => match (nth (.fin false 0 1) xs i).scale _ with
        | .fin neg n d => fam.quantise e neg n d
        | _ => (0, 0))

theorem nth_map_range {α : Type} (d : α) (f : Nat → α) {n i : Nat} (h : i < n) : nth d ((List.range n).map f) i = f i :=
  nth_of_getElem? d (by simp [h])

theorem blockFamily_of_sameFor {q : Rod} {k : Nat} (h : r.SameFor q k) : q.blockFamily = r.blockFamily := by
  rw [Rod.blockFamily, Rod.blockFamily, h.fmt]

/-- What the model computes for a bead's QBLK (R108, R397). -/
theorem quantiseBlock_eq_quantisedBy {f : ShRDA} {fam : Family} {tag k : Nat} {q : Rod} (hq : r.SameFor q k) :
    quantiseBlock fam tag (fun i => q.env (some k) f.r (nth 0 (q.vgroup k f.a 32) i).toNat 0 0 i)
      ((q.vgroup k f.a 32).map fun x => Fmt.f32.read (q.env (some k) f.r (nth 0 (q.vgroup k f.a 32) 0).toNat 0 0 0) x.toNat) =
      quantisedBy r f fam tag k := by
  have hgroup : q.vgroup k f.a 32 = (List.range 32).map fun i => r.vreg k (next f.a i) := by
    simp only [Rod.vgroup, hq.vreg]
  have hnth {i : Nat} (hi : i < 32) : nth 0 (q.vgroup k f.a 32) i = r.vreg k (next f.a i) := by
    rw [hgroup, nth_map_range _ _ hi]
  rw [quantiseBlock_congr fam tag _ fun i hi => by rw [hnth hi, hq.env], hnth (by decide), hq.env, hgroup, List.map_map]
  rfl

/-- A QBLK of which a bead raises an enabled condition. -/
theorem qblk_arithmeticTrap {f : ShRDA} {w tag : Nat} {fam : Family} {pre ks : List Nat} {k : Nat}
    (h : Issues s r (.qblk f)) (hfam : r.blockFamily = some (w, tag, fam)) (hi : r.issuing = pre ++ k :: ks)
    (hpre : ∀ a ∈ pre, (quantisedBy r f fam tag a).2.2 &&& trapEnables r.mode = 0)
    (hk : (quantisedBy r f fam tag k).2.2 &&& trapEnables r.mode ≠ 0) :
    exec (.qblk f) s = .next (arithmeticTrap s r (pre.foldl (fun y a => tookCodes f w (quantisedBy r f fam tag a) a y) r.leave)
      (some k) (quantisedBy r f fam tag k).2.2 (.qblk f)) := by
  refine executeBeads_arithmeticTrap (c := fun k => (quantisedBy r f fam tag k).2.2)
    (g := fun k y => y.setVgroup k f.d (wordsOfNat 8 (packCodes w (quantisedBy r f fam tag k).1) ++
      [BitVec.ofNat 32 (quantisedBy r f fam tag k).2.1])) h rfl rfl
    (fun q j hq => ?_) (fun q j k hq hj => hq.setVgroup _ _ hj) hi hpre hk
  rw [RM.bind_ok (RM.get_apply q), blockFamily_of_sameFor hq, hfam, ← quantiseBlock_eq_quantisedBy hq]
  rfl

/-- What the model computes for a bead's DQBLK, as its claim writes it (R97, R109, R354). -/
theorem dequantised_eq_dequantisedBy {f : ShRDA} {w k : Nat} {q : Rod} (hq : r.SameFor q k) :
    let src := q.vgroup k f.a 9
    let block := decodeBlock w (natOfWords (src.take w)) (field (nth 0 src 8).toNat 0 16)
    let ys := (List.range 32).map fun i =>
      dequantised (q.env (some k) f.r (nth 0 src (w * i / 32)).toNat (nth 0 src 8).toNat 0 i) (nth (.fin false 0 1) block.1 i)
    (ys.map fun y => BitVec.ofNat 32 y.1, ys.foldl (fun c y => c ||| y.2) block.2) = dequantisedBy r f w k := by
  have hgroup : q.vgroup k f.a 9 = (List.range 9).map fun i => r.vreg k (next f.a i) := by
    simp only [Rod.vgroup, hq.vreg]
  simp only [hgroup, field_zero, hq.env]
  rfl

/-- A DQBLK of which a bead raises an enabled condition. -/
theorem dqblk_arithmeticTrap {f : ShRDA} {w : Nat} {pre ks : List Nat} {k : Nat} (h : Issues s r (.dqblk f))
    (hw : blockWidth (field r.fmt.toNat 8 3) = some w) (hi : r.issuing = pre ++ k :: ks)
    (hpre : ∀ a ∈ pre, (dequantisedBy r f w a).2 &&& trapEnables r.mode = 0)
    (hk : (dequantisedBy r f w k).2 &&& trapEnables r.mode ≠ 0) :
    exec (.dqblk f) s = .next (arithmeticTrap s r (pre.foldl (fun y a => tookValues f (dequantisedBy r f w a) a y) r.leave)
      (some k) (dequantisedBy r f w k).2 (.dqblk f)) := by
  refine executeBeads_arithmeticTrap (c := fun k => (dequantisedBy r f w k).2)
    (g := fun k y => y.setVgroup k f.d (dequantisedBy r f w k).1) h rfl rfl
    (fun q j hq => ?_) (fun q j k hq hj => hq.setVgroup _ _ hj) hi hpre hk
  rw [RM.bind_ok (RM.get_apply q), hq.fmt, hw, ← dequantised_eq_dequantisedBy hq]
  rfl

/-! ### Float sums -/

theorem floatSums_leave (rounding : BitVec 3) (g : BitVec 7) (acc : Nat) (ks : List Nat) :
    r.leave.floatSums rounding g acc ks = r.floatSums rounding g acc ks := by
  induction ks generalizing acc with
  | nil => rfl
  | cons k ks ih =>
    rw [Rod.floatSums, Rod.floatSums, ih]
    rfl

theorem floatScan_leave (rounding : BitVec 3) (g : BitVec 7) : r.leave.floatScan rounding g = r.floatScan rounding g := by
  unfold Rod.floatScan
  simp only [floatSums_leave]
  rfl

/-- RODRED and RODSCAN fadd raise what the whole sum raises, as one part (R405). -/
theorem floatScan_arithmeticTrap {f : ShRDA} {g : Rod → Rod → Rod} (h : Issues s r i) (hc : commits i = false)
    (ht : (r.floatScan f.r f.a).2 &&& trapEnables r.mode ≠ 0) :
    executeRod i (do
      let r ← get
      RM.conditions none (r.floatScan f.r f.a).2
      modify (g r)) s = .next (arithmeticTrap s r r.leave none (r.floatScan f.r f.a).2 i) := by
  refine execute_arithmeticTrap h hc ?_ rfl
  rw [RM.bind_ok (RM.get_apply _), floatScan_leave]
  exact RM.bind_error (RM.conditions_error (q := r.leave) ht)

end

/-- Settles O8: each instruction is a turn for each of its parts, and the first turn that raises an enabled condition ends it,
with the turns before it made. -/
theorem enabledConditionTraps : Obligations.EnabledConditionTraps := by
  refine ⟨?values, ?predicates, ?qblk, ?dqblk, ?sums⟩
  case values =>
    intro s r i x pre bs b htable h hparts hpre hb
    have hx : Computes i x := by
      rcases htable with ht | ht | ht | ht
      · exact computes_of_integerEffect ht
      · exact computes_of_floatEffect ht
      · exact computes_of_fieldEffect ht
      · exact computes_of_convertEffect ht
    exact executeAlu_arithmeticTrap hx h hparts hpre hb
  case predicates =>
    intro s r i p v pre ks k htable h hi hpre hk
    exact executePred_arithmeticTrap (computesPred_of_predicateEffect htable) h hi hpre hk
  case qblk => exact fun s r f w tag fam pre ks k h hfam hi hpre hk => qblk_arithmeticTrap h hfam hi hpre hk
  case dqblk => exact fun s r f w pre ks k h hw hi hpre hk => dqblk_arithmeticTrap h hw hi hpre hk
  case sums =>
    rintro s r f i (rfl | rfl | rfl) h ht
    all_goals exact floatScan_arithmeticTrap h rfl ht

end Sys2Proof.Claims
end

section
/-!
The frame of the value instructions: of the issuing rod the destination's registers and the sticky flags change, of the
device the clocks (R17, R42, R51).
-/

namespace Sys2Proof.Machine

/-! ### One write to a bead -/

theorem setNth_of_length_le {α : Type} {xs : List α} {n : Nat} (y : α) (h : xs.length ≤ n) : setNth xs n y = xs := by
  induction xs generalizing n with
  | nil => rfl
  | cons x xs ih =>
    cases n with
    | zero => simp at h
    | succ n => rw [setNth, ih (by simpa using h)]

/-- A change of a bead is seen in that bead alone, and there only if the rod has it. -/
theorem Rod.bead_modBead (r : Rod) (j k : Nat) (f : Bead → Bead) :
    (r.modBead j f).bead k = r.bead k ∨ (k = j ∧ (r.modBead j f).bead k = f (r.bead k)) := by
  by_cases hjk : j = k
  · subst hjk
    rcases lt_or_ge j r.beads.length with h | h
    · exact .inr ⟨rfl, nth_setNth_self _ _ _ h⟩
    · left; simp only [Rod.modBead, Rod.bead, setNth_of_length_le _ h]
  · exact .inl (Rod.bead_modBead_ne r f hjk)

/-- A write to a bead's register keeps its predicates and barriers. -/
theorem Rod.bead_setV_rest (r : Rod) (j k : Nat) (d : BitVec 7) (x : Word) :
    ((r.setV j d x).bead k).p = (r.bead k).p ∧ ((r.setV j d x).bead k).bar = (r.bead k).bar := by
  unfold Rod.setV
  rcases r.bead_modBead j k fun b => { b with v := setNth b.v (r.phys d) x } with h | ⟨-, h⟩ <;> rw [h] <;> exact ⟨rfl, rfl⟩

/-- A write to a bead's register keeps every other register. -/
theorem Rod.bead_setV_v (r : Rod) {j k n : Nat} (d : BitVec 7) (x : Word) (h : n ≠ r.phys d ∨ k ≠ j) :
    nth 0 ((r.setV j d x).bead k).v n = nth 0 (r.bead k).v n := by
  unfold Rod.setV
  rcases r.bead_modBead j k fun b => { b with v := setNth b.v (r.phys d) x } with e | ⟨hk, e⟩ <;> rw [e]
  exact nth_setNth_ne _ _ _ (h.resolve_right (not_not.mpr hk)).symm

/-! ### What the parts of a value instruction leave of their rod -/

/-- The rod `q` is `r` with no more changed than the registers of a destination in some beads, the sticky flags and the save
point. -/
structure Rod.WroteOnly (r : Rod) (w : Bool) (d : BitVec 7) (ks : List Nat) (q : Rod) : Prop where
  rest : q = { r with s := q.s, beads := q.beads, mode := q.mode, atLive := q.atLive }
  control : q.mode.setWidth 16 = r.mode.setWidth 16
  sticky : ∀ j, r.mode.getLsbD j = true → q.mode.getLsbD j = true
  sregs : ∀ n, (isS d = true → n ≠ sIndex d) → q.sreg n = r.sreg n
  kept : ∀ k, (q.bead k).p = (r.bead k).p ∧ (q.bead k).bar = (r.bead k).bar
  vregs : ∀ k n, isS d = true ∨ n ≠ r.phys d ∧ (w = true → n ≠ r.phys (next d 1)) ∨ k ∉ ks →
    nth 0 (q.bead k).v n = nth 0 (r.bead k).v n

section
variable {r q : Rod} {w : Bool} {d : BitVec 7} {ks : List Nat}

theorem Rod.WroteOnly.leave (r : Rod) (w : Bool) (d : BitVec 7) (ks : List Nat) : r.WroteOnly w d ks r.leave :=
  ⟨rfl, rfl, fun _ h => h, fun _ _ => rfl, fun _ => ⟨rfl, rfl⟩, fun _ _ _ => rfl⟩

theorem Rod.WroteOnly.phys (h : r.WroteOnly w d ks q) (g : BitVec 7) : q.phys g = r.phys g := by
  rw [Rod.phys, Rod.phys, h.rest]

theorem Rod.WroteOnly.stick (h : r.WroteOnly w d ks q) (c : Conds) : r.WroteOnly w d ks (q.stick c) where
  rest := by
    have hrest := h.rest
    unfold Rod.stick
    rw [hrest]
  control := (stick_control q.mode c).trans h.control
  sticky j hj := by
    show (Machine.stick q.mode c).getLsbD j = true
    rw [Machine.stick, BitVec.getLsbD_or, h.sticky j hj, Bool.true_or]
  sregs := h.sregs
  kept := h.kept
  vregs := h.vregs

theorem Rod.WroteOnly.setS (h : r.WroteOnly w d ks q) (hd : isS d = true) (x : Dword) :
    r.WroteOnly w d ks (q.setS (sIndex d) x) where
  rest := by
    have hrest := h.rest
    unfold Rod.setS
    rw [hrest]
  control := h.control
  sticky := h.sticky
  sregs n hn := (nth_setNth_ne _ _ _ (hn hd).symm).trans (h.sregs n hn)
  kept := h.kept
  vregs := h.vregs

/-- A write to a bead's register `g`, which is the destination or, of a pair, the one after it. -/
theorem Rod.WroteOnly.setV (h : r.WroteOnly w d ks q) (hd : isS d = false) {j : Nat} (hj : j ∈ ks) {g : BitVec 7}
    (hg : g = d ∨ w = true ∧ g = next d 1) (x : Word) : r.WroteOnly w d ks (q.setV j g x) where
  rest := by
    have hrest := h.rest
    unfold Rod.setV Rod.modBead
    rw [hrest]
  control := h.control
  sticky := h.sticky
  sregs := h.sregs
  kept k := ⟨(q.bead_setV_rest j k g x).1.trans (h.kept k).1, (q.bead_setV_rest j k g x).2.trans (h.kept k).2⟩
  vregs k n hn := by
    refine (q.bead_setV_v g x ?_).trans (h.vregs k n hn)
    rw [h.phys]
    rcases hn with hs | ⟨hn, hnext⟩ | hk
    · rw [hd] at hs; cases hs
    · rcases hg with rfl | ⟨hw, rfl⟩
      · exact .inl hn
      · exact .inl (hnext hw)
    · exact .inr fun e => hk (e ▸ hj)

theorem Rod.WroteOnly.setOperand (h : r.WroteOnly w d ks q) {b : Option Nat} (hb : isS d = true ∨ beadNo b ∈ ks) (x : Dword) :
    r.WroteOnly w d ks (q.setOperand b w d x) := by
  cases hd : isS d with
  | true =>
    cases hw : w <;> simp only [Rod.setOperand, Rod.setWord, Rod.setDword, hd, if_true, if_false, Bool.false_eq_true]
    all_goals exact hw ▸ h.setS hd _
  | false =>
    have hk : beadNo b ∈ ks := hb.resolve_left (by simp [hd])
    cases w with
    | false =>
      simp only [Rod.setOperand, Rod.setWord, hd, if_false, Bool.false_eq_true]
      exact h.setV hd hk (.inl rfl) _
    | true =>
      simp only [Rod.setOperand, Rod.setDword, hd, if_true, if_false, Bool.false_eq_true]
      exact (h.setV hd hk (.inl rfl) _).setV hd hk (.inr ⟨rfl, rfl⟩) _

/-- The parts of a value instruction write no more than its destination in the issuing beads. -/
theorem Rod.wrote_wroteOnly (r : Rod) {u : Bool} (w : Bool) {d : BitVec 7} (hd : isS d = u)
    (v : Option Nat → Dword × Conds) : r.WroteOnly w d r.issuing (r.wrote u w d v) := by
  have hparts : ∀ b ∈ r.parts u, isS d = true ∨ beadNo b ∈ r.issuing := by
    intro b hb
    cases u with
    | true => exact .inl hd
    | false =>
      obtain ⟨k, hk, rfl⟩ := List.mem_map.mp (show b ∈ r.issuing.map some from hb)
      exact .inr hk
  unfold Rod.wrote
  generalize r.parts u = bs at hparts
  have fold (q : Rod) (hq : r.WroteOnly w d r.issuing q) :
      r.WroteOnly w d r.issuing (bs.foldl (fun q b => (q.stick (v b).2).setOperand b w d (v b).1) q) := by
    induction bs generalizing q with
    | nil => exact hq
    | cons b bs ih =>
      exact ih (fun c hc => hparts c (List.mem_cons_of_mem b hc)) _
        ((hq.stick _).setOperand (hparts b List.mem_cons_self) _)
  exact fold _ (Rod.WroteOnly.leave r w d r.issuing)

end

end Sys2Proof.Machine

namespace Sys2Proof.Claims

open Sys2Proof.Machine

/-- A value instruction whose parts raise no enabled condition: every part has written its value (R16, R17, R51). -/
theorem exec_next_of_computes {s : State} {r : Rod} {i : Instr} {x : Effect} (hx : Computes i x) (h : Issues s r i)
    (ht : r.untrapped (uniform i) (x.value r)) :
    exec i s = .next (s.completed r (r.wrote (uniform i) x.wide x.dst (x.value r)).advance i) := by
  have hdst := hx.dst (operandKindOk_of_legal h.legal)
  rw [hx.exec]
  exact executeAlu_next h.cur h.legal hx.plain h.inside h.whole (fun hu => hdst.trans hu) (hx.once r)
    (fun q k hq => hx.local_ hq) ht

/-- Another rod keeps all but its clocks when an instruction that changes its own rod completes. -/
theorem rod?_completed_other {s : State} {r q p : Rod} {i : Instr} {u : Nat} (hq : q.uid = r.uid) (hu : u ≠ r.uid)
    (hp : s.rod? u = some p) : (s.completed r q i).rod? u = some (p.tick (r.laneCycles (onceOnly i))) := by
  have huid : p.uid = u := by simpa using List.find?_some hp
  have hput : (s.setRod q).rod? u = some p := by
    rw [State.rod?_of_map (s := s) (f := fun x => if x.uid = q.uid then q else x) (fun x => by split <;> simp_all) rfl, hp]
    simp [huid, hq, hu]
  exact (State.rod?_of_map (s := s.setRod q) (f := Rod.tick _) (fun _ => rfl) rfl u).trans (by rw [hput]; rfl)

/-- The rod itself, with the lane cycles passed. -/
theorem rod?_completed_self {s : State} {r q : Rod} {i : Instr} (hq : q.uid = r.uid) (hr : s.rod? r.uid = some r) :
    (s.completed r q i).rod? r.uid = some (q.tick (r.laneCycles (onceOnly i))) := by
  have hput : (s.setRod q).rod? r.uid = some q := hq ▸ State.rod?_setRod (hq ▸ hr)
  exact (State.rod?_of_map (s := s.setRod q) (f := Rod.tick _) (fun _ => rfl) rfl r.uid).trans (by rw [hput]; rfl)

/-- Settles O9: the instruction completes with the rod that its parts have written, and that rod has only the destination's
registers and the sticky flags changed. -/
theorem valuesFrame : Obligations.ValuesFrame := by
  intro s t r i x htable h ht hexec
  have hx : Computes i x := by
    rcases htable with hx | hx | hx | hx | hx
    · exact computes_of_integerEffect hx
    · exact computes_of_bitwiseEffect hx
    · exact computes_of_fieldEffect hx
    · exact computes_of_floatEffect hx
    · exact computes_of_convertEffect hx
  have hwrote := r.wrote_wroteOnly x.wide (hx.dst (operandKindOk_of_legal h.legal)) (x.value r)
  rw [exec_next_of_computes hx h ht] at hexec
  cases hexec
  refine ⟨fun a => rfl, rfl, rfl, fun u p hu hp => rod?_completed_other (Rod.wrote_uid ..) hu hp, _,
    rod?_completed_self (Rod.wrote_uid ..) (State.curRod?_eq h.cur).2, ?_⟩
  generalize r.wrote (uniform i) x.wide x.dst (x.value r) = q at hwrote
  obtain ⟨hrest, hcontrol, hsticky, hsregs, hkept, hvregs⟩ := hwrote
  refine ⟨?_, ?_, ?_, ?_, ?_, ?_, ?_, ?_, ?_, hcontrol, hsticky, hsregs, fun k => ⟨(hkept k).1, (hkept k).2, hvregs k⟩⟩
  all_goals
    simp only [Rod.tick, Rod.advance]
    rw [hrest]

end Sys2Proof.Claims
end


section
/-!
SUPPORT. What the writes of memory, the translations and the commits leave of the state: memory and its caches change, and
of a rod no more than its tentative lines, what it has seen of memory, and what it waits for.
-/

namespace Sys2Proof.Machine

/-- The rod `q` is the rod `r`, but for its tentative lines, its view of memory and its status. -/
def Rod.Kept (r q : Rod) : Prop := q = { r with view := q.view, tent := q.tent, tags := q.tags, status := q.status }

theorem Rod.Kept.refl (r : Rod) : r.Kept r := rfl

theorem Rod.Kept.trans {r q p : Rod} (h : r.Kept q) (h' : q.Kept p) : r.Kept p := by
  unfold Rod.Kept at *
  rw [h', h]

theorem Rod.Kept.uid {r q : Rod} (h : r.Kept q) : q.uid = r.uid := by rw [h]

/-- The rods of the state `t` are those of `s`, each kept. -/
def State.RodsKept (s t : State) : Prop := List.Forall₂ Rod.Kept s.rods t.rods

namespace State.RodsKept

variable {s t x : State}

theorem of_rods_eq (h : t.rods = s.rods) : s.RodsKept t := by
  unfold State.RodsKept
  rw [h]
  exact List.forall₂_same.mpr fun r _ => Rod.Kept.refl r

theorem refl (s : State) : s.RodsKept s := of_rods_eq rfl

theorem of_rods_map {f : Rod → Rod} (hf : ∀ r : Rod, r.Kept (f r)) (h : t.rods = s.rods.map f) : s.RodsKept t := by
  unfold State.RodsKept
  rw [h, List.forall₂_map_right_iff]
  exact List.forall₂_same.mpr fun r _ => hf r

theorem of_modRod (s : State) (u : Nat) {f : Rod → Rod} (hf : ∀ r : Rod, r.Kept (f r)) : s.RodsKept (s.modRod u f) :=
  of_rods_map (f := fun r => if r.uid = u then f r else r) (fun r => by
    split
    · exact hf r
    · exact Rod.Kept.refl r) rfl

theorem trans (h : s.RodsKept t) (h' : t.RodsKept x) : s.RodsKept x := by
  unfold State.RodsKept at *
  generalize s.rods = as at h
  generalize t.rods = bs at h h'
  generalize x.rods = cs at h'
  induction h generalizing cs with
  | nil => cases h'; exact .nil
  | cons hr _ ih =>
    obtain _ | ⟨hq, hs⟩ := h'
    exact .cons (hr.trans hq) (ih _ hs)

theorem foldl {α : Type} {f : State → α → State} (hf : ∀ (s : State) (a : α), s.RodsKept (f s a)) (as : List α)
    (s : State) : s.RodsKept (as.foldl f s) := by
  induction as generalizing s with
  | nil => exact refl s
  | cons a as ih => exact (hf s a).trans (ih (f s a))

/-- The rod of a name stays the rod of that name. -/
theorem rod?_rel (h : s.RodsKept t) (u : Nat) : Option.Rel Rod.Kept (s.rod? u) (t.rod? u) := by
  unfold State.RodsKept at h
  unfold State.rod?
  generalize s.rods = as at h
  generalize t.rods = bs at h
  induction h with
  | nil => exact .none
  | cons hr _ ih =>
    simp only [List.find?_cons, hr.uid]
    split
    · exact .some hr
    · exact ih

theorem rod? (h : s.RodsKept t) {u : Nat} {r : Rod} (hr : s.rod? u = some r) : ∃ q, t.rod? u = some q ∧ r.Kept q := by
  have := h.rod?_rel u
  rw [hr] at this
  generalize t.rod? u = o at this
  obtain hq | _ := this
  exact ⟨_, rfl, hq⟩

theorem rod?_none (h : s.RodsKept t) {u : Nat} (hr : s.rod? u = none) : t.rod? u = none := by
  have := h.rod?_rel u
  rw [hr] at this
  generalize t.rod? u = o at this
  cases this
  rfl

end State.RodsKept

/-- The state `t` is the state `s`, but for memory, its caches and messages, the lines on their way and the names given
out, with every rod kept. -/
structure State.Undisturbed (s t : State) : Prop where
  rods : s.RodsKept t
  rest : t = { s with
    mem := t.mem, dirty := t.dirty, volatile := t.volatile, writes := t.writes, inflight := t.inflight, rods := t.rods
    tlb := t.tlb, objCache := t.objCache, walks := t.walks, walkCache := t.walkCache, clocks := t.clocks
    stampDue := t.stampDue, stampSince := t.stampSince, dieMsgs := t.dieMsgs, dieCopies := t.dieCopies
    reckoners := t.reckoners, dirReqs := t.dirReqs, fresh := t.fresh }

namespace State.Undisturbed

variable {s t x : State}

theorem refl (s : State) : s.Undisturbed s := ⟨.refl s, rfl⟩

theorem trans (h : s.Undisturbed t) (h' : t.Undisturbed x) : s.Undisturbed x where
  rods := h.rods.trans h'.rods
  rest := by rw [h'.rest, h.rest]

theorem foldl {α : Type} {f : State → α → State} (hf : ∀ (s : State) (a : α), s.Undisturbed (f s a)) (as : List α)
    (s : State) : s.Undisturbed (as.foldl f s) := by
  induction as generalizing s with
  | nil => exact refl s
  | cons a as ih => exact (hf s a).trans (ih (f s a))

theorem of_modRod (s : State) (u : Nat) {f : Rod → Rod} (hf : ∀ r : Rod, r.Kept (f r)) : s.Undisturbed (s.modRod u f) :=
  ⟨.of_modRod s u hf, rfl⟩

theorem cur (h : s.Undisturbed t) : t.cur = s.cur := by rw [h.rest]

end State.Undisturbed

/-! ### Writes at the homes -/

theorem State.installOwn_undisturbed (s : State) (d l : Nat) : s.Undisturbed (s.installOwn d l) := by
  simp only [State.installOwn]
  split
  · exact .refl s
  · exact ⟨.of_rods_eq rfl, rfl⟩

theorem State.sendUpdates_undisturbed (w : Option Nat) (ls : List Nat) (s : State) : s.Undisturbed (s.sendUpdates w ls) := by
  induction ls generalizing s with
  | nil => exact .refl s
  | cons l ls ih =>
    refine State.Undisturbed.trans ?_ (ih _)
    cases w with
    | none =>
      refine .foldl ?_ _ s
      exact fun s e => ⟨.of_rods_eq rfl, rfl⟩
    | some d =>
      refine State.Undisturbed.trans (.foldl ?_ _ s) (State.installOwn_undisturbed _ d l)
      exact fun s e => ⟨.of_rods_eq rfl, rfl⟩

theorem wakeOnWrite_kept (ws : List (Nat × Byte)) (ls : List Nat) (r : Rod) : r.Kept (wakeOnWrite ws ls r) := by
  unfold wakeOnWrite
  split
  · split <;> rfl
  · split <;> rfl
  · rfl

theorem State.writeFrom_undisturbed (s : State) (w : Option Nat) (ws : List (Nat × Byte)) : s.Undisturbed (s.writeFrom w ws) := by
  refine State.Undisturbed.trans ?_ (State.sendUpdates_undisturbed w (linesOf ws) _)
  exact ⟨.of_rods_map (wakeOnWrite_kept ws (linesOf ws)) rfl, rfl⟩

theorem State.homeWriteNat_undisturbed (s : State) (a n x : Nat) : s.Undisturbed (s.homeWriteNat a n x) :=
  State.writeFrom_undisturbed s none _

theorem State.pathWrite_undisturbed (s : State) (path : Nat) (agent : Agent) (stamps : List Stamp) (ws : List (Nat × Byte)) :
    s.Undisturbed (s.pathWrite path agent stamps ws) := by
  simp only [State.pathWrite]
  refine State.Undisturbed.trans ?_ (State.writeFrom_undisturbed _ _ ws)
  exact ⟨.of_rods_eq rfl, rfl⟩

/-! ### Translations of the device's own units -/

theorem State.choose_undisturbed (s : State) (n : Nat) : s.Undisturbed (s.choose n).2 := by
  unfold State.choose
  split
  · exact .refl s
  · exact ⟨.of_rods_eq rfl, rfl⟩

theorem State.evict_undisturbed {α : Type} (s : State) (limit : Nat) (p : α → Bool) (xs : List α) :
    s.Undisturbed (s.evict limit p xs).2 := by
  simp only [State.evict]
  split
  · exact .refl s
  · exact State.choose_undisturbed s _

theorem State.fillTlb_undisturbed (s : State) (e : TlbEntry) : s.Undisturbed (s.fillTlb e) := by
  unfold State.fillTlb
  split
  · exact State.Undisturbed.trans (State.evict_undisturbed s Config.coreTlb _ _) ⟨.of_rods_eq rfl, rfl⟩
  · exact State.Undisturbed.trans (State.evict_undisturbed s Config.sliceTlb _ _) ⟨.of_rods_eq rfl, rfl⟩

theorem State.fillWalkCache_undisturbed (table asid va : Nat) (es : List (Nat × Nat × Nat)) (s : State) :
    s.Undisturbed (s.fillWalkCache table asid va es) := by
  induction es generalizing s with
  | nil => exact .refl s
  | cons e es ih =>
    refine State.Undisturbed.trans ?_ (ih _)
    simp only []
    split
    · exact .refl s
    · exact State.Undisturbed.trans (State.evict_undisturbed s 256 _ s.walkCache) ⟨.of_rods_eq rfl, rfl⟩

theorem State.walkFill_undisturbed (s : State) (asid va : Nat) (write : Bool) : s.Undisturbed (s.walkFill asid va write).2 := by
  simp only [State.walkFill]
  split
  · exact .refl s
  · dsimp only
    refine State.Undisturbed.trans (State.Undisturbed.trans ?_ (State.fillWalkCache_undisturbed _ _ _ _ _))
      (State.fillTlb_undisturbed _ _)
    split
    · exact .refl s
    · exact State.homeWriteNat_undisturbed s _ 8 _

theorem State.translate_undisturbed (s : State) (asid va : Nat) (write : Bool) : s.Undisturbed (s.translate asid va write).2 := by
  unfold State.translate
  split
  · exact .refl s
  · exact State.walkFill_undisturbed s asid va write

theorem State.exportPhys_undisturbed (s : State) (off : Nat) (write : Bool) : s.Undisturbed (s.exportPhys off write).2 := by
  unfold State.exportPhys
  split
  · exact .refl s
  · split
    · exact .refl s
    · exact State.homeWriteNat_undisturbed s _ _ _

theorem State.ownExport_undisturbed (s : State) (a : Nat) (write : Bool) : s.Undisturbed (s.ownExport a write).2 := by
  unfold State.ownExport
  split
  · exact State.exportPhys_undisturbed s _ write
  · exact .refl s

theorem State.askPage_undisturbed (s : State) (page : Nat) (own : Bool) : s.Undisturbed (s.askPage page own) := by
  simp only [State.askPage]
  split
  · exact .refl s
  · exact ⟨.of_rods_eq rfl, rfl⟩

theorem State.writeFaultFrame_undisturbed (s : State) (r : Rod) (f : FaultFrame) (v : Bool) :
    s.Undisturbed (s.writeFaultFrame r f v) := by
  let va := (s.ctxSaveBase r.asid + 128 * (r.core * 1024 + r.slotIndex)) % 2 ^ 48
  have ht := State.translate_undisturbed s r.asid va true
  unfold State.writeFaultFrame
  simp only []
  split
  · next h => rw [h] at ht; exact ht
  · next e s1 h =>
    rw [h] at ht
    have ho := State.ownExport_undisturbed s1 (e.place va) true
    split
    · next h => rw [h] at ho; exact ht.trans ho
    · next s2 h =>
      rw [h] at ho
      refine (ht.trans ho).trans ?_
      split
      · exact State.homeWriteNat_undisturbed _ _ _ _
      · next x hx =>
        cases x with
        | page p => exact (State.askPage_undisturbed s2 p true).trans ⟨.of_rods_eq rfl, rfl⟩
        | port p => exact ⟨.of_rods_eq rfl, rfl⟩

/-! ### Commits -/

theorem Rod.noLines_kept (r : Rod) : r.Kept r.noLines := rfl

theorem Rod.performed_kept (r : Rod) (d n : Nat) : r.Kept (r.performed d n) := rfl

theorem State.commit_undisturbed (s : State) (u : Nat) : s.Undisturbed (s.commit u) := by
  unfold State.commit
  split
  · exact .refl s
  · split
    · exact .refl s
    · refine State.Undisturbed.trans ?_ (.of_modRod _ u Rod.noLines_kept)
      exact ⟨.of_rods_eq rfl, rfl⟩

theorem State.performLine_undisturbed (s : State) (i : Inflight) : s.Undisturbed (s.performLine i) :=
  (State.pathWrite_undisturbed s 0 _ i.rel i.bytes).trans (.of_modRod _ i.rod fun r => r.performed_kept _ _)

theorem State.drain_undisturbed (s : State) (u : Nat) : s.Undisturbed (s.drain u) := by
  simp only [State.drain]
  refine State.Undisturbed.trans ?_ (.foldl State.performLine_undisturbed _ _)
  exact ⟨.of_rods_eq rfl, rfl⟩

theorem State.commitPerform_undisturbed (s : State) (u : Nat) : s.Undisturbed (s.commitPerform u) :=
  (s.commit_undisturbed u).trans ((s.commit u).drain_undisturbed u)

/-! ### Barriers -/

theorem State.flipPhase_rodsKept (s : State) (frame n : Nat) : s.RodsKept (s.flipPhase frame n) := by
  refine .of_rods_map (f := _) (fun r => ?_) rfl
  split
  · split <;> rfl
  · rfl

theorem State.settleBarriers_rodsKept (s : State) (frame : Nat) : s.RodsKept (s.settleBarriers frame) := by
  unfold State.settleBarriers
  refine .foldl (fun s n => ?_) _ s
  split
  · exact .refl s
  · split
    · exact s.flipPhase_rodsKept frame n
    · exact .refl s

end Sys2Proof.Machine
end


section
/-!
SUPPORT. EXIT, which ends the running group of its rod: what the group that its stack names finds (R28, R29, R357).
-/

namespace Sys2Proof.Machine

/-! ### The rod around an instruction's effect -/

/-- The rod `q` is the rod `r`, but for its tentative lines, its view of memory, its status, its save and restart points and
its clocks. -/
def Rod.Alike (r q : Rod) : Prop :=
  q = { r with
    view := q.view, tent := q.tent, tags := q.tags, status := q.status, atLive := q.atLive, restart := q.restart
    restartCtl := q.restartCtl, rodcyc := q.rodcyc, timerCount := q.timerCount }

theorem Rod.Alike.trans {r q p : Rod} (h : r.Alike q) (h' : q.Alike p) : r.Alike p := by
  unfold Rod.Alike at *
  rw [h', h]

theorem Rod.Kept.alike {r q : Rod} (h : r.Kept q) : r.Alike q := by
  unfold Rod.Kept at h
  rw [h]
  rfl

theorem Rod.openRegion_alike (r : Rod) : r.Alike r.openRegion := rfl

theorem Rod.tick_alike (r : Rod) (n : Nat) : r.Alike (r.tick n) := rfl

theorem Rod.Alike.uid {r q : Rod} (h : r.Alike q) : q.uid = r.uid := by rw [h]

theorem State.rod?_tick (s : State) (n u : Nat) : (s.tick n).rod? u = (s.rod? u).map (Rod.tick n) :=
  State.rod?_of_map (f := Rod.tick n) (fun _ => rfl) rfl u

/-- A rod that has its name is the rod of that name once it is put back. -/
theorem State.rod?_setRod_of_uid {s : State} {r q : Rod} {u : Nat} (h : s.rod? u = some r) (hq : q.uid = u) :
    (s.setRod q).rod? u = some q := by
  subst hq
  exact State.rod?_setRod h

theorem State.uid_of_rod? {s : State} {r : Rod} {u : Nat} (h : s.rod? u = some r) : r.uid = u := by
  simpa using List.find?_some h

theorem State.curRod?_of_cur {s : State} {u : Nat} (h : s.cur = some u) : s.curRod? = s.rod? u := by
  unfold State.curRod?
  rw [h]

theorem State.rod?_dropRod_self (s : State) (u : Nat) : (s.dropRod u).rod? u = none := by
  unfold State.rod? State.dropRod
  simp

/-! ### What keeps the issuing rod -/

@[simp] theorem State.settleBarriers_cur (s : State) (frame : Nat) : (s.settleBarriers frame).cur = s.cur := by
  unfold State.settleBarriers
  generalize List.range 16 = ns
  induction ns generalizing s with
  | nil => rfl
  | cons n ns ih =>
    refine (ih _).trans ?_
    simp only []
    split
    · rfl
    · split <;> rfl

@[simp] theorem State.retire_cur (s : State) (u : Nat) : (s.retire u).cur = s.cur :=
  (s.commit_undisturbed u).cur

@[simp] theorem State.endGroup_cur (s : State) (u : Nat) : (s.endGroup u).cur = s.cur := by
  unfold State.endGroup
  split
  · rfl
  · split
    · exact State.retire_cur s u
    · rfl

theorem State.rod?_retire_self (s : State) (u : Nat) : (s.retire u).rod? u = none := State.rod?_dropRod_self _ u

/-! ### The groups of a rod -/

theorem Rod.resumeNext_uid {r g : Rod} {st : List StackEntry} (h : r.resumeNext st = some g) : g.uid = r.uid := by
  induction st with
  | nil => exact absurd h (by simp [Rod.resumeNext])
  | cons e es ih =>
    unfold Rod.resumeNext at h
    split at h
    · exact Option.some.inj h ▸ rfl
    · split at h
      · exact ih h
      · exact Option.some.inj h ▸ rfl

/-- The entry without the beads of a group that has ended (R29). -/
def StackEntry.without (m : BitVec 16) (e : StackEntry) : StackEntry :=
  { e with f := e.f &&& ~~~ m, w := e.w &&& ~~~ m, pm := e.pm &&& ~~~ m }

/-- The rod without its running group, before another one runs (R29). -/
def Rod.groupless (r : Rod) : Rod :=
  { r with alive := r.alive &&& ~~~ r.active, active := 0, stack := r.stack.map (StackEntry.without r.active) }

theorem Rod.endGroup_eq (r : Rod) : r.endGroup = r.groupless.resumeNext (r.stack.map (StackEntry.without r.active)) := rfl

theorem Rod.endGroup_uid {r g : Rod} (h : r.endGroup = some g) : g.uid = r.uid :=
  Rod.resumeNext_uid (r := r.groupless) h

theorem Rod.endGroup_of_no_stack {r : Rod} (h : r.stack = []) : r.endGroup = none := by
  rw [Rod.endGroup_eq, h]
  rfl

/-- The pending group of the top entry runs (R28). -/
theorem Rod.endGroup_of_pending {r : Rod} {e : StackEntry} {es : List StackEntry} (h : r.stack = e :: es) (hp : e.pv = true) :
    r.endGroup = some { r.groupless.setControlMode e.pmode with
      active := e.pm &&& ~~~ r.active, pc := e.ppc, resume := e.pr.toNat, fmt := e.pfmt
      stack := { e.without r.active with pv := false, pr := 0 } :: es.map (StackEntry.without r.active) } := by
  rw [Rod.endGroup_eq, h, List.map_cons, Rod.resumeNext, if_pos (show (e.without r.active).pv = true from hp)]
  rfl

/-- The beads that reconverge at the top entry run after its join, and the entry is popped (R28, R30). -/
theorem Rod.endGroup_of_reconverging {r : Rod} {e : StackEntry} {es : List StackEntry} (h : r.stack = e :: es)
    (hp : e.pv = false) (hf : e.f &&& ~~~ r.active ≠ 0) :
    r.endGroup = some { r.groupless.setControlMode e.smode with
      active := e.f &&& ~~~ r.active, pc := e.j.getD 0 + 4, resume := 0, fmt := e.sfmt
      stack := es.map (StackEntry.without r.active) } := by
  have hpv : ¬ (e.without r.active).pv = true := by simp [StackEntry.without, hp]
  rw [Rod.endGroup_eq, h, List.map_cons, Rod.resumeNext, if_neg hpv, if_neg (show ¬ (e.without r.active).f = 0 from hf)]
  rfl

/-- Where no bead reconverges at the one entry, no group is left (R28). -/
theorem Rod.endGroup_of_last {r : Rod} {e : StackEntry} (h : r.stack = [e]) (hp : e.pv = false) (hf : e.f &&& ~~~ r.active = 0) :
    r.endGroup = none := by
  have hpv : ¬ (e.without r.active).pv = true := by simp [StackEntry.without, hp]
  rw [Rod.endGroup_eq, h, List.map_cons, Rod.resumeNext, if_neg hpv, if_pos (show (e.without r.active).f = 0 from hf)]
  rfl

/-- The control fields of MODE are those given, and its sticky flags stay. -/
theorem setControlMode_mode (r : Rod) (m : BitVec 16) : (r.setControlMode m).mode = Claims.modeWith r.mode m := by
  have hmask : ∀ i < 32, (0xFFFF0000 : BitVec 32).getLsbD i = decide (16 ≤ i) := by decide
  have hm : r.mode.toNat / 65536 * 65536 + m.toNat = (r.mode.toNat >>> 16) <<< 16 ||| m.toNat := by
    rw [← Nat.shiftLeft_add_eq_or_of_lt m.isLt, Nat.shiftLeft_eq, Nat.shiftRight_eq_div_pow]
  unfold Rod.setControlMode Claims.modeWith
  refine BitVec.eq_of_getLsbD_eq fun i hi => ?_
  simp only [BitVec.getLsbD_or, BitVec.getLsbD_and, hmask i hi, BitVec.getLsbD_setWidth, hi, BitVec.getLsbD_ofNat, hm,
    Nat.testBit_or, Nat.testBit_shiftLeft, Nat.testBit_shiftRight, decide_true, Bool.true_and]
  by_cases h : 16 ≤ i
  · simp [h, BitVec.getLsbD]
  · simp [h, BitVec.getLsbD]

end Sys2Proof.Machine
end


section
/-!
The settling of O21: EXIT ends the beads of its group.
-/

namespace Sys2Proof.Machine

/-! ### An instruction that says itself where its rod goes -/

section
variable {s t : State} {r : Rod} {i : Instr} {body : M Unit} {e : Stop}

/-- A legal instruction that is no commit point, whose effect completes. -/
theorem executeControl_ok (h : Issues s r i) (hc : commits i = false) (hb : body (s.setRod r.leave) = (.ok (), t)) :
    executeControl i body s = .next (t.tick (r.laneCycles (onceOnly i))) := by
  unfold executeControl
  have h0 : (s.setRod r.leave).curRod? = some r.leave := State.curRod?_setRod h.cur rfl
  rw [issue_plain h.cur h.legal hc, M.bind_ok (M.inAllocation_apply h0 h.inside h.whole), hb]

/-- A legal instruction that is no commit point, whose effect ends early. -/
theorem executeControl_error (h : Issues s r i) (hc : commits i = false)
    (hb : body (s.setRod r.leave) = (.error e, t)) :
    executeControl i body s = .next ((t.settle r.uid e).tick (r.cyclesOf (onceOnly i) (.error e))) := by
  unfold executeControl
  have h0 : (s.setRod r.leave).curRod? = some r.leave := State.curRod?_setRod h.cur rfl
  rw [issue_plain h.cur h.legal hc, M.bind_ok (M.inAllocation_apply h0 h.inside h.whole), hb]

end

/-! ### Commit points -/

section
variable {s : State} {r : Rod}

/-- In a state that is undisturbed the issuing rod goes on issuing. -/
theorem State.Undisturbed.curRod? {t : State} (hu : s.Undisturbed t) (h : s.curRod? = some r) :
    ∃ q, t.curRod? = some q ∧ r.Kept q := by
  obtain ⟨hc, hr⟩ := State.curRod?_eq h
  obtain ⟨q, hq, hk⟩ := hu.rods.rod? hr
  exact ⟨q, (State.curRod?_of_cur (hu.cur.trans hc)).trans hq, hk⟩

/-- A commit point that need not wait for its lines opens a new region. -/
theorem M.commitPoint_lazy (h : s.curRod? = some r) :
    ∃ q t, M.commitPoint true s = (.ok (), t) ∧ t.curRod? = some q ∧ r.Alike q := by
  obtain ⟨q, hq, hk⟩ := (s.commit_undisturbed r.uid).curRod? h
  refine ⟨q.openRegion, (s.commit r.uid).setRod q.openRegion, ?_, State.curRod?_setRod hq rfl,
    hk.alike.trans q.openRegion_alike⟩
  unfold M.commitPoint
  rw [M.bind_ok (M.rod_apply h)]
  simp only [if_true]
  rw [M.bind_ok (M.pure_apply () s), M.bind_ok (M.upd_apply _ s)]
  exact onRod_ok hq rfl

/-- The issuing rod after it has been changed. -/
theorem State.alter_of_curRod? {u : Nat} (h : s.curRod? = some r) (hu : r.uid = u) (f : Rod → Rod) :
    s.alter u f = s.setRod (f r) := by
  subst hu
  unfold State.alter
  rw [(State.curRod?_eq h).2]

theorem State.curRod?_alter {u : Nat} {f : Rod → Rod} (hf : ∀ q, (f q).uid = q.uid) (h : s.curRod? = some r) (hu : r.uid = u) :
    (s.alter u f).curRod? = some (f r) := by
  rw [State.alter_of_curRod? h hu f]
  exact State.curRod?_setRod h (hf r)

/-- A commit point whose lines nothing bars performs them and opens a new region. -/
theorem M.commitPoint_eager (h : s.curRod? = some r) (hb : s.blockedLine r.uid = none) :
    M.commitPoint false s = (.ok (), (s.commitPerform r.uid).alter r.uid Rod.openRegion) := by
  obtain ⟨q, hq, hk⟩ := (s.commitPerform_undisturbed r.uid).curRod? h
  have hown : M.ownPages s = (.ok (), s) := by
    unfold M.ownPages
    rw [M.bind_ok (M.rod_apply h), M.bind_ok (M.get_apply s), hb]
    rfl
  unfold M.commitPoint
  rw [M.bind_ok (M.rod_apply h)]
  simp only [Bool.false_eq_true, if_false]
  rw [M.bind_ok hown, M.bind_ok (M.upd_apply _ s), State.alter_of_curRod? hq hk.uid]
  exact onRod_ok hq rfl

/-- The issuing rod at the beginning of a new region. -/
theorem State.curRod?_newRegion (h : s.curRod? = some r) :
    ∃ q, ((s.commitPerform r.uid).alter r.uid Rod.openRegion).curRod? = some q ∧ r.Alike q := by
  obtain ⟨q, hq, hk⟩ := (s.commitPerform_undisturbed r.uid).curRod? h
  exact ⟨q.openRegion, State.curRod?_alter (fun _ => rfl) hq hk.uid, hk.alike.trans q.openRegion_alike⟩

/-- What bars the lines of a rod does not depend on its save point. -/
theorem State.blockedLine_leave (h : s.rod? r.uid = some r) : (s.setRod r.leave).blockedLine r.uid = s.blockedLine r.uid := by
  have h0 : (s.setRod r.leave).rod? r.uid = some r.leave := State.rod?_setRod_of_uid (q := r.leave) h rfl
  unfold State.blockedLine
  rw [h, h0]
  rfl

/-- A new region opens at the position of the issuing rod, if there is one. -/
theorem M.commitDone_some (h : s.curRod? = some r) : M.commitDone s = (.ok (), s.setRod r.openRegion) := onRod_ok h rfl

theorem M.commitDone_none (h : s.curRod? = none) : M.commitDone s = (.error .settled, s) := by
  unfold M.commitDone onRod
  rw [h]

end

/-! ### The end of a group -/

section
variable {s : State} {r : Rod}

/-- The last group of a rod ends: the rod leaves its slot. -/
theorem State.endGroup_none (h : s.rod? r.uid = some r) (hg : r.endGroup = none) :
    ((s.endGroup r.uid).settleBarriers r.frame).rod? r.uid = none := by
  refine (State.settleBarriers_rodsKept _ r.frame).rod?_none ?_
  unfold State.endGroup
  simp only [h, hg]
  exact State.rod?_retire_self s r.uid

/-- A group ends, and another one of the rod runs. -/
theorem State.endGroup_some {g : Rod} (h : s.rod? r.uid = some r) (hg : r.endGroup = some g) :
    ∃ q, ((s.endGroup r.uid).settleBarriers r.frame).rod? r.uid = some q ∧ g.Kept q := by
  refine (State.settleBarriers_rodsKept _ r.frame).rod? ?_
  unfold State.endGroup
  simp only [h, hg]
  exact State.rod?_setRod_of_uid h (Rod.endGroup_uid hg)

/-- The effect of EXIT (R290, R357). -/
def M.exit : M Unit := do
  let r ← M.rod
  match r.handler with
  | some fr => M.killInHandler fr
  | none => do
    M.commitPoint true
    M.endGroup
    M.commitDone

theorem exec_exit_eq (s : State) : exec .exit s = executeControl .exit M.exit s := rfl

/-- EXIT outside handler mode: the group that the rod's stack names runs, or the rod leaves its slot (R29, R357). -/
theorem exec_exit (h : Issues s r .exit) (hn : r.handler = none) :
    ∃ p t, r.Alike p ∧ exec .exit s = .next t ∧ (p.endGroup = none → t.rod? r.uid = none) ∧
      ∀ g, p.endGroup = some g → ∃ q, t.rod? r.uid = some q ∧ g.Alike q := by
  have h0 : (s.setRod r.leave).curRod? = some r.leave := State.curRod?_setRod h.cur rfl
  obtain ⟨p, s1, hs1, hp, hk⟩ := M.commitPoint_lazy h0
  have huid : p.uid = r.uid := hk.uid
  obtain ⟨hcur, hrod⟩ := State.curRod?_eq hp
  let s2 := (s1.endGroup p.uid).settleBarriers p.frame
  rw [exec_exit_eq]
  have hcur2 : s2.cur = some p.uid := by simp [s2, hcur]
  have hbody (x : Except Stop Unit × State) (hx : M.commitDone s2 = x) : M.exit (s.setRod r.leave) = x := by
    unfold M.exit
    rw [M.bind_ok (M.rod_apply h0)]
    simp only [show r.leave.handler = none from hn]
    rw [M.bind_ok hs1]
    unfold M.endGroup
    rw [M.bind_ok (a := ()) (t := s2) (by rw [M.bind_ok (M.rod_apply hp)]; rfl)]
    exact hx
  cases hg : p.endGroup with
  | none =>
    have hgone : s2.rod? p.uid = none := State.endGroup_none hrod hg
    refine ⟨p, _, hk, executeControl_error h rfl (hbody _ (M.commitDone_none ?_)), fun _ => ?_, fun g hg' => ?_⟩
    · rw [State.curRod?_of_cur hcur2, hgone]
    · rw [State.rod?_tick, ← huid]
      exact congrArg (Option.map _) hgone
    · rw [hg] at hg'; cases hg'
  | some g =>
    obtain ⟨q, hq, hgq⟩ := State.endGroup_some hrod hg
    have hquid : q.uid = p.uid := hgq.uid.trans (Rod.endGroup_uid hg)
    refine ⟨p, _, hk, executeControl_ok h rfl (hbody _ (M.commitDone_some (r := q) ?_)), fun hg' => ?_, fun g' hg' => ?_⟩
    · rw [State.curRod?_of_cur hcur2]; exact hq
    · rw [hg] at hg'; cases hg'
    · obtain rfl : g = g' := by rw [hg] at hg'; exact Option.some.inj hg'
      refine ⟨q.openRegion.tick (r.laneCycles (onceOnly .exit)), ?_, hgq.alike.trans (q.openRegion_alike.trans (q.openRegion.tick_alike _))⟩
      rw [State.rod?_tick, ← huid, State.rod?_setRod_of_uid (q := q.openRegion) hq hquid]
      rfl

/-- EXIT in handler mode, with the stack as deep as at the entry and nothing that bars the rod's lines: the rod leaves its
slot (R290, R357). -/
theorem exec_exit_inHandler {f : FaultFrame} (h : Issues s r .exit) (hf : r.handler = some f) (hd : r.stack.length = f.depth)
    (hb : s.blockedLine r.uid = none) : ∃ t, exec .exit s = .next t ∧ t.rod? r.uid = none := by
  have h0 : (s.setRod r.leave).curRod? = some r.leave := State.curRod?_setRod h.cur rfl
  have hb0 : (s.setRod r.leave).blockedLine r.leave.uid = none := (State.blockedLine_leave (State.curRod?_eq h.cur).2).trans hb
  have hs1 := M.commitPoint_eager h0 hb0
  obtain ⟨p, hp, hk⟩ := State.curRod?_newRegion h0
  generalize ((s.setRod r.leave).commitPerform r.leave.uid).alter r.leave.uid Rod.openRegion = s1 at hs1 hp
  obtain ⟨q, hq, hkq⟩ := (s1.writeFaultFrame_undisturbed r.leave f false).curRod? hp
  let s2 := s1.writeFaultFrame r.leave f false
  rw [exec_exit_eq]
  have hbody : M.exit (s.setRod r.leave) = (.ok (), (s2.retire q.uid).settleBarriers q.frame) := by
    unfold M.exit
    rw [M.bind_ok (M.rod_apply h0)]
    simp only [show r.leave.handler = some f from hf]
    unfold M.killInHandler M.retire
    rw [M.bind_ok (M.rod_apply h0), show decide (r.leave.stack.length = f.depth) = true from decide_eq_true hd,
      M.bind_ok (M.need_true _ _), M.bind_ok hs1, M.bind_ok (M.upd_apply _ s1), M.bind_ok (M.rod_apply hq)]
    rfl
  refine ⟨_, executeControl_ok h rfl hbody, ?_⟩
  have huid : q.uid = r.uid := hkq.uid.trans hk.uid
  rw [State.rod?_tick, huid]
  exact congrArg (Option.map _) ((State.settleBarriers_rodsKept _ q.frame).rod?_none (State.rod?_retire_self s2 r.uid))

end

end Sys2Proof.Machine

namespace Sys2Proof.Claims

open Sys2Proof.Machine

/-- Settles O21: by the group that the rod's stack names when its running group ends. -/
theorem exitEnds : Obligations.ExitEnds := by
  unfold Obligations.ExitEnds
  intro s r h
  refine ⟨?_, fun hn e es hst hpv => ?_, fun hn e es y hst hpv hj hf => ?_, fun hn e hst hpv hf => ?_⟩
  · rintro (⟨f, hf, hd, hb⟩ | ⟨hn, hst⟩)
    · exact exec_exit_inHandler h hf hd hb
    · obtain ⟨p, t, hk, ht, hnone, -⟩ := exec_exit h hn
      exact ⟨t, ht, hnone (Rod.endGroup_of_no_stack (by rw [hk]; exact hst))⟩
  · obtain ⟨p, t, hk, ht, -, hsome⟩ := exec_exit h hn
    obtain ⟨q, hq, hgq⟩ := hsome _ (Rod.endGroup_of_pending (by rw [hk]; exact hst) hpv)
    refine ⟨t, q, ht, hq, ?_⟩
    rw [hgq, hk]
    exact ⟨rfl, rfl, rfl, rfl, rfl, rfl, rfl⟩
  · obtain ⟨p, t, hk, ht, -, hsome⟩ := exec_exit h hn
    have hfp : e.f &&& ~~~ p.active ≠ 0 := by rw [hk]; exact hf
    obtain ⟨q, hq, hgq⟩ := hsome _ (Rod.endGroup_of_reconverging (by rw [hk]; exact hst) hpv hfp)
    refine ⟨t, q, ht, hq, ?_⟩
    rw [hgq, hk]
    exact ⟨rfl, rfl, by simp [hj], rfl, rfl, setControlMode_mode r e.smode, by simp, rfl, rfl⟩
  · obtain ⟨p, t, hk, ht, hnone, -⟩ := exec_exit h hn
    exact ⟨t, ht, hnone (Rod.endGroup_of_last (by rw [hk]; exact hst) hpv (by rw [hk]; exact hf))⟩

end Sys2Proof.Claims
end


section
/-!
The settling of O42: results of engines, TIMER, wakes, the end of a FLUSH, and the filling of an instruction-cache line.
-/

namespace Sys2Proof.Machine

section
variable {s : State} {u : Nat} {r : Rod}

/-- The rod of a name after it has been changed. -/
theorem State.rod?_modRod_self {f : Rod → Rod} (hf : ∀ q, (f q).uid = q.uid) (h : s.rod? u = some r) :
    (s.modRod u f).rod? u = some (f r) := by
  have hmap := State.rod?_of_map (s := s) (t := s.modRod u f) (f := fun q => if q.uid = u then f q else q)
    (fun q => by split <;> simp [hf]) rfl u
  rw [hmap, h, Option.map_some, if_pos (State.uid_of_rod? h)]

/-! ### Results, holds and wakes -/

theorem execScoreboardWriteback_next {p : Pending} {x : Dword} (h : s.rod? u = some r)
    (hp : r.scoreboard.find? (fun p => p.value.isSome) = some p) (hx : p.value = some x) :
    ∃ t, exec (.scoreboardWriteback u) s = .next t ∧
      t.rod? u = some { r.setS p.sreg x with scoreboard := r.scoreboard.erase p } := by
  refine ⟨_, rfl, (State.rod?_modRod_self (fun q => ?_) h).trans ?_⟩
  · split <;> rfl
  · rw [hp]
    simp only [hx, Option.getD_some]

theorem execYieldHoldEnd_next {c : Nat} (h : s.rod? u = some r) (hr : r.status = .held c) (hc : c ≤ s.clk.toNat) :
    ∃ t, exec (.yieldHoldEnd u) s = .next t ∧ t.rod? u = some { r with status := .ready } := by
  refine ⟨_, rfl, (State.rod?_modRod_self (fun q => ?_) h).trans ?_⟩
  · split
    · split <;> rfl
    · rfl
  · rw [hr]
    exact congrArg some (if_pos hc)

theorem Rod.wakeWaitv_uid (q : Rod) : q.wakeWaitv.uid = q.uid := by
  unfold Rod.wakeWaitv
  split <;> rfl

theorem State.rod?_wakeWaitv {ls : List Nat} {hit full : Bool} {tk c : Nat} (h : s.rod? u = some r)
    (hr : r.status = .asleep (.waitv ls hit full) tk c) :
    (s.modRod u Rod.wakeWaitv).rod? u = some { r with status := .ready, resume := 0 } := by
  rw [State.rod?_modRod_self Rod.wakeWaitv_uid h]
  unfold Rod.wakeWaitv
  rw [hr]

/-! ### Handler entry -/

/-- A rod outside handler mode, with a handler to enter, enters it (R288). -/
theorem State.enterHandlerAt_entered {cls cause k h info code : Nat} {epc fault : Addr} (hr : s.rod? u = some r)
    (hn : r.handler = none) (hc : s.ctxHandler r.asid ≠ 0) (hs : 24 ≤ r.s.length) :
    ∃ q, (s.enterHandlerAt u cls cause k h info code epc fault).rod? u = some q ∧ q.timerEn = r.timerEn ∧
      q.timerDue = r.timerDue ∧ Claims.Entered (s.ctxHandler r.asid) r q cls cause k h info code epc := by
  unfold State.enterHandlerAt
  simp only [hr, hn, Option.isSome_none, Bool.false_eq_true, hc, or_self, if_false]
  let f : FaultFrame := ⟨r.s.drop 24, epc, r.active, r.mode.setWidth 16, r.fmt, r.base, r.stack.length, k, cls, cause⟩
  obtain ⟨p, hp, hk⟩ := ((s.commitPerform_undisturbed u).trans
    ((s.commitPerform u).writeFaultFrame_undisturbed r f true)).rods.rod? hr
  refine ⟨_, State.rod?_modRod_self (fun _ => rfl) hp, ?_⟩
  rw [hk]
  have htake : (r.s.take 24).length = 24 := by rw [List.length_take]; omega
  exact ⟨rfl, rfl, {
    pc := rfl, active := rfl, resume := rfl, ready := rfl
    low := List.take_left' htake, high := List.drop_left' htake
    frame := rfl, beads := rfl, caps := rfl, mode := rfl, fmt := rfl, window := rfl, stack := rfl }⟩

/-! ### TIMER -/

theorem Rod.timerExpired_of (he : r.timerDue = true ∨ r.timerEn = true ∧ r.timerCount = 0) : r.timerExpired = true := by
  rcases he with h | ⟨h, h'⟩ <;> simp [Rod.timerExpired, *]

/-- The rod whose TIMER has expired, with its fault due or taken: EN is set only where TIMER was set anew (R55). -/
def Rod.timedOut (due : Bool) (r : Rod) : Rod :=
  { r with timerEn := r.timerEn && decide (r.timerCount ≠ 0), timerDue := due }

theorem execTimerExpiry_eq (h : s.rod? u = some r) (he : r.timerDue = true ∨ r.timerEn = true ∧ r.timerCount = 0)
    (hh : s.halted r.asid = false) :
    exec (.timerExpiry u) s = .next (if r.handler.isSome || !s.atBoundary r then s.modRod u (Rod.timedOut true)
      else (s.modRod u (Rod.timedOut false)).enterHandler u 3 3 r.resume r.boundaryBead 0 0 r.pc) := by
  show execTimerExpiry u s = _
  unfold execTimerExpiry
  simp only [h, Rod.timerExpired_of he, hh, Bool.not_true, Bool.or_self, Bool.false_eq_true, if_false]
  split <;> rfl

theorem execTimerExpiry_taken (h : s.rod? u = some r) (he : r.timerDue = true ∨ r.timerEn = true ∧ r.timerCount = 0)
    (hh : s.halted r.asid = false) (hn : r.handler = none) (hr : r.status = .ready)
    (hi : ∀ w, s.fetched r = some w → r.interlocked w = false) (hc : s.ctxHandler r.asid ≠ 0) (hs : 24 ≤ r.s.length) :
    ∃ t q, exec (.timerExpiry u) s = .next t ∧ t.rod? u = some q ∧ q.timerEn = (r.timerEn && decide (r.timerCount ≠ 0)) ∧
      q.timerDue = false ∧ Claims.Entered (s.ctxHandler r.asid) r q 3 3 r.resume
        (if r.active.getLsbD r.resume then r.resume else lowestBit r.active 0) 0 0 r.pc := by
  have hready : r.atBoundary = true := by
    unfold Rod.atBoundary
    rw [hr]
  have hfree : (s.fetched r).any r.interlocked = false := by
    cases hw : s.fetched r with
    | none => rfl
    | some w => exact hi w hw
  have hb : s.atBoundary r = true := by simp [State.atBoundary, hready, hfree]
  have h1 : (s.modRod u (Rod.timedOut false)).rod? u = some (r.timedOut false) := State.rod?_modRod_self (fun _ => rfl) h
  obtain ⟨q, hq, hen, hdue, hent⟩ := State.enterHandlerAt_entered (cls := 3) (cause := 3) (k := r.resume)
    (h := r.boundaryBead) (info := 0) (code := 0) (epc := r.pc) (fault := r.pc) h1 hn hc hs
  refine ⟨_, q, execTimerExpiry_eq h he hh, ?_, hen, hdue, ?_⟩
  · rw [hn, hb]
    unfold State.enterHandler
    simp only [Option.isSome_none, Bool.not_true, Bool.or_self, Bool.false_eq_true, if_false, h1]
    exact hq
  · exact { hent with }

theorem execTimerExpiry_held {w : Word} (h : s.rod? u = some r)
    (he : r.timerDue = true ∨ r.timerEn = true ∧ r.timerCount = 0) (hh : s.halted r.asid = false)
    (hw : s.fetched r = some w) (hi : r.interlocked w = true) :
    ∃ t, exec (.timerExpiry u) s = .next t ∧ t.rod? u = some (r.timedOut true) := by
  have hb : s.atBoundary r = false := by simp [State.atBoundary, hw, hi]
  refine ⟨_, execTimerExpiry_eq h he hh, ?_⟩
  rw [hb, Bool.not_false, Bool.or_true, if_pos rfl]
  exact State.rod?_modRod_self (fun _ => rfl) h

/-! ### The end of a FLUSH -/

theorem execFlushWalkComplete_next {scope tk c : Nat} {inv : Bool} (h : s.rod? u = some r)
    (hr : r.status = .asleep (.flush scope inv) tk c) (hf : s.flushable r scope = true) :
    exec (.flushWalkComplete u) s = .next { s.setRod { r.advance with status := .ready } with
      dirty := s.dirty.filter fun l => !flushReaches scope r.core l
      volatile := if scope = 6 then [] else s.volatile
      dieCopies := if inv then s.dieCopies.filter fun c => !flushReaches scope r.core c.line else s.dieCopies } := by
  show execFlushWalkComplete u s = _
  unfold execFlushWalkComplete
  simp only [h, hr, hf, if_true]

/-- Nothing keeps a FLUSH from completing: its own lines are performed, and at wide scopes those to other devices and to the
CXL tier, and the ports of the dirty lines within reach answer (R173, R313). -/
theorem State.flushable_of {scope : Nat}
    (hi : ∀ i ∈ s.inflight, i.rod ≠ r.uid ∧ ∀ w ∈ i.bytes, (5 ≤ scope → field w.1 50 2 = 2 → field w.1 38 12 = s.endpoint) ∧
      (6 ≤ scope → field w.1 50 2 ≠ 1))
    (hd : ∀ l ∈ s.dirty, flushReaches scope r.core l = true → s.portDown (l * 128) = none) : s.flushable r scope = true := by
  unfold State.flushable
  rw [Bool.and_eq_true, List.all_eq_true, List.all_eq_true]
  constructor
  · intro i hmem
    obtain ⟨hrod, hbytes⟩ := hi i hmem
    rw [Bool.not_eq_true', Bool.or_eq_false_iff]
    refine ⟨decide_eq_false hrod, List.any_eq_false.mpr fun w hw => ?_⟩
    obtain ⟨h5, h6⟩ := hbytes w hw
    simp only [Bool.or_eq_true, decide_eq_true_eq]
    rintro (⟨hs, hp, he⟩ | ⟨hs, hp⟩)
    · exact he (h5 hs hp)
    · exact h6 hs hp
  · intro l hl
    cases hr : flushReaches scope r.core l with
    | false => rfl
    | true => simp [hd l hl hr]

end

end Sys2Proof.Machine
end


section
/-!
SUPPORT. The fetch path of the issuing rod, where its translations and objects are at hand (R77, R119, R138, R140).
-/

namespace Sys2Proof.Machine

section
variable {s : State} {r : Rod}

/-- Work before the first effect that completes. -/
theorem M.ahead_ok {α : Type} {m : M α} {a : α} {t : State} (h : s.curRod? = some r) (hm : m s = (.ok a, t)) :
    M.ahead m s = (.ok a, t) := by
  unfold M.ahead
  rw [M.bind_ok (M.rod_apply h)]
  show (ExceptT.tryCatch m _) s = _
  simp only [ExceptT.tryCatch, ExceptT.mk, bind, StateT.bind, hm]
  rfl

/-- An address that maps to a physical one is found there at once, and nothing changes. -/
theorem M.place_ok {b : Option Nat} {va kind a : Nat} (h : s.curRod? = some r)
    (hm : Claims.mapsTo s (some r.core) r.asid va (decide (kind = 1)) a) : M.place b va kind s = (.ok a, s) := by
  obtain ⟨e, he, rfl, hown, hb⟩ := hm
  have htr : M.translate b va kind s = (.ok e, s) := by
    unfold M.translate
    rw [M.bind_ok (M.rod_apply h), M.bind_ok (M.get_apply s)]
    unfold State.lookup
    rw [he]
    rfl
  have hph : M.physical b va kind s = (.ok (e, e.place va), s) := by
    unfold M.physical
    rw [M.bind_ok htr, M.bind_ok (M.get_apply s), if_neg hown]
    rfl
  unfold M.place
  rw [M.bind_ok hph]
  dsimp only
  unfold M.unbarred
  rw [M.bind_ok (M.get_apply s), hb]
  rfl

/-- A handle-table entry that is at hand is read, and nothing changes (R119). -/
theorem M.tableEntry_ok {i a : Nat} (h : s.curRod? = some r) (he : Claims.entryAt s r.core r.asid i a) :
    M.tableEntry (s.ctxField r.asid 128 48 + 16 * i) s = (.ok (s.natAt a 16), s) := by
  obtain ⟨hm, hd⟩ := he
  unfold M.tableEntry
  rw [M.bind_ok (M.place_ok h hm), M.bind_ok (M.get_apply s), hd]
  rfl

/-- An object in the core's object cache is found there, and nothing changes. -/
theorem M.object?_ok {b : Option Nat} {n : Nat} {o : Nat × Nat} (h : s.curRod? = some r)
    (ho : s.cachedObject r.core r.asid n = some o) : M.object? b n s = (.ok (some o), s) := by
  unfold M.object?
  rw [M.bind_ok (M.rod_apply h), M.bind_ok (M.get_apply s), ho]
  rfl

/-- The search of the handle table passes an entry without V and X, or with its reserved bits set. -/
theorem M.codeObjectIn_skip {va i a : Nat} {is : List Nat} (h : s.curRod? = some r) (he : Claims.entryAt s r.core r.asid i a)
    (hx : field (s.natAt a 16) 120 2 = 0 → ((Cap.ofNat (s.natAt a 16)).v && (Cap.ofNat (s.natAt a 16)).x) = false) :
    M.codeObjectIn va (i :: is) s = M.codeObjectIn va is s := by
  have hc : (decide (field (s.natAt a 16) 120 2 = 0) && (Cap.ofNat (s.natAt a 16)).v && (Cap.ofNat (s.natAt a 16)).x) = false := by
    rw [Bool.and_assoc]
    by_cases h0 : field (s.natAt a 16) 120 2 = 0
    · rw [hx h0, Bool.and_false]
    · rw [decide_eq_false h0, Bool.false_and]
  rw [M.codeObjectIn, M.bind_ok (M.rod_apply h), M.bind_ok (M.get_apply s), M.bind_ok (M.tableEntry_ok h he)]
  dsimp only
  rw [hc, if_neg Bool.false_ne_true, M.bind_ok (M.pure_apply none s)]

/-- The search ends at an entry that admits a fetch from the address. -/
theorem M.codeObjectIn_found {va i a base len : Nat} {is : List Nat} (h : s.curRod? = some r)
    (he : Claims.entryAt s r.core r.asid i a) (hx : field (s.natAt a 16) 120 2 = 0)
    (ha : Claims.admits s r.core r.asid va (Cap.ofNat (s.natAt a 16)) base len) :
    M.codeObjectIn va (i :: is) s = (.ok (some (base, len)), s) := by
  obtain ⟨hv, hxx, ho, hlo, hhi⟩ := ha
  rw [M.codeObjectIn, M.bind_ok (M.rod_apply h), M.bind_ok (M.get_apply s), M.bind_ok (M.tableEntry_ok h he)]
  dsimp only
  rw [hv, hxx, decide_eq_true hx, if_pos (by decide : (true && true && true) = true), M.bind_ok (M.object?_ok h ho)]
  dsimp only
  rw [if_pos ⟨hlo, hhi⟩]
  rfl

/-- The code object of an address is found, and nothing changes (R77). -/
theorem M.codeObject_ok {va base len : Nat} (h : s.curRod? = some r) (hc : Claims.codeIs s r.core r.asid va base len) :
    M.codeObject va s = (.ok (some (base, len)), s) := by
  obtain ⟨i, a, hi, he, hx, ha, hskip⟩ := hc
  have search (n : Nat) : ∀ j, j ≤ i → n = i - j → ∀ m, i < j + m →
      M.codeObjectIn va (List.range' j m) s = (.ok (some (base, len)), s) := by
    induction n with
    | zero =>
      intro j hj hn m hm
      obtain rfl : j = i := by omega
      obtain ⟨m, rfl⟩ : ∃ k, m = k + 1 := ⟨m - 1, by omega⟩
      rw [List.range'_succ]
      exact M.codeObjectIn_found h he hx ha
    | succ n ih =>
      intro j hj hn m hm
      obtain ⟨m, rfl⟩ : ∃ k, m = k + 1 := ⟨m - 1, by omega⟩
      obtain ⟨b, hb, hbx⟩ := hskip j (by omega)
      rw [List.range'_succ, M.codeObjectIn_skip h hb hbx]
      exact ih (j + 1) (by omega) (by omega) m (by omega)
  unfold M.codeObject
  rw [M.bind_ok (M.rod_apply h), M.bind_ok (M.get_apply s), List.range_eq_range']
  exact search i 0 (by omega) rfl _ (by omega)

/-- The line of the rod's next instruction arrives where its code object and its page are at hand (R77). -/
theorem M.fetchLine_ok {base len a : Nat} (h : s.curRod? = some r) (hc : Claims.codeIs s r.core r.asid r.pc.toNat base len)
    (hend : r.pc.toNat + 4 ≤ base + len) (hm : Claims.mapsTo s (some r.core) r.asid r.pc.toNat false a)
    (hd : s.damaged (a / 128 * 128) 128 = false) :
    M.fetchLine s = (.ok (), s.fillLine r.core r.asid (r.pc.toNat / 128) (a / 128 * 128) base len) := by
  unfold M.fetchLine
  rw [M.bind_ok (M.rod_apply h)]
  rw [M.bind_ok (M.ahead_ok h (M.codeObject_ok h hc))]
  dsimp only
  rw [decide_eq_true hend, M.bind_ok (M.need_true _ s), M.bind_ok (M.ahead_ok h (M.place_ok h hm)),
    M.bind_ok (M.get_apply s), hd, Bool.not_false, M.bind_ok (M.need_true _ s)]
  rfl

end

/-! ### The instruction cache -/

section
variable (s : State) (core asid line a base len : Nat)

/-- The line that a fill puts into the instruction cache: the words of memory, up to the end of the code object. -/
def State.filledLine : ICacheLine :=
  ⟨core, asid, line, ((List.range 32).map fun i => BitVec.ofNat 32 (s.natAt (a + 4 * i) 4)).take (min 32 ((base + len - 128 * line) / 4))⟩

/-- A filled line stands first in the cache, and the fill leaves the rods and memory. -/
theorem State.fillLine_spec : ∃ kept, (s.fillLine core asid line a base len).icache = s.filledLine core asid line a base len :: kept ∧
    (s.fillLine core asid line a base len).rods = s.rods ∧ (s.fillLine core asid line a base len).mem = s.mem := by
  have hev (n : Nat) : (s.choose n).2.rods = s.rods ∧ (s.choose n).2.mem = s.mem := by
    unfold State.choose
    split <;> exact ⟨rfl, rfl⟩
  simp only [State.fillLine, State.evict]
  split
  · exact ⟨_, rfl, rfl, rfl⟩
  · exact ⟨_, rfl, hev _⟩

end

/-- The filled line has the rod's word where its code object reaches to the word's end. -/
theorem State.filledLine_word {s : State} {core asid line a base len i : Nat} (hi : i < 32)
    (hn : 128 * line + 4 * i + 4 ≤ base + len) :
    (s.filledLine core asid line a base len).words[i]? = some (BitVec.ofNat 32 (s.natAt (a + 4 * i) 4)) := by
  unfold State.filledLine
  have hlt : i < min 32 ((base + len - 128 * line) / 4) := by omega
  rw [List.getElem?_take, if_pos hlt, List.getElem?_map, List.getElem?_range hi]
  rfl

/-- INSTRUCTION_CACHE_FILL of a Ready rod whose code object and page are at hand (R77). -/
theorem execInstructionCacheFill_next {s : State} {u base len a : Nat} {r : Rod} (h : s.rod? u = some r)
    (hr : r.status = .ready) (hc : Claims.codeIs s r.core r.asid r.pc.toNat base len) (hend : r.pc.toNat + 4 ≤ base + len)
    (hm : Claims.mapsTo s (some r.core) r.asid r.pc.toNat false a) (hd : s.damaged (a / 128 * 128) 128 = false) :
    exec (.instructionCacheFill u) s =
      .next { ({ s with cur := some u } : State).fillLine r.core r.asid (r.pc.toNat / 128) (a / 128 * 128) base len with
        cur := s.cur } := by
  have hcur : ({ s with cur := some u } : State).curRod? = some r := h
  show execInstructionCacheFill u s = _
  unfold execInstructionCacheFill
  simp only [h, hr, ne_eq, not_true_eq_false, if_false]
  rw [M.fetchLine_ok hcur hc hend hm hd]

end Sys2Proof.Machine

namespace Sys2Proof.Claims

open Sys2Proof.Machine

/-- Settles O42: event by event, from what each does to its rod, to the dirty lines and copies, and to the instruction cache. -/
theorem rodEventsComplete : Obligations.RodEventsComplete := by
  unfold Obligations.RodEventsComplete
  refine ⟨fun s u r p x h hp hx => execScoreboardWriteback_next h hp hx, fun s u r h he hh hn hr => ⟨?_, ?_⟩,
    fun s u c r h hr hc => execYieldHoldEnd_next h hr hc, fun s u tk c r ls hit full h hr => ?_, ?_, ?_⟩
  · exact fun hi hc hs => execTimerExpiry_taken h he hh hn hr hi hc hs
  · exact fun w hw hi => execTimerExpiry_held h he hh hw hi
  · exact ⟨⟨_, rfl, State.rod?_wakeWaitv h hr⟩, ⟨_, rfl, State.rod?_wakeWaitv h hr⟩⟩
  · intro s u tk c scope r inv h hr hi hd
    obtain rfl := State.uid_of_rod? h
    have hlist {α : Type} (f : α → Bool) (xs : List α) (x : α) : x ∈ xs.filter (fun x => !f x) ↔ x ∈ xs ∧ f x = false := by
      simp
    refine ⟨_, execFlushWalkComplete_next h hr (State.flushable_of hi hd), ?_, rfl, fun l => hlist _ _ l, fun x => ?_, rfl⟩
    · exact State.rod?_setRod_of_uid (q := { r.advance with status := .ready }) h rfl
    · cases inv with
      | false => simp
      | true => simp
  · intro s u base len a r h hr hc hend hm hd
    obtain ⟨kept, hcache, hrods, hmem⟩ := State.fillLine_spec { s with cur := some u } r.core r.asid (r.pc.toNat / 128)
      (a / 128 * 128) base len
    refine ⟨_, execInstructionCacheFill_next h hr hc hend hm hd, hrods, hmem, ?_⟩
    unfold State.fetched
    simp only [hcache]
    rw [List.find?_cons_of_pos (by simp [State.filledLine])]
    exact State.filledLine_word (by omega) (by omega)

end Sys2Proof.Claims
end


section
/-!
A frame does not retire while a reservation of another frame holds a slot whose cells lie in its C segment (R218, R223):
the slot stays until the reservation has opened or abandoned it, though the frame's rods have retired and its work is done.
-/

namespace Sys2Proof.Claims

open Sys2Proof.Machine

/-- A launch of one frame that is still to retire, without a completion word. -/
def lastLaunch : Launch := ⟨0, 0, 0, 0, 1, false, 0, 0⟩

/-- Slot 0 of core 0, held by the reservation of rod 2 for a cell of the placed frame. -/
def heldSlot : Slot := { Slot.empty with st := .held, owner := 1, rod := 2, size := 1, count := 1, remain := 1 }

/-- The reservation of rod 2 of frame 9 on core 1, to which the reply is on its way. -/
def openingResv : Resv := ⟨2, 1, 0, 9, 0, 0, false, 0, 0, [⟨0, 0, 0, 1, 1⟩], 0, .reply 0⟩

/-- A device with the placed frame, whose rods have retired, and the slot that is held in its C segment. -/
def heldSlotDevice : State :=
  { State.reset with frames := [placedFrame], launches := [lastLaunch], slots := [(0, heldSlot)], resvs := [openingResv] }

/-- The outcome is a state that still has the placed frame. -/
def keepsPlacedFrame : Host.Outcome State Fault Refusal → Bool
  | .next t => (t.frame? 0).isSome
  | _ => false

theorem frameRetire_heldSlotDevice_keeps : keepsPlacedFrame (exec (.frameRetire 0) heldSlotDevice) = true := by decide +kernel

/-- Refutes O44: `frameDone` does not ask for the slots that other frames' reservations hold at the frame, and FRAME_RETIRE
waits for them. At `heldSlotDevice` every hypothesis of the first clause holds, and the frame stays. -/
theorem not_copyEventsComplete : ¬ Obligations.CopyEventsComplete := by
  rintro ⟨⟨hretire, -⟩, -⟩
  obtain ⟨hfree, -⟩ := hretire heldSlotDevice 0 placedFrame lastLaunch rfl (by decide +kernel) (by decide +kernel)
    (List.pairwise_singleton _ _) rfl (fun c hc => by cases hc) (by decide +kernel)
  obtain ⟨t, ht, hgone, -⟩ := hfree (.inr rfl)
  have hkeeps := frameRetire_heldSlotDevice_keeps
  rw [ht] at hkeeps
  simp [keepsPlacedFrame, hgone] at hkeeps

end Sys2Proof.Claims
end


section
/-!
SUPPORT. The instructions that end their beads (R29, R253, R254, R423): the region that begins with them, the live
registers and descriptor cells that they read, and the records that the beads leave.
-/

namespace Sys2Proof.Machine

/-! ### A commit point before the effect -/

section
variable {s t : State} {r : Rod} {i : Instr} {body : M Unit}

theorem State.begun_of_commits (hc : commits i = true) (hl : lazyCommits i = false) :
    s.begun r i = ((s.setRod r.leave).commitPerform r.uid).alter r.uid Rod.openRegion := by
  simp [State.begun, hc, hl]

/-- The rod at the beginning of the effect is the rod that issues, with its region committed. -/
theorem State.curRod?_begun (h : Issues s r i) (hc : commits i = true) (hl : lazyCommits i = false) :
    ∃ p, (s.begun r i).curRod? = some p ∧ r.Alike p := by
  rw [State.begun_of_commits hc hl]
  exact State.curRod?_newRegion (r := r.leave) (State.curRod?_setRod h.cur rfl)

/-- A commit changes no frame and no cell. -/
theorem State.begun_frames_cells (h : Issues s r i) (hc : commits i = true) (hl : lazyCommits i = false) (u : Nat) :
    (s.begun r i).frame? u = s.frame? u ∧ (s.begun r i).cells = s.cells := by
  have hu := (s.setRod r.leave).commitPerform_undisturbed r.uid
  obtain ⟨q, hq, hk⟩ := hu.curRod? (r := r.leave) (State.curRod?_setRod h.cur rfl)
  rw [State.begun_of_commits hc hl, State.alter_of_curRod? (u := r.uid) hq hk.uid, hu.rest]
  exact ⟨rfl, rfl⟩

/-- The lines of the region that a commit point closes leave; after the effect a new region begins where the rod, if it
is still there, then stands. -/
theorem performed_of_commits (h : Issues s r i) (hc : commits i = true) (hl : lazyCommits i = false) :
    performed i body s = (body >>= fun _ => M.commitDone) (s.begun r i) := by
  have h0 : (s.setRod r.leave).curRod? = some r.leave := State.curRod?_setRod h.cur rfl
  have hb : (s.setRod r.leave).blockedLine r.leave.uid = none :=
    (State.blockedLine_leave (State.curRod?_eq h.cur).2).trans (h.owned hc hl)
  unfold performed
  rw [M.bind_ok (M.legal_apply h.legal s), M.bind_ok (onRod_ok h.cur (RM.modify_apply _ r)), if_pos hc, hl]
  show (M.commitPoint false >>= fun _ => body >>= fun _ => M.commitDone) (s.setRod r.leave) = _
  rw [M.bind_ok (M.commitPoint_eager h0 hb), State.begun_of_commits hc hl]
  rfl

/-- The registers that lie in the rod's allocation as it issues lie in it when the effect begins. -/
theorem M.inAllocation_begun (h : Issues s r i) (hc : commits i = true) (hl : lazyCommits i = false) (once : Bool) :
    M.inAllocation i once (s.begun r i) = (.ok (), s.begun r i) := by
  obtain ⟨p, hp, hk⟩ := State.curRod?_begun h hc hl
  refine M.inAllocation_apply hp ?_ h.whole
  rw [hk]
  exact h.inside

/-- A commit point that says itself where its rod goes, and whose effect completes. -/
theorem executeControl_shut (h : Issues s r i) (hc : commits i = true) (hl : lazyCommits i = false)
    (hb : body (s.begun r i) = (.ok (), t)) (ht : t.cur = some r.uid) : executeControl i body s = .next (t.shut r i) := by
  unfold executeControl issue
  rw [h.cur]
  simp only []
  rw [performed_of_commits h hc hl, M.bind_ok (show (do M.inAllocation i (onceOnly i); body : M Unit) (s.begun r i) = (.ok (), t) by
    rw [M.bind_ok (M.inAllocation_begun h hc hl _), hb])]
  unfold State.shut
  rw [if_pos hc]
  cases hr : t.rod? r.uid with
  | none =>
    have hnone : t.curRod? = none := (State.curRod?_of_cur ht).trans hr
    rw [M.commitDone_none hnone]
    unfold State.alter
    rw [hr]
    rfl
  | some q =>
    have hsome : t.curRod? = some q := (State.curRod?_of_cur ht).trans hr
    rw [M.commitDone_some hsome, State.alter_of_curRod? hsome (State.uid_of_rod? hr)]
    rfl

end

/-! ### The rod while its beads end -/

/-- The rod `q` is the rod `r`, but for what its commits, its waits and the ends of its beads change. -/
def Rod.Ending (r q : Rod) : Prop :=
  q = { r with
    view := q.view, tent := q.tent, tags := q.tags, status := q.status, atLive := q.atLive, restart := q.restart
    restartCtl := q.restartCtl, rodcyc := q.rodcyc, timerCount := q.timerCount, alive := q.alive, peeked := q.peeked }

theorem Rod.Ending.trans {r q p : Rod} (h : r.Ending q) (h' : q.Ending p) : r.Ending p := by
  unfold Rod.Ending at *
  rw [h', h]

theorem Rod.Alike.ending {r q : Rod} (h : r.Alike q) : r.Ending q := by
  unfold Rod.Alike at h
  rw [h]
  rfl

theorem Rod.Ending.uid {r q : Rod} (h : r.Ending q) : q.uid = r.uid := by rw [h]

/-! ### The live registers -/

/-- The sum of pieces of `k` bits, split at the lowest. -/
theorem sum_pieces_succ (k n : Nat) (f : Nat → Nat) :
    ((List.range (n + 1)).map fun i => f i * 2 ^ (k * i)).sum =
      f 0 + 2 ^ k * ((List.range n).map fun i => f (i + 1) * 2 ^ (k * i)).sum := by
  rw [List.range_succ_eq_map, List.map_cons, List.sum_cons, List.map_map, ← List.sum_map_mul_left]
  congr 1
  · simp
  · congr 2
    funext i
    simp only [Function.comp, Nat.mul_succ, Nat.pow_add]
    ring

section
variable {s : State} {q : Rod}

/-- Pieces of code that are at hand are read, the first lowest, and nothing changes (R83). -/
theorem M.readCode_ok {b : Option Nat} {n va : Nat} {at_ : Nat → Nat} (h : s.curRod? = some q)
    (hc : Claims.codeReads s q.core q.asid va at_ n) : M.readCode b va n s = (.ok (Claims.codeAt s at_ n), s) := by
  induction n generalizing va at_ with
  | zero => rfl
  | succ n ih =>
    obtain ⟨hm, hd⟩ := hc 0 (Nat.succ_pos n)
    have hrest : Claims.codeReads s q.core q.asid (va + 16) (fun i => at_ (i + 1)) n := by
      intro i hi
      have := hc (i + 1) (by omega)
      rwa [show va + 16 * (i + 1) = va + 16 + 16 * i by omega] at this
    rw [M.readCode, M.bind_ok (M.place_ok h hm), M.bind_ok (M.get_apply s), hd, Bool.not_false,
      M.bind_ok (M.need_true _ s), M.bind_ok (ih hrest)]
    unfold Claims.codeAt
    rw [sum_pieces_succ]
    rfl

/-- The live registers of the rod's LIVE are those that its descriptor names (R253). -/
theorem M.liveRegs_ok {regs : List Nat} (h : s.curRod? = some q) (hl : Claims.liveNames s q regs) :
    M.liveRegs s = (.ok regs, s) := by
  obtain ⟨x, at_, hx, hc, rfl⟩ := hl
  unfold M.liveRegs
  rw [M.bind_ok (M.rod_apply h), hx]
  dsimp only
  rw [M.bind_ok (M.ahead_ok h (M.readCode_ok h hc))]
  have hbits : Machine.liveRegs (Claims.codeAt s at_ 4) = (List.range 256).filter fun i => (Claims.codeAt s at_ 4).testBit i := by
    unfold Machine.liveRegs upto
    refine List.filter_congr fun i _ => ?_
    rw [Nat.testBit_eq_decide_div_mod_eq]
    simp [field]
  rw [← hbits]
  rfl

/-- Rods and frames hold no code. -/
theorem liveNames_of_rest {t : State} {r : Rod} {regs : List Nat} (ht : t = { s with rods := t.rods, frames := t.frames })
    (hk : r.Ending q) (hl : Claims.liveNames s r regs) : Claims.liveNames t q regs := by
  obtain ⟨x, at_, hx, hc, hregs⟩ := hl
  rw [ht, hk]
  exact ⟨x, at_, hx, hc, hregs⟩

end

end Sys2Proof.Machine
end


section
/-!
The settling of O41: what TEX, TRACE and VMARCH check, and the records with which their beads end.
-/

namespace Sys2Proof.Machine

/-! ### The checks of the first bead -/

section
variable {s t : State} {r p : Rod}

/-- Cells that are at hand are read, and the rod keeps none of them (R128). -/
theorem M.peekCells_ok {b : Option Nat} {first n : Nat} (h : t.curRod? = some p) (hk : r.Alike p) (hc : t.cells = s.cells)
    (hp : Claims.peekable s r 0 first n) :
    M.peekCells b 0 first n t = (.ok (Claims.peekedCells s r 0 first n), Claims.forgetCells r t) := by
  obtain ⟨hlen, hpres⟩ := hp
  have hseen (u : State) (core i : Nat) : u.seen core 0 i = u.cell core 0 i := by
    unfold State.seen
    exact if_neg fun h => absurd h.1 (by decide)
  have hcell (core i : Nat) : t.cell core 0 i = s.cell core 0 i := by
    unfold State.cell
    rw [hc]
  have hall : (((List.range n).map fun i => t.seen p.core 0 (first + i)).drop p.peeked.length).takeWhile (fun c => c.present) =
      ((List.range n).drop r.peeked.length).map fun i => s.cell r.core 0 (first + i) := by
    have hmap : ((List.range n).map fun i => t.seen p.core 0 (first + i)).drop p.peeked.length =
        ((List.range n).drop r.peeked.length).map fun i => s.cell r.core 0 (first + i) := by
      rw [← List.map_drop, hk]
      simp only [hseen, hcell]
    rw [hmap, List.takeWhile_eq_self_iff]
    intro c hc
    obtain ⟨i, hi, rfl⟩ := List.mem_map.mp hc
    obtain ⟨j, hj, rfl⟩ := List.mem_drop_iff_getElem.mp hi
    rw [List.length_range] at hj
    rw [List.getElem_range, ← hseen]
    exact hpres _ (by omega) (by omega)
  have hgot : (p.peeked ++ (((List.range n).drop r.peeked.length).map fun i => s.cell r.core 0 (first + i)).map Cell.data).take n =
      Claims.peekedCells s r 0 first n := by
    rw [List.take_of_length_le (by rw [hk]; simp; omega), List.map_map, hk]
    rfl
  have hsize : (Claims.peekedCells s r 0 first n).length = n := by
    simp [Claims.peekedCells]
    omega
  unfold M.peekCells
  rw [M.bind_ok (M.rod_apply h), M.bind_ok (M.get_apply t)]
  simp only [hall, hgot, hsize, if_true]
  rw [M.bind_ok (onRod_ok h (RM.modify_apply _ p))]
  unfold Claims.forgetCells
  rw [State.alter_of_curRod? h hk.uid]
  rfl

/-- The descriptor cells of S are read, and their windows touched (R179, R248). -/
theorem M.descriptor_ok {fr : Frame} {cell n : Nat} (h : t.curRod? = some p) (hk : r.Alike p) (hc : t.cells = s.cells)
    (hf : t.frame? r.frame = some fr) (hfit : cell + n ≤ fr.segS.limit.toNat)
    (hp : Claims.peekable s r 0 (fr.segS.base.toNat + cell) n) :
    M.descriptor cell n t =
      (.ok (Claims.peekedCells s r 0 (fr.segS.base.toNat + cell) n), Claims.describedState t r fr cell n) := by
  have hframe : M.frame t = (.ok fr, t) := by
    unfold M.frame
    rw [M.bind_ok (M.rod_apply h), M.bind_ok (M.get_apply t), show p.frame = r.frame by rw [hk], hf]
    rfl
  have hnow : Claims.nowOf t r = p := by
    unfold Claims.nowOf
    rw [← hk.uid, (State.curRod?_eq h).2]
    rfl
  unfold M.descriptor Claims.describedState
  rw [M.bind_ok (M.rod_apply h), M.bind_ok hframe, show fr.fits 0 cell n = true from decide_eq_true hfit,
    M.bind_ok (M.need_true _ t), M.bind_ok (M.upd_apply _ t), hnow]
  exact M.peekCells_ok (t := t.touchCells p.view.seen fr.uid 0 cell n) h hk hc hp

/-- The state after the descriptor has been read differs in its rods and frames. -/
theorem describedState_rest {fr : Frame} {cell n : Nat} (h : t.curRod? = some p) (hk : r.Alike p) :
    Claims.describedState t r fr cell n =
        { t with rods := (Claims.describedState t r fr cell n).rods, frames := (Claims.describedState t r fr cell n).frames } ∧
      ∃ q, (Claims.describedState t r fr cell n).curRod? = some q ∧ r.Ending q := by
  have ht : (t.touchCells (Claims.nowOf t r).view.seen fr.uid 0 cell n).curRod? = some p := h
  unfold Claims.describedState Claims.forgetCells
  rw [State.alter_of_curRod? ht hk.uid]
  exact ⟨rfl, _, State.curRod?_setRod ht rfl, hk.ending.trans rfl⟩

theorem M.reservedIn_ok {bad : Bool} (h : t.curRod? = some p) (hb : bad = false) : M.reservedIn bad t = (.ok (), t) := by
  unfold M.reservedIn
  rw [M.bind_ok (M.rod_apply h), hb]
  rfl

theorem M.liveNamed_ok (h : t.curRod? = some p) (hl : p.live.isSome = true) : M.liveNamed t = (.ok (), t) := by
  unfold M.liveNamed
  rw [M.bind_ok (M.rod_apply h), hl]
  rfl

/-- A capability with RD and E over the bytes passes (R116, R117). -/
theorem M.checkCap_readable {b : Option Nat} {c : Cap} {byte size : Nat} (hv : c.v = true) (hr : c.rd = true) (he : c.e = true)
    (hlo : c.lo.toNat ≤ byte) (hhi : byte + size ≤ c.hi.toNat) :
    M.checkCap b c { rd := true, e := true } byte size t = (.ok (), t) := by
  have hc : c.check { rd := true, e := true } byte size = none := by
    unfold Cap.check
    rw [hv, show c.grants { rd := true, e := true } = true by simp [Cap.grants, hr, he]]
    simp only [Bool.not_true, Bool.false_eq_true, if_false]
    exact if_neg (by omega)
  unfold M.checkCap
  rw [hc]
  rfl

end

/-! ### The ends of the beads -/

theorem State.engineClear_undisturbed (s : State) (va a mt : Nat) (write : Bool) :
    s.Undisturbed (s.engineClear va a mt write).2 := by
  unfold State.engineClear
  split
  · exact .refl s
  · exact s.askPage_undisturbed _ write
  · exact .refl s

theorem State.unitPhys_undisturbed (s : State) (va a mt : Nat) (write : Bool) : s.Undisturbed (s.unitPhys va a mt write).2 := by
  have ho := s.ownExport_undisturbed a write
  unfold State.unitPhys
  split
  · next p s1 h => rw [h] at ho; exact ho.trans (s1.engineClear_undisturbed va p mt write)
  · next h => rw [h] at ho; exact ho

theorem State.engineVa_undisturbed (s : State) (asid va : Nat) (write : Bool) : s.Undisturbed (s.engineVa asid va write).2 := by
  have ht := s.translate_undisturbed asid (va % 2 ^ 48) write
  simp only [State.engineVa]
  split
  · next h => rw [h] at ht; exact ht
  · next e s1 h =>
    rw [h] at ht
    exact ht.trans (s1.unitPhys_undisturbed _ _ _ write)

theorem State.writeVaAs_undisturbed (s : State) (path : Nat) (agent : Agent) (stamps : State → Nat → List Stamp)
    (asid va n x : Nat) : s.Undisturbed (s.writeVaAs path agent stamps asid va n x) := by
  have h := s.engineVa_undisturbed asid va true
  unfold State.writeVaAs
  split
  · next a s1 he =>
    rw [he] at h
    exact h.trans (State.pathWrite_undisturbed s1 path agent _ _)
  · next he => rw [he] at h; exact h

theorem State.writeVaCells_undisturbed (core asid va : Nat) (xs : List Nat) (s : State) :
    s.Undisturbed (s.writeVaCells core asid va xs) := by
  induction xs generalizing s va with
  | nil => exact .refl s
  | cons x xs ih => exact (s.writeVaAs_undisturbed 5 _ _ asid va 16 x).trans (ih _ _)

section
variable {s : State} {r q : Rod} {d : BitVec 7} {regs : List Nat} {req : Nat → UnitReq} {k : Nat}

/-- The rod goes on as the issuing rod when a bead leaves it and phases complete. -/
theorem curRod?_beadLeft (h : s.curRod? = some q) (hk : r.Ending q) (m : BitVec 16) :
    ∃ p, ((s.modRod r.uid fun x => { x with alive := x.alive &&& m }).settleBarriers r.frame).curRod? = some p ∧ r.Ending p := by
  obtain ⟨hcur, hrod⟩ := State.curRod?_eq h
  rw [hk.uid] at hcur hrod
  have hmod := State.rod?_modRod_self (f := fun x : Rod => { x with alive := x.alive &&& m }) (fun _ => rfl) hrod
  obtain ⟨p, hp, hkp⟩ := (State.settleBarriers_rodsKept _ r.frame).rod? hmod
  refine ⟨p, ?_, hk.trans ?_⟩
  · rw [State.curRod?_of_cur (u := r.uid)]
    · exact hp
    · rw [State.settleBarriers_cur]
      exact hcur
  · rw [hkp]
    rfl

/-- The rod goes on as the issuing rod when one of its beads ends. -/
theorem curRod?_beadEnded (h : s.curRod? = some q) (hk : r.Ending q) (c : ContRec) :
    ∃ p, (Claims.beadEnded r k c s).curRod? = some p ∧ r.Ending p := by
  let va := s.contAddr r.asid r.core c.cell
  let s1 := (({ s with fresh := s.fresh + 1 } : State).writeVaCells r.core r.asid va [c.header]).writeVaCells
    r.core r.asid (va + 16 * (1 + c.req.kind.2)) (wordCells (c.regs.map Prod.snd))
  have hu : s.Undisturbed s1 :=
    State.Undisturbed.trans (t := ({ s with fresh := s.fresh + 1 } : State)) ⟨.of_rods_eq rfl, rfl⟩
      (State.Undisturbed.trans (State.writeVaCells_undisturbed _ _ _ _ _) (State.writeVaCells_undisturbed _ _ _ _ _))
  obtain ⟨p, hp, hkp⟩ := hu.curRod? h
  have hp' : ({ s1 with conts := s1.conts ++ [c] } : State).curRod? = some p := hp
  exact curRod?_beadLeft hp' (hk.trans hkp.alike.ending) _

theorem curRod?_beadEnds (h : s.curRod? = some q) (hk : r.Ending q) (k : Nat) :
    ∃ p, (Claims.beadEnds r d regs req s k).curRod? = some p ∧ r.Ending p := curRod?_beadEnded h hk _

/-- A bead ends with its record where the continuation area has room (R253, R254). -/
theorem M.endBead_ok (h : s.curRod? = some q) (hk : r.Ending q) (hroom : Claims.recordRoom r regs req s k) :
    M.endBead k d regs (req k) s = (.ok (), Claims.beadEnds r d regs req s k) := by
  obtain ⟨cell, hcell⟩ := Option.isSome_iff_exists.mp hroom
  have hnow : Claims.nowOf s r = q := by
    unfold Claims.nowOf
    rw [← hk.uid, (State.curRod?_eq h).2]
    rfl
  unfold M.endBead
  rw [M.bind_ok (M.rod_apply h), M.bind_ok (M.get_apply s)]
  unfold Claims.beadEnds Claims.recordOf
  rw [hnow, hcell, hk]
  simp only []
  unfold Claims.recordCells at hcell
  rw [hcell]
  rfl

theorem M.forM_cons {α : Type} (f : α → M PUnit) (x : α) (xs : List α) :
    (x :: xs).forM f = (f x >>= fun _ => xs.forM f) := rfl

/-- The beads end one after the other. -/
theorem M.endBeads_ok {f : Nat → M UnitReq} (hf : ∀ k s, f k s = (.ok (req k), s)) (ks : List Nat) (h : s.curRod? = some q)
    (hk : r.Ending q) (htaken : Claims.eachTaken (Claims.recordRoom r regs req) (Claims.beadEnds r d regs req) s ks) :
    (ks.forM fun k => (do
      let x ← f k
      M.endBead k d regs x : M Unit)) s = (.ok (), ks.foldl (Claims.beadEnds r d regs req) s) ∧
      ∃ p, (ks.foldl (Claims.beadEnds r d regs req) s).curRod? = some p ∧ r.Ending p := by
  induction ks generalizing s q with
  | nil => exact ⟨rfl, q, h, hk⟩
  | cons k ks ih =>
    obtain ⟨hroom, hrest⟩ := htaken
    obtain ⟨p, hp, hkp⟩ := curRod?_beadEnds (d := d) (regs := regs) (req := req) h hk k
    obtain ⟨hloop, hend⟩ := ih hp hkp hrest
    rw [List.foldl_cons]
    refine ⟨?_, hend⟩
    rw [M.forM_cons]
    have hbead : (f k >>= fun x => M.endBead k d regs x) s = (.ok (), Claims.beadEnds r d regs req s k) := by
      rw [M.bind_ok (hf k s), M.endBead_ok h hk hroom]
    rw [M.bind_ok hbead]
    exact hloop

/-- An instruction that ends its beads, whose checks pass and whose records have room (R423). -/
theorem executeEnding_next {i : Instr} {check : M (Rod → Nat → M UnitReq)} {f : Rod → Nat → M UnitReq} {t : State}
    (h : Issues s r i) (hc : commits i = true) (hl : lazyCommits i = false) (hcheck : check (s.begun r i) = (.ok f, t))
    (hq : t.curRod? = some q) (hk : r.Ending q) (hlive : Claims.liveNames t q regs)
    (hf : ∀ p, r.Alike p → ∀ k s, f p k s = (.ok (req k), s))
    (htaken : Claims.eachTaken (Claims.recordRoom r regs req) (Claims.beadEnds r d regs req) t r.issuing) :
    executeEnding i d check s = .next (Claims.groupEnded (r.issuing.foldl (Claims.beadEnds r d regs req) t) r i) := by
  obtain ⟨p, hp, hkp⟩ := State.curRod?_begun h hc hl
  have hissuing : p.issuing = r.issuing := by rw [hkp]; rfl
  obtain ⟨hloop, x, hx, hkx⟩ := M.endBeads_ok (f := f p) (hf p hkp) r.issuing hq hk htaken
  refine executeControl_shut h hc hl ?_ ?_
  · rw [M.bind_ok (M.rod_apply hp), M.bind_ok hcheck, M.bind_ok (M.liveRegs_ok hq hlive), hissuing, M.bind_ok hloop]
    unfold M.endGroup
    rw [M.bind_ok (M.rod_apply hx), M.upd_apply, hkx]
  · rw [State.settleBarriers_cur, State.endGroup_cur, (State.curRod?_eq hx).1, hkx.uid]

end

/-! ### TEX, TRACE and VMARCH -/

theorem nth_eq_getD {α : Type} (d : α) (xs : List α) (n : Nat) : nth d xs n = xs.getD n d := by
  induction xs generalizing n with
  | nil => rfl
  | cons x xs ih =>
    cases n with
    | zero => rfl
    | succ n => exact ih n

/-- The lowest four bits of an operand. -/
theorem field_low (x : Nat) : field x 0 4 = x % 16 := by
  unfold field
  rw [Nat.pow_zero, Nat.div_one]
  rfl

theorem Rod.Alike.sreg {r p : Rod} (h : r.Alike p) (n : Nat) : p.sreg n = r.sreg n := by
  rw [h]
  rfl

theorem Rod.Alike.cap {r p : Rod} (h : r.Alike p) (n : Nat) : p.cap n = r.cap n := by
  rw [h]
  rfl

/-- The checks that come first: the registers lie in the allocation, and a LIVE has been executed (R45, R253). -/
theorem M.allocated_live {α : Type} {s : State} {r : Rod} {i : Instr} {regs : List Nat} (h : Issues s r i)
    (hc : commits i = true) (hl : lazyCommits i = false) (hlive : Claims.liveNames (s.begun r i) r regs) (m : M α) :
    (do
      M.inAllocation i false
      M.liveNamed
      m : M α) (s.begun r i) = m (s.begun r i) := by
  obtain ⟨p, hp, hk⟩ := State.curRod?_begun h hc hl
  obtain ⟨x, at_, hx, -⟩ := hlive
  have hsome : p.live.isSome = true := by
    rw [show p.live = r.live by rw [hk], hx]
    rfl
  rw [M.bind_ok (M.inAllocation_begun h hc hl false), M.bind_ok (M.liveNamed_ok hp hsome)]

end Sys2Proof.Machine

namespace Sys2Proof.Claims

open Sys2Proof.Machine

theorem fourCells_eq (xs : List (BitVec 128)) : fourCells xs = xs.getD 3 0 ++ xs.getD 2 0 ++ xs.getD 1 0 ++ xs.getD 0 0 := rfl

/-- Settles O41: instruction by instruction, its checks pass, and its beads end one after the other. -/
theorem unitRequestsEndBeads : Obligations.UnitRequestsEndBeads := by
  unfold Obligations.UnitRequestsEndBeads
  refine ⟨?_, ?_, ?_⟩
  · intro s r fr f regs h hfr x cell s0 cells image sampler c hz hz' hfit hpeek hi hs hv hrd he hlo hhi hlive req htaken
    obtain ⟨p, hp, hkp⟩ := State.curRod?_begun h rfl rfl
    obtain ⟨hframe, hcells⟩ := State.begun_frames_cells h rfl rfl r.frame
    obtain ⟨hrest, q, hq, hkq⟩ := describedState_rest (fr := fr) (cell := cell) (n := 2) hp hkp
    refine executeEnding_next (f := fun r k => pure (.tex f.c.toNat c image sampler (r.texOps k f) (k % 4) (r.quadOf k f.a)))
      h rfl rfl ?_ hq hkq (liveNames_of_rest hrest hkq hlive) (fun p hk k s => by rw [hk]; rfl) htaken
    have hdesc := M.descriptor_ok hp hkp hcells (hframe.trans hfr) hfit hpeek
    rw [M.allocated_live h rfl rfl hlive, M.bind_ok (M.rod_apply hp), hkp.sreg]
    rw [M.bind_ok (M.reservedIn_ok hp (decide_eq_false (by rintro (h | h) <;> contradiction)))]
    refine (M.bind_ok hdesc).trans ?_
    simp only [hkp.cap, field_low, nth_eq_getD]
    rw [M.bind_ok (M.reservedIn_ok hq (Bool.or_eq_false_iff.mpr ⟨hi, hs⟩))]
    exact M.bind_ok (M.checkCap_readable hv hrd he hlo hhi)
  · intro s r f regs h x s0 c hz hv hrd he hle hlive req htaken
    obtain ⟨p, hp, hkp⟩ := State.curRod?_begun h rfl rfl
    refine executeEnding_next (f := fun r k => pure (.trace f.c c (x / 2 ^ 16 % 2 ^ 48) (r.vgroup k f.a 8)))
      h rfl rfl ?_ hp hkp.ending (liveNames_of_rest rfl hkp.ending hlive) (fun p hk k s => by rw [hk]; rfl) htaken
    rw [M.allocated_live h rfl rfl hlive, M.bind_ok (M.rod_apply hp), hkp.sreg]
    simp only [hkp.cap, field_low]
    rw [M.bind_ok (M.reservedIn_ok hp (decide_eq_false (not_not_intro hz)))]
    exact M.bind_ok (M.checkCap_readable hv hrd he (le_refl _) (Nat.add_sub_cancel' hle).le)
  · intro s r fr f regs h hfr x cell s0 desc g c hz hz' hfit hpeek hres hv hrd he hmlo hmhi hdlo hdhi hlive req htaken
    obtain ⟨p, hp, hkp⟩ := State.curRod?_begun h rfl rfl
    obtain ⟨hframe, hcells⟩ := State.begun_frames_cells h rfl rfl r.frame
    obtain ⟨hrest, q, hq, hkq⟩ := describedState_rest (fr := fr) (cell := cell) (n := 4) hp hkp
    refine executeEnding_next (f := fun r k => pure (.march c desc (r.vgroup k f.a 12)))
      h rfl rfl ?_ hq hkq (liveNames_of_rest hrest hkq hlive) (fun p hk k s => by rw [hk]; rfl) htaken
    have hdesc := M.descriptor_ok hp hkp hcells (hframe.trans hfr) hfit hpeek
    rw [M.allocated_live h rfl rfl hlive, M.bind_ok (M.rod_apply hp), hkp.sreg]
    rw [M.bind_ok (M.reservedIn_ok hp (decide_eq_false (by rintro (h | h) <;> contradiction)))]
    refine (M.bind_ok hdesc).trans ?_
    simp only [hkp.cap, field_low, nth_eq_getD, ← fourCells_eq]
    rw [M.bind_ok (M.reservedIn_ok hq hres), M.bind_ok (M.checkCap_readable hv hrd he hmlo hmhi)]
    exact M.bind_ok (M.checkCap_readable hv hrd he hdlo hdhi)

end Sys2Proof.Claims
end

section
/-!
The settling of O7: the compares and the predicate moves, whose truth values are each computed from their own bead.
-/

namespace Sys2Proof.Claims

open Sys2Proof.Machine

/-- Settles O7: the values are those of the table, and no bead reads what another bead writes. -/
theorem predicatesComplete : Obligations.PredicatesComplete := by
  unfold Obligations.PredicatesComplete
  intro s r i p v htable h ht
  have hx := computesPred_of_predicateEffect htable
  obtain ⟨f, hf, hexec⟩ := hx.exec
  have hlocal : ∀ q k, r.SameFor q k → f q (some k) = f r (some k) := fun q k hq => by rw [hf, hf, hx.local_ hq]
  have hvalues : (fun k => f r (some k)) = v r := funext (hf r)
  rw [hexec, executePred_next h.cur h.legal hx.plain h.inside h.whole hx.beads hlocal (by simpa only [hf] using ht), hvalues]
  rfl

end Sys2Proof.Claims
end


section
/-!
SUPPORT. An instruction that is checked before it commits (R283, R406), and the LDLs under way, of which a commit begins
none: it wakes rods that wait for memory, and no rod begins to wait for a cell.
-/

namespace Sys2Proof.Machine

/-! ### LDLs under way -/

section
variable {s t : State} {r q : Rod} {frame buf : Nat}

/-- A rod of the frame waits at a cell of the buffer with an LDL of which a bead has issued (R407). -/
def Rod.LdlIn (frame buf : Nat) (q : Rod) : Prop :=
  q.frame = frame ∧ (∃ core cell take u d w sub tk c, q.status = .asleep (.cell core buf cell (.ldl take u d w sub)) tk c) ∧
    ∃ k ∈ bitsOf q.active, k < q.resume

/-- No rod of the frame has an LDL under way in the buffer. -/
def State.NoLdl (s : State) (frame buf : Nat) : Prop := ∀ q ∈ s.rods, ¬ q.LdlIn frame buf

theorem State.ldlUnderWay_eq_false_iff {f : Frame} : s.ldlUnderWay f buf = false ↔ s.NoLdl f.uid buf := by
  unfold State.ldlUnderWay State.NoLdl
  rw [List.any_eq_false]
  refine forall₂_congr fun q _ => not_congr ?_
  unfold Rod.LdlIn
  split
  · next hs =>
    simp only [Bool.and_eq_true, decide_eq_true_eq, List.any_eq_true]
    constructor
    · rintro ⟨hf, rfl, hk⟩
      exact ⟨hf, ⟨_, _, _, _, _, _, _, _, _, hs⟩, hk⟩
    · rintro ⟨hf, ⟨_, _, _, _, _, _, _, _, _, hq⟩, hk⟩
      cases hs.symm.trans hq
      exact ⟨hf, rfl, hk⟩
  · next hs =>
    simp only [Bool.and_false, Bool.false_eq_true, false_iff]
    rintro ⟨-, ⟨_, _, _, _, _, _, _, _, _, hq⟩, -⟩
    exact hs _ _ _ _ _ _ _ _ _ _ hq

theorem Rod.not_ldlIn_of_ready (h : q.status = .ready) : ¬ q.LdlIn frame buf := by
  rintro ⟨-, ⟨_, _, _, _, _, _, _, _, _, hq⟩, -⟩
  rw [h] at hq
  cases hq

/-- A write at the homes puts no rod to sleep at a cell. -/
theorem Rod.ldlIn_of_wakeOnWrite {ws : List (Nat × Byte)} {ls : List Nat} (h : (wakeOnWrite ws ls q).LdlIn frame buf) :
    q.LdlIn frame buf := by
  unfold wakeOnWrite at h
  split at h
  · split at h <;> simp [Rod.LdlIn] at h
  · split at h
    · exact absurd h (Rod.not_ldlIn_of_ready rfl)
    · exact h
  · exact h

theorem State.NoLdl.of_rods_map (h : s.NoLdl frame buf) {g : Rod → Rod} (ht : t.rods = s.rods.map g)
    (hg : ∀ q, (g q).LdlIn frame buf → q.LdlIn frame buf) : t.NoLdl frame buf := by
  unfold State.NoLdl
  rw [ht]
  intro x hx
  obtain ⟨q, hq, rfl⟩ := List.mem_map.mp hx
  exact fun hl => h q hq (hg q hl)

theorem State.NoLdl.of_rods_eq (h : s.NoLdl frame buf) (ht : t.rods = s.rods) : t.NoLdl frame buf :=
  h.of_rods_map (g := id) (by rw [ht, List.map_id]) fun _ hq => hq

theorem State.NoLdl.modRod (h : s.NoLdl frame buf) (u : Nat) {g : Rod → Rod}
    (hg : ∀ q, (g q).LdlIn frame buf → q.LdlIn frame buf) : (s.modRod u g).NoLdl frame buf :=
  h.of_rods_map (State.modRod_rods s u g) fun q hq => by
    split at hq
    · exact hg q hq
    · exact hq

theorem State.NoLdl.setRod (h : s.NoLdl frame buf) (hr : ¬ r.LdlIn frame buf) : (s.setRod r).NoLdl frame buf :=
  h.modRod r.uid fun _ hq => absurd hq hr

@[simp] theorem State.installOwn_rods (s : State) (d l : Nat) : (s.installOwn d l).rods = s.rods := by
  simp only [State.installOwn]
  split <;> rfl

@[simp] theorem State.sendUpdates_rods (w : Option Nat) (ls : List Nat) (s : State) : (s.sendUpdates w ls).rods = s.rods := by
  induction ls generalizing s with
  | nil => rfl
  | cons l ls ih =>
    refine (ih _).trans ?_
    cases w with
    | none => exact List.foldlRecOn (motive := fun t : State => t.rods = s.rods) _ _ rfl fun t ht d _ => ht
    | some d =>
      refine (State.installOwn_rods _ d l).trans ?_
      exact List.foldlRecOn (motive := fun t : State => t.rods = s.rods) _ _ rfl fun t ht d _ => ht

theorem State.NoLdl.performLine (h : s.NoLdl frame buf) (i : Inflight) : (s.performLine i).NoLdl frame buf := by
  have hwrite : (s.pathWrite 0 (.core i.rod i.frame i.core) i.rel i.bytes).NoLdl frame buf :=
    h.of_rods_map (State.sendUpdates_rods _ _ _) fun _ => Rod.ldlIn_of_wakeOnWrite
  exact hwrite.modRod i.rod fun _ hq => hq

theorem State.NoLdl.commit (h : s.NoLdl frame buf) (u : Nat) : (s.commit u).NoLdl frame buf := by
  unfold State.commit
  split
  · exact h
  · split
    · exact h
    · exact State.NoLdl.modRod (h.of_rods_eq rfl) u fun _ hq => hq

/-- A commit leaves no LDL under way where none was. -/
theorem State.NoLdl.commitPerform (h : s.NoLdl frame buf) (u : Nat) : (s.commitPerform u).NoLdl frame buf := by
  unfold State.commitPerform State.drain
  exact List.foldlRecOn (motive := fun t : State => t.NoLdl frame buf) _ _ ((h.commit u).of_rods_eq rfl)
    fun t ht i _ => ht.performLine i

end

/-! ### Commit points that are checked first -/

section
variable {s t : State} {r q : Rod} {i : Instr} {check body : M Unit}

/-- The state in which an instruction that is checked before it commits takes effect: the open region is committed and a new
one has begun (R146). -/
def State.reopened (s : State) (r : Rod) : State :=
  ((s.setRod r.leave).commitPerform r.uid).alter r.uid Rod.openRegion

theorem State.curRod?_reopened (h : s.curRod? = some r) : ∃ p, (s.reopened r).curRod? = some p ∧ r.Alike p :=
  State.curRod?_newRegion (r := r.leave) (State.curRod?_setRod h rfl)

/-- The commit changes no frame, no cell and no work that names a buffer. -/
theorem State.reopened_frames_cells (h : s.curRod? = some r) :
    (∀ u, (s.reopened r).frame? u = s.frame? u) ∧ (s.reopened r).cells = s.cells ∧
      ∀ f buf g, (s.reopened r).segmentBad f buf g = s.segmentBad f buf g := by
  have hu := (s.setRod r.leave).commitPerform_undisturbed r.uid
  obtain ⟨q, hq, hk⟩ := hu.curRod? (r := r.leave) (State.curRod?_setRod h rfl)
  unfold State.reopened
  rw [State.alter_of_curRod? (u := r.uid) hq hk.uid, hu.rest]
  exact ⟨fun _ => rfl, rfl, fun _ _ _ => rfl⟩

theorem State.NoLdl.reopened {frame buf : Nat} (h : s.NoLdl frame buf) (hr : r.status = .ready) :
    (s.reopened r).NoLdl frame buf := by
  have hcommit := State.NoLdl.commitPerform (h.setRod (r := r.leave) (Rod.not_ldlIn_of_ready hr)) r.uid
  unfold State.reopened State.alter
  split
  · exact hcommit
  · next q hq => exact hcommit.setRod (r := q.openRegion) (hcommit q (List.mem_of_find?_eq_some hq))

/-- A checked commit point that passes its check, whose lines nothing bars and whose effect completes: a new region begins
after it. -/
theorem executeChecked_ok (h : Issues s r i) (hc : commits i = false) (hb : s.blockedLine r.uid = none)
    (hcheck : check (s.setRod r.leave) = (.ok (), s.setRod r.leave)) (hbody : body (s.reopened r) = (.ok (), t))
    (ht : t.curRod? = some q) :
    executeChecked i check body s = .next ((t.setRod q.advance.openRegion).tick (r.laneCycles (onceOnly i))) := by
  have h0 : (s.setRod r.leave).curRod? = some r.leave := State.curRod?_setRod h.cur rfl
  have hb0 : (s.setRod r.leave).blockedLine r.leave.uid = none := (State.blockedLine_leave (State.curRod?_eq h.cur).2).trans hb
  have hcommit : M.commitPoint false (s.setRod r.leave) = (.ok (), s.reopened r) := M.commitPoint_eager (r := r.leave) h0 hb0
  have hadvance : M.advance t = (.ok (), t.setRod q.advance) := onRod_ok ht rfl
  unfold executeChecked
  refine executeControl_ok h hc ?_
  rw [M.bind_ok hcheck, M.bind_ok hcommit, M.bind_ok hbody, M.bind_ok hadvance,
    M.commitDone_some (State.curRod?_setRod (q := q.advance) ht rfl), State.setRod_setRod t q.advance q.advance.openRegion rfl]

/-- A checked commit point that fails its check: nothing is committed. -/
theorem executeChecked_error {e : Stop} (h : Issues s r i) (hc : commits i = false)
    (hcheck : check (s.setRod r.leave) = (.error e, s.setRod r.leave)) :
    executeChecked i check body s = .next (((s.setRod r.leave).settle r.uid e).tick (r.cyclesOf (onceOnly i) (.error e))) := by
  unfold executeChecked
  exact executeControl_error h hc (M.bind_error hcheck)

end

/-- The issuing rod's frame. -/
theorem M.frame_apply {s : State} {r : Rod} {f : Frame} (h : s.curRod? = some r) (hf : s.frame? r.frame = some f) :
    M.frame s = (.ok f, s) := by
  unfold M.frame
  rw [M.bind_ok (M.rod_apply h), M.bind_ok (M.get_apply s), hf]
  rfl

end Sys2Proof.Machine
end


section
/-!
The settling of O19: SEGLD, its check, and what its load leaves of the cells, the frame and the rod (R56, R406, R407).
-/

namespace Sys2Proof.Machine

/-! ### Segments and cells -/

section
variable {s : State} {f : Frame} {p : Rod} {buf : Nat} {g : Seg}

/-- A segment register that is set holds its new value, and the others keep theirs (R56). -/
theorem Frame.seg_setSeg (f : Frame) {a b : Nat} (g : Seg) (ha : a < 4) (hb : b < 4) :
    (f.setSeg a g).seg b = if b = a then g else f.seg b := by
  interval_cases a <;> interval_cases b <;> rfl

/-- A table from which entries are taken by their key holds at a key what it held, or the default. -/
theorem Sparse.get_filter {α : Type} (d : α) {p : Nat × α → Bool} {a : Nat} {keep : Bool} (h : ∀ x, p (a, x) = keep)
    (m : List (Nat × α)) : Sparse.get d (m.filter p) a = if keep = true then Sparse.get d m a else d := by
  induction m with
  | nil => simp [Sparse.get]
  | cons c m ih =>
    obtain ⟨b, x⟩ := c
    rw [List.filter_cons]
    by_cases hb : b = a
    · subst hb
      rw [h x]
      cases keep with
      | true => simp [Sparse.get]
      | false => simpa using ih
    · split <;> simpa [Sparse.get, hb] using ih

/-- A cell keeps its content when both segments hold it or neither does; else it becomes an absent zero (R407). -/
theorem State.moveSegment_cell (s : State) (core : Nat) (old new : Seg) {n : Nat} (hn : n < bufferCells buf) :
    (s.moveSegment core buf old new).cell core buf n = if old.holds n = new.holds n then s.cell core buf n else Cell.empty := by
  have hkey : cellKey core buf n = cellKey core buf 0 + n := by rw [cellKey, cellKey, Nat.add_zero]
  unfold State.moveSegment State.cell
  rw [Sparse.get_filter Cell.empty (keep := decide (old.holds n = new.holds n))]
  · simp only [decide_eq_true_eq]
  · intro x
    rw [hkey, Nat.add_sub_cancel_left]
    cases old.holds n <;> cases new.holds n <;> simp [hn]

theorem State.replaceHeld_undisturbed (s : State) (f : Frame) (buf : Nat) : s.Undisturbed (s.replaceHeld f buf) :=
  ⟨.of_rods_map (fun r => by
    split
    · split <;> rfl
    · rfl) rfl, rfl⟩

/-! ### The load -/

/-- The segment register of a buffer is loaded: cells, frame, and the rods that are held at the buffer (R21, R407). -/
def State.loadSegment (s : State) (f : Frame) (buf : Nat) (g : Seg) : State :=
  ((s.moveSegment f.core buf (f.seg buf) g).modFrame f.uid fun f => f.setSeg buf g).replaceHeld f buf

theorem State.loadSegment_cell (s : State) (f : Frame) (g : Seg) {n : Nat} (hn : n < bufferCells buf) :
    (s.loadSegment f buf g).cell f.core buf n =
      if (f.seg buf).holds n = g.holds n then s.cell f.core buf n else Cell.empty :=
  s.moveSegment_cell f.core (f.seg buf) g hn

theorem State.loadSegment_frame? (h : s.frame? f.uid = some f) :
    (s.loadSegment f buf g).frame? f.uid = some (f.setSeg buf g) := by
  have hset (x : Frame) : (x.setSeg buf g).uid = x.uid := by unfold Frame.setSeg; split <;> rfl
  have huid (x : Frame) : (if x.uid = f.uid then x.setSeg buf g else x).uid = x.uid := by split <;> simp [hset]
  show (s.frames.map fun x => if x.uid = f.uid then x.setSeg buf g else x).find? (fun x => decide (x.uid = f.uid)) = _
  rw [List.find?_map]
  simp only [Function.comp_def, huid]
  rw [show s.frames.find? (fun x => decide (x.uid = f.uid)) = some f from h]
  simp

theorem State.curRod?_loadSegment (h : s.curRod? = some p) : ∃ q, (s.loadSegment f buf g).curRod? = some q ∧ p.Kept q :=
  State.Undisturbed.curRod? (State.replaceHeld_undisturbed _ f buf) h

theorem State.uid_of_frame? {u : Nat} (h : s.frame? u = some f) : f.uid = u := by simpa using List.find?_some h

end

/-! ### The instruction -/

section
variable {s : State} {f : ShSegld} {p : Rod} {fr : Frame}

/-- SEGLD's check: the rod is privileged, and the operand's bits [63:40] are zero (R406, R407). -/
def M.segldCheck (f : ShSegld) : M Unit := do
  let r ← M.rod
  M.need (r.handler.isSome && decide (field (r.sreg (sIndex f.a)).toNat 40 24 = 0)) reservedField

/-- The segment that a register holds, as R56 lays it out. -/
def segmentOf (x : Dword) : Seg := ⟨x.extractLsb' 20 20, x.extractLsb' 0 20⟩

/-- SEGLD's effect (R407). -/
def M.segldLoad (f : ShSegld) : M Unit := do
  let r ← M.rod
  let fr ← M.frame
  let s ← get
  let x := (r.sreg (sIndex f.a)).toNat
  let g : Seg := ⟨BitVec.ofNat 20 (field x 20 20), BitVec.ofNat 20 (field x 0 20)⟩
  M.need (!s.segmentBad fr f.k.toNat g) (segmentFault none)
  M.need (!s.ldlUnderWay fr f.k.toNat) .settled
  M.upd fun s => s.loadSegment fr f.k.toNat g

theorem exec_segld_eq (f : ShSegld) (s : State) :
    exec (.segld f) s = executeChecked (.segld f) (M.segldCheck f) (M.segldLoad f) s := rfl

theorem ofNat_field_eq_extractLsb' (x : Dword) (lo n : Nat) : BitVec.ofNat n (field x.toNat lo n) = x.extractLsb' lo n := by
  refine BitVec.eq_of_toNat_eq ?_
  simp [field, Nat.shiftRight_eq_div_pow]

theorem field_high_of_ushiftRight {x : Dword} (h : x >>> 40 = 0) : field x.toNat 40 24 = 0 := by
  have hdiv : x.toNat / 2 ^ 40 = 0 := by simpa [Nat.shiftRight_eq_div_pow] using congrArg BitVec.toNat h
  rw [field, hdiv, Nat.zero_mod]

theorem M.segldCheck_ok (h : s.curRod? = some p) (hp : p.handler ≠ none) (hx : p.sreg (sIndex f.a) >>> 40 = 0) :
    M.segldCheck f s = (.ok (), s) := by
  unfold M.segldCheck
  rw [M.bind_ok (M.rod_apply h), Option.isSome_iff_ne_none.mpr hp, field_high_of_ushiftRight hx]
  rfl

/-- A rod that is not in handler mode is not privileged (R406). -/
theorem M.segldCheck_error (h : s.curRod? = some p) (hp : p.handler = none) : M.segldCheck f s = (.error reservedField, s) := by
  unfold M.segldCheck
  rw [M.bind_ok (M.rod_apply h), hp]
  rfl

theorem M.segldLoad_ok (h : s.curRod? = some p) (hf : s.frame? p.frame = some fr)
    (hbad : s.segmentBad fr f.k.toNat (segmentOf (p.sreg (sIndex f.a))) = false)
    (hldl : s.ldlUnderWay fr f.k.toNat = false) :
    M.segldLoad f s = (.ok (), s.loadSegment fr f.k.toNat (segmentOf (p.sreg (sIndex f.a)))) := by
  unfold segmentOf at *
  unfold M.segldLoad
  rw [M.bind_ok (M.rod_apply h), M.bind_ok (M.frame_apply h hf), M.bind_ok (M.get_apply s)]
  simp only [ofNat_field_eq_extractLsb', hbad, hldl]
  rfl

end

end Sys2Proof.Machine

namespace Sys2Proof.Claims

open Sys2Proof.Machine

/-- SEGLD outside handler mode halts its context with class 9 and the cause reserved field (R406). -/
theorem segld_unprivileged {s : State} {r : Rod} {f : ShSegld} (h : Issues s r (.segld f)) (hh : r.handler = none) :
    exec (.segld f) s = .next (((s.setRod r.leave).raiseHalt r.asid (haltOfRod (s.setRod r.leave) r.leave 9 4 0 0)).tick
      (r.laneCycles (onceOnly (.segld f)))) := by
  have h0 : (s.setRod r.leave).curRod? = some r.leave := State.curRod?_setRod h.cur rfl
  have hhalt : (s.setRod r.leave).settle r.uid reservedField =
      (s.setRod r.leave).raiseHalt r.asid (haltOfRod (s.setRod r.leave) r.leave 9 4 0 0) := by
    show (s.setRod r.leave).takeTrap r.leave.uid 9 4 none 0 0 = _
    unfold State.takeTrap
    rw [(State.curRod?_eq h0).2]
    rfl
  rw [exec_segld_eq, executeChecked_error h rfl (M.segldCheck_error h0 hh), hhalt]
  rfl

/-- SEGLD in handler mode, whose operand and segment pass the checks: the segment register is loaded in the state that the
commit leaves, and the rod moves on (R406, R407). -/
theorem segld_privileged {s : State} {r : Rod} {fr : Frame} {f : ShSegld} (h : Issues s r (.segld f))
    (hb : s.blockedLine r.uid = none) (hfr : s.frame? r.frame = some fr) (hh : r.handler ≠ none)
    (hx : r.sreg (sIndex f.a) >>> 40 = 0) (hbad : s.segmentBad fr f.k.toNat (segmentOf (r.sreg (sIndex f.a))) = false)
    (hldl : s.ldlUnderWay fr f.k.toNat = false) :
    let t := (s.reopened r).loadSegment fr f.k.toNat (segmentOf (r.sreg (sIndex f.a)))
    ∃ p, t.curRod? = some p ∧ r.Alike p ∧
      exec (.segld f) s = .next ((t.setRod p.advance.openRegion).tick (r.laneCycles (onceOnly (.segld f)))) := by
  intro t
  have h0 : (s.setRod r.leave).curRod? = some r.leave := State.curRod?_setRod h.cur rfl
  obtain ⟨hframes, -, hbads⟩ := State.reopened_frames_cells h.cur
  obtain ⟨q, hq, hk⟩ := State.curRod?_reopened h.cur
  have hframe : (s.reopened r).frame? q.frame = some fr := by rw [hframes, hk]; exact hfr
  have hno := (State.ldlUnderWay_eq_false_iff.mp hldl).reopened h.ready
  have hload := M.segldLoad_ok (f := f) hq hframe (by rw [hk.sreg, hbads]; exact hbad) (State.ldlUnderWay_eq_false_iff.mpr hno)
  rw [hk.sreg] at hload
  obtain ⟨p, hp, hkp⟩ := State.curRod?_loadSegment (f := fr) (buf := f.k.toNat) (g := segmentOf (r.sreg (sIndex f.a))) hq
  exact ⟨p, hp, hk.trans hkp.alike, executeChecked_ok h rfl hb (M.segldCheck_ok h0 hh hx) hload hp⟩

/-- Settles O19: the load acts on the frames and cells of the state before it, which the commit has left as they were. -/
theorem segldLoads : Obligations.SegldLoads := by
  unfold Obligations.SegldLoads
  refine ⟨?_, fun s r f h hh => segld_unprivileged h hh⟩
  intro s r fr f h hb hfr hh hx g old hbad hldl
  obtain ⟨p, hp, hk, hexec⟩ := segld_privileged h hb hfr hh hx hbad hldl
  obtain ⟨hframes, hcells, -⟩ := State.reopened_frames_cells h.cur
  have hframe : (s.reopened r).frame? fr.uid = some fr := by rw [hframes, State.uid_of_frame? hfr]; exact hfr
  have hcell (n : Nat) : (s.reopened r).cell fr.core f.k.toNat n = s.cell fr.core f.k.toNat n := by
    unfold State.cell
    rw [hcells]
  have hrod := (State.curRod?_eq (State.curRod?_setRod (q := p.advance.openRegion) hp rfl)).2
  refine ⟨_, p.advance.openRegion.tick (r.laneCycles (onceOnly (.segld f))), fr.setSeg f.k.toNat g, hexec, ?_, ?_, ?_, ?_,
    State.loadSegment_frame? hframe, ?_, fun b hb hne => ?_, fun n hn => ?_⟩
  · rw [State.rod?_tick, ← hk.uid]
    exact congrArg (Option.map _) hrod
  · rw [hk]; rfl
  · rw [hk]; rfl
  · rw [hk]; rfl
  · rw [Frame.seg_setSeg fr g f.k.isLt f.k.isLt, if_pos rfl]
  · rw [Frame.seg_setSeg fr g f.k.isLt hb, if_neg hne]
  · refine ((s.reopened r).loadSegment_cell fr g hn).trans ?_
    rw [hcell]
    exact if_congr decide_eq_decide rfl rfl

end Sys2Proof.Claims
end

section
/-!
SUPPORT. The decoder from its opcodes: which instruction each names, and when none is named (R72 to R75).
-/

namespace Sys2Proof.Laws

/-- The opcode of every instruction's word names the instruction with all its fields. -/
theorem Coding.statement (i : Instr) : Coding.Statement i := by
  cases i with
  | illegal f => exact Coding.illegal f
  | bra f => exact Coding.bra f
  | brpAll f => exact Coding.brpAll f
  | brpAny f => exact Coding.brpAny f
  | call f => exact Coding.call f
  | callReg f => exact Coding.callReg f
  | cont f => exact Coding.cont f
  | ret f => exact Coding.ret f
  | brk f => exact Coding.brk f
  | trap f => exact Coding.trap f
  | upcall f => exact Coding.upcall f
  | live f => exact Coding.live f
  | iadd f => exact Coding.iadd f
  | iaddImm f => exact Coding.iaddImm f
  | isub f => exact Coding.isub f
  | imul f => exact Coding.imul f
  | imulImm f => exact Coding.imulImm f
  | imulhi f => exact Coding.imulhi f
  | imad f => exact Coding.imad f
  | idiv f => exact Coding.idiv f
  | irem f => exact Coding.irem f
  | imin f => exact Coding.imin f
  | imax f => exact Coding.imax f
  | iclamp f => exact Coding.iclamp f
  | icmpS f => exact Coding.icmpS f
  | icmpN f => exact Coding.icmpN f
  | isad f => exact Coding.isad f
  | idot4 f => exact Coding.idot4 f
  | iabs f => exact Coding.iabs f
  | ineg f => exact Coding.ineg f
  | itof f => exact Coding.itof f
  | ftoi f => exact Coding.ftoi f
  | and f => exact Coding.and f
  | andImm f => exact Coding.andImm f
  | andn f => exact Coding.andn f
  | or f => exact Coding.or f
  | orImm f => exact Coding.orImm f
  | xor f => exact Coding.xor f
  | xorImm f => exact Coding.xorImm f
  | shl f => exact Coding.shl f
  | shlImm f => exact Coding.shlImm f
  | shr f => exact Coding.shr f
  | shrImm f => exact Coding.shrImm f
  | sra f => exact Coding.sra f
  | sraImm f => exact Coding.sraImm f
  | shadd f => exact Coding.shadd f
  | sel f => exact Coding.sel f
  | mov f => exact Coding.mov f
  | movi f => exact Coding.movi f
  | movhi f => exact Coding.movhi f
  | clz f => exact Coding.clz f
  | popc f => exact Coding.popc f
  | brev f => exact Coding.brev f
  | bfx f => exact Coding.bfx f
  | bfi f => exact Coding.bfi f
  | ilv f => exact Coding.ilv f
  | dilv f => exact Coding.dilv f
  | unpk3 f => exact Coding.unpk3 f
  | tacc f => exact Coding.tacc f
  | plog f => exact Coding.plog f
  | faddF32 f => exact Coding.faddF32 f
  | faddF16 f => exact Coding.faddF16 f
  | faddBf16 f => exact Coding.faddBf16 f
  | fsub f => exact Coding.fsub f
  | fmulF32 f => exact Coding.fmulF32 f
  | fmulF16 f => exact Coding.fmulF16 f
  | fmulBf16 f => exact Coding.fmulBf16 f
  | fmaF32 f => exact Coding.fmaF32 f
  | fmaF16 f => exact Coding.fmaF16 f
  | fmaBf16 f => exact Coding.fmaBf16 f
  | hfma2F16 f => exact Coding.hfma2F16 f
  | hfma2Bf16 f => exact Coding.hfma2Bf16 f
  | fmin f => exact Coding.fmin f
  | fmax f => exact Coding.fmax f
  | fcmp f => exact Coding.fcmp f
  | fcvt f => exact Coding.fcvt f
  | ld f => exact Coding.ld f
  | st f => exact Coding.st f
  | stn f => exact Coding.stn f
  | ldlS f => exact Coding.ldlS f
  | ldlW f => exact Coding.ldlW f
  | ldlA f => exact Coding.ldlA f
  | ldlC f => exact Coding.ldlC f
  | stlS f => exact Coding.stlS f
  | stlA f => exact Coding.stlA f
  | stlC f => exact Coding.stlC f
  | acas f => exact Coding.acas f
  | amax64 f => exact Coding.amax64 f
  | atomS32 f => exact Coding.atomS32 f
  | atomN32 f => exact Coding.atomN32 f
  | atomS64 f => exact Coding.atomS64 f
  | atomN64 f => exact Coding.atomN64 f
  | tex f => exact Coding.tex f
  | trace f => exact Coding.trace f
  | vmarch f => exact Coding.vmarch f
  | ttask f => exact Coding.ttask f
  | infer f => exact Coding.infer f
  | sumset f => exact Coding.sumset f
  | sumsend f => exact Coding.sumsend f
  | sumfree f => exact Coding.sumfree f
  | wbind f => exact Coding.wbind f
  | wcsr f => exact Coding.wcsr f
  | wtouch f => exact Coding.wtouch f
  | wdrop f => exact Coding.wdrop f
  | rand f => exact Coding.rand f
  | capld f => exact Coding.capld f
  | capnar f => exact Coding.capnar f
  | launch f => exact Coding.launch f
  | fdiv f => exact Coding.fdiv f
  | fsqrt f => exact Coding.fsqrt f
  | frcpF32 f => exact Coding.frcpF32 f
  | frcpF16 f => exact Coding.frcpF16 f
  | frsqF32 f => exact Coding.frsqF32 f
  | frsqF16 f => exact Coding.frsqF16 f
  | fexp2F32 f => exact Coding.fexp2F32 f
  | fexp2F16 f => exact Coding.fexp2F16 f
  | flog2F32 f => exact Coding.flog2F32 f
  | flog2F16 f => exact Coding.flog2F16 f
  | frnd f => exact Coding.frnd f
  | fclass f => exact Coding.fclass f
  | voteAny f => exact Coding.voteAny f
  | voteAll f => exact Coding.voteAll f
  | voteBallot f => exact Coding.voteBallot f
  | voteEq f => exact Coding.voteEq f
  | rodredIadd f => exact Coding.rodredIadd f
  | rodredFadd f => exact Coding.rodredFadd f
  | rodredSmin f => exact Coding.rodredSmin f
  | rodredSmax f => exact Coding.rodredSmax f
  | rodredNmin f => exact Coding.rodredNmin f
  | rodredNmax f => exact Coding.rodredNmax f
  | rodredAnd f => exact Coding.rodredAnd f
  | rodredOr f => exact Coding.rodredOr f
  | rodscanIaddInc f => exact Coding.rodscanIaddInc f
  | rodscanIaddExc f => exact Coding.rodscanIaddExc f
  | rodscanFaddInc f => exact Coding.rodscanFaddInc f
  | rodscanFaddExc f => exact Coding.rodscanFaddExc f
  | shflIdx f => exact Coding.shflIdx f
  | shflUp f => exact Coding.shflUp f
  | shflDown f => exact Coding.shflDown f
  | shflXor f => exact Coding.shflXor f
  | pmovReg f => exact Coding.pmovReg f
  | pmovPred f => exact Coding.pmovPred f
  | pxout f => exact Coding.pxout f
  | gets f => exact Coding.gets f
  | sets f => exact Coding.sets f
  | rdclk f => exact Coding.rdclk f
  | setfmt f => exact Coding.setfmt f
  | setmode f => exact Coding.setmode f
  | wbase f => exact Coding.wbase f
  | segld f => exact Coding.segld f
  | caprd f => exact Coding.caprd f
  | fenceAcq f => exact Coding.fenceAcq f
  | fenceRel f => exact Coding.fenceRel f
  | fenceAcqrel f => exact Coding.fenceAcqrel f
  | fenceSc f => exact Coding.fenceSc f
  | xfence f => exact Coding.xfence f
  | flush f => exact Coding.flush f
  | flushInv f => exact Coding.flushInv f
  | bar f => exact Coding.bar f
  | waitv f => exact Coding.waitv f
  | waitvS64 f => exact Coding.waitvS64 f
  | pref f => exact Coding.pref f
  | burst f => exact Coding.burst f
  | chadv f => exact Coding.chadv f
  | edgeget f => exact Coding.edgeget f
  | edgeput f => exact Coding.edgeput f
  | qpop f => exact Coding.qpop f
  | qpush f => exact Coding.qpush f
  | qblk f => exact Coding.qblk f
  | dqblk f => exact Coding.dqblk f
  | nop => exact Coding.nop
  | join => exact Coding.join
  | exit => exact Coding.exit
  | region => exact Coding.region
  | eret => exact Coding.eret
  | yield => exact Coding.yield
  | _ => exact fun h => absurd (show false = true from h) Bool.false_ne_true

/-- No opcode, and no secondary opcode, names a step of a unit of the device (R72 to R75). -/
theorem isWord_of_decodeOpcode {w : Nat} {i : Instr} (h : decodeOpcode w = some i) : i.isWord = true := by
  have hall : (decodeOpcode w).all Instr.isWord = true := by
    unfold decodeOpcode
    split
    case h_113 => unfold decodeGroupFloatSpecial; split <;> rfl
    case h_114 => unfold decodeGroupRodCollective; split <;> rfl
    case h_115 => unfold decodeGroupStateControl; split <;> rfl
    case h_116 => unfold decodeGroupOrdering; split <;> rfl
    case h_117 => unfold decodeGroupQueuesEngines; split <;> rfl
    case h_118 => unfold decodeGroupBlockConversion; split <;> rfl
    all_goals rfl
  rw [h] at hall
  exact hall

/-- A word is refused with the cause reserved opcode where no opcode names an instruction (R75). -/
theorem decode_of_no_opcode {w : Word} (h : decodeOpcode w.toNat = none) : decode w = .error .reservedOpcode := by
  rw [decode, h]

/-- The opcode of a word is the number of its upper seven bits. -/
theorem opcode_of_word (w : Word) : field w.toNat 25 7 = w.toNat / 2 ^ 25 := by
  have := w.isLt
  simp only [field]
  omega

theorem decodeOpcode_of_reserved {w : Nat} (hlo : 0x76 ≤ field w 25 7) : decodeOpcode w = none := by
  have hhi : field w 25 7 < 128 := Nat.mod_lt _ (by decide)
  unfold decodeOpcode
  generalize field w 25 7 = k at hlo hhi
  interval_cases k <;> rfl

theorem decodeOpcode_of_zero {w : Nat} (h : field w 25 7 = 0) : decodeOpcode w = some (.illegal (.ofBits w)) := by
  unfold decodeOpcode
  rw [h]
  rfl

/-- In a group an unassigned secondary opcode names no instruction (R74, R75). -/
theorem decodeOpcode_of_unassigned {w : Nat} (hlo : 0x70 ≤ field w 25 7) (hhi : field w 25 7 ≤ 0x75)
    (h : field w 0 7 ∉ Claims.secondaries (field w 25 7)) : decodeOpcode w = none := by
  obtain hg | hg | hg | hg | hg | hg : field w 25 7 = 0x70 ∨ field w 25 7 = 0x71 ∨ field w 25 7 = 0x72 ∨
      field w 25 7 = 0x73 ∨ field w 25 7 = 0x74 ∨ field w 25 7 = 0x75 := by omega
  all_goals rw [hg] at h
  on_goal 1 => rw [opcode_FloatSpecial hg, decodeGroupFloatSpecial]
  on_goal 2 => rw [opcode_RodCollective hg, decodeGroupRodCollective]
  on_goal 3 => rw [opcode_StateControl hg, decodeGroupStateControl]
  on_goal 4 => rw [opcode_Ordering hg, decodeGroupOrdering]
  on_goal 5 => rw [opcode_QueuesEngines hg, decodeGroupQueuesEngines]
  on_goal 6 => rw [opcode_BlockConversion hg, decodeGroupBlockConversion]
  all_goals split
  any_goals rfl
  all_goals next hj => exact absurd (by rw [hj]; decide) h

end Sys2Proof.Laws
end

section
/-!
The settling of O1, O54 and O55: words and instructions determine each other.
-/

namespace Sys2Proof.Claims

open Sys2Proof.Laws

/-- Settles O1, by evaluating the decoder at the ten words. -/
theorem sampleWordsDecode : Obligations.SampleWordsDecode := by
  unfold Obligations.SampleWordsDecode
  decide +kernel

/-- Settles O54: the word of an instruction has 32 bits, and its opcode names the instruction with all its fields. -/
theorem decodingInvertsEncoding : Obligations.DecodingInvertsEncoding := by
  intro i hi
  obtain ⟨hlt, hop⟩ := Coding.statement i hi
  have hnat : (encode i).toNat = encodeNat i := by
    rw [encode, BitVec.toNat_ofNat, Nat.mod_eq_of_lt hlt]
  simp only [decode, hnat, hop, if_true]

/-- Settles O55: the decoder compares the word with the one of the instruction that its opcode names. -/
theorem encodingInvertsDecoding : Obligations.EncodingInvertsDecoding := by
  intro w i h
  unfold decode at h
  split at h
  · cases h
  · next j hop =>
    split at h
    · next hw =>
      obtain rfl : j = i := Except.ok.inj h
      exact ⟨by rw [encode, hw, BitVec.ofNat_toNat, BitVec.setWidth_eq], isWord_of_decodeOpcode hop⟩
    · cases h

end Sys2Proof.Claims
end

section
/-!
SUPPORT. The issuing of any instruction, and of one that is an illegal encoding (R76).
-/

namespace Sys2Proof.Machine

/-- What the units of the device do is no word and legal; every other instruction is issued. -/
theorem exec_eq_issue_or_legal (i : Instr) :
    (∃ body, ∀ s, exec i s = issue i (onceOnly i) body s) ∨ (i.isWord = false ∧ i.illegal? = none) := by
  cases i with
  | scoreboardWriteback | timerExpiry | yieldHoldEnd | waitvMonitorWake | waitvSleepTimeout | frameRetire | engineHaltStop
  | haltRecordWrite | abortTokenReceive | pageWalkComplete | faultRecordWrite | portRevokedFault | dieUpdateApply
  | dieStampToken | readExclusiveUpgrade | flushWalkComplete | shootdown | resolve | deliver | assignEngine | releaseEngine
  | setGroup | saveRequest | restoreRequest | upcallReply | copyCellLand | wdropComplete | gatherElementLand
  | chainEntryStart | chainEntryComplete | taskPick | governorGrant | rampUpComplete | taskUnitComplete | taskDoneWrite
  | grantReturn | burstEnd | inferComplete | slotReserveRequest | reservationReply | slotOpen | creditRequest | creditReply
  | transferApply | slotWake | triangleEntry | textureResult | traceResult | marchResult | contGatherTimeout | dispatchLoop
  | queueClaim | queueRelease | queueBound | queuePass | bindRecord | boardReservation | launchFabricDelivery | hostAccess
  | pageGrant | directoryRecall | stallTimeout | powerOn | systemBlockAddress | firmwareUpdate | spdmRequest | sensorSample
  | grantCountAdjust | thermalTrip | alarm | reservedOpcode | reckonerAccess | homePerform | instructionCacheFill =>
    exact .inr ⟨rfl, rfl⟩
  | illegal f => exact .inl ⟨passing (.illegal f) (throw (.trap 9 1 none 0 0)), fun _ => rfl⟩
  | _ => exact .inl ⟨_, fun _ => rfl⟩

/-- Every instruction that is a word is issued, once or by its beads. -/
theorem exec_eq_issue_of_isWord {i : Instr} (h : i.isWord = true) : ∃ body, ∀ s, exec i s = issue i (onceOnly i) body s :=
  (exec_eq_issue_or_legal i).resolve_right fun hu => absurd (hu.1.symm.trans h) Bool.false_ne_true

/-- So is every instruction whose fields make it an illegal encoding. -/
theorem exec_eq_issue_of_illegal {i : Instr} {c : IllegalCause} (h : i.illegal? = some c) :
    ∃ body, ∀ s, exec i s = issue i (onceOnly i) body s :=
  (exec_eq_issue_or_legal i).resolve_right fun hu => absurd (hu.2.symm.trans h) (Option.some_ne_none c).symm

section
variable {s : State} {r : Rod} {i : Instr} {c : IllegalCause} {once : Bool} {body : M Unit}

/-- A fatal fault of a rod that is there halts its context (R286, R293). -/
theorem State.settle_fatal {cls cause info code : Nat} {b : Option Nat} (hc : fatalClass cls = true)
    (h : s.rod? r.uid = some r) :
    s.settle r.uid (.trap cls cause b info code) = s.raiseHalt r.asid (haltOfRod s r cls cause (beadNo b) info) := by
  simp only [State.settle, State.takeTrap, h, hc, if_true]

/-- An illegal encoding ends before it has had any effect, the start of its rod's group included (R76). -/
theorem issue_illegal (h : s.curRod? = some r) (hi : i.illegal? = some c) :
    issue i once body s = .next ((s.raiseHalt r.asid (haltOfRod s r 9 c.code 0 0)).tick (r.laneCycles once)) := by
  have hbody : performed i body s = (.error (.trap 9 c.code none 0 0), s) := by
    have hlegal : M.legal i s = (.error (.trap 9 c.code none 0 0), s) := by
      simp only [M.legal, hi, M.throw_apply]
    unfold performed
    exact M.bind_error hlegal
  unfold issue
  rw [h]
  dsimp only
  rw [hbody]
  dsimp only
  rw [State.settle_fatal rfl (State.curRod?_eq h).2]
  rfl

/-- A word that does not decode halts the context of its rod with the cause that the decoder gives (R75, R76). -/
theorem exec_undecodable {w : Word} (h : s.curRod? = some r) (hw : decode w = .error c) :
    exec (.reservedOpcode w) s = .next
      (((s.setRod r.leave).raiseHalt r.asid (haltOfRod (s.setRod r.leave) r.leave 9 c.code 0 0)).tick
        (r.laneCycles (onceOnly (.reservedOpcode w)))) := by
  have hcause : wordCause w = c.code := by simp only [wordCause, hw]
  have hleave : (s.setRod r.leave).curRod? = some r.leave := State.curRod?_setRod h rfl
  show executeControl (.reservedOpcode w) (throw (.trap 9 (wordCause w) none 0 0)) s = _
  unfold executeControl
  rw [issue_plain h rfl rfl, M.bind_ok (M.inAllocation_apply hleave rfl rfl), M.throw_apply, hcause]
  dsimp only
  rw [show r.uid = r.leave.uid from rfl, State.settle_fatal rfl (State.curRod?_eq hleave).2]
  rfl

end

end Sys2Proof.Machine
end

section
/-!
The settling of O14: reserved opcodes and illegal fields.
-/

namespace Sys2Proof.Claims

open Sys2Proof.Machine Sys2Proof.Laws

/-- Settles O14: a word that no opcode names is refused by the decoder, and an illegal encoding, refused or not, ends with the
fatal class 9 before any bead issues. -/
theorem illegalWordsHalt : Obligations.IllegalWordsHalt := by
  unfold Obligations.IllegalWordsHalt
  refine ⟨?reserved, ?zeros, rfl, ?unassigned, fun _ => rfl, ?fields, ?word⟩
  case reserved =>
    intro w hw
    exact decode_of_no_opcode (decodeOpcode_of_reserved (by rwa [opcode_of_word]))
  case zeros =>
    intro w hw
    refine ⟨.ofBits w.toNat, ?_⟩
    have hbits : encodeNat (.illegal (.ofBits w.toNat)) = w.toNat := by
      have := w.isLt
      simp only [encodeNat, ShIllegal.bits, ShIllegal.ofBits, BitVec.toNat_ofNat, field]
      omega
    simp only [decode, decodeOpcode_of_zero ((opcode_of_word w).trans hw), hbits, if_true]
  case unassigned =>
    intro w hlo hhi hj
    rw [← opcode_of_word] at hlo hhi hj
    refine decode_of_no_opcode (decodeOpcode_of_unassigned hlo hhi ?_)
    rwa [show field w.toNat 0 7 = w.toNat % 2 ^ 7 from by simp only [field]; omega]
  case fields =>
    intro s r i c hr hi
    obtain ⟨body, hbody⟩ := exec_eq_issue_of_illegal hi
    rw [hbody, issue_illegal hr hi]
  case word =>
    intro s r w c hr hw
    exact ⟨by rw [instrOf, hw], exec_undecodable hr hw⟩

end Sys2Proof.Claims
end

section
/-!
The settling of O23: LIVE and CAPLD.
-/

namespace Sys2Proof.Machine

section
variable {s : State} {r : Rod} {i : Instr}

/-- A legal instruction that is no commit point, whose effect is on its rod alone, however it computes it: the rod moves past
the instruction, and its lane cycles pass. -/
theorem execute_completed {body : M Unit} {q : Rod} (h : Issues s r i) (hc : commits i = false)
    (hb : body (s.setRod r.leave) = (.ok (), s.setRod q)) (hq : q.uid = r.uid) :
    execute i body s = .next (s.completed r q.advance i) := by
  have h0 : (s.setRod r.leave).curRod? = some r.leave := State.curRod?_setRod h.cur rfl
  have h1 : (s.setRod q).curRod? = some q := State.curRod?_setRod h.cur hq
  have hadv : M.advance (s.setRod q) = (.ok (), s.setRod q.advance) := by
    rw [← State.setRod_setRod s q q.advance rfl]
    exact onRod_ok h1 rfl
  unfold execute passing
  rw [issue_plain h.cur h.legal hc, M.bind_ok (M.inAllocation_apply h0 h.inside h.whole), M.bind_ok hb, hadv]
  rfl

/-- The reserved bits of a handle-table entry are zero (R119). -/
theorem field_two_bits {e : Nat} (h0 : e.testBit 120 = false) (h1 : e.testBit 121 = false) : field e 120 2 = 0 := by
  refine Nat.eq_of_testBit_eq fun i => ?_
  rw [field, Nat.testBit_mod_two_pow, Nat.testBit_div_two_pow, Nat.zero_testBit]
  match i with
  | 0 => simp [h0]
  | 1 => simp [h1]
  | i + 2 => simp

/-- The capability that a handle-table entry holds (R48, R119). -/
theorem Cap.ofNat_eq (e : Nat) : Cap.ofNat e =
    ⟨e.testBit 127, e.testBit 126, e.testBit 125, e.testBit 124, e.testBit 123, e.testBit 122, BitVec.ofNat 24 (e / 2 ^ 96),
      BitVec.ofNat 48 (e / 2 ^ 48), BitVec.ofNat 48 e⟩ := by
  have hbit (k : Nat) : decide (field e k 1 = 1) = e.testBit k := by
    rw [Nat.testBit_eq_decide_div_mod_eq, field, pow_one]
  have hpart (lo n : Nat) : BitVec.ofNat n (field e lo n) = BitVec.ofNat n (e / 2 ^ lo) :=
    BitVec.eq_of_toNat_eq (by simp [field])
  simp only [Cap.ofNat, hbit, hpart, pow_zero, Nat.div_one]

/-- The rod whose last LIVE named the descriptor at an address (R386). -/
def Rod.lived (x : Nat) (r : Rod) : Rod := { r with live := some (BitVec.ofNat 48 x), atLive := true }

/-- LIVE takes the descriptor at a multiple of 16 of its own code object that keeps the rules of R83 (R386). -/
theorem exec_live {fr : Frame} {f : ShCode} {x base len : Nat} {at_ : Nat → Nat} (h : Issues s r (.live f))
    (hat : (r.pc + (f.i.signExtend 48 <<< 2)).toNat = x) (hf : s.frame? r.frame = some fr) (hx : x % 16 = 0)
    (hc : Claims.codeIs s r.core r.asid r.pc.toNat base len) (hlo : base ≤ x) (hhi : x + 64 ≤ base + len)
    (hd : Claims.codeReads s r.core r.asid x at_ 4)
    (hok : liveOk (Claims.codeAt s at_ 4) r.alloc fr.segS.limit.toNat = true) :
    exec (.live f) s = .next (s.completed r (r.leave.lived x).advance (.live f)) := by
  have h0 : (s.setRod r.leave).curRod? = some r.leave := State.curRod?_setRod h.cur rfl
  refine execute_completed h rfl ?_ rfl
  rw [M.bind_ok (M.rod_apply h0), M.bind_ok (M.frame_apply h0 hf),
    show r.leave.pc = r.pc from rfl, hat, decide_eq_true hx, M.bind_ok (M.need_true _ _),
    M.bind_ok (M.ahead_ok h0 (M.codeObject_ok h0 hc))]
  dsimp only
  rw [decide_eq_true ⟨hlo, hhi⟩, M.bind_ok (M.need_true _ _), M.bind_ok (M.ahead_ok h0 (M.readCode_ok h0 hd)),
    show liveOk (Claims.codeAt (s.setRod r.leave) at_ 4) r.leave.alloc fr.segS.limit.toNat = true from hok,
    M.bind_ok (M.need_true _ _)]
  exact (onRod_ok h0 (RM.modify_apply (Rod.lived x) _)).trans (by rw [State.setRod_setRod s r.leave (r.leave.lived x) rfl])

/-- CAPLD takes the capability of an entry of the context's handle table whose reserved bits are zero (R119, R344). -/
theorem exec_capld {f : ShCapld} {a : Nat} (h : Issues s r (.capld f))
    (hi : (r.sreg (sIndex f.a)).toNat ≤ s.ctxField r.asid 112 16)
    (he : Claims.entryAt s r.core r.asid (r.sreg (sIndex f.a)).toNat a) (hz : field (s.natAt a 16) 120 2 = 0) :
    exec (.capld f) s = .next (s.completed r (r.leave.setCap f.d.toNat (Cap.ofNat (s.natAt a 16))).advance (.capld f)) := by
  have h0 : (s.setRod r.leave).curRod? = some r.leave := State.curRod?_setRod h.cur rfl
  refine execute_completed h rfl ?_ rfl
  rw [M.bind_ok (M.rod_apply h0),
    M.bind_ok (M.get_apply _), show r.leave.sreg = r.sreg from rfl,
    decide_eq_true (show (r.sreg (sIndex f.a)).toNat ≤ (s.setRod r.leave).ctxField r.leave.asid 112 16 from hi),
    M.bind_ok (M.need_true _ _), M.bind_ok (M.tableEntry_ok h0 he),
    decide_eq_true (show field ((s.setRod r.leave).natAt a 16) 120 2 = 0 from hz), M.bind_ok (M.need_true _ _),
    onRod_ok h0 (RM.modify_apply _ _), State.setRod_setRod s r.leave (r.leave.setCap _ _) rfl]
  rfl

end

end Sys2Proof.Machine

namespace Sys2Proof.Claims

open Sys2Proof.Machine

/-- Settles O23: LIVE and CAPLD each find what they read at hand and in order, and change their rod alone. -/
theorem liveAndCapldComplete : Obligations.LiveAndCapldComplete := by
  unfold Obligations.LiveAndCapldComplete
  constructor
  · intro s r fr f base len at_ h hf x hx hc hlo hhi hd hok
    have hat : (r.pc + (f.i.signExtend 48 <<< 2)).toNat = x := by
      rw [BitVec.shiftLeft_eq_mul_twoPow]
      rfl
    exact exec_live h hat hf hx hc hlo hhi hd hok
  · intro s r f a h hi he e h0 h1
    rw [exec_capld h hi he (field_two_bits h0 h1), Cap.ofNat_eq]

end Sys2Proof.Claims
end

section
/-!
SUPPORT. Effects that keep a property of the state however they end.
-/

namespace Sys2Proof.Machine

/-- The effect keeps the property, whether it completes or ends early. -/
def M.Keeps (P : State → Prop) {α : Type} (m : M α) : Prop := ∀ s, P s → P (m s).2

namespace M.Keeps

section
variable {P : State → Prop} {α β : Type}

theorem pure (a : α) : Keeps P (Pure.pure a : M α) := fun _ h => h

theorem throw (e : Stop) : Keeps P (MonadExcept.throw e : M α) := fun _ h => h

theorem get : Keeps P (MonadState.get : M State) := fun _ h => h

theorem bind {m : M α} {f : α → M β} (hm : Keeps P m) (hf : ∀ a, Keeps P (f a)) : Keeps P (m >>= f) := by
  intro s h
  have hms := hm s h
  rw [M.bind_apply]
  rcases he : m s with ⟨x, t⟩
  rw [he] at hms
  cases x with
  | ok a => exact hf a t hms
  | error e => exact hms

/-- What follows the reading of the state may use that the property holds of it. -/
theorem get_bind {f : State → M β} (hf : ∀ s, P s → P (f s s).2) : Keeps P (MonadState.get >>= f) := fun s h => hf s h

theorem upd {f : State → State} (hf : ∀ s, P s → P (f s)) : Keeps P (M.upd f) := fun s h => hf s h

theorem run {f : State → α × State} (hf : ∀ s, P s → P (f s).2) : Keeps P (M.run f) := fun s h => hf s h

theorem need (c : Bool) (e : Stop) : Keeps P (M.need c e) := by
  cases c
  · exact throw e
  · exact pure ()

theorem rod : Keeps P M.rod := by
  refine bind get fun s => ?_
  cases s.curRod? with
  | none => exact throw _
  | some r => exact pure r

theorem frame : Keeps P M.frame := by
  refine bind rod fun r => bind get fun s => ?_
  cases s.frame? r.frame with
  | none => exact throw _
  | some f => exact pure f

theorem forM {f : α → M PUnit} (hf : ∀ a, Keeps P (f a)) (as : List α) : Keeps P (as.forM f) := by
  induction as with
  | nil => exact pure _
  | cons a as ih => exact M.forM_cons f a as ▸ bind (hf a) fun _ => ih

theorem each {u : Bool} {f : Option Nat → M Unit} (hf : ∀ b, Keeps P (f b)) : Keeps P (M.each u f) := by
  refine bind rod fun r => ?_
  cases u with
  | true => exact hf none
  | false => exact forM (fun k => hf (some k)) r.issuing

theorem ahead {m : M α} (hm : Keeps P m) : Keeps P (M.ahead m) := by
  refine bind rod fun r s h => ?_
  have hms := hm s h
  show P (ExceptT.tryCatch m _ s).2
  simp only [ExceptT.tryCatch, ExceptT.mk, Bind.bind, StateT.bind]
  rcases he : m s with ⟨x, t⟩
  rw [he] at hms
  cases x with
  | ok a => exact hms
  | error e => cases e <;> exact hms

theorem legal (i : Instr) : Keeps P (M.legal i) := by
  unfold M.legal
  cases i.illegal? with
  | none => exact pure ()
  | some c => exact throw _

theorem inAllocation (i : Instr) (once : Bool) : Keeps P (M.inAllocation i once) := bind rod fun _ => need _ _

theorem localCell (b : Option Nat) (buf : Nat) (off : BitVec 7) (size : Nat) : Keeps P (M.localCell b buf off size) :=
  bind rod fun _ => bind frame fun _ => bind (need _ _) fun _ => pure _

theorem liveNamed : Keeps P M.liveNamed := bind rod fun _ => need _ _

theorem reservedIn (bad : Bool) : Keeps P (M.reservedIn bad) := bind rod fun _ => need _ _

theorem checkCap (b : Option Nat) (c : Cap) (q : Rights) (byte size : Nat) : Keeps P (M.checkCap b c q byte size) := by
  unfold M.checkCap
  cases c.check q byte size with
  | none => exact pure ()
  | some x => exact throw _

end

end M.Keeps

/-- What the effect gives, if it completes, has the property. -/
def M.Yields {α : Type} (Q : α → Prop) (m : M α) : Prop := ∀ s t a, m s = (.ok a, t) → Q a

theorem M.Yields.pure {α : Type} {Q : α → Prop} {a : α} (h : Q a) : M.Yields Q (Pure.pure a : M α) := by
  intro s t b hb
  obtain rfl : a = b := Except.ok.inj (congrArg Prod.fst hb)
  exact h

theorem M.Yields.bind {α β : Type} {Q : β → Prop} {m : M α} {f : α → M β} (h : ∀ a, M.Yields Q (f a)) :
    M.Yields Q (m >>= f) := by
  intro s t b hb
  rw [M.bind_apply] at hb
  rcases hm : m s with ⟨x, s1⟩
  rw [hm] at hb
  cases x with
  | ok a => exact h a s1 t b hb
  | error e => exact absurd (congrArg Prod.fst hb) nofun

end Sys2Proof.Machine
end

section
/-!
SUPPORT. The instructions that consume cells: their effects keep the clock, and rods without divergence stay so (R21, R32).
-/

namespace Sys2Proof.Machine

theorem Rod.Kept.stack {r q : Rod} (h : r.Kept q) : q.stack = r.stack := by rw [h]

/-- The clock stands at `c`, and no rod has diverged (R26). -/
structure State.Undiverged (c : Dword) (s : State) : Prop where
  clk : s.clk = c
  flat : ∀ r ∈ s.rods, r.stack = []

namespace State.Undiverged

section
variable {c : Dword} {s t : State}

theorem of_undisturbed (h : s.Undiverged c) (hu : s.Undisturbed t) : t.Undiverged c where
  clk := by rw [hu.rest]; exact h.clk
  flat := by
    intro q hq
    obtain ⟨n, hn, rfl⟩ := List.getElem_of_mem hq
    have hlen := hu.rods.length_eq
    have hk : (s.rods[n]'(by omega)).Kept t.rods[n] := hu.rods.get (by omega) hn
    exact hk.stack.trans (h.flat _ (List.getElem_mem _))

theorem of_rods_eq (h : s.Undiverged c) (hc : t.clk = s.clk) (hr : t.rods = s.rods) : t.Undiverged c :=
  ⟨hc.trans h.clk, hr ▸ h.flat⟩

theorem of_rods_map {f : Rod → Rod} (h : s.Undiverged c) (hf : ∀ r, r.stack = [] → (f r).stack = []) (hc : t.clk = s.clk)
    (hr : t.rods = s.rods.map f) : t.Undiverged c where
  clk := hc.trans h.clk
  flat := by
    rw [hr, List.forall_mem_map]
    exact fun r hr => hf r (h.flat r hr)

theorem modRod {f : Rod → Rod} (h : s.Undiverged c) (u : Nat) (hf : ∀ r, r.stack = [] → (f r).stack = []) :
    (s.modRod u f).Undiverged c := by
  refine h.of_rods_map (f := fun r => if r.uid = u then f r else r) (fun r hr => ?_) rfl rfl
  split
  · exact hf r hr
  · exact hr

theorem setRod {r : Rod} (h : s.Undiverged c) (hr : r.stack = []) : (s.setRod r).Undiverged c := h.modRod r.uid fun _ _ => hr

theorem rod? {u : Nat} {r : Rod} (h : s.Undiverged c) (hr : s.rod? u = some r) : r.stack = [] :=
  h.flat r (List.mem_of_find?_eq_some hr)

theorem curRod? {r : Rod} (h : s.Undiverged c) (hr : s.curRod? = some r) : r.stack = [] := h.rod? (State.curRod?_eq hr).2

theorem settleBarriers (h : s.Undiverged c) (frame : Nat) : (s.settleBarriers frame).Undiverged c := by
  unfold State.settleBarriers
  generalize List.range 16 = ns
  induction ns generalizing s with
  | nil => exact h
  | cons n ns ih =>
    refine ih ?_
    dsimp only
    split
    · exact h
    · split
      · refine h.of_rods_map (f := _) (fun r hr => ?_) rfl rfl
        split
        · split <;> exact hr
        · exact hr
      · exact h

theorem raiseHalt (h : s.Undiverged c) (asid : Nat) (x : Halt) : (s.raiseHalt asid x).Undiverged c := by
  refine h.of_rods_map (f := fun r => if r.asid = asid ∧ !r.stalls then r.noLines else r) (fun r hr => ?_) ?_ ?_
  · split <;> exact hr
  all_goals
    unfold State.raiseHalt State.modCtx
    dsimp only
    split <;> rfl

theorem park (h : s.Undiverged c) (u : Nat) (p : Park) : (s.park u p).Undiverged c :=
  h.modRod u fun r hr => by split <;> exact hr

theorem enterHandler (h : s.Undiverged c) (u cls cause k b info code : Nat) (epc : Addr) :
    (s.enterHandler u cls cause k b info code epc).Undiverged c := by
  unfold State.enterHandler
  split
  · exact h
  · unfold State.enterHandlerAt
    split
    · exact h
    · dsimp only
      split
      · exact h.raiseHalt _ _
      · exact ((h.of_undisturbed (s.commitPerform_undisturbed u)).of_undisturbed
          (State.writeFaultFrame_undisturbed _ _ _ true)).modRod u fun _ hr => hr

theorem takeTrap (h : s.Undiverged c) (u cls cause : Nat) (b : Option Nat) (info code : Nat) :
    (s.takeTrap u cls cause b info code).Undiverged c := by
  unfold State.takeTrap
  split
  · exact h
  · split
    · exact h.raiseHalt _ _
    · split
      · exact h.park u _
      · exact h.enterHandler ..

/-- A rod without a pending group sleeps (R32). -/
theorem sleepRod (h : s.Undiverged c) (u k : Nat) (why : Sleep) (give : Bool) :
    (s.sleepRod u k why give).Undiverged c ∧
      ∀ q, (s.sleepRod u k why give).rod? u = some q → ∃ t n, q.status = .asleep why t n := by
  unfold State.sleepRod
  cases hr : s.rod? u with
  | none => exact ⟨h, fun q hq => absurd (hr.symm.trans hq) (Option.some_ne_none q).symm⟩
  | some r =>
    have hgive : (if give then ({ r with resume := k } : Rod).giveWay else none) = none := by
      unfold Rod.giveWay
      have hflat : r.stack = [] := h.rod? hr
      simp only [hflat, ite_self]
    dsimp only
    rw [hgive]
    have htake : s.take.2.Undiverged c := h.of_rods_eq rfl rfl
    have hflat : r.stack = [] := h.rod? hr
    refine ⟨htake.setRod hflat, fun q hq => ?_⟩
    have hr' : s.take.2.rod? u = some r := hr
    have huid : r.uid = u := State.uid_of_rod? hr
    have hset := State.rod?_setRod_of_uid (q := { r with resume := k, status := .asleep why s.take.1 s.take.2.now }) hr' huid
    obtain rfl := Option.some.inj (hset.symm.trans hq)
    exact ⟨_, _, rfl⟩

theorem settle (h : s.Undiverged c) (u : Nat) (e : Stop) : (s.settle u e).Undiverged c := by
  cases e with
  | trap cls cause b info code => exact h.takeTrap ..
  | page b va kind =>
    unfold State.settle State.takePage
    dsimp only
    split
    · exact h
    · exact (h.park u _).of_rods_eq rfl rfl
  | port b cause info =>
    unfold State.settle
    dsimp only
    split
    · exact h
    · exact (h.sleepRod u _ _ false).1.of_rods_eq rfl rfl
  | sleep k why give => exact (h.sleepRod u k why give).1
  | settled => exact h

theorem endGroup (h : s.Undiverged c) (u : Nat) : (s.endGroup u).Undiverged c := by
  unfold State.endGroup
  cases hr : s.rod? u with
  | none => exact h
  | some r =>
    dsimp only
    rw [Rod.endGroup_of_no_stack (h.rod? hr)]
    have hcommit := h.of_undisturbed (s.commit_undisturbed u)
    exact ⟨hcommit.clk, fun q hq => hcommit.flat q (List.mem_of_mem_filter hq)⟩

theorem beadEnded (h : s.Undiverged c) (r : Rod) (k : Nat) (b : ContRec) : (Claims.beadEnded r k b s).Undiverged c := by
  have hfresh : ({ s with fresh := s.fresh + 1 } : State).Undiverged c := h.of_rods_eq rfl rfl
  let va := s.contAddr r.asid r.core b.cell
  let s1 := (({ s with fresh := s.fresh + 1 } : State).writeVaCells r.core r.asid va [b.header]).writeVaCells
    r.core r.asid (va + 16 * (1 + b.req.kind.2)) (wordCells (b.regs.map Prod.snd))
  have hs1 : s1.Undiverged c := (hfresh.of_undisturbed (State.writeVaCells_undisturbed _ _ _ _ _)).of_undisturbed
    (State.writeVaCells_undisturbed _ _ _ _ _)
  have hconts : ({ s1 with conts := s1.conts ++ [b] } : State).Undiverged c := ⟨hs1.clk, hs1.flat⟩
  exact (hconts.modRod r.uid (f := fun x => { x with alive := x.alive &&& ~~~ BitVec.ofNat 16 (2 ^ k) })
    fun _ hr => hr).settleBarriers r.frame

end

end State.Undiverged

/-! ### The effects of the instructions that consume cells -/

theorem Rod.setWord_stack (r : Rod) (b : Option Nat) (d : BitVec 7) (x : Word) : (r.setWord b d x).stack = r.stack := by
  unfold Rod.setWord
  split <;> rfl

theorem Rod.setLoaded_stack (r : Rod) (b : Option Nat) (d : BitVec 7) (w : BitVec 3) (x : Nat) :
    (r.setLoaded b d w x).stack = r.stack := by
  unfold Rod.setLoaded
  split
  · unfold Rod.setDword
    split <;> rfl
  · unfold Rod.setQuad
    split <;> rfl
  · split
    · rfl
    · exact r.setWord_stack _ _ _

theorem M.rod_none {s : State} (h : s.curRod? = none) : M.rod s = (.error .settled, s) := by
  unfold M.rod
  rw [M.bind_ok (M.get_apply s), h]
  rfl

theorem State.lookup_undisturbed (s : State) (core : Option Nat) (asid va : Nat) (write : Bool) :
    s.Undisturbed (s.lookup core asid va write).2 := by
  unfold State.lookup
  split
  · exact .refl s
  · split
    · exact s.fillTlb_undisturbed _
    · exact .refl s

namespace M.Keeps

section
variable {c : Dword}

theorem onRod {f : Rod → Rod} (hf : ∀ r, r.stack = [] → (f r).stack = []) :
    Keeps (State.Undiverged c) (Machine.onRod (modify f)) := by
  intro s h
  cases hr : s.curRod? with
  | none =>
    unfold Machine.onRod
    rw [hr]
    exact h
  | some r =>
    rw [onRod_apply _ hr]
    exact h.setRod (hf r (h.curRod? hr))

/-- An update that leaves the clock and the rods. -/
theorem upd_rest {f : State → State} (hc : ∀ s, (f s).clk = s.clk) (hr : ∀ s, (f s).rods = s.rods) :
    Keeps (State.Undiverged c) (M.upd f) := upd fun s h => h.of_rods_eq (hc s) (hr s)

theorem upd_undisturbed {f : State → State} (hf : ∀ s : State, s.Undisturbed (f s)) :
    Keeps (State.Undiverged c) (M.upd f) := upd fun s h => h.of_undisturbed (hf s)

theorem ownPages : Keeps (State.Undiverged c) M.ownPages := by
  refine bind rod fun r => bind get fun s => ?_
  split
  · exact pure ()
  · next b a h =>
    refine bind (upd_undisturbed fun s => ?_) fun _ => throw _
    cases b with
    | page p => exact s.askPage_undisturbed p true
    | port x => exact .refl s

theorem commitPoint (lazy_ : Bool) : Keeps (State.Undiverged c) (M.commitPoint lazy_) := by
  refine bind rod fun r => bind ?_ fun _ => bind (upd_undisturbed fun s => ?_) fun _ => onRod fun _ h => h
  · cases lazy_
    · exact ownPages
    · exact pure ()
  · cases lazy_
    · exact s.commitPerform_undisturbed r.uid
    · exact s.commit_undisturbed r.uid

theorem performed {i : Instr} {body : M Unit} (h : Keeps (State.Undiverged c) body) :
    Keeps (State.Undiverged c) (Machine.performed i body) := by
  refine bind (legal i) fun _ => bind (onRod fun _ h => h) fun _ => ?_
  split
  · exact bind (commitPoint _) fun _ => bind h fun _ => onRod fun _ h => h
  · exact h

theorem passing {i : Instr} {body : M Unit} (h : Keeps (State.Undiverged c) body) :
    Keeps (State.Undiverged c) (Machine.passing i body) :=
  bind (inAllocation _ _) fun _ => bind h fun _ => onRod fun _ h => h

theorem peekCells (b : Option Nat) (buf first n : Nat) : Keeps (State.Undiverged c) (M.peekCells b buf first n) := by
  refine bind rod fun r => bind get fun s => ?_
  dsimp only
  split
  · exact bind (onRod fun _ h => h) fun _ => pure _
  · exact bind (onRod fun _ h => h) fun _ => bind (upd_rest (fun _ => rfl) fun _ => rfl) fun _ => throw _

theorem ldl (f : ShLdl) (buf : Nat) : Keeps (State.Undiverged c) (Machine.ldl f buf) := by
  refine each fun b => bind (localCell _ _ _ _) fun x => bind rod fun r => bind frame fun fr => ?_
  refine bind ?_ fun _ => bind get fun s => ?_
  · split
    · exact pure ()
    · exact upd_rest (fun _ => rfl) fun _ => rfl
  · dsimp only
    split
    · exact onRod fun r h => (r.setLoaded_stack _ _ _ _).trans h
    · split
      · refine bind (upd fun s h => ?_) fun _ => onRod fun r h => (r.setLoaded_stack _ _ _ _).trans h
        split
        · exact h.of_rods_eq rfl rfl
        · exact h
      · exact bind (upd_rest (fun _ => rfl) fun _ => rfl) fun _ => throw _

theorem translate (b : Option Nat) (va kind : Nat) : Keeps (State.Undiverged c) (M.translate b va kind) := by
  refine bind rod fun r => get_bind fun s h => ?_
  have hask : Keeps (State.Undiverged c) (M.upd fun s => s.askWalk r.asid va (decide (kind = 1))) := by
    refine upd_undisturbed fun s => ?_
    unfold State.askWalk
    split <;> exact ⟨.of_rods_eq rfl, rfl⟩
  have hl := s.lookup_undisturbed (some r.core) r.asid va (decide (kind = 1))
  rcases hlook : s.lookup (some r.core) r.asid va (decide (kind = 1)) with ⟨x, t⟩
  rw [hlook] at hl
  cases x with
  | none => exact bind hask (fun _ => throw _) s h
  | some e => exact h.of_undisturbed hl

theorem unbarred (b : Option Nat) (va a mt : Nat) (write : Bool) : Keeps (State.Undiverged c) (M.unbarred b va a mt write) := by
  refine bind get fun s => ?_
  split
  · exact pure _
  · exact bind (upd_undisturbed fun s => s.askPage_undisturbed _ write) fun _ => throw _
  · exact throw _

theorem physical (b : Option Nat) (va kind : Nat) : Keeps (State.Undiverged c) (M.physical b va kind) := by
  refine bind (translate b va kind) fun t => bind get fun s => ?_
  split
  · refine bind (run fun s h => h.of_undisturbed (s.exportPhys_undisturbed _ _)) fun x => ?_
    split
    · exact pure _
    · exact throw _
  · exact pure _

theorem place (b : Option Nat) (va kind : Nat) : Keeps (State.Undiverged c) (M.place b va kind) :=
  bind (physical b va kind) fun _ => unbarred _ _ _ _ _

theorem readCode (b : Option Nat) (va n : Nat) : Keeps (State.Undiverged c) (M.readCode b va n) := by
  induction n generalizing va with
  | zero => exact pure _
  | succ n ih => exact bind (place b va 3) fun _ => bind get fun _ => bind (need _ _) fun _ => bind (ih _) fun _ => pure _

theorem liveRegs : Keeps (State.Undiverged c) M.liveRegs := by
  refine bind rod fun r => ?_
  split
  · exact throw _
  · exact bind (ahead (readCode _ _ _)) fun _ => pure _

theorem descriptor (cell n : Nat) : Keeps (State.Undiverged c) (M.descriptor cell n) :=
  bind rod fun _ => bind frame fun _ => bind (need _ _) fun _ => bind (upd_rest (fun _ => rfl) fun _ => rfl) fun _ =>
    peekCells _ _ _ _

theorem endBead (k : Nat) (d : BitVec 7) (regs : List Nat) (req : UnitReq) :
    Keeps (State.Undiverged c) (M.endBead k d regs req) := by
  intro s h
  cases hr : s.curRod? with
  | none =>
    unfold M.endBead
    rw [M.bind_error (M.rod_none hr)]
    exact h
  | some r =>
    cases hcell : s.contRun r.asid r.core (Claims.recordCells regs req) with
    | none =>
      unfold M.endBead
      rw [M.bind_ok (M.rod_apply hr), M.bind_ok (M.get_apply s)]
      unfold Claims.recordCells at hcell
      simp only [hcell]
      exact h
    | some cell =>
      have hroom : Claims.recordRoom r regs (fun _ => req) s k := by
        unfold Claims.recordRoom
        rw [hcell]
        rfl
      rw [M.endBead_ok (req := fun _ => req) hr (Rod.Kept.refl r).alike.ending hroom]
      unfold Claims.beadEnds
      dsimp only
      exact h.beadEnded r k _

theorem endGroup : Keeps (State.Undiverged c) M.endGroup :=
  bind rod fun _ => upd fun _ h => (h.endGroup _).settleBarriers _

/-- The effect of TEX, TRACE and VMARCH, whose checks give the request of every bead's record (R423). -/
theorem ending {check : M (Rod → Nat → M UnitReq)} {d : BitVec 7} (hc : Keeps (State.Undiverged c) check)
    (hq : M.Yields (fun req => ∀ r k, Keeps (State.Undiverged c) (req r k)) check) :
    Keeps (State.Undiverged c) (do
      let r ← M.rod
      let req ← check
      let regs ← M.liveRegs
      r.issuing.forM fun k => do
        let q ← req r k
        M.endBead k d regs q
      M.endGroup) := by
  refine bind rod fun r s h => ?_
  have hs := hc s h
  rw [M.bind_apply]
  rcases he : check s with ⟨x, t⟩
  rw [he] at hs
  cases x with
  | error e => exact hs
  | ok req =>
    have hreq := hq s t req he
    have hbead (regs : List Nat) (k : Nat) :
        Keeps (State.Undiverged c) (req r k >>= fun q => M.endBead k d regs q) := bind (hreq r k) fun q => endBead k d regs q
    exact bind liveRegs (fun regs => bind (forM (hbead regs) _) fun _ => endGroup) t hs

end

end M.Keeps

/-- An instruction that consumes cells keeps the clock until its lane cycles pass, and leaves the rods undiverged. -/
theorem exec_of_consumes {i : Instr} (h : consumes i = true) :
    ∃ body, (∀ s, exec i s = issue i (onceOnly i) body s) ∧ ∀ c, M.Keeps (State.Undiverged c) body := by
  cases i with
  | ldlS f => exact ⟨_, fun _ => rfl, fun c => .passing (.ldl f 0)⟩
  | ldlW f => exact ⟨_, fun _ => rfl, fun c => .passing (.ldl f 1)⟩
  | ldlA f => exact ⟨_, fun _ => rfl, fun c => .passing (.ldl f 2)⟩
  | ldlC f => exact ⟨_, fun _ => rfl, fun c => .passing (.ldl f 3)⟩
  | sumset f =>
    refine ⟨_, fun _ => rfl, fun c => .passing ?_⟩
    refine .bind .rod fun r => .bind .frame fun fr => .bind (.need _ _) fun _ => .bind (.need _ _) fun _ => ?_
    refine .bind (.peekCells _ _ _ _) fun cells => .bind (.need _ _) fun _ => .bind .get fun s => ?_
    split
    · exact .onRod fun _ h => h
    · exact .bind (.upd_rest (fun _ => rfl) fun _ => rfl) fun _ => .onRod fun _ h => h
  | sumsend f =>
    refine ⟨_, fun _ => rfl, fun c => .passing (.each fun b => ?_)⟩
    refine .bind .rod fun r => .bind .frame fun fr => .bind (.need _ _) fun _ => .bind (.peekCells _ _ _ _) fun cells => ?_
    refine .bind .get fun s => ?_
    split
    · exact .bind (.onRod fun _ h => h) fun _ => .throw _
    · exact .bind (.upd_rest (fun _ => rfl) fun _ => rfl) fun _ => .throw _
  | tex f =>
    refine ⟨_, fun _ => rfl, fun c => .bind (.inAllocation _ _) fun _ => .ending ?_ ?_⟩
    · refine .bind (.inAllocation _ _) fun _ => .bind .liveNamed fun _ => .bind .rod fun r => .bind (.reservedIn _) fun _ => ?_
      exact .bind (.descriptor _ _) fun _ => .bind (.reservedIn _) fun _ => .bind (.checkCap _ _ _ _ _) fun _ => .pure _
    · refine .bind fun _ => .bind fun _ => .bind fun r => .bind fun _ => .bind fun _ => .bind fun _ => .bind fun _ => ?_
      exact .pure fun r k => .pure _
  | vmarch f =>
    refine ⟨_, fun _ => rfl, fun c => .bind (.inAllocation _ _) fun _ => .ending ?_ ?_⟩
    · refine .bind (.inAllocation _ _) fun _ => .bind .liveNamed fun _ => .bind .rod fun r => .bind (.reservedIn _) fun _ => ?_
      exact .bind (.descriptor _ _) fun _ => .bind (.reservedIn _) fun _ => .bind (.checkCap _ _ _ _ _) fun _ =>
        .bind (.checkCap _ _ _ _ _) fun _ => .pure _
    · refine .bind fun _ => .bind fun _ => .bind fun r => .bind fun _ => .bind fun _ => .bind fun _ => .bind fun _ => ?_
      exact .bind fun _ => .pure fun r k => .pure _
  | _ => cases h

end Sys2Proof.Machine
end

section
/-!
The settling of O57: what can happen next at a placed word.
-/

namespace Sys2Proof.Machine

section
variable {s t : State} {r : Rod} {i : Instr}

theorem Rod.laneCycles_pos (r : Rod) (once : Bool) : 0 < r.laneCycles once := by
  unfold Rod.laneCycles
  split
  · exact one_pos
  · exact lt_of_lt_of_le one_pos (le_max_left _ _)

theorem Rod.laneCycles_le (r : Rod) (once : Bool) : r.laneCycles once ≤ 16 := by
  have hlen : r.issuing.length ≤ 16 := by
    unfold Rod.issuing upto
    exact (List.length_filter_le _ _).trans (by rw [List.length_range])
  unfold Rod.laneCycles
  split
  · decide
  · exact max_le (by decide) hlen

/-- Lane cycles that pass are seen on the clock. -/
theorem State.clk_tick_ne (s : State) {n : Nat} (h0 : 0 < n) (hn : n ≤ 16) : (s.tick n).clk ≠ s.clk := by
  have hclk : (s.tick n).clk = s.clk + BitVec.ofNat 64 n := rfl
  rw [hclk]
  intro h
  have hz : BitVec.ofNat 64 n = 0 := by simpa using h
  have := congrArg BitVec.toNat hz
  rw [BitVec.toNat_ofNat, Nat.mod_eq_of_lt (by omega)] at this
  exact absurd this (by simpa using h0.ne')

/-- Where an instruction that consumes cells takes no cycle of its lane, its rod sleeps. -/
theorem asleep_of_issue {body : M Unit} {c : Dword} (hbody : M.Keeps (State.Undiverged c) body) (hs : s.Undiverged c)
    (hr : s.curRod? = some r) (h : issue i (onceOnly i) body s = .next t) (ht : t.clk = c) :
    ∀ q, t.rod? r.uid = some q → ∃ why n m, q.status = .asleep why n m := by
  have hperf : M.Keeps (State.Undiverged c) (performed i body) := .performed hbody
  have hkept := hperf s hs
  unfold issue at h
  rw [hr] at h
  dsimp only at h
  rcases hp : performed i body s with ⟨x, s1⟩
  rw [hp] at h hkept
  dsimp only at h hkept
  have hcycles (s2 : State) (hs2 : s2.Undiverged c) : (s2.tick (r.laneCycles (onceOnly i))).clk ≠ c :=
    hs2.clk ▸ s2.clk_tick_ne (r.laneCycles_pos _) (r.laneCycles_le _)
  cases x with
  | ok u => exact absurd (Host.Outcome.next.inj h ▸ ht) (hcycles s1 hkept)
  | error e =>
    cases e with
    | sleep k why give =>
      obtain rfl := Host.Outcome.next.inj h
      intro q hq
      rw [State.rod?_tick, Option.map_eq_some_iff] at hq
      obtain ⟨p, hp, rfl⟩ := hq
      obtain ⟨n, m, hst⟩ := (hkept.sleepRod r.uid k why give).2 p hp
      exact ⟨why, n, m, hst⟩
    | trap | page | port | settled => exact absurd (Host.Outcome.next.inj h ▸ ht) (hcycles _ (hkept.settle _ _))

theorem State.canStart_of_asleep {why : Sleep} {n m : Nat} (h : r.status = .asleep why n m) : s.canStart r = false := by
  simp [State.canStart, State.runnable, h]

/-- A rod without divergence that is held at a cell stays held there (R21, R32). -/
theorem State.holdLasts_of_heldNext (hs : s.Undiverged s.clk) (hr : s.rod? r.uid = some r) (h : s.heldNext r = true) :
    s.holdLasts r = true := by
  obtain ⟨t, ht⟩ := Option.isSome_iff_exists.mp h
  unfold State.holdLasts
  rw [ht]
  dsimp only
  suffices hasleep : ∀ q, t.rod? r.uid = some q → ∃ why n m, q.status = .asleep why n m by
    cases hq : t.rod? r.uid with
    | none => rfl
    | some q =>
      obtain ⟨why, n, m, hst⟩ := hasleep q hq
      simp [State.canStart_of_asleep hst]
  unfold State.holdOf at ht
  split at ht
  · cases ht
  · next i hi =>
    split at ht
    · cases ht
    · next hc =>
      obtain ⟨body, hexec, hbody⟩ := exec_of_consumes (by simpa using hc : consumes i = true)
      rw [hexec] at ht
      split at ht
      · next x hx =>
        split at ht
        · next hclk =>
          obtain rfl := Option.some.inj ht
          exact asleep_of_issue (s := { s with cur := some r.uid }) (hbody s.clk) ⟨hs.clk, hs.flat⟩ hr hx hclk
        · cases ht
      · cases ht

end

/-! ### The state of a placed word -/

section
variable (s : State) (w : Nat)

theorem State.rods_place : (s.place w).rods = [placedRod] := rfl

theorem State.rod?_place : (s.place w).rod? 1 = some placedRod := rfl

theorem placedRod_pc : placedRod.pc.toNat = placedPc := by
  rw [show placedRod.pc = BitVec.ofNat 48 placedPc from rfl]
  decide

theorem State.fetched_place : (s.place w).fetched placedRod = some (BitVec.ofNat 32 w) := by
  unfold State.fetched
  rw [placedRod_pc]
  rfl

theorem State.timerFirst_place : (s.place w).timerFirst placedRod = false := rfl

theorem State.runnable_place : (s.place w).runnable placedRod = true := by
  unfold State.runnable
  rw [State.timerFirst_place, State.halted_of_ctxs_nil rfl]
  rfl

theorem State.canStart_place : (s.place w).canStart placedRod = true := by
  unfold State.canStart
  rw [State.runnable_place, State.fetched_place]
  rfl

theorem State.undiverged_place : (s.place w).Undiverged (s.place w).clk :=
  ⟨rfl, by rw [State.rods_place, List.forall_mem_singleton]; rfl⟩

theorem State.tokensDue_place : (s.place w).tokensDue = [] := rfl

theorem State.rodSteps_place : (s.place w).rodSteps placedRod = [] := by
  unfold State.rodSteps
  rw [State.timerFirst_place, State.fetched_place, State.halted_of_ctxs_nil rfl, Option.isNone_some, Bool.and_false]
  rfl

theorem State.frameSteps_place : (s.place w).frameSteps placedFrame = [] := by
  unfold State.frameSteps
  rw [State.halted_of_ctxs_nil rfl]
  rfl

/-- No unit of the device has anything to do beside a placed word. -/
theorem State.deviceSteps_place : (s.place w).deviceSteps = [] := by
  have hrods : (s.place w).rods.flatMap (s.place w).rodSteps = [] := by
    rw [State.rods_place, List.flatMap_singleton, State.rodSteps_place]
  have hframes : (s.place w).frames.flatMap (s.place w).frameSteps = [] := by
    rw [show (s.place w).frames = [placedFrame] from rfl, List.flatMap_singleton, State.frameSteps_place]
  have hunits : (s.place w).haltSteps = [] ∧ (s.place w).memorySteps = [] ∧ (s.place w).ringSteps = [] ∧
      (s.place w).chainSteps = [] ∧ (s.place w).matrixSteps = [] ∧ (s.place w).carrySteps = [] ∧
      (s.place w).unitSteps = [] ∧ (s.place w).dispatch = [] ∧ (s.place w).nextDeliveries = [] ∧
      (s.place w).managementSteps = [] := ⟨rfl, rfl, rfl, rfl, rfl, rfl, rfl, rfl, rfl, rfl⟩
  obtain ⟨hhalt, hmem, hring, hchain, hmatrix, hcarry, hunit, hdisp, hdeliv, hman⟩ := hunits
  unfold State.deviceSteps
  rw [hrods, hframes, hhalt, hmem, hring, hchain, hmatrix, hcarry, hunit, hdisp, hdeliv, hman]
  rfl

theorem State.issues_place (h : (s.place w).heldNext placedRod = false) : (s.place w).issues = [.issue 1] := by
  have htakes : (s.place w).laneTakes placedRod = true := by
    unfold State.laneTakes
    rw [State.rods_place]
    simp
  have hcan : (s.place w).canIssue placedRod = true := by
    unfold State.canIssue
    rw [State.canStart_place, h]
    rfl
  unfold State.issues
  rw [State.rods_place, List.filter_singleton, hcan, htakes]
  rfl

theorem State.exchanges_place (h : (s.place w).heldNext placedRod = false) : (s.place w).exchanges = [] := by
  unfold State.exchanges
  rw [State.rods_place, List.filter_singleton, h, Bool.and_false]
  rfl

/-- A placed word that no cell holds is all that can happen next. -/
theorem State.moves_place (h : (s.place w).heldNext placedRod = false) : (s.place w).moves = [.issue 1] := by
  unfold State.moves
  rw [show (s.place w).boot = .running from rfl, s.issues_place w h, s.exchanges_place w h, s.deviceSteps_place w]
  rfl

/-- A placed word that a cell holds is held there from now on (R21). -/
theorem State.held_place : (s.place w).held = if (s.place w).heldNext placedRod then [1] else [] := by
  unfold State.held
  rw [State.rods_place, List.filter_singleton, State.canStart_place, Bool.true_and]
  cases h : (s.place w).heldNext placedRod with
  | true =>
    rw [State.holdLasts_of_heldNext (s.undiverged_place w) (s.rod?_place w) h]
    rfl
  | false =>
    have hlasts : (s.place w).holdLasts placedRod = false := by
      unfold State.holdLasts
      rw [Option.not_isSome_iff_eq_none.mp (Bool.eq_false_iff.mp h)]
    rw [hlasts]
    rfl

end

end Sys2Proof.Machine

namespace Sys2Proof.Claims

open Sys2Proof.Machine

/-- Settles O57: a placed word that a cell holds is urgent, and every other one is the only move. A held rod does not go on
with another group, since it has not diverged. -/
theorem placedWordRuns : Obligations.PlacedWordRuns := by
  intro s t w i hw hi p
  have hplace : p = s.place w := by
    show s.place (w % 2 ^ 32) = s.place w
    rw [Nat.mod_eq_of_lt hw]
  have hheld := s.held_place w
  rw [hplace]
  refine ⟨fun hh hx => ?_, fun hh hx => ?_⟩
  · have hnext : (s.place w).heldNext placedRod = false := by
      rw [hheld] at hh
      simpa using hh
    rw [step, State.advance_of_not_urgent (.inr ⟨s.tokensDue_place w, hh⟩),
      State.chosenMove_of_singleton (s.moves_place w hnext)]
    exact State.issueMove_next (s.rod?_place w) (s.fetched_place w) hi hx
  · have hone : (s.place w).held = [1] := by
      rw [hheld] at hh ⊢
      split
      · rfl
      · next hn => exact absurd (if_neg hn) hh
    rw [step, State.advance_held rfl (s.tokensDue_place w) hone]
    exact State.holdMove_next (s.rod?_place w) (s.fetched_place w) hi hx

end Sys2Proof.Claims
end

section
/-!
SUPPORT. The steps of the units of the device: all of their branches go on, and what comes due
between instructions are such steps.
-/

namespace Sys2Proof

/-- The steps that the units of the device take: those that are no words and refuse none. -/
def Instr.isUnit : Instr → Bool
  | .reservedOpcode _ => false
  | i => !i.isWord

end Sys2Proof

namespace Sys2Proof.Machine

theorem executeCommand_answers (rec : BitVec 256) (act : Command → State → Option Nat × State) (s : State) :
    answers (executeCommand rec act s) := by
  unfold executeCommand
  dsimp only
  repeat' split
  all_goals exact ⟨_, rfl⟩

/-- Every branch of a unit's step goes on. -/
theorem exec_unit_answers {i : Instr} (hi : i.isUnit = true) (s : State) : answers (exec i s) := by
  cases i with
  | resolve | deliver | assignEngine | setGroup =>
    dsimp only [exec, execResolve, execDeliver, execAssignEngine, execSetGroup]
    exact executeCommand_answers _ _ s
  | scoreboardWriteback | timerExpiry | yieldHoldEnd | waitvMonitorWake | waitvSleepTimeout | frameRetire | engineHaltStop
  | haltRecordWrite | abortTokenReceive | pageWalkComplete | faultRecordWrite | portRevokedFault | dieUpdateApply
  | dieStampToken | readExclusiveUpgrade | flushWalkComplete | shootdown | releaseEngine | saveRequest | restoreRequest
  | upcallReply | copyCellLand | wdropComplete | gatherElementLand | chainEntryStart | chainEntryComplete | taskPick
  | governorGrant | rampUpComplete | taskUnitComplete | taskDoneWrite | grantReturn | burstEnd | inferComplete
  | slotReserveRequest | reservationReply | slotOpen | creditRequest | creditReply | transferApply | slotWake
  | triangleEntry | textureResult | traceResult | marchResult | contGatherTimeout | dispatchLoop | queueClaim
  | queueRelease | queueBound | queuePass | bindRecord | boardReservation | launchFabricDelivery | hostAccess | pageGrant
  | directoryRecall | stallTimeout | powerOn | systemBlockAddress | firmwareUpdate | spdmRequest | sensorSample
  | grantCountAdjust | thermalTrip | alarm | reckonerAccess | homePerform | instructionCacheFill =>
    dsimp only [exec,
      execScoreboardWriteback, execTimerExpiry, execYieldHoldEnd, execWaitvMonitorWake, execWaitvSleepTimeout,
      execFrameRetire, execEngineHaltStop, execHaltRecordWrite, execAbortTokenReceive, execPageWalkComplete,
      execFaultRecordWrite, execPortRevokedFault, execDieUpdateApply, execDieStampToken, execReadExclusiveUpgrade,
      execFlushWalkComplete, execShootdown, execReleaseEngine, execSaveRequest, execRestoreRequest, execUpcallReply,
      execCopyCellLand, execWdropComplete, execGatherElementLand, execChainEntryStart, execChainEntryComplete,
      execTaskPick, execGovernorGrant, execRampUpComplete, execTaskUnitComplete, execTaskDoneWrite, execGrantReturn,
      execBurstEnd, execInferComplete, execSlotReserveRequest, execReservationReply, execSlotOpen, execCreditRequest,
      execCreditReply, execTransferApply, execSlotWake, execTriangleEntry, execTextureResult, execTraceResult,
      execMarchResult, execContGatherTimeout, execDispatchLoop, execQueueClaim, execQueueRelease, execQueueBound,
      execQueuePass, execBindRecord, execBoardReservation, execLaunchFabricDelivery, execHostAccess, execPageGrant,
      execDirectoryRecall, execStallTimeout, execPowerOn, execSystemBlockAddress, execFirmwareUpdate, execSpdmRequest,
      execSensorSample, execGrantCountAdjust, execThermalTrip, execAlarm, execReckonerAccess, execHomePerform,
      execInstructionCacheFill]
    repeat' split
    all_goals exact ⟨_, rfl⟩
  | _ => cases hi

section
variable {s : State} {r : Rod} {i : Instr}

/-- With a rod issuing, every instruction answers a next state. -/
theorem exec_answers (h : s.curRod? = some r) : answers (exec i s) := by
  rcases exec_eq_issue_or_legal i with ⟨body, hbody⟩ | ⟨hw, -⟩
  · rw [hbody]
    exact issue_answers i _ body h
  · by_cases hu : i.isUnit = true
    · exact exec_unit_answers hu s
    · unfold Instr.isUnit at hu
      split at hu
      · exact executeControl_answers _ _ h
      · exact absurd (by rw [hw]; rfl) hu

/-! ### Moves -/

theorem settleMove_answers {o : Host.Outcome State Fault Refusal} (h : answers o) : answers (settleMove o) := by
  obtain ⟨t, rfl⟩ := h
  exact ⟨_, rfl⟩

theorem cycleAfter_answers {o : Host.Outcome State Fault Refusal} (h : answers o) : answers (cycleAfter o) := by
  obtain ⟨t, rfl⟩ := h
  exact ⟨_, rfl⟩

theorem State.issueMove_answers (s : State) (u : Nat) : answers (s.issueMove u) := by
  unfold State.issueMove
  split
  · exact ⟨_, rfl⟩
  · next r hr =>
    split
    · exact ⟨_, rfl⟩
    · exact settleMove_answers (exec_answers (r := r) hr)

theorem State.holdMove_answers (s : State) (u : Nat) : answers (s.holdMove u) := by
  unfold State.holdMove
  split
  · exact ⟨_, rfl⟩
  · next i hi =>
    obtain ⟨r, hr, -⟩ := Option.bind_eq_some_iff.mp hi
    exact settleMove_answers (exec_answers (r := r) hr)

/-- What the world outside brings about is done by units of the device. -/
theorem isUnit_of_external (h : external i = true) : i.isUnit = true := by
  unfold external at h
  split at h
  case h_12 => cases h
  all_goals rfl

theorem State.inputMove_answers (s : State) : answers s.inputMove := by
  unfold State.inputMove
  split
  · exact ⟨_, rfl⟩
  · unfold State.take?
    split
    · split
      · next h => exact exec_unit_answers (isUnit_of_external h) _
      · exact ⟨_, rfl⟩
    · exact ⟨_, rfl⟩
    · exact ⟨_, rfl⟩
    · split <;> exact ⟨_, rfl⟩

theorem State.move_answers (s : State) {m : Move} (hm : ∀ i, m = .unit_ i → i.isUnit = true) : answers (s.move m) := by
  cases m with
  | issue u => exact s.issueMove_answers u
  | hold u => exact cycleAfter_answers (s.holdMove_answers u)
  | unit_ i => exact exec_unit_answers (hm i rfl) s
  | input => exact s.inputMove_answers

/-! ### The steps that are due are steps of units -/

theorem all_map_units {α : Type} {f : α → Instr} (h : ∀ a, (f a).isUnit = true) (as : List α) :
    (as.map f).all Instr.isUnit = true := by
  rw [List.all_map]
  exact List.all_eq_true.mpr fun a _ => h a

theorem all_flatMap_units {α : Type} {f : α → List Instr} (h : ∀ a, (f a).all Instr.isUnit = true) (as : List α) :
    (as.flatMap f).all Instr.isUnit = true := by
  rw [List.all_flatMap]
  exact List.all_eq_true.mpr fun a _ => h a

theorem all_filterMap_units {α : Type} {f : α → Option Instr} (h : ∀ a, (f a).all Instr.isUnit = true) (as : List α) :
    (as.filterMap f).all Instr.isUnit = true := by
  rw [List.all_filterMap]
  refine List.all_eq_true.mpr fun a _ => ?_
  have ha := h a
  cases hf : f a with
  | none => rfl
  | some i =>
    rw [hf] at ha
    exact ha

theorem State.rodSteps_units (s : State) (r : Rod) : (s.rodSteps r).all Instr.isUnit = true := by
  unfold State.rodSteps
  simp only [List.all_append, Bool.and_eq_true, and_assoc]
  refine ⟨?_, ?_, ?_, ?_⟩
  any_goals split <;> rfl
  split
  · rfl
  · split
    · split <;> rfl
    · rw [List.all_append, Bool.and_eq_true]
      constructor <;> split <;> rfl
    · split <;> rfl
    · split <;> rfl
    · rfl

theorem State.frameSteps_units (s : State) (f : Frame) : (s.frameSteps f).all Instr.isUnit = true := by
  unfold State.frameSteps
  split
  · rfl
  · rw [List.all_append, Bool.and_eq_true]
    refine ⟨all_flatMap_units (fun n => ?_) _, by split <;> rfl⟩
    dsimp only
    repeat' split
    all_goals rfl

theorem State.haltSteps_units (s : State) : s.haltSteps.all Instr.isUnit = true :=
  all_map_units (fun c => by split <;> rfl) _

theorem State.memorySteps_units (s : State) : s.memorySteps.all Instr.isUnit = true := by
  unfold State.memorySteps
  simp only [List.all_append, Bool.and_eq_true, and_assoc]
  refine ⟨?_, ?_, ?_, ?inflight, ?messages, ?stamps, ?_, ?_, ?waits⟩
  case inflight =>
    refine all_flatMap_units (fun n => ?_) _
    repeat' split
    all_goals rfl
  case messages => exact all_filterMap_units (fun m => by split <;> rfl) _
  case stamps => exact all_map_units (fun p => rfl) _
  case waits =>
    refine all_filterMap_units (fun n => ?_) _
    repeat' split
    all_goals rfl
  all_goals split <;> rfl

theorem State.ringSteps_units (s : State) : s.ringSteps.all Instr.isUnit = true := by
  have hcommand (rec : BitVec 256) : (commandStep rec).isUnit = true := by
    unfold commandStep
    split <;> rfl
  have hsave (rec : BitVec 256) : (saveStep rec).isUnit = true := by
    unfold saveStep
    split <;> rfl
  unfold State.ringSteps
  simp only [List.all_append, Bool.and_eq_true, and_assoc]
  refine ⟨?_, ?_, ?_, all_map_units (fun v => hsave _) _, ?_⟩
  · split
    · simp [hcommand]
    · rfl
  · split <;> rfl
  · split
    · simp [hsave]
    · rfl
  · split <;> rfl

theorem State.chainSteps_units (s : State) : s.chainSteps.all Instr.isUnit = true := by
  refine all_filterMap_units (fun c => ?_) _
  repeat' split
  all_goals rfl

theorem State.matrixSteps_units (s : State) : s.matrixSteps.all Instr.isUnit = true := by
  unfold State.matrixSteps
  simp only [List.all_append, Bool.and_eq_true, and_assoc]
  refine ⟨all_map_units (fun _ => rfl) _, all_map_units (fun _ => rfl) _, ?engines, ?tasks,
    all_map_units (fun _ => rfl) _, ?boards⟩
  case engines =>
    refine all_filterMap_units (fun e => ?_) _
    repeat' split
    all_goals rfl
  case tasks =>
    refine all_filterMap_units (fun t => ?_) _
    repeat' split
    all_goals rfl
  case boards =>
    split
    · exact all_map_units (fun _ => rfl) _
    · rfl

theorem State.carrySteps_units (s : State) : s.carrySteps.all Instr.isUnit = true := by
  unfold State.carrySteps
  simp only [List.all_append, Bool.and_eq_true, and_assoc]
  refine ⟨all_map_units (fun v => ?_) _, all_map_units (fun c => ?_) _, all_map_units (fun _ => rfl) _,
    all_map_units (fun _ => rfl) _⟩
  all_goals split <;> rfl

theorem State.unitSteps_units (s : State) : s.unitSteps.all Instr.isUnit = true := by
  unfold State.unitSteps
  rw [List.all_append, Bool.and_eq_true]
  refine ⟨all_filterMap_units (fun c => ?_) _, all_map_units (fun _ => rfl) _⟩
  repeat' split
  all_goals rfl

theorem State.dispatchSteps_units (s : State) (d : Dispatch) : (s.dispatchSteps d).all Instr.isUnit = true := by
  unfold State.dispatchSteps
  repeat' split
  all_goals rfl

theorem State.managementSteps_units (s : State) : s.managementSteps.all Instr.isUnit = true := by
  unfold State.managementSteps
  rw [List.all_append, Bool.and_eq_true]
  constructor <;> split <;> rfl

theorem State.deviceSteps_units (s : State) : s.deviceSteps.all Instr.isUnit = true := by
  unfold State.deviceSteps
  simp only [List.all_append, Bool.and_eq_true, and_assoc]
  exact ⟨all_flatMap_units s.rodSteps_units _, all_flatMap_units s.frameSteps_units _, s.haltSteps_units,
    s.memorySteps_units, s.ringSteps_units, s.chainSteps_units, s.matrixSteps_units, s.carrySteps_units, s.unitSteps_units,
    all_flatMap_units s.dispatchSteps_units _, all_filterMap_units (fun d => by split <;> rfl) _, s.managementSteps_units⟩

/-- Of the moves that can be made next, those of units are steps of units. -/
theorem State.isUnit_of_moves (h : Move.unit_ i ∈ s.moves) : i.isUnit = true := by
  unfold State.moves at h
  rcases List.mem_append.mp h with h | h
  · split at h
    · obtain rfl : i = .powerOn := by simpa using h
      rfl
    · simp only [List.mem_append] at h
      rcases h with (h | h) | h
      · simp [State.issues] at h
      · simp [State.exchanges] at h
      · have hmem : i ∈ s.deviceSteps := by
          obtain ⟨j, hj, rfl⟩ : ∃ j ∈ s.deviceSteps.filter s.changes, j = i := by simpa using h
          exact List.mem_of_mem_filter hj
        exact List.all_eq_true.mp s.deviceSteps_units i hmem
    · have hmem : i ∈ s.managementSteps := by
        obtain ⟨j, hj, rfl⟩ : ∃ j ∈ s.managementSteps.filter s.changes, j = i := by simpa using h
        exact List.mem_of_mem_filter hj
      exact List.all_eq_true.mp s.managementSteps_units i hmem
  · split at h <;> simp at h

theorem State.chosenMove_answers (s : State) : answers s.chosenMove := by
  match hm : s.moves with
  | [] => exact ⟨_, State.chosenMove_of_nil hm⟩
  | [m] =>
    rw [State.chosenMove_of_singleton hm]
    exact s.move_answers fun i hi => State.isUnit_of_moves (by rw [hm, hi]; exact List.mem_singleton_self _)
  | m :: m' :: ms =>
    have hlen : 2 ≤ s.moves.length := by rw [hm]; simp
    obtain ⟨x, hx, hpick, -⟩ := s.pick_spec (List.ne_nil_of_length_pos (by omega : 0 < s.moves.length))
    rw [State.chosenMove_of_pick hlen hpick]
    exact State.move_answers _ fun i hi => State.isUnit_of_moves (hi ▸ hx)

theorem step_answers (s : State) : answers (step s) := by
  rw [step, State.advance]
  unfold State.urgent
  split
  · exact s.chosenMove_answers
  · split
    · exact exec_unit_answers (i := .dieStampToken _ _) rfl s
    · exact s.holdMove_answers _
    · exact s.chosenMove_answers

end

end Sys2Proof.Machine
end

section
/-!
The settling of O58: every step answers a next state.
-/

namespace Sys2Proof.Claims

open Sys2Proof.Machine

/-- Settles O58: an instruction is issued, which always answers, or is the step of a unit, all of whose branches go on; and the
machine only makes moves of rods that are there and of units. -/
theorem stepsAnswer : Obligations.StepsAnswer := by
  refine ⟨fun i s r h => exec_answers h, fun i s hw hr => exec_unit_answers ?_ s, step_answers⟩
  unfold Instr.isUnit
  split
  · next w => exact absurd rfl (hr w)
  · rw [hw]; rfl

end Sys2Proof.Claims
end

section
/-!
The settling of O2: the integer arithmetic computes its table's values, and nothing else changes.
-/

namespace Sys2Proof.Claims

open Sys2Proof.Machine

/-- Settles O2: the model's wrapped, clamped and exact results are the table's, and every part writes its own. -/
theorem integerArithmeticCompletes : Obligations.IntegerArithmeticCompletes :=
  fun _ _ _ _ htable h ht => exec_next_of_computes (computes_of_integerEffect htable) h ht

end Sys2Proof.Claims
end

section
/-!
Rounding answers the neighbour that R99 chooses: the code that the model finds below an exact magnitude is the lower
neighbour, and the remainder that it keeps is the fraction of the gap.
-/

namespace Sys2Proof.Claims

open Sys2Proof.Machine

/-! ### The floor of the logarithm -/

/-- Whether a fraction reaches a power of two, as the model asks it in integers. -/
theorem two_zpow_le_div_iff {num den : Nat} (hd : 0 < den) (e : Int) :
    (2 : ℝ) ^ e ≤ num / den ↔ if 0 ≤ e then den * 2 ^ e.toNat ≤ num else den ≤ num * 2 ^ (-e).toNat := by
  have hd' : (0 : ℝ) < den := by exact_mod_cast hd
  rw [le_div_iff₀ hd']
  split
  · next he =>
    obtain ⟨n, rfl⟩ := Int.eq_ofNat_of_zero_le he
    rw [mul_comm]
    exact_mod_cast Iff.rfl
  · next he =>
    obtain ⟨n, rfl⟩ : ∃ n : Nat, e = -n := ⟨(-e).toNat, by omega⟩
    rw [neg_neg, Int.toNat_natCast, zpow_neg, zpow_natCast, inv_mul_le_iff₀ (by positivity), mul_comm]
    exact_mod_cast Iff.rfl

theorem floorLog2_eq {num den : Nat} (hd : 0 < den) :
    floorLog2 num den =
      if (2 : ℝ) ^ ((Nat.log2 num : Int) - Nat.log2 den) ≤ num / den then (Nat.log2 num : Int) - Nat.log2 den
      else (Nat.log2 num : Int) - Nat.log2 den - 1 := by
  simp only [floorLog2, two_zpow_le_div_iff hd]
  split <;> rfl

/-- A positive number lies in the binade of its logarithm. -/
theorem two_zpow_log2_bounds {n : Nat} (hn : 0 < n) :
    (2 : ℝ) ^ (Nat.log2 n : Int) ≤ n ∧ (n : ℝ) < 2 ^ ((Nat.log2 n : Int) + 1) := by
  have hlo : 2 ^ Nat.log2 n ≤ n := Nat.log2_self_le hn.ne'
  have hhi : n < 2 ^ (Nat.log2 n + 1) := Nat.lt_log2_self
  exact ⟨by exact_mod_cast hlo, by exact_mod_cast hhi⟩

/-- `floorLog2` names the binade of a positive fraction. -/
theorem floorLog2_spec {num den : Nat} (hn : 0 < num) (hd : 0 < den) :
    (2 : ℝ) ^ floorLog2 num den ≤ num / den ∧ (num / den : ℝ) < 2 ^ (floorLog2 num den + 1) := by
  obtain ⟨hnlo, hnhi⟩ := two_zpow_log2_bounds hn
  obtain ⟨hdlo, hdhi⟩ := two_zpow_log2_bounds hd
  have hd' : (0 : ℝ) < den := by exact_mod_cast hd
  rw [floorLog2_eq hd]
  generalize (Nat.log2 num : Int) = a at *
  generalize (Nat.log2 den : Int) = b at *
  have hlower : (2 : ℝ) ^ (a - b - 1) ≤ num / den := by
    rw [le_div_iff₀ hd']
    calc (2 : ℝ) ^ (a - b - 1) * den ≤ 2 ^ (a - b - 1) * 2 ^ (b + 1) := by gcongr
      _ = 2 ^ a := by rw [← zpow_add₀ two_ne_zero]; congr 1; ring
      _ ≤ num := hnlo
  have hupper : (num / den : ℝ) < 2 ^ (a - b + 1) := by
    rw [div_lt_iff₀ hd']
    calc (num : ℝ) < 2 ^ (a + 1) := hnhi
      _ = 2 ^ (a - b + 1) * 2 ^ b := by rw [← zpow_add₀ two_ne_zero]; congr 1; ring
      _ ≤ 2 ^ (a - b + 1) * den := by gcongr
  split
  · next h => exact ⟨h, hupper⟩
  · next h => exact ⟨hlower, by rw [sub_add_cancel]; exact not_le.mp h⟩

/-! ### Magnitudes of codes -/

theorem magnitudeOf_cast (f : Fmt) (c : Nat) : (magnitudeOf f c : ℝ) = (f.magnitude c).1 / (f.magnitude c).2 := by
  rw [magnitudeOf, Rat.mkRat_eq_div]
  push_cast
  rfl

theorem scaled_div (m : Nat) (e : Int) : ((scaled m e).1 : ℝ) / (scaled m e).2 = m * 2 ^ e := by
  unfold scaled
  split
  · next he =>
    obtain ⟨n, rfl⟩ := Int.eq_ofNat_of_zero_le he
    simp
  · next he =>
    obtain ⟨n, rfl⟩ : ∃ n : Nat, e = -n := ⟨(-e).toNat, by omega⟩
    simp [div_eq_mul_inv]

/-- The unit in the last place of the `k`-th binade of an IEEE-like format, the subnormals being of binade 0. -/
noncomputable def unitOf (f : Fmt) (k : Nat) : ℝ := 2 ^ ((k : Int) + 1 - f.shape.bias - f.shape.fbits)

theorem unitOf_pos (f : Fmt) (k : Nat) : 0 < unitOf f k := by unfold unitOf; positivity

theorem unitOf_succ (f : Fmt) (k : Nat) : unitOf f (k + 1) = 2 * unitOf f k := by
  unfold unitOf
  rw [← zpow_one_add₀ two_ne_zero]
  congr 1; push_cast; ring

/-- A code counts units of its binade, up to and with the first code of the next binade. -/
theorem magnitudeOf_binade {f : Fmt} (hf : f.tapered = false) {k q : Nat} (hk : k = 0 ∨ 2 ^ f.shape.fbits ≤ q)
    (hq : q ≤ 2 * 2 ^ f.shape.fbits) : (magnitudeOf f (k * 2 ^ f.shape.fbits + q) : ℝ) = q * unitOf f k := by
  have hpos : 0 < 2 ^ f.shape.fbits := by positivity
  have hmag : (magnitudeOf f (k * 2 ^ f.shape.fbits + q) : ℝ) = _ := magnitudeOf_cast ..
  simp only [Fmt.magnitude, hf, Bool.false_eq_true, if_false, Shape.magnitude] at hmag
  rw [hmag]
  rcases lt_or_ge q (2 ^ f.shape.fbits) with hsub | hnorm
  · obtain rfl : k = 0 := hk.resolve_right (not_le.mpr hsub)
    rw [zero_mul, zero_add, Nat.div_eq_of_lt hsub, Nat.mod_eq_of_lt hsub, if_pos rfl, scaled_div, unitOf]
    simp
  · obtain ⟨m, rfl⟩ := Nat.exists_eq_add_of_le hnorm
    have hcode : k * 2 ^ f.shape.fbits + (2 ^ f.shape.fbits + m) = m + (k + 1) * 2 ^ f.shape.fbits := by ring
    rw [hcode, Nat.add_mul_div_right _ _ hpos, Nat.add_mul_mod_self_right]
    rcases eq_or_lt_of_le hq with htop | hin
    · obtain rfl : m = 2 ^ f.shape.fbits := by omega
      rw [Nat.div_self hpos, Nat.mod_self, if_neg (by omega), scaled_div]
      have hunit : (2 : ℝ) ^ (((1 + (k + 1) : Nat) : Int) - f.shape.bias - f.shape.fbits) = unitOf f (k + 1) := by
        unfold unitOf; congr 1; push_cast; ring
      rw [hunit, unitOf_succ]
      push_cast; ring
    · rw [Nat.div_eq_of_lt (by omega), Nat.mod_eq_of_lt (by omega), if_neg (by omega), scaled_div, unitOf]
      congr 2; push_cast; ring

/-- Every code of an IEEE-like format lies in a binade. -/
theorem exists_binade (f : Fmt) (c : Nat) : ∃ k q, c = k * 2 ^ f.shape.fbits + q ∧ (k = 0 ∨ 2 ^ f.shape.fbits ≤ q) ∧
    q < 2 * 2 ^ f.shape.fbits := by
  have hmod : c % 2 ^ f.shape.fbits < 2 ^ f.shape.fbits := Nat.mod_lt _ (by positivity)
  have hsplit := Nat.div_add_mod' c (2 ^ f.shape.fbits)
  cases hk : c / 2 ^ f.shape.fbits with
  | zero => exact ⟨0, c % 2 ^ f.shape.fbits, by rw [hk] at hsplit; exact hsplit.symm, .inl rfl, by omega⟩
  | succ k =>
    refine ⟨k, 2 ^ f.shape.fbits + c % 2 ^ f.shape.fbits, ?_, .inr (by omega), by omega⟩
    rw [hk] at hsplit
    rw [← add_assoc, ← Nat.succ_mul]
    exact hsplit.symm

/-- The magnitudes of an IEEE-like format rise with the code. -/
theorem magnitudeOf_lt_succ {f : Fmt} (hf : f.tapered = false) (c : Nat) :
    (magnitudeOf f c : ℝ) < magnitudeOf f (c + 1) := by
  obtain ⟨k, q, rfl, hk, hq⟩ := exists_binade f c
  rw [add_assoc, magnitudeOf_binade hf hk hq.le, magnitudeOf_binade hf (hk.imp id fun h => h.trans q.le_succ) hq]
  have := unitOf_pos f k
  push_cast
  linarith

theorem magnitudeOf_mono {f : Fmt} (hf : f.tapered = false) {c c' : Nat} (h : c ≤ c') :
    (magnitudeOf f c : ℝ) ≤ magnitudeOf f c' :=
  monotone_nat_of_le_succ (f := fun c => (magnitudeOf f c : ℝ)) (fun c => (magnitudeOf_lt_succ hf c).le) h

theorem magnitudeOf_tapered {f : Fmt} (hf : f.tapered = true) (c : Nat) :
    (magnitudeOf f c : ℝ) = taperedScaled f.magBits c / 4096 := by
  rw [magnitudeOf_cast, Fmt.magnitude, if_pos hf]
  norm_num

/-! ### The neighbours -/

/-- How far a magnitude lies from a code to the next, a whole gap from there on (R99). -/
noncomputable def gapFraction (f : Fmt) (lo : Nat) (x : ℝ) : ℝ :=
  min 1 ((x - magnitudeOf f lo) / (magnitudeOf f (lo + 1) - magnitudeOf f lo))

/-- The code `lo` is the lower neighbour of a magnitude among the finite ones, and `rn / rd` says how far in the gap
the magnitude lies; above the largest of a tapered format there is no gap. -/
structure Neighbours (f : Fmt) (x : ℝ) (lo rn rd : Nat) : Prop where
  finite : lo ≤ f.shape.maxCode
  onCode : rn = 0 → (magnitudeOf f lo : ℝ) = x
  lower : rn ≠ 0 → (magnitudeOf f lo : ℝ) < x
  upper : rn ≠ 0 → lo < f.shape.maxCode → x < magnitudeOf f (lo + 1)
  rest : rn ≠ 0 → ¬ (f.tapered = true ∧ lo = f.shape.maxCode) → 0 < rd ∧ gapFraction f lo x = rn / rd

/-- A fraction in units of `2^e`, again as a fraction of integers. -/
def unitsOver (num den : Nat) (e : Int) : Nat × Nat :=
  (if 0 ≤ e then num else num * 2 ^ (-e).toNat, if 0 ≤ e then den * 2 ^ e.toNat else den)

theorem unitsOver_den_pos (num : Nat) {den : Nat} (hd : 0 < den) (e : Int) : 0 < (unitsOver num den e).2 := by
  unfold unitsOver
  dsimp only
  split <;> positivity

theorem unitsOver_div (num den : Nat) (e : Int) :
    ((unitsOver num den e).1 / (unitsOver num den e).2 : ℝ) = num / den / 2 ^ e := by
  unfold unitsOver
  by_cases he : 0 ≤ e
  · obtain ⟨n, rfl⟩ := Int.eq_ofNat_of_zero_le he
    simp [div_div]
  · obtain ⟨n, rfl⟩ : ∃ n : Nat, e = -n := ⟨(-e).toNat, by omega⟩
    have hn : n ≠ 0 := by omega
    simp [hn, mul_div_right_comm]

theorem cast_div_add_mod {n d : Nat} (hd : 0 < d) : (n / d : ℝ) = (n / d : Nat) + (n % d : Nat) / d := by
  have hd' : (0 : ℝ) < d := by exact_mod_cast hd
  have hsplit : (n : ℝ) = d * (n / d : Nat) + (n % d : Nat) := by exact_mod_cast (Nat.div_add_mod n d).symm
  field_simp
  linarith

/-- In units of the binade that the model takes for it a magnitude has as many bits as the format keeps, or fewer among the
subnormals. -/
theorem units_of_binade (f : Fmt) {num den k : Nat} (hn : 0 < num) (hd : 0 < den)
    (hk : max (floorLog2 num den + f.shape.bias) 1 = (k : Int) + 1) :
    (k = 0 ∨ (2 ^ f.shape.fbits : ℝ) ≤ num / den / unitOf f k) ∧
      (num / den / unitOf f k : ℝ) < 2 * 2 ^ f.shape.fbits := by
  obtain ⟨hlo, hhi⟩ := floorLog2_spec hn hd
  have hpow : (2 ^ f.shape.fbits : ℝ) * unitOf f k = 2 ^ ((k : Int) + 1 - f.shape.bias) := by
    rw [unitOf, ← zpow_natCast, ← zpow_add₀ two_ne_zero]
    congr 1; ring
  constructor
  · by_cases h0 : k = 0
    · exact .inl h0
    · rw [le_div_iff₀ (unitOf_pos f k), hpow, show (k : Int) + 1 - f.shape.bias = floorLog2 num den by omega]
      exact .inr hlo
  · rw [div_lt_iff₀ (unitOf_pos f k), mul_assoc, hpow, ← zpow_one_add₀ two_ne_zero]
    exact hhi.trans_le (zpow_le_zpow_right₀ one_le_two (by omega))

/-- The model counts a magnitude in units of its binade. -/
theorem below_of_ieee {f : Fmt} (hf : f.tapered = false) {num den k : Nat}
    (hk : max (floorLog2 num den + f.shape.bias) 1 = (k : Int) + 1) :
    f.below num den =
      let u := unitsOver num den ((k : Int) + 1 - f.shape.bias - f.shape.fbits)
      (k * 2 ^ f.shape.fbits + u.1 / u.2, u.1 % u.2, u.2) := by
  simp only [Fmt.below, hf, Bool.false_eq_true, if_false, Shape.below, hk, add_sub_cancel_right, Int.toNat_natCast,
    unitsOver]

/-- The code below a magnitude in an IEEE-like format, and how far in the gap the magnitude lies. -/
theorem below_spec {f : Fmt} (hf : f.tapered = false) {num den : Nat} (hn : 0 < num) (hd : 0 < den) {lo rn rd : Nat}
    (h : f.below num den = (lo, rn, rd)) :
    rn < rd ∧ (num / den : ℝ) = magnitudeOf f lo + (rn / rd : ℝ) * (magnitudeOf f (lo + 1) - magnitudeOf f lo) := by
  obtain ⟨k, hk⟩ : ∃ k : Nat, max (floorLog2 num den + f.shape.bias) 1 = (k : Int) + 1 :=
    ⟨(max (floorLog2 num den + f.shape.bias) 1 - 1).toNat, by omega⟩
  obtain ⟨hsub, hq⟩ := units_of_binade f hn hd hk
  have hunits : _ = num / den / unitOf f k := unitsOver_div num den ((k : Int) + 1 - f.shape.bias - f.shape.fbits)
  have hd' := unitsOver_den_pos num hd ((k : Int) + 1 - f.shape.bias - f.shape.fbits)
  rw [below_of_ieee hf hk] at h
  generalize unitsOver num den _ = u at h hunits hd'
  obtain ⟨n, d⟩ := u
  obtain ⟨rfl, rfl, rfl⟩ : k * 2 ^ f.shape.fbits + n / d = lo ∧ n % d = rn ∧ d = rd := by simpa using h
  dsimp only at hunits hd'
  have hd0 : (0 : ℝ) < d := by exact_mod_cast hd'
  rw [← hunits, le_div_iff₀ hd0] at hsub
  rw [← hunits, div_lt_iff₀ hd0] at hq
  have hq : n / d < 2 * 2 ^ f.shape.fbits := (Nat.div_lt_iff_lt_mul hd').mpr (by exact_mod_cast hq)
  have hsub : k = 0 ∨ 2 ^ f.shape.fbits ≤ n / d := by
    rw [Nat.le_div_iff_mul_le hd']
    exact_mod_cast hsub
  refine ⟨Nat.mod_lt _ hd', ?_⟩
  rw [add_assoc, magnitudeOf_binade hf hsub hq.le,
    magnitudeOf_binade hf (hsub.imp id fun h => h.trans (Nat.le_succ _)) hq,
    ← div_mul_cancel₀ (num / den : ℝ) (unitOf_pos f k).ne', ← hunits, cast_div_add_mod hd']
  push_cast
  ring

/-- The neighbour that the model takes in an IEEE-like format. -/
theorem neighbours_of_ieee {f : Fmt} (hf : f.tapered = false) {num den : Nat} (hn : 0 < num) (hd : 0 < den)
    {lo rn rd : Nat} (h : f.neighbour num den = (lo, rn, rd)) : Neighbours f (num / den) lo rn rd := by
  obtain ⟨c, m, d, hbelow⟩ : ∃ c m d, f.below num den = (c, m, d) := ⟨_, _, _, rfl⟩
  obtain ⟨hm, hx⟩ := below_spec hf hn hd hbelow
  have hd0 : 0 < d := by omega
  have hgap : (0 : ℝ) < magnitudeOf f (c + 1) - magnitudeOf f c := sub_pos.mpr (magnitudeOf_lt_succ hf c)
  have hfrac : (m / d : ℝ) < 1 := (div_lt_one (by exact_mod_cast hd0)).mpr (by exact_mod_cast hm)
  simp only [Fmt.neighbour, hbelow] at h
  split at h
  · next hmax =>
    obtain ⟨rfl, rfl, rfl⟩ : f.shape.maxCode = lo ∧ 1 = rn ∧ 1 = rd := by simpa using h
    have hgap' := magnitudeOf_lt_succ hf f.shape.maxCode
    have hbeyond : (magnitudeOf f (f.shape.maxCode + 1) : ℝ) ≤ num / den :=
      calc (magnitudeOf f (f.shape.maxCode + 1) : ℝ) ≤ magnitudeOf f c := magnitudeOf_mono hf hmax
        _ ≤ _ := by rw [hx]; exact le_add_of_nonneg_right (by positivity)
    refine ⟨le_rfl, by simp, fun _ => hgap'.trans_le hbeyond, by simp, fun _ _ => ⟨one_pos, ?_⟩⟩
    rw [gapFraction, min_eq_left ((one_le_div (by linarith)).mpr (by linarith))]
    simp
  · next hmax =>
    obtain ⟨rfl, rfl, rfl⟩ : c = lo ∧ m = rn ∧ d = rd := by simpa using h
    refine ⟨not_lt.mp hmax, fun h0 => by rw [hx, h0]; simp, fun h0 => ?_, fun _ _ => ?_, fun _ _ => ⟨hd0, ?_⟩⟩
    · rw [hx]
      exact lt_add_of_pos_right _ (mul_pos (div_pos (by exact_mod_cast Nat.pos_of_ne_zero h0) (by exact_mod_cast hd0)) hgap)
    · linarith [mul_lt_of_lt_one_left hgap hfrac]
    · rw [gapFraction, hx, add_sub_cancel_left, mul_div_cancel_right₀ _ hgap.ne', min_eq_right hfrac.le]

/-- The largest code of a tapered format up to `c` that does not exceed a magnitude. -/
theorem taperedBelow_spec (w num den c : Nat) :
    taperedBelow w num den c ≤ c ∧ taperedScaled w (taperedBelow w num den c) * den ≤ num * 4096 ∧
      (taperedBelow w num den c < c → num * 4096 < taperedScaled w (taperedBelow w num den c + 1) * den) := by
  induction c with
  | zero => exact ⟨le_rfl, by simp [taperedBelow, taperedScaled], fun h => absurd h (Nat.lt_irrefl 0)⟩
  | succ c ih =>
    obtain ⟨hle, hlow, hup⟩ := ih
    rw [taperedBelow]
    split
    · next h => exact ⟨le_rfl, h, fun h => absurd h (Nat.lt_irrefl _)⟩
    · next h =>
      refine ⟨hle.trans c.le_succ, hlow, fun _ => ?_⟩
      rcases eq_or_lt_of_le hle with he | hlt
      · rw [he]; exact not_le.mp h
      · exact hup hlt

/-- The neighbour that the model takes in a tapered format. -/
theorem neighbours_of_tapered {f : Fmt} (hf : f.tapered = true) {num den : Nat} (hd : 0 < den) {lo rn rd : Nat}
    (h : f.neighbour num den = (lo, rn, rd)) : Neighbours f (num / den) lo rn rd := by
  obtain ⟨hle, hlow, hup⟩ := taperedBelow_spec f.magBits num den f.shape.maxCode
  have hd' : (0 : ℝ) < den := by exact_mod_cast hd
  simp only [Fmt.neighbour, Fmt.below, hf, if_true, if_neg (not_lt.mpr hle), Prod.mk.injEq] at h
  generalize taperedBelow f.magBits num den f.shape.maxCode = c at *
  obtain ⟨rfl, rfl, rfl⟩ := h
  have hlo := magnitudeOf_tapered hf c
  have hhi := magnitudeOf_tapered hf (c + 1)
  generalize taperedScaled f.magBits c = a at *
  generalize taperedScaled f.magBits (c + 1) = b at *
  have hupper : c < f.shape.maxCode → (num / den : ℝ) < b / 4096 := fun hc => by
    rw [div_lt_div_iff₀ hd' (by norm_num)]; exact_mod_cast hup hc
  refine ⟨hle, fun h0 => ?_, fun h0 => ?_, fun _ hc => hhi ▸ hupper hc, fun _ hne => ?_⟩
  · have heq : a * den = num * 4096 := by omega
    rw [hlo, div_eq_div_iff (by norm_num) hd'.ne']
    exact_mod_cast heq
  · have hlt : a * den < num * 4096 := by omega
    rw [hlo, div_lt_div_iff₀ (by norm_num) hd']
    exact_mod_cast hlt
  · have hc : c < f.shape.maxCode := lt_of_le_of_ne hle fun hc => hne ⟨hf, hc⟩
    have hab : a < b := lt_of_mul_lt_mul_right (hlow.trans_lt (hup hc)) den.zero_le
    have hgap : (0 : ℝ) < b - a := sub_pos.mpr (by exact_mod_cast hab)
    have hfrac : (num / den - a / 4096 : ℝ) / (b / 4096 - a / 4096) =
        (num * 4096 - a * den : Nat) / ((b - a) * den : Nat) := by
      push_cast [Nat.cast_sub hlow, Nat.cast_sub hab.le]
      field_simp
    refine ⟨Nat.mul_pos (Nat.sub_pos_of_lt hab) hd, ?_⟩
    rw [gapFraction, hlo, hhi, min_eq_right ((div_le_one (by linarith)).mpr (by linarith [hupper hc])), hfrac]

/-- The neighbour that the model takes in any format is the one that R99 names. -/
theorem neighbour_spec (f : Fmt) {num den : Nat} (hn : 0 < num) (hd : 0 < den) {lo rn rd : Nat}
    (h : f.neighbour num den = (lo, rn, rd)) : Neighbours f (num / den) lo rn rd := by
  cases hf : f.tapered with
  | false => exact neighbours_of_ieee hf hn hd h
  | true => exact neighbours_of_tapered hf hd h

/-! ### The choice -/

/-- The model chooses the upper neighbour as R99's table does. -/
theorem upward_iff (v : Env) (neg : Bool) (lo : Nat) {rn rd : Nat} (hd : 0 < rd) :
    v.upward neg lo rn rd = true ↔ upperChosen v neg lo (rn / rd) := by
  have hd' : (0 : ℝ) < rd := by exact_mod_cast hd
  unfold Env.upward upperChosen
  cases v.rm with
  | rtz => simp
  | rdn => simp
  | rup => simp
  | odd => simp
  | rne =>
    simp only [decide_eq_true_eq, ← mul_div_assoc, one_lt_div hd', div_eq_one_iff_eq hd'.ne']
    exact_mod_cast Iff.rfl
  | rna =>
    simp only [decide_eq_true_eq, ← mul_div_assoc, one_le_div hd']
    exact_mod_cast Iff.rfl
  | stochastic =>
    have hfloor : ⌊(rn / rd : ℝ) * 2 ^ 24⌋ = ((rn * 2 ^ 24 / rd : Nat) : ℤ) := by
      rw [div_mul_eq_mul_div, ← Nat.floor_div_eq_div (K := ℝ), Int.natCast_floor_eq_floor (by positivity)]
      simp only [Nat.cast_mul, Nat.cast_pow, Nat.cast_ofNat]
    simp only [decide_eq_true_eq, hfloor, Nat.cast_lt]

/-- Rounding, once the neighbour below is known: it overflows above the largest tapered magnitude, and else one of the two
neighbours is chosen (R99, R101). -/
theorem round_of_neighbour {f : Fmt} (v : Env) (neg : Bool) {num den lo rn rd : Nat} (hn : 0 < num)
    (h : f.neighbour num den = (lo, rn, rd)) :
    f.round v neg num den =
      if f.tapered = true ∧ lo = f.shape.maxCode ∧ rn ≠ 0 then f.overflow v neg
      else chosen f v neg (if rn ≠ 0 ∧ v.upward neg lo rn rd = true then lo + 1 else lo) (decide (rn ≠ 0)) := by
  have hconds (tiny inexact : Bool) : Conds.when inexact Conds.nx ||| Conds.when (tiny && inexact) Conds.uf =
      if inexact then (if tiny then Conds.nx ||| Conds.uf else Conds.nx) else 0 := by
    cases tiny <;> cases inexact <;> rfl
  simp only [Fmt.round, if_neg hn.ne', h, Bool.and_eq_true, decide_eq_true_eq, chosen, hconds, and_assoc]

/-- Rounding answers what R99 chooses for an exact fraction. -/
theorem roundsTo_round (f : Fmt) (v : Env) (neg : Bool) {num den : Nat} (hn : 0 < num) (hd : 0 < den) :
    roundsTo f v neg ((num : ℝ) / den) (f.round v neg num den) := by
  obtain ⟨lo, rn, rd, h⟩ : ∃ lo rn rd, f.neighbour num den = (lo, rn, rd) := ⟨_, _, _, rfl⟩
  obtain ⟨hfinite, honCode, hlower, hupper, hrest⟩ := neighbour_spec f hn hd h
  rw [round_of_neighbour v neg hn h]
  by_cases h0 : rn = 0
  · exact .inl ⟨lo, hfinite, honCode h0, by simp [h0]⟩
  · refine .inr ⟨lo, hfinite, hlower h0, hupper h0, ?_⟩
    by_cases htop : f.tapered = true ∧ lo = f.shape.maxCode
    · rw [if_pos htop, if_pos ⟨htop.1, htop.2, h0⟩]
    · obtain ⟨hrd, hfrac⟩ := hrest h0 htop
      have hup := upward_iff v neg lo (rn := rn) hrd
      rw [if_neg htop, if_neg fun ⟨ht, hl, _⟩ => htop ⟨ht, hl⟩]
      change (upperChosen v neg lo (gapFraction f lo _) ∧ _) ∨ (¬ upperChosen v neg lo (gapFraction f lo _) ∧ _)
      rw [hfrac, ← hup]
      by_cases hu : v.upward neg lo rn rd = true
      · exact .inl ⟨hu, by simp [h0, hu]⟩
      · exact .inr ⟨hu, by simp [h0, hu]⟩

theorem roundingHolds_round : roundingHolds := fun f v neg _ _ hn hd => roundsTo_round f v neg hn hd

end Sys2Proof.Claims
end

section
/-!
Magnitudes that lie strictly between two neighbouring multiples of 2^-200 round alike: every magnitude of a code, every tie
and every threshold of stochastic rounding is such a multiple (R98, R99).
-/

namespace Sys2Proof.Claims

open Sys2Proof.Machine

/-! ### The grid -/

/-- A magnitude lies strictly between the `j`-th multiple of 2^-200 and the next. -/
def InCell (j : Int) (x : ℝ) : Prop := (j : ℝ) < x * 2 ^ 200 ∧ x * 2 ^ 200 < j + 1

section
variable {j : Int} {x y : ℝ}

theorem InCell.lt_iff (h : InCell j x) (m : Int) : (m : ℝ) < x * 2 ^ 200 ↔ m ≤ j := by
  refine ⟨fun hm => ?_, fun hm => lt_of_le_of_lt (by exact_mod_cast hm) h.1⟩
  have : (m : ℝ) < (j + 1 : Int) := by push_cast; exact hm.trans h.2
  exact Int.lt_add_one_iff.mp (by exact_mod_cast this)

theorem InCell.ne (h : InCell j x) (m : Int) : (m : ℝ) ≠ x * 2 ^ 200 := fun hm => by
  obtain ⟨hlo, hhi⟩ := h
  rw [← hm] at hlo hhi
  have h1 : j < m := by exact_mod_cast hlo
  have h2 : m < j + 1 := by exact_mod_cast hhi
  omega

/-- A multiple of 2^-200 lies below both of two magnitudes of a cell or below neither. -/
theorem InCell.below_iff (hx : InCell j x) (hy : InCell j y) {g : ℝ} {m : Int} (hg : g * 2 ^ 200 = m) :
    g < x ↔ g < y := by
  have hpow : (0 : ℝ) < 2 ^ 200 := by positivity
  rw [← mul_lt_mul_iff_of_pos_right hpow, ← mul_lt_mul_iff_of_pos_right hpow (b := g), hg, hx.lt_iff, hy.lt_iff]

end

/-- Every magnitude of every format is a multiple of 2^-176. -/
theorem magnitudeOf_on_grid (f : Fmt) (c : Nat) : ∃ m : Int, (magnitudeOf f c : ℝ) * 2 ^ 176 = m := by
  cases hf : f.tapered with
  | true =>
    refine ⟨taperedScaled f.magBits c * 2 ^ 164, ?_⟩
    rw [magnitudeOf_tapered hf]
    push_cast
    ring
  | false =>
    obtain ⟨k, q, rfl, hk, hq⟩ := exists_binade f c
    have hplaces : f.shape.bias + f.shape.fbits ≤ 176 := by cases f <;> decide
    refine ⟨q * 2 ^ (k + 1 + (176 - (f.shape.bias + f.shape.fbits))), ?_⟩
    rw [magnitudeOf_binade hf hk hq.le, unitOf, mul_assoc, ← zpow_natCast, ← zpow_add₀ two_ne_zero]
    push_cast
    rw [← zpow_natCast]
    congr 2
    push_cast [Nat.cast_sub hplaces]
    ring

/-- The point that lies `k / 2^24` into the gap above a code. -/
noncomputable def threshold (f : Fmt) (lo k : Nat) : ℝ :=
  magnitudeOf f lo + k / 2 ^ 24 * (magnitudeOf f (lo + 1) - magnitudeOf f lo)

theorem threshold_on_grid (f : Fmt) (lo k : Nat) : ∃ m : Int, threshold f lo k * 2 ^ 200 = m := by
  obtain ⟨a, ha⟩ := magnitudeOf_on_grid f lo
  obtain ⟨b, hb⟩ := magnitudeOf_on_grid f (lo + 1)
  refine ⟨a * 2 ^ 24 + k * (b - a), ?_⟩
  push_cast
  rw [threshold, ← ha, ← hb]
  ring

/-! ### The choice within a cell -/

section
variable {f : Fmt} {lo k : Nat} {j : Int} {x y : ℝ}

theorem InCell.ne_threshold (hx : InCell j x) : threshold f lo k ≠ x := by
  obtain ⟨m, hm⟩ := threshold_on_grid f lo k
  exact fun h => hx.ne m (by rw [← hm, h])

theorem InCell.threshold_lt_iff (hx : InCell j x) (hy : InCell j y) : threshold f lo k < x ↔ threshold f lo k < y := by
  obtain ⟨m, hm⟩ := threshold_on_grid f lo k
  exact hx.below_iff hy hm

theorem InCell.magnitudeOf_lt_iff (hx : InCell j x) (hy : InCell j y) :
    (magnitudeOf f lo : ℝ) < x ↔ (magnitudeOf f lo : ℝ) < y := by
  simpa [threshold] using hx.threshold_lt_iff hy (f := f) (lo := lo) (k := 0)

theorem InCell.ne_magnitudeOf (hx : InCell j x) : (magnitudeOf f lo : ℝ) ≠ x := by
  simpa [threshold] using hx.ne_threshold (f := f) (lo := lo) (k := 0)

theorem InCell.lt_magnitudeOf_iff (hx : InCell j x) (hy : InCell j y) :
    x < magnitudeOf f lo ↔ y < magnitudeOf f lo := by
  rw [← hx.ne_magnitudeOf.symm.le_iff_lt, ← hy.ne_magnitudeOf.symm.le_iff_lt, ← not_lt, ← not_lt, hx.magnitudeOf_lt_iff hy]

variable (hgap : (magnitudeOf f lo : ℝ) < magnitudeOf f (lo + 1))
include hgap

/-- The fraction of the gap passes `k / 2^24`, short of a whole gap, where the magnitude passes the threshold. -/
theorem lt_gapFraction_iff (hk : k < 2 ^ 24) : (k / 2 ^ 24 : ℝ) < gapFraction f lo x ↔ threshold f lo k < x := by
  have hk' : (k / 2 ^ 24 : ℝ) < 1 := by rw [div_lt_one (by positivity)]; exact_mod_cast hk
  rw [gapFraction, lt_min_iff, and_iff_right hk', lt_div_iff₀ (sub_pos.mpr hgap), lt_sub_iff_add_lt', threshold]

theorem le_gapFraction_iff (hk : k ≤ 2 ^ 24) : (k / 2 ^ 24 : ℝ) ≤ gapFraction f lo x ↔ threshold f lo k ≤ x := by
  have hk' : (k / 2 ^ 24 : ℝ) ≤ 1 := by rw [div_le_one (by positivity)]; exact_mod_cast hk
  rw [gapFraction, le_min_iff, and_iff_right hk', le_div_iff₀ (sub_pos.mpr hgap), le_sub_iff_add_le', threshold]

/-- In a cell, the fraction of the gap reaches `k / 2^24` where the magnitude passes the threshold. -/
theorem InCell.le_gapFraction_iff (hx : InCell j x) (hk : k ≤ 2 ^ 24) :
    (k / 2 ^ 24 : ℝ) ≤ gapFraction f lo x ↔ threshold f lo k < x := by
  rw [Claims.le_gapFraction_iff hgap hk, hx.ne_threshold.le_iff_lt]

/-- In a cell there are no ties: the fraction of the gap passes a half wherever it reaches one. -/
theorem InCell.half_iff (hx : InCell j x) :
    (1 < 2 * gapFraction f lo x ↔ threshold f lo (2 ^ 23) < x) ∧
      (1 ≤ 2 * gapFraction f lo x ↔ threshold f lo (2 ^ 23) < x) := by
  have hlt := lt_gapFraction_iff hgap (x := x) (k := 2 ^ 23) (by norm_num)
  have hle := hx.le_gapFraction_iff hgap (k := 2 ^ 23) (by norm_num)
  have hhalf : (((2 ^ 23 : Nat) : ℝ) / 2 ^ 24) = 1 / 2 := by norm_num
  rw [hhalf] at hlt hle
  exact ⟨by rw [← hlt, div_lt_iff₀' two_pos], by rw [← hle, div_le_iff₀' two_pos]⟩

/-- Magnitudes of one cell choose alike (R99). -/
theorem InCell.upperChosen_iff (hx : InCell j x) (hy : InCell j y) (v : Env) (neg : Bool) :
    upperChosen v neg lo (gapFraction f lo x) ↔ upperChosen v neg lo (gapFraction f lo y) := by
  obtain ⟨hltx, hlex⟩ := hx.half_iff hgap
  obtain ⟨hlty, hley⟩ := hy.half_iff hgap
  have hsame (k : Nat) : threshold f lo k < x ↔ threshold f lo k < y := hx.threshold_lt_iff hy
  unfold upperChosen
  cases v.rm with
  | rtz => rfl
  | rdn => rfl
  | rup => rfl
  | odd => rfl
  | rna => dsimp only; rw [hlex, hley, hsame]
  | rne =>
    have hx' : 2 * gapFraction f lo x ≠ 1 := fun h => by
      have := hltx.mpr (hlex.mp h.ge); linarith
    have hy' : 2 * gapFraction f lo y ≠ 1 := fun h => by
      have := hlty.mpr (hley.mp h.ge); linarith
    simp only [hx', hy', false_and, or_false]
    rw [hltx, hlty, hsame]
  | stochastic =>
    have hfloor (z : ℝ) : (v.xi : ℤ) < ⌊gapFraction f lo z * 2 ^ 24⌋ ↔
        ((v.xi + 1 : Nat) / 2 ^ 24 : ℝ) ≤ gapFraction f lo z := by
      rw [← Int.add_one_le_iff, Int.le_floor, div_le_iff₀ (by positivity)]
      push_cast; rfl
    simp only [hfloor]
    rcases le_or_gt (v.xi + 1) (2 ^ 24) with hk | hk
    · rw [hx.le_gapFraction_iff hgap hk, hy.le_gapFraction_iff hgap hk, hsame]
    · have hbig (z : ℝ) : ¬ ((v.xi + 1 : Nat) / 2 ^ 24 : ℝ) ≤ gapFraction f lo z := by
        refine not_le.mpr ((min_le_left _ _).trans_lt ?_)
        rw [one_lt_div (by positivity)]
        exact_mod_cast hk
      exact iff_of_false (hbig x) (hbig y)

end

/-- What one magnitude of a cell rounds to, every other does. -/
theorem InCell.roundsTo {f : Fmt} {v : Env} {neg : Bool} {j : Int} {x y : ℝ} {z : Nat × Conds} (hx : InCell j x)
    (hy : InCell j y) (h : roundsTo f v neg x z) : roundsTo f v neg y z := by
  rcases h with ⟨c, -, hc, -⟩ | ⟨lo, hfinite, hlower, hupper, h⟩
  · exact absurd hc hx.ne_magnitudeOf
  · refine .inr ⟨lo, hfinite, (hx.magnitudeOf_lt_iff hy).mp hlower, fun hl => (hx.lt_magnitudeOf_iff hy).mp (hupper hl), ?_⟩
    split at h
    · next htop => rwa [if_pos htop]
    · next htop =>
      have hgap : (magnitudeOf f lo : ℝ) < magnitudeOf f (lo + 1) := by
        rcases eq_or_lt_of_le hfinite with hmax | hlt
        · exact magnitudeOf_lt_succ (by simpa [hmax] using htop) lo
        · exact hlower.trans (hupper hlt)
      rw [if_neg htop]
      change (upperChosen v neg lo (gapFraction f lo y) ∧ _) ∨ (¬ upperChosen v neg lo (gapFraction f lo y) ∧ _)
      rw [← hx.upperChosen_iff hgap hy]
      exact h

end Sys2Proof.Claims
end

section
/-!
The settling of O5: a root is rounded as the fraction that the model cuts it to.
-/

namespace Sys2Proof.Claims

open Sys2Proof.Machine

/-! ### Square roots -/

/-- The root found from bit `k - 1` down is the integer square root. -/
theorem isqrtFrom_spec {n : Nat} : ∀ {k r : Nat}, r * r ≤ n → n < (r + 2 ^ k) * (r + 2 ^ k) →
    isqrtFrom n k r * isqrtFrom n k r ≤ n ∧ n < (isqrtFrom n k r + 1) * (isqrtFrom n k r + 1)
  | 0, _, hlo, hhi => ⟨hlo, hhi⟩
  | k + 1, r, hlo, hhi => by
    rw [isqrtFrom]
    split
    · next h => exact isqrtFrom_spec h (by rwa [add_assoc, ← two_mul, ← pow_succ'])
    · next h => exact isqrtFrom_spec hlo (not_le.mp h)

theorem isqrt_spec (n : Nat) : isqrt n * isqrt n ≤ n ∧ n < (isqrt n + 1) * (isqrt n + 1) := by
  refine isqrtFrom_spec (by simp) ?_
  calc n < 2 ^ (Nat.log2 n + 1) := Nat.lt_log2_self
    _ ≤ 2 ^ ((Nat.log2 n / 2 + 1) + (Nat.log2 n / 2 + 1)) := Nat.pow_le_pow_right two_pos (by omega)
    _ = _ := by rw [zero_add, pow_add]

/-- The model's fraction is the root itself, or is cut off within the last of 200 binary places. -/
theorem sqrtFraction_cases (num : Nat) {den : Nat} (hd : 0 < den) : ∃ q,
    (q * q * den = num * 4 ^ 200 ∧ sqrtFraction num den = (q, 2 ^ 200)) ∨
      (q * q * den < num * 4 ^ 200 ∧ num * 4 ^ 200 < (q + 1) * (q + 1) * den ∧
        sqrtFraction num den = (2 * q + 1, 2 ^ 201)) := by
  obtain ⟨hlo, hhi⟩ := isqrt_spec (num * 4 ^ 200 / den)
  rw [Nat.le_div_iff_mul_le hd] at hlo
  rw [Nat.div_lt_iff_lt_mul hd] at hhi
  refine ⟨isqrt (num * 4 ^ 200 / den), ?_⟩
  unfold sqrtFraction
  by_cases h : isqrt (num * 4 ^ 200 / den) * isqrt (num * 4 ^ 200 / den) * den = num * 4 ^ 200
  · exact .inl ⟨h, if_pos h⟩
  · exact .inr ⟨lt_of_le_of_ne hlo h, hhi, if_neg h⟩

theorem sqrt_mul_two_pow (num den : Nat) :
    Real.sqrt (num / den) * 2 ^ 200 = Real.sqrt ((num * 4 ^ 200 : Nat) / den) := by
  have hpow : (4 ^ 200 : ℝ) = (2 ^ 200) ^ 2 := by rw [← pow_mul, mul_comm 200, pow_mul]; norm_num
  rw [Nat.cast_mul, Nat.cast_pow, Nat.cast_ofNat, mul_div_right_comm, hpow,
    Real.sqrt_mul' _ (by positivity), Real.sqrt_sq (by positivity)]

/-- Rounding the model's fraction of a root answers what R99 chooses for the root. -/
theorem roundsTo_sqrt (f : Fmt) (v : Env) (neg : Bool) {num den : Nat} (hn : 0 < num) (hd : 0 < den) :
    roundsTo f v neg (Real.sqrt ((num : ℝ) / den)) (f.round v neg (sqrtFraction num den).1 (sqrtFraction num den).2) := by
  have hd' : (0 : ℝ) < den := by exact_mod_cast hd
  have hroot := sqrt_mul_two_pow num den
  obtain ⟨q, ⟨hq, hfrac⟩ | ⟨hlo, hhi, hfrac⟩⟩ := sqrtFraction_cases num hd
  · have hqpos : 0 < q := Nat.pos_of_ne_zero fun h0 => by
      rw [h0, zero_mul, zero_mul] at hq
      exact (Nat.mul_pos hn (by positivity)).ne hq
    have hexact : Real.sqrt (num / den) = (q : ℝ) / (2 ^ 200 : Nat) := by
      rw [← hq, Nat.cast_mul, mul_div_cancel_right₀ _ hd'.ne', Nat.cast_mul, Real.sqrt_mul_self q.cast_nonneg] at hroot
      rw [Nat.cast_pow, Nat.cast_ofNat, eq_div_iff (by positivity), hroot]
    rw [hfrac, hexact]
    exact roundsTo_round f v neg hqpos (by positivity)
  · have hmiddle : InCell q ((2 * q + 1 : Nat) / (2 ^ 201 : Nat)) := by
      have hpow : ((2 * q + 1 : Nat) / (2 ^ 201 : Nat) : ℝ) * 2 ^ 200 = q + 1 / 2 := by
        rw [div_mul_eq_mul_div, div_eq_iff (by positivity)]
        push_cast
        ring
      constructor <;> rw [hpow] <;> push_cast <;> linarith
    have hcell : InCell q (Real.sqrt (num / den)) := by
      constructor <;> rw [hroot]
      · rw [Int.cast_natCast, Real.lt_sqrt q.cast_nonneg, lt_div_iff₀ hd', sq]
        exact_mod_cast hlo
      · rw [Int.cast_natCast, Real.sqrt_lt' (by positivity), div_lt_iff₀ hd', sq]
        exact_mod_cast hhi
    rw [hfrac]
    exact hmiddle.roundsTo hcell (roundsTo_round f v neg (Nat.succ_pos _) (by positivity))

/-! ### Operands -/

theorem scaled_den_pos (m : Nat) (e : Int) : 0 < (scaled m e).2 := by
  unfold scaled
  split
  · exact one_pos
  · positivity

theorem magnitude_den_pos (f : Fmt) (c : Nat) : 0 < (f.magnitude c).2 := by
  unfold Fmt.magnitude Shape.magnitude
  split
  · norm_num
  · dsimp only
    split <;> exact scaled_den_pos ..

/-- The exact value of a finite code has a denominator. -/
theorem den_pos_of_decode {f : Fmt} {x n d : Nat} {neg : Bool} (h : f.decode x = .fin neg n d) : 0 < d := by
  unfold Fmt.decode at h
  dsimp only at h
  split at h
  · split at h
    · cases h
    · cases h; exact magnitude_den_pos ..
  · split at h
    · cases h; exact magnitude_den_pos ..
    · split at h
      · cases h
      · split at h <;> cases h

theorem sqrt_of_pos (f : Fmt) (v : Env) {n : Nat} (d : Nat) (hn : 0 < n) :
    f.sqrt v (.fin false n d) = f.round v false (sqrtFraction n d).1 (sqrtFraction n d).2 := by
  simp [Fmt.sqrt, hn.ne']

theorem rsq_of_pos (f : Fmt) (v : Env) {n : Nat} (d : Nat) (hn : 0 < n) :
    f.rsq v (.fin false n d) = f.round v false (sqrtFraction d n).1 (sqrtFraction d n).2 := by
  simp [Fmt.rsq, hn.ne']

/-- Settles O5: the instructions write the table's values; rounding keeps the neighbour below and the remainder, from which
the mode chooses as R99 says; a root and the fraction that the model cuts it to lie in one cell of 2^-200, where no neighbour,
tie or threshold of a format is. -/
theorem floatArithmeticCompletes : Obligations.FloatArithmeticCompletes := by
  refine ⟨?values, roundingHolds_round, ?sqrt, ?rsq⟩
  case values => exact fun s r i x htable h ht => exec_next_of_computes (computes_of_floatEffect htable) h ht
  case sqrt =>
    intro v x n d hx hn
    rw [sqrt_of_pos _ _ d hn]
    exact roundsTo_sqrt .f32 v false hn (den_pos_of_decode hx)
  case rsq =>
    intro f v x n d _ hx hn
    rw [rsq_of_pos _ _ d hn]
    exact roundsTo_sqrt f v false (den_pos_of_decode hx) hn

end Sys2Proof.Claims
end

section
/-!
The settling of O10: the block conversions are a turn for each issuing bead.
-/

namespace Sys2Proof.Machine

@[simp] theorem Rod.setVgroup_uid (r : Rod) (k : Nat) (d : BitVec 7) (xs : List Word) : (r.setVgroup k d xs).uid = r.uid := by
  induction xs generalizing r d with
  | nil => rfl
  | cons x xs ih => exact ih ..

theorem Rod.turned_uid {c : Nat → Conds} {g : Nat → Rod → Rod} (hg : ∀ k q, (g k q).uid = q.uid) (q : Rod)
    (ks : List Nat) :
    (q.turned c g ks).uid = q.uid :=
  foldl_uid _ (fun y k => hg k (y.stick (c k))) ks q

end Sys2Proof.Machine

namespace Sys2Proof.Claims

open Sys2Proof.Machine

section
variable {s : State} {r : Rod}

/-- An instruction that is a turn for each issuing bead, none of which raises an enabled condition: every bead has written. -/
theorem executeBeads_turned {i : Instr} {b : Option Nat → RM Unit} {c : Nat → Conds} {g : Nat → Rod → Rod}
    (h : Issues s r i) (hc : commits i = false) (hu : uniform i = false) (hg : ∀ k q, (g k q).uid = q.uid)
    (hbody : ∀ q k, r.SameFor q k → b (some k) q = RM.turn (some k) (c k) (g k) q)
    (hset : ∀ q j k, r.SameFor q k → j ≠ k → r.SameFor (g j q) k)
    (ht : ∀ k ∈ r.issuing, c k &&& trapEnables r.mode = 0) :
    executeBeads i b s = .next (s.completed r (r.leave.turned c g r.issuing).advance i) := by
  refine execute_onRod h.cur h.legal hc h.inside h.whole ?_ (Rod.turned_uid hg r.leave r.issuing)
  unfold RM.each
  rw [RM.bind_ok (RM.get_apply _), hu]
  exact RM.forM_turns_ok hbody hset r.issuing r.leave r.issuing_nodup (fun k _ => Rod.SameFor.leave r k) ht

/-- QBLK writes each bead's codes and scale record (R108, R397). -/
theorem exec_qblk_next {f : ShRDA} {w tag : Nat} {fam : Family} (h : Issues s r (.qblk f))
    (hfam : r.blockFamily = some (w, tag, fam))
    (ht : ∀ k ∈ r.issuing, (quantisedBy r f fam tag k).2.2 &&& trapEnables r.mode = 0) :
    exec (.qblk f) s = .next (s.completed r
      (r.issuing.foldl (fun y k => tookCodes f w (quantisedBy r f fam tag k) k y) r.leave).advance (.qblk f)) := by
  refine executeBeads_turned (c := fun k => (quantisedBy r f fam tag k).2.2)
    (g := fun k y => y.setVgroup k f.d (wordsOfNat 8 (packCodes w (quantisedBy r f fam tag k).1) ++
      [BitVec.ofNat 32 (quantisedBy r f fam tag k).2.1])) h rfl rfl (fun k q => q.setVgroup_uid ..)
    (fun q j hq => ?_) (fun q j k hq hj => hq.setVgroup _ _ hj) ht
  rw [RM.bind_ok (RM.get_apply q), blockFamily_of_sameFor hq, hfam, ← quantiseBlock_eq_quantisedBy hq]
  rfl

/-- DQBLK writes each bead's 32 values (R97, R109, R354). -/
theorem exec_dqblk_next {f : ShRDA} {w : Nat} (h : Issues s r (.dqblk f)) (hw : blockWidth (field r.fmt.toNat 8 3) = some w)
    (ht : ∀ k ∈ r.issuing, (dequantisedBy r f w k).2 &&& trapEnables r.mode = 0) :
    exec (.dqblk f) s = .next (s.completed r
      (r.issuing.foldl (fun y k => tookValues f (dequantisedBy r f w k) k y) r.leave).advance (.dqblk f)) := by
  refine executeBeads_turned (c := fun k => (dequantisedBy r f w k).2)
    (g := fun k y => y.setVgroup k f.d (dequantisedBy r f w k).1) h rfl rfl (fun k q => q.setVgroup_uid ..)
    (fun q j hq => ?_) (fun q j k hq hj => hq.setVgroup _ _ hj) ht
  rw [RM.bind_ok (RM.get_apply q), hq.fmt, hw, ← dequantised_eq_dequantisedBy hq]
  rfl

end

/-- Settles O10: each bead's turn writes what its claim says, and rounding is R99's. -/
theorem blocksConvert : Obligations.BlocksConvert :=
  ⟨fun _ _ _ _ _ _ h hfam ht => exec_qblk_next h hfam ht,
    fun _ _ _ _ h hw ht => exec_dqblk_next h hw ht, roundingHolds_round⟩

end Sys2Proof.Claims
end


section
/-!
SUPPORT. An instruction that the rod moves past: its effect begins in `State.begun` and ends in `State.through`, bead after
bead, whether it is a commit point or not (R16, R146).
-/

namespace Sys2Proof.Machine

section
variable {s t : State} {r q : Rod} {i : Instr} {body : M Unit} {e : Stop}

theorem State.begun_of_not_commits (hc : commits i = false) : s.begun r i = s.setRod r.leave := if_neg (by simp [hc])

/-- The rod whose effect begins is the rod that issues. -/
theorem State.curRod?_begun_alike (h : Issues s r i) (hl : lazyCommits i = false) :
    ∃ p, (s.begun r i).curRod? = some p ∧ r.Alike p := by
  cases hc : commits i with
  | true => exact State.curRod?_begun h hc hl
  | false =>
    refine ⟨r.leave, ?_, rfl⟩
    rw [State.begun_of_not_commits hc]
    exact State.curRod?_setRod h.cur rfl

/-- An instruction whose effect completes, with its rod still there: the rod moves past it (R16, R146). -/
theorem execute_through (h : Issues s r i) (hl : lazyCommits i = false) (hb : body (s.begun r i) = (.ok (), t))
    (hq : t.curRod? = some q) (hu : q.uid = r.uid) : execute i body s = .next (t.through r i) := by
  have hadvance : M.advance t = (.ok (), t.alter r.uid Rod.advance) := by
    rw [State.alter_of_curRod? hq hu]
    exact onRod_ok hq rfl
  have hbody : (do body; M.advance : M Unit) (s.begun r i) = (.ok (), t.alter r.uid Rod.advance) := by
    rw [M.bind_ok hb, hadvance]
  cases hc : commits i with
  | true =>
    have hcur := State.curRod?_alter (f := Rod.advance) (fun _ => rfl) hq hu
    exact executeControl_shut h hc hl hbody ((State.curRod?_eq hcur).1.trans (congrArg some hu))
  | false =>
    rw [State.begun_of_not_commits hc] at hbody
    refine (executeControl_ok h hc hbody).trans ?_
    rw [State.through, State.shut, if_neg (by simp [hc])]

/-- An instruction whose effect ends early: what ends it is settled (R286). -/
theorem execute_stopped (h : Issues s r i) (hl : lazyCommits i = false) (hb : body (s.begun r i) = (.error e, t)) :
    execute i body s = .next ((t.settle r.uid e).tick (r.cyclesOf (onceOnly i) (.error e))) := by
  have hbody : (do body; M.advance : M Unit) (s.begun r i) = (.error e, t) := M.bind_error hb
  cases hc : commits i with
  | true =>
    have hperformed : performed i (passing i body) s = (.error e, t) := by
      rw [performed_of_commits h hc hl]
      refine M.bind_error ?_
      unfold passing
      rw [M.bind_ok (M.inAllocation_begun h hc hl _), hbody]
    unfold execute issue
    rw [h.cur]
    simp only [hperformed]
  | false =>
    rw [State.begun_of_not_commits hc] at hbody
    exact executeControl_error h hc hbody

end

/-- The rod that a claim finds now is the one that issues. -/
theorem nowOf_eq {s : State} {r q : Rod} (h : s.curRod? = some q) (hu : q.uid = r.uid) : Claims.nowOf s r = q := by
  unfold Claims.nowOf
  rw [← hu, (State.curRod?_eq h).2]
  rfl

/-! ### Parts one after another -/

section
variable {α : Type} {s t : State} {r q : Rod}

/-- The parts of an instruction act in turn (R17, R19). -/
theorem M.each_apply (h : s.curRod? = some r) (u : Bool) (f : Option Nat → M Unit) : M.each u f s = (r.parts u).forM f s := by
  unfold M.each
  rw [M.bind_ok (M.rod_apply h)]
  cases u with
  | true => exact (congrFun (bind_pure_unit (x := f none)) s).symm
  | false =>
    have hmap (ks : List Nat) : ks.forM (fun k => f (some k)) = (ks.map some).forM f := by
      induction ks with
      | nil => rfl
      | cons k ks ih => exact congrArg (fun m => f (some k) >>= fun _ => m) ih
    exact congrFun (hmap r.issuing) s

/-- Effects one after another, each of which completes with its turn of the state; `P` holds of what is still to come and of
the state that it finds. -/
theorem M.forM_turns {f : α → M Unit} {turn : State → α → State} {P : List α → State → Prop}
    (hstep : ∀ b bs t, P (b :: bs) t → f b t = (.ok (), turn t b) ∧ P bs (turn t b)) (bs : List α) (h : P bs s) :
    bs.forM f s = (.ok (), bs.foldl turn s) ∧ P [] (bs.foldl turn s) := by
  induction bs generalizing s with
  | nil => exact ⟨rfl, h⟩
  | cons b bs ih =>
    obtain ⟨hf, hP⟩ := hstep b bs s h
    rw [M.forM_cons, M.bind_ok hf]
    exact ih hP

/-- Effects one after another, each of which completes with its turn of the state and keeps what is known of the state. -/
theorem M.forM_members {f : α → M Unit} {turn : State → α → State} {P : State → Prop} {bs : List α}
    (hstep : ∀ b ∈ bs, ∀ t, P t → f b t = (.ok (), turn t b) ∧ P (turn t b)) (h : P s) :
    bs.forM f s = (.ok (), bs.foldl turn s) ∧ P (bs.foldl turn s) := by
  obtain ⟨hf, -, hP⟩ := M.forM_turns (P := fun cs t => (∀ c ∈ cs, c ∈ bs) ∧ P t) (fun b cs t ⟨hcs, ht⟩ => by
    obtain ⟨hb, hnext⟩ := hstep b (hcs b List.mem_cons_self) t ht
    exact ⟨hb, fun c hc => hcs c (List.mem_cons_of_mem b hc), hnext⟩) bs ⟨fun _ hb => hb, h⟩
  exact ⟨hf, hP⟩

/-- Checks that all pass change nothing. -/
theorem M.forM_checks {f : α → M Unit} {bs : List α} (h : ∀ b ∈ bs, f b s = (.ok (), s)) : bs.forM f s = (.ok (), s) := by
  induction bs with
  | nil => rfl
  | cons b bs ih =>
    rw [M.forM_cons, M.bind_ok (h b List.mem_cons_self)]
    exact ih fun c hc => h c (List.mem_cons_of_mem b hc)

/-- Values that are found one after another, without a change of the state. -/
theorem M.mapM_values {β : Type} {f : α → M β} {g : α → β} {bs : List α} (h : ∀ b ∈ bs, f b s = (.ok (g b), s)) :
    bs.mapM f s = (.ok (bs.map g), s) := by
  induction bs with
  | nil => rfl
  | cons b bs ih =>
    rw [List.mapM_cons, M.bind_ok (h b List.mem_cons_self), M.bind_ok (ih fun c hc => h c (List.mem_cons_of_mem b hc))]
    rfl

/-- The first of several effects ends early. -/
theorem M.forM_error {f : α → M Unit} {b : α} {e : Stop} (bs : List α) (h : f b s = (.error e, t)) :
    (b :: bs).forM f s = (.error e, t) := by
  rw [M.forM_cons, M.bind_error h]

end

end Sys2Proof.Machine
end


section
/-!
SUPPORT. The registers of the parts of a load or store: no part reads what another part has loaded (R19, R42, R70).
-/

namespace Sys2Proof.Machine

/-- The rod `q` is the rod `r`, but for its registers and what `Rod.Alike` lets differ. -/
def Rod.Loading (r q : Rod) : Prop :=
  q = { r with
    s := q.s, beads := q.beads, view := q.view, tent := q.tent, tags := q.tags, status := q.status, atLive := q.atLive
    restart := q.restart, restartCtl := q.restartCtl, rodcyc := q.rodcyc, timerCount := q.timerCount }

/-- The part `b` reads of the rod `q` the registers that it reads of the rod `r`. -/
structure Rod.Agrees (r q : Rod) (b : Option Nat) : Prop where
  rest : r.Loading q
  uniform : q.s = r.s
  bead : q.bead (beadNo b) = r.bead (beadNo b)

section
variable {r q p : Rod} {b c : Option Nat}

theorem Rod.Alike.loading (h : r.Alike q) : r.Loading q := by
  unfold Rod.Alike at h
  rw [h]
  rfl

theorem Rod.Loading.trans (h : r.Loading q) (h' : q.Loading p) : r.Loading p := by
  unfold Rod.Loading at *
  rw [h', h]

theorem Rod.Loading.uid (h : r.Loading q) : q.uid = r.uid := by rw [h]
theorem Rod.Loading.core (h : r.Loading q) : q.core = r.core := by rw [h]
theorem Rod.Loading.asid (h : r.Loading q) : q.asid = r.asid := by rw [h]
theorem Rod.Loading.frame (h : r.Loading q) : q.frame = r.frame := by rw [h]
theorem Rod.Loading.parts (h : r.Loading q) (u : Bool) : q.parts u = r.parts u := by rw [h]; rfl
theorem Rod.Loading.cap (h : r.Loading q) (n : Nat) : q.cap n = r.cap n := by rw [h]; rfl

theorem Rod.Alike.agrees (h : r.Alike q) (b : Option Nat) : r.Agrees q b := ⟨h.loading, by rw [h], by rw [h]; rfl⟩

/-- Registers stay when a rod of the same registers takes the rod's place. -/
theorem Rod.Agrees.alike (h : r.Agrees q b) (hk : q.Alike p) : r.Agrees p b := by
  refine ⟨h.rest.trans hk.loading, ?_, ?_⟩
  · rw [hk]; exact h.uniform
  · rw [hk]; exact h.bead

theorem Rod.Agrees.sreg (h : r.Agrees q b) (n : Nat) : q.sreg n = r.sreg n := by
  rw [Rod.sreg, Rod.sreg, h.uniform]

theorem Rod.Agrees.vreg (h : r.Agrees q b) (g : BitVec 7) : q.vreg (beadNo b) g = r.vreg (beadNo b) g := by
  have hphys : q.phys g = r.phys g := by rw [Rod.phys, Rod.phys, h.rest]
  rw [Rod.vreg, Rod.vreg, h.bead, hphys]

theorem Rod.Agrees.word (h : r.Agrees q b) (g : BitVec 7) : q.word b g = r.word b g := by
  unfold Rod.word
  rw [h.sreg, h.vreg]

theorem Rod.Agrees.dword (h : r.Agrees q b) (g : BitVec 7) : q.dword b g = r.dword b g := by
  unfold Rod.dword
  rw [h.sreg, h.vreg, h.vreg]

theorem Rod.Agrees.quad (h : r.Agrees q b) (g : BitVec 7) : q.quad b g = r.quad b g := by
  unfold Rod.quad
  rw [h.sreg, h.sreg, h.vreg, h.vreg, h.vreg, h.vreg]

theorem Rod.Agrees.operand (h : r.Agrees q b) (w : Bool) (g : BitVec 7) : q.operand b w g = r.operand b w g := by
  unfold Rod.operand
  rw [h.word, h.dword]

theorem accessSize_eq_widthBytes (w : BitVec 3) : accessSize w = Claims.widthBytes w := by
  revert w
  decide

theorem Rod.Agrees.byteOffset (h : r.Agrees q b) (x : Bool) (g : BitVec 7) (w : BitVec 3) :
    q.offset b x g * accessSize w = Claims.byteOffset r b x g (Claims.widthBytes w) := by
  rw [accessSize_eq_widthBytes, Rod.offset, h.operand]
  rfl

/-! ### Widths -/

theorem Rod.stored_eq_storedFrom (r : Rod) (b : Option Nat) (d : BitVec 7) (w : BitVec 3) :
    r.stored b d w = Claims.storedFrom r b d w := by
  unfold Rod.stored Claims.storedFrom
  have hw : ∀ n < 8, (w = BitVec.ofNat 3 n ↔ w.toNat = n) := fun n hn => by
    rw [← BitVec.toNat_inj, BitVec.toNat_ofNat, Nat.mod_eq_of_lt hn]
  simp only [show (w = 6 ↔ w.toNat = 6) from hw 6 (by decide), show (w = 5 ↔ w.toNat = 5) from hw 5 (by decide)]
  split
  · next h5 => rw [if_neg (by omega), if_pos h5]
  · next h6 => rw [if_pos h6]
  · next h5 h6 => rw [if_neg h6, if_neg h5]

theorem Rod.setLoaded_eq_loadedInto (r : Rod) (b : Option Nat) (d : BitVec 7) (w : BitVec 3) (x : Nat) :
    r.setLoaded b d w x = Claims.loadedInto r b d w x := by
  have hput (y : Dword) : (if isS d then r.setS (sIndex d) y else r.setWord b d (loWord y)) =
      if isS d then r.setS (sIndex d) y else r.setV (beadNo b) d (y.setWidth 32) := by
    cases hd : isS d with
    | true => rfl
    | false => simp only [Rod.setWord, hd]; rfl
  unfold Rod.setLoaded Claims.loadedInto extended
  simp only [hput]
  generalize w.toNat = n
  rcases n with _ | _ | _ | _ | _ | _ | _ | n <;> rfl

/-! ### What a load writes -/

/-- A load into uniform registers writes one or two of them (R70). -/
theorem loadedInto_uniform {d : BitVec 7} (hd : isS d = true) (b : Option Nat) (w : BitVec 3) (x : Nat) :
    ∃ ys, ∀ q, Claims.loadedInto q b d w x = q.setSgroup (sIndex d) ys := by
  unfold Claims.loadedInto Rod.setQuad Rod.setDword
  simp only [hd, if_true]
  split
  · exact ⟨[_, _], fun _ => rfl⟩
  all_goals exact ⟨[_], fun _ => rfl⟩

/-- A load into vector registers writes up to four of its bead (R70). -/
theorem loadedInto_vector {d : BitVec 7} (hd : isS d = false) (b : Option Nat) (w : BitVec 3) (x : Nat) :
    ∃ ys, ∀ q, Claims.loadedInto q b d w x = q.setVgroup (beadNo b) d ys := by
  unfold Claims.loadedInto Rod.setQuad Rod.setDword
  simp only [hd, Bool.false_eq_true, if_false]
  split
  · exact ⟨_, fun _ => rfl⟩
  · exact ⟨[_, _], fun _ => rfl⟩
  all_goals exact ⟨[_], fun _ => rfl⟩

/-- The rod with another view of memory, as it has left its save point. -/
def Rod.viewing (v : View) (r : Rod) : Rod := { r with view := v, atLive := false }

/-- The rod with other registers. -/
def Rod.registers (r q : Rod) : Rod := { r with s := q.s, beads := q.beads }

theorem Rod.setSgroup_registers (n : Nat) (ys : List Dword) (q : Rod) : q.setSgroup n ys = q.registers (q.setSgroup n ys) := by
  induction ys generalizing n q with
  | nil => rfl
  | cons y ys ih => rw [Rod.setSgroup, ih]; rfl

theorem Rod.setVgroup_registers (k : Nat) (d : BitVec 7) (ys : List Word) (q : Rod) :
    q.setVgroup k d ys = q.registers (q.setVgroup k d ys) := by
  induction ys generalizing d q with
  | nil => rfl
  | cons y ys ih => rw [Rod.setVgroup, ih]; rfl

/-- A load changes registers alone. -/
theorem loadedInto_registers (q : Rod) (b : Option Nat) (d : BitVec 7) (w : BitVec 3) (x : Nat) :
    Claims.loadedInto q b d w x = q.registers (Claims.loadedInto q b d w x) := by
  cases hd : isS d with
  | true => obtain ⟨ys, hys⟩ := loadedInto_uniform hd b w x; rw [hys]; exact q.setSgroup_registers _ ys
  | false => obtain ⟨ys, hys⟩ := loadedInto_vector hd b w x; rw [hys]; exact q.setVgroup_registers _ d ys

@[simp] theorem loadedInto_uid (q : Rod) (b : Option Nat) (d : BitVec 7) (w : BitVec 3) (x : Nat) :
    (Claims.loadedInto q b d w x).uid = q.uid := by
  rw [loadedInto_registers]
  rfl

theorem Rod.loading_loadedInto (q : Rod) (b : Option Nat) (d : BitVec 7) (w : BitVec 3) (x : Nat) :
    q.Loading (Claims.loadedInto q b d w x) := by
  rw [loadedInto_registers]
  rfl

/-- What a load writes does not depend on the rod's view of memory. -/
theorem loadedInto_viewing (q : Rod) (v : View) (b : Option Nat) (d : BitVec 7) (w : BitVec 3) (x : Nat) :
    Claims.loadedInto (q.viewing v) b d w x = (Claims.loadedInto q b d w x).viewing v := by
  cases hd : isS d with
  | true =>
    obtain ⟨ys, hys⟩ := loadedInto_uniform hd b w x
    rw [hys, hys]
    clear hys
    generalize sIndex d = n
    induction ys generalizing q n with
    | nil => rfl
    | cons y ys ih => exact ih (q.setS n y) (n + 1)
  | false =>
    obtain ⟨ys, hys⟩ := loadedInto_vector hd b w x
    rw [hys, hys]
    clear hys hd
    induction ys generalizing q d with
    | nil => rfl
    | cons y ys ih => exact ih (q.setV (beadNo b) d y) (next d 1)

theorem Rod.setVgroup_bead {k j : Nat} (hjk : j ≠ k) (d : BitVec 7) (ys : List Word) (q : Rod) :
    (q.setVgroup j d ys).s = q.s ∧ (q.setVgroup j d ys).bead k = q.bead k := by
  induction ys generalizing d q with
  | nil => exact ⟨rfl, rfl⟩
  | cons y ys ih =>
    obtain ⟨hs, hb⟩ := ih (next d 1) (q.setV j d y)
    exact ⟨hs, hb.trans (Rod.bead_modBead_ne q _ hjk)⟩

/-- What another part loads into a vector register changes nothing that a part reads. -/
theorem Rod.Agrees.loadedInto {d : BitVec 7} (h : r.Agrees q c) (hd : isS d = false) (hbc : beadNo b ≠ beadNo c)
    (w : BitVec 3) (x : Nat) : r.Agrees (Claims.loadedInto q b d w x) c := by
  refine ⟨h.rest.trans (q.loading_loadedInto b d w x), ?_, ?_⟩
  all_goals
    obtain ⟨ys, hys⟩ := loadedInto_vector hd b w x
    rw [hys]
  · exact (Rod.setVgroup_bead hbc d ys q).1.trans h.uniform
  · exact (Rod.setVgroup_bead hbc d ys q).2.trans h.bead

theorem isS_of_okLoadData {u : Bool} {w : BitVec 3} {d : BitVec 7} (h : okLoadData u w d = true) : isS d = u := by
  unfold okLoadData at h
  split at h
  · exact isS_of_okDst h
  · cases u with
    | true => exact (Bool.and_eq_true_iff.mp h).1
    | false => exact isS_of_isV (Bool.and_eq_true_iff.mp h).1
  · exact isS_of_okDst h

/-- What a part that comes before another one loads goes to a vector register of another bead. -/
def LoadsApart (d : BitVec 7) (b c : Option Nat) : Prop := isS d = false ∧ beadNo b ≠ beadNo c

theorem Rod.parts_loadsApart (r : Rod) {u : Bool} {d : BitVec 7} (hd : isS d = u) : (r.parts u).Pairwise (LoadsApart d) := by
  cases u with
  | true => exact List.pairwise_singleton _ _
  | false =>
    show (r.issuing.map some).Pairwise _
    rw [List.pairwise_map]
    exact r.issuing_nodup.imp fun hne => ⟨hd, hne⟩

end

end Sys2Proof.Machine
end


section
/-!
SUPPORT. An access of the issuing rod that reaches its address is checked and translated, and nothing changes (R116, R117,
R136, R138, R147).
-/

namespace Sys2Proof.Machine

/-- The state `t` finds addresses as the state `s` does: rods, the lines on their way, what the dies hold of each other's
lines and the names given out may differ. -/
def State.Finds (s t : State) : Prop :=
  t = { s with
    rods := t.rods, inflight := t.inflight, clocks := t.clocks, dieMsgs := t.dieMsgs, dieCopies := t.dieCopies
    fresh := t.fresh }

theorem State.Finds.trans {s t x : State} (h : s.Finds t) (h' : t.Finds x) : s.Finds x := by
  unfold State.Finds at *
  rw [h', h]

section
variable {s t : State} {r p : Rod} {b : Option Nat} {c : Cap} {q : Rights} {byte size a : Nat} {use : Use}

/-- An address that is reached is reached in every state that finds addresses so, by the rod as it then is. -/
theorem State.Finds.reaches (hs : s.Finds t) (hk : r.Loading p) (h : Claims.Reaches s r c q byte size use a) :
    Claims.Reaches t p c q byte size use a where
  valid := h.valid
  rights := h.rights
  inside := h.inside
  mapped := by rw [hs, hk]; exact h.mapped
  outside := by rw [hs]; exact h.outside
  open_ := by rw [hs]; exact h.open_

theorem M.checkCap_ok (h : Claims.Reaches s r c q byte size use a) : M.checkCap b c q byte size t = (.ok (), t) := by
  obtain ⟨hlo, hhi⟩ := h.inside
  have hcheck : c.check q byte size = none := by
    unfold Cap.check
    rw [h.valid, h.rights]
    simp only [Bool.not_true, Bool.false_eq_true, if_false]
    exact if_neg (by omega)
  unfold M.checkCap
  rw [hcheck]
  rfl

theorem M.physical_cached {va kind : Nat} {e : TlbEntry} (h : s.curRod? = some r)
    (he : s.tlbFind (some r.core) r.asid va (decide (kind = 1)) = some e)
    (hout : ¬ (field (e.place va) 50 2 = 2 ∧ field (e.place va) 38 12 = s.endpoint)) :
    M.physical b va kind s = (.ok (e, e.place va), s) := by
  have htr : M.translate b va kind s = (.ok e, s) := by
    unfold M.translate
    rw [M.bind_ok (M.rod_apply h), M.bind_ok (M.get_apply s)]
    unfold State.lookup
    rw [he]
    rfl
  unfold M.physical
  rw [M.bind_ok htr, M.bind_ok (M.get_apply s), if_neg hout]
  rfl

theorem M.unbarred_ok {va mt : Nat} {write : Bool} (h : s.barred a write = none) :
    M.unbarred b va a mt write s = (.ok a, s) := by
  unfold M.unbarred
  rw [M.bind_ok (M.get_apply s), h]
  rfl

/-- The range of an object that an access reaches has its address, and its line, for a store, comes from where `Claims.lineFrom`
says. -/
theorem M.objectLine_ok (h : s.curRod? = some r) (hr : Claims.Reaches s r c q byte size use a) :
    ∃ tag, M.objectLine b c byte size use s = (.ok (a, tag), s) ∧ (use ≠ .load → tag = Claims.lineFrom s r c byte a) := by
  obtain ⟨len, base, e, hobj, hlen, htlb, ha⟩ := hr.mapped
  have hout := hr.outside
  have hopen := hr.open_
  have hline : use ≠ .load → Claims.lineFrom s r c byte a =
      ⟨lineOf a, (base + byte) % 2 ^ 48 / 128 * 128, c.handle.toNat, e.mt⟩ := fun hu => by
    rw [decide_eq_true hu] at htlb
    unfold Claims.lineFrom
    simp only [hobj, Option.map_some, Option.getD_some, htlb, lineOf]
  clear hr
  generalize hva : (base + byte) % 2 ^ 48 = va at *
  subst ha
  have hkind : decide ((if use = .load then 0 else 1) = 1) = decide (use ≠ .load) := by cases use <;> rfl
  rw [← hkind] at htlb
  refine ⟨⟨lineOf (e.place va), va / 128 * 128, c.handle.toNat, e.mt⟩, ?_, fun hu => (hline hu).symm⟩
  unfold M.objectLine
  rw [M.bind_ok (M.object?_ok h hobj)]
  dsimp only
  rw [if_neg (by omega), hva, M.bind_ok (M.physical_cached h htlb hout)]
  have hsound (hu : use ≠ .tentative) :
      (do
        let a' ← M.unbarred b va (e.place va) e.mt (decide (use = .home))
        let s ← get
        M.need (!s.damaged a' size) (.trap 10 1 b va 0)
        pure (a', ⟨lineOf (e.place va), va / 128 * 128, c.handle.toNat, e.mt⟩) : M (Nat × LineTag)) s =
      (.ok (e.place va, ⟨lineOf (e.place va), va / 128 * 128, c.handle.toNat, e.mt⟩), s) := by
    obtain ⟨hbar, hdam⟩ := hopen hu
    rw [M.bind_ok (M.unbarred_ok hbar), M.bind_ok (M.get_apply s), hdam]
    rfl
  cases use with
  | tentative => rfl
  | load => exact hsound (by decide)
  | home => exact hsound (by decide)

theorem M.objectPhys_ok (h : s.curRod? = some r) (hr : Claims.Reaches s r c q byte size use a) :
    M.objectPhys b c byte size use s = (.ok a, s) := by
  obtain ⟨tag, htag, -⟩ := M.objectLine_ok (b := b) h hr
  unfold M.objectPhys
  rw [M.bind_ok htag]
  rfl

theorem M.reach_ok (h : s.curRod? = some r) (hr : Claims.Reaches s r c q byte size use a) :
    M.reach b c q byte size use s = (.ok a, s) := by
  unfold M.reach
  rw [M.bind_ok (M.checkCap_ok hr), M.objectPhys_ok h hr]

/-- A store into a tentative line. -/
theorem M.reachLine_ok (h : s.curRod? = some r)
    (hr : Claims.Reaches s r c ⟨false, true, false, false, false⟩ byte size .tentative a) :
    M.reachLine b c byte size s = (.ok (a, Claims.lineFrom s r c byte a), s) := by
  obtain ⟨tag, htag, hfrom⟩ := M.objectLine_ok (b := b) h hr
  unfold M.reachLine
  rw [M.bind_ok (M.checkCap_ok hr), htag, hfrom (by decide)]

/-- Every part reaches its address at the homes before any is performed (R147, R328). -/
theorem M.reachAll_ok {u : Bool} {offset : Rod → Option Nat → Nat} {at_ : Option Nat → Nat} (h : s.curRod? = some r)
    (hr : ∀ b ∈ r.parts u, Claims.Reaches s r c q (offset r b) size .home (at_ b)) :
    M.reachAll u c q offset size s = (.ok ((r.parts u).map fun b => (b, at_ b)), s) := by
  unfold M.reachAll
  rw [M.bind_ok (M.rod_apply h), M.bind_ok (M.forM_checks fun b hb => M.checkCap_ok (hr b hb))]
  refine M.ahead_ok h (M.mapM_values fun b hb => ?_)
  rw [M.bind_ok (M.objectPhys_ok h (hr b hb))]
  rfl

end

end Sys2Proof.Machine
end


section
/-!
SUPPORT. A load of the issuing rod: what it leaves of the state, and that it returns the newest value where the rod must see
every recent write to its bytes (R132, R161 to R163).
-/

namespace Sys2Proof.Machine

/-! ### What a load leaves -/

/-- The state `t` is the state `s`, but for what the dies hold of each other's lines and the names given out. -/
def State.Refreshed (s t : State) : Prop :=
  t = { s with clocks := t.clocks, dieMsgs := t.dieMsgs, dieCopies := t.dieCopies, fresh := t.fresh }

section
variable {s t x : State} {r q : Rod}

theorem State.Refreshed.refl (s : State) : s.Refreshed s := rfl

theorem State.Refreshed.trans (h : s.Refreshed t) (h' : t.Refreshed x) : s.Refreshed x := by
  unfold State.Refreshed at *
  rw [h', h]

theorem State.Refreshed.curRod? (h : s.Refreshed t) : t.curRod? = s.curRod? := by
  rw [h]
  rfl

theorem State.catchUp_refreshed (s : State) (a b : Nat) : s.Refreshed (s.catchUp a b) := rfl

theorem State.fillCopy_refreshed (s : State) (die l : Nat) : s.Refreshed (s.fillCopy die l) := by
  unfold State.fillCopy
  dsimp only
  split
  · exact .refl s
  · rfl

theorem State.hide_refreshed (s : State) (may : List WriteRec) : s.Refreshed (s.hide may).2 := by
  show s.Refreshed (s.choose _).2
  unfold State.choose
  split
  · exact .refl s
  · rfl

/-- What a load of at most 8 bytes hides of the writes that it may miss, and the state that it looks into. -/
theorem State.loadUnit_spec (s : State) (r : Rod) (strong : Bool) (a n : Nat) : ∃ t hidden, s.Refreshed t ∧
    (optional (s.mustSee r.agent r.view) (s.touching a n) = [] → hidden = []) ∧
    (s.loadUnit r strong a n).1.1 = t.rodNatWithout r hidden a n ∧ (s.loadUnit r strong a n).2 = t := by
  cases strong with
  | true =>
    refine ⟨_, _, ?_, fun hmay => ?_, rfl, rfl⟩
    · split
      · exact s.catchUp_refreshed _ _
      · exact .refl s
    · rw [hmay]
      unfold State.hiddenFrom
      split
      · rfl
      · split <;> rfl
  | false =>
    refine ⟨_, _, s.hide_refreshed _, fun hmay => ?_, rfl, rfl⟩
    rw [hmay]
    rfl

theorem State.loadUnit_refreshed (s : State) (r : Rod) (strong : Bool) (a n : Nat) :
    s.Refreshed (s.loadUnit r strong a n).2 := by
  obtain ⟨t, hidden, ht, -, -, hstate⟩ := s.loadUnit_spec r strong a n
  rw [hstate]
  exact ht

theorem State.loadNat_of_ne {n : Nat} (h : n ≠ 16) (s : State) (r : Rod) (strong : Bool) (a : Nat) :
    s.loadNat r strong a n = s.loadUnit r strong a n := if_neg h

/-- A load of 16 bytes is two of 8 (R132). -/
theorem State.loadNat_sixteen (s : State) (r : Rod) (strong : Bool) (a : Nat) :
    (s.loadNat r strong a 16).1.1 = (s.loadUnit r strong a 8).1.1 +
        2 ^ 64 * ((s.loadUnit r strong a 8).2.loadUnit r strong (a + 8) 8).1.1 ∧
      (s.loadNat r strong a 16).2 = ((s.loadUnit r strong a 8).2.loadUnit r strong (a + 8) 8).2 := by
  unfold State.loadNat
  rw [if_pos rfl]
  exact ⟨rfl, rfl⟩

theorem State.loadNat_refreshed (s : State) (r : Rod) (strong : Bool) (a n : Nat) :
    s.Refreshed (s.loadNat r strong a n).2 := by
  by_cases hn : n = 16
  · subst hn
    rw [(s.loadNat_sixteen r strong a).2]
    exact (s.loadUnit_refreshed r strong a 8).trans (State.loadUnit_refreshed _ r strong (a + 8) 8)
  · rw [State.loadNat_of_ne hn]
    exact s.loadUnit_refreshed r strong a n

/-- A load of the issuing rod (R161, R163, R165). -/
theorem M.load_ok (h : s.curRod? = some q) (strong acquire : Bool) (a n : Nat) :
    M.load strong acquire a n s = (.ok (s.loadNat q strong a n).1.1, Claims.returning q acquire (s.loadNat q strong a n).1.2
      ((s.loadNat q strong a n).2.fillCopy (dieOfCore q.core) (lineOf a))) := by
  have hrefreshed := (s.loadNat_refreshed q strong a n).trans (State.fillCopy_refreshed _ (dieOfCore q.core) (lineOf a))
  have hcur := hrefreshed.curRod?.trans h
  unfold M.load Claims.returning
  rw [M.bind_ok (M.rod_apply h), M.bind_ok (M.run_apply _ s)]
  dsimp only
  rw [M.bind_ok (M.upd_apply _ _), M.bind_ok (onRod_ok hcur (RM.modify_apply _ q)), State.alter_of_curRod? hcur rfl]
  rfl

/-! ### The newest value -/

theorem optional_of_forall {must : WriteRec → Bool} {ws : List WriteRec} (h : ∀ w ∈ ws, must w = true) :
    optional must ws = [] := by
  have hnone (ws : List WriteRec) (h : ∀ w ∈ ws, must w = true) : ws.takeWhile (fun w => !must w) = [] := by
    cases ws with
    | nil => rfl
    | cons w ws => simp [h w List.mem_cons_self]
  rw [optional, hnone _ fun w hw => h w (List.mem_reverse.mp hw)]
  rfl

theorem natOfBytes_append (xs ys : List Byte) : natOfBytes (xs ++ ys) = natOfBytes xs + 2 ^ (8 * xs.length) * natOfBytes ys := by
  induction xs with
  | nil => simp [natOfBytes]
  | cons x xs ih =>
    have hpow : 2 ^ (8 * (xs.length + 1)) = 256 * 2 ^ (8 * xs.length) := by rw [Nat.mul_succ, Nat.pow_add, Nat.mul_comm]
    rw [List.cons_append, natOfBytes, natOfBytes, ih, List.length_cons, hpow]
    ring

/-- Sixteen bytes are two times eight (R132). -/
theorem State.rodNat_sixteen (s : State) (r : Rod) (a : Nat) :
    s.rodNat r a 16 = s.rodNat r a 8 + 2 ^ 64 * s.rodNat r (a + 8) 8 := by
  unfold State.rodNat State.rodNatWithout
  rw [show (16 : Nat) = 8 + 8 from rfl, List.range_add, List.map_append, natOfBytes_append, List.map_map]
  simp only [List.length_map, List.length_range, Function.comp_def, Nat.add_assoc]

theorem State.Refreshed.rodNat (h : s.Refreshed t) (r : Rod) (a n : Nat) : t.rodNat r a n = s.rodNat r a n := by
  rw [h]
  rfl

theorem WriteRec.touches_mono {w : WriteRec} {a n b m : Nat} (hb : b ≤ a) (hm : a + n ≤ b + m) (h : w.touches a n = true) :
    w.touches b m = true := by
  unfold WriteRec.touches at *
  simp only [List.any_eq_true, decide_eq_true_eq] at h ⊢
  obtain ⟨x, hx, hlo, hhi⟩ := h
  exact ⟨x, hx, by omega, by omega⟩

/-- The rod must see every recent write that touches the bytes. -/
def State.SeesAll (s : State) (r : Rod) (a n : Nat) : Prop :=
  ∀ w ∈ s.writes, w.touches a n = true → s.mustSee r.agent r.view w = true

theorem State.SeesAll.mono {a n b m : Nat} (h : s.SeesAll r b m) (hb : b ≤ a) (hm : a + n ≤ b + m) : s.SeesAll r a n :=
  fun w hw ht => h w hw (WriteRec.touches_mono hb hm ht)

/-- A load of at most 8 bytes returns the newest value where the rod must see every recent write to them (R162). -/
theorem State.loadUnit_newest {a n : Nat} (h : s.SeesAll r a n) (strong : Bool) :
    (s.loadUnit r strong a n).1.1 = s.rodNat r a n := by
  obtain ⟨t, hidden, ht, hhidden, hvalue, -⟩ := s.loadUnit_spec r strong a n
  have hmay : optional (s.mustSee r.agent r.view) (s.touching a n) = [] := optional_of_forall fun w hw => by
    obtain ⟨hw, htouch⟩ := List.mem_filter.mp hw
    exact h w hw htouch
  rw [hvalue, hhidden hmay, ← ht.rodNat]
  rfl

theorem State.Refreshed.seesAll {a n : Nat} (ht : s.Refreshed t) (h : s.SeesAll r a n) : t.SeesAll r a n := by
  rw [ht]
  exact h

/-- A load returns the newest value where the rod must see every recent write to its bytes (R132, R162). -/
theorem State.loadNat_newest {a n : Nat} (h : s.SeesAll r a n) (strong : Bool) :
    (s.loadNat r strong a n).1.1 = s.rodNat r a n := by
  by_cases hn : n = 16
  · subst hn
    have hlow := State.loadUnit_newest (h.mono (n := 8) le_rfl (by omega)) strong
    have hsecond := s.loadUnit_refreshed r strong a 8
    have hhigh := State.loadUnit_newest (hsecond.seesAll (h.mono (a := a + 8) (n := 8) (by omega) (by omega))) strong
    rw [(s.loadNat_sixteen r strong a).1, hlow, hhigh, hsecond.rodNat, s.rodNat_sixteen]
  · rw [State.loadNat_of_ne hn]
    exact State.loadUnit_newest h strong

/-! ### What a rod has seen it goes on seeing -/

/-- The view `v'` has at least the marks of `v`, and an XFENCE with at least the marks of each of `v`. -/
structure View.Covers (v v' : View) : Prop where
  hb : ∀ d, v.hb.get d ≤ v'.hb.get d
  ord : ∀ c ∈ v.ord, ∃ c' ∈ v'.ord, c'.first = c.first ∧ c'.second = c.second ∧ c'.scope = c.scope ∧ c'.agent = c.agent ∧
    ∀ d, c.marks.get d ≤ c'.marks.get d

theorem Marks.get_join (m n : Marks) (d : Nat) : (m.join n).get d = max (m.get d) (n.get d) := by
  unfold Marks.get
  split <;> rfl

theorem View.Covers.refl (v : View) : v.Covers v :=
  ⟨fun _ => le_rfl, fun c hc => ⟨c, hc, rfl, rfl, rfl, rfl, fun _ => le_rfl⟩⟩

theorem View.Covers.trans {v v' v'' : View} (h : v.Covers v') (h' : v'.Covers v'') : v.Covers v'' where
  hb d := (h.hb d).trans (h'.hb d)
  ord c hc := by
    obtain ⟨x, hx, h1, h2, h3, h4, h5⟩ := h.ord c hc
    obtain ⟨y, hy, g1, g2, g3, g4, g5⟩ := h'.ord x hx
    exact ⟨y, hy, g1.trans h1, g2.trans h2, g3.trans h3, g4.trans h4, fun d => (h5 d).trans (g5 d)⟩

/-- The marks of XFENCEs that are joined are at least those of each. -/
theorem Marks.get_le_foldl_join {c : Cross} (d : Nat) {cs : List Cross} (hc : c ∈ cs) (m : Marks) :
    c.marks.get d ≤ (cs.foldl (fun m y => m.join y.marks) m).get d := by
  have hgrow (cs : List Cross) (m : Marks) : m.get d ≤ (cs.foldl (fun m y => m.join y.marks) m).get d := by
    induction cs generalizing m with
    | nil => exact le_rfl
    | cons y ys ih => exact (le_max_left _ _).trans ((Marks.get_join m y.marks d).ge.trans (ih _))
  induction cs generalizing m with
  | nil => cases hc
  | cons y ys ih =>
    rcases List.mem_cons.mp hc with rfl | hc
    · exact (le_max_right _ _).trans ((Marks.get_join m c.marks d).ge.trans (hgrow ys _))
    · exact ih hc _

/-- Of two lists of XFENCEs joined, each of the first has one with at least its marks. -/
theorem exists_mem_joinCross (b : List Cross) {a : List Cross} {c : Cross} (hc : c ∈ a) :
    ∃ c' ∈ joinCross a b, c'.first = c.first ∧ c'.second = c.second ∧ c'.scope = c.scope ∧ c'.agent = c.agent ∧
      ∀ d, c.marks.get d ≤ c'.marks.get d := by
  unfold joinCross
  induction b generalizing a c with
  | nil => exact ⟨c, hc, rfl, rfl, rfl, rfl, fun _ => le_rfl⟩
  | cons x xs ih =>
    rw [List.foldl_cons]
    by_cases hsame : c.first = x.first ∧ c.second = x.second ∧ c.scope = x.scope ∧ c.agent = x.agent
    · obtain ⟨c', hc', h1, h2, h3, h4, h5⟩ := ih (List.mem_append_right _ (List.mem_singleton_self _))
      obtain ⟨e1, e2, e3, e4⟩ := hsame
      exact ⟨c', hc', h1.trans e1.symm, h2.trans e2.symm, h3.trans e3.symm, h4.trans e4.symm, fun d =>
        (Marks.get_le_foldl_join d (List.mem_filter.mpr ⟨hc, decide_eq_true ⟨e1, e2, e3, e4⟩⟩) _).trans (h5 d)⟩
    · exact ih (List.mem_append_left _ (List.mem_filter.mpr ⟨hc, (Bool.not_eq_true' _).mpr (decide_eq_false hsame)⟩))

theorem View.covers_join (v : View) (x : Stamp) : v.Covers (v.join x) where
  hb d := (le_max_left _ _).trans (Marks.get_join v.hb x.hb d).ge
  ord _ hc := exists_mem_joinCross x.ord hc

theorem View.covers_acquire (v : View) (agent : Agent) (scope : Nat) (xs : List Stamp) : v.Covers (v.acquire agent scope xs) := by
  unfold View.acquire
  generalize xs.filter _ = ys
  induction ys generalizing v with
  | nil => exact .refl v
  | cons y ys ih => exact (v.covers_join y).trans (ih _)

/-- A load takes nothing away from what its rod must see. -/
theorem View.covers_loaded (v : View) (agent : Agent) (acquire : Bool) (ws : List WriteRec) :
    v.Covers (v.loaded agent acquire ws) := by
  cases acquire with
  | false => exact ⟨(View.Covers.refl v).hb, (View.Covers.refl v).ord⟩
  | true =>
    have h := View.covers_acquire { v with read := v.read.join (ws.foldl (fun m w => m.join w.marks) Marks.none) } agent 4
      (ws.flatMap WriteRec.stamps)
    exact ⟨fun d => (h.hb d).trans ((le_max_left _ _).trans (Marks.get_join _ _ d).ge), h.ord⟩

theorem State.mustSee_of_covers {v v' : View} {agent : Agent} {w : WriteRec} (h : v.Covers v')
    (hw : s.mustSee agent v w = true) : s.mustSee agent v' w = true := by
  unfold State.mustSee at *
  simp only [Bool.or_eq_true] at hw ⊢
  refine hw.imp_right fun hhas => ?_
  unfold Seen.has at *
  split at hhas
  · next hp =>
    rw [if_pos hp]
    exact decide_eq_true ((of_decide_eq_true hhas).trans_le (h.hb _))
  · next hp =>
    rw [if_neg hp]
    simp only [List.any_eq_true, Bool.and_eq_true, decide_eq_true_eq] at hhas ⊢
    obtain ⟨c, hc, ⟨⟨hfirst, hsecond, hseq⟩, hagent⟩, hwriter⟩ := hhas
    obtain ⟨c', hc', h1, h2, h3, h4, h5⟩ := h.ord c hc
    rw [← h3, ← h4] at hagent hwriter
    exact ⟨c', hc', ⟨⟨h1.trans hfirst, h2.trans hsecond, hseq.trans_le (h5 _)⟩, hagent⟩, hwriter⟩

end

end Sys2Proof.Machine
end


section
/-!
The settling of O24: an LD whose beads reach their addresses.
-/

namespace Sys2Proof.Machine

section
variable {s t : State} {r q : Rod} {f : ShMem} {at_ : Option Nat → Nat} {b : Option Nat}

/-- One part's effect of LD (R383). -/
def M.ldPart (f : ShMem) (b : Option Nat) : M Unit := do
  let r ← M.rod
  let a ← M.reach b (r.cap f.c.toNat) { rd := true } (r.offset b f.x f.f * accessSize f.w) (accessSize f.w) .load
  let x ← M.load (decide (f.o.toNat ≠ 0)) (decide (f.o.toNat = 2)) a (accessSize f.w)
  onRod (modify fun r => r.setLoaded b f.d f.w x)

theorem exec_ld_eq (f : ShMem) (s : State) : exec (.ld f) s = execute (.ld f) (M.each f.u (M.ldPart f)) s := rfl

/-- The rod with another view of memory. -/
def Rod.seeing (v : View) (r : Rod) : Rod := { r with view := v }

/-- The rod `q` as it has seen what its part's load from the state `s` returns (R163). -/
def Rod.sawLoad (f : ShMem) (at_ : Option Nat → Nat) (s : State) (b : Option Nat) (q : Rod) : Rod :=
  q.seeing (q.view.loaded q.agent (decide (f.o.toNat = 2))
    (s.loadNat q (decide (f.o.toNat ≠ 0)) (at_ b) (Claims.widthBytes f.w)).1.2)

/-- The rod `q` after its part's load from the state `s`. -/
def Rod.afterLoad (f : ShMem) (at_ : Option Nat → Nat) (s : State) (b : Option Nat) (q : Rod) : Rod :=
  Claims.loadedInto (q.sawLoad f at_ s b) b f.d f.w (s.loadNat q (decide (f.o.toNat ≠ 0)) (at_ b) (Claims.widthBytes f.w)).1.1

theorem Rod.afterLoad_loading (q : Rod) : q.Loading (q.afterLoad f at_ s b) :=
  Rod.Loading.trans (q := q.sawLoad f at_ s b) rfl (Rod.loading_loadedInto _ _ _ _ _)

theorem State.returning_eq {ws : List WriteRec} (h : s.curRod? = some q) (hu : q.uid = r.uid) (acquire : Bool) :
    Claims.returning r acquire ws s = s.setRod (q.seeing (q.view.loaded q.agent acquire ws)) :=
  State.alter_of_curRod? h hu _

/-- A part's turn changes its rod's view and registers, and beside it what the dies hold of each other's lines. -/
theorem loadTurn_eq (h : s.curRod? = some q) (hu : q.uid = r.uid) :
    ∃ x, s.Refreshed x ∧ Claims.loadTurn f r at_ s b = x.setRod (q.afterLoad f at_ s b) := by
  have hx := (s.loadNat_refreshed q (decide (f.o.toNat ≠ 0)) (at_ b) (Claims.widthBytes f.w)).trans
    (State.fillCopy_refreshed _ (dieOfCore r.core) (lineOf (at_ b)))
  have hcur := hx.curRod?.trans h
  have hsaw := State.curRod?_setRod (q := q.sawLoad f at_ s b) hcur rfl
  refine ⟨_, hx, ?_⟩
  unfold Claims.loadTurn
  simp only [nowOf_eq h hu]
  rw [State.returning_eq hcur hu]
  exact (State.alter_of_curRod? hsaw hu _).trans (State.setRod_setRod _ _ _ (loadedInto_uid _ _ _ _ _))

theorem curRod?_loadTurn (h : s.curRod? = some q) (hu : q.uid = r.uid) :
    (Claims.loadTurn f r at_ s b).curRod? = some (q.afterLoad f at_ s b) := by
  obtain ⟨x, hx, hturn⟩ := loadTurn_eq (f := f) (at_ := at_) (b := b) h hu
  rw [hturn]
  exact State.curRod?_setRod (hx.curRod?.trans h) q.afterLoad_loading.uid

/-- A part that reaches its address loads. -/
theorem M.ldPart_ok (h : s.curRod? = some q) (hk : r.Agrees q b)
    (hr : Claims.Reaches s q (r.cap f.c.toNat) ⟨true, false, false, false, false⟩
      (Claims.byteOffset r b f.x f.f (Claims.widthBytes f.w)) (Claims.widthBytes f.w) .load (at_ b)) :
    M.ldPart f b s = (.ok (), Claims.loadTurn f r at_ s b) := by
  have hu := hk.rest.uid
  have hload := M.load_ok h (decide (f.o.toNat ≠ 0)) (decide (f.o.toNat = 2)) (at_ b) (Claims.widthBytes f.w)
  have hx := (s.loadNat_refreshed q (decide (f.o.toNat ≠ 0)) (at_ b) (Claims.widthBytes f.w)).trans
    (State.fillCopy_refreshed _ (dieOfCore q.core) (lineOf (at_ b)))
  have hcur := hx.curRod?.trans h
  rw [State.returning_eq hcur rfl] at hload
  have hsaw := State.curRod?_setRod (q := q.sawLoad f at_ s b) hcur rfl
  unfold M.ldPart
  rw [M.bind_ok (M.rod_apply h)]
  rw [hk.byteOffset, accessSize_eq_widthBytes, hk.rest.cap, M.bind_ok (M.reach_ok h hr), M.bind_ok hload]
  refine (onRod_ok hsaw (RM.modify_apply _ _)).trans ?_
  rw [Rod.setLoaded_eq_loadedInto]
  unfold Claims.loadTurn
  simp only [nowOf_eq h hu, ← hk.rest.core]
  rw [State.returning_eq hcur hu]
  refine congrArg (Prod.mk _) (Eq.symm ?_)
  exact State.alter_of_curRod? hsaw hu _

/-- The parts `bs` of an LD of the rod `r` are still to load, in a state `t` that the parts before them leave of `s`. -/
structure LoadsLeft (s : State) (r : Rod) (f : ShMem) (at_ : Option Nat → Nat) (bs : List (Option Nat)) (t : State) : Prop where
  finds : s.Finds t
  apart : bs.Pairwise (LoadsApart f.d)
  reach : ∀ b ∈ bs, Claims.Reaches s r (r.cap f.c.toNat) ⟨true, false, false, false, false⟩
    (Claims.byteOffset r b f.x f.f (Claims.widthBytes f.w)) (Claims.widthBytes f.w) .load (at_ b)
  rod : ∃ q, t.curRod? = some q ∧ r.Loading q ∧ ∀ b ∈ bs, r.Agrees q b

theorem LoadsLeft.turn {bs : List (Option Nat)} (h : LoadsLeft s r f at_ (b :: bs) t) :
    M.ldPart f b t = (.ok (), Claims.loadTurn f r at_ t b) ∧ LoadsLeft s r f at_ bs (Claims.loadTurn f r at_ t b) := by
  obtain ⟨q, hq, hk, hagree⟩ := h.rod
  obtain ⟨hb, hbs⟩ := List.pairwise_cons.mp h.apart
  refine ⟨M.ldPart_ok hq (hagree b List.mem_cons_self) (h.finds.reaches hk (h.reach b List.mem_cons_self)), ?_, hbs,
    fun c hc => h.reach c (List.mem_cons_of_mem b hc), _, curRod?_loadTurn hq hk.uid, hk.trans q.afterLoad_loading,
    fun c hc => ?_⟩
  · obtain ⟨x, hx, hturn⟩ := loadTurn_eq (f := f) (at_ := at_) (b := b) hq hk.uid
    have hfinds : t.Finds (x.setRod (q.afterLoad f at_ t b)) := by rw [hx]; rfl
    rw [hturn]
    exact h.finds.trans hfinds
  · obtain ⟨hd, hbc⟩ := hb c hc
    have hseen : r.Agrees (q.sawLoad f at_ t b) c := (hagree c (List.mem_cons_of_mem b hc)).alike rfl
    exact hseen.loadedInto hd hbc f.w _

/-- LD whose parts reach their addresses: each loads in its turn (R383). -/
theorem exec_ld_next (h : Issues s r (.ld f))
    (hr : ∀ b ∈ r.parts f.u, Claims.Reaches s r (r.cap f.c.toNat) ⟨true, false, false, false, false⟩
      (Claims.byteOffset r b f.x f.f (Claims.widthBytes f.w)) (Claims.widthBytes f.w) .load (at_ b)) :
    exec (.ld f) s = .next (((r.parts f.u).foldl (Claims.loadTurn f r at_) (s.begun r (.ld f))).through r (.ld f)) := by
  have h0 : (s.setRod r.leave).curRod? = some r.leave := State.curRod?_setRod h.cur rfl
  have hkind : okLoadData f.u f.w f.d = true := (Bool.and_eq_true_iff.mp (operandKindOk_of_legal h.legal)).1
  have hstart : LoadsLeft s r f at_ (r.parts f.u) (s.setRod r.leave) :=
    ⟨rfl, r.parts_loadsApart (isS_of_okLoadData hkind), hr, r.leave, h0, rfl,
      fun b _ => Rod.Alike.agrees (q := r.leave) rfl b⟩
  obtain ⟨hloop, hend⟩ := M.forM_turns (f := M.ldPart f) (turn := Claims.loadTurn f r at_) (P := LoadsLeft s r f at_)
    (fun _ _ _ h => h.turn) _ hstart
  obtain ⟨q, hq, hk, -⟩ := hend.rod
  rw [exec_ld_eq]
  exact execute_through h rfl ((M.each_apply h0 f.u (M.ldPart f)).trans hloop) hq hk.uid

/-! ### Where the rod must see every recent write -/

/-- After some parts have loaded the newest values from the state `s` the rod `r` has the registers of `y`, it must see what it
had to see, and memory is as it was. -/
structure LoadedNewest (s : State) (r y : Rod) (t : State) : Prop where
  rest : t = { s with
    rods := t.rods, clocks := t.clocks, dieMsgs := t.dieMsgs, dieCopies := t.dieCopies, fresh := t.fresh }
  registers : y = r.registers y
  rod : ∃ v, t.curRod? = some (y.viewing v) ∧ r.view.Covers v

theorem LoadedNewest.turn {y : Rod} (h : LoadedNewest s r y t) (hsee : s.SeesAll r (at_ b) (Claims.widthBytes f.w)) :
    LoadedNewest s r (Claims.loadedInto y b f.d f.w (s.rodNat r (at_ b) (Claims.widthBytes f.w)))
      (Claims.loadTurn f r at_ t b) := by
  obtain ⟨v, hq, hv⟩ := h.rod
  have hregs := h.registers
  have hrest := h.rest
  have hu : (y.viewing v).uid = r.uid := by rw [hregs]; rfl
  have hagent : (y.viewing v).agent = r.agent := by rw [hregs]; rfl
  have hsees : t.SeesAll (y.viewing v) (at_ b) (Claims.widthBytes f.w) := by
    rw [hrest]
    intro w hw ht
    rw [hagent]
    exact State.mustSee_of_covers hv (hsee w hw ht)
  have hvalue : (t.loadNat (y.viewing v) (decide (f.o.toNat ≠ 0)) (at_ b) (Claims.widthBytes f.w)).1.1 =
      s.rodNat r (at_ b) (Claims.widthBytes f.w) := by
    rw [State.loadNat_newest hsees, hrest, hregs]
    rfl
  obtain ⟨x, hx, hturn⟩ := loadTurn_eq (f := f) (at_ := at_) (b := b) hq hu
  refine ⟨?_, ?_, ?_⟩
  · rw [hturn, hx, hrest]
    rfl
  · rw [loadedInto_registers, hregs]
    rfl
  · refine ⟨((y.viewing v).sawLoad f at_ t b).view, (curRod?_loadTurn hq hu).trans (congrArg some ?_),
      hv.trans (View.covers_loaded v _ _ _)⟩
    unfold Rod.afterLoad
    rw [hvalue]
    exact loadedInto_viewing y _ b f.d f.w _

theorem LoadedNewest.turns {y : Rod} {bs : List (Option Nat)} (h : LoadedNewest s r y t)
    (hsee : ∀ b ∈ bs, s.SeesAll r (at_ b) (Claims.widthBytes f.w)) :
    LoadedNewest s r (bs.foldl (fun y b => Claims.loadedInto y b f.d f.w (s.rodNat r (at_ b) (Claims.widthBytes f.w))) y)
      (bs.foldl (Claims.loadTurn f r at_) t) := by
  induction bs generalizing y t with
  | nil => exact h
  | cons b bs ih => exact ih (h.turn (hsee b List.mem_cons_self)) fun c hc => hsee c (List.mem_cons_of_mem b hc)

end

end Sys2Proof.Machine

namespace Sys2Proof.Claims

open Sys2Proof.Machine

/-- Settles O24: the parts load in turn, no part reads what another has loaded, and what the rod must see it goes on seeing
after each load. -/
theorem loadsComplete : Obligations.LoadsComplete := by
  unfold Obligations.LoadsComplete
  intro s r f at_ h hr
  have hexec := exec_ld_next h hr
  refine ⟨hexec, fun hsee => ?_⟩
  have h0 : (s.setRod r.leave).curRod? = some r.leave := State.curRod?_setRod h.cur rfl
  have hstart : LoadedNewest s r r (s.setRod r.leave) := ⟨rfl, rfl, r.view, h0, .refl r.view⟩
  have hend := hstart.turns (bs := r.parts f.u) hsee
  obtain ⟨v, hq, -⟩ := hend.rod
  have hregs := hend.registers
  generalize (r.parts f.u).foldl (fun y b => loadedInto y b f.d f.w (s.rodNat r (at_ b) (widthBytes f.w))) r = x at hend hq hregs
  have hu : (x.viewing v).uid = r.uid := by rw [hregs]; rfl
  have hbegun : s.begun r (.ld f) = s.setRod r.leave := State.begun_of_not_commits rfl
  have hrod := (State.curRod?_eq (State.curRod?_setRod (q := (x.viewing v).advance) hq rfl)).2
  refine ⟨_, (x.viewing v).advance.tick (r.laneCycles (onceOnly (.ld f))), hexec, ?_, ?_, ?_, rfl, rfl⟩
  · rw [hbegun]
    show State.rod? (State.tick _ _) r.uid = _
    rw [State.rod?_tick, State.alter_of_curRod? hq hu, ← hu]
    exact congrArg (Option.map _) hrod
  · rw [hbegun]
    show (State.alter _ _ _).mem = _
    rw [State.alter_of_curRod? hq hu]
    have hmem := congrArg State.mem hend.rest
    exact hmem
  · rw [hregs]
    rfl

end Sys2Proof.Claims
end


section
/-!
The settling of O30: an LD whose capability refuses the bytes of its first part.
-/

namespace Sys2Proof.Machine

section
variable {s : State} {r q : Rod} {i : Instr} {body : M Unit} {cls cause info code : Nat} {b : Option Nat}

/-- A capability that refuses an access says why (R116, R118). -/
theorem Cap.check_refused {c : Cap} {byte size : Nat}
    (h : c.v = false ∨ c.rd = false ∨ byte < c.lo.toNat ∨ c.hi.toNat < byte + size) :
    c.check { rd := true } byte size = some (if c.v = false then 1 else if c.rd = false then 2 else 3) := by
  have hgrants : c.grants { rd := true } = c.rd := by simp [Cap.grants]
  unfold Cap.check
  rw [hgrants]
  cases hv : c.v with
  | false => rfl
  | true =>
    cases hrd : c.rd with
    | false => rfl
    | true =>
      have hbounds : byte < c.lo.toNat ∨ c.hi.toNat < byte + size := by simpa [hv, hrd] using h
      exact if_pos hbounds

/-- An instruction whose effect ends in a fatal fault halts the context of its rod (R286, R293). -/
theorem execute_fatal {t : State} (h : Issues s r i) (hl : lazyCommits i = false)
    (hb : body (s.begun r i) = (.error (.trap cls cause b info code), t)) (hc : fatalClass cls = true) (hq : t.curRod? = some q)
    (hk : r.Loading q) :
    execute i body s =
      .next ((t.raiseHalt r.asid (haltOfRod t q cls cause (beadNo b) info)).tick (r.laneCycles (onceOnly i))) := by
  rw [execute_stopped h hl hb, ← hk.uid, State.settle_fatal hc (State.curRod?_eq hq).2, hk.asid]
  rfl

/-- A part's LD that its capability refuses ends there (R118). -/
theorem M.ldPart_refused {f : ShMem} (h : s.curRod? = some r)
    (hc : (r.cap f.c.toNat).check { rd := true } (Claims.byteOffset r b f.x f.f (Claims.widthBytes f.w)) (Claims.widthBytes f.w) =
      some cause) : M.ldPart f b s = (.error (capFault b cause), s) := by
  unfold M.ldPart
  rw [M.bind_ok (M.rod_apply h), accessSize_eq_widthBytes]
  refine M.bind_error (M.bind_error ?_)
  unfold M.checkCap
  rw [show r.offset b f.x f.f * Claims.widthBytes f.w = Claims.byteOffset r b f.x f.f (Claims.widthBytes f.w) from rfl, hc]
  rfl

end

end Sys2Proof.Machine

namespace Sys2Proof.Claims

open Sys2Proof.Machine

/-- Settles O30: the check of the first part comes before anything of the instruction has been done. -/
theorem capabilitiesGuardLoads : Obligations.CapabilitiesGuardLoads := by
  unfold Obligations.CapabilitiesGuardLoads
  intro s r f b bs cause h hparts c byte hcause hrefused
  have h0 : (s.setRod r.leave).curRod? = some r.leave := State.curRod?_setRod h.cur rfl
  have hfirst : M.ldPart f b (s.setRod r.leave) = (.error (capFault b cause), s.setRod r.leave) :=
    M.ldPart_refused h0 ((Cap.check_refused hrefused).trans (congrArg some hcause.symm))
  have hbody : M.each f.u (M.ldPart f) (s.begun r (.ld f)) = (.error (capFault b cause), s.setRod r.leave) := by
    rw [State.begun_of_not_commits rfl, M.each_apply h0, show r.leave.parts f.u = b :: bs from hparts]
    exact M.forM_error bs hfirst
  rw [exec_ld_eq]
  exact execute_fatal h rfl hbody rfl h0 rfl

end Sys2Proof.Claims
end


section
/-!
The settling of O34: an LDL or STL whose first part lies outside its segment.
-/

namespace Sys2Proof.Machine

section
variable {s t : State} {r q : Rod} {fr : Frame} {b : Option Nat} {buf : Nat} {g : BitVec 7} {w : BitVec 3}

/-- One part's effect of an LDL (R127, R129, R385). -/
def M.ldlPart (f : ShLdl) (buf : Nat) (b : Option Nat) : M Unit := do
  let (rel, sub) ← M.localCell b buf f.f (accessSize f.w)
  let r ← M.rod
  let fr ← M.frame
  let n := (fr.seg buf).base.toNat + rel
  (if f.q.toNat = 2 then pure () else M.upd fun s => s.touchCells r.view.seen fr.uid buf rel 1)
  let s ← get
  let c := s.seen r.core buf n
  if f.q.toNat = 2 then onRod (modify fun r => r.setLoaded b f.d f.w c.present.toNat)
  else if c.present then do
    let take := decide (f.q.toNat = 0)
    M.upd fun s => if take then s.setCell r.core buf n { c with present := false } else s
    onRod (modify fun r => r.setLoaded b f.d f.w (c.part sub (accessSize f.w)))
  else do
    M.upd fun s => s.tagConsumer r buf n
    throw (.sleep (beadNo b) (.cell r.core buf n (.ldl (decide (f.q.toNat = 0)) f.u f.d f.w sub)) true)

/-- One part's effect of an STL (R417, R418). -/
def M.stlPart (f : ShStl) (buf : Nat) (b : Option Nat) : M Unit := do
  let (rel, sub) ← M.localCell b buf f.f (accessSize f.w)
  let r ← M.rod
  let fr ← M.frame
  let n := (fr.seg buf).base.toNat + rel
  let s ← get
  M.need (!(decide (buf = 3) && s.carryOwned r.core n 1)) (segmentFault b)
  let old := (s.cell r.core buf n).data.toNat
  M.upd fun s => s.writeCell r.core buf n
    (BitVec.ofNat 128 (setField old (8 * sub) (8 * accessSize f.w) (r.stored b f.d f.w)))

/-- The instruction is the effects of its parts one after another, and no commit point whose lines may stay on their way. -/
structure RunsParts (i : Instr) (u : Bool) (part : Option Nat → M Unit) : Prop where
  exec : ∀ s, exec i s = execute i (M.each u part) s
  eager : lazyCommits i = false
  uniform : uniform i = u

theorem runsParts_of_ldlOf {i : Instr} {f : ShLdl} (h : Claims.ldlOf i = some (f, buf)) :
    RunsParts i f.u (M.ldlPart f buf) := by
  unfold Claims.ldlOf at h
  split at h
  all_goals cases h
  all_goals exact ⟨fun _ => rfl, rfl, rfl⟩

theorem runsParts_of_stlOf {i : Instr} {f : ShStl} (h : Claims.stlOf i = some (f, buf)) :
    RunsParts i f.u (M.stlPart f buf) := by
  unfold Claims.stlOf at h
  split at h
  all_goals cases h
  all_goals exact ⟨fun _ => rfl, rfl, rfl⟩

/-- What precedes the effect of an instruction changes no frame, no cell, no slot and no context. -/
theorem State.begun_buffers {i : Instr} (h : Issues s r i) (hl : lazyCommits i = false) :
    (s.begun r i).frames = s.frames ∧ (s.begun r i).cells = s.cells ∧ (s.begun r i).slots = s.slots ∧
      (s.begun r i).ctxs = s.ctxs := by
  cases hc : commits i with
  | false =>
    rw [State.begun_of_not_commits hc]
    exact ⟨rfl, rfl, rfl, rfl⟩
  | true =>
    have hu := (s.setRod r.leave).commitPerform_undisturbed r.uid
    obtain ⟨q, hq, hk⟩ := hu.curRod? (r := r.leave) (State.curRod?_setRod h.cur rfl)
    rw [State.begun_of_commits hc hl, State.alter_of_curRod? (u := r.uid) hq hk.uid, hu.rest]
    exact ⟨rfl, rfl, rfl, rfl⟩

/-- An access whose cell lies outside the segment ends there (R124). -/
theorem M.localCell_outside {size : Nat} (h : s.curRod? = some q) (hf : s.frame? q.frame = some fr)
    (hout : (fr.seg buf).limit.toNat ≤ Claims.localByte q b g size / 16) :
    M.localCell b buf g size s = (.error (capFault b 4), s) := by
  unfold M.localCell
  rw [M.bind_ok (M.rod_apply h), M.bind_ok (M.frame_apply h hf)]
  refine M.bind_error ?_
  rw [show (q.word b g).toNat * size = Claims.localByte q b g size from rfl, decide_eq_false (Nat.not_lt.mpr hout)]
  rfl

/-- An instruction whose first part is refused halts its context with class 8 (R118, R286). -/
theorem RunsParts.halts {i : Instr} {u : Bool} {part : Option Nat → M Unit} {bs : List (Option Nat)} {cause : Nat}
    (hx : RunsParts i u part) (h : Issues s r i) (hq : (s.begun r i).curRod? = some q) (hk : r.Alike q)
    (hparts : r.parts u = b :: bs) (hfirst : part b (s.begun r i) = (.error (capFault b cause), s.begun r i)) :
    Machine.exec i s = .next (((s.begun r i).raiseHalt r.asid (haltOfRod (s.begun r i) q 8 cause (beadNo b) 0)).tick
      (r.laneCycles (onceOnly i))) := by
  have hbody : M.each u part (s.begun r i) = (.error (capFault b cause), s.begun r i) := by
    rw [M.each_apply hq, hk.loading.parts, hparts]
    exact M.forM_error bs hfirst
  exact (hx.exec s).trans (execute_fatal h hx.eager hbody rfl hq hk.loading)

/-! ### The halt of a context -/

theorem State.ctx?_modCtx (s : State) (asid : Nat) {f : Ctx → Ctx} (hf : ∀ c, (f c).asid = c.asid) :
    (s.modCtx asid f).ctx? asid = some (f ((s.ctx? asid).getD ⟨asid, none, none, none, 0⟩)) := by
  unfold State.modCtx
  cases hc : s.ctx? asid with
  | none =>
    show (s.ctxs ++ [_]).find? (fun c : Ctx => decide (c.asid = asid)) = _
    rw [List.find?_append, show s.ctxs.find? (fun c : Ctx => decide (c.asid = asid)) = none from hc]
    simp [hf]
  | some c =>
    have hkeep (x : Ctx) : (if x.asid = asid then f x else x).asid = x.asid := by
      split
      · exact hf x
      · rfl
    have hasid : c.asid = asid := by simpa using List.find?_some hc
    show (s.ctxs.map _).find? (fun c : Ctx => decide (c.asid = asid)) = _
    rw [List.find?_map]
    simp only [Function.comp_def, hkeep]
    rw [show s.ctxs.find? (fun c : Ctx => decide (c.asid = asid)) = some c from hc]
    simp [hasid]

/-- The context with its halt line raised by a halt (R293, R296). -/
def Ctx.halting (x : Halt) (c : Ctx) : Ctx :=
  match c.halt with
  | none => { c with halt := some x }
  | some old => { c with halt := some (old.further x) }

theorem Ctx.halting_asid (x : Halt) (c : Ctx) : (c.halting x).asid = c.asid := by
  unfold Ctx.halting
  split <;> rfl

theorem State.ctx?_raiseHalt (s : State) (asid : Nat) (x : Halt) :
    (s.raiseHalt asid x).ctx? asid = some (((s.ctx? asid).getD ⟨asid, none, none, none, 0⟩).halting x) :=
  s.ctx?_modCtx asid (Ctx.halting_asid x)

/-- A context whose halt line is raised has a halt, and the one given if it had none (R293, R296). -/
theorem State.halt?_raiseHalt (s : State) (asid : Nat) (x : Halt) :
    ∃ y, (s.raiseHalt asid x).halt? asid = some y ∧ (s.halt? asid = none → y = x) := by
  unfold State.halt?
  rw [s.ctx?_raiseHalt asid x]
  cases hc : s.ctx? asid with
  | none => exact ⟨x, rfl, fun _ => rfl⟩
  | some c =>
    simp only [Option.getD_some, Ctx.halting]
    cases c.halt with
    | none => exact ⟨x, rfl, fun _ => rfl⟩
    | some old => exact ⟨old.further x, rfl, fun hnone => nomatch hnone⟩

@[simp] theorem State.raiseHalt_cells (s : State) (asid : Nat) (x : Halt) : (s.raiseHalt asid x).cells = s.cells := by
  unfold State.raiseHalt State.modCtx
  split <;> rfl

end

end Sys2Proof.Machine

namespace Sys2Proof.Claims

open Sys2Proof.Machine

/-- A local access whose first part lies outside the segment halts its context with class 8 and cause segment, whatever else
its parts do; no cell changes (R118, R124). -/
theorem halts_outside {s : State} {r q : Rod} {i : Instr} {part : Option Nat → M Unit} {b : Option Nat}
    {bs : List (Option Nat)} (hx : RunsParts i (uniform i) part) (h : Issues s r i) (hparts : r.parts (uniform i) = b :: bs)
    (hq : (s.begun r i).curRod? = some q) (hk : r.Alike q)
    (hfirst : part b (s.begun r i) = (.error (capFault b 4), s.begun r i)) :
    ∃ t h, exec i s = .next t ∧ t.halt? r.asid = some h ∧ (s.halt? r.asid = none → h.cls = 8 ∧ h.cause = 4 ∧ h.pc = r.pc) ∧
      t.cells = s.cells := by
  obtain ⟨-, hcells, -, hctxs⟩ := State.begun_buffers h hx.eager
  obtain ⟨y, hy, hfirstHalt⟩ := (s.begun r i).halt?_raiseHalt r.asid (haltOfRod (s.begun r i) q 8 4 (beadNo b) 0)
  refine ⟨_, y, hx.halts h hq hk hparts hfirst, hy, fun hnone => ?_, ?_⟩
  · have hsame : (s.begun r i).halt? r.asid = s.halt? r.asid := by
      unfold State.halt? State.ctx?
      rw [hctxs]
    rw [hfirstHalt (hsame.trans hnone)]
    exact ⟨rfl, rfl, by rw [hk]; rfl⟩
  · exact (State.raiseHalt_cells _ _ _).trans hcells

/-- Settles O34: the first part's cell is checked against the segment before anything else of it is done. -/
theorem segmentsGuardCells : Obligations.SegmentsGuardCells := by
  unfold Obligations.SegmentsGuardCells
  intro s r fr i g w buf b bs hi h hfr hparts hout
  have hcell (hl : lazyCommits i = false) : ∃ q, (s.begun r i).curRod? = some q ∧ r.Alike q ∧
      M.localCell b buf g (accessSize w) (s.begun r i) = (.error (capFault b 4), s.begun r i) := by
    obtain ⟨q, hq, hk⟩ := State.curRod?_begun_alike h hl
    have hframe : (s.begun r i).frame? q.frame = some fr := by
      rw [State.frame?, (State.begun_buffers h hl).1, hk]
      exact hfr
    refine ⟨q, hq, hk, M.localCell_outside hq hframe ?_⟩
    rw [accessSize_eq_widthBytes, localByte, (hk.agrees b).word]
    exact hout
  rcases hi with ⟨f, hf, rfl, rfl⟩ | ⟨f, hf, rfl, rfl⟩
  · have hx := runsParts_of_ldlOf hf
    obtain ⟨q, hq, hk, hfirst⟩ := hcell hx.eager
    exact halts_outside (hx.uniform ▸ hx) h hparts hq hk (M.bind_error hfirst)
  · have hx := runsParts_of_stlOf hf
    obtain ⟨q, hq, hk, hfirst⟩ := hcell hx.eager
    exact halts_outside (hx.uniform ▸ hx) h hparts hq hk (M.bind_error hfirst)

end Sys2Proof.Claims
end


section
/-!
SUPPORT. What the parts of an LDL or STL leave of the cells, the frames and the rods: a consumer touches windows, a writer
serves those who wait, and neither moves a segment (R124, R126, R128, R179).
-/

namespace Sys2Proof.Machine

/-! ### Frames whose windows are touched -/

/-- The frame without its windows. -/
def Frame.bare (f : Frame) : Frame := { f with windows := [] }

/-- The slots of the two states are the same, and so are their frames, but for the windows. -/
structure State.SameSegments (s t : State) : Prop where
  slots : t.slots = s.slots
  frames : ∀ u, (t.frame? u).map Frame.bare = (s.frame? u).map Frame.bare

section
variable {s t x : State} {f fr : Frame} {core buf n : Nat}

theorem State.SameSegments.refl (s : State) : s.SameSegments s := ⟨rfl, fun _ => rfl⟩

theorem State.SameSegments.trans (h : s.SameSegments t) (h' : t.SameSegments x) : s.SameSegments x :=
  ⟨h'.slots.trans h.slots, fun u => (h'.frames u).trans (h.frames u)⟩

theorem State.SameSegments.of_eq (hs : t.slots = s.slots) (hf : t.frames = s.frames) : s.SameSegments t :=
  ⟨hs, fun u => by unfold State.frame?; rw [hf]⟩

theorem Frame.bare_touch (f : Frame) (x : Seen) (n : Nat) : (f.touch x n).bare = f.bare := by
  unfold Frame.touch
  split
  · rfl
  · split
    · rfl
    · dsimp only
      split
      · rfl
      · split <;> rfl

theorem Frame.bare_foldl {α : Type} {g : Frame → α → Frame} (hg : ∀ f a, (g f a).bare = f.bare) (as : List α) (f : Frame) :
    (as.foldl g f).bare = f.bare := by
  induction as generalizing f with
  | nil => rfl
  | cons a as ih => exact (ih (g f a)).trans (hg f a)

theorem Frame.bare_touchCell (f : Frame) (x : Seen) (buf cell : Nat) : (f.touchCell x buf cell).bare = f.bare := by
  unfold Frame.touchCell
  refine Frame.bare_foldl (fun f n => ?_) _ f
  split
  · split
    · exact f.bare_touch x n
    · rfl
  · rfl

theorem Frame.uid_of_bare {g : Frame} (h : g.bare = f.bare) : g.uid = f.uid := (congrArg Frame.uid h :)

theorem Frame.seg_of_bare {g : Frame} (h : g.bare = f.bare) (buf : Nat) : g.seg buf = f.seg buf := by
  have hseg (f : Frame) : f.seg buf = f.bare.seg buf := rfl
  rw [hseg g, h, hseg f]

/-- The frame, if it has the name, with the windows that hold some cells touched. -/
def Frame.touched (x : Seen) (frame buf cell n : Nat) (f : Frame) : Frame :=
  if f.uid = frame then (List.range n).foldl (fun f i => f.touchCell x buf (cell + i)) f else f

theorem Frame.bare_touched (x : Seen) (frame buf cell n : Nat) (f : Frame) : (f.touched x frame buf cell n).bare = f.bare := by
  unfold Frame.touched
  split
  · exact Frame.bare_foldl (fun f i => f.bare_touchCell x buf (cell + i)) _ f
  · rfl

/-- A consuming access moves no segment (R179). -/
theorem State.touchCells_sameSegments (s : State) (x : Seen) (frame buf cell n : Nat) :
    s.SameSegments (s.touchCells x frame buf cell n) := by
  refine ⟨rfl, fun u => ?_⟩
  show (List.find? (fun f => decide (f.uid = u)) (s.frames.map (Frame.touched x frame buf cell n))).map Frame.bare =
    (s.frame? u).map Frame.bare
  have huid (f : Frame) : (f.touched x frame buf cell n).uid = f.uid := Frame.uid_of_bare (f.bare_touched x frame buf cell n)
  rw [List.find?_map, Option.map_map]
  simp only [Function.comp_def, huid, Frame.bare_touched]
  rfl

/-- A frame keeps its name and its segments. -/
theorem State.SameSegments.frame? (h : s.SameSegments t) {u : Nat} (hf : s.frame? u = some f) :
    ∃ g, t.frame? u = some g ∧ g.uid = f.uid ∧ ∀ buf, g.seg buf = f.seg buf := by
  have hframes := h.frames u
  rw [hf] at hframes
  obtain ⟨g, hg, hbare⟩ := Option.map_eq_some_iff.mp hframes
  exact ⟨g, hg, Frame.uid_of_bare hbare, Frame.seg_of_bare hbare⟩

theorem State.SameSegments.carryOwned (h : s.SameSegments t) (core cell n : Nat) :
    t.carryOwned core cell n = s.carryOwned core cell n := by
  unfold State.carryOwned
  rw [h.slots]
  refine congrArg (List.any s.slots) (funext fun ⟨k, sl⟩ => congrArg (decide (k / 32 = core) && sl.st.owns && ·) ?_)
  have hframes := h.frames sl.frame
  cases ht : t.frame? sl.frame with
  | none =>
    rw [ht] at hframes
    rw [Option.map_eq_none_iff.mp hframes.symm]
  | some g =>
    rw [ht] at hframes
    obtain ⟨f, hf, hbare⟩ := Option.map_eq_some_iff.mp hframes.symm
    rw [hf]
    have hsame := congrArg (fun f : Frame => overlap (f.segC.base.toNat + sl.cell) sl.size cell n) hbare.symm
    exact hsame

/-! ### Cells -/

theorem cellKey_inj {m : Nat} (h : cellKey core buf n = cellKey core buf m) : n = m := by
  unfold cellKey at h
  omega

/-- A key that is not set keeps its value, in a list of keys in any order. -/
theorem Sparse.get_set_of_ne {α : Type} [DecidableEq α] {d : α} (m : List (Nat × α)) {a b : Nat} (v : α) (h : b ≠ a) :
    Sparse.get d (Sparse.set d m a v) b = Sparse.get d m b := by
  induction m with
  | nil =>
    unfold Sparse.set
    split
    · rfl
    · exact if_neg h.symm
  | cons c m ih =>
    obtain ⟨k, w⟩ := c
    simp only [Sparse.set]
    split
    · split
      · rfl
      · exact if_neg h.symm
    · split
      · next hk =>
        have hne : ¬ k = b := fun e => h (e.symm.trans hk)
        rw [show Sparse.get d ((k, w) :: m) b = Sparse.get d m b from if_neg hne]
        split
        · rfl
        · exact if_neg h.symm
      · simp only [Sparse.get, ih]

theorem State.cell_setCell_of_ne (s : State) {m : Nat} (c : Cell) (h : n ≠ m) :
    (s.setCell core buf m c).cell core buf n = s.cell core buf n :=
  Sparse.get_set_of_ne _ _ fun e => h (cellKey_inj e)

theorem State.seen_data (s : State) (core buf n : Nat) : (s.seen core buf n).data = (s.cell core buf n).data := by
  unfold State.seen
  dsimp only
  split <;> rfl

/-- A consumer finds a cell as before where no segment has moved. -/
theorem State.SameSegments.seen (h : s.SameSegments t) (hc : t.cell core buf n = s.cell core buf n) :
    t.seen core buf n = s.seen core buf n := by
  unfold State.seen
  rw [hc, h.carryOwned]

theorem Cell.part_eq_cellPart (c : Cell) (sub size : Nat) : c.part sub size = Claims.cellPart c.data sub size := rfl

/-- The bytes of an access are replaced in a cell (R417). -/
theorem setField_eq_cellWith (x : BitVec 128) (byte size v : Nat) :
    BitVec.ofNat 128 (setField x.toNat (8 * byte) (8 * size) v) = Claims.cellWith x byte size v := by
  have hlow : x.toNat = 2 ^ (8 * byte) * (x.toNat / 2 ^ (8 * byte)) + x.toNat % 2 ^ (8 * byte) := (Nat.div_add_mod _ _).symm
  have hmid : x.toNat / 2 ^ (8 * byte) = 2 ^ (8 * size) * (x.toNat / 2 ^ (8 * byte + 8 * size)) +
      x.toNat / 2 ^ (8 * byte) % 2 ^ (8 * size) := by
    rw [Nat.pow_add, ← Nat.div_div_eq_div_mul, Nat.div_add_mod]
  unfold setField Claims.cellWith
  have hpart : Claims.cellPart x byte size = x.toNat / 2 ^ (8 * byte) % 2 ^ (8 * size) := rfl
  rw [hpart]
  generalize x.toNat / 2 ^ (8 * byte) % 2 ^ (8 * size) = part at *
  generalize x.toNat % 2 ^ (8 * byte) = low at *
  generalize x.toNat / 2 ^ (8 * byte + 8 * size) = high at *
  rw [hmid] at hlow
  have hsplit : x.toNat = low + 2 ^ (8 * byte + 8 * size) * high + part * 2 ^ (8 * byte) := by
    rw [hlow, Nat.pow_add]
    ring
  have hrest : x.toNat - part * 2 ^ (8 * byte) = low + 2 ^ (8 * byte + 8 * size) * high := by omega
  rw [hrest]
  congr 1
  ring

/-! ### Waiters are served -/

/-- The state has the rod `p`, and no other rod by its name. -/
structure State.Holds (s : State) (p : Rod) : Prop where
  rod : s.rod? p.uid = some p
  sole : ∀ q ∈ s.rods, q.uid = p.uid → q = p

section
variable {p : Rod} {g : Rod → Rod}

theorem State.holds_setRod {r : Rod} (h : s.rod? p.uid = some r) : (s.setRod p).Holds p := by
  refine ⟨State.rod?_setRod h, fun q hq hu => ?_⟩
  obtain ⟨x, -, rfl⟩ := List.mem_map.mp hq
  by_cases hx : x.uid = p.uid
  · exact if_pos hx
  · rw [if_neg hx] at hu
    exact absurd hu hx

/-- A change of the rods of another name. -/
theorem State.Holds.modRod (h : s.Holds p) {u : Nat} (hu : u ≠ p.uid) (hg : ∀ q, (g q).uid = q.uid) :
    (s.modRod u g).Holds p := by
  have huid (q : Rod) : (if q.uid = u then g q else q).uid = q.uid := by
    split
    · exact hg q
    · rfl
  refine ⟨?_, fun q hq hqu => ?_⟩
  · rw [State.rod?_of_map (t := s.modRod u g) huid rfl, h.rod]
    exact congrArg some (if_neg hu.symm)
  · obtain ⟨x, hx, rfl⟩ := List.mem_map.mp hq
    rw [huid] at hqu
    rw [h.sole x hx hqu]
    exact if_neg hu.symm

theorem Rod.served_uid (r : Rod) (u take : Bool) : (r.served u take).uid = r.uid := by
  unfold Rod.served
  dsimp only
  split
  · rfl
  · split <;> rfl

/-- Those who wait at a cell are served: rods and cells change, and no rod that does not wait. -/
theorem State.serveEach_spec (core buf cell : Nat) (ws : List (Nat × CellWait)) (hws : ∀ w ∈ ws, w.1 ≠ p.uid) (h : s.Holds p) :
    (s.serveEach core buf cell ws).Holds p ∧
      s.serveEach core buf cell ws = { s with
        rods := (s.serveEach core buf cell ws).rods, cells := (s.serveEach core buf cell ws).cells } := by
  induction ws generalizing s with
  | nil => exact ⟨h, rfl⟩
  | cons w ws ih =>
    obtain ⟨u, acc⟩ := w
    have hu : u ≠ p.uid := hws _ List.mem_cons_self
    have hrest : ∀ w ∈ ws, w.1 ≠ p.uid := fun w hw => hws w (List.mem_cons_of_mem _ hw)
    unfold State.serveEach
    dsimp only
    split
    · exact ⟨h, rfl⟩
    · cases acc with
      | peek =>
        obtain ⟨hp, ht⟩ := ih hrest (h.modRod hu (g := fun r => { r with
          peeked := r.peeked ++ [(s.cell core buf cell).data], status := .ready }) fun _ => rfl)
        exact ⟨hp, ht⟩
      | ldl take uni d w sub =>
        dsimp only
        have huid (r : Rod) : ((r.setLoaded (r.waitingBead uni) d w
            ((s.cell core buf cell).part sub (accessSize w))).served uni take).uid = r.uid := by
          rw [Rod.served_uid, Rod.setLoaded_eq_loadedInto, loadedInto_uid]
        have htaken : (if take then s.setCell core buf cell { s.cell core buf cell with present := false } else s).Holds p := by
          split
          · exact ⟨h.rod, h.sole⟩
          · exact h
        obtain ⟨hp, ht⟩ := ih hrest (htaken.modRod hu huid)
        refine ⟨hp, ht.trans ?_⟩
        split <;> rfl

theorem mem_of_mem_sortBy {α : Type} {key : α → Nat} {y : α} {xs : List α} (h : y ∈ sortBy key xs) : y ∈ xs := by
  have hinsert (x : α) (ys : List α) (h : y ∈ insertBy key x ys) : y = x ∨ y ∈ ys := by
    induction ys with
    | nil => exact .inl (List.mem_singleton.mp h)
    | cons z zs ih =>
      unfold insertBy at h
      split at h
      · exact List.mem_cons.mp h
      · rcases List.mem_cons.mp h with rfl | h
        · exact .inr List.mem_cons_self
        · exact (ih h).imp_right (List.mem_cons_of_mem z)
  have hfold (xs ys : List α) (h : y ∈ xs.foldl (fun ys x => insertBy key x ys) ys) : y ∈ ys ∨ y ∈ xs := by
    induction xs generalizing ys with
    | nil => exact .inl h
    | cons x xs ih =>
      rcases ih _ h with h | h
      · rcases hinsert x ys h with rfl | h
        · exact .inr List.mem_cons_self
        · exact .inl h
      · exact .inr (List.mem_cons_of_mem x h)
  exact (hfold xs [] h).resolve_left List.not_mem_nil

/-- A rod that is ready waits at no cell. -/
theorem State.Holds.waitersAt (h : s.Holds p) (hp : p.status = .ready) (core buf cell : Nat) :
    ∀ w ∈ s.waitersAt core buf cell, w.1 ≠ p.uid := by
  intro w hw hu
  obtain ⟨⟨ticket, w'⟩, hmem, rfl⟩ := List.mem_map.mp hw
  obtain ⟨q, hq, hwait⟩ := List.mem_filterMap.mp (mem_of_mem_sortBy hmem)
  dsimp only at hwait hu
  split at hwait
  · next hasleep =>
    split at hwait
    · cases hwait
      rw [h.sole q hq hu, hp] at hasleep
      cases hasleep
    · cases hwait
  · cases hwait

/-- A cell is written, and those who wait there are served: a rod that is ready is not changed. -/
theorem State.writeCell_spec (h : s.Holds p) (hp : p.status = .ready) (core buf cell : Nat) (x : BitVec 128) :
    (s.writeCell core buf cell x).Holds p ∧
      s.writeCell core buf cell x = { s with
        rods := (s.writeCell core buf cell x).rods, cells := (s.writeCell core buf cell x).cells } := by
  have hset : (s.setCell core buf cell ⟨x, true⟩).Holds p := ⟨h.rod, h.sole⟩
  exact State.serveEach_spec core buf cell _ (hset.waitersAt hp core buf cell) hset

end

end

end Sys2Proof.Machine
end


section
/-!
The settling of O33: LDL at present cells, and STL at cells that may be written.
-/

namespace Sys2Proof.Machine

section
variable {s t : State} {r q : Rod} {fr g : Frame} {b : Option Nat} {buf : Nat}

/-- The cell of an access in its segment, and its byte there (R124). -/
theorem M.localCell_ok {off : BitVec 7} {size : Nat} (h : s.curRod? = some q) (hf : s.frame? q.frame = some g)
    (hin : Claims.localByte q b off size / 16 < (g.seg buf).limit.toNat) :
    M.localCell b buf off size s = (.ok (Claims.localByte q b off size / 16, Claims.localByte q b off size % 16), s) := by
  unfold M.localCell
  rw [M.bind_ok (M.rod_apply h), M.bind_ok (M.frame_apply h hf)]
  rw [show (q.word b off).toNat * size = Claims.localByte q b off size from rfl, decide_eq_true hin]
  rfl

/-! ### LDL -/

section
variable {f : ShLdl}

/-- The state in which a part of LDL finds its cell: a take or a peek has touched the windows that hold it (R179). -/
def State.windowsTouched (f : ShLdl) (buf : Nat) (fr : Frame) (r : Rod) (b : Option Nat) (s : State) : State :=
  if f.q.toNat = 2 then s
  else s.touchCells (Claims.nowOf s r).view.seen fr.uid buf (Claims.localByte r b f.f (Claims.widthBytes f.w) / 16) 1

theorem State.windowsTouched_spec (f : ShLdl) (buf : Nat) (fr : Frame) (r : Rod) (b : Option Nat) (s : State) :
    s.SameSegments (s.windowsTouched f buf fr r b) ∧
      s.windowsTouched f buf fr r b = { s with frames := (s.windowsTouched f buf fr r b).frames } := by
  unfold State.windowsTouched
  split
  · exact ⟨.refl s, rfl⟩
  · exact ⟨s.touchCells_sameSegments _ _ _ _ _, rfl⟩

theorem ldlTurn_eq (f : ShLdl) (buf : Nat) (fr : Frame) (r : Rod) (s : State) (b : Option Nat) :
    Claims.ldlTurn f buf fr r s b = if f.q.toNat = 0
      then (s.windowsTouched f buf fr r b).setCell r.core buf (Claims.localCell fr buf r b f.f (Claims.widthBytes f.w))
        ⟨(s.cell r.core buf (Claims.localCell fr buf r b f.f (Claims.widthBytes f.w))).data, false⟩
      else s.windowsTouched f buf fr r b := rfl

/-- A part of LDL changes frames and cells alone, and moves no segment. -/
theorem ldlTurn_spec (f : ShLdl) (buf : Nat) (fr : Frame) (r : Rod) (s : State) (b : Option Nat) :
    s.SameSegments (Claims.ldlTurn f buf fr r s b) ∧ Claims.ldlTurn f buf fr r s b = { s with
      frames := (Claims.ldlTurn f buf fr r s b).frames, cells := (Claims.ldlTurn f buf fr r s b).cells } := by
  obtain ⟨hsame, hrest⟩ := s.windowsTouched_spec f buf fr r b
  rw [ldlTurn_eq]
  split
  · exact ⟨hsame.trans (.of_eq rfl rfl), by rw [hrest]; rfl⟩
  · exact ⟨hsame, by rw [hrest]⟩

/-- A part of LDL changes no cell but the one that it takes. -/
theorem ldlTurn_cell {n : Nat} (h : f.q.toNat = 0 → n ≠ Claims.localCell fr buf r b f.f (Claims.widthBytes f.w)) :
    (Claims.ldlTurn f buf fr r s b).cell r.core buf n = s.cell r.core buf n := by
  obtain ⟨-, hrest⟩ := s.windowsTouched_spec f buf fr r b
  have hcells : (s.windowsTouched f buf fr r b).cell r.core buf n = s.cell r.core buf n := by rw [hrest]; rfl
  rw [ldlTurn_eq]
  split
  · next hq => exact (State.cell_setCell_of_ne _ _ (h hq)).trans hcells
  · exact hcells

/-- A part's turn of LDL on its state and its rod. -/
def ldlWhole (f : ShLdl) (buf : Nat) (fr : Frame) (r : Rod) (s t : State) (b : Option Nat) : State :=
  (Claims.ldlTurn f buf fr r t b).alter r.uid fun q => Claims.loadedInto q b f.d f.w (Claims.ldlValue f buf fr r s b)

theorem curRod?_ldlTurn (t : State) (b : Option Nat) : (Claims.ldlTurn f buf fr r t b).curRod? = t.curRod? := by
  rw [(ldlTurn_spec f buf fr r t b).2]
  rfl

/-- A part whose cell is present, or that probes, takes its turn (R127, R179). -/
theorem M.ldlPart_ok (h : t.curRod? = some q) (hk : r.Agrees q b) (hf : t.frame? r.frame = some g) (hu : g.uid = fr.uid)
    (hseg : g.seg buf = fr.seg buf)
    (hin : Claims.localByte r b f.f (Claims.widthBytes f.w) / 16 < (fr.seg buf).limit.toNat)
    (hs : t.seen r.core buf (Claims.localCell fr buf r b f.f (Claims.widthBytes f.w)) =
      s.seen r.core buf (Claims.localCell fr buf r b f.f (Claims.widthBytes f.w)))
    (hpresent : f.q.toNat ≠ 2 → (s.seen r.core buf (Claims.localCell fr buf r b f.f (Claims.widthBytes f.w))).present = true) :
    M.ldlPart f buf b t = (.ok (), ldlWhole f buf fr r s t b) := by
  have hbyte : Claims.localByte q b f.f (Claims.widthBytes f.w) = Claims.localByte r b f.f (Claims.widthBytes f.w) := by
    rw [Claims.localByte, hk.word]
    rfl
  have hcell : (fr.seg buf).base.toNat + Claims.localByte r b f.f (Claims.widthBytes f.w) / 16 =
      Claims.localCell fr buf r b f.f (Claims.widthBytes f.w) := rfl
  rw [← hk.rest.frame] at hf
  have hlocal := M.localCell_ok (buf := buf) (off := f.f) (size := Claims.widthBytes f.w) h hf (by rw [hbyte, hseg]; exact hin)
  rw [hbyte] at hlocal
  have htouch : (if f.q.toNat = 2 then pure () else M.upd fun s => s.touchCells q.view.seen fr.uid buf
      (Claims.localByte r b f.f (Claims.widthBytes f.w) / 16) 1 : M Unit) t = (.ok (), t.windowsTouched f buf fr r b) := by
    unfold State.windowsTouched
    rw [nowOf_eq h hk.rest.uid]
    split <;> rfl
  have hturn := ldlTurn_eq f buf fr r t b
  have hcur := curRod?_ldlTurn (f := f) (buf := buf) (fr := fr) (r := r) t b
  obtain ⟨hsame, hrest⟩ := t.windowsTouched_spec f buf fr r b
  have hseen : (t.windowsTouched f buf fr r b).seen r.core buf (Claims.localCell fr buf r b f.f (Claims.widthBytes f.w)) =
      s.seen r.core buf (Claims.localCell fr buf r b f.f (Claims.widthBytes f.w)) :=
    (hsame.seen (by rw [hrest]; rfl)).trans hs
  rw [← State.seen_data, hs] at hturn
  unfold M.ldlPart ldlWhole Claims.ldlValue
  rw [accessSize_eq_widthBytes, M.bind_ok hlocal]
  dsimp only
  rw [M.bind_ok (M.rod_apply h), M.bind_ok (M.frame_apply h hf), hu, M.bind_ok htouch, M.bind_ok (M.get_apply _)]
  simp only [hseg, hcell, hk.rest.core, hseen, Rod.setLoaded_eq_loadedInto]
  generalize t.windowsTouched f buf fr r b = x at *
  generalize s.seen r.core buf (Claims.localCell fr buf r b f.f (Claims.widthBytes f.w)) = c at *
  rw [State.alter_of_curRod? (hcur.trans h) hk.rest.uid]
  by_cases hprobe : f.q.toNat = 2
  · rw [if_neg (by omega)] at hturn
    rw [if_pos hprobe, if_pos hprobe, hturn]
    rw [hturn] at hcur
    exact onRod_ok (hcur.trans h) rfl
  · rw [if_neg hprobe, if_pos (hpresent hprobe), if_neg hprobe, M.bind_ok (M.upd_apply _ _)]
    have hstate : (if decide (f.q.toNat = 0) = true then x.setCell r.core buf
        (Claims.localCell fr buf r b f.f (Claims.widthBytes f.w)) { c with present := false } else x) =
        Claims.ldlTurn f buf fr r t b := by
      rw [hturn]
      simp only [decide_eq_true_eq]
    rw [hstate]
    exact onRod_ok (hcur.trans h) rfl

/-- The parts `bs` of an LDL of the rod `r` are still to come, in a state `t` that the parts before them leave of `s`. -/
structure LdlLeft (f : ShLdl) (buf : Nat) (fr : Frame) (r : Rod) (s : State) (bs : List (Option Nat)) (t : State) : Prop where
  segments : s.SameSegments t
  apart : bs.Pairwise (LoadsApart f.d)
  inside : ∀ b ∈ bs, Claims.localByte r b f.f (Claims.widthBytes f.w) / 16 < (fr.seg buf).limit.toNat
  present : f.q.toNat ≠ 2 → ∀ b ∈ bs,
    (s.seen r.core buf (Claims.localCell fr buf r b f.f (Claims.widthBytes f.w))).present = true
  takes : f.q.toNat = 0 → (bs.map fun b => Claims.localCell fr buf r b f.f (Claims.widthBytes f.w)).Nodup
  cells : ∀ b ∈ bs, t.cell r.core buf (Claims.localCell fr buf r b f.f (Claims.widthBytes f.w)) =
    s.cell r.core buf (Claims.localCell fr buf r b f.f (Claims.widthBytes f.w))
  rod : ∃ q, t.curRod? = some q ∧ r.Loading q ∧ ∀ b ∈ bs, r.Agrees q b

theorem LdlLeft.turn {bs : List (Option Nat)} (hf : s.frame? r.frame = some fr) (h : LdlLeft f buf fr r s (b :: bs) t) :
    M.ldlPart f buf b t = (.ok (), ldlWhole f buf fr r s t b) ∧ LdlLeft f buf fr r s bs (ldlWhole f buf fr r s t b) := by
  obtain ⟨q, hq, hk, hagree⟩ := h.rod
  obtain ⟨g, hg, hguid, hgseg⟩ := h.segments.frame? hf
  obtain ⟨hb, hbs⟩ := List.pairwise_cons.mp h.apart
  obtain ⟨hturn, -⟩ := ldlTurn_spec f buf fr r t b
  have hwhole : ldlWhole f buf fr r s t b = _ :=
    State.alter_of_curRod? ((curRod?_ldlTurn (f := f) (buf := buf) (fr := fr) (r := r) t b).trans hq) hk.uid _
  refine ⟨M.ldlPart_ok hq (hagree b List.mem_cons_self) hg hguid (hgseg buf) (h.inside b List.mem_cons_self)
      (h.segments.seen (h.cells b List.mem_cons_self)) fun hne => h.present hne b List.mem_cons_self, ?_⟩
  rw [hwhole]
  refine ⟨h.segments.trans (hturn.trans (.of_eq rfl rfl)), hbs, fun c hc => h.inside c (List.mem_cons_of_mem b hc),
    fun hne c hc => h.present hne c (List.mem_cons_of_mem b hc), fun htake => (List.nodup_cons.mp (h.takes htake)).2,
    fun c hc => ?_, _, State.curRod?_setRod ((curRod?_ldlTurn t b).trans hq) (loadedInto_uid _ _ _ _ _),
    hk.trans (q.loading_loadedInto _ _ _ _), fun c hc => ?_⟩
  · refine (ldlTurn_cell fun htake e => ?_).trans (h.cells c (List.mem_cons_of_mem b hc))
    exact (List.nodup_cons.mp (h.takes htake)).1 (List.mem_map.mpr ⟨c, hc, e⟩)
  · obtain ⟨hd, hbc⟩ := hb c hc
    exact (hagree c (List.mem_cons_of_mem b hc)).loadedInto hd hbc f.w _

/-- What an LDL does to cells and frames, and what to its rod, do not depend on each other: the turns of the state can be
taken first. -/
theorem ldlTurn_setRod {p : Rod} (h : t.curRod? = some p) (hp : p.uid = r.uid) (hq : q.uid = r.uid) (hv : q.view = p.view) :
    Claims.ldlTurn f buf fr r (t.setRod q) b = (Claims.ldlTurn f buf fr r t b).setRod q := by
  have hnow : Claims.nowOf (t.setRod q) r = q := nowOf_eq (State.curRod?_setRod h (hq.trans hp.symm)) hq
  have htouch : (t.setRod q).windowsTouched f buf fr r b = (t.windowsTouched f buf fr r b).setRod q := by
    unfold State.windowsTouched
    rw [hnow, nowOf_eq h hp, hv]
    split <;> rfl
  rw [ldlTurn_eq, ldlTurn_eq, htouch]
  split <;> rfl

/-- The rod `q` with the value that a part of an LDL loads. -/
def ldlLoaded (f : ShLdl) (buf : Nat) (fr : Frame) (r : Rod) (s : State) (q : Rod) (b : Option Nat) : Rod :=
  Claims.loadedInto q b f.d f.w (Claims.ldlValue f buf fr r s b)

/-- The turns of an LDL are those of the state, and then the values that its rod has loaded. -/
theorem foldl_ldlWhole {p : Rod} (bs : List (Option Nat)) (h : t.curRod? = some p) (hp : p.uid = r.uid) (hq : q.uid = r.uid)
    (hv : q.view = p.view) : bs.foldl (ldlWhole f buf fr r s) (t.setRod q) =
      (bs.foldl (Claims.ldlTurn f buf fr r) t).setRod (bs.foldl (ldlLoaded f buf fr r s) q) := by
  induction bs generalizing t q with
  | nil => rfl
  | cons b bs ih =>
    have hcur := (curRod?_ldlTurn (f := f) (buf := buf) (fr := fr) (r := r) t b).trans h
    have hu : (ldlLoaded f buf fr r s q b).uid = q.uid := loadedInto_uid _ _ _ _ _
    have hview : (ldlLoaded f buf fr r s q b).view = q.view := by rw [ldlLoaded, loadedInto_registers]; rfl
    have hturn : ldlWhole f buf fr r s (t.setRod q) b =
        (Claims.ldlTurn f buf fr r t b).setRod (ldlLoaded f buf fr r s q b) := by
      rw [ldlWhole, ldlTurn_setRod h hp hq hv, State.alter_of_curRod? (State.curRod?_setRod hcur (hq.trans hp.symm)) hq]
      exact State.setRod_setRod _ _ _ hu
    rw [List.foldl_cons, hturn]
    exact ih hcur (hu.trans hq) (hview.trans hv)

theorem curRod?_foldl_ldlTurn (bs : List (Option Nat)) (t : State) :
    (bs.foldl (Claims.ldlTurn f buf fr r) t).curRod? = t.curRod? := by
  induction bs generalizing t with
  | nil => rfl
  | cons b bs ih => exact (ih _).trans (curRod?_ldlTurn t b)

/-- The state in which an effect begins stays when its rod is put back. -/
theorem State.begun_setRod {i : Instr} (h : Issues s r i) (hl : lazyCommits i = false) (hq : (s.begun r i).curRod? = some q) :
    (s.begun r i).setRod q = s.begun r i := by
  obtain ⟨x, p, hx, hp⟩ : ∃ x p, s.begun r i = State.setRod x p ∧ (x.setRod p).curRod? = some p := by
    cases hc : commits i with
    | false =>
      exact ⟨s, r.leave, State.begun_of_not_commits hc, State.curRod?_setRod h.cur rfl⟩
    | true =>
      obtain ⟨y, hy, hk⟩ := ((s.setRod r.leave).commitPerform_undisturbed r.uid).curRod? (r := r.leave)
        (State.curRod?_setRod h.cur rfl)
      exact ⟨_, _, (State.begun_of_commits hc hl).trans (State.alter_of_curRod? hy hk.uid _), State.curRod?_setRod hy rfl⟩
  rw [hx] at hq ⊢
  obtain rfl := Option.some.inj (hp.symm.trans hq)
  exact State.setRod_setRod x p p rfl

/-- The fields of an LDL in its shape name registers of its own kind (R70). -/
theorem isS_of_ldlOf {i : Instr} (h : Claims.ldlOf i = some (f, buf)) (hk : operandKindOk i = true) : isS f.d = f.u := by
  unfold Claims.ldlOf at h
  split at h
  all_goals cases h
  all_goals exact isS_of_okLoadData (Bool.and_eq_true_iff.mp hk).1

end

/-- LDL whose parts find their cells: each takes its turn (R127, R385). -/
theorem exec_ldl_next {i : Instr} {f : ShLdl} (hi : Claims.ldlOf i = some (f, buf)) (h : Issues s r i)
    (hf : s.frame? r.frame = some fr) (hleft : LdlLeft f buf fr r s (r.parts f.u) s) :
    exec i s = .next ((((r.parts f.u).foldl (Claims.ldlTurn f buf fr r) (s.begun r i)).alter r.uid fun q =>
      (r.parts f.u).foldl (ldlLoaded f buf fr r s) q).through r i) := by
  have hx := runsParts_of_ldlOf hi
  obtain ⟨q, hq, hk⟩ := State.curRod?_begun_alike h hx.eager
  obtain ⟨hframes, hcells, hslots, -⟩ := State.begun_buffers h hx.eager
  have hstart : LdlLeft f buf fr r s (r.parts f.u) (s.begun r i) :=
    { hleft with
      segments := .of_eq hslots hframes
      cells := fun b _ => by unfold State.cell; rw [hcells]
      rod := ⟨q, hq, hk.loading, fun b _ => hk.agrees b⟩ }
  obtain ⟨hloop, hend⟩ := M.forM_turns (f := M.ldlPart f buf) (turn := ldlWhole f buf fr r s)
    (P := LdlLeft f buf fr r s) (fun _ _ _ h => h.turn hf) _ hstart
  obtain ⟨p, hp, hkp, -⟩ := hend.rod
  have hall := foldl_ldlWhole (f := f) (buf := buf) (fr := fr) (s := s) (r.parts f.u) hq hk.loading.uid hk.loading.uid rfl
  rw [State.begun_setRod h hx.eager hq] at hall
  have hcur := (curRod?_foldl_ldlTurn (f := f) (buf := buf) (fr := fr) (r := r) (r.parts f.u) (s.begun r i)).trans hq
  rw [State.alter_of_curRod? hcur hk.loading.uid, ← hall, hx.exec]
  exact execute_through h hx.eager ((M.each_apply hq f.u _).trans (hk.loading.parts f.u ▸ hloop)) hp hkp.uid

/-! ### STL -/

/-- The parts of an STL of the ready rod `p` find the state as it was, but for cells and the rods that they served. -/
structure StlLeft (s : State) (p : Rod) (t : State) : Prop where
  holds : t.Holds p
  rest : t = { s with rods := t.rods, cells := t.cells }

/-- A part whose cell lies in the segment, and belongs to no carry slot, stores (R124, R126, R128). -/
theorem StlLeft.turn {f : ShStl} (h : StlLeft s r t) (hcur : s.curRod? = some r) (hready : r.status = .ready)
    (hf : s.frame? r.frame = some fr) (hin : Claims.localByte r b f.f (Claims.widthBytes f.w) / 16 < (fr.seg buf).limit.toNat)
    (hfree : buf = 3 → s.carryOwned r.core (Claims.localCell fr buf r b f.f (Claims.widthBytes f.w)) 1 = false) :
    M.stlPart f buf b t = (.ok (), Claims.stlTurn f buf fr r t b) ∧ StlLeft s r (Claims.stlTurn f buf fr r t b) := by
  obtain ⟨hholds, hrest⟩ := h
  have hq : t.curRod? = some r := by
    have hname : t.cur = some r.uid := by rw [hrest]; exact (State.curRod?_eq hcur).1
    rw [State.curRod?, hname]
    exact hholds.rod
  have hframe : t.frame? r.frame = some fr := by rw [hrest]; exact hf
  have hcarry : t.carryOwned r.core = s.carryOwned r.core := by rw [hrest]; rfl
  have hcell : (fr.seg buf).base.toNat + Claims.localByte r b f.f (Claims.widthBytes f.w) / 16 =
      Claims.localCell fr buf r b f.f (Claims.widthBytes f.w) := rfl
  have hneed : (!(decide (buf = 3) &&
      t.carryOwned r.core (Claims.localCell fr buf r b f.f (Claims.widthBytes f.w)) 1)) = true := by
    rw [hcarry]
    by_cases hbuf : buf = 3
    · rw [hfree hbuf, Bool.and_false]; rfl
    · rw [decide_eq_false hbuf]; rfl
  refine ⟨?_, ?_⟩
  · unfold M.stlPart
    rw [accessSize_eq_widthBytes, M.bind_ok (M.localCell_ok hq hframe hin)]
    dsimp only
    rw [M.bind_ok (M.rod_apply hq), M.bind_ok (M.frame_apply hq hframe), M.bind_ok (M.get_apply t), hcell, hneed,
      M.bind_ok (M.need_true _ t), setField_eq_cellWith, Rod.stored_eq_storedFrom]
    rfl
  · obtain ⟨hp, hwrite⟩ := State.writeCell_spec hholds hready r.core buf
      (Claims.localCell fr buf r b f.f (Claims.widthBytes f.w))
      (Claims.cellWith (t.cell r.core buf (Claims.localCell fr buf r b f.f (Claims.widthBytes f.w))).data
        (Claims.localByte r b f.f (Claims.widthBytes f.w) % 16) (Claims.widthBytes f.w) (Claims.storedFrom r b f.d f.w))
    refine ⟨hp, hwrite.trans ?_⟩
    rw [hrest]
    rfl

theorem not_commits_of_stlOf {i : Instr} {f : ShStl} (h : Claims.stlOf i = some (f, buf)) : commits i = false := by
  unfold Claims.stlOf at h
  split at h
  all_goals cases h
  all_goals rfl

/-- STL whose parts may write their cells: each takes its turn (R126, R417). -/
theorem exec_stl_next {i : Instr} {f : ShStl} (hi : Claims.stlOf i = some (f, buf)) (h : Issues s r i)
    (hf : s.frame? r.frame = some fr)
    (hparts : ∀ b ∈ r.parts f.u, Claims.localByte r b f.f (Claims.widthBytes f.w) / 16 < (fr.seg buf).limit.toNat ∧
      (buf = 3 → s.carryOwned r.core (Claims.localCell fr buf r b f.f (Claims.widthBytes f.w)) 1 = false)) :
    exec i s = .next (((r.parts f.u).foldl (Claims.stlTurn f buf fr r) (s.begun r i)).through r i) := by
  have hx := runsParts_of_stlOf hi
  have hcur : (s.setRod r.leave).curRod? = some r.leave := State.curRod?_setRod h.cur rfl
  have hstart : StlLeft (s.setRod r.leave) r.leave (s.setRod r.leave) :=
    ⟨State.holds_setRod (p := r.leave) (State.curRod?_eq h.cur).2, rfl⟩
  obtain ⟨hloop, hend⟩ := M.forM_members (f := M.stlPart f buf) (turn := Claims.stlTurn f buf fr r)
    (fun b hb t ht => ht.turn hcur h.ready hf (hparts b hb).1 (hparts b hb).2) hstart
  have hbegun : s.begun r i = s.setRod r.leave := State.begun_of_not_commits (not_commits_of_stlOf hi)
  rw [hx.exec]
  refine execute_through (q := r.leave) h hx.eager (hbegun ▸ (M.each_apply hcur f.u _).trans hloop) ?_ rfl
  rw [hbegun, State.curRod?, hend.rest]
  show (match (s.setRod r.leave).cur with | none => none | some u => State.rod? _ u) = _
  rw [(State.curRod?_eq hcur).1]
  exact hend.holds.rod

end

end Sys2Proof.Machine

namespace Sys2Proof.Claims

open Sys2Proof.Machine

/-- Settles O33: an LDL's turn leaves the cells and the registers that later parts read, and an STL's turn leaves its rod,
which waits at no cell. -/
theorem localAccessesComplete : Obligations.LocalAccessesComplete := by
  unfold Obligations.LocalAccessesComplete
  refine ⟨?_, fun s r fr i f buf hi h hf hparts => exec_stl_next hi h hf hparts⟩
  intro s r fr i f buf hi h hf n hin hpresent htakes
  have hkind := isS_of_ldlOf hi (operandKindOk_of_legal h.legal)
  exact exec_ldl_next hi h hf ⟨.refl s, r.parts_loadsApart hkind, hin, hpresent, htakes, fun _ _ => rfl, r, h.cur, rfl,
    fun _ _ => ⟨rfl, rfl, rfl⟩⟩

end Sys2Proof.Claims
end


section
/-!
SUPPORT. Stores: what a tentative line and a write at its home leave, and the parts of a store that have reached their
addresses (R148, R168).
-/

namespace Sys2Proof.Machine

section
variable {s t : State} {r q : Rod} {b : Option Nat} {at_ : Option Nat → Nat}

theorem State.pathWriteNat_undisturbed (s : State) (path : Nat) (agent : Agent) (stamps : List Stamp) (a n x : Nat) :
    s.Undisturbed (s.pathWriteNat path agent stamps a n x) := by
  unfold State.pathWriteNat
  split
  · exact (s.pathWrite_undisturbed path agent stamps _).trans (State.pathWrite_undisturbed _ path agent stamps _)
  · exact s.pathWrite_undisturbed path agent stamps _

/-- A write of a rod at its home keeps every rod. -/
theorem State.rodWrite_undisturbed (s : State) (r : Rod) (stamps : List Stamp) (a n x : Nat) :
    s.Undisturbed (s.rodWrite r stamps a n x) :=
  (s.pathWriteNat_undisturbed 0 r.agent stamps a n x).trans (.of_modRod _ r.uid fun q => q.performed_kept _ _)

theorem State.commit_finds (s : State) (u : Nat) : s.Finds (s.commit u) := by
  unfold State.commit
  split
  · rfl
  · split <;> rfl

/-- Room for one more line is made by a commit, or needs none (R150). -/
theorem State.makeRoom_spec (s : State) (u : Nat) : s.Undisturbed (s.makeRoom u) ∧ s.Finds (s.makeRoom u) := by
  unfold State.makeRoom
  split
  · exact ⟨.refl s, rfl⟩
  · split
    · exact ⟨s.commit_undisturbed u, s.commit_finds u⟩
    · split
      · exact ⟨.refl s, rfl⟩
      · split
        · exact ⟨s.commit_undisturbed u, s.commit_finds u⟩
        · split
          · exact ⟨.refl s, rfl⟩
          · exact ⟨s.commit_undisturbed _, s.commit_finds _⟩

/-- A store into a tentative line keeps every rod, and addresses are found as before (R148). -/
theorem State.storeTentative_spec (s : State) (u : Nat) (tag : LineTag) (ws : List (Nat × Byte)) :
    s.Undisturbed (s.storeTentative u tag ws) ∧ s.Finds (s.storeTentative u tag ws) := by
  obtain ⟨hkept, hfinds⟩ := s.makeRoom_spec u
  unfold State.storeTentative
  split
  · dsimp only
    split
    · exact ⟨.of_modRod s u fun _ => rfl, rfl⟩
    · exact ⟨hkept.trans (.of_modRod _ u fun _ => rfl), hfinds.trans rfl⟩
  · exact ⟨.refl s, rfl⟩

/-- The line of a store comes from the same place in every state that finds addresses so. -/
theorem State.Finds.lineFrom (hs : s.Finds t) (hk : r.Loading q) (c : Cap) (byte a : Nat) :
    Claims.lineFrom t q c byte a = Claims.lineFrom s r c byte a := by
  rw [hs, hk]
  rfl

/-- What a part stores is read of the registers that it agrees on (R415). -/
theorem Rod.Agrees.stored (h : r.Agrees q b) (d : BitVec 7) (w : BitVec 3) : q.stored b d w = Claims.storedFrom r b d w := by
  rw [Rod.stored_eq_storedFrom]
  unfold Claims.storedFrom
  rw [h.quad, h.dword, h.word]

/-- The issuing rod of the state is the rod `r`, but for its view of memory, its tentative lines and its save points. -/
def State.Issuing (r : Rod) (s : State) : Prop := ∃ q, s.curRod? = some q ∧ r.Alike q

theorem State.Issuing.undisturbed (h : s.Issuing r) (hu : s.Undisturbed t) : t.Issuing r := by
  obtain ⟨q, hq, hk⟩ := h
  obtain ⟨p, hp, hkp⟩ := hu.curRod? hq
  exact ⟨p, hp, hk.trans hkp.alike⟩

/-- The parts of an access that have reached their addresses act in turn. -/
theorem M.forM_reached {f : Option Nat × Nat → M Unit} {turn : State → Option Nat → State} {P : State → Prop}
    {bs : List (Option Nat)} (hstep : ∀ b t, P t → f (b, at_ b) t = (.ok (), turn t b) ∧ P (turn t b)) (h : P s) :
    (bs.map fun b => (b, at_ b)).forM f s = (.ok (), bs.foldl turn s) ∧ P (bs.foldl turn s) := by
  rw [show bs.foldl turn s = (bs.map fun b => (b, at_ b)).foldl (fun t x => turn t x.1) s by rw [List.foldl_map]]
  refine M.forM_members (fun x hx t ht => ?_) h
  obtain ⟨b, -, rfl⟩ := List.mem_map.mp hx
  exact hstep b t ht

end

end Sys2Proof.Machine
end


section
/-!
The settling of O25: an ST whose beads reach their addresses.
-/

namespace Sys2Proof.Machine

section
variable {s t : State} {r p : Rod} {f : ShMem} {at_ : Option Nat → Nat} {b : Option Nat}

/-- One part's effect of an ordinary ST (R148, R415). -/
def M.stPart (f : ShMem) (b : Option Nat) : M Unit := do
  let r ← M.rod
  let (a, tag) ← M.reachLine b (r.cap f.c.toNat) (r.offset b f.x f.f * accessSize f.w) (accessSize f.w)
  M.upd fun s => s.storeTentative r.uid tag (placed a (bytesOfNat (accessSize f.w) (r.stored b f.d f.w)))

/-- One part's effect of a release ST of the rod `r` at the address that it has reached (R168, R416). -/
def M.stRelease (f : ShMem) (r : Rod) : Option Nat × Nat → M Unit := fun (b, a) => do
  let q ← M.rod
  M.upd fun s => s.rodWrite q
    ((q.view.release q.agent 4).through (homeDieOf a) (s.fresh + 1 + accessSize f.w / 16) :: q.view.rel)
    a (accessSize f.w) (r.stored b f.d f.w)

theorem exec_st_eq (f : ShMem) (s : State) : exec (.st f) s = execute (.st f) (if f.o.toNat = 3 then do
    let r ← M.rod
    let targets ← M.reachAll f.u (r.cap f.c.toNat) { w := true } (fun r b => r.offset b f.x f.f * accessSize f.w)
      (accessSize f.w)
    targets.forM (M.stRelease f r)
  else M.each f.u (M.stPart f)) s := rfl

/-- A part's turn of ST. -/
def storeTurn (s : State) (r : Rod) (f : ShMem) (at_ : Option Nat → Nat) (x : State) (b : Option Nat) : State :=
  let q := Claims.nowOf x r
  let v := Claims.storedFrom r b f.d f.w
  let done := (q.view.release q.agent 4).through (homeDieOf (at_ b)) (x.fresh + 1 + Claims.widthBytes f.w / 16)
  if f.o.toNat = 3 then x.rodWrite q (done :: q.view.rel) (at_ b) (Claims.widthBytes f.w) v
  else x.storeTentative r.uid
    (Claims.lineFrom s r (r.cap f.c.toNat) (Claims.byteOffset r b f.x f.f (Claims.widthBytes f.w)) (at_ b))
    (placed (at_ b) (bytesOfNat (Claims.widthBytes f.w) v))

/-- A part of a release store at its home. -/
theorem M.stRelease_ok (ho : f.o.toNat = 3) (hp : r.Alike p) (h : t.Issuing r) :
    M.stRelease f p (b, at_ b) t = (.ok (), storeTurn s r f at_ t b) ∧ (storeTurn s r f at_ t b).Issuing r := by
  obtain ⟨q, hq, hk⟩ := id h
  have hstored := (hp.agrees b).stored f.d f.w
  refine ⟨?_, ?_⟩
  · unfold M.stRelease storeTurn
    dsimp only
    rw [M.bind_ok (M.rod_apply hq), if_pos ho, hstored, accessSize_eq_widthBytes, nowOf_eq hq hk.uid]
    rfl
  · unfold storeTurn
    dsimp only
    rw [if_pos ho]
    exact h.undisturbed (State.rodWrite_undisturbed _ _ _ _ _ _)

/-- A part of an ordinary store that reaches its address. -/
theorem M.stPart_ok (ho : f.o.toNat ≠ 3) (hr : Claims.Reaches s r (r.cap f.c.toNat) ⟨false, true, false, false, false⟩
      (Claims.byteOffset r b f.x f.f (Claims.widthBytes f.w)) (Claims.widthBytes f.w) .tentative (at_ b))
    (h : t.Issuing r ∧ s.Finds t) : M.stPart f b t = (.ok (), storeTurn s r f at_ t b) ∧
      (storeTurn s r f at_ t b).Issuing r ∧ s.Finds (storeTurn s r f at_ t b) := by
  obtain ⟨hissuing, hfinds⟩ := h
  obtain ⟨q, hq, hk⟩ := id hissuing
  have hreach := M.reachLine_ok (b := b) hq (hfinds.reaches hk.loading hr)
  rw [hfinds.lineFrom hk.loading] at hreach
  have hturn : storeTurn s r f at_ t b = t.storeTentative r.uid _ _ := if_neg ho
  refine ⟨?_, ?_⟩
  · unfold M.stPart
    rw [M.bind_ok (M.rod_apply hq), (hk.agrees b).byteOffset, accessSize_eq_widthBytes, hk.loading.cap, M.bind_ok hreach,
      hturn, (hk.agrees b).stored, hk.uid]
    rfl
  · obtain ⟨hkept, hthen⟩ := t.storeTentative_spec r.uid
      (Claims.lineFrom s r (r.cap f.c.toNat) (Claims.byteOffset r b f.x f.f (Claims.widthBytes f.w)) (at_ b))
      (placed (at_ b) (bytesOfNat (Claims.widthBytes f.w) (Claims.storedFrom r b f.d f.w)))
    rw [hturn]
    exact ⟨hissuing.undisturbed hkept, hfinds.trans hthen⟩

/-- An instruction whose parts each take their turn, with the rod still there: the rod moves past it. -/
theorem execute_turns {i : Instr} {body : M Unit} {u : Bool} {turn : State → Option Nat → State} (h : Issues s r i)
    (hl : lazyCommits i = false) (hb : body (s.begun r i) = (.ok (), (r.parts u).foldl turn (s.begun r i)))
    (hend : ((r.parts u).foldl turn (s.begun r i)).Issuing r) :
    execute i body s = .next (((r.parts u).foldl turn (s.begun r i)).through r i) := by
  obtain ⟨q, hq, hk⟩ := hend
  exact execute_through h hl hb hq hk.uid

/-- The first checks of an access at the homes pass for every part (R147, R328). -/
theorem M.reachAll_issuing {u : Bool} {c : Nat} {rights : Rights} {offset : Rod → Option Nat → Nat}
    {byte : Option Nat → Nat} {size : Nat} (hk : r.Alike p) (hp : s.curRod? = some p) (hoffset : ∀ b, offset p b = byte b)
    (hr : ∀ b ∈ r.parts u, Claims.Reaches s r (r.cap c) rights (byte b) size .home (at_ b)) :
    M.reachAll u (p.cap c) rights offset size s = (.ok ((r.parts u).map fun b => (b, at_ b)), s) := by
  rw [← hk.loading.parts, hk.loading.cap]
  refine M.reachAll_ok hp fun b hb => ?_
  rw [hoffset]
  exact State.Finds.reaches (s := s) rfl hk.loading (hr b (hk.loading.parts u ▸ hb))

end

end Sys2Proof.Machine

namespace Sys2Proof.Claims

open Sys2Proof.Machine

/-- Settles O25: a write at its home keeps the issuing rod's registers, and a tentative store keeps where addresses are
found. -/
theorem storesComplete : Obligations.StoresComplete := by
  unfold Obligations.StoresComplete
  intro s r f at_ h hr
  obtain ⟨p, hp, hk⟩ := State.curRod?_begun_alike h rfl
  rw [exec_st_eq]
  by_cases ho : f.o.toNat = 3
  · simp only [if_pos ho] at hr
    obtain ⟨hloop, hend⟩ := M.forM_reached (f := M.stRelease f p) (turn := storeTurn s r f at_) (P := State.Issuing r)
      (bs := r.parts f.u) (fun b t ht => M.stRelease_ok ho hk ht) ⟨p, hp, hk⟩
    refine execute_turns (turn := storeTurn s r f at_) h rfl ?_ hend
    have hreached := M.reachAll_issuing (offset := fun r b => r.offset b f.x f.f * accessSize f.w) hk hp
      (fun b => (hk.agrees b).byteOffset f.x f.f f.w) hr
    rw [← accessSize_eq_widthBytes] at hreached
    rw [if_pos ho, M.bind_ok (M.rod_apply hp), M.bind_ok hreached, hloop]
  · simp only [if_neg ho] at hr
    have hbegun : s.begun r (.st f) = s.setRod r.leave := State.begun_of_not_commits (decide_eq_false ho)
    have hfinds : s.Finds (s.begun r (.st f)) := by rw [hbegun]; rfl
    have hback : (s.begun r (.st f)).Finds s := by rw [hbegun]; rfl
    obtain ⟨hloop, hend, -⟩ := M.forM_members (f := M.stPart f) (turn := storeTurn s r f at_)
      (P := fun t => t.Issuing r ∧ s.Finds t) (bs := r.parts f.u)
      (fun b hb t ht => M.stPart_ok ho (hback.reaches rfl (hr b hb)) ht) ⟨⟨p, hp, hk⟩, hfinds⟩
    refine execute_turns (turn := storeTurn s r f at_) h rfl ?_ hend
    rw [if_neg ho, M.each_apply hp, hk.loading.parts, hloop]

end Sys2Proof.Claims
end


section
/-!
The settling of O27: an STN whose beads reach their addresses.
-/

namespace Sys2Proof.Machine

section
variable {s t : State} {r q p : Rod} {f : ShMemNW} {at_ : Option Nat → Nat} {b : Option Nat}

theorem Rod.Kept.agent (h : r.Kept q) : q.agent = r.agent := by
  rw [h]
  rfl

/-- The write of an access at the home of its bytes, or where it writes nothing its die's copy of the line, with the releases
before it (R159, R161, R163). -/
def State.storedAtHome (q : Rod) (release : Bool) (a n : Nat) (new : Option Nat) (s : State) : State :=
  match new with
  | some x => s.rodWrite q ((if release then [(q.view.release q.agent 4).through (homeDieOf a) (s.fresh + 1)] else []) ++
      q.view.rel ++ chainStamps (s.touching a n)) a n x
  | none => s.installOwn (dieOfCore q.core) (lineOf a)

theorem State.storedAtHome_undisturbed (s : State) (q : Rod) (release : Bool) (a n : Nat) (new : Option Nat) :
    s.Undisturbed (s.storedAtHome q release a n new) := by
  cases new with
  | some x => exact s.rodWrite_undisturbed q _ a n x
  | none => exact s.installOwn_undisturbed _ _

theorem atHome_eq (h : s.curRod? = some q) (hu : q.uid = r.uid) (acquire release : Bool) (a n : Nat) (new : Option Nat) :
    Claims.atHome r false acquire release a n new s =
      Claims.returning r acquire (returned (s.touching a n) a n) (s.storedAtHome q release a n new) := by
  unfold Claims.atHome
  simp only [Bool.false_eq_true, if_false, nowOf_eq h hu]
  cases new <;> rfl

/-- The issuing rod performs an access at the home of its bytes, in no order S (R168). -/
theorem M.atHome_ok (h : s.curRod? = some q) (hu : q.uid = r.uid) (acquire release : Bool) (a n : Nat)
    (step : Nat → Option Nat) : M.atHome false acquire release a n step s =
      (.ok (s.natAt a n), Claims.atHome r false acquire release a n (step (s.natAt a n)) s) := by
  obtain ⟨p, hp, hk⟩ := (s.storedAtHome_undisturbed q release a n (step (s.natAt a n))).curRod? h
  rw [atHome_eq h hu, State.returning_eq hp (hk.uid.trans hu), hk.agent]
  unfold M.atHome
  simp only [Bool.false_eq_true, if_false]
  rw [M.bind_ok (M.pure_apply () s), M.bind_ok (M.rod_apply h), M.bind_ok (M.get_apply s)]
  refine (M.bind_ok (t := s.storedAtHome q release a n (step (s.natAt a n))) (a := ()) ?_).trans ?_
  · cases step (s.natAt a n) <;> rfl
  · have hview := onRod_ok hp (RM.modify_apply (fun y : Rod => { y with
      view := y.view.loaded q.agent acquire (returned (s.touching a n) a n) }) p)
    exact M.bind_ok hview

theorem State.Issuing.atHome (h : s.Issuing r) (acquire release : Bool) (a n : Nat) (new : Option Nat) :
    (Claims.atHome r false acquire release a n new s).Issuing r := by
  obtain ⟨q, hq, hk⟩ := h
  obtain ⟨p, hp, hkp⟩ := (s.storedAtHome_undisturbed q release a n new).curRod? hq
  rw [atHome_eq hq hk.uid, State.returning_eq hp (hkp.uid.trans hk.uid)]
  exact ⟨_, State.curRod?_setRod hp rfl, (hk.trans hkp.alike).trans rfl⟩

/-- One part's effect of STN of the rod `r` at the address that it has reached (R134, R419). -/
def M.stnPart (f : ShMemNW) (r : Rod) : Option Nat × Nat → M Unit := fun (b, a) => do
  let high := decide (r.offset b f.x f.f % 2 = 1)
  let _ ← M.atHome false false (decide (f.o.toNat = 3)) a 1 fun old => some (withNibble old high (r.word b f.d).toNat)
  pure ()

theorem exec_stn_eq (f : ShMemNW) (s : State) : exec (.stn f) s = execute (.stn f) (do
    let r ← M.rod
    let targets ← M.reachAll f.u (r.cap f.c.toNat) { w := true } (fun r b => nibbleByte (r.offset b f.x f.f)) 1
    targets.forM (M.stnPart f r)) s := rfl

theorem Rod.Agrees.nibbleOffset (h : r.Agrees q b) (x : Bool) (g : BitVec 7) :
    nibbleByte (q.offset b x g) = Claims.nibbleOffset r b x g := by
  rw [Rod.offset, h.operand]
  rfl

/-- The nibble that a part replaces is read of the registers that it agrees on (R134). -/
theorem Rod.Agrees.nibbleStored (h : r.Agrees q b) (f : ShMemNW) (old : Nat) :
    withNibble old (decide (q.offset b f.x f.f % 2 = 1)) (q.word b f.d).toNat = Claims.nibbleStored r b f old := by
  unfold withNibble Claims.nibbleStored
  rw [h.word, Rod.offset, h.operand]
  simp only [decide_eq_true_eq]

/-- A part's turn of STN. -/
def nibbleTurn (r : Rod) (f : ShMemNW) (at_ : Option Nat → Nat) (x : State) (b : Option Nat) : State :=
  Claims.atHome r false false (decide (f.o.toNat = 3)) (at_ b) 1 (some (Claims.nibbleStored r b f (x.natAt (at_ b) 1))) x

theorem M.stnPart_ok (hp : r.Alike p) (h : t.Issuing r) :
    M.stnPart f p (b, at_ b) t = (.ok (), nibbleTurn r f at_ t b) ∧ (nibbleTurn r f at_ t b).Issuing r := by
  refine ⟨?_, h.atHome _ _ _ _ _⟩
  obtain ⟨q, hq, hk⟩ := h
  unfold M.stnPart nibbleTurn
  dsimp only
  rw [M.bind_ok (M.atHome_ok hq hk.uid _ _ _ _ _), (hp.agrees b).nibbleStored]
  rfl

end

end Sys2Proof.Machine

namespace Sys2Proof.Claims

open Sys2Proof.Machine

/-- Settles O27: what each part stores is read of the registers as they were, and a write at its home keeps them. -/
theorem nibbleStoresComplete : Obligations.NibbleStoresComplete := by
  unfold Obligations.NibbleStoresComplete
  intro s r f at_ h hr
  obtain ⟨p, hp, hk⟩ := State.curRod?_begun_alike h rfl
  have hreached := M.reachAll_issuing (offset := fun r b => nibbleByte (r.offset b f.x f.f)) hk hp
    (fun b => (hk.agrees b).nibbleOffset f.x f.f) hr
  obtain ⟨hloop, hend⟩ := M.forM_reached (f := M.stnPart f p) (turn := nibbleTurn r f at_) (P := State.Issuing r)
    (bs := r.parts f.u) (fun b t ht => M.stnPart_ok hk ht) ⟨p, hp, hk⟩
  rw [exec_stn_eq]
  refine execute_turns (turn := nibbleTurn r f at_) h rfl ?_ hend
  rw [M.bind_ok (M.rod_apply hp), M.bind_ok hreached, hloop]

end Sys2Proof.Claims
end


section
/-!
SUPPORT. What an instruction changes of its rod's view of memory: fences and places in the order S (R163, R166), and the commit
point of REGION, after which the lines may still be on their way (R160).
-/

namespace Sys2Proof.Machine

/-- A change of the named rod's view of memory. -/
def State.modView (s : State) (u : Nat) (f : View → View) : State := s.alter u fun q => { q with view := f q.view }

/-- The issuing rod of the state is the rod `r` as an agent (R156). -/
def State.IssuedBy (r : Rod) (s : State) : Prop := ∃ q, s.curRod? = some q ∧ q.agent = r.agent

section
variable {s t : State} {r q : Rod}

theorem Rod.Alike.agent (h : r.Alike q) : q.agent = r.agent := by
  rw [h]
  rfl

/-- An agent names its rod (R156). -/
theorem Rod.uid_of_agent (h : q.agent = r.agent) : q.uid = r.uid := by
  unfold Rod.agent at h
  injection h

theorem State.Issuing.issuedBy (h : s.Issuing r) : s.IssuedBy r := by
  obtain ⟨q, hq, hk⟩ := h
  exact ⟨q, hq, hk.agent⟩

theorem State.IssuedBy.undisturbed (h : s.IssuedBy r) (hu : s.Undisturbed t) : t.IssuedBy r := by
  obtain ⟨q, hq, hk⟩ := h
  obtain ⟨p, hp, hkp⟩ := hu.curRod? hq
  exact ⟨p, hp, hkp.alike.agent.trans hk⟩

/-- A change that leaves its rod the same agent leaves it issuing. -/
theorem State.IssuedBy.alter (h : s.IssuedBy r) {f : Rod → Rod} (hf : ∀ q, (f q).agent = q.agent) :
    (s.alter r.uid f).IssuedBy r := by
  obtain ⟨q, hq, hk⟩ := h
  exact ⟨f q, State.curRod?_alter (fun q => Rod.uid_of_agent (hf q)) hq (Rod.uid_of_agent hk), (hf q).trans hk⟩

/-- The issuing rod is changed. -/
theorem onRod_alter (h : s.IssuedBy r) (f : Rod → Rod) : onRod (modify f) s = (.ok (), s.alter r.uid f) := by
  obtain ⟨q, hq, hk⟩ := h
  rw [State.alter_of_curRod? hq (Rod.uid_of_agent hk)]
  exact onRod_ok hq (RM.modify_apply f q)

theorem State.IssuedBy.modView (h : s.IssuedBy r) (f : View → View) : (s.modView r.uid f).IssuedBy r :=
  h.alter fun _ => rfl

theorem M.view_ok (h : s.IssuedBy r) (f : View → View) : M.view f s = (.ok (), s.modView r.uid f) := onRod_alter h _

/-- A place in the order S is taken with the view that the operations before it give (R166). -/
theorem ordered_eq {n : Nat} (h : s.IssuedBy r)
    (hq : (s.modView r.uid fun v => s.scBefore v r.agent n).curRod? = some q) (hu : q.uid = r.uid) :
    Claims.ordered r n s = (s.modView r.uid fun v => s.scBefore v r.agent n).scAfter q.view r.agent n := by
  obtain ⟨p, hp, hk⟩ := h
  have hmod : (s.alter r.uid fun q => { q with view := s.scBefore q.view q.agent n }) =
      s.modView r.uid fun v => s.scBefore v r.agent n := by
    unfold State.modView
    rw [State.alter_of_curRod? hp (Rod.uid_of_agent hk), State.alter_of_curRod? hp (Rod.uid_of_agent hk), hk]
  unfold Claims.ordered
  simp only [hmod, nowOf_eq hq hu]

theorem State.IssuedBy.ordered (h : s.IssuedBy r) (n : Nat) : (Claims.ordered r n s).IssuedBy r := by
  obtain ⟨q, hq, hk⟩ := h.modView fun v => s.scBefore v r.agent n
  rw [ordered_eq h hq (Rod.uid_of_agent hk)]
  exact ⟨q, hq, hk⟩

/-- The issuing rod takes its place in the order S (R166). -/
theorem M.scPoint_ok (h : s.IssuedBy r) (n : Nat) : M.scPoint n s = (.ok (), Claims.ordered r n s) := by
  obtain ⟨q, hq, hk⟩ := h.modView fun v => s.scBefore v r.agent n
  rw [ordered_eq h hq (Rod.uid_of_agent hk)]
  obtain ⟨p, hp, hkp⟩ := id h
  unfold M.scPoint
  rw [M.bind_ok (M.rod_apply hp), M.bind_ok (M.get_apply s), hkp, M.bind_ok (M.view_ok h _),
    M.bind_ok (M.rod_apply hq), hk]
  rfl

/-! ### Effects that take place where they are asked for -/

/-- An instruction whose effect completes and leaves its rod issuing: the rod moves past it (R16, R146). -/
theorem execute_issued {i : Instr} {body : M Unit} (h : Issues s r i) (hl : lazyCommits i = false)
    (hb : body (s.begun r i) = (.ok (), t)) (ht : t.IssuedBy r) : execute i body s = .next (t.through r i) := by
  obtain ⟨q, hq, hk⟩ := ht
  exact execute_through h hl hb hq (Rod.uid_of_agent hk)

/-- The rod whose effect begins is the rod that issues. -/
theorem State.begun_issuedBy {i : Instr} (h : Issues s r i) (hl : lazyCommits i = false) : (s.begun r i).IssuedBy r :=
  State.Issuing.issuedBy (State.curRod?_begun_alike h hl)

/-- An effect that takes place where it is asked for. -/
theorem M.when_ok {m : M Unit} {c : Bool} (hm : m s = (.ok (), t)) :
    (if c then m else pure ()) s = (.ok (), if c then t else s) := by
  cases c with
  | true => exact hm
  | false => rfl

theorem State.IssuedBy.ite {c : Bool} (ht : t.IssuedBy r) (hs : s.IssuedBy r) : (if c then t else s).IssuedBy r := by
  cases c with
  | true => exact ht
  | false => exact hs

/-! ### A commit whose lines may still be on their way -/

theorem State.begun_of_lazy {i : Instr} (hc : commits i = true) (hl : lazyCommits i = true) :
    s.begun r i = ((s.setRod r.leave).commit r.uid).alter r.uid Rod.openRegion := by
  simp [State.begun, hc, hl]

/-- A commit point that need not wait for its lines commits them and opens a new region (R146). -/
theorem M.commitPoint_lazy_eq (h : s.curRod? = some r) :
    M.commitPoint true s = (.ok (), (s.commit r.uid).alter r.uid Rod.openRegion) := by
  obtain ⟨q, hq, hk⟩ := (s.commit_undisturbed r.uid).curRod? h
  unfold M.commitPoint
  rw [M.bind_ok (M.rod_apply h), State.alter_of_curRod? hq hk.uid]
  simp only [if_true]
  rw [M.bind_ok (M.pure_apply () s), M.bind_ok (M.upd_apply _ s)]
  exact onRod_ok hq rfl

/-- A commit changes of the issuing rod nothing but its lines. -/
theorem State.Issuing.commit (h : s.Issuing r) (u : Nat) : (s.commit u).Issuing r := h.undisturbed (s.commit_undisturbed u)

theorem State.Issuing.alter (h : s.Issuing r) {f : Rod → Rod} (hf : ∀ q : Rod, q.Alike (f q)) : (s.alter r.uid f).Issuing r := by
  obtain ⟨q, hq, hk⟩ := h
  exact ⟨_, State.curRod?_alter (fun q => (hf q).uid) hq hk.uid, hk.trans (hf q)⟩

/-- REGION passes (R402). -/
theorem exec_region_through (h : Issues s r .region) : exec .region s = .next ((s.begun r .region).through r .region) := by
  have h0 : (s.setRod r.leave).curRod? = some r.leave := State.curRod?_setRod h.cur rfl
  have hbegun : s.begun r .region = ((s.setRod r.leave).commit r.uid).alter r.uid Rod.openRegion :=
    State.begun_of_lazy rfl rfl
  have hissuing : (s.begun r .region).Issuing r := by
    rw [hbegun]
    exact (State.Issuing.commit ⟨_, h0, rfl⟩ _).alter Rod.openRegion_alike
  obtain ⟨q, hq, hk⟩ := hissuing
  have hpoint : M.commitPoint true (s.setRod r.leave) = (.ok (), s.begun r .region) := by
    rw [hbegun]
    exact M.commitPoint_lazy_eq (r := r.leave) h0
  have hpassing : passing .region (pure ()) (s.begun r .region) = (.ok (), (s.begun r .region).alter r.uid Rod.advance) := by
    unfold passing
    rw [M.bind_ok (M.inAllocation_apply hq (by rw [hk]; exact h.inside) h.whole), M.bind_ok (M.pure_apply () _),
      State.alter_of_curRod? hq hk.uid]
    exact onRod_ok hq rfl
  have hadvanced := State.curRod?_alter (f := Rod.advance) (fun _ => rfl) hq hk.uid
  have hperformed : performed .region (passing .region (pure ())) s =
      (.ok (), ((s.begun r .region).alter r.uid Rod.advance).alter r.uid Rod.openRegion) := by
    unfold performed
    rw [M.bind_ok (M.legal_apply h.legal s), M.bind_ok (onRod_ok h.cur (RM.modify_apply _ r))]
    show (M.commitPoint true >>= fun _ => passing .region (pure ()) >>= fun _ => M.commitDone) (s.setRod r.leave) = _
    rw [M.bind_ok hpoint, M.bind_ok hpassing, M.commitDone_some hadvanced,
      State.alter_of_curRod? hadvanced hk.uid]
  show issue .region true (passing .region (pure ())) s = _
  unfold issue
  rw [h.cur]
  simp only [hperformed]
  rfl

end
end Sys2Proof.Machine
end

section
/-!
The settling of O20: the fences, PREF and REGION.
-/

namespace Sys2Proof.Machine

section
variable {s t : State} {r : Rod} {i : Instr} {body : M Unit}

/-- A fence passes with an acquire, a place in the order S and a release, as it has them (R159, R163, R166). -/
theorem executeFence_through (h : Issues s r i) (hl : lazyCommits i = false) (scope : BitVec 3) (acquire sc release : Bool) :
    executeFence i scope acquire release sc s =
      .next ((Claims.fenced r scope.toNat acquire sc release (s.begun r i)).through r i) := by
  have h0 := State.begun_issuedBy h hl
  obtain ⟨p, hp, hk⟩ := id h0
  have h1 := (h0.modView fun v => v.acquire r.agent scope.toNat v.got).ite (c := acquire) h0
  have h2 := (h1.ordered scope.toNat).ite (c := sc) h1
  have h3 := (h2.modView fun v => v.fence r.agent scope.toNat).ite (c := release) h2
  unfold executeFence
  refine execute_issued h hl ?_ h3
  rw [M.bind_ok (M.rod_apply hp), hk, M.bind_ok (M.when_ok (M.view_ok h0 _)),
    M.bind_ok (M.when_ok (M.scPoint_ok h1 _)), M.when_ok (M.view_ok h2 _)]
  rfl

/-- XFENCE acquires, puts the first path's writes before the second's accesses, and releases (R170). -/
theorem exec_xfence_through {f : ShXfence} (h : Issues s r (.xfence f)) : exec (.xfence f) s =
    .next ((Claims.crossed r f.f.toNat f.t.toNat f.s.toNat (s.begun r (.xfence f))).through r (.xfence f)) := by
  have h0 := State.begun_issuedBy h rfl
  obtain ⟨p, hp, hk⟩ := id h0
  have h1 := h0.modView fun v => v.acquire r.agent f.s.toNat v.got
  have h2 := h1.modView fun v =>
    { v with ord := joinCross v.ord [⟨f.f.toNat, f.t.toNat, f.s.toNat, r.agent, v.hb.join v.own⟩] }
  have h3 := h2.modView fun v => v.fence r.agent f.s.toNat
  refine execute_issued (body := M.cross f.f.toNat f.t.toNat f.s.toNat) h rfl ?_ h3
  unfold M.cross
  rw [M.bind_ok (M.rod_apply hp), hk, M.bind_ok (M.view_ok h0 _), M.bind_ok (M.view_ok h1 _)]
  exact M.view_ok h2 _

/-- A prefetch changes nothing (R395). -/
theorem exec_pref_through {f : ShPref} (h : Issues s r (.pref f)) :
    exec (.pref f) s = .next ((s.begun r (.pref f)).through r (.pref f)) :=
  execute_issued (body := pure ()) h rfl (M.pure_apply () _) (State.begun_issuedBy h rfl)

end
end Sys2Proof.Machine

namespace Sys2Proof.Claims

open Sys2Proof.Machine

/-- Settles O20: the commit leaves the rod issuing, and a fence changes its view of memory alone. -/
theorem fencesCommitAndPass : Obligations.FencesCommitAndPass := by
  unfold Obligations.FencesCommitAndPass
  refine ⟨fun s r i h hi => ?_, fun s r i f acquire sc release h hi => ?_, fun s r f h => exec_xfence_through h⟩
  · obtain rfl | ⟨f, rfl⟩ := hi
    · exact exec_region_through h
    · exact exec_pref_through h
  · obtain ⟨rfl, rfl, rfl, rfl⟩ | ⟨rfl, rfl, rfl, rfl⟩ | ⟨rfl, rfl, rfl, rfl⟩ | ⟨rfl, rfl, rfl, rfl⟩ := hi
    all_goals exact executeFence_through h rfl f.s _ _ _

end Sys2Proof.Claims
end


section
/-!
The settling of O31: a FLUSH that nothing bars.
-/

namespace Sys2Proof.Machine

section
variable {s : State} {r : Rod} {i : Instr}

/-- A commit point waits for nothing where nothing bars the rod's lines (R312, R313). -/
theorem M.ownPages_ok (h : s.curRod? = some r) (hb : s.blockedLine r.uid = none) : M.ownPages s = (.ok (), s) := by
  unfold M.ownPages
  rw [M.bind_ok (M.rod_apply h), M.bind_ok (M.get_apply s), hb]
  rfl

/-- A FLUSH commits and performs the rod's lines, and the rod sleeps (R173, R365). -/
theorem executeFlush_sleeps (h : Issues s r i) (hc : commits i = false) (hb : s.blockedLine r.uid = none) (scope : Nat)
    (inv : Bool) : executeFlush i scope inv s =
      .next ((((s.setRod r.leave).commitPerform r.uid).sleepRod r.uid 0 (.flush scope inv) false).tick
        (r.laneCycles (onceOnly i))) := by
  have h0 : (s.setRod r.leave).curRod? = some r.leave := State.curRod?_setRod h.cur rfl
  have hb0 : (s.setRod r.leave).blockedLine r.uid = none := (State.blockedLine_leave (State.curRod?_eq h.cur).2).trans hb
  refine executeControl_error (t := (s.setRod r.leave).commitPerform r.uid) (e := .sleep 0 (.flush scope inv) false) h hc ?_
  rw [M.bind_ok (M.rod_apply h0), M.bind_ok (M.ownPages_ok (r := r.leave) h0 hb0)]
  rfl

end
end Sys2Proof.Machine

namespace Sys2Proof.Claims

open Sys2Proof.Machine

/-- Settles O31: a FLUSH is no commit point of R146, and its own commit comes before the sleep. -/
theorem flushSleeps : Obligations.FlushSleeps := by
  unfold Obligations.FlushSleeps
  intro s r i f inv hi h hb
  obtain ⟨rfl, rfl⟩ | ⟨rfl, rfl⟩ := hi
  · exact executeFlush_sleeps h rfl hb f.s.toNat false
  · exact executeFlush_sleeps h rfl hb f.s.toNat true

end Sys2Proof.Claims
end


section
/-!
SUPPORT. What memory keeps: a byte that no write of a list names reads as before, whether memory is canonical or not, and what a
commit of a rod's lines may write (R146, R149, R160).
-/

namespace Sys2Proof.Machine

/-- A byte that no write of the list names reads as before. -/
theorem Memory.read_writeAll_of_unnamed (m : Memory) {ws : List (Nat × Byte)} {x : Nat} (h : ∀ w ∈ ws, w.1 ≠ x) :
    (m.writeAll ws).read x = m.read x := by
  induction ws generalizing m with
  | nil => rfl
  | cons w ws ih =>
    exact (ih (m.write w.1 w.2) fun v hv => h v (by simp [hv])).trans (Sparse.get_set_of_ne m w.2 (h w (by simp)).symm)

/-- The bytes of a number that is written at an address lie in its range. -/
theorem placed_ne {a n x y : Nat} {w : Nat × Byte} (hy : ¬ Claims.within a n y) (hw : w ∈ placed a (bytesOfNat n x)) :
    w.1 ≠ y := by
  obtain ⟨hlow, hhigh⟩ := placed_mem hw
  rw [bytesOfNat_length] at hhigh
  rintro rfl
  exact hy ⟨hlow, hhigh⟩

section
variable {s t : State} {r q : Rod} {y : Nat}

/-- A write of a number reads as before outside its range, be it in one part or in two (R132). -/
theorem State.pathWriteNat_other (s : State) (path : Nat) (agent : Agent) (stamps : List Stamp) {a n x : Nat}
    (hy : ¬ Claims.within a n y) : Memory.read (s.pathWriteNat path agent stamps a n x).mem y = Memory.read s.mem y := by
  unfold State.pathWriteNat
  split
  · subst n
    have hlow : ¬ Claims.within a 8 y := fun ⟨h, h'⟩ => hy ⟨h, by omega⟩
    have hhigh : ¬ Claims.within (a + 8) 8 y := fun ⟨h, h'⟩ => hy ⟨by omega, by omega⟩
    rw [State.pathWrite_mem, State.pathWrite_mem, Memory.read_writeAll_of_unnamed _ fun w => placed_ne hhigh,
      Memory.read_writeAll_of_unnamed _ fun w => placed_ne hlow]
  · rw [State.pathWrite_mem, Memory.read_writeAll_of_unnamed _ fun w => placed_ne hy]

theorem State.rodWrite_other (s : State) (q : Rod) (stamps : List Stamp) {a n x : Nat} (hy : ¬ Claims.within a n y) :
    Memory.read (s.rodWrite q stamps a n x).mem y = Memory.read s.mem y :=
  s.pathWriteNat_other 0 q.agent stamps hy

@[simp] theorem State.alter_mem (s : State) (u : Nat) (f : Rod → Rod) : (s.alter u f).mem = s.mem := by
  unfold State.alter
  split <;> rfl

@[simp] theorem State.shut_mem (s : State) (r : Rod) (i : Instr) : (s.shut r i).mem = s.mem := by
  unfold State.shut
  split <;> simp

@[simp] theorem State.through_mem (s : State) (r : Rod) (i : Instr) : (s.through r i).mem = s.mem := by
  simp [State.through]

@[simp] theorem ordered_mem (r : Rod) (n : Nat) (s : State) : (Claims.ordered r n s).mem = s.mem := by
  simp [Claims.ordered, State.scAfter]

/-! ### The lines of a commit -/

/-- A line on its way after a commit was on its way before, or has the bytes of the rod's tentative lines (R149). -/
theorem State.mem_inflight_commit {u : Nat} {i : Inflight} (hi : i ∈ (s.commit u).inflight) :
    i ∈ s.inflight ∨ ∃ r, s.rod? u = some r ∧ ∀ w ∈ i.bytes, w ∈ r.tent := by
  unfold State.commit at hi
  split at hi
  · exact .inl hi
  · next r hr =>
    split at hi
    · exact .inl hi
    · obtain hi | hi := List.mem_append.mp (show i ∈ s.inflight ++ _ from hi)
      · exact .inl hi
      · obtain ⟨l, -, rfl⟩ := List.mem_map.mp hi
        exact .inr ⟨r, hr, fun w hw => (List.mem_filter.mp hw).1⟩

theorem State.performLine_other (s : State) {i : Inflight} (hy : ∀ w ∈ i.bytes, w.1 ≠ y) :
    Memory.read (s.performLine i).mem y = Memory.read s.mem y := by
  unfold State.performLine
  rw [State.modRod_mem, State.pathWrite_mem, Memory.read_writeAll_of_unnamed _ hy]

theorem State.foldl_performLine_other {ls : List Inflight} (s : State) (hy : ∀ i ∈ ls, ∀ w ∈ i.bytes, w.1 ≠ y) :
    Memory.read (ls.foldl State.performLine s).mem y = Memory.read s.mem y := by
  induction ls generalizing s with
  | nil => rfl
  | cons i ls ih =>
    exact (ih _ fun j hj => hy j (by simp [hj])).trans (s.performLine_other (hy i (by simp)))

theorem State.drain_other (s : State) {u : Nat} (hy : ∀ i ∈ s.inflight, i.rod = u → ∀ w ∈ i.bytes, w.1 ≠ y) :
    Memory.read (s.drain u).mem y = Memory.read s.mem y := by
  unfold State.drain
  refine State.foldl_performLine_other _ fun i hi => ?_
  obtain ⟨hmem, hrod⟩ := List.mem_filter.mp ((List.takeWhile_sublist _).subset hi)
  exact hy i hmem (of_decide_eq_true hrod)

theorem State.commit_mem (s : State) (u : Nat) : (s.commit u).mem = s.mem := by
  unfold State.commit
  split
  · rfl
  · split <;> rfl

/-- A commit writes bytes of the rod's lines alone (R146, R149). -/
theorem State.commitPerform_other (h : s.rod? r.uid = some r) (hy : ¬ Claims.committing s r y) :
    Memory.read (s.commitPerform r.uid).mem y = Memory.read s.mem y := by
  unfold State.commitPerform
  refine (State.drain_other _ fun i hi hrod w hw he => hy ?_).trans (congrArg (Memory.read · y) (s.commit_mem r.uid))
  obtain ⟨x, v⟩ := w
  obtain rfl : x = y := he
  obtain hi | ⟨q, hq, hbytes⟩ := State.mem_inflight_commit hi
  · exact .inr ⟨i, hi, hrod, v, hw⟩
  · obtain rfl : r = q := Option.some.inj (h.symm.trans hq)
    exact .inl ⟨v, hbytes _ hw⟩

/-- A commit point writes bytes of the rod's lines alone before its effect (R146). -/
theorem State.begun_other {i : Instr} (h : Issues s r i) (hc : commits i = true) (hl : lazyCommits i = false)
    (hy : ¬ Claims.committing s r y) : Memory.read (s.begun r i).mem y = Memory.read s.mem y := by
  have h0 : (s.setRod r.leave).rod? r.leave.uid = some r.leave :=
    (State.curRod?_eq (State.curRod?_setRod (q := r.leave) h.cur rfl)).2
  rw [State.begun_of_commits hc hl, State.alter_mem]
  exact State.commitPerform_other (r := r.leave) h0 hy

/-- Turns that each read as before at a byte do so one after another. -/
theorem foldl_turns_other {turn : State → Option Nat → State} {bs : List (Option Nat)}
    (hturn : ∀ b ∈ bs, ∀ s, Memory.read (turn s b).mem y = Memory.read s.mem y) (s : State) :
    Memory.read (bs.foldl turn s).mem y = Memory.read s.mem y := by
  induction bs generalizing s with
  | nil => rfl
  | cons b bs ih => exact (ih (fun c hc => hturn c (by simp [hc])) _).trans (hturn b (by simp) s)

end
end Sys2Proof.Machine
end


section
/-!
SUPPORT. Atomics: each part reads at its home and stores there, in the order S where its order says so (R166, R168, R328).
-/

namespace Sys2Proof.Machine

section
variable {s t : State} {r p q : Rod} {b : Option Nat}

/-- The order S comes before the access itself (R166). -/
theorem atHome_of_sc (r : Rod) (sc acquire release : Bool) (a n : Nat) (new : Option Nat) (s : State) :
    Claims.atHome r sc acquire release a n new s =
      Claims.atHome r false acquire release a n new (if sc then Claims.ordered r 4 s else s) := by
  cases sc <;> rfl

theorem State.IssuedBy.ordering (h : s.IssuedBy r) (sc : Bool) : (if sc then Claims.ordered r 4 s else s).IssuedBy r :=
  (h.ordered 4).ite h

theorem ordering_natAt (r : Rod) (sc : Bool) (s : State) (a n : Nat) :
    (if sc then Claims.ordered r 4 s else s).natAt a n = s.natAt a n := by
  cases sc with
  | true => simp [State.natAt, State.bytesAt]
  | false => rfl

/-- The issuing rod performs an access at the home of its bytes, in the order S or not (R166, R168). -/
theorem M.atHome_ordered_ok (h : s.IssuedBy r) (sc acquire release : Bool) (a n : Nat) (step : Nat → Option Nat) :
    M.atHome sc acquire release a n step s =
      (.ok (s.natAt a n), Claims.atHome r sc acquire release a n (step (s.natAt a n)) s) := by
  obtain ⟨q, hq, hk⟩ := h.ordering sc
  have hrest := M.atHome_ok hq (Rod.uid_of_agent hk) acquire release a n step
  rw [ordering_natAt, ← atHome_of_sc] at hrest
  rw [← hrest]
  exact M.bind_ok (M.when_ok (M.scPoint_ok h 4))

theorem State.IssuedBy.atHome (h : s.IssuedBy r) (sc acquire release : Bool) (a n : Nat) (new : Option Nat) :
    (Claims.atHome r sc acquire release a n new s).IssuedBy r := by
  obtain ⟨q, hq, hk⟩ := h.ordering sc
  rw [atHome_of_sc, atHome_eq hq (Rod.uid_of_agent hk)]
  exact (State.IssuedBy.undisturbed ⟨q, hq, hk⟩ (State.storedAtHome_undisturbed _ q release a n new)).alter
    fun _ => rfl

/-- An access at the home of its bytes reads as before outside them (R168). -/
theorem atHome_other (r : Rod) (sc acquire release : Bool) {a n y : Nat} (new : Option Nat) (hy : ¬ Claims.within a n y)
    (s : State) : Memory.read (Claims.atHome r sc acquire release a n new s).mem y = Memory.read s.mem y := by
  rw [atHome_of_sc]
  have hs : (if sc then Claims.ordered r 4 s else s).mem = s.mem := by cases sc <;> simp
  generalize (if sc then Claims.ordered r 4 s else s) = t at hs
  rw [← hs]
  unfold Claims.atHome Claims.returning
  simp only [Bool.false_eq_true, if_false, State.alter_mem]
  cases new with
  | some x => exact t.rodWrite_other _ _ hy
  | none => exact congrArg (Memory.read · y) (t.installOwn_mem _ _)

end
end Sys2Proof.Machine
end


section
/-!
The settling of O29: what the atomics, STN and release stores leave at the homes.
-/

namespace Sys2Proof.Machine

/-- One part's effect of an atomic of the rod `r` at the address that it has reached (R328). -/
def M.atomicPart (o : BitVec 2) (size : Nat) (step : Rod → Option Nat → Nat → Option Nat) (back : Bool) (d : BitVec 7)
    (r : Rod) : Option Nat × Nat → M Unit := fun (b, a) => do
  let old ← M.atHome (decide (o.toNat = 0)) (decide (o.toNat = 0 ∨ o.toNat = 2)) (decide (o.toNat = 0 ∨ o.toNat = 3)) a
    size (step r b)
  if back then onRod (modify fun q => q.setOperand b (decide (size = 8)) d (BitVec.ofNat 64 old)) else pure ()

/-- A part's turn of an atomic whose rod begins its effect as `p`: the access at the home, and the old value in the data
register if the atomic returns it (R328). -/
def atomicStep (o : BitVec 2) (size : Nat) (step : Rod → Option Nat → Nat → Option Nat) (back : Bool) (d : BitVec 7)
    (r p : Rod) (at_ : Option Nat → Nat) (x : State) (b : Option Nat) : State :=
  let y := Claims.atHome r (decide (o.toNat = 0)) (decide (o.toNat = 0 ∨ o.toNat = 2)) (decide (o.toNat = 0 ∨ o.toNat = 3))
    (at_ b) size (step p b (x.natAt (at_ b) size)) x
  if back then y.alter r.uid fun q => q.setOperand b (decide (size = 8)) d (BitVec.ofNat 64 (x.natAt (at_ b) size)) else y

theorem Rod.setOperand_agent (r : Rod) (b : Option Nat) (w : Bool) (d : BitVec 7) (x : Dword) :
    (r.setOperand b w d x).agent = r.agent := by
  unfold Rod.setOperand Rod.setDword Rod.setWord
  split <;> split <;> rfl

section
variable {s t : State} {r p : Rod} {i : Instr} {u : Bool} {c : BitVec 4} {wide : Bool} {off : BitVec 7} {o : BitVec 2}
  {size : Nat} {step : Rod → Option Nat → Nat → Option Nat} {back : Bool} {d : BitVec 7} {at_ : Option Nat → Nat}
  {b : Option Nat}

theorem M.atomicPart_ok (h : t.IssuedBy r) : M.atomicPart o size step back d p (b, at_ b) t =
    (.ok (), atomicStep o size step back d r p at_ t b) ∧ (atomicStep o size step back d r p at_ t b).IssuedBy r := by
  have hissued (new : Option Nat) := h.atHome (decide (o.toNat = 0)) (decide (o.toNat = 0 ∨ o.toNat = 2))
    (decide (o.toNat = 0 ∨ o.toNat = 3)) (at_ b) size new
  unfold M.atomicPart atomicStep
  dsimp only
  rw [M.bind_ok (M.atHome_ordered_ok h _ _ _ _ _ _)]
  exact ⟨M.when_ok (onRod_alter (hissued _) _), ((hissued _).alter fun q => q.setOperand_agent ..).ite (hissued _)⟩

/-- An atomic whose parts reach their addresses acts part after part (R328). -/
theorem executeAtomic_steps (h : Issues s r i) (hl : lazyCommits i = false)
    (hr : ∀ b ∈ r.parts u, Claims.Reaches (s.begun r i) r (r.cap c.toNat) ⟨false, false, true, false, false⟩
      (Claims.byteOffset r b wide off size) size .home (at_ b)) :
    ∃ p, executeAtomic i u c wide off o size step back d s =
      .next (((r.parts u).foldl (atomicStep o size step back d r p at_) (s.begun r i)).through r i) := by
  obtain ⟨p, hp, hk⟩ := State.curRod?_begun_alike h hl
  have hreached := M.reachAll_issuing (offset := fun r b => r.offset b wide off * size) hk hp
    (fun b => congrArg (· * size) (congrArg BitVec.toNat ((hk.agrees b).operand wide off))) hr
  obtain ⟨hloop, hend⟩ := M.forM_reached (f := M.atomicPart o size step back d p) (P := State.IssuedBy r)
    (bs := r.parts u) (at_ := at_) (fun b t ht => M.atomicPart_ok ht) (State.begun_issuedBy h hl)
  refine ⟨p, execute_issued h hl ?_ hend⟩
  rw [M.bind_ok (M.rod_apply hp), M.bind_ok hreached]
  exact hloop

/-- A part's turn of an atomic reads as before outside its bytes. -/
theorem atomicStep_other {y : Nat} (hy : ¬ Claims.within (at_ b) size y) :
    Memory.read (atomicStep o size step back d r p at_ t b).mem y = Memory.read t.mem y := by
  unfold atomicStep
  dsimp only
  split
  · rw [State.alter_mem]
    exact atHome_other _ _ _ _ _ hy t
  · exact atHome_other _ _ _ _ _ hy t

/-- The parts' turns of a commit point, after its commit, read as before outside the parts and the lines. -/
theorem turns_other {turn : State → Option Nat → State} {n y : Nat} (h : Issues s r i) (hc : commits i = true)
    (hl : lazyCommits i = false) (hy : ¬ Claims.committing s r y) (hout : ∀ b ∈ r.parts u, ¬ Claims.within (at_ b) n y)
    (hturn : ∀ b t, ¬ Claims.within (at_ b) n y → Memory.read (turn t b).mem y = Memory.read t.mem y) :
    Memory.read (((r.parts u).foldl turn (s.begun r i)).through r i).mem y = Memory.read s.mem y := by
  rw [State.through_mem, foldl_turns_other fun b hb t => hturn b t (hout b hb), State.begun_other h hc hl hy]

/-- An atomic that reaches its addresses reads as before outside its bytes and the lines of its commit. -/
theorem executeAtomic_other {y : Nat} (h : Issues s r i) (hc : commits i = true) (hl : lazyCommits i = false)
    (hr : ∀ b ∈ r.parts u, Claims.Reaches (s.begun r i) r (r.cap c.toNat) ⟨false, false, true, false, false⟩
      (Claims.byteOffset r b wide off size) size .home (at_ b))
    (he : executeAtomic i u c wide off o size step back d s = .next t) (hy : ¬ Claims.committing s r y)
    (hout : ∀ b ∈ r.parts u, ¬ Claims.within (at_ b) size y) : Memory.read t.mem y = Memory.read s.mem y := by
  obtain ⟨p, hp⟩ := executeAtomic_steps (o := o) (step := step) (back := back) (d := d) h hl hr
  obtain rfl := Host.Outcome.next.inj (hp.symm.trans he)
  exact turns_other h hc hl hy hout fun b t => atomicStep_other

end
end Sys2Proof.Machine

namespace Sys2Proof.Claims

open Sys2Proof.Machine

theorem exec_acas_eq (f : ShAcas) : exec (.acas f) = executeAtomic (.acas f) f.u f.c f.x f.f f.o (if f.w then 8 else 4)
    (fun r b old => if old = (r.operand b f.w f.d).toNat then
      some (r.operand b f.w (next f.d (if f.w && !f.u then 2 else 1))).toNat else none) true f.d := rfl

theorem exec_amax64_eq (f : ShMemNW) : exec (.amax64 f) = executeAtomic (.amax64 f) f.u f.c f.x f.f f.o 8
    (fun r b old => if old < (r.dword b f.d).toNat then some (r.dword b f.d).toNat else none) false f.d := rfl

theorem executeAtom_eq (i : Instr) (f : ShAtom) (size : Nat) (n : Bool) :
    executeAtom i f size n = executeAtomic i f.u f.c f.x f.f f.o size (fun r b old =>
      some (atomValue f.p (8 * size) n old (r.operand b (decide (size = 8)) f.d).toNat)) true f.d := rfl

/-- Every atomic has the one meaning of an atomic, and is a commit point (R146, R328). -/
theorem exec_atomic_eq {i : Instr} {x : Atomic} (hx : atomicOf i = some x) : commits i = true ∧ lazyCommits i = false ∧
    ∃ o step back, exec i = executeAtomic i x.u x.c x.x x.f o x.size step back x.d := by
  unfold atomicOf at hx
  split at hx
  case h_7 => cases hx
  all_goals
    obtain rfl := Option.some.inj hx
    refine ⟨rfl, rfl, ?_⟩
  case h_1 f => exact ⟨_, _, _, exec_acas_eq f⟩
  case h_2 f => exact ⟨_, _, _, exec_amax64_eq f⟩
  case h_3 f => exact ⟨_, _, _, executeAtom_eq (.atomS32 f) f 4 false⟩
  case h_4 f => exact ⟨_, _, _, executeAtom_eq (.atomN32 f) f 4 true⟩
  case h_5 f => exact ⟨_, _, _, executeAtom_eq (.atomS64 f) f 8 false⟩
  case h_6 f => exact ⟨_, _, _, executeAtom_eq (.atomN64 f) f 8 true⟩

/-- Settles O29: an access at its home writes its own bytes alone, and so does the commit before it. -/
theorem homeWritesFrame : Obligations.HomeWritesFrame := by
  unfold Obligations.HomeWritesFrame
  rintro s t r i u n at_ (⟨x, hx, rfl, rfl, hr⟩ | ⟨f, rfl, rfl, rfl, hr⟩ | ⟨f, rfl, ho, rfl, rfl, hr⟩) h he y hy hout
  · obtain ⟨hc, hl, o, step, back, hexec⟩ := exec_atomic_eq hx
    exact executeAtomic_other h hc hl hr (hexec ▸ he) hy hout
  · obtain rfl := Host.Outcome.next.inj ((nibbleStoresComplete s r f at_ h hr).symm.trans he)
    exact turns_other h rfl rfl hy hout fun b t hb => atHome_other r _ _ _ _ hb t
  · have hstores := storesComplete s r f at_ h (by simpa only [if_pos ho] using hr)
    obtain rfl := Host.Outcome.next.inj (hstores.symm.trans he)
    refine turns_other h (decide_eq_true ho) rfl hy hout fun b t hb => ?_
    simp only [if_pos ho]
    exact t.rodWrite_other _ _ hb

end Sys2Proof.Claims
end


section
/-!
SUPPORT. What a write at the homes leaves: memory reads back as written, the rods that wait for the write are told, and beside
them the copies of lines and the messages of the dies alone change (R160, R165).
-/

namespace Sys2Proof.Machine

/-! ### Bytes of numbers -/

theorem getElem_bytesOfNat (n x i : Nat) (h : i < (bytesOfNat n x).length) :
    (bytesOfNat n x)[i] = BitVec.ofNat 8 (x / 256 ^ i) := by
  induction n generalizing x i with
  | zero => exact absurd h (Nat.not_lt_zero i)
  | succ n ih =>
    cases i with
    | zero => simp [bytesOfNat]
    | succ i =>
      simp only [bytesOfNat, List.getElem_cons_succ]
      rw [ih, Nat.div_div_eq_div_mul, Nat.pow_succ']

theorem natOfBytes_bytesOfNat (n x : Nat) : natOfBytes (bytesOfNat n x) = x % 256 ^ n := by
  induction n generalizing x with
  | zero => simp [bytesOfNat, natOfBytes, Nat.mod_one]
  | succ n ih =>
    rw [bytesOfNat, natOfBytes, ih, BitVec.toNat_ofNat, Nat.pow_succ' (n := n), Nat.mod_mul]

theorem take_bytesOfNat (k n x : Nat) (h : k ≤ n) : (bytesOfNat n x).take k = bytesOfNat k x := by
  induction n generalizing x k with
  | zero => obtain rfl := Nat.le_zero.mp h; rfl
  | succ n ih =>
    cases k with
    | zero => rfl
    | succ k => simp [bytesOfNat, ih k (x / 256) (by omega)]

/-! ### What memory reads after a write -/

/-- A byte of those placed at an address reads as placed. -/
theorem Memory.read_writeAll_placed {m : Memory} (h : m.wf = true) (a : Nat) (bs : List Byte) (i : Nat) (hi : i < bs.length) :
    (m.writeAll (placed a bs)).read (a + i) = bs[i] := by
  induction bs generalizing m a i with
  | nil => exact absurd hi (Nat.not_lt_zero i)
  | cons b bs ih =>
    have hwf := Memory.write_wf a b h
    cases i with
    | zero =>
      refine (Memory.read_writeAll_other (placed (a + 1) bs) _ hwf fun w hw he => ?_).trans ?_
      · have := placed_mem hw
        omega
      · rw [Memory.read_write a b _ h, if_pos (Nat.add_zero a)]
        rfl
    | succ i =>
      have := ih hwf (a + 1) i (Nat.lt_of_succ_lt_succ hi)
      rw [show a + 1 + i = a + (i + 1) by omega] at this
      exact this

section
variable {s t : State}

theorem State.bytesAt_congr (h : t.mem = s.mem) (a n : Nat) : t.bytesAt a n = s.bytesAt a n := by
  unfold State.bytesAt
  rw [h]

theorem State.natAt_congr (h : t.mem = s.mem) (a n : Nat) : t.natAt a n = s.natAt a n := by
  unfold State.natAt
  rw [State.bytesAt_congr h]

/-- The bytes placed at an address are read there. -/
theorem State.bytesAt_writeAll {m : Memory} {a : Nat} {bs : List Byte} (h : m.wf = true) (hm : t.mem = m.writeAll (placed a bs)) {n : Nat}
    (hn : n ≤ bs.length) : t.bytesAt a n = bs.take n := by
  refine List.ext_getElem ?_ fun i hi _ => ?_
  · simp [State.bytesAt, hn]
  · simp only [State.bytesAt, List.getElem_map, List.getElem_range, List.getElem_take]
    rw [hm, Memory.read_writeAll_placed h]

/-- The low bytes of a number written at an address are read there as a number. -/
theorem State.natAt_writeAll {m : Memory} (h : m.wf = true) {a n k x : Nat}
    (hm : t.mem = m.writeAll (placed a (bytesOfNat n x))) (hk : k ≤ n) : t.natAt a k = x % 256 ^ k := by
  unfold State.natAt
  rw [State.bytesAt_writeAll h hm (by rwa [bytesOfNat_length]), take_bytesOfNat k n x hk, natOfBytes_bytesOfNat]

end

/-! ### What else a write changes -/

/-- The state `t` is the state `s` after messages between the dies (R165). -/
def State.Messaged (s t : State) : Prop :=
  t = { s with
    clocks := t.clocks, stampDue := t.stampDue, stampSince := t.stampSince, dieMsgs := t.dieMsgs, dieCopies := t.dieCopies }

section
variable {s t x : State}

theorem State.Messaged.trans (h : s.Messaged t) (h' : t.Messaged x) : s.Messaged x := by
  unfold State.Messaged at *
  rw [h', h]

theorem State.Messaged.foldl {α : Type} {f : State → α → State} (hf : ∀ (s : State) (a : α), s.Messaged (f s a)) (as : List α)
    (s : State) : s.Messaged (as.foldl f s) := by
  induction as generalizing s with
  | nil => rfl
  | cons a as ih => exact (hf s a).trans (ih (f s a))

theorem State.installOwn_messaged (s : State) (d l : Nat) : s.Messaged (s.installOwn d l) := by
  simp only [State.installOwn]
  split <;> rfl

/-- An update of a line goes from its home to a die that holds a copy (R165). -/
theorem State.update_messaged (s : State) (d l e : Nat) :
    let vc := setNth (nth [] s.clocks d) d (nth 0 (nth [] s.clocks d) d + 1)
    s.Messaged (State.dueTokens { s with
      clocks := setNth s.clocks d vc, dieMsgs := s.dieMsgs ++ [⟨d, e, vc, some (l, s.fresh)⟩] } d e) := rfl

theorem State.sendUpdates_messaged (w : Option Nat) (ls : List Nat) (s : State) : s.Messaged (s.sendUpdates w ls) := by
  induction ls generalizing s with
  | nil => rfl
  | cons l ls ih =>
    refine State.Messaged.trans ?_ (ih _)
    have hsent := State.Messaged.foldl (fun s e => s.update_messaged (homeDieOf (l * 128)) l e)
      ((s.dieCopies.filter fun c => decide (c.line = l ∧ c.die ≠ homeDieOf (l * 128))).map DieCopy.die) s
    cases w with
    | none => exact hsent
    | some d => exact hsent.trans (State.installOwn_messaged _ d l)

/-- The state `t` is the state `s` after some bytes were written at their homes: rods that wait for them are told. -/
def State.Wrote (ws : List (Nat × Byte)) (s t : State) : Prop :=
  t = { s with
    mem := Memory.writeAll s.mem ws, rods := s.rods.map (wakeOnWrite ws (linesOf ws)), dirty := t.dirty
    volatile := t.volatile, reckoners := t.reckoners, clocks := t.clocks, stampDue := t.stampDue
    stampSince := t.stampSince, dieMsgs := t.dieMsgs, dieCopies := t.dieCopies }

theorem State.homeWrite_wrote (s : State) (ws : List (Nat × Byte)) : s.Wrote ws (s.homeWrite ws) := by
  have h := State.sendUpdates_messaged none (linesOf ws) { s with
    mem := Memory.writeAll s.mem ws
    dirty := (linesOf ws).foldl addDirty s.dirty
    volatile := s.volatile ++ (linesOf ws).filter fun l => decide (field (l * 128) 50 2 = 1) && !s.volatile.contains l
    rods := s.rods.map (wakeOnWrite ws (linesOf ws))
    reckoners := s.reckoners.map fun k => k.lose (linesOf ws) }
  unfold State.Messaged at h
  unfold State.Wrote State.homeWrite State.writeFrom
  rw [h]

theorem State.homeWriteNat_wrote (s : State) (a n x : Nat) :
    s.Wrote (placed a (bytesOfNat n x)) (s.homeWriteNat a n x) := s.homeWrite_wrote _

/-- A number written at its home is read there. -/
theorem State.natAt_homeWriteNat (h : s.memoryCanonical) (a : Nat) {n k : Nat} (x : Nat) (hk : k ≤ n) :
    (s.homeWriteNat a n x).natAt a k = x % 256 ^ k :=
  State.natAt_writeAll h (State.homeWrite_mem s _) hk

end
end Sys2Proof.Machine
end


section
/-!
SUPPORT. The end of a page walk: what it finds (R137, R138), what it caches and marks (R138, R140 to R142), and what becomes of the
queries that wait for it (R141, R192).
-/

namespace Sys2Proof.Machine

/-! ### What the caches take -/

theorem State.choose_fresh (s : State) (n : Nat) : ∃ k, (s.choose n).2 = { s with fresh := k } := by
  unfold State.choose
  split
  · exact ⟨s.fresh, rfl⟩
  · exact ⟨s.fresh + 1, rfl⟩

theorem State.evict_fresh {α : Type} (s : State) (limit : Nat) (p : α → Bool) (xs : List α) :
    ∃ k, (s.evict limit p xs).2 = { s with fresh := k } := by
  simp only [State.evict]
  split
  · exact ⟨s.fresh, rfl⟩
  · exact s.choose_fresh _

/-- A translation that enters its place stands first among the cached ones (R140). -/
theorem State.fillTlb_eq (s : State) (e : TlbEntry) : ∃ k kept, s.fillTlb e = { s with fresh := k, tlb := e :: kept } := by
  unfold State.fillTlb
  split
  all_goals
    obtain ⟨k, hk⟩ := State.evict_fresh s _ _ _
    dsimp only
    rw [hk]
    exact ⟨k, _, rfl⟩

theorem State.fillWalkCache_eq (table asid va : Nat) (es : List (Nat × Nat × Nat)) (s : State) :
    ∃ k c, s.fillWalkCache table asid va es = { s with fresh := k, walkCache := c } := by
  induction es generalizing s with
  | nil => exact ⟨s.fresh, s.walkCache, rfl⟩
  | cons e es ih =>
    unfold State.fillWalkCache
    dsimp only
    split
    · exact ih s
    · obtain ⟨k, hk⟩ := State.evict_fresh s 256 (fun w : WalkEntry => decide (w.table = table)) s.walkCache
      rw [hk]
      obtain ⟨j, c, h⟩ := ih _
      exact ⟨j, c, h⟩

/-! ### The leaf that a walk finds -/

theorem decide_field_one (x i : Nat) : decide (field x i 1 = 1) = x.testBit i := by
  rw [Nat.testBit_eq_decide_div_mod_eq, field, pow_one]

theorem field_one_eq_zero (x i : Nat) : field x i 1 = 0 ↔ x.testBit i = false := by
  rw [← decide_field_one, decide_eq_false_iff_not, field, pow_one]
  omega

theorem field_one_eq_one (x i : Nat) : field x i 1 = 1 ↔ x.testBit i = true := by
  rw [← decide_field_one, decide_eq_true_iff]

/-- The leaf that a walk ends in is read from memory, and the walk answers it (R137, R138). -/
theorem State.walk_of_leafAt {s t : State} {look : Nat → Option Nat} {va : Nat} {levels : List (Nat × Nat × Nat)}
    {table a e size : Nat} (hmem : t.mem = s.mem) (hbad : t.badLines = s.badLines) (absent : Nat)
    (h : Claims.leafAt s look va levels table a e size) :
    e = s.natAt a 8 ∧ ∃ path, t.walk look va absent levels table = .ok ⟨path, a, e, size⟩ := by
  have hdamaged (x n : Nat) : t.damaged x n = s.damaged x n := by
    unfold State.damaged
    rw [hbad]
  induction levels generalizing table with
  | nil => exact h.elim
  | cons level levels ih =>
    obtain ⟨bits, width, nextBits⟩ := level
    unfold Claims.leafAt at h
    obtain ⟨hsound, hvalid, hgood, hend⟩ := h
    have hread : ¬ ((look (table + 8 * field va bits width)).isNone && t.damaged (table + 8 * field va bits width) 8) = true := by
      rw [hdamaged, Bool.and_eq_true, Option.isNone_iff_eq_none]
      rintro ⟨hlook, hd⟩
      exact absurd (hsound hlook) (by simp [hd])
    unfold State.walk
    dsimp only
    rw [State.natAt_congr hmem, if_neg hread, if_neg (by rw [field_one_eq_zero]; simp [hvalid]), if_neg (by simp [hgood])]
    split at hend
    · next hleaf =>
      obtain ⟨hlook, rfl, rfl, rfl⟩ := hend
      rw [if_pos ((field_one_eq_one _ _).mpr hleaf)]
      exact ⟨by simp [hlook], [], rfl⟩
    · next hleaf =>
      rw [if_neg (fun hf => hleaf ((field_one_eq_one _ _).mp hf))]
      obtain ⟨he, path, hpath⟩ := ih hend
      rw [hpath]
      exact ⟨he, _, rfl⟩

/-! ### The marks of a leaf -/

theorem markedLeaf_testBit_three (e : Nat) (write : Bool) : (markedLeaf e write).testBit 3 = true := by
  rw [Nat.testBit_eq_decide_div_mod_eq, decide_eq_true_iff]
  unfold markedLeaf
  split <;> omega

theorem markedLeaf_testBit_four (e : Nat) (write : Bool) : (markedLeaf e write).testBit 4 = (write || e.testBit 4) := by
  rw [← decide_field_one e 4, Nat.testBit_eq_decide_div_mod_eq]
  unfold markedLeaf
  cases write || decide (field e 4 1 = 1) <;> simp <;> omega

/-- A byte of which bit 3 is set has A (R138). -/
theorem accessed_of_getLsbD : ∀ y : Byte, y.getLsbD 3 = true → y &&& 0x08 = 0x08 := by decide

/-- A byte of which bit 4 is set has D (R138). -/
theorem dirty_of_getLsbD : ∀ y : Byte, y.getLsbD 4 = true → y &&& 0x10 = 0x10 := by decide

/-- The leaf with its marks is in memory (R138, R142): it is written where a mark is new. -/
def State.markLeaf (s : State) (a e e' : Nat) : State := if e' = e then s else s.homeWriteNat a 8 e'

section
variable {s t : State} {a e e' : Nat}

/-- The first byte of a number in memory. -/
theorem State.read_of_natAt {n : Nat} (h : e = s.natAt a (n + 1)) : Memory.read s.mem a = BitVec.ofNat 8 e := by
  have hfirst : s.bytesAt a (n + 1) = Memory.read s.mem a :: (s.bytesAt a (n + 1)).tail := by
    simp [State.bytesAt, List.range_succ_eq_map]
  rw [h, State.natAt, hfirst, natOfBytes]
  apply BitVec.eq_of_toNat_eq
  have hlt := (Memory.read s.mem a).isLt
  simp only [BitVec.toNat_ofNat]
  omega

theorem State.read_markLeaf (h : s.memoryCanonical) (he : e = s.natAt a 8) :
    Memory.read (s.markLeaf a e e').mem a = BitVec.ofNat 8 e' := by
  unfold State.markLeaf
  split
  · next heq =>
    subst heq
    exact State.read_of_natAt he
  · have hfirst := Memory.read_writeAll_placed h a (bytesOfNat 8 e') 0 (by simp [bytesOfNat_length])
    rw [getElem_bytesOfNat] at hfirst
    simpa [State.homeWriteNat] using hfirst

theorem State.markLeaf_walks (s : State) (a e e' : Nat) : (s.markLeaf a e e').walks = s.walks := by
  unfold State.markLeaf
  split
  · rfl
  · rw [s.homeWriteNat_wrote a 8 e']

end

/-- The translation that a leaf gives an address (R138, R140). -/
def leafEntry (asid va bits e : Nat) (write : Bool) : TlbEntry :=
  ⟨none, asid, va / 2 ^ bits, bits, pteAddr e, field e 5 2, e.testBit 2, write || e.testBit 4⟩

/-- A walk that ends in a valid leaf, which permits writes where it is for a write, caches its translation and marks the leaf
(R138, R140, R142). -/
theorem State.walkFill_of_leaf {s : State} {asid va a e bits : Nat} {write : Bool} {path : List (Nat × Nat × Nat)}
    (h : s.walk (s.walkLook (tableOfSlice (tlbSliceOf asid 16 (va / 65536))) asid) va 0 ptLevels (s.ctxField asid 0 52) =
      .ok ⟨path, a, e, bits⟩) (hw : write = true → e.testBit 2 = true) :
    ∃ k c kept, s.walkFill asid va write = (.ok (leafEntry asid va bits e write),
      { s.markLeaf a e (markedLeaf e write) with fresh := k, walkCache := c, tlb := leafEntry asid va bits e write :: kept }) := by
  have hand : (write && e.testBit 2) = write := by
    cases write with
    | true => simp [hw rfl]
    | false => rfl
  obtain ⟨j, c, hc⟩ := State.fillWalkCache_eq (tableOfSlice (tlbSliceOf asid 16 (va / 65536))) asid va path
    (s.markLeaf a e (markedLeaf e write))
  obtain ⟨k, kept, ht⟩ := State.fillTlb_eq { s.markLeaf a e (markedLeaf e write) with fresh := j, walkCache := c }
    (leafEntry asid va bits e write)
  refine ⟨k, c, kept, ?_⟩
  unfold State.walkFill
  simp only [h, decide_field_one, hand, markedLeaf_testBit_four]
  rw [← ht, ← hc]
  rfl

/-! ### The queries that wait for a walk -/

/-- The rod waits for a walk (R141). -/
def Rod.Walking (q : Rod) : Prop := ∃ va kind k tk c, q.status = .asleep (.walk va kind k) tk c

/-- The state `t` is the state `s`, as far as walks go, after the rods named in `us` have stopped waiting for one. -/
structure State.Served (us : List Nat) (s t : State) : Prop where
  walks : t.walks = s.walks
  tlb : t.tlb = s.tlb
  mem : t.mem = s.mem
  rods : ∀ q ∈ t.rods, q.Walking → q ∈ s.rods ∧ q.uid ∉ us

namespace State.Served

variable {s t x : State} {us vs : List Nat} {u : Nat}

theorem of_rods_eq (hw : t.walks = s.walks) (ht : t.tlb = s.tlb) (hm : t.mem = s.mem) (hr : t.rods = s.rods) : s.Served [] t :=
  ⟨hw, ht, hm, fun _ hq _ => ⟨hr ▸ hq, List.not_mem_nil⟩⟩

theorem trans (h : s.Served us t) (h' : t.Served vs x) : s.Served (us ++ vs) x where
  walks := h'.walks.trans h.walks
  tlb := h'.tlb.trans h.tlb
  mem := h'.mem.trans h.mem
  rods q hq hwalking := by
    obtain ⟨hmid, hvs⟩ := h'.rods q hq hwalking
    obtain ⟨hs, hus⟩ := h.rods q hmid hwalking
    exact ⟨hs, fun hmem => (List.mem_append.mp hmem).elim hus hvs⟩

theorem foldl {α : Type} {f : State → α → State} (hf : ∀ (s : State) (a : α), s.Served [] (f s a)) (as : List α) (s : State) :
    s.Served [] (as.foldl f s) := by
  induction as generalizing s with
  | nil => exact of_rods_eq rfl rfl rfl rfl
  | cons a as ih => exact (hf s a).trans (ih (f s a))

/-- The rods of a name stop waiting. -/
theorem of_modRod (s : State) (u : Nat) {f : Rod → Rod} (hf : ∀ q, ¬ (f q).Walking) : s.Served [u] (s.modRod u f) where
  walks := rfl
  tlb := rfl
  mem := rfl
  rods _ hq hwalking := by
    obtain ⟨p, hp, rfl⟩ := List.mem_map.mp hq
    split at hwalking
    · exact absurd hwalking (hf p)
    · next hne =>
      rw [if_neg hne]
      exact ⟨hp, fun hu => hne (List.mem_singleton.mp hu)⟩

end State.Served

section
variable {s t : State} {e : TlbEntry}

theorem Rod.not_walking_of_ready {q : Rod} (h : q.status = .ready) : ¬ q.Walking := by
  rintro ⟨va, kind, k, tk, c, hs⟩
  rw [h] at hs
  cases hs

theorem Rod.not_walking_of_parked {q : Rod} {p : Park} (h : q.status = .parked p) : ¬ q.Walking := by
  rintro ⟨va, kind, k, tk, c, hs⟩
  rw [h] at hs
  cases hs

/-- A rod whose page is not there parks (R152). -/
theorem State.takePage_served (s : State) (u : Nat) (b : Option Nat) (va kind : Nat) : s.Served [u] (s.takePage u b va kind) := by
  unfold State.takePage
  split
  · next hnone =>
    refine ⟨rfl, rfl, rfl, fun q hq _ => ⟨hq, fun hu => ?_⟩⟩
    exact absurd (List.find?_eq_none.mp hnone q hq) (by simpa using hu)
  · obtain ⟨hw, ht, hm, hr⟩ := State.Served.of_modRod s u
      (f := fun r => { r.noLines with resume := 0, status := .parked ⟨1, kind, b, BitVec.ofNat 64 va, none, none⟩ })
      fun q => Rod.not_walking_of_parked rfl
    exact ⟨hw, ht, hm, hr⟩

/-- What a query makes of a translation: it goes on, or finds that its page forbids writes (R152). -/
theorem xlEnd_ok (kind : Nat) (e : TlbEntry) : xlEnd kind (.ok e) = .ok e ∨ xlEnd kind (.ok e) = .error (.absent 2) := by
  by_cases h : kind = 1 ∧ (!e.wr) = true
  · exact .inr (if_pos h)
  · exact .inl (if_neg h)

/-- Every rod that a walk's end serves stops waiting (R141). -/
theorem State.walkServed_served (s : State) (e : TlbEntry) (ws : List (Nat × Nat × Nat × Option Nat)) :
    s.Served (ws.map Prod.fst) (s.walkServed (.ok e) ws) := by
  induction ws generalizing s with
  | nil => exact .of_rods_eq rfl rfl rfl rfl
  | cons w ws ih =>
    obtain ⟨u, va, kind, b⟩ := w
    unfold State.walkServed
    dsimp only
    refine State.Served.trans (us := [u]) ?_ (ih _)
    obtain h | h := xlEnd_ok kind e
    · rw [h]
      exact .of_modRod s u fun q => Rod.not_walking_of_ready rfl
    · rw [h]
      exact s.takePage_served u b va 2

/-- A request that waits for a fault record changes neither rods, memory nor walks (R192, R268). -/
theorem State.markWalker_served (s : State) (w : Walker) : s.Served [] (s.markWalker w) := by
  have hwindow (s : State) (f n : Nat) (g : Window → Window) : s.Served [] (s.modWindow f n g) := .of_rods_eq rfl rfl rfl rfl
  cases w with
  | rod u => exact .of_rods_eq rfl rfl rfl rfl
  | window f n =>
    unfold State.markWalker State.windowWaits
    dsimp only
    split
    · exact .of_rods_eq rfl rfl rfl rfl
    · exact State.Served.trans (State.Served.foldl (fun s k => hwindow s f k _) _ s) (hwindow _ f n _)
  | engine e => exact .of_rods_eq rfl rfl rfl rfl
  | unit_ u => exact .of_rods_eq rfl rfl rfl rfl
  | raster b => exact .of_rods_eq rfl rfl rfl rfl

/-- An engine request that waited for a walk goes on, or its page fault waits for a record (R141, R192). -/
theorem State.requestServed_served (s : State) (e : TlbEntry) (w : FabricWait) : s.Served [] (s.requestServed (.ok e) w) := by
  unfold State.requestServed
  split
  · next kind agent _ =>
    dsimp only
    obtain h | h := xlEnd_ok kind e
    · rw [h]
      exact .of_rods_eq rfl rfl rfl rfl
    · rw [h]
      obtain ⟨hw, ht, hm, hr⟩ := { s with fabricWaits := s.fabricWaits.erase w }.markWalker_served w.who
      exact ⟨hw, ht, hm, hr⟩
  · exact .of_rods_eq rfl rfl rfl rfl

/-- A rod that waits for the walk is among those that its end serves (R141). -/
theorem State.mem_walkWaiters {w : Walk} {q : Rod} {va kind k tk c : Nat} (hq : q ∈ s.rods) (ha : q.asid = w.asid)
    (hp : va / 65536 = w.page) (hs : q.status = .asleep (.walk va kind k) tk c) :
    q.uid ∈ (s.walkWaiters w).map Prod.fst := by
  have hmem : (q.uid, va, kind, if kind = 3 ∨ s.uniformAt q then none else some k) ∈ s.walkWaiters w := by
    refine List.mem_filterMap.mpr ⟨q, hq, ?_⟩
    rw [hs]
    exact if_pos ⟨ha, hp⟩
  exact List.mem_map_of_mem hmem

end
end Sys2Proof.Machine
end


section
/-!
The settling of O43: walks, fault records, port faults and stalls.
-/

namespace Sys2Proof.Machine

/-! ### The end of a walk -/

/-- The walk is no longer asked for. -/
def State.dropWalk (s : State) (w : Walk) : State := { s with walks := s.walks.erase w }

/-- The one walk under way ends: its waiters and the requests that wait for it are served (R141). -/
theorem exec_pageWalkComplete_eq {s t : State} {w : Walk} {e : TlbEntry} (h : s.walksUnderWay = [w])
    (hfill : (s.dropWalk w).walkFill w.asid (65536 * w.page) w.write = (.ok e, t)) :
    exec .pageWalkComplete s = .next ((t.walkRequests w).foldl (fun (s : State) f => s.requestServed (.ok e) f)
      (t.walkServed (.ok e) (t.walkWaiters w))) := by
  unfold State.dropWalk at hfill
  show execPageWalkComplete s = _
  unfold execPageWalkComplete
  rw [h]
  simp only [show s.choose [w].length = (0, s) from rfl, List.getElem?_cons_zero, hfill]

theorem State.walkEnd_served (t : State) (w : Walk) (e : TlbEntry) :
    t.Served ((t.walkWaiters w).map Prod.fst) ((t.walkRequests w).foldl (fun (s : State) f => s.requestServed (.ok e) f)
      (t.walkServed (.ok e) (t.walkWaiters w))) := by
  have h := (t.walkServed_served e (t.walkWaiters w)).trans
    (State.Served.foldl (fun s f => State.requestServed_served s e f) (t.walkRequests w) _)
  rwa [List.append_nil] at h

/-- No rod waits for a walk that has served its waiters. -/
theorem State.Served.no_waiter {s t : State} {w : Walk} (h : s.Served ((s.walkWaiters w).map Prod.fst) t) {q : Rod}
    (hq : q ∈ t.rods) {va kind k tk c : Nat} (ha : q.asid = w.asid) (hp : va / 65536 = w.page) :
    q.status ≠ .asleep (.walk va kind k) tk c := by
  intro hs
  obtain ⟨hmem, hnot⟩ := h.rods q hq ⟨va, kind, k, tk, c, hs⟩
  exact hnot (State.mem_walkWaiters hmem ha hp hs)

/-! ### Fault records -/

/-- The state `t` is the state `s` as far as memory, the faults and the rods' names go. -/
structure State.Tagged (s t : State) : Prop where
  mem : t.mem = s.mem
  faultRecs : t.faultRecs = s.faultRecs
  faultWait : t.faultWait = s.faultWait
  uids : t.rods.map Rod.uid = s.rods.map Rod.uid

theorem State.Tagged.trans {s t x : State} (h : s.Tagged t) (h' : t.Tagged x) : s.Tagged x :=
  ⟨h'.mem.trans h.mem, h'.faultRecs.trans h.faultRecs, h'.faultWait.trans h.faultWait, h'.uids.trans h.uids⟩

theorem State.modRod_uids {s : State} (u : Nat) {f : Rod → Rod} (hf : ∀ q, (f q).uid = q.uid) :
    (s.modRod u f).rods.map Rod.uid = s.rods.map Rod.uid := by
  unfold State.modRod
  rw [List.map_map]
  refine List.map_congr_left fun q _ => ?_
  dsimp only [Function.comp]
  split
  · exact hf q
  · rfl

/-- A tag reaches who waits for a record, and no more (R154). -/
theorem State.tagWalker_tagged (s : State) (d n : Nat) (w : Walker) : s.Tagged (s.tagWalker d n w) := by
  cases w with
  | rod u =>
    refine ⟨rfl, rfl, rfl, State.modRod_uids u fun q => ?_⟩
    split
    · split <;> rfl
    · rfl
  | window f k => exact ⟨rfl, rfl, rfl, rfl⟩
  | engine e => exact ⟨rfl, rfl, rfl, rfl⟩
  | unit_ u => exact ⟨rfl, rfl, rfl, rfl⟩
  | raster b => exact ⟨rfl, rfl, rfl, rfl⟩

theorem State.tagAll_tagged (s : State) (d n : Nat) (ws : List Walker) : s.Tagged (s.tagAll d n ws) := by
  unfold State.tagAll
  induction ws generalizing s with
  | nil => exact ⟨rfl, rfl, rfl, rfl⟩
  | cons w ws ih => exact (s.tagWalker_tagged d n w).trans (ih _)

theorem wakeOnWrite_uid (ws : List (Nat × Byte)) (ls : List Nat) (r : Rod) : (wakeOnWrite ws ls r).uid = r.uid :=
  (wakeOnWrite_kept ws ls r).uid

section
variable {s : State} {f x : FaultRec} {fs : List FaultRec}

/-- The oldest fault goes to its queue where the queue can take it (R153). -/
theorem State.recordable_first (h : s.faultWait = f :: fs) (hr : s.recordable f = true) :
    s.faultWait.find? s.recordable = some f ∧ s.faultWait.erase f = fs := by
  rw [h]
  exact ⟨List.find?_cons_of_pos hr, List.erase_cons_head ..⟩

/-- The oldest fault merges into the record of its page (R154). -/
theorem exec_faultRecordWrite_merge (h : s.faultWait = f :: fs) (hx : s.mergeTarget f = some x) :
    exec .faultRecordWrite s = .next ({ s with faultWait := fs }.mergeFault f x) := by
  have hr : s.recordable f = true := by simp [State.recordable, hx]
  obtain ⟨hfind, herase⟩ := State.recordable_first h hr
  show execFaultRecordWrite s = _
  unfold execFaultRecordWrite
  simp only [hfind, herase, hx]

/-- The oldest fault becomes a record where its die's queue has room for it (R153). -/
theorem exec_faultRecordWrite_new (h : s.faultWait = f :: fs) (hx : s.mergeTarget f = none)
    (hplace : (s.faultPlace f.homeDie (nth 0 s.recids f.homeDie)).isSome = true)
    (hroom : s.ringFull f.homeDie (nth 0 s.recids f.homeDie) = false) :
    exec .faultRecordWrite s = .next ({ s with faultWait := fs }.newRecord f) := by
  have hr : s.recordable f = true := by simp [State.recordable, hplace, hroom]
  obtain ⟨hfind, herase⟩ := State.recordable_first h hr
  show execFaultRecordWrite s = _
  unfold execFaultRecordWrite
  simp only [hfind, herase, hx]

end

/-- A fault that merges counts once more in the record of its page, and no longer waits (R154). -/
theorem State.mergeFault_tagged (s : State) (f x : FaultRec) (hx : x ∈ s.faultRecs) : (s.mergeFault f x).faultWait = s.faultWait ∧
    { x with merged := min 65535 (x.merged + 1), who := x.who ++ f.who } ∈ (s.mergeFault f x).faultRecs := by
  have hmem := List.mem_map_of_mem
    (f := fun z => if z = x then { x with merged := min 65535 (x.merged + 1), who := x.who ++ f.who } else z) hx
  rw [if_pos rfl] at hmem
  unfold State.mergeFault
  dsimp only
  split
  all_goals
    obtain ⟨-, hrecs, hwait, -⟩ := State.tagAll_tagged _ x.die x.recid f.who
    rw [hrecs, hwait]
  · exact ⟨rfl, hmem⟩
  · rw [State.homeWriteNat_wrote]
    exact ⟨rfl, hmem⟩

/-- The first field of a record of fields is its low bits. -/
theorem packFields_first (n v : Nat) (xs : List (Nat × Nat)) : packFields ((n, v) :: xs) % 2 ^ n = v % 2 ^ n := by
  rw [packFields, Nat.add_mul_mod_self_left, Nat.mod_mod]

/-- A fault becomes a record at its place (R153). -/
theorem State.newRecord_tagged {s : State} {f : FaultRec} {a : Nat} (hmem : s.memoryCanonical)
    (ha : s.faultPlace f.homeDie (nth 0 s.recids f.homeDie) = some a) :
    (s.newRecord f).faultWait = s.faultWait ∧
      (s.newRecord f).faultRecs = s.faultRecs ++ [{ f with die := f.homeDie, recid := nth 0 s.recids f.homeDie, merged := 0 }] ∧
      (s.newRecord f).natAt a 6 = f.va % 2 ^ 48 ∧ (s.newRecord f).rods.map Rod.uid = s.rods.map Rod.uid := by
  unfold State.newRecord
  simp only [ha]
  generalize hx : ({ f with die := f.homeDie, recid := nth 0 s.recids f.homeDie, merged := 0 } : FaultRec) = x
  generalize hs : ({ s with
    faultRecs := s.faultRecs ++ [x]
    recids := setNth s.recids f.homeDie ((nth 0 s.recids f.homeDie + 1) % 2 ^ 32) } : State) = t
  obtain ⟨htmem, hrecs, hwait, huids⟩ := State.tagAll_tagged (t.homeWriteNat a 32 x.toNat) f.homeDie
    (nth 0 s.recids f.homeDie) f.who
  have hcanonical : t.memoryCanonical := by rw [← hs]; exact hmem
  rw [hwait, hrecs, huids, State.natAt_congr htmem, State.natAt_homeWriteNat hcanonical a x.toNat (by decide),
    t.homeWriteNat_wrote a 32 x.toNat]
  refine ⟨by rw [← hs], by rw [← hs], ?_, ?_⟩
  · rw [← hx]
    exact packFields_first ..
  · rw [← hs, List.map_map]
    exact List.map_congr_left fun q _ => wakeOnWrite_uid ..

/-! ### Imprecise faults and stalls -/

section
variable {s : State}

/-- A rejected access halts its rod's context at the access (R121, R136). -/
theorem exec_portRevokedFault_halts {f : PortFault} {fs : List PortFault} {r : Rod} (h : s.portFaults = f :: fs)
    (hr : s.rod? f.rod = some r) : exec .portRevokedFault s = .next ({ s with portFaults := fs }.raiseHalt r.asid
      ⟨s.clk, 8, f.cause, f.pc, r.frameid, r.rodid, r.core, f.bead, f.info, 0, false, 0, 0, false⟩) := by
  show execPortRevokedFault s = _
  unfold execPortRevokedFault haltOfRod
  simp only [h, hr, BitVec.ofNat_toNat, BitVec.setWidth_eq]

/-- A rod that has stalled as long as it may halts its context (R313). -/
theorem exec_stallTimeout_rod {u tk c limit : Nat} {why : Sleep} {r : Rod} (hr : s.rod? u = some r)
    (hs : r.status = .asleep why tk c) (hend : why.stallEnd c = some limit) (hlimit : limit ≤ s.now) :
    exec (.stallTimeout (.rod u)) s = .next ((s.modRod u fun q => { q with status := .ready }).raiseHalt r.asid
      (haltOfRod s r 10 3 why.stalled.2 why.stalled.1)) := by
  have hready : (s.modRod u fun q => { q with status := .ready }).rod? u = some { r with status := .ready } :=
    State.rod?_modRod_self (fun _ => rfl) hr
  show execStallTimeout (.rod u) s = _
  unfold execStallTimeout
  simp only [hr, hs, hend, if_pos hlimit]
  unfold State.takeTrap
  simp only [hready]
  rfl

/-- An engine request that has stalled as long as it may halts its context (R313). -/
theorem exec_stallTimeout_request {i n : Nat} {w : FabricWait} (hw : s.fabricWaits[i]? = some w)
    (hend : w.for_.limit = some n) (hlimit : w.began + n ≤ s.now) :
    exec (.stallTimeout (.request i)) s = .next ({ s with fabricWaits := s.fabricWaits.erase w }.raiseHalt w.asid
      (haltOfEngine s w.core 10 3 w.va w.frameid)) := by
  show execStallTimeout (.request i) s = _
  unfold execStallTimeout
  simp only [hw, hend, if_pos hlimit]

/-- A committed line that has stalled as long as it may halts its context at the commit point (R313). -/
theorem exec_stallTimeout_line {n limit a : Nat} {i : Inflight} (hi : s.inflight[n]? = some i)
    (hend : s.lineStall i = some (limit, a)) (hlimit : limit ≤ s.now) :
    exec (.stallTimeout (.line n)) s = .next ({ s with inflight := s.inflight.erase i }.raiseHalt i.asid
      (haltOfLine s i (i.vaOf a))) := by
  show execStallTimeout (.line n) s = _
  unfold execStallTimeout
  simp only [hi, hend, if_pos hlimit]

/-- What bars the first byte of a line says how long the line may stall (R313). -/
theorem State.lineStall_of_first {i : Inflight} {a : Nat} {v : Byte} {bs : List (Nat × Byte)} {x : Barred}
    (hbytes : i.bytes = (a, v) :: bs) (hx : s.barred a true = some x) :
    s.lineStall i = some (i.began + x.limit (mtIn i.tags a), a) := by
  unfold State.lineStall State.barredBytes
  rw [hbytes, List.findSome?_cons, hx]
  rfl

end

end Sys2Proof.Machine

namespace Sys2Proof.Claims

open Sys2Proof.Machine

theorem pageWalk_completes {s : State} {w : Walk} {a e bits : Nat} (h : s.walksUnderWay = [w]) (hmem : s.memoryCanonical)
    (hleaf : leafAt s (s.walkLook (tableOfSlice (tlbSliceOf w.asid 16 w.page)) w.asid) (65536 * w.page) ptLevels
      (s.ctxField w.asid 0 52) a e bits) (hwrite : w.write = true → e.testBit 2 = true) :
    ∃ t, exec .pageWalkComplete s = .next t ∧ t.walks = s.walks.erase w ∧
      t.tlb.head? = some ⟨none, w.asid, 65536 * w.page / 2 ^ bits, bits, pteAddr e, field e 5 2, e.testBit 2, w.write || e.testBit 4⟩ ∧
      Memory.read t.mem a &&& 0x08 = 0x08 ∧ (w.write = true → Memory.read t.mem a &&& 0x10 = 0x10) ∧
      ∀ q ∈ t.rods, ∀ va kind k tk c, q.asid = w.asid → va / 65536 = w.page → q.status ≠ .asleep (.walk va kind k) tk c := by
  obtain ⟨he, path, hpath⟩ := State.walk_of_leafAt (s := s) (t := s.dropWalk w) rfl rfl 0 hleaf
  have hpage : 65536 * w.page / 65536 = w.page := by omega
  obtain ⟨k, c, kept, hfill⟩ := State.walkFill_of_leaf (s := s.dropWalk w) (write := w.write) (by rw [hpage]; exact hpath) hwrite
  have hserved := State.walkEnd_served { (s.dropWalk w).markLeaf a e (markedLeaf e w.write) with
    fresh := k, walkCache := c, tlb := leafEntry w.asid (65536 * w.page) bits e w.write :: kept } w
    (leafEntry w.asid (65536 * w.page) bits e w.write)
  have hread := State.read_markLeaf (s := s.dropWalk w) (e' := markedLeaf e w.write) hmem he
  refine ⟨_, exec_pageWalkComplete_eq h hfill, hserved.walks.trans (State.markLeaf_walks _ a e _), ?_, ?_, fun hw => ?_,
    fun q hq va kind k tk c ha hp => hserved.no_waiter hq ha hp⟩
  · rw [hserved.tlb]
    rfl
  · rw [hserved.mem]
    refine accessed_of_getLsbD _ ?_
    rw [hread, BitVec.getLsbD_ofNat, markedLeaf_testBit_three]
    rfl
  · rw [hserved.mem]
    refine dirty_of_getLsbD _ ?_
    rw [hread, BitVec.getLsbD_ofNat, markedLeaf_testBit_four, hw]
    rfl

/-- Settles O43: the end of a walk serves its waiters without changing what it has written, and each fault or stall takes the
one branch that is open to it. -/
theorem translationEventsComplete : Obligations.TranslationEventsComplete := by
  unfold Obligations.TranslationEventsComplete
  refine ⟨fun s w a e bits => pageWalk_completes, fun s f fs h => ⟨fun b hnone hmem hentry hroom => ?_, fun x hx => ?_⟩,
    fun s f fs r => exec_portRevokedFault_halts, fun s u tk c va k why r hr hs hlimit => ?_, fun s i n w hw hlimit hwhy => ?_,
    fun s n a i v bs hi hbytes hlimit => ?_⟩
  · have hplace : s.faultPlace f.homeDie (nth 0 s.recids f.homeDie) =
        some (b + 32 * (nth 0 s.recids f.homeDie % Config.faultRing)) := by
      unfold State.faultPlace
      rw [hentry]
      rfl
    have hfree : s.ringFull f.homeDie (nth 0 s.recids f.homeDie) = false := by
      unfold State.ringFull
      rw [List.any_eq_false]
      exact fun x hx => by simpa using hroom x hx
    exact ⟨_, exec_faultRecordWrite_new h hnone (by rw [hplace]; rfl) hfree,
      State.newRecord_tagged (s := { s with faultWait := fs }) hmem hplace⟩
  · exact ⟨_, exec_faultRecordWrite_merge h hx,
      State.mergeFault_tagged { s with faultWait := fs } f x (List.mem_of_find?_eq_some hx)⟩
  · obtain ⟨page, rfl, hle⟩ | ⟨port, n, rfl, hle⟩ := hlimit
    · exact exec_stallTimeout_rod hr hs rfl hle
    · exact exec_stallTimeout_rod hr hs rfl hle
  · obtain ⟨page, hpage, rfl⟩ | ⟨port, hport⟩ := hwhy
    · exact exec_stallTimeout_request hw (by rw [hpage]; rfl) hlimit
    · exact exec_stallTimeout_request hw (by rw [hport]; rfl) hlimit
  · obtain ⟨page, hx, hle⟩ | ⟨port, hx, hle⟩ := hlimit
    · exact exec_stallTimeout_line hi (State.lineStall_of_first hbytes hx) hle
    · exact exec_stallTimeout_line hi (State.lineStall_of_first hbytes hx) hle

end Sys2Proof.Claims
end


section
/-!
SUPPORT. The bytes that a rod has stored and that are not performed (R148): what a store puts into its tentative lines, and that a
commit which makes room moves them to the lines on their way.
-/

namespace Sys2Proof.Machine

/-! ### Tables that list only some keys -/

theorem Sparse.find_put_same {α : Type} (m : List (Nat × α)) (a : Nat) (v : α) : Sparse.find (Sparse.put m a v) a = some v := by
  induction m with
  | nil => exact if_pos rfl
  | cons p m ih =>
    obtain ⟨b, w⟩ := p
    unfold Sparse.put
    split
    · exact if_pos rfl
    · split
      · exact if_pos rfl
      · next hne => exact (if_neg hne).trans ih

theorem Sparse.find_put_of_ne {α : Type} (m : List (Nat × α)) {a x : Nat} (v : α) (h : a ≠ x) :
    Sparse.find (Sparse.put m a v) x = Sparse.find m x := by
  induction m with
  | nil => exact if_neg h
  | cons p m ih =>
    obtain ⟨b, w⟩ := p
    unfold Sparse.put
    split
    · exact if_neg h
    · split
      · next heq =>
        subst heq
        simp [Sparse.find, h]
      · simp [Sparse.find, ih]

/-- The bytes of a list are put into a table. -/
def putAll (m : List (Nat × Byte)) (ws : List (Nat × Byte)) : List (Nat × Byte) :=
  ws.foldl (fun t w => Sparse.put t w.1 w.2) m

theorem find_putAll_of_unnamed (m : List (Nat × Byte)) {ws : List (Nat × Byte)} {x : Nat} (h : ∀ w ∈ ws, w.1 ≠ x) :
    Sparse.find (putAll m ws) x = Sparse.find m x := by
  induction ws generalizing m with
  | nil => rfl
  | cons w ws ih =>
    exact (ih (Sparse.put m w.1 w.2) fun v hv => h v (by simp [hv])).trans (Sparse.find_put_of_ne m w.2 (h w (by simp)))

/-- A byte of those placed at an address is found as placed. -/
theorem find_putAll_placed (m : List (Nat × Byte)) (a : Nat) (bs : List Byte) (i : Nat) (hi : i < bs.length) :
    Sparse.find (putAll m (placed a bs)) (a + i) = some bs[i] := by
  induction bs generalizing m a i with
  | nil => exact absurd hi (Nat.not_lt_zero i)
  | cons b bs ih =>
    cases i with
    | zero =>
      refine (find_putAll_of_unnamed _ (ws := placed (a + 1) bs) fun w hw he => ?_).trans (Sparse.find_put_same m a b)
      have := placed_mem hw
      omega
    | succ i =>
      have := ih (Sparse.put m a b) (a + 1) i (Nat.lt_of_succ_lt_succ hi)
      rw [show a + 1 + i = a + (i + 1) by omega] at this
      exact this

/-! ### The lines of a list of bytes -/

theorem mem_distinct {xs : List Nat} {x : Nat} (h : x ∈ xs) : x ∈ distinct xs := by
  induction xs with
  | nil => exact h
  | cons y ys ih =>
    unfold distinct
    by_cases hxy : x = y
    · simp [hxy]
    · have := ih (by simpa [hxy] using h)
      simp [this, hxy]

theorem find_inLine (l a : Nat) (ws : List (Nat × Byte)) :
    Sparse.find (inLine l ws) a = if lineOf a = l then Sparse.find ws a else none := by
  unfold inLine
  induction ws with
  | nil => simp [Sparse.find]
  | cons w ws ih =>
    obtain ⟨b, v⟩ := w
    rw [List.filter_cons]
    by_cases hba : b = a
    · subst hba
      by_cases hl : lineOf b = l <;> simp [Sparse.find, hl, ih]
    · by_cases hl : lineOf b = l <;> simp [Sparse.find, hl, ih, hba]

theorem lineOf_mem_linesOf {ws : List (Nat × Byte)} {a : Nat} (h : Sparse.find ws a ≠ none) : lineOf a ∈ linesOf ws := by
  refine mem_distinct (List.mem_map.mpr ?_)
  induction ws with
  | nil => exact absurd rfl h
  | cons w ws ih =>
    obtain ⟨b, v⟩ := w
    by_cases hba : b = a
    · exact ⟨(b, v), by simp, congrArg lineOf hba⟩
    · obtain ⟨x, hx, hxa⟩ := ih (by simpa [Sparse.find, hba] using h)
      exact ⟨x, by simp [hx], hxa⟩

/-- Bytes divided into their lines are found as in the whole. -/
theorem findSome?_inLine (ws : List (Nat × Byte)) (a : Nat) :
    (linesOf ws).reverse.findSome? (fun l => Sparse.find (inLine l ws) a) = Sparse.find ws a := by
  by_cases h : Sparse.find ws a = none
  · rw [h, List.findSome?_eq_none_iff]
    intro l _
    rw [find_inLine, h, ite_self]
  · obtain ⟨v, hv⟩ := Option.ne_none_iff_exists'.mp h
    have hall : ∀ l ∈ (linesOf ws).reverse, Sparse.find (inLine l ws) a = none ∨ Sparse.find (inLine l ws) a = some v := by
      intro l _
      rw [find_inLine, hv]
      split
      · exact .inr rfl
      · exact .inl rfl
    cases hfind : (linesOf ws).reverse.findSome? (fun l => Sparse.find (inLine l ws) a) with
    | none =>
      have := List.findSome?_eq_none_iff.mp hfind (lineOf a) (by simpa using lineOf_mem_linesOf h)
      rw [find_inLine, if_pos rfl] at this
      exact absurd this h
    | some x =>
      obtain ⟨l, hl, hx⟩ := List.exists_of_findSome?_eq_some hfind
      rw [hv, ← hx]
      exact (hall l hl).resolve_left (by simp [hx])

/-! ### A rod's own bytes -/

/-- The byte at an address in the rod's committed lines on their way, the last committed first (R148). -/
def State.sentByte (s : State) (u a : Nat) : Option Byte :=
  (s.inflight.filter fun i => decide (i.rod = u)).reverse.findSome? fun i => Sparse.find i.bytes a

theorem State.ownByte_eq (s : State) (r : Rod) (a : Nat) :
    s.ownByte r a = (Sparse.find r.tent a).or (s.sentByte r.uid a) := by
  unfold State.ownByte State.sentByte
  cases Sparse.find r.tent a <;> rfl

/-- The issuing rod of the state is `q`, which is the rod `r` as far as a store goes, and it is the only rod of its name. -/
structure State.Holding (r : Rod) (s : State) (q : Rod) : Prop where
  cur : s.curRod? = some q
  alike : r.Alike q
  only : ∀ p ∈ s.rods, p.uid = r.uid → p = q

section
variable {s : State} {r q : Rod}

/-- Every rod changes, and keeps its name. -/
theorem State.Holding.of_map {t : State} (h : s.Holding r q) {g : Rod → Rod} (hu : ∀ p, (g p).uid = p.uid) (hq : q.Alike (g q))
    (hr : t.rods = s.rods.map g) (hc : t.cur = s.cur) : t.Holding r (g q) := by
  obtain ⟨hcur, hrod⟩ := State.curRod?_eq h.cur
  refine ⟨?_, h.alike.trans hq, fun p hp hpu => ?_⟩
  · rw [State.curRod?_of_cur (hc.trans hcur), State.rod?_of_map hu hr, hrod]
    rfl
  · rw [hr] at hp
    obtain ⟨x, hx, rfl⟩ := List.mem_map.mp hp
    rw [h.only x hx ((hu x).symm.trans hpu)]

/-- The rod changes alone. -/
theorem State.Holding.modRod (h : s.Holding r q) {f : Rod → Rod} (hf : q.Alike (f q)) (hu : ∀ p, (f p).uid = p.uid) :
    (s.modRod r.uid f).Holding r (f q) := by
  have hmap := h.of_map (t := s.modRod r.uid f) (g := fun p => if p.uid = r.uid then f p else p)
    (fun p => by split <;> simp [hu]) (by rw [if_pos h.alike.uid]; exact hf) rfl rfl
  rwa [if_pos h.alike.uid] at hmap

/-- Another rod changes. -/
theorem State.Holding.modRod_other (h : s.Holding r q) {u : Nat} (hne : r.uid ≠ u) {f : Rod → Rod}
    (hu : ∀ p, (f p).uid = p.uid) : (s.modRod u f).Holding r q := by
  have hqu : ¬ q.uid = u := by rwa [h.alike.uid]
  have hmap := h.of_map (t := s.modRod u f) (g := fun p => if p.uid = u then f p else p)
    (fun p => by split <;> simp [hu]) (by rw [if_neg hqu]; rfl) rfl rfl
  rwa [if_neg hqu] at hmap

theorem State.Holding.rod? (h : s.Holding r q) : s.rod? r.uid = some q := h.alike.uid ▸ (State.curRod?_eq h.cur).2

/-- The committed line of a rod's tentative bytes in a line (R149). -/
def State.sentLine (s : State) (u : Nat) (q : Rod) (l : Nat) : Inflight :=
  ⟨u, q.asid, q.frame, q.core, q.frameid, q.rodid, s.fresh, q.pc, inLine l q.tent,
    q.tags.filter fun x => decide (x.line = l), q.view.rel, s.now⟩

/-- The state in which the lines of a rod have been sent to their homes, before the rod drops them (R149). -/
def State.sending (s : State) (u : Nat) (q : Rod) : State :=
  { s with fresh := s.fresh + 1, inflight := s.inflight ++ (linesOf q.tent).map (s.sentLine u q) }

theorem State.commit_of_empty {u : Nat} (h : s.rod? u = some q) (ht : q.tent = []) : s.commit u = s := by
  unfold State.commit
  simp [h, ht]

theorem State.commit_of_lines {u : Nat} (h : s.rod? u = some q) (ht : q.tent ≠ []) :
    s.commit u = (s.sending u q).modRod u Rod.noLines := by
  unfold State.commit
  simp only [h, List.isEmpty_iff, if_neg ht]
  rfl

/-- The lines that a commit sends come before those sent earlier, for the rod that commits (R148). -/
theorem State.sentByte_sentLines (s t : State) (q : Rod) (u a : Nat)
    (ht : t.inflight = s.inflight ++ (linesOf q.tent).map (s.sentLine u q)) :
    t.sentByte u a = (Sparse.find q.tent a).or (s.sentByte u a) := by
  have hall : ((linesOf q.tent).map (s.sentLine u q)).filter (fun i => decide (i.rod = u)) =
      (linesOf q.tent).map (s.sentLine u q) := by
    rw [List.filter_eq_self]
    intro i hi
    obtain ⟨l, -, rfl⟩ := List.mem_map.mp hi
    exact decide_eq_true rfl
  unfold State.sentByte
  rw [ht, List.filter_append, hall, List.reverse_append, List.findSome?_append, ← List.map_reverse, List.findSome?_map,
    ← findSome?_inLine q.tent a]
  rfl

/-- The lines that a commit sends are no other rod's. -/
theorem State.sentByte_otherLines (s t : State) (q : Rod) {u u' : Nat} (a : Nat) (hne : u ≠ u')
    (ht : t.inflight = s.inflight ++ (linesOf q.tent).map (s.sentLine u' q)) : t.sentByte u a = s.sentByte u a := by
  have hnone : ((linesOf q.tent).map (s.sentLine u' q)).filter (fun i => decide (i.rod = u)) = [] := by
    rw [List.filter_eq_nil_iff]
    intro i hi
    obtain ⟨l, -, rfl⟩ := List.mem_map.mp hi
    exact fun hd => hne (of_decide_eq_true hd).symm
  unfold State.sentByte
  rw [ht, List.filter_append, hnone, List.append_nil]

/-- A rod's own bytes stay its own through its commit (R148). -/
theorem State.Holding.commit_self (h : s.Holding r q) :
    ∃ p, (s.commit r.uid).Holding r p ∧ ∀ a, (s.commit r.uid).ownByte p a = s.ownByte q a := by
  by_cases ht : q.tent = []
  · rw [State.commit_of_empty h.rod? ht]
    exact ⟨q, h, fun _ => rfl⟩
  · rw [State.commit_of_lines h.rod? ht]
    have hheld : (s.sending r.uid q).Holding r q := ⟨h.cur, h.alike, h.only⟩
    refine ⟨q.noLines, hheld.modRod rfl fun _ => rfl, fun a => ?_⟩
    have hsent := State.sentByte_sentLines s ((s.sending r.uid q).modRod r.uid Rod.noLines) q r.uid a rfl
    rw [State.ownByte_eq, State.ownByte_eq, show q.noLines.uid = r.uid from h.alike.uid, h.alike.uid, hsent]
    rfl

/-- A commit of another rod leaves a rod's own bytes (R148). -/
theorem State.Holding.commit_other (h : s.Holding r q) {u : Nat} (hne : r.uid ≠ u) :
    (s.commit u).Holding r q ∧ ∀ a, (s.commit u).ownByte q a = s.ownByte q a := by
  cases hp : s.rod? u with
  | none =>
    have hcommit : s.commit u = s := by
      unfold State.commit
      simp [hp]
    rw [hcommit]
    exact ⟨h, fun _ => rfl⟩
  | some p =>
    by_cases ht : p.tent = []
    · rw [State.commit_of_empty hp ht]
      exact ⟨h, fun _ => rfl⟩
    · rw [State.commit_of_lines hp ht]
      have hheld : (s.sending u p).Holding r q := ⟨h.cur, h.alike, h.only⟩
      refine ⟨hheld.modRod_other hne fun _ => rfl, fun a => ?_⟩
      have hsent := State.sentByte_otherLines s ((s.sending u p).modRod u Rod.noLines) p a hne rfl
      rw [State.ownByte_eq, State.ownByte_eq, h.alike.uid, hsent]

/-- What a fold picks among the elements of a list is one of them. -/
theorem foldl_pick_mem {α : Type} {f : Option α → α → Option α} (hf : ∀ o x y, f o x = some y → o = some y ∨ y = x)
    {xs : List α} {o : Option α} {y : α} (h : xs.foldl f o = some y) : o = some y ∨ y ∈ xs := by
  induction xs generalizing o with
  | nil => exact .inl h
  | cons x xs ih =>
    obtain h | h := ih h
    · obtain h | rfl := hf o x y h
      · exact .inl h
      · exact .inr (by simp)
    · exact .inr (by simp [h])

/-- The rod that holds the most lines of a core is one with lines (R150). -/
theorem State.mem_of_largestHolder {core : Nat} {b : Rod} (h : s.largestHolder core = some b) : b ∈ s.rods ∧ b.tent ≠ [] := by
  unfold State.largestHolder at h
  have hpick := foldl_pick_mem (fun o x y hxy => by
    dsimp only at hxy
    split at hxy
    · exact .inr (Option.some.inj hxy).symm
    · split at hxy
      · exact .inr (Option.some.inj hxy).symm
      · exact .inl hxy) h
  obtain ⟨hmem, hp⟩ := List.mem_filter.mp (hpick.resolve_left fun hnone => nomatch hnone)
  simp only [Bool.and_eq_true, decide_eq_true_eq] at hp
  exact ⟨hmem, hp.1.2⟩

/-- Making room for a line leaves the bytes that the rod has stored (R148, R150). -/
theorem State.Holding.makeRoom (h : s.Holding r q) :
    ∃ p, (s.makeRoom r.uid).Holding r p ∧ ∀ a, (s.makeRoom r.uid).ownByte p a = s.ownByte q a := by
  unfold State.makeRoom
  simp only [h.rod?]
  split
  · exact h.commit_self
  · split
    · exact ⟨q, h, fun _ => rfl⟩
    · split
      · exact h.commit_self
      · next hempty =>
        split
        · exact ⟨q, h, fun _ => rfl⟩
        · next b hb =>
          obtain ⟨hmem, htent⟩ := State.mem_of_largestHolder hb
          have hne : r.uid ≠ b.uid := fun hu => hempty (h.only b hmem hu.symm ▸ htent)
          exact ⟨q, h.commit_other hne⟩

/-- The rod with bytes put into its tentative lines, and where they come from (R148). -/
def Rod.storing (q : Rod) (tag : LineTag) (ws : List (Nat × Byte)) : Rod :=
  { q with tent := putAll q.tent ws, tags := if q.tags.contains tag then q.tags else q.tags ++ [tag] }

theorem State.storeTentative_eq {u : Nat} (h : s.rod? u = some q) (tag : LineTag) (w : Nat × Byte) (ws : List (Nat × Byte)) :
    s.storeTentative u tag (w :: ws) = (if (linesOf q.tent).contains (lineOf w.1) then s else s.makeRoom u).modRod u
      fun q => q.storing tag (w :: ws) := by
  unfold State.storeTentative
  simp only [h]
  rfl

/-- After a store into a tentative line the rod finds its bytes there, and its others as before (R148). -/
theorem State.Holding.storeTentative (h : s.Holding r q) (tag : LineTag) {ws : List (Nat × Byte)} (hws : ws ≠ []) :
    ∃ p, (s.storeTentative r.uid tag ws).Holding r p ∧
      (∀ a, (∀ w ∈ ws, w.1 ≠ a) → (s.storeTentative r.uid tag ws).ownByte p a = s.ownByte q a) ∧
      ∀ a v, (∀ m, Sparse.find (putAll m ws) a = some v) → (s.storeTentative r.uid tag ws).ownByte p a = some v := by
  obtain ⟨w, ws, rfl⟩ := List.exists_cons_of_ne_nil hws
  have hroom : ∃ p, (if (linesOf q.tent).contains (lineOf w.1) then s else s.makeRoom r.uid).Holding r p ∧
      ∀ a, (if (linesOf q.tent).contains (lineOf w.1) then s else s.makeRoom r.uid).ownByte p a = s.ownByte q a := by
    split
    · exact ⟨q, h, fun _ => rfl⟩
    · exact h.makeRoom
  rw [State.storeTentative_eq h.rod?]
  generalize (if (linesOf q.tent).contains (lineOf w.1) then s else s.makeRoom r.uid) = t at hroom
  obtain ⟨p, hp, hown⟩ := hroom
  refine ⟨p.storing tag (w :: ws), hp.modRod rfl fun _ => rfl, fun a ha => ?_, fun a v hv => ?_⟩
  · rw [← hown, State.ownByte_eq, State.ownByte_eq]
    exact congrArg (Option.or · _) (find_putAll_of_unnamed p.tent ha)
  · rw [State.ownByte_eq]
    exact congrArg (Option.or · _) (hv p.tent)

end
end Sys2Proof.Machine
end


section
/-!
The settling of O26: what an ordinary store leaves at the homes, and what its rod reads after it.
-/

namespace Sys2Proof.Machine

section
variable {s t x : State} {r q : Rod} {f : ShMem} {at_ : Option Nat → Nat}

theorem State.makeRoom_mem (s : State) (u : Nat) : (s.makeRoom u).mem = s.mem := by
  unfold State.makeRoom
  split
  · rfl
  · split
    · exact s.commit_mem u
    · split
      · rfl
      · split
        · exact s.commit_mem u
        · split
          · rfl
          · exact s.commit_mem _

/-- A store into a tentative line changes no home (R148). -/
theorem State.storeTentative_mem (s : State) (u : Nat) (tag : LineTag) (ws : List (Nat × Byte)) :
    (s.storeTentative u tag ws).mem = s.mem := by
  unfold State.storeTentative
  split
  · dsimp only
    split
    · rfl
    · exact s.makeRoom_mem u
  · rfl

/-- A byte that the rod loads, with nothing hidden from it (R148). -/
theorem State.rodNat_one (s : State) (r : Rod) (a : Nat) :
    s.rodNat r a 1 = ((s.ownByte r a).getD (Memory.read s.mem a)).toNat := by
  simp [State.rodNat, State.rodNatWithout, State.byteWithout, natOfBytes]

theorem State.ownByte_congr (a : Nat) (hi : t.inflight = s.inflight) (ht : q.tent = r.tent) (hu : q.uid = r.uid) :
    t.ownByte q a = s.ownByte r a := by
  rw [State.ownByte_eq, State.ownByte_eq, ht, hu]
  unfold State.sentByte
  rw [hi]

theorem widthBytes_pos : ∀ w : BitVec 3, 0 < Claims.widthBytes w := by decide

theorem placed_ne_nil {a n v : Nat} (h : 0 < n) : placed a (bytesOfNat n v) ≠ [] := by
  obtain ⟨m, rfl⟩ := Nat.exists_eq_succ_of_ne_zero h.ne'
  exact List.cons_ne_nil _ _

/-- The state and the rod after some parts of an ordinary store of `r`, issued in the state `s`: homes and cells are as they
were, and so are the rod's own bytes outside the parts. -/
structure State.Stored (s : State) (r : Rod) (outside : Nat → Prop) (x : State) (q : Rod) : Prop where
  holding : x.Holding r q
  mem : x.mem = s.mem
  cells : x.cells = s.cells
  own : ∀ a, outside a → x.ownByte q a = s.ownByte r a

/-- A store begins with the rod's own bytes as they are. -/
theorem State.Stored.begin (h : Issues s r (.st f)) (ho : f.o.toNat ≠ 3) (honly : ∀ p ∈ s.rods, p.uid = r.uid → p = r)
    (outside : Nat → Prop) : s.Stored r outside (s.begun r (.st f)) r.leave := by
  rw [State.begun_of_not_commits (i := .st f) (decide_eq_false ho)]
  have hheld : s.Holding r r := ⟨h.cur, rfl, honly⟩
  have hleave := hheld.of_map (t := s.setRod r.leave) (g := fun p => if p.uid = r.uid then r.leave else p)
    (fun p => by split <;> simp_all [Rod.leave]) (by rw [if_pos rfl]; rfl) rfl rfl
  rw [if_pos rfl] at hleave
  exact ⟨hleave, rfl, rfl, fun a _ => State.ownByte_congr a rfl rfl rfl⟩

/-- One part of an ordinary store (R148, R415). -/
theorem State.Stored.turn {outside : Nat → Prop} (h : s.Stored r outside x q) (ho : f.o.toNat ≠ 3) (y : State)
    {b : Option Nat} (hout : ∀ a, outside a → ¬ Claims.within (at_ b) (Claims.widthBytes f.w) a) :
    ∃ p, s.Stored r outside (storeTurn y r f at_ x b) p ∧ ∀ i < Claims.widthBytes f.w,
      (storeTurn y r f at_ x b).ownByte p (at_ b + i) =
        some (BitVec.ofNat 8 (Claims.storedFrom r b f.d f.w / 256 ^ i)) := by
  have hturn : storeTurn y r f at_ x b = x.storeTentative r.uid _ _ := if_neg ho
  rw [hturn]
  obtain ⟨p, hp, hother, hsame⟩ := h.holding.storeTentative (Claims.lineFrom y r (r.cap f.c.toNat)
    (Claims.byteOffset r b f.x f.f (Claims.widthBytes f.w)) (at_ b))
    (placed_ne_nil (a := at_ b) (v := Claims.storedFrom r b f.d f.w) (widthBytes_pos f.w))
  refine ⟨p, ⟨hp, (State.storeTentative_mem ..).trans h.mem, ?_, fun a ha => ?_⟩, fun i hi => ?_⟩
  · rw [(State.storeTentative_spec x r.uid _ _).1.rest]
    exact h.cells
  · exact (hother a fun w => placed_ne (hout a ha)).trans (h.own a ha)
  · refine hsame _ _ fun m => ?_
    have hlen : i < (bytesOfNat (Claims.widthBytes f.w) (Claims.storedFrom r b f.d f.w)).length := by rwa [bytesOfNat_length]
    rw [find_putAll_placed m _ _ i hlen, getElem_bytesOfNat]

theorem State.Stored.turns {outside : Nat → Prop} (h : s.Stored r outside x q) (ho : f.o.toNat ≠ 3) (y : State)
    {bs : List (Option Nat)} (hout : ∀ b ∈ bs, ∀ a, outside a → ¬ Claims.within (at_ b) (Claims.widthBytes f.w) a) :
    ∃ p, s.Stored r outside (bs.foldl (storeTurn y r f at_) x) p := by
  induction bs generalizing x q with
  | nil => exact ⟨q, h⟩
  | cons b bs ih =>
    obtain ⟨p, hp, -⟩ := h.turn ho y (hout b (by simp))
    exact ih hp fun c hc => hout c (by simp [hc])

/-- The rod of the store once it has moved past it. -/
theorem State.Stored.through {outside : Nat → Prop} (h : s.Stored r outside x q) (ho : f.o.toNat ≠ 3) :
    (x.through r (.st f)).rod? r.uid = some (q.advance.tick (r.laneCycles (onceOnly (.st f)))) ∧
      (x.through r (.st f)).cells = s.cells ∧ ∀ a, (x.through r (.st f)).ownByte
        (q.advance.tick (r.laneCycles (onceOnly (.st f)))) a = x.ownByte q a := by
  have hthrough : x.through r (.st f) = (x.setRod q.advance).tick (r.laneCycles (onceOnly (.st f))) := by
    unfold State.through State.shut
    rw [if_neg (by simp [commits, ho]), State.alter_of_curRod? h.holding.cur h.holding.alike.uid]
  have hrod : (x.setRod q.advance).rod? r.uid = some q.advance :=
    State.rod?_setRod_of_uid (q := q.advance) h.holding.rod? h.holding.alike.uid
  rw [hthrough, State.rod?_tick, hrod]
  exact ⟨rfl, h.cells, fun a => State.ownByte_congr a rfl rfl rfl⟩

end

end Sys2Proof.Machine

namespace Sys2Proof.Claims

open Sys2Proof.Machine

/-- The parts' turns of an ordinary store, as the claim of O25 states them. -/
theorem exec_st_turns {s : State} {r : Rod} {f : ShMem} {at_ : Option Nat → Nat} (h : Issues s r (.st f)) (ho : f.o.toNat ≠ 3)
    (hr : ∀ b ∈ r.parts f.u, Reaches s r (r.cap f.c.toNat) ⟨false, true, false, false, false⟩
      (byteOffset r b f.x f.f (widthBytes f.w)) (widthBytes f.w) .tentative (at_ b)) :
    exec (.st f) s = .next (((r.parts f.u).foldl (storeTurn s r f at_) (s.begun r (.st f))).through r (.st f)) := by
  have hfinds : s.Finds (s.begun r (.st f)) := by
    rw [State.begun_of_not_commits (i := .st f) (decide_eq_false ho)]
    rfl
  refine storesComplete s r f at_ h fun b hb => ?_
  rw [if_neg ho]
  exact hfinds.reaches rfl (hr b hb)

/-- Settles O26: a store into a tentative line writes no home, and a commit that makes room moves the rod's own bytes to its
lines on their way. -/
theorem storesFrame : Obligations.StoresFrame := by
  unfold Obligations.StoresFrame
  intro s t r f at_ h ho hr honly he
  obtain rfl := Host.Outcome.next.inj ((exec_st_turns h ho hr).symm.trans he)
  obtain ⟨q, hq⟩ := (State.Stored.begin h ho honly fun a => ∀ b ∈ r.parts f.u, ¬ within (at_ b) (widthBytes f.w) a).turns
    ho s (at_ := at_) (bs := r.parts f.u) fun b hb a ha => ha b hb
  obtain ⟨hrod, hcells, hown⟩ := hq.through ho
  have hmem : ∀ a, Memory.read (((r.parts f.u).foldl (storeTurn s r f at_) (s.begun r (.st f))).through r (.st f)).mem a =
      Memory.read s.mem a := fun a => by rw [State.through_mem, hq.mem]
  have hk := hq.holding.alike
  refine ⟨hmem, hcells, _, hrod, ?_⟩
  have hregs : q.beads = r.beads ∧ q.s = r.s ∧ q.c = r.c ∧ q.mode = r.mode ∧ q.fmt = r.fmt ∧ q.base = r.base ∧
      q.active = r.active ∧ q.stack = r.stack ∧ q.handler = r.handler ∧ q.pc + 4 = r.pc + 4 := by
    rw [hk]
    simp
  obtain ⟨hbeads, hs, hc, hmode, hfmt, hbase, hactive, hstack, hhandler, hpc⟩ := hregs
  refine ⟨hbeads, hs, hc, hmode, hfmt, hbase, hactive, hstack, hhandler, hpc, fun a ha => ?_, fun b hb i hi => ?_⟩
  · rw [State.rodNat_one, State.rodNat_one, hown, hq.own a ha, hmem]
  · obtain ⟨p, hp, hstored⟩ := (State.Stored.begin h ho honly fun a => ¬ within (at_ b) (widthBytes f.w) a).turn ho s
      (at_ := at_) (b := b) fun a ha => ha
    have hfold : (r.parts f.u).foldl (storeTurn s r f at_) (s.begun r (.st f)) = storeTurn s r f at_ (s.begun r (.st f)) b := by
      rw [hb]
      rfl
    have hcur := hq.holding.cur
    rw [hfold] at hcur hown ⊢
    obtain rfl := Option.some.inj (hcur.symm.trans hp.holding.cur)
    rw [State.rodNat_one, hown, hstored i hi, Option.getD_some, BitVec.toNat_ofNat, Nat.pow_mul]

end Sys2Proof.Claims
end


section
/-!
SUPPORT. The rings that system software writes: a record is taken from the head of its ring (R306, R307), and a command of the
command ring is carried out and completed (R308).
-/

namespace Sys2Proof.Machine

open Claims (ringHolds ringTaken commandHolds completing)

/-! ### A record that has been taken -/

section
variable {s t : State} {off rsz h x u : Nat} {r : Rod} {p : Park}

/-- What stands at the head of a ring is taken (R306, R307). -/
theorem State.takeRecord_of_ringHolds (hr : ringHolds s off rsz h x) : s.takeRecord off rsz x = some (ringTaken s h) := by
  obtain ⟨hentry, hgood, hsize, hcount, hrecord⟩ := hr
  have hhead : s.ringHead off rsz = some (h, s.queueAt h, x) := by
    unfold State.ringHead
    simp only [hentry, hgood, hsize, hcount, Bool.false_eq_true, ne_eq, not_true_eq_false, or_self, if_false, ← hrecord]
  unfold State.takeRecord
  simp only [hhead, if_pos]
  rfl

/-- A ring stands in memory and in the place of the system block alone. -/
theorem ringHolds_congr (hm : t.mem = s.mem) (hb : t.sysBlock = s.sysBlock) (hr : ringHolds s off rsz h x) :
    ringHolds t off rsz h x := by
  have hnat (a n : Nat) : t.natAt a n = s.natAt a n := State.natAt_congr hm a n
  have hentry : t.sysEntry off = s.sysEntry off := by
    unfold State.sysEntry
    simp only [hb, hnat]
  unfold ringHolds State.queueAt
  rw [hentry]
  simp only [hnat]
  exact hr

theorem ringTaken_wrote (s : State) (h : Nat) :
    s.Wrote (placed (h + 8) (bytesOfNat 8 ((s.queueAt h).head + 1))) (ringTaken s h) := s.homeWriteNat_wrote _ _ _

theorem wakeOnWrite_of_parked {ws : List (Nat × Byte)} {ls : List Nat} (hp : r.status = .parked p) :
    wakeOnWrite ws ls r = r := by
  unfold wakeOnWrite
  rw [hp]

/-- A parked rod stays as it is through a write at the homes. -/
theorem State.Wrote.rod?_parked {ws : List (Nat × Byte)} (hw : s.Wrote ws t) (hr : s.rod? u = some r)
    (hp : r.status = .parked p) : t.rod? u = some r := by
  have hrods : t.rods = s.rods.map (wakeOnWrite ws (linesOf ws)) := by rw [hw]
  rw [State.rod?_of_map (wakeOnWrite_uid ws (linesOf ws)) hrods, hr, Option.map_some, wakeOnWrite_of_parked hp]

theorem State.Wrote.halted {ws : List (Nat × Byte)} (hw : s.Wrote ws t) (asid : Nat) : t.halted asid = s.halted asid := by
  rw [hw]
  rfl

end

/-! ### Commands -/

section
variable {s t : State} {h : Nat} {rec : BitVec 256} {c : Command} {act : Command → State → Option Nat × State}

/-- A well-formed command that is carried out completes with status 0 (R307, R308). -/
theorem executeCommand_done (hc : commandHolds s h rec c) (hgood : c.bad = false)
    (hact : act c (ringTaken s h) = (some 0, t)) :
    executeCommand rec act s = .next (completing t 0x28 (2 ^ 32 * c.seq)) := by
  obtain ⟨hring, hfields⟩ := hc
  unfold executeCommand
  simp only [hfields, show s.takeRecord cmdRing 4 rec.toNat = some (ringTaken s h) from State.takeRecord_of_ringHolds hring,
    hgood, Bool.false_eq_true, if_false, hact]
  rfl

end

/-! ### Rods that are handed to their handler -/

section
variable {s : State} {u : Nat} {r : Rod}

theorem State.Undisturbed.faultRecs {t : State} (h : s.Undisturbed t) : t.faultRecs = s.faultRecs := by rw [h.rest]

theorem State.enterHandlerAt_faultRecs (s : State) (u cls cause k h info code : Nat) (epc fault : Addr) :
    (s.enterHandlerAt u cls cause k h info code epc fault).faultRecs = s.faultRecs := by
  unfold State.enterHandlerAt
  split
  · rfl
  · next r _ =>
    dsimp only
    split
    · unfold State.raiseHalt State.modCtx
      dsimp only
      split <;> rfl
    · have hkept := (s.commitPerform_undisturbed u).trans ((s.commitPerform u).writeFaultFrame_undisturbed r
        ⟨r.s.drop 24, epc, r.active, r.mode.setWidth 16, r.fmt, r.base, r.stack.length, k, cls, cause⟩ true)
      exact hkept.faultRecs

/-- The only rod of its name is the rod of that name. -/
theorem State.rod?_of_only (hr : r ∈ s.rods) (honly : ∀ q ∈ s.rods, q.uid = r.uid → q = r) : s.rod? r.uid = some r := by
  obtain ⟨p, hp⟩ : ∃ p, s.rod? r.uid = some p := Option.isSome_iff_exists.mp (List.find?_isSome.mpr ⟨r, hr, decide_eq_true rfl⟩)
  rw [hp, honly p (List.mem_of_find?_eq_some hp) (State.uid_of_rod? hp)]

/-- A rod outside handler mode enters its handler for a fault at its PC (R288). -/
theorem State.enterHandler_entered {cls cause k h info : Nat} {epc : Addr} (hr : s.rod? u = some r) (hn : r.handler = none)
    (hs : 24 ≤ r.s.length) (hh : s.ctxHandler r.asid ≠ 0) :
    ∃ q, (s.enterHandler u cls cause k h info 0 epc).rod? u = some q ∧
      Claims.Entered (s.ctxHandler r.asid) r q cls cause k h info 0 epc := by
  obtain ⟨q, hq, -, -, hent⟩ := State.enterHandlerAt_entered (cls := cls) (cause := cause) (k := k) (h := h) (info := info)
    (code := 0) (epc := epc) (fault := r.pc) hr hn hh hs
  unfold State.enterHandler
  simp only [hr]
  exact ⟨q, hq, hent⟩

/-- A rod whose page is not resolved enters its handler at its restart address (R152, R154, R288). -/
theorem State.failRod_entered {kind va : Nat} (hr : s.rod? u = some r) (hn : r.handler = none) (hs : 24 ≤ r.s.length)
    (hh : s.ctxHandler r.asid ≠ 0) : ∃ q, (s.failRod u kind va).rod? u = some q ∧
      Claims.Entered (s.ctxHandler r.asid) r.restore q 1 kind 0 (lowestBit r.restartCtl.active 0) va 0 r.restart := by
  have hset : (s.setRod { r.restore with peeked := [] }).rod? u = some { r.restore with peeked := [] } :=
    State.rod?_setRod_of_uid (q := { r.restore with peeked := [] }) hr (show r.uid = u from State.uid_of_rod? hr)
  obtain ⟨q, hq, -, -, hent⟩ := State.enterHandlerAt_entered (cls := 1) (cause := kind) (k := 0)
    (h := lowestBit r.restartCtl.active 0) (info := va) (code := 0) (epc := r.restart) (fault := r.pc) hset hn hh hs
  unfold State.failRod
  simp only [hr]
  exact ⟨q, hq, { hent with }⟩

theorem State.failRod_faultRecs (s : State) (u kind va : Nat) : (s.failRod u kind va).faultRecs = s.faultRecs := by
  unfold State.failRod
  split
  · rfl
  · exact State.enterHandlerAt_faultRecs ..

end

/-! ### RESOLVE -/

section
variable {s : State} {h u val die recid seq : Nat} {rec : BitVec 256} {x : FaultRec} {r : Rod} {p : Park}

/-- The state in which a RESOLVE begins: its command is taken, and the record is resolved (R154, R308). -/
def State.resolving (s : State) (h : Nat) (x : FaultRec) : State :=
  { ringTaken s h with faultRecs := s.faultRecs.filter fun y => decide (y ≠ x) }

theorem State.not_mem_resolving (s : State) (h : Nat) (x : FaultRec) : x ∉ (s.resolving h x).faultRecs := by
  simp [State.resolving]

/-- A parked rod of a context that runs is as it was when a RESOLVE begins. -/
theorem State.rod?_resolving (hr : s.rod? u = some r) (hp : r.status = .parked p) : (s.resolving h x).rod? u = some r :=
  (ringTaken_wrote s h).rod?_parked hr hp

theorem State.halted_resolving (asid : Nat) : (s.resolving h x).halted asid = s.halted asid :=
  (ringTaken_wrote s h).halted asid

/-- A RESOLVE retries or fails the one rod that waits on its record (R154, R308). -/
theorem exec_resolve_eq (hc : commandHolds s h rec ⟨1, 0, val, 0, 0, 0, 0, 0, die, recid, seq, 0⟩) (hval : val < 2)
    (hx : s.faultRecs.find? (fun y => decide (y.die = die ∧ y.recid = recid)) = some x) (hd : x.die = die)
    (hn : x.recid = recid) (hw : x.who = [.rod u]) :
    exec (.resolve rec) s = .next (completing (if val = 0 then (s.resolving h x).retryWalker die recid (.rod u)
      else (s.resolving h x).failWalker x (.rod u)) 0x28 (2 ^ 32 * seq)) := by
  have hgood : (⟨1, 0, val, 0, 0, 0, 0, 0, die, recid, seq, 0⟩ : Command).bad = false := by
    simp [Command.bad]
    omega
  have hrecs : (ringTaken s h).faultRecs = s.faultRecs := by rw [ringTaken_wrote s h]
  show execResolve rec s = _
  unfold execResolve
  refine executeCommand_done (c := ⟨1, 0, val, 0, 0, 0, 0, 0, die, recid, seq, 0⟩) hc hgood ?_
  simp only [hrecs, hx, if_neg (Nat.not_le.mpr hval), hw, List.foldl_cons, List.foldl_nil, hd, hn]
  rfl

/-- With RETRY the rod starts again at its restart address (R152). -/
theorem State.retryWalker_rod {t : State} (hr : t.rod? u = some r) (hp : r.status = .parked p) (hcls : p.cls = 1)
    (hrec : p.record = some (die, recid)) (hh : t.halted r.asid = false) :
    (t.retryWalker die recid (.rod u)).rod? u = some { r.restore with status := .ready, peeked := [] } := by
  have htagged : r.taggedWith die recid = true := by
    unfold Rod.taggedWith
    rw [hp]
    exact decide_eq_true ⟨hcls, hrec⟩
  refine (State.rod?_modRod_self (fun q => ?_) hr).trans ?_
  · split <;> rfl
  · rw [htagged, hh]
    rfl

/-- With FAIL the rod's handler is entered (R152, R154). -/
theorem State.failWalker_rod {t : State} (hr : t.rod? u = some r) (hp : r.status = .parked p) (hcls : p.cls = 1)
    (hrec : p.record = some (x.die, x.recid)) (hh : t.halted r.asid = false) :
    t.failWalker x (.rod u) = t.failRod u p.cause p.info.toNat := by
  have htagged : r.taggedWith x.die x.recid = true := by
    unfold Rod.taggedWith
    rw [hp]
    exact decide_eq_true ⟨hcls, hrec⟩
  unfold State.failWalker
  simp only [hr, hp, htagged, hh, Bool.not_false, Bool.and_self, if_true]

end

/-! ### DELIVER -/

section
variable {s : State} {h asid core slot seq : Nat} {rec : BitVec 256} {r : Rod} {p : Park}

/-- The rod of a slot is found in its slot after a write, where it is parked. -/
theorem State.Wrote.find?_slot {t : State} {ws : List (Nat × Byte)} (hw : s.Wrote ws t) (hp : r.status = .parked p)
    (hr : s.rods.find? (fun r => decide (r.asid = asid ∧ r.core = core ∧ r.slotIndex = slot)) = some r) :
    t.rods.find? (fun r => decide (r.asid = asid ∧ r.core = core ∧ r.slotIndex = slot)) = some r := by
  have hrods : t.rods = s.rods.map (wakeOnWrite ws (linesOf ws)) := by rw [hw]
  have hsame : (fun r : Rod => decide (r.asid = asid ∧ r.core = core ∧ r.slotIndex = slot)) ∘ wakeOnWrite ws (linesOf ws) =
      fun r => decide (r.asid = asid ∧ r.core = core ∧ r.slotIndex = slot) := by
    funext q
    have hk := wakeOnWrite_kept ws (linesOf ws) q
    unfold Rod.Kept at hk
    simp only [Function.comp]
    rw [hk]
    rfl
  rw [hrods, List.find?_map, hsame, hr, Option.map_some, wakeOnWrite_of_parked hp]

/-- The state in which a DELIVER hands its rod to its handler: its command is taken, and no record names the rod. -/
def State.delivering (s : State) (h u : Nat) : State := (ringTaken s h).untag u

/-- A DELIVER hands a parked rod outside its handler to it (R287, R308). -/
theorem exec_deliver_eq (hc : commandHolds s h rec ⟨2, 0, 0, 0, asid, core, slot, 0, 0, 0, seq, 0⟩)
    (hr : s.rods.find? (fun r => decide (r.asid = asid ∧ r.core = core ∧ r.slotIndex = slot)) = some r)
    (hp : r.status = .parked p) (hn : r.handler = none) (hh : s.halted r.asid = false)
    (hcls : p.cls = 1 ∨ p.cls = 2 ∨ p.cls = 4) :
    exec (.deliver rec) s = .next (completing (
      if p.cls = 1 then (s.delivering h r.uid).failRod r.uid p.cause p.info.toNat
      else if p.cls = 4 then (s.delivering h r.uid).enterHandler r.uid 4 p.cause 0 (r.faultBead none) p.info.toNat 0 r.pc
      else (s.delivering h r.uid).enterHandler r.uid 2 p.cause (beadNo p.bead) (r.faultBead p.bead) p.info.toNat 0 r.pc)
      0x28 (2 ^ 32 * seq)) := by
  have hdeliverable : (ringTaken s h).deliverable ⟨2, 0, 0, 0, asid, core, slot, 0, 0, 0, seq, 0⟩ = some (r, p) := by
    unfold State.deliverable
    simp only [(ringTaken_wrote s h).find?_slot hp hr, hp, hn, (ringTaken_wrote s h).halted, hh]
    simp [hcls]
  show execDeliver rec s = _
  unfold execDeliver
  refine executeCommand_done (c := ⟨2, 0, 0, 0, asid, core, slot, 0, 0, 0, seq, 0⟩) hc rfl ?_
  simp only [hdeliverable]
  split
  · rfl
  · split <;> rfl

end

end Sys2Proof.Machine
end


section
/-!
SUPPORT. The commands about copy engines and groups (R187, R297, R308): what the device's own units, which belong to no core, reach
of a context's handles and objects (R119, R135, R136).
-/

namespace Sys2Proof.Machine

open Claims (ringTaken commandHolds completing engineMaps mapsTo)

/-! ### Units that belong to no core -/

section
variable {s : State} {asid va n a i : Nat} {write : Bool} {cap : Cap}

theorem State.unitPhys_ok {mt : Nat} (hown : ¬ (field a 50 2 = 2 ∧ field a 38 12 = s.endpoint))
    (hbar : s.barred a write = none) : s.unitPhys va a mt write = (.ok a, s) := by
  unfold State.unitPhys State.ownExport
  rw [if_neg hown]
  unfold State.engineClear
  simp only [hbar]

/-- A unit finds the address that a cached translation gives (R140). -/
theorem State.engineVa_ok (h : engineMaps s asid va write a) : s.engineVa asid va write = (.ok a, s) := by
  obtain ⟨t, ht, rfl, hown, hbar⟩ := h
  unfold State.engineVa State.translate
  simp only [ht]
  exact State.unitPhys_ok hown hbar

theorem State.engineVaRead_ok (h : engineMaps s asid va false a) (hd : s.damaged a n = false) :
    s.engineVaRead asid va n = (.ok a, s) := by
  unfold State.engineVaRead
  simp only [State.engineVa_ok h, hd, Bool.false_eq_true, if_false]

/-- An address below 2^48 is its own. -/
theorem engineMaps_of_mapsTo (hlt : va % 2 ^ 48 = va) (h : mapsTo s none asid va write a) : engineMaps s asid va write a := by
  unfold Claims.engineMaps
  rwa [hlt]

theorem State.objectEntry_mod {h : Nat} (he : s.objectEntry asid h = some va) : va % 2 ^ 48 = va := by
  unfold State.objectEntry at he
  split at he
  · cases he
  · obtain rfl := Option.some.inj he
    exact Nat.mod_mod _ _

/-- A unit reaches bytes of an object that the object table lists (R135, R136). -/
theorem State.unitReach_ok {byte size : Nat} {seen : Seen}
    (h : Claims.EngineReaches s ⟨none, asid, 0, seen⟩ cap byte size write a) :
    s.unitReach asid cap byte size write = (.ok a, s) := by
  obtain ⟨len, base, hobject, hfits, hmaps⟩ := h.mapped
  obtain ⟨k, hcore, -⟩ | ⟨-, va, e, hentry, he, hsound, hobj⟩ := hobject
  · cases hcore
  · have hread := State.engineVaRead_ok (engineMaps_of_mapsTo (State.objectEntry_mod hentry) he) hsound
    have hfound : s.unitObject asid cap.handle.toNat = (.ok (len, base), s) := by
      unfold State.unitObject
      simp only [hentry, hread, hobj]
    unfold State.unitReach
    simp only [hfound, if_neg (Nat.not_lt.mpr hfits)]
    exact State.engineVa_ok (engineMaps_of_mapsTo (Nat.mod_mod _ _) hmaps)

/-- A unit finds the capability of a handle (R119). -/
theorem State.handle_ok (h : Claims.handleIs s asid i (some cap)) : s.handle asid i = (.ok (some cap), s) := by
  obtain ⟨-, hnone⟩ | ⟨hle, e, hmaps, hsound, hcap⟩ := h
  · cases hnone
  · have hat : s.handleAt asid i = some ((s.ctxField asid 128 48 + 16 * i) % 2 ^ 48) := by
      unfold State.handleAt
      rw [if_neg (Nat.not_lt.mpr hle)]
    have hread := State.engineVaRead_ok (n := 16) (va := (s.ctxField asid 128 48 + 16 * i) % 2 ^ 48)
      (engineMaps_of_mapsTo (Nat.mod_mod _ _) hmaps) hsound
    unfold State.handle State.handleIn
    simp only [hat, hread, ← hcap]

end

/-! ### ASSIGN_ENGINE and RELEASE_ENGINE -/

section
variable {s : State} {h val hidx asid eng seq a : Nat} {rec : BitVec 256} {cap : Cap}

/-- A copy engine that waits at the first entry of its chain (R187). -/
def freshEngine (eng asid val : Nat) (cap : Cap) : CopyEngine :=
  ⟨eng, asid, cap, 64, 64, BitVec.ofNat 64 val, none, false, Marks.none, ⟨Marks.none, []⟩, none, false⟩

/-- The state in which an engine is bound: VAL is in the sequence word (R187). -/
def State.assigning (s : State) (h val asid eng a : Nat) (cap : Cap) : State :=
  { (ringTaken s h).homeWriteNat a 8 val with copyEngines := s.copyEngines ++ [freshEngine eng asid val cap] }

theorem ringTaken_copyEngines (s : State) (h : Nat) : (ringTaken s h).copyEngines = s.copyEngines := by
  rw [ringTaken_wrote s h]

theorem ringTaken_copyEngine? (s : State) (h e : Nat) : (ringTaken s h).copyEngine? e = s.copyEngine? e := by
  unfold State.copyEngine?
  rw [ringTaken_copyEngines]

theorem ringTaken_damaged (s : State) (h a n : Nat) : (ringTaken s h).damaged a n = s.damaged a n := by
  unfold State.damaged
  rw [ringTaken_wrote s h]

/-- ASSIGN_ENGINE binds the engine to a chain object that it may read and write (R187, R308). -/
theorem exec_assignEngine_eq (hc : commandHolds s h rec ⟨3, 0, val, hidx, asid, 0, 0, eng, 0, 0, seq, 0⟩) (heng : eng < 24)
    (hfree : s.copyEngine? eng = none) (hcap : Claims.handleIs (ringTaken s h) asid hidx (some cap))
    (hgrants : cap.check { e := true, w := true } 0 128 = none)
    (hreach : Claims.EngineReaches (ringTaken s h) ⟨none, asid, 0, ⟨Marks.none, []⟩⟩ cap 0 64 true a)
    (hsound : s.damaged a 64 = false) (hzero : (ringTaken s h).natAt (a + 8) 56 = 0) :
    exec (.assignEngine rec) s = .next (completing (s.assigning h val asid eng a cap) 0x28 (2 ^ 32 * seq)) := by
  have hgood : (⟨3, 0, val, hidx, asid, 0, 0, eng, 0, 0, seq, 0⟩ : Command).bad = false := by
    simp [Command.bad, Config.copyEngines]
    omega
  show execAssignEngine rec s = _
  unfold execAssignEngine
  refine executeCommand_done (c := ⟨3, 0, val, hidx, asid, 0, 0, eng, 0, 0, seq, 0⟩) hc hgood ?_
  simp only [ringTaken_copyEngine?, hfree, Option.isSome_none, Bool.false_eq_true, if_false, State.handle_ok hcap, hgrants,
    State.unitReach_ok hreach, ringTaken_damaged, hsound, hzero, ne_eq, not_true_eq_false, decide_false, Bool.or_self,
    ringTaken_copyEngines]
  rfl

/-- A capability that grants E and W over the first line of its object passes the checks of an assignment (R116, R187). -/
theorem check_of_grants (hv : cap.v = true) (he : cap.e = true) (hw : cap.w = true) (hlo : cap.lo = 0)
    (hhi : 128 ≤ cap.hi.toNat) : cap.check { e := true, w := true } 0 128 = none := by
  unfold Cap.check Cap.grants
  simp [hv, he, hw, hlo]
  omega

theorem State.assigning_copyEngine? (hfree : s.copyEngine? eng = none) :
    (s.assigning h val asid eng a cap).copyEngine? eng = some (freshEngine eng asid val cap) := by
  show (s.copyEngines ++ [_]).find? (fun c : CopyEngine => decide (c.engine = eng)) = _
  rw [List.find?_append, show s.copyEngines.find? (fun c : CopyEngine => decide (c.engine = eng)) = none from hfree]
  simp [freshEngine]

/-- VAL of a command has 48 bits (R308). -/
theorem Command.val_ofNat_lt (x : Nat) : (Command.ofNat x).val < 2 ^ 48 := Nat.mod_lt _ (by decide)

theorem State.assigning_natAt (hmem : s.memoryCanonical) (hval : val < 2 ^ 48) :
    (s.assigning h val asid eng a cap).natAt a 8 = val := by
  have hcanonical : (ringTaken s h).memoryCanonical := State.homeWriteNat_canonical _ _ _ hmem
  refine (State.natAt_congr (s := (ringTaken s h).homeWriteNat a 8 val) rfl a 8).trans ?_
  rw [State.natAt_homeWriteNat hcanonical a val (Nat.le_refl 8)]
  omega

/-- RELEASE_ENGINE frees an engine that runs no entry, and waits for the end of a running one (R308). -/
theorem exec_releaseEngine_eq {e : CopyEngine} (hc : commandHolds s h rec ⟨4, 0, 0, 0, asid, 0, 0, eng, 0, 0, seq, 0⟩)
    (heng : eng < 24) (he : s.copyEngine? eng = some e) (hasid : e.asid = asid) :
    exec (.releaseEngine rec) s = .next (if e.running.isSome then s.modEngine eng fun e => { e with releasing := true }
      else completing ((ringTaken s h).freeEngine eng) 0x28 (2 ^ 32 * seq)) := by
  obtain ⟨hring, hfields⟩ := hc
  have htake : s.takeRecord cmdRing 4 rec.toNat = some (ringTaken s h) := State.takeRecord_of_ringHolds hring
  have hgood : (⟨4, 0, 0, 0, asid, 0, 0, eng, 0, 0, seq, 0⟩ : Command).bad = false := by
    simp [Command.bad, Config.copyEngines]
    omega
  show execReleaseEngine rec s = _
  unfold execReleaseEngine
  simp only [hfields, htake, hgood, he, hasid, ne_eq, not_true_eq_false, Bool.false_eq_true, if_false]
  split <;> rfl

theorem State.copyEngine?_freeEngine (s : State) (eng : Nat) : (s.freeEngine eng).copyEngine? eng = none := by
  show (s.copyEngines.filter _).find? (fun c : CopyEngine => decide (c.engine = eng)) = none
  rw [List.find?_eq_none]
  intro c hc
  simpa using (List.mem_filter.mp hc).2

end

/-! ### SET_GROUP -/

section
variable {s : State} {h addr asid seq : Nat} {rec : BitVec 256}

theorem setGroup_good (addr asid seq : Nat) : (⟨5, addr, 0, 0, asid, 0, 0, 0, 0, 0, seq, 0⟩ : Command).bad = false := by
  simp [Command.bad]

/-- SET_GROUP at address 0 removes the group record (R297). -/
theorem exec_setGroup_remove (hc : commandHolds s h rec ⟨5, 0, 0, 0, asid, 0, 0, 0, 0, 0, seq, 0⟩) :
    exec (.setGroup rec) s =
      .next (completing ((ringTaken s h).modCtx asid fun c => { c with group := none }) 0x28 (2 ^ 32 * seq)) := by
  show execSetGroup rec s = _
  unfold execSetGroup
  refine executeCommand_done (c := ⟨5, 0, 0, 0, asid, 0, 0, 0, 0, 0, seq, 0⟩) hc (setGroup_good 0 asid seq) ?_
  simp only [if_true]

/-- SET_GROUP copies a well-formed group record that nothing bars (R297). -/
theorem exec_setGroup_copy (hc : commandHolds s h rec ⟨5, addr, 0, 0, asid, 0, 0, 0, 0, 0, seq, 0⟩) (hz : addr ≠ 0)
    (hphys : physBad addr = false) (hown : ¬ (field addr 50 2 = 2 ∧ field addr 38 12 = s.endpoint))
    (hbar : (ringTaken s h).barred addr false = none) (hgood : groupBad ((ringTaken s h).natAt addr 32) = false) :
    exec (.setGroup rec) s = .next (completing ((ringTaken s h).modCtx asid fun c =>
      { c with group := some (BitVec.ofNat 256 ((ringTaken s h).natAt addr 32)) }) 0x28 (2 ^ 32 * seq)) := by
  have hendpoint : (ringTaken s h).endpoint = s.endpoint := by
    unfold State.endpoint
    rw [ringTaken_wrote s h]
  have hreach := State.unitPhys_ok (s := ringTaken s h) (va := 0) (mt := 0) (hendpoint ▸ hown) hbar
  show execSetGroup rec s = _
  unfold execSetGroup
  refine executeCommand_done (c := ⟨5, addr, 0, 0, asid, 0, 0, 0, 0, 0, seq, 0⟩) hc (setGroup_good addr asid seq) ?_
  simp only [if_neg hz, hphys, hreach, hgood, Bool.false_eq_true, if_false]

end

end Sys2Proof.Machine
end


section
/-!
SUPPORT. Replies to an UPCALL, and shoot-downs: the early commits of lines within the range, and what is no longer cached (R143,
R144, R172, R292, R309).
-/

namespace Sys2Proof.Machine

open Claims (ringHolds ringTaken completing)

/-! ### Replies -/

section
variable {s t : State} {r q : Rod} {x : Nat} {ws : List (Nat × Byte)}

theorem Rod.awaitsReply_of_not_parked (h : ∀ p, q.status ≠ .parked p) (x : Nat) : q.awaitsReply x = false := by
  unfold Rod.awaitsReply
  split
  · next hs => exact absurd hs (h _)
  · rfl

/-- A rod that a write tells is not parked. -/
theorem wakeOnWrite_not_parked {ls : List Nat} (h : ∀ p, q.status ≠ .parked p) (p : Park) :
    (wakeOnWrite ws ls q).status ≠ .parked p := by
  unfold wakeOnWrite
  split
  · split <;> simp
  · split
    · simp
    · exact h p
  · exact h p

theorem awaitsReply_wakeOnWrite (ls : List Nat) (q : Rod) (x : Nat) : (wakeOnWrite ws ls q).awaitsReply x = q.awaitsReply x := by
  by_cases h : ∃ p, q.status = .parked p
  · obtain ⟨p, hp⟩ := h
    rw [wakeOnWrite_of_parked hp]
  · have hq : ∀ p, q.status ≠ .parked p := fun p hp => h ⟨p, hp⟩
    rw [Rod.awaitsReply_of_not_parked hq, Rod.awaitsReply_of_not_parked (wakeOnWrite_not_parked hq)]

/-- A write at the homes leaves who awaits a reply. -/
theorem State.Wrote.find?_awaits {k : Park} (hw : s.Wrote ws t) (hr : s.rods.find? (fun r => r.awaitsReply x) = some r)
    (hk : r.status = .parked k) : t.rods.find? (fun r => r.awaitsReply x) = some r := by
  have hrods : t.rods = s.rods.map (wakeOnWrite ws (linesOf ws)) := by rw [hw]
  have hsame : (fun r : Rod => r.awaitsReply x) ∘ wakeOnWrite ws (linesOf ws) = fun r => r.awaitsReply x := by
    funext q
    exact awaitsReply_wakeOnWrite _ q x
  rw [hrods, List.find?_map, hsame, hr, Option.map_some, wakeOnWrite_of_parked hk]

theorem Rod.setQuad_uid (r : Rod) (b : Option Nat) (d : BitVec 7) (y : BitVec 128) : (r.setQuad b d y).uid = r.uid := by
  unfold Rod.setQuad
  split
  · rfl
  · exact Rod.setVgroup_uid ..

theorem Rod.takeReply_uid (r : Rod) (u : Bool) (d : BitVec 7) (x : Nat) : (r.takeReply u d x).uid = r.uid := by
  unfold Rod.takeReply
  split
  · exact r.setQuad_uid ..
  · generalize r.beadsActive.zip (List.range 16) = ks
    induction ks generalizing r with
    | nil => rfl
    | cons k ks ih => exact (ih _).trans (r.setQuad_uid ..)

/-- A rod that awaits a reply with status 0 takes it and goes on (R292). -/
theorem State.takeReply_returns {k : Park} {call : Call} (hr : s.rods.find? (fun r => r.awaitsReply x) = some r)
    (hh : s.halted r.asid = false) (hk : r.status = .parked k) (hcall : k.call = some call) (hzero : field x 116 8 = 0)
    (stamps : List Stamp) : ∃ view, (s.takeReply x stamps).rod? r.uid =
      some ({ r.takeReply call.u call.d x with status := .ready, view := view } : Rod).advance.openRegion := by
  refine ⟨r.view.acquire r.agent 6 stamps, ?_⟩
  obtain ⟨p, hp⟩ : ∃ p, s.rod? r.uid = some p :=
    Option.isSome_iff_exists.mp (List.find?_isSome.mpr ⟨r, List.mem_of_find?_eq_some hr, decide_eq_true rfl⟩)
  obtain ⟨cls, cause, bead, info, record, call'⟩ := k
  obtain rfl : call' = some call := hcall
  unfold State.takeReply State.replyTo
  simp only [hr, hh, Bool.false_eq_true, if_false, hk, hzero]
  exact State.rod?_setRod_of_uid hp (r.takeReply_uid call.u call.d x)

/-- The reply at the head of its ring is carried out (R307, R309). -/
theorem exec_upcallReply_eq {h : Nat} {msg : BitVec 4096} (hentry : s.sysEntry 0x30 = some h)
    (hring : (s.queueAt h).messageRing = true) (hcount : 2 ≤ (s.queueAt h).count)
    (hx : s.natAt (h + (s.queueAt h).recordAt (s.queueAt h).head) 256 +
      2 ^ 2048 * s.natAt (h + (s.queueAt h).recordAt ((s.queueAt h).head + 1)) 256 = x) (hmsg : msg.toNat = x) :
    ∃ stamps, exec (.upcallReply msg) s = .next ((s.setHead h ((s.queueAt h).head + 2)).takeReply x stamps) := by
  have hnot : ¬ ((!(s.queueAt h).messageRing) = true ∨ (s.queueAt h).count < 2) := by
    rw [hring, not_or]
    exact ⟨Bool.false_ne_true, Nat.not_lt.mpr hcount⟩
  have hhead : s.replyHead = some (h, s.queueAt h, x) := by
    unfold State.replyHead
    simp only [hentry, if_neg hnot, hx]
  refine ⟨((s.publisher h ((s.queueAt h).head + 1)).map WriteRec.stamps).getD [], ?_⟩
  show execUpcallReply msg s = _
  unfold execUpcallReply
  simp only [hhead, hmsg, if_true]

end

/-! ### The early commits of a shoot-down -/

section
variable {s t : State} {asid u v : Nat} {r q : Rod} {x : Shoot}

theorem State.rod?_modRod_other {f : Rod → Rod} (hf : ∀ q, (f q).uid = q.uid) (hne : v ≠ u) (hr : s.rod? v = some r) :
    (s.modRod u f).rod? v = some r := by
  have hmap := State.rod?_of_map (s := s) (t := s.modRod u f) (f := fun q => if q.uid = u then f q else q)
    (fun q => by split <;> simp [hf]) rfl v
  rw [hmap, hr, Option.map_some, if_neg (by rwa [State.uid_of_rod? hr])]

/-- A rod without tentative lines stays as it is through a commit, its own or another's (R149). -/
theorem State.rod?_commit_of_empty (hr : s.rod? v = some r) (ht : r.tent = []) : (s.commit u).rod? v = some r := by
  by_cases hne : v = u
  · subst hne
    rwa [State.commit_of_empty hr ht]
  · cases hp : s.rod? u with
    | none =>
      unfold State.commit
      simpa only [hp] using hr
    | some p =>
      by_cases hpt : p.tent = []
      · rwa [State.commit_of_empty hp hpt]
      · rw [State.commit_of_lines hp hpt]
        exact State.rod?_modRod_other (fun _ => rfl) hne hr

/-- No rod that goes by the name holds tentative lines. -/
def State.Unstored (u : Nat) (s : State) : Prop := ∀ q, s.rod? u = some q → q.tent = []

/-- A change of every rod that keeps the names, and the tentative lines or drops them. -/
theorem State.Unstored.of_map (h : s.Unstored u) {f : Rod → Rod} (hu : ∀ q, (f q).uid = q.uid)
    (ht : ∀ q, (f q).tent = q.tent ∨ (f q).tent = []) (hr : t.rods = s.rods.map f) : t.Unstored u := by
  intro q hq
  rw [State.rod?_of_map hu hr] at hq
  obtain ⟨p, hp, rfl⟩ := Option.map_eq_some_iff.mp hq
  obtain hf | hf := ht p
  · rw [hf, h p hp]
  · exact hf

theorem State.Unstored.modRod (h : s.Unstored u) {f : Rod → Rod} (hu : ∀ q, (f q).uid = q.uid)
    (ht : ∀ q, (f q).tent = q.tent ∨ (f q).tent = []) : (s.modRod v f).Unstored u :=
  h.of_map (f := fun q => if q.uid = v then f q else q) (fun q => by split <;> simp [hu])
    (fun q => by
      split
      · exact ht q
      · exact .inl rfl) rfl

theorem State.Unstored.commit (h : s.Unstored u) (v : Nat) : (s.commit v).Unstored u := by
  cases hp : s.rod? v with
  | none =>
    unfold State.commit
    simpa only [hp] using h
  | some p =>
    by_cases hpt : p.tent = []
    · rwa [State.commit_of_empty hp hpt]
    · rw [State.commit_of_lines hp hpt]
      exact State.Unstored.modRod (s := s.sending v p) h (fun _ => rfl) fun _ => .inr rfl

/-- After its commit the rod holds no tentative lines (R149). -/
theorem State.commit_unstored (s : State) (u : Nat) : (s.commit u).Unstored u := by
  cases hp : s.rod? u with
  | none =>
    unfold State.commit
    simp only [hp]
    intro q hq
    rw [hp] at hq
    cases hq
  | some p =>
    intro q hq
    by_cases hpt : p.tent = []
    · rw [State.commit_of_empty hp hpt, hp] at hq
      exact Option.some.inj hq ▸ hpt
    · have hself := State.rod?_modRod_self (s := s.sending u p) (f := Rod.noLines) (fun _ => rfl) hp
      rw [State.commit_of_lines hp hpt, hself] at hq
      exact Option.some.inj hq ▸ rfl

theorem State.Unstored.commits (h : s.Unstored u) (rs : List Rod) : (rs.foldl (fun s r => s.commit r.uid) s).Unstored u := by
  induction rs generalizing s with
  | nil => exact h
  | cons r rs ih => exact ih (h.commit r.uid)

/-- A rod that is among those that commit holds no tentative lines after it. -/
theorem State.commits_unstored {rs : List Rod} (h : u ∈ rs.map Rod.uid) (s : State) :
    (rs.foldl (fun (s : State) r => s.commit r.uid) s).Unstored u := by
  induction rs generalizing s with
  | nil => cases h
  | cons r rs ih =>
    by_cases hu : u = r.uid
    · subst hu
      exact (s.commit_unstored r.uid).commits rs
    · exact ih (by simpa [hu] using h) (s.commit r.uid)

/-- The lines of no rod of the context are tentative, and none of the context's are on their way. -/
structure State.Quiet (asid : Nat) (s : State) : Prop where
  lines : ∀ i ∈ s.inflight, i.asid ≠ asid
  tent : ∀ v r, s.rod? v = some r → r.asid = asid → r.tent = []

/-- Commits of other contexts leave a context without lines (R149). -/
theorem State.Quiet.commit (h : s.Quiet asid) (u : Nat) : (s.commit u).Quiet asid := by
  cases hp : s.rod? u with
  | none =>
    unfold State.commit
    simpa only [hp] using h
  | some p =>
    by_cases hpt : p.tent = []
    · rwa [State.commit_of_empty hp hpt]
    · have hother : p.asid ≠ asid := fun ha => hpt (h.tent u p hp ha)
      rw [State.commit_of_lines hp hpt]
      refine ⟨fun i hi => ?_, fun v r hr ha => ?_⟩
      · obtain hi | hi := List.mem_append.mp (show i ∈ s.inflight ++ _ from hi)
        · exact h.lines i hi
        · obtain ⟨l, -, rfl⟩ := List.mem_map.mp hi
          exact hother
      · have hmap := State.rod?_of_map (s := s) (t := s.modRod u Rod.noLines)
          (f := fun q => if q.uid = u then q.noLines else q) (fun q => by split <;> rfl) rfl v
        obtain ⟨y, hy, rfl⟩ := Option.map_eq_some_iff.mp (hmap.symm.trans hr)
        split
        · rfl
        · next hyu =>
          rw [if_neg hyu] at ha
          exact h.tent v y hy ha

/-- What the commits of some rods leave of a context without lines. -/
theorem State.Quiet.commits (h : s.Quiet asid) (rs : List Rod) :
    (rs.foldl (fun s r => s.commit r.uid) s).Quiet asid ∧ (rs.foldl (fun s r => s.commit r.uid) s).mem = s.mem ∧
      (rs.foldl (fun s r => s.commit r.uid) s).sysBlock = s.sysBlock ∧
      ∀ v r, s.rod? v = some r → r.asid = asid → (rs.foldl (fun s r => s.commit r.uid) s).rod? v = some r := by
  induction rs generalizing s with
  | nil => exact ⟨h, rfl, rfl, fun _ _ hr _ => hr⟩
  | cons p rs ih =>
    obtain ⟨hquiet, hmem, hsys, hrods⟩ := ih (h.commit p.uid)
    refine ⟨hquiet, hmem.trans (s.commit_mem p.uid), hsys.trans ?_, fun v r hr ha => hrods v r ?_ ha⟩
    · rw [(s.commit_undisturbed p.uid).rest]
    · exact State.rod?_commit_of_empty hr (h.tent v r hr ha)

end

/-! ### SHOOTDOWN -/

section
variable {s t : State} {h u : Nat} {rec : BitVec 128} {x : Shoot}

/-- A shoot-down record that names something, in a form that R143 takes. -/
theorem Shoot.not_bad (hres : x.reserved = 0) (hobj : x.obj = true → x.vpn < 2 ^ 24)
    (hsome : x.count ≠ 0 ∨ x.all = true ∨ x.obj = true) : x.bad = false := by
  unfold Shoot.bad
  have hvpn : (x.obj && decide (2 ^ 24 ≤ x.vpn)) = false := by
    cases ho : x.obj with
    | false => rfl
    | true => simpa using hobj ho
  have hempty : (decide (x.count = 0) && !x.all && !x.obj) = false := by
    obtain hc | ha | ho := hsome
    · simp [hc]
    · simp [ha]
    · simp [ho]
  simp only [hres, hvpn, hempty, ne_eq, not_true_eq_false, decide_false, Bool.or_self]

/-- A context without lines has none to perform (R144). -/
theorem State.Quiet.drainCtx {asid : Nat} (hq : s.Quiet asid) : s.drainCtx asid = s := by
  have hnone : s.inflight.filter (fun i => decide (i.asid = asid)) = [] :=
    List.filter_eq_nil_iff.mpr fun i hi => by simpa using hq.lines i hi
  unfold State.drainCtx
  rw [hnone]
  rfl

/-- The rods that hold lines within the range of a shoot-down (R144). -/
def State.shootRods (s : State) (x : Shoot) : List Rod :=
  s.rods.filter fun r => decide (r.asid = x.asid) && r.tags.any x.coversLine

theorem State.shootCommits_eq (s : State) (x : Shoot) :
    s.shootCommits x = (s.shootRods x).foldl (fun s r => s.commit r.uid) s := rfl

/-- A shoot-down of a context without lines is carried out and completed (R143, R144). -/
theorem exec_shootdown_quiet (hring : ringHolds s 0 2 h rec.toNat) (hx : Shoot.ofNat rec.toNat = x) (hgood : x.bad = false)
    (hq : s.Quiet x.asid) :
    exec (.shootdown rec) s = .next (completing ((ringTaken (s.shootCommits x) h).shoot x) 0x08 x.seq) := by
  obtain ⟨hquiet, hmem, hsys, -⟩ := hq.commits (s.shootRods x)
  rw [← State.shootCommits_eq] at hquiet hmem hsys
  have htake : s.takeRecord downRing 2 rec.toNat = some (ringTaken s h) := State.takeRecord_of_ringHolds hring
  have hlines : s.shootLines x = s.shootCommits x := hquiet.drainCtx
  have htake' : (s.shootCommits x).takeRecord downRing 2 rec.toNat = some (ringTaken (s.shootCommits x) h) :=
    State.takeRecord_of_ringHolds (ringHolds_congr hmem hsys hring)
  have hnone : ((s.shootCommits x).inflight.any fun i => decide (i.asid = x.asid)) = false :=
    List.any_eq_false.mpr fun i hi => by simpa using hquiet.lines i hi
  show execShootdown rec s = _
  unfold execShootdown
  simp only [htake, hx, hgood, hlines, hnone, htake', Bool.false_eq_true, if_false]
  rfl

/-- What a shoot-down leaves of the caches and the rods (R143, R144, R172). -/
theorem State.shoot_caches (s : State) (x : Shoot) :
    (s.shoot x).tlb = s.tlb.filter (fun e => !x.coversPage e) ∧
      (s.shoot x).walkCache = s.walkCache.filter (fun w => !x.coversWalk w) ∧
      (s.shoot x).objCache = s.objCache.filter (fun o => !x.coversObject o) ∧ (s.shoot x).rods = (s.shootMonitors x).rods := by
  unfold State.shoot
  dsimp only
  split <;> exact ⟨rfl, rfl, rfl, rfl⟩

/-- A rod of the context that sleeps on a monitor wakes (R172). -/
def Rod.shotMonitor (x : Shoot) (r : Rod) : Rod :=
  match r.status with
  | .asleep (.waitv _ _ _) _ _ => if r.asid = x.asid then r.wakeWaitv else r
  | _ => r

theorem Rod.shotMonitor_uid (x : Shoot) (r : Rod) : (r.shotMonitor x).uid = r.uid := by
  unfold Rod.shotMonitor
  split
  · split
    · exact r.wakeWaitv_uid
    · rfl
  · rfl

theorem Rod.shotMonitor_tent (x : Shoot) (r : Rod) : (r.shotMonitor x).tent = r.tent := by
  unfold Rod.shotMonitor Rod.wakeWaitv
  split
  · split
    · split <;> rfl
    · rfl
  · rfl

theorem State.shoot_rods (s : State) (x : Shoot) : (s.shoot x).rods = s.rods.map (Rod.shotMonitor x) := by
  obtain ⟨-, -, -, hrods⟩ := s.shoot_caches x
  exact hrods

/-- A sleeper on a monitor wakes at a shoot-down, whether a write has reached it before or not (R172). -/
theorem shotMonitor_wakeOnWrite {ws : List (Nat × Byte)} {ls armed : List Nat} {hit full : Bool} {tk c : Nat} {r : Rod}
    (hr : r.status = .asleep (.waitv armed hit full) tk c) (ha : r.asid = x.asid) :
    (wakeOnWrite ws ls r).shotMonitor x = { r with status := .ready, resume := 0 } := by
  have hwake : wakeOnWrite ws ls r =
      { r with status := .asleep (.waitv armed (armed.any (fun l => ls.contains l) || hit) full) tk c } := by
    unfold wakeOnWrite
    rw [hr]
    dsimp only
    split
    · next hany => rw [hany, Bool.true_or]
    · next hany => rw [Bool.eq_false_iff.mpr hany, Bool.false_or]
  rw [hwake]
  unfold Rod.shotMonitor Rod.wakeWaitv
  simp only [ha, if_true]

/-- The monitors of the context of a shoot-down wake (R172). -/
theorem State.rod?_shoot_waitv {ws : List (Nat × Byte)} {armed : List Nat} {hit full : Bool} {tk c : Nat} {r : Rod}
    (hw : s.Wrote ws t) (hr : s.rod? u = some r) (hs : r.status = .asleep (.waitv armed hit full) tk c)
    (ha : r.asid = x.asid) : (t.shoot x).rod? u = some { r with status := .ready, resume := 0 } := by
  have hrods : t.rods = s.rods.map (wakeOnWrite ws (linesOf ws)) := by rw [hw]
  rw [State.rod?_of_map (Rod.shotMonitor_uid x) (t.shoot_rods x), State.rod?_of_map (wakeOnWrite_uid ws (linesOf ws)) hrods, hr]
  exact congrArg some (shotMonitor_wakeOnWrite hs ha)

/-! ### Lines within the range of a shoot-down -/

theorem wakeOnWrite_tent (ws : List (Nat × Byte)) (ls : List Nat) (r : Rod) : (wakeOnWrite ws ls r).tent = r.tent := by
  unfold wakeOnWrite
  split
  · split <;> rfl
  · split <;> rfl
  · rfl

theorem State.Unstored.writeFrom (hu : s.Unstored u) (w : Option Nat) (ws : List (Nat × Byte)) :
    (s.writeFrom w ws).Unstored u :=
  hu.of_map (wakeOnWrite_uid ws (linesOf ws)) (fun q => .inl (wakeOnWrite_tent ws (linesOf ws) q)) (State.sendUpdates_rods _ _ _)

theorem State.Unstored.pathWrite (hu : s.Unstored u) (path : Nat) (agent : Agent) (stamps : List Stamp)
    (ws : List (Nat × Byte)) : (s.pathWrite path agent stamps ws).Unstored u :=
  hu.of_map (wakeOnWrite_uid ws (linesOf ws)) (fun q => .inl (wakeOnWrite_tent ws (linesOf ws) q)) (State.sendUpdates_rods _ _ _)

theorem State.Unstored.drain (hu : s.Unstored u) (v : Nat) : (s.drain v).Unstored u := by
  have hlines (ls : List Inflight) {s : State} (hu : s.Unstored u) : (ls.foldl State.performLine s).Unstored u := by
    induction ls generalizing s with
    | nil => exact hu
    | cons i ls ih => exact ih ((hu.pathWrite _ _ _ _).modRod (fun _ => rfl) fun _ => .inl rfl)
  exact hlines _ hu

theorem State.Unstored.drainCtx (hu : s.Unstored u) (asid : Nat) : (s.drainCtx asid).Unstored u := by
  unfold State.drainCtx
  generalize distinct ((s.inflight.filter fun i => decide (i.asid = asid)).map Inflight.rod) = vs
  induction vs generalizing s with
  | nil => exact hu
  | cons v vs ih => exact ih (hu.drain v)

theorem State.Unstored.takeRecord {off rsz y : Nat} (hu : s.Unstored u) (ht : s.takeRecord off rsz y = some t) :
    t.Unstored u := by
  unfold State.takeRecord at ht
  split at ht
  · cases ht
  · split at ht
    · obtain rfl := Option.some.inj ht
      exact hu.writeFrom none _
    · cases ht

theorem State.Unstored.shoot (hu : s.Unstored u) (x : Shoot) : (s.shoot x).Unstored u :=
  hu.of_map (Rod.shotMonitor_uid x) (fun q => .inl (q.shotMonitor_tent x)) (s.shoot_rods x)

theorem State.Unstored.complete (hu : s.Unstored u) (off y : Nat) : (s.complete off y).Unstored u := by
  unfold State.complete
  split
  · exact hu
  · exact hu.pathWrite _ _ _ _

/-- The lines of a rod that holds one within the range of a shoot-down leave it, whether the shoot-down has to wait or not
(R144). -/
theorem exec_shootdown_unstored (hring : ringHolds s 0 2 h rec.toNat) (hx : Shoot.ofNat rec.toNat = x) (hgood : x.bad = false)
    (hu : u ∈ (s.shootRods x).map Rod.uid) : ∃ t, exec (.shootdown rec) s = .next t ∧ t.Unstored u := by
  have htake : s.takeRecord downRing 2 rec.toNat = some (ringTaken s h) := State.takeRecord_of_ringHolds hring
  have hlines : (s.shootLines x).Unstored u := (State.commits_unstored hu s).drainCtx x.asid
  show ∃ t, execShootdown rec s = .next t ∧ _
  unfold execShootdown
  simp only [htake, hx, hgood, Bool.false_eq_true, if_false]
  split
  · exact ⟨_, rfl, hlines⟩
  · split
    · exact ⟨_, rfl, hlines⟩
    · next s3 h3 => exact ⟨_, rfl, ((hlines.takeRecord h3).shoot x).complete _ _⟩

/-- A rod with a line that a shoot-down covers is among those that commit (R144). -/
theorem State.mem_shootRods {r : Rod} {l : LineTag} (hr : s.rod? u = some r) (ha : r.asid = x.asid) (hl : l ∈ r.tags)
    (hcovers : x.coversLine l = true) : u ∈ (s.shootRods x).map Rod.uid := by
  refine List.mem_map.mpr ⟨r, List.mem_filter.mpr ⟨List.mem_of_find?_eq_some hr, ?_⟩, State.uid_of_rod? hr⟩
  rw [decide_eq_true ha, Bool.true_and, List.any_eq_true]
  exact ⟨l, hl, hcovers⟩

theorem Shoot.coversLine_of {l : LineTag} (h : x.all = true ∨ x.obj = true ∧ l.handle = x.vpn ∨
      x.obj = false ∧ x.vpn ≤ l.va / 65536 ∧ l.va / 65536 < x.vpn + x.count) : x.coversLine l = true := by
  unfold Shoot.coversLine
  obtain hall | ⟨hobj, hhandle⟩ | ⟨hobj, hrange⟩ := h
  · rw [hall, Bool.true_or]
  · rw [hobj, if_pos rfl, decide_eq_true hhandle, Bool.or_true]
  · rw [hobj, if_neg Bool.false_ne_true, decide_eq_true hrange, Bool.or_true]

end

end Sys2Proof.Machine
end


section
/-!
The settling of O47: the commands, shoot-downs and replies of the rings.
-/

namespace Sys2Proof.Claims

open Sys2Proof.Machine

section
variable {s : State} {h u val die recid seq : Nat} {rec : BitVec 256} {r : Rod} {p : Park}

/-- RESOLVE with RETRY replays the rod (R154). -/
theorem resolve_retries {x : FaultRec} (hc : commandHolds s h rec ⟨1, 0, 0, 0, 0, 0, 0, 0, die, recid, seq, 0⟩)
    (hx : s.faultRecs.find? (fun y => decide (y.die = die ∧ y.recid = recid)) = some x) (hd : x.die = die)
    (hn : x.recid = recid) (hw : x.who = [.rod u]) (hr : s.rod? u = some r) (hp : r.status = .parked p) (hcls : p.cls = 1)
    (hrec : p.record = some (die, recid)) (hh : s.halted r.asid = false) :
    ∃ t, exec (.resolve rec) s = .next (completing t 0x28 (2 ^ 32 * seq)) ∧ x ∉ t.faultRecs ∧
      t.rod? u = some { r.restore with status := .ready, peeked := [] } :=
  ⟨_, exec_resolve_eq hc (by decide) hx hd hn hw, s.not_mem_resolving h x,
    State.retryWalker_rod (State.rod?_resolving hr hp) hp hcls hrec ((State.halted_resolving _).trans hh)⟩

/-- RESOLVE with FAIL hands the rod to its handler (R154). -/
theorem resolve_fails {x : FaultRec} (hc : commandHolds s h rec ⟨1, 0, 1, 0, 0, 0, 0, 0, die, recid, seq, 0⟩)
    (hx : s.faultRecs.find? (fun y => decide (y.die = die ∧ y.recid = recid)) = some x) (hd : x.die = die)
    (hn : x.recid = recid) (hw : x.who = [.rod u]) (hr : s.rod? u = some r) (hp : r.status = .parked p) (hcls : p.cls = 1)
    (hrec : p.record = some (die, recid)) (hh : s.halted r.asid = false) (hhandler : r.handler = none)
    (hs : 24 ≤ r.s.length) (hctx : (ringTaken s h).ctxHandler r.asid ≠ 0) :
    ∃ t q, exec (.resolve rec) s = .next (completing t 0x28 (2 ^ 32 * seq)) ∧ x ∉ t.faultRecs ∧ t.rod? u = some q ∧
      Entered ((ringTaken s h).ctxHandler r.asid) r.restore q 1 p.cause 0 (lowestBit r.restartCtl.active 0) p.info.toNat 0
        r.restart := by
  have hrod := State.rod?_resolving (h := h) (x := x) hr hp
  have hexec := exec_resolve_eq hc (by decide) hx hd hn hw
  rw [if_neg (by decide : ¬ (1 : Nat) = 0), State.failWalker_rod hrod hp hcls (by rw [hd, hn]; exact hrec)
    ((State.halted_resolving _).trans hh)] at hexec
  obtain ⟨q, hq, hent⟩ := State.failRod_entered (kind := p.cause) (va := p.info.toNat) hrod hhandler hs hctx
  refine ⟨_, q, hexec, ?_, hq, hent⟩
  rw [State.failRod_faultRecs]
  exact s.not_mem_resolving h x

/-- DELIVER hands a parked rod to its handler, as its fault has it (R287). -/
theorem deliver_hands {asid core slot : Nat} (hc : commandHolds s h rec ⟨2, 0, 0, 0, asid, core, slot, 0, 0, 0, seq, 0⟩)
    (hfind : s.rods.find? (fun r => decide (r.asid = asid ∧ r.core = core ∧ r.slotIndex = slot)) = some r)
    (honly : ∀ q ∈ s.rods, q.uid = r.uid → q = r) (hp : r.status = .parked p) (hhandler : r.handler = none)
    (hh : s.halted r.asid = false) (hs : 24 ≤ r.s.length) (hctx : (ringTaken s h).ctxHandler r.asid ≠ 0)
    (hcls : p.cls = 1 ∨ p.cls = 2 ∨ p.cls = 4) :
    ∃ t q, exec (.deliver rec) s = .next (completing t 0x28 (2 ^ 32 * seq)) ∧ t.rod? r.uid = some q ∧
      let handler := (ringTaken s h).ctxHandler r.asid
      (p.cls = 1 → Entered handler r.restore q 1 p.cause 0 (lowestBit r.restartCtl.active 0) p.info.toNat 0 r.restart) ∧
      (p.cls = 2 → Entered handler r q 2 p.cause (p.bead.getD 0) (p.bead.getD (lowestBit r.active 0)) p.info.toNat 0 r.pc) ∧
      (p.cls = 4 → Entered handler r q 4 p.cause 0 (lowestBit r.active 0) p.info.toNat 0 r.pc) := by
  have hrod : (s.delivering h r.uid).rod? r.uid = some r :=
    (ringTaken_wrote s h).rod?_parked (State.rod?_of_only (List.mem_of_find?_eq_some hfind) honly) hp
  have hexec := exec_deliver_eq hc hfind hp hhandler hh hcls
  obtain h1 | h2 | h4 := hcls
  · rw [if_pos h1] at hexec
    obtain ⟨q, hq, hent⟩ := State.failRod_entered (kind := p.cause) (va := p.info.toNat) hrod hhandler hs hctx
    exact ⟨_, q, hexec, hq, fun _ => hent, fun h => absurd (h1.symm.trans h) (by decide),
      fun h => absurd (h1.symm.trans h) (by decide)⟩
  · rw [if_neg (by omega), if_neg (by omega)] at hexec
    obtain ⟨q, hq, hent⟩ := State.enterHandler_entered (cls := 2) (cause := p.cause) (k := beadNo p.bead)
      (h := r.faultBead p.bead) (info := p.info.toNat) (epc := r.pc) hrod hhandler hs hctx
    have hbead : r.faultBead p.bead = p.bead.getD (lowestBit r.active 0) := by cases p.bead <;> rfl
    rw [hbead] at hent hq hexec
    exact ⟨_, q, hexec, hq, fun h => absurd (h2.symm.trans h) (by decide), fun _ => hent,
      fun h => absurd (h2.symm.trans h) (by decide)⟩
  · rw [if_neg (by omega), if_pos h4] at hexec
    obtain ⟨q, hq, hent⟩ := State.enterHandler_entered (cls := 4) (cause := p.cause) (k := 0)
      (h := r.faultBead none) (info := p.info.toNat) (epc := r.pc) hrod hhandler hs hctx
    exact ⟨_, q, hexec, hq, fun h => absurd (h4.symm.trans h) (by decide), fun h => absurd (h4.symm.trans h) (by decide),
      fun _ => hent⟩

/-- ASSIGN_ENGINE binds a copy engine and writes VAL (R187). -/
theorem assignEngine_binds {hidx asid eng a : Nat} {cap : Cap}
    (hc : commandHolds s h rec ⟨3, 0, val, hidx, asid, 0, 0, eng, 0, 0, seq, 0⟩) (heng : eng < 24)
    (hfree : s.copyEngine? eng = none) (hmem : s.memoryCanonical) (hcap : handleIs (ringTaken s h) asid hidx (some cap))
    (hgrants : cap.check { e := true, w := true } 0 128 = none)
    (hreach : EngineReaches (ringTaken s h) ⟨none, asid, 0, ⟨Marks.none, []⟩⟩ cap 0 64 true a)
    (hsound : s.damaged a 64 = false) (hzero : (ringTaken s h).natAt (a + 8) 56 = 0) :
    ∃ t, exec (.assignEngine rec) s = .next (completing t 0x28 (2 ^ 32 * seq)) ∧ t.natAt a 8 = val ∧
      t.copyEngine? eng =
        some ⟨eng, asid, cap, 64, 64, BitVec.ofNat 64 val, none, false, Marks.none, ⟨Marks.none, []⟩, none, false⟩ := by
  have hval : val < 2 ^ 48 := by
    obtain ⟨-, hfields⟩ := hc
    have hlt := Command.val_ofNat_lt rec.toNat
    rwa [hfields] at hlt
  exact ⟨_, exec_assignEngine_eq hc heng hfree hcap hgrants hreach hsound hzero, State.assigning_natAt hmem hval,
    State.assigning_copyEngine? hfree⟩

/-- RELEASE_ENGINE frees an idle engine, and waits for a running one (R308). -/
theorem releaseEngine_frees {asid eng : Nat} {e : CopyEngine}
    (hc : commandHolds s h rec ⟨4, 0, 0, 0, asid, 0, 0, eng, 0, 0, seq, 0⟩) (heng : eng < 24)
    (he : s.copyEngine? eng = some e) (hasid : e.asid = asid) :
    (e.running = none → ∃ t, exec (.releaseEngine rec) s = .next (completing t 0x28 (2 ^ 32 * seq)) ∧ t.copyEngine? eng = none) ∧
    (e.running ≠ none → exec (.releaseEngine rec) s = .next (s.modEngine eng fun e => { e with releasing := true })) := by
  have hexec := exec_releaseEngine_eq hc heng he hasid
  refine ⟨fun hidle => ⟨_, ?_, (ringTaken s h).copyEngine?_freeEngine eng⟩, fun hruns => ?_⟩
  · rw [hexec, hidle]
    rfl
  · rw [hexec, if_pos (Option.isSome_iff_ne_none.mpr hruns)]

/-- SET_GROUP removes the group record, or copies a well-formed one (R297). -/
theorem setGroup_sets {addr asid : Nat} (hc : commandHolds s h rec ⟨5, addr, 0, 0, asid, 0, 0, 0, 0, 0, seq, 0⟩) :
    let x := (ringTaken s h).natAt addr 32
    (addr = 0 → ∃ t c, exec (.setGroup rec) s = .next (completing t 0x28 (2 ^ 32 * seq)) ∧ t.ctx? asid = some c ∧ c.group = none) ∧
    (addr ≠ 0 → physBad addr = false → ¬ (field addr 50 2 = 2 ∧ field addr 38 12 = s.endpoint) →
      (ringTaken s h).barred addr false = none →
      field x 208 48 = 0 → field x 0 64 = 0 → field x 96 16 ≠ 0 → field x 112 48 % 8 = 0 →
      ∃ t c, exec (.setGroup rec) s = .next (completing t 0x28 (2 ^ 32 * seq)) ∧ t.ctx? asid = some c ∧
        c.group = some (BitVec.ofNat 256 x)) := by
  dsimp only
  refine ⟨fun hz => ?_, fun hz hphys hown hbar h208 h0 h96 h112 => ?_⟩
  · subst hz
    exact ⟨_, _, exec_setGroup_remove hc, (ringTaken s h).ctx?_modCtx asid fun _ => rfl, rfl⟩
  · have hgood : groupBad ((ringTaken s h).natAt addr 32) = false := by simp [groupBad, h208, h0, h96, h112]
    exact ⟨_, _, exec_setGroup_copy hc hz hphys hown hbar hgood, (ringTaken s h).ctx?_modCtx asid fun _ => rfl, rfl⟩

end

section
variable {s : State} {h : Nat} {rec : BitVec 128} {x : Shoot}

/-- A shoot-down of a context without lines: nothing in its range is cached any more, and the context's monitors wake (R143,
R144, R172). -/
theorem shootdown_completes (hring : ringHolds s 0 2 h rec.toNat) (hx : Shoot.ofNat rec.toNat = x) (hgood : x.bad = false)
    (htent : ∀ r ∈ s.rods, r.asid = x.asid → r.tent = []) (hlines : ∀ i ∈ s.inflight, i.asid ≠ x.asid) :
    ∃ t, exec (.shootdown rec) s = .next (completing t 0x08 x.seq) ∧
      (x.all = false → x.obj = false → ∀ e ∈ t.tlb, e.asid = x.asid →
        (e.vpn + 1) * 2 ^ e.bits ≤ x.vpn * 65536 ∨ (x.vpn + x.count) * 65536 ≤ e.vpn * 2 ^ e.bits) ∧
      (x.all = false → x.obj = true → ∀ o ∈ t.objCache, ¬ (o.asid = x.asid ∧ o.handle = x.vpn)) ∧
      (x.all = true → (∀ e ∈ t.tlb, e.asid ≠ x.asid) ∧ (∀ w ∈ t.walkCache, w.asid ≠ x.asid) ∧ ∀ o ∈ t.objCache, o.asid ≠ x.asid) ∧
      ∀ (u tk c : Nat) (r : Rod) (ls : List Nat) (hit full : Bool), s.rod? u = some r → r.asid = x.asid →
        r.status = .asleep (.waitv ls hit full) tk c →
        t.rod? u = some { r with status := .ready, resume := 0 } := by
  have hquiet : s.Quiet x.asid := ⟨hlines, fun v r hr ha => htent r (List.mem_of_find?_eq_some hr) ha⟩
  obtain ⟨-, -, -, hrods⟩ := hquiet.commits (s.shootRods x)
  rw [← State.shootCommits_eq] at hrods
  obtain ⟨htlb, hwalks, hobjs, -⟩ := (ringTaken (s.shootCommits x) h).shoot_caches x
  refine ⟨_, exec_shootdown_quiet hring hx hgood hquiet, fun hall hobj e he ha => ?_, fun hall hobj o ho hcovered => ?_,
    fun hall => ⟨fun e he ha => ?_, fun w hw ha => ?_, fun o ho ha => ?_⟩, fun u tk c r ls hit full hr ha hs => ?_⟩
  · rw [htlb] at he
    have hnot : (x.vpn + x.count) * 65536 ≤ e.vpn * 2 ^ e.bits ∨ (e.vpn + 1) * 2 ^ e.bits ≤ x.vpn * 65536 := by
      simpa [Shoot.coversPage, hall, hobj, ha] using (List.mem_filter.mp he).2
    exact hnot.symm
  · rw [hobjs] at ho
    have hnot := (List.mem_filter.mp ho).2
    simp [Shoot.coversObject, hall, hobj, hcovered] at hnot
  · rw [htlb] at he
    have hnot := (List.mem_filter.mp he).2
    simp [Shoot.coversPage, hall, ha] at hnot
  · rw [hwalks] at hw
    have hnot := (List.mem_filter.mp hw).2
    simp [Shoot.coversWalk, hall, ha] at hnot
  · rw [hobjs] at ho
    have hnot := (List.mem_filter.mp ho).2
    simp [Shoot.coversObject, hall, ha] at hnot
  · exact State.rod?_shoot_waitv (ringTaken_wrote _ h) (hrods u r hr ha) hs ha

end

/-- A reply with status 0 reaches the rod that awaits it (R292, R309). -/
theorem upcallReply_returns {s : State} {h x : Nat} {r : Rod} {msg : BitVec 4096} {k : Park} {call : Call}
    (hentry : s.sysEntry 0x30 = some h) (hring : (s.queueAt h).messageRing = true) (hcount : 2 ≤ (s.queueAt h).count)
    (hx : s.natAt (h + (s.queueAt h).recordAt (s.queueAt h).head) 256 +
      2 ^ 2048 * s.natAt (h + (s.queueAt h).recordAt ((s.queueAt h).head + 1)) 256 = x) (hmsg : msg.toNat = x)
    (hr : s.rods.find? (fun r => r.awaitsReply x) = some r) (hh : s.halted r.asid = false) (hk : r.status = .parked k)
    (hcall : k.call = some call) (hzero : field x 116 8 = 0) :
    ∃ t view, exec (.upcallReply msg) s = .next t ∧
      t.rod? r.uid = some ({ r.takeReply call.u call.d x with status := .ready, view := view } : Rod).advance.openRegion := by
  obtain ⟨stamps, hexec⟩ := exec_upcallReply_eq hentry hring hcount hx hmsg
  have hwrote := s.homeWriteNat_wrote (h + 8) 8 ((s.queueAt h).head + 2)
  obtain ⟨view, hrod⟩ := State.takeReply_returns (hwrote.find?_awaits hr hk) ((hwrote.halted r.asid).trans hh) hk hcall hzero
    stamps
  exact ⟨_, view, hexec, hrod⟩

/-- Settles O47: a record is taken by a write at its ring's header, which no parked rod, record or engine feels, and each
operation then takes the one branch that its hypotheses leave open. -/
theorem ringsComplete : Obligations.RingsComplete := by
  unfold Obligations.RingsComplete
  refine ⟨⟨fun s h val die recid seq u rec x r p hc hx hd hn hw hr hp hcls hrec hh => ⟨fun hv => ?_, fun hv hhandler hs hctx => ?_⟩,
    fun s h asid core slot seq rec r p hc hfind honly hp hhandler hh hs hctx hcls =>
      deliver_hands hc hfind honly hp hhandler hh hs hctx hcls,
    fun s h val hidx asid eng seq a rec cap hc heng hfree hmem hcap hv he hw hlo hhi hreach hsound hzero =>
      assignEngine_binds hc heng hfree hmem hcap (check_of_grants hv he hw hlo hhi) hreach hsound hzero,
    fun s h asid eng seq rec e hc heng he hasid => releaseEngine_frees hc heng he hasid,
    fun s h addr asid seq rec hc => setGroup_sets hc⟩,
    fun s h rec x hring hx hres hobj hsome htent hlines =>
      shootdown_completes hring hx (Shoot.not_bad hres hobj hsome) htent hlines,
    fun s h u l rec x r hring hx hres hobj hsome hr ha hl hcovers =>
      exec_shootdown_unstored hring hx (Shoot.not_bad hres hobj hsome)
        (State.mem_shootRods hr ha hl (Shoot.coversLine_of hcovers)),
    fun s h x r msg k call hentry hring hcount hx hmsg hr hh hk _ hcall hzero =>
      upcallReply_returns hentry hring hcount hx hmsg hr hh hk hcall hzero⟩
  · subst hv
    exact resolve_retries hc hx hd hn hw hr hp hcls hrec hh
  · subst hv
    exact resolve_fails hc hx hd hn hw hr hp hcls hrec hh hhandler hs hctx

end Sys2Proof.Claims
end

section
/-!
A chain-table entry that names a slot 32 or above stands for a slot of the next core: a SUMFREE that the halt lets finish
frees that slot and looks for transfers to the one that is named (R217, R421).
-/

namespace Sys2Proof.Claims

open Sys2Proof.Machine

/-- A rod that waits in a SUMFREE of the chain that its s0 names, chain 0. -/
def freeingRod : Rod := { placedRod with status := .asleep .sumfree 0 0 }

/-- Chain 0 of core 0, whose one slot is named as slot 33 of core 0: the slot table has slot 1 of core 1 in that place. -/
def strayChain : Chain := ⟨0, 0, 0, 0, [(0, 33)]⟩

/-- The entry of slot 1 of core 1, open for chain 0 of core 0, with one tile to come. -/
def strayEntry : Nat × Slot := (33, { Slot.empty with st := .open_, size := 1, count := 1, remain := 1 })

/-- A tile that is granted to slot 1 of core 1. -/
def strayTile : Transfer := ⟨0, 0, 1, 1, []⟩

/-- A fatal fault that is not yet recorded. -/
def openHalt : Halt := ⟨0, 9, 1, 0x10000, 0, 0, 0, 0, 0, 0, false, 0, 0, false⟩

/-- A device of these, whose context is halted. -/
def strayDevice : State :=
  { State.reset.place (encodeNat (.sumfree ⟨96⟩)) with
    rods := [freeingRod], ctxs := [⟨0, some openHalt, none, none, 0⟩], chains := [strayChain], slots := [strayEntry]
    transfers := [strayTile] }

/-- The outcome is a state in which the tile is still on its way. -/
def keepsStrayTile : Host.Outcome State Fault Refusal → Bool
  | .next t => t.transfers.contains strayTile
  | _ => false

theorem engineHaltStop_strayDevice_keeps : keepsStrayTile (exec (.engineHaltStop 0) strayDevice) = true := by decide +kernel

/-- Refutes O49: nothing in it keeps the slots of a chain below 32. At `strayDevice` the halt frees the open entry for the
SUMFREE that waits, since nothing is granted to slot 33 of core 0, and the tile stays on its way to slot 1 of core 1. -/
theorem not_haltsComplete : ¬ Obligations.HaltsComplete := by
  rintro ⟨hstop, -⟩
  obtain ⟨t, ht, -, -, -, -, -, -, -, -, hgone, -⟩ := hstop strayDevice 0 openHalt (by decide +kernel) rfl
    (by decide +kernel) (List.pairwise_singleton _ _)
  have hkeeps := engineHaltStop_strayDevice_keeps
  rw [ht] at hkeeps
  have hmem : strayTile ∈ t.transfers := List.contains_iff_mem.mp hkeeps
  exact hgone strayEntry (List.mem_singleton_self _) rfl (.inl rfl) strayTile hmem ⟨rfl, rfl⟩

end Sys2Proof.Claims
end


section
/-!
SUPPORT. Instructions on the windows of a frame (R176 to R185): the rod that issues one stays ready while its parts act, and
waits in no WDROP.
-/

namespace Sys2Proof.Machine

/-! ### A rod that stays ready -/

section
variable {s t : State} {r : Rod} {u v : Nat}

/-- The rod of the name, if there is one, is ready. -/
def State.ReadyRod (u : Nat) (s : State) : Prop := ∀ q, s.rod? u = some q → q.status = .ready

/-- A change of every rod that keeps the names and leaves ready rods ready. -/
theorem State.ReadyRod.of_map (h : s.ReadyRod u) {f : Rod → Rod} (hu : ∀ q, (f q).uid = q.uid)
    (hf : ∀ q, q.status = .ready → (f q).status = .ready) (hr : t.rods = s.rods.map f) : t.ReadyRod u := by
  intro q hq
  rw [State.rod?_of_map hu hr] at hq
  obtain ⟨p, hp, rfl⟩ := Option.map_eq_some_iff.mp hq
  exact hf p (h p hp)

theorem State.ReadyRod.modRod (h : s.ReadyRod u) {f : Rod → Rod} (hu : ∀ q, (f q).uid = q.uid)
    (hf : ∀ q, q.status = .ready → (f q).status = .ready) : (s.modRod v f).ReadyRod u :=
  h.of_map (f := fun q => if q.uid = v then f q else q) (fun q => by split <;> simp [hu])
    (fun q hq => by
      split
      · exact hf q hq
      · exact hq) rfl

theorem wakeOnWrite_ready {ws : List (Nat × Byte)} {ls : List Nat} {q : Rod} (h : q.status = .ready) :
    (wakeOnWrite ws ls q).status = .ready := by
  unfold wakeOnWrite
  simp only [h]

theorem State.ReadyRod.performLine (h : s.ReadyRod u) (i : Inflight) : (s.performLine i).ReadyRod u := by
  have hwrite : (s.pathWrite 0 (.core i.rod i.frame i.core) i.rel i.bytes).ReadyRod u :=
    h.of_map (wakeOnWrite_uid i.bytes (linesOf i.bytes)) (fun _ hq => wakeOnWrite_ready hq) (State.sendUpdates_rods _ _ _)
  exact hwrite.modRod (fun _ => rfl) fun _ hq => hq

theorem State.ReadyRod.commit (h : s.ReadyRod u) (v : Nat) : (s.commit v).ReadyRod u := by
  unfold State.commit
  split
  · exact h
  · split
    · exact h
    · exact State.ReadyRod.modRod (s := { s.take.2 with inflight := _ }) h (fun _ => rfl) fun _ hq => hq

theorem State.ReadyRod.commitPerform (h : s.ReadyRod u) (v : Nat) : (s.commitPerform v).ReadyRod u := by
  unfold State.commitPerform State.drain
  exact List.foldlRecOn (motive := fun t : State => t.ReadyRod u) _ _ (h.commit v) fun t ht i _ => ht.performLine i

/-- The issuing rod of the state is the rod `r`, as `State.Issuing` has it, and is ready. -/
def State.ReadyIssuing (r : Rod) (s : State) : Prop := ∃ q, s.curRod? = some q ∧ r.Alike q ∧ q.status = .ready

theorem State.ReadyIssuing.issuing (h : s.ReadyIssuing r) : s.Issuing r := by
  obtain ⟨q, hq, hk, -⟩ := h
  exact ⟨q, hq, hk⟩

/-- A commit leaves the rod that issues ready. -/
theorem State.begun_readyIssuing {i : Instr} (h : Issues s r i) (hc : commits i = true) (hl : lazyCommits i = false) :
    (s.begun r i).ReadyIssuing r := by
  have hcur : (s.setRod r.leave).curRod? = some r.leave := State.curRod?_setRod h.cur rfl
  obtain ⟨q, hq, hk⟩ := ((s.setRod r.leave).commitPerform_undisturbed r.uid).curRod? (r := r.leave) hcur
  have hready : ((s.setRod r.leave).commitPerform r.uid).ReadyRod r.uid := State.ReadyRod.commitPerform (fun p hp => by
    obtain rfl := Option.some.inj ((State.curRod?_eq hcur).2.symm.trans hp)
    exact h.ready) r.uid
  rw [State.begun_of_commits hc hl]
  exact ⟨q.openRegion, State.curRod?_alter (fun _ => rfl) hq hk.uid, hk.alike.trans q.openRegion_alike,
    hready q (hk.uid ▸ (State.curRod?_eq hq).2)⟩

/-- Changes that leave the rods leave the issuing one. -/
theorem State.ReadyIssuing.of_rods_eq (h : s.ReadyIssuing r) (hc : t.cur = s.cur) (hr : t.rods = s.rods) :
    t.ReadyIssuing r := by
  unfold State.ReadyIssuing State.curRod? State.rod? at *
  rwa [hc, hr]

/-- Rods that sleep in WDROP go on, and one that is ready is not changed. -/
theorem State.ReadyIssuing.wakeDroppers (h : s.ReadyIssuing r) (frame win : Nat) : (s.wakeDroppers frame win).ReadyIssuing r := by
  obtain ⟨q, hq, hk, hready⟩ := h
  obtain ⟨hcur, hrod⟩ := State.curRod?_eq hq
  refine ⟨q, (State.curRod?_of_cur (s := s.wakeDroppers frame win) (u := q.uid) hcur).trans ?_, hk, hready⟩
  rw [State.rod?_of_map (s := s) (fun p => ?_) rfl, hrod, Option.map_some]
  · simp only [hready]
  · split
    · split
      · exact Rod.served_uid _ _ _
      · rfl
    · rfl

end

/-! ### Parts that keep the rod issuing -/

section
variable {s t : State} {r : Rod} {i : Instr}

/-- What every part finds in its turn is taken, when what is known of the state says so and the turns keep it. -/
theorem eachTaken_of_keeps {α : Type} {ok : State → α → Prop} {turn : State → α → State} {P : State → Prop}
    {bs : List α} (hstep : ∀ b ∈ bs, ∀ t, P t → ok t b ∧ P (turn t b)) (h : P s) : Claims.eachTaken ok turn s bs := by
  induction bs generalizing s with
  | nil => trivial
  | cons b bs ih =>
    obtain ⟨hok, hnext⟩ := hstep b List.mem_cons_self s h
    exact ⟨hok, ih (fun c hc => hstep c (List.mem_cons_of_mem b hc)) hnext⟩

/-- A commit point whose parts each find what they need and take their turn, with the rod still issuing (R16, R146). -/
theorem execute_eachTaken {u : Bool} {part : Option Nat → M Unit} {ok : State → Option Nat → Prop}
    {turn : State → Option Nat → State} (h : Issues s r i) (hc : commits i = true) (hl : lazyCommits i = false)
    (hpart : ∀ b t, t.ReadyIssuing r → ok t b → part b t = (.ok (), turn t b) ∧ (turn t b).ReadyIssuing r)
    (htaken : Claims.eachTaken ok turn (s.begun r i) (r.parts u)) :
    execute i (M.each u part) s = .next (((r.parts u).foldl turn (s.begun r i)).through r i) := by
  have hready := State.begun_readyIssuing h hc hl
  obtain ⟨p, hp, hk, -⟩ := id hready
  obtain ⟨hloop, hend, -⟩ := M.forM_turns (f := part) (turn := turn)
    (P := fun bs t => t.ReadyIssuing r ∧ Claims.eachTaken ok turn t bs) (fun b bs t ⟨ht, hok, hrest⟩ => by
      obtain ⟨hb, hnext⟩ := hpart b t ht hok
      exact ⟨hb, hnext, hrest⟩) (r.parts u) ⟨hready, htaken⟩
  exact execute_turns h hl ((M.each_apply hp u part).trans (hk.loading.parts u ▸ hloop)) hend.issuing

/-- A condition that holds is no early end. -/
theorem M.need_ok {c : Bool} (hc : c = true) (e : Stop) (s : State) : M.need c e s = (.ok (), s) := by rw [hc]; rfl

/-- A capability with E over the bytes passes (R116, R117). -/
theorem M.checkCap_engine {b : Option Nat} {c : Cap} {byte size : Nat} (hv : c.v = true) (he : c.e = true)
    (hlo : c.lo.toNat ≤ byte) (hhi : byte + size ≤ c.hi.toNat) : M.checkCap b c { e := true } byte size t = (.ok (), t) := by
  have hc : c.check { e := true } byte size = none := by
    unfold Cap.check
    rw [hv, show c.grants { e := true } = true by simp [Cap.grants, he]]
    simp only [Bool.not_true, Bool.false_eq_true, if_false]
    exact if_neg (by omega)
  unfold M.checkCap
  rw [hc]
  rfl

end

/-! ### Windows that are freed and placed -/

section
variable {s : State} {r : Rod} {f : Frame}

theorem State.absentCells_eq (s : State) (core buf first n : Nat) :
    s.absentCells core buf first n = { s with cells := (s.absentCells core buf first n).cells } := by
  induction n with
  | zero => rfl
  | succ n ih =>
    unfold State.absentCells State.setCell
    dsimp only
    rw [ih]

theorem State.ReadyIssuing.freeWindows (h : s.ReadyIssuing r) (frame : Nat) (ns : List Nat) :
    (s.freeWindows frame ns).ReadyIssuing r := by
  induction ns generalizing s with
  | nil => exact h
  | cons n ns ih => exact ih (State.ReadyIssuing.wakeDroppers (s := s.modWindow frame n fun _ => Window.empty) h frame n)

theorem State.ReadyIssuing.placeWindow (h : s.ReadyIssuing r) (f : Frame) (n : Nat) (w : Window) :
    (s.placeWindow f n w).ReadyIssuing r := by
  have hrest := State.absentCells_eq s f.core w.buf (f.place w 0) w.cells
  exact h.of_rods_eq (t := s.placeWindow f n w) (congrArg State.cur hrest :) (congrArg State.rods hrest :)

theorem State.ReadyIssuing.bindWindow (h : s.ReadyIssuing r) (f : Frame) (n : Nat) (w : Window) :
    (s.bindWindow f n w).ReadyIssuing r := (h.freeWindows f.uid (f.together n)).placeWindow f n w

/-- The frame of the name, if there is one, is the one changed. -/
theorem State.frame?_modFrame (s : State) (u : Nat) {g : Frame → Frame} (hg : ∀ f, (g f).uid = f.uid) :
    (s.modFrame u g).frame? u = (s.frame? u).map g := by
  have huid (f : Frame) : (if f.uid = u then g f else f).uid = f.uid := by split <;> simp [hg]
  show (s.frames.map fun f => if f.uid = u then g f else f).find? (fun f => decide (f.uid = u)) =
    (s.frames.find? fun f => decide (f.uid = u)).map g
  rw [List.find?_map]
  simp only [Function.comp_def, huid]
  cases hf : s.frames.find? fun f => decide (f.uid = u) with
  | none => rfl
  | some f => simp [State.uid_of_frame? (s := s) hf]

theorem Frame.touch_windows_length (f : Frame) (x : Seen) (n : Nat) : (f.touch x n).windows.length = f.windows.length := by
  unfold Frame.touch
  split
  · rfl
  · dsimp only
    split
    · rfl
    · split
      · exact setNth_length _ _ _
      · split
        · exact setNth_length _ _ _
        · exact (setNth_length _ _ _).trans (setNth_length _ _ _)

end

end Sys2Proof.Machine
end

section
/-!
The settling of O37: WBIND, WCSR, WTOUCH and WDROP.
-/

namespace Sys2Proof.Machine

open Claims (wbindReady wbindTurn wbindWindow wcsrReady wcsrTurn wcsrWindow wdropReady wdropTurn)

section
variable {t : State} {r : Rod} {b : Option Nat}

/-! ### WBIND -/

/-- One part's effect of WBIND (R176, R177, R183). -/
def M.wbindPart (i : ShWbind) (b : Option Nat) : M Unit := do
  let r ← M.rod
  let f ← M.frame
  let x := (r.quad b i.a).toNat
  let off := (r.dword b i.b).toNat
  let n := field x 123 5
  let buf := field x 121 2
  let cell := field x 96 20
  let rows := field x 80 16 + 1
  let rowc := field x 68 12 + 1
  let stride := field x 32 32
  let c := r.cap i.c.toNat
  M.need (decide (n < f.windows.length)) (segmentFault b)
  M.need (decide (field x 116 5 = 0 ∧ field x 64 4 = 0 ∧ field x 0 32 = 0 ∧ stride % 16 = 0)) (segmentFault b)
  M.need (f.roomFor buf cell (rows * rowc) (f.otherWindows [n])) (segmentFault b)
  M.checkCap b c { e := true } off ((rows - 1) * stride + 16 * rowc)
  M.need (decide (off % 16 = 0)) (capFault b 3)
  M.upd fun s => s.bindWindow f n ⟨.bound, buf, cell, rows, rowc, stride, c, off, 0, none, none, r.view.seen, []⟩

theorem exec_wbind_eq (i : ShWbind) (s : State) : exec (.wbind i) s = execute (.wbind i) (M.each i.u (M.wbindPart i)) s := rfl

theorem M.wbindPart_ok {i : ShWbind} (h : t.ReadyIssuing r) (hok : wbindReady i r t b) :
    M.wbindPart i b t = (.ok (), wbindTurn i r t b) ∧ (wbindTurn i r t b).ReadyIssuing r := by
  refine ⟨?_, h.bindWindow _ _ _⟩
  obtain ⟨q, hq, hk, -⟩ := h
  obtain ⟨f, hf, hn, h116, h64, h0, hstride, hroom, hv, he, hlo, hhi, hoff⟩ := hok
  have hframe := M.frame_apply hq (hk.loading.frame ▸ hf)
  dsimp only [wbindWindow] at hroom hhi
  unfold M.wbindPart
  rw [M.bind_ok (M.rod_apply hq), M.bind_ok hframe]
  simp only [(hk.agrees b).quad, (hk.agrees b).dword, hk.loading.cap]
  rw [M.bind_ok (M.need_ok (decide_eq_true hn) _ _), M.bind_ok (M.need_ok (decide_eq_true ⟨h116, h64, h0, hstride⟩) _ _),
    M.bind_ok (M.need_ok hroom _ _), M.bind_ok (M.checkCap_engine hv he hlo (by simpa only [Nat.add_assoc] using hhi)),
    M.bind_ok (M.need_ok (decide_eq_true hoff) _ _)]
  unfold wbindTurn Claims.frameOf
  rw [hf, nowOf_eq hq hk.uid]
  rfl

/-! ### WCSR -/

/-- One part's effect of WCSR (R184, R185). -/
def M.wcsrPart (i : ShWbind) (b : Option Nat) : M Unit := do
  let r ← M.rod
  let f ← M.frame
  let x := (r.quad b i.a).toNat
  let rows := (r.dword b i.b).toNat
  let ni := field x 123 5
  let nv := field x 118 5
  let vw := 2 ^ field x 116 2
  let buf := field x 114 2
  let nmax := field x 96 16 + 1
  let icell := field x 76 20
  let vcell := field x 56 20
  let c := r.cap i.c.toNat
  M.need (decide (ni < f.windows.length ∧ nv < f.windows.length ∧ ni ≠ nv)) (segmentFault b)
  M.need (decide (field x 112 2 = 0 ∧ field x 0 56 = 0)) (segmentFault b)
  M.need (f.roomFor 0 icell (indexCells nmax) (f.otherWindows [ni, nv]) &&
    f.roomFor buf vcell (valueCells vw nmax) (f.otherWindows [ni, nv]) &&
    !(decide (buf = 0) && overlap icell (indexCells nmax) vcell (valueCells vw nmax))) (segmentFault b)
  M.checkCap b c { e := true } c.lo.toNat (c.hi.toNat - c.lo.toNat)
  let g (index : Bool) (partner : Nat) : Gather :=
    ⟨index, partner, vw, nmax, field rows 0 32, field rows 32 32, none, 0, [], []⟩
  M.upd fun s =>
    let s1 := (s.freeWindows f.uid (f.together ni)).freeWindows f.uid (f.together nv)
    let s2 := s1.placeWindow f ni ⟨.bound, 0, icell, 1, indexCells nmax, 0, c, 0, 0, some (g true nv), none, r.view.seen, []⟩
    s2.placeWindow f nv ⟨.bound, buf, vcell, 1, valueCells vw nmax, 0, c, 0, 0, some (g false ni), none, r.view.seen, []⟩

theorem exec_wcsr_eq (i : ShWbind) (s : State) : exec (.wcsr i) s = execute (.wcsr i) (M.each i.u (M.wcsrPart i)) s := rfl

theorem wcsrWindow_index (v : Seen) (c : Cap) (x rows : Nat) : wcsrWindow v true c x rows =
    ⟨.bound, 0, field x 76 20, 1, indexCells (field x 96 16 + 1), 0, c, 0, 0,
      some ⟨true, field x 118 5, 2 ^ field x 116 2, field x 96 16 + 1, field rows 0 32, field rows 32 32, none, 0, [], []⟩,
      none, v, []⟩ := by
  rw [Claims.field_zero rows 32]
  rfl

theorem wcsrWindow_value (v : Seen) (c : Cap) (x rows : Nat) : wcsrWindow v false c x rows =
    ⟨.bound, field x 114 2, field x 56 20, 1, valueCells (2 ^ field x 116 2) (field x 96 16 + 1), 0, c, 0, 0,
      some ⟨false, field x 123 5, 2 ^ field x 116 2, field x 96 16 + 1, field rows 0 32, field rows 32 32, none, 0, [], []⟩,
      none, v, []⟩ := by
  rw [Claims.field_zero rows 32]
  rfl

theorem overlap_eq_false {a n b m : Nat} (h : a + n ≤ b ∨ b + m ≤ a) : overlap a n b m = false :=
  decide_eq_false (by omega)

theorem M.wcsrPart_ok {i : ShWbind} (h : t.ReadyIssuing r) (hok : wcsrReady i r t b) :
    M.wcsrPart i b t = (.ok (), wcsrTurn i r t b) ∧ (wcsrTurn i r t b).ReadyIssuing r := by
  refine ⟨?_, (((h.freeWindows _ _).freeWindows _ _).placeWindow _ _ _).placeWindow _ _ _⟩
  obtain ⟨q, hq, hk, -⟩ := h
  obtain ⟨f, hf, hi, hv, hne, h112, h0, hroomi, hroomv, happart, hvalid, he, hle⟩ := hok
  have hframe := M.frame_apply hq (hk.loading.frame ▸ hf)
  simp only [wcsrWindow_index, wcsrWindow_value] at hroomi hroomv happart
  generalize hx : (r.quad b i.a).toNat = x at *
  have hapart : (decide (field x 114 2 = 0) && overlap (field x 76 20) (indexCells (field x 96 16 + 1)) (field x 56 20)
      (valueCells (2 ^ field x 116 2) (field x 96 16 + 1))) = false := by
    rw [Bool.and_eq_false_imp]
    exact fun hbuf => overlap_eq_false (happart (of_decide_eq_true hbuf))
  unfold M.wcsrPart
  rw [M.bind_ok (M.rod_apply hq), M.bind_ok hframe]
  simp only [(hk.agrees b).quad, (hk.agrees b).dword, hk.loading.cap, hx]
  rw [M.bind_ok (M.need_ok (decide_eq_true ⟨hi, hv, hne⟩) _ _), M.bind_ok (M.need_ok (decide_eq_true ⟨h112, h0⟩) _ _),
    hapart, Bool.not_false, Bool.and_true, M.bind_ok (M.need_ok (Bool.and_eq_true_iff.mpr ⟨hroomi, hroomv⟩) _ _),
    M.bind_ok (M.checkCap_engine hvalid he le_rfl (by omega))]
  unfold wcsrTurn Claims.frameOf
  rw [hf, nowOf_eq hq hk.uid]
  simp only [hx, wcsrWindow_index, wcsrWindow_value]
  rfl

/-! ### WTOUCH -/

/-- The window number of a part is one of its frame's (R175, R183). -/
theorem M.windowNumber_ok {q : Rod} {f : Frame} {a : BitVec 7} (hq : t.curRod? = some q) (hk : r.Alike q)
    (hf : t.frame? r.frame = some f) (hn : Claims.windowNumber r b a < 32 ∧ Claims.windowNumber r b a < f.windows.length) :
    M.windowNumber b a t = (.ok (Claims.windowNumber r b a), t) := by
  have hframe := M.frame_apply hq (hk.loading.frame ▸ hf)
  have hnumber : (if isS a then (q.sreg (sIndex a)).toNat else (q.vreg (beadNo b) a).toNat) = Claims.windowNumber r b a := by
    rw [(hk.agrees b).sreg, (hk.agrees b).vreg]
    rfl
  unfold M.windowNumber
  rw [M.bind_ok (M.rod_apply hq), M.bind_ok hframe, hnumber, M.bind_ok (M.need_ok (decide_eq_true hn) _ _)]
  rfl

/-- One part's effect of WTOUCH (R179). -/
def M.wtouchPart (i : ShUA) (b : Option Nat) : M Unit := do
  let n ← M.windowNumber b i.a
  let f ← M.frame
  let r ← M.rod
  M.upd fun s => s.modFrame f.uid fun f => f.touch r.view.seen n

theorem exec_wtouch_eq (i : ShUA) (s : State) : exec (.wtouch i) s = execute (.wtouch i) (M.each i.u (M.wtouchPart i)) s := rfl

/-- A part's WTOUCH of a window of the frame `fr`. -/
def wtouchTurn (i : ShUA) (r : Rod) (fr : Frame) (s : State) (b : Option Nat) : State :=
  s.modFrame fr.uid fun g => g.touch (Claims.nowOf s r).view.seen (Claims.windowNumber r b i.a)

/-- The rod's frame is `fr`, but for what becomes of its windows. -/
def State.FrameTouched (r : Rod) (fr : Frame) (s : State) : Prop :=
  ∃ g, s.frame? r.frame = some g ∧ g.uid = fr.uid ∧ g.windows.length = fr.windows.length

theorem State.FrameTouched.wtouchTurn {fr : Frame} (h : t.FrameTouched r fr) (i : ShUA) (b : Option Nat) :
    (wtouchTurn i r fr t b).FrameTouched r fr := by
  obtain ⟨g, hg, hu, hlen⟩ := h
  have huid (f : Frame) (x : Seen) (n : Nat) : (f.touch x n).uid = f.uid := Frame.uid_of_bare (f.bare_touch x n)
  have hframe : r.frame = fr.uid := (State.uid_of_frame? hg).symm.trans hu
  rw [hframe] at hg
  have htouched := State.frame?_modFrame t fr.uid fun f =>
    huid f (Claims.nowOf t r).view.seen (Claims.windowNumber r b i.a)
  rw [hg] at htouched
  exact ⟨_, (congrArg (State.frame? _) hframe).trans htouched, (huid g _ _).trans hu, (g.touch_windows_length _ _).trans hlen⟩

/-- A part of WTOUCH names a window of the rod's frame. -/
def wtouchReady (i : ShUA) (r : Rod) (fr : Frame) (s : State) (b : Option Nat) : Prop :=
  s.FrameTouched r fr ∧ Claims.windowNumber r b i.a < 32 ∧ Claims.windowNumber r b i.a < fr.windows.length

theorem M.wtouchPart_ok {i : ShUA} {fr : Frame} (h : t.ReadyIssuing r) (hok : wtouchReady i r fr t b) :
    M.wtouchPart i b t = (.ok (), wtouchTurn i r fr t b) ∧ (wtouchTurn i r fr t b).ReadyIssuing r := by
  refine ⟨?_, h⟩
  obtain ⟨q, hq, hk, -⟩ := h
  obtain ⟨⟨g, hg, hu, hlen⟩, hn⟩ := hok
  unfold M.wtouchPart
  rw [M.bind_ok (M.windowNumber_ok hq hk hg (hlen ▸ hn)), M.bind_ok (M.frame_apply hq (hk.loading.frame ▸ hg)),
    M.bind_ok (M.rod_apply hq), hu]
  unfold wtouchTurn
  rw [nowOf_eq hq hk.uid]
  rfl

/-! ### WDROP -/

/-- One part's effect of WDROP (R182). -/
def M.wdropPart (i : ShUA) (b : Option Nat) : M Unit := do
  let n ← M.windowNumber b i.a
  let f ← M.frame
  match (f.window n).st with
  | .free => pure ()
  | .copying | .draining =>
    M.upd fun s => (f.together n).foldl (fun s k => s.modWindow f.uid k fun w => { w with st := .draining }) s
    throw (.sleep (beadNo b) (.wdrop n) false)
  | _ => M.upd fun s => s.freeWindows f.uid (f.together n)

theorem exec_wdrop_eq (i : ShUA) (s : State) : exec (.wdrop i) s = execute (.wdrop i) (M.each i.u (M.wdropPart i)) s := rfl

theorem M.wdropPart_ok {i : ShUA} (h : t.ReadyIssuing r) (hok : wdropReady i r t b) :
    M.wdropPart i b t = (.ok (), wdropTurn i r t b) ∧ (wdropTurn i r t b).ReadyIssuing r := by
  obtain ⟨f, hf, hn32, hn, hcopying, hdraining⟩ := hok
  obtain ⟨q, hq, hk, -⟩ := id h
  unfold M.wdropPart wdropTurn Claims.frameOf
  rw [M.bind_ok (M.windowNumber_ok hq hk hf ⟨hn32, hn⟩), M.bind_ok (M.frame_apply hq (hk.loading.frame ▸ hf)), hf]
  dsimp only [Option.getD_some]
  cases hst : (f.window (Claims.windowNumber r b i.a)).st with
  | free => exact ⟨rfl, h⟩
  | copying => exact absurd hst hcopying
  | draining => exact absurd hst hdraining
  | bound | filled | stopped => exact ⟨rfl, h.freeWindows _ _⟩

end

end Sys2Proof.Machine

namespace Sys2Proof.Claims

open Sys2Proof.Machine

/-- Settles O37: the parts of each instruction act on the frame's windows and its cells, and the rod that issues them stays
ready, so that no window that is freed wakes it. -/
theorem windowsAreBound : Obligations.WindowsAreBound := by
  unfold Obligations.WindowsAreBound
  refine ⟨fun s r f h htaken => ?_, fun s r f h htaken => ?_, fun s r fr f h hf hn => ?_, fun s r f h htaken => ?_⟩
  · exact (exec_wbind_eq f s).trans (execute_eachTaken h rfl rfl (fun _ _ => M.wbindPart_ok) htaken)
  · exact (exec_wcsr_eq f s).trans (execute_eachTaken h rfl rfl (fun _ _ => M.wcsrPart_ok) htaken)
  · have hbegun : (s.begun r (.wtouch f)).FrameTouched r fr :=
      ⟨fr, (State.begun_frames_cells h rfl rfl r.frame).1.trans hf, rfl, rfl⟩
    exact (exec_wtouch_eq f s).trans (execute_eachTaken h rfl rfl (fun _ _ => M.wtouchPart_ok)
      (eachTaken_of_keeps (fun b hb t ht => ⟨⟨ht, hn b hb⟩, ht.wtouchTurn f b⟩) hbegun))
  · exact (exec_wdrop_eq f s).trans (execute_eachTaken h rfl rfl (fun _ _ => M.wdropPart_ok) htaken)

end Sys2Proof.Claims
end


section
/-!
SUPPORT. What the picker of a core looks at (R202): which of its tasks are ready depends on no window, no engine and no
governor, so that neither the picker's own touches nor a grant changes the task that it offers.
-/

namespace Sys2Proof.Machine

/-! ### Keys that are set, in tables that need not be canonical -/

theorem Sparse.get_of_unlisted {α : Type} {d : α} {m : List (Nat × α)} {a : Nat} (h : ∀ p ∈ m, p.1 ≠ a) : Sparse.get d m a = d := by
  induction m with
  | nil => rfl
  | cons c m ih =>
    exact (if_neg (h c List.mem_cons_self)).trans (ih fun p hp => h p (List.mem_cons_of_mem c hp))

section
variable {α : Type} [DecidableEq α] {d v : α}

/-- A key with another value than an unlisted one has it after the set, in a list of keys in any order. -/
theorem Sparse.get_set_self (m : List (Nat × α)) (a : Nat) (h : v ≠ d) : Sparse.get d (Sparse.set d m a v) a = v := by
  induction m with
  | nil =>
    unfold Sparse.set
    rw [if_neg h]
    exact if_pos rfl
  | cons c m ih =>
    obtain ⟨b, w⟩ := c
    unfold Sparse.set
    rw [if_neg h]
    split
    · exact if_pos rfl
    · split
      · exact if_pos rfl
      · exact (if_neg ‹¬b = a›).trans ih

/-- In a list of rising keys a key has what it was set to, listed or not. -/
theorem Sparse.get_set_self_of_rising {m : List (Nat × α)} (hm : Claims.rising m) (a : Nat) :
    Sparse.get d (Sparse.set d m a v) a = v := by
  by_cases h : v = d
  · subst h
    induction m with
    | nil => simp [Sparse.set, Sparse.get]
    | cons c m ih =>
      obtain ⟨b, w⟩ := c
      obtain ⟨hb, hrest⟩ := List.pairwise_cons.mp hm
      have habove (hab : a ≤ b) : Sparse.get v m a = v :=
        Sparse.get_of_unlisted fun p hp => (lt_of_le_of_lt hab (hb p.1 (List.mem_map_of_mem hp))).ne'
      unfold Sparse.set
      rw [if_pos rfl, if_pos rfl]
      split
      · next hab => exact (if_neg hab.ne').trans (habove hab.le)
      · split
        · next hab => exact habove hab.ge
        · next hab => exact (if_neg hab).trans (ih hrest)
  · exact Sparse.get_set_self m a h

end

/-! ### States that the picker cannot tell apart -/

/-- The owner of an operand's cells, but for its windows. -/
def Owner.bare : Owner → Owner
  | .bound f => .bound f.bare
  | o => o

/-- Where an operand lies, but for the windows of the frame. -/
def Place.bare : Place → Place
  | .at_ r f => .at_ r f.bare
  | p => p

theorem Place.bare_eq_refused {p : Place} : p.bare = .refused ↔ p = .refused := by cases p <;> simp [Place.bare]

theorem Place.bare_eq_later {p : Place} : p.bare = .later ↔ p = .later := by cases p <;> simp [Place.bare]

theorem Place.ranges_bare (p : Place) : p.bare.ranges = p.ranges := by cases p <;> rfl

/-- The tables that the picker reads are the same, but for the windows of frames. -/
structure State.SamePicks (s t : State) : Prop where
  tasks : t.tasks = s.tasks
  saved : t.saved = s.saved
  cells : t.cells = s.cells
  slots : t.slots = s.slots
  ctxs : t.ctxs = s.ctxs
  saving : t.saving = s.saving
  frames : t.frames.map Frame.bare = s.frames.map Frame.bare

/-- The owners that a frame's launch may have on a core, by their FRAMEIDs (R207, R208). -/
def State.ownersOn (s : State) (f : Frame) (core : Nat) : List (Nat × Owner) :=
  ((s.frames.filter fun g => decide (g.launch = f.launch ∧ g.core = core)).map fun g => (g.frameid.toNat, Owner.bound g)) ++
    (s.saved.filter fun b => decide (b.frame.launch = f.launch ∧ b.frame.core = core)).map fun b =>
      (b.frame.frameid.toNat, Owner.saved)

theorem State.ownerOn_eq (s : State) (f : Frame) (core : Nat) :
    s.ownerOn f core = ((sortBy Prod.fst (s.ownersOn f core)).head?.map Prod.snd).getD .nobody := by
  unfold State.ownerOn State.ownersOn
  dsimp only
  split
  · next h => rw [h]; rfl
  · next h => rw [h]; rfl

theorem insertBy_map {α β : Type} {key : β → Nat} (g : α → β) (x : α) (xs : List α) :
    insertBy key (g x) (xs.map g) = (insertBy (fun a => key (g a)) x xs).map g := by
  induction xs with
  | nil => rfl
  | cons y ys ih =>
    simp only [List.map_cons, insertBy]
    split
    · rfl
    · rw [ih, List.map_cons]

theorem sortBy_map {α β : Type} {key : β → Nat} (g : α → β) (xs : List α) :
    sortBy key (xs.map g) = (sortBy (fun a => key (g a)) xs).map g := by
  have hfold (ys : List α) : (xs.map g).foldl (fun l x => insertBy key x l) (ys.map g) =
      (xs.foldl (fun l x => insertBy (fun a => key (g a)) x l) ys).map g := by
    induction xs generalizing ys with
    | nil => rfl
    | cons x xs ih => simp only [List.map_cons, List.foldl_cons, insertBy_map, ih]
  exact hfold []

/-- An owner by its FRAMEID, but for its windows. -/
def bareOwner (p : Nat × Owner) : Nat × Owner := (p.1, p.2.bare)

section
variable {s t x : State} {f g : Frame}

theorem State.ownersOn_bare (s : State) (f : Frame) (core : Nat) : (s.ownersOn f core).map bareOwner =
    (((s.frames.map Frame.bare).filter fun g => decide (g.launch = f.launch ∧ g.core = core)).map fun g =>
      (g.frameid.toNat, Owner.bound g)) ++
    (s.saved.filter fun b => decide (b.frame.launch = f.launch ∧ b.frame.core = core)).map fun b =>
      (b.frame.frameid.toNat, Owner.saved) := by
  unfold State.ownersOn
  rw [List.map_append, List.map_map, List.map_map, List.filter_map, List.map_map]
  rfl

theorem Frame.core_of_bare (hb : g.bare = f.bare) : g.core = f.core := (congrArg Frame.core hb :)

namespace State.SamePicks

/-- A frame by its name is the same, but for its windows. -/
theorem frame?_bare (h : s.SamePicks t) (u : Nat) : (t.frame? u).map Frame.bare = (s.frame? u).map Frame.bare := by
  have hfind (y : State) : (y.frame? u).map Frame.bare = (y.frames.map Frame.bare).find? fun f => decide (f.uid = u) := by
    rw [List.find?_map]
    rfl
  rw [hfind, hfind, h.frames]

theorem sameSegments (h : s.SamePicks t) : s.SameSegments t := ⟨h.slots, h.frame?_bare⟩

theorem present (h : s.SamePicks t) (r : Range) : t.present r = s.present r := by
  unfold State.present
  have hcell (n : Nat) : t.cell r.core r.buf n = s.cell r.core r.buf n := congrArg (Sparse.get Cell.empty · _) h.cells
  simp only [h.sameSegments.seen (hcell _)]

theorem frameCell (h : s.SamePicks t) (hb : g.bare = f.bare) (buf cell : Nat) :
    t.frameCell g buf cell = s.frameCell f buf cell := by
  unfold State.frameCell State.cell
  rw [h.cells, Frame.seg_of_bare hb, Frame.core_of_bare hb]

theorem ownerOn (h : s.SamePicks t) (hb : g.bare = f.bare) (core : Nat) : (t.ownerOn g core).bare = (s.ownerOn f core).bare := by
  have hlaunch : g.launch = f.launch := (congrArg Frame.launch hb :)
  have howners : (t.ownersOn g core).map bareOwner = (s.ownersOn f core).map bareOwner := by
    rw [State.ownersOn_bare, State.ownersOn_bare, h.frames, h.saved, hlaunch]
  have hbare (l : List (Nat × Owner)) : (((sortBy Prod.fst l).head?.map Prod.snd).getD .nobody).bare =
      ((sortBy Prod.fst (l.map bareOwner)).head?.map Prod.snd).getD .nobody := by
    rw [sortBy_map]
    show _ = (((sortBy Prod.fst l).map bareOwner).head?.map Prod.snd).getD .nobody
    cases sortBy Prod.fst l <;> rfl
  rw [State.ownerOn_eq, State.ownerOn_eq, hbare, hbare, howners]

end State.SamePicks

/-! ### What depends on a frame but for its windows -/

theorem Operand.local_of_bare (hb : g.bare = f.bare) (o : Operand) : o.local_ g = o.local_ f := by
  unfold Operand.local_
  rw [Frame.core_of_bare hb]

theorem Frame.range_of_bare (hb : g.bare = f.bare) (buf cell len : Nat) : g.range buf cell len = f.range buf cell len := by
  unfold Frame.range
  rw [Frame.seg_of_bare hb, Frame.core_of_bare hb]

theorem Frame.fits_of_bare (hb : g.bare = f.bare) (buf cell len : Nat) : g.fits buf cell len = f.fits buf cell len := by
  unfold Frame.fits
  rw [Frame.seg_of_bare hb]

/-- The place of an operand on a core of an owner, but for the windows of the frames. -/
def Owner.placeBare (o : Operand) : Owner → Place
  | .nobody => .refused
  | .saved => .later
  | .bound g => if g.fits o.buf o.cell o.len then .at_ (g.range o.buf o.cell o.len) g.bare else .refused

theorem Owner.placeBare_bare (o : Operand) (w : Owner) : w.bare.placeBare o = w.placeBare o := by cases w <;> rfl

theorem State.placeOf_bare (s : State) (f : Frame) (o : Operand) : (s.placeOf f o).bare =
    if o.local_ f then .at_ (f.range o.buf o.cell o.len) f.bare
    else (s.ownerOn f (f.core / 4 * 4 + o.pos)).placeBare o := by
  unfold State.placeOf
  split
  · rfl
  · cases s.ownerOn f (f.core / 4 * 4 + o.pos) with
    | nobody => rfl
    | saved => rfl
    | bound g =>
      unfold Owner.placeBare
      dsimp only
      split <;> rfl

namespace State.SamePicks

theorem placeOf (h : s.SamePicks t) (hb : g.bare = f.bare) (o : Operand) : (t.placeOf g o).bare = (s.placeOf f o).bare := by
  rw [State.placeOf_bare, State.placeOf_bare, Operand.local_of_bare hb, Frame.range_of_bare hb, hb,
    Frame.core_of_bare hb, ← Owner.placeBare_bare, h.ownerOn hb, Owner.placeBare_bare]

theorem placeOf_refused (h : s.SamePicks t) (hb : g.bare = f.bare) (o : Operand) :
    (t.placeOf g o = .refused) = (s.placeOf f o = .refused) := by
  rw [← Place.bare_eq_refused, h.placeOf hb, Place.bare_eq_refused]

theorem placeOf_later (h : s.SamePicks t) (hb : g.bare = f.bare) (o : Operand) :
    (t.placeOf g o = .later) = (s.placeOf f o = .later) := by
  rw [← Place.bare_eq_later, h.placeOf hb, Place.bare_eq_later]

theorem taskRanges (h : s.SamePicks t) (hb : g.bare = f.bare) (x : BitVec 256) (af bf : Nat) :
    t.taskRanges g x af bf = s.taskRanges f x af bf := by
  unfold State.taskRanges
  simp only [← Place.ranges_bare (t.placeOf _ _), h.placeOf hb, Place.ranges_bare, Frame.range_of_bare hb]

theorem blocks (h : s.SamePicks t) (hb : g.bare = f.bare) (older : Task) (src res : List Range) :
    t.blocks g older src res = s.blocks f older src res := by
  unfold State.blocks
  simp only [h.taskRanges hb, Frame.uid_of_bare hb]

theorem descSizes (h : s.SamePicks t) (hb : g.bare = f.bare) (desc : Nat) : t.descSizes g desc = s.descSizes f desc := by
  unfold State.descSizes
  simp only [h.frameCell hb]

theorem descLayerCells (h : s.SamePicks t) (hb : g.bare = f.bare) (desc : Nat) :
    t.descLayerCells g desc = s.descLayerCells f desc := by
  unfold State.descLayerCells
  simp only [h.frameCell hb]

theorem descBad (h : s.SamePicks t) (hb : g.bare = f.bare) (desc nw inw : Nat) :
    t.descBad g desc nw inw = s.descBad f desc nw inw := by
  unfold State.descBad
  simp only [h.frameCell hb, h.descSizes hb, h.descLayerCells hb, Frame.fits_of_bare hb]

theorem inferRanges (h : s.SamePicks t) (hb : g.bare = f.bare) (desc input inw : Nat) :
    t.inferRanges g desc input inw = s.inferRanges f desc input inw := by
  unfold State.inferRanges
  simp only [h.frameCell hb, h.descLayerCells hb, Frame.range_of_bare hb]

/-- A task is ready for the same (R202, R208, R212). -/
theorem readiness (h : s.SamePicks t) (k : Task) : t.readiness k = s.readiness k := by
  have holder : t.olderThan k = s.olderThan k := congrArg (List.takeWhile _) h.tasks
  have hframe := h.frame?_bare k.frame
  unfold State.readiness
  cases hs : s.frame? k.frame with
  | none => rw [Option.map_eq_none_iff.mp (hframe.trans (congrArg _ hs))]
  | some f =>
    obtain ⟨g, hg, hb⟩ := Option.map_eq_some_iff.mp (hframe.trans (congrArg (Option.map Frame.bare) hs))
    rw [hg]
    cases k.kind with
    | tile x af bf =>
      simp only [h.placeOf_refused hb, h.placeOf_later hb, h.taskRanges hb, holder, h.blocks hb, funext h.present]
    | infer future desc input nw inw => simp only [h.inferRanges hb, h.descBad hb, funext h.present]

theorem waitingTasks (h : s.SamePicks t) (core : Nat) : t.waitingTasks core = s.waitingTasks core := by
  unfold State.waitingTasks State.halted State.halt? State.ctx? State.settlingOn
  rw [h.tasks, h.ctxs, h.saving]

theorem engineTask (h : s.SamePicks t) (core eng : Nat) : t.engineTask core eng = s.engineTask core eng := by
  unfold State.engineTask
  rw [h.tasks]

/-- The picker offers the same task (R202). -/
theorem oldestEligible (h : s.SamePicks t) (core : Nat) :
    (t.waitingTasks core).find? (fun k => decide (t.readiness k = .eligible)) =
      (s.waitingTasks core).find? fun k => decide (s.readiness k = .eligible) := by
  simp only [h.waitingTasks, h.readiness]

end State.SamePicks

/-! ### The picker's touches -/

/-- Windows of frames have been touched, and nothing else has changed. -/
def State.Rewindowed (s t : State) : Prop := ∃ fs, t = { s with frames := fs } ∧ fs.map Frame.bare = s.frames.map Frame.bare

namespace State.Rewindowed

theorem refl (s : State) : s.Rewindowed s := ⟨s.frames, rfl, rfl⟩

theorem trans (h : s.Rewindowed t) (h' : t.Rewindowed x) : s.Rewindowed x := by
  obtain ⟨fs, rfl, hfs⟩ := h
  obtain ⟨gs, rfl, hgs⟩ := h'
  exact ⟨gs, rfl, hgs.trans hfs⟩

theorem samePicks (h : s.Rewindowed t) : s.SamePicks t := by
  obtain ⟨fs, rfl, hfs⟩ := h
  exact ⟨rfl, rfl, rfl, rfl, rfl, rfl, hfs⟩

theorem touchCells (s : State) (x : Seen) (frame buf cell n : Nat) : s.Rewindowed (s.touchCells x frame buf cell n) := by
  refine ⟨s.frames.map (Frame.touched x frame buf cell n), rfl, ?_⟩
  rw [List.map_map]
  exact List.map_congr_left fun f _ => f.bare_touched x frame buf cell n

theorem touchAll (s : State) (x : Seen) (l : List (Nat × Nat × Nat × Nat)) : s.Rewindowed (s.touchAll x l) := by
  induction l generalizing s with
  | nil => exact refl s
  | cons p l ih => exact (touchCells s x p.1 p.2.1 p.2.2.1 p.2.2.2).trans (ih _)

end State.Rewindowed

/-- The state in which the picker of a core has checked its tasks (R202). -/
def State.pickerChecked (s : State) (core : Nat) : State :=
  (s.waitingTasks core).foldl (fun x t => x.touchAll t.seen (s.touchedBy t)) s

theorem State.pickerChecked_rewindowed (s : State) (core : Nat) : s.Rewindowed (s.pickerChecked core) :=
  List.foldlRecOn (motive := s.Rewindowed) _ _ (State.Rewindowed.refl s) fun _ hx _ _ => hx.trans (State.Rewindowed.touchAll _ _ _)

end

end Sys2Proof.Machine
end

section
/-!
SUPPORT. What the matrix engines' own steps change (R203, R213 to R215): an engine asks for a grant, a task issues on one, and a
burst ends.
-/

namespace Sys2Proof.Machine

section
variable {s : State} {core eng board n : Nat} {k : Task}

/-! ### Engines and governors -/

theorem State.engineMode_setEngine_self (s : State) (core eng : Nat) {m : EngineMode} (h : m ≠ .idle) :
    (s.setEngine core eng m).engineMode core eng = m := Sparse.get_set_self _ _ h

/-- An engine that ramps up does so after a change of an engine that does not. -/
theorem State.ramp_setEngine {c e : Nat} {m : EngineMode} (h : s.engineMode core eng = .ramp n)
    (hne : ∀ n, s.engineMode c e ≠ .ramp n) : (s.setEngine c e m).engineMode core eng = .ramp n := by
  have hkey : engineKey core eng ≠ engineKey c e := fun hk =>
    hne n ((congrArg (Sparse.get EngineMode.idle s.engines) hk).symm.trans h)
  exact (Sparse.get_set_of_ne _ _ hkey).trans h

theorem State.governor_setGovernor_self (s : State) (board : Nat) {g : Governor} (h : g ≠ ⟨0, 0, 0, 0, 0, []⟩) :
    (s.setGovernor board g).governor board = g := Sparse.get_set_self _ _ h

theorem State.governor_setGovernor_of_rising (h : Claims.rising s.governors) (board : Nat) (g : Governor) :
    (s.setGovernor board g).governor board = g := Sparse.get_set_self_of_rising h _

theorem State.governor_setGovernor_of_ne (s : State) {b : Nat} (g : Governor) (h : board ≠ b) :
    (s.setGovernor b g).governor board = s.governor board := Sparse.get_set_of_ne _ _ h

/-! ### Asking for a grant (R213) -/

/-- An engine that asks changes its board's governor alone. -/
theorem State.askGrant_eq (s : State) (core eng : Nat) :
    s.askGrant core eng = { s with governors := (s.askGrant core eng).governors } := by
  unfold State.askGrant
  dsimp only
  split <;> rfl

/-- An engine without a grant that asks for one waits for it. -/
theorem State.askGrant_waits (h : s.engineMode core eng = .idle) :
    engineKey core eng ∈ ((s.askGrant core eng).governor (boardOf core)).waiting := by
  unfold State.askGrant
  dsimp only
  split
  · next hasked =>
    rcases hasked with hmode | hwaits
    · exact absurd h hmode
    · exact List.contains_iff_mem.mp hwaits
  · rw [State.governor_setGovernor_self _ _ fun he => by simpa using congrArg Governor.waiting he]
    exact List.mem_append_right _ List.mem_cons_self

/-- Who waits goes on waiting in front of an engine that asks. -/
theorem State.askGrant_waiting (s : State) (core eng board : Nat) :
    ∃ ls, ((s.askGrant core eng).governor board).waiting = (s.governor board).waiting ++ ls := by
  unfold State.askGrant
  dsimp only
  split
  · exact ⟨[], (List.append_nil _).symm⟩
  · by_cases hb : board = boardOf core
    · subst hb
      rw [State.governor_setGovernor_self _ _ fun he => by simpa using congrArg Governor.waiting he]
      exact ⟨_, rfl⟩
    · rw [State.governor_setGovernor_of_ne _ _ hb]
      exact ⟨[], (List.append_nil _).symm⟩

/-! ### Issue (R203) -/

/-- The state in which a task issues on an engine: a ramp-down is cancelled (R214). -/
def State.rampDownCancelled (s : State) (core eng : Nat) : State :=
  match s.engineMode core eng with
  | .down _ => s.setEngine core eng .granted
  | _ => s

theorem State.rampDownCancelled_eq (s : State) (core eng : Nat) :
    s.rampDownCancelled core eng = { s with engines := (s.rampDownCancelled core eng).engines } := by
  unfold State.rampDownCancelled
  split <;> rfl

theorem State.ramp_rampDownCancelled {c e : Nat} (h : s.engineMode core eng = .ramp n) :
    (s.rampDownCancelled c e).engineMode core eng = .ramp n := by
  unfold State.rampDownCancelled
  split
  · next hdown => exact State.ramp_setEngine h fun m hm => by rw [hdown] at hm; cases hm
  · exact h

/-- The issue of a task on an engine whose ramp-down is cancelled. -/
def State.issuedOn (s : State) (k : Task) (eng : Nat) : State :=
  match s.frame? k.frame, k.kind with
  | some f, .tile x af bf => s.issueTile k f x af bf eng
  | _, _ => s.modTask k.uid fun t => { t with phase := .running eng 0 }

theorem State.issueOn_eq (s : State) (k : Task) (eng : Nat) :
    s.issueOn k eng = (s.rampDownCancelled k.core eng).issuedOn k eng := rfl

/-- A task that issues changes cells and its own entry. -/
theorem State.issuedOn_spec (s : State) (k : Task) (eng : Nat) : ∃ (cells : List (Nat × Cell)) (g : Task → Task),
    (∀ q, (g q).uid = q.uid ∧ (g q).phase = .running eng 0) ∧ s.issuedOn k eng = { s with cells := cells }.modTask k.uid g := by
  unfold State.issuedOn
  split
  · unfold State.issueTile
    dsimp only
    rw [State.absentCells_eq, State.absentCells_eq s]
    refine ⟨_, _, ?_, rfl⟩
    exact fun _ => ⟨rfl, rfl⟩
  · refine ⟨s.cells, _, ?_, rfl⟩
    exact fun _ => ⟨rfl, rfl⟩

/-- A task that issues runs on its engine (R203). -/
theorem State.issueOn_runs (h : k ∈ s.tasks) (eng : Nat) :
    ∃ q ∈ (s.issueOn k eng).tasks, q.uid = k.uid ∧ q.phase = .running eng 0 := by
  obtain ⟨cells, g, hg, heq⟩ := (s.rampDownCancelled k.core eng).issuedOn_spec k eng
  rw [State.issueOn_eq, heq, s.rampDownCancelled_eq]
  exact ⟨_, List.mem_map_of_mem h, by rw [if_pos rfl]; exact hg k⟩

theorem State.issueOn_governors (s : State) (k : Task) (eng : Nat) : (s.issueOn k eng).governors = s.governors := by
  obtain ⟨cells, g, -, heq⟩ := (s.rampDownCancelled k.core eng).issuedOn_spec k eng
  rw [State.issueOn_eq, heq, s.rampDownCancelled_eq]
  rfl

theorem State.ramp_issueOn {e : Nat} (h : s.engineMode core eng = .ramp n) : (s.issueOn k e).engineMode core eng = .ramp n := by
  obtain ⟨cells, g, -, heq⟩ := (s.rampDownCancelled k.core e).issuedOn_spec k e
  rw [State.issueOn_eq, heq]
  exact State.ramp_rampDownCancelled h

/-! ### The offer (R202, R213) -/

/-- The oldest eligible task of a core (R202). -/
def State.oldestEligible? (s : State) (core : Nat) : Option Task :=
  (s.waitingTasks core).find? fun t => decide (s.readiness t = .eligible)

theorem State.mem_of_oldestEligible? (h : s.oldestEligible? core = some k) : k ∈ s.tasks :=
  List.mem_of_mem_filter (List.mem_of_find?_eq_some h)

/-- What a core's offer is: nothing, an engine's request for a grant, or the issue of its oldest eligible task. -/
theorem State.offerOldest_cases (s : State) (core : Nat) :
    s.offerOldest core = s ∨ (∃ e, s.offerOldest core = s.askGrant core e) ∨ ∃ k e, s.offerOldest core = s.issueOn k e := by
  unfold State.offerOldest
  split
  · next k e _ _ =>
    split
    · exact .inr (.inl ⟨e, rfl⟩)
    · exact .inr (.inr ⟨k, e, rfl⟩)
  · exact .inl rfl

/-- Engine 0 is free for the oldest eligible task. -/
theorem State.offerOldest_eq (hk : s.oldestEligible? core = some k) (hfree : s.engineTask core 0 = none) :
    s.offerOldest core = if s.engineMode core 0 = .idle then s.askGrant core 0 else s.issueOn k 0 := by
  unfold State.offerOldest
  rw [show (s.waitingTasks core).find? (fun t => decide (s.readiness t = .eligible)) = some k from hk,
    show [0, 1].find? (fun e => (s.engineTask core e).isNone) = some 0 from List.find?_cons_of_pos (by rw [hfree]; rfl)]

/-- An offer leaves those who wait for a grant in front. -/
theorem State.offerOldest_waiting (s : State) (core board : Nat) :
    ∃ ls, ((s.offerOldest core).governor board).waiting = (s.governor board).waiting ++ ls := by
  rcases s.offerOldest_cases core with h | ⟨e, h⟩ | ⟨k, e, h⟩
  · exact ⟨[], by rw [h, List.append_nil]⟩
  · rw [h]
    exact s.askGrant_waiting core e board
  · refine ⟨[], ?_⟩
    unfold State.governor
    rw [h, s.issueOn_governors, List.append_nil]

theorem State.ramp_offerOldest {c : Nat} (h : s.engineMode core eng = .ramp n) :
    (s.offerOldest c).engineMode core eng = .ramp n := by
  rcases s.offerOldest_cases c with ho | ⟨e, ho⟩ | ⟨k, e, ho⟩
  · rw [ho]
    exact h
  · rw [ho, s.askGrant_eq]
    exact h
  · rw [ho]
    exact State.ramp_issueOn h

/-- With no task refused, the picker touches windows and makes its offer (R202). -/
theorem exec_taskPick_unrefused (h : ∀ t ∈ s.waitingTasks core, s.readiness t ≠ .refused) :
    exec (.taskPick core) s = .next ((s.pickerChecked core).offerOldest core) := by
  have hnone : (s.waitingTasks core).find? (fun t => decide (s.readiness t = .refused)) = none :=
    List.find?_eq_none.mpr fun t ht => by simpa using h t ht
  show execTaskPick core s = _
  unfold execTaskPick
  rw [hnone]
  rfl

/-! ### Bursts (R215) -/

theorem State.rest_eq (s : State) (core eng : Nat) : s.rest core eng = { s with engines := (s.rest core eng).engines } := by
  unfold State.rest
  split <;> rfl

/-- The end of a burst changes the bursts and engines alone. -/
theorem State.endBurst_eq (s : State) (core eng : Nat) :
    s.endBurst core eng = { s with
      bursts := s.bursts.filter fun b => !decide (b.core = core ∧ b.eng = eng), engines := (s.endBurst core eng).engines } := by
  unfold State.endBurst
  split
  · next hnone =>
    have hall : s.bursts.filter (fun b => !decide (b.core = core ∧ b.eng = eng)) = s.bursts :=
      List.filter_eq_self.mpr fun b hb => by
        have hfind := List.find?_eq_none.mp (Option.isNone_iff_eq_none.mp hnone) b hb
        rw [Bool.not_eq_true] at hfind
        rw [hfind]
        rfl
    rw [hall]
  · dsimp only
    split
    · rw [State.rest_eq]
      simp only [State.setBurst, Option.toList_none, List.append_nil]
    · simp only [State.setBurst, Option.toList_none, List.append_nil]

/-- An engine's turn in BURST_END: a burst that has run its length ends (R215). -/
def State.burstStep (core : Nat) (s : State) (eng : Nat) : State := if s.burstOver core eng then s.endBurst core eng else s

theorem State.burst?_endBurst (s : State) (core eng e : Nat) :
    (s.endBurst core eng).burst? core e = if e = eng then none else s.burst? core e := by
  rw [State.endBurst_eq]
  unfold State.burst?
  dsimp only
  rw [List.find?_filter]
  split
  · next he =>
    subst he
    exact List.find?_eq_none.mpr fun b _ => by simp [← not_and_or]
  · next he =>
    congr 1
    funext b
    by_cases hb : b.core = core ∧ b.eng = e
    · simp [hb, he]
    · simp [hb]

theorem State.burstStep_spec (s : State) (core eng : Nat) :
    (s.burstStep core eng).tasks = s.tasks ∧ (s.burstStep core eng).clk = s.clk ∧
      ∀ e, (s.burstStep core eng).burst? core e = if e = eng ∧ s.burstOver core eng then none else s.burst? core e := by
  unfold State.burstStep
  split
  · next hover =>
    refine ⟨by rw [State.endBurst_eq], by rw [State.endBurst_eq], fun e => ?_⟩
    rw [State.burst?_endBurst]
    simp [hover]
  · next hover => exact ⟨rfl, rfl, fun e => by simp [hover]⟩

theorem State.burstOver_iff {b : Burst} (h : s.burst? core eng = some b) :
    s.burstOver core eng = true ↔ ∃ n, b.until_ = some n ∧ n ≤ s.clk.toNat := by
  unfold State.burstOver
  rw [h]
  show b.until_.any (fun t => decide (t ≤ s.clk.toNat)) = true ↔ _
  rw [Option.any_eq_true]
  simp only [decide_eq_true_eq]

end

end Sys2Proof.Machine
end

section
/-!
The settling of O46: the steps of the matrix engines and their governors.
-/

namespace Sys2Proof.Machine

section
variable {s : State} {core eng board n e : Nat} {k : Task} {f : Frame}

/-! ### The picker and the governor -/

/-- An engine without a grant asks for one, and the tasks stay as they are (R202, R213). -/
theorem exec_taskPick_asks (hk : s.oldestEligible? core = some k) (hne : ∀ t ∈ s.waitingTasks core, s.readiness t ≠ .refused)
    (hfree : s.engineTask core 0 = none) (hidle : s.engineMode core 0 = .idle) :
    ∃ t, exec (.taskPick core) s = .next t ∧ t.tasks = s.tasks ∧ core * 2 ∈ (t.governor (core / 4)).waiting := by
  have hp := s.pickerChecked_rewindowed core
  have hmode : (s.pickerChecked core).engineMode core 0 = .idle := by
    obtain ⟨fs, heq, -⟩ := hp
    rw [heq]
    exact hidle
  refine ⟨_, exec_taskPick_unrefused hne, ?_, ?_⟩
  all_goals rw [State.offerOldest_eq ((hp.samePicks.oldestEligible core).trans hk) ((hp.samePicks.engineTask core 0).trans hfree),
    if_pos hmode]
  · rw [State.askGrant_eq]
    exact hp.samePicks.tasks
  · exact State.askGrant_waits hmode

/-- With a grant in hand the oldest eligible task issues (R203, R213). -/
theorem exec_taskPick_issues (hk : s.oldestEligible? core = some k) (hne : ∀ t ∈ s.waitingTasks core, s.readiness t ≠ .refused)
    (hfree : s.engineTask core 0 = none) (hgranted : s.engineMode core 0 = .granted) :
    ∃ t, exec (.taskPick core) s = .next t ∧ ∃ q ∈ t.tasks, q.uid = k.uid ∧ q.phase = .running 0 0 := by
  have hp := s.pickerChecked_rewindowed core
  have hk' : (s.pickerChecked core).oldestEligible? core = some k := (hp.samePicks.oldestEligible core).trans hk
  have hmode : (s.pickerChecked core).engineMode core 0 = .granted := by
    obtain ⟨fs, heq, -⟩ := hp
    rw [heq]
    exact hgranted
  refine ⟨_, exec_taskPick_unrefused hne, ?_⟩
  rw [State.offerOldest_eq hk' ((hp.samePicks.engineTask core 0).trans hfree), if_neg (by rw [hmode]; decide)]
  exact State.issueOn_runs (State.mem_of_oldestEligible? hk') 0

/-- The state in which a governor has granted to the engine of a key, before its core's offer (R213, R214). -/
def State.grantGiven (s : State) (board k : Nat) (ks : List Nat) : State :=
  (s.setGovernor board { s.governor board with waiting := ks }).setEngine (k / 2) (k % 2) (.ramp (s.clk.toNat + 64))

theorem State.samePicks_grantGiven (s : State) (board k : Nat) (ks : List Nat) : s.SamePicks (s.grantGiven board k ks) :=
  ⟨rfl, rfl, rfl, rfl, rfl, rfl, rfl⟩

theorem State.engineMode_grantGiven (s : State) (board k : Nat) (ks : List Nat) :
    (s.grantGiven board k ks).engineMode (k / 2) (k % 2) = .ramp (s.clk.toNat + 64) :=
  State.engineMode_setEngine_self _ _ _ (by simp)

theorem exec_governorGrant_grants {k : Nat} {ks : List Nat} (hw : (s.governor board).waiting = k :: ks)
    (hfree : s.grantsHeld board < s.grantCount board) :
    exec (.governorGrant board) s = .next ((s.grantGiven board k ks).offerOldest (k / 2)) := by
  show execGovernorGrant board s = _
  unfold execGovernorGrant
  dsimp only
  rw [hw]
  exact if_neg (by omega)

/-- The first engine that waits ramps up, those behind it wait on, and its core's task issues where it is engine 0 that is
free for one (R203, R213, R214). -/
theorem exec_governorGrant_spec {k : Nat} {ks : List Nat} (hw : (s.governor board).waiting = k :: ks)
    (hrise : Claims.rising s.governors) (hcount : s.grantsHeld board < s.grantCount board) :
    ∃ t ls, exec (.governorGrant board) s = .next t ∧ (t.governor board).waiting = ks ++ ls ∧
      t.engineMode (k / 2) (k % 2) = .ramp (s.clk.toNat + 64) ∧
      ∀ x, s.oldestEligible? (k / 2) = some x → k % 2 = 0 → s.engineTask (k / 2) 0 = none →
        ∃ q ∈ t.tasks, q.uid = x.uid ∧ q.phase = .running 0 0 := by
  have hsame := s.samePicks_grantGiven board k ks
  have hramp := s.engineMode_grantGiven board k ks
  have hwaiting : ((s.grantGiven board k ks).governor board).waiting = ks :=
    congrArg Governor.waiting (State.governor_setGovernor_of_rising hrise board _)
  obtain ⟨ls, hls⟩ := (s.grantGiven board k ks).offerOldest_waiting (k / 2) board
  refine ⟨_, ls, exec_governorGrant_grants hw hcount, hls.trans (congrArg (· ++ ls) hwaiting), State.ramp_offerOldest hramp,
    fun x hx hzero hfree => ?_⟩
  have hx' : (s.grantGiven board k ks).oldestEligible? (k / 2) = some x := (hsame.oldestEligible (k / 2)).trans hx
  rw [hzero] at hramp
  rw [State.offerOldest_eq hx' ((hsame.engineTask (k / 2) 0).trans hfree), if_neg (by rw [hramp]; simp)]
  exact State.issueOn_runs (State.mem_of_oldestEligible? hx') 0

/-! ### Ramps -/

theorem exec_rampUpComplete_burst (h : s.engineMode core eng = .ramp n) {b : Burst} (hb : s.burst? core eng = some b) :
    exec (.rampUpComplete core eng) s =
      .next ((s.setEngine core eng .granted).setBurst core eng (some { b with until_ := some (s.clk.toNat + b.len) })) := by
  show execRampUpComplete core eng s = _
  unfold execRampUpComplete
  rw [h, hb]
  rfl

theorem exec_rampUpComplete_idle (h : s.engineMode core eng = .ramp n) (hb : s.burst? core eng = none) :
    exec (.rampUpComplete core eng) s = .next (if (s.engineTask core eng).isNone then
      (s.setEngine core eng .granted).rest core eng else s.setEngine core eng .granted) := by
  show execRampUpComplete core eng s = _
  unfold execRampUpComplete
  rw [h, hb]

/-- An engine with its grant and no burst to keep ramps down (R214). -/
theorem State.rest_granted (h : s.engineMode core eng = .granted) (hb : s.burst? core eng = none) :
    s.rest core eng = s.setEngine core eng (.down (s.clk.toNat + 34)) := by
  unfold State.rest
  rw [hb, h]
  rfl

/-! ### Tasks that run and write -/

/-- A unit whose panels are present adds its sums (R203, R206). -/
theorem exec_taskUnitComplete_present {x : BitVec 256} {af bf : Nat} {ra rb : Range} (ht : s.engineTask core eng = some k)
    (hp : k.phase = .running e n) (hk : k.kind = .tile x af bf) (hsrc : k.src = [ra, rb])
    (ha : s.present (ra.panel af (recMt x) (n / (recMt x * recNt x))) = true)
    (hb : s.present (rb.panel bf (recNt x) (n / (recMt x * recNt x))) = true) :
    let tile := n % (recMt x * recNt x)
    let as := s.tileRows ra af (recMt x) (n / (recMt x * recNt x)) (tile / recNt x)
    let bs := s.tileRows rb bf (recNt x) (n / (recMt x * recNt x)) (tile % recNt x)
    let ys := unitSums ((k.acc.drop (4096 * tile)).take 4096) as.1 bs.1
    exec (.taskUnitComplete core eng) s = .next (s.modTask k.uid fun t => { t with
      acc := splice t.acc (4096 * tile) ys.1
      flags := t.flags ||| as.2 ||| bs.2 ||| ys.2
      phase := if n + 1 = recMt x * recNt x * recKt x then .writing e 0 else .running e (n + 1) }) := by
  intro tile as bs ys
  show execTaskUnitComplete core eng s = _
  unfold execTaskUnitComplete
  rw [ht]
  dsimp only
  rw [hp, hk]
  dsimp only
  rw [hsrc]
  dsimp only
  rw [ha, hb]
  rfl

theorem exec_taskDoneWrite_cells {x : BitVec 256} {af bf : Nat} (ht : s.engineTask core eng = some k)
    (hp : k.phase = .writing e n) (hk : k.kind = .tile x af bf) (hf : s.frame? k.frame = some f)
    (hn : n < recMt x * recNt x * 2048) :
    exec (.taskDoneWrite core eng) s = .next ((s.modTask k.uid fun t => { t with
      phase := .writing e (n + writeRate (recC x).1) }).writeCells f.core (recC x).1
        ((f.seg (recC x).1).base.toNat + (recC x).2.1 + n) (accCells ((k.acc.drop (2 * n)).take (2 * writeRate (recC x).1)))) := by
  show execTaskDoneWrite core eng s = _
  unfold execTaskDoneWrite
  rw [ht]
  dsimp only
  rw [hp, hk, hf]
  exact if_pos hn

theorem exec_taskDoneWrite_done {x : BitVec 256} {af bf : Nat} (ht : s.engineTask core eng = some k)
    (hp : k.phase = .writing e n) (hk : k.kind = .tile x af bf) (hf : s.frame? k.frame = some f)
    (hn : recMt x * recNt x * 2048 ≤ n) :
    exec (.taskDoneWrite core eng) s = .next ((s.dropTask k).writeCell f.core 0 (f.segS.base.toNat + recDone x)
      (doneCell s.clk (recField x 192 32) k.flags 0 (recKt x) 0)) := by
  show execTaskDoneWrite core eng s = _
  unfold execTaskDoneWrite
  rw [ht]
  dsimp only
  rw [hp, hk, hf]
  exact if_neg (not_lt.mpr hn)

/-- A request whose descriptor is well formed writes its future, cell F last (R212). -/
theorem exec_inferComplete_good {future desc input nw inw : Nat} (ht : s.engineTask core eng = some k)
    (hp : k.phase = .running e n) (hk : k.kind = .infer future desc input nw inw) (hf : s.frame? k.frame = some f)
    (hgood : s.descBad f desc nw inw = false) :
    let y := s.layers f (s.descLayerCells f desc) (halves (s.rangeNat (f.range 0 input (4 * inw))) (32 * inw))
    let cells := halfCells (8 * nw) y.1
    let first := f.segS.base.toNat + future
    exec (.inferComplete core eng) s = .next (((s.writeCells f.core 0 (first + 1) (cells.drop 1)).writeCells f.core 0 first
      (cells.take 1)).dropTask { k with flags := k.flags ||| y.2 }) := by
  intro y cells first
  show execInferComplete core eng s = _
  unfold execInferComplete
  rw [ht]
  dsimp only
  rw [hp, hk, hf]
  dsimp only
  rw [hgood]
  rfl

theorem exec_grantReturn_down (h : s.engineMode core eng = .down n) :
    exec (.grantReturn core eng) s = .next (s.setEngine core eng .idle) := by
  show execGrantReturn core eng s = _
  unfold execGrantReturn
  rw [h]

/-! ### The end of bursts -/

/-- The state after BURST_END has looked at both engines of a core (R215). -/
def State.burstsEnded (s : State) (core : Nat) : State := (s.burstStep core 0).burstStep core 1

theorem exec_burstEnd (core : Nat) (s : State) : exec (.burstEnd core) s = .next (s.burstsEnded core) := rfl

theorem State.burst?_burstsEnded (s : State) (core : Nat) (h : eng < 2) :
    (s.burstsEnded core).burst? core eng = if s.burstOver core eng then none else s.burst? core eng := by
  obtain ⟨-, hclk, hzero⟩ := s.burstStep_spec core 0
  obtain ⟨-, -, hone⟩ := (s.burstStep core 0).burstStep_spec core 1
  unfold State.burstsEnded
  rw [hone, hzero]
  obtain rfl | rfl : eng = 0 ∨ eng = 1 := by omega
  · simp
  · have hover : (s.burstStep core 0).burstOver core 1 = s.burstOver core 1 := by
      unfold State.burstOver State.now
      rw [hzero 1, hclk]
      rfl
    simp [hover]

theorem State.tasks_burstsEnded (s : State) (core : Nat) : (s.burstsEnded core).tasks = s.tasks :=
  ((s.burstStep core 0).burstStep_spec core 1).1.trans (s.burstStep_spec core 0).1

/-! ### The count of grants (R322) -/

theorem State.grantCount_logTherm (s : State) (b board : Nat) : (s.logTherm b).grantCount board = s.grantCount board := rfl

/-- The grants that a governor may have out when it has become `g`. -/
theorem State.grantCount_setGovernor (s : State) (board : Nat) {g : Governor} (h : g ≠ ⟨0, 0, 0, 0, 0, []⟩) :
    (s.setGovernor board g).grantCount board = s.config.gb - (g.dieHot + g.stackHot) - g.capped := by
  unfold State.grantCount
  rw [State.governor_setGovernor_self s board h]
  rfl

/-- A hot board has one grant less for what is hot. -/
theorem Governor.heat_counts (g : Governor) (die now : Nat) :
    (g.heat die now).dieHot + (g.heat die now).stackHot = g.dieHot + g.stackHot + 1 ∧ (g.heat die now).capped = g.capped := by
  unfold Governor.heat
  split
  · exact ⟨by dsimp only; omega, rfl⟩
  · exact ⟨by dsimp only; omega, rfl⟩

/-- A board with a grant lost to what is cool again has it back. -/
theorem Governor.cool_counts {g : Governor} {die stack now : Nat}
    (h : 0 < g.dieHot ∧ die < 95 ∨ 0 < g.stackHot ∧ stack < 90) : ∃ c, g.cool die stack now = some c ∧
      c.dieHot + c.stackHot + 1 = g.dieHot + g.stackHot ∧ c.capped = g.capped ∧ c.hotAt = now := by
  unfold Governor.cool
  by_cases hdie : 0 < g.dieHot ∧ die < 95
  · exact ⟨_, if_pos hdie, by dsimp only; omega, rfl, rfl⟩
  · have hstack := h.resolve_left hdie
    exact ⟨_, (if_neg hdie).trans (if_pos hstack), by dsimp only; omega, rfl, rfl⟩

/-- A hot board with more than two grants loses one (R322). -/
theorem exec_grantCountAdjust_hot (hdue : (s.governor board).hotAt + 21000000 ≤ s.clk.toNat) (hroom : 2 < s.grantCount board)
    (hhot : 100 ≤ (s.boardTemps board).1 ∨ 95 ≤ (s.boardTemps board).2) :
    ∃ t, exec (.grantCountAdjust board) s = .next t ∧ t.grantCount board = s.grantCount board - 1 := by
  have hexec : exec (.grantCountAdjust board) s = .next ((s.setGovernor board
      ((s.governor board).heat (s.boardTemps board).1 s.now)).logTherm board) := by
    show execGrantCountAdjust board s = _
    unfold execGrantCountAdjust
    dsimp only
    refine if_pos ?_
    simp only [Bool.and_eq_true, decide_eq_true_eq]
    exact ⟨⟨hdue, hroom⟩, hhot⟩
  obtain ⟨hcount, hcapped⟩ := (s.governor board).heat_counts (s.boardTemps board).1 s.now
  refine ⟨_, hexec, ?_⟩
  rw [State.grantCount_logTherm, State.grantCount_setGovernor s board (fun he => by rw [he] at hcount; simp at hcount),
    hcount, hcapped]
  unfold State.grantCount
  dsimp only
  omega

/-- A board that is not hot regains a grant that it lost to what is cool again (R322). -/
theorem exec_grantCountAdjust_cool (hdue : (s.governor board).hotAt + 21000000 ≤ s.clk.toNat)
    (hdie : (s.boardTemps board).1 < 100) (hstack : (s.boardTemps board).2 < 95)
    (hpower : s.powerAbove s.config.powercap 100 = false)
    (hlost : 0 < (s.governor board).dieHot ∧ (s.boardTemps board).1 < 95 ∨
      0 < (s.governor board).stackHot ∧ (s.boardTemps board).2 < 90)
    (hgb : (s.governor board).dieHot + (s.governor board).stackHot + (s.governor board).capped ≤ s.config.gb) :
    ∃ t, exec (.grantCountAdjust board) s = .next t ∧ t.grantCount board = s.grantCount board + 1 := by
  obtain ⟨c, hcool, hcount, hcapped, hnow⟩ := Governor.cool_counts (now := s.now) hlost
  have hcold : decide (100 ≤ (s.boardTemps board).1 ∨ 95 ≤ (s.boardTemps board).2) = false := decide_eq_false (by omega)
  have hexec : exec (.grantCountAdjust board) s = .next ((s.setGovernor board c).logTherm board) := by
    show execGrantCountAdjust board s = _
    unfold execGrantCountAdjust
    dsimp only
    rw [hcold, hpower, hcool, Bool.and_false, Bool.and_false, if_neg Bool.false_ne_true, if_neg Bool.false_ne_true]
    exact if_pos (Bool.and_eq_true_iff.mpr ⟨Bool.and_eq_true_iff.mpr ⟨decide_eq_true hdue, rfl⟩, rfl⟩)
  refine ⟨_, hexec, ?_⟩
  rw [State.grantCount_logTherm, State.grantCount_setGovernor s board fun he => ?_, hcapped]
  · unfold State.grantCount
    dsimp only
    omega
  · rw [he] at hnow
    have hzero : 0 = s.clk.toNat := hnow
    omega

end

end Sys2Proof.Machine

namespace Sys2Proof.Claims

open Sys2Proof.Machine

/-- Settles O46: neither the picker's touches nor a grant changes which task is the oldest eligible one, and each engine
and governor acts on its own entry. -/
theorem matrixEventsComplete : Obligations.MatrixEventsComplete := by
  unfold Obligations.MatrixEventsComplete
  refine ⟨fun s core k hk hne hfree => ⟨exec_taskPick_asks hk hne hfree, exec_taskPick_issues hk hne hfree⟩,
    fun s board k ks => exec_governorGrant_spec, fun s core eng n h => ⟨fun b => exec_rampUpComplete_burst h, fun hb => ⟨?_, ?_⟩⟩,
    fun s core eng e n k x af bf ra rb => exec_taskUnitComplete_present,
    fun s core eng e n k f x af bf ht hp hk hf =>
      ⟨exec_taskDoneWrite_cells ht hp hk hf, exec_taskDoneWrite_done ht hp hk hf⟩,
    fun s core eng e n k f future desc input nw inw => exec_inferComplete_good,
    fun s core eng n => exec_grantReturn_down, fun s core eng b heng hb => ?_,
    fun s board hdue => ⟨exec_grantCountAdjust_hot hdue, exec_grantCountAdjust_cool hdue⟩⟩
  · intro k hk
    rw [exec_rampUpComplete_idle h hb, hk]
    rfl
  · intro hnone
    rw [exec_rampUpComplete_idle h hb, hnone]
    exact congrArg Host.Outcome.next (State.rest_granted (State.engineMode_setEngine_self s core eng (by decide)) hb)
  · refine ⟨_, exec_burstEnd core s, s.tasks_burstsEnded core, ?_⟩
    rw [s.burst?_burstsEnded core heng, hb]
    simp only [State.burstOver_iff hb]

end Sys2Proof.Claims
end


section
/-!
A table of cells that lists cell 0 of S twice: the INFER of one bead makes the first entry that of an unlisted cell, takes it out,
and the next bead finds a descriptor of another size in its place (R126, R211).
-/

namespace Sys2Proof.Claims

open Sys2Proof.Machine

/-- A rod of two beads, whose registers v1 and s2 hold 8 and 0: the input cell, and the cell of the future and the descriptor. -/
def pairRod : Rod := ((placedFrame.newRod 1 0 0 0 2 0 0 (BitVec.ofNat 48 placedPc)).setV 0 1 8).setV 1 1 8

/-- INFER of both beads: the futures in v0, the descriptor's cell in s2, the inputs in v1. -/
def pairInfer : ShUDAB := ⟨false, 0, 98, 1⟩

/-- A device that issues it, with two entries for cell 0 of S of core 0: a zero cell, and a descriptor of input width 2. -/
def twiceListedDevice : State :=
  { State.reset.place (encodeNat (.infer pairInfer)) with
    rods := [pairRod], cur := some 1, cells := [(cellKey 0 0 0, ⟨0, true⟩), (cellKey 0 0 0, ⟨0x21, true⟩)] }

/-- The requests in the task queues of the state that an instruction leads to. -/
def postedKinds : Host.Outcome State Fault Refusal → List TaskKind
  | .next t => t.tasks.map Task.kind
  | _ => []

theorem issues_pairInfer : Issues twiceListedDevice pairRod (.infer pairInfer) :=
  ⟨by decide +kernel, by decide +kernel, by decide +kernel, by decide +kernel, by decide +kernel, fun _ _ => by decide +kernel⟩

/-- The second bead's request has the input width of the second entry. -/
theorem postedKinds_pairInfer :
    postedKinds (exec (.infer pairInfer) twiceListedDevice) = [.infer 0 0 8 1 1, .infer 0 0 8 1 2] := by decide +kernel

/-- Refutes O35: nothing in its INFER clause keeps the table of cells canonical. At `twiceListedDevice` the second request
that it claims has the descriptor's size from before the first bead's turn, input width 1. -/
theorem not_tasksArePosted : ¬ Obligations.TasksArePosted := by
  rintro ⟨-, hinfer⟩
  have hnext := hinfer twiceListedDevice pairRod placedFrame pairInfer issues_pairInfer (by decide +kernel)
    (by unfold inferFits inferKind; decide +kernel) (by decide +kernel)
  have hkinds := postedKinds_pairInfer
  rw [hnext] at hkinds
  exact absurd hkinds (by decide +kernel)

end Sys2Proof.Claims
end

section
/-!
SUPPORT. What the steps of the carry ports change (R218, R223 to R228): whose turn a reservation request is, what opens with a
chain, and which transfer arrives.
-/

namespace Sys2Proof.Machine

section
variable {s : State} {u core slot : Nat} {r : Rod} {x : Slot} {v : Resv} {q : Spec}

/-! ### Slot-table entries -/

theorem State.slot_setSlot_self (s : State) (core slot : Nat) (h : x ≠ Slot.empty) : (s.setSlot core slot x).slot core slot = x :=
  Sparse.get_set_self _ _ h

theorem State.slot_setSlot_of_ne (s : State) {c k : Nat} (x : Slot) (h : slotKey core slot ≠ slotKey c k) :
    (s.setSlot c k x).slot core slot = s.slot core slot := Sparse.get_set_of_ne _ _ h

theorem Slot.ne_empty_of_st (h : x.st ≠ .free) : x ≠ Slot.empty := fun he => h (congrArg Slot.st he)

/-! ### Whose turn a request is (R223) -/

theorem State.mustWait_of_held (h : (s.slot q.core q.slot).st = .held) (v : Resv) : s.mustWait v q = true := by
  unfold State.mustWait
  rw [decide_eq_true h]
  rfl

/-- The request for an entry that no reservation holds has its turn when no other waits for the entry, or none for longer. -/
theorem State.mustWait_of_turn (h : (s.slot q.core q.slot).st ≠ .held)
    (hturn : v.stage = .request ∧ s.resvWaiters q = [] ∨ ∃ t, v.stage = .waiting t ∧ ∀ k ∈ s.resvWaiters q, t ≤ k) :
    s.mustWait v q = false := by
  unfold State.mustWait
  rw [decide_eq_false h, Bool.false_or]
  rcases hturn with ⟨hstage, hnone⟩ | ⟨t, hstage, hfirst⟩
  · simp only [hstage, hnone]
    rfl
  · simp only [hstage]
    exact List.any_eq_false.mpr fun k hk hlt => Nat.not_lt.mpr (hfirst k hk) (of_decide_eq_true hlt)

/-- A port holds a free entry whose cells are at hand in the bound destination frame (R223). -/
theorem State.reserveReply_held {f g : Frame} (hfree : (s.slot q.core q.slot).st = .free) (hf : s.frame? v.frame = some f)
    (hg : s.ownerOn f q.core = .bound g) (hfit : q.cell + q.size ≤ g.segC.limit.toNat)
    (hown : s.carryOwned q.core (g.segC.base.toNat + q.cell) q.size = false)
    (htasks : ∀ t ∈ s.tasks, ∀ x af bf h, t.kind = .tile x af bf → s.frame? t.frame = some h →
      (h.range (recC x).1 (recC x).2.1 (recC x).2.2).meets (g.range 3 q.cell q.size) = false) :
    s.reserveReply v q = (0, some g) := by
  have hfits : g.fits 3 q.cell q.size = true := decide_eq_true hfit
  have hfirst : s.carryOwned q.core (g.range 3 q.cell q.size).first q.size = false := hown
  unfold State.reserveReply
  rw [if_neg (not_not.mpr hfree), hf]
  simp only [hg]
  refine if_neg ?_
  rw [hfits, hfirst, Bool.not_true, Bool.false_or, Bool.false_or, List.any_eq_true]
  rintro ⟨t, ht, hmeets⟩
  split at hmeets
  · next hkind hframe => simp [htasks t ht _ _ _ _ hkind hframe] at hmeets
  · cases hmeets

/-! ### Slots that open (R223) -/

theorem State.startCells_eq (s : State) (core first : Nat) (w : Dword) (n : Nat) :
    s.startCells core first w n = { s with cells := (s.startCells core first w n).cells } := by
  induction n with
  | zero => rfl
  | succ n ih =>
    unfold State.startCells State.setCell
    rw [ih]

/-- A slot that opens changes its entry and its cells. -/
theorem State.openSlot_eq (s : State) (q : Spec) :
    s.openSlot q = { s with slots := (s.openSlot q).slots, cells := (s.openSlot q).cells } := by
  unfold State.openSlot
  dsimp only
  split
  · rfl
  · rw [State.startCells_eq]
    rfl

theorem State.openSlot_self {g : Frame} (h : s.frame? (s.slot q.core q.slot).frame = some g) :
    ((s.openSlot q).slot q.core q.slot).st = .open_ ∧
      ((s.openSlot q).slot q.core q.slot).frame = (s.slot q.core q.slot).frame := by
  unfold State.openSlot
  simp only [h]
  rw [State.slot_setSlot_self _ _ _ (Slot.ne_empty_of_st SlotState.noConfusion)]
  exact ⟨rfl, rfl⟩

theorem State.openSlot_of_ne (s : State) (h : slotKey core slot ≠ slotKey q.core q.slot) :
    (s.openSlot q).slot core slot = s.slot core slot := by
  unfold State.openSlot
  dsimp only
  split
  · exact State.slot_setSlot_of_ne s _ h
  · rw [State.slot_setSlot_of_ne _ _ h, State.startCells_eq]
    rfl

theorem State.foldl_openSlot_eq (s : State) (qs : List Spec) :
    qs.foldl State.openSlot s =
      { s with slots := (qs.foldl State.openSlot s).slots, cells := (qs.foldl State.openSlot s).cells } := by
  induction qs generalizing s with
  | nil => rfl
  | cons q qs ih =>
    rw [List.foldl_cons, ih, s.openSlot_eq]

/-- A slot whose destination frame is bound is open after the slots of its chain have opened. -/
theorem State.foldl_openSlot_open {qs : List Spec} (hq : q ∈ qs ∨ (s.slot q.core q.slot).st = .open_)
    (hf : s.frame? (s.slot q.core q.slot).frame ≠ none) : ((qs.foldl State.openSlot s).slot q.core q.slot).st = .open_ := by
  induction qs generalizing s with
  | nil => exact hq.resolve_left List.not_mem_nil
  | cons p ps ih =>
    have hframe (n : Nat) : (s.openSlot p).frame? n = s.frame? n := by rw [s.openSlot_eq]; rfl
    by_cases hkey : slotKey q.core q.slot = slotKey p.core p.slot
    · have hsame (t : State) : t.slot q.core q.slot = t.slot p.core p.slot := congrArg (Sparse.get Slot.empty t.slots) hkey
      obtain ⟨g, hg⟩ := Option.ne_none_iff_exists'.mp hf
      obtain ⟨hst, hfr⟩ := State.openSlot_self (q := p) (hsame s ▸ hg)
      refine ih (.inr (hsame _ ▸ hst)) ?_
      rw [hsame, hfr, hframe, ← hsame]
      exact hf
    · have hkept := s.openSlot_of_ne hkey
      refine ih ?_ (by rwa [hkept, hframe])
      rw [hkept]
      refine hq.imp_left fun hmem => ((List.mem_cons.mp hmem).resolve_left fun he => hkey (he ▸ rfl))

/-! ### Senders that wait for a place (R226) -/

theorem Rod.served_status (r : Rod) (u take : Bool) : (r.served u take).status = .ready := by
  unfold Rod.served
  dsimp only
  split
  · rfl
  · split <;> rfl

/-- The rod goes on, if it is one of the core that waits for a place in the send buffer. -/
def Rod.sendsAgain (core : Nat) (r : Rod) : Rod :=
  match r.status with
  | .asleep .sendBuffer _ _ => if r.core = core then { r with status := .ready } else r
  | _ => r

theorem State.wakeSenders_eq (s : State) (core : Nat) :
    s.wakeSenders core = { s with rods := s.rods.map (Rod.sendsAgain core) } := rfl

theorem Rod.sendsAgain_same (core : Nat) (r : Rod) : (r.sendsAgain core).uid = r.uid ∧ (r.sendsAgain core).core = r.core := by
  unfold Rod.sendsAgain
  split
  · split <;> exact ⟨rfl, rfl⟩
  · exact ⟨rfl, rfl⟩

theorem Rod.sendsAgain_of_ready (h : r.status = .ready) (core : Nat) : r.sendsAgain core = r := by
  unfold Rod.sendsAgain
  simp only [h]

theorem Rod.sendsAgain_awake (h : r.core = core) (tk n : Nat) : (r.sendsAgain core).status ≠ .asleep .sendBuffer tk n := by
  unfold Rod.sendsAgain
  split
  · rw [if_pos h]
    nofun
  · next hother => exact hother tk n

theorem State.rod?_wakeSenders (h : s.rod? u = some r) (hr : r.status = .ready) (core : Nat) :
    (s.wakeSenders core).rod? u = some r := by
  rw [State.rod?_of_map (s := s) (t := s.wakeSenders core) (f := Rod.sendsAgain core) (fun q => (q.sendsAgain_same core).1) rfl, h,
    Option.map_some, Rod.sendsAgain_of_ready hr]

/-! ### The transfer that arrives (R227) -/

theorem mem_of_mem_heads {m : Transfer} {ms : List Transfer} (h : m ∈ heads ms) : m ∈ ms := by
  induction ms with
  | nil => exact h
  | cons n ns ih => exact List.mem_cons.mpr ((List.mem_cons.mp h).imp_right fun hm => ih (List.mem_filter.mp hm).1)

/-- Of the transfers of one core the oldest arrives first. -/
theorem heads_of_one_core {m : Transfer} {ms : List Transfer} (h : ∀ n ∈ ms, n.core = m.core) : heads (m :: ms) = [m] := by
  unfold heads
  rw [List.filter_eq_nil_iff.mpr fun n hn => by simpa using h n (mem_of_mem_heads hn)]

theorem State.arriving_of_one_core {m : Transfer} {ms : List Transfer} (h : s.granted core slot = m :: ms)
    (hone : ∀ n ∈ ms, n.core = m.core) : s.arriving core slot = (some m, s) := by
  unfold State.arriving
  rw [h, heads_of_one_core hone]

end

end Sys2Proof.Machine
end

section
/-!
The settling of O45: the steps of the carry ports.
-/

namespace Sys2Proof.Machine

section
variable {s : State} {u core slot : Nat} {r : Rod} {v : Resv} {q : Spec} {c : Credit}

/-! ### A reservation -/

theorem exec_slotReserveRequest_waits (hv : s.resv? u = some v) (hq : v.specs[v.next]? = some q) (hstage : v.stage = .request)
    (hheld : (s.slot q.core q.slot).st = .held) : exec (.slotReserveRequest u) s =
      .next ({ s with fresh := s.fresh + 1 }.modResv v fun v => { v with stage := .waiting s.fresh }) := by
  show execSlotReserveRequest u s = _
  unfold execSlotReserveRequest
  simp only [hv, hq, State.mustWait_of_held hheld, hstage, if_true]
  rfl

theorem exec_slotReserveRequest_held {g : Frame} (hv : s.resv? u = some v) (hq : v.specs[v.next]? = some q)
    (hturn : s.mustWait v q = false) (hreply : s.reserveReply v q = (0, some g)) :
    exec (.slotReserveRequest u) s = .next ((s.setSlot q.core q.slot
      { Slot.empty with
        st := .held, asid := v.asid, owner := v.core, chain := v.chain, rod := v.rod, frame := g.uid, cell := q.cell
        size := q.size, count := q.count, remain := q.count, fixed := v.fixed, x := v.x }).modResv v fun v =>
          { v with stage := .reply 0 }) := by
  show execSlotReserveRequest u s = _
  unfold execSlotReserveRequest
  simp only [hv, hq, hturn, hreply]
  rfl

theorem exec_reservationReply_held (hv : s.resv? u = some v) (hstage : v.stage = .reply 0) :
    exec (.reservationReply u) s = .next (s.modResv v fun v =>
      { v with next := v.next + 1, stage := if v.next + 1 < v.specs.length then .request else .opening }) := by
  show execReservationReply u s = _
  unfold execReservationReply
  simp only [hv, hstage]

/-- The state in which the slots of a reservation have opened and its chain is recorded. -/
def State.chainOpened (s : State) (v : Resv) : State :=
  { v.specs.foldl State.openSlot s with
    chains := s.chains ++ [⟨v.core, v.chain, v.asid, v.frame, v.specs.map fun q => (q.core, q.slot)⟩] }

theorem exec_slotOpen_eq (hv : s.resv? u = some v) (hstage : v.stage = .opening) :
    exec (.slotOpen u) s = .next ((s.chainOpened v).endResv v 0) := by
  show execSlotOpen u s = _
  unfold execSlotOpen State.chainOpened
  simp only [hv, hstage, ne_eq, not_true_eq_false, if_false]
  rw [State.foldl_openSlot_eq]

theorem exec_slotOpen_spec (hv : s.resv? u = some v) (hstage : v.stage = .opening) (hr : s.rod? v.rod = some r) :
    ∃ t, exec (.slotOpen u) s = .next t ∧ t.resvs = s.resvs.erase v ∧
      t.chains = s.chains ++ [⟨v.core, v.chain, v.asid, v.frame, v.specs.map fun q => (q.core, q.slot)⟩] ∧
      t.rod? v.rod = some (r.deliver v.dreg (BitVec.ofNat 64 (v.chain * 256))) ∧
      ∀ q ∈ v.specs, s.frame? (s.slot q.core q.slot).frame ≠ none → (t.slot q.core q.slot).st = .open_ := by
  have hopened := State.foldl_openSlot_eq s v.specs
  have hrod : (s.chainOpened v).rod? v.rod = some r := (congrArg (fun t => t.rod? v.rod) hopened).trans hr
  refine ⟨_, exec_slotOpen_eq hv hstage, ?_, rfl, ?_, fun q hq hf => State.foldl_openSlot_open (.inl hq) hf⟩
  · exact (congrArg (fun t => t.resvs.erase v) hopened :)
  · exact State.rod?_modRod_self (s := { s.chainOpened v with resvs := _ }) (fun _ => rfl) hrod

/-! ### Credits -/

theorem exec_creditRequest_grants (hc : s.credit? u = some c) (hreply : c.reply = none)
    (hopen : (s.slot c.dst c.slot).st = .open_) (hasid : (s.slot c.dst c.slot).asid = c.asid)
    (hremain : (s.slot c.dst c.slot).remain ≠ 0) (hsize : (s.slot c.dst c.slot).size = c.size) :
    ∃ t, exec (.creditRequest u) s = .next t ∧
      t.slot c.dst c.slot = { s.slot c.dst c.slot with remain := (s.slot c.dst c.slot).remain - 1 } ∧
      t.credits = s.credits.map fun d => if d = c then { d with reply := some .granted } else d := by
  refine ⟨{ s.setSlot c.dst c.slot { s.slot c.dst c.slot with remain := (s.slot c.dst c.slot).remain - 1 } with
    credits := s.credits.map fun d => if d = c then { d with reply := some .granted } else d }, ?_, ?_, rfl⟩
  · show execCreditRequest u s = _
    unfold execCreditRequest
    rw [hc]
    dsimp only
    rw [if_neg (by simp [hreply]), if_neg (by simp [hopen]), if_neg (by simp [hopen, hasid, hremain, hsize])]
    rfl
  · exact State.slot_setSlot_self s c.dst c.slot (Slot.ne_empty_of_st (by simp [hopen]))

theorem exec_creditReply_granted (hc : s.credit? u = some c) (hreply : c.reply = some .granted) (hr : s.rod? u = some r) :
    ∃ t, exec (.creditReply u) s = .next t ∧ t.credits = s.credits.erase c ∧
      t.transfers = s.transfers ++ [⟨c.core, c.frame, c.dst, c.slot, c.words⟩] ∧
      t.rod? u = some (r.served c.bead.isNone true) ∧
      ∀ q ∈ t.rods, ∀ tk n, q.core = c.core → q.status ≠ .asleep .sendBuffer tk n := by
  let s1 : State := { s with credits := s.credits.erase c, transfers := s.transfers ++ [c.tile] }
  have hserved : (s1.modRod u fun q => q.served c.bead.isNone true).rod? u = some (r.served c.bead.isNone true) :=
    State.rod?_modRod_self (s := s1) (fun q => q.served_uid _ _) hr
  refine ⟨(s1.modRod u fun q => q.served c.bead.isNone true).wakeSenders c.core, ?_, rfl, rfl,
    State.rod?_wakeSenders hserved (r.served_status _ _) c.core, fun q hq tk n hcore => ?_⟩
  · show execCreditReply u s = _
    unfold execCreditReply
    simp only [hc, hreply]
    rfl
  · obtain ⟨p, -, rfl⟩ := List.mem_map.mp hq
    exact Rod.sendsAgain_awake ((p.sendsAgain_same c.core).2.symm.trans hcore) tk n

/-! ### Transfers and wakes -/

theorem exec_transferApply_open {m : Transfer} {ms : List Transfer} {g : Frame} (hgranted : s.granted core slot = m :: ms)
    (hone : ∀ n ∈ ms, n.core = m.core) (hg : s.frame? (s.slot core slot).frame = some g)
    (hopen : (s.slot core slot).st = .open_) :
    let x := s.slot core slot
    let ys : List (Dword × BitVec 16 × Conds) := addWords x (s.slotWords g x) x.guard m.words
    exec (.transferApply core slot) s = .next
      (((({ s with transfers := s.transfers.erase m }.setSlot core slot { x with
        applied := x.applied + 1, guard := if x.fixed then ys.map fun (y : Dword × BitVec 16 × Conds) => y.2.1 else []
        flags := ys.foldl (fun k (y : Dword × BitVec 16 × Conds) => k ||| y.2.2) x.flags }).putWords core (g.segC.base.toNat + x.cell)
          (ys.map Prod.fst)).settleSlot core slot).goOnSumfree) := by
  have hframe : State.frame? { s with transfers := s.transfers.erase m } (s.slot core slot).frame = some g := hg
  show execTransferApply core slot s = _
  unfold execTransferApply
  simp only [State.arriving_of_one_core hgranted hone, hframe, hopen, true_or, if_true]
  rfl

/-- A rod of the core that is parked on carry-away for the slot is ready again (R233). -/
theorem exec_slotWake_ready {dst : Nat} {p : Park} (hr : s.rod? u = some r) (hcore : r.core = core) (hp : r.status = .parked p)
    (hcls : p.cls = 2) (hdst : p.info.toNat % 256 = dst) (hslot : p.info.toNat / 256 % 32 = slot)
    (hhalt : s.halted r.asid = false) :
    ∃ t, exec (.slotWake core dst slot) s = .next t ∧ t.rod? u = some { r with status := .ready } ∧
      t.slotWakes = s.slotWakes.erase (core, dst, slot) := by
  refine ⟨_, rfl, ?_, rfl⟩
  rw [State.rod?_of_map (s := s) (fun q => ?_) rfl, hr, Option.map_some]
  · have hfield : field p.info.toNat 0 8 = dst := by simpa [field] using hdst
    simp only [hp]
    exact congrArg some (if_pos ⟨hcore, hcls, hfield, hslot, by simp [hhalt]⟩)
  · split
    · split <;> rfl
    · rfl

end

end Sys2Proof.Machine

namespace Sys2Proof.Claims

open Sys2Proof.Machine

/-- Settles O45, step by step: only SLOT_OPEN needs an induction, over the slots of the chain, each of which opens in a table that
need not be canonical. -/
theorem carryEventsComplete : Obligations.CarryEventsComplete := by
  unfold Obligations.CarryEventsComplete
  refine ⟨?_, ?_, ?_, ?_, ?_, ?_, ?_, ?_⟩
  · exact fun s u v q => exec_slotReserveRequest_waits
  · intro s u v q f g hv hq hturn hfree hf hg hfit hown htasks
    exact exec_slotReserveRequest_held hv hq (State.mustWait_of_turn (by simp [hfree]) hturn)
      (State.reserveReply_held hfree hf hg hfit hown htasks)
  · exact fun s u v => exec_reservationReply_held
  · exact fun s u v r => exec_slotOpen_spec
  · exact fun s u c => exec_creditRequest_grants
  · exact fun s u c r => exec_creditReply_granted
  · exact fun s core slot m ms g hgranted hone => exec_transferApply_open hgranted hone
  · exact fun s core dst slot u r p => exec_slotWake_ready

end Sys2Proof.Claims
end

section
/-!
SUPPORT. What the carry instructions read and free (R220 to R229): cells of a buffer as peeks, slot specs, target words, and the
slots of a chain.
-/

namespace Sys2Proof.Machine

/-! ### Cells that are read as peeks (R127, R128) -/

section
variable {s t : State} {r p : Rod} {i : Instr}

/-- Cells of a buffer that are at hand are read, and the rod keeps none of them. -/
theorem M.peekCells_present {b : Option Nat} {buf first n : Nat} (h : t.curRod? = some p) (hk : r.Alike p)
    (hs : s.SameSegments t) (hc : t.cells = s.cells) (hp : Claims.peekable s r buf first n) :
    M.peekCells b buf first n t = (.ok (Claims.peekedCells s r buf first n), Claims.forgetCells r t) := by
  obtain ⟨hlen, hpres⟩ := hp
  have hpeeked : p.peeked = r.peeked := by rw [hk]
  have hseen (j : Nat) : t.seen p.core buf j = s.seen r.core buf j :=
    hk.loading.core ▸ hs.seen (congrArg (fun cells => Sparse.get Cell.empty cells _) hc)
  have hfresh : (((List.range n).map fun i => t.seen p.core buf (first + i)).drop p.peeked.length).takeWhile (fun c => c.present) =
      ((List.range n).drop r.peeked.length).map fun i => s.seen r.core buf (first + i) := by
    simp only [hseen]
    rw [hpeeked, ← List.map_drop, List.takeWhile_eq_self_iff]
    intro c hc
    obtain ⟨j, hj, rfl⟩ := List.mem_map.mp hc
    obtain ⟨k, hk, rfl⟩ := List.mem_drop_iff_getElem.mp hj
    rw [List.length_range] at hk
    rw [List.getElem_range]
    exact hpres _ (by omega) (by omega)
  have hread : p.peeked ++ (((List.range n).drop r.peeked.length).map fun i => s.seen r.core buf (first + i)).map Cell.data =
      Claims.peekedCells s r buf first n := by
    rw [hpeeked, List.map_map]
    exact congrArg (r.peeked ++ ·) (List.map_congr_left fun j _ => s.seen_data r.core buf (first + j))
  have hsize : (Claims.peekedCells s r buf first n).length = n := by
    simp only [Claims.peekedCells, List.length_append, List.length_map, List.length_drop, List.length_range]
    omega
  unfold M.peekCells
  rw [M.bind_ok (M.rod_apply h), M.bind_ok (M.get_apply t)]
  simp only [hfresh, hread]
  rw [List.take_of_length_le hsize.le, if_pos hsize, M.bind_ok (onRod_ok h (RM.modify_apply _ p))]
  unfold Claims.forgetCells
  rw [State.alter_of_curRod? h hk.uid]
  rfl

theorem State.alter_eq (s : State) (u : Nat) (f : Rod → Rod) : s.alter u f = { s with rods := (s.alter u f).rods } := by
  unfold State.alter
  split <;> rfl

theorem State.IssuedBy.forgetCells (h : s.IssuedBy r) : (Claims.forgetCells r s).IssuedBy r := h.alter fun _ => rfl

/-- What precedes the effect of an instruction changes nothing of the carry ports. -/
theorem State.begun_ports (s : State) (r : Rod) (hl : lazyCommits i = false) :
    (s.begun r i).chains = s.chains ∧ (s.begun r i).resvs = s.resvs ∧ (s.begun r i).credits = s.credits ∧
      (s.begun r i).transfers = s.transfers := by
  cases hc : commits i with
  | false =>
    rw [State.begun_of_not_commits hc]
    exact ⟨rfl, rfl, rfl, rfl⟩
  | true =>
    have hu := (s.setRod r.leave).commitPerform_undisturbed r.uid
    rw [State.begun_of_commits hc hl, State.alter_eq, hu.rest]
    exact ⟨rfl, rfl, rfl, rfl⟩

/-- The cells that an instruction finds as its effect begins. -/
theorem State.begun_sameSegments (h : Issues s r i) (hl : lazyCommits i = false) :
    s.SameSegments (s.begun r i) ∧ (s.begun r i).cells = s.cells := by
  obtain ⟨hframes, hcells, hslots, -⟩ := State.begun_buffers h hl
  exact ⟨.of_eq hslots hframes, hcells⟩

/-- The frame of the issuing rod as the effect begins. -/
theorem M.frame_begun {fr : Frame} (h : Issues s r i) (hl : lazyCommits i = false) (hp : (s.begun r i).curRod? = some p)
    (hk : r.Alike p) (hf : s.frame? r.frame = some fr) : M.frame (s.begun r i) = (.ok fr, s.begun r i) := by
  refine M.frame_apply hp ?_
  rw [hk.loading.frame]
  unfold State.frame?
  rw [(State.begun_buffers h hl).1]
  exact hf

end

/-! ### The operands of SUMSET (R221 to R223) -/

theorem toNat_extractLsb'_eq_field {w : Nat} (x : BitVec w) (lo n : Nat) : (x.extractLsb' lo n).toNat = field x.toNat lo n := by
  rw [BitVec.extractLsb'_toNat, Nat.shiftRight_eq_div_pow]
  rfl

theorem field_eq_zero_iff {w : Nat} (x : BitVec w) (lo n : Nat) : field x.toNat lo n = 0 ↔ x.extractLsb' lo n = 0 := by
  rw [← toNat_extractLsb'_eq_field]
  exact (BitVec.toNat_eq (y := 0#n)).symm

theorem specOf_eq_specAt (x : BitVec 128) : specOf x = Claims.specAt x := by
  unfold specOf Claims.specAt
  simp only [toNat_extractLsb'_eq_field]

theorem specBad_eq_false {x : BitVec 128} (h : x.extractLsb' 88 24 = 0 ∧ x.extractLsb' 77 3 = 0 ∧ x.extractLsb' 64 8 = 0 ∧
    x.extractLsb' 0 32 = 0 ∧ x.extractLsb' 112 16 ≠ 0 ∧ (x.extractLsb' 32 12).toNat + 1 ≤ 2048) : specBad x = false := by
  obtain ⟨h88, h77, h64, h0, hcount, hsize⟩ := h
  rw [toNat_extractLsb'_eq_field] at hsize
  rw [ne_eq, ← field_eq_zero_iff] at hcount
  rw [← field_eq_zero_iff] at h88 h77 h64 h0
  exact decide_eq_false (by omega)

/-- No slot is named twice. -/
theorem specsClash_eq_false {qs : List Spec} (h : (qs.map fun q => (q.core, q.slot)).Nodup) : specsClash qs = false := by
  induction qs with
  | nil => rfl
  | cons q qs ih =>
    obtain ⟨hnew, hrest⟩ := List.nodup_cons.mp h
    unfold specsClash
    rw [ih hrest, Bool.or_false, List.any_eq_false]
    intro p hp hsame
    obtain ⟨hcore, hslot⟩ := of_decide_eq_true hsame
    exact hnew (List.mem_map.mpr ⟨p, hp, by rw [hcore, hslot]⟩)

theorem specs_pass {cells : List (BitVec 128)} (h : Claims.specsTaken cells) :
    (!cells.any specBad && !specsClash (cells.map specOf)) = true := by
  obtain ⟨hgood, hapart⟩ := h
  have hbad : cells.any specBad = false := List.any_eq_false.mpr fun x hx => by simp [specBad_eq_false (hgood x hx)]
  have hclash : specsClash (cells.map specOf) = false := specsClash_eq_false (by
    rw [List.map_map]
    simpa only [Function.comp_def, specOf_eq_specAt] using hapart)
  rw [hbad, hclash]
  rfl

/-- A well-formed descriptor passes (R221, R223). -/
theorem descriptor_pass {f : ShSumset} {desc base : Dword} (h : Claims.sumsetTaken f desc base) :
    (decide (field desc.toNat 32 32 = 0 ∧ field desc.toNat 4 19 = 0) &&
      (f.f || decide ((desc.extractLsb' 23 9).toInt = 0)) && decide (base.toNat < 2 ^ 32)) = true := by
  obtain ⟨hhigh, hmid, hexp, hbase⟩ := h
  have hdiv : desc.toNat / 2 ^ 32 = 0 := by simpa [Nat.shiftRight_eq_div_pow] using congrArg BitVec.toNat hhigh
  have h32 : field desc.toNat 32 32 = 0 := by rw [field, hdiv, Nat.zero_mod]
  have hrule : (f.f || decide ((desc.extractLsb' 23 9).toInt = 0)) = true := by
    cases hf : f.f with
    | true => rfl
    | false =>
      rw [hexp hf]
      rfl
  rw [decide_eq_true ⟨h32, (field_eq_zero_iff desc 4 19).mpr hmid⟩, hrule, decide_eq_true hbase]
  rfl

theorem State.freeChainIndex_congr {s t : State} (hc : t.chains = s.chains) (hr : t.resvs = s.resvs) (core : Nat) :
    t.freeChainIndex core = s.freeChainIndex core := by
  unfold State.freeChainIndex State.chain?
  rw [hc, hr]

/-! ### The operands of SUMSEND (R225, R226) -/

theorem wordsOfCells_eq_tileWords (xs : List (BitVec 128)) : wordsOfCells xs = Claims.tileWords xs := by
  induction xs with
  | nil => rfl
  | cons x xs ih =>
    have hwords : cellWords ⟨x, true⟩ = [x.extractLsb' 0 64, x.extractLsb' 64 64] :=
      congrArg (· :: _) (BitVec.eq_of_toNat_eq (by simp))
    unfold wordsOfCells Claims.tileWords
    rw [List.flatMap_cons, hwords, ← ih]
    rfl

theorem Rod.Agrees.targetWord {r q : Rod} {b : Option Nat} (h : r.Agrees q b) (a : BitVec 7) :
    q.targetWord b a = Claims.windowNumber r b a := by
  unfold Rod.targetWord
  rw [h.sreg, h.vreg]
  rfl

/-- A target word without reserved bits, and a tile in the segment, pass (R225, R226). -/
theorem target_pass {fr : Frame} {t cell n : Nat} (h : Claims.targetTaken t) (hfit : cell + n ≤ fr.segC.limit.toNat) :
    (decide (field t 13 3 = 0 ∧ t < 2 ^ 28) && fr.fits 3 cell n) = true := by
  rw [decide_eq_true (⟨h.2, h.1⟩ : field t 13 3 = 0 ∧ t < 2 ^ 28), Bool.true_and]
  exact decide_eq_true hfit

/-! ### Slots that are freed (R218, R219, R229) -/

/-- The state `t` is the state `s`, but for its slots, its cells and what the rods that wait at these have been served. -/
structure State.Frees (s t : State) : Prop where
  rest : t = { s with rods := t.rods, cells := t.cells, slots := t.slots }
  uids : t.rods.map Rod.uid = s.rods.map Rod.uid

section
variable {s t x : State} {c : Chain} {r : Rod}

theorem State.Frees.refl (s : State) : s.Frees s := ⟨rfl, rfl⟩

theorem State.Frees.trans (h : s.Frees t) (h' : t.Frees x) : s.Frees x := ⟨by rw [h'.rest, h.rest], h'.uids.trans h.uids⟩

/-- The issuing rod goes on issuing. -/
theorem State.Frees.curRod? (h : s.Frees t) (hr : s.curRod? = some r) : ∃ q, t.curRod? = some q ∧ q.uid = r.uid := by
  obtain ⟨hcur, hrod⟩ := State.curRod?_eq hr
  have hfind (y : State) : (y.rod? r.uid).map Rod.uid = (y.rods.map Rod.uid).find? fun n => decide (n = r.uid) :=
    (List.find?_map (f := Rod.uid) (p := fun n => decide (n = r.uid)) (l := y.rods)).symm
  have huid := (hfind t).trans ((congrArg (List.find? _) h.uids).trans (hfind s).symm)
  rw [hrod] at huid
  obtain ⟨q, hq, hu⟩ := Option.map_eq_some_iff.mp huid
  exact ⟨q, (State.curRod?_of_cur (by rw [h.rest]; exact hcur)).trans hq, hu⟩

theorem State.Frees.grantsLeft (h : s.Frees t) (core slot : Nat) : t.grantsLeft core slot = s.grantsLeft core slot := by
  rw [h.rest]
  rfl

theorem State.serveEach_frees (core buf cell : Nat) (ws : List (Nat × CellWait)) (s : State) :
    s.Frees (s.serveEach core buf cell ws) := by
  induction ws generalizing s with
  | nil => exact .refl s
  | cons w ws ih =>
    obtain ⟨u, acc⟩ := w
    have hrod (y : State) {g : Rod → Rod} (hg : ∀ q, (g q).uid = q.uid) : y.Frees (y.modRod u g) :=
      ⟨rfl, State.modRod_uids u hg⟩
    unfold State.serveEach
    dsimp only
    split
    · exact .refl s
    · cases acc with
      | peek =>
        refine (hrod s fun q => ?_).trans (ih _)
        rfl
      | ldl take uni d w sub =>
        have htaken : s.Frees (if take then s.setCell core buf cell { s.cell core buf cell with present := false } else s) := by
          split <;> exact ⟨rfl, rfl⟩
        refine (htaken.trans (hrod _ fun q => ?_)).trans (ih _)
        rw [Rod.served_uid, Rod.setLoaded_eq_loadedInto, loadedInto_uid]

theorem State.serveCells_frees (s : State) (core buf first n : Nat) : s.Frees (s.serveCells core buf first n) := by
  induction n with
  | zero => exact .refl s
  | succ n ih => exact ih.trans (State.serveEach_frees _ _ _ _ _)

theorem State.freeSlotEntry_frees (s : State) (core slot : Nat) : s.Frees (s.freeSlotEntry core slot) := by
  have hset : s.Frees (s.setSlot core slot Slot.empty) := ⟨rfl, rfl⟩
  unfold State.freeSlotEntry
  dsimp only
  split
  · exact hset
  · exact hset.trans (State.serveCells_frees _ _ _ _ _)

/-- A slot of the chain is freed, if it is still the chain's. -/
def State.freeOwnSlot (c : Chain) (s : State) (p : Nat × Nat) : State :=
  if c.has (s.slot p.1 p.2) then s.freeSlotEntry p.1 p.2 else s

theorem State.freeOwnSlot_frees (c : Chain) (s : State) (p : Nat × Nat) : s.Frees (s.freeOwnSlot c p) := by
  unfold State.freeOwnSlot
  split
  · exact s.freeSlotEntry_frees p.1 p.2
  · exact .refl s

theorem State.foldl_freeOwnSlot_frees (c : Chain) (ps : List (Nat × Nat)) (s : State) :
    s.Frees (ps.foldl (State.freeOwnSlot c) s) :=
  List.foldlRecOn (motive := s.Frees) ps _ (.refl s) fun t ht p _ => ht.trans (t.freeOwnSlot_frees c p)

theorem State.freeSlots_cons {p : Nat × Nat} {ps : List (Nat × Nat)} (h : s.grantsLeft p.1 p.2 = false) :
    s.freeSlots c (p :: ps) = (s.freeOwnSlot c p).freeSlots c ps := by
  rw [State.freeSlots, State.freeOwnSlot, h]
  cases c.has (s.slot p.1 p.2) <;> rfl

/-- Slots whose granted transfers are all applied are freed, and none is left. -/
theorem State.freeSlots_of_applied {ps : List (Nat × Nat)} (h : ∀ p ∈ ps, s.grantsLeft p.1 p.2 = false) :
    s.freeSlots c ps = ([], ps.foldl (State.freeOwnSlot c) s) := by
  induction ps generalizing s with
  | nil => rfl
  | cons p ps ih =>
    rw [State.freeSlots_cons (h p List.mem_cons_self), List.foldl_cons]
    exact ih fun q hq => ((s.freeOwnSlot_frees c p).grantsLeft q.1 q.2).trans (h q (List.mem_cons_of_mem _ hq))

/-- The state in which the chain's slots are free and its entry is. -/
def State.chainFreed (s : State) (c : Chain) : State :=
  { c.slots.foldl (State.freeOwnSlot c) s with chains := s.chains.filter fun d => decide (d ≠ c) }

theorem State.freeChain_of_applied (h : ∀ p ∈ c.slots, s.grantsLeft p.1 p.2 = false) : s.freeChain c = s.chainFreed c := by
  unfold State.freeChain State.chainFreed
  rw [State.freeSlots_of_applied h, (State.foldl_freeOwnSlot_frees c c.slots s).rest]
  simp

/-- A chain that alone has its index leaves its entry free. -/
theorem State.chain?_chainFreed (h : ∀ d ∈ s.chains, d.core = c.core → d.index = c.index → d = c) :
    (s.chainFreed c).chain? c.core c.index = none := by
  refine List.find?_eq_none.mpr fun d hd hsame => ?_
  obtain ⟨hmem, hne⟩ := List.mem_filter.mp hd
  obtain ⟨hcore, hindex⟩ := of_decide_eq_true hsame
  exact of_decide_eq_true hne (h d hmem hcore hindex)

theorem State.curRod?_chainFreed (h : s.curRod? = some r) (c : Chain) :
    ∃ q, (s.chainFreed c).curRod? = some q ∧ q.uid = r.uid := (State.foldl_freeOwnSlot_frees c c.slots s).curRod? h

end

end Sys2Proof.Machine
end

section
/-!
The settling of O36: SUMSET, SUMSEND and SUMFREE.
-/

namespace Sys2Proof.Machine

section
variable {s t : State} {r : Rod}

/-! ### SUMSET -/

/-- The effect of SUMSET (R220 to R224). -/
def M.sumset (i : ShSumset) : M Unit := do
  let r ← M.rod
  let f ← M.frame
  let desc := (r.sreg (sIndex i.a)).toNat
  let base := (r.sreg (sIndex i.b)).toNat
  let x := (BitVec.ofNat 9 (field desc 23 9)).toInt
  let ns := field desc 0 4 + 1
  M.need (decide (field desc 32 32 = 0 ∧ field desc 4 19 = 0) && (i.f || decide (x = 0)) && decide (base < 2 ^ 32))
    (.trap 9 4 none 0 0)
  M.need (f.fits 0 base ns) (segmentFault none)
  let cells ← M.peekCells none 0 (f.segS.base.toNat + base) ns
  let specs := cells.map specOf
  M.need (!cells.any specBad && !specsClash specs) (.trap 9 4 none 0 0)
  let s ← get
  match s.freeChainIndex r.core with
  | none => onRod (modify fun r => r.setS (sIndex i.d) 2)
  | some c =>
    let sorted := sortBy (fun q => slotKey q.core q.slot) specs
    M.upd fun s => { s with
      resvs := s.resvs ++ [⟨r.uid, r.core, r.asid, r.frame, f.launch, sIndex i.d, i.f, x, c, sorted, 0, .request⟩] }
    onRod (modify fun r => r.expect (sIndex i.d))

theorem exec_sumset_eq (i : ShSumset) (s : State) : exec (.sumset i) s = execute (.sumset i) (M.sumset i) s := rfl

/-- The reservation that a SUMSET starts, in the chain entry `c` (R223). -/
def sumsetResv (r : Rod) (fr : Frame) (f : ShSumset) (cells : List (BitVec 128)) (c : Nat) : Resv :=
  ⟨r.uid, r.core, r.asid, r.frame, fr.launch, sIndex f.d, f.f, ((r.sreg (sIndex f.a)).extractLsb' 23 9).toInt, c,
    sortBy (fun q : Spec => q.core * 32 + q.slot) (cells.map Claims.specAt), 0, .request⟩

/-- A reservation starts (R223). -/
def State.startResv (s : State) (v : Resv) : State := { s with resvs := s.resvs ++ [v] }

theorem State.IssuedBy.startResv (h : t.IssuedBy r) (v : Resv) : (t.startResv v).IssuedBy r := h

/-- What a SUMSET whose specs pass leaves: a reservation that has started, or the status 2 (R223, R224). -/
def State.reserved (s : State) (r : Rod) (fr : Frame) (f : ShSumset) (cells : List (BitVec 128)) : State :=
  match s.freeChainIndex r.core with
  | none => s.alter r.uid fun q => q.setS (sIndex f.d) 2
  | some c => (s.startResv (sumsetResv r fr f cells c)).alter r.uid fun q => q.expect (sIndex f.d)

theorem State.IssuedBy.reserved (h : t.IssuedBy r) (fr : Frame) (f : ShSumset) (cells : List (BitVec 128)) :
    (t.reserved r fr f cells).IssuedBy r := by
  unfold State.reserved
  split
  · exact h.alter fun _ => rfl
  · exact (h.startResv _).alter fun _ => rfl

theorem M.sumset_ok {fr : Frame} {f : ShSumset} {cells : List (BitVec 128)} (h : Issues s r (.sumset f))
    (hf : s.frame? r.frame = some fr) (hd : Claims.sumsetTaken f (r.sreg (sIndex f.a)) (r.sreg (sIndex f.b)))
    (hfit : (r.sreg (sIndex f.b)).toNat + ((r.sreg (sIndex f.a)).toNat % 16 + 1) ≤ fr.segS.limit.toNat)
    (hp : Claims.peekable s r 0 (fr.segS.base.toNat + (r.sreg (sIndex f.b)).toNat) ((r.sreg (sIndex f.a)).toNat % 16 + 1))
    (hcells : Claims.peekedCells s r 0 (fr.segS.base.toNat + (r.sreg (sIndex f.b)).toNat)
      ((r.sreg (sIndex f.a)).toNat % 16 + 1) = cells) (hspecs : Claims.specsTaken cells) :
    M.sumset f (s.begun r (.sumset f)) =
      (.ok (), (Claims.forgetCells r (s.begun r (.sumset f))).reserved r fr f cells) := by
  obtain ⟨p, hcur, hk⟩ := State.curRod?_begun h rfl rfl
  obtain ⟨hseg, hcell⟩ := State.begun_sameSegments h rfl
  have hissued := (State.begun_issuedBy h rfl).forgetCells
  have hfits : fr.fits 0 (r.sreg (sIndex f.b)).toNat ((r.sreg (sIndex f.a)).toNat % 16 + 1) = true := decide_eq_true hfit
  unfold M.sumset
  rw [M.bind_ok (M.rod_apply hcur), M.bind_ok (M.frame_begun h rfl hcur hk hf)]
  simp only [(hk.agrees none).sreg, ofNat_field_eq_extractLsb', field_low, hk.loading.core]
  rw [M.bind_ok (M.need_ok (descriptor_pass hd) _ _), M.bind_ok (M.need_ok hfits _ _),
    M.bind_ok (M.peekCells_present hcur hk hseg hcell hp), hcells, M.bind_ok (M.need_ok (specs_pass hspecs) _ _),
    M.bind_ok (M.get_apply _)]
  unfold State.reserved
  cases (Claims.forgetCells r (s.begun r (.sumset f))).freeChainIndex r.core with
  | none => exact onRod_alter hissued _
  | some c =>
    dsimp only
    rw [M.bind_ok (M.upd_apply _ _), hk.loading.uid, hk.loading.asid, hk.loading.frame,
      show specOf = Claims.specAt from funext specOf_eq_specAt]
    exact onRod_alter (hissued.startResv (sumsetResv r fr f cells c)) _

/-- Which chain entry is free does not change before a SUMSET reserves. -/
theorem State.freeChainIndex_begun (s : State) (r : Rod) (f : ShSumset) (core : Nat) :
    (Claims.forgetCells r (s.begun r (.sumset f))).freeChainIndex core = s.freeChainIndex core := by
  obtain ⟨hchains, hresvs, -⟩ := State.begun_ports s r (i := .sumset f) rfl
  unfold Claims.forgetCells
  rw [State.alter_eq]
  exact State.freeChainIndex_congr hchains hresvs core

theorem State.resvs_begun (s : State) (r : Rod) (f : ShSumset) :
    (Claims.forgetCells r (s.begun r (.sumset f))).resvs = s.resvs := by
  unfold Claims.forgetCells
  rw [State.alter_eq]
  exact (State.begun_ports s r (i := .sumset f) rfl).2.1

/-! ### SUMSEND -/

/-- One part's effect of SUMSEND (R225, R226). -/
def M.sumsendPart (i : ShUDA) (b : Option Nat) : M Unit := do
  let r ← M.rod
  let f ← M.frame
  let t := r.targetWord b i.a
  let cell := (r.word b i.d).toNat
  let n := field t 16 12 + 1
  M.need (decide (field t 13 3 = 0 ∧ t < 2 ^ 28) && f.fits 3 cell n) (segmentFault b)
  let cells ← M.peekCells b 3 (f.segC.base.toNat + cell) n
  let s ← get
  if 2 ≤ s.sendBuffer r.core then do
    onRod (modify fun r => { r with peeked := cells })
    throw (.sleep (beadNo b) .sendBuffer false)
  else do
    M.upd fun s => { s with
      credits := s.credits ++ [⟨r.uid, r.frame, r.asid, r.core, b, field t 0 8, field t 8 5, n, wordsOfCells cells, none⟩] }
    throw (.sleep (beadNo b) .credit false)

theorem exec_sumsend_eq (i : ShUDA) (s : State) :
    exec (.sumsend i) s = execute (.sumsend i) (M.each i.u (M.sumsendPart i)) s := rfl

/-- The credit request of a part that sends `n` cells to the slot of the target word `t` (R226). -/
def sumsendCredit (r : Rod) (b : Option Nat) (t n : Nat) (cells : List (BitVec 128)) : Credit :=
  ⟨r.uid, r.frame, r.asid, r.core, b, t % 256, t / 2 ^ 8 % 32, n, Claims.tileWords cells, none⟩

/-- A credit request stands (R226). -/
def State.startCredit (s : State) (c : Credit) : State := { s with credits := s.credits ++ [c] }

theorem State.sendBuffer_begun (s : State) (r : Rod) (f : ShUDA) (core : Nat) :
    (Claims.forgetCells r (s.begun r (.sumsend f))).sendBuffer core = s.sendBuffer core := by
  unfold Claims.forgetCells State.sendBuffer
  rw [State.alter_eq]
  exact congrArg (fun cs : List Credit => (cs.filter fun c => decide (c.core = core)).length)
    (State.begun_ports s r (i := .sumsend f) rfl).2.2.1

/-- A part whose tile is at hand copies it, and sleeps for the reply to its credit request. -/
theorem M.sumsendPart_sleeps {fr : Frame} {f : ShUDA} {b : Option Nat} {n : Nat} (h : Issues s r (.sumsend f))
    (hf : s.frame? r.frame = some fr) (ht : Claims.targetTaken (Claims.windowNumber r b f.a))
    (hn : field (Claims.windowNumber r b f.a) 16 12 + 1 = n) (hfit : (r.word b f.d).toNat + n ≤ fr.segC.limit.toNat)
    (hp : Claims.peekable s r 3 (fr.segC.base.toNat + (r.word b f.d).toNat) n) (hroom : s.sendBuffer r.core < 2) :
    M.sumsendPart f b (s.begun r (.sumsend f)) = (.error (.sleep (beadNo b) .credit false),
      (Claims.forgetCells r (s.begun r (.sumsend f))).startCredit (sumsendCredit r b (Claims.windowNumber r b f.a) n
        (Claims.peekedCells s r 3 (fr.segC.base.toNat + (r.word b f.d).toNat) n))) := by
  obtain ⟨p, hcur, hk⟩ := State.curRod?_begun h rfl rfl
  obtain ⟨hseg, hcell⟩ := State.begun_sameSegments h rfl
  have hbuffer : ¬ 2 ≤ (Claims.forgetCells r (s.begun r (.sumsend f))).sendBuffer r.core := by
    rw [State.sendBuffer_begun]
    omega
  unfold M.sumsendPart
  rw [M.bind_ok (M.rod_apply hcur), M.bind_ok (M.frame_begun h rfl hcur hk hf)]
  simp only [(hk.agrees b).targetWord, (hk.agrees b).word, hk.loading.core, hk.loading.uid, hk.loading.frame, hk.loading.asid,
    Claims.field_zero, hn]
  rw [M.bind_ok (M.need_ok (target_pass ht hfit) _ _), M.bind_ok (M.peekCells_present hcur hk hseg hcell hp),
    M.bind_ok (M.get_apply _), if_neg hbuffer, wordsOfCells_eq_tileWords]
  rfl

/-! ### SUMFREE -/

/-- The effect of SUMFREE (R229). -/
def M.sumfree (f : ShA) : M Unit := do
  let r ← M.rod
  let i := (r.sreg (sIndex f.a)).toNat
  M.need (decide (i < 16)) (.trap 9 4 none 0 0)
  let s ← get
  match s.chain? r.core i with
  | none => throw (capFault none 2)
  | some c =>
    M.need (decide (c.frame = r.frame)) (capFault none 2)
    set (s.freeChain c)
    let s1 ← get
    M.need (s1.chain? r.core i).isNone (.sleep 0 .sumfree false)

theorem exec_sumfree_eq (f : ShA) (s : State) : exec (.sumfree f) s = execute (.sumfree f) (M.sumfree f) s := rfl

/-- A chain of the rod's frame whose granted transfers are all applied is freed. -/
theorem M.sumfree_ok {q : Rod} {f : ShA} {c : Chain} (hcur : t.curRod? = some q) (hi : (q.sreg (sIndex f.a)).toNat < 16)
    (hc : t.chain? q.core (q.sreg (sIndex f.a)).toNat = some c) (hframe : c.frame = q.frame)
    (hsole : ∀ d ∈ t.chains, d.core = q.core → d.index = c.index → d = c)
    (happlied : ∀ p ∈ c.slots, t.grantsLeft p.1 p.2 = false) : M.sumfree f t = (.ok (), t.chainFreed c) := by
  obtain ⟨hcore, hindex⟩ : c.core = q.core ∧ c.index = (q.sreg (sIndex f.a)).toNat := by
    simpa only [decide_eq_true_eq] using List.find?_some hc
  have hfreed : (t.chainFreed c).chain? q.core (q.sreg (sIndex f.a)).toNat = none := by
    rw [← hcore, ← hindex]
    exact State.chain?_chainFreed fun d hd hdc => hsole d hd (hdc.trans hcore)
  unfold M.sumfree
  rw [M.bind_ok (M.rod_apply hcur), M.bind_ok (M.need_ok (decide_eq_true hi) _ _), M.bind_ok (M.get_apply t), hc]
  dsimp only
  rw [M.bind_ok (M.need_ok (decide_eq_true hframe) _ _), State.freeChain_of_applied happlied]
  exact M.need_ok (congrArg Option.isNone hfreed) _ (t.chainFreed c)

end

end Sys2Proof.Machine

namespace Sys2Proof.Claims

open Sys2Proof.Machine

section
variable {s : State} {r : Rod}

theorem sumset_completes {fr : Frame} {f : ShSumset} {cells : List (BitVec 128)} (h : Issues s r (.sumset f))
    (hf : s.frame? r.frame = some fr) (hd : sumsetTaken f (r.sreg (sIndex f.a)) (r.sreg (sIndex f.b)))
    (hfit : (r.sreg (sIndex f.b)).toNat + ((r.sreg (sIndex f.a)).toNat % 16 + 1) ≤ fr.segS.limit.toNat)
    (hp : peekable s r 0 (fr.segS.base.toNat + (r.sreg (sIndex f.b)).toNat) ((r.sreg (sIndex f.a)).toNat % 16 + 1))
    (hcells : peekedCells s r 0 (fr.segS.base.toNat + (r.sreg (sIndex f.b)).toNat)
      ((r.sreg (sIndex f.a)).toNat % 16 + 1) = cells) (hspecs : specsTaken cells) :
    exec (.sumset f) s =
      .next (((forgetCells r (s.begun r (.sumset f))).reserved r fr f cells).through r (.sumset f)) :=
  (exec_sumset_eq f s).trans (execute_issued h rfl (M.sumset_ok h hf hd hfit hp hcells hspecs)
    ((State.begun_issuedBy h rfl).forgetCells.reserved fr f cells))

theorem sumsend_sleeps {fr : Frame} {f : ShUDA} {b : Option Nat} {bs : List (Option Nat)} {n : Nat}
    (h : Issues s r (.sumsend f)) (hf : s.frame? r.frame = some fr) (hparts : r.parts f.u = b :: bs)
    (ht : targetTaken (windowNumber r b f.a)) (hn : field (windowNumber r b f.a) 16 12 + 1 = n)
    (hfit : (r.word b f.d).toNat + n ≤ fr.segC.limit.toNat)
    (hp : peekable s r 3 (fr.segC.base.toNat + (r.word b f.d).toNat) n) (hroom : s.sendBuffer r.core < 2) :
    exec (.sumsend f) s = .next ((((forgetCells r (s.begun r (.sumsend f))).startCredit (sumsendCredit r b
      (windowNumber r b f.a) n (peekedCells s r 3 (fr.segC.base.toNat + (r.word b f.d).toNat) n))).sleepRod
        r.uid (beadNo b) .credit false).tick (r.laneCycles (onceOnly (.sumsend f)))) := by
  obtain ⟨p, hcur, hk⟩ := State.curRod?_begun h rfl rfl
  have hbody := M.forM_error bs (M.sumsendPart_sleeps h hf ht hn hfit hp hroom)
  rw [← hparts, ← hk.loading.parts, ← M.each_apply hcur] at hbody
  rw [exec_sumsend_eq, execute_stopped h rfl hbody]
  rfl

theorem sumfree_frees {f : ShA} {c : Chain} (h : Issues s r (.sumfree f)) (hi : (r.sreg (sIndex f.a)).toNat < 16)
    (hc : s.chain? r.core (r.sreg (sIndex f.a)).toNat = some c) (hframe : c.frame = r.frame)
    (hsole : ∀ d ∈ s.chains, d.core = r.core → d.index = c.index → d = c)
    (happlied : ∀ p ∈ c.slots, s.grantsLeft p.1 p.2 = false) :
    exec (.sumfree f) s = .next (((s.begun r (.sumfree f)).chainFreed c).through r (.sumfree f)) := by
  obtain ⟨p, hcur, hk⟩ := State.curRod?_begun h rfl rfl
  obtain ⟨hchains, -, hcredits, htransfers⟩ := State.begun_ports s r (i := .sumfree f) rfl
  have hsreg := (hk.agrees none).sreg (sIndex f.a)
  have hbody : M.sumfree f (s.begun r (.sumfree f)) = (.ok (), (s.begun r (.sumfree f)).chainFreed c) := by
    refine M.sumfree_ok hcur (hsreg ▸ hi) ?_ (hk.loading.frame ▸ hframe) ?_ fun d hd => ?_
    · rw [hsreg, hk.loading.core]
      unfold State.chain?
      rw [hchains]
      exact hc
    · rw [hchains, hk.loading.core]
      exact hsole
    · unfold State.grantsLeft State.granted State.grantedCredits
      rw [hcredits, htransfers]
      exact happlied d hd
  obtain ⟨q, hq, hu⟩ := State.curRod?_chainFreed hcur c
  exact (exec_sumfree_eq f s).trans (execute_through h rfl hbody hq (hu.trans hk.uid))

end

/-- Settles O36: what precedes the effect of an instruction leaves cells, slots and the tables of the ports as they are, so that
SUMSET and SUMSEND find the cells, and SUMFREE the chain, that the rod found as it issued. -/
theorem carryInstructionsComplete : Obligations.CarryInstructionsComplete := by
  unfold Obligations.CarryInstructionsComplete
  refine ⟨?_, ?_, ?_⟩
  · intro s r fr f h hf desc base ns first cells hd hfit hp hspecs
    have hindex := State.freeChainIndex_begun s r f r.core
    have hnext := sumset_completes h hf hd hfit hp rfl hspecs
    refine ⟨fun c hc => ?_, fun hnone => ?_⟩
    · rw [hnext, State.reserved, hindex, hc]
      dsimp only
      rw [State.startResv, State.resvs_begun]
      rfl
    · rw [hnext, State.reserved, hindex, hnone]
  · intro s r fr f b bs h hf hparts t cell n first ht hfit hp hroom
    exact sumsend_sleeps h hf hparts ht rfl hfit hp hroom
  · intro s r f c h hi hc hframe hsole happlied
    refine (sumfree_frees h hi hc hframe hsole happlied).trans ?_
    rw [State.chainFreed, (State.begun_ports s r rfl).1]
    rfl

end Sys2Proof.Claims
end
